-- ==== Sys2Proof/Word.lean ====
section
/-! DEFINITION. The word types of the Treix 1536 and their plainest arithmetic (00_scope R5-R8, R12).
Helpers that an error could hide in stand in Machine/Bits.lean. -/
namespace Sys2Proof

/-- A byte of memory (R5). -/
abbrev Byte := BitVec 8
/-- A 64-bit scalar register, address or noun (R92). -/
abbrev Word := BitVec 64
/-- One lane of a lane register (R92). -/
abbrev Half := BitVec 32
/-- A mask over the 32 lanes of a phrase (R109). -/
abbrev Mask := BitVec 32
/-- The number of a scalar register s0-s63 (R92). -/
abbrev SReg := BitVec 6
/-- A table of numbered items, at most one item a number. -/
abbrev Tbl (α : Type) := List (Nat × α)

end Sys2Proof
end

