-- ==== Sys2Proof/Syntax.lean ====
section
/-! DEFINITION. The instructions and events of the Treix 1536, one constructor per row of the table of
operations (spec/opcode_table.json): scalar words, lane words, and the events of the machine. -/
namespace Sys2Proof

/-- The conditions of sb.cond (R233). -/
inductive Cond where
  | z | nz | lz | gez | lez | gz
  deriving DecidableEq, Repr

/-- The sizes of a scalar access (R230). -/
inductive MemSize where
  | b | h | w | d
  deriving DecidableEq, Repr

/-- The ORDER field (R231). -/
inductive Order where
  | none | acq | rel | acqrel
  deriving DecidableEq, Repr

/-- The SCOPE field (R231, R445). -/
inductive Scope where
  | phr | crs | clu | die | dev | dom | sys
  deriving DecidableEq, Repr

/-- The ordering field of R231. -/
structure Ordering where
  order : Order
  scope : Scope
  deriving DecidableEq, Repr

/-- The path of swaitp (R232). -/
inductive PathSel where
  | ifv | ifl | ifp | iff | ifh | all
  deriving DecidableEq, Repr

/-- The operands of a copy (R360): a memory-to-memory copy keeps its gutter field, which it does not read. -/
inductive CopyOps where
  | mem (sa sb : SReg) (g : BitVec 3)
  | fromGutter (g : BitVec 3) (sb : SReg)
  | toGutter (sa : SReg) (g : BitVec 3)
  deriving DecidableEq, Repr

/-- The range of an invalidation (R428). -/
inductive InvRange where
  | one | ctx | all
  deriving DecidableEq, Repr

/-- The operand codes of a lane word (R238). An unused field is `v 0`. -/
inductive Operand where
  | v (n : BitVec 8)
  | qIn
  | qOut
  | c (n : BitVec 2)
  | laneid
  | imm
  | s (n : SReg)
  deriving DecidableEq, Repr

/-- The TYPE codes of a lane word (R239): the element types of ETYPE 0x00-0x0B, or the slot. -/
inductive LType where
  | i8 | i16 | i32 | i64 | u8 | u16 | u32 | u64 | f16 | bf16 | f32 | f64 | slot
  deriving DecidableEq, Repr

/-- The FB field (R240): which flag of the header the instruction binds. -/
inductive FlagBind where
  | none | seta | setb
  deriving DecidableEq, Repr

/-- The fields of a lane word after its OPC (R235). `md` is MOD bits 5:0. -/
structure LaneFields where
  dist : BitVec 3
  fsi  : BitVec 3
  vd   : Operand
  va   : Operand
  vb   : Operand
  vc   : Operand
  ty   : LType
  fb   : FlagBind
  md   : BitVec 6
  imm  : BitVec 32
  deriving DecidableEq, Repr

/-- The header of a clause (R237). SETA and SETB of 15 are `none`. -/
structure ClauseHeader where
  waitm : BitVec 12
  seta  : Option (Fin 12)
  setb  : Option (Fin 12)
  len   : BitVec 4
  deriving DecidableEq, Repr

/-- The trap causes of R463, KILLED among them. -/
inductive Cause where
  | illop | priv | align | xlate | access | divz | fptrap | brk | swtrap | noun | copy | fabric
  | pool | host | mxfault | grow | gutter | killed
  deriving DecidableEq, Repr

/-- What an ATS completion grants (R149): nothing, or the page with or without write permission, and the number of the host page
to which it translates. -/
inductive AtsGrant where
  | none
  | page (write : Bool) (host : Nat)
  deriving DecidableEq, Repr

/-- Who makes a request to the management page: host port `hp`, and whether the request carries the T bit on the port's IDE stream
(R482). -/
structure PageReq where
  hp   : Bool
  tbit : Bool
  deriving DecidableEq, Repr

/-- A noun-port command (R394, R395), as the host wrote it. `rsvd` says that a reserved byte or bit is nonzero, `tbit` that
its doorbell carried the T bit on the port's IDE stream (R482), and `bell` is the value written to DOORBELL (R398). -/
structure NpCmd where
  op    : BitVec 8
  reg   : BitVec 2
  force : Bool
  tag   : BitVec 16
  noun  : Word
  value : Word
  caddr : Word
  rsvd  : Bool
  tbit  : Bool
  bell  : Word := 1
  deriving DecidableEq, Repr

/-- The AtomicOps that the host window completes (R480). -/
inductive HostAtomic where
  | fetchAdd | swap | cas
  deriving DecidableEq, Repr

/-- A key-slot request of the lease holder (R373). -/
inductive KeyReq where
  | install (slot : BitVec 10) (key : BitVec 256) (ctx : BitVec 20) (fixed : BitVec 32)
  | erase (slot : BitVec 10)
  deriving DecidableEq, Repr

/-- The vendor requests of R483: IDE_KM key messages and TDISP messages. -/
inductive VendorReq where
  | ideKeyProg (stream : BitVec 8) (key : BitVec 256)
  | ideKeyStop (stream : BitVec 8)
  | tdispLock | tdispStart | tdispStop
  deriving DecidableEq, Repr

/-- A request that comes over DOE at a host port (R483): alone, or as a secured message of the session, with its bytes. -/
structure DoeMsg where
  hp     : Bool
  sealed : Option (List Byte)
  deriving DecidableEq, Repr

/-- A flit that comes at an optical port. -/
structure PortFlit where
  port : BitVec 4
  flit : List Byte
  deriving DecidableEq, Repr

/-- The steps of a link key change that the fabric manager makes (R508). -/
inductive KeyChange where
  | receiver (src : BitVec 10) (gen : BitVec 32) (key : BitVec 256)
  | sender (gen : BitVec 32) (key : BitVec 256)
  deriving DecidableEq, Repr

/-- The operations of a fabric message (R509). -/
inductive FabOp where
  | read | write | atomic | mcast | noun | wack | rresp | fail
  deriving DecidableEq, Repr

/-- The remote operations of vrma (R320). -/
inductive Rop where
  | rd | wr | add | and | or | xor | min | max | swap | cas
  deriving DecidableEq, Repr

/-- The message classes of vrma (R320). -/
inductive MsgCls where
  | auto | direct | relay
  deriving DecidableEq, Repr

/-- One lane of a fabric message: its window offset, its data, and the compare value of a cas. -/
structure FabLane where
  lane : Nat
  off  : Word
  data : Word
  cmp  : Word
  deriving DecidableEq, Repr

/-- A fabric message: the header of R509 and its body. -/
structure FabMsg where
  op    : FabOp
  rop   : Rop
  cls   : MsgCls
  ord   : Bool
  w64   : Bool
  sgn   : Bool
  win   : BitVec 4
  sub   : BitVec 8
  busy  : Bool
  lanes : Mask
  msgid : Nat
  oseq  : Nat
  srcph : Word
  ctx   : Nat
  dst   : Nat
  body  : List FabLane
  deriving DecidableEq, Repr

/-- A firmware image (R545): header fields and body. -/
structure FwImage where
  magic   : BitVec 32
  version : BitVec 32
  digest  : List Byte
  sig     : List Byte
  body    : List Byte
  deriving DecidableEq, Repr

/-- The instructions and events, one constructor per row of the table. Scalar words and lane words carry their
decoded fields; an event carries what the outside world supplies, or names the pending item it is about. -/
inductive Instr where
  /-- R252: Writes the 64-bit wrapped sum of two scalar registers. -/
  | sadd (sd sa sb : SReg)
  /-- R252: Writes the 64-bit wrapped difference of two scalar registers. -/
  | ssub (sd sa sb : SReg)
  /-- R252: Writes the low 64 bits of a scalar product. -/
  | smul (sd sa sb : SReg)
  /-- R252: Writes the high 64 bits of a signed scalar product. -/
  | smulh (sd sa sb : SReg)
  /-- R252: Writes the high 64 bits of an unsigned scalar product. -/
  | smulhu (sd sa sb : SReg)
  /-- R255: Signed 64-bit division under R61; with TRAPEN.DIVZ set, a zero divisor takes DIVZ. -/
  | sdiv (sd sa sb : SReg)
  /-- R255: Unsigned 64-bit division under R61, with DIVZ on a zero divisor when enabled. -/
  | sdivu (sd sa sb : SReg)
  /-- R255: Signed 64-bit remainder under R61, with DIVZ on a zero divisor when enabled. -/
  | srem (sd sa sb : SReg)
  /-- R255: Unsigned 64-bit remainder under R61, with DIVZ on a zero divisor when enabled. -/
  | sremu (sd sa sb : SReg)
  /-- R252: Writes the bitwise AND of two scalar registers. -/
  | sand (sd sa sb : SReg)
  /-- R252: Writes the bitwise OR of two scalar registers. -/
  | sor (sd sa sb : SReg)
  /-- R252: Writes the bitwise XOR of two scalar registers. -/
  | sxor (sd sa sb : SReg)
  /-- R252: Writes a AND NOT b. -/
  | sandn (sd sa sb : SReg)
  /-- R252: Shifts a scalar register left by b[5:0]. -/
  | sshl (sd sa sb : SReg)
  /-- R252: Shifts a scalar register right logically by b[5:0]. -/
  | sshr (sd sa sb : SReg)
  /-- R252: Shifts a scalar register right arithmetically by b[5:0]. -/
  | ssra (sd sa sb : SReg)
  /-- R252: Writes the signed lesser of two scalar registers. -/
  | smin (sd sa sb : SReg)
  /-- R252: Writes the unsigned lesser of two scalar registers. -/
  | sminu (sd sa sb : SReg)
  /-- R252: Writes the signed greater of two scalar registers. -/
  | smax (sd sa sb : SReg)
  /-- R252: Writes the unsigned greater of two scalar registers. -/
  | smaxu (sd sa sb : SReg)
  /-- R253: Counts the leading zero bits of a scalar register. -/
  | sclz (sd sa : SReg)
  /-- R253: Counts the trailing zero bits of a scalar register. -/
  | sctz (sd sa : SReg)
  /-- R253: Counts the one bits of a scalar register. -/
  | spopc (sd sa : SReg)
  /-- R253: Reverses the bits of a scalar register. -/
  | sbrev (sd sa : SReg)
  /-- R253: Extracts a zero-extended bit field. -/
  | sbfx (sd sa : SReg) (pos len : BitVec 6)
  /-- R253: Inserts a bit field into sd, keeping the other bits. -/
  | sbfi (sd sa : SReg) (pos len : BitVec 6)
  /-- R254: Writes 1 if a = b, else 0. -/
  | sseq (sd sa sb : SReg)
  /-- R254: Writes 1 if a differs from b, else 0. -/
  | ssne (sd sa sb : SReg)
  /-- R254: Writes 1 if a < b, signed. -/
  | sslt (sd sa sb : SReg)
  /-- R254: Writes 1 if a < b, unsigned. -/
  | ssltu (sd sa sb : SReg)
  /-- R254: Writes 1 if a <= b, signed. -/
  | ssle (sd sa sb : SReg)
  /-- R254: Writes 1 if a <= b, unsigned. -/
  | ssleu (sd sa sb : SReg)
  /-- R254: Writes a when s[sc] is nonzero, else b. -/
  | ssel (sd sa sb sc : SReg)
  /-- R256: Adds a sign-extended 12-bit immediate. -/
  | saddi (sd sa : SReg) (imm : BitVec 12)
  /-- R256: ANDs with a sign-extended immediate. -/
  | sandi (sd sa : SReg) (imm : BitVec 12)
  /-- R256: ORs with a sign-extended immediate. -/
  | sori (sd sa : SReg) (imm : BitVec 12)
  /-- R256: XORs with a sign-extended immediate. -/
  | sxori (sd sa : SReg) (imm : BitVec 12)
  /-- R256: Shifts left by an immediate count. -/
  | sshli (sd sa : SReg) (sh : BitVec 6)
  /-- R256: Shifts right logically by an immediate count. -/
  | sshri (sd sa : SReg) (sh : BitVec 6)
  /-- R256: Shifts right arithmetically by an immediate count. -/
  | ssrai (sd sa : SReg) (sh : BitVec 6)
  /-- R256: Writes 1 if a < immediate, signed. -/
  | sslti (sd sa : SReg) (imm : BitVec 12)
  /-- R256: Writes 1 if a < sign-extended immediate, unsigned. -/
  | ssltiu (sd sa : SReg) (imm : BitVec 12)
  /-- R257: Writes the zero-extended 18-bit immediate to sd. -/
  | slimm0 (sd : SReg) (imm : BitVec 18)
  /-- R257: Replaces bits 35:18 of sd with the immediate. -/
  | slimm1 (sd : SReg) (imm : BitVec 18)
  /-- R257: Replaces bits 53:36 of sd with the immediate. -/
  | slimm2 (sd : SReg) (imm : BitVec 18)
  /-- R257: Replaces bits 63:54 of sd with the 10-bit immediate. -/
  | slimm3 (sd : SReg) (imm : BitVec 10)
  /-- R258: Branches when s[sa] meets the condition against zero. -/
  | sbCond (c : Cond) (sa : SReg) (off : BitVec 14)
  /-- R258: Jumps PC-relative. -/
  | sj (off : BitVec 14)
  /-- R258: Jumps PC-relative and writes the return address to the link register. -/
  | sjal (sa : SReg) (off : BitVec 14)
  /-- R258: Jumps to the address in s[sa], with ALIGN on a misaligned target. -/
  | sjr (sa : SReg)
  /-- R258: Jumps to s[sa] and writes the return address to sd. -/
  | sjalr (sd sa : SReg)
  /-- R260: Splits EXEC by a mask, creating an aside or reporting refusal in the result word. -/
  | ssplit (sd sa : SReg) (mark : BitVec 4)
  /-- R262: Ends an aside with the stop mark, or waits in a parent for its asides and unions EXEC. -/
  | smerge (mark : BitVec 4)
  /-- R29: A free general slot on the core is given to the oldest queued aside or merged fragment. -/
  | asideSlotGrant (core : Nat)
  /-- R268: Issues a sign-extending scalar load. -/
  | sld (sd sa : SReg) (sz : MemSize) (off : BitVec 10)
  /-- R268: Issues a zero-extending scalar load. -/
  | sldu (sd sa : SReg) (sz : MemSize) (off : BitVec 10)
  /-- R268: Issues a scalar store of the low bytes of s[sd]. -/
  | sst (sd sa : SReg) (sz : MemSize) (off : BitVec 10)
  /-- R271: Compare-and-swap on a naturally aligned word, with ordering field. -/
  | scas (sd sa sb : SReg) (ord : Ordering) (w64 : Bool)
  /-- R271: Atomic add, returning the old value. -/
  | samoAdd (sd sa sb : SReg) (ord : Ordering) (w64 : Bool)
  /-- R271: Atomic AND, returning the old value. -/
  | samoAnd (sd sa sb : SReg) (ord : Ordering) (w64 : Bool)
  /-- R271: Atomic OR, returning the old value. -/
  | samoOr (sd sa sb : SReg) (ord : Ordering) (w64 : Bool)
  /-- R271: Atomic XOR, returning the old value. -/
  | samoXor (sd sa sb : SReg) (ord : Ordering) (w64 : Bool)
  /-- R271: Atomic signed minimum, returning the old value. -/
  | samoMin (sd sa sb : SReg) (ord : Ordering) (w64 : Bool)
  /-- R271: Atomic signed maximum, returning the old value. -/
  | samoMax (sd sa sb : SReg) (ord : Ordering) (w64 : Bool)
  /-- R271: Atomic unsigned minimum, returning the old value. -/
  | samoMinu (sd sa sb : SReg) (ord : Ordering) (w64 : Bool)
  /-- R271: Atomic unsigned maximum, returning the old value. -/
  | samoMaxu (sd sa sb : SReg) (ord : Ordering) (w64 : Bool)
  /-- R271: Atomic swap, returning the old value. -/
  | samoSwap (sd sa sb : SReg) (ord : Ordering) (w64 : Bool)
  /-- R273: Places an acquire, release or full fence of a scope in the fragment's order. -/
  | sfence (ord : Ordering)
  /-- R274: Reads a special register by number into sd. -/
  | sget (sd : SReg) (reg : BitVec 6)
  /-- R274: Writes a special register by number, with access checks and per-register write rules. -/
  | sset (reg : BitVec 6) (sa : SReg)
  /-- R316: Fills a future cell, serving the oldest waiter, and returns its status. -/
  | fset (sd sa sb : SReg) (force : Bool)
  /-- R317: Takes a future's value or queues as a waiter on the cell. -/
  | fget (sd sa : SReg)
  /-- R318: Reads a future cell's STATE without changing it. -/
  | ftest (sd sa : SReg)
  /-- R264: Enqueues a clause with no constants, capturing EXEC. -/
  | slq0 (sa : SReg) (off : BitVec 12)
  /-- R264: Enqueues a clause with one captured constant. -/
  | slq1 (sd sa : SReg) (off : BitVec 12)
  /-- R264: Enqueues a clause with two captured constants. -/
  | slq2 (sd sa : SReg) (off : BitVec 12)
  /-- R264: Enqueues a clause with three captured constants. -/
  | slq3 (sd sa : SReg) (off : BitVec 12)
  /-- R264: Enqueues a clause with four captured constants. -/
  | slq4 (sd sa : SReg) (off : BitVec 12)
  /-- R266: Waits until prior clauses naming the flags have left and the flags read clear. -/
  | swaitf (mask : BitVec 12)
  /-- R266: Waits until no prior clause remains and a path counter reads at most s[sa]. -/
  | swaitp (path : PathSel) (sa : SReg)
  /-- R266: Waits until the lane queue is empty, all flags clear and all path counters zero. -/
  | slsync
  /-- R352: Declares a gutter from a descriptor once no operation names it, zeroing both pointers. -/
  | gdef (g : BitVec 3) (sa : SReg)
  /-- R354: Advances a lane-owned producer pointer after earlier vgwr and room wait. -/
  | gadvP (g : BitVec 3) (sa : SReg)
  /-- R354: Advances a lane-owned consumer pointer after earlier vgrd and presence wait. -/
  | gadvC (g : BitVec 3) (sa : SReg)
  /-- R355: Returns a gutter's declared flag, count present and pointers. -/
  | gstat (sd : SReg) (g : BitVec 3)
  /-- R367: Checks and queues a copy into the open batch of the producer. -/
  | cpcopy (ops : CopyOps)
  /-- R373: Queues a copy that encrypts or decrypts under AES-256-GCM through a key slot. -/
  | cpcrypt (ops : CopyOps)
  /-- R375: Closes the open batch and returns its number. -/
  | cpseal (sd : SReg)
  /-- R376: Waits until at most n batches are unfinished, ordering their writes for the phrase. -/
  | cpwait (n : BitVec 12)
  /-- R372: Restarts a stopped copy from PROGRESS ahead of unfired copies. -/
  | cpresume (ops : CopyOps)
  /-- R377: Abandons a sealed unfinished batch, stopping its copies. -/
  | cpcancel (sd sa : SReg)
  /-- R336: Takes the core's matrix token, waiting if another phrase holds it. -/
  | mxtake
  /-- R336: Passes or frees the matrix token once prior clauses have issued. -/
  | mxgive (sd sa : SReg)
  /-- R338: Asks the cluster power governor for matrix grants. -/
  | mxask (sa : SReg) (imm : BitVec 12)
  /-- R400: Adds the phrase to a course at the lowest free rank. -/
  | senrol (sd sa : SReg)
  /-- R400: Removes the phrase from its course and frees its rank. -/
  | sleave (sd : SReg)
  /-- R403: Arrives at the course barrier as a release and waits for the episode. -/
  | sbar
  /-- R403: Arrives at the cluster barrier of a cluster-placed course and waits. -/
  | sclbar
  /-- R402: Arrives at the barrier between a main phrase and its auxiliary and waits. -/
  | slbar
  /-- R404: Adds blocks of 16 lane registers after the queue drains, or fails with GROWFAIL. -/
  | sgrow (sd : SReg) (n : BitVec 12)
  /-- R404: Removes blocks of 16 lane registers after the queue drains, or fails. -/
  | sshrink (sd : SReg) (n : BitVec 12)
  /-- R389: Sends a wake to a noun through the NDU. -/
  | nwake (sd sa : SReg)
  /-- R389: ORs 16 signal bits into a noun's SIGP through the NDU. -/
  | nsignal (sd sa sb : SReg)
  /-- R389: Deposits a value into dN of a noun's root, unless its DPEND bit is set. -/
  | ndeposit (sd sa sb : SReg) (n : BitVec 2) (force : Bool)
  /-- R392: Waits until a noun is DEAD, then returns its exit value and result word. -/
  | njoin (sd sf sa : SReg)
  /-- R123: Consumes the wake bit or waits for a wake. -/
  | nsleep
  /-- R393: Retires the phrase with an exit value once its queue drains. -/
  | nexit (sa : SReg)
  /-- R25: After every fragment stops and issued accesses and engine operations complete, the noun becomes DEAD and joins end. -/
  | phraseRetire (phrase : Nat)
  /-- R391: Reads a noun's entry into the noun result word without changing it. -/
  | ntest (sd sa : SReg)
  /-- R408: Builds a COMPOSITE seq entry. -/
  | kseq (sd sa sb sp : SReg)
  /-- R408: Builds a COMPOSITE par entry. -/
  | kpar (sd sa sb sp : SReg)
  /-- R408: Builds a COMPOSITE pipe entry. -/
  | kpipe (sd sa sb sp : SReg)
  /-- R408: Builds a COMPOSITE farm entry. -/
  | kfarm (sd sa sp : SReg)
  /-- R408: Builds a COMPOSITE loop entry. -/
  | kloop (sd sa sb sp : SReg)
  /-- R409: Forms or reads a launch packet and applies it, returning the instance noun or a refusal. -/
  | kapply (sd sa sb : SReg) (now : Bool)
  /-- R422: Saves a coroutine phrase into its instance record, suspending the instance with a value. -/
  | kyield (sd sa : SReg)
  /-- R423: Passes a value to a suspended coroutine instance and waits for its next yield or death. -/
  | kresume (sd sf sa sb : SReg)
  /-- R419: Pushes one task word to the phrase's channel or farm deques. -/
  | kemit (sd sa sb : SReg) (farm : Bool)
  /-- R419: Takes one task from the phrase's input, stealing from other deques if needed. -/
  | ktake (sd sf sa : SReg)
  /-- R421: Marks the phrase's TAKEN farm record FREE. -/
  | kdone (sd : SReg)
  /-- R424: Cancels an instance, queued or running. -/
  | kcancel (sd sa : SReg)
  /-- R430: Takes SWTRAP to enter the next trap level on purpose. -/
  | strap (code : BitVec 12)
  /-- R431: Takes BRK, or freezes the core when debug freeze is enabled. -/
  | sbrk (code : BitVec 12)
  /-- R433: Leaves the current trap level and resumes as the level's resume kind gives. -/
  | seret
  /-- R434: Leaves the trap level skipping the faulting instruction or clause. -/
  | seretSkip
  /-- R436: Walker ends a miss record by installing a TLB entry or by a fault. -/
  | tlbfill (sd sa sb : SReg) (tag : BitVec 6)
  /-- R438: Invalidates TLB entries of a page, context or all contexts. -/
  | tlbinv (sd sa sb : SReg) (dom : Bool) (range : InvRange)
  /-- R438: Invalidates cached noun leaves of a noun or context. -/
  | ntinv (sd sa : SReg) (dom : Bool) (range : InvRange)
  /-- R438: Invalidates cached verb entries of an index or context. -/
  | vtinv (sd sa sb : SReg) (dom : Bool) (range : InvRange)
  /-- R440: Kills a context. -/
  | skill (sd sa : SReg)
  /-- R382: A reply of a noun, combinator or invalidation instruction arrives and writes its destination registers, or delivers a NOUN fault. -/
  | replyArrival (id : Nat)
  /-- R268: A scalar load's data or an access's result returns, writing the register or taking its delayed fault. -/
  | scalarAccessComplete (id : Nat)
  /-- R244: A clause whose wait mask is satisfied is fetched and checked, then begins issuing or takes ILLOP or GROW. -/
  | clauseStart (frag : Nat)
  /-- R280: Lane integer addition. -/
  | vadd (f : LaneFields)
  /-- R280: Lane integer subtraction. -/
  | vsub (f : LaneFields)
  /-- R280: Lane integer multiplication. -/
  | vmul (f : LaneFields)
  /-- R280: Lane high half of an integer product. -/
  | vmulh (f : LaneFields)
  /-- R280: Lane integer multiply-add. -/
  | vmad (f : LaneFields)
  /-- R61: Lane integer division, with DIVZ on zero divisors when enabled. -/
  | vdiv (f : LaneFields)
  /-- R61: Lane integer remainder, with DIVZ on zero divisors when enabled. -/
  | vrem (f : LaneFields)
  /-- R280: Lane integer minimum. -/
  | vmin (f : LaneFields)
  /-- R280: Lane integer maximum. -/
  | vmax (f : LaneFields)
  /-- R280: Lane integer absolute value. -/
  | vabs (f : LaneFields)
  /-- R280: Lane bitwise AND. -/
  | vand (f : LaneFields)
  /-- R280: Lane bitwise OR. -/
  | vor (f : LaneFields)
  /-- R280: Lane bitwise XOR. -/
  | vxor (f : LaneFields)
  /-- R280: Lane bitwise NOT. -/
  | vnot (f : LaneFields)
  /-- R280: Lane shift left. -/
  | vshl (f : LaneFields)
  /-- R280: Lane logical shift right. -/
  | vshr (f : LaneFields)
  /-- R280: Lane arithmetic shift right. -/
  | vsra (f : LaneFields)
  /-- R280: Lane rotate left. -/
  | vrot (f : LaneFields)
  /-- R280: Lane count of leading zeros. -/
  | vclz (f : LaneFields)
  /-- R280: Lane population count. -/
  | vpopc (f : LaneFields)
  /-- R280: Lane bit reversal. -/
  | vbrev (f : LaneFields)
  /-- R283: Lane bit-field extract at a per-lane position. -/
  | vbfx (f : LaneFields)
  /-- R283: Lane bit-field insert at a per-lane position. -/
  | vbfi (f : LaneFields)
  /-- R282: Lane add with carry in and out through a carry register. -/
  | vaddc (f : LaneFields)
  /-- R282: Lane subtract with borrow in and out. -/
  | vsubb (f : LaneFields)
  /-- R284: Lane integer compare into lanes or a scalar mask. -/
  | vcmp (f : LaneFields)
  /-- R295: Lane select by a condition register. -/
  | vsel (f : LaneFields)
  /-- R285: Lane floating addition. -/
  | vfadd (f : LaneFields)
  /-- R285: Lane floating subtraction. -/
  | vfsub (f : LaneFields)
  /-- R285: Lane floating multiplication. -/
  | vfmul (f : LaneFields)
  /-- R285: Lane fused multiply-add. -/
  | vfma (f : LaneFields)
  /-- R287: Lane floating minimum. -/
  | vfmin (f : LaneFields)
  /-- R287: Lane floating maximum. -/
  | vfmax (f : LaneFields)
  /-- R285: Lane floating division. -/
  | vfdiv (f : LaneFields)
  /-- R285: Lane floating square root. -/
  | vfsqrt (f : LaneFields)
  /-- R286: Lane correctly rounded reciprocal. -/
  | vfrcp (f : LaneFields)
  /-- R286: Lane correctly rounded reciprocal square root. -/
  | vfrsq (f : LaneFields)
  /-- R286: Lane correctly rounded 2 to the power a. -/
  | vfexp2 (f : LaneFields)
  /-- R286: Lane correctly rounded base-2 logarithm. -/
  | vflog2 (f : LaneFields)
  /-- R288: Lane floating compare into lanes or a scalar mask. -/
  | vfcmp (f : LaneFields)
  /-- R289: Lane floating classification into a one-hot word. -/
  | vfclass (f : LaneFields)
  /-- R289: Lane rounding to an integral value. -/
  | vfrnd (f : LaneFields)
  /-- R292: Lane format conversion, possibly governed by a slot. -/
  | vcvt (f : LaneFields)
  /-- R293: Forms one MX block from the 32 lanes. -/
  | vcvtmx (f : LaneFields)
  /-- R294: Moves a narrow field into a lane register field. -/
  | vpack (f : LaneFields)
  /-- R294: Extracts a narrow field from a lane register. -/
  | vunpack (f : LaneFields)
  /-- R298: Lane shuffle by per-lane index. -/
  | vshuf (f : LaneFields)
  /-- R298: Lane shuffle by xor, up, down or rotate offset. -/
  | vshufx (f : LaneFields)
  /-- R298: Broadcasts lane k to every active lane. -/
  | vbcast (f : LaneFields)
  /-- R299: Gathers nonzero active lanes into a scalar mask. -/
  | vballot (f : LaneFields)
  /-- R299: Writes 1 if any active lane is nonzero. -/
  | vany (f : LaneFields)
  /-- R299: Writes 1 if every active lane is nonzero. -/
  | vall (f : LaneFields)
  /-- R300: Inclusive or exclusive scan over active lanes. -/
  | vscan (f : LaneFields)
  /-- R300: Reduction over active lanes into a scalar register. -/
  | vred (f : LaneFields)
  /-- R301: Copies one lane's value to a scalar register. -/
  | vtos (f : LaneFields)
  /-- R301: Spreads bits of a uniform value over the lanes. -/
  | vfroms (f : LaneFields)
  /-- R295: Lane register move. -/
  | vmov (f : LaneFields)
  /-- R295: Writes an immediate into lanes. -/
  | vmovi (f : LaneFields)
  /-- R309: Lane load from per-lane addresses. -/
  | vld (f : LaneFields)
  /-- R309: Lane store to per-lane addresses. -/
  | vst (f : LaneFields)
  /-- R309: Lane strided load. -/
  | vlds (f : LaneFields)
  /-- R309: Lane strided store. -/
  | vsts (f : LaneFields)
  /-- R310: Lane atomic operation. -/
  | vatom (f : LaneFields)
  /-- R310: Lane compare-and-swap. -/
  | vcas (f : LaneFields)
  /-- R312: Lane fence in the fragment's order. -/
  | vfence (f : LaneFields)
  /-- R313: Prepares translations without reading data or faulting. -/
  | vpref (f : LaneFields)
  /-- R321: Remote access to exported windows, grouped per module. -/
  | vrma (f : LaneFields)
  /-- R325: Multicast write to a list of members, returning a failure bitmap. -/
  | vmcast (f : LaneFields)
  /-- R326: Posts one entry to the context's system-call ring. -/
  | vsysc (f : LaneFields)
  /-- R329: Clears the active lanes from LIVE and every fragment's EXEC. -/
  | vexit (f : LaneFields)
  /-- R346: Loads B from a gutter into the shadow plane. -/
  | mxlds (f : LaneFields)
  /-- R346: Exchanges the active and shadow planes. -/
  | mxswap (f : LaneFields)
  /-- R347: Accumulates A rows from a gutter against the active plane into a tile. -/
  | mxmma (f : LaneFields)
  /-- R348: Complex-mode matrix accumulate. -/
  | mxcmma (f : LaneFields)
  /-- R349: Zeros rows of a tile. -/
  | mxzero (f : LaneFields)
  /-- R349: Converts tile columns into lane registers. -/
  | mxrd (f : LaneFields)
  /-- R349: Copies lane registers into tile columns. -/
  | mxwr (f : LaneFields)
  /-- R350: Converts tile columns into gutter entries. -/
  | mxout (f : LaneFields)
  /-- R356: Writes lane data into a gutter entry. -/
  | vgwr (f : LaneFields)
  /-- R356: Reads a gutter entry into lanes. -/
  | vgrd (f : LaneFields)
  /-- R243: A fixed-latency lane result is written at issue plus L and its flag clears. -/
  | laneResultWrite (id : Nat)
  /-- R307: A lane memory instruction's parts complete or fail, writing results, clearing flags, falling counters and taking any fault. -/
  | laneAccessComplete (id : Nat)
  /-- R144: With the walker's DPEND zero, the oldest miss record is written to its d0-d3 and it is woken. -/
  | walkerRecordDeliver (core : Nat)
  /-- R368: A queued copy fires on a free channel, reads and checks its records. -/
  | copyFire (id : Nat)
  /-- R369: A copy granule completes or fails, updating PROGRESS, gutter pointers, STATE and batch state. -/
  | copyGranule (id : Nat)
  /-- R371: A stopped copy's fault is taken at the issuing fragment's next TL 0 boundary. -/
  | copyFaultTake (frag : Nat)
  /-- R173: A matrix engine operation fires once inputs, room and grant are present. -/
  | matrixFire (core : Nat)
  /-- R333: A matrix engine operation completes, writing tiles, planes or gutters and clearing its flag. -/
  | matrixComplete (core : Nat)
  /-- R546: Each microsecond tick the governor adds grants to its bucket and serves asks oldest first. -/
  | governorTick
  /-- R180: A service core takes a posted system-call entry and serves its lanes in order. -/
  | syscallServe (ctx : Nat)
  /-- R180: The issuing core copies a done entry's results to lanes, frees the entry and clears the flag. -/
  | syscallResultCopy (id : Nat)
  /-- R383: The NDU resolves a noun operation and delivers it by the target's state. -/
  | nounDelivery (id : Nat)
  /-- R164: The dispatcher makes the head's claims and places phrases as places fall free. -/
  | dispatch (part : Nat)
  /-- R163: DTIME reaches an unplaced instance's deadline; it loses the deadline or is dropped with DROPLATE. -/
  | instanceLate (inst : Nat)
  /-- R479: The dispatcher consumes a ready-queue entry, restoring AUTORESTORE phrases. -/
  | readyQueueServe (part : Nat)
  /-- R479: On OVERFLOW with the queue empty, the dispatcher scans noun tables for ready phrases. -/
  | readyQueueScan (part : Nat)
  /-- R485: A context-switch command completes, writing RESULT and raising vector 7. -/
  | csCommandComplete (slot : BitVec 4)
  /-- R488: DTIME reaches EXPIRY; the lease ends and a registered standby takes over. -/
  | leaseExpiry
  /-- R492: DTIME comes within 10^7 ns of EXPIRY and vector 2 is raised. -/
  | leaseNearExpiry
  /-- R150: A page request unanswered for 1 s ends its accesses with HOST TIMEOUT. -/
  | priTimeout (hp : Bool) (ctx page : Nat)
  /-- R184: Space frees in an outbound queue and a held message enters it. -/
  | fabricQueueAdmit (dest : BitVec 10)
  /-- R234: A scalar word with an unallocated or reserved opcode, or a nonzero must-be-zero field, takes ILLOP at issue. -/
  | illopScalarWord (w : BitVec 32)
  /-- R259: A scalar instruction fetch that fails its checks takes XLATE or ACCESS with EPC at the fetch address. -/
  | instructionFetchFault (cause : Cause) (sub : BitVec 8) (addr : Word)
  /-- R302: A class-V cross-lane instruction (vballot, vany, vall, vred, vtos, scalar-destination vcmp or vfcmp) completes, writing its scalar destination and clearing its flag. -/
  | scalarDestinationWrite (id : Nat)
  /-- R177: At the destination the NDU replays the forward queue into the image, and the phrase becomes Saved. -/
  | migrationArrival (noun : Word) (image : Nat)
  /-- R149: An ATS Translation completion fills the host port's translation cache, replaying or sending PRI. -/
  | atsCompletion (hp : Bool) (ctx page : Nat) (grant : AtsGrant)
  /-- R157: An ATS invalidation request from the host removes host translation cache entries. -/
  | atsInvalidation (hp : Bool) (ctx page pages : Nat)
  /-- R150: A Page Request response replays the held accesses or ends them with HOST NOPAGE, or fills a fault-list entry. -/
  | priResponse (hp : Bool) (ctx page : Nat) (success : Bool)
  /-- R496: A pool access unanswered after 50 ms takes POOL NOTREADY. -/
  | poolTimeout (id : Nat)
  /-- R496: A CXL port link goes down; its accesses take NOTREADY, firmware retrains and vector 5 is raised. -/
  | cxlLinkDown (port : BitVec 4)
  /-- R543: A CXL port completes training and joins the pool. -/
  | cxlPortTrained (port : BitVec 4)
  /-- R497: A dynamic-capacity add event makes a new extent and raises vector 5. -/
  | dynamicCapacityAdd (start len : BitVec 32)
  /-- R497: A device's release request raises vector 5 and waits for POOLREL. -/
  | dynamicCapacityReleaseRequest (extent : BitVec 5)
  /-- R498: Firmware reads a CXL device event record and gives it to the lease holder on vector 5. -/
  | cxlEventRecord (record : List Byte)
  /-- R497: Write of the extent release word: stops new accesses, drains and releases the capacity. -/
  | poolrel (hp : PageReq) (value : Word)
  /-- R392: A death notice from another module ends joins on a noun, or returns farm records to READY. -/
  | deathNotice (noun : Word) (xstat xcause : BitVec 8) (exit : Word)
  /-- R563: A supervisor request makes a context resident, or is refused on a number mismatch. -/
  | makeResident (record ctx : Nat)
  /-- R471: Context-switch command saving a phrase to a vault image. -/
  | save (slot : BitVec 4)
  /-- R485: SAVE of every running phrase of a context into one area with a directory. -/
  | saveWholectx (slot : BitVec 4)
  /-- R470: Moves a saved image to pool memory, making the noun SWAPPED. -/
  | swapout (slot : BitVec 4)
  /-- R485: Moves every saved image of a context to a pool area. -/
  | swapoutWholectx (slot : BitVec 4)
  /-- R470: Moves a swapped image back to vault, making the noun SAVED. -/
  | swapin (slot : BitVec 4)
  /-- R485: Moves every swapped image of a context into a vault area. -/
  | swapinWholectx (slot : BitVec 4)
  /-- R175: Starts moving a saved phrase to another core or module, opening a forward queue. -/
  | migrate (slot : BitVec 4)
  /-- R478: Restores a saved phrase at a place. -/
  | restore (slot : BitVec 4)
  /-- R395: Noun-port command binding a host thread and allocating its noun. -/
  | bind (hp : Bool) (np : BitVec 10) (slot : BitVec 6) (cmd : NpCmd)
  /-- R395: Noun-port command making the host-thread noun DEAD and unbinding the port. -/
  | unbind (hp : Bool) (np : BitVec 10) (slot : BitVec 6) (cmd : NpCmd)
  /-- R395: Noun-port wake of a noun. -/
  | wake (hp : Bool) (np : BitVec 10) (slot : BitVec 6) (cmd : NpCmd)
  /-- R395: Noun-port signal of a noun. -/
  | signal (hp : Bool) (np : BitVec 10) (slot : BitVec 6) (cmd : NpCmd)
  /-- R395: Noun-port deposit into a noun. -/
  | deposit (hp : Bool) (np : BitVec 10) (slot : BitVec 6) (cmd : NpCmd)
  /-- R395: Noun-port join, completing when the target is DEAD. -/
  | join (hp : Bool) (np : BitVec 10) (slot : BitVec 6) (cmd : NpCmd)
  /-- R395: Noun-port test returning the noun result word. -/
  | test (hp : Bool) (np : BitVec 10) (slot : BitVec 6) (cmd : NpCmd)
  /-- R395: Noun-port apply of a launch packet read from host memory. -/
  | apply (hp : Bool) (np : BitVec 10) (slot : BitVec 6) (cmd : NpCmd)
  /-- R486: A LEASE write with VALID 1 takes or renews the lease, or is discarded. Here and in the other writes of the management
  page `hp` is the request's port and its T bit (R482). -/
  | leaseWrite (hp : PageReq) (value : Word)
  /-- R486: A LEASE write with VALID 0 by the holder gives up the lease. -/
  | leaseRelease (hp : PageReq)
  /-- R487: A port sets or clears its own standby bit. -/
  | standby (hp : PageReq) (on : Bool)
  /-- R490: A port declares a warm restart of its host by writing HRESTART. -/
  | hrestart (hp : PageReq)
  /-- R490: A host port link goes down, declaring a warm restart. -/
  | hostLinkDown (hp : Bool)
  /-- R490: A Hot Reset or FLR of a host port declares a warm restart. -/
  | hostReset (hp : Bool)
  /-- R490: Port h writes 1 to HSTATh.GONE, re-granting its host pages. -/
  | goneClear (hp : PageReq)
  /-- R160: Write of a launch-queue configuration, discarded while the queue holds instances. -/
  | lqcfgWrite (hp : PageReq) (q : BitVec 6) (value : Word)
  /-- R546: Write of a partition configuration, with the power budget taking effect at the next tick. -/
  | pcfgWrite (hp : PageReq) (part : BitVec 3) (word : BitVec 3) (value : Word)
  /-- R431: The lease holder releases a frozen core, resuming its fragments. -/
  | frzrel (hp : PageReq) (core : Nat)
  /-- R544: The lease holder accepts features, ANDed with FEATOFF, with clears discarded while contexts are resident. -/
  | featonWrite (hp : PageReq) (value : BitVec 128)
  /-- R489: Binds a noun port to a context, or revokes it when EN is cleared. -/
  | npctlWrite (hp : PageReq) (np : BitVec 11) (value : Word)
  /-- R513: Changes an export window for messages arriving afterwards. -/
  | expwinWrite (hp : PageReq) (win : BitVec 4) (word : BitVec 3) (value : Word)
  /-- R226: A write to a fabric port counter sets it to zero. -/
  | counterClear (hp : PageReq) (port : BitVec 4) (ctr : BitVec 4)
  /-- R373: Firmware installs or erases a copy-engine key slot at the lease holder's request. -/
  | keySlotRequest (hp : PageReq) (req : KeyReq)
  /-- R484: A write to a management-page register with no behaviour of its own. -/
  | registerWrite (hp : PageReq) (off : BitVec 16) (value : Word)
  /-- R493: A host read through a BAR4 aperture, an acquire at system scope. -/
  | hostWindowRead (hp : Bool) (tbit : Bool) (off : BitVec 36) (bytes : Nat)
  /-- R493: A host write through a BAR4 aperture, a release at system scope. -/
  | hostWindowWrite (hp : Bool) (tbit : Bool) (off : BitVec 36) (data : List Byte)
  /-- R493: A host AtomicOp performed by the atomic engine or pool agent. -/
  | hostWindowAtomicop (hp : Bool) (tbit : Bool) (off : BitVec 36) (op : HostAtomic) (w64 : Bool) (operand compare : Word)
  /-- R482: TDISP request locking the port's configuration. -/
  | lockInterface (hp : Bool)
  /-- R482: TDISP request moving the port to RUN. -/
  | startInterfaceRequest (hp : Bool)
  /-- R482: The host stops the TDISP interface, ending ERROR. -/
  | stopInterface (hp : Bool)
  /-- R483: SPDM request answered over DOE. -/
  | getVersion (hp : Bool)
  /-- R483: SPDM capabilities request. -/
  | getCapabilities (hp : Bool)
  /-- R483: SPDM algorithm negotiation limited to ML-DSA-44, SHA3-256 and secp384r1. -/
  | negotiateAlgorithms (hp : Bool) (asym hash dhe aead : List Nat)
  /-- R483: SPDM certificate digests request. -/
  | getDigests (hp : Bool)
  /-- R483: SPDM certificate chain request. -/
  | getCertificate (hp : Bool) (off len : BitVec 16)
  /-- R483: SPDM challenge authentication. -/
  | challenge (hp : Bool) (nonce : List Byte)
  /-- R483: SPDM measurements of firmware and configuration. -/
  | getMeasurements (hp : Bool) (index : BitVec 8)
  /-- R483: SPDM session key exchange. -/
  | keyExchange (hp : Bool) (pub : List Byte)
  /-- R483: SPDM session finish. -/
  | finish (hp : DoeMsg) (mac : List Byte)
  /-- R483: SPDM end of session. -/
  | endSession (hp : DoeMsg)
  /-- R483: SPDM vendor request carrying IDE_KM and TDISP. -/
  | vendorDefinedRequest (hp : DoeMsg) (req : VendorReq)
  /-- R499: A rotor slot begins on a port, switching calendar banks at a cycle start and sending the preamble. -/
  | slotStart (port : BitVec 4) (index : BitVec 6)
  /-- R212: A SWITCH write makes the other calendar bank active at the next index 0; firmware has loaded that bank. -/
  | calendarSwitch (port : BitVec 4) (epoch : BitVec 16) (entries : List (BitVec 32))
  /-- R503: A received preamble is checked; a mismatch takes the port down. -/
  | preamble (port : BitVec 4) (flit : List Byte)
  /-- R506: A slot's data period ends; unacknowledged flits fail the replay. -/
  | dataPeriodEnd (port : BitVec 4)
  /-- R506: A message-first flit is checked by CRC and tag and acknowledged or NAKed. -/
  | messageFirst (port : BitVec 4) (flit : List Byte)
  /-- R506: A message-continuation flit is checked and acknowledged. -/
  | messageContinuation (port : BitVec 4) (flit : List Byte)
  /-- R506: An ACK frees a flit from the retry buffer; `flit` is the ACK flit. -/
  | ack (port : BitVec 4) (flit : List Byte)
  /-- R506: A NAK starts a replay from the named LSEQ, or a BUSY retry: the NAK flit, and whether it is marked BUSY. -/
  | nak (port : BitVec 4) (flit : List Byte) (busy : Bool)
  /-- R508: The receiver erases the named key generation for the sender: the KEYCLEAR flit, and the generation that it names. -/
  | keyclear (port : BitVec 4) (flit : List Byte) (gen : BitVec 32)
  /-- R505: An idle flit carries nothing. -/
  | idle (port : PortFlit)
  /-- R507: An optical lane fails; its flits move to surviving lanes and vector 6 is raised. -/
  | laneFail (port : BitVec 4) (lane : BitVec 2)
  /-- R508: The fabric manager installs a new link key generation and switches the sender. -/
  | keyChange (port : BitVec 4) (change : KeyChange)
  /-- R503: The fabric manager brings a port or lane up at a cycle start. -/
  | portBringUp (port : BitVec 4) (lanes : BitVec 4)
  /-- R510: An arriving fabric read is performed once and answered with data. -/
  | read (src : BitVec 10) (msg : FabMsg)
  /-- R510: An arriving fabric write is performed once, in OSEQ order when ordered, and acknowledged. -/
  | write (src : BitVec 10) (msg : FabMsg)
  /-- R510: An arriving fabric atomic is performed at the owning unit and answered. -/
  | atomic (src : BitVec 10) (msg : FabMsg)
  /-- R325: An arriving multicast message's writes are performed wholly or not at all. -/
  | multicastWrite (src : BitVec 10) (msg : FabMsg)
  /-- R511: An arriving noun operation is delivered in stream order. -/
  | nounOperation (src : BitVec 10) (msg : FabMsg)
  /-- R454: A write acknowledgement completes a fabric write at the sender. -/
  | writeAcknowledgement (src : BitVec 10) (msg : FabMsg)
  /-- R510: A read or atomic response returns data to the sender's lanes. -/
  | readResponse (src : BitVec 10) (msg : FabMsg)
  /-- R323: A failure response fails lanes, or makes the sender resend after BUSY. -/
  | failureResponse (src : BitVec 10) (msg : FabMsg)
  /-- R543: Module reset verifies firmware, zeroes memories and enters reduced service. -/
  | moduleReset (image : FwImage)
  /-- R24: Power loss makes every phrase of the module DEAD. -/
  | powerLoss
  /-- R543: Once CXL ports trained or timed out and optical ports tried, the clock goes to 1.1 GHz and FULL is set. -/
  | fullServiceStart
  /-- R548: A sensor reaches 105 C and governors halve their grant rate. -/
  | thermalThrottle (die : BitVec 2)
  /-- R548: Coolant temperature or flow breach is reported on vector 5. -/
  | coolantBreach
  /-- R549: A sensor reaches 115 C, a fatal error. -/
  | thermal (sensor : Word)
  /-- R549: An uncorrectable error in firmware SRAM, an NDU or relay SRAM, a fatal error. -/
  | uncorr (addr : Word)
  /-- R549: A failed firmware self-check, a fatal error. -/
  | fwfault
  /-- R491: A host port's PCIe link comes up, setting HSTATn.LINKUP and making the port eligible for standby takeover. -/
  | hostLinkUp (hp : Bool)
  /-- R548: Every matrix-array sensor of a die falls below 105 C and its governors return to adding Q grants per tick. -/
  | temperatureBelow105C (die : BitVec 2)
  /-- R177: A migration is abandoned back to the source, which replays the forward queue there and makes the phrase Saved at the source. -/
  | migrationAbandon (noun : Word)
  /-- R183: A cluster is power-gated without save, and the NDU's death notice returns its takers' TAKEN farm records to READY. -/
  | clusterGated (cluster : Nat)
  deriving DecidableEq, Repr

end Sys2Proof
end

