-- ==== Sys2Proof/WellFormed.lean ====
section
/-! DEFINITION. The checks that a decoded instruction must pass by itself: the field rules of scalar words
(R230-R234) and, of the clause-start checks of R244, those that need neither header nor phrase. -/
namespace Sys2Proof

/-- The ordering field of R231: ORDER 00 needs SCOPE 000. -/
def Ordering.wf (o : Ordering) : Bool := o.order != .none || o.scope == .phr

/-! ### Lane words -/

/-- What a VD field may hold (R241, R277, R306). -/
inductive DstKind where
  | zero | lane | laneOrScalar | scalar | laneReg
  deriving DecidableEq, Repr

/-- What a source field may hold (R277, R303, R306, R320, R324, R326, R356). -/
inductive SrcKind where
  | zero | src | srcB | constOrB | laneReg | base | const | peer | idx
  deriving DecidableEq, Repr

/-- How an instruction uses IMM. -/
inductive ImmKind where
  | bcast | bits (n : Nat) | bfLen | srcType | srcFloat | field | movi | mem | atom | strided | rma | mcast | sysc
  | mxlds | mxmma | mxzero | mxrd | mxwr | mxout | gutter
  deriving DecidableEq, Repr

/-- How an instruction uses MOD bits 5:0 (R240, R276, R281, R284, R290, R292, R300). -/
inductive ModKind where
  | zero | sat | cnd6 | cnd8 | rmSat | rm | cvt | scan | red | shufx | first | froms
  | load | store | atomic | fence | rma | mcast
  deriving DecidableEq, Repr

/-- The shape of a lane instruction: accepted types and the use of each field. -/
structure LaneShape where
  tys : List LType
  vd  : DstKind
  va  : SrcKind
  vb  : SrcKind
  vc  : SrcKind
  im  : ImmKind
  md  : ModKind
  deriving DecidableEq, Repr

def tysInt : List LType := [.i8, .i16, .i32, .i64, .u8, .u16, .u32, .u64]
def tysFloat : List LType := [.f16, .bf16, .f32, .f64]
def tysAll : List LType := tysInt ++ tysFloat
def tysWord : List LType := [.i32, .i64, .u32, .u64]
def tysNone : List LType := [.i8]

/-- The fields of a lane instruction, if it is one. -/
def Instr.lane? : Instr → Option LaneFields
  | .vadd f | .vsub f | .vmul f | .vmulh f | .vmad f | .vdiv f | .vrem f | .vmin f
  | .vmax f | .vabs f | .vand f | .vor f | .vxor f | .vnot f | .vshl f | .vshr f
  | .vsra f | .vrot f | .vclz f | .vpopc f | .vbrev f | .vbfx f | .vbfi f | .vaddc f
  | .vsubb f | .vcmp f | .vsel f | .vfadd f | .vfsub f | .vfmul f | .vfma f | .vfmin f
  | .vfmax f | .vfdiv f | .vfsqrt f | .vfrcp f | .vfrsq f | .vfexp2 f | .vflog2 f | .vfcmp f
  | .vfclass f | .vfrnd f | .vcvt f | .vcvtmx f | .vpack f | .vunpack f | .vshuf f | .vshufx f
  | .vbcast f | .vballot f | .vany f | .vall f | .vscan f | .vred f | .vtos f | .vfroms f
  | .vmov f | .vmovi f | .vld f | .vst f | .vlds f | .vsts f | .vatom f | .vcas f
  | .vfence f | .vpref f | .vrma f | .vmcast f | .vsysc f | .vexit f | .mxlds f | .mxswap f
  | .mxmma f | .mxcmma f | .mxzero f | .mxrd f | .mxwr f | .mxout f | .vgwr f | .vgrd f => some f
  | _ => none

/-- The shape of a lane instruction (R241, R277, R304-R326, R344, R356). -/
def laneShape : Instr → Option LaneShape
  | .vadd _ | .vsub _ | .vmul _ => some ⟨tysInt, .lane, .srcB, .srcB, .zero, .bcast, .sat⟩
  | .vmulh _ | .vdiv _ | .vrem _ | .vrot _ => some ⟨tysWord, .lane, .srcB, .srcB, .zero, .bcast, .zero⟩
  | .vmad _ => some ⟨tysInt, .lane, .srcB, .srcB, .srcB, .bcast, .sat⟩
  | .vmin _ | .vmax _ | .vand _ | .vor _ | .vxor _ | .vshr _ | .vsra _ =>
    some ⟨tysInt, .lane, .srcB, .srcB, .zero, .bcast, .zero⟩
  | .vabs _ => some ⟨[.i8, .i16, .i32, .i64], .lane, .srcB, .zero, .zero, .bcast, .sat⟩
  | .vnot _ => some ⟨tysInt, .lane, .srcB, .zero, .zero, .bcast, .zero⟩
  | .vshl _ => some ⟨tysInt, .lane, .srcB, .srcB, .zero, .bcast, .sat⟩
  | .vclz _ | .vpopc _ | .vbrev _ => some ⟨tysWord, .lane, .srcB, .zero, .zero, .bcast, .zero⟩
  | .vbfx _ => some ⟨[.i32, .u32], .lane, .src, .src, .zero, .bfLen, .zero⟩
  | .vbfi _ => some ⟨[.i32, .u32], .laneReg, .src, .src, .zero, .bfLen, .zero⟩
  | .vaddc _ | .vsubb _ => some ⟨[.u32, .u64], .lane, .srcB, .srcB, .laneReg, .bcast, .zero⟩
  | .vcmp _ => some ⟨tysInt, .laneOrScalar, .srcB, .srcB, .zero, .bcast, .cnd6⟩
  | .vsel _ => some ⟨tysAll, .lane, .srcB, .srcB, .srcB, .bcast, .zero⟩
  | .vfadd _ | .vfsub _ | .vfmul _ | .vfdiv _ => some ⟨tysFloat, .lane, .srcB, .srcB, .zero, .bcast, .rmSat⟩
  | .vfma _ => some ⟨tysFloat, .lane, .srcB, .srcB, .srcB, .bcast, .rmSat⟩
  | .vfmin _ | .vfmax _ => some ⟨tysFloat, .lane, .srcB, .srcB, .zero, .bcast, .zero⟩
  | .vfsqrt _ | .vfrcp _ | .vfrsq _ | .vfexp2 _ | .vflog2 _ =>
    some ⟨tysFloat, .lane, .srcB, .zero, .zero, .bcast, .rmSat⟩
  | .vfcmp _ => some ⟨tysFloat, .laneOrScalar, .srcB, .srcB, .zero, .bcast, .cnd8⟩
  | .vfclass _ => some ⟨tysFloat, .lane, .srcB, .zero, .zero, .bcast, .zero⟩
  | .vfrnd _ => some ⟨tysFloat, .lane, .srcB, .zero, .zero, .bcast, .rm⟩
  | .vcvt _ => some ⟨tysAll ++ [.slot], .lane, .src, .zero, .zero, .srcType, .cvt⟩
  | .vcvtmx _ => some ⟨[.slot], .lane, .src, .zero, .zero, .srcFloat, .zero⟩
  | .vpack _ => some ⟨[.i8, .i16, .u8, .u16, .f16, .bf16, .slot], .laneReg, .src, .zero, .zero, .field, .zero⟩
  | .vunpack _ => some ⟨[.i8, .i16, .u8, .u16, .f16, .bf16, .slot], .lane, .src, .zero, .zero, .field, .zero⟩
  | .vshuf _ => some ⟨tysAll, .lane, .src, .srcB, .zero, .bcast, .zero⟩
  | .vshufx _ => some ⟨tysAll, .lane, .src, .zero, .zero, .bits 5, .shufx⟩
  | .vbcast _ => some ⟨tysAll, .lane, .src, .zero, .zero, .bits 5, .zero⟩
  | .vballot _ | .vany _ | .vall _ => some ⟨[.i32, .u32], .scalar, .src, .zero, .zero, .bits 0, .zero⟩
  | .vscan _ => some ⟨[.i32, .i64, .u32, .u64, .f32, .f64], .lane, .src, .zero, .zero, .bits 0, .scan⟩
  | .vred _ => some ⟨[.i32, .i64, .u32, .u64, .f32, .f64], .scalar, .src, .zero, .zero, .bits 0, .red⟩
  | .vtos _ => some ⟨tysWord, .scalar, .src, .zero, .zero, .bits 5, .first⟩
  | .vfroms _ => some ⟨tysWord, .lane, .constOrB, .zero, .zero, .bcast, .froms⟩
  | .vmov _ => some ⟨tysAll, .lane, .srcB, .zero, .zero, .bcast, .zero⟩
  | .vmovi _ => some ⟨tysAll, .lane, .zero, .zero, .zero, .movi, .zero⟩
  | .vld _ => some ⟨tysAll, .laneReg, .base, .idx, .zero, .mem, .load⟩
  | .vst _ => some ⟨tysAll, .zero, .base, .idx, .src, .mem, .store⟩
  | .vlds _ => some ⟨tysAll, .laneReg, .base, .const, .zero, .strided, .load⟩
  | .vsts _ => some ⟨tysAll, .zero, .base, .const, .src, .strided, .store⟩
  | .vatom _ => some ⟨tysWord, .laneReg, .base, .idx, .src, .atom, .atomic⟩
  | .vcas _ => some ⟨tysWord, .laneReg, .base, .idx, .src, .mem, .atomic⟩
  | .vfence _ => some ⟨tysNone, .zero, .zero, .zero, .zero, .bits 0, .fence⟩
  | .vpref _ => some ⟨tysNone, .zero, .base, .idx, .zero, .mem, .zero⟩
  | .vrma _ => some ⟨tysWord, .laneReg, .peer, .base, .src, .rma, .rma⟩
  | .vmcast _ => some ⟨tysWord, .scalar, .const, .base, .src, .mcast, .mcast⟩
  | .vsysc _ => some ⟨tysNone, .laneReg, .base, .base, .base, .sysc, .zero⟩
  | .vexit _ => some ⟨tysNone, .zero, .zero, .zero, .zero, .bits 0, .zero⟩
  | .mxlds _ => some ⟨[.slot], .zero, .zero, .zero, .zero, .mxlds, .zero⟩
  | .mxswap _ => some ⟨tysNone, .zero, .zero, .zero, .zero, .bits 0, .zero⟩
  | .mxmma _ | .mxcmma _ => some ⟨[.slot], .zero, .zero, .zero, .zero, .mxmma, .zero⟩
  | .mxzero _ => some ⟨tysNone, .zero, .zero, .zero, .zero, .mxzero, .zero⟩
  | .mxrd _ => some ⟨[.slot], .laneReg, .zero, .zero, .zero, .mxrd, .zero⟩
  | .mxwr _ => some ⟨[.i32, .u32, .f32, .f64], .zero, .laneReg, .zero, .zero, .mxwr, .zero⟩
  | .mxout _ => some ⟨[.slot], .zero, .zero, .zero, .zero, .mxout, .zero⟩
  | .vgwr _ => some ⟨tysAll, .zero, .zero, .laneReg, .src, .gutter, .zero⟩
  | .vgrd _ => some ⟨tysAll, .lane, .zero, .laneReg, .zero, .gutter, .zero⟩
  | _ => none

/-- The width in bits of a TYPE other than the slot's (R58, R63). -/
def LType.bits : LType → Nat
  | .i8 | .u8 => 8
  | .i16 | .u16 | .f16 | .bf16 => 16
  | .i32 | .u32 | .f32 => 32
  | .i64 | .u64 | .f64 => 64
  | .slot => 32

def DstKind.ok (k : DstKind) : Operand → Bool
  | .v n => match k with
    | .zero => n == 0
    | .scalar => false
    | _ => true
  | .qOut => k == .lane || k == .laneOrScalar
  | .s _ => k == .scalar || k == .laneOrScalar
  | _ => false

/-- Whether an operand is of a kind. DESIGN CHOICE: a base register that is odd (R305) makes the word no instruction, so that it takes ILLOP
before a GROW of R98 (R244; log 72). -/
def SrcKind.ok (k : SrcKind) : Operand → Bool
  | .v n => match k with
    | .zero => n == 0
    | .base => n.getLsbD 0 == false
    | .const | .constOrB => false
    | _ => true
  | .qIn => k == .src || k == .srcB || k == .idx
  | .c _ => k == .src || k == .srcB || k == .constOrB || k == .base || k == .const || k == .peer || k == .idx
  | .laneid => k == .src || k == .srcB || k == .idx
  | .imm => k == .srcB || k == .constOrB
  | _ => false

/-- Bits of IMM from `n` up are zero. -/
def immBelow (imm : BitVec 32) (n : Nat) : Bool := imm >>> n == 0

/-- The memory fields of IMM (R304) other than the atomic ones: bits 31:25 zero, SC 0 to 3. An index field that no
index uses must be zero, and VB must then be 0x000. -/
def immMem (f : LaneFields) : Bool :=
  f.imm.extractLsb' 22 1 == 0 &&
  (f.imm.getLsbD 23 || (f.vb == .v 0 && f.imm.extractLsb' 20 2 == 0 && f.imm.getLsbD 24 == false))

/-- The column fields of IMM (R344): COL + CNT within the tile, 32 columns, or 16 of 64 bits. -/
def immCols (imm : BitVec 32) (wide : Bool) : Bool :=
  (imm.extractLsb' 16 5).toNat + (imm.extractLsb' 22 5).toNat + 1 ≤ (if wide then 16 else 32)

/-- The IMM field of an instruction (R244). -/
def ImmKind.ok (k : ImmKind) (f : LaneFields) : Bool :=
  let bcast := f.va == .imm || f.vb == .imm || f.vc == .imm
  match k with
  | .bcast => if bcast then f.ty != .slot && (f.ty.bits ≥ 32 || immBelow f.imm f.ty.bits) else f.imm == 0
  | .bits n => immBelow f.imm n
  | .bfLen => immBelow f.imm 6 && f.imm != 0 && f.imm.toNat ≤ 32
  | .srcType => f.imm.toNat ≤ 12 && (f.ty != .slot || f.imm.toNat != 12)
  | .srcFloat => 8 ≤ f.imm.toNat && f.imm.toNat ≤ 11
  | .field => match f.ty with
    | .slot => f.imm.toNat < 8
    | _ => f.imm.toNat < 32 / f.ty.bits
  | .movi => f.ty.bits ≥ 32 || immBelow f.imm f.ty.bits
  | .mem => immBelow f.imm 25 && immMem f
  | .atom => immBelow f.imm 30 && (f.imm.extractLsb' 25 4).toNat ≤ 6 && immMem f &&
    (f.imm.getLsbD 29 == false || f.vd == .v 0)
  | .strided => immBelow f.imm 20
  | .rma => immBelow f.imm 6 && (f.imm.extractLsb' 0 4).toNat ≤ 9 && f.imm.extractLsb' 4 2 != 3 &&
    (f.imm.extractLsb' 0 4 != 0 || f.vc == .v 0) && (f.imm.extractLsb' 0 4 != 1 || f.vd == .v 0)
  | .mcast => immBelow f.imm 10 && f.imm.getLsbD 7 == false && f.imm.extractLsb' 8 2 != 3 &&
    1 ≤ (f.imm.extractLsb' 0 7).toNat && (f.imm.extractLsb' 0 7).toNat ≤ 64
  | .sysc => immBelow f.imm 18 &&
    (3 ≤ (f.imm.extractLsb' 16 2).toNat || f.vc == .v 0) &&
    (2 ≤ (f.imm.extractLsb' 16 2).toNat || f.vb == .v 0) &&
    (1 ≤ (f.imm.extractLsb' 16 2).toNat || f.va == .v 0) &&
    (match f.vd with | .v n => n.getLsbD 0 == false | _ => false)
  | .mxlds => f.imm &&& 0xFFFFE08F#32 == 0 && f.imm.getLsbD 8 == false &&
    f.imm.extractLsb' 9 2 != 3 && f.imm.extractLsb' 11 2 != 3
  | .mxmma => f.imm &&& 0xFFFFFF88#32 == 0
  | .mxzero => f.imm &&& 0xFFFFFFF8#32 == 0
  | .mxrd => f.imm &&& 0xE020FFF8#32 == 0 && f.imm.extractLsb' 27 2 != 3 &&
    immCols f.imm (f.imm.extractLsb' 27 2 == 2)
  | .mxwr => f.imm &&& 0xF820FFF8#32 == 0 && immCols f.imm (f.ty == .f64)
  | .mxout => f.imm &&& 0xE020FF88#32 == 0 && f.imm.extractLsb' 27 2 != 3 &&
    immCols f.imm (f.imm.extractLsb' 27 2 == 2)
  | .gutter => f.imm &&& 0xFC000008#32 == 0

/-- MOD bits 5:0 read as the ordering field of R231: ORDER 00 needs SCOPE 000, and SCOPE 111 is reserved. -/
def modOrder (md : BitVec 6) : Bool :=
  md.extractLsb' 1 3 != 7 && (md.extractLsb' 4 2 != 0 || md.extractLsb' 1 3 == 0)

/-- MOD bits 5:0 of an instruction (R240, R244). -/
def ModKind.ok (k : ModKind) (f : LaneFields) : Bool :=
  let md := f.md
  let flt := f.ty == .f32 || f.ty == .f64
  let rmOk := md.extractLsb' 0 2 == 0 && (md.extractLsb' 2 3).toNat ≤ 4
  match k with
  | .zero => md == 0
  | .sat => md.extractLsb' 0 5 == 0
  | .cnd6 => md.toNat ≤ 5
  | .cnd8 => md.toNat ≤ 7
  | .rmSat => rmOk
  | .rm => rmOk && md.getLsbD 5 == false
  | .cvt => if f.ty == .slot then md == 0 else rmOk
  | .scan => (md.extractLsb' 0 3).toNat ≤ (if flt then 2 else 5) && md.getLsbD 4 == false &&
    (md.getLsbD 5 == false || (md.extractLsb' 0 3 == 0 && !flt))
  | .red => (md.extractLsb' 0 3).toNat ≤ (if flt then 2 else 5) && md.extractLsb' 3 2 == 0 &&
    (md.getLsbD 5 == false || (md.extractLsb' 0 3 == 0 && !flt))
  | .shufx => md.toNat ≤ 3
  | .first => md.toNat ≤ 1
  | .froms => md.toNat ≤ 3 && (md.getLsbD 1 == false || f.va != .imm)
  | .load => modOrder md && md.getLsbD 0 == false && md.getLsbD 5 == false
  | .store => modOrder md && md.getLsbD 0 == false && md.getLsbD 4 == false
  | .atomic => modOrder md && md.getLsbD 0 == false
  | .fence => modOrder md && md.getLsbD 0 == false && md.extractLsb' 4 2 != 0
  | .rma => modOrder md && (md.extractLsb' 4 2 == 0 || 5 ≤ (md.extractLsb' 1 3).toNat) &&
    (md.getLsbD 0 == false || f.imm.extractLsb' 0 4 == 1)
  | .mcast => modOrder md && md.getLsbD 4 == false && (md.extractLsb' 4 2 == 0 || 5 ≤ (md.extractLsb' 1 3).toNat)

/-- Whether a slot governs the instruction or gives its source type (R79, R292). -/
def slotNamed (i : Instr) (f : LaneFields) : Bool :=
  f.ty == .slot || (match i with | .vcvt _ => f.imm == 12 | _ => false)

/-- The operand of a carry register differs from VD (R277). -/
def carryDiffers (i : Instr) (f : LaneFields) : Bool :=
  match i with
  | .vaddc _ | .vsubb _ => f.vc != f.vd
  | _ => true

/-- The checks of R244 that a lane word must pass by itself. -/
def laneWf (i : Instr) (f : LaneFields) : Bool :=
  match laneShape i with
  | none => false
  | some sh =>
    sh.tys.contains f.ty && sh.vd.ok f.vd && sh.va.ok f.va && sh.vb.ok f.vb && sh.vc.ok f.vc &&
    sh.im.ok f && sh.md.ok f && carryDiffers i f && (slotNamed i f || f.fsi == 0) &&
    (match i with | .vexit _ => f.fb == .none | _ => true)

/-- The field rules of a scalar word (R230-R234), of a lane word (R244), and the ranges of an event's data. -/
def Instr.wf : Instr → Bool
  | .sbfx _ _ pos len | .sbfi _ _ pos len => pos.toNat + len.toNat + 1 ≤ 64
  | .scas _ _ _ o _ | .samoAdd _ _ _ o _ | .samoAnd _ _ _ o _ | .samoOr _ _ _ o _ | .samoXor _ _ _ o _
  | .samoMin _ _ _ o _ | .samoMax _ _ _ o _ | .samoMinu _ _ _ o _ | .samoMaxu _ _ _ o _
  | .samoSwap _ _ _ o _ => o.wf
  | .sfence o => o.order != .none
  | .slq1 _ _ _ => true
  | .slq2 sd _ _ => sd.toNat + 1 ≤ 63
  | .slq3 sd _ _ => sd.toNat + 2 ≤ 63
  | .slq4 sd _ _ => sd.toNat + 3 ≤ 63
  | .cpwait n => n.toNat ≤ 256
  | .sgrow _ n | .sshrink _ n => 1 ≤ n.toNat && n.toNat ≤ 14
  | .ntinv _ _ _ r | .vtinv _ _ _ _ r => r != .all
  | i => match i.lane? with
    | some f => laneWf i f
    | none => true

end Sys2Proof
end

