-- ==== Sys2Proof/Decode.lean ====
section
/-! DEFINITION. The decoders of scalar words, lane words and clause headers (R229-R241), total on any bits and
rejecting by name, and the encoders written from the same tables. -/
namespace Sys2Proof

/-- Why a word is no instruction. -/
inductive DecodeError where
  | unallocated   -- the opcode is unallocated or reserved (R232, R241)
  | badField      -- a field that must be zero is not, or a field is out of range (R234, R244)
  | reserved      -- a field holds a reserved value (R233, R231, R238-R240)
  deriving DecidableEq, Repr

/-! ### Field codes -/

def condCode : Cond → BitVec 4
  | .z => 0 | .nz => 1 | .lz => 2 | .gez => 3 | .lez => 4 | .gz => 5

def condOf (c : BitVec 4) : Option Cond :=
  match c.toNat with
  | 0 => some .z | 1 => some .nz | 2 => some .lz | 3 => some .gez | 4 => some .lez | 5 => some .gz
  | _ => none

def sizeCode : MemSize → BitVec 2
  | .b => 0 | .h => 1 | .w => 2 | .d => 3

def sizeOf (z : BitVec 2) : MemSize :=
  match z.toNat with
  | 0 => .b | 1 => .h | 2 => .w | _ => .d

def pathCode : PathSel → BitVec 3
  | .ifv => 0 | .ifl => 1 | .ifp => 2 | .iff => 3 | .ifh => 4 | .all => 7

def pathOf (p : BitVec 3) : Option PathSel :=
  match p.toNat with
  | 0 => some .ifv | 1 => some .ifl | 2 => some .ifp | 3 => some .iff | 4 => some .ifh | 7 => some .all
  | _ => none

def Order.code : Order → BitVec 2
  | .none => 0 | .acq => 1 | .rel => 2 | .acqrel => 3

def orderOf (o : BitVec 2) : Order :=
  match o.toNat with
  | 0 => .none | 1 => .acq | 2 => .rel | _ => .acqrel

def Scope.code : Scope → BitVec 3
  | .phr => 0 | .crs => 1 | .clu => 2 | .die => 3 | .dev => 4 | .dom => 5 | .sys => 6

def scopeOf (c : BitVec 3) : Option Scope :=
  match c.toNat with
  | 0 => some .phr | 1 => some .crs | 2 => some .clu | 3 => some .die | 4 => some .dev | 5 => some .dom | 6 => some .sys
  | _ => none

def bit1 (b : Bool) : BitVec 6 := if b then 1 else 0

/-- The ordering field of R231 in a fn field. -/
def orderField (o : Ordering) (b0 : Bool) : BitVec 6 :=
  o.order.code ++ o.scope.code ++ (if b0 then 1#1 else 0#1)

/-- The ordering field read back; SCOPE 111 is reserved (R231). -/
def orderingOf (fn : BitVec 6) : Option Ordering :=
  (scopeOf (fn.extractLsb' 1 3)).map fun s => ⟨orderOf (fn.extractLsb' 4 2), s⟩

def rangeField (dom : Bool) (r : InvRange) : BitVec 6 :=
  (0#3) ++ (if dom then 1#1 else 0#1) ++ (match r with | .one => 0#2 | .ctx => 1#2 | .all => 2#2)

def rangeOf (fn : BitVec 6) : Option InvRange :=
  match (fn.extractLsb' 0 2).toNat with
  | 0 => some .one | 1 => some .ctx | 2 => some .all
  | _ => none

/-! ### Scalar formats (R229) -/

def encSA (op : BitVec 8) (sd sa sb fn : BitVec 6) : BitVec 32 := op ++ sd ++ sa ++ sb ++ fn
def encSI (op : BitVec 8) (sd sa : BitVec 6) (imm : BitVec 12) : BitVec 32 := op ++ sd ++ sa ++ imm
def encSJ (op : BitVec 8) (cnd : BitVec 4) (sa : BitVec 6) (off : BitVec 14) : BitVec 32 := op ++ cnd ++ sa ++ off
def encSL (op : BitVec 8) (sd : BitVec 6) (imm : BitVec 18) : BitVec 32 := op ++ sd ++ imm
def encSM (op : BitVec 8) (sd sa : BitVec 6) (sz : BitVec 2) (off : BitVec 10) : BitVec 32 := op ++ sd ++ sa ++ sz ++ off

def encCopy (op : BitVec 8) : CopyOps → BitVec 32
  | .mem sa sb g => encSA op 0 sa sb (g ++ 0#3)
  | .fromGutter g sb => encSA op 0 0 sb (g ++ 2#3)
  | .toGutter sa g => encSA op 0 sa 0 (g ++ 4#3)

/-- The word of a scalar instruction; 0 for what is no scalar word. -/
def encodeScalar : Instr → BitVec 32
  | .sadd sd sa sb => encSA 0x00 sd sa sb 0
  | .ssub sd sa sb => encSA 0x01 sd sa sb 0
  | .smul sd sa sb => encSA 0x02 sd sa sb 0
  | .smulh sd sa sb => encSA 0x03 sd sa sb 0
  | .smulhu sd sa sb => encSA 0x04 sd sa sb 0
  | .sdiv sd sa sb => encSA 0x05 sd sa sb 0
  | .sdivu sd sa sb => encSA 0x06 sd sa sb 0
  | .srem sd sa sb => encSA 0x07 sd sa sb 0
  | .sremu sd sa sb => encSA 0x08 sd sa sb 0
  | .sand sd sa sb => encSA 0x09 sd sa sb 0
  | .sor sd sa sb => encSA 0x0A sd sa sb 0
  | .sxor sd sa sb => encSA 0x0B sd sa sb 0
  | .sandn sd sa sb => encSA 0x0C sd sa sb 0
  | .sshl sd sa sb => encSA 0x0D sd sa sb 0
  | .sshr sd sa sb => encSA 0x0E sd sa sb 0
  | .ssra sd sa sb => encSA 0x0F sd sa sb 0
  | .smin sd sa sb => encSA 0x10 sd sa sb 0
  | .sminu sd sa sb => encSA 0x11 sd sa sb 0
  | .smax sd sa sb => encSA 0x12 sd sa sb 0
  | .smaxu sd sa sb => encSA 0x13 sd sa sb 0
  | .sclz sd sa => encSA 0x14 sd sa 0 0
  | .sctz sd sa => encSA 0x15 sd sa 0 0
  | .spopc sd sa => encSA 0x16 sd sa 0 0
  | .sbrev sd sa => encSA 0x17 sd sa 0 0
  | .sbfx sd sa sb fn => encSA 0x18 sd sa sb fn
  | .sbfi sd sa sb fn => encSA 0x19 sd sa sb fn
  | .sseq sd sa sb => encSA 0x1A sd sa sb 0
  | .ssne sd sa sb => encSA 0x1B sd sa sb 0
  | .sslt sd sa sb => encSA 0x1C sd sa sb 0
  | .ssltu sd sa sb => encSA 0x1D sd sa sb 0
  | .ssle sd sa sb => encSA 0x1E sd sa sb 0
  | .ssleu sd sa sb => encSA 0x1F sd sa sb 0
  | .ssel sd sa sb fn => encSA 0x20 sd sa sb fn
  | .saddi sd sa imm => encSI 0x40 sd sa imm
  | .sandi sd sa imm => encSI 0x41 sd sa imm
  | .sori sd sa imm => encSI 0x42 sd sa imm
  | .sxori sd sa imm => encSI 0x43 sd sa imm
  | .sslti sd sa imm => encSI 0x47 sd sa imm
  | .ssltiu sd sa imm => encSI 0x48 sd sa imm
  | .sshli sd sa fn => encSA 0x44 sd sa 0 fn
  | .sshri sd sa fn => encSA 0x45 sd sa 0 fn
  | .ssrai sd sa fn => encSA 0x46 sd sa 0 fn
  | .slimm0 sd imm => encSL 0x4C sd imm
  | .slimm1 sd imm => encSL 0x4D sd imm
  | .slimm2 sd imm => encSL 0x4E sd imm
  | .slimm3 sd imm => encSL 0x4F sd (imm.setWidth 18)
  | .sjr sa => encSA 0x63 0 sa 0 0
  | .sjalr sd sa => encSA 0x64 sd sa 0 0
  | .sbCond c sa off => encSJ 0x60 (condCode c) sa off
  | .sj off => encSJ 0x61 0 0 off
  | .sjal sa off => encSJ 0x62 0 sa off
  | .ssplit sd sa mark => encSA 0x68 sd sa 0 (mark.setWidth 6)
  | .smerge mark => encSA 0x69 0 0 0 (mark.setWidth 6)
  | .sld sd sa sz off => encSM 0x80 sd sa (sizeCode sz) off
  | .sldu sd sa sz off => encSM 0x81 sd sa (sizeCode sz) off
  | .sst sd sa sz off => encSM 0x82 sd sa (sizeCode sz) off
  | .scas sd sa sb o w => encSA 0x83 sd sa sb (orderField o w)
  | .samoAdd sd sa sb o w => encSA 0x84 sd sa sb (orderField o w)
  | .samoAnd sd sa sb o w => encSA 0x85 sd sa sb (orderField o w)
  | .samoOr sd sa sb o w => encSA 0x86 sd sa sb (orderField o w)
  | .samoXor sd sa sb o w => encSA 0x87 sd sa sb (orderField o w)
  | .samoMin sd sa sb o w => encSA 0x88 sd sa sb (orderField o w)
  | .samoMax sd sa sb o w => encSA 0x89 sd sa sb (orderField o w)
  | .samoMinu sd sa sb o w => encSA 0x8A sd sa sb (orderField o w)
  | .samoMaxu sd sa sb o w => encSA 0x8B sd sa sb (orderField o w)
  | .samoSwap sd sa sb o w => encSA 0x8C sd sa sb (orderField o w)
  | .sfence o => encSA 0x8D 0 0 0 (orderField o false)
  | .sget sd r => encSI 0x8E sd 0 (r.setWidth 12)
  | .sset r sa => encSI 0x8F 0 sa (r.setWidth 12)
  | .fset sd sa sb force => encSA 0x90 sd sa sb (bit1 force)
  | .fget sd sa => encSA 0x91 sd sa 0 0
  | .ftest sd sa => encSA 0x92 sd sa 0 0
  | .cpcancel sd sa => encSA 0xB0 sd sa 0 0
  | .mxgive sd sa => encSA 0xB2 sd sa 0 0
  | .senrol sd sa => encSA 0xB4 sd sa 0 0
  | .nwake sd sa => encSA 0xC0 sd sa 0 0
  | .ntest sd sa => encSA 0xC6 sd sa 0 0
  | .kyield sd sa => encSA 0xCE sd sa 0 0
  | .kcancel sd sa => encSA 0xD3 sd sa 0 0
  | .skill sd sa => encSA 0xE7 sd sa 0 0
  | .slq0 sa off => encSI 0xA0 0 sa off
  | .slq1 sd sa off => encSI 0xA1 sd sa off
  | .slq2 sd sa off => encSI 0xA2 sd sa off
  | .slq3 sd sa off => encSI 0xA3 sd sa off
  | .slq4 sd sa off => encSI 0xA4 sd sa off
  | .swaitf m => encSI 0xA5 0 0 m
  | .swaitp p sa => encSI 0xA6 0 sa ((pathCode p).setWidth 12)
  | .slsync => encSI 0xA7 0 0 0
  | .mxtake => encSA 0xB1 0 0 0 0
  | .sbar => encSA 0xB6 0 0 0 0
  | .sclbar => encSA 0xB7 0 0 0 0
  | .slbar => encSA 0xB8 0 0 0 0
  | .nsleep => encSA 0xC4 0 0 0 0
  | .gdef g sa => encSA 0xA8 0 sa 0 (g.setWidth 6)
  | .gadvP g sa => encSA 0xA9 0 sa 0 (g.setWidth 6)
  | .gadvC g sa => encSA 0xA9 0 sa 0 (g.setWidth 6 ||| 8)
  | .gstat sd g => encSA 0xAA sd 0 0 (g.setWidth 6)
  | .cpcopy o => encCopy 0xAB o
  | .cpcrypt o => encCopy 0xAC o
  | .cpresume o => encCopy 0xAF o
  | .cpseal sd => encSA 0xAD sd 0 0 0
  | .sleave sd => encSA 0xB5 sd 0 0 0
  | .kdone sd => encSA 0xD2 sd 0 0 0
  | .cpwait n => encSI 0xAE 0 0 n
  | .mxask sa imm => encSI 0xB3 0 sa imm
  | .sgrow sd n => encSI 0xB9 sd 0 n
  | .sshrink sd n => encSI 0xBA sd 0 n
  | .nsignal sd sa sb => encSA 0xC1 sd sa sb 0
  | .ndeposit sd sa sb n force => encSA 0xC2 sd sa sb (n.setWidth 6 ||| (bit1 force <<< 2))
  | .njoin sd sf sa => encSA 0xC3 sd sa 0 sf
  | .nexit sa => encSA 0xC5 0 sa 0 0
  | .kseq sd sa sb sp => encSA 0xC8 sd sa sb sp
  | .kpar sd sa sb sp => encSA 0xC9 sd sa sb sp
  | .kpipe sd sa sb sp => encSA 0xCA sd sa sb sp
  | .kloop sd sa sb sp => encSA 0xCC sd sa sb sp
  | .kfarm sd sa sp => encSA 0xCB sd sa 0 sp
  | .kapply sd sa sb now => encSA 0xCD sd sa sb (bit1 now)
  | .kresume sd sf sa sb => encSA 0xCF sd sa sb sf
  | .kemit sd sa sb farm => encSA 0xD0 sd sa sb (bit1 farm)
  | .ktake sd sf sa => encSA 0xD1 sd sa 0 sf
  | .strap code => encSI 0xE0 0 0 code
  | .sbrk code => encSI 0xE1 0 0 code
  | .seret => encSA 0xE2 0 0 0 0
  | .seretSkip => encSA 0xE2 0 0 0 1
  | .tlbfill sd sa sb tag => encSA 0xE3 sd sa sb tag
  | .tlbinv sd sa sb d r => encSA 0xE4 sd sa sb (rangeField d r)
  | .ntinv sd sa d r => encSA 0xE5 sd sa 0 (rangeField d r)
  | .vtinv sd sa sb d r => encSA 0xE6 sd sa sb (rangeField d r)
  | .illopScalarWord w => w
  | _ => 0

abbrev Dec := Except DecodeError Instr

def ok (i : Instr) : Dec := .ok i

/-- A field that must be zero, or in range, decides (R234). -/
def need (c : Bool) (i : Instr) : Dec := if c then .ok i else .error .badField

def withOrder (fn : BitVec 6) (k : Ordering → Instr) : Dec :=
  match orderingOf fn with
  | some o => .ok (k o)
  | none => .error .reserved

def withRange (fn : BitVec 6) (k : Bool → InvRange → Instr) : Dec :=
  if fn.extractLsb' 3 3 == 0 then
    match rangeOf fn with
    | some r => .ok (k (fn.getLsbD 2) r)
    | none => .error .reserved
  else .error .badField

def copyOps (sd sa sb fn : BitVec 6) : Except DecodeError CopyOps :=
  if sd == 0 && fn.getLsbD 0 == false then
    match (fn.extractLsb' 1 2).toNat with
    | 0 => .ok (.mem sa sb (fn.extractLsb' 3 3))
    | 1 => if sa == 0 then .ok (.fromGutter (fn.extractLsb' 3 3) sb) else .error .badField
    | 2 => if sb == 0 then .ok (.toGutter sa (fn.extractLsb' 3 3)) else .error .badField
    | _ => .error .reserved
  else .error .badField

/-- The scalar opcode map (R232) over the fields of a word. -/
def scalarMap (op : Nat) (sd sa sb fn : BitVec 6) (imm12 : BitVec 12) (imm18 : BitVec 18) (cnd : BitVec 4)
    (sj : BitVec 6) (off14 : BitVec 14) (szf : BitVec 2) (off10 : BitVec 10) : Dec :=
  match op with
  | 0x00 => need (fn == 0) (.sadd sd sa sb)
  | 0x01 => need (fn == 0) (.ssub sd sa sb)
  | 0x02 => need (fn == 0) (.smul sd sa sb)
  | 0x03 => need (fn == 0) (.smulh sd sa sb)
  | 0x04 => need (fn == 0) (.smulhu sd sa sb)
  | 0x05 => need (fn == 0) (.sdiv sd sa sb)
  | 0x06 => need (fn == 0) (.sdivu sd sa sb)
  | 0x07 => need (fn == 0) (.srem sd sa sb)
  | 0x08 => need (fn == 0) (.sremu sd sa sb)
  | 0x09 => need (fn == 0) (.sand sd sa sb)
  | 0x0A => need (fn == 0) (.sor sd sa sb)
  | 0x0B => need (fn == 0) (.sxor sd sa sb)
  | 0x0C => need (fn == 0) (.sandn sd sa sb)
  | 0x0D => need (fn == 0) (.sshl sd sa sb)
  | 0x0E => need (fn == 0) (.sshr sd sa sb)
  | 0x0F => need (fn == 0) (.ssra sd sa sb)
  | 0x10 => need (fn == 0) (.smin sd sa sb)
  | 0x11 => need (fn == 0) (.sminu sd sa sb)
  | 0x12 => need (fn == 0) (.smax sd sa sb)
  | 0x13 => need (fn == 0) (.smaxu sd sa sb)
  | 0x14 => need (sb == 0 && fn == 0) (.sclz sd sa)
  | 0x15 => need (sb == 0 && fn == 0) (.sctz sd sa)
  | 0x16 => need (sb == 0 && fn == 0) (.spopc sd sa)
  | 0x17 => need (sb == 0 && fn == 0) (.sbrev sd sa)
  | 0x18 => ok (.sbfx sd sa sb fn)
  | 0x19 => ok (.sbfi sd sa sb fn)
  | 0x1A => need (fn == 0) (.sseq sd sa sb)
  | 0x1B => need (fn == 0) (.ssne sd sa sb)
  | 0x1C => need (fn == 0) (.sslt sd sa sb)
  | 0x1D => need (fn == 0) (.ssltu sd sa sb)
  | 0x1E => need (fn == 0) (.ssle sd sa sb)
  | 0x1F => need (fn == 0) (.ssleu sd sa sb)
  | 0x20 => ok (.ssel sd sa sb fn)
  | 0x40 => ok (.saddi sd sa imm12)
  | 0x41 => ok (.sandi sd sa imm12)
  | 0x42 => ok (.sori sd sa imm12)
  | 0x43 => ok (.sxori sd sa imm12)
  | 0x44 => need (sb == 0) (.sshli sd sa fn)
  | 0x45 => need (sb == 0) (.sshri sd sa fn)
  | 0x46 => need (sb == 0) (.ssrai sd sa fn)
  | 0x47 => ok (.sslti sd sa imm12)
  | 0x48 => ok (.ssltiu sd sa imm12)
  | 0x4C => ok (.slimm0 sd imm18)
  | 0x4D => ok (.slimm1 sd imm18)
  | 0x4E => ok (.slimm2 sd imm18)
  | 0x4F => need (imm18.extractLsb' 10 8 == 0) (.slimm3 sd (imm18.extractLsb' 0 10))
  | 0x60 => match condOf cnd with | some c => ok (.sbCond c sj off14) | none => .error .reserved
  | 0x61 => need (cnd == 0 && sj == 0) (.sj off14)
  | 0x62 => need (cnd == 0) (.sjal sj off14)
  | 0x63 => need (sd == 0 && sb == 0 && fn == 0) (.sjr sa)
  | 0x64 => need (sb == 0 && fn == 0) (.sjalr sd sa)
  | 0x68 => need (sb == 0 && fn.extractLsb' 4 2 == 0) (.ssplit sd sa (fn.extractLsb' 0 4))
  | 0x69 => need (sd == 0 && sa == 0 && sb == 0 && fn.extractLsb' 4 2 == 0) (.smerge (fn.extractLsb' 0 4))
  | 0x80 => ok (.sld sd sa (sizeOf szf) off10)
  | 0x81 => ok (.sldu sd sa (sizeOf szf) off10)
  | 0x82 => ok (.sst sd sa (sizeOf szf) off10)
  | 0x83 => withOrder fn fun o => .scas sd sa sb o (fn.getLsbD 0)
  | 0x84 => withOrder fn fun o => .samoAdd sd sa sb o (fn.getLsbD 0)
  | 0x85 => withOrder fn fun o => .samoAnd sd sa sb o (fn.getLsbD 0)
  | 0x86 => withOrder fn fun o => .samoOr sd sa sb o (fn.getLsbD 0)
  | 0x87 => withOrder fn fun o => .samoXor sd sa sb o (fn.getLsbD 0)
  | 0x88 => withOrder fn fun o => .samoMin sd sa sb o (fn.getLsbD 0)
  | 0x89 => withOrder fn fun o => .samoMax sd sa sb o (fn.getLsbD 0)
  | 0x8A => withOrder fn fun o => .samoMinu sd sa sb o (fn.getLsbD 0)
  | 0x8B => withOrder fn fun o => .samoMaxu sd sa sb o (fn.getLsbD 0)
  | 0x8C => withOrder fn fun o => .samoSwap sd sa sb o (fn.getLsbD 0)
  | 0x8D => if sd == 0 && sa == 0 && sb == 0 && fn.getLsbD 0 == false then withOrder fn fun o => .sfence o else .error .badField
  | 0x8E => need (sa == 0 && imm12.extractLsb' 6 6 == 0) (.sget sd (imm12.extractLsb' 0 6))
  | 0x8F => need (sd == 0 && imm12.extractLsb' 6 6 == 0) (.sset (imm12.extractLsb' 0 6) sa)
  | 0x90 => need (fn.extractLsb' 1 5 == 0) (.fset sd sa sb (fn.getLsbD 0))
  | 0x91 => need (sb == 0 && fn == 0) (.fget sd sa)
  | 0x92 => need (sb == 0 && fn == 0) (.ftest sd sa)
  | 0xA0 => need (sd == 0) (.slq0 sa imm12)
  | 0xA1 => ok (.slq1 sd sa imm12)
  | 0xA2 => ok (.slq2 sd sa imm12)
  | 0xA3 => ok (.slq3 sd sa imm12)
  | 0xA4 => ok (.slq4 sd sa imm12)
  | 0xA5 => need (sd == 0 && sa == 0) (.swaitf imm12)
  | 0xA6 => if sd == 0 && imm12.extractLsb' 3 9 == 0 then (match pathOf (imm12.extractLsb' 0 3) with | some p => ok (.swaitp p sa) | none => .error .reserved) else .error .badField
  | 0xA7 => need (sd == 0 && sa == 0 && imm12 == 0) .slsync
  | 0xA8 => need (sd == 0 && sb == 0 && fn.extractLsb' 3 3 == 0) (.gdef (fn.extractLsb' 0 3) sa)
  | 0xA9 => if sd == 0 && sb == 0 && fn.extractLsb' 4 2 == 0 then (if fn.getLsbD 3 then ok (.gadvC (fn.extractLsb' 0 3) sa) else ok (.gadvP (fn.extractLsb' 0 3) sa)) else .error .badField
  | 0xAA => need (sa == 0 && sb == 0 && fn.extractLsb' 3 3 == 0) (.gstat sd (fn.extractLsb' 0 3))
  | 0xAB => (copyOps sd sa sb fn).map .cpcopy
  | 0xAC => (copyOps sd sa sb fn).map .cpcrypt
  | 0xAD => need (sa == 0 && sb == 0 && fn == 0) (.cpseal sd)
  | 0xAE => need (sd == 0 && sa == 0) (.cpwait imm12)
  | 0xAF => (copyOps sd sa sb fn).map .cpresume
  | 0xB0 => need (sb == 0 && fn == 0) (.cpcancel sd sa)
  | 0xB1 => need (sd == 0 && sa == 0 && sb == 0 && fn == 0) .mxtake
  | 0xB2 => need (sb == 0 && fn == 0) (.mxgive sd sa)
  | 0xB3 => need (sd == 0) (.mxask sa imm12)
  | 0xB4 => need (sb == 0 && fn == 0) (.senrol sd sa)
  | 0xB5 => need (sa == 0 && sb == 0 && fn == 0) (.sleave sd)
  | 0xB6 => need (sd == 0 && sa == 0 && sb == 0 && fn == 0) .sbar
  | 0xB7 => need (sd == 0 && sa == 0 && sb == 0 && fn == 0) .sclbar
  | 0xB8 => need (sd == 0 && sa == 0 && sb == 0 && fn == 0) .slbar
  | 0xB9 => need (sa == 0) (.sgrow sd imm12)
  | 0xBA => need (sa == 0) (.sshrink sd imm12)
  | 0xC0 => need (sb == 0 && fn == 0) (.nwake sd sa)
  | 0xC1 => need (fn == 0) (.nsignal sd sa sb)
  | 0xC2 => need (fn.extractLsb' 3 3 == 0) (.ndeposit sd sa sb (fn.extractLsb' 0 2) (fn.getLsbD 2))
  | 0xC3 => need (sb == 0) (.njoin sd fn sa)
  | 0xC4 => need (sd == 0 && sa == 0 && sb == 0 && fn == 0) .nsleep
  | 0xC5 => need (sd == 0 && sb == 0 && fn == 0) (.nexit sa)
  | 0xC6 => need (sb == 0 && fn == 0) (.ntest sd sa)
  | 0xC8 => ok (.kseq sd sa sb fn)
  | 0xC9 => ok (.kpar sd sa sb fn)
  | 0xCA => ok (.kpipe sd sa sb fn)
  | 0xCB => need (sb == 0) (.kfarm sd sa fn)
  | 0xCC => ok (.kloop sd sa sb fn)
  | 0xCD => need (fn.extractLsb' 1 5 == 0) (.kapply sd sa sb (fn.getLsbD 0))
  | 0xCE => need (sb == 0 && fn == 0) (.kyield sd sa)
  | 0xCF => ok (.kresume sd fn sa sb)
  | 0xD0 => need (fn.extractLsb' 1 5 == 0) (.kemit sd sa sb (fn.getLsbD 0))
  | 0xD1 => need (sb == 0) (.ktake sd fn sa)
  | 0xD2 => need (sa == 0 && sb == 0 && fn == 0) (.kdone sd)
  | 0xD3 => need (sb == 0 && fn == 0) (.kcancel sd sa)
  | 0xE0 => need (sd == 0 && sa == 0) (.strap imm12)
  | 0xE1 => need (sd == 0 && sa == 0) (.sbrk imm12)
  | 0xE2 => if sd == 0 && sa == 0 && sb == 0 && fn.extractLsb' 1 5 == 0 then (if fn.getLsbD 0 then ok .seretSkip else ok .seret) else .error .badField
  | 0xE3 => ok (.tlbfill sd sa sb fn)
  | 0xE4 => withRange fn fun d r => .tlbinv sd sa sb d r
  | 0xE5 => if sb == 0 then withRange fn fun d r => .ntinv sd sa d r else .error .badField
  | 0xE6 => withRange fn fun d r => .vtinv sd sa sb d r
  | 0xE7 => need (sb == 0 && fn == 0) (.skill sd sa)
  | _ => .error .unallocated

/-- The decoder of scalar words: the map of R232, then the range rules of R234. -/
def decodeScalar (w : BitVec 32) : Dec :=
  match scalarMap (w.extractLsb' 24 8).toNat (w.extractLsb' 18 6) (w.extractLsb' 12 6) (w.extractLsb' 6 6)
      (w.extractLsb' 0 6) (w.extractLsb' 0 12) (w.extractLsb' 0 18) (w.extractLsb' 20 4) (w.extractLsb' 14 6)
      (w.extractLsb' 0 14) (w.extractLsb' 10 2) (w.extractLsb' 0 10) with
  | .ok i => if i.wf then .ok i else .error .badField
  | .error e => .error e

/-! ### Lane words (R235-R241) -/

def Operand.code : Operand → BitVec 9
  | .v n => n.setWidth 9
  | .qIn => 0x100
  | .qOut => 0x101
  | .c n => 0x110 ||| n.setWidth 9
  | .laneid => 0x120
  | .imm => 0x121
  | .s n => 0x140 ||| n.setWidth 9

def operandOf (c : BitVec 9) : Option Operand :=
  if c.toNat < 0x100 then some (.v (c.setWidth 8))
  else if c == 0x100 then some .qIn
  else if c == 0x101 then some .qOut
  else if 0x110 ≤ c.toNat && c.toNat ≤ 0x113 then some (.c (c.setWidth 2))
  else if c == 0x120 then some .laneid
  else if c == 0x121 then some .imm
  else if 0x140 ≤ c.toNat && c.toNat ≤ 0x17F then some (.s (c.setWidth 6))
  else none

def LType.code : LType → BitVec 4
  | .i8 => 0 | .i16 => 1 | .i32 => 2 | .i64 => 3 | .u8 => 4 | .u16 => 5 | .u32 => 6 | .u64 => 7
  | .f16 => 8 | .bf16 => 9 | .f32 => 10 | .f64 => 11 | .slot => 12

def ltypeOf (c : Nat) : Option LType :=
  match c with
  | 0 => some .i8 | 1 => some .i16 | 2 => some .i32 | 3 => some .i64 | 4 => some .u8 | 5 => some .u16
  | 6 => some .u32 | 7 => some .u64 | 8 => some .f16 | 9 => some .bf16 | 10 => some .f32 | 11 => some .f64
  | 12 => some .slot
  | _ => none

def FlagBind.code : FlagBind → BitVec 2
  | .none => 0 | .seta => 1 | .setb => 2

def flagBindOf (c : BitVec 2) : Option FlagBind :=
  match c.toNat with
  | 0 => some .none | 1 => some .seta | 2 => some .setb
  | _ => none

/-- The OPC of a lane instruction (R241); 0 for what is none. -/
def laneOpc : Instr → BitVec 10
  | .vadd _ => 0x001
  | .vsub _ => 0x002
  | .vmul _ => 0x003
  | .vmulh _ => 0x004
  | .vmad _ => 0x005
  | .vdiv _ => 0x006
  | .vrem _ => 0x007
  | .vmin _ => 0x008
  | .vmax _ => 0x009
  | .vabs _ => 0x00A
  | .vand _ => 0x00B
  | .vor _ => 0x00C
  | .vxor _ => 0x00D
  | .vnot _ => 0x00E
  | .vshl _ => 0x00F
  | .vshr _ => 0x010
  | .vsra _ => 0x011
  | .vrot _ => 0x012
  | .vclz _ => 0x013
  | .vpopc _ => 0x014
  | .vbrev _ => 0x015
  | .vbfx _ => 0x016
  | .vbfi _ => 0x017
  | .vaddc _ => 0x018
  | .vsubb _ => 0x019
  | .vcmp _ => 0x01A
  | .vsel _ => 0x01B
  | .vfadd _ => 0x101
  | .vfsub _ => 0x102
  | .vfmul _ => 0x103
  | .vfma _ => 0x104
  | .vfmin _ => 0x105
  | .vfmax _ => 0x106
  | .vfdiv _ => 0x107
  | .vfsqrt _ => 0x108
  | .vfrcp _ => 0x109
  | .vfrsq _ => 0x10A
  | .vfexp2 _ => 0x10B
  | .vflog2 _ => 0x10C
  | .vfcmp _ => 0x10D
  | .vfclass _ => 0x10E
  | .vfrnd _ => 0x10F
  | .vcvt _ => 0x200
  | .vcvtmx _ => 0x201
  | .vpack _ => 0x202
  | .vunpack _ => 0x203
  | .vshuf _ => 0x280
  | .vshufx _ => 0x281
  | .vbcast _ => 0x282
  | .vballot _ => 0x283
  | .vany _ => 0x284
  | .vall _ => 0x285
  | .vscan _ => 0x286
  | .vred _ => 0x287
  | .vtos _ => 0x288
  | .vfroms _ => 0x289
  | .vmov _ => 0x290
  | .vmovi _ => 0x291
  | .vld _ => 0x300
  | .vst _ => 0x301
  | .vlds _ => 0x302
  | .vsts _ => 0x303
  | .vatom _ => 0x304
  | .vcas _ => 0x305
  | .vfence _ => 0x306
  | .vpref _ => 0x307
  | .vrma _ => 0x308
  | .vmcast _ => 0x309
  | .vsysc _ => 0x30A
  | .vexit _ => 0x30B
  | .mxlds _ => 0x380
  | .mxswap _ => 0x381
  | .mxmma _ => 0x382
  | .mxcmma _ => 0x383
  | .mxzero _ => 0x384
  | .mxrd _ => 0x385
  | .mxwr _ => 0x386
  | .mxout _ => 0x387
  | .vgwr _ => 0x3C0
  | .vgrd _ => 0x3C1
  | _ => 0

/-- The lane opcode map (R241). -/
def laneMap (opc : Nat) (f : LaneFields) : Option Instr :=
  match opc with
  | 0x001 => some (.vadd f)
  | 0x002 => some (.vsub f)
  | 0x003 => some (.vmul f)
  | 0x004 => some (.vmulh f)
  | 0x005 => some (.vmad f)
  | 0x006 => some (.vdiv f)
  | 0x007 => some (.vrem f)
  | 0x008 => some (.vmin f)
  | 0x009 => some (.vmax f)
  | 0x00A => some (.vabs f)
  | 0x00B => some (.vand f)
  | 0x00C => some (.vor f)
  | 0x00D => some (.vxor f)
  | 0x00E => some (.vnot f)
  | 0x00F => some (.vshl f)
  | 0x010 => some (.vshr f)
  | 0x011 => some (.vsra f)
  | 0x012 => some (.vrot f)
  | 0x013 => some (.vclz f)
  | 0x014 => some (.vpopc f)
  | 0x015 => some (.vbrev f)
  | 0x016 => some (.vbfx f)
  | 0x017 => some (.vbfi f)
  | 0x018 => some (.vaddc f)
  | 0x019 => some (.vsubb f)
  | 0x01A => some (.vcmp f)
  | 0x01B => some (.vsel f)
  | 0x101 => some (.vfadd f)
  | 0x102 => some (.vfsub f)
  | 0x103 => some (.vfmul f)
  | 0x104 => some (.vfma f)
  | 0x105 => some (.vfmin f)
  | 0x106 => some (.vfmax f)
  | 0x107 => some (.vfdiv f)
  | 0x108 => some (.vfsqrt f)
  | 0x109 => some (.vfrcp f)
  | 0x10A => some (.vfrsq f)
  | 0x10B => some (.vfexp2 f)
  | 0x10C => some (.vflog2 f)
  | 0x10D => some (.vfcmp f)
  | 0x10E => some (.vfclass f)
  | 0x10F => some (.vfrnd f)
  | 0x200 => some (.vcvt f)
  | 0x201 => some (.vcvtmx f)
  | 0x202 => some (.vpack f)
  | 0x203 => some (.vunpack f)
  | 0x280 => some (.vshuf f)
  | 0x281 => some (.vshufx f)
  | 0x282 => some (.vbcast f)
  | 0x283 => some (.vballot f)
  | 0x284 => some (.vany f)
  | 0x285 => some (.vall f)
  | 0x286 => some (.vscan f)
  | 0x287 => some (.vred f)
  | 0x288 => some (.vtos f)
  | 0x289 => some (.vfroms f)
  | 0x290 => some (.vmov f)
  | 0x291 => some (.vmovi f)
  | 0x300 => some (.vld f)
  | 0x301 => some (.vst f)
  | 0x302 => some (.vlds f)
  | 0x303 => some (.vsts f)
  | 0x304 => some (.vatom f)
  | 0x305 => some (.vcas f)
  | 0x306 => some (.vfence f)
  | 0x307 => some (.vpref f)
  | 0x308 => some (.vrma f)
  | 0x309 => some (.vmcast f)
  | 0x30A => some (.vsysc f)
  | 0x30B => some (.vexit f)
  | 0x380 => some (.mxlds f)
  | 0x381 => some (.mxswap f)
  | 0x382 => some (.mxmma f)
  | 0x383 => some (.mxcmma f)
  | 0x384 => some (.mxzero f)
  | 0x385 => some (.mxrd f)
  | 0x386 => some (.mxwr f)
  | 0x387 => some (.mxout f)
  | 0x3C0 => some (.vgwr f)
  | 0x3C1 => some (.vgrd f)
  | _ => none

def encodeLaneFields (opc : BitVec 10) (f : LaneFields) : BitVec 96 :=
  opc ++ f.dist ++ f.fsi ++ f.vd.code ++ f.va.code ++ f.vb.code ++ f.vc.code ++ f.ty.code ++ f.fb.code ++ f.md ++ f.imm

/-- The word of a lane instruction; 0 for what is no lane word. -/
def encodeLane (i : Instr) : BitVec 96 :=
  match i.lane? with
  | some f => encodeLaneFields (laneOpc i) f
  | none => 0

def laneFieldsOf (w : BitVec 96) : Option LaneFields := do
  let vd ← operandOf (w.extractLsb' 71 9)
  let va ← operandOf (w.extractLsb' 62 9)
  let vb ← operandOf (w.extractLsb' 53 9)
  let vc ← operandOf (w.extractLsb' 44 9)
  let ty ← ltypeOf (w.extractLsb' 40 4).toNat
  let fb ← flagBindOf (w.extractLsb' 38 2)
  return { dist := w.extractLsb' 83 3, fsi := w.extractLsb' 80 3, vd, va, vb, vc, ty, fb,
           md := w.extractLsb' 32 6, imm := w.extractLsb' 0 32 }

/-- The decoder of lane words: the map of R241, then the checks of R244 that a word must pass by itself. -/
def decodeLane (w : BitVec 96) : Dec :=
  match laneFieldsOf w with
  | none => .error .reserved
  | some f =>
    match laneMap (w.extractLsb' 86 10).toNat f with
    | none => .error .unallocated
    | some i => if i.wf then .ok i else .error .badField

/-! ### Clause headers (R237) -/

def flagOf (c : BitVec 4) : Option (Option (Fin 12)) :=
  if h : c.toNat < 12 then some (some ⟨c.toNat, h⟩) else if c == 15 then some none else none

def flagCode : Option (Fin 12) → BitVec 4
  | none => 15
  | some f => BitVec.ofNat 4 f.val

/-- Two flags that a header sets differ (R237). -/
def ClauseHeader.wf (h : ClauseHeader) : Bool :=
  h.len != 0 && (h.seta.isNone || h.setb.isNone || h.seta != h.setb)

def encodeHeader (h : ClauseHeader) : BitVec 96 :=
  (0#10) ++ (0#6) ++ h.waitm ++ flagCode h.seta ++ flagCode h.setb ++ h.len ++ (0#56)

/-- WAITM of a header word, which the start of a clause tests before the word's other fields are checked (R48, R244). -/
def headerWaitm (w : BitVec 96) : BitVec 12 := w.extractLsb' 68 12

def decodeHeader (w : BitVec 96) : Option ClauseHeader := do
  let seta ← flagOf (w.extractLsb' 64 4)
  let setb ← flagOf (w.extractLsb' 60 4)
  let h : ClauseHeader := { waitm := w.extractLsb' 68 12, seta, setb, len := w.extractLsb' 56 4 }
  if w.extractLsb' 80 16 == 0 && w.extractLsb' 0 56 == 0 && h.wf then some h else none

/-- The instruction that the decoders read from a word of `nbits` bits as the table of operations numbers them: a scalar
word of 32 bits (R229), or a lane word of 96 bits (R235). A word's bits above `nbits` are zero. -/
def decodeTableWord (nbits w : Nat) : Option Instr :=
  let r := if nbits ≤ 32 then decodeScalar (BitVec.ofNat 32 w) else decodeLane (BitVec.ofNat 96 w)
  match r with
  | .ok i => some i
  | .error _ => none

end Sys2Proof
end

