-- ==== Sys2Proof/Machine/Bits.lean ====
section
/-! DEFINITION. Bit fields, extensions and byte order (R5, R245). -/
namespace Sys2Proof.Machine

/-- Bits `hi` to `lo` of a number. -/
def fieldNat (x lo len : Nat) : Nat := x >>> lo % 2 ^ len

/-- Bits `lo` to `lo + len - 1` of a word, as a number. -/
def field {w : Nat} (x : BitVec w) (lo len : Nat) : Nat := (x.toNat >>> lo) % 2 ^ len

/-- A word with bits `lo` to `lo + len - 1` replaced by `v`. -/
def setField {w : Nat} (x : BitVec w) (lo len : Nat) (v : Nat) : BitVec w :=
  BitVec.ofNat w (x.toNat - (field x lo len) * 2 ^ lo + (v % 2 ^ len) * 2 ^ lo)

/-- The low `w` bits read as a two's complement integer (R245). -/
def sext (x w : Nat) : Int :=
  let y := x % 2 ^ w
  if 2 * y < 2 ^ w then (y : Int) else (y : Int) - (2 ^ w : Nat)

/-- The residue of an integer modulo 2^w. -/
def wrap (x : Int) (w : Nat) : Nat := (x % ((2 ^ w : Nat) : Int)).toNat

def wordOf (n : Nat) : Word := BitVec.ofNat 64 n

/-- One bit of a mask. -/
def bitMask (l : Nat) : Mask := BitVec.ofNat 32 (2 ^ l)

/-- The lanes of a mask, in increasing number. -/
def lanesOf (m : Mask) : List Nat := (List.range 32).filter fun l => m.getLsbD l

/-- The mask of a list of lanes. -/
def maskOf (ls : List Nat) : Mask := ls.foldl (fun m l => m ||| bitMask l) 0

/-- The count of one bits of the low `n` bits. -/
def popCount (x n : Nat) : Nat := ((List.range n).filter fun i => x.testBit i).length

/-- The number of zero bits above the highest one bit of the low `n` bits; `n` where all are zero. -/
def clz (x n : Nat) : Nat :=
  match (List.range n).find? fun i => x.testBit (n - 1 - i) with
  | some i => i
  | none => n

/-- The number of zero bits below the lowest one bit of the low `n` bits; `n` where all are zero. -/
def ctz (x n : Nat) : Nat :=
  match (List.range n).find? fun i => x.testBit i with
  | some i => i
  | none => n

/-- The low `n` bits in reverse order. -/
def bitRev (x n : Nat) : Nat :=
  (List.range n).foldl (fun r i => if x.testBit i then r + 2 ^ (n - 1 - i) else r) 0

/-- The `n` low bytes of a number, lowest first (R5). -/
def bytesOf (x : Nat) : Nat → List Byte
  | 0 => []
  | n + 1 => BitVec.ofNat 8 x :: bytesOf (x / 256) n

/-- The number that bytes hold, lowest first (R5). -/
def natOf : List Byte → Nat
  | [] => 0
  | b :: bs => b.toNat + 256 * natOf bs

/-- `n` items from the start of a list, filled up with `d`. -/
def takeFill {α : Type} (d : α) : Nat → List α → List α
  | 0, _ => []
  | n + 1, [] => d :: takeFill d n []
  | n + 1, x :: xs => x :: takeFill d n xs

/-- The item at a place of a list, or `d`. -/
def nth {α : Type} (d : α) (l : List α) (n : Nat) : α := l.getD n d

/-- Bits of a word as a value at a bit position. -/
def at' (v lo : Nat) : Nat := v * 2 ^ lo

/-- A one-bit field. -/
def bit (b : Bool) : Nat := if b then 1 else 0

/-- The least value rounded up to a multiple. -/
def alignUp (x m : Nat) : Nat := (x + m - 1) / m * m

end Sys2Proof.Machine
end

