-- ==== Sys2Proof/Config.lean ====
section
/-! DEFINITION. What the manual leaves open: free values (constants without a body: nothing in Lean
can evaluate one), and what an implementation fixes. Each is named in the assumption log. -/
namespace Sys2Proof.Config

/-- Which of several agents that may act next does act (log 2), and which of a full cache's copies leaves it (log 11): draw number,
and a number that says how many there are. -/
opaque pick : Nat → Nat → Nat
/-- Whether a lane read not covered by distances sees the newer value (R50; log 9): draw number, and 32 times the number of
the result plus the lane. -/
opaque seesNew : Nat → Nat → Bool
/-- Whether a reader sees the copy of a table entry that its die's cache holds, and not the table (R198, R203; log 11): draw
number and the number of the read. -/
opaque seesCopy : Nat → Nat → Bool
/-- A byte of pooled memory that nothing of this module has written (R158; log 5). -/
opaque poolByte : Nat → BitVec 8
/-- A byte of host memory that nothing of this module has written (log 5). -/
opaque hostByte : Nat → BitVec 8
/-- Whether a pool read returns poison (R496; log 5): draw number. -/
opaque poolPoisons : Nat → Bool
/-- Whether a CXL device reports a pool write failed (R496; log 5): draw number. -/
opaque poolWriteFails : Nat → Bool
/-- Whether a device has withdrawn, without release, the capacity that a pool access goes to (R497; log 5): draw number. -/
opaque poolWithdraws : Nat → Bool
/-- The request that the words of KEYREQ make, whose layout the manual does not give (R373, R484; log 50): the slot, and a key with its
owner and fixed field, or none to erase. -/
opaque keyRequest : List (BitVec 64) → Option (Nat × Option (BitVec 256 × Nat × BitVec 32))
/-- Whether an ML-DSA-44 signature verifies under a Ramlis key (R545, R483; log 10):
the signed bytes and the signature bytes. -/
opaque mldsaVerify : List (BitVec 8) → List (BitVec 8) → Bool
/-- The module's own ML-DSA-44 signature over bytes (R483; log 10). -/
opaque mldsaSign : List (BitVec 8) → List (BitVec 8)
/-- A random byte drawn by the module in a protocol (R483; log 10): draw number, byte number. -/
opaque randomByte : Nat → Nat → BitVec 8
/-- The shared secret of a secp384r1 exchange (R483; log 10): draw number and the peer's public value. -/
opaque dheSecret : Nat → List (BitVec 8) → List (BitVec 8)
/-- The module's public value of a secp384r1 exchange (R483; log 10). -/
opaque dhePublic : Nat → List (BitVec 8)
/-- The certificate chain that ends in a Ramlis root (R483; log 10). -/
opaque certChain : List (BitVec 8)
/-- An open choice of a number that the manual does not state (log 8): draw number. -/
opaque freeNat : Nat → Nat
/-- Whether a peer's write that arrives is a release, which its message does not tell (R452, R509; log 79): draw number; 0 no release,
1 one of a scope below the domain, 2 one of domain scope, and otherwise one of system scope. -/
opaque peerRelease : Nat → Nat
/-- Which module of the domain holds a context that is not resident on this one: a module number plus 1, or 0 where the context does
not exist (R193, R198; log 19): draw number and context. -/
opaque ctxHome : Nat → Nat → Nat
/-- An open 64-bit value that the manual does not state: draw number (log 12). -/
opaque freeWord : Nat → BitVec 64

end Sys2Proof.Config
end

