-- ==== Sys2Proof/Machine/State.lean ====
section
/-! DEFINITION. The state of one module as plain data: everything the manual gives the machine, the acts of outside
parties still to come, and the counters that number free values. Reset values follow R543, R158, R92 and R111. -/
namespace Sys2Proof.Machine

/-- Why the machine stops: it never does. The manual turns every error of a program into a trap that the fragment takes
(R463), and a fatal error into the halted service level (R549); both are next states. So there is no fault to name. Safe. -/
inductive Fault where
  deriving DecidableEq, Repr

/-- Why an instruction has no meaning. -/
inductive Refusal where
  /-- Raised by `exec` for an instruction that is not modelled. Safe: nothing can be proved of a run past it. -/
  | notModelled (mnemonic : String)
  deriving DecidableEq, Repr

/-- Memory: address and byte, addresses rising, no byte equal to what an unlisted address reads as. Addresses below
2^52 are physical (R134); core scratch and host memory stand above (Machine/Memory.lean). -/
abbrev Mem := List Host.Cell

/-- The registers of a context that decide how an address is translated (R132, R135): an access in flight keeps those under
which it issued (R113). -/
structure Regime where
  ptab  : Word := 0
  hbase : Word := 0
  hlim  : Word := 0
  hoff  : Word := 0
  deriving DecidableEq, Repr

/-- Who asks for a translation: the core, the context and its registers, the privilege, and the phrase, for its course. -/
structure Asker where
  core   : Nat
  ctx    : Nat
  priv   : Bool
  phrase : Nat
  regime : Regime
  deriving DecidableEq, Repr

/-! ### Fragments -/

/-- The resume kinds of R434. -/
inductive ResumeKind where
  | scalar | held | laneRun | laneStart | laneIssue
  deriving DecidableEq, Repr

/-- An entry of a lane queue (R166): the clause address, the captured mask and constants, the header once the clause has
started, the index of the next instruction (0 before the start) and of the last one to issue. A clause that performs
one instruction again (R279, R307) has `next = last`, and `members` of a vmcast that is sent again (R325). `num` is its
enqueue number, `trapen` the TRAPEN under which it started (R117), and `code` its instructions as fetched. -/
structure Clause where
  num     : Nat := 0
  trapen  : BitVec 32 := 0
  addr    : Word := 0
  mask    : Mask := 0
  c0      : Word := 0
  c1      : Word := 0
  c2      : Word := 0
  c3      : Word := 0
  next    : Nat := 0
  last    : Nat := 0
  header  : Option ClauseHeader := none
  code    : List (BitVec 96) := []
  again   : Bool := false
  whole   : Option Mask := none    -- the clause mask, where `mask` holds only the lanes that are performed again (R434)
  members : Option Word := none
  deriving DecidableEq, Repr

/-- What trap entry records (R464). -/
structure Exn where
  cause : Cause
  sub   : BitVec 8 := 0
  mask  : Mask
  data  : Word
  lane  : Bool := false
  pa    : Word := 0
  kind  : ResumeKind
  deriving DecidableEq, Repr

/-- A lane fault not yet taken, with its place in issue order and the instruction to perform again (R465, R466). -/
structure LaneFault where
  seq  : Nat
  exn  : Exn
  redo : Clause
  held : Bool := false     -- it was held in an image, and waits for the instruction that its seret performs again (R466)
  first : Bool := false    -- it came with a restore: it is taken before any other instruction of its fragment issues (R478)
  deriving DecidableEq, Repr

/-- A level's set-aside image (R168, R434, R464, R466). Operations numbered below `entered` were issued before the trap
entry that made it. -/
structure Image where
  queue : List Clause := []
  kind  : ResumeKind := .scalar
  redo  : Option Clause := none
  held  : List LaneFault := []
  entered : Nat := 0
  deriving DecidableEq, Repr

/-- A restart entry of a save image (R475); `fault` is the held fault that it stands for, once it is known. -/
structure Restart where
  iaddr : Word
  lanes : Mask
  frag  : Nat
  type  : Nat                 -- 0 lane access, 1 scalar access, 2 held fault
  level : Nat := 0
  flag  : Nat := 15
  cause : Nat := 0
  sub   : Nat := 0
  flidx : Nat := 0xFFFFFFFF
  edata : Word := 0
  recs  : List (Nat × Word × Word × Word) := []   -- lane, address, data, compare value
  fault : Option LaneFault := none
  deriving DecidableEq, Repr

/-- One bank of trap registers (R111, R118). -/
structure Bank where
  epc    : Word := 0
  elpc   : Word := 0
  ecause : BitVec 32 := 0
  emask  : Mask := 0
  edata  : Word := 0
  exsave : Mask := 0
  deriving DecidableEq, Repr

/-- An open memory instruction of R216: the paths it counts on, and those on which it is complete (IFV lowest). -/
structure OpenIns where
  id    : Nat
  paths : BitVec 5
  done  : BitVec 5
  deriving DecidableEq, Repr

/-- The waits of R52 in which something outside the fragment ends the wait. -/
inductive Wait where
  | none
  | reply (id : Nat)     -- njoin, kresume, kyield: until the reply arrives
  | future (id : Nat)    -- fget queued at its cell
  | sleep                -- nsleep
  | token                -- mxtake
  | barrier (kind : Nat) -- 0 sbar, 1 sclbar, 2 slbar
  | passed (kind : Nat)  -- the barrier's episode has ended, and its release is on its way (R401)
  | merge (mark : Nat)   -- smerge
  deriving DecidableEq, Repr

/-- How far a fragment's fetch has come (R143, R259): it waits for the walk of a page, or a walk or check has failed. -/
inductive Fetch where
  | idle
  | waits (va : Nat)
  | failed (cause : Cause) (sub : BitVec 8) (addr : Word)
  deriving DecidableEq, Repr

/-- The tag that a release leaves with the bytes it writes (R452): its scope and the releasing party, a phrase of this module,
another module (`outside` 1) or a host (2). -/
structure Tag where
  outside : Nat := 0
  scope  : Scope
  phrase : Nat
  inst   : Nat
  course : BitVec 32
  core   : Nat
  deriving DecidableEq, Repr

/-- A fragment of a phrase (R26-R32). -/
structure Frag where
  phrase  : Nat := 0
  num     : Nat := 0
  parent  : Nat := 0
  live    : Bool := false             -- the fragment exists
  slot    : Option Nat := none        -- its slot; none while it is queued or has given it up (R29)
  mark    : BitVec 4 := 0
  sregs   : Tbl Word := []
  pc      : Word := 0
  exec    : Mask := 0
  tl      : BitVec 2 := 0
  bank1   : Bank := {}
  bank2   : Bank := {}
  img1    : Image := {}
  img2    : Image := {}
  queue   : List Clause := []
  ready   : List LaneFault := []      -- lane faults determined and not yet taken (R465)
  outCnt  : Tbl Nat := []             -- outstanding asides per stop mark (R225)
  outExec : Tbl Mask := []            -- final EXEC of the asides that ended, per stop mark (R30)
  opens   : List OpenIns := []
  wait    : Wait := .none
  fetch   : Fetch := .idle            -- of the scalar stream
  lfetch  : Fetch := .idle            -- of the clause at the head of the lane queue
  pwait   : Fetch := .idle            -- the walk of a page of a payload or packet (R409, R419)
  hwait   : Option (Nat × Word) := none   -- the host page that a payload or packet waits for, and its address (R409, R419)
  hfail   : Option (BitVec 8 × Word) := none  -- that page's failure
  lastIss : Nat := 0                  -- cycle of the last lane issue (R50)
  after   : Nat := 0                  -- clauses of its parent numbered below it precede its first clause (R27)
  relFen  : Option Scope := none      -- release fence in force for later stores (R448)
  readTag : List Tag := []            -- tags read since the last acquire fence (R448)
  retId   : Nat := 0                  -- number of the first operation after its last seret (R466)
  yieldTo : SReg := 0                 -- the register that its kyield writes when the phrase is restored (R422)
  qcycle  : Nat := 0                  -- the cycle in which it entered the aside queue, and its parent's slot then (R169)
  qslot   : Nat := 0
  stopped : Bool := false             -- it issues nothing more (retirement, save or cancel, R25, R471)
  deriving DecidableEq, Repr

/-! ### Phrases -/

/-- An entry of a queue-window ring (R103): the number of the instruction that pushes it, and the cycle in which its value
was written (R278); none while the entry is only reserved. -/
structure RingEntry where
  id    : Nat
  since : Option Nat := none
  vals  : List Half := []
  deriving DecidableEq, Repr

/-- A batch of copies (R220): its number, its copies, and whether it was cancelled. -/
structure Batch where
  num       : BitVec 16
  copies    : List Nat
  cancelled : Bool := false
  deriving DecidableEq, Repr

/-- A held copy fault (R371): the issuing fragment and what trap entry records. -/
structure CopyFault where
  copy : Nat
  frag : Nat
  exn  : Exn
  deriving DecidableEq, Repr

/-- How a phrase leaves (R25, R424, R426). -/
inductive Leaving where
  | no
  | exited
  | cancelled
  | failed (cause : BitVec 8)
  | killed
  deriving DecidableEq, Repr

structure Phrase where
  noun    : Word := 0
  ctx     : Nat := 0
  inst    : Nat := 0                  -- key of its applied verb
  instN   : Word := 0                 -- INST, the noun of the applied verb
  node    : Nat := 0                  -- node of the nest (R411)
  index   : Nat := 0
  core    : Nat := 0
  present : Bool := false             -- resident
  live    : Mask := 0
  status  : BitVec 32 := 0
  trapen  : BitVec 32 := 0
  tvec    : Word := 0
  tsave   : Word := 0
  course  : Option (BitVec 32) := none
  rank    : Nat := 0
  regs    : Nat := 0                  -- REGS
  lanes   : Tbl Half := []            -- v registers: 32 × register + lane
  fsl     : List (BitVec 32) := []    -- FSL0-FSL7
  dpend   : BitVec 4 := 0
  sigp    : BitVec 16 := 0
  wakep   : Bool := false
  grants  : Nat := 0                  -- MXGRANT
  mate    : Option Nat := none        -- its auxiliary, or its main phrase (R34)
  isAux   : Bool := false
  ringMA  : List RingEntry := []      -- main to auxiliary
  ringAM  : List RingEntry := []      -- auxiliary to main
  batch   : BitVec 16 := 0xFFFF
  opened  : List Nat := []            -- copies of the open batch
  sealed  : List Batch := []          -- unfinished batches, oldest first
  cfaults : List CopyFault := []
  leaving : Leaving := .no
  exit    : Word := 0
  lbar    : Bool := false             -- it has arrived at slbar
  ended   : List Nat := []            -- barriers whose episode ended while it did not wait: 0 sbar, 1 sclbar, 2 slbar (R403)
  gone    : Bool := false             -- retired (R40: kept until it departs)
  keep    : Option Nat := none        -- the slot that it keeps until it departs (R40)
  asides  : Nat := 0                  -- live asides (R225)
  needTok : Bool := false             -- the mxtake that its restore performs still waits for the token (R337)
  restarts : List Restart := []       -- entries of its image that its restore has still to serve (R478)
  deriving DecidableEq, Repr

/-! ### Accesses and pending results -/

/-- The operations of atomics (R271, R310). -/
inductive AmoOp where
  | add | and | or | xor | min | max | minu | maxu | swap | cas
  deriving DecidableEq, Repr

/-- What an access does (R268, R271, R309, R310, R315). -/
inductive AccKind where
  | load
  | store
  | amo (op : AmoOp) (result : Bool)
  | fset (force : Bool)
  | fget
  | ftest
  | rma (rop : Rop)
  | mcast
  deriving DecidableEq, Repr

/-- A part of one lane's access (R141): the memory key of its first byte, its length, its path (0 IFV to 4 IFH) and its
page kind. -/
structure Piece where
  key  : Nat
  len  : Nat
  path : Nat
  ord  : BitVec 2
  deriving DecidableEq, Repr

/-- How far a lane of an access has come. -/
inductive LaneSt where
  | walk                                             -- its page is in no TLB: it waits for a walker record
  | todo                                             -- its parts are translated
  | sent                                             -- a fabric message is under way
  | done
  | failed (cause : Cause) (sub : BitVec 8) (data : Word)
  deriving DecidableEq, Repr

/-- One lane of an access: its address, data and compare value. A fabric access keeps its peer word and the number of
its message, and the lanes of a vmcast are its members. -/
structure LaneAcc where
  lane   : Nat
  addr   : Word
  bads   : List (Nat × Nat × Cause × BitVec 8) := []   -- parts whose walks have failed: offset, check of R142, cause
  data   : Word := 0
  cmp    : Word := 0
  peer   : Word := 0
  msg    : Option Nat := none
  parts  : List Piece := []
  st     : LaneSt := .todo
  deriving DecidableEq, Repr

/-- Where the result of an access or operation goes. -/
inductive Dest where
  | none
  | scalar (r : SReg)
  | lane (v : Nat) (ty : LType)
  deriving DecidableEq, Repr

/-- A memory access from issue to completion (R216, R268, R307). A scalar access has the one lane 0. -/
structure Access where
  id     : Nat
  frag   : Nat
  scalar : Bool
  pc     : Word
  kind   : AccKind
  bytes  : Nat
  ty     : LType
  signed : Bool
  order  : Ordering
  dest   : Dest
  regime : Regime := {}        -- the translation registers at its issue (R113)
  fence  : Option Scope := none  -- the release fence before it (R448)
  flag   : Option (Fin 12) := none
  redo   : Clause := {}
  lanes  : List LaneAcc
  ord    : Bool := false       -- the .ord form (R322)
  cls    : MsgCls := .auto
  began  : Bool := false       -- a fabric access whose messages have been made
  win64  : Bool := false       -- its width is 64 bits
  body   : List FabLane := []  -- the writes of a vmcast
  deriving DecidableEq, Repr

/-- A result of the lane stream still to be written (R243, R278, R302): lane registers as 32 × register + lane, a
reserved ring entry of the window, or a scalar register, with the STATUS bits and the fault that come with it. A
fixed-latency result is due at its cycle; one of class V has `due` 0 and comes at any time. -/
structure LaneRes where
  id     : Nat
  frag   : Nat
  due    : Nat
  clause : Nat := 0            -- enqueue number of its clause
  writes : List (Nat × Half)
  ring   : Option (List Half) := none
  scalar : Option (SReg × Word) := none
  flag   : Option (Fin 12) := none
  status : BitVec 32 := 0
  fault  : Option LaneFault := none
  deriving DecidableEq, Repr

/-- What an outstanding operation of `LaneOp` waits for: a fence until the earlier accesses are performed (R273, R312); a
prefetch until the records and the requests for host pages that it made have ended (R313); a system call or an engine operation until its unit
ends it. -/
inductive OpKind where
  | fence (o : Ordering)
  | pref (records hosts : List Nat)
  | unit
  deriving DecidableEq, Repr

/-- An operation that is outstanding but is neither access nor result: a fence, vpref, vsysc, an engine operation. -/
structure LaneOp where
  id   : Nat
  frag : Nat
  flag : Option (Fin 12)
  clause : Nat := 0
  kind : OpKind := .unit
  calls : Bool := false        -- a fence instruction, which stands behind system calls too (R273, R312)
  deriving DecidableEq, Repr

/-- What a noun operation asks (R389-R395, R423, R424). -/
inductive NounAct where
  | wake
  | signal (bits : BitVec 16)
  | deposit (n : BitVec 2) (v : Word) (force : Bool)
  | join
  | test
  | cancel
  | resume (v : Word)
  deriving DecidableEq, Repr

/-- Who asks: a fragment, a noun port's command, or a peer module (R387, R395, R511); an aside that has ended since takes no
reply. -/
inductive Source where
  | frag (k : Nat) (sd sf : SReg) (pc : Word)
  | port (hp : Bool) (np : Nat) (slot : Nat) (tag : BitVec 16) (caddr : Word)
  | peer (module : Nat) (msgid : Nat)
  | ended (phrase : Nat)
  deriving DecidableEq, Repr

structure NounOp where
  id   : Nat
  src  : Source
  ctx  : Nat
  act  : NounAct
  noun : Word
  msg  : Option Nat := none          -- the message that carries it to the module of its target (R383)
  within : Nat := 31                 -- the rights of the GRANT through which it was forwarded (R193)
  granted : Bool := false            -- it came through another module's GRANT, so that its noun is resolved last (R193)
  sender : Word := 0                 -- the source noun of an operation that another module sent
  target : Word := 0                 -- the noun that its resolution came to, when it was forwarded
  mailFail : Bool := false           -- the host has refused the page of its target's mailbox (R149, R386)
  deriving DecidableEq, Repr

/-- A reply on its way to a fragment (R382, R406, R438): the registers it writes in order, STATUS bits it sets, or the
fault it delivers; `waits` when the fragment waits for it. -/
structure Reply where
  id     : Nat
  frag   : Nat
  pc     : Word
  writes : List (SReg × Word)
  status : BitVec 32 := 0
  exn    : Option Exn := none
  waits  : Bool := false
  acq    : Option Scope := none
  locks  : List SReg := []           -- registers that stay interlocked until it arrives (R382)
  deriving DecidableEq, Repr

/-- A join waiting at its target (R392, R395), or a resumer (R423). -/
structure Joiner where
  id     : Nat
  src    : Source
  noun   : Word
  deriving DecidableEq, Repr

/-- The structures that an invalidation acts on (R437). -/
inductive InvalKind where
  | tlb | nouns | verbs
  deriving DecidableEq, Repr

/-- An invalidation under way (R437, R438): what it removes (every copy, one context's, or those of one item: an address, or the
index of a noun or of a verb), the walker records that it waits for, and after the removal the accesses. -/
structure Inval where
  id      : Nat
  frag    : Nat
  sd      : SReg
  what    : InvalKind
  scope   : Scope
  ctx     : Option Nat := none
  item    : Option Nat := none
  records : List Nat := []
  removed : Bool := false
  accs    : List Nat := []
  deriving DecidableEq, Repr

/-! ### Cores and clusters -/

/-- A TLB entry (R204). -/
structure TlbEntry where
  ctx   : Nat
  vpn   : Nat          -- virtual address >> 12 of the page's first 4 KiB
  size  : BitVec 2     -- 0 4 KiB, 1 2 MiB, 2 1 GiB
  frame : Nat          -- FRAME as an address
  ord   : BitVec 2
  host  : Bool
  loc   : Bool
  u     : Bool
  x     : Bool
  w     : Bool
  d     : Bool
  deriving DecidableEq, Repr

/-- A walker miss record (R144), with a number of its own. KIND: 0 read, 1 write, 2 fetch, 3 atomic, 4 copy read, 5 copy
write. -/
structure MissRec where
  num    : Nat
  tag    : Nat
  kind   : Nat
  va     : Nat
  lanes  : Mask
  priv   : Bool
  slot   : Nat
  frag   : Nat         -- key of the requesting fragment
  ctx    : Nat
  ptab   : Word := 0   -- PTAB under which it was posted (R113)
  given  : Bool := false   -- delivered to the walker
  deriving DecidableEq, Repr

/-- A copy in the noun cache or the verb cache of a compute die (R198, R203): the words of a leaf or of a verb entry, tagged by
context number and index. -/
structure TabCopy where
  die   : Nat
  ctx   : Nat
  index : Nat
  words : List Word
  deriving DecidableEq, Repr

/-- A gutter's descriptor and pointers (R351, R353). -/
structure Gutter where
  desc : Word
  prod : BitVec 16 := 0
  cons : BitVec 16 := 0
  deriving DecidableEq, Repr

/-- The type classes of the matrix engine (R339). -/
inductive MxClass where
  | h | m8 | m4 | mi | s | d
  deriving DecidableEq, Repr

/-- A plane descriptor (R332). -/
structure PlaneDesc where
  cls    : MxClass
  etype  : BitVec 5
  k      : Nat
  n      : Nat
  flush  : Bool       -- FLUSH of the slot that governed the load (R86)
  scaled : Bool
  deriving DecidableEq, Repr

/-- An operation of the matrix engine (R333). -/
inductive MxAct where
  | lds (g : Nat) (slot : BitVec 32) (d : PlaneDesc)
  | swap
  | mma (g tile : Nat) (slot : BitVec 32) (cplx : Bool)
  | zero (tile : Nat)
  | rd (tile col cnt aty : Nat) (slot : BitVec 32) (vd : Nat)
  | wr (tile col cnt : Nat) (wide : Bool) (data : List (List Word))
  | out (g tile col cnt aty : Nat) (slot : BitVec 32)
  deriving DecidableEq, Repr

structure MxOp where
  id     : Nat
  frag   : Nat
  phrase : Nat
  mask   : Mask
  act    : MxAct
  fired  : Bool := false
  grant  : Bool := false            -- its grant is held
  input  : List Byte := []          -- the operand bytes taken at firing
  base   : BitVec 16 := 0           -- the producer pointer at firing, of an mxout
  pc     : Word := 0                -- its instruction, and how it is performed again after a fault
  redo   : Clause := {}
  deriving DecidableEq, Repr

/-- The matrix engine of a core (R332). Tiles: ((tile × 32 + row) × 32 + column); planes: key of element or scale. -/
structure Engine where
  tiles  : Tbl Half := []
  plane0 : Tbl Word := []
  plane1 : Tbl Word := []
  act    : Bool := false            -- ACT: false P0 active, in the engine's view
  desc0  : Option PlaneDesc := none
  desc1  : Option PlaneDesc := none
  iact   : Bool := false            -- ACT of the issue view (R334)
  idesc0 : Option PlaneDesc := none
  idesc1 : Option PlaneDesc := none
  token  : Option Nat := none       -- the phrase that holds the token
  lastCtx : Option Nat := none      -- context of the last holder (R107)
  takers : List Nat := []           -- fragments waiting in mxtake, oldest first
  ops    : List MxOp := []          -- issued and not completed, in engine order
  deriving DecidableEq, Repr

structure Core where
  scalarPtr : Nat := 14
  lanePtr   : Nat := 14
  scalarUsed : Nat := 0             -- cycle after the last counted scalar issue
  laneUsed  : Nat := 0
  owner     : Option Nat := none    -- context whose data the scratch holds (R126)
  frozen    : Bool := false
  asideQ    : List Nat := []        -- fragments waiting for a slot (R169)
  tlb       : List TlbEntry := []
  misses    : List MissRec := []
  wDpend    : BitVec 4 := 0         -- the walker's DPEND and wake bit; its registers stand in its fragment
  wWake     : Bool := false
  gutters   : Tbl Gutter := []
  engine    : Engine := {}
  deriving DecidableEq, Repr

/-- A layout record as read at firing (R207). -/
structure Layout where
  base    : Nat
  strides : List Int
  sizes   : List Nat
  boxes   : List Nat
  etype   : BitVec 5
  pack    : BitVec 2
  mxs     : Bool
  keySlot : Nat
  dir     : Bool
  keyen   : Bool
  nonce   : Word
  deriving DecidableEq, Repr

/-- The states of CSTAT (R207), with the queue state before firing. -/
inductive CopySt where
  | queued | running | done | stopped | poisoned | cancelled
  deriving DecidableEq, Repr

/-- A copy (R361-R374). -/
structure CopyOp where
  id     : Nat
  who    : Asker                -- for whom it translates: the issuer, whose phrase may have ended since (R369)
  frag   : Nat
  phrase : Nat
  core   : Nat
  crypt  : Bool
  ops    : CopyOps
  src    : Option Nat           -- scratch address of the source record
  dst    : Option Nat
  st     : CopySt := .queued
  prog   : Nat := 0
  lsrc   : Option Layout := none
  ldst   : Option Layout := none
  batch  : Option (BitVec 16) := none
  wait   : Fetch := .idle       -- a walk it waits for, or that failed
  hwait  : Option (Nat × Word) := none  -- the host page whose translation it waits for, and the address that needs it
  bad    : List (Nat × Bool × Cause × BitVec 8) := []  -- the pages, read or written, that the granule it is at has failed on
  ptr    : BitVec 16 := 0       -- the gutter pointer at the copy's start
  resumed : Bool := false       -- it goes on from PROGRESS (R372)
  auth   : List Byte := []      -- the ciphertext so far (R374)
  seq    : Nat := 0             -- the number of the instruction that queued it, or last resumed it (R208, R372)
  started : Bool := false       -- it has fired, so that it has a gutter pointer of its own (R372)
  deriving DecidableEq, Repr

/-- An ask at a power governor, with the cycle of its arrival (R547). -/
structure Ask where
  cycle  : Nat
  phrase : Nat
  op     : Option Nat           -- the engine operation that asked, if one did
  need   : Nat
  core   : Nat
  slot   : Nat
  deriving DecidableEq, Repr

structure Cluster where
  tlb    : List TlbEntry := []
  last   : Nat := 24            -- source of the last request its atomic engine accepted (R156)
  busyTo : Nat := 0             -- the cycle after the last in which it accepted one
  taken  : Nat := 0             -- requests accepted in that cycle, at most four
  bucket : Nat := 0
  asks   : List Ask := []
  gated  : Bool := false
  deriving DecidableEq, Repr

/-- An fget queued at a cell (R317): its access, and whether it is among the 64 waiters. -/
structure Waiter where
  cell   : Nat
  access : Nat
  deriving DecidableEq, Repr

/-! ### Contexts, applied verbs and courses -/

/-- The image of a core that a context left (R474): where it stands in memory, and the engine's header and planes. -/
structure CoreSave where
  addr   : Nat
  engine : Bool       -- the image holds the engine: its context was the last to hold the token (R107, R108)
  deriving DecidableEq, Repr

structure Ctx where
  record   : Nat := 0
  resident : Bool := false
  ctxw     : Word := 0
  hbase    : Word := 0
  hlim     : Word := 0
  hoff     : Word := 0
  vtab     : Word := 0
  ntab     : Word := 0
  ptab     : Word := 0
  tvec     : Word := 0
  tsave    : Word := 0
  scbase   : Word := 0
  misc     : Word := 0
  flist    : Word := 0
  killed   : Bool := false
  allocs   : List (Nat × Nat) := []   -- heap blocks of ALLOC: address and size (R327)
  cores    : Tbl CoreSave := []       -- core images saved and not yet reloaded (R108, R126)
  mxq      : List MxOp := []          -- unfired engine operations of its saved phrases (R357)
  killers  : List Reply := []         -- the skills that wait for the end of its kill (R440)
  deriving DecidableEq, Repr

/-- The kinds of a node of a nest (R411, R414). -/
inductive NodeKind where
  | func | coroutine | seq | par | pipe | farm | loop
  deriving DecidableEq, Repr

inductive NodeSt where
  | idle | running | done | stopping | cancelled
  deriving DecidableEq, Repr

/-- A node of an applied verb's nest, numbered in the order of R413. `kids` are a (each copy of it) and then b or p. -/
structure Node where
  kind    : NodeKind
  parent  : Option Nat
  kids    : List Nat
  handler : Option Nat
  entry   : Word := 0
  auxent  : Word := 0
  pcount  : Nat := 1
  regs    : Nat := 32
  aux     : Bool := false
  depth   : Nat := 1            -- DEPTH of a pipe
  logsz   : Nat := 7            -- log2 of its entry size
  pages   : Nat := 0
  page    : Nat := 0            -- the place of its first claimed page among the instance's
  span    : Bool := false
  copyNo  : Nat := 0            -- its copy number under a farm
  st      : NodeSt := .idle
  value   : Word := 0
  placed  : Nat := 0            -- phrases placed
  dead    : Nat := 0            -- phrases DEAD
  fail    : Option (BitVec 8) := none
  isHandler : Bool := false
  arg     : Word := 0           -- s3 of its phrases
  gutter  : Option Nat := none  -- the core whose g7 is the channel (R418)
  early   : Bool := false       -- it started before the instance's first placement (R415)
  cbase   : Option Nat := none  -- the number of its first course (R38)
  name    : Nat := 0            -- the index of its verb entry
  deriving DecidableEq, Repr

/-- A launch packet (R209). -/
structure Packet where
  verb      : Nat
  phrases   : Nat
  lastlanes : Nat
  place     : Nat
  cores     : Bool
  aux       : Bool
  droplate  : Bool
  coursesz  : Nat
  prank     : Nat
  fsl       : List (BitVec 32)
  arg       : Word
  deadline  : Word
  tag       : Word
  deriving DecidableEq, Repr

/-- An applied verb and its record (R564). -/
structure Applied where
  noun     : Word
  ctx      : Nat
  part     : Nat
  lq       : Nat
  packet   : Packet
  record   : Nat                    -- physical address of its record
  stamp    : Nat                    -- acceptance stamp (R161)
  pos      : Nat
  late     : Bool := false
  queued   : Bool := true           -- it still stands in its launch queue
  claimed  : Bool := false
  nodes    : List Node := []
  pages    : List Nat := []         -- claimed pages
  suspended : Option Word := none   -- the value yielded (R422)
  waiting  : List (Nat × Word) := []  -- resumers in arrival order, by operation, with the value to pass (R423)
  served   : Option Nat := none     -- the resumer that is being served
  cancelled : Bool := false
  dead     : Bool := false
  cause    : Option (BitVec 8) := none  -- an unhandled failure (R427)
  started  : List Nat := []         -- started parts with phrases still to place (R415)
  courses  : Nat := 0               -- course numbers handed out
  deriving DecidableEq, Repr

/-- A course (R37, R399). Arrivals hold the members that have arrived at sbar and at sclbar; `absent` the ranks of the members of its
launch whose phrases have not been placed yet (R38). -/
structure Course where
  inst    : Nat
  num     : BitVec 32
  place   : Nat
  cluster : Option Nat := none
  members : List (Nat × Nat)        -- rank, phrase
  prank   : Nat
  sbar    : List Nat := []
  sclbar  : List Nat := []
  absent  : List Nat := []
  deriving DecidableEq, Repr

structure LaunchQ where
  en    : Bool := false
  part  : Nat := 0
  items : List Nat := []            -- applied verbs, in order of position
  next  : Nat := 0
  deriving DecidableEq, Repr

/-- A partition: PCFGn (R484) and what firmware keeps for it (R413). -/
structure Part where
  bitmap  : Word := 0
  ready   : Word := 0
  dbgen   : Bool := false
  budget  : Nat := 0                -- PBUDGET as in force since the last tick
  pending : Nat := 0                -- PBUDGET as written
  gmap    : Word := 0               -- the bitmap that its governors go by since the last tick (R546)
  pool    : List Nat := []          -- free pages of the claim pool
  parts   : List (Nat × Nat) := []  -- started parts waiting: applied verb, node (R415)
  restores : List Word := []        -- ready phrases that wait for a place (R479)
  deriving DecidableEq, Repr

/-- An operation queued for a migrating noun (R175), with the shadow of its target. -/
structure Migration where
  noun   : Word
  image  : Nat
  dest   : Nat
  shadow : BitVec 4                  -- DPEND
  sigp   : BitVec 16
  wakep  : Bool
  fwd    : List (Word × NounAct)     -- the forward queue: source noun and operation, at most 256
  queue  : Nat                       -- the vault address at which its entries stand (R175)
  arrives : Nat                      -- where its image is to stand at the destination (R177)
  deriving DecidableEq, Repr

/-- A system call in the ring (R178-R180). -/
structure Sysc where
  id     : Nat
  frag   : Nat
  entry  : Nat                       -- address of its ring entry
  seq    : Nat
  ctx    : Nat
  vd     : Nat
  mask   : Mask
  core   : Nat
  posted : Bool := false             -- STATE 1 has been written (R179)
  serving : Bool := false            -- firmware has taken it: STATE 2 has been written (R180)
  done   : Bool := false             -- STATE 3 has been written
  orphan : Bool := false             -- its phrase has ended: its results are discarded (R328)
  deriving DecidableEq, Repr

/-! ### Hosts -/

/-- An entry of a host port's translation cache (R149). -/
structure AtcEntry where
  ctx   : Nat
  page  : Nat
  host  : Nat          -- the number of the page that the translation gives
  write : Bool
  deriving DecidableEq, Repr

/-- A translation or page request of a host port (R149, R150). -/
structure HostReq where
  ctx   : Nat
  page  : Nat
  write : Bool
  pri   : Bool                       -- a Page Request is outstanding
  quiet : Bool                       -- sent for vpref (R313)
  since : Nat                        -- DTIME of the Page Request
  flidx : List Nat := []             -- fault-list entries its reply goes to, by address (R477)
  deriving DecidableEq, Repr

/-- The TDISP states of R482. -/
inductive Tdisp where
  | unlocked | locked | run | error
  deriving DecidableEq, Repr

/-- A completion word that waits for the translation of its host page (R149, R396). -/
structure NpComp where
  slot  : Nat
  caddr : Word
  low   : Word
  high  : Nat
  deriving DecidableEq, Repr

/-- A noun port (R394, R484): NPCTL, the bound host-thread noun, the slots as last written, and the commands not yet completed. -/
structure NounPort where
  slots : Tbl NpCmd := []            -- the 64 command slots (R394): written by the host, read by the port at a doorbell
  comps : List NpComp := []
  pfail : Bool := false              -- the page of the packet that its next command names has failed (R397)
  en    : Bool := false
  ctx   : Nat := 0
  bound : Option Word := none
  busy  : List Nat := []             -- slots whose command has not completed
  cmds  : List (Nat × NpCmd) := []   -- commands that have not yet taken effect, in doorbell order (R398)
  deriving DecidableEq, Repr

/-- The SPDM session state of a port (R483). -/
structure Spdm where
  version    : Bool := false
  negotiated : Bool := false
  session    : Bool := false
  secured    : Bool := false
  secret     : List Byte := []
  transcript : List Byte := []
  th1        : List Byte := []       -- the transcript's digest at the key exchange, and at the finish
  th2        : List Byte := []
  reqSeq     : Nat := 0              -- secured messages received and sent under the keys in force
  rspSeq     : Nat := 0
  deriving DecidableEq, Repr

structure HostPort where
  linkup : Bool := false
  gone   : Bool := false
  tdisp  : Tdisp := .unlocked
  atc    : List AtcEntry := []
  reqs   : List HostReq := []
  mask   : BitVec 16 := 0xFFFF       -- MSI-X mask bits
  table  : Tbl Word := []            -- MSI-X table words
  ide    : List (Nat × Nat) := []    -- IDE streams and keys
  spdm   : Spdm := {}
  deriving DecidableEq, Repr

/-- What the module sends to a host. -/
inductive HostMsg where
  | msi (hp : Bool) (vector : Nat)
  | translation (hp : Bool) (ctx page : Nat)
  | pageReq (hp : Bool) (ctx page : Nat)
  | dropped (hp : Bool)                          -- Unsupported Request
  | abort (hp : Bool)                            -- Completer Abort
  | data (hp : Bool) (bytes : List Byte) (poisoned : Bool)
  | spdm (hp : Bool) (bytes : List Byte)
  | event (hp : Bool) (record : List Byte)
  deriving DecidableEq, Repr

/-- The lease (R486) and what firmware keeps of it (R488). -/
structure Lease where
  valid  : Bool := false
  holder : Bool := false
  expiry : Nat := 0
  last   : Option Bool := none
  near   : Bool := false             -- vector 2 has been raised for this EXPIRY
  deriving DecidableEq, Repr

/-- A context-switch command slot (R485). -/
structure CsCmd where
  op      : BitVec 8 := 0
  flags   : BitVec 8 := 0
  tag     : BitVec 16 := 0
  target  : Word := 0
  addr    : Word := 0
  place   : Word := 0
  limit   : Word := 0
  busy    : Bool := false            -- the doorbell has rung and RESULT is not written
  num     : Nat := 0                 -- the number of its doorbell
  begun   : Bool := false            -- its migration has started
  status  : Option (BitVec 8) := none  -- the status to report at completion
  result  : Word := 0
  deriving DecidableEq, Repr

/-- An export window (R513). -/
structure ExpWin where
  base  : Word := 0
  size  : Word := 0
  ctl   : BitVec 8 := 0
  owner : Nat := 0
  imps  : List (BitVec 32) := []     -- the IMPORT fields: V in bit 31 and CTXNO in bits 19:0
  deriving DecidableEq, Repr

/-- A freeze record (R484). -/
structure FrzRec where
  code  : BitVec 16
  coord : BitVec 32
  time  : Word
  deriving DecidableEq, Repr

/-- A key slot (R373). -/
structure KeySlot where
  key   : BitVec 256
  ctx   : Nat
  fixed : BitVec 32
  deriving DecidableEq, Repr

/-- The management page and host ports (R484). -/
structure HostSide where
  hp0     : HostPort := {}
  hp1     : HostPort := {}
  ports   : Tbl NounPort := []       -- HP0's 1024 and then HP1's
  lease   : Lease := {}
  standby : BitVec 2 := 0
  feat    : BitVec 128 := 0          -- FEATON
  featAt  : Tbl Nat := []            -- the number of the first access for which a bit that is set holds (R544)
  pending : BitVec 16 := 0           -- MSI-X pending bits
  events  : List (List Byte) := []   -- CXL event records that wait for a lease holder (R498)
  cs      : Tbl CsCmd := []
  exp     : Tbl ExpWin := []
  hwin    : Tbl Word := []
  frzrec  : Tbl FrzRec := []
  frzprod : Nat := 0
  keys    : Tbl KeySlot := []
  keyreq  : Tbl Word := []
  out     : List HostMsg := []
  deriving DecidableEq, Repr

/-! ### Pool and fabric -/

/-- The CXL side (R494-R498): extents in GiB by number, trained ports, links that are down, failed lines. -/
structure Pool where
  extents  : Tbl (Nat × Nat) := []
  ways     : Nat := 0
  gran     : Nat := 0
  order    : List Nat := []          -- PORTS
  trained  : BitVec 16 := 0
  down     : BitVec 16 := 0
  failed   : List Nat := []          -- 64-byte lines whose write the device reported failed
  draining : List (Nat × Nat) := []  -- extents being released, and the first access number they refuse
  withdrawn : List Nat := []         -- extents that a device has withdrawn without release (R497)
  deriving DecidableEq, Repr

/-- A receive key (R508). -/
structure RxKey where
  src : Nat
  gen : BitVec 32
  key : BitVec 256
  sure : Bool := false               -- its sender is known to send under it, or to have taken back CLR since it was installed
  deriving DecidableEq, Repr

/-- A flit kept for replay (R506): its sequence number, bytes, failures, and the message it belongs to. -/
structure RetryFlit where
  lseq  : BitVec 16
  bytes : List Byte
  fails : Nat := 0
  lane  : Nat
  msg   : Nat
  deriving DecidableEq, Repr

/-- A message waiting to be sent (R184). -/
structure OutMsg where
  id    : Nat
  dest  : Nat
  msg   : FabMsg
  src   : Nat                        -- sending module: this one, or the first of a relayed message
  relay : Bool := false              -- held in the relay store
  deriving DecidableEq, Repr

/-- An optical port (R211-R213, R226, R499-R508). -/
structure FPort where
  up      : Bool := false
  bank    : Bool := false            -- BANK
  cal0    : Tbl (BitVec 32) := []
  cal1    : Tbl (BitVec 32) := []
  switch  : Bool := false
  epoch   : BitVec 16 := 0
  plane   : Nat := 0
  index   : Nat := 0                 -- the matching index in force
  counters : Tbl Nat := []           -- FLITTX to KEYGEN, in the order of R226
  lanes   : BitVec 4 := 0xF          -- LANEMASK
  restore : BitVec 4 := 0            -- lanes the fabric manager restores at the next cycle start
  bring   : Bool := false
  tried   : Bool := false            -- the fabric manager has made its first attempt on it (R543)
  txkey   : BitVec 256 := 0
  txctr   : BitVec 32 := 0
  cleared : Bool := true             -- CLR (R508)
  rx      : List RxKey := []
  lseq    : BitVec 16 := 0
  rxlseq  : BitVec 16 := 0
  retry   : List RetryFlit := []
  nacked  : Bool := false            -- a NAK has been returned in this slot
  peer    : Option Nat := none       -- the peer whose preamble was accepted in this slot
  peerMask : BitVec 4 := 0
  adv     : Nat × Nat × List Nat := (0, 0, [])   -- the peer's RSV, SHR and CLOSED
  used    : Tbl Nat := []            -- relay flits sent per destination in this slot; 640 counts SHR
  given   : Nat × Nat × List Nat := (0, 0, [])   -- what this module's own preamble advertised in this slot (R185)
  taken   : Tbl Nat := []            -- relay flits accepted per destination in this slot; 640 counts SHR
  room    : Nat := 0                 -- flit times left in the slot
  partMsg : List (Nat × Nat × List Byte) := []   -- messages being received, by sender and channel, with their destinations
  out     : List (List Byte) := []   -- flits sent
  deriving DecidableEq, Repr

/-- A pool read whose access a save has made restartable (R477): the fault-list entry that takes its reply, its context and place. -/
structure PoolRead where
  entry : Nat
  ctx   : Nat
  page  : Nat
  id    : Nat
  deriving DecidableEq, Repr

/-- A member of an ordered stream held at its arrival (R511). -/
structure HeldMsg where
  src : Nat
  msg : FabMsg
  win : ExpWin        -- the export window as it was when the message arrived (R513)
  deriving DecidableEq, Repr

structure Fabric where
  ports   : Tbl FPort := []
  outq    : List OutMsg := []
  held    : List OutMsg := []        -- messages that no queue has room for (R184)
  msgid   : Nat := 0
  oseq    : List (Word × Nat × Nat) := []   -- per phrase and module: the next number to send
  kept    : List OutMsg := []        -- messages sent whole and not yet answered or acknowledged (R506, R511)
  arrived : List (Nat × Nat × List FabMsg) := []   -- source module and MSGID performed, with the answers, newest first (R510)
  expect  : List (Word × Nat × Nat) := []   -- per phrase and source: the next number to perform
  waiting : List HeldMsg := []
  boots   : Tbl (BitVec 16) := []    -- boot epochs seen
  boot    : BitVec 16 := 1
  deriving DecidableEq, Repr

/-! ### The module -/

/-- Service levels (R543, R549). -/
inductive Service where
  | inReset | reduced | full | halted
  deriving DecidableEq, Repr

/-- A fatal error on record (R549, R550). -/
structure Fatal where
  cause  : BitVec 8
  detail : Word
  time   : Nat
  deriving DecidableEq, Repr

structure State where
  svc      : Service := .reduced
  cycle    : Nat := 0                -- arithmetic-clock cycles since reset
  elevenths : Nat := 0               -- time since reset in units of 1/11 ns
  ticks    : Nat := 0                -- governor ticks made (R546)
  moduleNo : Nat := 0
  image    : FwImage := ⟨0x58464D52, 0, [], [], []⟩
  fatal    : Option Fatal := none
  mem      : Mem := []
  poison   : List Nat := []          -- poisoned 128-byte lines, by address
  tags     : Tbl Tag := []
  waiters  : List Waiter := []
  cores    : Tbl Core := []
  clusters : Tbl Cluster := []
  frags    : Tbl Frag := []          -- 32 × phrase + fragment number
  phrases  : Tbl Phrase := []
  accs     : List Access := []       -- outstanding accesses, oldest issue first
  results  : List LaneRes := []
  laneOps  : List LaneOp := []
  held     : List Access := []       -- the accesses of saved phrases that are to be issued again (R471, R475)
  heldOps  : List LaneOp := []       -- their fences and system calls
  copies   : List CopyOp := []
  heldCopies : List CopyOp := []     -- the copies of saved phrases that are to be queued again (R378)
  poolReads : List PoolRead := []    -- pool reads of saved phrases whose replies are still to come (R477)
  nouns    : List NounOp := []
  replies  : List Reply := []
  joins    : List Joiner := []
  invals   : List Inval := []
  contexts : Tbl Ctx := []
  applied  : Tbl Applied := []
  courses  : List Course := []
  lqs      : Tbl LaunchQ := []
  parts    : Tbl Part := []
  migs     : List Migration := []
  nounCache : List TabCopy := []     -- at most 4096 copies per die (R198)
  verbCache : List TabCopy := []     -- at most 512 copies per die (R203)
  syscs    : List Sysc := []
  host     : HostSide := {}
  pool     : Pool := {}
  fabric   : Fabric := {}
  hot      : BitVec 4 := 0           -- dies at 105 °C or more (R548)
  nextId   : Nat := 1
  draws    : Nat := 0                -- free values drawn
  cur      : Nat := 0                -- the fragment that issues
  inputs   : List Instr := []        -- acts of outside parties still to come, oldest first
  deriving DecidableEq, Repr

/-- The module after reset, in reduced service (R543): DTIME zero, vaults and scratch zero, no context resident, no
lease, every optical port down, nothing queued. -/
def State.reset : State :=
  { fabric := { ports := (List.range 16).map fun n => (n, { plane := n }) } }

end Sys2Proof.Machine
end

