-- ==== Sys2Proof/Machine/Memory.lean ====
section
/-! DEFINITION. Memory: the keys under which the module's memories stand, reading and writing bytes, and the form that
every operation keeps (R124, R134, R158). -/
namespace Sys2Proof.Machine

/-- The first key of core scratch: 2^52, above every physical address (R134). -/
def scratchBase : Nat := 0x10000000000000
/-- The first key of host memory. -/
def hostBase : Nat := 0x100000000000000
/-- The start of the pool window (R134). -/
def poolBase : Nat := 0x4000000000000
def poolTop : Nat := 0x8000000000000
def vaultTop : Nat := 0x400000000
def scratchSize : Nat := 0x60000

/-- The key of byte `off` of a core's scratch. -/
def scratchKey (core off : Nat) : Nat := scratchBase + core * 0x100000 + off

/-- The key of a byte of host memory behind a host port, whose addresses have 64 bits. -/
def hostKey (hp : Bool) (addr : Nat) : Nat := hostBase + (if hp then 0x10000000000000000 else 0) + addr

/-- What an address that memory does not list reads as: vaults and scratch are zeroed at reset (R158); the bytes of the
pool and of hosts are not the module's (free values, log 5). -/
def unlisted (a : Nat) : Byte :=
  if a < poolBase then 0
  else if a < poolTop then Config.poolByte (a - poolBase)
  else if a < hostBase then 0
  else Config.hostByte (a - hostBase)

/-- The canonical form: addresses rise, and no entry equals what an unlisted address reads as. -/
abbrev Memory.wf (m : Mem) : Prop := m.Pairwise (fun a b => a.1 < b.1) ∧ ∀ c ∈ m, c.2 ≠ unlisted c.1

/-- The byte at a key. -/
def readByte : Mem → Nat → Byte
  | [], a => unlisted a
  | (k, b) :: m, a => if k = a then b else if a < k then unlisted a else readByte m a

/-- Memory with a byte written. -/
def writeByte (a : Nat) (b : Byte) : Mem → Mem
  | [] => if b = unlisted a then [] else [(a, b)]
  | (k, c) :: m =>
    if a < k then (if b = unlisted a then (k, c) :: m else (a, b) :: (k, c) :: m)
    else if a = k then (if b = unlisted a then m else (a, b) :: m)
    else (k, c) :: writeByte a b m

/-- `n` bytes from a key, lowest address first. -/
def readBytes (m : Mem) (a : Nat) : Nat → List Byte
  | 0 => []
  | n + 1 => readByte m a :: readBytes m (a + 1) n

def writeBytes (a : Nat) : List Byte → Mem → Mem
  | [], m => m
  | b :: bs, m => writeBytes (a + 1) bs (writeByte a b m)

/-- The little-endian number in `n` bytes (R5). -/
def readNat (m : Mem) (a n : Nat) : Nat := natOf (readBytes m a n)

def writeNat (a n v : Nat) (m : Mem) : Mem := writeBytes a (bytesOf v n) m

/-- Memory with the keys from `a` to below `a + n` as unlisted: what vault and scratch hold when zeroed (R126, R158). -/
def clearRange (a n : Nat) (m : Mem) : Mem := m.filter fun c => c.1 < a || a + n ≤ c.1

/-- Whether a key lies in the vault region. -/
def inVault (a : Nat) : Bool := a < vaultTop
def inPool (a : Nat) : Bool := poolBase ≤ a && a < poolTop
def inScratch (a : Nat) : Bool := scratchBase ≤ a && a < hostBase
def inHost (a : Nat) : Bool := hostBase ≤ a

/-- The cluster of a vault address (R134). -/
def vaultCluster (a : Nat) : Nat := a / 0x10000000

end Sys2Proof.Machine
end

