-- ==== Sys2Proof/Machine/Table.lean ====
section
/-! DEFINITION. Numbered tables as sorted lists of pairs, with the laws of reading and writing them. -/
namespace Sys2Proof.Machine

/-- The item numbered `n`, or `d` where the table has none. -/
def tget {α : Type} (d : α) : Tbl α → Nat → α
  | [], _ => d
  | (k, v) :: t, n => if k = n then v else tget d t n

/-- The item numbered `n`, if the table has one. -/
def tfind {α : Type} : Tbl α → Nat → Option α
  | [], _ => none
  | (k, v) :: t, n => if k = n then some v else tfind t n

/-- The table with `v` as its item numbered `n`. -/
def tput {α : Type} (n : Nat) (v : α) : Tbl α → Tbl α
  | [] => [(n, v)]
  | (k, w) :: t => if n < k then (n, v) :: (k, w) :: t else if n = k then (n, v) :: t else (k, w) :: tput n v t

/-- The table without its item numbered `n`. -/
def tdel {α : Type} (n : Nat) (t : Tbl α) : Tbl α := t.filter fun p => p.1 != n

/-- The table with its item numbered `n`, if it has one, changed by `f`. -/
def tmod {α : Type} (n : Nat) (f : α → α) : Tbl α → Tbl α
  | [] => []
  | (k, v) :: t => if k = n then (k, f v) :: t else (k, v) :: tmod n f t

@[simp] theorem tget_tput_same {α : Type} (d : α) (n : Nat) (v : α) (t : Tbl α) : tget d (tput n v t) n = v := by
  induction t with
  | nil => simp [tput, tget]
  | cons p t ih =>
    obtain ⟨k, w⟩ := p
    simp only [tput]
    split
    · simp [tget]
    · split
      · simp [tget]
      · next h1 h2 => simp [tget, Ne.symm h2, ih]

theorem tget_tput_other {α : Type} (d : α) {n m : Nat} (v : α) (t : Tbl α) (h : n ≠ m) :
    tget d (tput n v t) m = tget d t m := by
  induction t with
  | nil => simp [tput, tget, h]
  | cons p t ih =>
    obtain ⟨k, w⟩ := p
    simp only [tput]
    split
    · simp [tget, h]
    · split
      · next h1 h2 => subst h2; simp [tget, h]
      · simp [tget, ih]

end Sys2Proof.Machine
end

