-- ==== Sys2Proof/Machine/Regs.lean ====
section
/-! DEFINITION. Reading and writing the parts of the state: fragments, phrases, cores, contexts, scalar registers
(R92, R93), masks (R21), STATUS (R116), and the coordinates of R8. -/
namespace Sys2Proof.Machine

/-- What a meaning answers. -/
abbrev Out := Host.Outcome State Fault Refusal

/-! ### The bits of registers that are not reserved (R111, R132) -/

def tsaveBits : Word := ~~~0x1FF
def hbaseBits : Word := 0x00FFFFFFFFE00000
def hlimBits : Word := 0x01FFFFFFFFE00000
def hoffBits : Word := 0x000FFFFFFFE00007

/-! ### Parts of the state -/

namespace State

def frag (s : State) (k : Nat) : Frag := tget {} s.frags k
def setFrag (s : State) (k : Nat) (f : Frag) : State := { s with frags := tput k f s.frags }
def updFrag (s : State) (k : Nat) (g : Frag → Frag) : State := s.setFrag k (g (s.frag k))

def phr (s : State) (p : Nat) : Phrase := tget {} s.phrases p
def setPhr (s : State) (p : Nat) (v : Phrase) : State := { s with phrases := tput p v s.phrases }
def updPhr (s : State) (p : Nat) (g : Phrase → Phrase) : State := s.setPhr p (g (s.phr p))

def core (s : State) (c : Nat) : Core := tget {} s.cores c
def setCore (s : State) (c : Nat) (v : Core) : State := { s with cores := tput c v s.cores }
def updCore (s : State) (c : Nat) (g : Core → Core) : State := s.setCore c (g (s.core c))

def cluster (s : State) (c : Nat) : Cluster := tget {} s.clusters c
def updCluster (s : State) (c : Nat) (g : Cluster → Cluster) : State :=
  { s with clusters := tput c (g (s.cluster c)) s.clusters }

def ctx (s : State) (n : Nat) : Ctx := tget {} s.contexts n
def updCtx (s : State) (n : Nat) (g : Ctx → Ctx) : State := { s with contexts := tput n (g (s.ctx n)) s.contexts }

def inst (s : State) (i : Nat) : Option Applied := tfind s.applied i
def updInst (s : State) (i : Nat) (g : Applied → Applied) : State := { s with applied := tmod i g s.applied }

def lq (s : State) (n : Nat) : LaunchQ := tget {} s.lqs n
def updLq (s : State) (n : Nat) (g : LaunchQ → LaunchQ) : State := { s with lqs := tput n (g (s.lq n)) s.lqs }

def part (s : State) (n : Nat) : Part := tget {} s.parts n
def updPart (s : State) (n : Nat) (g : Part → Part) : State := { s with parts := tput n (g (s.part n)) s.parts }

def hostPort (s : State) (hp : Bool) : HostPort := if hp then s.host.hp1 else s.host.hp0
def updHost (s : State) (g : HostSide → HostSide) : State := { s with host := g s.host }
def updHostPort (s : State) (hp : Bool) (g : HostPort → HostPort) : State :=
  s.updHost fun h => if hp then { h with hp1 := g h.hp1 } else { h with hp0 := g h.hp0 }

def fport (s : State) (n : Nat) : FPort := tget {} s.fabric.ports n
def updFabric (s : State) (g : Fabric → Fabric) : State := { s with fabric := g s.fabric }
def updFport (s : State) (n : Nat) (g : FPort → FPort) : State :=
  s.updFabric fun f => { f with ports := tput n (g (s.fport n)) f.ports }

def updPool (s : State) (g : Pool → Pool) : State := { s with pool := g s.pool }
def updMem (s : State) (g : Mem → Mem) : State := { s with mem := g s.mem }

/-- Nanoseconds since module reset (R222): the arithmetic clock runs at 1.1 GHz. -/
def dtime (s : State) : Nat := s.elevenths / 11

/-- Whether a feature of R544 has been accepted. -/
def accepted (s : State) (b : Nat) : Bool := s.host.feat.getLsbD b

/-- Whether it had been accepted when the access numbered `id` issued (R544). -/
def acceptedFor (s : State) (b id : Nat) : Bool := s.accepted b && tget 0 s.host.featAt b ≤ id

/-- The next number of an item. -/
def bump (s : State) : State := { s with nextId := s.nextId + 1 }
/-- The state after one free value has been drawn. -/
def drawn (s : State) : State := { s with draws := s.draws + 1 }

end State

/-! ### Keys and coordinates -/

/-- The key of fragment `f` of a phrase. -/
def fragKey (p f : Nat) : Nat := 32 * p + f
/-- The phrase number under which a core's walker stands. -/
def walkerPhrase (core : Nat) : Nat := 0x10000000000 + core
def walkerKey (core : Nat) : Nat := fragKey (walkerPhrase core) 0
def isWalkerKey (k : Nat) : Bool := walkerKey 0 ≤ k

/-- The phrase of a fragment key. -/
def phraseOf (k : Nat) : Nat := k / 32

/-- Cores are numbered die by die and cluster by cluster (R8). -/
def clusterOf (core : Nat) : Nat := core / 24
def dieOf (core : Nat) : Nat := core / 384

/-- The core on which a fragment stands. -/
def State.coreOf (s : State) (k : Nat) : Nat := if isWalkerKey k then phraseOf k - walkerPhrase 0 else (s.phr (phraseOf k)).core

/-- A fragment enters the aside queue of its core: behind the entries of earlier cycles, and among those of one cycle by parent slot
and then by FRAG (R169). -/
def State.joinAside (s : State) (k parentSlot : Nat) : State :=
  let s1 := s.updFrag k fun f => { f with qcycle := s.cycle, qslot := parentSlot }
  let later (j : Nat) : Bool :=
    let f := s.frag j
    f.qcycle == s.cycle && (parentSlot < f.qslot || (parentSlot == f.qslot && (s.frag k).num < f.num))
  s1.updCore (s.coreOf k) fun c =>
    { c with asideQ := c.asideQ.filter (fun j => !later j) ++ k :: c.asideQ.filter later }

def State.ctxOf (s : State) (k : Nat) : Nat := (s.phr (phraseOf k)).ctx

/-- A phrase is privileged when CTX.SUP is 1; the walker always is (R112). -/
def State.priv (s : State) (k : Nat) : Bool := isWalkerKey k || (s.ctx (s.ctxOf k)).ctxw.getLsbD 63

/-- The keys of the fragments of a phrase that exist. -/
def State.fragsOf (s : State) (p : Nat) : List Nat :=
  (s.frags.filter fun e => phraseOf e.1 == p && e.2.live).map (·.1)

/-! ### Scalar registers -/

/-- s0 reads as zero (R93). -/
def Frag.reg (f : Frag) (r : SReg) : Word := if r = 0 then 0 else tget 0 f.sregs r.toNat

/-- A write to s0 is discarded (R93). -/
def Frag.setReg (f : Frag) (r : SReg) (v : Word) : Frag :=
  if r = 0 then f else { f with sregs := tput r.toNat v f.sregs }

namespace State

/-- The fragment that issues. -/
def me (s : State) : Frag := s.frag s.cur
def myPhr (s : State) : Phrase := s.phr (phraseOf s.cur)
def myCore (s : State) : Nat := s.coreOf s.cur
def myCtx (s : State) : Nat := s.ctxOf s.cur

/-- A scalar register of the issuing fragment. -/
def r (s : State) (a : SReg) : Word := s.me.reg a
def wr (s : State) (a : SReg) (v : Word) : State := s.updFrag s.cur fun f => f.setReg a v
def updMe (s : State) (g : Frag → Frag) : State := s.updFrag s.cur g

/-- The scalar stream goes on at the next word. -/
def adv (s : State) : State := s.updMe fun f => { f with pc := f.pc + 4 }

/-- ORs bits into a phrase's STATUS (R116, R122). -/
def setStatus (s : State) (p : Nat) (bits : BitVec 32) : State :=
  s.updPhr p fun q => { q with status := q.status ||| bits }

/-- Sets EXEC; EXEC stays within LIVE (R21). -/
def setExec (s : State) (k : Nat) (m : Mask) : State :=
  s.updFrag k fun f => { f with exec := m &&& (s.phr (phraseOf k)).live }

end State

def statusSplitfail : BitVec 32 := 0x8000
def statusNoundead : BitVec 32 := 0x4000
def statusGrowfail : BitVec 32 := 0x2000
def statusNounbusy : BitVec 32 := 0x1000
def statusLate : BitVec 32 := 0x0800
def statusMcfail : BitVec 32 := 0x0400
def statusFover : BitVec 32 := 0x0200
def statusScopemiss : BitVec 32 := 0x0100

/-- Writes a register at issue and goes on (R94). -/
def putNext (sd : SReg) (v : Word) (s : State) : Out := .next (s.wr sd v).adv

/-- Lane l of lane register v of a phrase; the nameable registers are zero at launch (R92). -/
def Phrase.lane (p : Phrase) (v l : Nat) : Half := tget 0 p.lanes (32 * v + l)
def Phrase.setLane (p : Phrase) (v l : Nat) (x : Half) : Phrase := { p with lanes := tput (32 * v + l) x p.lanes }

/-- The number of nameable lane registers of a phrase (R98). DESIGN CHOICE: the queue window of a main stands until the main ends, also
when its auxiliary has ended before (log 87). -/
def Phrase.nameable (q : Phrase) : Nat := if q.mate.isSome && !q.isAux then q.regs - 32 else q.regs

/-- Whether a phrase issues nothing yet: its restore is still to take the token or to serve entries (R337, R478). -/
def Phrase.stalled (q : Phrase) : Bool := q.needTok || !q.restarts.isEmpty

/-! ### Causes -/

/-- The cause codes of R463. -/
def causeCode : Cause → Nat
  | .illop => 0x01 | .priv => 0x02 | .align => 0x03 | .xlate => 0x04 | .access => 0x05 | .divz => 0x06
  | .fptrap => 0x07 | .brk => 0x08 | .swtrap => 0x09 | .noun => 0x0A | .copy => 0x0B | .fabric => 0x0C
  | .pool => 0x0D | .host => 0x0E | .mxfault => 0x0F | .grow => 0x10 | .gutter => 0x11 | .killed => 0x12

def causeOf (n : Nat) : Option Cause :=
  [Cause.illop, .priv, .align, .xlate, .access, .divz, .fptrap, .brk, .swtrap, .noun, .copy, .fabric, .pool, .host,
    .mxfault, .grow, .gutter, .killed].find? fun c => causeCode c == n

end Sys2Proof.Machine
end

