-- ==== Sys2Proof/Machine/Translate.lean ====
section
/-! DEFINITION. Address resolution (R127-R134), page tables and TLBs (R135-R137, R143-R146, R204), and miss records. -/
namespace Sys2Proof.Machine

/-- What an access asks of its page. -/
inductive Want where
  | read | write | fetch | atomic
  deriving DecidableEq, Repr

def Want.writes : Want → Bool
  | .write | .atomic => true
  | _ => false

/-- The KIND of a miss record (R144). -/
def Want.kind : Want → Nat
  | .read => 0 | .write => 1 | .fetch => 2 | .atomic => 3

/-- The translation registers of a context. -/
def Ctx.regime (c : Ctx) : Regime := ⟨c.ptab, c.hbase, c.hlim, c.hoff⟩

def State.asker (s : State) (k : Nat) : Asker :=
  { core := s.coreOf k, ctx := s.ctxOf k, priv := s.priv k, phrase := phraseOf k, regime := (s.ctx (s.ctxOf k)).regime }

/-- The outcome of resolving one part. -/
inductive Xlt where
  | ok (p : Piece)
  | miss
  | bad (stage : Nat) (cause : Cause) (sub : BitVec 8)
  deriving DecidableEq, Repr

/-! ### TLBs -/

/-- Whether an entry's page contains an address (R204). -/
def TlbEntry.covers (e : TlbEntry) (va : Nat) : Bool :=
  let sh := 12 + 9 * e.size.toNat
  va / 2 ^ sh == e.vpn * 0x1000 / 2 ^ sh

/-- Whether an entry serves an access: context, page, the checks of R137, and D for a store or atomic (R143, R204). -/
def TlbEntry.serves (e : TlbEntry) (a : Asker) (va : Nat) (w : Want) : Bool :=
  e.ctx == a.ctx && e.covers va && (e.u || a.priv) && (!w.writes || (e.w && e.d)) && (w != .fetch || e.x)

def State.tlbFind (s : State) (a : Asker) (va : Nat) (w : Want) : Option TlbEntry :=
  match (s.core a.core).tlb.find? fun e => e.serves a va w with
  | some e => some e
  | none => (s.cluster (clusterOf a.core)).tlb.find? fun e => e.serves a va w

/-- The address that an entry gives. -/
def TlbEntry.addr (e : TlbEntry) (va : Nat) : Nat := e.frame + va % 2 ^ (12 + 9 * e.size.toNat)

/-! ### Physical addresses -/

/-- A piece of physical memory with its path (R17, R124); none outside the regions of R134. -/
def physPiece (core pa len : Nat) (ord : BitVec 2) : Option Piece :=
  if inVault pa then some ⟨pa, len, if vaultCluster pa == clusterOf core then 0 else 1, ord⟩
  else if inPool pa then some ⟨pa, len, 2, ord⟩
  else none

/-- A member of the course that holds core `c`, for the cluster scratch window (R131). -/
def State.courseHolds (s : State) (phrase c : Nat) : Bool :=
  let q := s.phr phrase
  match q.course with
  | none => false
  | some n =>
    match s.courses.find? fun x => x.inst == q.inst && x.num == n with
    | none => false
    | some x => x.place == 1 && (c == q.core || x.members.any fun m => (s.phr m.2).present && (s.phr m.2).core == c)

def ffTop : Nat := 0xFF000000000000
def ownWindow : Nat := 0xFFFF0000000000
def clusterWindow : Nat := 0xFFFE0000000000

/-- The resolution of one part by the rules of R128: windows, the heap triple (R133), or the TLBs. -/
def State.resolve (s : State) (a : Asker) (hp : Bool) (va len : Nat) (w : Want) : Xlt :=
  if va ≥ 2 ^ 56 then .bad 1 .align 0
  else if ownWindow ≤ va && va < ownWindow + scratchSize then
    .ok ⟨scratchKey a.core (va - ownWindow), len, 0, 2⟩
  else if clusterWindow ≤ va && va < clusterWindow + 0x1800000 then
    let c := (va - clusterWindow) / 0x100000
    let off := (va - clusterWindow) % 0x100000
    if off ≥ scratchSize then .bad 3 .access 0x01
    else
      let core := clusterOf a.core * 24 + c
      if s.courseHolds a.phrase core then .ok ⟨scratchKey core off, len, 0, 1⟩
      else .bad 3 .access 0x02
  else if va ≥ ffTop then .bad 3 .access 0x01
  else
    let x := a.regime
    let base := field x.hbase 21 35 * 0x200000
    let top := min (base + field x.hlim 21 36 * 0x200000) (2 ^ 56)
    if base ≤ va && va < top then
      let pa := (va + field x.hoff 21 31 * 0x200000) % 2 ^ 52
      let ord := x.hoff.extractLsb' 0 2
      if w.writes && !x.hoff.getLsbD 2 then .bad 5 .access 0x03
      else if ord == 3 then .bad 5 .access 0x06
      else match physPiece a.core pa len ord with
        | some p => .ok p
        | none => .bad 5 .access 0x07
    else match s.tlbFind a va w with
      | none => .miss
      | some e =>
        if e.host then .ok ⟨hostKey hp (e.addr va), len, 4, e.ord⟩
        else match physPiece a.core (e.addr va) len e.ord with
          | some p => .ok p
          | none => .bad 5 .access 0x07

/-- The resolution of an instruction fetch (R129): paged only, X, and no host page. -/
def State.resolveFetch (s : State) (a : Asker) (va len : Nat) : Xlt :=
  if va ≥ ffTop then .bad 3 .access 0x04
  else match s.tlbFind a va .fetch with
    | none => .miss
    | some e =>
      if e.host then .bad 5 .access 0x04
      else match physPiece a.core (e.addr va) len e.ord with
        | some p => .ok p
        | none => .bad 5 .access 0x07

/-! ### Memory that cannot be read (R153, R158) -/

/-- The extent that holds a pool address, counted in GiB (R495). -/
def Pool.extentOf (p : Pool) (a : Nat) : Option Nat :=
  (p.extents.find? fun e => e.2.1 ≤ a / 0x40000000 && a / 0x40000000 < e.2.1 + e.2.2).map (·.1)

/-- The port of a pool address (R495). -/
def Pool.portOf (p : Pool) (a : Nat) : Nat := nth 0 p.order (a / 2 ^ p.gran % 2 ^ p.ways)

/-- Whether pool memory refuses an access numbered `id` to address `a` (R153, R496, R497). -/
def State.poolRefuses (s : State) (id a : Nat) : Option (BitVec 8) :=
  if s.svc != .full || !s.acceptedFor 2 id then some 0x01
  else match s.pool.extentOf a with
    | none => some 0x02
    | some e =>
      if s.pool.draining.any fun d => d.1 == e && d.2 ≤ id then some 0x02
      else if s.pool.withdrawn.contains e then some 0x01
      else if s.pool.down.getLsbD (s.pool.portOf a) then some 0x01
      else if s.pool.failed.contains (a / 64) then some 0x01
      else none

/-- Whether some of `len` bytes from a key lie in a poisoned line (R158). -/
def State.poisoned (s : State) (key len : Nat) : Bool := s.poison.any fun l => l < key + len && key < l + 128

/-- Whether eight bytes at a physical address cannot be read by the walker: no memory, poison, or a pool that refuses. -/
def State.unreadable (s : State) (pa : Nat) : Bool :=
  if inVault pa then s.poisoned pa 8
  else if inPool pa then (s.poolRefuses s.nextId (pa - poolBase)).isSome
  else true

/-! ### The walk (R145) -/

inductive Walked where
  | fill (leaf : Word) (size : Nat)
  | fault (cause : Cause) (sub : BitVec 8)
  deriving DecidableEq, Repr

def pteReserved (e : Word) : Bool := e.extractLsb' 52 12 != 0
def pteFrame (e : Word) : Nat := field e 12 40 * 0x1000
def pteLeaf (level : Nat) (e : Word) : Bool := level == 3 || (level != 0 && e.getLsbD 6)

/-- Malformed entries (R137). -/
def pteMalformed (level : Nat) (e : Word) : Bool :=
  pteReserved e || (level == 0 && e.getLsbD 6) ||
  (if pteLeaf level e then e.extractLsb' 7 2 == 3 || pteFrame e % 2 ^ (12 + 9 * (3 - level)) != 0
   else !inVault (pteFrame e) || e.extractLsb' 1 5 != 0 || e.extractLsb' 7 5 != 0)

/-- The bits of a virtual address that index a level (R135). -/
def vaIndex (va level : Nat) : Nat := if level == 0 then fieldNat va 39 17 else fieldNat va (39 - 9 * level) 9

/-- The walk from a level's table: the address of the leaf, the leaf, and its level. An entry in a poisoned line cannot be read
(R158; log 7); `bad` says where reads fail. -/
def walkFrom (bad : Nat → Bool) (m : Mem) (va : Nat) : Nat → Nat → Nat → Except (Cause × BitVec 8) (Nat × Word × Nat)
  | 0, _, _ => .error (.xlate, 0x03)
  | fuel + 1, level, table =>
    let a := table + 8 * vaIndex va level
    let e := wordOf (readNat m a 8)
    if bad a then .error (.access, 0x0A)
    else if !e.getLsbD 0 then .error (.xlate, if level == 3 && e.getLsbD 9 then 0x02 else 0x01)
    else if pteMalformed level e then .error (.xlate, 0x03)
    else if pteLeaf level e then .ok (a, e, level)
    else walkFrom bad m va fuel (level + 1) (pteFrame e)

/-- FTFRAMES of a context: the first and last frame number, read through the context information page (R146); none when the
walker cannot read the page. -/
def ftFrames (bad : Nat → Bool) (m : Mem) (ptab : Nat) : Option (Nat × Nat) :=
  match walkFrom bad m 0xFE000000000000 4 0 ptab with
  | .ok (_, e, level) =>
    let a := pteFrame e + 0xFE000000000000 % 2 ^ (12 + 9 * (3 - level)) + 32
    if e.getLsbD 10 || bad a then none
    else
      let w := readNat m a 8
      some (w % 2 ^ 32, w / 2 ^ 32)
  | .error _ => none

/-- A leaf with LOCAL whose frame lies outside FTFRAMES fails (R146). -/
def badFrame (bad : Nat → Bool) (m : Mem) (ptab : Nat) (e : Word) : Bool :=
  e.getLsbD 9 &&
  (match ftFrames bad m ptab with
   | none => true
   | some (lo, hi) => let f := pteFrame e / 0x1000; f < lo || hi < f)

/-- A walk: the FTFRAMES test, the permission checks, then A and D (R145). -/
def walk (bad : Nat → Bool) (m : Mem) (ptab va : Nat) (writes fetch priv : Bool) : Walked × Mem :=
  match walkFrom bad m va 4 0 ptab with
  | .error (c, b) => (.fault c b, m)
  | .ok (a, e, level) =>
    if badFrame bad m ptab e then (.fault .access 0x08, m)
    else if writes && !e.getLsbD 1 then (.fault .access 0x03, m)
    else if fetch && !e.getLsbD 2 then (.fault .access 0x04, m)
    else if !priv && !e.getLsbD 3 then (.fault .access 0x05, m)
    else
      let e' := e ||| 0x10 ||| (if writes then 0x20 else 0)
      (.fill e' (3 - level), writeNat a 8 e'.toNat m)

/-- The TLB entry of a leaf at a page size (R204, R436). -/
def tlbOf (ctx va : Nat) (leaf : Word) (size : Nat) : TlbEntry :=
  let sh := 12 + 9 * size
  { ctx := ctx, vpn := va / 2 ^ sh * 2 ^ (sh - 12), size := BitVec.ofNat 2 size, frame := pteFrame leaf,
    ord := leaf.extractLsb' 7 2, host := leaf.getLsbD 10, loc := leaf.getLsbD 9, u := leaf.getLsbD 3,
    x := leaf.getLsbD 2, w := leaf.getLsbD 1, d := leaf.getLsbD 5 }

/-- A TLB of `n` entries with one more; the oldest is evicted (R204). -/
def tlbAdd (n : Nat) (e : TlbEntry) (t : List TlbEntry) : List TlbEntry :=
  (e :: t.filter fun x => !(x.ctx == e.ctx && x.vpn == e.vpn && x.size == e.size)).take n

/-- Installs an entry in the core's and the cluster's TLB (R436). -/
def State.installTlb (s : State) (core : Nat) (e : TlbEntry) : State :=
  (s.updCore core fun c => { c with tlb := tlbAdd 256 e c.tlb }).updCluster (clusterOf core)
    fun c => { c with tlb := tlbAdd 4096 e c.tlb }

/-! ### Miss records (R143) -/

/-- The lowest record number that no outstanding record holds. -/
def freeTag (ms : List MissRec) : Nat :=
  match (List.range 64).find? fun t => ms.all fun m => m.tag != t with
  | some t => t
  | none => 64

def MissRec.isFor (m : MissRec) (ctx vpn : Nat) : Bool := m.ctx == ctx && m.va / 0x1000 == vpn

/-- Posts a miss, or joins the outstanding record of its context and page (R143). -/
def State.postMiss (s : State) (k : Nat) (a : Asker) (kind va : Nat) (lanes : Mask) : State :=
  s.bump.updCore a.core fun c =>
    if c.misses.any fun m => m.isFor a.ctx (va / 0x1000) then
      { c with misses := c.misses.map fun m =>
          if m.isFor a.ctx (va / 0x1000) && !m.given then { m with lanes := m.lanes ||| lanes } else m }
    else
      { c with misses := c.misses ++ [{ num := s.nextId, tag := freeTag c.misses, kind := kind, va := va, lanes := lanes,
                                        priv := a.priv, slot := ((s.frag k).slot).getD 0, frag := k, ctx := a.ctx, ptab := a.regime.ptab }] }

/-- How many new records the misses of an instruction would post (R143). -/
def newRecords (c : Core) (ctx : Nat) (vpns : List Nat) : Nat :=
  (vpns.eraseDups.filter fun v => !(c.misses.any fun m => m.isFor ctx v)).length

/-! ### Host pages (R149, R150) -/

/-- The host port of a context (R190). -/
def State.hportOf (s : State) (ctx : Nat) : Bool := (s.ctx ctx).misc.getLsbD 16

/-- The host page number of a key. -/
def hostPage (key : Nat) : Nat := (key - hostBase) % 0x10000000000000000 / 0x1000
def hostSide (key : Nat) : Bool := decide (key - hostBase ≥ 0x10000000000000000)

/-- Whether a Page Request for a page is unanswered: every access to the page is held meanwhile (R150). -/
def State.pageHeld (s : State) (hp : Bool) (ctx page : Nat) : Bool :=
  (s.hostPort hp).reqs.any fun q => q.ctx == ctx && q.page == page && q.pri

/-- The translation of a page in a port's cache (R149). -/
def State.atcFind (s : State) (hp : Bool) (ctx page : Nat) : Option AtcEntry :=
  (s.hostPort hp).atc.find? fun e => e.ctx == ctx && e.page == page

/-- Whether the port's cache translates a page with the permission that is needed, and no Page Request holds it (R149, R150). -/
def State.atcHit (s : State) (hp : Bool) (ctx page : Nat) (writes : Bool) : Bool :=
  ((s.atcFind hp ctx page).any fun e => !writes || e.write) && !s.pageHeld hp ctx page

/-- The key of a byte of host memory as the port sends it: translated where its cache holds the page (R149). -/
def State.hostAddr (s : State) (hp : Bool) (ctx addr : Nat) : Nat :=
  match s.atcFind hp ctx (addr / 0x1000) with
  | some e => hostKey hp (e.host * 0x1000 + addr % 0x1000)
  | none => hostKey hp addr

/-- A piece as its path performs it: a host piece lies where its translation says (R149). -/
def State.realPiece (s : State) (ctx : Nat) (p : Piece) : Piece :=
  if p.path == 4 then { p with key := s.hostAddr (hostSide p.key) ctx ((p.key - hostBase) % 0x10000000000000000) } else p

/-- Sends an ATS Translation Request, unless one that covers it or a Page Request is outstanding for the page (R149, R150, R313). -/
def State.askHost (s : State) (hp : Bool) (ctx page : Nat) (writes quiet : Bool) : State :=
  if (s.hostPort hp).reqs.any fun q => q.ctx == ctx && q.page == page && (q.pri || ((q.write || !writes) && (quiet || !q.quiet))) then s
  else
    (s.updHostPort hp fun p => { p with reqs :=
      (p.reqs.filter fun q => !(q.ctx == ctx && q.page == page && q.quiet)) ++
        [{ ctx := ctx, page := page, write := writes, pri := false, quiet := quiet, since := s.dtime }] }).updHost
      fun h => { h with out := h.out ++ [.translation hp ctx page] }

end Sys2Proof.Machine
end

