-- ==== Sys2Proof/Machine/Pending.lean ====
section
/-! DEFINITION. What is outstanding: accesses, results and operations of a fragment; the flags (R49, R106), the path
counters (R216, R217), the request entries (R218), the interlocks (R94), and the order of accesses (R443-R451). -/
namespace Sys2Proof.Machine

/-! ### Accesses -/

def LaneSt.open : LaneSt → Bool
  | .walk | .todo | .sent => true
  | _ => false

/-- Whether an access still has a lane to perform. -/
def Access.pending (a : Access) : Bool := a.lanes.any fun l => l.st.open

def AccKind.isStore : AccKind → Bool
  | .store | .mcast => true
  | _ => false

def AccKind.isLoad : AccKind → Bool
  | .load | .ftest => true
  | _ => false

/-- The accesses to future cells (R314). -/
def AccKind.isFuture : AccKind → Bool
  | .fset _ | .fget | .ftest => true
  | _ => false

/-- The accesses that an atomic engine or an AtomicOp performs (R155). -/
def AccKind.isAtomic : AccKind → Bool
  | .amo _ _ | .fset _ | .fget | .ftest => true
  | _ => false

def AccKind.isFabric : AccKind → Bool
  | .rma _ | .mcast => true
  | _ => false

/-- What an access asks of its pages. -/
def AccKind.want : AccKind → Want
  | .load | .ftest => .read
  | .store => .write
  | _ => .atomic

def orderAcq : Order → Bool
  | .acq | .acqrel => true
  | _ => false

def orderRel : Order → Bool
  | .rel | .acqrel => true
  | _ => false

/-- The pieces of an access that are not yet performed. -/
def Access.pieces (a : Access) : List Piece := (a.lanes.filter fun l => l.st == .todo).flatMap (·.parts)

/-- Whether every piece of an access lies on unordered pages (R451). -/
def Access.unordered (a : Access) : Bool :=
  !a.kind.isFabric && !(a.lanes.any fun l => l.st == .walk) && a.pieces.all fun p => p.ord == 0

/-- Whether some piece may be a strong one on the die of the issuing core (R446, R447): a page not yet known may be. -/
def Access.strongOn (a : Access) (die : Nat) : Bool :=
  !a.kind.isFabric && ((a.lanes.any fun l => l.st == .walk) || a.pieces.any fun p =>
    p.ord == 2 && (if inVault p.key then vaultCluster p.key / 16 == die
                   else inScratch p.key && (p.key - scratchBase) / 0x100000 / 384 == die))

/-- The module of a peer word (R319). -/
def peerModule (p : Nat) : Nat := fieldNat p 0 10

/-- The window of a peer word (R319). -/
def peerWin (p : Nat) : Nat := fieldNat p 12 4

/-- `n` bytes at an offset of a window: this module's own bytes for a window of its own (R321), and else a place in a space of the
model's own for the peer's bytes, whose page kind is not known here. -/
def State.windowSpot (s : State) (peer off n : Nat) : Piece :=
  let x : ExpWin := tget {} s.host.exp (peerWin peer)
  let far : Piece := ⟨2 ^ 60 + (peerModule peer * 16 + peerWin peer) * 2 ^ 49 + off, n, 3, 2⟩
  if peerModule peer == s.moduleNo then (physPiece 0 (x.base.toNat + off) n (x.ctl.extractLsb' 2 2)).getD far else far

/-- The places that an access has still to perform. -/
def State.spots (s : State) (a : Access) : List Piece :=
  if a.kind.isFabric then
    (a.lanes.filter fun l => l.st.open).flatMap fun l =>
      if a.kind == .mcast then a.body.map fun b => s.windowSpot l.peer.toNat b.off.toNat a.bytes
      else [s.windowSpot l.peer.toNat l.addr.toNat a.bytes]
  else a.pieces

/-- Whether an access is a synchronising one that may lie on a strong page, in a window too (R446, R447, R450). -/
def State.syncStrong (s : State) (a : Access) : Bool :=
  a.order.order != .none && ((a.lanes.any fun l => l.st == .walk) || (s.spots a).any fun p => p.ord == 2)

def piecesMeet (p q : Piece) : Bool := p.key < q.key + q.len && q.key < p.key + p.len

/-- Whether a fabric access only writes: two of these reach their module in any order (R322, R454). -/
def AccKind.onlyWrites : AccKind → Bool
  | .rma r => r == .wr
  | .mcast => true
  | _ => false

/-- Whether two accesses may touch one byte, and are kept in order there (R444): an access whose pages are not yet known may touch
any, and remote writes are not ordered among themselves. -/
def State.meets (s : State) (a b : Access) : Bool :=
  !(a.kind.onlyWrites && b.kind.onlyWrites) &&
  ((a.lanes.any fun l => l.st == .walk) || (b.lanes.any fun l => l.st == .walk) ||
   (s.spots a).any fun p => (s.spots b).any fun q => piecesMeet p q)

/-- A full fence of system scope orders unordered pages too (R451). -/
def fullSys (o : Ordering) : Bool := o.order == .acqrel && o.scope == .sys

/-- Whether an outstanding access stands before a fence (R273, R312, R451). -/
def fenceHolds (o : Ordering) (b : Access) : Bool := b.pending && (fullSys o || !b.unordered)

/-- Whether a fence stands behind an outstanding system call of its fragment (R273, R312). -/
def State.callBefore (s : State) (o : LaneOp) : Bool :=
  o.calls && s.syscs.any fun y => y.frag == o.frag && y.id < o.id && !y.orphan

/-- Whether an operation of a fragment is outstanding. -/
def State.opPending (s : State) (o : LaneOp) : Bool :=
  match o.kind with
  | .unit => true
  | .fence f =>
    (s.accs.any fun b => b.frag == o.frag && b.id < o.id && fenceHolds f b) || s.callBefore o
  | .pref records hosts =>
    let a := s.asker o.frag
    ((s.core a.core).misses.any fun m => records.contains m.num) ||
    hosts.any fun v => (s.hostPort (s.hportOf a.ctx)).reqs.any fun q => q.ctx == a.ctx && q.page == v && !q.pri

/-- Operations that have ended leave the list. -/
def State.tidy (s : State) : State := { s with laneOps := s.laneOps.filter fun o => s.opPending o }

/-- Whether a fence of the fragment stands between two of its accesses and orders them (R273, R312, R451). -/
def State.fenceBetween (s : State) (a b : Access) : Bool :=
  s.laneOps.any fun f => f.frag == a.frag && b.id < f.id && f.id < a.id &&
    (match f.kind with | .fence o => fenceHolds o b && (fullSys o || !a.unordered) | _ => false)

/-- Whether access `a` must wait for the earlier access `b` of its fragment (R322, R443-R451). An fget that waits at its cell
holds only what a vfence puts behind it: the scalar stream waits with it, and no wait shows it complete to the lanes (R443; log 21). -/
def State.follows (s : State) (a b : Access) : Bool :=
  b.frag == a.frag && b.id < a.id && b.pending &&
  (s.fenceBetween a b || (b.kind != .fget &&
   ((orderAcq b.order.order && !a.unordered) ||
    (orderRel a.order.order && !b.unordered) ||
    (orderRel b.order.order && b.kind.isFabric && !b.began) ||
    (s.syncStrong a && s.syncStrong b) ||
    (a.scalar == b.scalar && (s.meets a b ||
      (a.strongOn (dieOf (s.coreOf a.frag)) && b.strongOn (dieOf (s.coreOf a.frag)) &&
        !(b.kind.isStore && a.kind.isLoad)))))))

/-- Whether an ordered write waits until an earlier one of its phrase to one of its modules has been sent (R322). -/
def State.ordBefore (s : State) (a : Access) : Bool :=
  a.ord && s.accs.any fun b => b.ord && !b.began && b.id < a.id && phraseOf b.frag == phraseOf a.frag &&
    b.lanes.any fun x => a.lanes.any fun y => peerModule x.peer.toNat == peerModule y.peer.toNat

/-- Whether a fence before an access stands behind an outstanding system call (R273, R312). -/
def State.callFence (s : State) (a : Access) : Bool :=
  s.laneOps.any fun f => f.frag == a.frag && f.id < a.id && (match f.kind with | .fence _ => s.callBefore f | _ => false)

/-- Whether nothing that must come before an access is outstanding. -/
def State.mayPerform (s : State) (a : Access) : Bool :=
  !(s.accs.any fun b => s.follows a b) && !s.ordBefore a && !s.callFence a

/-- A relaxed access to some pieces that a fragment would make now. -/
def State.probe (s : State) (k : Nat) (scalar writes : Bool) (ps : List Piece) : Access :=
  { id := s.nextId, frag := k, scalar := scalar, pc := 0, kind := if writes then .store else .load, bytes := 0, ty := .u8
    signed := false, order := ⟨.none, .phr⟩, dest := .none, lanes := [{ lane := 0, addr := 0, parts := ps }] }

/-- Whether an instruction that touches memory as it issues may do so now: no access, fence or system call of its fragment stands
before it (R273, R312, R446, R448). -/
def State.atOnce (s : State) (k : Nat) (scalar writes : Bool) (ps : List Piece) : Bool := s.mayPerform (s.probe k scalar writes ps)

/-- Whether an earlier access of a fragment may still change some of `len` bytes at a key, or, before a write, read them (R444). -/
def State.touchPending (s : State) (k : Nat) (writes : Bool) (key len : Nat) : Bool :=
  s.accs.any fun b => b.frag == k && b.pending && (writes || b.kind.want.writes) && !b.kind.isFabric &&
    ((b.lanes.any fun l => l.st == .walk) || b.pieces.any fun p => piecesMeet p ⟨key, len, 0, 0⟩)

/-! ### Flags and counters -/

/-- A flag reads set while an operation bound to it is outstanding (R49). -/
def State.flagSet (s : State) (k : Nat) (n : Nat) : Bool :=
  (s.accs.any fun a => a.frag == k && a.flag.any fun f => f.val == n) ||
  (s.results.any fun a => a.frag == k && a.flag.any fun f => f.val == n) ||
  (s.laneOps.any fun o => o.frag == k && (o.flag.any fun f => f.val == n) && s.opPending o)

def State.flagsClear (s : State) (k : Nat) (m : BitVec 12) : Bool :=
  (List.range 12).all fun n => !(m.getLsbD n && s.flagSet k n)

def State.allClear (s : State) (k : Nat) : Bool := s.flagsClear k 0xFFF

/-- A path counter: the open instructions on the path that have not fallen (R216, R217). -/
def Frag.pathCount (f : Frag) (p : Nat) : Nat := (f.opens.filter fun o => o.paths.getLsbD p).length

def Frag.pathsZero (f : Frag) : Bool := (List.range 5).all fun p => f.pathCount p == 0

def pathBit (p : Nat) : BitVec 5 := BitVec.ofNat 5 (2 ^ p)

/-- A counter falls in issue order: the oldest open instructions on the path that are complete leave it (R217). -/
def fallPath (p : Nat) : List OpenIns → List OpenIns
  | [] => []
  | o :: os =>
    if o.paths.getLsbD p then
      (if o.done.getLsbD p then { o with paths := o.paths &&& ~~~pathBit p } :: fallPath p os else o :: os)
    else o :: fallPath p os

def fallAll (os : List OpenIns) : List OpenIns :=
  ((List.range 5).foldl (fun l p => fallPath p l) os).filter fun o => o.paths != 0

/-- An instruction becomes complete on the paths of `m` (R217). -/
def Frag.close (f : Frag) (id : Nat) (m : BitVec 5) : Frag :=
  { f with opens := fallAll (f.opens.map fun o => if o.id == id then { o with done := o.done ||| m } else o) }

def Frag.openOn (f : Frag) (id : Nat) (m : BitVec 5) : Frag :=
  if m == 0 then f else { f with opens := f.opens ++ [⟨id, m, 0⟩] }

/-- Whether a lane's part of an access holds its path: until it is performed, or until the fault of its path is taken (R217). -/
def LaneSt.counts : LaneSt → Bool
  | .todo | .failed _ _ _ => true
  | _ => false

/-- The paths on which an access is still at work; all five while a page is not known (R216). A failed lane stays on the paths of
its parts until its fault is taken (R217). -/
def Access.paths (a : Access) : BitVec 5 :=
  if a.kind == .fget then 0
  else if a.kind.isFabric then (if a.lanes.any fun l => l.st.open || (a.began && l.st != .done) then pathBit 3 else 0)
  else if a.lanes.any fun l => l.st == .walk then 0x1F
  else ((a.lanes.filter fun l => l.st.counts).flatMap (·.parts)).foldl (fun m p => m ||| pathBit p.path) 0

/-- How many bytes one lane's access reaches: a future is a cell of 16 (R314). -/
def Access.reach (a : Access) : Nat := if a.kind.isFuture then 16 else a.bytes

/-- The parts of an access, split at a 4 KiB boundary (R141). -/
def splitParts (va len : Nat) : List (Nat × Nat) :=
  let r := 0x1000 - va % 0x1000
  if len ≤ r then [(va, len)] else [(va, r), ((va + r) % 2 ^ 64, len - r)]

/-- The request entries that an access holds (R218): one for each part, also of a lane that waits for a walk. -/
def Access.requests (a : Access) : Nat :=
  (a.lanes.filter fun l => l.st.open).foldl (fun n l =>
    n + (if l.st == .walk then (splitParts l.addr.toNat a.reach).length else max 1 l.parts.length)) 0

/-- Whether an instruction that needs `n` requests may issue (R218): 64 of the 4096 entries are the walker's, and no path counter
passes 4096 (R215). -/
def State.roomFor (s : State) (k n : Nat) : Bool :=
  let mine := s.accs.foldl (fun m a => if a.frag == k then m + a.requests else m) 0
  let all := s.accs.foldl (fun m a => if s.coreOf a.frag == s.coreOf k then m + a.requests else m) 0
  all + n ≤ 4032 && mine + n ≤ 2048 && (List.range 5).all fun p => (s.frag k).pathCount p < 4096

/-! ### Interlocks (R94) -/

/-- Whether a scalar register awaits a result: a load, an atomic, an fget, or a reply. -/
def State.busyReg (s : State) (k : Nat) (r : SReg) : Bool :=
  r != 0 &&
  ((s.accs.any fun a => a.frag == k && a.scalar && a.dest == .scalar r) ||
   (s.replies.any fun y => y.frag == k && ((y.writes.any fun w => w.1 == r) || y.locks.contains r)) ||
   (s.contexts.any fun e => e.2.killers.any fun y => y.frag == k && y.writes.any fun w => w.1 == r) ||
   (s.invals.any fun v => v.frag == k && v.sd == r) ||
   (s.nouns.any fun o => match o.src with | .frag k' sd sf _ => k' == k && (sd == r || sf == r) | _ => false) ||
   (s.joins.any fun j => match j.src with | .frag k' sd sf _ => k' == k && (sd == r || sf == r) | _ => false))

end Sys2Proof.Machine
end

