-- ==== Sys2Proof/Machine/Perform.lean ====
section
/-! DEFINITION. Performing the lanes of an access: the response of its path (R142, R153, R158, R490, R496), loads, stores,
atomics (R271, R310), futures (R314-R317), and the tags of releases (R452). -/
namespace Sys2Proof.Machine

/-! ### The response of a path -/

/-- Whether pool memory refuses some of `len` bytes: the refusal of the lowest 64-byte line that is refused (R495, R496). -/
def State.poolRefusesAny (s : State) (id a len : Nat) : Option (BitVec 8) :=
  (List.range ((a % 64 + len + 63) / 64)).findSome? fun i => s.poolRefuses id (if i == 0 then a else (a / 64 + i) * 64)

/-- The 64-byte lines of the pool in which some bytes lie. -/
def poolLines (a len : Nat) : List Nat := (List.range ((a % 64 + len + 63) / 64)).map fun i => a / 64 + i

/-- The check of R142 step 6 on one piece: poison, the pool's answer, or a host that has gone. -/
def State.pathCheck (s : State) (id ctx : Nat) (reads writes : Bool) (p : Piece) : Option (Cause × BitVec 8) × State :=
  if p.path ≤ 1 then
    (if reads && s.poisoned p.key p.len then some (.access, 0x0A) else none, s)
  else if p.path == 2 then
    match s.poolRefusesAny id (p.key - poolBase) p.len with
    | some sub =>
      (some (.pool, sub), s.updPool fun q => { q with failed := q.failed.filter fun l => !(poolLines (p.key - poolBase) p.len).contains l })
    | none =>
      let s1 := s.drawn
      if Config.poolWithdraws s.draws then
        (some (.pool, 0x01), s1.updPool fun q => { q with withdrawn := (s.pool.extentOf (p.key - poolBase)).toList ++ q.withdrawn })
      else if reads && Config.poolPoisons s.draws then (some (.pool, 0x03), s1)
      else if writes && Config.poolWriteFails s.draws then
        (none, s1.updPool fun q => { q with failed := poolLines (p.key - poolBase) p.len ++ q.failed })
      else (none, s1)
  else if (s.hostPort (s.hportOf ctx)).gone then (some (.host, 0x03), s)
  else (none, s)

/-- The first failing piece decides; its place in the access is answered with its failure. -/
def State.pathChecks (s : State) (id ctx : Nat) (reads writes : Bool) :
    Nat → List Piece → Option (Cause × BitVec 8 × Nat) × State
  | _, [] => (none, s)
  | off, p :: ps =>
    match s.pathCheck id ctx reads writes p with
    | (some e, s1) => (some (e.1, e.2, off), s1)
    | (none, s1) => s1.pathChecks id ctx reads writes (off + p.len) ps

/-! ### Bytes of pieces -/

def State.readPieces (s : State) (ps : List Piece) : List Byte := ps.flatMap fun p => readBytes s.mem p.key p.len

def writePieces : List Piece → List Byte → Mem → Mem
  | [], _, m => m
  | p :: ps, bs, m => writePieces ps (bs.drop p.len) (writeBytes p.key (bs.take p.len) m)

/-- The keys of some pieces. -/
def pieceKeys (ps : List Piece) : List Nat := ps.flatMap fun p => (List.range p.len).map (p.key + ·)

/-- A write of all 128 bytes of a poisoned line replaces it (R158): `ks` are the keys written. -/
def State.heal (s : State) (ks : List Nat) : State :=
  if s.poison.isEmpty then s
  else { s with poison := s.poison.filter fun l => !(List.range 128).all fun i => ks.contains (l + i) }

/-! ### Tags of releases (R452) -/

def noCourse : BitVec 32 := 0xFFFFFFFF

/-- The party that a fragment is, with a scope. -/
def State.tagOf (s : State) (k : Nat) (sc : Scope) : Tag :=
  let q := s.phr (phraseOf k)
  { scope := sc, phrase := phraseOf k, inst := q.inst, course := q.course.getD noCourse, core := q.core }

/-- The tag of another module's write, by the number that `Config.peerRelease` gives. -/
def peerTag (n : Nat) : Option Tag :=
  let tag (sc : Scope) : Option Tag := some { outside := 1, scope := sc, phrase := 0, inst := 0, course := noCourse, core := 0 }
  match n with
  | 0 => none
  | 1 => tag .dev
  | 2 => tag .dom
  | _ => tag .sys

/-- Whether the scope of one party includes another party (R445): another module only a domain or system scope, a host only a
system scope. -/
def Tag.includes (t o : Tag) : Bool :=
  let here := t.outside == 0 && o.outside == 0
  match t.scope with
  | .phr => here && t.phrase == o.phrase
  | .crs => here && (t.phrase == o.phrase || (t.course != noCourse && t.course == o.course && t.inst == o.inst))
  | .clu => here && clusterOf t.core == clusterOf o.core
  | .die => here && dieOf t.core == dieOf o.core
  | .dev => here
  | .dom => o.outside ≤ 1
  | .sys => true

/-- Two sides synchronise only when each scope includes the other party (R452). -/
def tagsAgree (t o : Tag) : Bool := t.includes o && o.includes t

def State.tagsAt (s : State) (ps : List Piece) : List Tag :=
  if s.tags.isEmpty then [] else ((pieceKeys ps).filterMap fun a => tfind s.tags a).eraseDups

/-- The bytes written carry a release's tag, or none. -/
def State.putTags (s : State) (ps : List Piece) (t : Option Tag) : State :=
  match t with
  | some t => { s with tags := (pieceKeys ps).foldl (fun m a => tput a t m) s.tags }
  | none => if s.tags.isEmpty then s else { s with tags := (pieceKeys ps).foldl (fun m a => tdel a m) s.tags }

/-- Bytes written by no release carry no tag. -/
def State.dropTags (s : State) (ks : List Nat) : State :=
  if s.tags.isEmpty then s else { s with tags := ks.foldl (fun m a => tdel a m) s.tags }

/-- The `n` bytes from a key on, which a unit of the module overwrites, carry no tag. -/
def State.dropRange (s : State) (a n : Nat) : State :=
  if s.tags.isEmpty then s else { s with tags := s.tags.filter fun e => !(a ≤ e.1 && e.1 < a + n) }

/-- A unit of the module writes `n` bytes at a key; they carry no tag. -/
def State.store (s : State) (a n v : Nat) : State :=
  (s.updMem fun m => writeNat a n v m).dropTags ((List.range n).map (a + ·))

/-- The acquire fence of a fragment that stands after access `id`, if one is outstanding. -/
def State.fenceAfter (s : State) (k id : Nat) : Option Scope :=
  (s.laneOps.filterMap fun o =>
    match o.kind with
    | .fence f => if o.frag == k && id < o.id && orderAcq f.order then some f.scope else none
    | _ => none).head?

/-- The tags of the bytes written or read by an acquire of a party. -/
def State.missesTag (s : State) (k : Nat) (ts : List Tag) (sc : Scope) : Bool := ts.any fun t => !tagsAgree t (s.tagOf k sc)

/-- A read of tagged bytes (R448, R452): an acquire whose scopes fail is dropped with STATUS.SCOPEMISS, and so is its release
side; a relaxed read is checked at the acquire fence that follows it. Answers whether the sides stand. -/
def State.readTags (s : State) (a : Access) (ps : List Piece) : Bool × State :=
  match s.tagsAt ps with
  | [] => (true, s)
  | ts =>
    if orderAcq a.order.order then
      if s.missesTag a.frag ts a.order.scope then (false, s.setStatus (phraseOf a.frag) statusScopemiss) else (true, s)
    else match s.fenceAfter a.frag a.id with
      | some sc => (true, if s.missesTag a.frag ts sc then s.setStatus (phraseOf a.frag) statusScopemiss else s)
      | none => (true, s.updFrag a.frag fun f => { f with readTag := (ts ++ f.readTag).eraseDups })

/-- The tag of a write: the access's own release, or a release fence before it (R448). -/
def State.writeTag (s : State) (a : Access) : Option Tag :=
  if orderRel a.order.order then some (s.tagOf a.frag a.order.scope) else a.fence.map fun sc => s.tagOf a.frag sc

/-- The tags after an atomic has written: its own where it is a release; none where its acquire side has been dropped, and its
release side with it; otherwise the bytes carry on what they had (R452). -/
def State.amoTags (s : State) (a : Access) (ps : List Piece) (stands : Bool) : State :=
  if !stands && orderRel a.order.order then s.putTags ps none
  else match s.writeTag a with
    | some t => s.putTags ps (some t)
    | none => s

/-! ### Atomics -/

/-- The new value of an atomic on `w` bits, or none when nothing is written (R271, R310). -/
def amoNew (op : AmoOp) (w old x cmp : Nat) : Option Nat :=
  let x := x % 2 ^ w
  match op with
  | .add => some ((old + x) % 2 ^ w)
  | .and => some (old &&& x)
  | .or => some (old ||| x)
  | .xor => some (old ^^^ x)
  | .min => some (if sext old w ≤ sext x w then old else x)
  | .max => some (if sext old w ≤ sext x w then x else old)
  | .minu => some (min old x)
  | .maxu => some (max old x)
  | .swap => some x
  | .cas => if old = cmp % 2 ^ w then some x else none

/-! ### Results -/

/-- Writes one lane of a lane register or pair (R59, R99): 8 and 16 bits are extended to 32. -/
def Phrase.setVal (p : Phrase) (v l bytes : Nat) (signed : Bool) (x : Nat) : Phrase :=
  if bytes == 8 then (p.setLane v l (BitVec.ofNat 32 x)).setLane (v + 1) l (BitVec.ofNat 32 (x / 2 ^ 32))
  else p.setLane v l (BitVec.ofNat 32 (if signed then wrap (sext x (8 * bytes)) 32 else x % 2 ^ (8 * bytes)))

/-- The destination of an access takes a lane's result. -/
def State.putResult (s : State) (a : Access) (l x : Nat) : State :=
  match a.dest with
  | .none => s
  | .scalar r =>
    s.updFrag a.frag fun f => f.setReg r (if a.signed then BitVec.ofInt 64 (sext x (8 * a.bytes)) else wordOf x)
  | .lane v _ => s.updPhr (phraseOf a.frag) fun p => p.setVal v l a.bytes a.signed x

/-! ### Futures (R314-R317) -/

/-- The oldest waiter on a cell takes its value in the action that fills it; the take is an acquire. -/
def State.serveCell (s : State) (cell : Nat) : State :=
  if readNat s.mem (cell + 8) 4 != 1 then s
  else match s.waiters.find? fun w => w.cell == cell with
    | none => s
    | some w =>
      let v := wordOf (readNat s.mem cell 8)
      let s1 : State := { s with waiters := s.waiters.filter (fun x => x.access != w.access),
                                 mem := writeNat (cell + 8) 4 2 s.mem,
                                 accs := s.accs.filter fun a => a.id != w.access }
      match s.accs.find? fun a => a.id == w.access with
      | none => s1
      | some a =>
        let s2 := (s1.readTags a (a.lanes.flatMap (·.parts))).2
        let s3 := match a.dest with
          | .scalar r => s2.updFrag a.frag fun f => f.setReg r v
          | _ => s2
        s3.updFrag a.frag fun f =>
          { (f.close a.id 0x1F) with wait := .none, pc := if f.wait == .future a.id then f.pc + 4 else f.pc }

/-- The STATE after an fset and its status (R316). -/
def fsetStatus (state : Nat) : Nat := match state with | 0 => 0 | 1 => 1 | _ => 2

/-! ### One lane -/

/-- The lane with a failure recorded. -/
def LaneAcc.fail (l : LaneAcc) (e : Cause × BitVec 8) : LaneAcc := { l with st := .failed e.1 e.2 l.addr }

/-- The datum of a failure: the address of the failing part of a scalar access (R270), the lane's address otherwise (R142). -/
def LaneAcc.failAt (l : LaneAcc) (scalar : Bool) (e : Cause × BitVec 8 × Nat) : LaneAcc :=
  { l with st := .failed e.1 e.2.1 (if scalar then l.addr + wordOf e.2.2 else l.addr) }

/-- Performs one translated lane of an access: the lane as it then stands, and the state. -/
def State.performLane (s : State) (a : Access) (l : LaneAcc) : LaneAcc × State :=
  let ctx := s.ctxOf a.frag
  let reads := !a.kind.isStore
  let writes := a.kind.want.writes
  match s.pathChecks a.id ctx reads writes 0 l.parts with
  | (some e, s1) => (l.failAt a.scalar e, s1)
  | (none, s1) =>
    let ps := l.parts.map (s1.realPiece ctx)
    let old := natOf (s1.readPieces ps)
    let key := (l.parts.head?.map (·.key)).getD 0
    let ended : LaneAcc := { l with st := .done }
    match a.kind with
    | .load =>
      let (_, s2) := s1.readTags a ps
      (ended, s2.putResult a l.lane old)
    | .store =>
      let s2 := { s1 with mem := writePieces ps (bytesOf l.data.toNat a.bytes) s1.mem }
      (ended, s2.putTags ps (s1.writeTag a))
    | .amo op result =>
      let (stands, s2) := s1.readTags a ps
      let s3 := match amoNew op (8 * a.bytes) old l.data.toNat l.cmp.toNat with
        | none => s2
        | some new => ({ s2 with mem := writePieces ps (bytesOf new a.bytes) s2.mem } : State).amoTags a ps stands
      (ended, if result then s3.putResult a l.lane old else s3)
    | .ftest =>
      let state := readNat s1.mem (key + 8) 4
      if state > 2 then (l.fail (.access, 0x0C), s1) else (ended, (s1.readTags a ps).2.putResult a l.lane state)
    | .fset force =>
      let state := readNat s1.mem (key + 8) 4
      if state > 2 then (l.fail (.access, 0x0C), s1)
      else
        let st := fsetStatus state
        let m := if state != 1 || force then writeNat key 8 l.data.toNat s1.mem else s1.mem
        let s2 : State := { s1 with mem := writeNat (key + 8) 4 1 m }
        let s3 := (if st == 1 then s2.setStatus (phraseOf a.frag) statusFover else s2).amoTags a ps true
        (ended, (s3.serveCell key).putResult a l.lane st)
    | .fget =>
      let state := readNat s1.mem (key + 8) 4
      if state > 2 then (l.fail (.access, 0x0C), s1)
      else if state == 1 then
        let v := readNat s1.mem key 8
        let s2 := (s1.readTags a ps).2
        (ended, ({ s2 with mem := writeNat (key + 8) 4 2 s2.mem } : State).putResult a l.lane v)
      else (l, { s1 with waiters := s1.waiters ++ [⟨key, a.id⟩] })
    | .rma _ | .mcast => (l, s1)

/-! ### Atomic engines (R155, R156) -/

/-- The cluster whose atomic engine performs the atomics on a piece. -/
def engineOf (p : Piece) : Option Nat :=
  if inVault p.key then some (vaultCluster p.key)
  else if inScratch p.key then some (clusterOf ((p.key - scratchBase) / 0x100000))
  else none

/-- The engine that performs a lane of an access; none where no engine does. -/
def LaneAcc.engine (l : LaneAcc) (a : Access) : Option Nat := if a.kind.isAtomic then l.parts.head?.bind engineOf else none

/-- The source of a core's requests at the engine of a cluster: its number there, or the lateral input. -/
def sourceAt (c core : Nat) : Nat := if clusterOf core == c then core % 24 else 24

/-- Whether a lane that is still to be performed holds back the higher lanes, whose bytes or operation must come after it: one
that writes (R308). -/
def Access.holdsHigher (a : Access) (l : LaneAcc) : Bool := a.kind.want.writes && l.st.open

/-- The lanes of an access up to the first that holds back the others. -/
def Access.front (a : Access) : List LaneAcc → List LaneAcc
  | [] => []
  | l :: ls => if a.holdsHigher l then [l] else l :: a.front ls

/-- Whether an access has a request that is ready at the engine of a cluster. -/
def State.asksEngine (s : State) (c : Nat) (a : Access) : Bool :=
  s.mayPerform a && !(s.waiters.any fun w => w.access == a.id) &&
  (a.front a.lanes).any fun l => l.st == .todo && l.engine a == some c

/-- The sources with a request that is ready at an engine. -/
def State.engineReady (s : State) (c : Nat) : List Nat :=
  (s.accs.filter (s.asksEngine c)).map fun a => sourceAt c (s.coreOf a.frag)

/-- Whether an instruction's request comes first among those of its source at an engine: they arrive in the order of issue (R156). -/
def State.firstOfSource (s : State) (c : Nat) (a : Access) : Bool :=
  !(s.accs.any fun b => b.id < a.id && sourceAt c (s.coreOf b.frag) == sourceAt c (s.coreOf a.frag) && s.asksEngine c b)

/-- How far a source stands after another, from 0 to 24. -/
def sourceAfter (last src : Nat) : Nat := (src + 24 - last % 25) % 25

/-- Whether an engine accepts a request of a source now: four in a cycle, the rest of one source's before the next one, and the
sources in increasing number after the last (R156). -/
def State.engineTurn (s : State) (c src : Nat) : Bool :=
  let x := s.cluster c
  let ready := s.engineReady c
  (x.busyTo ≤ s.cycle || x.taken < 4) &&
  (if x.busyTo > s.cycle && ready.contains x.last then src == x.last
   else ready.all fun r => sourceAfter x.last src ≤ sourceAfter x.last r)

/-- An engine accepts a request. -/
def State.engineAccept (s : State) (c src : Nat) : State :=
  s.updCluster c fun x => { x with last := src, taken := if x.busyTo ≤ s.cycle then 1 else x.taken + 1, busyTo := s.cycle + 1 }

/-- Whether the engine of a lane accepts it now, if one performs it. -/
def State.laneTurn (s : State) (a : Access) (l : LaneAcc) : Bool :=
  match l.engine a with
  | some c => s.engineTurn c (sourceAt c (s.coreOf a.frag)) && s.firstOfSource c a
  | none => true

/-- The engine of a lane has accepted it. -/
def State.laneAccept (s : State) (a : Access) (l : LaneAcc) : State :=
  match l.engine a with
  | some c => s.engineAccept c (sourceAt c (s.coreOf a.frag))
  | none => s

/-- Whether a translated lane can be performed: its host pages are in the port's cache, or the host has gone (R149, R150),
it is not queued at a cell, and its engine accepts it. -/
def State.laneReady (s : State) (a : Access) (l : LaneAcc) : Bool :=
  let ctx := s.ctxOf a.frag
  let hp := s.hportOf ctx
  l.st == .todo && !a.kind.isFabric && !(s.waiters.any fun w => w.access == a.id) && s.laneTurn a l &&
  ((s.hostPort hp).gone || l.parts.all fun p => p.path != 4 || s.atcHit hp ctx (hostPage p.key) a.kind.want.writes)

/-- The lanes of an access in increasing number (R308), each performed when it can be. -/
def State.performList (s : State) (a : Access) : List LaneAcc → List LaneAcc × State
  | [] => ([], s)
  | l :: ls =>
    if s.laneReady a l then
      let (l1, s1) := (s.laneAccept a l).performLane a l
      let (ls1, s2) := s1.performList a ls
      (l1 :: ls1, s2)
    else if a.holdsHigher l then (l :: ls, s)
    else
      let (ls1, s2) := s.performList a ls
      (l :: ls1, s2)

def State.findAcc (s : State) (id : Nat) : Option Access := s.accs.find? fun a => a.id == id

def State.putAcc (s : State) (a : Access) : State :=
  { s with accs := s.accs.map fun b => if b.id == a.id then a else b }

/-- Performs the lanes of an access that can be performed; the counters of the paths it has left fall (R217). -/
def State.performAcc (s : State) (a : Access) : State :=
  let (ls, s1) := s.performList a a.lanes
  let a1 := { a with lanes := ls }
  let s2 : State := if a.kind == .store then s1.heal (pieceKeys ((ls.filter fun l => l.st == .done).flatMap (·.parts))) else s1
  (s2.putAcc a1).updFrag a.frag fun f => f.close a.id (~~~a1.paths)

/-! ### Fences (R273, R312, R448) -/

/-- The rank of a scope: a later one reaches further (R445). -/
def scopeRank (x : Scope) : Nat :=
  match x with
  | .phr => 0 | .crs => 1 | .clu => 2 | .die => 3 | .dev => 4 | .dom => 5 | .sys => 6

def widerScope (o : Option Scope) (x : Scope) : Option Scope :=
  match o with
  | some y => some (if scopeRank y < scopeRank x then x else y)
  | none => some x

/-- A fence stands in the fragment's order (R273, R312): an acquire fence checks the scopes of the releases that earlier reads
have seen, and a release fence gives later stores its scope (R448, R452). -/
def State.putFence (s : State) (k : Nat) (o : Ordering) (flag : Option (Fin 12)) (clause : Nat) (calls : Bool := false) : State :=
  let f := s.frag k
  let miss := orderAcq o.order && f.readTag.any fun t => !tagsAgree t (s.tagOf k o.scope)
  let s1 := if miss then s.setStatus (phraseOf k) statusScopemiss else s
  let s2 := s1.updFrag k fun f =>
    { f with readTag := if orderAcq o.order then [] else f.readTag,
             relFen := if orderRel o.order then widerScope f.relFen o.scope else f.relFen }
  let s3 : State := { s2 with
    laneOps := s2.laneOps ++ [{ id := s.nextId, frag := k, flag := flag, clause := clause, kind := .fence o, calls := calls }] }
  s3.bump.tidy

/-- Whether a release of a fragment must still wait for an earlier access (R273, R387, R403). -/
def State.relWaits (s : State) (k : Nat) (sc : Scope) : Bool := s.accs.any fun b => b.frag == k && fenceHolds ⟨.rel, sc⟩ b

end Sys2Proof.Machine
end

