-- ==== Sys2Proof/Machine/NounTab.lean ====
section
/-! DEFINITION. Nouns and the noun table (R42, R192-R196), locations (R195), and the words that report a noun (R391, R396). -/
namespace Sys2Proof.Machine

/-! ### Fields of a noun (R42) -/

def nounKind (n : Word) : Nat := field n 62 2
def nounCtx (n : Word) : Nat := field n 42 20
def nounGen (n : Word) : Nat := field n 34 8
def nounIndex (n : Word) : Nat := field n 0 34

def mkNoun (kind ctx gen index : Nat) : Word :=
  wordOf (at' (kind % 4) 62 + at' (ctx % 2 ^ 20) 42 + at' (gen % 256) 34 + index % 2 ^ 34)

/-! ### Leaves (R194) -/

structure Leaf where
  word0 : Word
  word1 : Word
  deriving DecidableEq, Repr

def stFree : Nat := 0
def stRunning : Nat := 1
def stSaved : Nat := 2
def stSwapped : Nat := 3
def stMigrating : Nat := 4
def stHost : Nat := 5
def stDead : Nat := 6
def stGrant : Nat := 7

def Leaf.state (l : Leaf) : Nat := field l.word0 61 3
def Leaf.rights (l : Leaf) : Nat := field l.word0 56 5
def Leaf.gen (l : Leaf) : Nat := field l.word0 48 8
def Leaf.xstat (l : Leaf) : Nat := field l.word0 40 8
def Leaf.xcause (l : Leaf) : Nat := field l.word0 32 8

def rWake : Nat := 1
def rSignal : Nat := 2
def rDeposit : Nat := 4
def rJoin : Nat := 8
def rApply : Nat := 16

def xExited : Nat := 1
def xKilled : Nat := 2
def xLate : Nat := 3
def xFailed : Nat := 4
def xHostgone : Nat := 5
def xCancelled : Nat := 6

/-- A pointer entry of level 0 or 1: the next table, in vault memory, when V is set and no reserved bit is (R192, R193). DESIGN
CHOICE: the manual does not say what makes an entry malformed; here a pointer entry is so with a reserved bit set or a next table
outside the vaults, and a leaf never is (log 69). -/
def pointerAt (m : Mem) (a : Nat) : Option Nat :=
  let e := wordOf (readNat m a 8)
  let next := field e 15 37 * 0x8000
  if e.getLsbD 0 && field e 1 14 == 0 && field e 52 12 == 0 && inVault next then some next else none

/-- The address of the leaf of an index (R192). -/
def leafAddr (m : Mem) (ntab index : Nat) : Option Nat :=
  match pointerAt m (ntab + 8 * fieldNat index 22 12) with
  | none => none
  | some t1 =>
    match pointerAt m (t1 + 8 * fieldNat index 11 11) with
    | none => none
    | some t2 => some (t2 + 16 * fieldNat index 0 11)

def readLeaf (m : Mem) (a : Nat) : Leaf := ⟨wordOf (readNat m a 8), wordOf (readNat m (a + 8) 8)⟩

def writeLeaf (a : Nat) (l : Leaf) (m : Mem) : Mem := writeNat (a + 8) 8 l.word1.toNat (writeNat a 8 l.word0.toNat m)

/-- A leaf with a new state, exit fields, destination and WORD1; RIGHTS and GEN stand (R196). -/
def Leaf.to (l : Leaf) (state xstat xcause mdest : Nat) (word1 : Word) : Leaf :=
  ⟨wordOf (at' state 61 + at' l.rights 56 + at' l.gen 48 + at' (xstat % 256) 40 + at' (xcause % 256) 32 + mdest % 2 ^ 25), word1⟩

/-! ### Cached copies of tables (R198, R203, R214) -/

def TabCopy.isFor (c : TabCopy) (ctx index : Nat) : Bool := c.ctx == ctx && c.index == index

/-- The copy of an entry in a die's cache. -/
def copyIn (cs : List TabCopy) (die ctx index : Nat) : Option (List Word) :=
  (cs.find? fun c => c.die == die && c.isFor ctx index).map (·.words)

/-- A copy enters its die's cache in the place of an older one of the entry, or, when the cache is full, of any one (R204). -/
def keepCopy (draw room : Nat) (c : TabCopy) (cs : List TabCopy) : List TabCopy :=
  let rest := cs.filter fun x => !(x.die == c.die && x.isFor c.ctx c.index)
  let mine := rest.filter fun x => x.die == c.die
  if mine.length < room then c :: rest
  else match mine[Config.pick draw (room + c.index) % mine.length]? with
    | some v => c :: rest.erase v
    | none => c :: rest

/-- The words of an entry as a reader sees them: a copy may hide a change of the table, until it is removed; which of the two is
read is open (log 11). -/
def seenWords (draw k : Nat) (table copy : Option (List Word)) : Option (List Word) :=
  match copy with
  | none => table
  | some ws => if Config.seesCopy draw k then some ws else table

/-- The first of `n` items from `i` that answers. -/
def firstFrom {α : Type} (f : Nat → Option α) : Nat → Nat → Option α
  | 0, _ => none
  | n + 1, i => match f i with
    | some x => some x
    | none => firstFrom f n (i + 1)

/-- The FREE leaf of lowest index that pointer entries with V set reach (R196; log 83): its index and address. -/
def freeLeaf (m : Mem) (ntab : Nat) : Option (Nat × Nat) :=
  firstFrom (fun i =>
    match pointerAt m (ntab + 8 * i) with
    | none => none
    | some t1 => firstFrom (fun j =>
        match pointerAt m (t1 + 8 * j) with
        | none => none
        | some t2 => firstFrom (fun k =>
            if (readLeaf m (t2 + 16 * k)).state == stFree then some (i * 2 ^ 22 + j * 2 ^ 11 + k, t2 + 16 * k) else none)
            2048 0) 2048 0) 4096 0

/-- The leaves of a table that pointers reach, in increasing index. -/
def reachedLeaves (m : Mem) (ntab : Nat) : List (Nat × Leaf) :=
  (List.range 4096).flatMap fun i => match pointerAt m (ntab + 8 * i) with
    | none => []
    | some t1 => (List.range 2048).flatMap fun j => match pointerAt m (t1 + 8 * j) with
      | none => []
      | some t2 => (List.range 2048).map fun k => (i * 2 ^ 22 + j * 2 ^ 11 + k, readLeaf m (t2 + 16 * k))

/-- The leaf address of a noun in its own context's table, which stays that of a killed context until its number is bound again
(R440, R563). -/
def State.leafOf (s : State) (n : Word) : Option Nat :=
  let c := s.ctx (nounCtx n)
  if c.resident || c.killed then leafAddr s.mem c.ntab.toNat (nounIndex n) else none

/-- The phrase nouns of a context whose leaves have a state, in increasing index. -/
def State.nounsAt (s : State) (ctx state : Nat) : List Word :=
  ((reachedLeaves s.mem (s.ctx ctx).ntab.toNat).filter fun e => e.2.state == state).map fun e => mkNoun 0 ctx e.2.gen e.1

/-- The NDU allocates a noun (R196). -/
def State.allocNoun (s : State) (ctx kind state rights : Nat) (word1 : Word) : Option (Word × State) :=
  match freeLeaf s.mem (s.ctx ctx).ntab.toNat with
  | none => none
  | some (i, a) =>
    let g := ((readLeaf s.mem a).gen + 1) % 256
    let l : Leaf := ⟨wordOf (at' state 61 + at' rights 56 + at' g 48), word1⟩
    some (mkNoun kind ctx g i, { s with
      mem := writeLeaf a l s.mem
      nounCache := s.nounCache.map fun c => if c.isFor ctx i then { c with words := [l.word0, l.word1] } else c })

/-- The leaf that words hold. -/
def leafFrom (ws : List Word) : Leaf := ⟨nth 0 ws 0, nth 0 ws 1⟩

/-- The NDU changes the state of a noun's entry (R196), in the table and in every copy (R198). -/
def State.setLeaf (s : State) (n : Word) (state xstat xcause mdest : Nat) (word1 : Word) : State :=
  match s.leafOf n with
  | none => s
  | some a => { s with
      mem := writeLeaf a ((readLeaf s.mem a).to state xstat xcause mdest word1) s.mem
      nounCache := s.nounCache.map fun c =>
        if c.isFor (nounCtx n) (nounIndex n) then
          let l := (leafFrom c.words).to state xstat xcause mdest word1
          { c with words := [l.word0, l.word1] }
        else c }

/-- A location (R195): module, die, cluster, core and slot. -/
def locOf (moduleNo core slot : Nat) : Nat :=
  at' (moduleNo % 1024) 15 + at' (core / 384) 13 + at' (core / 24 % 16) 9 + at' (core % 24) 4 + slot % 16

/-- The core that a location names, and its slot. -/
def coreOfLoc (l : Nat) : Nat := fieldNat l 13 2 * 384 + fieldNat l 9 4 * 24 + fieldNat l 4 5
def slotOfLoc (l : Nat) : Nat := fieldNat l 0 4
def moduleOfLoc (l : Nat) : Nat := fieldNat l 15 10

/-! ### Resolution (R193) -/

/-- What the resolution of a noun finds. -/
inductive Resolved where
  | fault (sub : BitVec 8)
  | stale
  | notarget
  | leaf (l : Leaf) (rights : Nat) (noun : Word)
  | away (m : Nat) (rights : Nat) (noun : Word)   -- the foreign noun of a GRANT, in another module's table (R198)
  deriving DecidableEq, Repr

/-- Steps 2 and 3 of R193 in one table. -/
def State.findLeaf (s : State) (n : Word) : Option (Nat × Leaf) :=
  (s.leafOf n).map fun a => (a, readLeaf s.mem a)

/-- A leaf as operations see it: from the first step of a kill, the nouns of its context are DEAD, with XSTAT KILLED (R440, R469). -/
def State.leafNow (s : State) (n : Word) (l : Leaf) : Leaf :=
  if (s.ctx (nounCtx n)).killed && l.state != stFree && l.state != stGrant && l.state != stDead then l.to stDead xKilled 0 0 0 else l

/-- The leaf of a noun that an issuer on a die reads: the table's, or a copy of the die's cache (R198); an issuer that is no core
reads the table. `k` numbers the reads of one resolution. -/
def State.leafSeen (s : State) (die : Option Nat) (k : Nat) (n : Word) : Option Leaf :=
  (seenWords s.draws k ((s.findLeaf n).map fun e => [e.2.word0, e.2.word1])
    (die.bind fun d => copyIn s.nounCache d (nounCtx n) (nounIndex n))).map fun ws => s.leafNow n (leafFrom ws)

/-- The module of the domain that holds a context which is not resident here, if one does: open (log 19). -/
def State.homeOf (s : State) (ctx : Nat) : Option Nat :=
  match Config.ctxHome s.draws ctx with
  | 0 => none
  | n + 1 => if (s.ctx ctx).resident || (s.ctx ctx).killed || n % 1024 == s.moduleNo then none else some (n % 1024)

/-- The end of a resolution at the foreign noun of a GRANT that gives `rights` (R193). DESIGN CHOICE: GRANTCHAIN is tested before
NORIGHT, where the manual gives no order (log 69). -/
def foreignLeaf (f : Leaf) (n : Word) (rights right : Nat) : Resolved :=
  if f.state == stFree || f.gen != nounGen n then .stale
  else if f.state == stGrant then .fault 0x04
  else if rights &&& f.rights &&& right != right then .fault 0x03
  else .leaf f (rights &&& f.rights) n

/-- Resolves a noun for an issuer of context `ctx` that needs a right (R193). `takes` says of which nouns the operation is one: it is
asked again of the foreign noun of a GRANT, before that noun's table is read (R381). A foreign noun whose context is on another
module is resolved there (R198). -/
def State.resolveNoun (s : State) (die : Option Nat) (ctx : Nat) (n : Word) (takes : Word → Bool) (right : Nat) : Resolved :=
  if nounCtx n != ctx then .fault 0x01
  else match s.leafSeen die 0 n with
    | none => .fault 0x02
    | some l =>
      if l.state == stFree || l.gen != nounGen n then .stale
      else if l.rights &&& right != right then .fault 0x03
      else if l.state != stGrant then .leaf l l.rights n
      else if !takes l.word1 then .notarget
      else match s.homeOf (nounCtx l.word1) with
        | some m => .away m l.rights l.word1
        | none => match s.leafSeen die 1 l.word1 with
          | none => .fault 0x02
          | some f => foreignLeaf f l.word1 l.rights right

/-- The resolution of a noun that another module's GRANT has named (R193, R198). -/
def State.resolveForeign (s : State) (n : Word) (right : Nat) : Resolved :=
  match s.leafSeen none 1 n with
  | none => .fault 0x02
  | some f => foreignLeaf f n 31 right

/-- The die's cache keeps the leaf that was read, of a context that is resident (R198). -/
def State.keepLeaf (s : State) (die k : Nat) (n : Word) : State :=
  match s.leafSeen (some die) k n with
  | none => s
  | some l =>
    if (s.ctx (nounCtx n)).resident then
      { s with nounCache := keepCopy s.draws 4096 ⟨die, nounCtx n, nounIndex n, [l.word0, l.word1]⟩ s.nounCache }
    else s

/-- What a resolution leaves in the cache of the issuer's die: the leaf of the noun, and that of the noun which a GRANT names. -/
def State.keepNoun (s : State) (die : Option Nat) (ctx : Nat) (n : Word) : State :=
  match die with
  | none => s
  | some d =>
    if nounCtx n != ctx then s
    else match s.leafSeen die 0 n with
      | none => s
      | some l =>
        let s1 := s.keepLeaf d 0 n
        let s2 := if l.state == stGrant then s1.keepLeaf d 1 l.word1 else s1
        if s.nounCache.isEmpty then s2 else s2.drawn

/-- The noun result word (R391). -/
def resultWord (rights state xcause xstat code : Nat) : Word :=
  wordOf (at' rights 32 + at' state 24 + at' xcause 16 + at' xstat 8 + code)

/-- Bits 127:64 of a completion word (R396). -/
def completionHigh (tag : BitVec 16) (xcause xstat status : Nat) : Nat :=
  at' 1 63 + at' tag.toNat 32 + at' xcause 16 + at' xstat 8 + status

def State.nport (s : State) (i : Nat) : NounPort := tget {} s.host.ports i

def State.updNport (s : State) (i : Nat) (g : NounPort → NounPort) : State :=
  s.updHost fun h => { h with ports := tput i (g (tget {} h.ports i)) h.ports }

/-- The place of a noun port among those of both host ports. -/
def portIndex (hp : Bool) (np : Nat) : Nat := if hp then np + 1024 else np

/-- The page of a host address. -/
def pageOf (a : Word) : Nat := a.toNat / 0x1000

/-- A completion is over: its slot is free again (R398). -/
def NounPort.free (p : NounPort) (slot : Nat) : NounPort :=
  { p with busy := p.busy.filter fun b => b != slot, comps := p.comps.filter fun c => c.slot != slot }

/-- The port writes RESULT and then the high word, at the address that the context's host pages use (R149, R394, R396). -/
def State.postComp (s : State) (i : Nat) (c : NpComp) : State :=
  let ctx := (s.nport i).ctx
  let key := s.hostAddr (s.hportOf ctx) ctx c.caddr.toNat
  ({ s with mem := writeNat (key + 8) 8 c.high (writeNat key 8 c.low.toNat s.mem) } : State).updNport i fun p => p.free c.slot

/-- A noun port's completion: it is written where the host's page is translated, waits for that, or is dropped where the host has
gone (R396). -/
def State.complete (s : State) (hp : Bool) (np slot : Nat) (tag : BitVec 16) (caddr result : Word) (xcause xstat status : Nat) :
    State :=
  let i := portIndex hp np
  let ctx := (s.nport i).ctx
  let side := s.hportOf ctx
  let c : NpComp := ⟨slot, caddr, result, completionHigh tag xcause xstat status⟩
  if (s.hostPort side).gone then s.updNport i fun p => p.free slot
  else if s.atcHit side ctx (pageOf caddr) true then s.postComp i c
  else (s.updNport i fun p => { p with comps := p.comps ++ [c] }).askHost side ctx (pageOf caddr) true false

/-- What waits for a host page of a context at its noun ports: completions, and the packets of commands that are next (R149). -/
def NounPort.packetPage (p : NounPort) : Option Nat :=
  match p.cmds with
  | (_, c) :: _ => if c.op == 0x20 then some (pageOf c.value) else none
  | [] => none

def State.compsAwait (s : State) (ctx page : Nat) : Bool :=
  s.host.ports.any fun e => e.2.en && e.2.ctx == ctx && (e.2.packetPage == some page || e.2.comps.any fun c => pageOf c.caddr == page)

/-- The page has been translated: the completions that wait for it are written. -/
def State.retryComps (s : State) (ctx page : Nat) : State :=
  (s.host.ports.flatMap fun e => if e.2.ctx == ctx then (e.2.comps.filter fun c => pageOf c.caddr == page).map fun c => (e.1, c) else []).foldl
    (fun s x => if s.atcHit (s.hportOf ctx) ctx page true then s.postComp x.1 x.2 else s) s

/-- The host has refused the page: its completions are dropped (R396), and a packet in it cannot be read (R397). -/
def State.failComps (s : State) (ctx page : Nat) : State :=
  s.updHost fun h => { h with ports := h.ports.map fun e =>
    if e.2.en && e.2.ctx == ctx then
      let p := (e.2.comps.filter fun c => pageOf c.caddr == page).foldl (fun (p : NounPort) c => p.free c.slot) e.2
      (e.1, if p.packetPage == some page then { p with pfail := true } else p)
    else e }

end Sys2Proof.Machine
end

