-- ==== Sys2Proof/Machine/Outbound.lean ====
section
/-! DEFINITION. Routes (R211-R213, R323), outbound queues and messages (R184, R509), and ordered streams (R511). -/
namespace Sys2Proof.Machine

/-! ### Routes and outbound queues -/

/-- The active bank of a port's calendar (R212). -/
def FPort.cal (p : FPort) : Tbl (BitVec 32) := if p.bank then p.cal1 else p.cal0

/-- The peer that an index of the active calendar names (R211). -/
def FPort.peerAt (p : FPort) (index : Nat) : Option Nat :=
  let e := tget 0 p.cal index
  if e.getLsbD 15 then some (field e 0 10) else none

/-- Whether some port that is up has a calendar entry for a module (R323). Ports stay down while FABRIC is not accepted (R544). -/
def State.routeTo (s : State) (m : Nat) : Bool :=
  s.accepted 3 && s.fabric.ports.any fun e => e.2.up && (List.range 40).any fun i => e.2.peerAt i == some m

/-- The bytes of a message: a 32-byte header, and one to three 8-byte words per lane (R184, R509). -/
def msgBytes (m : FabMsg) : Nat :=
  let per := match m.op with
    | .read => 8
    | .write | .mcast => 16
    | .atomic => if m.rop == .cas then 24 else 16
    | .noun => 24
    | .rresp => 16
    | .wack | .fail => 0
  32 + per * m.body.length

def queueBytes (q : List OutMsg) (dest : Nat) : Nat := q.foldl (fun n m => if m.dest == dest && !m.relay then n + msgBytes m.msg else n) 0

/-- Whether a message finds room in its outbound queue (R184): 64 KiB in all, of which what passes 4 KiB comes from the shared
5.5 MiB. -/
def Fabric.admits (f : Fabric) (m : OutMsg) : Bool :=
  let mine := queueBytes f.outq m.dest + msgBytes m.msg
  let dests := (f.outq.filterMap fun x => if x.relay then none else some x.dest).eraseDups
  let shared := dests.foldl (fun n d => if d == m.dest then n else n + (queueBytes f.outq d - 4096)) 0
  mine ≤ 65536 && (mine ≤ 4096 || shared + (mine - 4096) ≤ 5767168)

/-- A message is sent: it enters its queue, or is held behind those that wait (R184). -/
def State.sendMsg (s : State) (dest : Nat) (msg : FabMsg) : State :=
  let m : OutMsg := { id := s.fabric.msgid, dest := dest, msg := { msg with msgid := s.fabric.msgid }, src := s.moduleNo }
  s.updFabric fun f =>
    if (f.held.any fun x => x.dest == dest) || !f.admits m then { f with held := f.held ++ [m], msgid := f.msgid + 1 }
    else { f with outq := f.outq ++ [m], msgid := f.msgid + 1 }

/-- Message numbers are compared in the 32 bits that a header holds (R509). -/
def sameMsg (a b : Nat) : Bool := a % 2 ^ 32 == b % 2 ^ 32

/-- A message is answered, and the answer is kept for a repetition of the message (R510). -/
def State.replyPeer (s : State) (m msgid : Nat) (msg : FabMsg) : State :=
  (s.updFabric fun f =>
    { f with arrived := f.arrived.map fun e => if e.1 == m && sameMsg e.2.1 msgid then (e.1, e.2.1, e.2.2 ++ [msg]) else e }).sendMsg m msg

/-- The next number of the ordered stream of a phrase and module (R511). -/
def State.nextOseq (s : State) (ph : Word) (m : Nat) : Nat :=
  ((s.fabric.oseq.find? fun e => e.1 == ph && e.2.1 == m).map fun e => e.2.2).getD 0

def State.bumpOseq (s : State) (ph : Word) (m : Nat) : State :=
  let n := s.nextOseq ph m
  s.updFabric fun f => { f with oseq := (ph, m, n + 1) :: f.oseq.filter fun e => !(e.1 == ph && e.2.1 == m) }

end Sys2Proof.Machine
end

