-- ==== Sys2Proof/Machine/Window.lean ====
section
/-! DEFINITION. Export windows (R513), the accesses made through them (R321, R323, R454), and the messages of remote accesses
(R321, R325, R510). -/
namespace Sys2Proof.Machine

/-! ### Access at the owning module -/

def ExpWin.en (w : ExpWin) : Bool := w.ctl.getLsbD 0
def ExpWin.wr (w : ExpWin) : Bool := w.ctl.getLsbD 1

/-- Whether a window is exported to a context (R513). -/
def ExpWin.exported (w : ExpWin) (ctx : Nat) : Bool := w.en && (w.owner == ctx || w.imps.contains (BitVec.ofNat 32 (2 ^ 31 + ctx)))

def State.expWin (s : State) (n : Nat) : ExpWin := tget {} s.host.exp n

def ropWrites (r : Rop) : Bool := r != .rd

/-- The atomic operation of a remote operation; `sgn` says that min and max compare signed (R320). -/
def ropAmo (r : Rop) (sgn : Bool) : Option AmoOp :=
  match r with
  | .rd | .wr => none
  | .add => some .add
  | .and => some .and
  | .or => some .or
  | .xor => some .xor
  | .min => some (if sgn then .min else .minu)
  | .max => some (if sgn then .max else .maxu)
  | .swap => some .swap
  | .cas => some .cas

/-- What one lane finds at the owning module: its result, or a sub-cause of R323. -/
inductive WinOut where
  | ok (value : Nat)
  | fail (sub : BitVec 8)
  deriving DecidableEq, Repr

/-- A read through a window by an access of this module reads the tags. -/
def State.windowRead (s : State) (own : Option Access) (ps : List Piece) : State :=
  match own with
  | some a => (s.readTags a ps).2
  | none => s

def State.windowStands (s : State) (own : Option Access) (ps : List Piece) : Bool :=
  match own with
  | some a => (s.readTags a ps).1
  | none => true

/-- The tag of what is written through a window: that of an access of this module, or what a peer's release left, which its message
does not tell (R452, R509; log 79). -/
def State.windowTag (s : State) (own : Option Access) : Option Tag × State :=
  match own with
  | some a => (s.writeTag a, s)
  | none => (peerTag (Config.peerRelease s.draws), s.drawn)

/-- The write of an atomic through a window. -/
def State.windowAmo (s : State) (own : Option Access) (ps : List Piece) (stands : Bool) (new w : Nat) : State :=
  let s1 : State := { s with mem := writeNat ((ps.map (·.key)).headD 0) w new s.mem }
  match own with
  | some a => s1.amoTags a ps stands
  | none => match s1.windowTag none with
    | (some t, s2) => s2.putTags ps (some t)
    | (none, s2) => s2

/-- One lane's access of `w` bytes through an export window `x` (R513): performed as the owning module's own access. An access of
this module brings its order, for the tags of what it writes and reads (R452). -/
def State.windowLane (s : State) (own : Option Access) (x : ExpWin) (ctx : Nat) (rop : Rop) (sgn : Bool) (w off data cmp : Nat) : WinOut × State :=
  if !x.exported ctx || off + w > x.size.toNat || (ropWrites rop && !x.wr) then (.fail 0x02, s)
  else
    let pa := x.base.toNat + off
    match physPiece 0 pa w (x.ctl.extractLsb' 2 2) with
    | none => (.fail 0x04, s)
    | some p => match s.pathCheck s.nextId ctx (rop != .wr) (ropWrites rop) p with
      | (some _, s1) => (.fail 0x04, s1)
      | (none, s1) =>
        let old := readNat s1.mem p.key w
        match rop, ropAmo rop sgn with
        | .rd, _ => (.ok old, s1.windowRead own [p])
        | _, none =>
          let t := s1.windowTag own
          (.ok 0, ({ t.2 with mem := writeNat p.key w data t.2.mem } : State).putTags [p] t.1)
        | _, some op =>
          let s2 := s1.windowRead own [p]
          (.ok old, match amoNew op (8 * w) old data cmp with
            | some new => s2.windowAmo own [p] (s1.windowStands own [p]) new w
            | none => s2)

/-- The writes of one message, performed wholly or not at all (R325): every lane is checked before any is written. -/
def State.windowWrites (s : State) (own : Option Access) (x : ExpWin) (ctx w : Nat) (body : List FabLane) : Option (BitVec 8) × State :=
  let bad := body.findSome? fun l => match s.windowLane own x ctx .wr false w l.off.toNat l.data.toNat 0 with
    | (.fail sub, _) => some sub
    | _ => none
  match bad with
  | some sub => (some sub, s)
  | none => (none, body.foldl (fun s l => (s.windowLane own x ctx .wr false w l.off.toNat l.data.toNat 0).2) s)

/-- The EDATA of a lane of vrma (R323). -/
def rmaDatum (peer off : Nat) : Word := wordOf (at' (peer % 2 ^ 16) 48 + off % 2 ^ 48)

/-! ### Sending (R321, R325, R510) -/

def Access.rop (a : Access) : Rop := match a.kind with | .rma r => r | _ => .wr

/-- The message that carries a group of lanes to a module and window. -/
def State.rmaMsg (s : State) (a : Access) (m win : Nat) (ls : List LaneAcc) : FabMsg :=
  let ph := (s.phr (phraseOf a.frag)).noun
  { op := if a.kind == .mcast then .mcast else match a.rop with | .rd => .read | .wr => .write | _ => .atomic
    rop := a.rop, cls := a.cls, ord := a.ord, w64 := a.win64, sgn := a.signed, win := BitVec.ofNat 4 win, sub := 0
    busy := false, lanes := maskOf (if a.kind == .mcast then a.body.map (·.lane) else ls.map (·.lane)), msgid := 0, oseq := if a.ord then s.nextOseq ph m else 0, srcph := ph
    ctx := s.ctxOf a.frag, dst := m
    body := if a.kind == .mcast then a.body else ls.map fun l => ⟨l.lane, l.addr, l.data, l.cmp⟩ }

/-- A lane performed at the issuing module's own window (R321). -/
def State.localLane (s : State) (a : Access) (l : LaneAcc) : LaneAcc × State :=
  let ctx := s.ctxOf a.frag
  let win := peerWin l.peer.toNat
  if a.kind == .mcast then
    match s.windowWrites (some a) (s.expWin win) ctx a.bytes a.body with
    | (some sub, s1) => ({ l with st := .failed .fabric sub (rmaDatum l.peer.toNat l.addr.toNat) }, s1)
    | (none, s1) => ({ l with st := .done }, s1)
  else match s.windowLane (some a) (s.expWin win) ctx a.rop a.signed a.bytes l.addr.toNat l.data.toNat l.cmp.toNat with
    | (.fail sub, s1) => ({ l with st := .failed .fabric sub (rmaDatum l.peer.toNat l.addr.toNat) }, s1)
    | (.ok v, s1) => ({ l with st := .done }, s1.putResult a l.lane v)

/-- Lanes in groups by a property, in the order of their lowest lanes. -/
def groupsBy (key : LaneAcc → Nat) : Nat → List LaneAcc → List (List LaneAcc)
  | 0, _ => []
  | _ + 1, [] => []
  | n + 1, l :: ls => (l :: ls.filter fun x => key x == key l) :: groupsBy key n (ls.filter fun x => key x != key l)

/-- The groups of lanes that reach one module; each member of a vmcast is a group of its own (R321, R325). -/
def groupsOf (mcast : Bool) (n : Nat) (ls : List LaneAcc) : List (List LaneAcc) :=
  if mcast then ls.map fun l => [l] else groupsBy (fun l => peerModule l.peer.toNat) n ls

/-- Sends the lanes of a group that reach one window: a message names one (R509). -/
def State.sendWin (s : State) (a : Access) (m : Nat) (g : List LaneAcc) : List LaneAcc × State :=
  let msg := s.rmaMsg a m (peerWin ((g.map fun (x : LaneAcc) => x.peer).headD 0).toNat) g
  let s1 := s.sendMsg m msg
  (g.map fun x => { x with st := .sent, msg := some s.fabric.msgid }, if a.ord then s1.bumpOseq msg.srcph m else s1)

/-- Sends one group, or performs it here in ascending lane. -/
def State.sendGroup (s : State) (a : Access) (g : List LaneAcc) : List LaneAcc × State :=
  match g with
  | [] => ([], s)
  | l :: _ =>
    let m := peerModule l.peer.toNat
    if m == s.moduleNo then
      g.foldl (fun (acc : List LaneAcc × State) x => let r := acc.2.localLane a x; (acc.1 ++ [r.1], r.2)) ([], s)
    else (groupsBy (fun (l : LaneAcc) => peerWin l.peer.toNat) g.length g).foldl
      (fun (acc : List LaneAcc × State) w => let r := acc.2.sendWin a m w; (acc.1 ++ r.1, r.2)) ([], s)

/-- The sub-operations of a remote access are sent, in order (R321). -/
def State.sendAccess (s : State) (a : Access) : State :=
  let waiting := a.lanes.filter fun l => l.st == .todo
  let r := (groupsOf (a.kind == .mcast) a.lanes.length waiting).foldl
    (fun acc g => let r := acc.2.sendGroup a g; (acc.1 ++ r.1, r.2)) (([] : List LaneAcc), s)
  let upd (l : LaneAcc) : LaneAcc := (r.1.find? fun x => x.lane == l.lane).getD l
  r.2.putAcc { a with lanes := a.lanes.map upd, began := true }

end Sys2Proof.Machine
end

