-- ==== Sys2Proof/Machine/Life.lean ====
section
/-! DEFINITION. The ends of units of work: waits that end, barriers (R401), the matrix token (R336, R337), nouns that become
DEAD (R392), the progress of a nest (R414, R427), retirement (R25, R393) and the kill of a context (R469). -/
namespace Sys2Proof.Machine

/-! ### Waits that end -/

/-- Writes registers of a fragment in order; a later write to one register stands (R392). -/
def Frag.setRegs (f : Frag) (ws : List (SReg × Word)) : Frag := ws.foldl (fun f w => f.setReg w.1 w.2) f

/-- The fragment goes on after the wait in which it stands. -/
def Frag.resume (f : Frag) : Frag := { f with wait := .none, pc := f.pc + 4 }

/-- A reply arrives: the registers are written, and the wait for it ends. -/
def State.endWait (s : State) (k id : Nat) (ws : List (SReg × Word)) : State :=
  if (s.frag k).live then
    s.updFrag k fun f =>
      let f1 := f.setRegs ws
      if f1.wait == .reply id then f1.resume else f1
  else s

/-- The answer to a noun operation that a peer module sent (R392, R510): its body holds the two values of the reply, and `oseq`
the number of the message that it answers. -/
def replyMsg (dst msgid : Nat) (noun value word : Word) : FabMsg :=
  { op := .rresp, rop := .rd, cls := .auto, ord := false, w64 := true, sgn := false, win := 0, sub := 0, busy := false,
    lanes := 1, msgid := 0, oseq := msgid, srcph := noun, ctx := nounCtx noun, dst := dst, body := [⟨0, 0, value, word⟩] }

/-- An acquire of a scope at the return of a wait (R387, R403, R423). -/
def State.acquire (s : State) (k : Nat) (sc : Scope) : State :=
  if (s.frag k).live then s.putFence k ⟨.acq, sc⟩ none 0 else s

/-- A join or resumer ends with two values (R392, R423): the exit or yielded value, and the result word or status. Each return is
an acquire of system scope (R387, R423). -/
def State.endJoiner (s : State) (j : Joiner) (value word : Word) (xcause xstat : Nat) : State :=
  let s1 : State := { s with joins := s.joins.filter fun x => x.id != j.id }
  match j.src with
  | .frag k sd sf _ => (s1.endWait k j.id [(sd, value), (sf, word)]).acquire k .sys
  | .ended _ => s1
  | .port hp np slot tag caddr => s1.complete hp np slot tag caddr value xcause xstat 0
  | .peer m msgid => s1.replyPeer m msgid (replyMsg m msgid j.noun value word)

/-- The resumers of an instance, which wait in its record and not for its death (R423). -/
def State.resumerIds (s : State) : List Nat :=
  s.applied.flatMap fun e => (e.2.waiting.map (·.1)) ++ e.2.served.toList

/-- Ends every join on a noun that has become DEAD, in the same step (R392). -/
def State.endJoins (s : State) (n : Word) (exit : Word) (xcause xstat : Nat) : State :=
  let rs := s.resumerIds
  (s.joins.filter fun j => j.noun == n && !rs.contains j.id).foldl
    (fun s j => s.endJoiner j exit (resultWord 0 stDead xcause xstat 0) xcause xstat) s

/-- The NDU makes a noun DEAD and ends the joins on it (R196, R392, R393). -/
def State.nounDead (s : State) (n : Word) (xstat xcause : Nat) (exit : Word) : State :=
  (s.setLeaf n stDead xstat xcause 0 exit).endJoins n exit xcause xstat

/-! ### Barriers (R401, R402) -/

/-- A barrier episode that ends while a phrase does not wait is remembered (R403). -/
def State.letPhrase (s : State) (kind p : Nat) : State :=
  s.updPhr p fun q => { q with ended := kind :: q.ended.filter fun x => x != kind }

/-- A released fragment goes on after its barrier, as an acquire (R403). -/
def State.passOn (s : State) (k : Nat) : State :=
  match (s.frag k).wait with
  | .passed kind => (s.updFrag k Frag.resume).acquire k (if kind == 0 then .crs else .clu)
  | _ => s

/-- Every fragment of a phrase that waits at a barrier is released: the one that issues goes on at once, and each other when its release
reaches it, in an order that the manual leaves open (R401; log 80). Where none waits, the phrase has been let through (R403). -/
def State.letThrough (s : State) (kind p : Nat) : State :=
  let ks := (s.fragsOf p).filter fun k => (s.frag k).wait == .barrier kind
  if ks.isEmpty then s.letPhrase kind p
  else ks.foldl (fun s k =>
    let s1 := s.updFrag k fun f => { f with wait := .passed kind }
    if k == s.cur then s1.passOn k else s1) s

def Course.arrived (c : Course) (kind : Nat) : List Nat := if kind == 0 then c.sbar else c.sclbar

def Course.isAt (c : Course) (inst : Nat) (num : BitVec 32) : Bool := c.inst == inst && c.num == num

def State.courseOf (s : State) (p : Nat) : Option Course :=
  match (s.phr p).course with
  | none => none
  | some n => s.courses.find? fun c => c.isAt (s.phr p).inst n

def State.putCourse (s : State) (c : Course) : State :=
  { s with courses := (s.courses.map fun x => if x.isAt c.inst c.num then c else x).filter fun x =>
      !x.members.isEmpty || !x.absent.isEmpty }

/-- A retired member departs: its slot and its scratch are given up, and it leaves the course (R40). -/
def State.depart (s : State) (p : Nat) : State :=
  let s1 := match s.courseOf p with
    | none => s
    | some c => s.putCourse { c with members := c.members.filter fun m => m.2 != p }
  { s1 with phrases := tdel p s1.phrases }

/-- An episode completes when every member has arrived; a member retired under R40 counts as arrived (R401), and a member of the
launch whose phrase is not yet placed has not arrived (R38). -/
def State.checkBarrier (s : State) (inst : Nat) (num : BitVec 32) (kind : Nat) : State :=
  match s.courses.find? fun c => c.isAt inst num with
  | none => s
  | some c =>
    if c.absent.isEmpty && c.members.all fun m => (c.arrived kind).contains m.2 || (s.phr m.2).gone then
      let s1 := s.putCourse (if kind == 0 then { c with sbar := [] } else { c with sclbar := [] })
      let s2 := (c.arrived kind).foldl (fun s p => s.letThrough kind p) s1
      if kind == 1 then (c.members.filter fun m => (s2.phr m.2).gone).foldl (fun s m => s.depart m.2) s2 else s2
    else s

/-- A phrase leaves its course, which may complete an episode (R400, R401). -/
def State.leaveCourse (s : State) (p : Nat) : State :=
  match s.courseOf p with
  | none => s.updPhr p fun q => { q with course := none }
  | some c =>
    let c1 := { c with members := c.members.filter (fun m => m.2 != p), sbar := c.sbar.filter (fun x => x != p),
                       sclbar := c.sclbar.filter fun x => x != p }
    let s1 := (s.putCourse c1).updPhr p fun q => { q with course := none, rank := 0 }
    (s1.checkBarrier c.inst c.num 0).checkBarrier c.inst c.num 1

/-- Whether the other side of a queue window still stands (R402). -/
def State.mateAlive (s : State) (p : Nat) : Bool :=
  match (s.phr p).mate with
  | none => false
  | some q => match tfind s.phrases q with
    | none => false
    | some x => !x.gone

/-- The slbar episode of a pair completes when both sides have arrived or one has retired (R402). -/
def State.checkLbar (s : State) (p : Nat) : State :=
  let q := (s.phr p).mate.getD 0
  let here := (s.phr p).lbar || !(tfind s.phrases p).isSome
  let there := (s.phr q).lbar || !s.mateAlive p
  if here && there then
    let s1 := if (s.phr p).lbar then (s.updPhr p fun x => { x with lbar := false }).letThrough 2 p else s
    if s.mateAlive p && (s.phr q).lbar then (s1.updPhr q fun x => { x with lbar := false }).letThrough 2 q else s1
  else s

/-! ### The matrix token and the governor's asks -/

/-- The token passes to a phrase; tiles and planes are cleared when its context differs from the last holder's (R107). -/
def State.giveToken (s : State) (core p : Nat) : State :=
  let x := (s.phr p).ctx
  let s1 := s.updCore core fun c =>
    let e := c.engine
    let e1 : Engine := if e.lastCtx == some x || e.lastCtx == none then e else { e with tiles := [], plane0 := [], plane1 := [] }
    { c with engine := { e1 with token := some p, lastCtx := some x, takers := e.takers.filter fun k => phraseOf k != p } }
  ((s.core core).engine.takers.filter fun k => phraseOf k == p).foldl
    (fun s k => s.updFrag k fun f => if f.wait == .token then f.resume else f) (s1.updPhr p fun q => { q with needTok := false })

/-- The token is freed; the oldest waiting mxtake takes it (R336, R337). -/
def State.freeToken (s : State) (core : Nat) : State :=
  let s1 := s.updCore core fun c => { c with engine := { c.engine with token := none } }
  match (s.core core).engine.takers with
  | [] => s1
  | k :: _ => s1.giveToken core (phraseOf k)

def State.holdsToken (s : State) (p : Nat) : Bool := (s.core (s.phr p).core).engine.token == some p

/-- Q of a partition of `k` clusters (R546). -/
def grantsPerTick (budget k : Nat) : Nat := if budget == 0 then 1171 else 25 * budget / k

/-- Q of the partition of a cluster, as in force since the last tick (R546). -/
def State.quotaOf (s : State) (c : Nat) : Nat :=
  match (List.range 8).find? fun n => (s.part n).gmap.getLsbD c with
  | some n => grantsPerTick (s.part n).budget ((List.range 64).filter fun d => (s.part n).gmap.getLsbD d).length
  | none => 0

/-- Grants go back into the bucket of a cluster's governor, up to its cap (R224, R546). -/
def State.returnGrants (s : State) (c n : Nat) : State :=
  s.updCluster c fun x => { x with bucket := min (4 * s.quotaOf c) (x.bucket + n) }

/-- Held grants of a phrase return to the governor, and its unmet asks end (R224). -/
def State.dropGrants (s : State) (p : Nat) : State :=
  let q := s.phr p
  let c := clusterOf q.core
  ((s.returnGrants c q.grants).updCluster c fun c => { c with asks := c.asks.filter fun a => a.phrase != p }).updPhr p
    fun q => { q with grants := 0 }

/-- The operations that take a grant (R224). -/
def MxAct.takesGrant : MxAct → Bool
  | .mma _ _ _ _ => true
  | _ => false

/-- Asks stand in order of arrival; those of one cycle by core and then by slot (R547). -/
def putAsk (a : Ask) : List Ask → List Ask
  | [] => [a]
  | b :: bs =>
    if b.cycle == a.cycle && (a.core < b.core || (a.core == b.core && a.slot < b.slot)) then a :: b :: bs else b :: putAsk a bs

/-! ### What a phrase leaves behind -/

/-- The queued or refused fgets of a phrase are withdrawn (R317). -/
def State.withdraw (s : State) (p : Nat) : State :=
  { s with waiters := s.waiters.filter fun w =>
      !(s.accs.any fun a => a.id == w.access && phraseOf a.frag == p) }

/-- The items of a phrase's fragments leave the lists of what is outstanding. System calls stay, their results discarded, and so do
invalidations, which remove their copies (R438). -/
def State.dropItems (s : State) (p : Nat) : State :=
  let here (k : Nat) : Bool := phraseOf k == p
  { s with
    accs := s.accs.filter fun a => !here a.frag
    results := s.results.filter fun a => !here a.frag
    laneOps := s.laneOps.filter fun a => !here a.frag
    held := s.held.filter fun a => !here a.frag
    heldOps := s.heldOps.filter fun a => !here a.frag
    replies := s.replies.filter fun a => !here a.frag
    joins := s.joins.filter fun j => match j.src with | .frag k _ _ _ => !here k | _ => true
    nouns := s.nouns.map fun o => match o.src with | .frag k _ _ _ => if here k then { o with src := .ended p } else o | _ => o
    applied := s.applied.map fun e =>
      (e.1, { e.2 with waiting := e.2.waiting.filter fun w =>
        !(s.joins.any fun j => j.id == w.1 && (match j.src with | .frag k _ _ _ => here k | _ => false)) })
    syscs := s.syscs.map fun y => if here y.frag then { y with orphan := true } else y }

/-- The fragments of a phrase end and their slots fall free. -/
def State.dropFrags (s : State) (p : Nat) : State :=
  let core := (s.phr p).core
  { (s.updCore core fun c =>
      { c with asideQ := c.asideQ.filter (fun k => phraseOf k != p),
               engine := { c.engine with takers := c.engine.takers.filter fun k => phraseOf k != p } }) with
    frags := s.frags.filter fun e => phraseOf e.1 != p }

/-- The key of a byte of a copy's record, which lies in the scratch window of its core (R362). -/
def recordKey (c : CopyOp) (va : Nat) : Nat := scratchKey c.core (va - ownWindow)

/-- The records that a copy names. -/
def CopyOp.records (c : CopyOp) : List Nat := c.src.toList ++ c.dst.toList

/-- A change of a phrase that may have ended. -/
def State.modPhr (s : State) (p : Nat) (g : Phrase → Phrase) : State := { s with phrases := tmod p g s.phrases }

/-- A copy is abandoned: it writes nothing more, its records show STATE 5, and its held fault is discarded (R377). -/
def State.cancelCopy (s : State) (id : Nat) (mark : Bool) : State :=
  match (s.copies ++ s.heldCopies).find? fun c => c.id == id with
  | none => s
  | some c =>
    let s1 : State := { s with copies := s.copies.filter fun x => x.id != id, heldCopies := s.heldCopies.filter fun x => x.id != id }
    let s2 := s1.modPhr c.phrase fun q => { q with cfaults := q.cfaults.filter fun f => f.copy != id }
    if mark then
      s2.updMem fun m => c.records.foldl (fun m a =>
        writeNat (recordKey c a + 60) 4 (readNat m (recordKey c a + 60) 4 / 16 * 16 + 5) m) m
    else s2

def State.cancelCopies (s : State) (p : Nat) (mark : Bool) : State :=
  ((s.copies ++ s.heldCopies).filter fun c => c.phrase == p).foldl (fun s c => s.cancelCopy c.id mark) s

/-- The shadow descriptor of the issue view is set (R346). -/
def Engine.setIssue (e : Engine) (d : PlaneDesc) : Engine := if e.iact then { e with idesc0 := some d } else { e with idesc1 := some d }

/-- The issue view after an operation has issued (R334). -/
def Engine.issued (e : Engine) (a : MxAct) : Engine :=
  match a with
  | .lds _ _ d => e.setIssue d
  | .swap => { e with iact := !e.iact }
  | .mma _ _ _ _ | .zero _ | .rd _ _ _ _ _ _ | .wr _ _ _ _ _ | .out _ _ _ _ _ _ => e

/-- An engine with other operations: the issue view describes the planes that the operations to come will meet (R334). -/
def Engine.withOps (e : Engine) (ops : List MxOp) : Engine :=
  ops.foldl (fun e o => e.issued o.act) { e with ops := ops, iact := e.act, idesc0 := e.desc0, idesc1 := e.desc1 }

/-- Unfired engine operations of a phrase are discarded by a kill (R224, R469). -/
def State.dropEngine (s : State) (p : Nat) : State :=
  s.updCore (s.phr p).core fun c =>
    { c with engine := c.engine.withOps (c.engine.ops.filter fun o => o.phrase != p || o.fired) }

/-! ### Farm deques (R181-R183) -/

def dequeBytes : Nat := 0x3000

/-- The address of byte `off` of what a node has claimed (R413). -/
def Applied.claimAddr (a : Applied) (n : Node) (off : Nat) : Nat := nth 0 a.pages (n.page + off / 0x1000) + off % 0x1000

/-- The place of the deque of worker `w` in a farm's claim: three pages after the farm header's page (R413). -/
def dequeOff (w : Nat) : Nat := 0x1000 + w * dequeBytes

/-- Record `i` of worker `w`'s deque. -/
def Applied.recordAt (a : Applied) (n : Node) (w i : Nat) : Nat := a.claimAddr n (dequeOff w + 128 + 32 * i)

/-- The records of a farm. -/
def Applied.records (a : Applied) (n : Node) : List Nat :=
  (List.range n.kids.length).flatMap fun w => (List.range 256).map fun i => a.recordAt n w i

/-- A death notice: the TAKEN records of a taker go back to READY, keeping SEQ (R183). -/
def State.returnRecords (s : State) (inst : Nat) (taker : Word) : State :=
  match s.inst inst with
  | none => s
  | some a =>
    (a.nodes.filter fun n => n.kind == .farm && n.st == .running).foldl (fun s n =>
      (a.records n |>.filter fun r => readNat s.mem (r + 24) 1 == 2 && readNat s.mem (r + 8) 8 == taker.toNat).foldl
        (fun s r => s.updMem fun m => writeNat (r + 24) 1 1 m) s) s

/-! ### The progress of a nest (R414, R427) -/

def Applied.node (a : Applied) (n : Nat) : Option Node := a.nodes[n]?

def State.node (s : State) (i n : Nat) : Option Node := (s.inst i).bind fun a => a.node n

def State.updNode (s : State) (i n : Nat) (g : Node → Node) : State :=
  s.updInst i fun a => { a with nodes := a.nodes.mapIdx fun j x => if j == n then g x else x }

/-- The nodes of the subtree of a node, itself included. -/
def subtree (ns : List Node) : Nat → Nat → List Nat
  | 0, n => [n]
  | fuel + 1, n => match ns[n]? with
    | none => [n]
    | some x => n :: (x.kids ++ x.handler.toList).flatMap (subtree ns fuel)

/-- Whether a phrase of an instance has been placed. -/
def Applied.anyPlaced (a : Applied) : Bool := !a.queued || a.nodes.any fun n => n.placed != 0 || n.dead != 0

/-- The deques of a farm and the channel of a pipe are empty when it starts (R181, R418; log 28). -/
def State.clearClaim (s : State) (i n : Nat) : State :=
  match s.inst i, s.node i n with
  | some a, some x => ((a.pages.drop x.page).take x.pages).foldl (fun s p => (s.dropRange p 0x1000).updMem fun m => clearRange p 0x1000 m) s
  | _, _ => s

/-- Starts a node: a leaf's phrases wait for places behind the parts started before it (R414, R415). -/
def State.startNode (s : State) (i : Nat) : Nat → Nat → Word → State
  | 0, _, _ => s
  | fuel + 1, n, arg =>
    match s.node i n with
    | none => s
    | some x =>
      let early := ((s.inst i).map fun a => a.queued && !a.anyPlaced).getD false
      let s0 := s.updNode i n fun x =>
        { x with st := .running, placed := 0, dead := 0, arg := arg, value := 0, fail := none, gutter := none, early := early }
      let s1 := if x.kind == .farm || x.kind == .pipe then s0.clearClaim i n else s0
      match x.kind with
      | .func | .coroutine =>
        (s1.updInst i fun a => { a with started := a.started ++ [n] }).updPart (((s.inst i).map (·.part)).getD 0)
          fun p => { p with parts := p.parts ++ [(i, n)] }
      | .seq | .loop => s1.startNode i fuel (nth 0 x.kids 0) arg
      | .par | .pipe | .farm => x.kids.foldl (fun s c => s.startNode i fuel c arg) s1

/-- What a parent does when a part of it completes. -/
inductive Move where
  | wait
  | start (n : Nat)
  | complete (value : Word)
  deriving DecidableEq, Repr

def partValue (ns : List Node) (n : Nat) : Word := match ns[n]? with | some x => x.value | none => 0
def partDone (ns : List Node) (n : Nat) : Bool := match ns[n]? with | some x => x.st == .done | none => true

/-- The table of R414. -/
def parentMove (ns : List Node) (p : Node) (n : Nat) : Move :=
  let a := nth 0 p.kids 0
  let b := nth 0 p.kids 1
  if p.handler == some n then .complete (partValue ns n)
  else match p.kind with
    | .seq => if n == a then .start b else .complete (partValue ns b)
    | .par | .pipe => if p.kids.all (partDone ns) then .complete (partValue ns b) else .wait
    | .farm => if p.kids.all (partDone ns) then .complete 0 else .wait
    | .loop => if n == a then .start b else if partValue ns b == 0 then .start a else .complete (partValue ns a)
    | .func | .coroutine => .wait

/-- The claimed pages return to the partition's claim pool, and the record is freed (R413, R564). -/
def State.returnClaims (s : State) (i : Nat) : State :=
  match s.inst i with
  | none => s
  | some a => (s.updPart a.part fun p =>
      { p with pool := p.pool ++ a.pages, parts := p.parts.filter fun x => x.1 != i })

/-- Every resumer of a dead instance ends with status 1 and its exit value (R423). -/
def State.endResumers (s : State) (i : Nat) (exit : Word) : State :=
  match s.inst i with
  | none => s
  | some a =>
    let ids := (a.waiting.map (·.1)) ++ a.served.toList
    (s.joins.filter fun j => ids.contains j.id).foldl (fun s j => s.endJoiner j exit 1 0 0)
      (s.updInst i fun a => { a with waiting := [], served := none })

/-- The courses of a launch that a node's phrases open, by number: its first, and how many (R38). -/
def Applied.courseSpan (a : Applied) (x : Node) : Nat := (x.pcount + a.packet.coursesz - 1) / a.packet.coursesz

/-- Whether a course number is one of those of a node. -/
def Applied.nodeCourse (a : Applied) (x : Node) (num : BitVec 32) : Bool :=
  a.packet.coursesz != 0 && (match x.cbase with
    | none => false
    | some b => b ≤ num.toNat && num.toNat < b + a.courseSpan x)

/-- Members of a launch that will never be placed are members no longer (R38, R424). -/
def State.dropAbsent (s : State) (i : Nat) (mine : BitVec 32 → Bool) : State :=
  let s1 : State := { s with courses := (s.courses.map fun (c : Course) =>
      if c.inst == i && mine c.num then { c with absent := [] } else c).filter fun c => !c.members.isEmpty || !c.absent.isEmpty }
  (s1.courses.filter fun c => c.inst == i && mine c.num).foldl
    (fun s c => (s.checkBarrier c.inst c.num 0).checkBarrier c.inst c.num 1) s1

/-- The instance is DEAD: its noun, its joins, its resumers, its place in its queue and its claims (R43, R165, R413). -/
def State.instDead (s : State) (i xstat xcause : Nat) (exit : Word) : State :=
  match s.inst i with
  | none => s
  | some a =>
    let s1 := (s.endResumers i exit).nounDead a.noun xstat xcause exit
    let s2 := (s1.returnClaims i).updLq a.lq fun q => { q with items := q.items.filter fun x => x != i }
    { (s2.dropAbsent i fun _ => true) with applied := tdel i s2.applied }

/-- A node has completed with a value: its parent goes on, up to the root (R414). -/
def State.nodeDone (s : State) (i : Nat) : Nat → Nat → Word → State
  | 0, _, _ => s
  | fuel + 1, n, v =>
    let s1 := s.updNode i n fun x => { x with st := .done, value := v }
    match s1.inst i, s1.node i n with
    | some a, some x =>
      match x.parent with
      | none => s1.instDead i xExited 0 v
      | some p =>
        match a.node p with
        | none => s1
        | some y => match parentMove a.nodes y n with
          | .wait => s1
          | .start m => s1.startNode i 20 m (if y.isHandler then y.arg else a.packet.arg)
          | .complete w => s1.nodeDone i fuel p w
    | _, _ => s1

/-- The phrases of an instance that are not DEAD, those of a set of nodes. -/
def State.phrasesIn (s : State) (i : Nat) (ns : List Nat) : List Nat :=
  (s.phrases.filter fun e => e.2.inst == i && ns.contains e.2.node && !e.2.gone).map (·.1)

/-- A stopping composite node whose other phrases are all DEAD starts its handler (R427). -/
def State.checkHandler (s : State) (i h : Nat) : State :=
  match s.inst i with
  | none => s
  | some a => match a.node h with
    | none => s
    | some x => match x.handler with
      | none => s
      | some hd =>
        if x.st == .stopping && (s.phrasesIn i ((subtree a.nodes 20 h).filter fun n => !(subtree a.nodes 20 hd).contains n)).isEmpty then
          (s.updNode i h fun x => { x with st := .running }).startNode i 20 hd (wordOf (a.claimAddr x (0x1000 * (x.pages - 1))))
        else s

/-- The nearest enclosing composite node with a handler, above a failing node; a failure inside a handler is routed from the
handled node's parent upwards (R427). -/
def handlerAbove (ns : List Node) : Nat → Nat → Option Nat
  | 0, _ => none
  | fuel + 1, n => match ns[n]? with
    | none => none
    | some x => match x.parent with
      | none => none
      | some p => match ns[p]? with
        | none => none
        | some y => if y.handler.isSome && y.handler != some n then some p else handlerAbove ns fuel p

/-- Stops the phrases of some nodes: they leave with CANCELLED at their next boundary, and waiting parts never start. Phrases that
are not resident are DEAD at once when `PHRASE_RETIRE` reaches them (R424). -/
def State.stopNodes (s : State) (i : Nat) (ns : List Nat) : State :=
  let s1 := (s.phrasesIn i ns).foldl (fun s p => s.updPhr p fun q =>
    if q.leaving == .no then { q with leaving := .cancelled } else q) s
  let s2 := ((s1.phrasesIn i ns).flatMap s1.fragsOf).foldl (fun s k => s.updFrag k fun f => { f with stopped := true }) s1
  let part := ((s.inst i).map (·.part)).getD 0
  let s3 := (s2.updPart part fun p => { p with parts := p.parts.filter fun x => !(x.1 == i && ns.contains x.2) }).updInst i
    fun a => { a with started := a.started.filter (fun n => !ns.contains n),
                      nodes := a.nodes.mapIdx fun j x => if ns.contains j then { x with st := .cancelled } else x }
  match s3.inst i with
  | none => s3
  | some a => s3.dropAbsent i fun num => ns.any fun n => ((a.node n).map fun x => a.nodeCourse x num).getD false

/-- The failure record (R427). -/
def failureRecord (phrase : Word) (node cause sub : Nat) (edata : Word) (m : Mem) (a : Nat) : Mem :=
  writeNat (a + 24) 8 0 (writeNat (a + 16) 8 edata.toNat (writeNat (a + 8) 8 (node % 2 ^ 16 + at' cause 16 + at' sub 24)
    (writeNat a 8 phrase.toNat m)))

/-- Whether a node lies inside a composite that is stopping already. -/
def insideStopping (ns : List Node) : Nat → Nat → Bool
  | 0, _ => false
  | fuel + 1, n => match ns[n]? with
    | none => false
    | some x => x.st == .stopping || (match x.parent with | none => false | some p => insideStopping ns fuel p)

/-- A part fails (R426, R427). -/
def State.nodeFails (s : State) (i n : Nat) (phrase : Word) (cause sub : Nat) (edata : Word) : State :=
  match s.inst i with
  | none => s
  | some a =>
    if insideStopping a.nodes 20 n || a.cancelled then s
    else match handlerAbove a.nodes 20 n with
      | some h =>
        let page := ((a.node h).map fun x => a.claimAddr x (0x1000 * (x.pages - 1))).getD 0
        let ns := subtree a.nodes 20 h
        let s1 := (s.stopNodes i ns).updNode i h fun x => { x with st := .stopping }
        (s1.updMem fun m => failureRecord phrase n cause sub edata m page).checkHandler i h
      | none =>
        (s.stopNodes i (List.range a.nodes.length)).updInst i fun a =>
          { a with cancelled := true, cause := some (BitVec.ofNat 8 cause) }

/-- After a phrase of an instance is DEAD: its node counts it, and a stopping node or a cancelled instance may end. -/
def State.afterDeath (s : State) (i n : Nat) (isAux first exited : Bool) (exit : Word) : State :=
  let s1 := s.updNode i n fun x =>
    { x with dead := if isAux then x.dead else x.dead + 1, value := if first && exited then exit else x.value }
  match s1.inst i with
  | none => s1
  | some a =>
    let alive := !(s1.phrasesIn i (List.range a.nodes.length)).isEmpty
    if a.cancelled then
      if alive then s1
      else match a.cause with
        | some c => s1.instDead i xFailed c.toNat 0
        | none => s1.instDead i xCancelled 0 0
    else
      let s2 := (List.range a.nodes.length).foldl (fun s h => s.checkHandler i h) s1
      match a.node n with
      | some x => if exited && x.st == .running && x.dead == x.pcount then s2.nodeDone i 20 n x.value else s2
      | none => s2

/-! ### Retirement (R25, R393) -/

/-- The exit status and cause of a way of leaving. -/
def Leaving.xstat : Leaving → Nat
  | .no | .exited => xExited
  | .cancelled => xCancelled
  | .failed _ => xFailed
  | .killed => xKilled

def Leaving.xcause : Leaving → Nat
  | .failed c => c.toNat
  | _ => 0

/-- One phrase becomes DEAD and leaves its places. -/
def State.dropPhrase (s : State) (p : Nat) (how : Leaving) (exit : Word) : State :=
  let q := s.phr p
  let s1 := (s.withdraw p).dropGrants p
  -- after nexit its copies run on (R369)
  let nexits := match how with | .exited | .failed _ => true | .no | .cancelled | .killed => false
  let s2 := if how == .killed then (s1.cancelCopies p false).dropEngine p else if nexits then s1 else s1.cancelCopies p true
  let held := s2.holdsToken p
  let s3 := s2.dropFrags p
  let s4 := if held then s3.freeToken q.core else s3
  let s5 := (s4.dropItems p).nounDead q.noun how.xstat how.xcause exit
  let s6 := s5.returnRecords q.inst q.noun
  -- a member of a cluster-placed course that retires by nexit keeps its slot and scratch until it departs (R40)
  let stays := nexits && (match s.courseOf p with | some c => c.place == 1 | none => false)
  let s7 := if stays then s6.updPhr p fun x => { x with gone := true, live := 0, keep := (s.frag (fragKey p 0)).slot } else s6.leaveCourse p
  let s8 : State := if stays then s7 else { s7 with phrases := tdel p s7.phrases }
  let s9 := if stays then
      match s.courseOf p with
      | some c => (s8.checkBarrier c.inst c.num 0).checkBarrier c.inst c.num 1
      | none => s8
    else s8
  match q.mate with
  | some m => if (tfind s9.phrases m).isSome then s9.checkLbar m else s9
  | none => s9

/-- A phrase retires, and with a main phrase its auxiliary, whose noun takes the same status and exit value 0 (R25, R36). -/
def State.retire (s : State) (p : Nat) (how : Leaving) (exit : Word) : State :=
  let q := s.phr p
  let s1 := match q.mate with
    | some m => if !q.isAux && s.mateAlive p then s.dropPhrase m how 0 else s
    | none => s
  (s1.dropPhrase p how exit).afterDeath q.inst q.node q.isAux (q.index == 0 && !q.isAux) (how == .exited) exit

/-! ### The kill of a context (R469) -/

/-- The pointer entries of a table that are listed in memory: V is in an entry's first byte, so a listed entry's byte is. -/
def listedPointers (m : Mem) (base n : Nat) : List Nat :=
  m.filterMap fun c => if base ≤ c.1 && c.1 < base + 8 * n && (c.1 - base) % 8 == 0 then pointerAt m c.1 else none

/-- The addresses of the leaves of a noun table that are not FREE: STATE is in a leaf's byte 7. -/
def usedLeaves (m : Mem) (ntab : Nat) : List Nat :=
  (listedPointers m ntab 4096).flatMap fun t1 => (listedPointers m t1 2048).flatMap fun t2 =>
    m.filterMap fun c =>
      if t2 + 7 ≤ c.1 && c.1 < t2 + 0x8000 && (c.1 - t2) % 16 == 7 && c.2.toNat ≥ 32 then some (c.1 - 7) else none

/-- The walker records of a context end. -/
def State.dropMisses (s : State) (ctx : Nat) : State :=
  { s with cores := s.cores.map fun e => (e.1, { e.2 with misses := e.2.misses.filter fun m => m.ctx != ctx || m.given }) }

/-- KCAUSE of a context's record (R190). -/
def kcauseAddr (record : Nat) : Nat := record + 96

/-- A context number that no context has: tiles and planes of a killed context are cleared for whoever takes the token next (R107). -/
def noContext : Nat := 0xFFFFF

/-- What holds a lane of an access so that a kill abandons it: a walker record, a page request, or a pool read (R469). -/
def State.abandoned (s : State) (a : Access) (l : LaneAcc) : Bool :=
  let ctx := s.ctxOf a.frag
  let hp := s.hportOf ctx
  match l.st with
  | .walk => true
  | .todo =>
    (l.parts.any fun p => p.path == 4 && !s.atcHit hp ctx (hostPage p.key) a.kind.want.writes && s.pageHeld hp ctx (hostPage p.key)) ||
    (a.kind == .load && (l.parts.any fun p => p.path == 2) && s.mayPerform a)
  | _ => false

/-- The lanes of a context's accesses that a kill abandons leave them, unperformed. -/
def State.abandonLanes (s : State) (ctx : Nat) : State :=
  { s with accs := s.accs.map fun a =>
      if s.ctxOf a.frag == ctx then { a with lanes := a.lanes.filter fun l => !s.abandoned a l } else a }

/-- Whether a kill must still wait for issued accesses of its context, or for engine operations that have fired (R469 step 3). -/
def State.killBusy (s : State) (ctx : Nat) : Bool :=
  (s.accs.any fun a => s.ctxOf a.frag == ctx && a.kind != .fget && a.lanes.any fun l => l.st.open && !s.abandoned a l) ||
  s.cores.any fun c => c.2.engine.ops.any fun o => o.fired && (s.phr o.phrase).ctx == ctx

/-- The instances of a context. -/
def State.instsOf (s : State) (ctx : Nat) : List Nat := (s.applied.filter fun e => e.2.ctx == ctx).map (·.1)

/-- The phrases of a context. -/
def State.phrasesOf (s : State) (ctx : Nat) : List Nat := (s.phrases.filter fun e => e.2.ctx == ctx).map (·.1)

/-- One phrase of a killed context stops: its clauses, waits, copies, grants and unfired operations end, and its token falls free
(R469 step 3). -/
def State.killPhrase (s : State) (p : Nat) : State :=
  let s1 := (s.fragsOf p).foldl (fun s k => s.updFrag k fun f => { f with stopped := true, queue := [], ready := [] })
    (s.updPhr p fun q => { q with leaving := .killed, restarts := [] })
  let core := (s.phr p).core
  let mine (k : Nat) : Bool := phraseOf k == p
  let s2 := (((s1.withdraw p).dropGrants p).cancelCopies p false).dropEngine p
  let s3 := s2.updCore core fun c =>
    { c with asideQ := c.asideQ.filter (fun k => !mine k), engine := { c.engine with takers := c.engine.takers.filter fun k => !mine k } }
  let s4 : State := { s3 with joins := s3.joins.filter fun j => match j.src with | .frag k _ _ _ => !mine k | _ => true }
  if s4.holdsToken p then s4.freeToken core else s4

/-- Steps 1 to 3 of a kill (R469); `kcause` is written in step 1. -/
def State.killStart (s : State) (ctx : Nat) (kcause : Word) : State :=
  let x := s.ctx ctx
  -- 1
  let s1 := (s.updMem (writeNat (kcauseAddr x.record) 8 kcause.toNat)).updCtx ctx fun c => { c with killed := true }
  -- 2
  let s2 := (s1.instsOf ctx).foldl (fun s i => match s.inst i with
    | some a => ((s.updLq a.lq fun q => { q with items := q.items.filter fun y => y != i }).updInst i
        fun a => { a with cancelled := true, queued := false }).updPart a.part
          fun t => { t with parts := t.parts.filter (fun e => e.1 != i), restores := t.restores.filter fun n => nounCtx n != ctx }
    | none => s) s1
  -- 3
  let s3 := ((s2.phrasesOf ctx).foldl (fun s p => s.killPhrase p) s2).abandonLanes ctx
  ((s3.copies ++ s3.heldCopies).filter fun c => c.who.ctx == ctx).foldl (fun s c => s.cancelCopy c.id false) s3

/-- Steps 4 to 6 of a kill (R469), and the replies of the skills that wait for its end (R440). -/
def State.killEnd (s : State) (ctx : Nat) : State :=
  let x := s.ctx ctx
  let insts := s.instsOf ctx
  let cores := (s.phrases.filter fun e => e.2.ctx == ctx && e.2.present).map (·.2.core)
  -- 4
  let s4 := (s.phrasesOf ctx).foldl (fun s p => s.dropPhrase p .killed 0) s
  let s5 := { s4.dropMisses ctx with
    migs := s4.migs.filter (fun g => nounCtx g.noun != ctx)
    poolReads := s4.poolReads.filter fun r => r.ctx != ctx
    host := { s4.host with hp0 := { s4.host.hp0 with reqs := s4.host.hp0.reqs.filter fun q => q.ctx != ctx }
                           hp1 := { s4.host.hp1 with reqs := s4.host.hp1.reqs.filter fun q => q.ctx != ctx } }
    nouns := s4.nouns.filter fun o => o.ctx != ctx || (match o.src with | .ended _ => false | _ => true) }
  let s6 := if x.flist == 0 then s5 else s5.updMem (writeNat x.flist.toNat 4 0)
  -- 5
  let s7 := (usedLeaves s6.mem x.ntab.toNat).foldl (fun s a =>
    let l := readLeaf s.mem a
    if l.state == stDead || l.state == stGrant then s
    else s.updMem (writeLeaf a (l.to stDead xKilled 0 0 0))) s6
  let s8 := insts.foldl (fun s i => s.endResumers i 0) s7
  let s9 := (s8.joins.filter fun j => nounCtx j.noun == ctx).foldl
    (fun s j => s.endJoiner j 0 (resultWord 0 stDead 0 xKilled 0) 0 xKilled) s8
  -- 6
  let s10 := insts.foldl (fun s i => (s.returnClaims i)) s9
  let s11 := cores.foldl (fun s c => s.updCore c fun c => { c with frozen := false }) s10
  { (s11.updCtx ctx fun c => { c with resident := false, allocs := [], cores := [], mxq := [], killers := [] }) with
    applied := s11.applied.filter fun e => e.2.ctx != ctx
    courses := s11.courses.filter fun c => !insts.contains c.inst
    nounCache := s11.nounCache.filter fun c => c.ctx != ctx
    cores := s11.cores.map fun c =>
      if c.2.engine.lastCtx == some ctx then (c.1, { c.2 with engine := { c.2.engine with lastCtx := some noContext } }) else c
    replies := s11.replies ++ x.killers }

/-- The kill of a context (R469): steps 4 to 6 follow once what step 3 lets complete has completed. -/
def State.kill (s : State) (ctx : Nat) (kcause : Word) : State :=
  if (s.ctx ctx).killed then s
  else
    let s1 := s.killStart ctx kcause
    if s1.killBusy ctx then s1 else s1.killEnd ctx

/-- Whether a kill under way can go on to its end. -/
def State.killDue (s : State) (ctx : Nat) : Bool := (s.ctx ctx).killed && (s.ctx ctx).resident && !s.killBusy ctx

end Sys2Proof.Machine
end

