-- ==== Sys2Proof/Machine/Ops.lean ====
section
/-! DEFINITION. The shared operations: taking an exception (R464) and returning from one (R433, R434), lane faults and the order
in which they are taken (R465, R466), and accesses from issue to completion (R142, R216, R268-R270, R307). -/
namespace Sys2Proof.Machine

/-! ### Taking an exception (R464) -/

/-- A wait in which a fragment stands is withdrawn at a trap entry or a save (R267, R317, R392, R423); a barrier arrival is kept
(R403). -/
def State.unwait (s : State) (k : Nat) : State :=
  let f := s.frag k
  let s1 : State := match f.wait with
    | .reply id =>
      { s with joins := s.joins.filter fun j => j.id != id
               nouns := s.nouns.filter fun o => o.id != id
               replies := s.replies.filter fun y => y.id != id
               applied := s.applied.map fun e => (e.1, { e.2 with
                 waiting := e.2.waiting.filter fun w => w.1 != id
                 served := if e.2.served == some id then none else e.2.served }) }
    | .future id =>
      { s with waiters := s.waiters.filter fun w => w.access != id
               accs := s.accs.filter fun a => a.id != id }
    | .token => s.updCore (s.coreOf k) fun c => { c with engine := { c.engine with takers := c.engine.takers.filter fun x => x != k } }
    | .merge _ => if f.slot.isNone then s.joinAside k f.qslot else s
    | .passed kind => s.letPhrase kind (phraseOf k)
    | _ => s
  s1.updFrag k fun f => { f with wait := .none }

/-- ECAUSE (R118). -/
def ecauseOf (e : Exn) : BitVec 32 :=
  BitVec.ofNat 32 (at' (bit e.lane) 16 + at' e.sub.toNat 8 + causeCode e.cause)

/-- KCAUSE of a kill by a fault at TL 2 (R468). -/
def kcauseOf (c : Cause) (f : Frag) : Word :=
  wordOf (at' 1 63 + at' (causeCode c) 16 + at' (f.bank2.ecause.toNat % 256) 8 + f.bank1.ecause.toNat % 256)

def Frag.bank (f : Frag) (n : Nat) : Bank := if n == 1 then f.bank1 else f.bank2
def Frag.setBank (f : Frag) (n : Nat) (b : Bank) : Frag := if n == 1 then { f with bank1 := b } else { f with bank2 := b }
def Frag.img (f : Frag) (n : Nat) : Image := if n == 1 then f.img1 else f.img2
def Frag.setImg (f : Frag) (n : Nat) (i : Image) : Frag := if n == 1 then { f with img1 := i } else { f with img2 := i }

/-- The fragment after trap entry to level `n` (R464): the six registers of the level, the lane queue set aside with what its
resume needs, an empty queue, EXEC the faulters, and the trap vector. -/
def Frag.enter (f : Frag) (n : Nat) (e : Exn) (epc tvec : Word) (live : Mask) (redo : Option Clause) (held : List LaneFault)
    (next : Nat) : Frag :=
  let b : Bank := { epc := epc, elpc := e.pa, ecause := ecauseOf e, emask := e.mask, edata := e.data, exsave := f.exec }
  let i : Image := { queue := f.queue, kind := e.kind, redo := redo, held := held, entered := next }
  { ((f.setBank n b).setImg n i) with
    queue := [], ready := [], exec := e.mask &&& live, tl := BitVec.ofNat 2 n, pc := tvec, fetch := .idle, lfetch := .idle, pwait := .idle }

/-- Trap entry in fragment `k` (R464): at TL 2 the context is killed (R468); otherwise the next level is entered. -/
def State.trapEntry (s : State) (k : Nat) (e : Exn) (epc : Word) (redo : Option Clause) (held : List LaneFault) : State :=
  let f := s.frag k
  if f.tl.toNat ≥ 2 then s.kill (s.ctxOf k) (kcauseOf e.cause f)
  else
    let s1 := s.unwait k
    let p := s1.phr (phraseOf k)
    s1.updFrag k fun f => f.enter (f.tl.toNat + 1) e epc p.tvec p.live redo held s1.nextId

/-- A lane fault that is not taken when a trap is entered is held in the image, as a run-time fault (R466). -/
def LaneFault.hold (x : LaneFault) : LaneFault :=
  { x with held := true, exn := { x.exn with kind := if x.exn.kind == .scalar then .scalar else .laneRun } }

/-- The lane faults that an image holds: a clause-start check is not one, since it is made again (R434, R466). -/
def heldFaults (xs : List LaneFault) : List LaneFault := (xs.filter fun x => x.exn.kind != .laneStart).map LaneFault.hold

/-- A fault of a scalar instruction of fragment `k` at address `pc` (R251). -/
def State.scalarTrap (s : State) (k : Nat) (c : Cause) (sub : BitVec 8) (data pc : Word) : State :=
  s.trapEntry k { cause := c, sub := sub, mask := (s.frag k).exec, data := data, kind := .scalar } pc none
    (heldFaults (s.frag k).ready)

/-- The instruction that issues takes a fault (R251). -/
def State.fault (s : State) (c : Cause) (sub : BitVec 8) (data : Word) : Out :=
  .next (s.scalarTrap s.cur c sub data s.me.pc)

/-- ILLOP with EDATA the word (R234). -/
def State.illop (s : State) (i : Instr) : Out := s.fault .illop 0 ((encodeScalar i).setWidth 64)

/-- PRIV with EDATA the word (R429). -/
def State.privFault (s : State) (i : Instr) : Out := s.fault .priv 0 ((encodeScalar i).setWidth 64)

/-! ### Lane faults (R465, R466) -/

def insertFault (f : LaneFault) : List LaneFault → List LaneFault
  | [] => [f]
  | g :: gs => if f.seq < g.seq then f :: g :: gs else g :: insertFault f gs

/-- The level whose image holds the failure of an instruction, or 0: that of a trap entry after it issued (R466), and the one in use
where the fragment has stopped for a save (R471). -/
def Frag.faultLevel (f : Frag) (seq : Nat) : Nat :=
  if f.tl.toNat ≥ 1 && seq < f.img1.entered then 1
  else if f.tl.toNat ≥ 2 && seq < f.img2.entered then 2
  else if f.stopped then min 2 f.tl.toNat else 0

/-- A lane fault that has been determined: one of an instruction issued before a trap entry is held in that level's image. -/
def State.addFault (s : State) (k : Nat) (x : LaneFault) : State :=
  s.updFrag k fun f => match f.faultLevel x.seq with
    | 0 => { f with ready := insertFault x f.ready }
    | 1 => { f with img1 := { f.img1 with held := insertFault x.hold f.img1.held } }
    | _ => { f with img2 := { f.img2 with held := insertFault x.hold f.img2.held } }

/-- Whether a lane instruction that must be performed or failed before fault `x` is taken is outstanding (R465, R466). -/
def State.faultWaits (s : State) (k : Nat) (x : LaneFault) : Bool :=
  let f := s.frag k
  let before (id : Nat) : Bool := id < x.seq || (x.held && id ≥ f.retId)
  (s.accs.any fun a => a.frag == k && !a.scalar && before a.id) ||
  (s.results.any fun a => a.frag == k && before a.id) ||
  (s.laneOps.any fun o => o.frag == k && before o.id && s.opPending o) ||
  (x.held && (match f.queue with | c :: _ => c.again | [] => false))

/-- Whether the oldest lane fault of a fragment can be taken (R465). -/
def State.settles (s : State) (k : Nat) : Bool :=
  let f := s.frag k
  match f.ready with
  | [] => false
  | x :: _ => f.live && !f.stopped && !(s.core (s.coreOf k)).frozen && !s.faultWaits k x

/-- The oldest lane fault of a fragment is taken at its boundary, when it can be (R465); a scalar access that failed while its phrase was
being saved is a trap at its own PC (R471). -/
def State.settle (s : State) (k : Nat) : State :=
  let f := s.frag k
  match f.ready with
  | [] => s
  | x :: xs =>
    if !s.settles k then s
    else if x.exn.kind == .scalar then
      (s.updFrag k fun f => f.close x.seq 0x1F).trapEntry k x.exn x.redo.addr none (heldFaults xs)
    else
      -- the instruction is complete on the paths of its failed lanes when its fault is taken (R217)
      let m := match s.findAcc x.seq with | some a => ~~~a.paths | none => 0x1F
      (s.updFrag k fun f => f.close x.seq m).trapEntry k x.exn f.pc (some x.redo) (heldFaults xs)

/-! ### The return from an exception (R433, R434) -/

/-- The entries of a lane queue (R166): a clause that performs an instruction again stands before them and is none of them (DEDUCED,
log 27). -/
def entries (q : List Clause) : List Clause := q.filter fun c => !c.again

/-- Whether a fault of a fragment is to be taken before another instruction of it issues: one held in the image that its seret restored,
but for the instruction that the seret performs again (R466), or one that came with a restore (R478). -/
def Frag.faultFirst (f : Frag) (again : Bool) : Bool :=
  let held := f.ready.any (·.held)
  (held && !again) || (!held && f.ready.any (·.first))

/-- The lane queue after the return: the stopped clause performs its instruction again in the lanes of EMASK, or whole for an
issue check; `.skip` leaves it, and removes the clause of a clause-start fault (R434). -/
def resumeQueue (i : Image) (emask : Mask) (edata : Word) (skip : Bool) : List Clause :=
  match i.kind with
  | .scalar | .held => i.queue
  | .laneRun =>
    if skip then i.queue
    else match i.redo with
      | some c => { c with mask := c.mask &&& emask, whole := some c.mask, members := c.members.map fun _ => edata } :: i.queue
      | none => i.queue
  | .laneIssue =>
    if skip then i.queue
    else match i.redo with
      | some c => c :: i.queue
      | none => i.queue
  | .laneStart => if skip then i.queue.tail else i.queue

/-- The fragment after seret from level `n` (R433, R434). -/
def Frag.leave (f : Frag) (n : Nat) (skip : Bool) (live : Mask) (next : Nat) : Frag :=
  let b := f.bank n
  let i := f.img n
  { (f.setImg n {}) with
    exec := b.exsave &&& live
    queue := resumeQueue i b.emask b.edata skip
    ready := i.held ++ f.ready
    retId := next
    tl := BitVec.ofNat 2 (n - 1)
    pc := if skip && i.kind == .scalar then b.epc + 4 else b.epc
    fetch := .idle
    lfetch := .idle }

/-- seret stays Ready until the current lane queue is empty (R433). -/
def State.seretWaits (s : State) : Bool :=
  s.me.tl != 0 && (s.me.bank s.me.tl.toNat).epc.extractLsb' 0 2 == 0 && !s.me.queue.isEmpty

/-- seret and seret.skip (R433, R434). -/
def State.seret (s : State) (i : Instr) (skip : Bool) : Out :=
  let n := s.me.tl.toNat
  let epc := (s.me.bank n).epc
  if n == 0 then s.illop i
  else if epc.extractLsb' 0 2 != 0 then s.fault .illop 0 epc
  else if s.seretWaits then .next s
  else .next ((s.updMe fun f => f.leave n skip s.myPhr.live s.nextId).settle s.cur)

/-! ### Accesses: issue -/

/-- What the checks of one lane find (R142). -/
inductive Checked where
  | pieces (ps : List Piece)
  | miss (vas : List Nat)
  | bad (cause : Cause) (sub : BitVec 8) (off : Nat)
  deriving DecidableEq, Repr

/-- The failing part of the lowest check; among parts that fail one check, the first (R142). -/
def worstOf (xs : List (Nat × Xlt)) : Option (Nat × Cause × BitVec 8 × Nat) :=
  xs.foldl (fun b x => match x.2, b with
    | .bad st c sub, none => some (st, c, sub, x.1)
    | .bad st c sub, some (st', r) => if st < st' then some (st, c, sub, x.1) else some (st', r)
    | _, b => b) none

/-- An AtomicOp exists for add, swap and compare-and-swap only (R151). -/
def AccKind.hostOk : AccKind → Bool
  | .amo op _ => op == .add || op == .swap || op == .cas
  | _ => true

/-- A future lies in vault memory or scratch (R314, R315). -/
def futureOk (p : Piece) : Bool := p.path ≤ 1

/-- The checks of one lane's access, steps 1 to 5 of R142, made in this order over all its parts: a part that misses may still fail
step 4, so that a failure of step 4 or 5 stands only when no part misses. `bads` holds the parts whose walks have failed. -/
def State.checkWith (s : State) (a : Asker) (bads : List (Nat × Nat × Cause × BitVec 8)) (kind : AccKind) (bytes va : Nat) : Checked :=
  let hp := s.hportOf a.ctx
  let len := if kind.isFuture then 16 else bytes
  let parts := splitParts va len
  if parts.any fun p => p.1 ≥ 2 ^ 56 then .bad .align 0 (((parts.find? fun p => p.1 ≥ 2 ^ 56).map fun p => p.1 - va).getD 0)
  else if kind.isAtomic && va % len != 0 then .bad .align 1 0
  else
    let xs := parts.map fun p => (p.1 - va, match bads.find? fun b => b.1 == p.1 - va with
      | some (_, st, c, sub) => .bad st c sub
      | none => s.resolve a hp p.1 p.2 kind.want)
    let missed := (parts.zip xs).filterMap fun x => if x.2.2 == .miss then some x.1.1 else none
    match worstOf xs with
    | some (st, c, sub, off) => if st ≤ 3 || missed.isEmpty then .bad c sub off else .miss missed
    | none =>
      if !missed.isEmpty then .miss missed
      else
        let ps := xs.filterMap fun x => match x.2 with | .ok p => some p | _ => none
        if kind.isFuture && !ps.all futureOk then .bad .access 0x0B 0
        else if kind.isAtomic && !(kind.hostOk && s.accepted 4) && ps.any fun p => p.path == 4 then .bad .access 0x09 0
        else .pieces ps

/-- The checks of an access that issues now. -/
def State.checkLane (s : State) (k : Nat) (kind : AccKind) (bytes va : Nat) : Checked := s.checkWith (s.asker k) [] kind bytes va

/-- The pages that the lanes of an instruction miss. -/
def State.missPages (s : State) (k : Nat) (kind : AccKind) (bytes : Nat) (vas : List Nat) : List Nat :=
  vas.flatMap fun va => match s.checkLane k kind bytes va with
    | .miss ms => ms.map fun m => m / 0x1000
    | _ => []

/-- Whether the misses of an instruction find room among the 64 records (R143). -/
def State.missRoomFor (s : State) (w : Asker) (pages : List Nat) : Bool :=
  let c := s.core w.core
  c.misses.length + newRecords c w.ctx pages ≤ 64

def State.missRoom (s : State) (k : Nat) (pages : List Nat) : Bool := s.missRoomFor (s.asker k) pages

/-- The port asks for the pages of host pieces that its cache lacks (R149). -/
def State.askPieces (s : State) (ctx : Nat) (writes : Bool) (ps : List Piece) : State :=
  let hp := s.hportOf ctx
  ps.foldl (fun s p =>
    if p.path == 4 && !(s.hostPort hp).gone && !s.atcHit hp ctx (hostPage p.key) writes then
      s.askHost hp ctx (hostPage p.key) writes false
    else s) s

/-- Checks one lane and posts its misses and requests. -/
def State.startLane (s : State) (k : Nat) (w : Asker) (kind : AccKind) (scalar : Bool) (bytes : Nat) (l : LaneAcc) : LaneAcc × State :=
  match s.checkWith w l.bads kind bytes l.addr.toNat with
  | .bad c sub off => (l.failAt scalar (c, sub, off), s)
  | .miss vas => ({ l with st := .walk }, vas.foldl (fun s va => s.postMiss k w kind.want.kind va (bitMask l.lane)) s)
  | .pieces ps => ({ l with st := .todo, parts := ps }, s.askPieces w.ctx kind.want.writes ps)

def State.startLanes (s : State) (k : Nat) (w : Asker) (kind : AccKind) (scalar : Bool) (bytes : Nat) :
    List LaneAcc → List LaneAcc × State
  | [] => ([], s)
  | l :: ls =>
    let (l1, s1) := s.startLane k w kind scalar bytes l
    let (ls1, s2) := s1.startLanes k w kind scalar bytes ls
    (l1 :: ls1, s2)

/-- The request entries that an instruction needs (R218). -/
def requestsOf (bytes : Nat) (vas : List Nat) : Nat := vas.foldl (fun n va => n + (splitParts va bytes).length) 0

/-- Whether an instruction with these addresses may issue now (R143, R218). -/
def State.accessRoom (s : State) (k : Nat) (kind : AccKind) (bytes : Nat) (vas : List Nat) : Bool :=
  s.roomFor k (requestsOf bytes vas) && s.missRoom k (s.missPages k kind bytes vas)

/-- An access issues: its lanes are checked under the translation registers of this moment, which it keeps (R113), and it opens on
its paths (R216). -/
def State.issueAccess (s : State) (a : Access) : State :=
  let w := s.asker a.frag
  let (ls, s1) := s.startLanes a.frag w a.kind a.scalar a.bytes a.lanes
  let a1 := { a with lanes := ls, id := s.nextId, regime := w.regime, fence := (s.frag a.frag).relFen }
  ({ s1 with accs := s1.accs ++ [a1] }.bump).updFrag a.frag fun f => f.openOn s.nextId a1.paths

/-! ### Accesses: completion -/

def failedLanes (ls : List LaneAcc) : List (Nat × Cause × BitVec 8 × Word) :=
  ls.filterMap fun l => match l.st with | .failed c sub d => some (l.lane, c, sub, d) | _ => none

/-- The fault of an instruction: the cause of the lowest code, with the datum of the lowest lane that has it; EMASK holds every
lane not performed (R142). -/
def faultOf (fs : List (Nat × Cause × BitVec 8 × Word)) : Option (Cause × BitVec 8 × Word × Mask) :=
  let best := fs.foldl (fun b f => match b with
    | none => some f
    | some g => if causeCode f.2.1 < causeCode g.2.1 || (causeCode f.2.1 == causeCode g.2.1 && f.1 < g.1) then some f else some g) none
  best.map fun f => (f.2.1, f.2.2.1, f.2.2.2, maskOf (fs.map (·.1)))

/-- A lane fault taken at run time (R307, R434). -/
def runFault (seq : Nat) (pa : Word) (redo : Clause) (c : Cause) (sub : BitVec 8) (m : Mask) (d : Word) : LaneFault :=
  { seq := seq, redo := redo
    exn := { cause := c, sub := sub, mask := m, data := d, lane := true, pa := pa, kind := .laneRun } }

/-- A scalar access that fails after its fragment has stopped for a save (R471): a held fault, with the access's PC. -/
def scalarFault (seq : Nat) (pc : Word) (c : Cause) (sub : BitVec 8) (m : Mask) (d : Word) : LaneFault :=
  { seq := seq, redo := { addr := pc }, exn := { cause := c, sub := sub, mask := m, data := d, kind := .scalar } }

/-- A vmcast ends when every member has reported (R325): the bitmap of failures, MCFAIL, and FABRIC when TRAPEN.MCFAB is set. -/
def State.endMcast (s : State) (a : Access) : State :=
  let bits := (failedLanes a.lanes).foldl (fun (n : Nat) f => n + 2 ^ f.1) 0
  let s1 := match a.dest with
    | .scalar r => if (s.frag a.frag).live then s.updFrag a.frag fun f => f.setReg r (wordOf bits) else s
    | _ => s
  if bits == 0 then s1.settle a.frag
  else
    let s2 := s1.setStatus (phraseOf a.frag) statusMcfail
    if a.redo.trapen.getLsbD 7 then
      (s2.addFault a.frag (runFault a.id a.pc { a.redo with members := some 0 } .fabric 0x06 a.redo.mask (wordOf bits))).settle a.frag
    else s2.settle a.frag

/-- An access whose lanes have all been performed or have failed ends; its fault is taken (R270, R307). -/
def State.endAccess (s : State) (a : Access) : State :=
  -- a lane fault keeps the paths of its lanes until it is taken, and a vmcast its fabric path until its FABRIC is (R217)
  let faults := a.redo.trapen.getLsbD 7 && !(failedLanes a.lanes).isEmpty
  let m := if a.scalar then 0x1F else if a.kind == .mcast then (if faults then 0 else 0x1F) else ~~~a.paths
  let s1 := (({ s with accs := s.accs.filter fun b => b.id != a.id }).updFrag a.frag fun f => f.close a.id m).tidy
  if a.kind == .mcast then s1.endMcast a
  else match faultOf (failedLanes a.lanes) with
  | none =>
    let s2 := s1.updFrag a.frag fun f => if f.wait == .future a.id then f.resume else f
    s2.settle a.frag
  | some (c, sub, d, m) =>
    if a.scalar then
      -- on a frozen core the fault is taken after the release (R467), and that of a stopped fragment is held (R471; log 60)
      if (s.core (s.coreOf a.frag)).frozen then s.tidy
      else if !(s1.frag a.frag).live then s1
      else if (s1.frag a.frag).stopped then s1.addFault a.frag (scalarFault a.id a.pc c sub (s1.frag a.frag).exec d)
      else s1.scalarTrap a.frag c sub d a.pc
    else
      (s1.addFault a.frag (runFault a.id a.pc a.redo c sub m d)).settle a.frag

/-- Ends an access if nothing of it remains to be performed. -/
def State.checkAccess (s : State) (id : Nat) : State :=
  match s.findAcc id with
  | none => s
  | some a => if a.pending then s else s.endAccess a

/-- The lanes of an access that can be performed are; then it may end (R268, R307). -/
def State.runAccess (s : State) (id : Nat) : State :=
  match s.findAcc id with
  | none => s
  | some a => if s.mayPerform a then (s.performAcc a).checkAccess id else s

/-- Whether some lane of an access can be performed now. -/
def State.accReady (s : State) (a : Access) : Bool := s.mayPerform a && a.lanes.any fun l => s.laneReady a l

/-! ### The end of a walk (R145, R436) -/

/-- The offset of the part of a waiting lane that lies in a page. -/
def Access.waitsOn (a : Access) (vpn : Nat) (l : LaneAcc) : Option Nat :=
  if l.st == .walk then
    ((splitParts l.addr.toNat a.reach).find? fun p => p.1 / 0x1000 == vpn).map fun p => p.1 - l.addr.toNat
  else none

/-- The walk of a page has ended, with a failure or not: the lanes that wait for it are checked again under the registers of their
issue (R113, R142, R145, R436), and the path counters follow what is now known (R216). -/
def State.replayAcc (s : State) (a : Access) (vpn : Nat) (e : Option (Cause × BitVec 8)) : State :=
  if a.lanes.any fun l => (a.waitsOn vpn l).isSome then
    let w : Asker := { s.asker a.frag with regime := a.regime }
    let (ls, s1) := a.lanes.foldl (fun (acc : List LaneAcc × State) l =>
      match a.waitsOn vpn l, e with
      | none, _ => (acc.1 ++ [l], acc.2)
      | some _, none =>
        let (l1, s1) := acc.2.startLane a.frag w a.kind a.scalar a.bytes l
        (acc.1 ++ [l1], s1)
      | some off, some (c, sub) =>
        let (l1, s1) := acc.2.startLane a.frag w a.kind a.scalar a.bytes
          { l with bads := l.bads ++ [(off, if c == .xlate then 4 else 5, c, sub)] }
        (acc.1 ++ [l1], s1)) ([], s)
    let a1 := { a with lanes := ls }
    (((s1.putAcc a1).updFrag a.frag fun f => f.close a.id (~~~a1.paths))).checkAccess a.id
  else s

/-- The accesses of a core's fragments in a context. -/
def State.accsOn (s : State) (core ctx : Nat) : List Access :=
  s.accs.filter fun a => s.coreOf a.frag == core && s.ctxOf a.frag == ctx

/-- Whether a fetch waits for the walk of a page. -/
def Fetch.waitsIn (f : Fetch) (vpn : Nat) : Bool := match f with | .waits v => v / 0x1000 == vpn | _ => false

def Fetch.waiting (f : Fetch) : Bool := match f with | .waits _ => true | _ => false

def Fetch.after (f : Fetch) (vpn : Nat) (e : Option (Cause × BitVec 8)) : Fetch :=
  match f, e with
  | .waits v, none => if v / 0x1000 == vpn then .idle else .waits v
  | .waits v, some (c, sub) => if v / 0x1000 == vpn then .failed c sub (wordOf v) else .waits v
  | f, _ => f

/-- The fetches and copies that wait on a page go on, or fail, each at its own address. -/
def State.wakeFetches (s : State) (core ctx vpn : Nat) (e : Option (Cause × BitVec 8)) : State :=
  { s with
    frags := s.frags.map fun p =>
      if s.coreOf p.1 == core && s.ctxOf p.1 == ctx then
        (p.1, { p.2 with fetch := p.2.fetch.after vpn e, lfetch := p.2.lfetch.after vpn e, pwait := p.2.pwait.after vpn e })
      else p
    copies := s.copies.map fun c =>
      if c.core == core && c.who.ctx == ctx then { c with wait := c.wait.after vpn e } else c }

/-- Whether an operation is a prefetch that made a record. -/
def LaneOp.prefetched (o : LaneOp) (m : MissRec) : Bool := match o.kind with | .pref rs _ => rs.contains m.num | _ => false

/-- A prefetch whose walk has found a host page asks for its translation (R313). -/
def State.prefFilled (s : State) (core : Nat) (m : MissRec) : State :=
  match (s.core core).tlb.find? fun e => e.ctx == m.ctx && e.covers m.va with
  | some e =>
    if e.host && s.laneOps.any fun o => o.prefetched m then
      let page := e.addr m.va / 0x1000
      let s1 : State := { s with laneOps := s.laneOps.map fun o => match o.kind with
        | .pref rs hs => if rs.contains m.num then { o with kind := .pref rs (hs ++ [page]) } else o
        | _ => o }
      if s.atcHit (s.hportOf m.ctx) m.ctx page false then s1 else s1.askHost (s.hportOf m.ctx) m.ctx page false true
    else s
  | none => s

/-- A walker record ends, with a failure or with a filled entry: every access waiting on its page is checked again (R145, R436). -/
def State.recordEnds (s : State) (core : Nat) (m : MissRec) (e : Option (Cause × BitVec 8)) : State :=
  let s1 := s.updCore core fun c => { c with misses := c.misses.filter fun x => x.tag != m.tag }
  let s2 := (s1.accsOn core m.ctx).foldl (fun s a =>
    match s.findAcc a.id with
    | some b => s.replayAcc b (m.va / 0x1000) e
    | none => s) s1
  let s3 := if e.isNone then s2.prefFilled core m else s2
  (s3.wakeFetches core m.ctx (m.va / 0x1000) e).tidy

end Sys2Proof.Machine
end

