-- ==== Sys2Proof/Machine/Courses.lean ====
section
/-! DEFINITION. Course membership (R399, R400), barriers (R401-R403), and the growth of a phrase's lane registers (R101, R102, R404). -/
namespace Sys2Proof.Machine

/-! ### Membership -/

/-- A failure word of R400 and R404: FAIL, a reason, and the low bits. -/
def failWord (reason low : Nat) : Word := wordOf (at' 1 63 + at' reason 56 + low)

/-- The members of a course (CSIZE), those of its launch whose phrases are not yet placed among them (R38, R111). -/
def Course.size (c : Course) : Nat := c.members.length + c.absent.length

/-- The lowest rank that no member holds (R39). -/
def Course.freeRank (c : Course) : Nat :=
  ((List.range 1025).find? fun r => !(c.members.any fun m => m.1 == r) && !c.absent.contains r).getD 1024

/-- The reason for which senrol fails; the lowest that applies (R400). -/
def State.enrolReason (s : State) (p : Nat) (num : BitVec 32) : Option Nat :=
  let c := s.courses.find? fun c => c.isAt (s.phr p).inst num
  if (s.phr p).course.isSome then some 1
  else if c.any fun c => c.size ≥ 1024 then some 2
  else if c.any fun c => c.place != 0 then some 3
  else if num == 0xFFFFFFFF then some 4
  else none

/-- The producer rank of the launch of an instance (R38, R359). -/
def State.prankOf (s : State) (inst : Nat) : Nat := ((s.inst inst).map fun a => a.packet.prank).getD 0

/-- The phrase becomes a member at the lowest free rank; a number without members names a new course (R399, R400). -/
def State.enrol (s : State) (p : Nat) (num : BitVec 32) : Nat × State :=
  let i := (s.phr p).inst
  match s.courses.find? fun c => c.isAt i num with
  | some c =>
    let r := c.freeRank
    (r, (s.putCourse { c with members := c.members ++ [(r, p)] }).updPhr p fun q => { q with course := some num, rank := r })
  | none =>
    let c : Course := { inst := i, num := num, place := 0, members := [(0, p)], prank := s.prankOf i }
    (0, ({ s with courses := s.courses ++ [c] } : State).updPhr p fun q => { q with course := some num, rank := 0 })

/-- R400: senrol. -/
def execSenrol (sd sa : SReg) (s : State) : Out :=
  let p := phraseOf s.cur
  let num : BitVec 32 := (s.r sa).setWidth 32
  if s.myPhr.asides != 0 then s.illop (.senrol sd sa)
  else match s.enrolReason p num with
    | some r => putNext sd (failWord r 0) s
    | none => let r := s.enrol p num; putNext sd (wordOf r.1) r.2

/-- R400: sleave, of a course of any placement (log 89). -/
def execSleave (sd : SReg) (s : State) : Out :=
  let p := phraseOf s.cur
  if s.myPhr.asides != 0 then s.illop (.sleave sd)
  else if s.myPhr.course.isNone then putNext sd (failWord 5 0) s
  else putNext sd (wordOf s.myPhr.rank) (s.leaveCourse p)

/-! ### Barriers (R403) -/

/-- A barrier waits until its fragment's lane queue is empty, and arrives as a release of the earlier accesses. -/
def State.barrierStalls (s : State) : Bool := !s.me.queue.isEmpty || s.relWaits s.cur .crs

/-- Whether an episode has ended for the phrase while it did not wait (R403). -/
def State.letPast (s : State) (kind : Nat) : Bool := s.myPhr.ended.contains kind

/-- One barrier instruction: past it when its episode has ended, else it waits; `arrive` records the arrival and may complete the
episode. -/
def State.atBarrier (s : State) (kind : Nat) (sc : Scope) (arrived : Bool) (arrive : State → State) : Out :=
  if s.letPast kind then
    .next ((s.updPhr (phraseOf s.cur) fun q => { q with ended := q.ended.filter fun x => x != kind }).adv.acquire s.cur sc)
  else if s.barrierStalls then .next s
  else
    let s1 := s.updMe fun f => { f with wait := .barrier kind }
    .next (if arrived then s1 else arrive s1)

/-- The arrival of the issuing phrase at a barrier of its course. -/
def State.arriveCourse (s : State) (c : Course) (kind : Nat) : State :=
  let p := phraseOf s.cur
  (s.putCourse (if kind == 0 then { c with sbar := p :: c.sbar } else { c with sclbar := p :: c.sclbar })).checkBarrier c.inst c.num kind

/-- R401, R403: sbar. -/
def execSbar (s : State) : Out :=
  if s.myPhr.asides != 0 then s.illop .sbar
  else match s.courseOf (phraseOf s.cur) with
    | none => .next s.adv
    | some c => s.atBarrier 0 .crs (c.sbar.contains (phraseOf s.cur)) fun s => s.arriveCourse c 0

/-- R401, R403: sclbar. -/
def execSclbar (s : State) : Out :=
  if s.myPhr.asides != 0 then s.illop .sclbar
  else match s.courseOf (phraseOf s.cur) with
    | none => s.illop .sclbar
    | some c =>
      if c.place != 1 then s.illop .sclbar
      else s.atBarrier 1 .clu (c.sclbar.contains (phraseOf s.cur)) fun s => s.arriveCourse c 1

/-- R402, R403: slbar. -/
def execSlbar (s : State) : Out :=
  let p := phraseOf s.cur
  if s.myPhr.mate.isNone then s.illop .slbar
  else s.atBarrier 2 .clu s.myPhr.lbar fun s => (s.updPhr p fun q => { q with lbar := true }).checkLbar p

/-! ### Lane registers (R101, R102, R404) -/

/-- The lane registers allocated on a core, of its 2048. -/
def State.regsUsed (s : State) (core : Nat) : Nat :=
  s.phrases.foldl (fun n e => if e.2.core == core && e.2.present && !e.2.gone then n + e.2.regs else n) 0

/-- sgrow and sshrink wait until the lane queue is empty and the flags are clear (R101). -/
def State.resizeWaits (s : State) : Bool := !s.me.queue.isEmpty || !s.allClear s.cur

/-- The least allocation of a phrase: its window takes 32 while its auxiliary lives (R35, R102). -/
def State.minRegs (s : State) (p : Nat) : Nat := if !(s.phr p).isAux && s.mateAlive p then 64 else 32

/-- The reason for which a resize fails (R404). -/
def State.resizeReason (s : State) (p : Nat) (grow : Bool) (n : Nat) : Option Nat :=
  let q := s.phr p
  if grow then
    if q.regs + 16 * n > 256 then some 2
    else if s.regsUsed q.core + 16 * n > 2048 then some 1
    else none
  else if q.regs < s.minRegs p + 16 * n then some 3
  else none

/-- A phrase with a new allocation: the values of the registers that it no longer has are lost, and new ones read zero. -/
def Phrase.resize (q : Phrase) (regs : Nat) : Phrase :=
  let q1 := { q with regs := regs }
  { q1 with lanes := q.lanes.filter fun e => e.1 < 32 * min q.nameable q1.nameable }

def State.resize (s : State) (i : Instr) (sd : SReg) (grow : Bool) (n : Nat) : Out :=
  let p := phraseOf s.cur
  let q := s.myPhr
  if s.resizeWaits then .next s
  else if q.asides != 0 then s.illop i
  else match s.resizeReason p grow n with
    | some r => putNext sd (failWord r q.regs) (s.setStatus p statusGrowfail)
    | none =>
      let regs := if grow then q.regs + 16 * n else q.regs - 16 * n
      putNext sd (wordOf regs) (s.updPhr p fun q => q.resize regs)

/-- R404: sgrow. -/
def execSgrow (sd : SReg) (n : BitVec 12) (s : State) : Out := s.resize (.sgrow sd n) sd true n.toNat

/-- R404: sshrink. -/
def execSshrink (sd : SReg) (n : BitVec 12) (s : State) : Out := s.resize (.sshrink sd n) sd false n.toNat

end Sys2Proof.Machine
end

