-- ==== Sys2Proof/Machine/Crypto.lean ====
section
/-! DEFINITION. The published algorithms that the manual names (R4): AES-256-GCM (R373, R505), CRC-32 of IEEE 802.3 (R505) and
SHA3-256 (R545, R550). -/
namespace Sys2Proof.Machine

/-! ### AES-256 -/

/-- The product of two bytes in the field of AES. -/
def gmul (a b : Nat) : Nat :=
  ((List.range 8).foldl (fun (r : Nat × Nat) i =>
    let acc := if b.testBit i then r.1 ^^^ r.2 else r.1
    let d := 2 * r.2
    (acc, if d ≥ 256 then (d ^^^ 0x11B) else d)) (0, a)).1

/-- a^254: the inverse, or 0 for 0. -/
def ginv (a : Nat) : Nat :=
  let sq (x : Nat) := gmul x x
  let a2 := sq a
  let a4 := sq a2
  let a8 := sq a4
  let a16 := sq a8
  let a32 := sq a16
  let a64 := sq a32
  let a128 := sq a64
  gmul a128 (gmul a64 (gmul a32 (gmul a16 (gmul a8 (gmul a4 a2)))))

def rotl8 (x k : Nat) : Nat := (x * 2 ^ k + x / 2 ^ (8 - k)) % 256

def sbox (a : Nat) : Nat :=
  let b := ginv a
  b ^^^ rotl8 b 1 ^^^ rotl8 b 2 ^^^ rotl8 b 3 ^^^ rotl8 b 4 ^^^ 0x63

def xorList (a b : List Nat) : List Nat := List.zipWith (fun x y => x ^^^ y) a b

/-- Words of the key schedule, newest first. -/
def aesExpand : Nat → Nat → Nat → List (List Nat) → List (List Nat)
  | 0, _, _, ws => ws
  | n + 1, i, rcon, ws =>
    let prev := nth [] ws 0
    let back := nth [] ws 7
    let t :=
      if i % 8 == 0 then xorList ((prev.rotateLeft 1).map sbox) [rcon, 0, 0, 0]
      else if i % 8 == 4 then prev.map sbox
      else prev
    aesExpand n (i + 1) (if i % 8 == 0 then gmul rcon 2 else rcon) (xorList back t :: ws)

/-- The groups of four of a list. -/
def fours : Nat → List Nat → List (List Nat)
  | 0, _ => []
  | n + 1, l => l.take 4 :: fours n (l.drop 4)

/-- The 60 words of an AES-256 key of 32 bytes. -/
def aesKeys (key : List Nat) : List (List Nat) := (aesExpand 52 8 1 ((fours 8 key).reverse)).reverse

def roundKey (ws : List (List Nat)) (r : Nat) : List Nat := ((ws.drop (4 * r)).take 4).flatten

/-- ShiftRows of 16 bytes, column by column. -/
def shiftRows (b : List Nat) : List Nat := (List.range 16).map fun i => nth 0 b ((4 * (i / 4 + i % 4) + i % 4) % 16)

def mixColumn (c : List Nat) : List Nat :=
  (List.range 4).map fun i =>
    gmul (nth 0 c i) 2 ^^^ gmul (nth 0 c ((i + 1) % 4)) 3 ^^^ nth 0 c ((i + 2) % 4) ^^^ nth 0 c ((i + 3) % 4)

/-- One block under an expanded key. -/
def aesBlock (ws : List (List Nat)) (b : List Nat) : List Nat :=
  let mid := (List.range 13).foldl (fun x r =>
    xorList ((fours 4 (shiftRows (x.map sbox))).flatMap mixColumn) (roundKey ws (r + 1))) (xorList b (roundKey ws 0))
  xorList (shiftRows (mid.map sbox)) (roundKey ws 14)

/-! ### GCM -/

/-- A number as `n` bytes, highest first. -/
def bigBytes (x n : Nat) : List Nat := (List.range n).map fun i => x / 256 ^ (n - 1 - i) % 256

def bigNat (bs : List Nat) : Nat := bs.foldl (fun n b => 256 * n + b) 0

/-- The product of GHASH, on blocks as numbers with the first bit highest. -/
def ghashMul (x y : Nat) : Nat :=
  ((List.range 128).foldl (fun (r : Nat × Nat) i =>
    (if x.testBit (127 - i) then r.1 ^^^ r.2 else r.1,
     if r.2 % 2 == 1 then r.2 / 2 ^^^ (0xE1 * 2 ^ 120) else r.2 / 2)) (0, y)).1

/-- Bytes as blocks of 16, the last filled up with zeros. -/
def blocks16 (bs : List Nat) : List Nat :=
  (List.range ((bs.length + 15) / 16)).map fun i => bigNat (takeFill 0 16 ((bs.drop (16 * i)).take 16))

/-- Bytes `from0` on of the key stream, `n` of them, for a 96-bit nonce. DESIGN CHOICE: the nonce, which the manual gives as a number
(R373, R505), stands in the IV with its highest byte first (log 85). -/
def gcmStream (key : List Nat) (nonce from0 n : Nat) : List Nat :=
  let ws := aesKeys key
  let first := from0 / 16
  let count := (from0 + n + 15) / 16 - first
  (((List.range count).flatMap fun i => aesBlock ws (bigBytes (nonce * 2 ^ 32 + first + i + 2) 16)).drop (from0 % 16)).take n

/-- Text encrypted, or decrypted, from byte `from0` of the message on. -/
def gcmText (key : List Nat) (nonce from0 : Nat) (bs : List Nat) : List Nat := xorList bs (gcmStream key nonce from0 bs.length)

/-- The tag of AAD and ciphertext. -/
def gcmTag (key : List Nat) (nonce : Nat) (aad ct : List Nat) : List Nat :=
  let ws := aesKeys key
  let h := bigNat (aesBlock ws (bigBytes 0 16))
  let y := (blocks16 aad ++ blocks16 ct ++ [8 * aad.length * 2 ^ 64 + 8 * ct.length]).foldl (fun y b => ghashMul (y ^^^ b) h) 0
  xorList (bigBytes y 16) (aesBlock ws (bigBytes (nonce * 2 ^ 32 + 1) 16))

/-- The bytes of a 256-bit key, lowest first (R5). -/
def keyBytes (k : BitVec 256) : List Nat := (bytesOf k.toNat 32).map fun b => b.toNat

/-! ### CRC-32 -/

def crcStep (crc b : Nat) : Nat :=
  (List.range 8).foldl (fun c _ => if c % 2 == 1 then c / 2 ^^^ 0xEDB88320 else c / 2) (crc ^^^ b)

def crc32 (bs : List Byte) : Nat := (bs.foldl (fun c b => crcStep c b.toNat) 0xFFFFFFFF) ^^^ 0xFFFFFFFF

/-! ### SHA3-256 -/

def rotl64 (x k : Nat) : Nat := (x * 2 ^ k + x / 2 ^ (64 - k)) % 2 ^ 64

/-- One step of the register that gives the round constants, and its bit. -/
def keccakLfsr (r : Nat) : Nat := let d := 2 * r; if d ≥ 256 then d ^^^ 0x171 else d

/-- The round constants: bit 2^j − 1 of round i is bit 7 i + j of the register's sequence. -/
def keccakRc (i : Nat) : Nat :=
  let start := (List.range (7 * i)).foldl (fun r _ => keccakLfsr r) 1
  ((List.range 7).foldl (fun (x : Nat × Nat) j => (if x.2 % 2 == 1 then x.1 + 2 ^ (2 ^ j - 1) else x.1, keccakLfsr x.2)) (0, start)).1

/-- The rotations of rho and the places of pi: along the path of (x, y) to (y, 2x + 3y). -/
def keccakPath : Nat → Nat → Nat → Nat → List (Nat × Nat)
  | 0, _, _, _ => []
  | n + 1, t, x, y => (x + 5 * y, (t + 1) * (t + 2) / 2 % 64) :: keccakPath n (t + 1) y ((2 * x + 3 * y) % 5)

def keccakRound (a : List Nat) (i : Nat) : List Nat :=
  let c := (List.range 5).map fun x => (List.range 5).foldl (fun z y => z ^^^ nth 0 a (x + 5 * y)) 0
  let d := (List.range 5).map fun x => nth 0 c ((x + 4) % 5) ^^^ rotl64 (nth 0 c ((x + 1) % 5)) 1
  let e := (List.range 25).map fun k => nth 0 a k ^^^ nth 0 d (k % 5)
  let rot (k : Nat) : Nat := if k == 0 then 0 else ((keccakPath 24 0 1 0).find? fun p => p.1 == k).elim 0 (·.2)
  -- B[y, 2x + 3y] = rot(A[x, y])
  let b := (List.range 25).map fun k =>
    let u := k % 5
    let v := k / 5
    -- u = y and v = 2x + 3y give x = 3 v + u modulo 5
    let x := (3 * v + u) % 5
    rotl64 (nth 0 e (x + 5 * u)) (rot (x + 5 * u))
  let f := (List.range 25).map fun k =>
    let y := k / 5 * 5
    nth 0 b k ^^^ ((2 ^ 64 - 1 - nth 0 b (y + (k + 1) % 5)) &&& nth 0 b (y + (k + 2) % 5))
  match f with
  | [] => []
  | z :: zs => (z ^^^ keccakRc i) :: zs

def keccakF (a : List Nat) : List Nat := (List.range 24).foldl keccakRound a

/-- The padded message in blocks of 136 bytes. -/
def sha3Pad (bs : List Byte) : List Byte :=
  let n := 136 - bs.length % 136
  bs ++ (if n == 1 then [0x86] else [0x06] ++ List.replicate (n - 2) 0 ++ [0x80])

def sha3Absorb : Nat → List Byte → List Nat → List Nat
  | 0, _, a => a
  | n + 1, bs, a =>
    let blk := (List.range 25).map fun k => if k < 17 then natOf ((bs.drop (8 * k)).take 8) else 0
    sha3Absorb n (bs.drop 136) (keccakF (xorList a blk))

/-- The SHA3-256 digest. -/
def sha3 (bs : List Byte) : List Byte :=
  let p := sha3Pad bs
  ((sha3Absorb (p.length / 136) p (List.replicate 25 0)).take 4).flatMap fun x => bytesOf x 8

end Sys2Proof.Machine
end

