-- ==== Sys2Proof/Machine/Flags.lean ====
section
/-! DEFINITION. The floating exception bits (R74): their places in STATUS (R116), which of them trap (R75), and how they are set. -/
namespace Sys2Proof.Machine

/-- Exception bits in STATUS order: FINV, FDZ, FOFL, FUFL, FINX from bit 0 (R116). -/
abbrev Exc := BitVec 5

def excNone : Exc := 0
def excInv : Exc := 1
def excDz : Exc := 2
def excOfl : Exc := 4
def excUfl : Exc := 8
def excInx : Exc := 16

def excIf (b : Bool) (e : Exc) : Exc := if b then e else 0

/-- Whether an operation that sets these bits traps under TRAPEN: FINV, FDZ and FOFL, each with its own enable (R75, R117). -/
def excTraps (trapen : BitVec 32) (e : Exc) : Bool := (e &&& trapen.setWidth 5 &&& 7) != 0

/-- ORs exception bits into a phrase's STATUS (R116). -/
def State.setExc (s : State) (p : Nat) (e : Exc) : State := s.setStatus p (e.setWidth 32)

end Sys2Proof.Machine
end

