-- ==== Sys2Proof/Machine/Numbers.lean ====
section
/-! DEFINITION. Number formats and arithmetic: values and encodings (R58-R68), rounding, overflow, saturation and subnormals
(R70-R74, R76, R77), exact sums and products (R86, R90), and the correctly rounded functions (R285, R286). -/
namespace Sys2Proof.Machine

/-! ### Formats -/

/-- What the top codes of a format mean (R63): IEEE infinities and NaNs, E4M3's one NaN, or finite numbers only. -/
inductive TopCodes where
  | ieee | oneNan | finite
  deriving DecidableEq, Repr

/-- A floating format (R63): widths of the exponent and fraction fields and the bias. -/
structure Fmt where
  eb   : Nat
  fb   : Nat
  bias : Nat
  top  : TopCodes
  deriving DecidableEq, Repr

def fmtF64 : Fmt := ⟨11, 52, 1023, .ieee⟩
def fmtF32 : Fmt := ⟨8, 23, 127, .ieee⟩
def fmtF16 : Fmt := ⟨5, 10, 15, .ieee⟩
def fmtBf16 : Fmt := ⟨8, 7, 127, .ieee⟩
def fmtE5M2 : Fmt := ⟨5, 2, 15, .ieee⟩
def fmtE4M3 : Fmt := ⟨4, 3, 7, .oneNan⟩
def fmtE3M2 : Fmt := ⟨3, 2, 3, .finite⟩
def fmtE2M3 : Fmt := ⟨2, 3, 1, .finite⟩
def fmtE2M1 : Fmt := ⟨2, 1, 1, .finite⟩

/-- The code of the largest finite magnitude (R63). -/
def Fmt.maxCode (f : Fmt) : Nat :=
  match f.top with
  | .ieee => (2 ^ f.eb - 1) * 2 ^ f.fb - 1
  | .oneNan => 2 ^ (f.eb + f.fb) - 2
  | .finite => 2 ^ (f.eb + f.fb) - 1

def Fmt.infCode (f : Fmt) : Nat := (2 ^ f.eb - 1) * 2 ^ f.fb

/-- The canonical NaN (R68). -/
def Fmt.canon (f : Fmt) : Nat :=
  match f.top with
  | .ieee => f.infCode + 2 ^ (f.fb - 1)
  | _ => 2 ^ (f.eb + f.fb) - 1

def Fmt.signBit (f : Fmt) : Nat := 2 ^ (f.eb + f.fb)

/-- The element types of ETYPE (R80): integers, floating formats, and the MXINT8 element (R66). -/
inductive Elem where
  | int (signed : Bool) (w : Nat)
  | flt (f : Fmt)
  | mxi
  deriving DecidableEq, Repr

/-- The element type of a code of ETYPE or, below 12, of TYPE (R80, R239). -/
def elemOf (n : Nat) : Option Elem :=
  match n with
  | 0 => some (.int true 8) | 1 => some (.int true 16) | 2 => some (.int true 32) | 3 => some (.int true 64)
  | 4 => some (.int false 8) | 5 => some (.int false 16) | 6 => some (.int false 32) | 7 => some (.int false 64)
  | 8 => some (.flt fmtF16) | 9 => some (.flt fmtBf16) | 10 => some (.flt fmtF32) | 11 => some (.flt fmtF64)
  | 12 => some (.flt fmtE4M3) | 13 => some (.flt fmtE5M2) | 14 => some (.flt fmtE3M2) | 15 => some (.flt fmtE2M3)
  | 16 => some (.flt fmtE2M1) | 17 => some .mxi
  | _ => none

/-- The width of an element's encoding. -/
def Elem.bits : Elem → Nat
  | .int _ w => w
  | .flt f => 1 + f.eb + f.fb
  | .mxi => 8

/-! ### Values (R64, R66, R69) -/

/-- A NaN (signalling or quiet), an infinity, or the number ±man × 2^exp; a zero keeps its sign. -/
inductive Val where
  | nan (signalling : Bool)
  | inf (neg : Bool)
  | num (neg : Bool) (man : Nat) (exp : Int)
  deriving DecidableEq, Repr

def Val.isNan : Val → Bool
  | .nan _ => true
  | _ => false

def Val.isSnan : Val → Bool
  | .nan s => s
  | _ => false

def Val.isZero : Val → Bool
  | .num _ m _ => m == 0
  | _ => false

def Val.isNeg : Val → Bool
  | .nan _ => false
  | .inf n => n
  | .num n _ _ => n

def Val.ofInt (x : Int) : Val := .num (x < 0) x.natAbs 0

/-- The value that a code of a floating format encodes (R63, R64, R69). -/
def Fmt.value (f : Fmt) (code : Nat) : Val :=
  let neg := code.testBit (f.eb + f.fb)
  let e := code / 2 ^ f.fb % 2 ^ f.eb
  let m := code % 2 ^ f.fb
  if f.top == .ieee && e == 2 ^ f.eb - 1 then
    if m == 0 then .inf neg else .nan (!m.testBit (f.fb - 1))
  else if f.top == .oneNan && code % f.signBit == 2 ^ (f.eb + f.fb) - 1 then .nan false
  else if e == 0 then .num neg m (1 - (f.bias + f.fb : Nat) : Int)
  else .num neg (m + 2 ^ f.fb) ((e : Int) - (f.bias + f.fb : Nat))

/-- A subnormal input read under FLUSH counts as zero of its sign (R73). -/
def Fmt.flushIn (f : Fmt) (code : Nat) (v : Val) : Val :=
  if code / 2 ^ f.fb % 2 ^ f.eb == 0 then (match v with | .num n _ _ => .num n 0 0 | v => v) else v

/-- The value of an element (R58, R64, R66). -/
def Elem.value (t : Elem) (flush : Bool) (code : Nat) : Val :=
  match t with
  | .int true w => .ofInt (sext code w)
  | .int false w => .ofInt (code % 2 ^ w : Nat)
  | .flt f =>
    let c := code % 2 ^ (1 + f.eb + f.fb)
    if flush then f.flushIn c (f.value c) else f.value c
  | .mxi => let x := sext code 8; .num (x < 0) x.natAbs (-6)

/-! ### Rounding (R70) -/

/-- The rounding modes; reserved codes do not reach an operation. -/
inductive RMode where
  | rne | rtz | rup | rdn | rna
  deriving DecidableEq, Repr

def rmodeOf (n : Nat) : RMode := match n with | 1 => .rtz | 2 => .rup | 3 => .rdn | 4 => .rna | _ => .rne

/-- An arithmetic instruction whose mode is RNA rounds as RNE (R70). -/
def RMode.arith (m : RMode) : RMode := match m with | .rna => .rne | m => m

/-- ±man × 2^exp rounded to a multiple of 2^q: the multiple, and whether it differs. -/
def roundTo (m : RMode) (neg : Bool) (man : Nat) (exp q : Int) : Nat × Bool :=
  if q ≤ exp then (man * 2 ^ (exp - q).toNat, false)
  else
    let k := (q - exp).toNat
    let x := man / 2 ^ k
    let r := man % 2 ^ k
    let half := 2 ^ (k - 1)
    let up := match m with
      | .rne => r > half || (r == half && x % 2 == 1)
      | .rtz => false
      | .rup => !neg && r != 0
      | .rdn => neg && r != 0
      | .rna => r ≥ half
    (if up then x + 1 else x, r != 0)

/-- What governs a rounding: mode, SAT and FLUSH. -/
structure Round where
  mode  : RMode
  sat   : Bool := false
  flush : Bool := false
  deriving DecidableEq, Repr

/-- Overflow goes to infinity rather than to the largest number (R71). -/
def overflowsToInf (m : RMode) (neg : Bool) : Bool :=
  match m with
  | .rne | .rna => true
  | .rtz => false
  | .rup => !neg
  | .rdn => neg

/-- A finite nonzero number rounded into a format (R71-R73). -/
def Fmt.roundNum (f : Fmt) (g : Round) (neg : Bool) (man : Nat) (exp : Int) : Nat × Exc :=
  let sign := if neg then f.signBit else 0
  let e := (Nat.log2 man : Int) + exp
  let free := (roundTo g.mode neg man exp (e - f.fb)).1
  let field := e + f.bias
  -- the code that the result would have with an unbounded exponent range; below the normal range it is not positive
  let code := (field - 1) * 2 ^ f.fb + free
  if code > f.maxCode then
    let toInf := overflowsToInf g.mode neg && !g.sat
    let r := match f.top with
      | .finite => sign + f.maxCode
      | .oneNan => if toInf then f.canon else sign + f.maxCode
      | .ieee => if toInf then sign + f.infCode else sign + f.maxCode
    (r, excOfl ||| excInx)
  else
    let tiny := code < 2 ^ f.fb
    if tiny && g.flush then (sign, excUfl ||| excInx)
    else
      let q := max e (1 - (f.bias : Int)) - f.fb
      let x := roundTo g.mode neg man exp q
      let field' := max field 1
      (sign + ((field' - 1) * 2 ^ f.fb + x.1).toNat, excIf x.2 excInx ||| excIf (x.2 && tiny) excUfl)

/-- round of R245 into a floating format. The caller adds FINV for signalling inputs (R69). -/
def Fmt.encode (f : Fmt) (g : Round) (v : Val) : Nat × Exc :=
  match v with
  | .nan _ => if f.top == .finite then (0, excInv) else (f.canon, 0)
  | .inf n =>
    let sign := if n then f.signBit else 0
    match f.top with
    | .ieee => (sign + f.infCode, 0)
    | .oneNan => if g.sat then (sign + f.maxCode, 0) else (f.canon, 0)
    | .finite => (sign + f.maxCode, excInv)
  | .num n m e => if m == 0 then (if n then f.signBit else 0, 0) else f.roundNum g n m e

/-- A value rounded into an integer format, always clamped (R76). Out of range is what the rounded integer is, not the value before
rounding, and a clamped result sets FINV alone (DESIGN CHOICE, log 71). -/
def intEncode (signed : Bool) (w : Nat) (g : Round) (v : Val) : Nat × Exc :=
  let lo : Int := if signed then -(2 ^ (w - 1) : Nat) else 0
  let hi : Int := if signed then (2 ^ (w - 1) : Nat) - 1 else (2 ^ w : Nat) - 1
  match v with
  | .nan _ => (0, excInv)
  | .inf n => (wrap (if n then lo else hi) w, excInv)
  | .num n m e =>
    let x := roundTo g.mode n m e 0
    let y : Int := if n then -(x.1 : Int) else x.1
    if y < lo then (wrap lo w, excInv)
    else if y > hi then (wrap hi w, excInv)
    else (wrap y w, excIf x.2 excInx)

/-- A value rounded into an MXINT8 element (R66, R71, R77). -/
def mxiEncode (g : Round) (v : Val) : Nat × Exc :=
  match v with
  | .nan _ => (0, excInv)
  | .inf n => (if n then 0x80 else 0x7F, excInv)
  | .num n m e =>
    let x := roundTo g.mode n m e (-6)
    if n then (if x.1 > 128 then (0x80, excOfl ||| excInx) else (wrap (-(x.1 : Int)) 8, excIf x.2 excInx))
    else if x.1 > 127 then (0x7F, excOfl ||| excInx) else (x.1, excIf x.2 excInx)

def Elem.encode (t : Elem) (g : Round) (v : Val) : Nat × Exc :=
  match t with
  | .int sg w => intEncode sg w g v
  | .flt f => f.encode g v
  | .mxi => mxiEncode g v

/-! ### Exact arithmetic (R86, R90) -/

def sn (v : Val) : Exc := excIf v.isSnan excInv

def Val.neg : Val → Val
  | .nan s => .nan s
  | .inf n => .inf (!n)
  | .num n m e => .num (!n) m e

/-- The signed mantissa at an exponent no higher than the number's. -/
def Val.at (v : Val) (e : Int) : Int :=
  match v with
  | .num n m x => let y : Int := (m * 2 ^ (x - e).toNat : Nat); if n then -y else y
  | _ => 0

def Val.expOf : Val → Int
  | .num _ _ e => e
  | _ => 0

/-- The exact sum of two values, with the sign of zero of IEEE 754-2019 under mode `m`. -/
def Val.add (m : RMode) (a b : Val) : Val × Exc :=
  match a, b with
  | .nan _, _ => (.nan false, 0)
  | _, .nan _ => (.nan false, 0)
  | .inf x, .inf y => if x == y then (.inf x, 0) else (.nan false, excInv)
  | .inf x, _ => (.inf x, 0)
  | _, .inf y => (.inf y, 0)
  | .num nx mx ex, .num ny my ey =>
    if mx == 0 && my == 0 then (.num (if nx == ny then nx else m == .rdn) 0 0, 0)
    else if mx == 0 then (b, 0)
    else if my == 0 then (a, 0)
    else
      let e := min ex ey
      let z := a.at e + b.at e
      if z == 0 then (.num (m == .rdn) 0 0, 0) else (.num (z < 0) z.natAbs e, 0)

/-- The exact product of two values. -/
def Val.mul (a b : Val) : Val × Exc :=
  match a, b with
  | .nan _, _ => (.nan false, 0)
  | _, .nan _ => (.nan false, 0)
  | .inf x, y => if y.isZero then (.nan false, excInv) else (.inf (x != y.isNeg), 0)
  | x, .inf y => if x.isZero then (.nan false, excInv) else (.inf (y != x.isNeg), 0)
  | .num nx mx ex, .num ny my ey => (.num (nx != ny) (mx * my) (ex + ey), 0)

/-- The value times 2^k. -/
def Val.scale (v : Val) (k : Int) : Val :=
  match v with
  | .num n m e => .num n m (e + k)
  | v => v

/-- exactsum of R245 (R86). -/
def exactSum (ts : List Val) : Val × Exc :=
  let pos := ts.contains (.inf false)
  let neg := ts.contains (.inf true)
  if pos && neg then (.nan false, excInv)
  else if ts.any Val.isNan then (.nan false, 0)
  else
    if pos then (.inf false, 0)
    else if neg then (.inf true, 0)
    else
      let e := ts.foldl (fun e v => if v.isZero then e else min e v.expOf) 0
      let z := ts.foldl (fun z v => if v.isZero then z else z + v.at e) (0 : Int)
      if z == 0 then (.num (ts.all fun v => v.isNeg && v.isZero) 0 0, 0) else (.num (z < 0) z.natAbs e, 0)

/-- fma of R245: one rounding; FINV for 0 × ∞ even when c is NaN (R90). -/
def Fmt.fma (f : Fmt) (g : Round) (a b c : Val) : Nat × Exc :=
  let p := a.mul b
  let t := p.1.add g.mode c
  let r := f.encode g t.1
  (r.1, sn a ||| sn b ||| sn c ||| p.2 ||| t.2 ||| r.2)

/-! ### Quotients and roots -/

/-- The integer square root: `n` bits of the root from the top. -/
def isqrtBits (x : Nat) : Nat → Nat → Nat
  | 0, r => r
  | n + 1, r =>
    let t := r + 2 ^ n
    isqrtBits x n (if t * t ≤ x then t else r)

def isqrt (x : Nat) : Nat := isqrtBits x (Nat.log2 x / 2 + 1) 0

/-- A nonnegative magnitude given by a floor and whether anything was cut: the cut part stands as one bit below the floor. -/
def sticky (neg : Bool) (m : Nat) (cut : Bool) (e : Int) : Val := .num neg (2 * m + bit cut) (e - 1)

/-- man/den × 2^e with at least 70 significant bits. -/
def quot (neg : Bool) (man den : Nat) (e : Int) : Val :=
  let k := Nat.log2 den + 72
  let n := man * 2 ^ k
  sticky neg (n / den) (n % den != 0) (e - k)

/-- A number whose exponent is even. -/
def evenExp (man : Nat) (e : Int) : Nat × Int := if e % 2 == 0 then (man, e) else (2 * man, e - 1)

/-- The square root of man × 2^e, with at least 70 significant bits. -/
def root (man : Nat) (e : Int) : Val :=
  let x := evenExp man e
  let n := x.1 * 2 ^ 144
  let r := isqrt n
  sticky false r (r * r != n) (x.2 / 2 - 72)

/-- The reciprocal square root of man × 2^e. -/
def recipRoot (man : Nat) (e : Int) : Val :=
  let x := evenExp man e
  let k := Nat.log2 x.1 + 72
  let n := 2 ^ (2 * k)
  let r := isqrt (n / x.1)
  sticky false r (r * r * x.1 != n) (-(k : Int) - x.2 / 2)

/-! ### 2^a and log2 a (R285, R286) -/

/-- The product of the roots 2^(2^-i) of the fraction bits that are set, at scale 2^-p; `f` holds the fraction's bits left
to take, its next bit at `t - 1`. Each step loses less than four units. -/
def exp2Frac (p : Nat) (f : Nat) : Nat → Nat → Nat → Nat
  | 0, _, y => y
  | t + 1, r, y =>
    let r1 := isqrt (r * 2 ^ p)
    exp2Frac p f t r1 (if f.testBit t then y * r1 / 2 ^ p else y)

/-- 2^(f/2^t) for 0 < f < 2^t, as a floor with a cut part: `g` low bits are guarded, and a wider try is made when they do not
decide. The value is irrational, so it is never a floor itself. -/
def exp2Try (f t : Nat) : List Nat → Val
  | [] => .num false 1 0
  | p :: ps =>
    let y := exp2Frac p f t (2 * 2 ^ p) (2 ^ p)
    let g := 2 ^ 40
    if y / g == (y + 8 * (t + 1)) / g || ps.isEmpty then sticky false (y / g) true (40 - (p : Int)) else exp2Try f t ps

/-- 2^a for a number a (R285): exact for an integer; near zero it stands beside 1; far out it is past every format. -/
def exp2 (neg : Bool) (man : Nat) (e : Int) : Val :=
  if man == 0 then .num false 1 0
  else
    let top := (Nat.log2 man : Int) + e
    if top > 13 then (if neg then .num false 3 (-5000) else .num false 3 5000)
    else if top < -80 then (if neg then sticky false (2 ^ 80 - 1) true (-80) else sticky false (2 ^ 80) true (-80))
    else if 0 ≤ e || man % 2 ^ (-e).toNat == 0 then
      let n : Int := if 0 ≤ e then (man * 2 ^ e.toNat : Nat) else (man / 2 ^ (-e).toNat : Nat)
      .num false 1 (if neg then -n else n)
    else
      let t := (-e).toNat
      let x : Int := if neg then -(man : Int) else man
      let n := x / (2 ^ t : Nat)
      let f := (x % (2 ^ t : Nat)).toNat
      (exp2Try f t [200, 260, 340, 440]).scale n

/-- The bits of log2 y for y in [1, 2) at scale 2^-p, by squaring; `up` rounds every square up. -/
def logBits (p : Nat) (up : Bool) : Nat → Nat → Nat → Nat
  | 0, _, l => l
  | n + 1, y, l =>
    let z := (y * y + (if up then 2 ^ p - 1 else 0)) / 2 ^ p
    if z ≥ 2 ^ (p + 1) then logBits p up n ((z + bit up) / 2) (2 * l + 1) else logBits p up n z (2 * l)

/-- log2 of m/2^k in (1, 2), as the floor at scale 2^-n of a value that is no floor itself. -/
def logTry (m k : Nat) : List Nat → Nat × Nat
  | [] => (0, 0)
  | n :: ns =>
    let p := 2 * n + 40
    let y := m * 2 ^ p / 2 ^ k
    let lo := logBits p false n y 0
    let hi := logBits p true n (y + 1) 0
    if lo == hi || ns.isEmpty then (lo, n) else logTry m k ns

/-- log2 of a positive number. -/
def log2Val (man : Nat) (e : Int) : Val :=
  let k := Nat.log2 man
  let x := e + k
  if man == 2 ^ k then .ofInt x
  else
    let l := logTry man k [160, 200, 260]
    let n : Int := (2 ^ l.2 : Nat)
    if 0 ≤ x then sticky false (x.toNat * 2 ^ l.2 + l.1) true (-(l.2 : Int))
    else sticky true (-(x * n) - l.1 - 1).toNat true (-(l.2 : Int))

/-! ### Operations on codes of one format -/

/-- An operation's result rounded into its format, with the FINV of its signalling operands (R69). -/
def Fmt.finish (f : Fmt) (g : Round) (args : List Val) (r : Val × Exc) : Nat × Exc :=
  let x := f.encode g r.1
  (x.1, args.foldl (fun e v => e ||| sn v) 0 ||| r.2 ||| x.2)

def Fmt.addOp (f : Fmt) (g : Round) (a b : Val) : Nat × Exc := f.finish g [a, b] (a.add g.mode b)

def Fmt.mulOp (f : Fmt) (g : Round) (a b : Val) : Nat × Exc := f.finish g [a, b] (a.mul b)

/-- a ÷ b (R74, R285). -/
def divVal (a b : Val) : Val × Exc :=
  match a, b with
  | .nan _, _ => (.nan false, 0)
  | _, .nan _ => (.nan false, 0)
  | .inf x, .inf _ => (.nan x, excInv)
  | .inf x, y => (.inf (x != y.isNeg), 0)
  | x, .inf y => (.num (y != x.isNeg) 0 0, 0)
  | .num nx mx ex, .num ny my ey =>
    if my == 0 then (if mx == 0 then (.nan false, excInv) else (.inf (nx != ny), excDz))
    else if mx == 0 then (.num (nx != ny) 0 0, 0)
    else (quot (nx != ny) mx my (ex - ey), 0)

def Fmt.divOp (f : Fmt) (g : Round) (a b : Val) : Nat × Exc := f.finish g [a, b] (divVal a b)

/-- √a; √−0 is −0 (R285). -/
def sqrtVal (a : Val) : Val × Exc :=
  match a with
  | .nan _ => (.nan false, 0)
  | .inf n => if n then (.nan false, excInv) else (.inf false, 0)
  | .num n m e => if m == 0 then (.num n 0 0, 0) else if n then (.nan false, excInv) else (root m e, 0)

/-- 1 ÷ √a (R286). -/
def rsqVal (a : Val) : Val × Exc :=
  match a with
  | .nan _ => (.nan false, 0)
  | .inf n => if n then (.nan false, excInv) else (.num false 0 0, 0)
  | .num n m e =>
    if m == 0 then (.inf n, excDz) else if n then (.nan false, excInv) else (recipRoot m e, 0)

/-- 2^a (R286). -/
def exp2Val (a : Val) : Val × Exc :=
  match a with
  | .nan _ => (.nan false, 0)
  | .inf n => (if n then .num false 0 0 else .inf false, 0)
  | .num n m e => (exp2 n m e, 0)

/-- log2 a (R286). -/
def logVal (a : Val) : Val × Exc :=
  match a with
  | .nan _ => (.nan false, 0)
  | .inf n => if n then (.nan false, excInv) else (.inf false, 0)
  | .num n m e =>
    if m == 0 then (.inf true, excDz) else if n then (.nan false, excInv) else (log2Val m e, 0)

/-- Whether number a is less than number b; −0 equals +0. -/
def Val.lt (a b : Val) : Bool :=
  match a, b with
  | .nan _, _ => false
  | _, .nan _ => false
  | .inf x, .inf y => x && !y
  | .inf x, _ => x
  | _, .inf y => !y
  | .num _ _ ex, .num _ _ ey => let e := min ex ey; decide (a.at e < b.at e)

def Val.same (a b : Val) : Bool := !a.isNan && !b.isNan && !a.lt b && !b.lt a

/-- vfmin and vfmax on codes (R287): −0 is less than +0; one NaN gives the other operand; two give the canonical NaN. -/
def Fmt.minmax (f : Fmt) (wantMax : Bool) (ca cb : Nat) : Nat × Exc :=
  let a := f.value ca
  let b := f.value cb
  let e := sn a ||| sn b
  if a.isNan && b.isNan then (f.canon, e)
  else if a.isNan then (cb, e)
  else if b.isNan then (ca, e)
  else
    let less := a.lt b || (a.same b && a.isNeg && !b.isNeg)
    (if less == wantMax then cb else ca, e)

/-- The conditions of vfcmp (R288): CND 0 to 7. -/
def fcmp (cnd : Nat) (a b : Val) : Bool × Exc :=
  let un := a.isNan || b.isNan
  let quiet := excIf (a.isSnan || b.isSnan) excInv
  let loud := excIf un excInv
  match cnd with
  | 0 => (a.same b, quiet)
  | 1 => (!a.same b, quiet)
  | 2 => (a.lt b, loud)
  | 3 => (!un && !b.lt a, loud)
  | 4 => (b.lt a, loud)
  | 5 => (!un && !a.lt b, loud)
  | 6 => (un, quiet)
  | _ => (!un, quiet)

/-- vfclass (R289). -/
def Fmt.classOf (f : Fmt) (code : Nat) : Nat :=
  let e := code / 2 ^ f.fb % 2 ^ f.eb
  match f.value code with
  | .nan s => if s then 2 ^ 8 else 2 ^ 9
  | .inf n => if n then 1 else 2 ^ 7
  | .num n m _ =>
    if m == 0 then (if n then 2 ^ 3 else 2 ^ 4)
    else if e == 0 then (if n then 2 ^ 2 else 2 ^ 5)
    else if n then 2 else 2 ^ 6

/-- vfrnd (R289): an integral value in its own format, without FINX. -/
def Fmt.rnd (f : Fmt) (m : RMode) (v : Val) : Nat × Exc :=
  match v with
  | .num n mn e =>
    if mn == 0 then (if n then f.signBit else 0, 0)
    else (f.encode { mode := m } (.num n (roundTo m n mn e 0).1 0)).map id (· &&& ~~~excInx)
  | v => let r := f.encode { mode := m } v; (r.1, sn v ||| r.2)

end Sys2Proof.Machine
end

