-- ==== Sys2Proof/Machine/Operands.lean ====
section
/-! DEFINITION. The operands of a lane instruction (R238, R59, R99, R103-R105), the value of a register that distances do not
cover (R50, R243), and the issue of an instruction with its result (R49, R242, R278). -/
namespace Sys2Proof.Machine

/-! ### The clause at the head -/

/-- The clause whose instruction issues. -/
def State.clause (s : State) : Clause := s.me.queue.headD {}

/-- The mask under which an instruction runs: the clause mask and LIVE at its issue (R329). -/
def State.lmask (s : State) : Mask := s.clause.mask &&& s.myPhr.live

/-- The address of instruction `i` of a clause (R236). -/
def Clause.instrAddr (c : Clause) (i : Nat) : Word := c.addr + wordOf (12 * i)

/-- The clause that performs one instruction again (R279, R307). -/
def Clause.redo (c : Clause) : Clause := { c with again := true, last := c.next, mask := c.whole.getD c.mask, whole := none }

/-- The flag that FB binds (R240). -/
def Clause.flagOf (c : Clause) (fb : FlagBind) : Option (Fin 12) :=
  match fb, c.header with
  | .seta, some h => h.seta
  | .setb, some h => h.setb
  | _, _ => none

/-- The format slot that FSI names (R79). -/
def State.slotDesc (s : State) (f : LaneFields) : BitVec 32 := nth 0 s.myPhr.fsl f.fsi.toNat

/-! ### Fields of a format descriptor (R79) -/

def slotXsc (d : BitVec 32) : Int := sext (field d 24 8) 8
def slotFlush (d : BitVec 32) : Bool := d.getLsbD 23
def slotSat (d : BitVec 32) : Bool := d.getLsbD 22
def slotRmode (d : BitVec 32) : Nat := field d 19 3
def slotPack (d : BitVec 32) : Nat := field d 17 2
def slotBlk (d : BitVec 32) : Nat := field d 15 2
def slotStype (d : BitVec 32) : Nat := field d 13 2
def slotEtype (d : BitVec 32) : Nat := field d 0 5

/-- What a slot governs: its mode, SAT and FLUSH (R79). -/
def slotRound (d : BitVec 32) : Round := { mode := rmodeOf (slotRmode d), sat := slotSat d, flush := slotFlush d }

/-- A valid descriptor (R81). -/
def slotValid (d : BitVec 32) : Bool :=
  slotEtype d ≤ 0x11 && slotRmode d ≤ 4 && slotPack d != 3 && field d 5 8 == 0 &&
  slotBlk d ≤ 1 && slotBlk d == slotStype d && (slotEtype d ≥ 0x0C || slotBlk d == 0) &&
  (slotPack d != 2 || (0x08 ≤ slotEtype d && slotEtype d ≤ 0x11))

/-! ### Types -/

/-- The code of a TYPE other than the slot's (R239). -/
def ltypeCode : LType → Nat
  | .i8 => 0 | .i16 => 1 | .i32 => 2 | .i64 => 3 | .u8 => 4 | .u16 => 5 | .u32 => 6 | .u64 => 7
  | .f16 => 8 | .bf16 => 9 | .f32 => 10 | .f64 => 11 | .slot => 12

def ltypeElem (t : LType) : Elem := (elemOf (ltypeCode t)).getD (.int false 32)

def ltypeSigned : LType → Bool
  | .i8 | .i16 | .i32 | .i64 => true
  | _ => false

/-- The floating format of a TYPE (R239). -/
def ltypeFmt : LType → Fmt
  | .f16 => fmtF16 | .bf16 => fmtBf16 | .f64 => fmtF64
  | _ => fmtF32

/-- An integer of a type from its bits (R58). -/
def typed (t : LType) (x : Nat) : Int := if ltypeSigned t then sext x (LType.bits t) else (x % 2 ^ LType.bits t : Nat)

/-- The broadcast immediate of a type (R238). -/
def immVal (t : LType) (imm : BitVec 32) : Nat :=
  match t with
  | .i64 => wrap (sext imm.toNat 32) 64
  | .f64 => imm.toNat * 2 ^ 32
  | t => imm.toNat % 2 ^ LType.bits t

/-! ### Registers -/

/-- Lane `l` of register `v` as an instruction of the current phrase reads it: where results that are issued and not yet
written reach it, each is seen or not (R50, R243). -/
def State.vreg (s : State) (v l : Nat) : Nat :=
  let p := phraseOf s.cur
  s.results.foldl (fun x r =>
    if phraseOf r.frag == p then
      match r.writes.find? fun w => w.1 == 32 * v + l with
      | some w => if Config.seesNew s.draws (32 * (512 * r.id + v) + l) then w.2.toNat else x
      | none => x
    else x) (s.myPhr.lane v l).toNat

/-- A 64-bit value from an even register and the next (R59). -/
def State.vpair (s : State) (v l : Nat) : Nat := s.vreg v l + 2 ^ 32 * s.vreg (v + 1) l

/-! ### The queue window (R103) -/

/-- The main phrase of a pair. -/
def State.mainOf (s : State) (p : Nat) : Nat := if (s.phr p).isAux then ((s.phr p).mate).getD p else p

/-- The ring that a phrase reads as q.in. -/
def State.ringIn (s : State) (p : Nat) : List RingEntry :=
  let m := s.phr (s.mainOf p)
  if (s.phr p).isAux then m.ringMA else m.ringAM

/-- The ring that it writes as q.out. -/
def State.ringOut (s : State) (p : Nat) : List RingEntry :=
  let m := s.phr (s.mainOf p)
  if (s.phr p).isAux then m.ringAM else m.ringMA

def State.setRingIn (s : State) (p : Nat) (r : List RingEntry) : State :=
  s.updPhr (s.mainOf p) fun m => if (s.phr p).isAux then { m with ringMA := r } else { m with ringAM := r }

def State.setRingOut (s : State) (p : Nat) (r : List RingEntry) : State :=
  s.updPhr (s.mainOf p) fun m => if (s.phr p).isAux then { m with ringAM := r } else { m with ringMA := r }

/-- An entry can be popped from the cycle after its value was written (R103). -/
def RingEntry.ready (e : RingEntry) (cycle : Nat) : Bool :=
  match e.since with
  | some c => c < cycle
  | none => false

/-! ### Source operands -/

def opIsQIn (o : Operand) : Bool := o == .qIn
def popsRing (f : LaneFields) : Bool := f.va == .qIn || f.vb == .qIn || f.vc == .qIn
def pushesRing (f : LaneFields) : Bool := f.vd == .qOut

/-- The value in lane `l` of a source of `w` bits (opread of R245). -/
def State.src (s : State) (f : LaneFields) (o : Operand) (w l : Nat) : Nat :=
  let c := s.clause
  match o with
  | .v n => if w == 64 then s.vpair n.toNat l else s.vreg n.toNat l % 2 ^ w
  | .qIn => (nth 0 ((s.ringIn (phraseOf s.cur)).headD { id := 0 }).vals l).toNat % 2 ^ w
  | .c n => (match n.toNat with | 0 => c.c0 | 1 => c.c1 | 2 => c.c2 | _ => c.c3).toNat % 2 ^ w
  | .laneid => l
  | .imm => immVal f.ty f.imm % 2 ^ w
  | _ => 0

/-- The sources of an instruction at the width of its TYPE. -/
def State.srcA (s : State) (f : LaneFields) (l : Nat) : Nat := s.src f f.va (LType.bits f.ty) l
def State.srcB (s : State) (f : LaneFields) (l : Nat) : Nat := s.src f f.vb (LType.bits f.ty) l
def State.srcC (s : State) (f : LaneFields) (l : Nat) : Nat := s.src f f.vc (LType.bits f.ty) l

/-- A source of a cross-lane read: an exited or absent lane gives zero (R296). -/
def State.across (s : State) (f : LaneFields) (o : Operand) (w j : Nat) : Nat :=
  if s.myPhr.live.getLsbD j then s.src f o w j else 0

/-! ### Destinations -/

/-- A value of a type as it stands in one 32-bit register (R59, R291). -/
def regImage (t : LType) (x : Nat) : Half :=
  let w := LType.bits t
  BitVec.ofNat 32 (if ltypeSigned t && w < 32 then wrap (sext x w) 32 else x % 2 ^ w)

/-- The writes of one lane's value of a type to register `v`: one register, or a pair (R59, R99). -/
def laneWrites (t : LType) (v l x : Nat) : List (Nat × Half) :=
  if LType.bits t == 64 then
    [(32 * v + l, BitVec.ofNat 32 x), (32 * (v + 1) + l, BitVec.ofNat 32 (x / 2 ^ 32))]
  else [(32 * v + l, regImage t x)]

/-! ### Issue -/

/-- The head clause after the issue of one instruction: its index goes on, and it leaves with its last (R167). -/
def Frag.laneAdv (f : Frag) (cycle : Nat) : Frag :=
  let q := match f.queue with
    | [] => []
    | c :: cs => if c.next ≥ c.last then cs else { c with next := c.next + 1 } :: cs
  { f with queue := q, lastIss := cycle }

/-- The window at an instruction's issue: one entry is popped if a source names q.in, and one is reserved if the destination
is q.out (R103, R278). An instruction that seret performs again issues again, and so pops or pushes again (DESIGN CHOICE, log 72). -/
def State.window (s : State) (f : LaneFields) : State :=
  let p := phraseOf s.cur
  let s1 := if popsRing f then s.setRingIn p (s.ringIn p).tail else s
  if pushesRing f then s1.setRingOut p (s1.ringOut p ++ [{ id := s.nextId }]) else s1

/-- A lane instruction has issued: the window moves, the clause goes on, and a value that reads may have drawn is spent. -/
def State.laneIssued (s : State) (f : LaneFields) : State :=
  let s1 := (s.window f).updMe fun g => g.laneAdv s.cycle
  if s.results.isEmpty then s1.bump else s1.bump.drawn

/-- What one lane of an instruction computes: its value, a second value (a carry), exception bits, and whether it faults. -/
structure LaneOut where
  val   : Nat
  carry : Nat := 0
  exc   : Exc := 0
  bad   : Bool := false
  deriving DecidableEq, Repr

/-- The lanes of a mask that fault: by a zero divisor, or by an exception that TRAPEN enables (R62, R75). -/
def faulters (trapen : BitVec 32) (ls : List Nat) (out : Nat → LaneOut) : List Nat :=
  ls.filter fun l => (out l).bad || excTraps trapen (out l).exc

/-- The fault of the faulting lanes, whose datum is that of the lowest (R62, R75). -/
def State.arithFault (s : State) (c : Cause) (bad : List Nat) (datum : Nat → Word) : Option LaneFault :=
  match bad with
  | [] => none
  | l :: _ =>
    let q := s.clause
    some (runFault s.nextId (q.instrAddr q.next) q.redo c 0 (maskOf bad) (datum l))

/-- The exception bits of the lanes that do not fault. -/
def excOf (ls : List Nat) (out : Nat → LaneOut) : Exc := ls.foldl (fun e l => e ||| (out l).exc) 0

/-- The value that a lane of a ring entry takes: zero outside the mask (R103); in a lane that faulted, whose entry the manual
leaves open, a free value (log 12). -/
def State.ringVals (s : State) (m : Mask) (ls : List Nat) (t : LType) (out : Nat → LaneOut) : List Half :=
  (List.range 32).map fun l =>
    if ls.contains l then regImage t (out l).val
    else if m.getLsbD l then (Config.freeWord (32 * s.nextId + l)).setWidth 32 else 0

/-- An instruction with a lane or window destination of fixed latency `lat` issues (R278): `t` is the type of its result, and
`more` gives further register writes of a lane. -/
def State.laneResult (s : State) (f : LaneFields) (lat : Nat) (t : LType) (c : Cause) (datum : Nat → Word)
    (out : Nat → LaneOut) (more : Nat → List (Nat × Half)) : State :=
  let q := s.clause
  let m := s.lmask
  let bad := faulters q.trapen (lanesOf m) out
  let good := (lanesOf m).filter fun l => !bad.contains l
  let writes := match f.vd with
    | .v n => good.flatMap fun l => laneWrites t n.toNat l (out l).val ++ more l
    | _ => good.flatMap more
  let r : LaneRes := { id := s.nextId, frag := s.cur, due := s.cycle + lat, clause := q.num, writes := writes
                       ring := if pushesRing f then some (s.ringVals m good t out) else none
                       flag := q.flagOf f.fb, status := (excOf good out).setWidth 32
                       fault := s.arithFault c bad datum }
  let s1 := s.laneIssued f
  { s1 with results := s1.results ++ [r] }

/-- A latency of R242: the longer figure with 64-bit operands or results. -/
def latOf (wide : Bool) (a b : Nat) : Nat := if wide then b else a

def isWide (f : LaneFields) : Bool := LType.bits f.ty == 64

/-- A class-V instruction with a scalar destination issues (R302); its value comes with its completion. -/
def State.scalarResult (s : State) (f : LaneFields) (v : Word) (status : Exc) (fault : Option LaneFault) : State :=
  let q := s.clause
  let dst := match f.vd, fault with
    | .s r, none => some (r, v)
    | _, _ => none
  let r : LaneRes := { id := s.nextId, frag := s.cur, due := 0, clause := q.num, writes := [], scalar := dst
                       flag := q.flagOf f.fb, status := status.setWidth 32, fault := fault }
  let s1 := s.laneIssued f
  { s1 with results := s1.results ++ [r] }

/-! ### The write of a result (R243, R302) -/

def putLanes (p : Phrase) (ws : List (Nat × Half)) : Phrase :=
  { p with lanes := ws.foldl (fun t w => tput w.1 w.2 t) p.lanes }

/-- The reserved entry of the outgoing ring takes its value (R278). -/
def State.fillRing (s : State) (p id : Nat) (vals : List Half) : State :=
  s.setRingOut p ((s.ringOut p).map fun e => if e.id == id then { e with since := some s.cycle, vals := vals } else e)

/-- A result is written: registers, ring entry, STATUS bits, and then its fault (R62, R75, R278). -/
def State.finishResult (s : State) (r : LaneRes) : State :=
  let p := phraseOf r.frag
  let s1 := ({ s with results := s.results.filter fun x => x.id != r.id }).updPhr p fun q => putLanes q r.writes
  let s2 := match r.ring with
    | some vs => s1.fillRing p r.id vs
    | none => s1
  let s3 := match r.scalar with
    | some (d, v) => if (s2.frag r.frag).live then s2.updFrag r.frag fun f => f.setReg d v else s2
    | none => s2
  let s4 := if r.status == 0 then s3 else s3.setStatus p r.status
  match r.fault with
  | some x => if (s4.frag r.frag).live then (s4.addFault r.frag x).settle r.frag else s4
  | none => if (s4.frag r.frag).live then s4.settle r.frag else s4

def State.completeResult (s : State) (id : Nat) : State :=
  match s.results.find? fun r => r.id == id with
  | some r => s.finishResult r
  | none => s

end Sys2Proof.Machine
end

