-- ==== Sys2Proof/Machine/ScalarAlu.lean ====
section
/-! DEFINITION. Scalar arithmetic and logic (R252-R257). -/
namespace Sys2Proof.Machine

/-- The high 64 bits of an exact product (R252). -/
def mulHigh (a b : Int) : Word := BitVec.ofInt 64 (a * b / 2 ^ 64)

/-- A shift count: bits 5:0 (R252). -/
def count64 (b : Word) : Nat := b.toNat % 64

/-- The immediate of R256. -/
def simm (imm : BitVec 12) : Word := imm.signExtend 64

/-- TRAPEN.DIVZ of the issuing phrase (R117). -/
def State.divzOn (s : State) : Bool := s.myPhr.trapen.getLsbD 6

/-- Quotient and remainder of R61 at width `w`: a zero divisor gives the bounds, and mins by -1 gives mins and 0. -/
def divRem (signed : Bool) (w a b : Nat) : Nat × Nat :=
  if signed then
    let x := sext a w
    let y := sext b w
    if y == 0 then (if x < 0 then 2 ^ (w - 1) else 2 ^ (w - 1) - 1, a % 2 ^ w)
    else (wrap (x.tdiv y) w, wrap (x.tmod y) w)
  else if b % 2 ^ w == 0 then (2 ^ w - 1, a % 2 ^ w)
  else (a % 2 ^ w / (b % 2 ^ w), a % 2 ^ w % (b % 2 ^ w))

/-- A scalar division: DIVZ on a zero divisor when TRAPEN.DIVZ is set, else the results of R61 (R62, R255). -/
def divide (s : State) (sd : SReg) (a b : Word) (signed rem : Bool) : Out :=
  if b == 0 && s.divzOn then s.fault .divz 0 a
  else
    let qr := divRem signed 64 a.toNat b.toNat
    putNext sd (wordOf (if rem then qr.2 else qr.1)) s

/-- R252: the wrapped sum. -/
def execSadd (sd sa sb : SReg) (s : State) : Out := putNext sd (s.r sa + s.r sb) s

/-- R252: the wrapped difference. -/
def execSsub (sd sa sb : SReg) (s : State) : Out := putNext sd (s.r sa - s.r sb) s

/-- R252: the low half of the product. -/
def execSmul (sd sa sb : SReg) (s : State) : Out := putNext sd (s.r sa * s.r sb) s

/-- R252: the high half of the signed product. -/
def execSmulh (sd sa sb : SReg) (s : State) : Out := putNext sd (mulHigh (s.r sa).toInt (s.r sb).toInt) s

/-- R252: the high half of the unsigned product. -/
def execSmulhu (sd sa sb : SReg) (s : State) : Out := putNext sd (mulHigh (s.r sa).toNat (s.r sb).toNat) s

/-- R252: AND. -/
def execSand (sd sa sb : SReg) (s : State) : Out := putNext sd (s.r sa &&& s.r sb) s

/-- R252: OR. -/
def execSor (sd sa sb : SReg) (s : State) : Out := putNext sd (s.r sa ||| s.r sb) s

/-- R252: XOR. -/
def execSxor (sd sa sb : SReg) (s : State) : Out := putNext sd (s.r sa ^^^ s.r sb) s

/-- R252: a AND NOT b. -/
def execSandn (sd sa sb : SReg) (s : State) : Out := putNext sd (s.r sa &&& ~~~ s.r sb) s

/-- R252: left shift by b[5:0]. -/
def execSshl (sd sa sb : SReg) (s : State) : Out := putNext sd (s.r sa <<< count64 (s.r sb)) s

/-- R252: logical right shift by b[5:0]. -/
def execSshr (sd sa sb : SReg) (s : State) : Out := putNext sd (s.r sa >>> count64 (s.r sb)) s

/-- R252: arithmetic right shift by b[5:0]. -/
def execSsra (sd sa sb : SReg) (s : State) : Out := putNext sd ((s.r sa).sshiftRight (count64 (s.r sb))) s

/-- R252: the signed lesser. -/
def execSmin (sd sa sb : SReg) (s : State) : Out := putNext sd (if (s.r sa).slt (s.r sb) then s.r sa else s.r sb) s

/-- R252: the unsigned lesser. -/
def execSminu (sd sa sb : SReg) (s : State) : Out := putNext sd (if (s.r sa).ult (s.r sb) then s.r sa else s.r sb) s

/-- R252: the signed greater. -/
def execSmax (sd sa sb : SReg) (s : State) : Out := putNext sd (if (s.r sa).slt (s.r sb) then s.r sb else s.r sa) s

/-- R252: the unsigned greater. -/
def execSmaxu (sd sa sb : SReg) (s : State) : Out := putNext sd (if (s.r sa).ult (s.r sb) then s.r sb else s.r sa) s

/-- R255: signed quotient under R61; DIVZ on a zero divisor when enabled. -/
def execSdiv (sd sa sb : SReg) (s : State) : Out := divide s sd (s.r sa) (s.r sb) true false

/-- R255: unsigned quotient under R61; DIVZ on a zero divisor when enabled. -/
def execSdivu (sd sa sb : SReg) (s : State) : Out := divide s sd (s.r sa) (s.r sb) false false

/-- R255: signed remainder under R61; DIVZ on a zero divisor when enabled. -/
def execSrem (sd sa sb : SReg) (s : State) : Out := divide s sd (s.r sa) (s.r sb) true true

/-- R255: unsigned remainder under R61; DIVZ on a zero divisor when enabled. -/
def execSremu (sd sa sb : SReg) (s : State) : Out := divide s sd (s.r sa) (s.r sb) false true

/-- R253: leading zero bits. -/
def execSclz (sd sa : SReg) (s : State) : Out := putNext sd (wordOf (clz (s.r sa).toNat 64)) s

/-- R253: trailing zero bits. -/
def execSctz (sd sa : SReg) (s : State) : Out := putNext sd (wordOf (ctz (s.r sa).toNat 64)) s

/-- R253: one bits. -/
def execSpopc (sd sa : SReg) (s : State) : Out := putNext sd (wordOf (popCount (s.r sa).toNat 64)) s

/-- R253: reversed bits. -/
def execSbrev (sd sa : SReg) (s : State) : Out := putNext sd (wordOf (bitRev (s.r sa).toNat 64)) s

/-- R253: a zero-extended field; `len` holds the length less 1. -/
def execSbfx (sd sa : SReg) (pos len : BitVec 6) (s : State) : Out := putNext sd (wordOf (field (s.r sa) pos.toNat (len.toNat + 1))) s

/-- R253: the low bits of a inserted as a field; `len` holds the length less 1. -/
def execSbfi (sd sa : SReg) (pos len : BitVec 6) (s : State) : Out := putNext sd (setField (s.r sd) pos.toNat (len.toNat + 1) (s.r sa).toNat) s

/-- R254: 1 when a = b, else 0. -/
def execSseq (sd sa sb : SReg) (s : State) : Out := putNext sd (wordOf (bit (s.r sa == s.r sb))) s

/-- R254: 1 when a ≠ b, else 0. -/
def execSsne (sd sa sb : SReg) (s : State) : Out := putNext sd (wordOf (bit (s.r sa != s.r sb))) s

/-- R254: 1 when a < b, signed, else 0. -/
def execSslt (sd sa sb : SReg) (s : State) : Out := putNext sd (wordOf (bit ((s.r sa).slt (s.r sb)))) s

/-- R254: 1 when a < b, unsigned, else 0. -/
def execSsltu (sd sa sb : SReg) (s : State) : Out := putNext sd (wordOf (bit ((s.r sa).ult (s.r sb)))) s

/-- R254: 1 when a ≤ b, signed, else 0. -/
def execSsle (sd sa sb : SReg) (s : State) : Out := putNext sd (wordOf (bit ((s.r sa).sle (s.r sb)))) s

/-- R254: 1 when a ≤ b, unsigned, else 0. -/
def execSsleu (sd sa sb : SReg) (s : State) : Out := putNext sd (wordOf (bit ((s.r sa).ule (s.r sb)))) s

/-- R254: a when s[sc] is nonzero, else b. -/
def execSsel (sd sa sb sc : SReg) (s : State) : Out := putNext sd (if s.r sc != 0 then s.r sa else s.r sb) s

/-- R256: a + j. -/
def execSaddi (sd sa : SReg) (imm : BitVec 12) (s : State) : Out := putNext sd (s.r sa + simm imm) s

/-- R256: a AND j. -/
def execSandi (sd sa : SReg) (imm : BitVec 12) (s : State) : Out := putNext sd (s.r sa &&& simm imm) s

/-- R256: a OR j. -/
def execSori (sd sa : SReg) (imm : BitVec 12) (s : State) : Out := putNext sd (s.r sa ||| simm imm) s

/-- R256: a XOR j. -/
def execSxori (sd sa : SReg) (imm : BitVec 12) (s : State) : Out := putNext sd (s.r sa ^^^ simm imm) s

/-- R256: left shift by an immediate count. -/
def execSshli (sd sa : SReg) (sh : BitVec 6) (s : State) : Out := putNext sd (s.r sa <<< sh.toNat) s

/-- R256: logical right shift by an immediate count. -/
def execSshri (sd sa : SReg) (sh : BitVec 6) (s : State) : Out := putNext sd (s.r sa >>> sh.toNat) s

/-- R256: arithmetic right shift by an immediate count. -/
def execSsrai (sd sa : SReg) (sh : BitVec 6) (s : State) : Out := putNext sd ((s.r sa).sshiftRight sh.toNat) s

/-- R256: 1 when a < j, signed. -/
def execSslti (sd sa : SReg) (imm : BitVec 12) (s : State) : Out := putNext sd (wordOf (bit ((s.r sa).slt (simm imm)))) s

/-- R256: 1 when a < j, both read as unsigned. -/
def execSsltiu (sd sa : SReg) (imm : BitVec 12) (s : State) : Out := putNext sd (wordOf (bit ((s.r sa).ult (simm imm)))) s

/-- R257: the whole register. -/
def execSlimm0 (sd : SReg) (imm : BitVec 18) (s : State) : Out := putNext sd (imm.setWidth 64) s

/-- R257: bits 35:18 are replaced, the others kept. -/
def execSlimm1 (sd : SReg) (imm : BitVec 18) (s : State) : Out := putNext sd (setField (s.r sd) 18 18 imm.toNat) s

/-- R257: bits 53:36 are replaced, the others kept. -/
def execSlimm2 (sd : SReg) (imm : BitVec 18) (s : State) : Out := putNext sd (setField (s.r sd) 36 18 imm.toNat) s

/-- R257: bits 63:54 are replaced, the others kept. -/
def execSlimm3 (sd : SReg) (imm : BitVec 10) (s : State) : Out := putNext sd (setField (s.r sd) 54 10 imm.toNat) s

end Sys2Proof.Machine
end

