-- ==== Sys2Proof/Machine/LaneInt.lean ====
section
/-! DEFINITION. Lane integer instructions (R280-R284), moves and selection (R295), and the writes of lane results (R243, R302). -/
namespace Sys2Proof.Machine

/-- SAT of an integer instruction: MOD bit 5 (R240). -/
def satBit (f : LaneFields) : Bool := f.md.getLsbD 5

/-- An exact result reduced to a type: clamped with SAT, else wrapped (R60). -/
def fitInt (t : LType) (sat : Bool) (x : Int) : Nat :=
  let w := LType.bits t
  let lo : Int := if ltypeSigned t then -(2 ^ (w - 1) : Nat) else 0
  let hi : Int := if ltypeSigned t then (2 ^ (w - 1) : Nat) - 1 else (2 ^ w : Nat) - 1
  wrap (if sat then (if x < lo then lo else if x > hi then hi else x) else x) w

/-- A lane instruction without faults whose result has its own TYPE. -/
def State.lanePure (s : State) (f : LaneFields) (lat : Nat) (out : Nat → Nat) : Out :=
  .next (s.laneResult f lat f.ty .divz (fun _ => 0) (fun l => { val := out l }) fun _ => [])

/-- Class I2 and class I4 (R242). -/
def latI2 (f : LaneFields) : Nat := latOf (isWide f) 2 4
def latI4 (f : LaneFields) : Nat := latOf (isWide f) 4 8
def latD (f : LaneFields) : Nat := latOf (isWide f) 24 40

/-- An integer instruction over typed operands: the exact result is fitted to the type (R280, R281). -/
def State.laneInt (s : State) (f : LaneFields) (lat : Nat) (op : Int → Int → Int → Int) : Out :=
  s.lanePure f lat fun l =>
    fitInt f.ty (satBit f) (op (typed f.ty (s.srcA f l)) (typed f.ty (s.srcB f l)) (typed f.ty (s.srcC f l)))

/-- An integer instruction over bit patterns of `w` bits. -/
def State.laneBits (s : State) (f : LaneFields) (op : Nat → Nat → Nat → Nat) : Out :=
  let w := LType.bits f.ty
  s.lanePure f (latI2 f) fun l => op w (s.srcA f l) (s.srcB f l) % 2 ^ w

/-- R280: a + b. -/
def execVadd (f : LaneFields) (s : State) : Out := s.laneInt f (latI2 f) fun a b _ => a + b

/-- R280: a − b. -/
def execVsub (f : LaneFields) (s : State) : Out := s.laneInt f (latI2 f) fun a b _ => a - b

/-- R280: a × b. -/
def execVmul (f : LaneFields) (s : State) : Out := s.laneInt f (latI4 f) fun a b _ => a * b

/-- R280: the high half of the product. -/
def execVmulh (f : LaneFields) (s : State) : Out :=
  s.laneInt f (latI4 f) fun a b _ => a * b / (2 ^ LType.bits f.ty : Nat)

/-- R280: a × b + c. -/
def execVmad (f : LaneFields) (s : State) : Out := s.laneInt f (latI4 f) fun a b c => a * b + c

/-- Division and remainder of one lane (R61, R62). -/
def divLane (f : LaneFields) (rem divz : Bool) (a b : Nat) : LaneOut :=
  let w := LType.bits f.ty
  let qr := divRem (ltypeSigned f.ty) w a b
  { val := if rem then qr.2 else qr.1, bad := divz && b % 2 ^ w == 0 }

/-- The dividend of a faulter, extended to 64 bits (R62). -/
def dividend (f : LaneFields) (a : Nat) : Word := BitVec.ofInt 64 (typed f.ty a)

def State.laneDiv (s : State) (f : LaneFields) (rem : Bool) : Out :=
  .next (s.laneResult f (latD f) f.ty .divz (fun l => dividend f (s.srcA f l))
    (fun l => divLane f rem (s.clause.trapen.getLsbD 6) (s.srcA f l) (s.srcB f l)) fun _ => [])

/-- R61, R62: the quotient. -/
def execVdiv (f : LaneFields) (s : State) : Out := s.laneDiv f false

/-- R61, R62: the remainder. -/
def execVrem (f : LaneFields) (s : State) : Out := s.laneDiv f true

/-- R280: the lesser. -/
def execVmin (f : LaneFields) (s : State) : Out := s.laneInt f (latI2 f) fun a b _ => min a b

/-- R280: the greater. -/
def execVmax (f : LaneFields) (s : State) : Out := s.laneInt f (latI2 f) fun a b _ => max a b

/-- R280: the magnitude. -/
def execVabs (f : LaneFields) (s : State) : Out := s.laneInt f (latI2 f) fun a _ _ => a.natAbs

/-- R280: AND. -/
def execVand (f : LaneFields) (s : State) : Out := s.laneBits f fun _ a b => a &&& b

/-- R280: OR. -/
def execVor (f : LaneFields) (s : State) : Out := s.laneBits f fun _ a b => a ||| b

/-- R280: XOR. -/
def execVxor (f : LaneFields) (s : State) : Out := s.laneBits f fun _ a b => a ^^^ b

/-- R280: NOT. -/
def execVnot (f : LaneFields) (s : State) : Out := s.laneBits f fun w a _ => 2 ^ w - 1 - a

/-- R280, R281: a × 2^n; 0 when n ≥ w, also with SAT. -/
def execVshl (f : LaneFields) (s : State) : Out :=
  let w := LType.bits f.ty
  s.lanePure f (latI2 f) fun l =>
    fitInt f.ty (satBit f) (if s.srcB f l ≥ w then 0 else typed f.ty (s.srcA f l) * (2 ^ s.srcB f l : Nat))

/-- R280: logical shift right. -/
def execVshr (f : LaneFields) (s : State) : Out := s.laneBits f fun w a n => a >>> min n w

/-- R280: shift right filling with the top bit, whatever the signedness. -/
def execVsra (f : LaneFields) (s : State) : Out :=
  s.laneBits f fun w a n => wrap (sext a w / (2 ^ min n w : Nat)) w

/-- R280: rotate left. -/
def execVrot (f : LaneFields) (s : State) : Out :=
  s.laneBits f fun w a n => a <<< (n % w) + a >>> (w - n % w)

/-- R280: leading zeros. -/
def execVclz (f : LaneFields) (s : State) : Out := s.laneBits f fun w a _ => clz a w

/-- R280: one bits. -/
def execVpopc (f : LaneFields) (s : State) : Out := s.laneBits f fun w a _ => popCount a w

/-- R280: reversed bits. -/
def execVbrev (f : LaneFields) (s : State) : Out := s.laneBits f fun w a _ => bitRev a w

/-- R283: a field at a position per lane, extended by TYPE. -/
def execVbfx (f : LaneFields) (s : State) : Out :=
  s.lanePure f (latI2 f) fun l =>
    let len := f.imm.toNat
    let x := s.srcA f l >>> (s.srcB f l % 32) % 2 ^ len
    if ltypeSigned f.ty then wrap (sext x len) 32 else x

/-- Bits `pos` to `pos + len - 1` of a register replaced by the low bits of `a`; bits above 31 are not written (R283). -/
def insertBits (d a pos len : Nat) : Nat :=
  (List.range 32).foldl (fun x i =>
    x + (if (if pos ≤ i && i < pos + len then a.testBit (i - pos) else d.testBit i) then 2 ^ i else 0)) 0

/-- The old value of a destination that is read and written. -/
def State.oldDst (s : State) (f : LaneFields) (l : Nat) : Nat :=
  match f.vd with
  | .v n => s.vreg n.toNat l
  | _ => 0

/-- R283: a field is inserted at a position per lane. -/
def execVbfi (f : LaneFields) (s : State) : Out :=
  s.lanePure f (latI2 f) fun l => insertBits (s.oldDst f l) (s.srcA f l) (s.srcB f l % 32) f.imm.toNat

/-- The writes of a carry to the register that VC names; the odd register of a pair takes zero (R282). -/
def carryWrites (f : LaneFields) (l c : Nat) : List (Nat × Half) :=
  match f.vc with
  | .v n => laneWrites f.ty n.toNat l c
  | _ => []

def State.laneCarry (s : State) (f : LaneFields) (op : Int → Int → Int → Int) : Out :=
  let w := LType.bits f.ty
  let t (l : Nat) : Int := op (s.srcA f l) (s.srcB f l) (s.srcC f l % 2 : Nat)
  .next (s.laneResult f (latI2 f) f.ty .divz (fun _ => 0) (fun l => { val := wrap (t l) w })
    fun l => carryWrites f l (if t l < 0 || t l ≥ (2 ^ w : Nat) then 1 else 0))

/-- R282: add with carry. -/
def execVaddc (f : LaneFields) (s : State) : Out := s.laneCarry f fun a b c => a + b + c

/-- R282: subtract with borrow. -/
def execVsubb (f : LaneFields) (s : State) : Out := s.laneCarry f fun a b c => a - b - c

/-- The conditions of vcmp (R284): CND 0 to 5. -/
def icmp (cnd : Nat) (a b : Int) : Bool :=
  match cnd with
  | 0 => a == b
  | 1 => a != b
  | 2 => decide (a < b)
  | 3 => decide (a ≤ b)
  | 4 => decide (b < a)
  | _ => decide (b ≤ a)

def isScalarDst (f : LaneFields) : Bool := match f.vd with | .s _ => true | _ => false

/-- A mask of the lanes where a test holds, as a word (R284, R299). -/
def maskWord (ls : List Nat) (t : Nat → Bool) : Word := (maskOf (ls.filter t)).setWidth 64

/-- R284: compare into lanes, or into a scalar mask. -/
def execVcmp (f : LaneFields) (s : State) : Out :=
  let t (l : Nat) : Bool := icmp (f.md.toNat % 32) (typed f.ty (s.srcA f l)) (typed f.ty (s.srcB f l))
  if isScalarDst f then .next (s.scalarResult f (maskWord (lanesOf s.lmask) t) 0 none)
  else .next (s.laneResult f (latI2 f) .u32 .divz (fun _ => 0) (fun l => { val := bit (t l) }) fun _ => [])

/-- R295: a where c is not zero, else b. -/
def execVsel (f : LaneFields) (s : State) : Out :=
  s.lanePure f (latI2 f) fun l => if s.src f f.vc 32 l != 0 then s.srcA f l else s.srcB f l

/-- R295: a move. -/
def execVmov (f : LaneFields) (s : State) : Out := s.lanePure f (latI2 f) fun l => s.srcA f l

/-- R295: IMM into one register, of 32 bits whatever the type, so that the latency is the shorter one (R242). -/
def execVmovi (f : LaneFields) (s : State) : Out :=
  let t := if isWide f then .u32 else f.ty
  .next (s.laneResult f 2 t .divz (fun _ => 0) (fun _ => { val := f.imm.toNat }) fun _ => [])

/-- R243: a fixed-latency result is written. -/
def execLaneResultWrite (id : Nat) (s : State) : Out := .next (s.completeResult id)

/-- R302: a class-V instruction with a scalar destination completes. -/
def execScalarDestinationWrite (id : Nat) (s : State) : Out := .next (s.completeResult id)

end Sys2Proof.Machine
end

