-- ==== Sys2Proof/Machine/LaneFloat.lean ====
section
/-! DEFINITION. Lane floating instructions (R285-R290), conversion and packing (R291-R294). -/
namespace Sys2Proof.Machine

/-- Class F4 and class F16 (R242). -/
def latF4 (wide : Bool) : Nat := latOf wide 4 6
def latF16 (wide : Bool) : Nat := latOf wide 16 28

/-- The rounding that MOD gives: RM and SAT; no slot governs (R82, R240). -/
def modRound (f : LaneFields) : Round := { mode := rmodeOf (field f.md 2 3), sat := satBit f }

/-- The rounding of an arithmetic instruction (R70). -/
def arithRound (f : LaneFields) : Round := let g := modRound f; { g with mode := g.mode.arith }

/-- A result code and its exception bits, as one lane's outcome. -/
def laneOut (r : Nat × Exc) : LaneOut := { val := r.1, exc := r.2 }

/-- The datum of FPTRAP: the exception bits of the lane (R75, R463). -/
def excDatum (out : Nat → LaneOut) (l : Nat) : Word := (out l).exc.setWidth 64

/-- A floating instruction over the values of its operands. -/
def State.laneFloat (s : State) (f : LaneFields) (lat : Nat) (op : Fmt → Nat → Nat × Exc) : Out :=
  let out (l : Nat) : LaneOut := laneOut (op (ltypeFmt f.ty) l)
  .next (s.laneResult f lat f.ty .fptrap (excDatum out) out fun _ => [])

def State.valA (s : State) (f : LaneFields) (l : Nat) : Val := (ltypeFmt f.ty).value (s.srcA f l)
def State.valB (s : State) (f : LaneFields) (l : Nat) : Val := (ltypeFmt f.ty).value (s.srcB f l)
def State.valC (s : State) (f : LaneFields) (l : Nat) : Val := (ltypeFmt f.ty).value (s.srcC f l)

/-- R285: a + b. -/
def execVfadd (f : LaneFields) (s : State) : Out :=
  s.laneFloat f (latF4 (isWide f)) fun t l => t.addOp (arithRound f) (s.valA f l) (s.valB f l)

/-- R285: a − b. -/
def execVfsub (f : LaneFields) (s : State) : Out :=
  s.laneFloat f (latF4 (isWide f)) fun t l => t.addOp (arithRound f) (s.valA f l) (s.valB f l).neg

/-- R285: a × b. -/
def execVfmul (f : LaneFields) (s : State) : Out :=
  s.laneFloat f (latF4 (isWide f)) fun t l => t.mulOp (arithRound f) (s.valA f l) (s.valB f l)

/-- R285: a × b + c, rounded once. -/
def execVfma (f : LaneFields) (s : State) : Out :=
  s.laneFloat f (latF4 (isWide f)) fun t l => t.fma (arithRound f) (s.valA f l) (s.valB f l) (s.valC f l)

/-- R287: the lesser. -/
def execVfmin (f : LaneFields) (s : State) : Out :=
  s.laneFloat f (latF4 (isWide f)) fun t l => t.minmax false (s.srcA f l) (s.srcB f l)

/-- R287: the greater. -/
def execVfmax (f : LaneFields) (s : State) : Out :=
  s.laneFloat f (latF4 (isWide f)) fun t l => t.minmax true (s.srcA f l) (s.srcB f l)

/-- R285: a ÷ b. -/
def execVfdiv (f : LaneFields) (s : State) : Out :=
  s.laneFloat f (latF16 (isWide f)) fun t l => t.divOp (arithRound f) (s.valA f l) (s.valB f l)

/-- A floating function of one operand, correctly rounded (R285). -/
def State.laneFun (s : State) (f : LaneFields) (op : Val → Val × Exc) : Out :=
  s.laneFloat f (latF16 (isWide f)) fun t l => t.finish (arithRound f) [s.valA f l] (op (s.valA f l))

/-- R285: √a. -/
def execVfsqrt (f : LaneFields) (s : State) : Out := s.laneFun f sqrtVal

/-- R286: 1 ÷ a. -/
def execVfrcp (f : LaneFields) (s : State) : Out := s.laneFun f fun a => divVal (.num false 1 0) a

/-- R286: 1 ÷ √a. -/
def execVfrsq (f : LaneFields) (s : State) : Out := s.laneFun f rsqVal

/-- R286: 2 to the power a. -/
def execVfexp2 (f : LaneFields) (s : State) : Out := s.laneFun f exp2Val

/-- R286: log2 a. -/
def execVflog2 (f : LaneFields) (s : State) : Out := s.laneFun f logVal

/-- R284, R288: compare into lanes, or into a scalar mask; with TRAPEN.FINV a lane that sets FINV takes FPTRAP. -/
def execVfcmp (f : LaneFields) (s : State) : Out :=
  let r (l : Nat) : Bool × Exc := fcmp (f.md.toNat % 8) (s.valA f l) (s.valB f l)
  let out (l : Nat) : LaneOut := { val := bit (r l).1, exc := (r l).2 }
  if isScalarDst f then
    let ls := lanesOf s.lmask
    let bad := faulters s.clause.trapen ls out
    .next (s.scalarResult f (maskWord ls fun l => (r l).1) (excOf (ls.filter fun l => !bad.contains l) out)
      (s.arithFault .fptrap bad (excDatum out)))
  else .next (s.laneResult f (latF4 (isWide f)) .u32 .fptrap (excDatum out) out fun _ => [])

/-- R289: the class as a one-hot word. -/
def execVfclass (f : LaneFields) (s : State) : Out :=
  .next (s.laneResult f (latF4 (isWide f)) .u32 .fptrap (fun _ => 0)
    (fun l => { val := (ltypeFmt f.ty).classOf (s.srcA f l) }) fun _ => [])

/-- R289: an integral value; RNA is allowed. -/
def execVfrnd (f : LaneFields) (s : State) : Out :=
  s.laneFloat f (latF4 (isWide f)) fun t l => t.rnd (modRound f).mode (s.valA f l)

/-! ### Conversion (R292) -/

def Elem.isInt : Elem → Bool
  | .int _ _ => true
  | _ => false

/-- The width of a register or pair that holds an element: 64 for a 64-bit one. -/
def Elem.wide (t : Elem) : Bool := t.bits == 64

/-- Integer to integer: rounded when a slot has scaled it to a fraction, then wrapped or clamped (R60, R292). -/
def intToInt (signed : Bool) (w : Nat) (g : Round) (v : Val) : Nat × Exc :=
  match v with
  | .num n m e =>
    let x := roundTo g.mode n m e 0
    let y : Int := if n then -(x.1 : Int) else x.1
    let lo : Int := if signed then -(2 ^ (w - 1) : Nat) else 0
    let hi : Int := if signed then (2 ^ (w - 1) : Nat) - 1 else (2 ^ w : Nat) - 1
    (wrap (if g.sat then (if y < lo then lo else if y > hi then hi else y) else y) w, excIf x.2 excInx)
  | _ => (0, 0)

/-- The conversion of a value from one element type into another (R292). -/
def convert (src dst : Elem) (g : Round) (v : Val) : Nat × Exc :=
  let r := match src, dst with
    | .int _ _, .int sg w => intToInt sg w g v
    | _, d => d.encode g v
  (r.1, r.2 ||| sn v)

/-- The type as which a slot's element stands in a lane register (R59, R291). -/
def slotType (d : BitVec 32) : LType :=
  match slotEtype d with
  | 0 => .i8 | 1 => .i16 | 2 => .i32 | 3 => .i64 | 4 => .u8 | 5 => .u16 | 6 => .u32 | 7 => .u64
  | 8 => .f16 | 9 => .bf16 | 10 => .f32 | 11 => .f64
  | _ => .u32

def slotElem (d : BitVec 32) : Elem := (elemOf (slotEtype d)).getD (.int false 32)

/-- R292: vcvt. -/
def execVcvt (f : LaneFields) (s : State) : Out :=
  let d := s.slotDesc f
  let fromSlot := f.imm == 12
  let toSlot := f.ty == .slot
  let src := if fromSlot then slotElem d else (elemOf f.imm.toNat).getD (.int false 32)
  let dst := if toSlot then slotElem d else ltypeElem f.ty
  let t := if toSlot then slotType d else f.ty
  let g := if toSlot then slotRound d else modRound f
  let out (l : Nat) : LaneOut :=
    let v := src.value (fromSlot && slotFlush d) (s.src f f.va src.bits l)
    laneOut (convert src dst g (if toSlot then v.scale (slotXsc d) else v))
  .next (s.laneResult f (latF4 (src.wide || dst.wide)) t .fptrap (excDatum out) out fun _ => [])

/-! ### MX blocks (R78, R293) -/

/-- emax of an MX element type (R78). -/
def elemEmax : Elem → Int
  | .flt f => (f.maxCode / 2 ^ f.fb : Int) - f.bias
  | _ => 0

/-- An MX block of values already scaled by 2^XSC: the scale code, the element codes and the exception bits (R78). DESIGN CHOICE: in a block
whose values are all zero every element is the code 0, also where the source was -0 (log 86). -/
def mxBlock (t : Elem) (g : Round) (vs : List Val) : Nat × List Nat × Exc :=
  if vs.any fun v => v.isNan || v == .inf true || v == .inf false then (0xFF, vs.map fun _ => 0, excInv)
  else
    let top := vs.foldl (fun (m : Option Int) v => match v with
      | .num _ k e => if k == 0 then m else some (match m with | some x => max x ((Nat.log2 k : Int) + e) | none => (Nat.log2 k : Int) + e)
      | _ => m) none
    match top with
    | none => (0x7F, vs.map fun _ => 0, 0)
    | some m =>
      let x := min 0xFE (max 0 (127 + m - elemEmax t))
      let rs := vs.map fun v => t.encode { g with sat := true } (v.scale (127 - x))
      (x.toNat, rs.map (·.1), rs.foldl (fun e r => e ||| (r.2 &&& ~~~excOfl)) 0)

/-- R293: one MX block from the 32 lanes; lanes outside the mask count as zero. -/
def execVcvtmx (f : LaneFields) (s : State) : Out :=
  let d := s.slotDesc f
  let m := s.lmask
  let src := (elemOf f.imm.toNat).getD (.int false 32)
  let vs := (List.range 32).map fun l =>
    if m.getLsbD l then (src.value false (s.src f f.va src.bits l)).scale (slotXsc d) else Val.num false 0 0
  let b := mxBlock (slotElem d) (slotRound d) vs
  let special (l : Nat) : Bool := m.getLsbD l && (match nth (.nan false) vs l with | .num _ _ _ => false | _ => true)
  let traps := b.2.2 &&& excInv != 0 && s.clause.trapen.getLsbD 0
  let out (l : Nat) : LaneOut :=
    { val := nth 0 b.2.1 l + b.1 * 256, exc := if traps then 0 else b.2.2 &&& ~~~excInv, bad := traps && special l }
  -- FINV of a block that does not trap, set once for the block; a block that traps writes nothing
  let s1 := s.laneResult f (latF4 src.wide) .u32 .fptrap (fun _ => 1) out fun _ => []
  .next { s1 with results := s1.results.map fun r =>
    if r.id != s.nextId then r
    else if traps then { r with writes := [], status := 0, ring := r.ring.map fun _ => s.ringVals m [] .u32 out }
    else { r with status := r.status ||| (b.2.2 &&& excInv).setWidth 32 } }

/-! ### Packing (R294) -/

/-- The field width of vpack and vunpack (R294). -/
def packWidth (t : LType) (d : BitVec 32) : Nat :=
  let e := if t == .slot then slotEtype d else ltypeCode t
  if e == 0x10 then 4 else if e == 1 || e == 5 || e == 8 || e == 9 then 16 else 8

/-- R294: a narrow field is moved into a field of a register. -/
def execVpack (f : LaneFields) (s : State) : Out :=
  let w := packWidth f.ty (s.slotDesc f)
  let lo := w * f.imm.toNat
  .next (s.laneResult f 4 .u32 .fptrap (fun _ => 0) (fun l =>
    let old := s.oldDst f l
    { val := old - fieldNat old lo w * 2 ^ lo + s.src f f.va 32 l % 2 ^ w * 2 ^ lo }) fun _ => [])

/-- R294: a narrow field is taken from a register, extended or placed. -/
def execVunpack (f : LaneFields) (s : State) : Out :=
  let d := s.slotDesc f
  let w := packWidth f.ty d
  let keep := if f.ty == .slot && (slotEtype d == 0x0E || slotEtype d == 0x0F) then 6 else w
  let t := if f.ty == .slot then slotType d else f.ty
  .next (s.laneResult f 4 t .fptrap (fun _ => 0) (fun l =>
    { val := fieldNat (s.src f f.va 32 l) (w * f.imm.toNat) w % 2 ^ keep }) fun _ => [])

end Sys2Proof.Machine
end

