-- ==== Sys2Proof/Machine/Clauses.lean ====
section
/-! DEFINITION. Fetching code (R129, R143, R236, R259), and the start of a clause with its checks (R27, R48, R244). -/
namespace Sys2Proof.Machine

/-! ### Fetching -/

inductive Fetched where
  | code (bytes : List Byte)
  | wait (va : Nat)
  | full
  | bad (cause : Cause) (sub : BitVec 8) (addr : Word)
  deriving DecidableEq, Repr

/-- The bytes of code at an address (R129): a miss posts a record of KIND 2, and a path may refuse the read (R142). -/
def State.fetchParts (s : State) (k : Nat) : List (Nat × Nat) → List Byte → Fetched × State
  | [], bs => (.code bs, s)
  | p :: ps, bs =>
    let a := s.asker k
    match s.resolveFetch a p.1 p.2 with
    | .bad _ c sub => (.bad c sub (wordOf p.1), s)
    | .miss =>
      if s.missRoom k [p.1 / 0x1000] then (.wait p.1, s.postMiss k a 2 p.1 0) else (.full, s)
    | .ok q => match s.pathCheck s.nextId a.ctx true false q with
      | (some e, s1) => (.bad e.1 e.2 (wordOf p.1), s1)
      | (none, s1) => s1.fetchParts k ps (bs ++ readBytes s1.mem q.key q.len)

def State.fetchCode (s : State) (k : Nat) (addr : Word) (len : Nat) : Fetched × State :=
  s.fetchParts k (splitParts addr.toNat len) []

/-! ### The checks of a clause (R244) -/

/-- The class of an element type in the matrix engine (R339). -/
def matrixClass (etype : Nat) : Option MxClass :=
  match etype with
  | 0x08 | 0x09 => some .h
  | 0x0A => some .s
  | 0x0B => some .d
  | 0x0C | 0x0D | 0x0E | 0x0F => some .m8
  | 0x10 => some .m4
  | 0x11 => some .mi
  | _ => none

/-- Whether an instruction accepts the element type of a slot (R81, R292-R294, R339, R348, R349). -/
def slotTypeOk (i : Instr) (d : BitVec 32) : Bool :=
  let e := slotEtype d
  match i with
  | .vcvtmx _ => 0x0C ≤ e
  | .vpack _ | .vunpack _ => e == 0 || e == 1 || e == 4 || e == 5 || e == 8 || e == 9 || 0x0C ≤ e
  | .mxlds _ | .mxmma _ => (matrixClass e).isSome
  | .mxcmma _ => (matrixClass e).isSome && matrixClass e != some .mi
  | _ => true

/-- The fields whose range the slot sets (R292-R294, R340, R342, R349, R350). -/
def slotFieldOk (i : Instr) (f : LaneFields) (d : BitVec 32) : Bool :=
  match i with
  | .vcvt _ | .mxrd _ => slotBlk d == 0
  | .vcvtmx _ => slotBlk d == 1
  | .vpack _ | .vunpack _ => f.imm.toNat < 32 / packWidth f.ty d
  | .mxmma _ | .mxcmma _ => slotPack d != 2
  | .mxout _ => slotPack d != 2 && (slotBlk d == 0 || field f.imm 22 5 == 31)
  | .mxlds _ =>
    let kdiv := field f.imm 11 2
    let ndiv := field f.imm 9 2
    let c := matrixClass (slotEtype d)
    !((c == some .m8 || c == some .mi) && kdiv == 2) &&
    !(slotPack d == 2 && (ndiv != 0 || (kdiv != 0 && (c == some .h || c == some .s || c == some .d))))
  | _ => true

/-- The width in bits of an operand of TYPE, the slot's element counted (R99). -/
def typeWidth (t : LType) (d : BitVec 32) : Nat := if t == .slot then (if (slotElem d).wide then 64 else 32) else
  if LType.bits t == 64 then 64 else 32

/-- The operands of an instruction with their widths (R99, R277, R303-R326, R344, R356) and how many registers or pairs from
the one named. -/
def operandUses (i : Instr) (f : LaneFields) (d : BitVec 32) : List (Operand × Nat × Nat) :=
  let t := typeWidth f.ty d
  match i with
  | .vcmp _ | .vfcmp _ | .vfclass _ => [(f.vd, 32, 1), (f.va, t, 1), (f.vb, t, 1)]
  | .vmovi _ => [(f.vd, 32, 1)]
  | .vsel _ => [(f.vd, t, 1), (f.va, t, 1), (f.vb, t, 1), (f.vc, 32, 1)]
  | .vcvt _ =>
    let src := if f.imm == 12 then slotElem d else (elemOf f.imm.toNat).getD (.int false 32)
    [(f.vd, t, 1), (f.va, if src.wide then 64 else 32, 1)]
  | .vcvtmx _ =>
    [(f.vd, 32, 1), (f.va, if ((elemOf f.imm.toNat).getD (.int false 32)).wide then 64 else 32, 1)]
  | .vpack _ | .vunpack _ => [(f.vd, 32, 1), (f.va, 32, 1)]
  | .vld _ | .vst _ | .vatom _ | .vcas _ => [(f.vd, t, 1), (f.va, 64, 1), (f.vb, 32, 1), (f.vc, t, 1)]
  | .vlds _ | .vsts _ => [(f.vd, t, 1), (f.va, 64, 1), (f.vc, t, 1)]
  | .vpref _ => [(f.va, 64, 1), (f.vb, 32, 1)]
  | .vrma _ => [(f.vd, t, 1), (f.va, 32, 1), (f.vb, 64, 1), (f.vc, t, 1)]
  | .vmcast _ => [(f.vb, 64, 1), (f.vc, t, 1)]
  | .vsysc _ => [(f.vd, 64, 1), (f.va, 64, 1), (f.vb, 64, 1), (f.vc, 64, 1)]
  | .mxrd _ => [(f.vd, t, field f.imm 22 5 + 1)]
  | .mxwr _ => [(f.va, t, field f.imm 22 5 + 1)]
  | .vgwr _ => [(f.vb, 32, 1), (f.vc, t, 1)]
  | .vgrd _ => [(f.vd, t, 1), (f.vb, 32, 1)]
  | _ => [(f.vd, t, 1), (f.va, t, 1), (f.vb, t, 1), (f.vc, t, 1)]

/-- What the checks find wrong: GROW with a register, or ILLOP with the word or with the slot's datum. -/
inductive ClauseBad where
  | grow (reg : Nat)
  | word
  | slot
  deriving DecidableEq, Repr

/-- R98, R99: the registers that an operand names. The operands are taken one after another, VD, VA, VB and VC, and in each GROW comes
before ILLOP (DESIGN CHOICE, log 72). -/
def operandBad (limit : Nat) (u : Operand × Nat × Nat) : Option ClauseBad :=
  match u.1 with
  | .v n =>
    let v := n.toNat
    let per := if u.2.1 == 64 then 2 else 1
    if v ≥ limit then some (.grow v)
    else if u.2.1 == 64 && v % 2 == 1 then some .word
    else if v + per * u.2.2 > limit then some (.grow limit)
    else none
  | _ => none

/-- q.in and q.out: only in a phrase with a queue window, and only as 32-bit operands (R104). -/
def ringBad (window : Bool) (u : Operand × Nat × Nat) : Bool :=
  (u.1 == .qIn || u.1 == .qOut) && (!window || u.2.1 == 64)

/-- FB names a flag that the header gives (R244). -/
def flagGiven (h : ClauseHeader) (fb : FlagBind) : Bool :=
  match fb with
  | .none => true
  | .seta => h.seta.isSome
  | .setb => h.setb.isSome

/-- The checks of one instruction of a clause, in the order of R244. -/
def instrBad (q : Phrase) (h : ClauseHeader) (w : BitVec 96) : Option ClauseBad :=
  match decodeLane w with
  | .error _ => some .word
  | .ok i => match i.lane? with
    | none => some .word
    | some f =>
      let d := nth 0 q.fsl f.fsi.toNat
      let uses := operandUses i f d
      if uses.any (ringBad q.mate.isSome) || !flagGiven h f.fb then some .word
      else if slotNamed i f && !(slotValid d && slotTypeOk i d) then some .slot
      else if slotNamed i f && !slotFieldOk i f d then some .word
      else uses.findSome? (operandBad q.nameable)

/-- The datum of a clause-start fault (R81, R98, R244). -/
def clauseDatum (q : Phrase) (w : BitVec 96) (b : ClauseBad) : Word :=
  match b with
  | .grow r => wordOf r
  | .word => w.extractLsb' 32 64
  | .slot =>
    let n := field w 80 3
    wordOf (n + 2 ^ 32 * (nth (0 : BitVec 32) q.fsl n).toNat)

/-- The first failing instruction of a clause: its index, its word and what is wrong. -/
def clauseBad (q : Phrase) (h : ClauseHeader) : Nat → List (BitVec 96) → Option (Nat × BitVec 96 × ClauseBad)
  | _, [] => none
  | n, w :: ws => match instrBad q h w with
    | some b => some (n, w, b)
    | none => clauseBad q h (n + 1) ws

/-! ### The start (R27, R48, R236, R244) -/

def clauseWords : Nat → List Byte → List (BitVec 96)
  | 0, _ => []
  | n + 1, bs => BitVec.ofNat 96 (natOf (bs.take 12)) :: clauseWords n (bs.drop 12)

/-- A clause-start fault is determined: the clause stays at the head, to be checked again (R236, R244). -/
def State.startFault (s : State) (k : Nat) (c : Clause) (cause : Cause) (sub : BitVec 8) (data pa : Word) : State :=
  let x : LaneFault := { seq := s.nextId, redo := c
                         exn := { cause := cause, sub := sub, mask := c.mask, data := data, lane := true, pa := pa, kind := .laneStart } }
  (((s.bump.updFrag k fun f => { f with lfetch := .idle }).addFault k x)).settle k

/-- Whether an outstanding operation belongs to a clause of fragment `k` numbered below `n` and is bound to a flag. -/
def State.boundBelow (s : State) (k n : Nat) : Bool :=
  (s.accs.any fun a => a.frag == k && !a.scalar && a.flag.isSome && a.redo.num < n) ||
  (s.results.any fun r => r.frag == k && r.flag.isSome && r.clause < n) ||
  (s.laneOps.any fun o => o.frag == k && o.flag.isSome && o.clause < n && s.opPending o)

/-- R27: the clauses that the parent enqueued before the split have issued, and the flags that they set have cleared. -/
def State.parentDone (s : State) (f : Frag) : Bool :=
  let pk := fragKey f.phrase f.parent
  let p := s.frag pk
  f.num == 0 || f.after == 0 ||
  (!((p.queue ++ p.img1.queue ++ p.img2.queue ++ p.img1.redo.toList ++ p.img2.redo.toList).any fun c => c.num < f.after) &&
   !s.boundBelow pk f.after)

/-- Whether a fragment's lane stream runs. It does where the fragment has given up its slot at smerge while clauses of its own stand
in its queue, also when its merge has completed and it is queued for a slot (R29; log 22). A phrase whose restore is still under way
issues nothing (R337, R478). -/
def State.onLane (s : State) (k : Nat) : Bool :=
  let f := s.frag k
  f.live && !f.stopped && !(s.phr (phraseOf k)).stalled

/-- Whether the head clause of a fragment is waiting to start, and nothing but its header's wait mask can hold it. -/
def State.mayStart (s : State) (k : Nat) : Bool :=
  let f := s.frag k
  s.onLane k && (isWalkerKey k || !(s.core (s.coreOf k)).frozen) &&
  (match f.queue with
   | c :: _ => c.header.isNone && !f.faultFirst c.again
   | [] => false) &&
  (match f.lfetch with | .waits _ => false | _ => true) &&
  !(f.ready.any fun x => x.exn.kind == .laneStart) && s.parentDone f

/-- The head clause of fragment `k` starts, or takes its fault; it is held while a page is walked or a flag of its wait mask is
set (R244). One that had started before it was saved on another module has its instructions read again, and goes on at its index
(R471). -/
def State.startClause (s : State) (k : Nat) : State :=
  if !s.mayStart k then s
  else
    let f := s.frag k
    let c := f.queue.headD {}
    match f.lfetch with
    | .failed cause sub addr => s.startFault k c cause sub addr c.addr
    | _ =>
      match s.fetchCode k c.addr 12 with
      | (.bad cause sub addr, s1) => s1.startFault k c cause sub addr c.addr
      | (.wait v, s1) => s1.updFrag k fun f => { f with lfetch := .waits v }
      | (.full, s1) => s1
      | (.code hb, s1) =>
        let hw := BitVec.ofNat 96 (natOf hb)
        if c.next == 0 && !s1.flagsClear k (headerWaitm hw) then s1
        else match decodeHeader hw with
        | none => s1.startFault k c .illop 0 (hw.extractLsb' 32 64) c.addr
        | some h =>
          match s1.fetchCode k (c.addr + 12) (12 * h.len.toNat) with
            | (.bad cause sub addr, s2) => s2.startFault k c cause sub addr c.addr
            | (.wait v, s2) => s2.updFrag k fun f => { f with lfetch := .waits v }
            | (.full, s2) => s2
            | (.code bs, s2) =>
              let q := s2.phr (phraseOf k)
              let ws := clauseWords h.len.toNat bs
              match clauseBad q h 1 ws with
              | some (n, w, b) =>
                let cause := match b with | .grow _ => Cause.grow | _ => Cause.illop
                s2.startFault k c cause 0 (clauseDatum q w b) (c.instrAddr n)
              | none =>
                let next := min (max 1 c.next) h.len.toNat
                let c1 : Clause := { c with header := some h, code := ws, next := next, last := if c.again then next else h.len.toNat
                                            trapen := if c.again then c.trapen else q.trapen }
                s2.updFrag k fun f => { f with queue := c1 :: f.queue.tail }

/-- R244: the head clause of a fragment starts. -/
def execClauseStart (frag : Nat) (s : State) : Out := .next (s.startClause frag)

/-- The instruction that a started clause issues next. -/
def Clause.instr (c : Clause) : Option Instr :=
  match decodeLane (nth 0 c.code (c.next - 1)) with
  | .ok i => some i
  | .error _ => none

end Sys2Proof.Machine
end

