-- ==== Sys2Proof/Machine/ScalarMem.lean ====
section
/-! DEFINITION. Scalar memory accesses and their completion (R268-R270), atomics (R271, R272), futures (R314-R318) and sfence
(R273). -/
namespace Sys2Proof.Machine

def sizeOf (z : MemSize) : Nat := match z with | .b => 1 | .h => 2 | .w => 4 | .d => 8

def noOrder : Ordering := ⟨.none, .phr⟩

/-- A scalar access: it is held while there is no room, takes its first failing check as a fault, or issues (R251, R268, R270).
R216 names fset and ftest neither among the instructions that open on a path nor among those that open on none: they open on the
paths of their cell (log 73). -/
def State.scalarAccess (s : State) (kind : AccKind) (bytes : Nat) (signed : Bool) (order : Ordering) (dest : Dest)
    (addr data cmp : Word) : Out :=
  if !s.accessRoom s.cur kind bytes [addr.toNat] then .next s
  else match s.checkLane s.cur kind bytes addr.toNat with
    | .bad c sub off => s.fault c sub (addr + wordOf off)
    | _ =>
      .next (s.issueAccess { id := s.nextId, frag := s.cur, scalar := true, pc := s.me.pc, kind := kind, bytes := bytes,
                             ty := .u64, signed := signed, order := order, dest := dest,
                             lanes := [{ lane := 0, addr := addr, data := data, cmp := cmp }] }).adv

/-- The address of sld, sldu and sst (R268). -/
def State.scalarAddr (s : State) (sa : SReg) (sz : MemSize) (off : BitVec 10) : Word :=
  s.r sa + off.signExtend 64 * wordOf (sizeOf sz)

/-- R268: a sign-extending load. -/
def execSld (sd sa : SReg) (sz : MemSize) (off : BitVec 10) (s : State) : Out :=
  s.scalarAccess .load (sizeOf sz) true noOrder (.scalar sd) (s.scalarAddr sa sz off) 0 0

/-- R268: a zero-extending load. -/
def execSldu (sd sa : SReg) (sz : MemSize) (off : BitVec 10) (s : State) : Out :=
  s.scalarAccess .load (sizeOf sz) false noOrder (.scalar sd) (s.scalarAddr sa sz off) 0 0

/-- R268: a store of the low bytes of s[sd]. -/
def execSst (sd sa : SReg) (sz : MemSize) (off : BitVec 10) (s : State) : Out :=
  s.scalarAccess .store (sizeOf sz) false noOrder .none (s.scalarAddr sa sz off) (s.r sd) 0

/-- A scalar atomic (R271): the old value is zero-extended. -/
def State.scalarAmo (s : State) (op : AmoOp) (ord : Ordering) (w64 : Bool) (sd sa sb : SReg) (cmp : Word) : Out :=
  s.scalarAccess (.amo op true) (if w64 then 8 else 4) false ord (.scalar sd) (s.r sa) (s.r sb) cmp

/-- R271: compare and swap with the expected value in s[sd]. -/
def execScas (sd sa sb : SReg) (ord : Ordering) (w64 : Bool) (s : State) : Out := s.scalarAmo .cas ord w64 sd sa sb (s.r sd)

/-- R271: add. -/
def execSamoAdd (sd sa sb : SReg) (ord : Ordering) (w64 : Bool) (s : State) : Out := s.scalarAmo .add ord w64 sd sa sb 0

/-- R271: AND. -/
def execSamoAnd (sd sa sb : SReg) (ord : Ordering) (w64 : Bool) (s : State) : Out := s.scalarAmo .and ord w64 sd sa sb 0

/-- R271: OR. -/
def execSamoOr (sd sa sb : SReg) (ord : Ordering) (w64 : Bool) (s : State) : Out := s.scalarAmo .or ord w64 sd sa sb 0

/-- R271: XOR. -/
def execSamoXor (sd sa sb : SReg) (ord : Ordering) (w64 : Bool) (s : State) : Out := s.scalarAmo .xor ord w64 sd sa sb 0

/-- R271: signed minimum. -/
def execSamoMin (sd sa sb : SReg) (ord : Ordering) (w64 : Bool) (s : State) : Out := s.scalarAmo .min ord w64 sd sa sb 0

/-- R271: signed maximum. -/
def execSamoMax (sd sa sb : SReg) (ord : Ordering) (w64 : Bool) (s : State) : Out := s.scalarAmo .max ord w64 sd sa sb 0

/-- R271: unsigned minimum. -/
def execSamoMinu (sd sa sb : SReg) (ord : Ordering) (w64 : Bool) (s : State) : Out := s.scalarAmo .minu ord w64 sd sa sb 0

/-- R271: unsigned maximum. -/
def execSamoMaxu (sd sa sb : SReg) (ord : Ordering) (w64 : Bool) (s : State) : Out := s.scalarAmo .maxu ord w64 sd sa sb 0

/-- R271: swap. -/
def execSamoSwap (sd sa sb : SReg) (ord : Ordering) (w64 : Bool) (s : State) : Out := s.scalarAmo .swap ord w64 sd sa sb 0

/-- R316: fset, a release at device scope. -/
def execFset (sd sa sb : SReg) (force : Bool) (s : State) : Out :=
  s.scalarAccess (.fset force) 8 false ⟨.rel, .dev⟩ (.scalar sd) (s.r sa) (s.r sb) 0

/-- R317: fget, an acquire at device scope; the fragment waits at it until the value is taken. R216 does not name it: it opens on
no path (log 73). -/
def execFget (sd sa : SReg) (s : State) : Out :=
  if !s.accessRoom s.cur .fget 16 [(s.r sa).toNat] then .next s
  else match s.checkLane s.cur .fget 16 (s.r sa).toNat with
    | .bad c sub off => s.fault c sub (s.r sa + wordOf off)
    | _ =>
      let a : Access := { id := s.nextId, frag := s.cur, scalar := true, pc := s.me.pc, kind := .fget, bytes := 8, ty := .u64,
                          signed := false, order := ⟨.acq, .dev⟩, dest := .scalar sd, lanes := [{ lane := 0, addr := s.r sa }] }
      .next ((s.issueAccess a).updMe fun f => { f with wait := .future s.nextId })

/-- R318: ftest reads STATE. -/
def execFtest (sd sa : SReg) (s : State) : Out :=
  s.scalarAccess .ftest 8 false noOrder (.scalar sd) (s.r sa) 0 0

/-! ### Fences -/

/-- R273: sfence. -/
def execSfence (ord : Ordering) (s : State) : Out := .next (s.putFence s.cur ord none 0 true).adv

/-- R268-R271, R314-R317: the lanes of a scalar access that can be performed are; its register is written, or its fault taken. -/
def execScalarAccessComplete (id : Nat) (s : State) : Out := .next (s.runAccess id)

end Sys2Proof.Machine
end

