-- ==== Sys2Proof/Machine/LaneMem.lean ====
section
/-! DEFINITION. Lane loads, stores and atomics (R303-R311), vfence and vpref (R312, R313), remote access and multicast
(R319-R325), vexit (R329), and the completion of lane accesses (R307). -/
namespace Sys2Proof.Machine

/-! ### Addresses and orderings -/

/-- A base operand: a constant, or the 64-bit address in each lane (R303). -/
def isConst (o : Operand) : Bool := match o with | .c _ => true | _ => false

/-- The effective address of a lane (R305); `step` is the contiguous step. -/
def State.laneAddr (s : State) (f : LaneFields) (strided : Bool) (step l : Nat) : Word :=
  let base : Int := s.src f f.va 64 l
  let off := sext (field f.imm 0 20) 20
  let b := s.src f f.vb 32 l
  let more : Int :=
    if strided then l * sext (s.src f f.vb 64 l) 64
    else if f.imm.getLsbD 23 then (if f.imm.getLsbD 24 then (b : Int) else sext b 32) * (2 ^ field f.imm 20 2 : Nat)
    else if isConst f.va then (l * step : Nat)
    else 0
  BitVec.ofInt 64 (base + off + more)

def orderOf (n : Nat) : Order := match n with | 1 => .acq | 2 => .rel | 3 => .acqrel | _ => .none

def scopeOf (n : Nat) : Scope :=
  match n with | 1 => .crs | 2 => .clu | 3 => .die | 4 => .dev | 5 => .dom | 6 => .sys | _ => .phr

/-- The ordering field in MOD bits 5:0 (R231, R240). -/
def modOrdering (f : LaneFields) : Ordering := ⟨orderOf (field f.md 4 2), scopeOf (field f.md 1 3)⟩

/-- The type's width in bytes. -/
def tyBytes (t : LType) : Nat := LType.bits t / 8

/-! ### Issue -/

/-- The access that a lane memory instruction makes: its lanes are those of the effective mask. -/
def State.laneAccess (s : State) (f : LaneFields) (kind : AccKind) (dest : Dest) (lane : Nat → LaneAcc) : Access :=
  let c := s.clause
  { id := s.nextId, frag := s.cur, scalar := false, pc := c.instrAddr c.next, kind := kind, bytes := tyBytes f.ty, ty := f.ty
    signed := ltypeSigned f.ty, order := modOrdering f, dest := dest, flag := c.flagOf f.fb, redo := c.redo
    lanes := (lanesOf s.lmask).map lane }

/-- A lane memory instruction is held while its requests and misses find no room (R143, R218). -/
def State.laneRoom (s : State) (a : Access) : Bool := s.accessRoom s.cur a.kind a.bytes (a.lanes.map fun l => l.addr.toNat)

/-- Issues an access; with an empty mask nothing is accessed and no ordering takes effect (R110, R311). -/
def State.issueLane (s : State) (f : LaneFields) (a : Access) : Out :=
  if a.lanes.isEmpty then .next (s.laneIssued f)
  else if !s.laneRoom a then .next s
  else .next ((s.issueAccess a).laneIssued f)

def laneDest (f : LaneFields) : Dest := match f.vd with | .v n => .lane n.toNat f.ty | .s r => .scalar r | _ => .none

/-- The accesses of the plain and strided forms. -/
def State.loadAccess (s : State) (f : LaneFields) (strided : Bool) : Access :=
  s.laneAccess f .load (laneDest f) fun l => { lane := l, addr := s.laneAddr f strided (tyBytes f.ty) l }

def State.storeAccess (s : State) (f : LaneFields) (strided : Bool) : Access :=
  s.laneAccess f .store .none fun l =>
    { lane := l, addr := s.laneAddr f strided (tyBytes f.ty) l, data := wordOf (s.srcC f l) }

/-- R309: load. -/
def execVld (f : LaneFields) (s : State) : Out := s.issueLane f (s.loadAccess f false)

/-- R309: store. -/
def execVst (f : LaneFields) (s : State) : Out := s.issueLane f (s.storeAccess f false)

/-- R309: strided load. -/
def execVlds (f : LaneFields) (s : State) : Out := s.issueLane f (s.loadAccess f true)

/-- R309: strided store. -/
def execVsts (f : LaneFields) (s : State) : Out := s.issueLane f (s.storeAccess f true)

/-- AOP of vatom; min and max compare by TYPE (R304, R310). -/
def aopOf (f : LaneFields) : AmoOp :=
  let sg := ltypeSigned f.ty
  match field f.imm 25 4 with
  | 0 => .add | 1 => .and | 2 => .or | 3 => .xor
  | 4 => if sg then .min else .minu
  | 5 => if sg then .max else .maxu
  | _ => .swap

/-- The old value of a destination at the type's width. -/
def State.dstVal (s : State) (f : LaneFields) (l : Nat) : Nat :=
  match f.vd with
  | .v n => if LType.bits f.ty == 64 then s.vpair n.toNat l else s.vreg n.toNat l
  | _ => 0

def State.atomAccess (s : State) (f : LaneFields) : Access :=
  let nr := f.imm.getLsbD 29
  s.laneAccess f (.amo (aopOf f) (!nr)) (if nr then .none else laneDest f) fun l =>
    { lane := l, addr := s.laneAddr f false (tyBytes f.ty) l, data := wordOf (s.srcC f l) }

def State.casAccess (s : State) (f : LaneFields) : Access :=
  s.laneAccess f (.amo .cas true) (laneDest f) fun l =>
    { lane := l, addr := s.laneAddr f false (tyBytes f.ty) l, data := wordOf (s.srcC f l), cmp := wordOf (s.dstVal f l) }

/-- R310: atomic operation. -/
def execVatom (f : LaneFields) (s : State) : Out := s.issueLane f (s.atomAccess f)

/-- R310: compare and swap. -/
def execVcas (f : LaneFields) (s : State) : Out := s.issueLane f (s.casAccess f)

/-! ### Fence and prefetch -/

/-- R312: vfence, never masked. -/
def execVfence (f : LaneFields) (s : State) : Out :=
  let c := s.clause
  .next ((s.putFence s.cur (modOrdering f) (c.flagOf f.fb) c.num true).laneIssued f)

/-- What a lane of vpref finds: checks 1 to 3 of R142 only, so that a page with U clear is no miss (R313). -/
def State.prefCheck (s : State) (f : LaneFields) (l : Nat) : Checked :=
  s.checkWith { s.asker s.cur with priv := true } [] .load 1 (s.laneAddr f false 4096 l).toNat

/-- The misses that vpref would post (R313). -/
def State.prefMisses (s : State) (f : LaneFields) : List Nat :=
  (lanesOf s.lmask).flatMap fun l => match s.prefCheck f l with
    | .miss vas => vas
    | _ => []

/-- The host pages that its lanes reach. -/
def State.prefHost (s : State) (f : LaneFields) : List Nat :=
  (lanesOf s.lmask).flatMap fun l => match s.prefCheck f l with
    | .pieces ps => (ps.filter fun p => p.path == 4).map fun p => hostPage p.key
    | _ => []

def State.prefRoom (s : State) (f : LaneFields) : Bool := s.missRoom s.cur ((s.prefMisses f).map fun v => v / 0x1000)

/-- R313: vpref posts records and translation requests, and its flag clears when all have ended. -/
def execVpref (f : LaneFields) (s : State) : Out :=
  if !s.prefRoom f then .next s
  else
    let c := s.clause
    let ctx := s.myCtx
    let hp := s.hportOf ctx
    let vas := s.prefMisses f
    let hosts := (s.prefHost f).filter fun n => !s.atcHit hp ctx n false
    let s1 := vas.foldl (fun s va => s.postMiss s.cur (s.asker s.cur) 0 va 0) s
    let s2 := hosts.foldl (fun s n => s.askHost hp ctx n false true) s1
    let made := (s1.core s.myCore).misses.filter fun m => vas.any fun va => m.isFor ctx (va / 0x1000)
    let o : LaneOp := { id := s.nextId, frag := s.cur, flag := c.flagOf f.fb, clause := c.num
                        kind := .pref (made.map (·.num)) hosts }
    .next ((({ s2 with laneOps := s2.laneOps ++ [o] } : State).laneIssued f).tidy)

/-! ### Remote access -/

/-- Whether a peer word has a reserved bit set or names no module (R319). -/
def peerBad (p : Nat) : Bool := fieldNat p 16 16 != 0 || fieldNat p 10 2 != 0 || peerModule p ≥ 640

/-- What fails in a lane of vrma before it is sent (R323). -/
def State.rmaCheck (s : State) (amo : Bool) (w peer off : Nat) : Option (Cause × BitVec 8) :=
  if amo && off % w != 0 then some (.align, 1)
  else if peerBad peer then some (.fabric, 0x01)
  else if peerModule peer != s.moduleNo && !s.routeTo (peerModule peer) then some (.fabric, 0x03)
  else none

def ropOf (n : Nat) : Rop :=
  match n with
  | 0 => .rd | 1 => .wr | 2 => .add | 3 => .and | 4 => .or | 5 => .xor | 6 => .min | 7 => .max | 8 => .swap | _ => .cas

def clsOf (n : Nat) : MsgCls := match n with | 1 => .direct | 2 => .relay | _ => .auto

/-- A remote access issues (R321): lanes that fail their checks fail; the others wait to be sent. -/
def State.issueRemote (s : State) (f : LaneFields) (a : Access) (amo : Bool) : Out :=
  if a.lanes.isEmpty then .next (s.laneIssued f)
  else if !s.roomFor s.cur a.lanes.length then .next s
  else
    let check (l : LaneAcc) : LaneAcc := match s.rmaCheck amo a.bytes l.peer.toNat l.addr.toNat with
      | some e => { l with st := .failed e.1 e.2 (rmaDatum l.peer.toNat l.addr.toNat) }
      | none => l
    let a1 := { a with lanes := a.lanes.map check }
    let s1 : State := { s with accs := s.accs ++ [{ a1 with fence := s.me.relFen }] }
    .next ((s1.updMe fun g => g.openOn a1.id a1.paths).laneIssued f)

def State.rmaAccess (s : State) (f : LaneFields) : Access :=
  let rop := ropOf (field f.imm 0 4)
  { s.laneAccess f (.rma rop) (if rop == .wr then .none else laneDest f) fun l =>
      { lane := l, addr := wordOf (s.src f f.vb 64 l), data := wordOf (s.srcC f l), cmp := wordOf (s.dstVal f l)
        peer := wordOf (s.src f f.va 32 l) } with
    ord := f.md.getLsbD 0, cls := clsOf (field f.imm 4 2), win64 := LType.bits f.ty == 64 }

/-- R321: remote access, grouped by module. -/
def execVrma (f : LaneFields) (s : State) : Out :=
  let rop := ropOf (field f.imm 0 4)
  s.issueRemote f (s.rmaAccess f) (rop != .rd && rop != .wr)

/-- The list of members lies in the core's own scratch window, aligned to 4 bytes (R324). -/
def listOk (addr count : Nat) : Bool := addr % 4 == 0 && ownWindow ≤ addr && addr + 4 * count ≤ ownWindow + scratchSize

/-- The members that a vmcast sends to: all, or those that a handler left in EDATA (R325). -/
def State.mcastMembers (s : State) (count : Nat) : List Nat :=
  (List.range count).filter fun i => match s.clause.members with
    | some m => m.getLsbD i
    | none => true

def State.mcastAccess (s : State) (f : LaneFields) : Access :=
  let base := s.src f f.va 64 0
  let word (i : Nat) : Word := wordOf (readNat s.mem (scratchKey s.myCore (base - ownWindow) + 4 * i) 4)
  { s.laneAccess f .mcast (laneDest f) (fun l => { lane := l, addr := 0 }) with
    lanes := (s.mcastMembers (field f.imm 0 7)).map fun i => { lane := i, addr := 0, peer := word i }
    ord := f.md.getLsbD 0, cls := clsOf (field f.imm 8 2), win64 := LType.bits f.ty == 64
    body := (lanesOf s.lmask).map fun l =>
      { lane := l, off := wordOf (s.src f f.vb 64 l), data := wordOf (s.srcC f l), cmp := 0 } }

/-- The key of member `i` of the list of a vmcast. -/
def State.listKey (s : State) (f : LaneFields) (i : Nat) : Nat := scratchKey s.myCore (s.src f f.va 64 0 - ownWindow) + 4 * i

/-- Whether something of the fragment stands before the read of the list of members (R273, R312, R444, R448). -/
def State.listPending (s : State) (f : LaneFields) : Bool :=
  let n := 4 * field f.imm 0 7
  s.touchPending s.cur false (s.listKey f 0) n || !s.atOnce s.cur false false [⟨s.listKey f 0, n, 0, 2⟩]

/-- The first member that stands in a poisoned line (R158). -/
def State.listPoisoned (s : State) (f : LaneFields) : Option Nat :=
  (s.mcastMembers (field f.imm 0 7)).find? fun i => s.poisoned (s.listKey f i) 4

/-- R325: multicast. A replay with no member left writes an empty bitmap. -/
def execVmcast (f : LaneFields) (s : State) : Out :=
  let c := s.clause
  let base := s.src f f.va 64 0
  let fails (sub : BitVec 8) (d : Nat) : Out := .next (((s.laneIssued f).addFault s.cur
    (runFault s.nextId (c.instrAddr c.next) c.redo .access sub c.mask (wordOf d))).settle s.cur)
  if s.lmask == 0 || (listOk base (field f.imm 0 7) && (s.mcastMembers (field f.imm 0 7)).isEmpty) then
    .next (s.scalarResult f 0 0 none)
  else if !listOk base (field f.imm 0 7) then fails 0x0D base
  else if s.listPending f then .next s
  else match s.listPoisoned f with
    | some i => fails 0x0A (base + 4 * i)
    | none => s.issueRemote f (s.mcastAccess f) false

/-! ### The completion of lane accesses -/

/-- R307, R321, R325: the lanes of an access that can be performed are, or its messages are sent; when none is left, its fault
is taken and its flag clears. -/
def execLaneAccessComplete (id : Nat) (s : State) : Out :=
  match s.findAcc id with
  | none => .next s
  | some a =>
    if a.kind.isFabric then
      .next ((if !a.began && s.mayPerform a then s.sendAccess a else s).checkAccess id)
    else .next ((s.runAccess id).checkAccess id)

/-! ### vexit (R329) -/

/-- R329: the effective mask leaves LIVE and the EXEC of every fragment of the phrase. -/
def execVexit (f : LaneFields) (s : State) : Out :=
  let p := phraseOf s.cur
  let m := s.lmask
  let s1 := s.updPhr p fun q => { q with live := q.live &&& ~~~m }
  let s2 := (s1.fragsOf p).foldl (fun s k => s.updFrag k fun g => { g with exec := g.exec &&& ~~~m }) s1
  .next (s2.laneIssued f)

end Sys2Proof.Machine
end

