-- ==== Sys2Proof/Machine/Gutters.lean ====
section
/-! DEFINITION. Gutters (R351-R356): descriptors, pointers, declaration, advance, status, and lane access to entries. -/
namespace Sys2Proof.Machine

/-! ### Descriptors (R351) -/

def gutBase (d : Word) : Nat := field d 0 19
def gutLogN (d : Word) : Nat := field d 32 4
def gutLogSz (d : Word) : Nat := field d 36 4
def gutFire (d : Word) : Nat := field d 43 9
def gutCown (d : Word) : Nat := field d 52 2
def gutPown (d : Word) : Nat := field d 54 2

/-- A valid descriptor: no field reserved or out of range, and the ring within scratch. -/
def gutValid (d : Word) : Bool :=
  field d 56 8 == 0 && field d 40 3 == 0 && field d 19 13 == 0 && field d 0 7 == 0 &&
  gutPown d != 3 && gutCown d != 3 && 7 ≤ gutLogSz d && gutLogSz d ≤ 14 && gutLogN d ≤ 8 &&
  1 ≤ gutFire d && gutFire d ≤ 2 ^ gutLogN d && gutBase d + 2 ^ (gutLogN d + gutLogSz d) ≤ 0x60000

/-! ### Pointers (R353) -/

def Gutter.present (g : Gutter) : Nat := (g.prod - g.cons).toNat
def Gutter.room (g : Gutter) : Nat := 2 ^ gutLogN g.desc - g.present

/-- The scratch offset of entry `j` of a pointer. -/
def Gutter.entry (g : Gutter) (p : BitVec 16) (j : Nat) : Nat :=
  gutBase g.desc + 2 ^ gutLogSz g.desc * ((p.toNat + j) % 2 ^ gutLogN g.desc)

def State.gutter (s : State) (core g : Nat) : Option Gutter := tfind (s.core core).gutters g

def State.putGutter (s : State) (core g : Nat) (v : Gutter) : State :=
  s.updCore core fun c => { c with gutters := tput g v c.gutters }

def State.updGutter (s : State) (core g : Nat) (h : Gutter → Gutter) : State :=
  s.updCore core fun c => { c with gutters := tmod g h c.gutters }

/-! ### gdef, gadv, gstat -/

/-- The gutter that an engine operation names. -/
def MxAct.gutter : MxAct → Option Nat
  | .lds g _ _ | .mma g _ _ _ | .out g _ _ _ _ _ => some g
  | _ => none

/-- The gutter that a copy names. -/
def copyGutter : CopyOps → Option Nat
  | .mem _ _ _ => none
  | .fromGutter g _ | .toGutter _ g => some g.toNat

/-- gdef waits until no issued engine operation and no copy names the gutter (R352). -/
def State.gdefWaits (s : State) (g : Nat) : Bool :=
  ((s.core s.myCore).engine.ops.any fun o => o.act.gutter == some g) ||
  (s.copies.any fun c => c.core == s.myCore && c.st != .done && copyGutter c.ops == some g)

/-- R352: gdef. -/
def execGdef (g : BitVec 3) (sa : SReg) (s : State) : Out :=
  if s.gdefWaits g.toNat then .next s
  else if !gutValid (s.r sa) then s.fault .gutter 0x03 (s.r sa)
  else .next (s.putGutter s.myCore g.toNat { desc := s.r sa }).adv

/-- What gadv finds of its gutter and count (R354). -/
inductive Advance where
  | bad (sub : BitVec 8)
  | wait
  | go
  deriving DecidableEq, Repr

def State.gadvCheck (s : State) (g : Nat) (consumer : Bool) (n : Word) : Advance :=
  match s.gutter s.myCore g with
  | none => .bad 0x01
  | some x =>
    if (if consumer then gutCown x.desc else gutPown x.desc) != 0 then .bad 0x02
    else if n == 0 || n.toNat > 2 ^ gutLogN x.desc then .bad 0x04
    else if (if consumer then x.present else x.room) < n.toNat then .wait
    else .go

/-- gadv waits until its lane queue is empty; the producer's advance is a release of the fragment's earlier writes. -/
def State.gadvStalls (s : State) (g : Nat) (consumer : Bool) (n : Word) : Bool :=
  !s.me.queue.isEmpty || s.gadvCheck g consumer n == .wait || (!consumer && s.relWaits s.cur .phr)

/-- gadv: the pointer advances by n in one step (R354). -/
def State.gadv (s : State) (g : BitVec 3) (sa : SReg) (consumer : Bool) : Out :=
  let n := s.r sa
  if s.gadvStalls g.toNat consumer n then .next s
  else match s.gadvCheck g.toNat consumer n with
    | .bad sub => s.fault .gutter sub (wordOf (g.toNat + at' (n.toNat % 2 ^ 32) 32))
    | .wait => .next s
    | .go =>
      let k : BitVec 16 := n.setWidth 16
      .next (s.updGutter s.myCore g.toNat fun x =>
        if consumer then { x with cons := x.cons + k } else { x with prod := x.prod + k }).adv

/-- R354: gadv.p. -/
def execGadvP (g : BitVec 3) (sa : SReg) (s : State) : Out := s.gadv g sa false

/-- R354: gadv.c. -/
def execGadvC (g : BitVec 3) (sa : SReg) (s : State) : Out := s.gadv g sa true

/-- The word of gstat (R355). -/
def gstatWord (g : Option Gutter) : Word :=
  match g with
  | none => 0
  | some x => wordOf (at' 1 63 + at' x.present 32 + at' x.cons.toNat 16 + x.prod.toNat)

/-- R355: gstat. -/
def execGstat (sd : SReg) (g : BitVec 3) (s : State) : Out := putNext sd (gstatWord (s.gutter s.myCore g.toNat)) s

/-! ### Faults of issue checks (R345, R356, R434) -/

/-- A lane instruction that fails a check at issue: it issues nothing, and its fault is determined. -/
def State.issueFault (s : State) (c : Cause) (sub : BitVec 8) (data : Word) : Out :=
  let q := s.clause
  let x : LaneFault :=
    { seq := s.nextId, redo := q.redo
      exn := { cause := c, sub := sub, mask := q.mask, data := data, lane := true, pa := q.instrAddr q.next, kind := .laneIssue } }
  let s1 := (s.updMe fun g => g.laneAdv s.cycle).bump
  .next ((s1.addFault s.cur x).settle s.cur)

/-! ### vgwr and vgrd (R356) -/

def vgN (f : LaneFields) : Nat := field f.imm 0 3
def vgRel (f : LaneFields) : Nat := field f.imm 4 8

/-- Whether VB names no register: its code is zero, and lanes lie one after another. -/
def vgPacked (f : LaneFields) : Bool := f.vb == .v 0

/-- The offset of a lane within the entry. -/
def State.vgOff (s : State) (f : LaneFields) (l : Nat) : Nat :=
  field f.imm 12 14 + (if vgPacked f then l * tyBytes f.ty else s.src f f.vb 32 l)

/-- The check at issue: an undeclared gutter, or a pointer that the lanes do not own. -/
def State.vgBad (s : State) (f : LaneFields) (write : Bool) : Option (BitVec 8) :=
  match s.gutter s.myCore (vgN f) with
  | none => some 0x01
  | some x => if (if write then gutPown x.desc else gutCown x.desc) != 0 then some 0x02 else none

/-- The offset in scratch of a lane's datum. -/
def State.vgByte (s : State) (f : LaneFields) (x : Gutter) (write : Bool) (l : Nat) : Nat :=
  x.entry (if write then x.prod else x.cons) (vgRel f) + s.vgOff f l

/-- The memory key of a lane's datum. -/
def State.vgKey (s : State) (f : LaneFields) (x : Gutter) (write : Bool) (l : Nat) : Nat := scratchKey s.myCore (s.vgByte f x write l)

/-- Whether a lane's datum lies off its size or outside the entry. -/
def State.vgOutside (s : State) (f : LaneFields) (x : Gutter) (l : Nat) : Bool :=
  s.vgOff f l % tyBytes f.ty != 0 || s.vgOff f l + tyBytes f.ty > 2 ^ gutLogSz x.desc

/-- REL is not below the room (vgwr) or the count present (vgrd), or an access, fence or system call of the fragment stands before the
instruction's own access and is still to be performed (R273, R312, R444, R448): it does not issue. -/
def State.vgWaits (s : State) (f : LaneFields) (write : Bool) : Bool :=
  match s.gutter s.myCore (vgN f) with
  | none => false
  | some x =>
    (s.vgBad f write).isNone && (!(vgRel f < (if write then x.room else x.present)) ||
      !s.atOnce s.cur false write (((lanesOf s.lmask).filter fun l => !s.vgOutside f x l).map fun l => ⟨s.vgKey f x write l, tyBytes f.ty, 0, 2⟩) ||
      (lanesOf s.lmask).any fun l => !s.vgOutside f x l && s.touchPending s.cur write (s.vgKey f x write l) (tyBytes f.ty))

/-- The lanes that fail, in increasing number, with their causes: a datum outside the entry, or a read of a poisoned line (R158). -/
def State.vgFails (s : State) (f : LaneFields) (x : Gutter) (write : Bool) : List (Nat × Cause × BitVec 8 × Word) :=
  (lanesOf s.lmask).filterMap fun l =>
    if s.vgOutside f x l then some (l, .gutter, 0x05, wordOf (s.vgOff f l))
    else if !write && s.poisoned (s.vgKey f x write l) (tyBytes f.ty) then
      some (l, .access, 0x0A, wordOf (ownWindow + s.vgByte f x write l))
    else none

/-- The fault of the lanes that fail (R142, R307). -/
def State.vgFault (s : State) (bad : List (Nat × Cause × BitVec 8 × Word)) : Option LaneFault :=
  let q := s.clause
  (faultOf bad).map fun e => runFault s.nextId (q.instrAddr q.next) q.redo e.1 e.2.1 e.2.2.2 e.2.2.1

/-- R356: vgwr; its write is performed at issue. -/
def execVgwr (f : LaneFields) (s : State) : Out :=
  match s.vgBad f true with
  | some sub => s.issueFault .gutter sub (wordOf (vgN f))
  | none =>
    if s.vgWaits f true then .next s
    else match s.gutter s.myCore (vgN f) with
      | none => .next s
      | some x =>
        let bad := s.vgFails f x true
        let good := (lanesOf s.lmask).filter fun l => !bad.any fun e => e.1 == l
        let ps : List Piece := good.map fun l => ⟨s.vgKey f x true l, tyBytes f.ty, 0, 2⟩
        let s0 := s.updMem fun m => good.foldl (fun m l => writeNat (s.vgKey f x true l) (tyBytes f.ty) (s.srcC f l) m) m
        let s1 := ((s0.heal (pieceKeys ps)).putTags ps (s.me.relFen.map fun sc => s.tagOf s.cur sc)).laneIssued f
        match s.vgFault bad with
        | some e => .next ((s1.addFault s.cur e).settle s.cur)
        | none => .next s1

/-- R356: vgrd; the entry is read at issue, and the result is written at completion. -/
def execVgrd (f : LaneFields) (s : State) : Out :=
  match s.vgBad f false with
  | some sub => s.issueFault .gutter sub (wordOf (vgN f))
  | none =>
    if s.vgWaits f false then .next s
    else match s.gutter s.myCore (vgN f) with
      | none => .next s
      | some x =>
        let bad := s.vgFails f x false
        let good := (lanesOf s.lmask).filter fun l => !bad.any fun e => e.1 == l
        let q := s.clause
        let value (l : Nat) : Nat := readNat s.mem (s.vgKey f x false l) (tyBytes f.ty)
        let writes := match f.vd with
          | .v n => good.flatMap fun l => laneWrites f.ty n.toNat l (value l)
          | _ => []
        let ring := if pushesRing f then some (s.ringVals s.lmask good f.ty fun l => { val := value l }) else none
        let r : LaneRes := { id := s.nextId, frag := s.cur, due := 0, clause := q.num, writes := writes, ring := ring
                             flag := q.flagOf f.fb, fault := s.vgFault bad }
        let s1 := s.laneIssued f
        .next { s1 with results := s1.results ++ [r] }

end Sys2Proof.Machine
end

