-- ==== Sys2Proof/Machine/Invals.lean ====
section
/-! DEFINITION. Invalidations of cached tables (R437-R439): of TLBs, of noun caches and of verb caches. -/
namespace Sys2Proof.Machine

/-- An invalidation issues: a release fence stands before it (R438 step 1), and the walker records of its contexts are noted. -/
def State.startInval (s : State) (sd : SReg) (what : InvalKind) (dom : Bool) (ctx item : Option Nat) : State :=
  let sc : Scope := if dom then .dom else .dev
  let s1 := s.putFence s.cur ⟨.rel, sc⟩ none 0
  let recs := if what == .tlb then s.cores.flatMap fun e =>
      (e.2.misses.filter fun m => ctx.all fun c => m.ctx == c).map (·.num) else []
  let s2 : State := { s1 with
    invals := s1.invals ++ [{ id := s1.nextId, frag := s.cur, sd := sd, what := what, scope := sc, ctx := ctx, item := item, records := recs }] }
  s2.bump.adv

/-- Whether an entry is one that an invalidation removes (R437). -/
def Inval.covers (v : Inval) (e : TlbEntry) : Bool := (v.ctx.all fun c => e.ctx == c) && v.item.all fun a => e.covers a

/-- Whether a copy of a noun or verb cache is one that it removes, on every die (R437). -/
def Inval.drops (v : Inval) (k : InvalKind) (c : TabCopy) : Bool :=
  v.what == k && (v.ctx.all fun x => c.ctx == x) && v.item.all fun i => c.index == i

/-- The outstanding accesses that some entries translated. -/
def State.translatedBy (s : State) (es : List TlbEntry) : List Nat :=
  (s.accs.filter fun a => !a.kind.isFabric && a.lanes.any fun l => l.st == .todo &&
    (splitParts l.addr.toNat (if a.kind.isFuture then 16 else a.bytes)).any fun p =>
      es.any fun e => e.ctx == s.ctxOf a.frag && e.covers p.1).map (·.id)

/-- The entries that an invalidation removes. -/
def State.invalHits (s : State) (v : Inval) : List TlbEntry :=
  if v.what == .tlb then
    (s.cores.flatMap fun e => e.2.tlb.filter v.covers) ++ s.clusters.flatMap fun e => e.2.tlb.filter v.covers
  else []

/-- The removal (R438 step 3). -/
def State.removeCopies (s : State) (v : Inval) : State :=
  let w := { v with removed := true, accs := s.translatedBy (s.invalHits v) }
  let drop (t : List TlbEntry) : List TlbEntry := if v.what == .tlb then t.filter fun e => !v.covers e else t
  { s with
    cores := s.cores.map fun e => (e.1, { e.2 with tlb := drop e.2.tlb })
    clusters := s.clusters.map fun e => (e.1, { e.2 with tlb := drop e.2.tlb })
    nounCache := s.nounCache.filter fun c => !v.drops .nouns c
    verbCache := s.verbCache.filter fun c => !v.drops .verbs c
    invals := s.invals.map fun x => if x.id == v.id then w else x }

/-- Whether the release of an invalidation is still to come (R438 step 1). -/
def State.invalFirst (s : State) (v : Inval) : Bool :=
  s.accs.any fun b => b.frag == v.frag && b.id < v.id && fenceHolds ⟨.rel, v.scope⟩ b

/-- Whether an operation that a matching noun copy resolved, its noun's or that of the foreign noun of a GRANT, is on its way to
another module (R438 step 2). -/
def Inval.awaits (v : Inval) (o : NounOp) : Bool :=
  v.what == .nouns && o.msg.isSome &&
  [o.noun, o.target].any fun n => (v.ctx.all fun c => nounCtx n == c) && v.item.all fun i => nounIndex n == i

/-- Whether an invalidation waits: for its release, its records and the operations resolved before it (R438 steps 1 and 2), and
after the removal for the accesses (step 4). -/
def State.invalWaits (s : State) (v : Inval) : Bool :=
  if v.removed then s.accs.any fun a => v.accs.contains a.id && a.pending
  else
    s.invalFirst v || (s.cores.any fun e => e.2.misses.any fun m => v.records.contains m.num) || s.nouns.any v.awaits

/-- Whether the walks of a context are held on a core: a tlbinv has issued whose release is still to come, so that a walk begun now
would read the table too early (R439). The walks that the release itself needs are not held. -/
def State.walkHeld (s : State) (core ctx : Nat) : Bool :=
  s.invals.any fun v => v.what == .tlb && !v.removed && (v.ctx.all fun c => c == ctx) && s.invalFirst v &&
    !(s.coreOf v.frag == core && s.accs.any fun b => b.frag == v.frag && b.id < v.id && b.lanes.any fun l => l.st == .walk)

/-- An invalidation goes on: the removal, and then the zero in its register. -/
def State.advanceInval (s : State) (v : Inval) : State :=
  if s.invalWaits v then s
  else if v.removed then
    let s1 : State := { s with invals := s.invals.filter fun x => x.id != v.id }
    if (s1.frag v.frag).live then s1.updFrag v.frag fun f => f.setReg v.sd 0 else s1
  else s.removeCopies v

end Sys2Proof.Machine
end

