-- ==== Sys2Proof/Machine/Nouns.lean ====
section
/-! DEFINITION. Noun operations: their issue (R382, R387), the delivery by the state of the target (R381, R383-R392), and replies;
sleep (R123, R390) and the end of a phrase (R25, R393, R426). -/
namespace Sys2Proof.Machine

/-! ### Issue -/

/-- A noun operation is sent to the NDU; the fragment goes on (R382). -/
def State.sendNoun (s : State) (act : NounAct) (noun : Word) (sd sf : SReg) : State :=
  let s1 : State := { s with
    nouns := s.nouns ++ [{ id := s.nextId, src := .frag s.cur sd sf s.me.pc, ctx := s.myCtx, act := act, noun := noun }] }
  s1.bump

/-- nwake, nsignal and ndeposit stand behind a release fence of system scope (R387). -/
def State.sendReleased (s : State) (act : NounAct) (noun : Word) (sd : SReg) : Out :=
  .next ((s.putFence s.cur ⟨.rel, .sys⟩ none 0).sendNoun act noun sd 0).adv

/-- R389: nwake. -/
def execNwake (sd sa : SReg) (s : State) : Out := s.sendReleased .wake (s.r sa) sd

/-- R389: nsignal. -/
def execNsignal (sd sa sb : SReg) (s : State) : Out := s.sendReleased (.signal ((s.r sb).setWidth 16)) (s.r sa) sd

/-- R389: ndeposit. -/
def execNdeposit (sd sa sb : SReg) (n : BitVec 2) (force : Bool) (s : State) : Out :=
  s.sendReleased (.deposit n (s.r sb) force) (s.r sa) sd

/-- A noun operation for whose reply the fragment waits. -/
def State.sendWaiting (s : State) (act : NounAct) (noun : Word) (sd sf : SReg) : Out :=
  .next ((s.sendNoun act noun sd sf).updMe fun f => { f with wait := .reply s.nextId })

/-- R392: njoin. -/
def execNjoin (sd sf sa : SReg) (s : State) : Out := s.sendWaiting .join (s.r sa) sd sf

/-- R391: ntest. -/
def execNtest (sd sa : SReg) (s : State) : Out := .next (s.sendNoun .test (s.r sa) sd 0).adv

/-! ### Answers -/

/-- Whether an operation writes two registers: a value and a word. -/
def NounAct.pair : NounAct → Bool
  | .join | .resume _ => true
  | _ => false

/-- The STATUS bits that an answer sets in the issuer (R116, R380). -/
def answerStatus (act : NounAct) (word : Word) : BitVec 32 :=
  let code := field word 0 8
  match act with
  | .deposit _ _ _ => if code == 1 then statusNounbusy else if code == 2 || code == 3 then statusNoundead else 0
  | .wake | .signal _ | .cancel => if code == 2 || code == 3 then statusNoundead else 0
  | .join | .test | .resume _ => if code == 3 then statusNoundead else 0

/-- Whether the return of an operation is an acquire (R387, R423). -/
def answerAcquires (act : NounAct) (word : Word) : Bool :=
  match act with
  | .join => field word 0 8 == 0
  | .resume _ => true
  | _ => false

/-- A noun operation is answered with a value and a word whose bits 7:0 are its code (R380, R391). -/
def State.answer (s : State) (o : NounOp) (value word : Word) : State :=
  let st := answerStatus o.act word
  match o.src with
  | .frag k sd sf pc =>
    { s with replies := s.replies ++ [{ id := o.id, frag := k, pc := pc
                                        writes := if o.act.pair then [(sd, value), (sf, word)] else [(sd, word)]
                                        status := st, waits := o.act.pair
                                        acq := if answerAcquires o.act word then some .sys else none }] }
  | .ended p => if (tfind s.phrases p).isSome then s.setStatus p st else s
  | .port hp np slot tag caddr =>
    let result := match o.act with | .join => value | .test => word | _ => 0
    let isJoin := o.act == .join
    s.complete hp np slot tag caddr result (if isJoin then field word 16 8 else 0) (if isJoin then field word 8 8 else 0) (field word 0 8)
  | .peer m msgid => s.replyPeer m msgid (replyMsg m msgid o.noun value word)

/-- The answer to a module whose noun operation cannot be resolved (R510): a failure with the sub-cause of R193. -/
def nounFailMsg (dst msgid : Nat) (noun : Word) (sub : BitVec 8) : FabMsg :=
  { replyMsg dst msgid noun 0 0 with op := .fail, sub := sub, body := [] }

/-- Resolution has taken a NOUN fault (R193, R382, R397). -/
def State.answerFault (s : State) (o : NounOp) (sub : BitVec 8) : State :=
  match o.src with
  | .frag k sd sf pc =>
    { s with replies := s.replies ++ [{ id := o.id, frag := k, pc := pc, writes := [], waits := o.act.pair
                                        locks := if o.act.pair then [sd, sf] else [sd]
                                        exn := some { cause := .noun, sub := sub, mask := 0, data := o.noun, kind := .scalar } }] }
  | .ended _ => s
  | .port hp np slot tag caddr => s.complete hp np slot tag caddr 0 0 0 (0x20 + sub.toNat)
  | .peer m msgid => s.replyPeer m msgid (nounFailMsg m msgid o.noun sub)

/-- An operation is answered with a code alone. DESIGN CHOICE: the value of an njoin that returns STALE or NOTARGET is zero (R392; log 88). -/
def State.answerCode (s : State) (o : NounOp) (code : Nat) : State := s.answer o 0 (wordOf code)

/-! ### Targets (R381) -/

/-- The right that an operation needs. -/
def NounAct.right : NounAct → Nat
  | .wake => rWake | .signal _ => rSignal | .deposit _ _ _ => rDeposit | .join => rJoin | .test => 0
  | .cancel | .resume _ => rApply

/-- Whether a kind of noun takes an operation. -/
def kindOk (act : NounAct) (kind : Nat) : Bool :=
  match act with
  | .wake | .signal _ | .deposit _ _ _ => kind == 0 || kind == 1
  | .join => kind != 3
  | .test => true
  | .cancel | .resume _ => kind == 2

/-- njoin of the issuer's own phrase (R381). -/
def State.joinsNoun (s : State) (o : NounOp) (n : Word) : Bool :=
  match o.act, o.src with
  | .join, .frag k _ _ _ => n == (s.phr (phraseOf k)).noun
  | _, _ => false

def State.joinsSelf (s : State) (o : NounOp) : Bool := s.joinsNoun o o.noun

/-- Whether an operation takes a noun as its target (R381): its kind, and not the issuer's own phrase for njoin. -/
def State.takesNoun (s : State) (o : NounOp) (n : Word) : Bool := kindOk o.act (nounKind n) && !s.joinsNoun o n

/-- The phrase on this module that a noun names. -/
def State.phraseByNoun (s : State) (n : Word) : Option Nat :=
  (s.phrases.find? fun e => e.2.noun == n && !e.2.gone).map (·.1)

def State.instByNoun (s : State) (n : Word) : Option Nat := (s.applied.find? fun e => e.2.noun == n).map (·.1)

/-- The partition to which a context is bound (R44, R114). -/
def State.partOf (s : State) (ctx : Nat) : Nat := field (s.ctx ctx).ctxw 32 3

/-! ### Delivery by state (R383-R386) -/

/-- A wake reaches a running phrase: it ends the sleep of every fragment then in nsleep, or stays recorded (R31, R123). -/
def State.wakePhrase (s : State) (p : Nat) : State :=
  let ks := (s.fragsOf p).filter fun k => (s.frag k).wait == .sleep
  if ks.isEmpty then s.updPhr p fun q => { q with wakep := true }
  else ks.foldl (fun s k => (s.updFrag k Frag.resume).acquire k .sys) (s.updPhr p fun q => { q with wakep := false })

/-- An operation at the core of a running phrase (R96, R123, R389): its code, and the state. -/
def State.coreAct (s : State) (p : Nat) (act : NounAct) : Nat × State :=
  match act with
  | .wake => (0, s.wakePhrase p)
  | .signal b => (0, s.updPhr p fun q => { q with sigp := q.sigp ||| b })
  | .deposit n v force =>
    if (s.phr p).dpend.getLsbD n.toNat && !force then (1, s)
    else (0, (s.updPhr p fun q => { q with dpend := q.dpend ||| BitVec.ofNat 4 (2 ^ n.toNat) }).updFrag (fragKey p 0)
      fun f => f.setReg (60 + n.setWidth 6) v)
  | _ => (0, s)

/-- A ready phrase's noun is appended to its partition's ready queue (R479). -/
def State.appendReady (s : State) (part : Nat) (n : Word) : State :=
  let a := (s.part part).ready.toNat
  let prod := readNat s.mem a 8
  if prod - readNat s.mem (a + 8) 8 == 1024 then s.updMem fun m => writeNat (a + 16) 1 (readNat m (a + 16) 1 ||| 1) m
  else s.updMem fun m => writeNat a 8 (prod + 1) (writeNat (a + 128 + 8 * (prod % 1024)) 8 n.toNat m)

/-- An operation on the delivery header of a save image at address `a` (R383, R384): its code, and the state. -/
def State.imageAct (s : State) (n : Word) (a : Nat) (act : NounAct) : Nat × State :=
  let h := readNat s.mem a 8
  match act with
  | .wake =>
    if h.testBit 5 then (0, (s.updMem (writeNat a 8 (h ||| 0x50))).appendReady (s.partOf (nounCtx n)) n)
    else (0, s.updMem (writeNat a 8 (h ||| 0x10)))
  | .signal b => (0, s.updMem (writeNat a 8 (h ||| b.toNat * 2 ^ 16)))
  | .deposit r v force =>
    if h.testBit r.toNat && !force then (1, s)
    else (0, s.updMem fun m => writeNat a 8 (h ||| 2 ^ r.toNat) (writeNat (a + 16 + 8 * r.toNat) 8 v.toNat m))
  | _ => (0, s)

/-- An operation on the mailbox of a host thread at memory key `a` (R386): its code, and the state. -/
def State.mailAct (s : State) (a : Nat) (act : NounAct) : Nat × State :=
  let h := readNat s.mem a 8
  match act with
  | .wake => (0, s.updMem fun m => writeNat (a + 8) 8 (readNat m (a + 8) 8 + 1) (writeNat a 8 (h ||| 0x10) m))
  | .signal b => (0, s.updMem (writeNat a 8 (h ||| b.toNat * 2 ^ 16)))
  | .deposit r v force =>
    if h.testBit r.toNat && !force then (1, s)
    else (0, s.updMem fun m => writeNat a 8 (h ||| 2 ^ r.toNat) (writeNat (a + 16 + 8 * r.toNat) 8 v.toNat m))
  | _ => (0, s)

/-- An operation on a migrating phrase, from a source noun: it is applied to the shadow, from which its code comes, and queued (R176). -/
def Migration.act (g : Migration) (src : Word) (act : NounAct) : Nat × Migration :=
  let q := { g with fwd := g.fwd ++ [(src, act)] }
  match act with
  | .wake => (0, { q with wakep := true })
  | .signal b => (0, { q with sigp := g.sigp ||| b })
  | .deposit n _ force =>
    if g.shadow.getLsbD n.toNat && !force then (1, q) else (0, { q with shadow := g.shadow ||| BitVec.ofNat 4 (2 ^ n.toNat) })
  | _ => (0, g)

/-- The source noun of an operation: the phrase that issued it, the noun to which a port is bound, or what its message names. -/
def State.sourceNoun (s : State) (o : NounOp) : Word :=
  match o.src with
  | .frag k _ _ _ => (s.phr (phraseOf k)).noun
  | .ended p => (s.phr p).noun
  | .port hp np _ _ _ => ((tget {} s.host.ports (if hp then np + 1024 else np)).bound).getD 0
  | .peer _ _ => o.sender

/-- Whether the forward queue of a migrating noun is full: later operations are held (R176). -/
def State.fwdFull (s : State) (n : Word) : Bool := s.migs.any fun g => g.noun == n && g.fwd.length ≥ 256

/-! ### Messages that carry an operation to another module -/

def NounAct.code : NounAct → Nat
  | .wake => 0x10 | .signal _ => 0x11 | .deposit _ _ _ => 0x12 | .join => 0x13 | .test => 0x14 | .cancel => 0xD3 | .resume _ => 0xCF

def NounAct.value : NounAct → Word
  | .signal b => b.setWidth 64
  | .deposit _ v _ => v
  | .resume v => v
  | _ => 0

/-- Bits 15:8 N and bit 16 .force of a deposit. -/
def NounAct.mods : NounAct → Nat
  | .deposit n _ force => at' n.toNat 8 + at' (bit force) 16
  | _ => 0

def nounActOf (word value : Word) : Option NounAct :=
  match field word 0 8 with
  | 0x10 => some .wake
  | 0x11 => some (.signal (value.setWidth 16))
  | 0x12 => some (.deposit (word.extractLsb' 8 2) value (word.getLsbD 16))
  | 0x13 => some .join
  | 0x14 => some .test
  | 0xD3 => some .cancel
  | 0xCF => some (.resume value)
  | _ => none

/-- A noun operation goes to the module on which its target `n` runs, or whose table holds it (R198, R383, R509). -/
def State.forwardNoun (s : State) (o : NounOp) (m : Nat) (n : Word) (rights : Nat) : State :=
  let ph := s.sourceNoun o
  let msg : FabMsg :=
    { op := .noun, rop := .rd, cls := .auto, ord := true, w64 := true, sgn := false, win := 0, sub := 0, busy := false, lanes := 1
      msgid := 0, oseq := s.nextOseq ph m, srcph := ph, ctx := o.ctx, dst := m
      body := [⟨0, n, o.act.value, wordOf (o.act.code + o.act.mods)⟩] }
  let s1 := (s.sendMsg m msg).bumpOseq ph m
  { s1 with nouns := s1.nouns.map fun x => if x.id == o.id then { x with msg := some s.fabric.msgid, within := rights, target := n } else x }

/-- The 32 bytes of a forward-queue entry: the operation, the source noun, the target register, the value (R175; log 52). -/
def Migration.writeEntry (g : Migration) (src : Word) (act : NounAct) (m : Mem) : Mem :=
  let a := g.queue + 32 * g.fwd.length
  let reg := match act with | .deposit n _ _ => 60 + n.toNat | _ => 0
  writeNat a 8 (act.code + act.mods) (writeNat (a + 8) 8 src.toNat (writeNat (a + 16) 8 reg (writeNat (a + 24) 8 act.value.toNat m)))

/-! ### Instances: cancel and resume (R423, R424) -/

/-- An instance is cancelled (R165, R424): parts that have not started never start, and its phrases stop. -/
def State.cancelInst (s : State) (i : Nat) : State :=
  match s.inst i with
  | none => s
  | some a =>
    let s1 := (s.updInst i fun a => { a with cancelled := true, queued := false }).updLq a.lq
      fun q => { q with items := q.items.filter fun x => x != i }
    let s2 := s1.stopNodes i (List.range a.nodes.length)
    if (s2.phrasesIn i (List.range a.nodes.length)).isEmpty then s2.instDead i xCancelled 0 0 else s2

/-- Whether the root of an instance is a COROUTINE; before its claims are made the verb table tells (R199, R412). -/
def State.rootIsCoroutine (s : State) (i : Nat) : Bool :=
  match s.inst i with
  | none => false
  | some a => match a.node 0 with
    | some n => n.kind == .coroutine
    | none => readNat s.mem ((s.ctx a.ctx).vtab.toNat + 32 * a.packet.verb) 8 / 2 ^ 62 == 2

/-- The value passed to a yielded phrase goes into its image, where the restore finds it as kyield's result: d0-d3 stand in the
delivery header, the others in the root's record (R422, R474). -/
def State.passValue (s : State) (p : Nat) (v : Word) : State :=
  match s.leafOf (s.phr p).noun with
  | none => s
  | some a =>
    let img := (readLeaf s.mem a).word1.toNat
    let r := (s.frag (fragKey p 0)).yieldTo.toNat
    if r == 0 then s
    else if r ≥ 60 then s.updMem (writeNat (img + 16 + 8 * (r - 60)) 8 v.toNat)
    else s.updMem (writeNat (img + 0x1000 + 8 * r) 8 v.toNat)

/-- A suspended instance serves its oldest resumer: the value is passed, and the phrase waits for a place (R423). -/
def State.serveResumer (s : State) (i : Nat) : State :=
  match s.inst i with
  | none => s
  | some a => match a.suspended, a.served, a.waiting with
    | some _, none, (id, v) :: ws =>
      match s.phrases.find? fun e => e.2.inst == i && !e.2.present && !e.2.isAux && !e.2.gone with
      | none => s
      | some (p, q) =>
        ((s.updInst i fun a => { a with suspended := none, served := some id, waiting := ws }).passValue p v).updPart a.part
          fun t => { t with restores := t.restores ++ [q.noun] }
    | _, _, _ => s

/-! ### NOUN_DELIVERY -/

/-- Whether the port of a context does not translate the page of a mailbox with permission to write (R149, R386). -/
def State.mailUnready (s : State) (ctx : Nat) (a : Word) : Bool := !s.atcHit (s.hportOf ctx) ctx (pageOf a) true

/-- The delivery of an operation at the resolved entry (R383). A mailbox is written once its page has been translated; where the
host refuses that page or has gone, the operation finds its target DEAD (log 54). -/
def State.deliverAt (s : State) (o : NounOp) (l : Leaf) (rights : Nat) (n : Word) : State :=
  let gone : State := { s with nouns := s.nouns.filter fun x => x.id != o.id }
  let acted (r : Nat × State) : State := r.2.answerCode o r.1
  match o.act with
  | .test => gone.answer o 0 (resultWord rights l.state l.xcause l.xstat 0)
  | .join =>
    if l.state == stDead then gone.answer o l.word1 (resultWord 0 stDead l.xcause l.xstat 0)
    else { gone with joins := gone.joins ++ [⟨o.id, o.src, n⟩] }
  | .cancel =>
    if l.state == stDead then gone.answerCode o 2
    else match s.instByNoun n with
      | some i => (gone.answerCode o 0).cancelInst i
      | none => gone.answerCode o 0
  | .resume v =>
    if l.state == stDead then gone.answer o l.word1 1
    else match s.instByNoun n with
      | some i =>
        if s.rootIsCoroutine i then
          let s1 : State := { gone with joins := gone.joins ++ [⟨o.id, o.src, n⟩] }
          (s1.updInst i fun a => { a with waiting := a.waiting ++ [(o.id, v)] }).serveResumer i
        else gone.answerCode o 4
      | none => gone.answerCode o 4
  | act =>
    if l.state == stDead then gone.answerCode o 2
    else if l.state == stRunning then
      if moduleOfLoc l.word1.toNat != s.moduleNo then s.forwardNoun o (moduleOfLoc l.word1.toNat) n rights
      else match s.phraseByNoun n with
        | some p => acted (gone.coreAct p act)
        | none => gone.answerCode o 0
    else if l.state == stSaved || l.state == stSwapped then acted (gone.imageAct n l.word1.toNat act)
    else if l.state == stHost then
      if o.mailFail || (s.hostPort (s.hportOf (nounCtx n))).gone then gone.answerCode o 2
      else if s.mailUnready (nounCtx n) l.word1 then s.askHost (s.hportOf (nounCtx n)) (nounCtx n) (pageOf l.word1) true false
      else acted (gone.mailAct (s.hostAddr (s.hportOf (nounCtx n)) (nounCtx n) l.word1.toNat) act)
    else
      match s.migs.find? fun g => g.noun == n with
      | none => gone.answerCode o 0
      | some g =>
        let src := s.sourceNoun o
        let r := g.act src act
        let s1 : State := { gone with migs := gone.migs.map fun x => if x.noun == n then r.2 else x }
        (s1.updMem (g.writeEntry src act)).answerCode o r.1

/-- The die on whose cache an operation is resolved: that of the issuing core; ports and peers have none. -/
def State.dieOfOp (s : State) (o : NounOp) : Option Nat :=
  match o.src with
  | .frag k _ _ _ => some (dieOf (s.coreOf k))
  | .ended p => some (dieOf (s.phr p).core)
  | .port _ _ _ _ _ | .peer _ _ => none

/-- The resolution of an operation's noun. -/
def State.resolveOp (s : State) (o : NounOp) : Resolved :=
  if o.granted then s.resolveForeign o.noun o.act.right
  else s.resolveNoun (s.dieOfOp o) o.ctx o.noun (s.takesNoun o) o.act.right

/-- The checks of R381 and R193, and then the delivery. -/
def State.deliver (s0 : State) (o : NounOp) : State :=
  let s := s0.keepNoun (s0.dieOfOp o) o.ctx o.noun
  let gone : State := { s with nouns := s.nouns.filter fun x => x.id != o.id }
  if !s0.takesNoun o o.noun then { s0 with nouns := s0.nouns.filter fun x => x.id != o.id }.answerCode o 4
  else match s0.resolveOp o with
    | .fault sub => gone.answerFault o sub
    | .stale => gone.answerCode o 3
    | .notarget => gone.answerCode o 4
    | .leaf l rights n => s.deliverAt o l rights n
    | .away m rights n => s.drawn.forwardNoun o m n rights

/-- The context and page of the mailbox in host memory to which an operation goes (R386). -/
def State.mailOf (s : State) (o : NounOp) : Option (Nat × Nat) :=
  match o.act, s.resolveOp o with
  | .wake, .leaf l _ n | .signal _, .leaf l _ n | .deposit _ _ _, .leaf l _ n =>
    if l.state == stHost then some (nounCtx n, pageOf l.word1) else none
  | _, _ => none

/-- Whether the port has asked for a page of a context, and waits for the answer. -/
def State.pageAsked (s : State) (ctx page : Nat) : Bool :=
  (s.hostPort (s.hportOf ctx)).reqs.any fun q => q.ctx == ctx && q.page == page && !q.quiet

/-- Whether an operation waits for the page of a mailbox: its port has asked for it, and holds no translation yet (R149, R150). -/
def State.mailWaits (s : State) (o : NounOp) : Bool :=
  !o.mailFail && (s.mailOf o).any fun m => !s.atcHit (s.hportOf m.1) m.1 m.2 true && s.pageAsked m.1 m.2

/-- Whether an operation only waits for an answer from another module, so that its port's later commands go on: a join or a resume
(R387, R398). -/
def NounOp.afar (o : NounOp) : Bool := o.msg.isSome && o.act.pair

/-- Operations of one source that keep their order: a fragment's to one noun, a port's, a module's (R387). -/
def sameSource (a b : NounOp) : Bool :=
  match a.src, b.src with
  | .frag k _ _ _, .frag k' _ _ _ => k == k' && a.noun == b.noun
  | .port hp np _ _ _, .port hp' np' _ _ _ => hp == hp' && np == np'
  | .peer m _, .peer m' _ => m == m'
  | .ended p, .ended p' => p == p' && a.noun == b.noun
  | .ended p, .frag k _ _ _ => p == phraseOf k && a.noun == b.noun
  | .frag k _ _ _, .ended p => p == phraseOf k && a.noun == b.noun
  | _, _ => false

/-- Operations that follow a release (R387, R423). -/
def NounAct.released : NounAct → Bool
  | .join | .test | .cancel => false
  | _ => true

/-- Whether an operation can be delivered now: nothing that must precede it is outstanding (R387). -/
def State.nounReady (s : State) (o : NounOp) : Bool :=
  o.msg.isNone && !s.mailWaits o && !(s.nouns.any fun x => x.id < o.id && sameSource x o && !x.afar) &&
  (match o.src with
   | .frag k _ _ _ => !(o.act.released && s.accs.any fun b => b.frag == k && b.id < o.id && fenceHolds ⟨.rel, .sys⟩ b)
   | _ => true) &&
  (match o.act with
   | .wake | .signal _ | .deposit _ _ _ =>
     (match s.resolveOp o with | .leaf _ _ n => !s.fwdFull n | _ => true)
   | _ => true)

/-- R383: the NDU resolves a noun operation and delivers it. -/
def execNounDelivery (id : Nat) (s : State) : Out :=
  match s.nouns.find? fun o => o.id == id with
  | none => .next s
  | some o => .next (if s.nounReady o then s.deliver o else s)

/-! ### Replies (R382) -/

/-- A reply arrives: STATUS bits, registers, and the end of the wait; or its fault is taken as a delayed one (R270, R382). -/
def State.arrive (s : State) (y : Reply) : State :=
  let s1 : State := { s with replies := s.replies.filter fun x => x.id != y.id }
  if !(s1.frag y.frag).live then s1
  else
    let s2 := s1.setStatus (phraseOf y.frag) y.status
    match y.exn with
    | some e => s2.scalarTrap y.frag e.cause e.sub e.data y.pc
    | none =>
      let s3 := s2.endWait y.frag y.id y.writes
      match y.acq with
      | some sc => s3.acquire y.frag sc
      | none => s3

/-- Whether a reply can arrive: a fault determined on a frozen core is taken after the release (R467). -/
def State.replyReady (s : State) (y : Reply) : Bool := y.exn.isNone || !(s.core (s.coreOf y.frag)).frozen

/-- R382: a reply arrives, or an invalidation goes on (R438). -/
def execReplyArrival (id : Nat) (s : State) : Out :=
  match s.replies.find? fun y => y.id == id with
  | some y => .next (if s.replyReady y then s.arrive y else s)
  | none => match s.invals.find? fun v => v.id == id with
    | some v => .next (s.advanceInval v)
    | none => .next s

/-! ### Sleep (R123, R390) -/

/-- R123: nsleep. -/
def execNsleep (s : State) : Out :=
  if s.myPhr.wakep then .next ((s.updPhr (phraseOf s.cur) fun q => { q with wakep := false }).adv.acquire s.cur .sys)
  else .next (s.updMe fun f => { f with wait := .sleep })

/-! ### The end of a phrase (R25, R393, R426) -/

/-- nexit waits until its lane queue is empty and its flags are clear (R25). -/
def State.nexitWaits (s : State) : Bool := !s.me.queue.isEmpty || !s.allClear s.cur

/-- Every fragment of a phrase stops (R25). -/
def State.stopPhrase (s : State) (p : Nat) : State :=
  (s.fragsOf p).foldl (fun s k => s.updFrag k fun f => { f with stopped := true }) s

/-- R393: nexit; at TL 1 or 2 the phrase fails with the cause of level 1, and the failure is routed (R426, R427). -/
def execNexit (sa : SReg) (s : State) : Out :=
  if s.nexitWaits then .next s
  else
    let p := phraseOf s.cur
    let q := s.myPhr
    let f := s.me
    let cause := BitVec.setWidth 8 f.bank1.ecause
    let how : Leaving := if f.tl == 0 then .exited else .failed cause
    let s1 := (s.updPhr p fun q => { q with leaving := how, exit := if f.tl == 0 then s.r sa else 0 }).stopPhrase p
    let s2 := match q.mate with
      | some m => if q.isAux then s1 else s1.stopPhrase m
      | none => s1
    if f.tl == 0 then .next s2
    else .next (s2.nodeFails q.inst q.node q.noun cause.toNat (field f.bank1.ecause 8 8) f.bank1.edata)

/-- Whether engine operations of a phrase have still to fire or complete, as they do before it retires, however it leaves: only a
kill discards them (R25, R224, R334, R424). -/
def State.engineBusy (s : State) (p : Nat) : Bool := (s.core (s.phr p).core).engine.ops.any fun o => o.phrase == p

/-- Whether a phrase that leaves may become DEAD: its accesses and engine operations have completed, and its auxiliary's with
them (R25, R36, R424); an fget that is queued or refused at its cell is withdrawn then, and one on its way there still arrives. -/
def State.retireReady (s : State) (p : Nat) : Bool :=
  let q := s.phr p
  let ps := if q.isAux then [p] else p :: q.mate.toList
  q.leaving != .no && q.leaving != .killed && !q.gone && !(q.isAux && ((s.phr (q.mate.getD 0)).leaving != .no && q.leaving != .exited)) &&
  ps.all fun x => !(s.accs.any fun a => phraseOf a.frag == x && a.pending && !(s.waiters.any fun w => w.access == a.id)) &&
    !s.engineBusy x

/-- R25: a phrase becomes DEAD. -/
def execPhraseRetire (phrase : Nat) (s : State) : Out :=
  .next (if s.retireReady phrase then s.retire phrase (s.phr phrase).leaving (s.phr phrase).exit else s)

/-- R183, R392: the death notice of another module. -/
def execDeathNotice (noun : Word) (xstat xcause : BitVec 8) (exit : Word) (s : State) : Out :=
  let ours := match s.findLeaf noun with
    | some (_, l) => l.gen == nounGen noun && l.state != stFree && l.state != stDead
    | none => false
  let s1 := if ours then s.nounDead noun xstat.toNat xcause.toNat exit else s.endJoins noun exit xcause.toNat xstat.toNat
  .next (s1.applied.foldl (fun s e => s.returnRecords e.1 noun) s1)

end Sys2Proof.Machine
end

