-- ==== Sys2Proof/Machine/Matrix.lean ====
section
/-! DEFINITION. The matrix engine: shapes and layouts (R339-R343), token and grants (R336-R338, R224), issue and its checks
(R345), firing (R173, R333), and what its operations compute (R86-R91, R346-R350). -/
namespace Sys2Proof.Machine

/-! ### Fields of a matrix word (R344) -/

def mxTile (f : LaneFields) : Nat := field f.imm 0 3
def mxGut (f : LaneFields) : Nat := field f.imm 4 3
def mxCol (f : LaneFields) : Nat := field f.imm 16 5
def mxCnt (f : LaneFields) : Nat := field f.imm 22 5 + 1
def mxAty (f : LaneFields) : Nat := field f.imm 27 2
def mxKdiv (f : LaneFields) : Nat := field f.imm 11 2
def mxNdiv (f : LaneFields) : Nat := field f.imm 9 2

/-! ### Classes and shapes (R339, R340) -/

def classK : MxClass → Nat
  | .h => 32 | .m8 => 64 | .m4 => 128 | .mi => 64 | .s => 8 | .d => 8

def classN : MxClass → Nat
  | .d => 16
  | _ => 32

/-- The block height of a pre-shuffled operand, and the elements per 8 bytes. -/
def classKb : MxClass → Nat
  | .s | .d => 8
  | _ => 32

def classE : MxClass → Nat
  | .h => 4 | .m8 => 8 | .m4 => 16 | .mi => 8 | .s => 2 | .d => 1

/-- The bits that an element takes in padded packing (R83). -/
def storeBits (etype : Nat) : Nat :=
  match etype with
  | 0x10 => 4
  | 0 | 4 => 8
  | 1 | 5 | 8 | 9 => 16
  | 2 | 6 | 10 => 32
  | 3 | 7 | 11 => 64
  | _ => 8

def slotScaled (d : BitVec 32) : Bool := slotBlk d == 1
def granule (d : BitVec 32) : Nat := if slotScaled d then 128 else 0

/-- The plane descriptor that an mxlds gives (R340, R346). -/
def ldsDesc (f : LaneFields) (d : BitVec 32) : PlaneDesc :=
  let c := (matrixClass (slotEtype d)).getD .h
  { cls := c, etype := BitVec.ofNat 5 (slotEtype d), k := classK c / 2 ^ mxKdiv f, n := classN c / 2 ^ mxNdiv f,
    flush := slotFlush d, scaled := slotScaled d }

/-- The required length R of B, of A, and of a result (R341). -/
def lenB (d : BitVec 32) (p : PlaneDesc) : Nat := p.k * p.n * storeBits (slotEtype d) / 8 + granule d
def lenA (d : BitVec 32) (k : Nat) : Nat := 32 * k * storeBits (slotEtype d) / 8 + granule d
def lenOut (d : BitVec 32) (cnt : Nat) : Nat := 32 * cnt * storeBits (slotEtype d) / 8 + granule d

/-! ### Elements of an operand -/

/-- Element `i` of an operand of elements of `w` bits (R83). -/
def elemAt (bs : List Byte) (w i : Nat) : Nat :=
  if w == 4 then fieldNat (nth 0 bs (i / 2)).toNat (4 * (i % 2)) 4 else natOf ((bs.drop (i * (w / 8))).take (w / 8))

/-- The position of element (k, n) of B: row order, or pre-shuffled (R341, R343). -/
def posB (shuffled : Bool) (p : PlaneDesc) (k n : Nat) : Nat :=
  if shuffled then
    let kb := classKb p.cls
    let nb := classN p.cls
    let e := classE p.cls
    k / kb * (kb * nb) + n % (nb / e) * (kb * e) + k % kb * e + n / (nb / e)
  else k * p.n + n

/-- The scale of row or column `i`, block `j`, in an operand whose granule stands at byte `at0` (R341); 0x7F where unscaled. -/
def scaleAt (bs : List Byte) (scaled : Bool) (at0 k i j : Nat) : Nat :=
  if scaled then (nth 0 bs (at0 + k / 32 * i + j)).toNat else 0x7F

/-- The keys of a plane: element (k, n), and the scale of column n, block j. -/
def planeKey (k n : Nat) : Nat := 32 * k + n
def planeScale (n j : Nat) : Nat := 4096 + 4 * n + j

/-- The elements and scales of a plane that stand in bytes as B does (R341, R343). -/
def planeElems (p : PlaneDesc) (shuffled : Bool) (bs : List Byte) : Tbl Word :=
  let w := storeBits p.etype.toNat
  let elems := (List.range p.k).flatMap fun k => (List.range p.n).map fun n =>
    (planeKey k n, wordOf (elemAt bs w (posB shuffled p k n)))
  let scales := if p.scaled then (List.range p.n).flatMap fun n => (List.range (p.k / 32)).map fun j =>
      (planeScale n j, wordOf (scaleAt bs true (p.k * p.n * w / 8) p.k n j)) else []
  elems ++ scales

/-- A plane as B loads it (R346). -/
def loadPlane (d : BitVec 32) (p : PlaneDesc) (bs : List Byte) : Tbl Word := planeElems p (slotPack d == 2) bs

/-! ### Sums (R86-R91) -/

/-- The operands of one accumulation: the values of A and B, their scales, and what governs the rounding. -/
structure Sum where
  cls : MxClass
  k   : Nat
  a   : Nat → Val         -- element k of the row of A
  b   : Nat → Nat → Val   -- element (k, n) of B
  sa  : Nat → Nat         -- scale of block j of the row
  sb  : Nat → Nat → Nat   -- scale of column n, block j
  g   : Round

/-- A product with the exceptions of its operands (R69, R74). -/
def term (a b : Val) : Val × Exc := let p := a.mul b; (p.1, p.2 ||| sn a ||| sn b)

/-- exactsum of terms, with the exceptions of its products. -/
def sumOf (ts : List (Val × Exc)) : Val × Exc :=
  let z := exactSum (ts.map (·.1))
  (z.1, ts.foldl (fun e t => e ||| t.2) z.2)

/-- round(acc + s, f32, m). -/
def accAdd (g : Round) (acc : Nat) (s : Val × Exc) : Nat × Exc :=
  let c := fmtF32.value acc
  let t := c.add g.mode s.1
  let r := fmtF32.encode g t.1
  (r.1, r.2 ||| t.2 ||| s.2 ||| sn c)

/-- One step of R88 or of R91 on an f32 accumulator: a block whose scale is NaN gives the canonical NaN. -/
def scaledAdd (g : Round) (acc sa sb : Nat) (s : Val × Exc) : Nat × Exc :=
  if sa == 0xFF || sb == 0xFF then (fmtF32.canon, 0) else accAdd g acc (s.1.scale ((sa : Int) + sb - 254), s.2)

/-- One step of R89: an MXINT8 block sum of raw integers added to an i32 accumulator. -/
def intAdd (g : Round) (acc sa sb : Nat) (z : Int) : Nat × Exc :=
  if sa == 0xFF || sb == 0xFF then (acc, excInv)
  else
    let e : Int := (sa : Int) + sb - 254
    let t : Int := if e ≥ 0 then z * (2 ^ e.toNat : Nat) else
      let r := roundTo g.mode (z < 0) z.natAbs e 0
      if z < 0 then -(r.1 : Int) else r.1
    let x := sext acc 32 + t
    let inexact := if e ≥ 0 then false else (roundTo g.mode (z < 0) z.natAbs e 0).2
    (if g.sat then wrap (max (-(2 ^ 31)) (min (2 ^ 31 - 1) x)) 32 else wrap x 32, if inexact then excInx else 0)

/-- The raw integer of an MXINT8 element: its value times 2^6 (R66). -/
def rawInt (v : Val) : Int := (v.scale 6).at 0

/-- The value of accumulator (i, n) after row i of A times column n of B (R87-R90). -/
def Sum.cell (x : Sum) (n acc : Nat) : Nat × Exc :=
  let steps (f : Nat → Nat → Nat × Exc) (count : Nat) : Nat × Exc :=
    (List.range count).foldl (fun r j => let y := f r.1 j; (y.1, r.2 ||| y.2)) (acc, 0)
  let terms (lo len : Nat) : List (Val × Exc) := (List.range len).map fun i => term (x.a (lo + i)) (x.b (lo + i) n)
  match x.cls with
  | .s => steps (fun c k => fmtF32.fma x.g (x.a k) (x.b k n) (fmtF32.value c)) x.k
  | .d => steps (fun c k => fmtF64.fma x.g (x.a k) (x.b k n) (fmtF64.value c)) x.k
  | .h => steps (fun c j => accAdd x.g c (sumOf (terms (16 * j) (min 16 (x.k - 16 * j))))) ((x.k + 15) / 16)
  | .mi => steps (fun c j => intAdd x.g c (x.sa j) (x.sb n j)
      ((List.range 32).foldl (fun (z : Int) i => z + rawInt (x.a (32 * j + i)) * rawInt (x.b (32 * j + i) n)) 0)) (x.k / 32)
  | .m8 | .m4 => steps (fun c j => scaledAdd x.g c (x.sa j) (x.sb n j) (sumOf (terms (32 * j) 32))) (x.k / 32)

/-- One complex step for f32 and f64 (R91). -/
def cplxFma (fm : Fmt) (g : Round) (ar ai br bi : Val) (re im : Nat) : Nat × Nat × Exc :=
  let r1 := fm.fma g ar br (fm.value re)
  let r2 := fm.fma g ai.neg bi (fm.value r1.1)
  let i1 := fm.fma g ar bi (fm.value im)
  let i2 := fm.fma g ai br (fm.value i1.1)
  (r2.1, i2.1, r1.2 ||| r2.2 ||| i1.2 ||| i2.2)

/-- A product negated. -/
def negTerm (t : Val × Exc) : Val × Exc := (t.1.neg, t.2)

/-- The complex accumulator (i, n) after row i of A times complex column n of B (R91, R348). -/
def Sum.cplx (x : Sum) (n re im : Nat) : Nat × Nat × Exc :=
  (List.range (x.k / 2)).foldl (fun r k =>
    let ar := x.a (2 * k)
    let ai := x.a (2 * k + 1)
    let br := x.b (2 * k) n
    let bi := x.b (2 * k + 1) n
    let j := 2 * k / 32
    let y := match x.cls with
      | .s => cplxFma fmtF32 x.g ar ai br bi r.1 r.2.1
      | .d => cplxFma fmtF64 x.g ar ai br bi r.1 r.2.1
      | _ =>
        let sa := if x.cls == MxClass.h then 0x7F else x.sa j
        let sb := if x.cls == MxClass.h then 0x7F else x.sb n j
        let p := scaledAdd x.g r.1 sa sb (sumOf [term ar br, negTerm (term ai bi)])
        let q := scaledAdd x.g r.2.1 sa sb (sumOf [term ar bi, term ai br])
        (p.1, q.1, p.2 ||| q.2)
    (y.1, y.2.1, r.2.2 ||| y.2.2)) (re, im, 0)

/-! ### Tiles (R107, R332) -/

def tileKey (t row col : Nat) : Nat := (t * 32 + row) * 32 + col

abbrev Tiles := Tbl Half

def tileGet (m : Tiles) (t row col : Nat) : Nat := (tget 0 m (tileKey t row col)).toNat
def tilePut (m : Tiles) (t row col v : Nat) : Tiles := tput (tileKey t row col) (BitVec.ofNat 32 v) m

/-- An f64 element stands in columns 2n and 2n + 1. -/
def tileGet64 (m : Tiles) (t row n : Nat) : Nat := tileGet m t row (2 * n) + 2 ^ 32 * tileGet m t row (2 * n + 1)
def tilePut64 (m : Tiles) (t row n v : Nat) : Tiles := tilePut (tilePut m t row (2 * n) v) t row (2 * n + 1) (v / 2 ^ 32)

/-- Accumulator element n of a row, of the width that a class has. -/
def accGet (wide : Bool) (m : Tiles) (t row n : Nat) : Nat := if wide then tileGet64 m t row n else tileGet m t row n
def accPut (wide : Bool) (m : Tiles) (t row n v : Nat) : Tiles := if wide then tilePut64 m t row n v else tilePut m t row n v

/-- The planes of an engine by activity. -/
def Engine.activePlane (e : Engine) : Tbl Word := if e.act then e.plane1 else e.plane0
def Engine.activeDesc (e : Engine) : Option PlaneDesc := if e.act then e.desc1 else e.desc0
def Engine.issueDesc (e : Engine) : Option PlaneDesc := if e.iact then e.idesc1 else e.idesc0

/-- The shadow plane is written. -/
def Engine.setShadow (e : Engine) (d : PlaneDesc) (p : Tbl Word) : Engine :=
  if e.act then { e with desc0 := some d, plane0 := p } else { e with desc1 := some d, plane1 := p }

/-! ### What operations compute -/

/-- The rounding of a matrix instruction under a slot: RNA acts as RNE (R70). -/
def mxRound (slot : BitVec 32) : Round := { slotRound slot with mode := (slotRound slot).mode.arith }

/-- The rows of a mask of an mxmma or mxcmma: the tiles and the exceptions (R347, R348). -/
def mmaRows (e : Engine) (t : Nat) (slot : BitVec 32) (cplx : Bool) (mask : Mask) (input : List Byte) : Tiles × Exc :=
  match e.activeDesc with
  | none => (e.tiles, 0)
  | some p =>
    let w := storeBits (slotEtype slot)
    let ta := (elemOf (slotEtype slot)).getD (.int false 8)
    let tb := (elemOf p.etype.toNat).getD (.int false 8)
    let wide := p.cls == .d
    let row (i : Nat) : Sum :=
      { cls := p.cls, k := p.k
        a := fun k => ta.value (slotFlush slot) (elemAt input w (i * p.k + k))
        b := fun k n => tb.value p.flush (tget 0 e.activePlane (planeKey k n)).toNat
        sa := fun j => scaleAt input (slotScaled slot) (32 * p.k * w / 8) p.k i j
        sb := fun n j => if p.scaled then (tget 0 e.activePlane (planeScale n j)).toNat else 0x7F
        g := mxRound slot }
    (lanesOf mask).foldl (fun r i =>
      if cplx then
        (List.range (p.n / 2)).foldl (fun r n =>
          let y := (row i).cplx n (accGet wide r.1 t i (2 * n)) (accGet wide r.1 t i (2 * n + 1))
          (accPut wide (accPut wide r.1 t i (2 * n) y.1) t i (2 * n + 1) y.2.1, r.2 ||| y.2.2)) r
      else
        (List.range p.n).foldl (fun r n =>
          let y := (row i).cell n (accGet wide r.1 t i n)
          (accPut wide r.1 t i n y.1, r.2 ||| y.2)) r) (e.tiles, 0)

/-- A column of a row as a tile type reads it (R349). -/
def tileValue (m : Tiles) (t row col aty : Nat) : Val :=
  match aty with
  | 2 => fmtF64.value (tileGet64 m t row col)
  | 1 => (Val.ofInt (sext (tileGet m t row col) 32)).scale (-12)
  | _ => fmtF32.value (tileGet m t row col)

/-- A tile value converted under a slot (R349). -/
def tileConvert (slot : BitVec 32) (v : Val) : Nat × Exc :=
  convert (.flt fmtF64) (slotElem slot) (mxRound slot) (v.scale (slotXsc slot))

/-- The lane registers that an mxrd writes (R349). -/
def rdWrites (e : Engine) (t col cnt aty : Nat) (slot : BitVec 32) (vd : Nat) (mask : Mask) : List (Nat × Half) × Exc :=
  let ty := slotType slot
  let per := if LType.bits ty == 64 then 2 else 1
  (List.range cnt).foldl (fun r j => (lanesOf mask).foldl (fun r i =>
    let y := tileConvert slot (tileValue e.tiles t i (col + j) aty)
    (r.1 ++ laneWrites ty (vd + per * j) i y.1, r.2 ||| y.2)) r) ([], 0)

/-- Elements one after another in padded packing (R83). -/
def packElems (w : Nat) : List Nat → List Byte
  | [] => []
  | x :: xs =>
    if w == 4 then match xs with
      | [] => [BitVec.ofNat 8 (x % 16)]
      | y :: ys => BitVec.ofNat 8 (x % 16 + 16 * (y % 16)) :: packElems w ys
    else bytesOf x (w / 8) ++ packElems w xs

/-- The bytes that an mxout writes (R350). -/
def outBytes (e : Engine) (t col cnt aty : Nat) (slot : BitVec 32) : List Byte × Exc :=
  let w := storeBits (slotEtype slot)
  if slotScaled slot then
    let rows := (List.range 32).map fun i =>
      mxBlock (slotElem slot) (mxRound slot) ((List.range cnt).map fun j => (tileValue e.tiles t i (col + j) aty).scale (slotXsc slot))
    (packElems w (rows.flatMap fun r => r.2.1) ++ takeFill 0 128 (rows.map fun r => BitVec.ofNat 8 r.1),
      rows.foldl (fun x r => x ||| r.2.2) 0)
  else
    let cells := (List.range 32).flatMap fun i => (List.range cnt).map fun j => tileConvert slot (tileValue e.tiles t i (col + j) aty)
    (packElems w (cells.map (·.1)), cells.foldl (fun x r => x ||| r.2) 0)

/-! ### Issue (R345) -/

def mxNotoken : BitVec 8 := 0x01
def mxNoplane : BitVec 8 := 0x02
def mxTypemix : BitVec 8 := 0x03
def mxSize : BitVec 8 := 0x04

/-- A failed check: cause, sub-cause and datum. -/
abbrev MxBad := Cause × BitVec 8 × Word

/-- The token check. -/
def State.mxToken (s : State) : Option MxBad := if s.holdsToken (phraseOf s.cur) then none else some (.mxfault, mxNotoken, 0)

/-- Declared, and owned by the engine. -/
def State.mxOwner (s : State) (g : Nat) (out : Bool) : Option MxBad :=
  match s.gutter s.myCore g with
  | none => some (.gutter, 0x01, wordOf g)
  | some x => if (if out then gutPown x.desc else gutCown x.desc) != 2 then some (.gutter, 0x02, wordOf g) else none

/-- The active plane, in the issue view. -/
def State.mxPlane (s : State) (slot : BitVec 32) : Option MxBad :=
  match (s.core s.myCore).engine.issueDesc with
  | none => some (.mxfault, mxNoplane, 0)
  | some p =>
    if matrixClass (slotEtype slot) != some p.cls || (p.cls == .h && slotEtype slot != p.etype.toNat) then
      some (.mxfault, mxTypemix, wordOf (slotEtype slot + at' p.etype.toNat 8))
    else none

/-- FIRE times the entry size equals R. -/
def State.mxLength (s : State) (g r : Nat) : Option MxBad :=
  match s.gutter s.myCore g with
  | none => none
  | some x =>
    let n := gutFire x.desc * 2 ^ gutLogSz x.desc
    if n == r then none else some (.mxfault, mxSize, wordOf (r + at' n 32))

/-- The first failing check. -/
def firstBad (cs : List (Option MxBad)) : Option MxBad := cs.findSome? id

/-- An engine operation issues: it enters the queue, and its flag reads set. -/
def State.enterMx (s : State) (f : LaneFields) (act : MxAct) (grant : Bool) : State :=
  let q := s.clause
  let core := s.myCore
  let op : MxOp := { id := s.nextId, frag := s.cur, phrase := phraseOf s.cur, mask := s.lmask, act := act, grant := grant
                     pc := q.instrAddr q.next, redo := q.redo }
  let o : LaneOp := { id := s.nextId, frag := s.cur, flag := q.flagOf f.fb, clause := q.num }
  let s1 := (s.laneIssued f).updCore core fun c => { c with engine := { (c.engine.issued act) with ops := c.engine.ops ++ [op] } }
  { s1 with laneOps := s1.laneOps ++ [o] }

/-- A checked engine operation issues, or its fault is determined. -/
def State.issueMx (s : State) (f : LaneFields) (cs : List (Option MxBad)) (act : MxAct) : Out :=
  match firstBad cs with
  | some (c, sub, d) => s.issueFault c sub d
  | none => .next (s.enterMx f act true)

/-- R346: mxlds. -/
def execMxlds (f : LaneFields) (s : State) : Out :=
  let slot := s.slotDesc f
  let d := ldsDesc f slot
  match firstBad [s.mxToken, s.mxOwner (mxGut f) false, s.mxLength (mxGut f) (lenB slot d)] with
  | some (c, sub, x) => s.issueFault c sub x
  | none => .next (s.enterMx f (.lds (mxGut f) slot d) true)

/-- R346: mxswap. -/
def execMxswap (f : LaneFields) (s : State) : Out :=
  match firstBad [s.mxToken] with
  | some (c, sub, x) => s.issueFault c sub x
  | none => .next (s.enterMx f .swap true)

/-- mxmma and mxcmma take a grant at issue; with none they ask for one and wait at the engine (R224). -/
def State.issueMma (s : State) (f : LaneFields) (cplx : Bool) : Out :=
  let slot := s.slotDesc f
  let k := (((s.core s.myCore).engine.issueDesc).map fun p => p.k).getD 0
  match firstBad [s.mxToken, s.mxOwner (mxGut f) false, s.mxPlane slot, s.mxLength (mxGut f) (lenA slot k)] with
  | some (c, sub, x) => s.issueFault c sub x
  | none =>
    let p := phraseOf s.cur
    let act := MxAct.mma (mxGut f) (mxTile f) slot cplx
    if s.myPhr.grants > 0 then .next ((s.enterMx f act true).updPhr p fun q => { q with grants := q.grants - 1 })
    else
      let a : Ask := { cycle := s.cycle, phrase := p, op := some s.nextId, need := 1, core := s.myCore, slot := s.me.slot.getD 0 }
      .next ((s.enterMx f act false).updCluster (clusterOf s.myCore) fun c => { c with asks := putAsk a c.asks })

/-- R347: mxmma. -/
def execMxmma (f : LaneFields) (s : State) : Out := s.issueMma f false

/-- R348: mxcmma. -/
def execMxcmma (f : LaneFields) (s : State) : Out := s.issueMma f true

/-- R349: mxzero. -/
def execMxzero (f : LaneFields) (s : State) : Out := s.issueMx f [s.mxToken] (.zero (mxTile f))

/-- R349: mxrd. -/
def execMxrd (f : LaneFields) (s : State) : Out :=
  let vd := match f.vd with | .v n => n.toNat | _ => 0
  s.issueMx f [] (.rd (mxTile f) (mxCol f) (mxCnt f) (mxAty f) (s.slotDesc f) vd)

/-- R349: mxwr reads its sources at issue. -/
def execMxwr (f : LaneFields) (s : State) : Out :=
  let va := match f.va with | .v n => n.toNat | _ => 0
  let wide := isWide f
  let data := (List.range (mxCnt f)).map fun j => (List.range 32).map fun l =>
    wordOf (if wide then s.vpair (va + 2 * j) l else s.vreg (va + j) l)
  s.issueMx f [s.mxToken] (.wr (mxTile f) (mxCol f) (mxCnt f) wide data)

/-- R350: mxout. -/
def execMxout (f : LaneFields) (s : State) : Out :=
  let slot := s.slotDesc f
  s.issueMx f [s.mxOwner (mxGut f) true, s.mxLength (mxGut f) (lenOut slot (mxCnt f))]
    (.out (mxGut f) (mxTile f) (mxCol f) (mxCnt f) (mxAty f) slot)

/-! ### Firing (R173, R333) -/

/-- The units: load, array, tile. -/
def MxAct.unit : MxAct → Nat
  | .lds _ _ _ => 0
  | .mma _ _ _ _ => 1
  | _ => 2

/-- What an operation reads and writes: tiles 0-7, 8 the active plane, 9 the shadow plane. -/
def MxAct.writes : MxAct → List Nat
  | .lds _ _ _ => [9]
  | .swap => [8, 9]
  | .mma _ t _ _ | .zero t | .wr t _ _ _ _ => [t]
  | .rd _ _ _ _ _ _ | .out _ _ _ _ _ _ => []

def MxAct.reads : MxAct → List Nat
  | .mma _ t _ _ => [8, t]
  | .rd t _ _ _ _ _ | .out _ t _ _ _ _ => [t]
  | .wr t _ _ _ _ | .zero t => [t]
  | .lds _ _ _ => []
  | .swap => [8, 9]

/-- Whether operation `o` must wait until the earlier `e` has completed: a shared tile or plane, or its unit. -/
def MxAct.waitsFor (o e : MxAct) : Bool :=
  o.unit == e.unit || e.writes.any (fun x => o.writes.contains x || o.reads.contains x) || e.reads.any fun x => o.writes.contains x

/-- Whether an operation's gutter holds its firing count, or has room for it. -/
def State.mxGutterOk (s : State) (core : Nat) (a : MxAct) : Bool :=
  match a.gutter with
  | none => true
  | some g => match s.gutter core g with
    | none => false
    | some x => match a with
      | .out _ _ _ _ _ _ => gutFire x.desc ≤ x.room
      | _ => gutFire x.desc ≤ x.present

/-- The scratch offsets of FIRE entries from a pointer, in ring order (R341). -/
def Gutter.fireEntries (x : Gutter) (p : BitVec 16) : List Nat := (List.range (gutFire x.desc)).map fun j => x.entry p j

/-- The gutter whose entries an operation takes. -/
def MxAct.input : MxAct → Option Nat
  | .lds g _ _ | .mma g _ _ _ => some g
  | .swap | .zero _ | .rd _ _ _ _ _ _ | .wr _ _ _ _ _ | .out _ _ _ _ _ _ => none

/-- Whether an operation would take bytes that an mxout under way is still to write: gutters may overlap (R333, R351). -/
def State.inputPending (s : State) (core : Nat) (o e : MxOp) : Bool :=
  match o.act.input.bind (s.gutter core), e.act with
  | some x, .out g _ _ _ _ _ => match s.gutter core g with
    | none => false
    | some y => (x.fireEntries x.cons).any fun a => (y.fireEntries e.base).any fun b =>
        a < b + 2 ^ gutLogSz y.desc && b < a + 2 ^ gutLogSz x.desc
  | _, _ => false

/-- Whether the phrase of an operation is on its core (R357; log 74). -/
def State.mxPresent (s : State) (o : MxOp) : Bool :=
  match tfind s.phrases o.phrase with
  | some q => q.present
  | none => true

/-- Whether R173 lets an operation fire: its gutter holds entries or has room, and it has its grant. -/
def State.mxCan (s : State) (core : Nat) (o : MxOp) : Bool := o.grant && s.mxPresent o && s.mxGutterOk core o.act

/-- The scratch offsets and the size of the entries that an operation would take or fill next. -/
def State.mxEntries (s : State) (core : Nat) (a : MxAct) : List (Nat × Nat) :=
  match a.gutter.bind (s.gutter core) with
  | none => []
  | some x => (x.fireEntries (if a.input.isSome then x.cons else x.prod)).map fun e => (e, 2 ^ gutLogSz x.desc)

/-- Whether two operations have one gutter, or entries that overlap (R351). -/
def State.mxMeet (s : State) (core : Nat) (o e : MxAct) : Bool :=
  (o.gutter.isSome && o.gutter == e.gutter) ||
  (s.mxEntries core o).any fun a => (s.mxEntries core e).any fun b => a.1 < b.1 + b.2 && b.1 < a.1 + a.2

/-- Whether an operation waits for an earlier one (R173, R333): for one that runs, where the two conflict or share a unit; and for one that
has not fired, unless that one could fire but for a conflict with those before it, and the two meet nowhere (R520; log 84). -/
def State.mxHeldBy (s : State) (core : Nat) (o e : MxOp) : Bool :=
  o.act.waitsFor e.act || (if e.fired then s.inputPending core o e else !s.mxCan core e || s.mxMeet core o.act e.act)

/-- The first operation of a list, behind those in `before`, that can fire. -/
def State.mxFirst (s : State) (core : Nat) : List MxOp → List MxOp → Option MxOp
  | _, [] => none
  | before, o :: os =>
    if !o.fired && s.mxCan core o && !(before.any (s.mxHeldBy core o)) then some o else s.mxFirst core (before ++ [o]) os

/-- The operation of an engine that fires next, if one can; the operations of a frozen core stay queued (R173, R333, R432). -/
def State.mxFirable (s : State) (core : Nat) : Option MxOp :=
  if (s.core core).frozen then none else s.mxFirst core [] (s.core core).engine.ops

/-- The bytes of FIRE entries from a pointer, in ring order (R341). -/
def State.gutterBytes (s : State) (core : Nat) (x : Gutter) (p : BitVec 16) : List Byte :=
  (x.fireEntries p).flatMap fun a => readBytes s.mem (scratchKey core a) (2 ^ gutLogSz x.desc)

/-- The first entry in a poisoned line that an operation would take (R158). -/
def State.inputPoisoned (s : State) (core : Nat) (a : MxAct) : Option Nat :=
  (a.input.bind (s.gutter core)).bind fun x =>
    (x.fireEntries x.cons).find? fun e => s.poisoned (scratchKey core e) (2 ^ gutLogSz x.desc)

/-- An operation that would take a poisoned entry takes none: its instruction has a lane fault (R158; log 76). -/
def State.mxPoison (s : State) (core : Nat) (o : MxOp) (entry : Nat) : State :=
  let s1 := s.updCore core fun c => { c with engine := c.engine.withOps (c.engine.ops.filter fun y => y.id != o.id) }
  let s2 : State := { s1 with laneOps := s1.laneOps.filter fun y => y.id != o.id }
  if (s2.frag o.frag).live then
    (s2.addFault o.frag (runFault o.id o.pc o.redo .access 0x0A o.mask (wordOf (ownWindow + entry)))).settle o.frag
  else s2

/-- An operation fires: it takes its entries (R346, R347). -/
def State.mxFire (s : State) (core : Nat) (o : MxOp) : State :=
  match s.inputPoisoned core o.act with
  | some entry => s.mxPoison core o entry
  | none =>
    let x := (o.act.gutter.bind fun g => s.gutter core g).getD { desc := 0 }
    let o1 := { o with fired := true, input := if o.act.input.isSome then s.gutterBytes core x x.cons else [], base := x.prod }
    let s1 := s.updCore core fun c => { c with engine := { c.engine with ops := c.engine.ops.map fun y => if y.id == o.id then o1 else y } }
    match o.act.input with
    | some g => s1.updGutter core g fun y => { y with cons := y.cons + BitVec.ofNat 16 (gutFire y.desc) }
    | none => s1

/-- R173: the next operation of an engine fires. -/
def execMatrixFire (core : Nat) (s : State) : Out :=
  match s.mxFirable core with
  | none => .next s
  | some o => .next (s.mxFire core o)

/-! ### Completion -/

/-- STATUS bits of a phrase that still exists. -/
def State.phraseStatus (s : State) (p : Nat) (e : Exc) : State :=
  if (tfind s.phrases p).isSome && e != 0 then s.setStatus p (e.setWidth 32) else s

def State.updEngine (s : State) (core : Nat) (h : Engine → Engine) : State :=
  s.updCore core fun c => { c with engine := h c.engine }

/-- Writes a result's bytes into FIRE entries from a producer pointer. -/
def writeEntries (core : Nat) (x : Gutter) (p : BitVec 16) (bs : List Byte) (m : Mem) : Mem :=
  let sz := 2 ^ gutLogSz x.desc
  (x.fireEntries p).zipIdx.foldl (fun m e => writeBytes (scratchKey core e.1) ((bs.drop (sz * e.2)).take sz) m) m

/-- A fired operation takes its effect (R346-R350). -/
def State.mxEffect (s : State) (core : Nat) (o : MxOp) : State :=
  let e := (s.core core).engine
  match o.act with
  | .lds _ slot d => s.updEngine core fun e => e.setShadow d (loadPlane slot d o.input)
  | .swap => s.updEngine core fun e => { e with act := !e.act }
  | .mma _ t slot cplx =>
    let r := mmaRows e t slot cplx o.mask o.input
    (s.updEngine core fun e => { e with tiles := r.1 }).phraseStatus o.phrase r.2
  | .zero t =>
    s.updEngine core fun e => { e with tiles := (lanesOf o.mask).foldl (fun m i => (List.range 32).foldl (fun m c => tilePut m t i c 0) m) e.tiles }
  | .wr t col cnt wide data =>
    s.updEngine core fun e => { e with tiles := (List.range cnt).foldl (fun m j => (lanesOf o.mask).foldl (fun m i =>
      accPut wide m t i (col + j) (nth 0 (nth [] data j) i).toNat) m) e.tiles }
  | .rd t col cnt aty slot vd =>
    let r := rdWrites e t col cnt aty slot vd o.mask
    if (tfind s.phrases o.phrase).isSome then (s.updPhr o.phrase fun q => putLanes q r.1).phraseStatus o.phrase r.2 else s
  | .out g t col cnt aty slot =>
    let r := outBytes e t col cnt aty slot
    match s.gutter core g with
    | none => s
    | some x =>
      let ps : List Piece := (x.fireEntries o.base).map fun a => ⟨scratchKey core a, 2 ^ gutLogSz x.desc, 0, 2⟩
      ((((s.updMem (writeEntries core x o.base r.1)).heal (pieceKeys ps)).putTags ps none).updGutter core g fun y =>
        { y with prod := y.prod + BitVec.ofNat 16 (gutFire y.desc) }).phraseStatus o.phrase r.2

/-- An operation completes: its effect stands, and its flag clears. -/
def State.mxComplete (s : State) (core : Nat) (o : MxOp) : State :=
  let s1 := (s.mxEffect core o).updEngine core fun e => { e with ops := e.ops.filter fun y => y.id != o.id }
  let s2 : State := { s1 with laneOps := s1.laneOps.filter fun y => y.id != o.id }
  if (s2.frag o.frag).live then s2.settle o.frag else s2

/-- R333: a fired operation of an engine completes; which of those under way is open (log 2). -/
def execMatrixComplete (core : Nat) (s : State) : Out :=
  let ops := (s.core core).engine.ops.filter fun o => o.fired
  match ops with
  | [] => .next s
  | o :: _ => .next (s.drawn.mxComplete core (nth o ops (Config.pick s.draws ops.length % ops.length)))

/-! ### Token and grants (R336-R338) -/

/-- R336: mxtake. -/
def execMxtake (s : State) : Out :=
  let p := phraseOf s.cur
  let core := s.myCore
  if s.holdsToken p then .next s.adv
  else if (s.core core).engine.token.isNone then .next (s.giveToken core p).adv
  else .next ((s.updMe fun f => { f with wait := .token }).updEngine core fun e => { e with takers := e.takers ++ [s.cur] })

/-- mxgive waits until its lane queue holds no prior clause. -/
def State.mxgiveWaits (s : State) : Bool := !s.me.queue.isEmpty

/-- The phrase of this context, resident on this core, that a noun names (R336). -/
def State.onCore (s : State) (n : Word) : Option Nat :=
  (s.phrases.find? fun e => e.2.noun == n && e.2.present && !e.2.gone && e.2.core == s.myCore && e.2.ctx == s.myCtx).map (·.1)

/-- R336: mxgive. -/
def execMxgive (sd sa : SReg) (s : State) : Out :=
  let n := s.r sa
  if s.mxgiveWaits then .next s
  else if !s.holdsToken (phraseOf s.cur) then putNext sd 2 s
  else if n == 0 then putNext sd 0 (s.freeToken s.myCore)
  else match s.onCore n with
    | some q => putNext sd 0 (s.giveToken s.myCore q)
    | none => putNext sd 1 s

/-- The grants that a phrase has asked for and not been given. -/
def State.asked (s : State) (p : Nat) : Nat :=
  (s.cluster (clusterOf (s.phr p).core)).asks.foldl (fun n a => if a.phrase == p then n + a.need else n) 0

/-- R338: mxask, bounded under R224. -/
def execMxask (sa : SReg) (imm : BitVec 12) (s : State) : Out :=
  let p := phraseOf s.cur
  let n : Int := sext (s.r sa).toNat 64 + sext imm.toNat 12
  let m := min n.toNat (65535 - s.myPhr.grants - s.asked p)
  if m == 0 then .next s.adv
  else
    let a : Ask := { cycle := s.cycle, phrase := p, op := none, need := m, core := s.myCore, slot := s.me.slot.getD 0 }
    .next (s.updCluster (clusterOf s.myCore) fun c => { c with asks := putAsk a c.asks }).adv

end Sys2Proof.Machine
end

