-- ==== Sys2Proof/Machine/Copies.lean ====
section
/-! DEFINITION. The copy engine: layout records (R207, R361-R366), issue (R359, R367, R372), firing (R368), granules (R369-R374),
batches (R220, R221, R375-R377), and copy faults (R371). -/
namespace Sys2Proof.Machine

/-! ### Layout records (R207, R361-R363) -/

def prodOf (l : List Nat) : Nat := l.foldl (fun a b => a * b) 1

def isMx (etype : Nat) : Bool := 0x0C ≤ etype && etype ≤ 0x11

def Layout.et (l : Layout) : Nat := l.etype.toNat
/-- Tight packing applies to E3M2 and E2M3 only (R84, R366). -/
def Layout.tight (l : Layout) : Bool := l.pack == 1 && (l.et == 0x0E || l.et == 0x0F)
/-- The elements of the box. -/
def Layout.count (l : Layout) : Nat := prodOf l.boxes
def Layout.box0 (l : Layout) : Nat := l.boxes.headD 0
def Layout.size0 (l : Layout) : Nat := l.sizes.headD 0
/-- The byte length of SIZE0 elements in the record's packing (R362). -/
def Layout.rowBytes (l : Layout) : Nat := if l.tight then 3 * (l.size0 / 4) else l.size0 * storeBits l.et / 8

/-- The FMT field. -/
def Layout.fmt (l : Layout) : Nat := l.et + at' l.pack.toNat 5 + at' (bit l.mxs) 7

/-- A record of 64 bytes, if it is valid (R207, R361, R362, R363, R366). -/
def parseLayout (bs : List Byte) : Option Layout :=
  let get (o n : Nat) : Nat := natOf ((bs.drop o).take n)
  let base := get 0 8
  let ndim := get 39 1
  let fmt := get 40 4
  let key := get 44 4
  let et := fmt % 32
  let pack := fieldNat fmt 5 2
  let mxs := fieldNat fmt 7 1 == 1
  let stride (d : Nat) : Int := if d == 0 then 0 else sext (get (4 + 4 * d) 4) 32
  let box (d : Nat) : Nat := if get (34 + d) 1 == 0 then 256 else get (34 + d) 1
  let dims := List.range ndim
  let l : Layout :=
    { base := base, strides := dims.map stride, sizes := dims.map fun d => get (24 + 2 * d) 2, boxes := dims.map box
      etype := BitVec.ofNat 5 et, pack := BitVec.ofNat 2 pack, mxs := mxs, keySlot := key % 1024, dir := key.testBit 30
      keyen := key.testBit 31, nonce := wordOf (get 48 8) }
  if base ≥ 2 ^ 56 || ndim < 1 || ndim > 5 || fmt ≥ 256 || et > 0x11 || pack == 3 || fieldNat key 10 20 != 0 then none
  else if ((List.range 5).drop ndim).any fun d => stride d != 0 || get (24 + 2 * d) 2 != 0 || get (34 + d) 1 != 0 then none
  else if mxs && (!isMx et || pack == 2 || l.size0 % 32 != 0 || l.box0 % 32 != 0) then none
  else if l.tight && (l.size0 % 4 != 0 || l.box0 % 4 != 0) then none
  else if et == 0x10 && (l.size0 % 2 != 0 || l.box0 % 2 != 0) then none
  else some l

/-- Coordinates of a linear place in a box. -/
def coords : List Nat → Nat → List Nat
  | [], _ => []
  | b :: bs, i => i % b :: coords bs (i / b)

/-- Where an element or scale stands: its first byte, its place and width in bits, and the bytes that hold it. -/
structure Loc where
  va   : Nat
  bit  : Nat
  bits : Nat
  span : Nat
  deriving DecidableEq, Repr

/-- The offset that dimensions 1 and up give. -/
def strideSum (strides : List Int) (cs : List Nat) : Int := (List.zipWith (fun (a : Int) (c : Nat) => a * c) strides cs).foldl (fun a b => a + b) 0

def vaOf (x : Int) : Nat := wrap x 64

/-- Element `j` of a record's linear order; none where it is outside (R361). -/
def Layout.loc (l : Layout) (j : Nat) : Option Loc :=
  let cs := coords l.boxes j
  if (List.zipWith (fun c z => decide (c < z)) cs l.sizes).all id then
    let i0 := cs.headD 0
    let a : Int := l.base + strideSum l.strides cs
    let w := storeBits l.et
    if l.tight then some ⟨vaOf (a + 3 * (i0 / 4) ), 6 * (i0 % 4), 6, 3⟩
    else if w == 4 then some ⟨vaOf (a + i0 / 2), 4 * (i0 % 2), 4, 1⟩
    else some ⟨vaOf (a + i0 * (w / 8)), 0, w, w / 8⟩
  else none

/-- The scale of block `q` of a record's linear order of blocks; none where it is outside (R362). -/
def Layout.scaleLoc (l : Layout) (q : Nat) : Option Loc :=
  let j := 32 * q
  match l.loc j with
  | none => none
  | some _ =>
    let cs := coords l.boxes j
    some ⟨vaOf (l.base + l.rowBytes + cs.headD 0 / 32 + strideSum l.strides cs), 0, 8, 1⟩

/-! ### The plan of a copy (R363-R366, R368, R373) -/

/-- What firing finds: the layouts, the element count, the destination stream, the entries of a gutter, and for a cpcrypt the
ciphertext's base, key and nonce, and whether it encrypts. -/
structure CopyPlan where
  src : Option Layout
  dst : Option Layout
  n   : Nat
  w   : Nat                 -- bits of an element of the destination stream
  le  : Nat                 -- bytes of its elements
  nsc : Nat                 -- its scale bytes
  len : Nat                 -- its length, a multiple of 128
  entries : Nat
  deriving DecidableEq, Repr

def copyBadrec : BitVec 8 := 0x03
def copyConvert : BitVec 8 := 0x04
def copyGutsize : BitVec 8 := 0x05

/-- The pairs of formats of R365. -/
def pairOk (s d : Layout) : Bool :=
  let fl (e : Nat) := e == 8 || e == 9 || e == 10
  (s.et == d.et && s.mxs == d.mxs) ||
  (!s.mxs && !d.mxs && fl s.et && fl d.et) ||
  (!s.mxs && fl s.et && d.mxs && isMx d.et) ||
  (s.mxs && isMx s.et && !d.mxs && fl d.et)

/-- The ciphertext side of a cpcrypt (R373): the destination when it encrypts, else the source. -/
def cipherSide (s d : Option Layout) : Option (Layout × Bool) :=
  match d, s with
  | some l, _ => if l.keyen && l.dir then some (l, true) else match s with
    | some m => if m.keyen && !m.dir then some (m, false) else none
    | none => none
  | none, some m => if m.keyen && !m.dir then some (m, false) else none
  | none, none => none

/-- The checks of a cpcrypt at firing (R373). DESIGN CHOICE: a DIR that contradicts the side with KEYEN is BADREC, and where both records have
KEYEN and DIR names no side the destination's key slot is read (log 47). -/
def State.cryptBad (s : State) (c : CopyOp) (src dst : Option Layout) : Option (BitVec 8) :=
  if !((src.any fun l => l.keyen) || dst.any fun l => l.keyen) then some 0x08
  else
    -- the slot is the one whose key is used: that of the ciphertext side, where DIR leaves one
    let slot := match cipherSide src dst with
      | some (l, _) => l.keySlot
      | none => (((dst.filter fun l => l.keyen).or (src.filter fun l => l.keyen)).map fun l => l.keySlot).getD 0
    match tfind s.host.keys slot with
    | none => some 0x08
    | some k =>
      if k.ctx != c.who.ctx then some 0x09
      else if (match src, dst with | some a, some b => a.fmt != b.fmt | _, _ => false) then some copyConvert
      else match cipherSide src dst with
        -- DIR names a ciphertext side that is a gutter, or contradicts the side whose record has KEYEN
        | none => if src.isNone || dst.isNone then some copyConvert else some copyBadrec
        | some (l, _) => if l.boxes.length != 1 || l.box0 > l.size0 then some copyBadrec else none

/-- The plan, or the sub-cause of the check that fails. -/
def State.copyPlan (s : State) (c : CopyOp) : CopyPlan ⊕ BitVec 8 :=
  let record (off : Option Nat) : Option (Option Layout) := match off with
    | none => some none
    | some o => (parseLayout (readBytes s.mem (scratchKey c.core (o - ownWindow)) 64)).map some
  match record c.src, record c.dst with
  | some src, some dst =>
    match dst.or src with
    | none => .inr copyBadrec
    | some f =>
      let w := storeBits f.et
      let n := f.count
      let le := (n * w + 7) / 8
      let nsc := if f.mxs then n / 32 else 0
      let len := alignUp (le + nsc) 128
      let gut := (copyGutter c.ops).bind fun g => s.gutter c.core g
      let size := match gut with | some x => 2 ^ gutLogSz x.desc | none => 1
      let entries := if gut.isSome then (len + size - 1) / size else 0
      if (gut.any fun x => entries > 2 ^ gutLogN x.desc) then .inr copyGutsize
      else
        let pair := match src, dst with
          | some a, some b =>
            if a.count != b.count || ((a.mxs || b.mxs) && a.box0 != b.box0) then some copyBadrec
            else if !pairOk a b then some copyConvert else none
          | _, _ => none
        match pair, if c.crypt then s.cryptBad c src dst else none with
        | some e, _ => .inr e
        | none, some e => .inr e
        | none, none => .inl ⟨src, dst, n, w, le, nsc, len, entries⟩
  | _, _ => .inr copyBadrec

/-! ### Records, batches (R220, R221, R375-R377) -/

/-- The copy's record: that of the destination, or of the source when the destination is a gutter (R371). -/
def CopyOp.record (c : CopyOp) : Nat := (c.dst.or c.src).getD 0

/-- The engine's writes of CSTAT, PROGRESS and the batch number leave no tag of a release there (R452). -/
def State.dropRecordTags (s : State) (c : CopyOp) : State := c.records.foldl (fun s va => s.dropRange (recordKey c va + 56) 8) s

/-- Writes CSTAT.STATE, and the cause where one is given, in every record (R207, R208). -/
def State.putCstat (s : State) (c : CopyOp) (state : Nat) (cause : Option Nat) : State :=
  (s.dropRecordTags c).updMem fun m => c.records.foldl (fun m va =>
    let a := recordKey c va + 60
    let v := readNat m a 4 / 16 * 16 + state
    writeNat a 4 (match cause with | some x => v - fieldNat v 8 8 * 256 + x * 256 | none => v) m) m

def State.putProgress (s : State) (c : CopyOp) (n : Nat) : State :=
  (s.dropRecordTags c).updMem fun m => c.records.foldl (fun m va => writeNat (recordKey c va + 56) 4 n m) m

def State.putBatchNum (s : State) (c : CopyOp) (n : Nat) : State :=
  (s.dropRecordTags c).updMem fun m => c.records.foldl (fun m va => writeNat (recordKey c va + 62) 2 n m) m

def State.putCopy (s : State) (c : CopyOp) : State := { s with copies := s.copies.map fun x => if x.id == c.id then c else x }

/-- A batch has finished: every copy in it is done, or it was cancelled (R375, R377). -/
def State.batchDone (s : State) (b : Batch) : Bool :=
  b.cancelled || b.copies.all fun id => !(s.copies.any fun c => c.id == id && c.st != .done)

/-- BDONE advances over finished batches; their copies are forgotten (R220). So is every ended copy of a phrase that has left:
no phrase is there to take a fault or to resume it (R371; log 77). -/
def State.trimBatches (s : State) (p : Nat) : State :=
  if (tfind s.phrases p).isNone then
    { s with copies := s.copies.filter fun c => c.phrase != p || c.st == .queued || c.st == .running }
  else
    let finished := (s.phr p).sealed.takeWhile s.batchDone
    let ids := finished.flatMap fun b => b.copies
    let s1 := s.updPhr p fun q => { q with sealed := q.sealed.drop finished.length }
    { s1 with copies := s1.copies.filter fun c => !ids.contains c.id }

/-- The unfinished count (R220). -/
def Phrase.unfinished (q : Phrase) : Nat := q.sealed.length

/-! ### The producer (R359) -/

def State.isProducer (s : State) (p : Nat) : Bool :=
  let q := s.phr p
  q.course.isNone || q.rank == s.prankOf q.inst

/-- A phrase that has issued copies or batches as producer. -/
def State.hasBatches (s : State) (p : Nat) : Bool :=
  let q := s.phr p
  q.batch != 0xFFFF || !q.sealed.isEmpty || !q.opened.isEmpty

def State.notProducer (s : State) : Out := s.fault .copy 0x01 0

/-! ### Issue (R367, R372, R373) -/

/-- The record addresses and the gutter of a copy's operands. -/
def State.copySrc (s : State) (o : CopyOps) : Option Nat :=
  match o with | .mem sa _ _ | .toGutter sa _ => some (s.r sa).toNat | .fromGutter _ _ => none

def State.copyDst (s : State) (o : CopyOps) : Option Nat :=
  match o with | .mem _ sb _ | .fromGutter _ sb => some (s.r sb).toNat | .toGutter _ _ => none

/-- A record lies in the core's scratch window, aligned to 64 bytes. -/
def recordOk (va : Nat) : Bool := va % 64 == 0 && ownWindow ≤ va && va < ownWindow + scratchSize

/-- The gutter of a copy is declared, and its pointer is the copy engine's. -/
def State.copyGutterBad (s : State) (o : CopyOps) : Option (BitVec 8 × Nat) :=
  match copyGutter o with
  | none => none
  | some g => match s.gutter s.myCore g with
    | none => some (0x01, g)
    | some x =>
      let own := match o with | .toGutter _ _ => gutPown x.desc | _ => gutCown x.desc
      if own != 1 then some (0x02, g) else none

/-- A copy is checked, joins the open batch, and is queued (R367). -/
def State.issueCopy (s : State) (ops : CopyOps) (crypt : Bool) : Out :=
  let p := phraseOf s.cur
  let src := s.copySrc ops
  let dst := s.copyDst ops
  if !s.isProducer p then s.notProducer
  else match (src.toList ++ dst.toList).find? fun va => !recordOk va with
    | some va => s.fault .copy copyBadrec (wordOf va)
    | none => match s.copyGutterBad ops with
      | some (sub, g) => s.fault .gutter sub (wordOf g)
      | none =>
        if s.myPhr.opened.length ≥ 255 then s.drawn.fault .copy 0x02 (Config.freeWord s.draws)
        else
          let c : CopyOp := { id := s.nextId, who := s.asker s.cur, frag := s.cur, phrase := p, core := s.myCore, crypt := crypt, ops := ops
                              src := src, dst := dst, seq := s.nextId }
          let s1 : State := { s with copies := s.copies ++ [c] }
          .next (((s1.putCstat c 1 none).updPhr p fun q => { q with opened := q.opened ++ [s.nextId] }).bump.adv)

/-- R367: cpcopy. -/
def execCpcopy (ops : CopyOps) (s : State) : Out := s.issueCopy ops false

/-- R373: cpcrypt. -/
def execCpcrypt (ops : CopyOps) (s : State) : Out := s.issueCopy ops true

/-- The stopped copy that a cpresume names (R372). -/
def State.resumable (s : State) (ops : CopyOps) : Option CopyOp :=
  s.copies.find? fun c =>
    c.phrase == phraseOf s.cur && c.st == .stopped && !c.crypt && c.src == s.copySrc ops && c.dst == s.copyDst ops &&
    copyGutter c.ops == copyGutter ops && readNat s.mem (recordKey c c.record + 60) 1 % 16 == 3

/-- R372: cpresume. -/
def execCpresume (ops : CopyOps) (s : State) : Out :=
  let p := phraseOf s.cur
  if !(s.isProducer p || s.hasBatches p) then s.notProducer
  else match s.resumable ops with
    | none => s.drawn.fault .copy 0x07 (Config.freeWord s.draws)
    | some c =>
      let c1 := { c with st := .queued, resumed := true, wait := .idle, hwait := none, who := s.asker s.cur, seq := s.nextId }
      .next ({ s with copies := c1 :: s.copies.filter fun x => x.id != c.id } : State).bump.adv

/-- cpseal waits while it would make the unfinished count 257 (R220). -/
def State.cpsealWaits (s : State) : Bool := s.isProducer (phraseOf s.cur) && s.myPhr.unfinished ≥ 256

/-- R375: cpseal. -/
def execCpseal (sd : SReg) (s : State) : Out :=
  let p := phraseOf s.cur
  let q := s.myPhr
  if !s.isProducer p then s.notProducer
  else if s.cpsealWaits then .next s
  else
    let n := q.batch + 1
    let s1 := s.updPhr p fun q => { q with batch := n, opened := [], sealed := q.sealed ++ [{ num := n, copies := q.opened }] }
    let s2 := (s1.copies.filter fun c => q.opened.contains c.id).foldl (fun s c =>
      (s.putCopy { c with batch := some n }).putBatchNum c n.toNat) s1
    putNext sd (n.setWidth 64) (s2.trimBatches p)

/-- cpwait waits until at most n batches are unfinished (R376). -/
def State.cpwaitWaits (s : State) (n : BitVec 12) : Bool :=
  (s.isProducer (phraseOf s.cur) || s.hasBatches (phraseOf s.cur)) && s.myPhr.unfinished > n.toNat

/-- R376: cpwait. -/
def execCpwait (n : BitVec 12) (s : State) : Out :=
  let p := phraseOf s.cur
  if !(s.isProducer p || s.hasBatches p) then s.notProducer
  else if s.cpwaitWaits n then .next s
  else .next s.adv

/-- R377: cpcancel. -/
def execCpcancel (sd sa : SReg) (s : State) : Out :=
  let p := phraseOf s.cur
  let n : BitVec 16 := (s.r sa).setWidth 16
  if !(s.isProducer p || s.hasBatches p) then s.notProducer
  else match s.myPhr.sealed.find? fun b => b.num == n && !s.batchDone b with
    | none => putNext sd 1 s
    | some b =>
      let s1 := b.copies.foldl (fun s id => s.cancelCopy id true) s
      let s2 := s1.updPhr p fun q => { q with sealed := q.sealed.map fun x => if x.num == n then { x with cancelled := true } else x }
      putNext sd 0 (s2.trimBatches p)

/-! ### Firing (R368) -/

/-- Whether a release fence of the phrase, issued before the copy or its last resumption, still holds it (R208, R370, R372). -/
def State.copyHeld (s : State) (c : CopyOp) : Bool :=
  s.laneOps.any fun o => phraseOf o.frag == c.phrase && o.id < c.seq && (match o.kind with | .fence f => orderRel f.order | _ => false) &&
    s.opPending o

/-- The entries that the granules before number `g` have completed. -/
def entriesAt (x : Gutter) (g : Nat) : Nat := 128 * g / 2 ^ gutLogSz x.desc

/-- Where a copy starts: PROGRESS of its record for a resumed one. -/
def State.startAt (s : State) (c : CopyOp) : Nat := if c.resumed then readNat s.mem (recordKey c c.record + 56) 4 else 0

/-- Whether the gutter of a copy lets it fire: no earlier unfinished copy names it, and it has room for its entries or holds
them. -/
def State.copyGutterOk (s : State) (c : CopyOp) : Bool :=
  match copyGutter c.ops with
  | none => true
  | some g =>
    !(s.copies.any fun x => x.id != c.id && x.core == c.core && copyGutter x.ops == some g && (x.st == .running || x.st == .stopped || x.st == .poisoned)) &&
    (match s.gutter c.core g, s.copyPlan c with
     | some x, .inl pl =>
       let need := pl.entries - entriesAt x (s.startAt c)
       (match c.ops with | .toGutter _ _ => need ≤ x.room | _ => need ≤ x.present)
     | _, _ => true)

/-- The next copy of a cluster's engine, if it can fire: one that cannot holds back every later one (R173), as does that of a
frozen core (R432). -/
def State.copyFirable (s : State) (cl : Nat) : Option CopyOp :=
  match s.copies.find? fun c => clusterOf c.core == cl && c.st == .queued with
  | none => none
  | some c =>
    let running := (s.copies.filter fun x => clusterOf x.core == cl && x.st == .running).length
    if running < 16 && !(s.core c.core).frozen && !s.copyHeld c && s.copyGutterOk c then some c else none

/-- A copy stops with a fault, held for its fragment (R371), unless its phrase has left. -/
def State.stopCopy (s : State) (c : CopyOp) (st : CopySt) (cause : Cause) (sub : BitVec 8) (data : Word) : State :=
  let c1 := { c with st := st, wait := .idle, hwait := none, bad := [] }
  let e : Exn := { cause := cause, sub := sub, mask := 0, data := data, pa := wordOf c.record, kind := .held }
  let s1 := (((s.putCopy c1).putProgress c c.prog).putCstat c (if st == .poisoned then 4 else 3) (some (causeCode cause))).modPhr c.phrase
    fun q => { q with cfaults := q.cfaults ++ [⟨c.id, c.frag, e⟩] }
  if (tfind s1.phrases c.phrase).isSome then s1 else s1.trimBatches c.phrase

/-- A copy fires: its records are read and checked (R368). One resumed after it had fired goes on from its own pointer (R372). -/
def State.fireCopy (s : State) (c : CopyOp) : State :=
  let c0 := { c with prog := s.startAt c }
  match c.records.find? fun a => s.poisoned (recordKey c a) 64, s.copyPlan c with
  | some a, _ => (s.putCopy c0).stopCopy c0 .stopped .access 0x0A (wordOf a)
  | none, .inr sub => (s.putCopy c0).stopCopy c0 .stopped .copy sub (wordOf c.record)
  | none, .inl pl =>
    let ptr := match (copyGutter c.ops).bind fun g => s.gutter c.core g with
      | some x => if c.resumed && c.started then c.ptr else match c.ops with | .toGutter _ _ => x.prod | _ => x.cons
      | none => 0
    let c1 := { c0 with st := .running, lsrc := pl.src, ldst := pl.dst, ptr := ptr, auth := [], started := true }
    ((s.putCopy c1).putCstat c1 1 none).putProgress c1 c1.prog

/-- R368: a copy fires. -/
def execCopyFire (id : Nat) (s : State) : Out :=
  match s.copies.find? fun c => c.id == id with
  | none => .next s
  | some c => match s.copyFirable (clusterOf c.core) with
    | some d => if d.id == id then .next (s.fireCopy c) else .next s
    | none => .next s

/-! ### One granule (R369) -/

/-- The plan of a running copy, from the layouts that it read at firing. -/
def State.runningPlan (s : State) (c : CopyOp) : CopyPlan :=
  match c.ldst.or c.lsrc with
  | none => ⟨none, none, 0, 8, 0, 0, 0, 0⟩
  | some f =>
    let w := storeBits f.et
    let n := f.count
    let le := (n * w + 7) / 8
    let nsc := if f.mxs then n / 32 else 0
    let len := alignUp (le + nsc) 128
    let size := match (copyGutter c.ops).bind fun g => s.gutter c.core g with | some x => 2 ^ gutLogSz x.desc | none => 1
    ⟨c.lsrc, c.ldst, n, w, le, nsc, len, if (copyGutter c.ops).isSome then (len + size - 1) / size else 0⟩

def rangeFrom (a b : Nat) : List Nat := (List.range (b - a)).map (a + ·)

/-- The elements and scale bytes of granule `g` of the destination stream. -/
def CopyPlan.elems (p : CopyPlan) (g : Nat) : List Nat := rangeFrom (min p.n (1024 * g / p.w)) (min p.n (1024 * (g + 1) / p.w))
def CopyPlan.scales (p : CopyPlan) (g : Nat) : List Nat := rangeFrom (min p.nsc (128 * g - p.le)) (min p.nsc (128 * (g + 1) - p.le))

/-- The kinds of conversion of R365. -/
inductive Conv where
  | move | float | form | unscale
  deriving DecidableEq, Repr

def CopyPlan.conv (p : CopyPlan) : Conv :=
  match p.src, p.dst with
  | some s, some d =>
    if s.et == d.et && s.mxs == d.mxs then .move
    else if d.mxs then .form
    else if s.mxs then .unscale
    else .float
  | _, _ => .move

/-- The source elements and source blocks' scales that granule `g` needs. -/
def CopyPlan.needElems (p : CopyPlan) (g : Nat) : List Nat :=
  match p.conv with
  | .form => ((p.elems g).map (· / 32) ++ p.scales g).eraseDups.flatMap fun b => rangeFrom (32 * b) (32 * b + 32)
  | _ => p.elems g

def CopyPlan.needScales (p : CopyPlan) (g : Nat) : List Nat :=
  match p.conv with
  | .move => p.scales g
  | .unscale => ((p.elems g).map (· / 32)).eraseDups
  | _ => []

/-- A part of a granule that is read or written. -/
structure CopyPart where
  va    : Nat
  len   : Nat
  write : Bool
  tight : Bool := false
  plain : Bool := false
  deriving DecidableEq, Repr

/-- The ciphertext side of a running cpcrypt, and whether the copy encrypts. -/
def CopyOp.cipher (c : CopyOp) : Option (Layout × Bool) := if c.crypt then cipherSide c.lsrc c.ldst else none

/-- The parts of granule `g`, split at 4 KiB boundaries. DESIGN CHOICE: the ciphertext of a cpcrypt is a stream of bytes and no tight
record, so that the PACKMEM check of R366 does not apply to it (log 47). -/
def copyParts (c : CopyOp) (p : CopyPlan) (g : Nat) : List CopyPart :=
  let last := 128 * (g + 1) ≥ p.len
  let split (x : CopyPart) : List CopyPart := (splitParts x.va x.len).map fun q => { x with va := q.1, len := q.2 }
  let whole (l : Layout) (w : Bool) : List CopyPart :=
    ⟨(l.base + 128 * g) % 2 ^ 64, 128, w, false, false⟩ :: (if last then [⟨(l.base + p.len) % 2 ^ 64, 16, w, false, false⟩] else [])
  let isEnc := (c.cipher.map fun x => x.2) == some true
  let isDec := (c.cipher.map fun x => x.2) == some false
  let reads := match p.src with
    | none => []
    | some l =>
      if isDec then whole l false
      else ((p.needElems g).filterMap l.loc).map (fun (x : Loc) => CopyPart.mk x.va x.span false l.tight c.crypt) ++
        ((p.needScales g).filterMap l.scaleLoc).map fun (x : Loc) => CopyPart.mk x.va x.span false false c.crypt
  let writes := match p.dst with
    | none => []
    | some l =>
      if isEnc then whole l true
      else ((p.elems g).filterMap l.loc).map (fun (x : Loc) => CopyPart.mk x.va x.span true l.tight c.crypt) ++
        ((p.scales g).filterMap l.scaleLoc).map fun (x : Loc) => CopyPart.mk x.va x.span true false c.crypt
  (reads ++ writes).flatMap split

/-- What the check of one part finds (R142). -/
inductive PartOut where
  | ok (p : Piece)
  | fail (va : Nat) (cause : Cause) (sub : BitVec 8)
  | miss (va : Nat) (write : Bool)
  | ask (page va : Nat) (write : Bool)
  deriving DecidableEq, Repr

/-- The checks of R142 on one part up to the path's own response. A page that the granule has already failed on fails again. -/
def State.checkPart (s : State) (c : CopyOp) (x : CopyPart) : PartOut :=
  let a := c.who
  let hp := s.hportOf a.ctx
  let known := (c.bad.find? fun b => b.1 == x.va / 0x1000 && b.2.1 == x.write).map fun b => b.2.2
  match s.resolve a hp x.va x.len (if x.write then .write else .read), known with
  | .bad _ cause sub, _ => .fail x.va cause sub
  | _, some e => .fail x.va e.1 e.2
  | .miss, none => .miss x.va x.write
  | .ok p, none =>
    if x.tight && !(p.path == 2 || p.path == 4) then .fail x.va .copy 0x06
    else if x.plain && p.path == 4 then .fail x.va .copy 0x0A
    else if p.path == 4 && !(s.hostPort hp).gone && (s.pageHeld hp a.ctx (hostPage p.key) || !s.atcHit hp a.ctx (hostPage p.key) x.write) then
      .ask (hostPage p.key) x.va x.write
    else .ok (s.realPiece a.ctx p)

/-- The response of the path to a part that passed its checks: poison, absence or a host failure (R142). -/
def State.respondPart (s : State) (c : CopyOp) (x : CopyPart) (o : PartOut) : Option (Nat × Cause × BitVec 8) × State :=
  match o with
  | .fail va cause sub => (some (va, cause, sub), s)
  | .ok p => match s.pathCheck s.nextId c.who.ctx (!x.write) x.write p with
    | (some e, s1) => (some (x.va, e.1, e.2), s1)
    | (none, s1) => (none, s1)
  | _ => (none, s)

def State.respondParts (s : State) (c : CopyOp) (xs : List (CopyPart × PartOut)) : List (Nat × Cause × BitVec 8) × State :=
  xs.foldl (fun (acc : List (Nat × Cause × BitVec 8) × State) x =>
    let r := acc.2.respondPart c x.1 x.2
    (acc.1 ++ r.1.toList, r.2)) ([], s)

/-- The failure that a granule reports: the lowest cause, and the lowest address that fails with it (R369). -/
def worstPart (xs : List (Nat × Cause × BitVec 8)) : Option (Nat × Cause × BitVec 8) :=
  xs.foldl (fun b x => match b with
    | none => some x
    | some y => if causeCode x.2.1 < causeCode y.2.1 || (causeCode x.2.1 == causeCode y.2.1 && x.1 < y.1) then some x else some y) none

/-- The key of a byte at a virtual address. -/
def State.vaKey (s : State) (c : CopyOp) (va : Nat) (w : Want) : Option Nat :=
  match s.resolve c.who (s.hportOf c.who.ctx) va 1 w with
  | .ok p => some (s.realPiece c.who.ctx p).key
  | _ => none

def State.vaBytes (s : State) (c : CopyOp) (va n : Nat) : List Byte :=
  (List.range n).map fun i => ((s.vaKey c ((va + i) % 2 ^ 64) .read).map fun k => readByte s.mem k).getD 0

def State.vaWrite (s : State) (c : CopyOp) (va : Nat) (bs : List Byte) : State :=
  (List.range bs.length).foldl (fun s i => match s.vaKey c ((va + i) % 2 ^ 64) .write with
    | some k => s.updMem (writeByte k (nth 0 bs i))
    | none => s) s

/-- The code that stands at a place; outside places read as zero, and outside scales as 0x7F (R361, R362). -/
def State.readLoc (s : State) (c : CopyOp) (d : Nat) (x : Option Loc) : Nat :=
  match x with
  | none => d
  | some x => fieldNat (natOf (s.vaBytes c x.va x.span)) x.bit x.bits

/-- The bytes that hold a place, with its code replaced. -/
def State.writeLoc (s : State) (c : CopyOp) (x : Option Loc) (code : Nat) : State :=
  match x with
  | none => s
  | some x =>
    let old := natOf (((List.range x.span).map fun i =>
      ((s.vaKey c ((x.va + i) % 2 ^ 64) .write).map fun k => readByte s.mem k).getD 0))
    s.vaWrite c x.va (bytesOf (old - fieldNat old x.bit x.bits * 2 ^ x.bit + code % 2 ^ x.bits * 2 ^ x.bit) x.span)

/-- The keys of the ring bytes that granule `g` of the destination stream reads. -/
def copyRingKeys (c : CopyOp) (x : Gutter) (o n : Nat) : List Nat :=
  let sz := 2 ^ gutLogSz x.desc
  (List.range n).map fun i => scratchKey c.core (x.entry c.ptr ((o + i) / sz) + (o + i) % sz)

/-- The poisoned ring bytes that granule `g` reads: each fails it as a load of that byte would (R158, R369). -/
def State.ringFails (s : State) (c : CopyOp) (p : CopyPlan) (g : Nat) : List (Nat × Cause × BitVec 8) :=
  match p.src, (copyGutter c.ops).bind fun n => s.gutter c.core n with
  | none, some x => ((copyRingKeys c x (128 * g) 128).filter fun k => s.poisoned k 1).map fun k =>
      (ownWindow + (k - scratchKey c.core 0), .access, 0x0A)
  | _, _ => []

/-- The bits of an element's code: the two high bits of a padded E3M2 or E2M3 byte are ignored and written zero (R83). -/
def codeBits (et : Nat) : Nat := if et == 0x0E || et == 0x0F then 6 else storeBits et

/-- Copies round to nearest even, without saturation, and keep subnormals (R365). -/
def copyRound : Round := { mode := .rne }

/-- One destination element with its exceptions (R365). -/
def State.convElem (s : State) (c : CopyOp) (p : CopyPlan) (l : Layout) (dt : Nat) (j : Nat) : Nat × Exc :=
  let ts := (elemOf l.et).getD (.int false 8)
  let td := (elemOf dt).getD (.int false 8)
  let raw (i : Nat) : Nat := s.readLoc c 0 (l.loc i)
  match p.conv with
  | .move => (raw j % 2 ^ codeBits l.et, 0)
  | .float => convert ts td copyRound (ts.value false (raw j))
  | .unscale =>
    let x := s.readLoc c 0x7F (l.scaleLoc (j / 32))
    let v := if x == 0xFF then Val.nan false else (ts.value false (raw j)).scale ((x : Int) - 127)
    convert ts td copyRound v
  | .form =>
    let b := mxBlock td copyRound ((rangeFrom (j / 32 * 32) (j / 32 * 32 + 32)).map fun i => ts.value false (raw i))
    (nth 0 b.2.1 (j % 32), if j % 32 == 0 then b.2.2 else 0)

def State.convScale (s : State) (c : CopyOp) (p : CopyPlan) (l : Layout) (dt q : Nat) : Nat :=
  match p.conv with
  | .form =>
    let ts := (elemOf l.et).getD (.int false 8)
    let td := (elemOf dt).getD (.int false 8)
    (mxBlock td copyRound ((rangeFrom (32 * q) (32 * q + 32)).map fun i => ts.value false (s.readLoc c 0 (l.loc i)))).1
  | _ => s.readLoc c 0x7F (l.scaleLoc q)

/-- The element type of a copy's stream, which its record gives (R364, R366). -/
def CopyPlan.etype (p : CopyPlan) : Option Nat := (p.src.or p.dst).map fun l => l.et

/-- The bytes of granule `g` as a ring holds them, and as they are read from it: the high two bits of an E3M2 or E2M3 byte are ignored and
written zero (R83). -/
def CopyPlan.ringForm (p : CopyPlan) (g : Nat) (bs : List Byte) : List Byte :=
  if p.etype == some 0x0E || p.etype == some 0x0F then bs.mapIdx fun i b => if 128 * g + i < p.le then b &&& 0x3F else b else bs

/-- The 128 bytes of granule `g` of the destination stream, before encryption, and the exceptions. -/
def State.granuleBytes (s : State) (c : CopyOp) (p : CopyPlan) (g : Nat) : List Byte × Exc :=
  match p.src with
  | none => match (copyGutter c.ops).bind fun n => s.gutter c.core n with
    | some x => (p.ringForm g ((copyRingKeys c x (128 * g) 128).map fun k => readByte s.mem k), 0)
    | none => ([], 0)
  | some l =>
    let dt := ((p.dst.map fun d => d.et).getD l.et)
    let es := (p.elems g).map fun j => s.convElem c p l dt j
    let sc := (p.scales g).map fun q => BitVec.ofNat 8 (s.convScale c p l dt q)
    (takeFill 0 128 (packElems p.w (es.map (·.1)) ++ sc), es.foldl (fun e x => e ||| x.2) 0)

def natBytes (bs : List Byte) : List Nat := bs.map fun b => b.toNat
def byteList (bs : List Nat) : List Byte := bs.map fun n => BitVec.ofNat 8 n

/-- The key and nonce of a cpcrypt (R373). -/
def State.cryptKey (s : State) (l : Layout) : List Nat × Nat :=
  match tfind s.host.keys l.keySlot with
  | some k => (keyBytes k.key, at' k.fixed.toNat 64 + l.nonce.toNat)
  | none => ([], 0)

/-- A granule of the destination stream is written into memory: elements and scales that are not outside (R361, R362). -/
def State.scatter (s : State) (c : CopyOp) (p : CopyPlan) (l : Layout) (g : Nat) (bs : List Byte) : State :=
  let es := p.elems g
  let s1 := (List.range es.length).foldl (fun s i => s.writeLoc c (l.loc (nth 0 es i)) (elemAt bs p.w i % 2 ^ codeBits l.et)) s
  let sc := p.scales g
  let off := es.length * p.w / 8
  (List.range sc.length).foldl (fun s i => s.writeLoc c (l.scaleLoc (nth 0 sc i)) (nth 0 bs (off + i)).toNat) s1

/-- How many ring bytes granule `g` writes: 128, and at the last granule the tail of the last entry. -/
def granuleRing (p : CopyPlan) (x : Gutter) (g : Nat) : Nat :=
  128 + if 128 * (g + 1) ≥ p.len then p.entries * 2 ^ gutLogSz x.desc - p.len else 0

/-- Bytes of the destination stream are written into the ring; at the last granule the tail of the last entry is zero (R364). -/
def State.intoRing (s : State) (c : CopyOp) (p : CopyPlan) (x : Gutter) (g : Nat) (bs : List Byte) : State :=
  let ks := copyRingKeys c x (128 * g) (granuleRing p x g)
  s.updMem fun m => (List.range ks.length).foldl (fun m i => writeByte (nth 0 ks i) (nth 0 bs i) m) m

/-- The keys of the bytes that granule `g` writes. -/
def State.writtenKeys (s : State) (c : CopyOp) (p : CopyPlan) (g : Nat) (parts : List CopyPart) : List Nat :=
  match p.dst, (copyGutter c.ops).bind fun n => s.gutter c.core n with
  | none, some x => copyRingKeys c x (128 * g) (granuleRing p x g)
  | _, _ => (parts.filter (·.write)).flatMap fun x =>
      (List.range x.len).filterMap fun i => s.vaKey c ((x.va + i) % 2 ^ 64) .write

/-- The pointer of the copy's gutter stands after the entries that granules below `g` complete; all of them at the end (R369). -/
def State.movePointer (s : State) (c : CopyOp) (p : CopyPlan) (g : Nat) (fin : Bool) : State :=
  match copyGutter c.ops with
  | none => s
  | some n => s.updGutter c.core n fun x =>
      let v := c.ptr + BitVec.ofNat 16 (if fin then p.entries else entriesAt x g)
      match c.ops with
      | .toGutter _ _ => { x with prod := v }
      | _ => { x with cons := v }

/-- Bits of STATUS in the producer phrase. -/
def State.endGranule (s : State) (c : CopyOp) (p : CopyPlan) (g : Nat) (e : Exc) : State :=
  let fin := 128 * (g + 1) ≥ p.len
  -- a plaintext gutter's pointer moves only after the tag has passed (R374)
  let hold := (c.cipher.map fun x => x.2) == some false && !fin
  let s1 := (s.phraseStatus c.phrase e).putProgress c (g + 1)
  let s2 := if hold then s1 else s1.movePointer c p (g + 1) fin
  let c1 := { c with prog := g + 1, st := if fin then .done else .running, wait := .idle, hwait := none, bad := [] }
  let s3 := s2.putCopy c1
  if fin then (s3.putCstat c 2 none).trimBatches c.phrase else s3

/-- Granule `g` is read and written whole. -/
def State.moveGranule (s : State) (c : CopyOp) (p : CopyPlan) (g : Nat) : State :=
  let fin := 128 * (g + 1) ≥ p.len
  let gut := (copyGutter c.ops).bind fun n => s.gutter c.core n
  let put (s : State) (bs : List Byte) : State := match p.dst with
    | some l => s.scatter c p l g bs
    | none => match gut with
      | some x => s.intoRing c p x g (p.ringForm g bs)
      | none => s
  match c.cipher with
  | none => let r := s.granuleBytes c p g; (put s r.1).endGranule c p g r.2
  | some (l, true) =>
    let r := s.granuleBytes c p g
    let k := s.cryptKey l
    let ct := byteList (gcmText k.1 k.2 (128 * g) (natBytes r.1))
    let auth := c.auth ++ ct
    let s1 := s.vaWrite c ((l.base + 128 * g) % 2 ^ 64) ct
    let s2 := if fin then s1.vaWrite c ((l.base + p.len) % 2 ^ 64) (byteList (gcmTag k.1 k.2 [] (natBytes auth))) else s1
    s2.endGranule { c with auth := auth } p g r.2
  | some (l, false) =>
    let k := s.cryptKey l
    let ct := s.vaBytes c ((l.base + 128 * g) % 2 ^ 64) 128
    let auth := c.auth ++ ct
    let s1 := put s (byteList (gcmText k.1 k.2 (128 * g) (natBytes ct)))
    let c1 := { c with auth := auth }
    if fin && natBytes (s.vaBytes c ((l.base + p.len) % 2 ^ 64) 16) != gcmTag k.1 k.2 [] (natBytes auth) then
      (s1.putCopy c1).stopCopy { c1 with prog := g + 1 } .poisoned .copy 0x0B (wordOf (l.base + p.len))
    else s1.endGranule c1 p g 0

def PartOut.misses : PartOut → Option (Nat × Bool)
  | .miss va w => some (va, w)
  | _ => none

def PartOut.asks : PartOut → Option (Nat × Nat × Bool)
  | .ask page va w => some (page, va, w)
  | _ => none

/-- A walk or a host request that a granule waited for has failed: the page and the access that asked for it are kept with
the failure, and the other parts are checked too (R369). -/
def State.noteFail (s : State) (c : CopyOp) (parts : List CopyPart) : CopyOp :=
  match c.wait with
  | .failed cause sub d =>
    let outs := parts.map fun x => s.checkPart c x
    let page := d.toNat / 0x1000
    let writes := if cause == .host
      then (outs.filterMap PartOut.asks).findSome? fun x => if x.2.1 / 0x1000 == page then some x.2.2 else none
      else (outs.filterMap PartOut.misses).findSome? fun x => if x.1 / 0x1000 == page then some x.2 else none
    match writes with
    | some w => { c with wait := .idle, bad := (page, w, cause, sub) :: c.bad }
    | none => { c with wait := .idle }
  | _ => c

/-- Whether the next granule of a copy can be tried: it waits for no walk and no host page. -/
def CopyOp.ready (c : CopyOp) : Bool :=
  c.st == .running && c.hwait.isNone && (match c.wait with | .waits _ => false | _ => true)

/-- The next granule of a running copy: it is moved, waits for a page, or stops the copy (R369, R371). -/
def State.stepCopy (s : State) (c : CopyOp) : State :=
  let p := s.runningPlan c
  let g := c.prog
  if 128 * g ≥ p.len then ((s.putCopy { c with st := .done }).putCstat c 2 none).trimBatches c.phrase
  else
    let parts := copyParts c p g
    let c := s.noteFail c parts
    let outs := parts.map fun x => s.checkPart c x
    match (outs.filterMap PartOut.misses).head?, (outs.filterMap PartOut.asks).head? with
    | some (va, w), _ =>
      if s.missRoomFor c.who [va / 0x1000] then
        (s.postMiss c.frag c.who (if w then 5 else 4) va 0).putCopy { c with wait := .waits va }
      else s.putCopy c
    | none, some (page, va, w) =>
      let ctx := c.who.ctx
      (s.askHost (s.hportOf ctx) ctx page w false).putCopy { c with hwait := some (page, wordOf va) }
    | none, none =>
      let (fails, s1) := s.respondParts c (parts.zip outs)
      match worstPart (fails ++ s.ringFails c p g) with
      | some (va, cause, sub) => s1.stopCopy c .stopped cause sub (wordOf va)
      | none =>
        let ks := if s1.poison.isEmpty && s1.tags.isEmpty then [] else s1.writtenKeys c p g parts
        ((s1.moveGranule c p g).heal ks).dropTags ks

/-- R369: a granule of a copy completes or fails. -/
def execCopyGranule (id : Nat) (s : State) : Out :=
  match s.copies.find? fun c => c.id == id with
  | none => .next s
  | some c => .next (if c.ready then s.stepCopy c else s)

/-! ### Copy faults (R371, R465) -/

/-- The held copy fault that a fragment takes next: at TL 0, after its lane faults, in the order in which copies stopped. An
aside that ended has passed its copies and their faults to the root. -/
def State.copyFaultOf (s : State) (k : Nat) : Option CopyFault :=
  let f := s.frag k
  let p := phraseOf k
  if f.live && f.tl == 0 && !f.stopped && !(s.core (s.coreOf k)).frozen && (s.phr p).present && (f.slot.isSome || f.wait != .none) then
    (s.phr p).cfaults.find? fun x => x.frag == k
  else none

/-- R371: a copy fault is taken. -/
def execCopyFaultTake (frag : Nat) (s : State) : Out :=
  match s.copyFaultOf frag with
  | none => .next s
  | some x =>
    let s1 := s.updPhr (phraseOf frag) fun q => { q with cfaults := q.cfaults.erase x }
    let f := s1.frag frag
    .next (s1.trapEntry frag { x.exn with mask := f.exec } f.pc none (heldFaults f.ready))

end Sys2Proof.Machine
end

