-- ==== Sys2Proof/Machine/Fragments.lean ====
section
/-! DEFINITION. Splitting and merging fragments (R26-R30, R225, R260-R263), slots and the aside queue (R29, R169). -/
namespace Sys2Proof.Machine

/-! ### Slots -/

/-- The general slots of a core in use: those of fragments, and those that retired members keep (R40). -/
def State.usedSlots (s : State) (core : Nat) : List Nat :=
  (s.frags.filterMap fun e => if e.2.live && s.coreOf e.1 == core && !isWalkerKey e.1 then e.2.slot else none) ++
  (s.phrases.filterMap fun e => if e.2.core == core && e.2.gone then e.2.keep else none)

/-- The free general slots of a core, lowest first; slot 15 is the walker's. -/
def State.freeSlots (s : State) (core : Nat) : List Nat := (List.range 15).filter fun n => !(s.usedSlots core).contains n

/-- Whether a fragment waits at smerge, and so gives up its slot to a queued aside (R29). Clauses that still stand in its lane
queue go on to issue, at the place of the slot that it gave up, since asides wait for them (R27; log 22). -/
def Frag.lendsSlot (f : Frag) : Bool :=
  f.live && f.slot.isSome && (match f.wait with | .merge _ => true | _ => false)

/-- The fragment of a core that gives its slot to a queued aside: the one in the lowest slot. -/
def State.lender (s : State) (core : Nat) : Option Nat :=
  (List.range 15).findSome? fun n =>
    (s.frags.find? fun e => s.coreOf e.1 == core && e.2.slot == some n && e.2.lendsSlot && !isWalkerKey e.1).map (·.1)

/-- A free slot goes to the oldest entry of the core's aside queue; where none is free, a fragment at smerge gives up its own
(R29, R169). -/
def State.grantSlot (s : State) (core : Nat) : State :=
  match (s.core core).asideQ with
  | [] => s
  | k :: ks =>
    let place (s : State) (n : Nat) : State :=
      (s.updCore core fun c => { c with asideQ := ks }).updFrag k fun f => { f with slot := some n }
    match s.freeSlots core with
    | n :: _ => place s n
    | [] => match s.lender core with
      | some k' =>
        let n := ((s.frag k').slot).getD 0
        place (s.updFrag k' fun f => { f with slot := none, qslot := n }) n
      | none => s

/-- R29: a free general slot goes to the oldest queued fragment. -/
def execAsideSlotGrant (core : Nat) (s : State) : Out := .next (s.grantSlot core)

/-! ### ssplit -/

/-- The result word of ssplit (R260). -/
def splitWord (created refused aside mside : Bool) (num : Nat) (exec : Mask) : Word :=
  wordOf (at' (bit created) 63 + at' (bit refused) 62 + at' (bit aside) 61 + at' (bit mside) 60 + at' num 32 + exec.toNat)

/-- The fragment number of a new aside: the lowest from 1 to 31 that no live aside of the phrase holds (R115). -/
def State.newFragNum (s : State) (p : Nat) : Nat :=
  ((List.range 32).find? fun n => n != 0 && !(s.frag (fragKey p n)).live).getD 0

/-- R260, R261: ssplit. -/
def execSsplit (sd sa : SReg) (mark : BitVec 4) (s : State) : Out :=
  let p := phraseOf s.cur
  let f := s.me
  if f.tl != 0 then s.illop (.ssplit sd sa mark)
  else
    let m : Mask := (s.r sa).setWidth 32
    let inside := f.exec &&& m
    let outside := f.exec &&& ~~~m
    if inside == 0 || outside == 0 then
      putNext sd (splitWord false false false (f.exec != 0 && outside == 0) 0 f.exec) s
    else if s.myPhr.asides ≥ 31 then
      putNext sd (splitWord false true false false 0 f.exec) (s.setStatus p statusSplitfail)
    else
      let insideGoes := popCount inside.toNat 32 ≤ popCount outside.toNat 32
      let gone := if insideGoes then inside else outside
      let kept := if insideGoes then outside else inside
      let num := s.newFragNum p
      let k := fragKey p num
      let aside : Frag := { phrase := p, num := num, parent := f.num, live := true, mark := mark, sregs := f.sregs,
                            pc := f.pc + 4, exec := gone, after := s.nextId }
      let free := s.freeSlots s.myCore
      let queued := !(s.core s.myCore).asideQ.isEmpty || free.isEmpty
      let s1 := (s.setFrag k (({ aside with slot := if queued then none else free.head? } : Frag).setReg sd
        (splitWord true false true insideGoes num gone))).bump
      let s2 := if queued then s1.joinAside k (f.slot.getD f.qslot) else s1
      let s3 := (s2.updPhr p fun q => { q with asides := q.asides + 1 }).updMe fun f =>
        { f with exec := kept, outCnt := tput mark.toNat (tget 0 f.outCnt mark.toNat + 1) f.outCnt }
      putNext sd (splitWord true false false (!insideGoes) num kept) s3

/-! ### smerge -/

/-- Whether an aside at its own stop mark may end (R30, R262). -/
def State.asideDone (s : State) (k : Nat) : Bool :=
  (s.frag k).queue.isEmpty && (s.frag k).ready.isEmpty && s.allClear k && (s.frag k).pathsZero &&
  !(s.results.any fun r => r.frag == k && r.fault.isSome)

/-- A parent's merge on mark `m` completes: EXEC becomes the union with the final EXEC of the asides merged (R30). -/
def State.mergeDone (s : State) (k m : Nat) : State :=
  let f := s.frag k
  let s1 := (s.setExec k (f.exec ||| tget 0 f.outExec m)).updFrag k fun f => { f with outExec := tdel m f.outExec }
  if f.wait == .merge m then
    let s2 := s1.updFrag k Frag.resume
    let g := s.frag (fragKey (phraseOf k) f.parent)
    if f.slot.isNone then s2.joinAside k (g.slot.getD g.qslot) else s2
  else s1.updFrag k fun f => { f with pc := f.pc + 4 }

/-- Adds the counts of an ending aside to its parent's (R225). -/
def addCounts (a b : Tbl Nat) : Tbl Nat := a.foldl (fun t e => tput e.1 (tget 0 t e.1 + e.2) t) b

/-- The operations that an ended aside has sent go on, and their replies write no register; its results still to come write the
phrase's lane registers, and none of its scalar registers. -/
def State.orphanOps (s : State) (k : Nat) : State :=
  let root := fragKey (phraseOf k) 0
  let s1 := (s.replies.filter fun y => y.frag == k).foldl (fun s y => s.setStatus (phraseOf k) y.status) s
  let src (o : NounOp) : Source :=
    match o.src with
    | .frag k' sd sf pc => if k' == k then .ended (phraseOf k) else .frag k' sd sf pc
    | x => x
  { s1 with replies := s1.replies.filter fun y => y.frag != k
            invals := s1.invals.map fun y => if y.frag == k then { y with frag := root, sd := 0 } else y
            results := s1.results.map fun r => if r.frag == k then { r with frag := root, scalar := none, clause := 0 } else r
            laneOps := s1.laneOps.filter fun o => o.frag != k
            syscs := s1.syscs.map fun y => if y.frag == k then { y with frag := root } else y
            nouns := s1.nouns.map fun o => { o with src := src o } }

/-- The copies of an ended aside, and the faults that it has not taken, pass to the root, so that a later aside of its number does
not take them (R371). -/
def State.passCopies (s : State) (k : Nat) : State :=
  let root := fragKey (phraseOf k) 0
  let move (c : CopyOp) : CopyOp := if c.frag == k then { c with frag := root } else c
  let pass (f : CopyFault) : CopyFault := if f.frag == k then { f with frag := root } else f
  let s1 : State := { s with copies := s.copies.map move, heldCopies := s.heldCopies.map move }
  s1.modPhr (phraseOf k) fun q => { q with cfaults := q.cfaults.map pass }

/-- An aside ends (R30, R225). -/
def State.endAside (s : State) (k : Nat) : State :=
  let f := s.frag k
  let p := phraseOf k
  let pk := fragKey p f.parent
  let m := f.mark.toNat
  let adopt (e : Nat × Frag) : Nat × Frag :=
    if phraseOf e.1 == p && e.2.num != 0 && e.2.parent == f.num then (e.1, { e.2 with parent := f.parent, after := 0 }) else e
  let s0 := (s.orphanOps k).passCopies k
  let s1 : State := { s0 with frags := (tdel k s0.frags).map adopt }
  let s2 := (s1.updFrag pk fun g =>
      { g with outCnt := addCounts f.outCnt (tput m (tget 0 g.outCnt m - 1) g.outCnt),
               outExec := tput m (tget 0 g.outExec m ||| f.exec) g.outExec }).updPhr p fun q => { q with asides := q.asides - 1 }
  match (s2.frag pk).wait with
  | .merge n => if tget 0 (s2.frag pk).outCnt n == 0 then s2.mergeDone pk n else s2
  | _ => s2

/-- Whether smerge is the end of an aside that must still wait for its own stream (R262). -/
def State.smergeWaits (s : State) (mark : BitVec 4) : Bool :=
  s.me.tl == 0 && s.me.num != 0 && s.me.mark == mark && !s.asideDone s.cur

/-- R262: smerge. -/
def execSmerge (mark : BitVec 4) (s : State) : Out :=
  let f := s.me
  let m := mark.toNat
  if f.tl != 0 then s.illop (.smerge mark)
  else if f.num != 0 && f.mark == mark then
    if s.asideDone s.cur then .next (s.endAside s.cur) else .next s
  else if tget 0 f.outCnt m == 0 then .next (s.mergeDone s.cur m)
  else .next (s.updMe fun f => { f with wait := .merge m })

end Sys2Proof.Machine
end

