-- ==== Sys2Proof/Machine/Images.lean ====
section
/-! DEFINITION. The save image of a phrase and of a core (R384, R472-R475), the fault list (R476, R477), what a save does to a
phrase (R471), and what a restore does (R478). Fields whose layout the manual does not give keep their values in the state
(log 27). -/
namespace Sys2Proof.Machine

/-! ### Writing and reading fields -/

/-- Writes fields: address, length, value. -/
def pokes (l : List (Nat × Nat × Nat)) (m : Mem) : Mem := l.foldl (fun m e => writeNat e.1 e.2.1 e.2.2 m) m

def fragRecAt (img f : Nat) : Nat := img + 0x1000 + 0x2000 * f
def lregsAt (img : Nat) : Nat := img + 0x41000
def rstartAt (img regs : Nat) : Nat := img + 0x41000 + 128 * regs
def copyqAt (img regs rcount : Nat) : Nat := rstartAt img regs + 1152 * rcount

/-- After the copy entries and 128-byte alignment: what the layout of the manual has no place for (log 27). The first 128 bytes hold
FSL0 to FSL7, TVEC and TSAVE; then each fragment number has nine entries of clauses that perform an instruction again. -/
def tailAt (img regs rcount ccount : Nat) : Nat := alignUp (copyqAt img regs rcount + 32 * ccount) 128

def tailLen : Nat := 0x80 + 0x4800

/-- The entry of a fragment's clause at a level: 0 is that of the level's image, 1 and 2 are at the head of its queue. -/
def redoAt (tail f level i : Nat) : Nat := tail + 0x80 + 0x240 * f + 0xC0 * level + 0x40 * i

/-- The length of an image (R472), with what follows its copy entries (log 27). -/
def imageLen (regs rcount ccount : Nat) : Nat := alignUp (0x41000 + 128 * regs + 1152 * rcount + 32 * ccount) 128 + tailLen

/-- The length of a core image: through the unfired operations, to the next page (R474). -/
def coreImageLen : Nat := 0x6C000

/-- The resume kinds in the order of R434 (log 27). -/
def resumeCode (k : ResumeKind) : Nat := match k with | .scalar => 0 | .held => 1 | .laneRun => 2 | .laneStart => 3 | .laneIssue => 4

def resumeOf (n : Nat) : ResumeKind := match n with | 0 => .scalar | 1 => .held | 2 => .laneRun | 3 => .laneStart | _ => .laneIssue

/-! ### Fragment records (R474) -/

def clausePokes (a : Nat) (c : Clause) : List (Nat × Nat × Nat) :=
  [(a, 8, c.addr.toNat), (a + 8, 4, c.mask.toNat), (a + 12, 4, c.next % 256), (a + 16, 8, c.c0.toNat), (a + 24, 8, c.c1.toNat),
   (a + 32, 8, c.c2.toNat), (a + 40, 8, c.c3.toNat), (a + 48, 16, 0)]

def queuePokes : Nat → List Clause → List (Nat × Nat × Nat)
  | _, [] => []
  | a, c :: cs => clausePokes a c ++ queuePokes (a + 64) cs

def bankPokes (a : Nat) (b : Bank) (i : Image) : List (Nat × Nat × Nat) :=
  [(a, 8, b.epc.toNat), (a + 8, 8, b.elpc.toNat), (a + 16, 8, b.edata.toNat), (a + 24, 4, b.ecause.toNat), (a + 28, 4, b.emask.toNat),
   (a + 32, 4, b.exsave.toNat), (a + 36, 1, (entries i.queue).length), (a + 37, 1, resumeCode i.kind),
   (a + 38, 1, (((entries i.queue).head?).map (·.next)).getD 0), (a + 39, 1, (i.redo.map (·.next)).getD 0)]

/-- A clause that performs an instruction again: an entry of a queue, a mark, and its other fields (log 27). -/
def againPokes (a : Nat) (c : Option Clause) : List (Nat × Nat × Nat) :=
  match c with
  | none => []
  | some c => clausePokes a c ++ [(a + 13, 1, 1 + at' (bit c.whole.isSome) 1 + at' (bit c.members.isSome) 2),
      (a + 48, 4, (c.whole.getD 0).toNat), (a + 52, 4, c.trapen.toNat), (a + 56, 8, (c.members.getD 0).toNat)]

/-- The clauses that perform an instruction again, of a fragment numbered `n` in an image whose tail is at `tail`. -/
def Frag.redoPokes (f : Frag) (tail n : Nat) : List (Nat × Nat × Nat) :=
  let head (q : List Clause) (level : Nat) : List (Nat × Nat × Nat) :=
    let again := q.filter (·.again)
    againPokes (redoAt tail n level 1) again.head? ++ againPokes (redoAt tail n level 2) again.tail.head?
  head f.queue 0 ++ againPokes (redoAt tail n 1 0) f.img1.redo ++ head f.img1.queue 1 ++
  againPokes (redoAt tail n 2 0) f.img2.redo ++ head f.img2.queue 2

/-- The flags of a fragment as they read. -/
def State.flagWord (s : State) (k : Nat) : Nat := (List.range 12).foldl (fun n b => n + at' (bit (s.flagSet k b)) b) 0

def isMerge (w : Wait) : Bool := match w with | .merge _ => true | _ => false

/-- The open instructions of a fragment that are restartable: lanes of theirs are still to be performed, or an earlier restore has
not yet issued them again (R219, R471). -/
def State.restartable (s : State) (k : Nat) : List OpenIns :=
  (s.frag k).opens.filterMap fun o =>
    let late := !(s.phr (phraseOf k)).restarts.isEmpty && !(s.accs.any fun a => a.id == o.id)
    if late || s.accs.any fun a => a.id == o.id && a.kind != .fget && a.pending then
      some { o with paths := o.paths &&& ~~~o.done, done := 0 }
    else none

def State.fragPokes (s : State) (k a : Nat) : List (Nat × Nat × Nat) :=
  let f := s.frag k
  let kept : Frag := { f with opens := s.restartable k }
  [(a, 0x2000, 0)] ++ (List.range 64).map (fun r => (a + 8 * r, 8, (f.reg (BitVec.ofNat 6 r)).toNat)) ++
  [(a + 0x200, 8, f.pc.toNat), (a + 0x208, 4, f.exec.toNat), (a + 0x20C, 1, f.tl.toNat),
   (a + 0x20D, 1, f.mark.toNat + at' (bit (isMerge f.wait)) 7), (a + 0x20E, 2, s.flagWord k)] ++
  (List.range 16).map (fun m => (a + 0x210 + m, 1, tget 0 f.outCnt m)) ++
  (List.range 5).map (fun p => (a + 0x220 + 2 * p, 2, kept.pathCount p)) ++
  [(a + 0x22A, 1, f.parent), (a + 0x22B, 1, (entries f.queue).length)] ++
  bankPokes (a + 0x230) f.bank1 f.img1 ++ bankPokes (a + 0x258) f.bank2 f.img2 ++
  queuePokes (a + 0x400) (entries f.queue) ++ queuePokes (a + 0xC00) (entries f.img1.queue) ++
  queuePokes (a + 0x1400) (entries f.img2.queue)

/-- A clause as an entry of a record gives it; what the entry does not hold is taken from the clause that was saved there. -/
def clauseAt (m : Mem) (a : Nat) (old : Clause) : Clause :=
  { old with
    addr := wordOf (readNat m a 8)
    mask := BitVec.ofNat 32 (readNat m (a + 8) 4)
    next := readNat m (a + 12) 1
    c0 := wordOf (readNat m (a + 16) 8)
    c1 := wordOf (readNat m (a + 24) 8)
    c2 := wordOf (readNat m (a + 32) 8)
    c3 := wordOf (readNat m (a + 40) 8)
    header := if old.addr == wordOf (readNat m a 8) then old.header else none }

def queueAt (m : Mem) (old : List Clause) : Nat → Nat → List Clause
  | _, 0 => []
  | a, n + 1 => clauseAt m a (old.headD {}) :: queueAt m old.tail (a + 64) n

/-- A clause that performs an instruction again, as its entry gives it. -/
def redoOfEntry (m : Mem) (a : Nat) (old : Option Clause) : Option Clause :=
  let b := readNat m (a + 13) 1
  if b.testBit 0 then
    let c := clauseAt m a (old.getD {})
    some { c with last := c.next, again := true, trapen := BitVec.ofNat 32 (readNat m (a + 52) 4)
                  whole := if b.testBit 1 then some (BitVec.ofNat 32 (readNat m (a + 48) 4)) else none
                  members := if b.testBit 2 then some (wordOf (readNat m (a + 56) 8)) else none }
  else none

/-- A lane queue as its entries give it, behind the clauses that perform an instruction again. -/
def laneQueueAt (m : Mem) (tail f level a n : Nat) (old : List Clause) : List Clause :=
  let again := old.filter (·.again)
  (redoOfEntry m (redoAt tail f level 1) again.head?).toList ++ (redoOfEntry m (redoAt tail f level 2) again.tail.head?).toList ++
  queueAt m (entries old) a (min 32 n)

def bankAt (m : Mem) (a : Nat) : Bank :=
  { epc := wordOf (readNat m a 8), elpc := wordOf (readNat m (a + 8) 8), edata := wordOf (readNat m (a + 16) 8)
    ecause := BitVec.ofNat 32 (readNat m (a + 24) 4 % 2 ^ 17), emask := BitVec.ofNat 32 (readNat m (a + 28) 4)
    exsave := BitVec.ofNat 32 (readNat m (a + 32) 4) }

/-- A level's image: the instruction to perform again is the one in the tail, or is made from the head clause and the index. -/
def imageAt (m : Mem) (tail f level a q : Nat) (old : Image) : Image :=
  let queue := laneQueueAt m tail f level q (readNat m (a + 36) 1) old.queue
  let fault := readNat m (a + 39) 1
  let redo := match redoOfEntry m (redoAt tail f level 0) old.redo, queue with
    | some c, _ => some c
    | none, c :: _ => if fault == 0 then none else some { c with next := fault, last := fault, again := true }
    | none, [] => none
  { old with queue := queue, kind := resumeOf (readNat m (a + 37) 1), redo := redo, held := [] }

/-- The nonzero items of a table of `n` items. -/
def sparse (n : Nat) (f : Nat → Nat) : Tbl Nat := (List.range n).filterMap fun i => if f i == 0 then none else some (i, f i)

/-- The restartable count of a path in a fragment record. -/
def ifcntAt (m : Mem) (a p : Nat) : Nat := readNat m (a + 0x220 + 2 * p) 2

/-- The highest restartable count of a fragment record. -/
def ifcntMax (m : Mem) (a : Nat) : Nat := (List.range 5).foldl (fun n p => max n (ifcntAt m a p)) 0

/-- Open instructions, numbered from `id`, that make up the counts of a record. -/
def opensAt (m : Mem) (a id : Nat) : List OpenIns :=
  (List.range (ifcntMax m a)).map fun i =>
    { id := id + i, done := 0, paths := (List.range 5).foldl (fun b p => if i < ifcntAt m a p then b ||| pathBit p else b) 0 }

/-- Whether a record has the counts of the fragment that was kept. -/
def sameCounts (m : Mem) (a : Nat) (old : Frag) : Bool := (List.range 5).all fun i => ifcntAt m a i == old.pathCount i

/-- A fragment as its record gives it (R474, R478). The instructions that its counters count are those saved with it, where the
record has the same counts; otherwise new ones, numbered from `id`, which the entries to be served take (R219). -/
def fragAt (m : Mem) (a tail p num id : Nat) (live : Mask) (old : Frag) : Frag :=
  let stop := readNat m (a + 0x20D) 1
  { old with
    phrase := p, num := num, live := true, slot := none, stopped := false, fetch := .idle, lfetch := .idle, pwait := .idle, ready := []
    opens := if sameCounts m a old then old.opens else opensAt m a id
    sregs := (sparse 64 fun r => if r == 0 then 0 else readNat m (a + 8 * r) 8).map fun e => (e.1, wordOf e.2)
    pc := wordOf (readNat m (a + 0x200) 8)
    exec := BitVec.ofNat 32 (readNat m (a + 0x208) 4) &&& live
    tl := BitVec.ofNat 2 (readNat m (a + 0x20C) 1)
    mark := BitVec.ofNat 4 stop
    outCnt := sparse 16 fun k => readNat m (a + 0x210 + k) 1
    parent := readNat m (a + 0x22A) 1
    wait := if stop ≥ 128 then old.wait else .none
    queue := laneQueueAt m tail num 0 (a + 0x400) (readNat m (a + 0x22B) 1) old.queue
    bank1 := bankAt m (a + 0x230), bank2 := bankAt m (a + 0x258)
    img1 := imageAt m tail num 1 (a + 0x230) (a + 0xC00) old.img1
    img2 := imageAt m tail num 2 (a + 0x258) (a + 0x1400) old.img2 }

/-! ### Restart entries (R475) -/

def Restart.pokes (r : Restart) (a : Nat) : List (Nat × Nat × Nat) :=
  [(a, 8, r.iaddr.toNat), (a + 8, 4, r.lanes.toNat), (a + 12, 1, r.frag), (a + 13, 1, r.type + at' r.level 2), (a + 14, 1, r.flag),
   (a + 15, 1, r.cause), (a + 16, 1, r.sub), (a + 17, 3, 0), (a + 20, 4, r.flidx), (a + 24, 8, r.edata.toNat), (a + 32, 96, 0),
   (a + 128, 1024, 0)] ++
  r.recs.flatMap fun e => [(a + 128 + 32 * e.1, 8, e.2.1.toNat), (a + 136 + 32 * e.1, 8, e.2.2.1.toNat), (a + 144 + 32 * e.1, 8, e.2.2.2.toNat)]

def restartAt (m : Mem) (a : Nat) : Restart :=
  let lanes : Mask := BitVec.ofNat 32 (readNat m (a + 8) 4)
  let type := readNat m (a + 13) 1
  let ls := if type % 4 == 1 then [0] else lanesOf lanes
  { iaddr := wordOf (readNat m a 8), lanes := lanes, frag := readNat m (a + 12) 1 % 32, type := type % 4, level := fieldNat type 2 2
    flag := readNat m (a + 14) 1, cause := readNat m (a + 15) 1, sub := readNat m (a + 16) 1, flidx := readNat m (a + 20) 4
    edata := wordOf (readNat m (a + 24) 8)
    recs := ls.map fun l => (l, wordOf (readNat m (a + 128 + 32 * l) 8), wordOf (readNat m (a + 136 + 32 * l) 8),
      wordOf (readNat m (a + 144 + 32 * l) 8)) }

/-! ### The fault list (R476, R477) -/

/-- What holds a lane: a walk (type 1), a page request (type 2) or a pool read (type 3), the virtual page, the KIND, and the page of
the host or of the pool. -/
structure Hold where
  type  : Nat
  page  : Nat
  kind  : Nat
  hpage : Nat := 0
  deriving DecidableEq, Repr

/-- The part of a lane's access that waits for the answer to a page request, and its host page (R150). -/
def State.priPart (s : State) (a : Access) (l : LaneAcc) : Option (Nat × Nat) :=
  let ctx := s.ctxOf a.frag
  let hp := s.hportOf ctx
  let parts := splitParts l.addr.toNat a.reach
  ((parts.zip l.parts).find? fun x =>
    x.2.path == 4 && !s.atcHit hp ctx (hostPage x.2.key) a.kind.want.writes &&
    (s.hostPort hp).reqs.any fun q => q.ctx == ctx && q.page == hostPage x.2.key && q.pri).map
    fun x => (x.1.1 / 0x1000, hostPage x.2.key)

/-- The part of a lane's load that a pool read brings, and its pool page: no byte of the lane has been performed (R471). -/
def State.poolPart (s : State) (a : Access) (l : LaneAcc) : Option (Nat × Nat) :=
  if a.kind == .load && s.mayPerform a then
    (((splitParts l.addr.toNat a.reach).zip l.parts).find? fun x => x.2.path == 2).map fun x => (x.1.1 / 0x1000, x.2.key / 0x1000)
  else none

/-- What holds an open lane, if it can be made restartable (R471). -/
def State.laneHold (s : State) (a : Access) (l : LaneAcc) : Option Hold :=
  match l.st with
  | .walk =>
    let ms := (s.core (s.coreOf a.frag)).misses
    ((splitParts l.addr.toNat a.reach).findSome? fun p =>
      ms.find? fun m => m.isFor (s.ctxOf a.frag) (p.1 / 0x1000)).map fun m => ⟨1, m.va / 0x1000, m.kind, 0⟩
  | .todo => match s.priPart a l with
    | some x => some ⟨2, x.1, a.kind.want.kind, x.2⟩
    | none => (s.poolPart a l).map fun x => ⟨3, x.1, a.kind.want.kind, x.2⟩
  | _ => none

/-- The accesses of some phrases. -/
def State.accsOfAll (s : State) (ps : List Nat) : List Access := s.accs.filter fun a => ps.contains (phraseOf a.frag)

/-- The lanes of an access that are not performed. -/
def Access.openLanes (a : Access) : List LaneAcc := a.lanes.filter fun l => l.st.open

/-- The miss records that fragments of a phrase posted. -/
def State.missesOf (s : State) (p : Nat) : List MissRec := (s.core (s.phr p).core).misses.filter fun m => phraseOf m.frag == p

/-- The fault-list entries that the save of a phrase needs: those of its lanes in order, and then the records that no lane waits
on (R477). -/
def State.holds (s : State) (p : Nat) : List Hold :=
  let hs := ((s.accsOfAll [p]).flatMap fun a => a.openLanes.filterMap fun l => s.laneHold a l) ++
    (s.missesOf p).map fun m => (⟨1, m.va / 0x1000, m.kind, 0⟩ : Hold)
  hs.foldl (fun acc h => if acc.any fun x => x.type == h.type && x.page == h.page then acc else acc ++ [h]) []

def flEntry (flist i : Nat) : Nat := flist + 128 + 32 * i

def holdPokes (noun : Word) (a : Nat) (h : Hold) : List (Nat × Nat × Nat) :=
  [(a, 8, h.page * 0x1000 % 2 ^ 56 + at' h.kind 56), (a + 8, 8, h.type), (a + 16, 8, noun.toNat), (a + 24, 8, 0)]

/-- Whether the fault list has room for `n` more entries (R476). -/
def State.flistRoom (s : State) (ctx n : Nat) : Bool :=
  let a := (s.ctx ctx).flist.toNat
  n == 0 || (a != 0 && readNat s.mem a 4 + n ≤ readNat s.mem (a + 4) 4)

/-! ### When a save can be completed (R471) -/

/-- The phrases that are saved with a phrase: itself and its other side (R36). -/
def State.saveGroup (s : State) (p : Nat) : List Nat :=
  let m := s.mainOf p
  m :: (if s.mateAlive m then (s.phr m).mate.toList else [])

/-- Whether every issued access of a phrase is performed, failed or restartable, and nothing else of it is at work. -/
def State.drained (s : State) (p : Nat) : Bool :=
  let mine (k : Nat) : Bool := phraseOf k == p
  !(s.core (s.phr p).core).frozen &&
  ((s.accsOfAll [p]).all fun a => a.kind == .fget || a.openLanes.all fun l => (s.laneHold a l).isSome) &&
  !(s.results.any fun r => mine r.frag) &&
  !(s.replies.any fun y => mine y.frag) && !(s.invals.any fun v => mine v.frag) &&
  !(s.nouns.any fun o => !o.act.pair && (match o.src with | .frag k _ _ _ => mine k | .ended q => q == p | _ => false)) &&
  !((s.core (s.phr p).core).engine.ops.any fun o => o.phrase == p && o.fired) &&
  !(s.copies.any fun c => c.who.ctx == (s.phr p).ctx && c.st == .running) &&
  s.flistRoom (s.phr p).ctx (s.holds p).length

/-! ### Taking a phrase off its core -/

/-- The restart entries of an access: one for each hold of its open lanes, and one held fault for lanes that failed. -/
def State.restartsOf (s : State) (hs : List Hold) (base : Nat) (a : Access) : List Restart :=
  let num := (s.frag a.frag).num
  let ls := a.openLanes.filterMap fun l => (s.laneHold a l).map fun h => (l, h)
  let idx (h : Hold) : Nat := hs.findIdx fun x => x.type == h.type && x.page == h.page
  let groups := (ls.map fun x => idx x.2).eraseDups
  let flag := (a.flag.map (·.val)).getD 15
  let held := (faultOf (failedLanes a.lanes)).toList.map fun e =>
    ({ iaddr := a.pc, lanes := e.2.2.2, frag := num, type := 2, level := (s.frag a.frag).faultLevel a.id, flag := flag, cause := causeCode e.1
       sub := e.2.1.toNat, edata := e.2.2.1 } : Restart)
  (groups.map fun g =>
    let mine := ls.filter fun x => idx x.2 == g
    ({ iaddr := a.pc, lanes := maskOf (mine.map fun x => x.1.lane), frag := num, type := if a.scalar then 1 else 0, flag := flag
       flidx := base + g, recs := mine.map fun x => (x.1.lane, x.1.addr, x.1.data, x.1.cmp) } : Restart)) ++ held

/-- The flag that the next instruction of a clause binds, or 15 (R240, R475). -/
def Clause.flagCode (c : Clause) : Nat :=
  match flagBindOf ((nth 0 c.code (c.next - 1)).extractLsb' 38 2) with
  | some fb => ((c.flagOf fb).map (·.val)).getD 15
  | none => 15

/-- The instruction of a fault: a scalar access that failed while its phrase was being saved stands at its PC (R471). -/
def LaneFault.iaddr (x : LaneFault) : Word := if x.exn.kind == .scalar then x.redo.addr else x.exn.pa

/-- The restart entry of a held fault (R466, R475). -/
def restartOfFault (num level : Nat) (x : LaneFault) : Restart :=
  { iaddr := x.iaddr, lanes := x.exn.mask, frag := num, type := 2, level := level, flag := x.redo.flagCode, cause := causeCode x.exn.cause
    sub := x.exn.sub.toNat, edata := x.exn.data, fault := some x }

def State.heldRestarts (s : State) (k : Nat) : List Restart :=
  let f := s.frag k
  f.img1.held.map (restartOfFault f.num 1) ++ f.img2.held.map (restartOfFault f.num 2) ++
  (f.ready.filter fun x => x.exn.kind != .laneStart).map (restartOfFault f.num 0)

/-- Opcode, fn and records of a copy, its batch and its STATE (R472; the places of its fields: log 27). -/
def copyState (c : CopyOp) : Nat :=
  match c.st with | .queued => 0 | .running => 1 | .done => 2 | .stopped => 3 | .poisoned => 4 | .cancelled => 5

def copyFn : CopyOps → Nat
  | .mem _ _ _ => 0
  | .fromGutter g _ => 1 + at' g.toNat 3
  | .toGutter _ g => 2 + at' g.toNat 3

/-- A copy entry; `next` is the number of the batch that is still open (R220). -/
def copyPokes (a : Nat) (next : BitVec 16) (c : CopyOp) : List (Nat × Nat × Nat) :=
  [(a, 8, (if c.crypt then 0xAC else 0xAB) + at' (copyFn c.ops) 8), (a + 8, 8, (c.src.getD 0)), (a + 16, 8, (c.dst.getD 0)),
   (a + 24, 8, (c.batch.getD next).toNat + at' (copyState c) 16)]

/-- The entries of a ring at one side's half of the window: register by register, lane by lane. -/
def ringPokes (a : Nat) : List RingEntry → List (Nat × Nat × Nat)
  | [] => []
  | e :: es => (List.range 32).map (fun l => (a + 4 * l, 4, (nth 0 e.vals l).toNat)) ++ ringPokes (a + 128) es

/-- The lane registers of a phrase, and its queue window in the top 32 (R472, R473). -/
def Phrase.lanePokes (q : Phrase) (a : Nat) : List (Nat × Nat × Nat) :=
  [(a, 128 * q.regs, 0)] ++ (q.lanes.map fun e => (a + 4 * e.1, 4, e.2.toNat)) ++
  (if q.mate.isSome && !q.isAux then ringPokes (a + 128 * (q.regs - 32)) q.ringMA ++ ringPokes (a + 128 * (q.regs - 16)) q.ringAM else [])

def Phrase.bdoneWord (q : Phrase) : BitVec 16 :=
  match q.sealed with
  | b :: _ => b.num
  | [] => q.batch + 1

/-- Bits 5:3 of PFLAGS: where the phrase has arrived. -/
def State.arrivals (s : State) (p : Nat) : Nat :=
  match s.courseOf p with
  | some c => at' (bit (c.sbar.contains p)) 3 + at' (bit (c.sclbar.contains p)) 4 + at' (bit (s.phr p).lbar) 5
  | none => at' (bit (s.phr p).lbar) 5

/-- The phrase header (R473). -/
def State.phdrPokes (s : State) (p a : Nat) (auto : Bool) (rcount ccount : Nat) : List (Nat × Nat × Nat) :=
  let q := s.phr p
  let frags := (s.fragsOf p).foldl (fun n k => n + 2 ^ (s.frag k).num) 0
  [(a + 0x40, 8, q.instN.toNat), (a + 0x48, 4, q.live.toNat), (a + 0x4C, 4, frags), (a + 0x50, 4, q.status.toNat),
   (a + 0x54, 4, q.trapen.toNat), (a + 0x58, 4, (q.course.getD noCourse).toNat), (a + 0x5C, 2, if q.course.isSome then q.rank else 0x7FF),
   (a + 0x5E, 2, q.regs), (a + 0x60, 4, q.batch.toNat + at' q.bdoneWord.toNat 16),
   (a + 0x64, 4, at' q.ringMA.length 4 + at' q.ringAM.length 13),
   (a + 0x68, 4, bit (q.mate.isSome && !q.isAux) + at' (bit (s.holdsToken p || q.needTok)) 1 + at' (bit auto) 2 + s.arrivals p),
   (a + 0x6C, 4, rcount), (a + 0x70, 4, ccount), (a + 0x74, 12, 0), (a + 0x80, 0xF80, 0)]

/-- The delivery header, written last (R384, R471). -/
def State.delivPokes (s : State) (p a : Nat) : List (Nat × Nat × Nat) :=
  let q := s.phr p
  let f := s.frag (fragKey p 0)
  let sleeps := (s.fragsOf p).any fun k => (s.frag k).wait == .sleep
  (List.range 4).map (fun n => (a + 16 + 8 * n, 8, (f.reg (BitVec.ofNat 6 (60 + n))).toNat)) ++
  [(a + 48, 16, 0), (a + 8, 8, q.noun.toNat),
   (a, 8, q.dpend.toNat + at' (bit q.wakep) 4 + at' (bit sleeps) 5 + at' q.sigp.toNat 16)]

/-- FSL0 to FSL7, TVEC and TSAVE, behind the copy entries (log 27). -/
def Phrase.tailPokes (q : Phrase) (tail : Nat) : List (Nat × Nat × Nat) :=
  [(tail, tailLen, 0)] ++ (List.range 8).map (fun n => (tail + 4 * n, 4, (nth (0 : BitVec 32) q.fsl n).toNat)) ++
  [(tail + 32, 8, q.tvec.toNat), (tail + 40, 8, q.tsave.toNat)]

/-- The restart entries of a phrase; those that its last restore has not served yet follow (R478). -/
def State.restarts (s : State) (p base : Nat) : List Restart :=
  let hs := s.holds p
  ((s.accsOfAll [p]).filter fun a => a.kind != .fget).flatMap (fun a => s.restartsOf hs base a) ++
  (s.fragsOf p).flatMap (fun k => s.heldRestarts k) ++ (s.phr p).restarts

/-- The copies of a phrase: those that have ended are in the state of their batch (R378). -/
def State.copiesOf (s : State) (p : Nat) : List CopyOp := s.copies.filter fun c => c.phrase == p

def State.flCount (s : State) (ctx : Nat) : Nat :=
  let a := (s.ctx ctx).flist.toNat
  if a == 0 then 0 else readNat s.mem a 4

/-- The length of the image of a phrase as it now stands. -/
def State.imageSize (s : State) (p : Nat) : Nat :=
  imageLen (s.phr p).regs (s.restarts p (s.flCount (s.phr p).ctx)).length (s.copiesOf p).length

/-- What the image of a phrase (R472) and its fault-list entries (R477) hold: places, sizes and values. -/
def State.imagePokes (s : State) (p a : Nat) (auto : Bool) : List (Nat × Nat × Nat) :=
  let q := s.phr p
  let fl := (s.ctx q.ctx).flist.toNat
  let base := s.flCount q.ctx
  let hs := s.holds p
  let rs := s.restarts p base
  let cs := s.copiesOf p
  s.phdrPokes p a auto rs.length cs.length ++
    (s.fragsOf p).flatMap (fun k => s.fragPokes k (fragRecAt a (s.frag k).num)) ++
    q.lanePokes (lregsAt a) ++
    (rs.mapIdx fun i r => r.pokes (rstartAt a q.regs + 1152 * i)).flatten ++
    (cs.mapIdx fun i c => copyPokes (copyqAt a q.regs rs.length + 32 * i) (q.batch + 1) c).flatten ++
    q.tailPokes (tailAt a q.regs rs.length cs.length) ++
    (s.fragsOf p).flatMap (fun k => (s.frag k).redoPokes (tailAt a q.regs rs.length cs.length) (s.frag k).num) ++
    (hs.mapIdx fun i h => holdPokes q.noun (flEntry fl (base + i)) h).flatten ++
    (if hs.isEmpty then [] else [(fl, 4, base + hs.length)]) ++
    s.delivPokes p a

/-- The image of a phrase (R472), and its fault-list entries (R477). -/
def State.writeImage (s : State) (p a : Nat) (auto : Bool) : State :=
  let q := s.phr p
  let fl := (s.ctx q.ctx).flist.toNat
  let base := s.flCount q.ctx
  let hs := s.holds p
  let hp := s.hportOf q.ctx
  let mark (r : HostReq) : HostReq :=
    { r with flidx := r.flidx ++ (hs.zipIdx.filterMap fun e =>
        if e.1.type == 2 && r.ctx == q.ctx && r.page == e.1.hpage then some (flEntry fl (base + e.2)) else none) }
  let reads := hs.zipIdx.filterMap fun e =>
    if e.1.type == 3 then some ({ entry := flEntry fl (base + e.2), ctx := q.ctx, page := e.1.hpage, id := s.nextId } : PoolRead) else none
  let s1 := ((s.dropRange a (s.imageSize p)).updMem (pokes (s.imagePokes p a auto))).updHostPort hp fun x => { x with reqs := x.reqs.map mark }
  { s1 with poolReads := s1.poolReads ++ reads }

/-- A miss record leaves its core; where another phrase waits on it, a fresh record of that phrase's takes its place, so that a walker
still serving the old one is told that it is no more (R477). -/
def State.dropRecord (s : State) (core : Nat) (m : MissRec) (heir : Option Nat) : State :=
  let ms := (s.core core).misses
  let keep := ms.filter fun x => x.num != m.num
  match heir with
  | none => s.updCore core fun c => { c with misses := keep }
  | some k =>
    let m1 : MissRec := { m with num := s.nextId, tag := if freeTag ms < 64 then freeTag ms else m.tag, frag := k, slot := ((s.frag k).slot).getD 0, given := false }
    let s1 : State := { s with laneOps := s.laneOps.map fun o => match o.kind with
      | .pref rs hs => { o with kind := .pref (rs.map fun r => if r == m.num then s.nextId else r) hs }
      | _ => o }
    s1.bump.updCore core fun c => { c with misses := keep ++ [m1] }

/-- The miss records of a phrase leave its core's record set (R477). -/
def State.dropRecords (s : State) (p : Nat) : State :=
  let core := (s.phr p).core
  let ctx := (s.phr p).ctx
  let heir (m : MissRec) : Option Nat :=
    ((s.accs.find? fun a => phraseOf a.frag != p && s.coreOf a.frag == core && s.ctxOf a.frag == ctx &&
      a.lanes.any fun l => l.st == .walk && (splitParts l.addr.toNat a.reach).any fun x => x.1 / 0x1000 == m.va / 0x1000).map (·.frag)) <|>
    ((s.frags.find? fun e => phraseOf e.1 != p && s.coreOf e.1 == core &&
      (e.2.fetch.waitsIn (m.va / 0x1000) || e.2.lfetch.waitsIn (m.va / 0x1000) || e.2.pwait.waitsIn (m.va / 0x1000))).map (·.1)) <|>
    ((s.laneOps.find? fun o => phraseOf o.frag != p && o.prefetched m).map (·.frag)) <|>
    ((s.copies.find? fun c => c.phrase != p && c.core == core && c.who.ctx == ctx && c.wait.waitsIn (m.va / 0x1000)).map (·.frag))
  (s.missesOf p).foldl (fun s m => s.dropRecord core m (heir m)) s

/-- A fragment of a saved phrase: out of its slot and its wait; one at smerge keeps its counts (R471). -/
def State.shelve (s : State) (k : Nat) : State :=
  let f := s.frag k
  let kept := s.restartable k
  let s1 := if isMerge f.wait then s else s.unwait k
  s1.updFrag k fun f => { f with opens := kept, slot := none, stopped := true, fetch := .idle, lfetch := .idle, pwait := .idle
                                 hwait := none, hfail := none
                                 ready := f.ready.filter fun x => x.exn.kind != .laneStart }

/-- Engine operations in the order in which they issued. -/
def insertOp (o : MxOp) : List MxOp → List MxOp
  | [] => [o]
  | x :: xs => if o.id < x.id then o :: x :: xs else x :: insertOp o xs

def sortOps (ops : List MxOp) : List MxOp := ops.foldr insertOp []

/-- The engine of a core gives up its operations of some phrases: their grants return, their asks end, and they are kept in engine
order with the context, the issue view describing what is left (R224, R334, R357). -/
def State.shelveOps (s : State) (core ctx : Nat) (mine : Nat → Bool) : State :=
  let ops := (s.core core).engine.ops.filter fun o => mine o.phrase
  let back := (ops.filter fun o => o.grant && o.act.takesGrant).length
  let s1 := (s.returnGrants (clusterOf core) back).updCluster (clusterOf core) fun c =>
    { c with asks := c.asks.filter fun a => !(ops.any fun o => a.op == some o.id) }
  (s1.updCore core fun c => { c with engine := c.engine.withOps (c.engine.ops.filter fun o => !mine o.phrase) }).updCtx ctx
    fun x => { x with mxq := sortOps (x.mxq ++ ops.map fun o => { o with grant := !o.act.takesGrant }) }

/-- A saved phrase leaves its core: its accesses, operations and copies are set aside, its slots and its token fall free, its
unfired engine operations go to the context, and its grants return (R224, R337, R357, R378, R471). -/
def State.takeOff (s : State) (p : Nat) : State :=
  let q := s.phr p
  let mine (k : Nat) : Bool := phraseOf k == p
  let s0 := (s.accsOfAll [p]).foldl (fun s a => match faultOf (failedLanes a.lanes) with
    | some e => if a.scalar then s else s.addFault a.frag (runFault a.id a.pc a.redo e.1 e.2.1 e.2.2.2 e.2.2.1)
    | none => s) (s.dropRecords p)
  let s1 := (s.fragsOf p).foldl (fun s k => s.shelve k) s0
  let strip (a : Access) : Access := { a with lanes := a.lanes.filter fun l => l.st.open }
  let s2 : State := { s1 with
    accs := s1.accs.filter fun a => !mine a.frag
    held := s1.held ++ (s1.accs.filter fun a => mine a.frag).map strip
    laneOps := s1.laneOps.filter fun o => !mine o.frag
    heldOps := s1.heldOps ++ s1.laneOps.filter fun o => mine o.frag && (match o.kind with | .pref _ _ => false | _ => true)
    copies := s1.copies.filter fun c => c.phrase != p
    heldCopies := s1.heldCopies ++ s1.copies.filter fun c => c.phrase == p }
  let held := s2.holdsToken p
  let s3 := ((s2.dropGrants p).shelveOps q.core q.ctx fun x => x == p).updCore q.core fun c =>
      { c with asideQ := c.asideQ.filter (fun k => !mine k)
               engine := { c.engine with takers := c.engine.takers.filter fun k => !mine k } }
  let s4 := s3.updPhr p fun q => { q with present := false, needTok := false, restarts := [] }
  if held then s4.freeToken q.core else s4

/-! ### Core images (R474) -/

/-- Whether no phrase of a context is resident on a core. -/
def State.lastOn (s : State) (ctx core : Nat) : Bool :=
  !(s.phrases.any fun e => e.2.ctx == ctx && e.2.core == core && e.2.present && !e.2.gone)

def mxClasses : List MxClass := [.h, .m8, .m4, .mi, .s, .d]

/-- A plane descriptor as a word: bit 63 says that the plane is loaded (log 27). -/
def planeWord (d : Option PlaneDesc) : Nat :=
  match d with
  | none => 0
  | some d => mxClasses.findIdx (· == d.cls) + at' d.etype.toNat 3 + at' d.k 8 + at' d.n 16 + at' (bit d.flush) 24 +
      at' (bit d.scaled) 25 + at' 1 63

def planeOfWord (w : Nat) : Option PlaneDesc :=
  if w.testBit 63 then
    some { cls := nth .h mxClasses (w % 8), etype := BitVec.ofNat 5 (w / 8), k := fieldNat w 8 8, n := fieldNat w 16 8
           flush := w.testBit 24, scaled := w.testBit 25 }
  else none

/-- The bytes of a plane: its elements in rows and then its scales, as a padded B stands in a gutter (R341; log 27). -/
def planePokes (a : Nat) (d : Option PlaneDesc) (t : Tbl Word) : List (Nat × Nat × Nat) :=
  match d with
  | none => []
  | some d =>
    let w := storeBits d.etype.toNat
    let el (i : Nat) : Nat := (tget 0 t (planeKey (i / max 1 d.n) (i % max 1 d.n))).toNat
    let elems := if w == 4 then (List.range (d.k * d.n / 2)).map fun i => (a + i, 1, el (2 * i) % 16 + at' (el (2 * i + 1) % 16) 4)
      else (List.range (d.k * d.n)).map fun i => (a + i * (w / 8), w / 8, el i)
    let scales := if d.scaled then (List.range d.n).flatMap fun n => (List.range (d.k / 32)).map fun j =>
        (a + d.k * d.n * w / 8 + d.k / 32 * n + j, 1, (tget 0 t (planeScale n j)).toNat) else []
    elems ++ scales

/-- The plane that an image holds. -/
def planeAt (m : Mem) (a : Nat) (d : Option PlaneDesc) : Tbl Word :=
  match d with
  | none => []
  | some d => planeElems d false (readBytes m a 0x1000)

/-- The unfired operations of a core image, in engine order: instruction, phrase and mask (R357; log 27). -/
def State.opPokes (s : State) (a : Nat) (ops : List MxOp) : List (Nat × Nat × Nat) :=
  ((ops.take 128).mapIdx fun i o =>
    [(a + 32 * i, 8, o.pc.toNat), (a + 32 * i + 8, 8, (s.phr o.phrase).noun.toNat), (a + 32 * i + 16, 4, o.mask.toNat)]).flatten

def gutterPokes (a : Nat) (g : Nat) (x : Gutter) : List (Nat × Nat × Nat) :=
  [(a + 16 * g, 8, x.desc.toNat), (a + 16 * g + 8, 8, x.prod.toNat + at' x.cons.toNat 16 + at' 1 63)]

/-- The engine of a core image: its header with ACT, the descriptors and the token's holder, its tiles and its planes (R474). -/
def Engine.pokes (e : Engine) (a : Nat) (holder : Word) : List (Nat × Nat × Nat) :=
  [(a + 0x60080, 8, bit e.act), (a + 0x60088, 8, planeWord e.desc0), (a + 0x60090, 8, planeWord e.desc1), (a + 0x60098, 8, holder.toNat)] ++
  (e.tiles.map fun x => (a + 0x61000 + 4 * x.1, 4, x.2.toNat)) ++
  planePokes (a + 0x69000) e.desc0 e.plane0 ++ planePokes (a + 0x6A000) e.desc1 e.plane1

/-- An engine as a core image gives it. -/
def Engine.load (e : Engine) (m : Mem) (a ctx : Nat) : Engine :=
  let act := (readNat m (a + 0x60080) 1).testBit 0
  let d0 := planeOfWord (readNat m (a + 0x60088) 8)
  let d1 := planeOfWord (readNat m (a + 0x60090) 8)
  { e with
    tiles := (sparse 0x2000 fun i => readNat m (a + 0x61000 + 4 * i) 4).map fun e => (e.1, BitVec.ofNat 32 e.2)
    plane0 := planeAt m (a + 0x69000) d0, plane1 := planeAt m (a + 0x6A000) d1
    act := act, desc0 := d0, desc1 := d1, iact := act, idesc0 := d0, idesc1 := d1, lastCtx := some ctx }

/-- The noun of the phrase of a context that holds the token of a core; zero where none does. -/
def State.holderOf (s : State) (ctx core : Nat) : Word :=
  match (s.core core).engine.token with
  | some p => if (s.phr p).ctx == ctx then (s.phr p).noun else 0
  | none => 0

/-- A core image at an address: scratch and gutters, the engine where the context was the last to hold its token (R107, R108), and
the operations that wait to be queued again (R357). -/
def State.writeCore (s0 : State) (ctx core a : Nat) (holder : Word) : State :=
  let s := s0.shelveOps core ctx fun p => (s0.phr p).ctx == ctx
  let c := s.core core
  let engine := c.engine.lastCtx == some ctx
  let m1 := writeBytes a (readBytes s.mem (scratchKey core 0) scratchSize) s.mem
  let w := [(a + 0x60000, 0xC000, 0)] ++ (c.gutters.flatMap fun e => gutterPokes (a + 0x60000) e.1 e.2) ++
    (if engine then c.engine.pokes a holder else []) ++
    s.opPokes (a + 0x6B000) ((s.ctx ctx).mxq.filter fun o => (s.phr o.phrase).core == core)
  ({ (s.dropRange a coreImageLen) with mem := pokes w m1 } : State).updCtx ctx fun x =>
    { x with cores := tput core { addr := a, engine := engine } x.cores }

def gutterAt (m : Mem) (a g : Nat) : Option (Nat × Gutter) :=
  let w := readNat m (a + 16 * g + 8) 8
  if w.testBit 63 then some (g, { desc := wordOf (readNat m (a + 16 * g) 8), prod := BitVec.ofNat 16 w, cons := BitVec.ofNat 16 (w / 2 ^ 16) })
  else none

/-- A core image is reloaded (R108, R126). -/
def State.loadCore (s : State) (ctx from' core : Nat) : State :=
  match tfind (s.ctx ctx).cores from' with
  | none => s
  | some x =>
    let a := x.addr
    let s1 := (s.dropRange (scratchKey core 0) scratchSize).updMem fun m => writeBytes (scratchKey core 0) (readBytes m a scratchSize) m
    (s1.updCore core fun c =>
      { c with gutters := (List.range 8).filterMap fun g => gutterAt s.mem (a + 0x60000) g
               engine := if x.engine then c.engine.load s.mem a ctx else c.engine }).updCtx ctx
      fun c => { c with cores := tdel from' c.cores }

/-- A context's first phrase on a core whose last phrase was another's finds scratch zero and no gutter (R126). -/
def State.claimCore (s : State) (ctx core : Nat) : State :=
  if (s.core core).owner == some ctx then s
  else
    ((s.dropRange (scratchKey core 0) scratchSize).updMem fun m => clearRange (scratchKey core 0) scratchSize m).updCore core fun c =>
      { c with owner := some ctx, gutters := [] }

/-! ### The save (R470, R471) -/

/-- The other side's image stands at the page after the main phrase's, and the core's image after it (log 27). -/
def State.saveAt (s : State) (ps : List Nat) (auto : Bool) : Nat → State × Nat :=
  fun a => ps.foldl (fun (acc : State × Nat) p =>
    let n := acc.1.imageSize p
    let s1 := (acc.1.writeImage p acc.2 auto).takeOff p
    let s2 := (s1.setLeaf (s1.phr p).noun stSaved 0 0 0 (wordOf acc.2))
    (s2, alignUp (acc.2 + n) 0x1000)) (s, a)

/-- A phrase and its other side are saved, and with the last phrase of its context on a core the core's image. -/
def State.saveGroupAt (s : State) (p a : Nat) (auto : Bool) : State :=
  let core := (s.phr p).core
  let ctx := (s.phr p).ctx
  let r := s.saveAt (s.saveGroup p) auto a
  if r.1.lastOn ctx core then r.1.writeCore ctx core r.2 (s.holderOf ctx core) else r.1

/-- The bytes that the save of a phrase writes from its address. -/
def State.groupSize (s : State) (p : Nat) : Nat :=
  let ps := s.saveGroup p
  let n := ps.foldl (fun n x => n + alignUp (s.imageSize x) 0x1000) 0
  let core := (s.phr p).core
  if s.phrases.any fun e => e.2.ctx == (s.phr p).ctx && e.2.core == core && e.2.present && !ps.contains e.1 then n else n + coreImageLen

/-- The fragments of a phrase stop issuing (R471). -/
def State.stopGroup (s : State) (p : Nat) : State := (s.saveGroup p).foldl (fun s x => s.stopPhrase x) s

/-! ### The restore (R478) -/

/-- The bytes at a virtual address as the page tables give them. -/
def State.peekVirt (s : State) (ptab va len : Nat) : List Byte :=
  (splitParts va len).flatMap fun p => match walkFrom s.unreadable s.mem p.1 4 0 ptab with
    | .ok (_, e, level) => readBytes s.mem (pteFrame e + p.1 % 2 ^ (12 + 9 * (3 - level))) p.2
    | .error _ => List.replicate p.2 0

/-- The access of an instruction word, with the fields that a restart entry does not hold (R475). -/
def laneShape (w : BitVec 96) : Option Access :=
  let make (f : LaneFields) (kind : AccKind) (dest : Dest) : Access :=
    { id := 0, frag := 0, scalar := false, pc := 0, kind := kind, bytes := tyBytes f.ty, ty := f.ty, signed := ltypeSigned f.ty
      order := modOrdering f, dest := dest, lanes := [] }
  match decodeLane w with
  | .ok (.vld f) => some (make f .load (laneDest f))
  | .ok (.vlds f) => some (make f .load (laneDest f))
  | .ok (.vst f) => some (make f .store .none)
  | .ok (.vsts f) => some (make f .store .none)
  | .ok (.vatom f) => some (make f (.amo (aopOf f) (!f.imm.getLsbD 29)) (if f.imm.getLsbD 29 then .none else laneDest f))
  | .ok (.vcas f) => some (make f (.amo .cas true) (laneDest f))
  | _ => none

def scalarShape (w : BitVec 32) : Option Access :=
  let make (kind : AccKind) (bytes : Nat) (signed : Bool) (order : Ordering) (dest : Dest) : Access :=
    { id := 0, frag := 0, scalar := true, pc := 0, kind := kind, bytes := bytes, ty := .u64, signed := signed, order := order
      dest := dest, lanes := [] }
  let amo (op : AmoOp) (ord : Ordering) (w64 : Bool) (sd : SReg) : Access := make (.amo op true) (if w64 then 8 else 4) false ord (.scalar sd)
  match decodeScalar w with
  | .ok (.sld sd _ sz _) => some (make .load (sizeOf sz) true noOrder (.scalar sd))
  | .ok (.sldu sd _ sz _) => some (make .load (sizeOf sz) false noOrder (.scalar sd))
  | .ok (.sst _ _ sz _) => some (make .store (sizeOf sz) false noOrder .none)
  | .ok (.scas sd _ _ ord w64) => some (amo .cas ord w64 sd)
  | .ok (.samoAdd sd _ _ ord w64) => some (amo .add ord w64 sd)
  | .ok (.samoAnd sd _ _ ord w64) => some (amo .and ord w64 sd)
  | .ok (.samoOr sd _ _ ord w64) => some (amo .or ord w64 sd)
  | .ok (.samoXor sd _ _ ord w64) => some (amo .xor ord w64 sd)
  | .ok (.samoMin sd _ _ ord w64) => some (amo .min ord w64 sd)
  | .ok (.samoMax sd _ _ ord w64) => some (amo .max ord w64 sd)
  | .ok (.samoMinu sd _ _ ord w64) => some (amo .minu ord w64 sd)
  | .ok (.samoMaxu sd _ _ ord w64) => some (amo .maxu ord w64 sd)
  | .ok (.samoSwap sd _ _ ord w64) => some (amo .swap ord w64 sd)
  | .ok (.fset sd _ _ force) => some (make (.fset force) 8 false ⟨.rel, .dev⟩ (.scalar sd))
  | .ok (.ftest sd _) => some (make .ftest 8 false noOrder (.scalar sd))
  | _ => none

/-- The flag that a restart entry names. -/
def Restart.bound (r : Restart) : Option (Fin 12) := if h : r.flag < 12 then some ⟨r.flag, h⟩ else none

/-- The clause that performs the instruction of a restart entry again, for a fault of it: whichever flag the instruction binds is
the entry's. -/
def redoOf (r : Restart) (w : BitVec 96) : Clause :=
  { addr := r.iaddr - 12, mask := r.lanes, next := 1, last := 1, code := [w], again := true
    header := some { waitm := 0, seta := r.bound, setb := r.bound, len := 1 } }

/-- The access set aside with a phrase of which an entry's lanes are: the oldest of its instruction that still has them all. -/
def State.keptFor (s : State) (k : Nat) (r : Restart) : Option Access :=
  s.held.find? fun a => a.frag == k && a.pc == r.iaddr && a.scalar == (r.type == 1) && r.recs.all fun e => a.lanes.any fun l => l.lane == e.1

/-- The number of the open instruction that an entry without a kept access belongs to: that of an entry of the same instruction served
before it, with other lanes, or else the oldest open one that nothing else has (R219, R475). -/
def State.entryId (s : State) (k : Nat) (r : Restart) : Nat :=
  match s.accs.reverse.find? fun a => a.frag == k && a.pc == r.iaddr && a.scalar == (r.type == 1) &&
      !(s.held.any fun b => b.id == a.id) && r.recs.all fun e => !(a.lanes.any fun l => l.lane == e.1) with
  | some a => a.id
  | none => (((s.frag k).opens.find? fun o => !((s.accs ++ s.held).any fun a => a.id == o.id) &&
      !((s.frag k).ready.any fun x => x.seq == o.id)).map (·.id)).getD s.nextId

/-- The access that a restart entry stands for: its opcode, type and destination are read from the instruction word (R475); its number,
the registers under which it issued and its place in a clause are those of the access set aside, if one was. A word that cannot be read
leaves the access as it was set aside (DESIGN CHOICE, log 27). -/
def State.shapeOf (s : State) (k : Nat) (r : Restart) : Option Access :=
  let ptab := (s.ctx (s.ctxOf k)).ptab.toNat
  let read : Option Access :=
    if r.type == 1 then scalarShape (BitVec.ofNat 32 (natOf (s.peekVirt ptab r.iaddr.toNat 4)))
    else
      let w := BitVec.ofNat 96 (natOf (s.peekVirt ptab r.iaddr.toNat 12))
      (laneShape w).map fun a => { a with redo := redoOf r w }
  match s.keptFor k r, read with
  | some a, some b => some { b with id := a.id, frag := k, pc := r.iaddr, regime := a.regime, fence := a.fence, flag := r.bound, redo := a.redo }
  | some a, none => some { a with lanes := [], flag := r.bound }
  | none, some b => some { b with id := s.entryId k r, frag := k, pc := r.iaddr, regime := (s.asker k).regime, flag := r.bound }
  | none, none => none

/-- The lanes of an entry have been served: the access set aside keeps the others. -/
def State.servedLanes (s : State) (k : Nat) (r : Restart) : State :=
  match s.keptFor k r with
  | none => s
  | some a =>
    { s with held := (s.held.map fun b =>
        if b.id == a.id then { b with lanes := b.lanes.filter fun l => !(r.recs.any fun e => e.1 == l.lane) } else b).filter fun b =>
          !b.lanes.isEmpty }

/-- The lane of a restart record, checked again. -/
def State.restartLane (s : State) (a : Access) (e : Nat × Word × Word × Word) : LaneAcc × State :=
  s.startLane a.frag { s.asker a.frag with regime := a.regime } a.kind a.scalar a.bytes { lane := e.1, addr := e.2.1, data := e.2.2.1, cmp := e.2.2.2 }

def State.restartLanes (s : State) (a : Access) : List (Nat × Word × Word × Word) → List LaneAcc × State
  | [] => ([], s)
  | e :: es =>
    let (l, s1) := s.restartLane a e
    let (ls, s2) := s1.restartLanes a es
    (l :: ls, s2)

/-- The fault list's entry of a restart entry, if it has one. -/
def State.entryOf (s : State) (p : Nat) (r : Restart) : Option Nat :=
  let flist := (s.ctx (s.phr p).ctx).flist.toNat
  if flist == 0 || r.flidx == 0xFFFFFFFF then none else some (flEntry flist r.flidx)

/-- Whether the reply for an entry was a failure (R477). -/
def State.entryFailed (s : State) (p : Nat) (r : Restart) : Bool := (s.entryOf p r).any fun fe => readNat s.mem (fe + 9) 1 == 2

/-- The held fault that an entry stands for is kept for its level; at level 0 it is taken before another instruction of the fragment
issues (R466, R478). -/
def State.serveFault (s : State) (k : Nat) (r : Restart) : State :=
  let old := match r.fault, causeOf r.cause with
    | some x, _ => some x
    | none, some c =>
      let w := BitVec.ofNat 96 (natOf (s.peekVirt (s.ctx (s.ctxOf k)).ptab.toNat r.iaddr.toNat 12))
      some (runFault s.nextId r.iaddr (redoOf r w) c (BitVec.ofNat 8 r.sub) r.lanes r.edata)
    | none, none => none
  match old with
  | none => s
  | some x =>
    s.bump.updFrag k fun f => match r.level with
      | 1 => { f with img1 := { f.img1 with held := insertFault x.hold f.img1.held } }
      | 2 => { f with img2 := { f.img2 with held := insertFault x.hold f.img2.held } }
      | _ => { f with ready := insertFault { x with first := !x.held } f.ready }

/-- A failed reply is a fault of the instruction, in the lanes of its entry (R478). -/
def State.serveFailure (s : State) (k : Nat) (a : Access) (r : Restart) (fe : Nat) : State :=
  match causeOf (readNat s.mem (fe + 10) 1) with
  | none => s
  | some c =>
    let sub := BitVec.ofNat 8 (readNat s.mem (fe + 11) 1)
    let d := (r.recs.head?.map fun e => e.2.1).getD 0
    let x := if a.scalar then scalarFault a.id r.iaddr c sub (s.frag k).exec d else runFault a.id a.pc a.redo c sub r.lanes d
    s.bump.updFrag k fun f => { f with ready := insertFault { x with first := true } f.ready }

/-- The lanes of an entry issue again, with what the entry holds; the counters are those of the image (R219, R478). -/
def State.serveHeldLanes (s : State) (k : Nat) (a : Access) (r : Restart) : State :=
  let (ls, s1) := s.restartLanes a r.recs
  let s2 : State := match s1.accs.find? fun b => b.frag == k && b.id == a.id with
    | some b => s1.putAcc { b with lanes := b.lanes ++ ls }
    | none => { s1 with accs := s1.accs ++ [{ a with lanes := ls }] }
  s2.bump

/-- A restart entry is served (R478), and its reply, if it has one still to come, is its fault list's entry's no more. -/
def State.serveRestart (s : State) (p : Nat) (r : Restart) : State :=
  let k := fragKey p r.frag
  let s1 := if r.type == 2 then s.serveFault k r
    else match s.shapeOf k r, s.entryOf p r with
      | none, _ => s
      | some a, some fe => (if s.entryFailed p r then s.serveFailure k a r fe else s.serveHeldLanes k a r).servedLanes k r
      | some a, none => (s.serveHeldLanes k a r).servedLanes k r
  match s.entryOf p r with
  | none => s1
  | some fe =>
    let s2 : State := { s1 with poolReads := s1.poolReads.filter fun x => x.entry != fe }
    s2.updHostPort (s.hportOf (s.phr p).ctx) fun h => { h with reqs := h.reqs.map fun q => { q with flidx := q.flidx.filter fun e => e != fe } }

/-- Whether a restart entry finds the request entries and miss records that its lanes need (R143, R215, R218). -/
def State.entryRoom (s : State) (p : Nat) (r : Restart) : Bool :=
  let k := fragKey p r.frag
  r.type == 2 || s.entryFailed p r ||
  match s.shapeOf k r with
  | none => true
  | some a =>
    let w : Asker := { s.asker k with regime := a.regime }
    let vas := r.recs.map fun e => e.2.1.toNat
    s.roomFor k (requestsOf a.reach vas) && s.missRoomFor w (vas.flatMap fun va => match s.checkWith w [] a.kind a.bytes va with
      | .miss ms => ms.map fun m => m / 0x1000
      | _ => [])

/-- The answer to a pool read whose phrase has been saved goes to its fault-list entry, and its data is discarded (R477). -/
def State.answerPoolRead (s : State) (entry : Nat) : State :=
  match s.poolReads.find? fun r => r.entry == entry with
  | none => s
  | some r =>
    let (e, s1) := s.pathCheck r.id r.ctx true false ⟨r.page * 0x1000, 0x1000, 2, 0⟩
    let s2 : State := { s1 with poolReads := s1.poolReads.filter fun x => x.entry != entry }
    match e with
    | none => s2.updMem (writeNat (entry + 9) 1 1)
    | some (c, sub) => s2.updMem fun m => writeNat (entry + 9) 1 2 (writeNat (entry + 10) 1 (causeCode c) (writeNat (entry + 11) 1 sub.toNat m))

/-- Restart entries are served in the order they stand, each once it finds room; the phrase runs when all are (R478). -/
def State.serveEntries (s : State) (p : Nat) : List Restart → State
  | [] =>
    let s1 : State := { (s.updPhr p fun q => { q with restarts := [] }) with held := s.held.filter fun b => phraseOf b.frag != p }
    -- an open instruction that no entry belongs to is complete
    let s2 := (s1.fragsOf p).foldl (fun s k => s.updFrag k fun f =>
      (f.opens.filter fun o => !(s.accs.any fun a => a.id == o.id) && !(f.ready.any fun x => x.seq == o.id) &&
        !(f.img1.held.any fun x => x.seq == o.id) && !(f.img2.held.any fun x => x.seq == o.id)).foldl (fun f o => f.close o.id 0x1F) f) s1
    (s2.fragsOf p).foldl (fun s k => s.settle k) s2.tidy
  | r :: rs => if s.entryRoom p r then (s.serveRestart p r).serveEntries p rs else s.updPhr p fun q => { q with restarts := r :: rs }

/-- The entries of a phrase's image that are still to be served go on. -/
def State.restartOn (s : State) (p : Nat) : State := s.serveEntries p (s.phr p).restarts

/-- Whether the next entry of a phrase's image can be served. -/
def State.restartReady (s : State) (p : Nat) : Bool := match (s.phr p).restarts with | r :: _ => s.entryRoom p r | [] => false

/-- The kept fault that an entry of type 2 stands for, of those not yet taken by another entry. -/
def takeFault (xs : List (Nat × Nat × LaneFault)) (r : Restart) : Option LaneFault × List (Nat × Nat × LaneFault) :=
  let is (x : Nat × Nat × LaneFault) : Bool :=
    x.1 == r.frag && x.2.1 == r.level && x.2.2.iaddr == r.iaddr && x.2.2.exn.mask == r.lanes && causeCode x.2.2.exn.cause == r.cause
  match xs.findIdx? is with
  | some i => (xs[i]?.map fun x => x.2.2, xs.eraseIdx i)
  | none => (none, xs)

/-- The held faults of a phrase that was kept, with fragment number and level. -/
def State.keptFaults (s : State) (p : Nat) : List (Nat × Nat × LaneFault) :=
  (s.fragsOf p).flatMap fun k =>
    let f := s.frag k
    (f.ready.map fun x => (f.num, 0, x)) ++ (f.img1.held.map fun x => (f.num, 1, x)) ++ f.img2.held.map fun x => (f.num, 2, x)

/-- The entries of type 2 with the faults that were kept for them. -/
def withFaults (xs : List (Nat × Nat × LaneFault)) : List Restart → List Restart
  | [] => []
  | r :: rs =>
    if r.type == 2 then
      let (x, ys) := takeFault xs r
      { r with fault := x } :: withFaults ys rs
    else r :: withFaults xs rs

/-- The lane registers and the window of an image. -/
def lanesAt (m : Mem) (a n : Nat) : Tbl Half := (sparse (32 * n) fun i => readNat m (a + 4 * i) 4).map fun e => (e.1, BitVec.ofNat 32 e.2)

def ringAt (m : Mem) (a head : Nat) (now : Nat) : Nat → List RingEntry
  | 0 => []
  | n + 1 =>
    { id := 0, since := some (now - 1)
      vals := (List.range 32).map fun l => BitVec.ofNat 32 (readNat m (a + 128 * (head % 16) + 4 * l) 4) } :: ringAt m a (head + 1) now n

/-- The phrase as its headers give it (R384, R473). -/
def State.phraseAt (s : State) (a : Nat) (q : Phrase) (core : Nat) : Phrase :=
  let m := s.mem
  let h := readNat m a 8
  let regs := readNat m (a + 0x5E) 2 % 512
  let tail := tailAt a regs (readNat m (a + 0x6C) 4) (readNat m (a + 0x70) 4)
  let rings := readNat m (a + 0x64) 4
  let window := q.mate.isSome && !q.isAux
  let low := if window then regs - 32 else regs
  { q with
    core := core, present := true
    live := BitVec.ofNat 32 (readNat m (a + 0x48) 4)
    status := BitVec.ofNat 32 (readNat m (a + 0x50) 4) &&& 0xFF1F
    trapen := BitVec.ofNat 32 (readNat m (a + 0x54) 4) &&& 0xC7
    fsl := (List.range 8).map fun n => BitVec.ofNat 32 (readNat m (tail + 4 * n) 4)
    tvec := wordOf (readNat m (tail + 32) 8), tsave := wordOf (readNat m (tail + 40) 8)
    regs := regs
    lanes := lanesAt m (lregsAt a) low
    ringMA := if window then ringAt m (lregsAt a + 128 * low) (rings % 16) s.cycle (min 16 (fieldNat rings 4 5)) else []
    ringAM := if window then ringAt m (lregsAt a + 128 * (low + 16)) (fieldNat rings 9 4) s.cycle (min 16 (fieldNat rings 13 5)) else []
    course := if readNat m (a + 0x58) 4 == 0xFFFFFFFF then none else some (BitVec.ofNat 32 (readNat m (a + 0x58) 4))
    rank := readNat m (a + 0x5C) 2 % 2048
    batch := BitVec.ofNat 16 (readNat m (a + 0x60) 2)
    dpend := BitVec.ofNat 4 h, wakep := h.testBit 4, sigp := BitVec.ofNat 16 (h / 2 ^ 16) }

/-- The fragments of a restored phrase take slots: the root the slot named, the others free ones that no root is to take, or places in
the aside queue; one that waits at smerge takes none (R29). -/
def State.placeFrag (s : State) (core k : Nat) (slot : Option Nat) (taken : List Nat) : State :=
  match slot with
  | some n => s.updFrag k fun f => { f with slot := some n }
  | none =>
    if isMerge (s.frag k).wait then s
    else match (s.freeSlots core).filter (fun n => !taken.contains n), (s.core core).asideQ with
      | n :: _, [] => s.updFrag k fun f => { f with slot := some n }
      | _, _ =>
        let g := s.frag (fragKey (phraseOf k) (s.frag k).parent)
        s.joinAside k (g.slot.getD g.qslot)

/-- An operation queued again asks for its grant, as at issue with MXGRANT zero (R357). -/
def State.askFor (s : State) (core : Nat) (o : MxOp) : State :=
  let a : Ask := { cycle := s.cycle, phrase := o.phrase, op := some o.id, need := 1, core := core, slot := (s.frag o.frag).slot.getD 0 }
  s.updCluster (clusterOf core) fun c => { c with asks := putAsk a c.asks }

/-- The mxtake that a restore performs before the phrase's first instruction: nothing of the phrase issues until it has the token
(R337). -/
def State.takeToken (s : State) (p : Nat) : State :=
  let core := (s.phr p).core
  match (s.core core).engine.token with
  | none => s.giveToken core p
  | some _ => (s.updPhr p fun q => { q with needTok := true }).updCore core
      fun c => { c with engine := { c.engine with takers := c.engine.takers ++ [fragKey p 0] } }

/-- The phrase is a member of the course that its image gives, as it was when it was saved or anew (R121, R473); `w` is PFLAGS. -/
def State.rejoin (s : State) (p : Nat) (old : Phrase) (w : Nat) : State :=
  let q := s.phr p
  if old.course == q.course && (q.course.isNone || old.rank == q.rank) then s
  else
    let s1 : State := match old.course with
      | none => s
      | some n => match s.courses.find? fun c => c.isAt q.inst n with
        | none => s
        | some c => s.putCourse { c with members := c.members.filter fun m => m.2 != p }
    match q.course with
    | none => s1
    | some n =>
      let c : Course := (s1.courses.find? fun c => c.isAt q.inst n).getD
        { inst := q.inst, num := n, place := 0, members := [], prank := s.prankOf q.inst }
      let c1 := { c with members := c.members ++ [(q.rank, p)]
                         sbar := if w.testBit 3 then p :: c.sbar else c.sbar, sclbar := if w.testBit 4 then p :: c.sclbar else c.sclbar }
      { s1 with courses := (s1.courses.filter fun x => !x.isAt q.inst n) ++ [c1] }

/-- The operation of a copy entry (R472). -/
def copyOpsAt (fn : Nat) : CopyOps :=
  match fn % 4 with
  | 1 => .fromGutter (BitVec.ofNat 3 (fn / 8)) 0
  | 2 => .toGutter 0 (BitVec.ofNat 3 (fn / 8))
  | _ => .mem 0 0 0

/-- The copies of an image, in their order: those set aside with the phrase where the entries are theirs, or new ones (R378, R472). -/
def State.copiesAt (s : State) (p core a n : Nat) : List CopyOp × State :=
  let held := s.heldCopies.filter fun c => c.phrase == p
  let next := (s.phr p).batch + 1
  (List.range n).foldl (fun (acc : List CopyOp × State) i =>
    let e := a + 32 * i
    let src := readNat s.mem (e + 8) 8
    let dst := readNat s.mem (e + 16) 8
    let b := BitVec.ofNat 16 (readNat s.mem (e + 24) 2)
    let st : CopySt := match readNat s.mem (e + 26) 1 with | 0 => .queued | 2 => .done | 4 => .poisoned | _ => .stopped
    let batch := if b == next then none else some b
    match held[i]?.filter fun c => c.src.getD 0 == src && c.dst.getD 0 == dst with
    | some c => (acc.1 ++ [{ c with core := core, who := { c.who with core := core }, st := st, batch := batch }], acc.2)
    | none =>
      let c : CopyOp := { id := acc.2.nextId, who := s.asker (fragKey p 0), frag := fragKey p 0, phrase := p, core := core
                          crypt := readNat s.mem e 1 == 0xAC, ops := copyOpsAt (readNat s.mem (e + 1) 1)
                          src := if src == 0 then none else some src, dst := if dst == 0 then none else some dst, st := st
                          batch := batch, seq := acc.2.nextId }
      (acc.1 ++ [c], acc.2.bump)) ([], s)

def insertCopy (c : CopyOp) : List CopyOp → List CopyOp
  | [] => [c]
  | x :: xs => if c.id < x.id then c :: x :: xs else x :: insertCopy c xs

/-- The copies of a restored phrase are queued again in their old order, and its batches are those of its image (R378, R473). -/
def State.requeueCopies (s : State) (p a core regs : Nat) : State :=
  let m := s.mem
  let r := s.copiesAt p core (copyqAt a regs (readNat m (a + 0x6C) 4)) (readNat m (a + 0x70) 4)
  let cs := r.1
  let batch := BitVec.ofNat 16 (readNat m (a + 0x60) 2)
  let done := BitVec.ofNat 16 (readNat m (a + 0x62) 2)
  let nums := (List.range (min 256 (batch + 1 - done).toNat)).map fun i => done + BitVec.ofNat 16 i
  let s1 := r.2.updPhr p fun q =>
    { q with opened := (cs.filter fun c => c.batch.isNone).map (·.id)
             sealed := nums.map fun n => { num := n, copies := (cs.filter fun c => c.batch == some n).map (·.id)
                                           cancelled := q.sealed.any fun b => b.num == n && b.cancelled } }
  { s1 with copies := cs.foldr (fun c l => if c.resumed && c.st == .queued then c :: l else insertCopy c l) s1.copies
            heldCopies := s1.heldCopies.filter fun c => c.phrase != p }

/-- The unfired engine operations that a restore queues again: those of the phrase, and where it is the first of its context on the
engine, those of every phrase saved from the core that its image is of; each waits for its grant as if issued with MXGRANT zero
(R224, R357; log 74). -/
def State.requeueOps (s : State) (p ctx old core : Nat) (first : Bool) : State :=
  let mine (q : Nat) : Bool := q == p || (first && (s.phr q).core == old && (s.phr q).ctx == ctx && !(s.phr q).present)
  let s1 := (s.cores.map (·.1)).foldl (fun s c => if c == core then s else s.shelveOps c ctx fun q => q == p) s
  let ops := (s1.ctx ctx).mxq.filter fun o => mine o.phrase
  let s2 := (s1.updCore core fun c => { c with engine := c.engine.withOps (c.engine.ops ++ ops) }).updCtx ctx
    fun x => { x with mxq := x.mxq.filter fun o => !mine o.phrase }
  (ops.filter fun o => o.act.takesGrant).foldl (fun s o => s.askFor core o) s2

/-- The engine of a core image that is not reloaded: a core on which phrases of the context run has its scratch, but its tiles and planes
where another context has taken the token since are those of the image (R108). -/
def State.loadEngine (s : State) (ctx core : Nat) : State :=
  match tfind (s.ctx ctx).cores core with
  | none => s
  | some x =>
    let s1 := if x.engine && (s.core core).engine.lastCtx != some ctx then s.updCore core fun c =>
      { c with engine := (c.engine.load s.mem x.addr ctx).withOps c.engine.ops } else s
    s1.updCtx ctx fun c => { c with cores := tdel core c.cores }

/-- A phrase is loaded from its image and placed with its root in a slot (R385, R478); `taken` are the slots of other roots. -/
def State.loadPhrase (s : State) (p a core slot : Nat) (taken : List Nat := []) : State :=
  let q := s.phr p
  let old := q.core
  let s1 := s.setLeaf q.noun stRunning 0 0 0 (wordOf (locOf s.moduleNo core slot))
  -- step 2: the scratch of a core on which phrases of the context are, or which it was the last to leave, holds its data
  let first := s1.lastOn q.ctx core
  let s2 := if (s1.core core).owner == some q.ctx && (!first || old == core) then s1.loadEngine q.ctx core
    else (s1.claimCore q.ctx core).loadCore q.ctx old core
  -- step 3
  let q1 := s2.phraseAt a q core
  let mask : Mask := BitVec.ofNat 32 (readNat s.mem (a + 0x4C) 4)
  let d (f : Frag) : Frag := (List.range 4).foldl (fun f n => f.setReg (BitVec.ofNat 6 (60 + n)) (wordOf (readNat s.mem (a + 16 + 8 * n) 8))) f
  let s3 := (s2.setPhr p q1).rejoin p q (readNat s.mem (a + 0x68) 1)
  let n := readNat s.mem (a + 0x6C) 4
  let rs := withFaults (s.keptFaults p) ((List.range n).map fun i => restartAt s.mem (rstartAt a q1.regs + 1152 * i))
  let tail := tailAt a q1.regs n (readNat s.mem (a + 0x70) 4)
  let s4 := ((List.range 32).filter fun n => mask.getLsbD n || n == 0).foldl (fun s n =>
    let f := fragAt s.mem (fragRecAt a n) tail p n s.nextId q1.live (s.frag (fragKey p n))
    ({ s with nextId := s.nextId + ifcntMax s.mem (fragRecAt a n) } : State).setFrag (fragKey p n) (if n == 0 then d f else f)) s3
  let s5 : State := { s4 with frags := s4.frags.filter fun e => phraseOf e.1 != p || e.1 % 32 == 0 || mask.getLsbD (e.1 % 32) }
  let s6 := (s5.fragsOf p).foldl (fun s k => s.placeFrag core k (if k == fragKey p 0 then some slot else none) taken) s5
  let s7 := (s6.updPhr p fun q => { q with asides := (s6.fragsOf p).length - 1 }).updMem fun m =>
    writeNat a 8 (readNat m a 8 &&& 0xFFFFFFFFFFFFFFBF) m
  -- step 4
  let s7a : State := { (s7.requeueOps p q.ctx old core first).requeueCopies p a core q1.regs with
    laneOps := s7.laneOps ++ s7.heldOps.filter fun o => phraseOf o.frag == p
    heldOps := s7.heldOps.filter fun o => phraseOf o.frag != p }
  let s8 : State := if first then { s7a with phrases := s7a.phrases.map fun e =>
      if e.2.ctx == q.ctx && e.2.core == old && !e.2.present then (e.1, { e.2 with core := core }) else e } else s7a
  let s9 := if (readNat s.mem (a + 0x68) 1).testBit 1 then s8.takeToken p else s8
  -- step 5
  s9.serveEntries p rs

/-! ### Places (R22, R44, R126) -/

/-- Whether a cluster belongs to a partition and is not gated (R44, R484). -/
def State.clusterIn (s : State) (part c : Nat) : Bool := (s.part part).bitmap.getLsbD c && c < 64 && !(s.cluster c).gated

/-- Whether a core holds phrases of no other context (R126). -/
def State.coreFor (s : State) (ctx core : Nat) : Bool :=
  !(s.phrases.any fun e => e.2.core == core && (e.2.present || e.2.gone) && e.2.ctx != ctx)

/-- Whether the image of a phrase of a context finds room at a place with a number of slots (R22). -/
def State.placeRoom (s : State) (ctx core slot slots regs : Nat) : Bool :=
  core < 1536 && s.clusterIn (s.partOf ctx) (clusterOf core) && s.coreFor ctx core &&
  (s.core core).asideQ.isEmpty && (s.freeSlots core).contains slot && slots ≤ (s.freeSlots core).length && s.regsUsed core + regs ≤ 2048

/-- The phrase that a saved noun is: the one kept, or a new one for an image that another module saved (R177). -/
def State.savedPhrase (s : State) (n : Word) : Nat × State :=
  match s.phraseByNoun n with
  | some p => (p, s)
  | none =>
    let x := s.ctx (nounCtx n)
    let inst := readNat s.mem (((s.leafOf n).map fun a => (readLeaf s.mem a).word1.toNat).getD 0 + 0x40) 8
    let p := s.nextId
    (p, s.bump.setPhr p { noun := n, ctx := nounCtx n, instN := wordOf inst, inst := (s.instByNoun (wordOf inst)).getD 0
                          tvec := x.tvec, tsave := x.tsave, fsl := List.replicate 8 0 })

/-- The image of a saved noun. -/
def State.imageOf (s : State) (n : Word) : Nat := ((s.leafOf n).map fun a => (readLeaf s.mem a).word1.toNat).getD 0

/-- The region of a core under a placement: its cluster, its die, or all (R45). -/
def regionOf (place core : Nat) : Nat := match place with | 1 => clusterOf core | 2 => dieOf core | _ => 0

/-- Whether the course of a saved phrase lets it run on a core (R40, R45). -/
def State.regionOk (s : State) (n : Word) (core : Nat) : Bool :=
  match (s.phraseByNoun n).bind s.courseOf with
  | some c => c.place == 0 || c.cluster.all fun r => regionOf c.place core == r
  | none => true

/-- The nouns restored with a main phrase: its own and its auxiliary's (R36). -/
def State.restoreGroup (s : State) (p : Nat) : List Nat := p :: (if s.mateAlive p then (s.phr p).mate.toList else [])

/-- The lane registers that a group of images asks for. -/
def State.groupRegs (s : State) (ps : List Nat) : Nat :=
  ps.foldl (fun n p => n + readNat s.mem (s.imageOf (s.phr p).noun + 0x5E) 2 % 512) 0

/-- A saved phrase and its other side are restored, the root in the slot named; none where there is no room. -/
def State.restoreAt (s : State) (n : Word) (core slot : Nat) : Option State :=
  let (p, s1) := s.savedPhrase n
  let ps := s1.restoreGroup p
  let other := ((s1.freeSlots core).filter fun n => n != slot).headD 0
  if s1.placeRoom (nounCtx n) core slot ps.length (s1.groupRegs ps) then
    some (ps.foldl (fun s x => s.loadPhrase x (s.imageOf (s.phr x).noun) core (if x == p then slot else other) [other]) s1)
  else none

end Sys2Proof.Machine
end

