-- ==== Sys2Proof/Machine/Interrupts.lean ====
section
/-! DEFINITION. MSI-X vectors (R492), the holder of the lease (R484, R486), and the requests that a port takes (R482). -/
namespace Sys2Proof.Machine

/-- Whether a lease is held: it ends at the first moment at which DTIME has reached EXPIRY (R486). -/
def State.leaseHeld (s : State) : Bool := s.host.lease.valid && s.dtime < s.host.lease.expiry

/-- Whether a port holds the lease (R484). -/
def State.isHolder (s : State) (hp : Bool) : Bool := s.leaseHeld && s.host.lease.holder == hp

/-- Whether a vector can be delivered on the lease holder's port. -/
def State.canRaise (s : State) (v : Nat) : Bool :=
  s.leaseHeld && !(s.hostPort s.host.lease.holder).mask.getLsbD v

/-- An event: its message goes to the lease holder's port, or its vector becomes pending. -/
def State.raise (s : State) (v : Nat) : State :=
  if s.canRaise v then s.updHost fun h => { h with out := h.out ++ [.msi h.lease.holder v] }
  else s.updHost fun h => { h with pending := h.pending ||| BitVec.ofNat 16 (2 ^ v) }

/-- Pending vectors that can be delivered are, once each; event records that waited for a holder of the lease go to it (R498). -/
def State.deliverPending (s : State) : State :=
  let given (h : HostSide) : HostSide := { h with out := h.out ++ h.events.map fun r => .event h.lease.holder r, events := [] }
  (List.range 16).foldl (fun (s : State) v =>
    if s.host.pending.getLsbD v && s.canRaise v then
      s.updHost fun h => { h with out := h.out ++ [.msi h.lease.holder v], pending := h.pending &&& ~~~BitVec.ofNat 16 (2 ^ v) }
    else s) (if s.leaseHeld then s.updHost given else s)

/-! ### Requests to the management page (R482) -/

/-- Whether a port takes a request to the management page: in RUN only with the T bit on its IDE stream. -/
def State.takes (s : State) (r : PageReq) : Bool := (s.hostPort r.hp).tdisp != .run || r.tbit

/-- A write of the management page that the port takes has its effect; another gets Unsupported Request. -/
def State.pageWrite (s : State) (r : PageReq) (done : State) : Out :=
  .next (if s.takes r then done else s.updHost fun h => { h with out := h.out ++ [.dropped r.hp] })

end Sys2Proof.Machine
end

