-- ==== Sys2Proof/Machine/Atc.lean ====
section
/-! DEFINITION. Answers of hosts to translation and page requests (R149, R150, R157, R477), CXL events (R494-R498), and the power
governors (R546-R548). -/
namespace Sys2Proof.Machine

/-! ### What waits on a host page (R149, R150) -/

/-- Whether a lane waits for a host page that its port's cache does not translate. -/
def State.laneAwaits (s : State) (hp : Bool) (ctx page : Nat) (a : Access) (l : LaneAcc) : Bool :=
  s.ctxOf a.frag == ctx && s.hportOf ctx == hp && l.st == .todo && !a.kind.isFabric &&
  l.parts.any fun p => p.path == 4 && hostPage p.key == page && !s.atcHit hp ctx page a.kind.want.writes

/-- Whether something waits on a host page. -/
def State.pageAwaited (s : State) (hp : Bool) (ctx page : Nat) : Bool :=
  (s.accs.any fun a => a.lanes.any fun l => s.laneAwaits hp ctx page a l) ||
  s.compsAwait ctx page || (s.nouns.any fun o => s.mailOf o == some (ctx, page)) ||
  (s.copies.any fun c => c.who.ctx == ctx && c.hwait.any fun w => w.1 == page) ||
  s.frags.any fun e => e.2.live && s.ctxOf e.1 == ctx && e.2.hwait.any fun w => w.1 == page

/-- Copies, fragments that read or write a payload, and noun ports try their page again. -/
def State.retryPage (s0 : State) (ctx page : Nat) : State :=
  let s := s0.retryComps ctx page
  { s with
    copies := s.copies.map fun c =>
      if c.who.ctx == ctx && c.hwait.any fun w => w.1 == page then { c with hwait := none } else c
    frags := s.frags.map fun e =>
      if s.ctxOf e.1 == ctx && e.2.hwait.any fun w => w.1 == page then (e.1, { e.2 with hwait := none }) else e }

/-- Copies, payload accesses and noun ports take a failure of their page. -/
def State.failPage (s0 : State) (ctx page : Nat) (sub : BitVec 8) : State :=
  let s := s0.failComps ctx page
  { s with
    nouns := s.nouns.map fun o => if s.mailOf o == some (ctx, page) then { o with mailFail := true } else o
    copies := s.copies.map fun c => match c.hwait with
      | some (p, va) => if c.who.ctx == ctx && p == page then { c with hwait := none, wait := .failed .host sub va } else c
      | none => c
    frags := s.frags.map fun e => match e.2.hwait with
      | some (p, va) => if s.ctxOf e.1 == ctx && p == page then (e.1, { e.2 with hwait := none, hfail := some (sub, va) }) else e
      | none => e }

/-- The place of a page's part in an access. -/
def partOffset (page : Nat) : Nat → List Piece → Nat
  | off, p :: ps => if p.path == 4 && hostPage p.key == page then off else partOffset page (off + p.len) ps
  | off, [] => off

/-- The lanes of an access that wait on a page fail (R150). -/
def State.failHostAcc (s : State) (hp : Bool) (ctx page : Nat) (sub : BitVec 8) (a : Access) : State :=
  let end1 (l : LaneAcc) : LaneAcc :=
    if s.laneAwaits hp ctx page a l then l.failAt a.scalar (.host, sub, partOffset page 0 l.parts) else l
  let a1 := { a with lanes := a.lanes.map end1 }
  (((s.putAcc a1).updFrag a.frag fun f => f.close a.id (~~~a1.paths))).checkAccess a.id

/-- A fault-list entry is written by the I/O die (R477). -/
def flistPokes (state cause sub : Nat) (a : Nat) : List (Nat × Nat × Nat) := [(a + 9, 1, state), (a + 10, 1, cause), (a + 11, 1, sub)]

def HostReq.isFor (q : HostReq) (ctx page : Nat) : Bool := q.ctx == ctx && q.page == page

def State.dropReq (s : State) (hp : Bool) (q : HostReq) : State := s.updHostPort hp fun p => { p with reqs := p.reqs.erase q }

/-- A request for a page fails with a sub-cause of HOST: what waits on it ends, and fault-list entries say so. -/
def State.failReq (s : State) (hp : Bool) (q : HostReq) (sub : BitVec 8) : State :=
  let s1 := (s.updMem (pokes (q.flidx.flatMap (flistPokes 2 0x0E sub.toNat)))).failPage q.ctx q.page sub
  let s2 := (s1.accs.filter fun a => a.lanes.any fun l => s1.laneAwaits hp q.ctx q.page a l).foldl (fun s a =>
    match s.findAcc a.id with
    | some b => s.failHostAcc hp q.ctx q.page sub b
    | none => s) s1
  (s2.dropReq hp q).tidy

/-! ### ATS and PRI -/

/-- A port's cache of 4096 translations with one more (R149). -/
def atcAdd (e : AtcEntry) (t : List AtcEntry) : List AtcEntry :=
  (e :: t.filter fun x => !(x.ctx == e.ctx && x.page == e.page)).take 4096

/-- A translation with the permission that was asked for: what waits on the page goes on. -/
def State.granted (s : State) (hp : Bool) (q : HostReq) : State := ((s.dropReq hp q).retryPage q.ctx q.page).tidy

/-- A Page Request goes out for a page, or joins the one that is outstanding for it (R150). -/
def State.pageRequest (s : State) (hp : Bool) (q : HostReq) : State :=
  if s.pageHeld hp q.ctx q.page then
    let join (x : HostReq) : HostReq := if x.isFor q.ctx q.page && x.pri then { x with write := x.write || q.write } else x
    (s.dropReq hp q).updHostPort hp fun p => { p with reqs := p.reqs.map join }
  else
    let ask (x : HostReq) : HostReq := if x == q then { x with pri := true, since := s.dtime } else x
    (s.updHostPort hp fun p => { p with reqs := p.reqs.map ask }).updHost
      fun h => { h with out := h.out ++ [.pageReq hp q.ctx q.page] }

/-- The accesses to a page that issued before PRI was accepted end with NOPAGE (R544). -/
def State.failEarly (s : State) (hp : Bool) (q : HostReq) : State :=
  (s.accs.filter fun a => a.id < tget 0 s.host.featAt 5 && a.lanes.any fun l => s.laneAwaits hp q.ctx q.page a l).foldl (fun s a =>
    match s.findAcc a.id with
    | some b => s.failHostAcc hp q.ctx q.page 0x01 b
    | none => s) s

/-- No translation with the permission: a Page Request follows, none for a prefetch, and none where PRI is not accepted (R150,
R313, R544). -/
def State.notGranted (s : State) (hp : Bool) (q : HostReq) : State :=
  let s1 := s.failEarly hp q
  if q.quiet then (s.dropReq hp q).tidy
  else if !s.accepted 5 then s.failReq hp q 0x01
  else if s.pageAwaited hp q.ctx q.page && !s1.pageAwaited hp q.ctx q.page then (s1.dropReq hp q).tidy
  else s1.pageRequest hp q

/-- Everything that waits at a port for a host page asks for it again, each for the access that it makes: its request may have been
answered for a read alone, or its translation lost (R149, R150, R157). -/
def State.reAsk (s : State) (hp : Bool) : State :=
  let lanes := (s.accs.filter fun a => !a.kind.isFabric).flatMap fun a => (a.lanes.filter fun l => l.st == .todo).flatMap fun l =>
    (l.parts.filter fun p => p.path == 4 && hostSide p.key == hp).map fun p => (s.ctxOf a.frag, hostPage p.key, a.kind.want.writes)
  let comps := (s.host.ports.filter fun e => s.hportOf e.2.ctx == hp).flatMap fun e => e.2.comps.map fun c => (e.2.ctx, pageOf c.caddr, true)
  (lanes ++ comps).foldl (fun (s : State) x =>
    if (s.hostPort hp).gone || s.atcHit hp x.1 x.2.1 x.2.2 then s else s.askHost hp x.1 x.2.1 x.2.2 false) s

/-- R149: an ATS completion; one that no request awaits changes nothing. -/
def execAtsCompletion (hp : Bool) (ctx page : Nat) (grant : AtsGrant) (s : State) : Out :=
  match (s.hostPort hp).reqs.find? fun q => q.isFor ctx page && !q.pri with
  | none => .next s
  | some q =>
    match grant with
    | .none => .next ((s.notGranted hp q).reAsk hp)
    | .page w host =>
      let s1 := s.updHostPort hp fun p => { p with atc := atcAdd ⟨ctx, page, host, w⟩ p.atc }
      .next ((if w || !q.write then s1.granted hp q else s1.notGranted hp q).reAsk hp)

/-- R157: an invalidation request of the host. -/
def execAtsInvalidation (hp : Bool) (ctx page pages : Nat) (s : State) : Out :=
  .next ((s.updHostPort hp fun p =>
    { p with atc := p.atc.filter fun e => !(e.ctx == ctx && page ≤ e.page && e.page < page + pages) }).reAsk hp)

/-- R150: a Success replays what is held through ATS; anything else ends it with NOPAGE. A reply for a phrase that was saved goes
into its fault-list entry (R477). -/
def execPriResponse (hp : Bool) (ctx page : Nat) (success : Bool) (s : State) : Out :=
  match (s.hostPort hp).reqs.find? fun q => q.isFor ctx page && q.pri with
  | none => .next s
  | some q =>
    if !success then .next ((s.failReq hp q 0x01).reAsk hp)
    else
      let s1 := (s.updMem (pokes (q.flidx.flatMap (flistPokes 1 0 0)))).dropReq hp q
      .next ((if s.pageAwaited hp ctx page then s1.askHost hp ctx page q.write false else s1).reAsk hp)

/-- Whether a Page Request has been unanswered for 1 s of DTIME (R150). -/
def State.priOverdue (s : State) (q : HostReq) : Bool := q.pri && q.since + 1000000000 ≤ s.dtime

/-- R150: an unanswered Page Request ends with TIMEOUT. -/
def execPriTimeout (hp : Bool) (ctx page : Nat) (s : State) : Out :=
  match (s.hostPort hp).reqs.find? fun q => q.isFor ctx page && s.priOverdue q with
  | none => .next s
  | some q => .next ((s.failReq hp q 0x02).reAsk hp)

/-! ### The pool (R494-R498) -/

/-- The address of a part in the pool that the next granule of a copy reads or writes, if it has one. -/
def State.copyPoolVa (s : State) (c : CopyOp) : Option Nat :=
  if c.st != .running then none
  else (copyParts c (s.runningPlan c) c.prog).findSome? fun x => match s.checkPart c x with
    | .ok p => if p.path == 2 then some x.va else none
    | _ => none

/-- R496: a pool access of a granule that is unanswered stops its copy with NOTREADY (R371). -/
def State.copyTimeout (s : State) (id : Nat) : State :=
  match s.copies.find? fun c => c.id == id with
  | none => s
  | some c => match s.copyPoolVa c with
    | some va => s.stopCopy c .stopped .pool 0x01 (wordOf va)
    | none => s

/-- R496: a pool access that is unanswered after 50 ms takes NOTREADY: a granule of a copy among them. -/
def execPoolTimeout (id : Nat) (s : State) : Out :=
  match s.findAcc id with
  | none => .next (s.copyTimeout id)
  | some a =>
    let end1 (l : LaneAcc) : LaneAcc :=
      if l.st == .todo && l.parts.any fun p => p.path == 2 then
        l.failAt a.scalar (.pool, 0x01, ((splitParts l.addr.toNat a.bytes).zip l.parts |>.find? fun x => x.2.path == 2).elim 0
          fun x => x.1.1 - l.addr.toNat)
      else l
    let a1 := { a with lanes := a.lanes.map end1 }
    .next ((((s.putAcc a1).updFrag a.frag fun f => f.close a.id (~~~a1.paths))).checkAccess a.id)

def portBit (p : BitVec 4) : BitVec 16 := BitVec.ofNat 16 (2 ^ p.toNat)

/-- R496: a CXL link goes down; vector 5 is raised. -/
def execCxlLinkDown (port : BitVec 4) (s : State) : Out :=
  .next ((s.updPool fun q => { q with down := q.down ||| portBit port }).raise 5)

/-- R543: a CXL port trains. -/
def execCxlPortTrained (port : BitVec 4) (s : State) : Out :=
  .next (s.updPool fun q => { q with trained := q.trained ||| portBit port, down := q.down &&& ~~~portBit port })

/-- The number of a new extent: the lowest that none has, below 28 (R495). -/
def Pool.freeExtent (q : Pool) : Option Nat := (List.range 28).find? fun n => (tfind q.extents n).isNone

/-- R497: an add event makes a new extent, if there is room for one; vector 5 is raised (R495). -/
def execDynamicCapacityAdd (start len : BitVec 32) (s : State) : Out :=
  .next ((match s.pool.freeExtent with
    | some n => s.updPool fun q => { q with extents := tput n (start.toNat, len.toNat) q.extents }
    | none => s).raise 5)

/-- R497: a release request raises vector 5; nothing is released before POOLREL is written. -/
def execDynamicCapacityReleaseRequest (_extent : BitVec 5) (s : State) : Out := .next (s.raise 5)

/-- R498: an event record is given to the lease holder as a vector 5 event. -/
def execCxlEventRecord (record : List Byte) (s : State) : Out :=
  .next ((s.updHost fun h => if s.leaseHeld then { h with out := h.out ++ [.event h.lease.holder record] } else { h with events := h.events ++ [record] }).raise 5)

/-- POOLREL (R497): the extent takes no new access; it is released when those already issued have completed. -/
def State.writePoolrel (s : State) (value : Word) : State :=
  let e := field value 0 5
  if value.getLsbD 63 && field value 5 58 == 0 && (tfind s.pool.extents e).isSome && !(s.pool.draining.any fun d => d.1 == e) then
    s.updPool fun q => { q with draining := q.draining ++ [(e, s.nextId)] }
  else s

/-- R497: a write of POOLREL. -/
def execPoolrel (r : PageReq) (value : Word) (s : State) : Out :=
  s.pageWrite r (if s.isHolder r.hp then s.writePoolrel value else s)

/-- Whether an access numbered below `n` to an extent is outstanding. -/
def State.extentBusy (s : State) (e n : Nat) : Bool :=
  s.accs.any fun a => a.id < n && a.lanes.any fun l => l.st == .todo &&
    l.parts.any fun p => p.path == 2 && s.pool.extentOf (p.key - poolBase) == some e

/-- Extents whose accesses have all completed are released (R497). -/
def State.releaseExtents (s : State) : State :=
  let done := s.pool.draining.filter fun d => !s.extentBusy d.1 d.2
  if done.isEmpty then s
  else s.updPool fun q =>
    { q with extents := q.extents.filter (fun e => !(done.any fun d => d.1 == e.1))
             withdrawn := q.withdrawn.filter fun e => !(done.any fun d => d.1 == e)
             draining := q.draining.filter fun d => !done.contains d }

/-! ### The power governors (R546-R548) -/

/-- Grants go to the asks, oldest first (R547): what is left, the asks, and what each got. -/
def serveAsks : Nat → List Ask → Nat × List Ask × List (Ask × Nat)
  | b, [] => (b, [], [])
  | b, a :: as =>
    if b < a.need then (0, { a with need := a.need - b } :: as, [(a, b)])
    else
      let r := serveAsks (b - a.need) as
      (r.1, r.2.1, (a, a.need) :: r.2.2)

/-- Grants reach a phrase, or the operation in whose name one was asked (R224). -/
def State.grantTo (s : State) (a : Ask) (n : Nat) : State :=
  match a.op with
  | none => s.updPhr a.phrase fun q => { q with grants := q.grants + n }
  | some id =>
    if n == 0 then s
    else
      let give (o : MxOp) : MxOp := if o.id == id then { o with grant := true } else o
      s.updCore a.core fun c => { c with engine := { c.engine with ops := c.engine.ops.map give } }

/-- One cluster's governor at a tick. -/
def State.tickCluster (s : State) (c budget k : Nat) : State :=
  let q := grantsPerTick budget k
  let add := if s.hot.getLsbD (c / 16) then q / 2 else q
  let r := serveAsks (min ((s.cluster c).bucket + add) (4 * q)) (s.cluster c).asks
  r.2.2.foldl (fun s x => s.grantTo x.1 x.2) (s.updCluster c fun x => { x with bucket := r.1, asks := r.2.1 })

/-- The governors of a partition at a tick: what was written to PCFG takes effect (R546). -/
def State.tickPart (s : State) (n : Nat) : State :=
  let s1 := s.updPart n fun p => { p with budget := p.pending, gmap := p.bitmap }
  let cs := (List.range 64).filter fun c => (s.part n).bitmap.getLsbD c
  cs.foldl (fun s c => s.tickCluster c (s1.part n).budget cs.length) s1

/-- Whether a tick is due: DTIME has reached the next multiple of 1000. -/
def State.tickDue (s : State) : Bool := s.ticks < s.dtime / 1000

/-- R546: a tick. -/
def execGovernorTick (s : State) : Out :=
  if !s.tickDue then .next s
  else .next ((s.parts.map (·.1)).foldl (fun s n => s.tickPart n) { s with ticks := s.ticks + 1 })

end Sys2Proof.Machine
end

