-- ==== Sys2Proof/Machine/Branch.lean ====
section
/-! DEFINITION. Branches and jumps (R258, R259), the fates of scalar words that are no instruction (R234), and failing
fetches (R259). -/
namespace Sys2Proof.Machine

/-- The target of a PC-relative jump (R258). -/
def State.target (s : State) (off : BitVec 14) : Word := s.me.pc + 4 * off.signExtend 64

/-- The conditions of R233. -/
def condHolds (c : Cond) (a : Word) : Bool :=
  match c with
  | .z => a == 0
  | .nz => a != 0
  | .lz => a.slt 0
  | .gez => !a.slt 0
  | .lez => a.sle 0
  | .gz => !a.sle 0

/-- The scalar stream goes on at an address. -/
def State.goto (s : State) (pc : Word) : State := s.updMe fun f => { f with pc := pc }

/-- R258: branches when s[sa] meets the condition. -/
def execSbCond (c : Cond) (sa : SReg) (off : BitVec 14) (s : State) : Out :=
  .next (s.goto (if condHolds c (s.r sa) then s.target off else s.me.pc + 4))

/-- R258: PC-relative jump. -/
def execSj (off : BitVec 14) (s : State) : Out := .next (s.goto (s.target off))

/-- R258: PC-relative jump with the return address in s[sa]. -/
def execSjal (sa : SReg) (off : BitVec 14) (s : State) : Out := .next ((s.wr sa (s.me.pc + 4)).goto (s.target off))

/-- R258, R259: jump to s[sa]; ALIGN on a misaligned target. -/
def execSjr (sa : SReg) (s : State) : Out :=
  let t := s.r sa
  if t.extractLsb' 0 2 != 0 then s.fault .align 0 t else .next (s.goto t)

/-- R258, R259: the target is read before the link is written. -/
def execSjalr (sd sa : SReg) (s : State) : Out :=
  let t := s.r sa
  if t.extractLsb' 0 2 != 0 then s.fault .align 0 t else .next ((s.wr sd (s.me.pc + 4)).goto t)

/-- R234: ILLOP with EDATA the word. -/
def execIllopScalarWord (w : BitVec 32) (s : State) : Out := s.fault .illop 0 (w.setWidth 64)

/-- R259: the fault of a fetch, EPC at the fetch address and EDATA the failing address. -/
def execInstructionFetchFault (cause : Cause) (sub : BitVec 8) (addr : Word) (s : State) : Out :=
  s.fault cause sub addr

end Sys2Proof.Machine
end

