-- ==== Sys2Proof/Machine/Nest.lean ====
section
/-! DEFINITION. Verbs (R199-R203), the builders (R407, R408), the nest of a verb and its claims (R411-R413), launch packets and the
apply (R161, R209, R210, R409, R410). -/
namespace Sys2Proof.Machine

/-! ### Verb entries (R199-R201) -/

structure Verb where
  w0 : Word
  w1 : Word
  w2 : Word
  w3 : Word
  deriving DecidableEq, Repr

namespace Verb
def kind (v : Verb) : Nat := field v.w0 62 2
def entry (v : Verb) : Word := wordOf (field v.w0 0 56)
def pcount (v : Verb) : Nat := field v.w2 48 16
def regs (v : Verb) : Nat := field v.w2 39 9
def aux (v : Verb) : Bool := v.w2.getLsbD 38
def vpages (v : Verb) : Nat := field v.w2 0 32
def auxent (v : Verb) : Word := wordOf (field v.w3 0 56)
def comb (v : Verb) : Nat := field v.w0 59 3
def opa (v : Verb) : Nat := field v.w0 44 12
def opb (v : Verb) : Nat := field v.w0 32 12
def handler (v : Verb) : Nat := field v.w0 20 12
def hv (v : Verb) : Bool := v.w0.getLsbD 19
def span (v : Verb) : Bool := v.w0.getLsbD 18
def param (v : Verb) : Nat := field v.w1 0 32
end Verb

def isEmptyVerb (v : Verb) : Bool := v.kind == 0
def isLeafVerb (v : Verb) : Bool := v.kind == 1 || v.kind == 2

def isPow2 (n lo hi : Nat) : Bool := (List.range (hi + 1)).any fun k => lo ≤ k && n == 2 ^ k

/-- The range of PARAM for a combinator: 0 seq, 1 par, 2 pipe, 3 farm, 4 loop (R200). -/
def paramOk (comb param : Nat) : Bool :=
  match comb with
  | 2 => isPow2 (fieldNat param 0 9) 0 8 && 7 ≤ fieldNat param 16 4 && fieldNat param 16 4 ≤ 14 && fieldNat param 9 7 == 0 && param < 2 ^ 20
  | 3 => 1 ≤ param && param ≤ 4096
  | _ => param == 0

/-- Whether an entry is well formed, its operands apart (R201). -/
def Verb.ok (v : Verb) : Bool :=
  if isLeafVerb v then
    field v.w0 56 6 == 0 && field v.w0 0 2 == 0 && field v.w1 56 8 == 0 && field v.w1 0 4 == 0 && 1 ≤ v.pcount &&
    32 ≤ v.regs && v.regs ≤ 256 && v.regs % 16 == 0 && (!v.aux || 64 ≤ v.regs) && field v.w2 32 6 == 0 &&
    field v.w3 56 8 == 0 && field v.w3 0 2 == 0
  else
    v.kind == 3 && v.comb ≤ 4 && field v.w0 56 3 == 0 && field v.w0 0 18 == 0 && field v.w1 32 32 == 0 && v.w2 == 0 && v.w3 == 0 &&
    (v.comb != 3 || v.opb == 0) && (v.comb == 3 || !v.span) && paramOk v.comb v.param

def Verb.words (v : Verb) : List Word := [v.w0, v.w1, v.w2, v.w3]

def verbAddr (vtab i : Nat) : Nat := vtab + 32 * i

/-- Entry `i` of a context's verb table. -/
def State.verb (s : State) (ctx i : Nat) : Verb :=
  let a := verbAddr (s.ctx ctx).vtab.toNat i
  let w (k : Nat) : Word := wordOf (readNat s.mem (a + 8 * k) 8)
  ⟨w 0, w 1, w 2, w 3⟩

/-- Entry `i` as a reader on a die sees it: the table's, or the copy of the die's verb cache (R203); a port reads the table. -/
def State.verbSeen (s : State) (die : Option Nat) (ctx i : Nat) : Verb :=
  match seenWords s.draws i (some (s.verb ctx i).words) (die.bind fun d => copyIn s.verbCache d ctx i) with
  | some ws => ⟨nth 0 ws 0, nth 0 ws 1, nth 0 ws 2, nth 0 ws 3⟩
  | none => s.verb ctx i

/-- The verb caches after entries have been read from a die: its cache keeps them, but for EMPTY ones (R203). -/
def State.verbsRead (s : State) (die : Option Nat) (ctx : Nat) (is : List Nat) : List TabCopy :=
  match die with
  | none => s.verbCache
  | some d => (is.filter fun i => i < 4096).foldl (fun (cs : List TabCopy) i =>
      if isEmptyVerb (s.verbSeen die ctx i) then cs else keepCopy s.draws 512 ⟨d, ctx, i, (s.verbSeen die ctx i).words⟩ cs) s.verbCache

/-- State `t`, to which `s` came, with the verb caches as the reads in `s` left them. -/
def State.keepVerbs (s : State) (die : Option Nat) (ctx : Nat) (is : List Nat) (t : State) : State :=
  { t with verbCache := s.verbsRead die ctx is, draws := t.draws + if s.verbCache.isEmpty then 0 else 1 }

/-- The die of the issuing core. -/
def State.myDie (s : State) : Option Nat := some (dieOf s.myCore)

/-! ### Replies of combinator instructions (R406) -/

/-- A combinator instruction has been performed: its registers are written when the reply arrives, and the fragment goes on. -/
def State.sendReply (s : State) (ws : List (SReg × Word)) (acq : Option Scope) : State :=
  ({ s with replies := s.replies ++ [{ id := s.nextId, frag := s.cur, pc := s.me.pc, writes := ws, acq := acq }] } : State).bump.adv

/-! ### Builders (R407, R408) -/

/-- The result word of a builder that fails. -/
def buildFail (reason : Nat) : Word := failWord reason 0

/-- The entries that a builder names. -/
def builderNames (ops : List Word) (pw : Word) : List Nat := ops.map (·.toNat) ++ if pw.getLsbD 44 then [field pw 32 12] else []

/-- Why a builder fails, the table apart; the first that applies in the order of R408. -/
def State.buildReason (s : State) (ctx comb : Nat) (ops : List Word) (pw : Word) : Option Nat :=
  let hv := pw.getLsbD 44
  let handler := field pw 32 12
  if (builderNames ops pw).any fun x => x ≥ 4096 || isEmptyVerb (s.verbSeen s.myDie ctx x) then some 2
  else if field pw 46 18 != 0 || (!hv && handler != 0) || (pw.getLsbD 45 && comb != 3) || !paramOk comb (field pw 0 32) then some 3
  else none

/-- The lowest EMPTY entry of a verb table (R202). -/
def State.freeVerb (s : State) (ctx : Nat) : Option Nat := (List.range 4096).find? fun i => isEmptyVerb (s.verb ctx i)

/-- The entry that a builder writes. -/
def builtVerb (comb : Nat) (a b : Word) (pw : Word) : Verb :=
  { w0 := wordOf (at' 3 62 + at' comb 59 + at' (a.toNat % 4096) 44 + at' (b.toNat % 4096) 32 + at' (field pw 32 12) 20 +
      at' (field pw 44 1) 19 + at' (field pw 45 1) 18)
    w1 := wordOf (field pw 0 32), w2 := 0, w3 := 0 }

def writeVerb (a : Nat) (v : Verb) (m : Mem) : Mem :=
  writeNat a 8 v.w0.toNat (writeNat (a + 8) 8 v.w1.toNat (writeNat (a + 16) 8 v.w2.toNat (writeNat (a + 24) 8 v.w3.toNat m)))

/-- A builder claims an entry and writes it in one action: the result word, and the state (R408). -/
def State.build (s : State) (ctx comb : Nat) (ops : List Word) (pw : Word) : Word × State :=
  match s.buildReason ctx comb ops pw with
  | some r => (buildFail r, s)
  | none => match s.freeVerb ctx with
    | none => (buildFail 1, s)
    | some i =>
      (wordOf i, s.updMem (writeVerb (verbAddr (s.ctx ctx).vtab.toNat i) (builtVerb comb (nth 0 ops 0) (nth 0 ops 1) pw)))

/-- A combinator instruction that is a release stands behind the fragment's earlier accesses (R408, R409, R419). -/
def State.combWaits (s : State) : Bool := s.relWaits s.cur .dev

/-- A builder (R408). -/
def State.builder (s : State) (comb : Nat) (sd : SReg) (ops : List Word) (pw : Word) : Out :=
  if s.combWaits then .next s
  else
    let r := s.build s.myCtx comb ops pw
    .next ((s.keepVerbs s.myDie s.myCtx (builderNames ops pw) r.2).sendReply [(sd, r.1)] none)

/-- R408: kseq. -/
def execKseq (sd sa sb sp : SReg) (s : State) : Out := s.builder 0 sd [s.r sa, s.r sb] (s.r sp)

/-- R408: kpar. -/
def execKpar (sd sa sb sp : SReg) (s : State) : Out := s.builder 1 sd [s.r sa, s.r sb] (s.r sp)

/-- R408: kpipe. -/
def execKpipe (sd sa sb sp : SReg) (s : State) : Out := s.builder 2 sd [s.r sa, s.r sb] (s.r sp)

/-- R408: kfarm. -/
def execKfarm (sd sa sp : SReg) (s : State) : Out := s.builder 3 sd [s.r sa] (s.r sp)

/-- R408: kloop. -/
def execKloop (sd sa sb sp : SReg) (s : State) : Out := s.builder 4 sd [s.r sa, s.r sb] (s.r sp)

/-! ### The nest (R411, R412) -/

def combKind (comb : Nat) : NodeKind := match comb with | 0 => .seq | 1 => .par | 2 => .pipe | 3 => .farm | _ => .loop

/-- The part of a node that its entry gives. -/
def nodeOf (i : Nat) (v : Verb) (parent : Option Nat) (inHandler aux : Bool) (copyNo : Nat) : Node :=
  if isLeafVerb v then
    { kind := if v.kind == 2 then .coroutine else .func, parent := parent, kids := [], handler := none, entry := v.entry
      auxent := v.auxent, pcount := v.pcount, regs := v.regs, aux := aux && v.aux, pages := v.vpages, copyNo := copyNo
      isHandler := inHandler, name := i }
  else
    { kind := combKind v.comb, parent := parent, kids := [], handler := none, depth := fieldNat v.param 0 9
      logsz := fieldNat v.param 16 4, span := v.span, copyNo := copyNo, isHandler := inHandler, name := i }

/-- How many copies of its operand a node has (R411). -/
def copiesOfVerb (v : Verb) : Nat := if v.comb == 3 then v.param else 1

def setNode (ns : List Node) (n : Nat) (g : Node → Node) : List Node := ns.mapIdx fun i x => if i == n then g x else x

/-- Reads the nest from an entry, in the order of R413; none where a check of R412 fails. The first argument is the depth that is
left. -/
def State.readNest (s : State) (die : Option Nat) (ctx : Nat) (aux : Bool) :
    Nat → Nat → Option Nat → Bool → Nat → List Node → Option (List Node)
  | 0, _, _, _, _, _ => none
  | depth + 1, i, parent, inHandler, copyNo, ns =>
    let v := s.verbSeen die ctx i
    let me := ns.length
    if !v.ok || me ≥ 256 || (v.kind == 2 && (parent.isSome || v.pcount != 1)) then none
    else if isLeafVerb v then some (ns ++ [nodeOf i v parent inHandler aux copyNo])
    else
      let ns0 := ns ++ [nodeOf i v parent inHandler aux copyNo]
      let r1 := (List.range (copiesOfVerb v)).foldl (fun (r : Option (List Node × List Nat)) c =>
        match r with
        | none => none
        | some (ns, ks) => (s.readNest die ctx aux depth v.opa (some me) inHandler c ns).map fun ns' => (ns', ks ++ [ns.length]))
        (some (ns0, []))
      let r2 := match r1 with
        | none => none
        | some (ns, ks) =>
          if v.comb == 3 then some (ns, ks)
          else (s.readNest die ctx aux depth v.opb (some me) inHandler 0 ns).map fun ns' => (ns', ks ++ [ns.length])
      match r2 with
      | none => none
      | some (ns, ks) =>
        if v.hv then
          (s.readNest die ctx aux depth v.handler (some me) true 0 ns).map fun ns' =>
            setNode ns' me fun x => { x with kids := ks, handler := some ns.length }
        else some (setNode ns me fun x => { x with kids := ks })

/-- The leaf of a node whose phrase 0 is placed first (R414). -/
def firstLeaf (ns : List Node) : Nat → Nat → Nat
  | 0, n => n
  | fuel + 1, n => match ns[n]? with
    | some x => match x.kind with
      | .func | .coroutine => n
      | _ => firstLeaf ns fuel (nth 0 x.kids 0)
    | none => n

/-- The head of a node (R417). -/
def headOf (ns : List Node) : Nat → Nat → Nat
  | 0, n => n
  | fuel + 1, n => match ns[n]? with
    | some x => if x.kind == .pipe then headOf ns fuel (nth 0 x.kids 0) else n
    | none => n

def kindAt (ns : List Node) (n : Nat) : NodeKind := match ns[n]? with | some x => x.kind | none => .func

/-- Whether the stage b of a pipe leads to a farm, so that the pipe has no channel (R417, R418). -/
def leadsToFarm (ns : List Node) (x : Node) : Bool := kindAt ns (headOf ns 20 (nth 0 x.kids 1)) == .farm

/-- The size of a channel's ring (R418). -/
def ringBytes (x : Node) : Nat := x.depth * 2 ^ x.logsz

/-- A node's own claim in pages (R413). -/
def ownClaim (ns : List Node) (x : Node) : Nat :=
  let own := match x.kind with
    | .func | .coroutine => x.pages
    | .pipe => if leadsToFarm ns x then 0 else (ringBytes x + 128 + 4095) / 4096
    | .farm => 1 + 3 * x.kids.length
    | .seq | .par | .loop => 0
  own + (if x.handler.isSome then 1 else 0)

/-- The nodes with the number and place of their pages. -/
def placeClaims (all : List Node) : Nat → List Node → List Node
  | _, [] => []
  | at0, x :: xs => { x with pages := ownClaim all x, page := at0 } :: placeClaims all (at0 + ownClaim all x) xs

/-- The root takes PHRASES when its verb is FUNC or COROUTINE (R209, R415). -/
def rootCount (phrases : Nat) (ns : List Node) : List Node :=
  setNode ns 0 fun x => if (x.kind == .func || x.kind == .coroutine) && phrases != 0 then { x with pcount := phrases } else x

/-- The cluster whose vault should hold each page of a node's claim: a worker's deque stands in the vault of the worker's cluster,
which is the one that R416 prefers for it (R181; log 75). -/
def pageWants (clusters : List Nat) (x : Node) : List (Option Nat) :=
  match x.kind with
  | .farm => takeFill none x.pages
      (none :: (List.range x.kids.length).flatMap fun w => List.replicate 3 (clusters[w % max 1 clusters.length]?))
  | _ => List.replicate x.pages none

/-- A page of a pool, in a wanted cluster's vault where the pool has one. -/
def pickPage (pool : List Nat) (want : Option Nat) : Nat :=
  (want.bind fun c => pool.find? fun p => vaultCluster p == c).getD (pool.headD 0)

/-- Pages taken from a pool one after another, and what is left of it. -/
def takePages : List (Option Nat) → List Nat → List Nat × List Nat
  | [], pool => ([], pool)
  | w :: ws, pool =>
    let p := pickPage pool w
    let r := takePages ws (pool.erase p)
    (p :: r.1, r.2)

/-- The clusters of a partition, in increasing order, whether gated or not (R416). -/
def State.partClusters (s : State) (part : Nat) : List Nat := (List.range 64).filter fun c => (s.part part).bitmap.getLsbD c

/-- What the claims of a nest come to. -/
inductive Claims where
  | bad
  | short
  | made (nodes : List Node) (pages pool : List Nat)
  deriving DecidableEq, Repr

/-- The claims of a packet's verb, all or nothing (R412, R413). -/
def State.claim (s : State) (die : Option Nat) (ctx part : Nat) (k : Packet) : Claims :=
  match s.readNest die ctx k.aux 16 k.verb none false 0 [] with
  | none => .bad
  | some ns0 =>
    let ns := placeClaims ns0 0 (rootCount k.phrases ns0)
    let wants := ns.flatMap (pageWants (s.partClusters part))
    let pool := (s.part part).pool
    let r := takePages wants pool
    if wants.length > pool.length then .short else .made ns r.1 r.2

/-! ### Packets and the apply (R161, R209, R210) -/

def numAt (bs : List Byte) (lo n : Nat) : Nat := natOf ((bs.drop lo).take n)

/-- A launch packet's fields; none where a check of R210 that needs no table fails. The members of a course are counted as a full
course of COURSESZ has them, twice with AUX, whatever the number of phrases (DESIGN CHOICE, log 70). -/
def packetOf (bs : List Byte) : Option Packet :=
  let flags := numAt bs 9 1
  let place := fieldNat flags 0 2
  let aux := flags.testBit 5
  let cs := numAt bs 10 2
  let pr := numAt bs 12 2
  let members := cs * (if aux then 2 else 1)
  if numAt bs 0 4 ≥ 4096 || numAt bs 4 4 ≥ 2 ^ 16 || numAt bs 8 1 == 0 || numAt bs 8 1 > 32 || flags.testBit 7 || fieldNat flags 2 2 != 0 ||
     place == 3 || cs ≥ 2048 || pr ≥ 2048 || numAt bs 14 2 != 0 || numAt bs 72 56 != 0 || cs > 1024 ||
     (cs != 0 && (members > (if place == 1 then 360 else 1024) || pr ≥ members)) then none
  else some {
    verb := numAt bs 0 4, phrases := numAt bs 4 4, lastlanes := numAt bs 8 1, place := place, cores := flags.testBit 4, aux := aux
    droplate := flags.testBit 6, coursesz := cs, prank := pr, fsl := (List.range 8).map fun n => BitVec.ofNat 32 (numAt bs (16 + 4 * n) 4)
    arg := wordOf (numAt bs 48 8), deadline := wordOf (numAt bs 56 8), tag := wordOf (numAt bs 64 8) }

/-- The packet of a kapply without one (R409). -/
def defaultPacket (verb : Nat) (fsl : List (BitVec 32)) : Packet :=
  { verb := verb, phrases := 0, lastlanes := 32, place := 0, cores := false, aux := false, droplate := false, coursesz := 0, prank := 0
    fsl := fsl, arg := 0, deadline := 0, tag := 0 }

/-- The checks of R210 against the verb table. -/
def State.verbRefuses (s : State) (die : Option Nat) (ctx : Nat) (k : Packet) : Bool :=
  let v := s.verbSeen die ctx k.verb
  isEmptyVerb v || (k.aux && isLeafVerb v && !v.aux)

def codeNoq : Nat := 0x10
def codeQfull : Nat := 0x11
def codeBadpkt : Nat := 0x12
def codePktread : Nat := 0x13
def codeNores : Nat := 0x14

/-- The launch queue of a context (R161, R190). -/
def State.lqOf (s : State) (ctx : Nat) : Nat := field (s.ctx ctx).misc 0 6

/-- The bytes that firmware keeps for an instance record: the packet, the nest, and an image of a COROUTINE's phrase (R564; log 8). -/
def recordLen : Nat := 0x60000

/-- The place of that image in a record. -/
def recordImage : Nat := 0x10000

/-- The physical ranges that the page tables from a table of a level reach, and the tables themselves (R135-R137): V is in an entry's
first byte, so a listed entry's byte is. -/
def pageRanges (m : Mem) : Nat → Nat → Nat → List (Nat × Nat)
  | 0, _, _ => []
  | fuel + 1, level, table =>
    let n := if level == 0 then 2 ^ 17 else 512
    (table, 8 * n) :: (m.filterMap fun c =>
      if table ≤ c.1 && c.1 < table + 8 * n && (c.1 - table) % 8 == 0 && c.2.getLsbD 0 then some (wordOf (readNat m c.1 8)) else none).flatMap
      fun e => if pteMalformed level e then []
        else if pteLeaf level e then (if e.getLsbD 10 then [] else [(pteFrame e, 2 ^ (12 + 9 * (3 - level)))])
        else pageRanges m fuel (level + 1) (pteFrame e)

/-- The memory of a context and what its addresses reach (R133, R135, R190): its record and tables, its heap, its pages. -/
def State.contextRanges (s : State) (x : Ctx) : List (Nat × Nat) :=
  let base := field x.hbase 21 35 * 0x200000
  [(x.record, 128), (x.vtab.toNat, 0x20000), (x.ntab.toNat, 0x8000),
   ((base + field x.hoff 21 31 * 0x200000) % 2 ^ 52, field x.hlim 21 36 * 0x200000)] ++ pageRanges s.mem 4 0 x.ptab.toNat

/-- Whether the room of a record at an address is used: by another record, by pages of a claim pool or of a claim, or by the memory of a
context (R564). -/
def State.recordClash (s : State) (a : Nat) : Bool :=
  let meets (b n : Nat) : Bool := a < b + n && b < a + recordLen
  a + recordLen > vaultTop ||
  (s.applied.any fun e => meets e.2.record recordLen || e.2.pages.any fun p => meets p 0x1000) ||
  (s.parts.any fun e => e.2.pool.any fun p => meets p 0x1000) ||
  s.contexts.any fun e => e.2.resident && (s.contextRanges e.2).any fun r => meets r.1 r.2

/-- The bytes of a launch packet (R209). -/
def Packet.bytes (k : Packet) : List Byte :=
  bytesOf k.verb 4 ++ bytesOf k.phrases 4 ++ bytesOf k.lastlanes 1 ++
  bytesOf (k.place + at' (bit k.cores) 4 + at' (bit k.aux) 5 + at' (bit k.droplate) 6) 1 ++ bytesOf k.coursesz 2 ++ bytesOf k.prank 2 ++
  bytesOf 0 2 ++ ((List.range 8).flatMap fun n => bytesOf (nth (0 : BitVec 32) k.fsl n).toNat 4) ++ bytesOf k.arg.toNat 8 ++
  bytesOf k.deadline.toNat 8 ++ bytesOf k.tag.toNat 8 ++ bytesOf 0 56

/-- The nest is copied into the instance record when the claims are made: the verb entry of each node in its order, behind the packet
(R412, R564; log 8). -/
def State.recordNest (s : State) (ctx rec : Nat) (ns : List Node) : State :=
  s.updMem fun m => (ns.take 2044).zipIdx.foldl (fun m e =>
    writeBytes (rec + 128 + 32 * e.2) (readBytes m ((s.ctx ctx).vtab.toNat + 32 * e.1.name) 32) m) m

/-- The room for an instance record, which firmware keeps: a free choice of an address aligned to 128 bytes that is not used, or of
none (R564; log 8). -/
def State.recordRoom (s : State) : Option Nat :=
  let n := Config.freeNat s.draws % (2 ^ 27 + 1)
  if n == 2 ^ 27 || s.recordClash (n * 128) then none else some (n * 128)

/-- The instance is entered in its launch queue (R161, R564). -/
def State.accept (s : State) (ctx q : Nat) (k : Packet) (noun : Word) (rec : Nat) (claimed : Bool) (ns : List Node)
    (pages : List Nat) : State :=
  let i := s.nextId
  let a : Applied := { noun := noun, ctx := ctx, part := s.partOf ctx, lq := q, packet := k, record := rec, stamp := s.dtime
                       pos := (s.lq q).next, claimed := claimed, nodes := ns, pages := pages }
  let s1 := (s.updMem fun m => writeBytes rec k.bytes m).recordNest ctx rec ns
  ((({ s1 with applied := tput i a s.applied } : State).bump).updLq q fun x => { x with items := x.items ++ [i], next := x.next + 1 })

/-- An apply: refused with a code, or accepted with the instance's noun (R161, R210, R410). -/
def State.apply (s : State) (die : Option Nat) (ctx : Nat) (k : Packet) (now : Bool) : Except Nat Word × State :=
  let q := s.lqOf ctx
  let part := s.partOf ctx
  if s.verbRefuses die ctx k then (.error codeBadpkt, s)
  else if (s.ctx ctx).killed || !(s.lq q).en || (s.lq q).part != part then (.error codeNoq, s)
  else if (s.lq q).items.length ≥ 256 then (.error codeQfull, s)
  else
    let s1 := s.drawn
    match s.recordRoom with
    | none => (.error codeNores, s1)
    | some rec =>
      let c := if now then s.claim die ctx part k else .bad
      if now && c == .short then (.error codeNores, s1)
      else match s1.allocNoun ctx 2 stRunning 0x1F (wordOf rec) with
        | none => (.error codeNores, s1)
        | some (n, s2) =>
          match now, c with
          | true, .made ns pages pool =>
            (.ok n, (s2.accept ctx q k n rec true ns pages).updPart part fun p => { p with pool := pool })
          | true, _ => (.ok n, (s2.accept ctx q k n rec false [] []).instDead s2.nextId xFailed 1 0)
          | false, _ => (.ok n, s2.accept ctx q k n rec false [] [])

/-- The entries that an apply reads: its verb's, and those of the nest whose claims it makes (R203). -/
def State.applyReads (s : State) (die : Option Nat) (ctx : Nat) (k : Packet) (now : Bool) : List Nat :=
  match now, s.claim die ctx (s.partOf ctx) k with
  | true, .made ns _ _ => ns.map (·.name)
  | _, _ => [k.verb]

/-! ### Reading and writing payloads and packets (R409, R419) -/

/-- What becomes of a bulk access of the issuing fragment. -/
inductive Bulk where
  | go (ps : List Piece)
  | wait
  | bad (cause : Cause) (sub : BitVec 8) (addr : Word)
  deriving DecidableEq, Repr

/-- A page in no TLB has its record posted, where one of the 64 is free, and the instruction waits for the walk (R143); a walk that has
failed is the part's failure. -/
def State.bulkMiss (s : State) (k : Nat) (w : Want) (va : Nat) : Bulk × State :=
  match (s.frag k).pwait with
  | .failed c sub v =>
    if v == wordOf va then (.bad c sub v, s.updFrag k fun f => { f with pwait := .idle })
    else (.wait, s.updFrag k fun f => { f with pwait := .idle })
  | .waits _ => (.wait, s)
  | .idle =>
    if s.missRoom k [va / 0x1000] then (.wait, (s.postMiss k (s.asker k) w.kind va 0).updFrag k fun f => { f with pwait := .waits va })
    else (.wait, s)

/-- The checks of one part (R142). -/
def State.bulkPart (s : State) (k : Nat) (w : Want) (va len : Nat) : Bulk × State :=
  let a := s.asker k
  let hp := s.hportOf a.ctx
  match s.resolve a hp va len w with
  | .miss => s.bulkMiss k w va
  | .bad _ c sub => (.bad c sub (wordOf va), s)
  | .ok p =>
    if p.path == 4 && !(s.hostPort hp).gone && !s.atcHit hp a.ctx (hostPage p.key) w.writes then
      match (s.frag k).hfail.filter fun e => e.2 == wordOf va with
      | some (sub, d) => (.bad .host sub d, s.updFrag k fun f => { f with hfail := none, hwait := none })
      | none =>
        (.wait, (s.askHost hp a.ctx (hostPage p.key) w.writes false).updFrag k fun f => { f with hwait := some (hostPage p.key, wordOf va) })
    else match s.pathCheck s.nextId a.ctx (!w.writes) w.writes p with
      | (some e, s1) => (.bad e.1 e.2 (wordOf va), s1)
      | (none, s1) =>
        -- the fragment's own earlier accesses to the bytes come first (R444)
        if s1.touchPending k w.writes p.key p.len then (.wait, s1) else (.go [s1.realPiece a.ctx p], s1)

def State.bulkParts (s : State) (k : Nat) (w : Want) : List (Nat × Nat) → List Piece → Bulk × State
  | [], ps => (.go ps, s)
  | p :: rest, ps => match s.bulkPart k w p.1 p.2 with
    | (.go qs, s1) => s1.bulkParts k w rest (ps ++ qs)
    | r => r

/-- The parts of a range, split at 4 KiB boundaries. -/
def rangeParts : Nat → Nat → Nat → List (Nat × Nat)
  | 0, _, _ => []
  | fuel + 1, va, len =>
    let r := 0x1000 - va % 0x1000
    if len == 0 then [] else if len ≤ r then [(va, len)] else (va, r) :: rangeParts fuel (va + r) (len - r)

def State.bulk (s : State) (k : Nat) (w : Want) (va len : Nat) : Bulk × State := s.bulkParts k w (rangeParts 8 va len) []

/-! ### kapply (R409, R410) -/

/-- The refusal that kapply writes. -/
def applyRefusal (code : Nat) : Word := wordOf (0xFFFFFFFFFFFFFF00 + code)

/-- kapply has been answered. -/
def State.answerApply (s : State) (sd : SReg) (r : Except Nat Word) : State :=
  s.sendReply [(sd, match r with | .ok n => n | .error c => applyRefusal c)] none

/-- kapply applies a packet. -/
def State.kapplyPacket (s : State) (ctx : Nat) (sd : SReg) (k : Packet) (now : Bool) : State :=
  let r := s.apply s.myDie ctx k now
  (s.keepVerbs s.myDie ctx (s.applyReads s.myDie ctx k now) r.2).answerApply sd r.1

/-- The packet that kapply applies: the default one, or the bytes at s[sb] with VERB replaced (R409). -/
def State.applyBytes (s : State) (verb : Nat) (ps : List Piece) : Option Packet :=
  packetOf (bytesOf verb 4 ++ (s.readPieces ps).drop 4)

/-- R409, R410: kapply takes no fault. -/
def execKapply (sd sa sb : SReg) (now : Bool) (s : State) : Out :=
  let verb := (s.r sa).toNat
  let ctx := s.myCtx
  if s.combWaits then .next s
  else if verb ≥ 4096 then .next (s.answerApply sd (.error codeBadpkt))
  else if sb == 0 then
    .next (s.kapplyPacket ctx sd (defaultPacket verb s.myPhr.fsl) now)
  else if (s.r sb).toNat % 128 != 0 then .next (s.answerApply sd (.error codeBadpkt))
  else match s.bulk s.cur .read (s.r sb).toNat 128 with
    | (.wait, s1) => .next s1
    | (.bad _ _ _, s1) => .next (s1.answerApply sd (.error codePktread))
    | (.go ps, s1) => match s1.applyBytes verb ps with
      | none => .next (s1.answerApply sd (.error codeBadpkt))
      | some k => .next (s1.kapplyPacket ctx sd k now)

end Sys2Proof.Machine
end

