-- ==== Sys2Proof/Machine/Channels.lean ====
section
/-! DEFINITION. Channels and task deques (R181-R183, R417-R421), coroutines (R422, R423) and kcancel (R424). -/
namespace Sys2Proof.Machine

/-! ### Outputs and inputs (R417) -/

/-- Where task words go or come from: the channel of a pipe, or the deques of a farm. -/
inductive Port where
  | pipe (n : Nat)
  | farm (n : Nat)
  deriving DecidableEq, Repr

/-- The nodes above a node, nearest first, each with the child through which it is above. -/
def ancestors (ns : List Node) : Nat → Nat → List (Nat × Node × Nat)
  | 0, _ => []
  | fuel + 1, n => match ns[n]? with
    | none => []
    | some x => match x.parent with
      | none => []
      | some p => match ns[p]? with
        | none => []
        | some y => (p, y, n) :: ancestors ns fuel p

/-- The nearest farm whose copy contains a node. -/
def farmAbove (ns : List Node) (n : Nat) : Option Nat :=
  ((ancestors ns 20 n).find? fun e => e.2.1.kind == .farm && e.2.1.kids.contains e.2.2).map (·.1)

/-- The output of a node. -/
def outputOf (ns : List Node) (n : Nat) : Option Port :=
  ((ancestors ns 20 n).find? fun e => e.2.1.kind == .pipe && nth 0 e.2.1.kids 0 == e.2.2).map fun e =>
    if leadsToFarm ns e.2.1 then .farm (headOf ns 20 (nth 0 e.2.1.kids 1)) else .pipe e.1

/-- The input of a node: a pipe whose b leads to a farm has no channel. -/
def inputOf (ns : List Node) (n : Nat) : Option Port :=
  match farmAbove ns n with
  | some f => some (.farm f)
  | none => match (ancestors ns 20 n).find? fun e => e.2.1.kind == .pipe && nth 0 e.2.1.kids 1 == e.2.2 with
    | some e => if leadsToFarm ns e.2.1 then none else some (.pipe e.1)
    | none => none

/-- The pipe that feeds a farm. -/
def feederOf (ns : List Node) (f : Nat) : Option Node :=
  ns.find? fun x => x.kind == .pipe && headOf ns 20 (nth 0 x.kids 1) == f

/-- The copy of a farm that contains a node. -/
def workerOf (ns : List Node) (f n : Nat) : Nat :=
  match (ancestors ns 20 n).find? fun e => e.1 == f with
  | some e => (ns[e.2.2]?.map (·.copyNo)).getD 0
  | none => 0

/-! ### Deques (R181, R182) -/

def recFree : Nat := 0
def recReady : Nat := 1
def recTaken : Nat := 2

def recState (m : Mem) (r : Nat) : Nat := readNat m (r + 24) 1
def recSeq (m : Mem) (r : Nat) : Nat := readNat m (r + 16) 8

/-- The records of one worker's deque. -/
def Applied.worker (a : Applied) (x : Node) (w : Nat) : List Nat := (List.range 256).map fun i => a.recordAt x w i

/-- The word of a deque's header: HEAD at 0, TAIL at 8. -/
def Applied.dequeWord (a : Applied) (x : Node) (w off : Nat) : Nat := a.claimAddr x (dequeOff w + off)

/-- The record at TAIL of a worker's deque. -/
def Applied.tailRecord (a : Applied) (x : Node) (m : Mem) (w : Nat) : Nat := a.recordAt x w (readNat m (a.dequeWord x w 8) 8 % 256)

/-- The worker whose deque takes the next task: from E on, the first whose record at TAIL is FREE; none where every deque is full
(R182). -/
def dequeWorker (a : Applied) (x : Node) (m : Mem) : Option Nat :=
  let n := x.kids.length
  let e := readNat m (a.claimAddr x 0) 8
  ((List.range n).map fun j => (e + j) % n).find? fun w => recState m (a.tailRecord x m w) == recFree

/-- kemit to a worker's deque: memory with the task in it (R182). -/
def dequePush (a : Applied) (x : Node) (m : Mem) (task : Word) (w : Nat) : Mem :=
  let ea := a.claimAddr x 0
  let e := readNat m ea 8
  let r := a.tailRecord x m w
  let t := a.dequeWord x w 8
  pokes [(r, 8, task.toNat), (r + 8, 8, 0), (r + 16, 8, e), (r + 24, 8, recReady), (t, 8, readNat m t 8 + 1), (ea, 8, e + 1)] m

/-- The record of least or greatest SEQ of a list. -/
def pickSeq (m : Mem) (newest : Bool) (rs : List Nat) : Option Nat :=
  rs.foldl (fun b r => match b with
    | none => some r
    | some x => if (if newest then recSeq m x < recSeq m r else recSeq m r < recSeq m x) then some r else some x) none

/-- The record that ktake takes: its own of lowest SEQ, else the newest of the next workers (R182). -/
def dequePick (a : Applied) (x : Node) (m : Mem) (w : Nat) : Option Nat :=
  let n := x.kids.length
  let ready (v : Nat) : List Nat := (a.worker x v).filter fun r => recState m r == recReady
  match pickSeq m false (ready w) with
  | some r => some r
  | none => firstFrom (fun j => pickSeq m true (ready ((w + 1 + j) % n))) (n - 1) 0

/-- The TAKEN record that a phrase holds in a farm. -/
def heldRecord (a : Applied) (x : Node) (m : Mem) (noun : Word) : Option Nat :=
  (a.records x).find? fun r => recState m r == recTaken && readNat m (r + 8) 8 == noun.toNat

/-- Whether no record of a farm is READY or TAKEN. -/
def dequesEmpty (a : Applied) (x : Node) (m : Mem) : Bool := (a.records x).all fun r => recState m r == recFree

/-- HEAD of each deque goes on over leading FREE records (R182). -/
def headAdv (a : Applied) (x : Node) (m : Mem) (w : Nat) : Nat → Nat → Nat
  | 0, h => h
  | n + 1, h =>
    if h < readNat m (a.dequeWord x w 8) 8 && recState m (a.recordAt x w (h % 256)) == recFree then headAdv a x m w n (h + 1) else h

/-- kdone: the record is FREE, and its deque's HEAD advances. -/
def dequeFree (a : Applied) (x : Node) (m : Mem) (r : Nat) : Mem :=
  let m1 := writeNat (r + 24) 1 recFree m
  match (List.range x.kids.length).find? fun w => (a.worker x w).contains r with
  | none => m1
  | some w => writeNat (a.dequeWord x w 0) 8 (headAdv a x m1 w 256 (readNat m1 (a.dequeWord x w 0) 8)) m1

/-! ### Channels (R418) -/

def entryBytes (x : Node) : Nat := 2 ^ x.logsz

/-- The pointers of a channel: producer and consumer. -/
def State.chanPtrs (s : State) (a : Applied) (x : Node) : Nat × Nat :=
  match x.gutter with
  | some core => match s.gutter core 7 with
    | some g => (g.prod.toNat, g.cons.toNat)
    | none => (0, 0)
  | none => (readNat s.mem (a.claimAddr x 0) 8, readNat s.mem (a.claimAddr x 8) 8)

/-- The number of entries in a channel. -/
def State.chanCount (s : State) (a : Applied) (x : Node) : Nat :=
  let p := s.chanPtrs a x
  match x.gutter with
  | some _ => (p.1 + 2 ^ 16 - p.2) % 2 ^ 16
  | none => p.1 - p.2

/-- The key of byte `off` of the entry at a pointer. -/
def Applied.chanKey (a : Applied) (x : Node) (ptr off : Nat) : Nat :=
  let at0 := entryBytes x * (ptr % x.depth) + off
  match x.gutter with
  | some core => scratchKey core (0x60000 - ringBytes x + at0)
  | none => a.claimAddr x (128 + at0)

def Applied.chanBytes (a : Applied) (x : Node) (m : Mem) (ptr lo n : Nat) : List Byte :=
  (List.range n).map fun j => readByte m (a.chanKey x ptr (lo + j))

def Applied.chanWrite (a : Applied) (x : Node) (ptr lo : Nat) (bs : List Byte) (m : Mem) : Mem :=
  bs.zipIdx.foldl (fun m e => writeByte (a.chanKey x ptr (lo + e.2)) e.1 m) m

/-- One pointer of a channel goes on. -/
def State.chanMove (s : State) (a : Applied) (x : Node) (prod : Bool) : State :=
  match x.gutter with
  | some core => s.updGutter core 7 fun g => if prod then { g with prod := g.prod + 1 } else { g with cons := g.cons + 1 }
  | none =>
    let k := a.claimAddr x (if prod then 0 else 8)
    s.updMem fun m => writeNat k 8 (readNat m k 8 + 1) m

/-! ### Acceptance (R156, R182) -/

/-- Whether the atomic engine of the vault in which a record stands accepts an operation of the issuing core now. -/
def State.dequeTurn (s : State) (r : Nat) : Bool := s.engineTurn (vaultCluster r) (sourceAt (vaultCluster r) s.myCore)

/-- That engine has accepted it. -/
def State.dequeAccept (s : State) (r : Nat) : State := s.engineAccept (vaultCluster r) (sourceAt (vaultCluster r) s.myCore)

/-- The cluster of a channel (R419). -/
def Applied.chanCluster (a : Applied) (x : Node) : Nat :=
  match x.gutter with
  | some core => clusterOf core
  | none => vaultCluster (a.claimAddr x 0)

/-- Whether the atomic engine of a channel's cluster accepts a push or a take of the issuing core now (R156, R419). -/
def State.chanTurn (s : State) (a : Applied) (x : Node) : Bool := s.engineTurn (a.chanCluster x) (sourceAt (a.chanCluster x) s.myCore)

/-- That engine has accepted it. -/
def State.chanAccept (s : State) (a : Applied) (x : Node) : State :=
  s.engineAccept (a.chanCluster x) (sourceAt (a.chanCluster x) s.myCore)

/-- The bytes of an entry from `lo` on are written; whole lines are healed, and no tag stands on them (R158, R452). -/
def State.chanStore (s : State) (a : Applied) (x : Node) (ptr lo : Nat) (bs : List Byte) : State :=
  let ks := (List.range bs.length).map fun j => a.chanKey x ptr (lo + j)
  ((s.updMem (a.chanWrite x ptr lo bs)).dropTags ks).heal ks

/-- The key of the first byte of an entry that stands in a poisoned line, if one does (R158). -/
def State.chanPoisoned (s : State) (a : Applied) (x : Node) (ptr n : Nat) : Option Nat :=
  ((List.range n).map fun j => a.chanKey x ptr j).find? fun k => s.poisoned k 1

/-- The address of a byte of an entry as a fault gives it: in the core's own scratch window, or the physical one (DESIGN CHOICE, log 58). -/
def Applied.chanDatum (x : Node) (key : Nat) : Word :=
  match x.gutter with
  | some core => wordOf (ownWindow + (key - scratchKey core 0))
  | none => wordOf key

/-! ### kemit, ktake, kdone (R419-R421) -/

def kOk : Word := 0
def kFull : Word := 1
def kDone : Word := 2
def kHeld : Word := 3
def kNochan : Word := 4
def kBadarg : Word := 5

/-- The instance and node of the issuing phrase. -/
def State.myNest (s : State) : Option Applied := s.inst s.myPhr.inst

def State.emitStatus (s : State) (sd : SReg) (st : Word) : Out := .next (s.sendReply [(sd, st)] none)

/-- Where kemit goes: the output of the phrase's node, or with .farm the farm above it (R419). -/
def State.emitPort (s : State) (a : Applied) (farm : Bool) : Option Port :=
  if farm then (farmAbove a.nodes s.myPhr.node).map Port.farm else outputOf a.nodes s.myPhr.node

/-- The farm of a port. -/
def Applied.farmAt (a : Applied) (p : Option Port) : Option Node :=
  match p with
  | some (.farm f) => a.node f
  | _ => none

/-- Whether kemit waits for the engine of the deque or channel that it pushes to. -/
def State.emitHeld (s : State) (farm : Bool) (payload : Word) : Bool :=
  match s.myNest with
  | none => false
  | some a => match s.emitPort a farm with
    | some (.farm f) => (a.node f).any fun x => payload == 0 && (dequeWorker a x s.mem).any fun w => !s.dequeTurn (a.tailRecord x s.mem w)
    | some (.pipe p) => (a.node p).any fun x => s.chanCount a x < x.depth && !s.chanTurn a x
    | none => false

/-- A task is pushed to the deques of a farm. -/
def State.emitFarm (s : State) (sd : SReg) (a : Applied) (x : Node) (task payload : Word) : Out :=
  if payload != 0 then s.emitStatus sd kBadarg
  else match dequeWorker a x s.mem with
    | none => s.emitStatus sd kFull
    | some w =>
      let r := a.tailRecord x s.mem w
      let ks := (List.range 32).map (r + ·) ++ (List.range 8).map (a.dequeWord x w 8 + ·) ++ (List.range 8).map (a.claimAddr x 0 + ·)
      (((s.updMem fun m => dequePush a x m task w).dropTags ks).dequeAccept r).emitStatus sd kOk

/-- A task is pushed to a channel, with its payload (R419). -/
def State.emitPipe (s : State) (sd : SReg) (a : Applied) (x : Node) (task payload : Word) : Out :=
  let n := entryBytes x - 8
  if s.chanCount a x ≥ x.depth then s.emitStatus sd kFull
  else
    let ptr := (s.chanPtrs a x).1
    let push (bs : List Byte) (s : State) : Out :=
      (((s.chanStore a x ptr 0 (bytesOf task.toNat 8 ++ bs)).chanMove a x true).chanAccept a x).emitStatus sd kOk
    if payload == 0 then push (List.replicate n 0) s
    else match s.bulk s.cur .read payload.toNat n with
      | (.wait, s1) => .next s1
      | (.bad c sub d, s1) => s1.fault c sub d
      | (.go ps, s1) => push (s1.readPieces ps) s1

/-- R419: kemit, a release at device scope. -/
def execKemit (sd sa sb : SReg) (farm : Bool) (s : State) : Out :=
  if s.combWaits || s.emitHeld farm (s.r sb) then .next s
  else match s.myNest with
    | none => s.emitStatus sd kNochan
    | some a =>
      match s.emitPort a farm with
      | none => s.emitStatus sd kNochan
      | some (.farm f) => match a.node f with
        | some x => s.emitFarm sd a x (s.r sa) (s.r sb)
        | none => s.emitStatus sd kNochan
      | some (.pipe p) => match a.node p with
        | some x => s.emitPipe sd a x (s.r sa) (s.r sb)
        | none => s.emitStatus sd kNochan

/-- ktake is answered: a successful one is an acquire at device scope. -/
def State.takeStatus (s : State) (sd sf : SReg) (task st : Word) : Out :=
  .next (s.sendReply [(sd, task), (sf, st)] (if st == kOk then some .dev else none))

/-- Whether every phrase of the stage a of a pipe is DEAD (R420). -/
def stageEnded (ns : List Node) (x : Node) : Bool := partDone ns (nth 0 x.kids 0)

/-- Whether ktake waits for the engine of the deque or channel from which it takes. -/
def State.takeHeld (s : State) : Bool :=
  match s.myNest with
  | none => false
  | some a =>
    match inputOf a.nodes s.myPhr.node with
    | some (.farm f) => (a.node f).any fun x =>
      (heldRecord a x s.mem s.myPhr.noun).isNone && (dequePick a x s.mem (workerOf a.nodes f s.myPhr.node)).any fun r => !s.dequeTurn r
    | some (.pipe p) => (a.node p).any fun x => s.chanCount a x != 0 && !s.chanTurn a x
    | none => false

/-- Whether kdone waits for the engine of the deque whose record it frees. -/
def State.doneHeld (s : State) : Bool :=
  match s.myNest with
  | none => false
  | some a => match a.farmAt (inputOf a.nodes s.myPhr.node) with
    | none => false
    | some x => (heldRecord a x s.mem s.myPhr.noun).any fun r => !s.dequeTurn r

/-- A task is taken from the deques of a farm. -/
def State.takeFarm (s : State) (sd sf : SReg) (a : Applied) (f : Nat) (x : Node) : Out :=
  let noun := s.myPhr.noun
  if (heldRecord a x s.mem noun).isSome then s.takeStatus sd sf 0 kHeld
  else match dequePick a x s.mem (workerOf a.nodes f s.myPhr.node) with
    | some r =>
      let task := wordOf (readNat s.mem r 8)
      (((s.updMem (pokes [(r + 8, 8, noun.toNat), (r + 24, 1, recTaken)])).dropTags ((List.range 32).map (r + ·))).dequeAccept r).takeStatus
        sd sf task kOk
    | none =>
      let closed := match feederOf a.nodes f with
        | some p => stageEnded a.nodes p
        | none => true
      s.takeStatus sd sf 0 (if closed && dequesEmpty a x s.mem then kDone else kFull)

/-- A task is taken from a channel, with its payload. -/
def State.takePipe (s : State) (sd sf : SReg) (a : Applied) (x : Node) (dest : Word) : Out :=
  if s.chanCount a x == 0 then s.takeStatus sd sf 0 (if stageEnded a.nodes x then kDone else kFull)
  else
    let ptr := (s.chanPtrs a x).2
    let n := entryBytes x - 8
    let task := wordOf (natOf (a.chanBytes x s.mem ptr 0 8))
    let taken (s : State) : Out := ((s.chanMove a x false).chanAccept a x).takeStatus sd sf task kOk
    match s.chanPoisoned a x ptr (if dest == 0 then 8 else 8 + n) with
    | some k => s.fault .access 0x0A (Applied.chanDatum x k)
    | none =>
      if dest == 0 then taken s
      else match s.bulk s.cur .write dest.toNat n with
        | (.wait, s1) => .next s1
        | (.bad c sub d, s1) => s1.fault c sub d
        | (.go ps, s1) =>
          taken (((s1.updMem (writePieces ps (a.chanBytes x s1.mem ptr 8 n))).dropTags (pieceKeys ps)).heal (pieceKeys ps))

/-- R419: ktake. -/
def execKtake (sd sf sa : SReg) (s : State) : Out :=
  if s.takeHeld then .next s
  else match s.myNest with
  | none => s.takeStatus sd sf 0 kNochan
  | some a => match inputOf a.nodes s.myPhr.node with
    | none => s.takeStatus sd sf 0 kNochan
    | some (.farm f) => match a.node f with
      | some x => s.takeFarm sd sf a f x
      | none => s.takeStatus sd sf 0 kNochan
    | some (.pipe p) => match a.node p with
      | some x => s.takePipe sd sf a x (s.r sa)
      | none => s.takeStatus sd sf 0 kNochan

/-- R421: kdone frees the phrase's TAKEN record of the farm of its input. -/
def execKdone (sd : SReg) (s : State) : Out :=
  if s.doneHeld then .next s
  else match s.myNest with
  | none => s.emitStatus sd kNochan
  | some a => match inputOf a.nodes s.myPhr.node with
    | some (.farm f) => match a.node f with
      | some x => match heldRecord a x s.mem s.myPhr.noun with
        | some r => ((s.updMem fun m => dequeFree a x m r).dequeAccept r).emitStatus sd kOk
        | none => s.emitStatus sd kFull
      | none => s.emitStatus sd kNochan
    | _ => s.emitStatus sd kNochan

/-! ### Coroutines (R422, R423) -/

/-- Whether kyield is allowed: in the phrase of an instance with a COROUTINE root, at TL 0 and without a live aside. -/
def State.mayYield (s : State) : Bool :=
  s.rootIsCoroutine s.myPhr.inst && s.me.tl == 0 && s.myPhr.asides == 0

/-- kyield waits for its own stream, and for everything of the phrase and its other side to drain (R422, R471). -/
def State.yieldWaits (s : State) : Bool :=
  !s.me.queue.isEmpty || !s.allClear s.cur || !s.me.pathsZero || !((s.saveGroup (phraseOf s.cur)).all fun p => s.drained p)

/-- The other side of a phrase that yields stops (R36, R471). -/
def State.stopMate (s : State) (p : Nat) : State :=
  ((s.saveGroup p).filter fun x => x != p).foldl (fun s x => s.stopPhrase x) s

/-- The instance is suspended with a value: a resumer that it serves returns, and a waiting one is served (R423). -/
def State.suspend (s : State) (i : Nat) (v : Word) : State :=
  match s.inst i with
  | none => s
  | some a =>
    let s1 := match a.served with
      | some id => match s.joins.find? fun (j : Joiner) => j.id == id with
        | some j => s.endJoiner j v 0 0 0
        | none => s
      | none => s
    (s1.updInst i fun a => { a with suspended := some v, served := none }).serveResumer i

/-- R422: the phrase is saved into the instance record, and the instance is suspended with s[sa]. -/
def execKyield (sd sa : SReg) (s : State) : Out :=
  if !s.mayYield then s.illop (.kyield sd sa)
  else
    let p := phraseOf s.cur
    if s.yieldWaits then .next (s.stopMate p)
    else
      let i := s.myPhr.inst
      let v := s.r sa
      let rec' := ((s.inst i).map fun a => a.record + recordImage).getD 0
      let s1 := (s.updMe fun f => { f with yieldTo := sd }).adv
      let s2 := (s1.saveAt (s.saveGroup p) false rec').1
      .next (s2.suspend i v)

/-- R423: kresume. -/
def execKresume (sd sf sa sb : SReg) (s : State) : Out := s.sendWaiting (.resume (s.r sb)) (s.r sa) sd sf

/-! ### Cancelling (R424) -/

/-- R424: kcancel. -/
def execKcancel (sd sa : SReg) (s : State) : Out := .next (s.sendNoun .cancel (s.r sa) sd 0).adv

end Sys2Proof.Machine
end

