-- ==== Sys2Proof/Machine/Enqueue.lean ====
section
/-! DEFINITION. Enqueueing clauses (R264, R265) and waiting on the lane stream (R266, R267). -/
namespace Sys2Proof.Machine

/-- The clause address of slq (R264). -/
def State.clauseAddr (s : State) (sa : SReg) (off : BitVec 12) : Word := s.r sa + 16 * off.signExtend 64

/-- slq is held while the lane queue holds 32 entries (R166). -/
def State.slqFull (s : State) : Bool := (entries s.me.queue).length ≥ 32

/-- R264: enqueues a clause with the `n` constants that start at s[sd]. -/
def State.enqueue (s : State) (n : Nat) (sd sa : SReg) (off : BitVec 12) : Out :=
  let addr := s.clauseAddr sa off
  let c (j : Nat) : Word := if j < n then s.r (sd + BitVec.ofNat 6 j) else 0
  if addr.extractLsb' 0 4 != 0 then s.fault .align 0 addr
  else if s.slqFull then .next s
  else .next ((s.updMe fun f =>
    { f with queue := f.queue ++ [{ num := s.nextId, addr := addr, mask := f.exec, c0 := c 0, c1 := c 1, c2 := c 2, c3 := c 3 }] }).bump.adv)

/-- R264: no constants. -/
def execSlq0 (sa : SReg) (off : BitVec 12) (s : State) : Out := s.enqueue 0 0 sa off

/-- R264: one constant. -/
def execSlq1 (sd sa : SReg) (off : BitVec 12) (s : State) : Out := s.enqueue 1 sd sa off

/-- R264: two constants. -/
def execSlq2 (sd sa : SReg) (off : BitVec 12) (s : State) : Out := s.enqueue 2 sd sa off

/-- R264: three constants. -/
def execSlq3 (sd sa : SReg) (off : BitVec 12) (s : State) : Out := s.enqueue 3 sd sa off

/-- R264: four constants. -/
def execSlq4 (sd sa : SReg) (off : BitVec 12) (s : State) : Out := s.enqueue 4 sd sa off

/-- The header that a clause in the queue has, or will have when it starts: read as its fetch would read it (R236, R259). None
where the fetch would fail. -/
def State.headerOf (s : State) (k : Nat) (c : Clause) : Option ClauseHeader :=
  match c.header with
  | some h => some h
  | none =>
    let a := s.asker k
    let bytes (pa : Nat) : Option ClauseHeader := decodeHeader (BitVec.ofNat 96 (readNat s.mem pa 12))
    match s.resolveFetch a c.addr.toNat 12 with
    | .ok p => bytes p.key
    | .bad _ _ _ => none
    | .miss => match (walk s.unreadable s.mem (s.ctx a.ctx).ptab.toNat c.addr.toNat false true a.priv).1 with
      | .fill leaf size =>
        if leaf.getLsbD 10 then none
        else (physPiece a.core ((tlbOf a.ctx c.addr.toNat leaf size).addr c.addr.toNat) 12 0).bind fun p => bytes p.key
      | .fault _ _ => none

/-- Whether a prior clause names a flag of a mask as its SETA or SETB. -/
def headerNames (h : ClauseHeader) (mask : BitVec 12) : Bool :=
  (h.seta.any fun f => mask.getLsbD f.val) || (h.setb.any fun f => mask.getLsbD f.val)

/-- The condition of swaitf (R266). A clause whose header cannot be read still names every flag. -/
def State.swaitfDone (s : State) (mask : BitVec 12) : Bool :=
  mask == 0 || (s.flagsClear s.cur mask && !(s.me.queue.any fun c => match s.headerOf s.cur c with
    | some h => headerNames h mask
    | none => true))

/-- The condition of swaitp (R266): a bound of 4096 or more is met by every counter. -/
def State.swaitpDone (s : State) (path : PathSel) (bound : Nat) : Bool :=
  let under (p : Nat) : Bool := bound ≥ 4096 || s.me.pathCount p ≤ bound
  s.me.queue.isEmpty && (match path with
    | .ifv => under 0 | .ifl => under 1 | .ifp => under 2 | .iff => under 3 | .ifh => under 4
    | .all => (List.range 5).all under)

/-- The condition of slsync (R266). -/
def State.slsyncDone (s : State) : Bool := s.me.queue.isEmpty && s.allClear s.cur && s.me.pathsZero

/-- R266: waits for flags. -/
def execSwaitf (mask : BitVec 12) (s : State) : Out := .next (if s.swaitfDone mask then s.adv else s)

/-- R266: waits for a path counter. -/
def execSwaitp (path : PathSel) (sa : SReg) (s : State) : Out :=
  .next (if s.swaitpDone path (s.r sa).toNat then s.adv else s)

/-- R266: waits for the whole lane stream. -/
def execSlsync (s : State) : Out := .next (if s.slsyncDone then s.adv else s)

end Sys2Proof.Machine
end

