-- ==== Sys2Proof/Machine/Fabric.lean ====
section
/-! DEFINITION. The Kiljan fabric: slots and preambles (R499-R504), flits and the link protocol (R505-R507), link keys (R508),
and messages (R509-R512). -/
namespace Sys2Proof.Machine


/-- Whether a port sends and receives: it is up, and FABRIC is accepted (R503, R544). -/
def State.portUp (s : State) (p : Nat) : Bool := (s.fport p).up && s.accepted 3

/-! ### Counters (R226, R227) -/

def cFlittx : Nat := 0
def cFlitrx : Nat := 1
def cCrcerr : Nat := 2
def cTagerr : Nat := 3
def cReplay : Nat := 4
def cReinit : Nat := 5
def cLanedown : Nat := 6
def cMismatch : Nat := 7
def cKeygen : Nat := 8

/-- A counter advances by 1 and saturates at its width (R227). -/
def FPort.count (p : FPort) (c : Nat) : FPort :=
  let top := if c < 2 then 2 ^ 48 - 1 else 2 ^ 32 - 1
  { p with counters := tput c (min top (tget 0 p.counters c + 1)) p.counters }

def FPort.keygen (p : FPort) : Nat := tget 0 p.counters cKeygen

/-! ### Bytes of messages (R509) -/

def fabOpCode (o : FabOp) : Nat :=
  match o with
  | .read => 0x01 | .write => 0x02 | .atomic => 0x03 | .mcast => 0x04 | .noun => 0x05 | .wack => 0x10 | .rresp => 0x11 | .fail => 0x12

def fabOpOf (n : Nat) : Option FabOp :=
  [FabOp.read, .write, .atomic, .mcast, .noun, .wack, .rresp, .fail].find? fun o => fabOpCode o == n

def ropList : List Rop := [.rd, .wr, .add, .and, .or, .xor, .min, .max, .swap, .cas]
def ropCode (r : Rop) : Nat := ropList.findIdx fun x => x == r

def clsCode (c : MsgCls) : Nat := match c with | .auto => 0 | .direct => 1 | .relay => 2
def clsFrom (n : Nat) : MsgCls := if n == 1 then .direct else if n == 2 then .relay else .auto

/-- Which words of a lane the body of a message holds (log 37): its offset, its data, its compare value. -/
def bodyShape (o : FabOp) (r : Rop) : Bool × Bool × Bool :=
  match o with
  | .read => (true, false, false)
  | .write | .mcast => (true, true, false)
  | .atomic => (true, true, r == .cas)
  | .noun => (true, true, true)
  | .rresp => (false, true, true)
  | .wack | .fail => (false, false, false)

def laneBytes (sh : Bool × Bool × Bool) (l : FabLane) : List Byte :=
  (if sh.1 then bytesOf l.off.toNat 8 else []) ++ (if sh.2.1 then bytesOf l.data.toNat 8 else []) ++
  (if sh.2.2 then bytesOf l.cmp.toNat 8 else [])

def msgHeader (m : FabMsg) : List Byte :=
  bytesOf (fabOpCode m.op + at' (ropCode m.rop) 8 + at' (clsCode m.cls) 12 + at' (bit m.ord) 14 + at' (bit m.w64) 15 +
    at' m.win.toNat 16 + at' (bit m.sgn) 22 + at' (bit m.busy) 23 + at' m.sub.toNat 24) 4 ++
  bytesOf m.lanes.toNat 4 ++ bytesOf m.msgid 4 ++ bytesOf m.oseq 4 ++ bytesOf m.srcph.toNat 8 ++ bytesOf 0 8

def msgToBytes (m : FabMsg) : List Byte := msgHeader m ++ m.body.flatMap (laneBytes (bodyShape m.op m.rop))

def shapeBytes (sh : Bool × Bool × Bool) : Nat := 8 * (bit sh.1 + bit sh.2.1 + bit sh.2.2)

def laneFrom (sh : Bool × Bool × Bool) (lane : Nat) (bs : List Byte) : FabLane :=
  let w (i : Nat) : Word := wordOf (natOf ((bs.drop (8 * i)).take 8))
  ⟨lane, if sh.1 then w 0 else 0, if sh.2.1 then w (bit sh.1) else 0, if sh.2.2 then w (bit sh.1 + bit sh.2.1) else 0⟩

def lanesFrom (sh : Bool × Bool × Bool) : List Nat → List Byte → List FabLane
  | [], _ => []
  | l :: ls, bs => laneFrom sh l bs :: lanesFrom sh ls (bs.drop (shapeBytes sh))

/-- Whether a message has a body: the lanes of its mask. -/
def hasBody (o : FabOp) : Bool := o != .wack && o != .fail

/-- The whole length of a message, from its first 32 bytes. -/
def msgLength (bs : List Byte) : Option Nat :=
  if bs.length < 32 then none
  else (fabOpOf (natOf (bs.take 1))).map fun o =>
    let sh := bodyShape o (nth .rd ropList (fieldNat (natOf ((bs.drop 1).take 1)) 0 4))
    32 + shapeBytes sh * popCount (natOf ((bs.drop 4).take 4)) 32

/-- The message that bytes hold; the context is that of the noun SRCPH (R191). -/
def msgFrom (dst : Nat) (bs : List Byte) : Option FabMsg :=
  let at4 (i n : Nat) : Nat := natOf ((bs.drop i).take n)
  (fabOpOf (at4 0 1)).map fun o =>
    let mode := at4 1 1
    let rop := nth .rd ropList (fieldNat mode 0 4)
    let lanes := BitVec.ofNat 32 (at4 4 4)
    let ph := wordOf (at4 16 8)
    { op := o, rop := rop, cls := clsFrom (fieldNat mode 4 2), ord := mode.testBit 6, w64 := mode.testBit 7
      sgn := (at4 2 1).testBit 6, win := BitVec.ofNat 4 (at4 2 1), sub := BitVec.ofNat 8 (at4 3 1), busy := (at4 2 1).testBit 7
      lanes := lanes, msgid := at4 8 4, oseq := at4 12 4, srcph := ph, ctx := nounCtx ph, dst := dst
      body := if hasBody o then lanesFrom (bodyShape o rop) (lanesOf lanes) (bs.drop 32) else [] }

/-! ### Flits (R505) -/

def flitHeader (typ vc src dst lseq gen ctr : Nat) : List Byte :=
  bytesOf (typ + at' vc 8 + at' src 16 + at' dst 26 + at' lseq 48 + at' gen 64 + at' ctr 96) 16

def withCrc (bs : List Byte) : List Byte := bs ++ bytesOf (crc32 bs) 4

def crcGood (flit : List Byte) : Bool := flit.length == 256 && crc32 (flit.take 252) == natOf (flit.drop 252)

def flitNats (bs : List Byte) : List Nat := bs.map fun b => b.toNat
def flitBytes (ns : List Nat) : List Byte := ns.map fun n => BitVec.ofNat 8 n

/-- A flit under a key: the payload encrypted, the header authenticated. -/
def sealFlit (key : BitVec 256) (gen ctr : Nat) (header payload : List Byte) : List Byte :=
  let k := keyBytes key
  let nonce := gen * 2 ^ 32 + ctr
  let ct := flitBytes (gcmText k nonce 0 (flitNats (takeFill 0 220 payload)))
  withCrc (header ++ ct ++ flitBytes (gcmTag k nonce (flitNats header) (flitNats ct)))

/-- The payload of a flit whose tag is good under a key. -/
def openFlit (key : BitVec 256) (flit : List Byte) : Option (List Byte) :=
  let k := keyBytes key
  let header := flit.take 16
  let nonce := natOf ((header.drop 8).take 4) * 2 ^ 32 + natOf ((header.drop 12).take 4)
  let ct := flitNats ((flit.drop 16).take 220)
  if flitBytes (gcmTag k nonce (flitNats header) ct) == (flit.drop 236).take 16 then some (flitBytes (gcmText k nonce 0 ct)) else none

/-- KGEN of a flit. -/
def flitGen (flit : List Byte) : Nat := natOf ((flit.drop 8).take 4)

/-! ### The relay store and its advertisement (R184, R185, R504) -/

/-- Bytes held for a destination, of a list of destinations and bytes. -/
def relayBytes (q : List (Nat × Nat)) (d : Nat) : Nat := q.foldl (fun n m => if m.1 == d then n + m.2 else n) 0

def relayDests (q : List (Nat × Nat)) : List Nat := (q.map fun m => m.1).eraseDups

/-- Shared space of the relay store in use. -/
def relayShared (q : List (Nat × Nat)) : Nat := (relayDests q).foldl (fun n d => n + (relayBytes q d - 16384)) 0

def relayTotal : Nat := 24 * 2 ^ 20 - 640 * 16384

/-- What the store holds: the messages waiting, those sent and not yet acknowledged, and the parts of those being received. -/
def Fabric.relayed (f : Fabric) : List (Nat × Nat) :=
  (((f.outq ++ f.kept).filter fun m => m.relay).map fun m => (m.dest, msgBytes m.msg)) ++
  f.ports.flatMap fun e => (e.2.partMsg.filter fun x => x.1 % 2 == 0).map fun x => (x.2.1, x.2.2.length)

/-- Destinations whose free reserved space is below 16 × 256 × r. -/
def closedAt (q : List (Nat × Nat)) (r : Nat) : List Nat := (relayDests q).filter fun d => 16384 - relayBytes q d < 4096 * r

/-- RSV, SHR and the CLOSED list of a preamble. -/
def Fabric.advert (f : Fabric) : Nat × Nat × List Nat :=
  let q := f.relayed
  let r := ([4, 3, 2, 1].find? fun r => (closedAt q r).length ≤ 10).getD 0
  (r, (relayTotal - relayShared q) / 16 / 256, closedAt q r)

/-! ### Sending flits -/

/-- The active lanes of a slot: usable on both sides (R503). -/
def FPort.active (p : FPort) : List Nat := (List.range 4).filter fun i => (p.lanes &&& p.peerMask).getLsbD i

/-- The flit times that a slot holds after the preamble (R500). -/
def FPort.slotRoom (p : FPort) : Nat := 781 * p.active.length - 1

/-- The lane of the next flit: flits are dealt to the active lanes in turn (R500). -/
def FPort.nextLane (p : FPort) : Nat := nth 0 p.active ((781 * p.active.length - p.room) % max 1 p.active.length)

/-- Sends one flit for the first time. A port goes down before TXCTR would wrap (R505). DESIGN CHOICE: it sends no idle flit, of which the
manual does not say when one goes: unused flit times send nothing, and FLITTX counts none (log 63). -/
def State.sendFlit (s : State) (n typ vc dst lseq : Nat) (payload : List Byte) (msg : Option Nat) : State :=
  let p := s.fport n
  if p.txctr.toNat ≥ 2 ^ 32 - 1 then (s.updFport n fun p => { p with up := false }).raise 6
  else if p.room == 0 then s
  else
    let header := flitHeader typ vc s.moduleNo dst lseq p.keygen p.txctr.toNat
    let bytes := sealFlit p.txkey p.keygen p.txctr.toNat header payload
    s.updFport n fun p =>
      { p.count cFlittx with
        txctr := p.txctr + 1, room := p.room - 1, out := p.out ++ [bytes]
        lseq := if msg.isSome then p.lseq + 1 else p.lseq
        retry := match msg with
          | some id => p.retry ++ [{ lseq := BitVec.ofNat 16 lseq, bytes := bytes, lane := p.nextLane, msg := id }]
          | none => p.retry }

/-- ACK, NAK and KEYCLEAR go to the current peer. -/
def State.sendLink (s : State) (n typ lseq : Nat) (payload : List Byte) : State :=
  match (s.fport n).peer with
  | some q => s.sendFlit n typ 0 q lseq payload none
  | none => s

/-- The flits of a message (R505, R509). -/
def flitCount (bytes : Nat) : Nat := (bytes + 219) / 220

def State.sendFlits (s : State) (n vc dst id : Nat) : Nat → Bool → List Byte → State
  | 0, _, _ => s
  | k + 1, first, bs =>
    (s.sendFlit n (if first then 0x01 else 0x02) vc dst (s.fport n).lseq.toNat (bs.take 220) (some id)).sendFlits n vc dst id k false
      (bs.drop 220)

/-- How many slots from now a module is next met: on a port in its present slot, or at a coming index (R213). -/
def State.slotsTo (s : State) (d : Nat) : Option Nat :=
  let ups := s.fabric.ports.filter fun e => s.portUp e.1
  (List.range 41).find? fun k => ups.any fun e =>
    if k == 0 then e.2.peer == some d else e.2.peerAt ((e.2.index + k) % 40) == some d

/-- What `k` more flits to a destination take of the shared allowance of an advertisement, given those already used (R504). -/
def relayExtra (adv : Nat × Nat × List Nat) (used : Tbl Nat) (d k : Nat) : Nat := k - (adv.1 - min adv.1 (tget 0 used d))

def relayAllows (adv : Nat × Nat × List Nat) (used : Tbl Nat) (d k : Nat) : Bool :=
  !adv.2.2.contains d && tget 0 used 640 + relayExtra adv used d k ≤ adv.2.1

def relayUse (adv : Nat × Nat × List Nat) (used : Tbl Nat) (d k : Nat) : Tbl Nat :=
  tput 640 (tget 0 used 640 + relayExtra adv used d k) (tput d (tget 0 used d + k) used)

/-- The group of R186 in which a message may be sent in the current slot. -/
def State.sendGroupOf (s : State) (n : Nat) (m : OutMsg) : Option Nat :=
  let p := s.fport n
  let k := flitCount (msgBytes m.msg)
  if k > p.room then none
  else match p.peer with
    | none => none
    | some q =>
      if m.dest == q then some (if m.relay then 1 else 2)
      else if m.relay || m.msg.cls == .direct || !relayAllows p.adv p.used m.dest k then none
      else if m.msg.cls == .relay then some 3
      else match s.slotsTo m.dest with
        | some d => if d > 1 then some 3 else none
        | none => some 3

/-- The message that a port sends next (R186), each group oldest first. -/
def State.nextToSend (s : State) (n : Nat) : Option OutMsg :=
  if !s.portUp n then none
  else [1, 2, 3].findSome? fun g => s.fabric.outq.find? fun m => s.sendGroupOf n m == some g

/-- A port sends a message: its flits go out, and it is kept until it is answered or acknowledged. -/
def State.portSend (s : State) (n : Nat) : State :=
  match s.nextToSend n, (s.fport n).peer with
  | some m, some q =>
    let k := flitCount (msgBytes m.msg)
    let s1 := s.updFabric fun f => { f with outq := f.outq.filter fun x => x.id != m.id, kept := f.kept ++ [m] }
    let s2 := if m.dest == q then s1 else s1.updFport n fun p =>
      { p with used := relayUse p.adv p.used m.dest k }
    s2.sendFlits n (bit m.relay) m.dest m.id k true (msgToBytes m.msg)
  | _, _ => s

/-! ### Keys (R508) -/

/-- When the retry buffer holds no flit of an older generation, KEYCLEAR names the one before the current one. -/
def State.keyClearNow (s : State) (n : Nat) : State :=
  let p := s.fport n
  if p.cleared || p.retry.any (fun f => flitGen f.bytes != p.keygen) then s
  else
    let old := (p.keygen + 2 ^ 32 - 1) % 2 ^ 32
    (s.updFport n fun p => { p with cleared := true }).sendLink n 0x05 0 (bytesOf old 4)

/-- R508: the fabric manager's steps of a key change. A receiver holds two generations of a sender; the sender does not begin
another change until the last one has been cleared. -/
def execKeyChange (port : BitVec 4) (change : KeyChange) (s : State) : Out :=
  let n := port.toNat
  match change with
  | .receiver src gen key =>
    .next (s.updFport n fun p =>
      let own := (p.rx.filter fun k => k.src == src.toNat && k.gen != gen).take 1
      { p with rx := ⟨src.toNat, gen, key, false⟩ :: own ++ p.rx.filter fun k => k.src != src.toNat })
  | .sender gen key =>
    let p := s.fport n
    if !p.cleared || gen.toNat != (p.keygen + 1) % 2 ^ 32 then .next s
    else .next ((s.updFport n fun p =>
      { p with txkey := key, txctr := 0, cleared := false, counters := tput cKeygen gen.toNat p.counters }).keyClearNow n)

/-! ### Flits that come (R505, R506) -/

/-- A failing flit is answered with a NAK: the first one, and the one that was sent again and fails once more, which its LSEQ tells
(R506). -/
def State.flitFails (s : State) (n c lseq : Nat) : State :=
  let p := s.fport n
  let s1 := s.updFport n fun p => { p.count c with nacked := true }
  if p.nacked && lseq != p.rxlseq.toNat then s1 else s1.sendLink n 0x04 p.rxlseq.toNat []

/-- Fields of a flit's header (R505). -/
def flitType (flit : List Byte) : Nat := natOf (flit.take 1)
def flitVc (flit : List Byte) : Nat := fieldNat (natOf (flit.take 16)) 8 1
def flitSrc (flit : List Byte) : Nat := fieldNat (natOf (flit.take 16)) 16 10
def flitDst (flit : List Byte) : Nat := fieldNat (natOf (flit.take 16)) 26 10
def flitLseq (flit : List Byte) : Nat := fieldNat (natOf (flit.take 16)) 48 16

/-- What comes of a flit at a port: nothing where the port receives none, a failure that a counter counts, or its payload. -/
inductive FlitIn where
  | absent
  | bad (counter : Nat)
  | good (payload : List Byte)
  deriving DecidableEq, Repr

/-- The checks of a flit: its CRC, and its tag under the key that its KGEN names (R506, R508). -/
def State.flitIn (s : State) (n : Nat) (flit : List Byte) : FlitIn :=
  let p := s.fport n
  if !s.portUp n || p.peer.isNone then .absent
  else if !crcGood flit then .bad cCrcerr
  else match (p.rx.find? fun k => k.src == flitSrc flit && k.gen.toNat == flitGen flit).bind fun k => openFlit k.key flit with
    | none => .bad cTagerr
    | some payload => .good payload

/-- A flit has been accepted: it counts, and its sender is known to use its generation. -/
def FPort.hear (p : FPort) (flit : List Byte) : FPort :=
  { p.count cFlitrx with
    rx := p.rx.map fun k => if k.src == flitSrc flit && k.gen.toNat == flitGen flit then { k with sure := true } else k }

/-- A flit of a type is checked: one that fails is answered, and one of another type is ignored (R505). -/
def State.onFlit (s : State) (n typ : Nat) (flit : List Byte) (k : State) : Out :=
  match s.flitIn n flit with
  | .absent => .next s
  | .bad c => .next (s.flitFails n c (flitLseq flit))
  | .good _ => .next (if flitType flit == typ then k else s)

/-- R508: the receiver erases a generation of a sender. -/
def execKeyclear (port : BitVec 4) (src : List Byte) (gen : BitVec 32) (s : State) : Out :=
  s.onFlit port.toNat 0x05 src (s.updFport port.toNat fun p =>
    { p.hear src with rx := (p.hear src).rx.filter fun k => !(k.src == flitSrc src && k.gen == gen) })

/-! ### Replay (R506, R507) -/

/-- Messages enter their queues again, before those that stand there; one that finds no room is held, and those to its destination behind
it (R184). -/
def Fabric.requeue (f : Fabric) (ms : List OutMsg) : Fabric :=
  let r := ms.foldl (fun (x : List OutMsg × List OutMsg) m =>
    if m.relay || (!(x.2.any fun h => h.dest == m.dest) && ({ f with outq := x.1 ++ f.outq } : Fabric).admits m) then (x.1 ++ [m], x.2)
    else (x.1, x.2 ++ [m])) ([], [])
  { f with outq := r.1 ++ f.outq, held := r.2 ++ f.held }

/-- The replay fails: the buffer is discarded, the link restarts at the next slot, and the message layer sends again. -/
def State.replayFails (s : State) (n : Nat) : State :=
  let ids := ((s.fport n).retry.map fun f => f.msg).eraseDups
  let s1 := s.updFport n fun p => { p.count cReinit with retry := [], peer := none, room := 0 }
  (s1.updFabric fun f =>
    ({ f with kept := f.kept.filter fun m => !ids.contains m.id } : Fabric).requeue (f.kept.filter fun m => ids.contains m.id)).keyClearNow n

/-- The unacknowledged flits from a sequence number on go out again, as they are stored. -/
def FPort.resend (p : FPort) (from0 : Nat) (ours : RetryFlit → Bool) : FPort :=
  let fs := ((p.retry.filter fun f => f.lseq.toNat ≥ from0 && ours f).take p.room).map fun f => f.bytes
  { p with out := p.out ++ fs, room := p.room - fs.length }

/-- A NAK of a LSEQ. One marked BUSY counts nothing (R506). -/
def State.nakked (s : State) (n lseq : Nat) (busy : Bool) : State :=
  if !((s.fport n).retry.any fun f => f.lseq.toNat == lseq) then s
  else if busy then s.updFport n fun p => p.resend lseq fun _ => true
  else
    let s1 := s.updFport n fun p => { p with retry := p.retry.map fun f => if f.lseq.toNat == lseq then { f with fails := f.fails + 1 } else f }
    if (s1.fport n).retry.any fun f => f.fails ≥ 4 then s1.replayFails n
    else s1.updFport n fun p => (p.count cReplay).resend lseq fun _ => true

/-- R506: a NAK flit. -/
def execNak (port : BitVec 4) (lseq : List Byte) (busy : Bool) (s : State) : Out :=
  s.onFlit port.toNat 0x04 lseq ((s.updFport port.toNat fun p => p.hear lseq).nakked port.toNat (flitLseq lseq) busy)

/-- Whether a kept message is done with once its flits are acknowledged: a relayed message or an answer. -/
def OutMsg.oneWay (m : OutMsg) : Bool := m.relay || (match m.msg.op with | .wack | .rresp | .fail => true | _ => false)

/-- An ACK of a LSEQ frees its flit. -/
def State.acked (s : State) (n lseq : Nat) : State :=
  let ids := ((s.fport n).retry.filter fun f => f.lseq.toNat == lseq).map fun f => f.msg
  let s1 := s.updFport n fun p => { p with retry := p.retry.filter fun f => f.lseq.toNat != lseq }
  let open' (id : Nat) : Bool := (s1.fport n).retry.any fun f => f.msg == id
  (s1.updFabric fun f =>
    { f with kept := f.kept.filter fun m => !(m.oneWay && ids.contains m.id && !open' m.id) }).keyClearNow n

/-- R506: an ACK flit. -/
def execAck (port : BitVec 4) (lseq : List Byte) (s : State) : Out :=
  s.onFlit port.toNat 0x03 lseq ((s.updFport port.toNat fun p => p.hear lseq).acked port.toNat (flitLseq lseq))

/-- R506: the data period ends. -/
def execDataPeriodEnd (port : BitVec 4) (s : State) : Out :=
  let n := port.toNat
  let s1 := if (s.fport n).retry.isEmpty then s else s.replayFails n
  .next (s1.updFport n fun p => { p with peer := none, room := 0 })

/-- R507: a lane fails. -/
def execLaneFail (port : BitVec 4) (lane : BitVec 2) (s : State) : Out :=
  let n := port.toNat
  let p := s.fport n
  if !p.lanes.getLsbD lane.toNat then .next s
  else
    let lanes := p.lanes &&& ~~~BitVec.ofNat 4 (2 ^ lane.toNat)
    let s1 := (s.updFport n fun p => { p.count cLanedown with lanes := lanes }).raise 6
    if lanes == 0 then .next (s1.updFport n fun p => { p with up := false })
    else
      let was := p.active.length
      let now := (s1.fport n).active.length
      let moved := p.retry.any fun f => f.lane == lane.toNat
      let s2 := s1.updFport n fun q => { q with room := if was == 0 then 0 else q.room * now / was }
      if !moved || p.peer.isNone then .next s2
      else .next (s2.updFport n fun q =>
        let r := (q.count cReplay).resend 0 fun f => f.lane == lane.toNat
        { r with retry := r.retry.map fun f => if f.lane == lane.toNat then { f with lane := nth 0 q.active 0 } else f })

/-! ### Slots (R499-R503) -/

/-- The preamble's bytes (R502). -/
def State.preambleBytes (s : State) (n : Nat) : List Byte :=
  let p := s.fport n
  let a := p.given
  let closed := takeFill 0 10 ((a.2.2.take 10).map fun d => 0x8000 + d)
  withCrc (takeFill 0 252 (
    bytesOf p.plane 1 ++ bytesOf p.index 1 ++ bytesOf s.moduleNo 2 ++ bytesOf (p.lanes.toNat + at' (bit p.cleared) 7) 1 ++ bytesOf 0 1 ++
    bytesOf s.fabric.boot.toNat 2 ++ bytesOf a.1 2 ++ bytesOf a.2.1 2 ++ closed.flatMap fun d => bytesOf d 2))

/-- R499: a slot begins. At a cycle start the calendar bank switches, and lanes and ports that the fabric manager restores come up, ports in
full service only (R543). -/
def execSlotStart (port : BitVec 4) (index : BitVec 6) (s : State) : Out :=
  let n := port.toNat
  let s1 := s.updFport n fun p =>
    let p1 := if index == 0 then
      { p with bank := p.bank != p.switch, switch := false, lanes := p.lanes ||| p.restore, restore := 0
               up := p.up || (s.svc == .full && p.bring && (p.lanes ||| p.restore) != 0), bring := s.svc != .full && p.bring }
      else p
    { p1 with index := index.toNat, lseq := 0, rxlseq := 0, nacked := false, peer := none, peerMask := 0, used := [], taken := [], given := s.fabric.advert, room := 0 }
  if s1.portUp n && ((s1.fport n).peerAt index.toNat).isSome then
    .next (s1.updFport n fun p => { p.count cFlittx with out := p.out ++ [s1.preambleBytes n] })
  else .next s1

/-- R211, R212: firmware loads the inactive bank and writes SWITCH. -/
def execCalendarSwitch (port : BitVec 4) (epoch : BitVec 16) (entries : List (BitVec 32)) (s : State) : Out :=
  let bank : Tbl (BitVec 32) := (List.range 40).map fun i => (i, nth 0 entries i &&& 0x83FF)
  .next (s.updFport port.toNat fun p =>
    { p with switch := true, epoch := epoch, cal0 := if p.bank then bank else p.cal0, cal1 := if p.bank then p.cal1 else bank })

/-- R503: the fabric manager restores lanes, and brings a port up, at the next cycle start: an attempt on the port (R543). -/
def execPortBringUp (port : BitVec 4) (lanes : BitVec 4) (s : State) : Out :=
  .next (s.updFport port.toNat fun p => { p with tried := true, bring := true, restore := p.restore ||| lanes })

/-! ### A peer that has reset (R323, R503) -/

/-- The lanes of an access whose messages are among `ids` fail. -/
def Access.failMsgs (a : Access) (ids : List Nat) (sub : BitVec 8) (hits : LaneAcc → Bool) : Access :=
  { a with lanes := a.lanes.map fun l => match l.msg with
      | some i => if l.st == .sent && hits l && ids.any (sameMsg i) then
          { l with st := .failed .fabric sub (rmaDatum l.peer.toNat l.addr.toNat) } else l
      | none => l }

/-- A noun operation whose target's module has reset finds it DEAD (R24). -/
def State.nounLost (s : State) (o : NounOp) : State :=
  let s1 : State := { s with nouns := s.nouns.filter fun x => x.id != o.id }
  match o.act with
  | .join | .test => s1.answer o 0 (resultWord 0 stDead 0 0 0)
  | .resume _ => s1.answer o 0 (wordOf 1)
  | _ => s1.answerCode o 2

/-- A new boot epoch of a module ends every message outstanding to it, and its streams and message numbers start afresh. -/
def State.peerGone (s : State) (q : Nat) : State :=
  let f := s.fabric
  let mine (m : OutMsg) : Bool := m.dest == q && !m.relay
  let ids := ((f.kept ++ f.outq ++ f.held).filter mine).map fun m => m.id
  let s1 := s.updFabric fun f =>
    { f with
      kept := f.kept.filter fun m => !mine m
      outq := f.outq.filter fun m => !mine m
      held := f.held.filter fun m => !mine m
      oseq := f.oseq.filter fun e => e.2.1 != q
      arrived := f.arrived.filter fun e => e.1 != q
      expect := f.expect.filter fun e => e.2.1 != q
      waiting := f.waiting.filter fun h => h.src != q }
  let hit := (s1.accs.filter fun a => a.lanes.any fun l => l.st == .sent && l.msg.any fun i => ids.any (sameMsg i)).map fun a => a.id
  let s2 : State := { s1 with accs := s1.accs.map fun a => a.failMsgs ids 0x05 fun _ => true }
  let s3 := hit.foldl (fun (s : State) id => s.checkAccess id) s2
  (s3.nouns.filter fun o => o.msg.any fun i => ids.any (sameMsg i)).foldl (fun (s : State) o => s.nounLost o) s3

/-- The receive keys after a preamble of a sender. One with CLR erases the older generation, once the sender is known to have begun the
newer: until then its CLR may still be that of the change before (R508; log 63). -/
def keysAfter (q : Nat) (clr : Bool) (rx : List RxKey) : List RxKey :=
  let others := rx.filter fun k => k.src != q
  match rx.filter fun k => k.src == q with
  | [] => others
  | k :: ks => if !clr then { k with sure := true } :: ks ++ others else if k.sure then k :: others else k :: ks ++ others

/-- R502, R503, R213: a preamble is checked against the plane, the index and the active calendar. -/
def execPreamble (port : BitVec 4) (flit : List Byte) (s : State) : Out :=
  let n := port.toNat
  let p := s.fport n
  let at4 (i k : Nat) : Nat := natOf ((flit.drop i).take k)
  if !s.portUp n then .next s
  else if !crcGood flit then .next (s.updFport n fun p => p.count cCrcerr)
  else
    let q := fieldNat (at4 2 2) 0 10
    if fieldNat (at4 0 1) 0 4 != p.plane || at4 1 1 != p.index || p.peerAt p.index != some q then
      .next ((s.updFport n fun p => { p.count cMismatch with up := false }).raise 6)
    else
      let closed := ((List.range 10).map fun i => at4 (12 + 2 * i) 2).filterMap fun e =>
        if e.testBit 15 then some (fieldNat e 0 10) else none
      let boot := BitVec.ofNat 16 (at4 6 2)
      let s1 := match tfind s.fabric.boots q with
        | some b => if b == boot then s else s.peerGone q
        | none => s
      let s2 := s1.updFabric fun f => { f with boots := tput q boot f.boots }
      .next (s2.updFport n fun p =>
        let pc := p.count cFlitrx
        let p1 := { pc with peer := some q, peerMask := BitVec.ofNat 4 (at4 4 1), adv := (at4 8 2, at4 10 2, closed)
                            rx := keysAfter q ((at4 4 1).testBit 7) p.rx }
        { p1 with room := p1.slotRoom })

/-! ### Arrival (R510, R511) -/

/-- An answer to a message. -/
def answerTo (src : Nat) (m : FabMsg) (op : FabOp) (sub : BitVec 8) (busy : Bool) (body : List FabLane) (lanes : Mask) : FabMsg :=
  { op := op, rop := m.rop, cls := .auto, ord := false, w64 := m.w64, sgn := false, win := m.win, sub := sub, busy := busy
    lanes := lanes, msgid := 0, oseq := m.msgid, srcph := m.srcph, ctx := m.ctx, dst := src, body := body }

/-- The lanes of a read, write or atomic performed in ascending order: what each finds. -/
def State.arriveLanes (s : State) (x : ExpWin) (m : FabMsg) : List FabLane → List (Nat × WinOut) × State
  | [] => ([], s)
  | l :: ls =>
    let rop := match m.op with | .read => .rd | .write => .wr | _ => m.rop
    let (r, s1) := s.windowLane none x m.ctx rop m.sgn (if m.w64 then 8 else 4) l.off.toNat l.data.toNat l.cmp.toNat
    let (rs, s2) := s1.arriveLanes x m ls
    ((l.lane, r) :: rs, s2)

def failedUnder (rs : List (Nat × WinOut)) (sub : BitVec 8) : List Nat :=
  rs.filterMap fun r => match r.2 with | .fail x => if x == sub then some r.1 else none | _ => none

/-- The answers: the data or the acknowledgement of the lanes that succeed, and a failure for each sub-cause. -/
def laneAnswers (src : Nat) (m : FabMsg) (rs : List (Nat × WinOut)) : List FabMsg :=
  let good := rs.filterMap fun r => match r.2 with | .ok v => some (FabLane.mk r.1 0 (wordOf v) 0) | _ => none
  let fails := [(0x02 : BitVec 8), 0x04].filterMap fun sub => match failedUnder rs sub with
    | [] => none
    | ls => some (answerTo src m .fail sub false [] (maskOf ls))
  let ok := maskOf (good.map fun l => l.lane)
  if good.isEmpty then fails
  else (if m.op == .write then answerTo src m .wack 0 false [] ok else answerTo src m .rresp 0 false good ok) :: fails

/-- The arrival unit records that it has performed a message (R510), among the last 65536 of its source: those far behind it leave, and
those ahead of it stay. -/
def State.noteArrived (s : State) (src : Nat) (m : FabMsg) : State :=
  s.updFabric fun f =>
    let behind (e : Nat) : Nat := (m.msgid + 2 ^ 32 - e % 2 ^ 32) % 2 ^ 32
    { f with arrived := (src, m.msgid, []) :: f.arrived.filter fun e => e.1 != src || behind e.2.1 < 65536 || 2 ^ 31 ≤ behind e.2.1 }

/-- Performs a message through the export window that it met at its arrival, and answers it (R513). -/
def State.performMsg (s : State) (src : Nat) (x : ExpWin) (m : FabMsg) : State :=
  let s1 := s.noteArrived src m
  let reply (s : State) (as : List FabMsg) : State := as.foldl (fun (s : State) a => s.replyPeer src m.msgid a) s
  match m.op with
  | .read | .write | .atomic =>
    let (rs, s2) := s1.arriveLanes x m m.body
    reply s2 (laneAnswers src m rs)
  | .mcast =>
    match s1.windowWrites none x m.ctx (if m.w64 then 8 else 4) m.body with
    | (none, s2) => reply s2 [answerTo src m .wack 0 false [] m.lanes]
    | (some sub, s2) => reply s2 [answerTo src m .fail sub false [] m.lanes]
  | .noun =>
    match m.body.head? with
    | none => s1
    | some l => match nounActOf l.cmp l.data with
      | none => s1
      | some act =>
        { s1.bump with nouns := s1.nouns ++ [{ id := s1.nextId, src := .peer src m.msgid, ctx := m.ctx, act := act, noun := l.off
                                               granted := nounCtx l.off != m.ctx, sender := m.srcph }] }
  | .wack | .rresp | .fail => s1

/-- Whether a message belongs to an ordered stream (R511). -/
def isOrdered (m : FabMsg) : Bool := m.op == .noun || (m.ord && (m.op == .write || m.op == .mcast))

def State.expected (s : State) (ph : Word) (src : Nat) : Nat :=
  ((s.fabric.expect.find? fun e => e.1 == ph && e.2.1 == src).map fun e => e.2.2).getD 0

def State.bumpExpected (s : State) (ph : Word) (src : Nat) : State :=
  let n := s.expected ph src
  s.updFabric fun f => { f with expect := (ph, src, n + 1) :: f.expect.filter fun e => !(e.1 == ph && e.2.1 == src) }

/-- A member of a stream can be performed: every lower member has been, the noun operations of its phrase among them (R511). -/
def State.streamReady (s : State) (src : Nat) (m : FabMsg) : Bool :=
  m.oseq == s.expected m.srcph src && !s.nouns.any fun o => match o.src with
    | .peer q _ => q == src && o.sender == m.srcph && o.msg.isNone
    | _ => false

/-- A message has arrived (R510, R511). -/
def State.msgArrives (s : State) (src : Nat) (m : FabMsg) : State :=
  match s.fabric.arrived.find? fun e => e.1 == src && sameMsg e.2.1 m.msgid with
  | some e => e.2.2.foldl (fun (s : State) a => s.sendMsg src a) s
  | none =>
    if s.fabric.waiting.any fun h => h.src == src && sameMsg h.msg.msgid m.msgid then s
    else if !isOrdered m then s.performMsg src (s.expWin m.win.toNat) m
    else if s.streamReady src m then (s.performMsg src (s.expWin m.win.toNat) m).bumpExpected m.srcph src
    else if m.oseq < s.expected m.srcph src then s
    else if s.fabric.waiting.length < 4096 then s.updFabric fun f => { f with waiting := f.waiting ++ [⟨src, m, s.expWin m.win.toNat⟩] }
    else s.sendMsg src (answerTo src m .fail 0 true [] m.lanes)

/-- A held member of a stream whose turn has come. -/
def State.heldReady (s : State) : Option HeldMsg := s.fabric.waiting.find? fun h => s.streamReady h.src h.msg

def State.arriveHeld (s : State) : State :=
  match s.heldReady with
  | none => s
  | some h =>
    (((s.updFabric fun f => { f with waiting := f.waiting.filter fun x => x != h }).performMsg h.src h.win h.msg).bumpExpected h.msg.srcph h.src)

/-- R510: an arriving read. -/
def execRead (src : BitVec 10) (msg : FabMsg) (s : State) : Out := .next (if msg.op == .read then s.msgArrives src.toNat msg else s)

/-- R510: an arriving write, performed in OSEQ order when ordered. -/
def execWrite (src : BitVec 10) (msg : FabMsg) (s : State) : Out := .next (if msg.op == .write then s.msgArrives src.toNat msg else s)

/-- R510: an arriving atomic. -/
def execAtomic (src : BitVec 10) (msg : FabMsg) (s : State) : Out := .next (if msg.op == .atomic then s.msgArrives src.toNat msg else s)

/-- R325: an arriving multicast message. -/
def execMulticastWrite (src : BitVec 10) (msg : FabMsg) (s : State) : Out :=
  .next (if msg.op == .mcast then s.msgArrives src.toNat msg else s)

/-- R511: an arriving noun operation. -/
def execNounOperation (src : BitVec 10) (msg : FabMsg) (s : State) : Out := .next (if msg.op == .noun then s.msgArrives src.toNat msg else s)

/-! ### Answers at the sender -/

/-- A kept request leaves when no lane and no operation waits for its answer. -/
def State.dropKept (s : State) (msgid : Nat) : State :=
  let waits := s.accs.any (fun a => a.lanes.any fun l => l.st == .sent && l.msg.any (sameMsg msgid)) ||
    s.nouns.any fun o => o.msg.any (sameMsg msgid)
  if waits then s
  else s.updFabric fun f => { f with kept := f.kept.filter fun m => !(m.src == s.moduleNo && !m.relay && sameMsg m.id msgid) }

/-- Whether an answer is about a lane of an access: a member of a vmcast is one message whole (R325). -/
def answersLane (a : Access) (m : FabMsg) (l : LaneAcc) : Bool :=
  l.st == .sent && l.msg.any (sameMsg m.oseq) && (a.kind == .mcast || m.lanes.getLsbD l.lane)

/-- The accesses that an answer names. -/
def State.answered (s : State) (m : FabMsg) : List Access := s.accs.filter fun a => a.lanes.any (answersLane a m)

/-- The lanes that an answer names end as `f` says, and the access may end. -/
def State.endLanes (s : State) (m : FabMsg) (f : LaneAcc → LaneAcc) : State :=
  ((s.answered m).foldl (fun (s : State) a =>
    (s.putAcc { a with lanes := a.lanes.map fun l => if answersLane a m l then f l else l }).checkAccess a.id) s).dropKept m.oseq

/-- The noun operation that an answer is about. -/
def State.nounAsked (s : State) (m : FabMsg) : Option NounOp := s.nouns.find? fun o => o.msg.any (sameMsg m.oseq)

/-- R454: a write is acknowledged. -/
def execWriteAcknowledgement (_src : BitVec 10) (msg : FabMsg) (s : State) : Out :=
  .next (s.endLanes msg fun l => { l with st := .done })

/-- R510: data returns to the lanes, or the two values of a noun operation to its asker. -/
def execReadResponse (_src : BitVec 10) (msg : FabMsg) (s : State) : Out :=
  match s.nounAsked msg with
  | some o =>
    let l := msg.body.head?.getD ⟨0, 0, 0, 0⟩
    let word := if o.act == .test then setField l.cmp 32 5 (field l.cmp 32 5 &&& o.within) else l.cmp
    .next ((({ s with nouns := s.nouns.filter fun x => x.id != o.id } : State).answer o l.data word).dropKept msg.oseq)
  | none =>
    let value (l : LaneAcc) : Word := ((msg.body.find? fun x => x.lane == l.lane).map fun x => x.data).getD 0
    let s1 := (s.answered msg).foldl (fun (s : State) a =>
      (a.lanes.filter (answersLane a msg)).foldl (fun (s : State) l => s.putResult a l.lane (value l).toNat) s) s
    .next (s1.endLanes msg fun l => { l with st := .done })

/-- R323, R511: a failure; one marked BUSY makes the message layer send again. -/
def execFailureResponse (_src : BitVec 10) (msg : FabMsg) (s : State) : Out :=
  if msg.busy then
    .next (s.updFabric fun f =>
      let again (m : OutMsg) : Bool := m.src == s.moduleNo && !m.relay && sameMsg m.id msg.oseq
      ({ f with kept := f.kept.filter fun m => !again m } : Fabric).requeue (f.kept.filter again))
  else match s.nounAsked msg with
    | some o => .next ((({ s with nouns := s.nouns.filter fun x => x.id != o.id } : State).answerFault o msg.sub).dropKept msg.oseq)
    | none => .next (s.endLanes msg fun l => { l with st := .failed .fabric msg.sub (rmaDatum l.peer.toNat l.addr.toNat) })

/-- A whole message has come over a port: it is for this module, or it is relayed (R512). -/
def State.received (s : State) (vc src dst : Nat) (m : FabMsg) : State :=
  if dst != s.moduleNo then
    let o : OutMsg := { id := (src + 1) * 2 ^ 32 + m.msgid, dest := dst, msg := m, src := src, relay := true }
    s.updFabric fun f => { f with outq := f.outq ++ [o] }
  else
    let from0 := if vc == 1 then ((s.leafOf m.srcph).map fun a => moduleOfLoc (readLeaf s.mem a).word1.toNat).getD src else src
    let run (o : Out) : State := match o with | .next t => t | _ => s
    match m.op with
    | .wack => run (execWriteAcknowledgement (BitVec.ofNat 10 src) m s)
    | .rresp => run (execReadResponse (BitVec.ofNat 10 src) m s)
    | .fail => run (execFailureResponse (BitVec.ofNat 10 src) m s)
    | _ => s.msgArrives from0 m

/-! ### Receiving flits (R505, R506) -/

/-- The payload of an accepted flit joins the message that it belongs to; a whole message is delivered. -/
def State.assemble (s : State) (n : Nat) (first : Bool) (vc src dst : Nat) (payload : List Byte) : State :=
  let key := 2 * src + vc
  let p := s.fport n
  let old := if first then some [] else (p.partMsg.find? fun e => e.1 == key).map fun e => e.2.2
  let others := p.partMsg.filter fun e => e.1 != key
  match old with
  | none => s
  | some bs =>
    let all := bs ++ payload
    match msgLength all with
    | none => s.updFport n fun p => { p with partMsg := others }
    | some len =>
      if all.length < len then s.updFport n fun p => { p with partMsg := (key, dst, all) :: others }
      else
        let s1 := s.updFport n fun p => { p with partMsg := others }
        match msgFrom dst all with
        | some m => s1.received vc src dst m
        | none => s1

/-- A message flit is received: its CRC and tag are checked, and it is acknowledged, refused or discarded. -/
def State.receiveFlit (s : State) (n : Nat) (first : Bool) (flit : List Byte) : State :=
  let p := s.fport n
  let dst := flitDst flit
  let vc := flitVc flit
  let lseq := flitLseq flit
  let relays := vc == 0 && dst != s.moduleNo
  match s.flitIn n flit with
  | .absent => s
  | .bad c => s.flitFails n c lseq
  | .good payload =>
    if flitType flit != (if first then 1 else 2) then s
    else if lseq < p.rxlseq.toNat then s.sendLink n 0x03 lseq []
    else if lseq > p.rxlseq.toNat then
      if p.nacked then s else (s.updFport n fun p => { p with nacked := true }).sendLink n 0x04 p.rxlseq.toNat []
    else if relays && !relayAllows p.given p.taken dst 1 then
      (s.updFport n fun p => { p with nacked := true }).sendLink n 0x04 lseq [0x01]
    else
      ((s.updFport n fun p => { p.hear flit with
          rxlseq := p.rxlseq + 1, nacked := false
          taken := if relays then relayUse p.given p.taken dst 1 else p.taken }).sendLink n 0x03 lseq []).assemble
        n first vc (flitSrc flit) dst payload

/-- R506: the first flit of a message. -/
def execMessageFirst (port : BitVec 4) (flit : List Byte) (s : State) : Out := .next (s.receiveFlit port.toNat true flit)

/-- R506: a further flit of a message. -/
def execMessageContinuation (port : BitVec 4) (flit : List Byte) (s : State) : Out := .next (s.receiveFlit port.toNat false flit)

/-- R505, R226: an idle flit carries nothing, and counts as received. -/
def execIdle (port : PortFlit) (s : State) : Out :=
  s.onFlit port.port.toNat 0x06 port.flit (s.updFport port.port.toNat fun p => p.hear port.flit)

/-! ### Outbound queues -/

/-- Whether the oldest held message of a destination finds room (R184). -/
def State.admitReady (s : State) (d : Nat) : Bool := (s.fabric.held.find? fun m => m.dest == d).any fun m => s.fabric.admits m

/-- R184: space has freed, and the oldest held message of a destination enters its queue. -/
def execFabricQueueAdmit (dest : BitVec 10) (s : State) : Out :=
  match s.fabric.held.find? fun m => m.dest == dest.toNat with
  | none => .next s
  | some m =>
    if s.fabric.admits m then
      .next (s.updFabric fun f => { f with held := f.held.filter fun x => x.id != m.id, outq := f.outq ++ [m] })
    else .next s

end Sys2Proof.Machine
end

