-- ==== Sys2Proof/Machine/LaneCross.lean ====
section
/-! DEFINITION. Cross-lane instructions (R296-R302). -/
namespace Sys2Proof.Machine

/-- Class X5 (R242). -/
def latX5 (f : LaneFields) : Nat := latOf (isWide f) 5 7

/-- The value of VA in lane `j` as a cross-lane instruction reads it (R296). -/
def State.acrossA (s : State) (f : LaneFields) (j : Nat) : Nat := s.across f f.va (LType.bits f.ty) j

/-- R298: shuffle by a lane index in each lane. -/
def execVshuf (f : LaneFields) (s : State) : Out :=
  s.lanePure f (latX5 f) fun l => s.acrossA f (s.srcB f l % 32)

/-- The source lane of vshufx (R298); none where the lane keeps its own value. -/
def shufLane (mode k l : Nat) : Option Nat :=
  match mode with
  | 0 => some (l ^^^ k)
  | 1 => if l < k then none else some (l - k)
  | 2 => if l + k > 31 then none else some (l + k)
  | _ => some ((l + k) % 32)

/-- R298: shuffle by an offset. -/
def execVshufx (f : LaneFields) (s : State) : Out :=
  s.lanePure f (latX5 f) fun l => s.acrossA f ((shufLane (f.md.toNat % 4) f.imm.toNat l).getD l)

/-- R298: broadcast of lane k. -/
def execVbcast (f : LaneFields) (s : State) : Out := s.lanePure f (latX5 f) fun _ => s.acrossA f f.imm.toNat

/-- R299: the mask of active lanes that are not zero. -/
def State.ballot (s : State) (f : LaneFields) : Word := maskWord (lanesOf s.lmask) fun l => s.srcA f l != 0

/-- R299: the ballot. -/
def execVballot (f : LaneFields) (s : State) : Out := .next (s.scalarResult f (s.ballot f) 0 none)

/-- R299: whether any active lane is not zero. -/
def execVany (f : LaneFields) (s : State) : Out := .next (s.scalarResult f (if s.ballot f != 0 then 1 else 0) 0 none)

/-- R299: whether every active lane is not zero; 1 over no lanes. -/
def execVall (f : LaneFields) (s : State) : Out :=
  .next (s.scalarResult f (if s.ballot f == s.lmask.setWidth 64 then 1 else 0) 0 none)

/-! ### Scan and reduction (R300) -/

/-- The operation of two accumulated values (R300). -/
def combine (t : LType) (op : Nat) (sat : Bool) (x y : Nat) : Nat × Exc :=
  let g : Round := { mode := .rne }
  if t == .f32 || t == .f64 then
    let f := ltypeFmt t
    match op with
    | 0 => f.addOp g (f.value x) (f.value y)
    | 1 => f.minmax false x y
    | _ => f.minmax true x y
  else
    (match op with
     | 0 => fitInt t sat (typed t x + typed t y)
     | 1 => fitInt t false (min (typed t x) (typed t y))
     | 2 => fitInt t false (max (typed t x) (typed t y))
     | 3 => x &&& y
     | 4 => x ||| y
     | _ => x ^^^ y, 0)

/-- The identities of R300. -/
def identityOf (t : LType) (op : Nat) : Nat :=
  let w := LType.bits t
  let hi := if ltypeSigned t then 2 ^ (w - 1) - 1 else 2 ^ w - 1
  let lo := if ltypeSigned t then 2 ^ (w - 1) else 0
  if t == .f32 || t == .f64 then
    let f := ltypeFmt t
    match op with | 0 => 0 | 1 => f.infCode | _ => f.signBit + f.infCode
  else match op with
    | 1 => hi
    | 2 => lo
    | 3 => 2 ^ w - 1
    | _ => 0

/-- The running combination over lanes in increasing order: for each lane the value before it and the value with it, the whole,
and the exception bits. -/
def scanLanes (t : LType) (op : Nat) (sat : Bool) (x : Nat → Nat) :
    List Nat → Option Nat → Exc → List (Nat × Option Nat × Nat) × Option Nat × Exc
  | [], acc, e => ([], acc, e)
  | l :: ls, acc, e =>
    let r := match acc with
      | none => (x l, (0 : Exc))
      | some a => combine t op sat a (x l)
    let rest := scanLanes t op sat x ls (some r.1) (e ||| r.2)
    ((l, acc, r.1) :: rest.1, rest.2)

def State.scanOf (s : State) (f : LaneFields) : List (Nat × Option Nat × Nat) × Option Nat × Exc :=
  scanLanes f.ty (f.md.toNat % 8) (satBit f) (fun l => s.srcA f l) (lanesOf s.lmask) none 0

/-- Adds STATUS bits to a result just issued: they come without a trap. -/
def State.quietExc (s : State) (id : Nat) (e : Exc) : State :=
  { s with results := s.results.map fun r => if r.id == id then { r with status := r.status ||| e.setWidth 32 } else r }

/-- R300: vscan. -/
def execVscan (f : LaneFields) (s : State) : Out :=
  let sc := s.scanOf f
  let ident := identityOf f.ty (f.md.toNat % 8)
  let at1 (l : Nat) : Nat := match sc.1.find? fun e => e.1 == l with
    | some (_, before, with') => if f.md.getLsbD 3 then before.getD ident else with'
    | none => 0
  .next ((s.laneResult f (latX5 f) f.ty .fptrap (fun _ => 0) (fun l => { val := at1 l }) fun _ => []).quietExc s.nextId sc.2.2)

/-- The extension of a scalar result by TYPE (R302). -/
def scalarExt (t : LType) (x : Nat) : Word := if t == .i32 then BitVec.ofInt 64 (sext x 32) else wordOf x

/-- R300: vred. -/
def execVred (f : LaneFields) (s : State) : Out :=
  let sc := s.scanOf f
  .next (s.scalarResult f (scalarExt f.ty (sc.2.1.getD (identityOf f.ty (f.md.toNat % 8)))) sc.2.2 none)

/-- R301: one lane's value; 0 with an empty mask. -/
def execVtos (f : LaneFields) (s : State) : Out :=
  let ls := lanesOf s.lmask
  let j := if f.md.getLsbD 0 then ls.headD 0 else f.imm.toNat
  .next (s.scalarResult f (if ls.isEmpty then 0 else scalarExt f.ty (s.acrossA f j)) 0 none)

/-- R301: the bits of a uniform value over the lanes. -/
def execVfroms (f : LaneFields) (s : State) : Out :=
  let w := LType.bits f.ty
  let u := s.src f f.va 64 0
  let u32 := if f.md.getLsbD 1 then u / 2 ^ 32 else u % 2 ^ 32
  s.lanePure f (latX5 f) fun l => if u32.testBit l then (if f.md.getLsbD 0 then 2 ^ w - 1 else 1) else 0

end Sys2Proof.Machine
end

