-- ==== Sys2Proof/Machine/Launch.lean ====
section
/-! DEFINITION. The dispatcher (R23, R34, R38, R44, R45, R54, R93, R126, R162-R165, R415, R416), late instances (R163), and the
ready queues (R479). -/
namespace Sys2Proof.Machine

/-! ### The order of instances (R162) -/

/-- The keys of R162: class, deadline, stamp, queue, position. One whose first phrase is placed comes before all (R164). -/
def Applied.key (a : Applied) : List Nat :=
  let timed := a.packet.deadline != 0 && !a.late
  [bit (!a.anyPlaced), bit (!timed), if timed then a.packet.deadline.toNat else 0, a.stamp, a.lq, a.pos]

def lexLt : List Nat → List Nat → Bool
  | x :: xs, y :: ys => x < y || (x == y && lexLt xs ys)
  | [], _ :: _ => true
  | _, [] => false

/-- The head of a partition: the first instance in its order (R162, R164). -/
def State.headOfPart (s : State) (part : Nat) : Option Nat :=
  (s.applied.filter fun e => e.2.part == part && e.2.queued && !e.2.cancelled).foldl (fun h e =>
    match h with
    | none => some e.1
    | some i => match s.inst i with
      | some a => if lexLt e.2.key a.key then some e.1 else some i
      | none => some e.1) none

/-! ### Places (R22, R44, R126, R170) -/

/-- The clusters of a partition, in increasing order. -/
def State.clustersOf (s : State) (part : Nat) : List Nat := (List.range 64).filter fun c => s.clusterIn part c

/-- The cores of some clusters. -/
def coresOf (clusters : List Nat) : List Nat := clusters.flatMap fun c => (List.range 24).map fun k => c * 24 + k

/-- Whether a phrase that needs slots and lane registers can be placed on a core. -/
def State.coreRoom (s : State) (ctx core slots regs : Nat) : Bool :=
  s.coreFor ctx core && (s.core core).asideQ.isEmpty && slots ≤ (s.freeSlots core).length && s.regsUsed core + regs ≤ 2048

/-! ### One phrase (R23, R34, R38, R93, R109, R111) -/

/-- The course of phrase `i` of a node (R38): course numbers run on over the nodes of an instance (log 29). -/
def Applied.courseNum (a : Applied) (x : Node) (i : Nat) : Nat := x.cbase.getD a.courses + i / a.packet.coursesz

/-- The members of a launched course without their auxiliaries. -/
def Applied.courseMain (a : Applied) (x : Node) (i : Nat) : Nat :=
  min a.packet.coursesz (x.pcount - i / a.packet.coursesz * a.packet.coursesz)

/-- The region to which a phrase's course is bound, if it is (R40, R45). -/
def State.boundRegion (s : State) (i : Nat) (a : Applied) (x : Node) (n : Nat) : Option Nat :=
  if a.packet.coursesz == 0 || a.packet.place == 0 then none
  else (s.courses.find? fun c => c.isAt i (BitVec.ofNat 32 (a.courseNum x n))).bind fun c => c.cluster

/-- The courses of a node come into being with its first phrase: every phrase of the launch is a member from then on, those not yet
placed as well (R38). -/
def State.openCourses (s : State) (i : Nat) (a : Applied) (x : Node) : State :=
  if a.packet.coursesz == 0 then s
  else (List.range (a.courseSpan x)).foldl (fun s j =>
    let num := BitVec.ofNat 32 (x.cbase.getD a.courses + j)
    let m := a.courseMain x (j * a.packet.coursesz)
    let ranks := List.range (if x.aux then 2 * m else m)
    match s.courses.find? fun c => c.isAt i num with
    | some c => s.putCourse { c with absent := ranks, cluster := if c.members.isEmpty then none else c.cluster }
    | none => { s with courses := s.courses ++
        [{ inst := i, num := num, place := a.packet.place, members := [], prank := a.packet.prank, absent := ranks }] }) s

/-- A phrase of a launch takes its place in its course, and binds the course to its region (R38, R40). -/
def State.launchEnrol (s : State) (i : Nat) (a : Applied) (x : Node) (n p rank core : Nat) : State :=
  if a.packet.coursesz == 0 then s
  else
    let num := BitVec.ofNat 32 (a.courseNum x n)
    let s1 : State := match s.courses.find? fun c => c.isAt i num with
      | some c => s.putCourse { c with members := c.members ++ [(rank, p)], absent := c.absent.filter fun r => r != rank
                                       cluster := some (c.cluster.getD (regionOf a.packet.place core)) }
      | none => s
    s1.updPhr p fun q => { q with course := some num, rank := rank }

def lowMask (n : Nat) : Mask := BitVec.ofNat 32 (2 ^ n - 1)

/-- The lanes with which phrase `n` of a node is launched (R20, R415). Its auxiliary has the same lanes: for the last phrase the spec
gives LASTLANES and no count of its auxiliary (DESIGN CHOICE, log 70). -/
def Applied.lanesFor (a : Applied) (node : Nat) (x : Node) (n : Nat) : Nat :=
  if node == 0 && (x.kind == .func || x.kind == .coroutine) && n + 1 == x.pcount then a.packet.lastlanes else 32

/-- The phrase of a launch with its launch values (R111). -/
def State.newPhrase (s : State) (i : Nat) (a : Applied) (node : Nat) (x : Node) (n core : Nat) (noun : Word) : Phrase :=
  let c := s.ctx a.ctx
  { noun := noun, ctx := a.ctx, inst := i, instN := a.noun, node := node, index := n, core := core, present := true
    live := lowMask (a.lanesFor node x n), status := if a.late then statusLate else 0, tvec := c.tvec, tsave := c.tsave
    regs := x.regs, fsl := a.packet.fsl }

/-- The root fragment of a launched phrase: s3 the argument, s4 the index, s5 the side (R93). -/
def newRoot (p n : Nat) (x : Node) (side : Nat) (live : Mask) (pc : Word) (slot : Nat) : Frag :=
  let f : Frag := { phrase := p, live := true, slot := some slot, pc := pc, exec := live }
  ((f.setReg 3 x.arg).setReg 4 (wordOf n)).setReg 5 (wordOf side)

/-- One of a list, by an open choice where it has several (log 82). -/
def pickFrom (d : Nat) (l : List Nat) : Nat :=
  match l with
  | [] => 0
  | [a] => a
  | l => nth 0 l (Config.pick d l.length % l.length)

/-- A list from an open place on (log 82). -/
def turned (d : Nat) (l : List Nat) : List Nat :=
  match l with
  | [] => []
  | [a] => [a]
  | l => l.drop (Config.pick d l.length % l.length) ++ l.take (Config.pick d l.length % l.length)

/-- The slots that a phrase and its auxiliary take, of the free ones of a core: which ones, the manual does not say (R22; log 82). -/
def State.slotsFor (s : State) (core : Nat) : Nat × Nat :=
  let a := pickFrom (s.draws + 1) (s.freeSlots core)
  (a, pickFrom (s.draws + 2) ((s.freeSlots core).erase a))

/-- Phrase `n` of a node, and its auxiliary, come into being on a core, in two of its slots; none where no noun is free (R34, R196). -/
def State.spawn (s : State) (i : Nat) (a : Applied) (node : Nat) (x : Node) (n core : Nat) (slots : Nat × Nat) : Option State :=
  let loc (k : Nat) : Word := wordOf (locOf s.moduleNo core k)
  match s.allocNoun a.ctx 0 stRunning 0xF (loc slots.1) with
  | none => none
  | some (noun, s1) =>
    let p := s1.nextId
    let q := s1.newPhrase i a node x n core noun
    let base := (s1.claimCore a.ctx core).updNode i node fun y =>
      { y with placed := y.placed + 1, cbase := some (y.cbase.getD a.courses) }
    let base0 := if x.placed == 0 then base.openCourses i a x else base
    let base1 := if x.cbase.isSome || a.packet.coursesz == 0 then base0
      else base0.updInst i fun b => { b with courses := b.courses + a.courseSpan x }
    let main (mate : Option Nat) (s : State) : State :=
      ((s.setPhr p { q with mate := mate }).setFrag (fragKey p 0) (newRoot p n x 0 q.live x.entry slots.1)).launchEnrol i a x n p
        (n % max 1 a.packet.coursesz) core
    if !x.aux then some (main none base1.bump)
    else match base1.bump.allocNoun a.ctx 0 stRunning 0xF (loc slots.2) with
      | none => none
      | some (noun2, s2) =>
        let p2 := s2.nextId
        let q2 := { (s2.newPhrase i a node x n core noun2) with regs := 32, mate := some p, isAux := true }
        let s3 := main (some p2) s2.bump
        some ((((s3.setPhr p2 q2).setFrag (fragKey p2 0) (newRoot p2 n x 1 q2.live x.auxent slots.2)).launchEnrol i a x n p2
          (n % max 1 a.packet.coursesz + a.courseMain x n) core))

/-- The pipe whose channel stands by a leaf: its phrase 0 is that of stage b (R418). -/
def channelInto (ns : List Node) (node : Nat) : Option Nat :=
  (List.range ns.length).find? fun p => match ns[p]? with
    | some y => y.kind == .pipe && !leadsToFarm ns y && firstLeaf ns 20 (nth 0 y.kids 1) == node
    | none => false

/-- The farm and the worker whose phrase 0 a leaf's is (R181). -/
def workerInto (ns : List Node) (node : Nat) : Option (Nat × Nat) :=
  (List.range ns.length).findSome? fun f => match ns[f]? with
    | some y => if y.kind == .farm then
        (((List.range y.kids.length).find? fun w => firstLeaf ns 20 (nth 0 y.kids w) == node).map fun w => (f, w)) else none
    | none => none

/-- `n` pages of an instance's claims, from place `at0` on, stand in the vault of a core's cluster: where the claim made other pages, they
are exchanged for pages of that vault if the pool has them, with what they hold (R181, R418; log 75). -/
def State.housePages (s : State) (i at0 n core : Nat) : State :=
  match s.inst i with
  | none => s
  | some a =>
    let old := (a.pages.drop at0).take n
    let pool := (s.part a.part).pool
    let here (p : Nat) : Bool := vaultCluster p == clusterOf core
    let new := (pool.filter here).take n
    if old.all here || new.length < n then s
    else
      let s1 := (old.zip new).foldl (fun s e => (s.dropRange e.2 0x1000).updMem fun m => writeBytes e.2 (readBytes m e.1 0x1000) m) s
      (s1.updPart a.part fun t => { t with pool := (pool.filter fun p => !new.contains p) ++ old }).updInst i
        fun a => { a with pages := a.pages.take at0 ++ new ++ a.pages.drop (at0 + n) }

/-- A channel stands by the core of phrase 0 of stage b, and a worker's deque by that of the worker (R181, R418). -/
def State.housed (s : State) (i node core : Nat) : State :=
  match s.inst i with
  | none => s
  | some a =>
    let s1 := match (channelInto a.nodes node).bind a.node with
      | some y => s.housePages i y.page (y.pages - bit y.handler.isSome) core
      | none => s
    match workerInto a.nodes node with
    | some (f, w) => match a.node f with
      | some y => s1.housePages i (y.page + 1 + 3 * w) 3 core
      | none => s1
    | none => s1

/-- The cluster preferred for a farm's copy: position w mod m in the list of the partition's clusters (R416). -/
def farmCluster (ns : List Node) (clusters : List Nat) : Nat → Nat → Option Nat
  | 0, _ => none
  | fuel + 1, n => match ns[n]? with
    | none => none
    | some x => match x.parent with
      | none => none
      | some p =>
        if kindAt ns p == .farm && (match ns[p]? with | some y => y.kids.contains n | none => false) then
          clusters[x.copyNo % max 1 clusters.length]?
        else farmCluster ns clusters fuel p

/-- The cores of a list on which the next phrase of a node can be placed: those of the cluster preferred for it, if there are any
(R416). -/
def State.coresOpen (s : State) (i : Nat) (a : Applied) (node : Nat) (x : Node) (cores : List Nat) : List Nat :=
  let inRegion (c : Nat) : Bool := match s.boundRegion i a x x.placed with
    | some r => regionOf a.packet.place c == r
    | none => true
  let open' := cores.filter fun c => inRegion c && s.coreRoom a.ctx c (if x.aux then 2 else 1) (x.regs + if x.aux then 32 else 0)
  let best := open'.filter fun c => farmCluster a.nodes (s.partClusters a.part) 20 node == some (clusterOf c)
  if best.isEmpty then open' else best

/-- Places the next phrase of a node on a core of a list that can take it: on which one, and in which slots, the manual leaves open
(R416; log 82). -/
def State.placeNext (s : State) (i node : Nat) (cores : List Nat) : Option State :=
  match s.inst i, s.node i node with
  | some a, some x =>
    let open' := s.coresOpen i a node x cores
    if x.placed ≥ x.pcount || open'.isEmpty then none
    else
      let c := pickFrom s.draws open'
      let slots := s.slotsFor c
      (s.drawn.drawn.drawn.spawn i a node x x.placed c slots).map fun s1 => if x.placed == 0 then s1.housed i node c else s1
  | _, _ => none

/-- Places `k` phrases of a node on the cores of a list, all or none. -/
def State.placeMany (s : State) (i node : Nat) (cores : List Nat) : Nat → Option State
  | 0 => some s
  | k + 1 => (s.placeNext i node cores).bind fun s1 => s1.placeMany i node cores k

def firstSome {α β : Type} (f : α → Option β) : List α → Option β
  | [] => none
  | x :: xs => match f x with
    | some y => some y
    | none => firstSome f xs

/-- The regions of a placement within a list of cores. -/
def regionsIn (place : Nat) (cores : List Nat) : List (List Nat) :=
  if place == 0 then [cores] else ((cores.map (regionOf place)).eraseDups).map fun r => cores.filter fun c => regionOf place c == r

/-- With CORES, every course of a node is placed within one region, all at once (R54): `k` phrases are left. -/
def State.placeCourses (s : State) (i node : Nat) (cores : List Nat) : Nat → Nat → Option State
  | 0, _ => some s
  | fuel + 1, k =>
    if k == 0 then some s
    else match s.inst i, s.node i node with
      | some a, some x =>
        let g := if a.packet.coursesz == 0 || a.packet.place == 0 then k else min k (a.courseMain x x.placed)
        let regions := if a.packet.coursesz == 0 then [cores] else regionsIn a.packet.place cores
        (firstSome (fun r => s.placeMany i node r g) regions).bind fun s1 => s1.placeCourses i node cores fuel (k - g)
      | _, _ => none

/-! ### Parts (R415, R416, R418) -/

/-- The cores of a partition; a gated cluster takes no phrase. -/
def State.coresFor (s : State) (a : Applied) : List Nat := coresOf (s.clustersOf a.part)

/-- The pipe whose two stages are leaves, with a node as its stage a (R416). -/
def leafPipe (ns : List Node) (node : Nat) : Option (Nat × Nat) :=
  match ns[node]? with
  | none => none
  | some x => match x.parent with
    | none => none
    | some p => match ns[p]? with
      | none => none
      | some y =>
        let b := nth 0 y.kids 1
        if y.kind == .pipe && nth 0 y.kids 0 == node && y.kids.length == 2 && (kindAt ns b == .func || kindAt ns b == .coroutine) then some (p, b)
        else none

/-- Whether g7 of a core is the channel of a pipe that runs. -/
def State.channelUsed (s : State) (core : Nat) : Bool :=
  s.applied.any fun e => e.2.nodes.any fun x => x.gutter == some core && x.st == .running

/-- The channel of a pipe on one core: gutter g7, declared before either stage starts (R418). -/
def State.declareChannel (s : State) (i pipe core : Nat) : State :=
  match s.node i pipe with
  | none => s
  | some x =>
    if ringBytes x ≤ 0x20000 && !s.channelUsed core then
      let logn := (List.range 9).findIdx fun k => 2 ^ k == x.depth
      let d := wordOf (0x60000 - ringBytes x + at' logn 32 + at' x.logsz 36 + at' 1 43)
      (s.putGutter core 7 { desc := d }).updNode i pipe fun x => { x with gutter := some core }
    else s

/-- A node's part has been placed whole. The instance leaves its launch queue once no phrase of the parts started so far waits for a
place; parts that start later do not hold it there (DESIGN CHOICE, log 70). -/
def State.partPlaced (s : State) (i node : Nat) : State :=
  match s.inst i, s.node i node with
  | some a, some x =>
    if x.placed < x.pcount then s
    else
      let s1 := (s.updPart a.part fun t => { t with parts := t.parts.filter fun y => y != (i, node) }).updInst i
        fun a => { a with started := a.started.filter fun n => n != node }
      -- the last phrase that waits for its first start leaves the launch queue (R165)
      if a.queued && !((s1.part a.part).parts.any fun y => y.1 == i) then
        (s1.updLq a.lq fun q => { q with items := q.items.filter fun y => y != i }).updInst i fun a => { a with queued := false }
      else s1
  | _, _ => s

/-- Both leaf stages of a pipe on one core or one cluster, if all their phrases fit there (R416). -/
def State.placePair (s : State) (i a b pipe ca cb : Nat) (cores : List Nat) : Option State :=
  let both (s : State) (cs : List Nat) : Option State := (s.placeMany i a cs ca).bind fun s1 => s1.placeMany i b cs cb
  match firstSome (fun c => (both s.drawn [c]).map fun s1 => s1.declareChannel i pipe c) (turned s.draws cores) with
  | some s1 => some ((s1.partPlaced i a).partPlaced i b)
  | none => match firstSome (both s) (regionsIn 1 cores) with
    | some s1 => some ((s1.partPlaced i a).partPlaced i b)
    | none => none

/-- Places fall to a part: a pair of pipe stages together, all of a part with CORES, or its next phrase (R415, R416). -/
def State.placePart (s : State) (i node : Nat) : Option State :=
  match s.inst i, s.node i node with
  | some a, some x =>
    let cores := s.coresFor a
    let left := x.pcount - x.placed
    let alone : Option State :=
      if a.packet.cores then (s.placeCourses i node cores (left + 1) left).map fun s1 => s1.partPlaced i node
      else (s.placeNext i node cores).map fun s1 => s1.partPlaced i node
    match leafPipe a.nodes node with
    | some (p, b) =>
      match a.node b with
      | some y =>
        if x.placed == 0 && y.placed == 0 && y.st == .running then
          match s.placePair i node b p x.pcount y.pcount cores with
          | some s1 => some s1
          | none => alone
        else alone
      | none => alone
    | none => alone
  | _, _ => none

/-! ### The head (R164, R412) -/

/-- The claims of the head are made, or it dies (R412, R413); through which die the dispatcher reads the verb table is open
(log 11). -/
def State.claimHead (s : State) (i : Nat) (a : Applied) : Option State :=
  let die := some (Config.pick s.draws 4 % 4)
  match s.claim die a.ctx a.part a.packet with
  | .short => none
  | .bad => some (s.instDead i xFailed 1 0)
  | .made ns pages pool =>
    some (s.keepVerbs die a.ctx (ns.map (·.name))
      (((s.recordNest a.ctx a.record ns).updPart a.part fun t => { t with pool := pool }).updInst i fun a => { a with claimed := true, nodes := ns, pages := pages }))

/-- Whether the root of an instance has been started. -/
def Applied.begun (a : Applied) : Bool := match a.nodes[0]? with | some x => x.st != .idle | none => false

/-- The parts that wait for places in their order: those that started after their instance's first placement, and then the head's
(R415). -/
def State.waitingParts (s : State) (part : Nat) (head : Option Nat) : List (Nat × Nat) :=
  let ps := (s.part part).parts
  let early (y : Nat × Nat) : Bool := ((s.inst y.1).map (·.queued)).getD false && ((s.node y.1 y.2).map (·.early)).getD false
  (ps.filter fun y => !early y) ++ ps.filter fun y => early y && head == some y.1

/-- Whether a noun names a saved or swapped phrase. -/
def State.isSaved (s : State) (n : Word) : Bool :=
  match s.findLeaf n with
  | some (_, l) => (l.state == stSaved || l.state == stSwapped) && l.gen == nounGen n
  | none => false

/-- Whether a noun names a saved phrase whose image is ready and restores by itself. -/
def State.autoReady (s : State) (n : Word) : Bool :=
  match s.findLeaf n with
  | some (_, l) =>
    s.isSaved n && (readNat s.mem l.word1.toNat 8).testBit 6 && (readNat s.mem (l.word1.toNat + 0x68) 1).testBit 2
  | none => false

/-- Whether a waiting phrase is restored when its turn comes: it is still saved and ready, or a resumer is being served (R423, R479). -/
def State.mayRestore (s : State) (n : Word) : Bool :=
  s.autoReady n || (s.isSaved n && s.phrases.any fun e => e.2.noun == n && (s.inst e.2.inst).any fun a => a.served.isSome)

/-- A ready phrase is restored where its course allows, on a core and in a slot that the manual leaves open (R40, R45, R479; log 82). -/
def State.restoreReady (s : State) (part : Nat) (n : Word) : Option State :=
  if s.mayRestore n then
    firstSome (fun (c : Nat) =>
      if s.regionOk n c && (s.core c).asideQ.isEmpty && !(s.freeSlots c).isEmpty then
        s.drawn.drawn.restoreAt n c (pickFrom (s.draws + 1) (s.freeSlots c))
      else none) (turned s.draws (coresOf (s.clustersOf part)))
  else none

/-- One action of a partition's dispatcher: a restore, a part's phrases, or the head's claims or start; none where nothing can be
done. -/
def State.dispatchStep (s : State) (part : Nat) : Option State :=
  let served := firstSome (fun n => (s.restoreReady part n).map fun s1 =>
    s1.updPart part fun t => { t with restores := t.restores.filter fun m => m != n && s.mayRestore m }) (s.part part).restores
  match served with
  | some s1 => some s1
  | none =>
    let head := s.headOfPart part
    match firstSome (fun y => s.placePart y.1 y.2) (s.waitingParts part head) with
    | some s1 => some s1
    | none => match head with
      | none => none
      | some i => match s.inst i with
        | none => none
        | some a =>
          if !a.claimed then s.claimHead i a
          else if !a.begun then some (s.startNode i 20 0 a.packet.arg)
          else none

/-- R164: the dispatcher of a partition acts. -/
def execDispatch (part : Nat) (s : State) : Out := .next ((s.dispatchStep part).getD s)

/-! ### Late instances (R163) -/

/-- Whether DTIME has reached the deadline of an instance without a placed phrase. -/
def State.isLate (s : State) (a : Applied) : Bool :=
  a.packet.deadline != 0 && !a.late && a.queued && !a.anyPlaced && a.packet.deadline.toNat ≤ s.dtime

/-- R163: an instance becomes late, or is dropped. -/
def execInstanceLate (inst : Nat) (s : State) : Out :=
  match s.inst inst with
  | none => .next s
  | some a =>
    if !s.isLate a then .next s
    else if a.packet.droplate then .next (s.instDead inst xLate 0 0)
    else .next (s.updInst inst fun a => { a with late := true })

/-! ### The ready queue (R479) -/

/-- A ready phrase waits for a place. -/
def State.queueRestore (s : State) (part : Nat) (n : Word) : State :=
  if s.autoReady n then
    s.updPart part fun t => { t with restores := if t.restores.contains n then t.restores else t.restores ++ [n] }
  else s

/-- Entries of a ready queue not yet consumed. -/
def State.readyCount (s : State) (part : Nat) : Nat :=
  let a := (s.part part).ready.toNat
  if a == 0 then 0 else readNat s.mem a 8 - readNat s.mem (a + 8) 8

/-- R479: the dispatcher consumes an entry of the ready queue. -/
def execReadyQueueServe (part : Nat) (s : State) : Out :=
  if s.readyCount part == 0 then .next s
  else
    let a := (s.part part).ready.toNat
    let cons := readNat s.mem (a + 8) 8
    let n := wordOf (readNat s.mem (a + 128 + 8 * (cons % 1024)) 8)
    .next ((s.updMem (writeNat (a + 8) 8 (cons + 1))).queueRestore part n)

/-- Whether OVERFLOW is set and the queue empty. -/
def State.scanDue (s : State) (part : Nat) : Bool :=
  let a := (s.part part).ready.toNat
  a != 0 && s.readyCount part == 0 && (readNat s.mem (a + 16) 1).testBit 0

/-- The phrase nouns of a context whose images are ready, in increasing index. -/
def State.readyNouns (s : State) (ctx : Nat) : List Word :=
  ((reachedLeaves s.mem (s.ctx ctx).ntab.toNat).map fun e => mkNoun 0 ctx e.2.gen e.1).filter s.autoReady

/-- R479: OVERFLOW is cleared, and the contexts of the partition are scanned in increasing number. -/
def execReadyQueueScan (part : Nat) (s : State) : Out :=
  if !s.scanDue part then .next s
  else
    let a := (s.part part).ready.toNat
    let s1 := s.updMem fun m => writeNat (a + 16) 1 (readNat m (a + 16) 1 - 1) m
    let cs := (s1.contexts.filter fun e => e.2.resident && s1.partOf e.1 == part).map (·.1)
    .next ((cs.flatMap s1.readyNouns).foldl (fun s n => s.queueRestore part n) s1)

end Sys2Proof.Machine
end

