-- ==== Sys2Proof/Machine/Ports.lean ====
section
/-! DEFINITION. Noun ports (R394-R398, R489), warm restarts (R490, R491), and the lease (R486-R488). -/
namespace Sys2Proof.Machine

/-! ### Commands of a noun port (R394-R398) -/

/-- The operation of a command's OP (R395). -/
def npAct (c : NpCmd) : Option NounAct :=
  match c.op.toNat with
  | 0x10 => some .wake
  | 0x11 => some (.signal (c.value.setWidth 16))
  | 0x12 => some (.deposit c.reg c.value c.force)
  | 0x13 => some .join
  | 0x14 => some .test
  | _ => none

/-- A reserved OP, a nonzero reserved bit, or an address that is not aligned as R394 and R395 ask (log 33). -/
def npBad (c : NpCmd) : Bool :=
  c.rsvd || field c.caddr 0 4 != 0 || ((npAct c).isNone && c.op != 0x01 && c.op != 0x02 && c.op != 0x20) ||
  (c.op == 0x01 && field c.value 0 7 != 0)

/-- The end of a command with a status (R396, R397). -/
def State.npEnd (s : State) (hp : Bool) (np slot : Nat) (c : NpCmd) (result : Word) (status : Nat) : State :=
  s.complete hp np slot c.tag c.caddr result 0 0 status

/-- BIND: a host-thread noun with state HOST and the rights WAKE, SIGNAL, DEPOSIT and JOIN (R395). -/
def State.npBind (s : State) (hp : Bool) (np slot : Nat) (c : NpCmd) : State :=
  match s.allocNoun (s.nport (portIndex hp np)).ctx 1 stHost 0xF c.value with
  | none => s.npEnd hp np slot c 0 codeNores
  | some (n, s1) => (s1.updNport (portIndex hp np) fun p => { p with bound := some n }).npEnd hp np slot c n 0

/-- A host-thread noun becomes DEAD, unless it is already. -/
def State.endThread (s : State) (n : Word) (xstat : Nat) (exit : Word) : State :=
  match s.findLeaf n with
  | some (_, l) => if l.state == stDead || l.gen != nounGen n then s else s.nounDead n xstat 0 exit
  | none => s

/-- Whether a packet lies in a page that its context's host port does not translate yet (R149). -/
def State.packetWaits (s : State) (p : NounPort) (c : NpCmd) : Bool :=
  let side := s.hportOf p.ctx
  c.op == 0x20 && !npBad c && p.bound.isSome && (s.ctx p.ctx).resident && !p.pfail && !(s.hostPort side).gone &&
    !s.atcHit side p.ctx (pageOf c.value) false

/-- APPLY of a packet in host memory (R161, R210, R395); a read that fails gives PKTREAD (R397). -/
def State.npApply (s : State) (hp : Bool) (np slot : Nat) (c : NpCmd) : State :=
  let p := s.nport (portIndex hp np)
  let side := s.hportOf p.ctx
  if p.pfail || (s.hostPort side).gone then
    (s.updNport (portIndex hp np) fun p => { p with pfail := false }).npEnd hp np slot c 0 codePktread
  else match packetOf (readBytes s.mem (s.hostAddr side p.ctx c.value.toNat) 128) with
  | none => s.npEnd hp np slot c 0 codeBadpkt
  | some k => match s.apply none (s.nport (portIndex hp np)).ctx k false with
    | (.ok n, s1) => s1.npEnd hp np slot c n 0
    | (.error e, s1) => s1.npEnd hp np slot c 0 e

/-- One command takes effect (R395, R397). The nouns of a killed context still answer (R440). -/
def State.npDo (s : State) (hp : Bool) (np slot : Nat) (c : NpCmd) : State :=
  let p := s.nport (portIndex hp np)
  if npBad c then s.npEnd hp np slot c 0 0x09
  else if (c.op == 0x01) == p.bound.isSome || !((s.ctx p.ctx).resident || ((npAct c).isSome && (s.ctx p.ctx).killed)) then
    s.npEnd hp np slot c 0 0x08
  else match npAct c with
    | some a =>
      ({ s with nouns := s.nouns ++ [{ id := s.nextId, src := .port hp np slot c.tag c.caddr, ctx := p.ctx, act := a, noun := c.noun }] }
        : State).bump
    | none =>
      if c.op == 0x01 then s.npBind hp np slot c
      else if c.op == 0x02 then
        ((s.endThread (p.bound.getD 0) xExited c.value).updNport (portIndex hp np) fun p => { p with bound := none }).npEnd hp np slot c 0 0
      else s.npApply hp np slot c

/-- Whether an operation of a noun port has still to take effect: one that only waits for another module's answer has. -/
def State.npBusy (s : State) (hp : Bool) (np : Nat) : Bool :=
  s.nouns.any fun o => !o.afar && (match o.src with | .port h n _ _ _ => h == hp && n == np | _ => false)

/-- The next command of a port takes effect, in doorbell order: BIND, UNBIND and APPLY once nothing earlier is on its way (R398). -/
def State.npPump (s : State) (hp : Bool) (np : Nat) : State :=
  match (s.nport (portIndex hp np)).cmds with
  | [] => s
  | (slot, c) :: rest =>
    if (npBad c || (npAct c).isNone) && s.npBusy hp np then s
    else if s.packetWaits (s.nport (portIndex hp np)) c then
      s.askHost (s.hportOf (s.nport (portIndex hp np)).ctx) (s.nport (portIndex hp np)).ctx (pageOf c.value) false false
    else (s.updNport (portIndex hp np) fun p => { p with cmds := rest }).npDo hp np slot c

/-- The ports whose next command can take effect. -/
def State.npReady (s : State) : List Nat :=
  (s.host.ports.filter fun e => match e.2.cmds with
    | [] => false
    | (_, c) :: _ => !((npBad c || (npAct c).isNone) && s.npBusy (decide (e.1 ≥ 1024)) (e.1 % 1024)) &&
        !(s.packetWaits e.2 c && (s.hostPort (s.hportOf e.2.ctx)).reqs.any fun q => q.ctx == e.2.ctx && q.page == pageOf c.value && !q.quiet)).map (·.1)

/-- A doorbell on a noun port, after the host has written the slot's bytes: discarded with a value other than 1, on a port that is not bound
to a context, and on a slot whose command has not completed; and in TDISP state ERROR, where the host gets Completer Abort; one without the T bit in RUN gets Unsupported Request (R398, R482, R489). The row names the OP: any other is reserved. -/
def State.npDoorbell (s : State) (op : BitVec 8) (hp : Bool) (np : BitVec 10) (slot : BitVec 6) (c : NpCmd) : Out :=
  let i := portIndex hp np.toNat
  let p := s.nport i
  if (s.hostPort hp).tdisp == .error then .next (s.updHost fun h => { h with out := h.out ++ [.abort hp] })
  else if (s.hostPort hp).tdisp == .run && !c.tbit then .next (s.updHost fun h => { h with out := h.out ++ [.dropped hp] })
  else if !p.en then .next s
  else if p.busy.contains slot.toNat || c.bell != 1 then .next (s.updNport i fun p => { p with slots := tput slot.toNat c p.slots })
  else
    let c1 := { c with rsvd := c.rsvd || c.op != op }
    .next ((s.updNport i fun p => { p with slots := tput slot.toNat c p.slots, busy := p.busy ++ [slot.toNat], cmds := p.cmds ++ [(slot.toNat, c1)] }).npPump hp np.toNat)

/-- R395: BIND. -/
def execBind (hp : Bool) (np : BitVec 10) (slot : BitVec 6) (cmd : NpCmd) (s : State) : Out := s.npDoorbell 0x01 hp np slot cmd
/-- R395: UNBIND. -/
def execUnbind (hp : Bool) (np : BitVec 10) (slot : BitVec 6) (cmd : NpCmd) (s : State) : Out := s.npDoorbell 0x02 hp np slot cmd
/-- R395: WAKE. -/
def execWake (hp : Bool) (np : BitVec 10) (slot : BitVec 6) (cmd : NpCmd) (s : State) : Out := s.npDoorbell 0x10 hp np slot cmd
/-- R395: SIGNAL. -/
def execSignal (hp : Bool) (np : BitVec 10) (slot : BitVec 6) (cmd : NpCmd) (s : State) : Out := s.npDoorbell 0x11 hp np slot cmd
/-- R395: DEPOSIT. -/
def execDeposit (hp : Bool) (np : BitVec 10) (slot : BitVec 6) (cmd : NpCmd) (s : State) : Out := s.npDoorbell 0x12 hp np slot cmd
/-- R395: JOIN. -/
def execJoin (hp : Bool) (np : BitVec 10) (slot : BitVec 6) (cmd : NpCmd) (s : State) : Out := s.npDoorbell 0x13 hp np slot cmd
/-- R395: TEST. -/
def execTest (hp : Bool) (np : BitVec 10) (slot : BitVec 6) (cmd : NpCmd) (s : State) : Out := s.npDoorbell 0x14 hp np slot cmd
/-- R395: APPLY. -/
def execApply (hp : Bool) (np : BitVec 10) (slot : BitVec 6) (cmd : NpCmd) (s : State) : Out := s.npDoorbell 0x20 hp np slot cmd

/-! ### Revocation (R398, R489) -/

def srcIs (hp : Bool) (np : Nat) (x : Source) : Bool := match x with | .port h n _ _ _ => h == hp && n == np | _ => false

/-- A port is revoked: EN is clear, its commands are dropped without a completion, its joins end, its thread's noun is DEAD with
HOSTGONE, and vector 3 is raised (R488-R492). -/
def State.revoke (s : State) (i : Nat) : State :=
  let p := s.nport i
  if !p.en then s
  else
    let hp := decide (i ≥ 1024)
    let np := i % 1024
    let s1 : State := { s with nouns := s.nouns.filter (fun o => !srcIs hp np o.src), joins := s.joins.filter fun j => !srcIs hp np j.src }
    let s2 := s1.updNport i fun p => { p with en := false, bound := none, busy := [], cmds := [], comps := [], slots := [], pfail := false }
    ((match p.bound with | some n => s2.endThread n xHostgone 0 | none => s2)).raise 3

/-- NPCTL (R484, R489). -/
def State.writeNpctl (s : State) (i : Nat) (value : Word) : State :=
  let p := s.nport i
  let en := value.getLsbD 63
  let c := field value 0 20
  let s1 := if p.en && (!en || c != p.ctx) then s.revoke i else s
  s1.updNport i fun p => { p with en := en, ctx := c }

/-! ### Accesses to a port's host -/

/-- Host pieces of a context, moved from one port to the other. -/
def movePiece (hp : Bool) (p : Piece) : Piece :=
  if p.path == 4 then { p with key := hostKey hp ((p.key - hostBase) % 0x10000000000000000) } else p

/-- Accesses in flight to host pages of a port end with GONE (R490). -/
def State.endHostAccesses (s : State) (hp : Bool) : State :=
  let hit (a : Access) (l : LaneAcc) : Bool := l.st == .todo && s.hportOf (s.ctxOf a.frag) == hp && l.parts.any fun p => p.path == 4
  (s.accs.filter fun a => a.lanes.any (hit a)).foldl (fun s a =>
    match s.findAcc a.id with
    | none => s
    | some b =>
      let off (l : LaneAcc) : Nat := (l.parts.foldl (fun (acc : Option Nat × Nat) p =>
        (if acc.1.isNone && p.path == 4 then some acc.2 else acc.1, acc.2 + p.len)) (none, 0)).1.getD 0
      let b1 := { b with lanes := b.lanes.map fun l => if hit b l then l.failAt b.scalar (.host, 0x03, off l) else l }
      (((s.putAcc b1).updFrag b.frag fun f => f.close b.id (~~~b1.paths))).checkAccess b.id) s

/-- What waits for pages of a port looks at them again, and finds the host gone. -/
def State.retryPort (s : State) (hp : Bool) : State :=
  let drop (e : Nat × NounPort) : Nat × NounPort :=
    if s.hportOf e.2.ctx == hp && (s.hostPort hp).gone then (e.1, e.2.comps.foldl (fun p c => p.free c.slot) e.2) else e
  { s with
    host := { s.host with ports := s.host.ports.map drop }
    copies := s.copies.map fun c => if s.hportOf c.who.ctx == hp then { c with hwait := none } else c
    frags := s.frags.map fun e => if s.hportOf (s.ctxOf e.1) == hp then (e.1, { e.2 with hwait := none }) else e }

/-! ### Warm restart (R490, R491) -/

/-- A warm restart of the host on a port. Page requests that fault-list entries wait for run on to their limit (R477). -/
def State.restartHost (s : State) (hp : Bool) : State :=
  let ports := (s.host.ports.filter fun e => decide (e.1 ≥ 1024) == hp).map (·.1)
  let s1 := ports.foldl (fun s i => s.revoke i) s
  let s2 := s1.updHostPort hp fun p =>
    { p with gone := true, atc := [], tdisp := .unlocked, ide := [], reqs := p.reqs.filter fun q => !q.flidx.isEmpty }
  ((s2.endHostAccesses hp).retryPort hp).tidy

/-- R490: a write of HRESTART. -/
def execHrestart (r : PageReq) (s : State) : Out := s.pageWrite r (s.restartHost r.hp)

/-- R490: a link goes down. -/
def execHostLinkDown (hp : Bool) (s : State) : Out := .next ((s.restartHost hp).updHostPort hp fun p => { p with linkup := false })

/-- R490: a Hot Reset or Function Level Reset; TDISP is CONFIG_UNLOCKED after it (R482). -/
def execHostReset (hp : Bool) (s : State) : Out := .next ((s.restartHost hp).updHostPort hp fun p => { p with tdisp := .unlocked })

/-- R491: a link comes up. -/
def execHostLinkUp (hp : Bool) (s : State) : Out := .next (s.updHostPort hp fun p => { p with linkup := true })

def State.clearGone (s : State) (hp : Bool) : State := s.updHostPort hp fun p => { p with gone := false }

/-- R490: port h writes 1 to its GONE. -/
def execGoneClear (r : PageReq) (s : State) : Out := s.pageWrite r (s.clearGone r.hp)

/-! ### The lease (R486-R488) -/

/-- The contexts of a port change over to the other, with their accesses in flight (R488 step 4; log 34). -/
def State.switchCtx (s : State) (old new : Bool) (ctx : Nat) : State :=
  let x := s.ctx ctx
  let misc := setField x.misc 16 1 (bit new)
  let ports := (s.host.ports.filter fun e => decide (e.1 ≥ 1024) == old && e.2.en && e.2.ctx == ctx).map (·.1)
  let s1 := (s.updCtx ctx fun x => { x with misc := misc }).updMem (writeNat (x.record + 80) 8 misc.toNat)
  let s2 := s1.updHostPort old fun p =>
    { p with atc := p.atc.filter (fun e => e.ctx != ctx), reqs := p.reqs.filter fun q => q.ctx != ctx || !q.flidx.isEmpty }
  let move (a : Access) : Access :=
    if s.ctxOf a.frag == ctx then { a with lanes := a.lanes.map fun l => { l with parts := l.parts.map (movePiece new) } } else a
  let s3 : State := { s2 with accs := s2.accs.map move }
  let s4 := ports.foldl (fun s i => s.revoke i) (s3.retryPort new)
  (s4.accs.filter fun a => s4.ctxOf a.frag == ctx).foldl (fun s a =>
    s.askPieces ctx a.kind.want.writes ((a.lanes.filter fun l => l.st == .todo).flatMap (·.parts))) s4

/-- Steps 2 to 5 of R488: registers follow the lease, pending vectors are delivered, contexts change over, and vector 1 is
raised. -/
def State.takeover (s : State) (old new : Bool) : State :=
  let s1 := s.deliverPending
  let cs := (s1.contexts.filter fun e => !e.2.killed && e.2.misc.getLsbD 16 == old).map (·.1)
  (cs.foldl (fun s c => s.switchCtx old new c) s1).raise 1

/-- The lease ends: a registered standby whose link is up takes over (R488). -/
def State.endLease (s : State) : State :=
  let s1 := s.updHost fun h => { h with lease := { h.lease with valid := false } }
  match s.host.lease.last with
  | none => s1
  | some old =>
    let new := !old
    if s1.host.standby.getLsbD (bit new) && (s1.hostPort new).linkup then
      (s1.updHost fun h => { h with
        lease := { valid := true, holder := new, expiry := s.dtime + 1000000000, last := some new, near := false }
        standby := h.standby &&& ~~~BitVec.ofNat 2 (2 ^ bit new) }).takeover old new
    else s1

/-- Whether the lease is over (R486). -/
def State.leaseOver (s : State) : Bool := s.host.lease.valid && s.host.lease.expiry ≤ s.dtime

/-- A write of LEASE from a port, as one step against DTIME (R486). -/
def State.writeLease (s : State) (hp : Bool) (value : Word) : State :=
  let s0 := if s.leaseOver then s.endLease else s
  let l := s0.host.lease
  let ex := min (field value 0 62) (s0.dtime + 10000000000)
  if l.valid then
    if l.holder != hp then s0
    else if value.getLsbD 63 then s0.updHost fun h => { h with lease := { h.lease with expiry := ex, near := false } }
    else s0.endLease
  else if value.getLsbD 63 then
    let s1 := s0.updHost fun h => { h with lease := { valid := true, holder := hp, expiry := ex, last := some hp, near := false } }
    match l.last with
    | some old => if old != hp then s1.takeover old hp else s1.deliverPending
    | none => s1.deliverPending
  else s0

/-- R486: a write with VALID 1. -/
def execLeaseWrite (r : PageReq) (value : Word) (s : State) : Out := s.pageWrite r (s.writeLease r.hp (value ||| wordOf (2 ^ 63)))

/-- R486: a write with VALID 0. -/
def execLeaseRelease (r : PageReq) (s : State) : Out := s.pageWrite r (s.writeLease r.hp 0)

/-- R488: DTIME reaches EXPIRY. -/
def execLeaseExpiry (s : State) : Out := .next (if s.leaseOver then s.endLease else s)

/-- Whether DTIME is within 10^7 ns of EXPIRY, for the first time (R492). -/
def State.leaseNear (s : State) : Bool :=
  s.host.lease.valid && !s.host.lease.near && s.host.lease.expiry ≤ s.dtime + 10000000 && s.dtime < s.host.lease.expiry

/-- R492: vector 2. -/
def execLeaseNearExpiry (s : State) : Out :=
  .next (if s.leaseNear then (s.updHost fun h => { h with lease := { h.lease with near := true } }).raise 2 else s)

def State.setStandby (s : State) (hp on : Bool) : State :=
  let b : BitVec 2 := BitVec.ofNat 2 (2 ^ bit hp)
  s.updHost fun h => { h with standby := if on then h.standby ||| b else h.standby &&& ~~~b }

/-- R487: a port's own bit. -/
def execStandby (r : PageReq) (on : Bool) (s : State) : Out := s.pageWrite r (s.setStandby r.hp on)

end Sys2Proof.Machine
end

