-- ==== Sys2Proof/Machine/System.lean ====
section
/-! DEFINITION. System, trap and translation instructions (R428-R441), and the walker (R144-R146). -/
namespace Sys2Proof.Machine

/-! ### Traps on purpose (R430-R432) -/

/-- R430: strap takes SWTRAP; the walker's slot has no traps (R429). -/
def execStrap (code : BitVec 12) (s : State) : Out :=
  if isWalkerKey s.cur then s.illop (.strap code) else s.fault .swtrap 0 (code.setWidth 64)

/-- The coordinate of a fragment in a freeze record (R8, R484). -/
def State.coordWord (s : State) (core slot num : Nat) : BitVec 32 :=
  BitVec.ofNat 32 (at' (s.moduleNo % 1024) 22 + at' (dieOf core) 20 + at' (core / 24 % 16) 16 + at' (core % 24) 11 + at' slot 7 + num)

/-- A freeze record is written whole, and then FRZPROD goes on (R484). -/
def State.putFreeze (s : State) (r : FrzRec) : State :=
  s.updHost fun h => { h with frzrec := tput (h.frzprod % 16) r h.frzrec, frzprod := (h.frzprod + 1) % 2 ^ 32 }

/-- Whether a context's partition has debug freeze enabled (R431). -/
def State.dbgOn (s : State) (ctx : Nat) : Bool := (s.part (s.partOf ctx)).dbgen

/-- R431: sbrk takes BRK, or freezes its core. -/
def execSbrk (code : BitVec 12) (s : State) : Out :=
  if isWalkerKey s.cur then s.illop (.sbrk code)
  else if !s.dbgOn s.myCtx then s.fault .brk 0 (code.setWidth 64)
  else
    let r : FrzRec := { code := code.setWidth 16, coord := s.coordWord s.myCore (s.me.slot.getD 0) s.me.num, time := wordOf s.dtime }
    .next (((s.adv.updCore s.myCore fun c => { c with frozen := true }).putFreeze r).raise 4)

/-- R433: seret. -/
def execSeret (s : State) : Out := s.seret .seret false

/-- R434: seret.skip. -/
def execSeretSkip (s : State) : Out := s.seret .seretSkip true

/-! ### tlbfill (R436) -/

/-- Whether a leaf is malformed at a size or not valid; L is not examined at 4 KiB (R137, R436). -/
def leafRefused (leaf : Word) (size : Nat) : Bool :=
  !leaf.getLsbD 0 || (size != 0 && !leaf.getLsbD 6) || pteMalformed (3 - size) leaf

/-- The cause and sub-cause of a fault word: XLATE or ACCESS with one of its sub-causes (R463); none for any other word. -/
def fillFault (w : Word) : Option (Cause × BitVec 8) :=
  let sub := field w 8 8
  if field w 16 48 != 0 then none
  else if field w 0 8 == 4 && 1 ≤ sub && sub ≤ 3 then some (.xlate, BitVec.ofNat 8 sub)
  else if field w 0 8 == 5 && 1 ≤ sub && sub ≤ 13 then some (.access, BitVec.ofNat 8 sub)
  else none

/-- The end of a walker record: the status, and the state. -/
def State.endRecord (s : State) (core : Nat) (m : MissRec) (leaf ctl : Word) : Nat × State :=
  let size := field ctl 0 2
  if field ctl 2 62 != 0 then (2, s)
  else if size == 3 then
    match fillFault leaf with
    | some (c, b) => (0, s.recordEnds core m (some (c, b)))
    | none => (2, s)
  else if leafRefused leaf size then (2, s)
  else (0, (s.installTlb core (tlbOf m.ctx m.va leaf size)).recordEnds core m none)

/-- R436: tlbfill, in the walker only (R429). -/
def execTlbfill (sd sa sb : SReg) (tag : BitVec 6) (s : State) : Out :=
  if !isWalkerKey s.cur then s.privFault (.tlbfill sd sa sb tag)
  else match (s.core s.myCore).misses.find? fun m => m.tag == tag.toNat with
    | none => putNext sd 1 s
    | some m =>
      let r := s.endRecord s.myCore m (s.r sa) (s.r sb)
      putNext sd (wordOf r.1) r.2

/-! ### Invalidation (R437, R438) -/

/-- R437: tlbinv. -/
def execTlbinv (sd sa sb : SReg) (dom : Bool) (range : InvRange) (s : State) : Out :=
  if !s.priv s.cur then s.privFault (.tlbinv sd sa sb dom range)
  else
    let c := field (s.r sb) 0 20
    match range with
    | .one => .next (s.startInval sd .tlb dom (some c) (some (s.r sa).toNat))
    | .ctx => .next (s.startInval sd .tlb dom (some c) none)
    | .all => .next (s.startInval sd .tlb dom none none)

/-- R437: ntinv. -/
def execNtinv (sd sa : SReg) (dom : Bool) (range : InvRange) (s : State) : Out :=
  if !s.priv s.cur then s.privFault (.ntinv sd sa dom range)
  else .next (s.startInval sd .nouns dom (some (nounCtx (s.r sa))) (if range == .one then some (nounIndex (s.r sa)) else none))

/-- R437: vtinv. -/
def execVtinv (sd sa sb : SReg) (dom : Bool) (range : InvRange) (s : State) : Out :=
  if !s.priv s.cur then s.privFault (.vtinv sd sa sb dom range)
  else .next (s.startInval sd .verbs dom (some (field (s.r sb) 0 20)) (if range == .one then some (field (s.r sa) 0 12) else none))

/-! ### skill (R440, R441) -/

/-- KCAUSE of a kill by skill. -/
def skillCause : Word := wordOf (at' 1 63 + at' 0x12 16)

/-- R440: skill; a fragment that ends with its context writes no status. -/
def execSkill (sd sa : SReg) (s : State) : Out :=
  let n := s.r sa
  if !s.priv s.cur && field n 0 20 != s.myCtx then s.fault .priv 0 n
  else match if field n 20 44 == 0 then tfind s.contexts n.toNat else none with
    | none =>
      if field n 20 44 == 0 && (s.homeOf n.toNat).isSome then
        -- a context of another module: whether it was killed already is that module's to say (log 19)
        putNext sd (if Config.freeNat s.draws % 2 == 0 then 0 else 2) s.drawn
      else putNext sd 1 s
    | some x =>
      if x.killed then putNext sd 2 s
      else
        let s1 := s.kill n.toNat skillCause
        if n.toNat == s.myCtx && !isWalkerKey s.cur then .next s1
        else if (s1.ctx n.toNat).resident then
          -- sd is written when the kill has been made
          .next ((s1.updCtx n.toNat fun c =>
            { c with killers := c.killers ++ [{ id := s1.nextId, frag := s.cur, pc := s.me.pc, writes := [(sd, 0)] }] }).bump.adv)
        else putNext sd 0 s1

/-! ### The walker (R144-R146) -/

/-- The registers of a record (R144). -/
def MissRec.d0 (m : MissRec) : Word := wordOf (at' m.kind 60 + m.va % 2 ^ 56)
def MissRec.d1 (s : State) (m : MissRec) : Word :=
  wordOf (at' m.lanes.toNat 32 + at' (bit m.priv) 12 + at' m.slot 8 + (s.frag m.frag).num)

/-- The record that goes to the walker next: the oldest queued one, when DPEND is zero. -/
def State.nextRecord (s : State) (core : Nat) : Option MissRec :=
  if (s.core core).wDpend == 0 then (s.core core).misses.find? fun m => !m.given else none

/-- R144: the oldest record is written to the walker's d0 to d3, DPEND becomes 0xF, and the wake bit is set. -/
def execWalkerRecordDeliver (core : Nat) (s : State) : Out :=
  match s.nextRecord core with
  | none => .next s
  | some m =>
    let s1 := s.updCore core fun c =>
      { c with wDpend := 0xF, wWake := true, misses := c.misses.map fun x => if x.num == m.num then { x with given := true } else x }
    .next (s1.updFrag (walkerKey core) fun f =>
      { f with live := true, slot := some 15 }.setRegs [(60, m.d0), (61, MissRec.d1 s m), (62, wordOf m.ctx), (63, wordOf m.tag)])

/-- The walk that the walker's program makes for a record (R145, R146; log 7), under the PTAB of the moment at which the record was
posted (R113): leaf and control word, or fault word, and memory. -/
def walkerWalk (s : State) (core : Nat) (d0 d1 d2 d3 : Word) : Word × Word × Mem :=
  let kind := field d0 60 4
  let va := field d0 0 56
  let writes := kind == 1 || kind == 3 || kind == 5
  let ptab := (((s.core core).misses.find? fun m => m.tag == d3.toNat).map fun m => m.ptab).getD (s.ctx (field d2 0 20)).ptab
  match walk s.unreadable s.mem ptab.toNat va writes (kind == 2) (d1.getLsbD 12) with
  | (.fill leaf size, m) => (leaf, wordOf size, m)
  | (.fault c b, m) => (wordOf (causeCode c + at' b.toNat 8), 3, m)

/-- The walker serves the record in its d registers: DPEND and the wake bit become zero, the tables are walked, and s4, s5 and
the tag stand for its tlbfill. -/
def State.walkerRead (s : State) (core : Nat) : State :=
  let f := s.frag (walkerKey core)
  let w := walkerWalk s core (f.reg 60) (f.reg 61) (f.reg 62) (f.reg 63)
  let s1 := ({ s with mem := w.2.2, cur := walkerKey core } : State).updCore core fun c => { c with wDpend := 0, wWake := false }
  s1.updFrag (walkerKey core) fun f => f.setRegs [(4, w.1), (5, w.2.1)]

end Sys2Proof.Machine
end

