-- ==== Sys2Proof/Machine/Switch.lean ====
section
/-! DEFINITION. Residency (R563), context-switch commands (R470, R471, R478, R485), and migration (R175-R177). -/
namespace Sys2Proof.Machine

/-! ### Residency (R190, R563) -/

/-- The registers that a context record gives, their reserved bits discarded (R11, R190). -/
def Ctx.load (x : Ctx) (m : Mem) (a : Nat) : Ctx :=
  let w (n : Nat) : Word := wordOf (readNat m (a + 8 * n) 8)
  { x with record := a, resident := true, ctxw := w 0 &&& 0x80000007000FFFFF, tvec := w 1, tsave := w 2 &&& tsaveBits
           hbase := w 3 &&& hbaseBits, hlim := w 4 &&& hlimBits, hoff := w 5 &&& hoffBits, vtab := w 6, ntab := w 7, ptab := w 8
           scbase := w 9, misc := w 10 &&& 0x10F3F, flist := w 11 }

/-- Whether a phrase of a context is on a core. -/
def State.ctxOnCore (s : State) (ctx : Nat) : Bool := s.phrases.any fun e => e.2.ctx == ctx && e.2.present

/-- Whether a request to make a context resident is refused (R544, R563); 1024 contexts can be resident. One that names a number which
another module of the domain holds is refused, and so is one whose number's kill has not ended (R440). DESIGN CHOICE: so is one whose
record R190 does not allow, at an address that is no multiple of 128 or lies in no vault (log 31). -/
def State.residentRefused (s : State) (record ctx : Nat) : Bool :=
  !s.accepted 0 || record % 128 != 0 || !inVault record || readNat s.mem record 8 % 2 ^ 20 != ctx ||
  (match tfind s.contexts ctx with
   | some x => if x.killed then x.resident else x.record != record
   | none => false) ||
  (s.homeOf ctx).isSome ||
  ((s.contexts.filter fun e => e.2.resident && e.1 != ctx).length ≥ 1024)

/-- R563: a context becomes resident. One whose phrases have all left their cores reads its record again (R191). -/
def execMakeResident (record ctx : Nat) (s : State) : Out :=
  if s.residentRefused record ctx then .next s
  else match tfind s.contexts ctx with
    | some x =>
      if x.killed then .next { s with contexts := tput ctx (({} : Ctx).load s.mem record) s.contexts }
      else if x.resident && s.ctxOnCore ctx then .next s
      else .next (s.updCtx ctx fun x => x.load s.mem record)
    | none => .next { s with contexts := tput ctx (({} : Ctx).load s.mem record) s.contexts }

/-! ### Commands -/

def State.cs (s : State) (slot : Nat) : CsCmd := tget {} s.host.cs slot

def State.updCs (s : State) (slot : Nat) (g : CsCmd → CsCmd) : State :=
  s.updHost fun h => { h with cs := tput slot (g (tget {} h.cs slot)) h.cs }

def State.csEnd (s : State) (slot st : Nat) : State := s.updCs slot fun c => { c with status := some (BitVec.ofNat 8 st) }

def CsCmd.whole (c : CsCmd) : Bool := c.flags.getLsbD 0
def CsCmd.auto (c : CsCmd) : Bool := c.flags.getLsbD 1

/-- A reserved OP, a coordinate or context number out of range, or WHOLECTX with a command that does not take it (R485); the status
is 2 (log 31). -/
def CsCmd.malformed (c : CsCmd) : Bool :=
  c.op == 0 || c.op.toNat > 5 || (c.whole && c.op.toNat ≥ 4) ||
  (c.whole && field c.target 20 44 != 0) || (c.op.toNat ≥ 4 && field c.place 25 39 != 0)

/-- Whether two commands name one phrase. -/
def csMeet (a b : CsCmd) : Bool :=
  if a.whole && b.whole then a.target == b.target
  else if a.whole then nounCtx b.target == a.target.toNat
  else if b.whole then nounCtx a.target == b.target.toNat
  else a.target == b.target

/-- A command waits for an earlier one that names its phrase (R485). -/
def State.csWaits (s : State) (slot : Nat) : Bool :=
  s.host.cs.any fun e => e.1 != slot && e.2.busy && e.2.num < (s.cs slot).num && csMeet e.2 (s.cs slot)

/-- The leaf of the phrase that a command names, or the status with which it ends (R469, R485). -/
def State.csTarget (s : State) (n : Word) : Except Nat Leaf :=
  if nounKind n != 0 then .error 2
  else match tfind s.contexts (nounCtx n) with
    | none => .error 2
    | some x =>
      if x.killed then .error 1
      else match s.findLeaf n with
        | none => .error 2
        | some (_, l) => if l.state == stFree || l.state == stGrant || l.gen != nounGen n then .error 2 else .ok l

/-- The context that a command names, or the status. -/
def State.csContext (s : State) (n : Nat) : Option Nat :=
  match tfind s.contexts n with
  | none => some 2
  | some x => if x.killed then some 1 else none

/-- Whether an area is aligned and lies in vaults. -/
def vaultArea (a n : Nat) : Bool := a % 4096 == 0 && inVault a && a + n ≤ vaultTop

/-- Whether an area is aligned and lies in pool memory that answers (R496, R497). -/
def State.poolArea (s : State) (a n : Nat) : Bool :=
  a % 4096 == 0 && inPool a && a + n ≤ poolTop &&
  (List.range ((n + 4095) / 4096)).all fun i => (s.poolRefuses s.nextId (a - poolBase + 4096 * i)).isNone

/-- The phrases go on: the save did not take place. -/
def State.unstop (s : State) (ps : List Nat) : State :=
  (ps.flatMap s.fragsOf).foldl (fun s k => s.updFrag k fun f => { f with stopped := false }) s

/-! ### SAVE (R471) -/

/-- Whether a set of stopped phrases can be saved. -/
def State.allDrained (s : State) (ps : List Nat) : Bool :=
  ps.all s.drained && ps.all fun p => s.flistRoom (s.phr p).ctx (ps.foldl (fun n q => n + (s.holds q).length) 0)

/-- SAVE of one phrase: it stops, and once it is drained it is saved. -/
def State.saveOne (s : State) (slot : Nat) (c : CsCmd) : State :=
  match s.csTarget c.target with
  | .error e => s.csEnd slot e
  | .ok l =>
    match (if l.state == stRunning then s.phraseByNoun c.target else none) with
    | none => s.csEnd slot 1
    | some p0 =>
      let p := s.mainOf p0
      if (s.phr p).leaving != .no || !(s.phr p).present then s.csEnd slot 1
      else if !vaultArea c.addr.toNat (s.groupSize p) then (s.unstop (s.saveGroup p)).csEnd slot 4
      else
        let s1 := s.stopGroup p
        if s1.allDrained (s1.saveGroup p) then (s1.saveGroupAt p c.addr.toNat c.auto).csEnd slot 0 else s1

def insertBy (key : Nat → Nat) (x : Nat) : List Nat → List Nat
  | [] => [x]
  | y :: ys => if key x < key y then x :: y :: ys else y :: insertBy key x ys

/-- The running phrases of a context in increasing noun index. -/
def State.runningOf (s : State) (ctx : Nat) : List Nat :=
  ((s.phrases.filter fun e => e.2.ctx == ctx && e.2.present && !e.2.gone && e.2.leaving == .no).map (·.1)).foldl
    (fun l p => insertBy (fun q => nounIndex (s.phr q).noun) p l) []

/-- The length of a directory of `n` entries (R485). -/
def directoryLen (n : Nat) : Nat := alignUp (64 + 16 * n) 4096

/-- The directory: nouns or coordinates with the lengths of their images (R485). -/
def directoryPokes (a nphr ncore : Nat) (items : List (Nat × Nat)) : List (Nat × Nat × Nat) :=
  let start := directoryLen items.length
  let offs := items.foldl (fun (acc : List (Nat × Nat) × Nat) e => (acc.1 ++ [(e.1, acc.2)], acc.2 + alignUp e.2 4096)) ([], start)
  [(a, 8, nphr), (a + 8, 8, ncore), (a + 16, 8, offs.2), (a + 24, 40, 0)] ++
  (offs.1.mapIdx fun j e => [(a + 64 + 16 * j, 8, e.1), (a + 72 + 16 * j, 8, e.2)]).flatten

/-- The total length of an area. -/
def areaLen (items : List (Nat × Nat)) : Nat := items.foldl (fun n e => n + alignUp e.2 4096) (directoryLen items.length)

/-- Bits 63:0 of a core's directory entry. -/
def State.coreEntry (s : State) (core : Nat) : Nat := (s.coordWord core 0 0).toNat + at' 1 63

/-- SAVE with WHOLECTX: every running phrase, and the cores that they leave (R485). -/
def State.saveWhole (s : State) (slot : Nat) (c : CsCmd) : State :=
  let ctx := c.target.toNat
  match s.csContext ctx with
  | some e => s.csEnd slot e
  | none =>
    let ps := s.runningOf ctx
    let s1 := ps.foldl (fun s p => s.stopPhrase p) s
    let leaving := s1.phrases.any fun e => e.2.ctx == ctx && e.2.present && !e.2.gone && e.2.leaving != .no
    if leaving || !s1.allDrained ps then s1
    else
      let cores := ((ps.map fun p => (s1.phr p).core).eraseDups).foldl (fun l k => insertBy id k l) []
      let items := (ps.map fun p => ((s1.phr p).noun.toNat, s1.imageSize p)) ++ cores.map fun k => (s1.coreEntry k, coreImageLen)
      let a := c.addr.toNat
      if !vaultArea a (areaLen items) || areaLen items > c.limit.toNat then (s1.unstop ps).csEnd slot 4
      else
        let r := s1.saveAt ps c.auto (a + directoryLen items.length)
        let s2 := (cores.foldl (fun (acc : State × Nat) k => (acc.1.writeCore ctx k acc.2 (s1.holderOf ctx k), acc.2 + coreImageLen)) r).1
        (s2.updMem (pokes (directoryPokes a ps.length cores.length items))).csEnd slot 0

/-! ### SWAPOUT and SWAPIN (R470) -/

/-- The length of the image at an address, by its header (R472, R473). -/
def imageLenAt (m : Mem) (a : Nat) : Nat :=
  imageLen (readNat m (a + 0x5E) 2 % 512) (readNat m (a + 0x6C) 4) (readNat m (a + 0x70) 4)

def moveBytes (src dst n : Nat) (m : Mem) : Mem := writeBytes dst (readBytes m src n) m

/-- Images of nouns move to consecutive pages, and their nouns take a state (R195, R196). -/
def State.moveImages (s : State) (ns : List Word) (state : Nat) (a : Nat) : State × Nat :=
  ns.foldl (fun (acc : State × Nat) n =>
    let src := acc.1.imageOf n
    let len := imageLenAt acc.1.mem src
    ((acc.1.updMem (moveBytes src acc.2 len)).setLeaf n state 0 0 0 (wordOf acc.2), alignUp (acc.2 + len) 4096)) (s, a)

/-- Core images of a context move. -/
def State.moveCores (s : State) (ctx : Nat) (cores : List Nat) (a : Nat) : State :=
  (cores.foldl (fun (acc : State × Nat) k =>
    match tfind (acc.1.ctx ctx).cores k with
    | none => acc
    | some x =>
      ((acc.1.updMem (moveBytes x.addr acc.2 coreImageLen)).updCtx ctx fun y => { y with cores := tput k { x with addr := acc.2 } y.cores },
        acc.2 + coreImageLen)) (s, a)).1

/-- A main phrase's noun with its auxiliary's, where both have a state; an auxiliary alone stands for its main phrase (R36). -/
def State.nounGroup (s : State) (n : Word) (state : Nat) : List Word :=
  match s.phraseByNoun n with
  | none => [n]
  | some p0 =>
    let p := s.mainOf p0
    ((s.restoreGroup p).map fun q => (s.phr q).noun).filter fun x => (s.findLeaf x).any fun e => e.2.state == state

/-- The area of a swap: in the pool for SWAPOUT, in vaults for SWAPIN. -/
def State.swapArea (s : State) (out : Bool) (a n : Nat) : Bool := if out then s.poolArea a n else vaultArea a n

def swapFrom (out : Bool) : Nat := if out then stSaved else stSwapped
def swapTo (out : Bool) : Nat := if out then stSwapped else stSaved

def State.swapOne (s : State) (slot : Nat) (c : CsCmd) (out : Bool) : State :=
  match s.csTarget c.target with
  | .error e => s.csEnd slot e
  | .ok l =>
    let ns := s.nounGroup c.target (swapFrom out)
    if l.state != swapFrom out then s.csEnd slot 1
    else
      let len := ns.foldl (fun n x => n + alignUp (imageLenAt s.mem (s.imageOf x)) 4096) 0
      if !s.swapArea out c.addr.toNat len then s.csEnd slot 4
      else (s.moveImages ns (swapTo out) c.addr.toNat).1.csEnd slot 0

def State.swapWhole (s : State) (slot : Nat) (c : CsCmd) (out : Bool) : State :=
  let ctx := c.target.toNat
  match s.csContext ctx with
  | some e => s.csEnd slot e
  | none =>
    let ns := s.nounsAt ctx (swapFrom out)
    let cores := ((s.ctx ctx).cores.filter fun e => inVault e.2.addr == out).map (·.1)
    let items := (ns.map fun n => (n.toNat, imageLenAt s.mem (s.imageOf n))) ++ cores.map fun k => (s.coreEntry k, coreImageLen)
    let a := c.addr.toNat
    if !s.swapArea out a (areaLen items) || areaLen items > c.limit.toNat then s.csEnd slot 4
    else
      let r := s.moveImages ns (swapTo out) (a + directoryLen items.length)
      ((r.1.moveCores ctx cores r.2).updMem (pokes (directoryPokes a ns.length cores.length items))).csEnd slot 0

/-! ### MIGRATE and RESTORE -/

/-- A page of a cluster's vault that the manual does not name: where a forward queue stands in the vault of the source, and where a
migrated image stands in the vault of its destination (R157, R175, R177, R195; log 52). -/
def State.freeArea (s : State) (cluster : Nat) : Nat := cluster * 0x10000000 + 0x1000 * (Config.freeNat s.draws % 0xFF00)

/-- Where the forward queue of a migrating phrase stands in its save-image area (R175, R195): in the record, of 8 KiB, of the lowest
fragment that the image at `a` does not hold, or behind the image where it holds all of them (log 52). -/
def forwardAt (m : Mem) (a : Nat) : Nat :=
  match (List.range 32).find? fun f => !(readNat m (a + 0x4C) 4).testBit f with
  | some f => fragRecAt a f
  | none => a + imageLenAt m a

/-- A saved phrase starts to migrate: its noun is MIGRATING, and the shadow is taken from its image (R175). -/
def State.startMigration (s : State) (place : Nat) (n : Word) : State :=
  let a := s.imageOf n
  let h := readNat s.mem a 8
  let g : Migration := { noun := n, image := a, dest := place, shadow := BitVec.ofNat 4 h, sigp := BitVec.ofNat 16 (h / 2 ^ 16)
                         wakep := h.testBit 4, fwd := [], queue := forwardAt s.mem a
                         arrives := s.freeArea (clusterOf (coreOfLoc place)) }
  { (s.drawn.setLeaf n stMigrating 0 0 place (wordOf a)) with migs := s.migs ++ [g] }

/-- MIGRATE ends when its phrase has arrived or its migration was abandoned. -/
def State.migrateOne (s : State) (slot : Nat) (c : CsCmd) : State :=
  match s.csTarget c.target with
  | .error e => s.csEnd slot e
  | .ok l =>
    if c.begun then s
    else if l.state != stSaved then s.csEnd slot 1
    else
      let loc := c.place.toNat
      if moduleOfLoc loc == s.moduleNo && !s.clusterIn (s.partOf (nounCtx c.target)) (clusterOf (coreOfLoc loc)) then s.csEnd slot 3
      else ((s.nounGroup c.target stSaved).foldl (fun s n => s.startMigration loc n) s).updCs slot fun c => { c with begun := true }

def State.restoreOne (s : State) (slot : Nat) (c : CsCmd) : State :=
  match s.csTarget c.target with
  | .error e => s.csEnd slot e
  | .ok l =>
    let loc := c.place.toNat
    let core := coreOfLoc loc
    let n := ((s.phraseByNoun c.target).map fun p => (s.phr (s.mainOf p)).noun).getD c.target
    if l.state != stSaved then s.csEnd slot 1
    else if moduleOfLoc loc != s.moduleNo || fieldNat loc 4 5 ≥ 24 || !s.regionOk n core then s.csEnd slot 3
    else match s.restoreAt n core (slotOfLoc loc) with
      | some s1 => s1.csEnd slot 0
      | none => s.csEnd slot 3

/-! ### The work of a command -/

/-- One attempt to perform a command; it has a status when it has ended. -/
def State.csWork (s : State) (slot : Nat) : State :=
  let c := s.cs slot
  if !c.busy || c.status.isSome || s.csWaits slot then s
  else if c.malformed then s.csEnd slot 2
  else match c.op.toNat, c.whole with
    | 1, false => s.saveOne slot c
    | 1, true => s.saveWhole slot c
    | 2, false => s.swapOne slot c true
    | 2, true => s.swapWhole slot c true
    | 3, false => s.swapOne slot c false
    | 3, true => s.swapWhole slot c false
    | 4, _ => s.migrateOne slot c
    | _, _ => s.restoreOne slot c

/-- A doorbell starts the command of a slot (R485). -/
def State.doorbell (s : State) (slot : Nat) : State :=
  if (s.cs slot).busy then s
  else ((s.updCs slot fun c => { c with busy := true, num := s.nextId, begun := false, status := none, result := 0 }).bump).csWork slot

/-- A row of the table is the doorbell of a slot whose OP and WHOLECTX are its own. -/
def State.ring (s : State) (slot : BitVec 4) (op : Nat) (whole : Bool) : Out :=
  let c := s.cs slot.toNat
  .next (if c.op.toNat == op && c.whole == whole then s.doorbell slot.toNat else s)

/-- R471: SAVE. -/
def execSave (slot : BitVec 4) (s : State) : Out := s.ring slot 1 false
/-- R485: SAVE with WHOLECTX. -/
def execSaveWholectx (slot : BitVec 4) (s : State) : Out := s.ring slot 1 true
/-- R470: SWAPOUT. -/
def execSwapout (slot : BitVec 4) (s : State) : Out := s.ring slot 2 false
/-- R485: SWAPOUT with WHOLECTX. -/
def execSwapoutWholectx (slot : BitVec 4) (s : State) : Out := s.ring slot 2 true
/-- R470: SWAPIN. -/
def execSwapin (slot : BitVec 4) (s : State) : Out := s.ring slot 3 false
/-- R485: SWAPIN with WHOLECTX. -/
def execSwapinWholectx (slot : BitVec 4) (s : State) : Out := s.ring slot 3 true
/-- R175: MIGRATE. -/
def execMigrate (slot : BitVec 4) (s : State) : Out := s.ring slot 4 false
/-- R478: RESTORE. -/
def execRestore (slot : BitVec 4) (s : State) : Out := s.ring slot 5 false

/-- The words of RESULT (R485). -/
def csResult (c : CsCmd) (st : BitVec 8) : Word := wordOf (at' 1 63 + at' c.tag.toNat 32 + st.toNat)

/-- A command with a status ends: RESULT is written and vector 7 raised. -/
def State.csFinish (s : State) (slot : Nat) : State :=
  match (s.cs slot).status with
  | none => s
  | some st => (s.updCs slot fun c => { c with busy := false, status := none, result := csResult c st }).raise 7

/-- Whether a command can go on: it has ended, or an attempt would change something. -/
def State.csReady (s : State) (slot : Nat) : Bool :=
  (s.cs slot).busy && ((s.cs slot).status.isSome || s.csWork slot != s)

/-- R485: a command goes on, and completes once it has a status. -/
def execCsCommandComplete (slot : BitVec 4) (s : State) : Out :=
  .next (if (s.cs slot.toNat).busy then (s.csWork slot.toNat).csFinish slot.toNat else s)

/-! ### The end of a migration (R177) -/

/-- The MIGRATE command that moves a noun ends with a status. -/
def State.endMigrate (s : State) (n : Word) (st : Nat) : State :=
  match s.host.cs.find? fun e => e.2.busy && e.2.begun && e.2.status.isNone &&
      (e.2.target == n || (s.nounGroup e.2.target stSaved).contains n) with
  | some e => if s.migs.any fun g => (s.nounGroup e.2.target stMigrating).contains g.noun then s else s.csEnd e.1 st
  | none => s

/-- The forward queue of a migration is replayed into the image at an address, then the operations still held, and the phrase is
Saved. -/
def State.replay (s : State) (g : Migration) (a : Nat) : State :=
  let s1 := g.fwd.foldl (fun (s : State) e => (s.imageAct g.noun a e.2).2) s
  let s2 := { s1 with migs := s1.migs.filter fun x => x.noun != g.noun }.setLeaf g.noun stSaved 0 0 0 (wordOf a)
  let held (o : NounOp) : Bool := o.act.released && (match o.act with | .resume _ => false | _ => true) &&
    (match s2.resolveOp o with | .leaf _ _ n => n == g.noun | _ => false)
  (s2.nouns.filter held).foldl (fun (s : State) o => if s.nounReady o then s.deliver o else s) s2

/-- R177: a migrating phrase arrives with its image at an address. -/
def execMigrationArrival (noun : Word) (image : Nat) (s : State) : Out :=
  match s.migs.find? fun g => g.noun == noun with
  | some g =>
    if moduleOfLoc g.dest == s.moduleNo then
      .next (((s.updMem (moveBytes g.image image (imageLenAt s.mem g.image))).replay g image).endMigrate noun 0)
    else
      -- the image and its queue have gone to another module's vault, where they are replayed
      .next (({ s with migs := s.migs.filter fun x => x.noun != noun } : State).setLeaf noun stSaved 0 0 0 (wordOf image) |>.endMigrate noun 0)
  | none =>
    -- a phrase that another module sends
    match s.findLeaf noun with
    | some (_, l) =>
      if l.state == stMigrating && l.gen == nounGen noun then .next (s.setLeaf noun stSaved 0 0 0 (wordOf image)) else .next s
    | none => .next s

/-- R177: a migration is abandoned back to its source. -/
def execMigrationAbandon (noun : Word) (s : State) : Out :=
  match s.migs.find? fun g => g.noun == noun with
  | some g => .next ((s.replay g g.image).endMigrate noun 1)
  | none => .next s

end Sys2Proof.Machine
end

