-- ==== Sys2Proof/Machine/Page.lean ====
section
/-! DEFINITION. The management page (R484) and the host window (R493). -/
namespace Sys2Proof.Machine

/-! ### Features (R544) -/

/-- FEATOFF. -/
def State.featoff (s : State) : BitVec 128 :=
  let pool := s.pool.trained != 0
  BitVec.ofNat 128 (1 + at' (bit (s.svc == .full)) 1 + at' (bit pool) 2 + at' (bit (s.fabric.ports.any fun e => e.2.up)) 3 + at' 7 4 +
    at' (bit pool) 7)

/-- FEATON: what is offered, without FULL; a write that clears a bit is discarded while a context is resident. A bit that is set holds
for accesses that issue later, and without TDISP both ports are CONFIG_UNLOCKED. -/
def State.writeFeaton (s : State) (value : BitVec 128) : State :=
  let new := value &&& s.featoff &&& ~~~2
  let fresh := (List.range 8).filter fun b => new.getLsbD b && !s.host.feat.getLsbD b
  let open' (t : State) : State :=
    if new.getLsbD 6 then t
    else (t.updHostPort false fun p => { p with tdisp := .unlocked }).updHostPort true fun p => { p with tdisp := .unlocked }
  if s.host.feat &&& ~~~new != 0 && s.contexts.any fun e => e.2.resident then s
  else open' (s.updHost fun h => { h with feat := new, featAt := fresh.foldl (fun t b => tput b s.nextId t) h.featAt })

/-- R544: a write of FEATON. -/
def execFeatonWrite (r : PageReq) (value : BitVec 128) (s : State) : Out :=
  s.pageWrite r (if s.isHolder r.hp then s.writeFeaton value else s)

/-- Whether a port's writes of configuration are discarded: from CONFIG_LOCKED on (R482). -/
def State.locked (s : State) (hp : Bool) : Bool := (s.hostPort hp).tdisp != .unlocked

/-! ### Launch queues and partitions (R160, R484, R546) -/

/-- LQCFG: a write that changes PART or clears EN is discarded while the queue holds instances. -/
def State.writeLqcfg (s : State) (q : Nat) (value : Word) : State :=
  let en := value.getLsbD 31
  let part := field value 24 3
  if !(s.lq q).items.isEmpty && ((s.lq q).part != part || ((s.lq q).en && !en)) then s
  else s.updLq q fun x => { x with en := en, part := part }

/-- R160: a write of LQCFG. -/
def execLqcfgWrite (r : PageReq) (q : BitVec 6) (value : Word) (s : State) : Out :=
  s.pageWrite r (if s.isHolder r.hp && !s.locked r.hp then s.writeLqcfg q.toNat value else s)

/-- The pages that firmware keeps for claims in a cluster's vault: a free choice of a region (R413; log 8). -/
def claimPages (draw cluster : Nat) : List Nat :=
  let base := Config.freeNat draw % 65536
  (List.range (Config.freeNat (draw + 1) % (65536 - base))).map fun i => cluster * 0x10000000 + (base + i) * 0x1000

/-- The claim pool of a partition whose clusters have been written; pages claimed by its instances are not free, and none lies in an
instance record (R413, R564). -/
def State.fillPool (s : State) (n : Nat) : State :=
  let cs := (List.range 64).filter fun c => (s.part n).bitmap.getLsbD c
  let used := s.applied.flatMap fun e => e.2.pages
  let inRecord (p : Nat) : Bool := s.applied.any fun e => p < e.2.record + recordLen && e.2.record < p + 0x1000
  let pages := (cs.mapIdx fun i c => (claimPages (s.draws + 2 * i) c).filter fun p => !used.contains p && !inRecord p).flatten
  ({ s with draws := s.draws + 2 * cs.length } : State).updPart n fun p => { p with pool := pages }

/-- The clusters of the other partitions: none is in two, so that a bitmap is kept without them (R44; log 78). -/
def State.takenClusters (s : State) (n : Nat) : Word :=
  (List.range 8).foldl (fun w i => if i == n then w else w ||| (s.part i).bitmap) 0

/-- PCFG words: the bitmap, the ready queue, DBGEN, and PBUDGET, which takes effect at the next tick; the others are reserved. -/
def State.writePcfg (s : State) (n word : Nat) (value : Word) : State :=
  match word with
  | 0 => (s.updPart n fun p => { p with bitmap := value &&& ~~~s.takenClusters n }).fillPool n
  | 1 => s.updPart n fun p => { p with ready := value }
  | 2 => s.updPart n fun p => { p with dbgen := value.getLsbD 0 }
  | 3 => s.updPart n fun p => { p with pending := field value 0 16 }
  | _ => s

/-- R546: a write of PCFG. -/
def execPcfgWrite (r : PageReq) (part : BitVec 3) (word : BitVec 3) (value : Word) (s : State) : Out :=
  s.pageWrite r (if s.isHolder r.hp then s.writePcfg part.toNat word.toNat value else s)

/-! ### Freezes (R431, R467) -/

/-- A core is released: its fragments go on, and the faults determined meanwhile are taken. -/
def State.release (s : State) (core : Nat) : State :=
  if !(s.core core).frozen then s
  else
    let s1 := s.updCore core fun c => { c with frozen := false }
    let ks := (s1.frags.filter fun e => e.2.live && s1.coreOf e.1 == core).map (·.1)
    let s2 := ks.foldl (fun s k => s.settle k) s1
    (s2.accs.filter fun a => s2.coreOf a.frag == core && !a.pending).foldl (fun s a => s.checkAccess a.id) s2

/-- R431: a write of FRZREL. -/
def execFrzrel (r : PageReq) (core : Nat) (s : State) : Out := s.pageWrite r (if s.isHolder r.hp then s.release core else s)

/-! ### Noun ports, windows, counters and keys -/

/-- R489: a write of NPCTL. -/
def execNpctlWrite (r : PageReq) (np : BitVec 11) (value : Word) (s : State) : Out :=
  s.pageWrite r (if s.isHolder r.hp && !s.locked r.hp then s.writeNpctl np.toNat value else s)

/-- IMPORT keeps V and CTXNO (R513). -/
def importOf (w : BitVec 32) : BitVec 32 := w &&& 0x800FFFFF

/-- EXPWIN words: BASE, SIZE, CTL with OWNER, and the imports; reserved bits are not kept (R513). -/
def ExpWin.write (x : ExpWin) (word : Nat) (v : Word) : ExpWin :=
  let two := [importOf (v.setWidth 32), importOf ((v >>> 32).setWidth 32)]
  match word with
  | 0 => { x with base := v &&& 0xFFFFFFFFFF000 }
  | 1 => { x with size := v &&& 0xFFFFFFFFFFFFF000 }
  | 2 => { x with ctl := (v.setWidth 8) &&& 0xF, owner := field v 32 20 }
  | 3 => { x with imps := two ++ (takeFill 0 4 x.imps).drop 2 }
  | 4 => { x with imps := (takeFill 0 4 x.imps).take 2 ++ two }
  | _ => x

def State.writeExpwin (s : State) (win word : Nat) (v : Word) : State :=
  s.updHost fun h => { h with exp := tput win ((tget {} h.exp win).write word v) h.exp }

/-- R513: a write of EXPWIN; it applies to messages that arrive later. -/
def execExpwinWrite (r : PageReq) (win : BitVec 4) (word : BitVec 3) (value : Word) (s : State) : Out :=
  s.pageWrite r (if s.isHolder r.hp && !s.locked r.hp then s.writeExpwin win.toNat word.toNat value else s)

/-- A write sets a counter to zero; KEYGEN is read-only (R226). -/
def State.zeroCounter (s : State) (port ctr : Nat) : State :=
  if ctr < 8 then s.updFport port fun p => { p with counters := tput ctr 0 p.counters } else s

/-- R226: a write of a counter. -/
def execCounterClear (r : PageReq) (port : BitVec 4) (ctr : BitVec 4) (s : State) : Out :=
  s.pageWrite r (if s.isHolder r.hp then s.zeroCounter port.toNat ctr.toNat else s)

/-- A key slot is installed or erased. -/
def State.setKeySlot (s : State) (req : KeyReq) : State :=
  match req with
  | .install slot key ctx fixed =>
    s.updHost fun h => { h with keys := tput slot.toNat { key := key, ctx := ctx.toNat, fixed := fixed } h.keys }
  | .erase slot => s.updHost fun h => { h with keys := tdel slot.toNat h.keys }

/-- R373: firmware installs or erases a key slot at the lease holder's request. -/
def execKeySlotRequest (r : PageReq) (req : KeyReq) (s : State) : Out :=
  s.pageWrite r (if s.isHolder r.hp then s.setKeySlot req else s)

/-- A word of KEYREQ: the words then make a request, or none, to firmware; how they do is open (R373, R484; log 50). -/
def State.writeKeyreq (s : State) (word : Nat) (v : Word) : State :=
  let s1 := s.updHost fun h => { h with keyreq := tput word v h.keyreq }
  match Config.keyRequest ((List.range 8).map fun i => tget 0 s1.host.keyreq i) with
  | none => s1
  | some (slot, some (key, ctx, fixed)) => s1.setKeySlot (.install (BitVec.ofNat 10 slot) key (BitVec.ofNat 20 ctx) fixed)
  | some (slot, none) => s1.setKeySlot (.erase (BitVec.ofNat 10 slot))

/-! ### Other registers (R484, R485, R492, R493) -/

/-- A field of a command slot, its reserved bits discarded (R11); fields of a command that runs are not written (log 31). -/
def State.writeCs (s : State) (slot word : Nat) (v : Word) : State :=
  if (s.cs slot).busy then s
  else match word with
    | 0 => s.updCs slot fun c => { c with op := v.setWidth 8, flags := v.extractLsb' 8 8 &&& 3, tag := v.extractLsb' 16 16 }
    | 1 => s.updCs slot fun c => { c with target := v }
    | 2 => s.updCs slot fun c => { c with addr := v }
    | 3 => s.updCs slot fun c => { c with place := v }
    | 4 => s.updCs slot fun c => { c with limit := v }
    | 7 => if v == 1 then s.doorbell slot else s
    | _ => s

/-- A word of the MSI-X table of a port; bit 32 of an entry's second word is its mask. -/
def State.writeMsix (s : State) (hp : Bool) (word : Nat) (v : Word) : State :=
  let b : BitVec 16 := BitVec.ofNat 16 (2 ^ (word / 2))
  let s1 := s.updHostPort hp fun p =>
    { p with table := tput word v p.table
             mask := if word % 2 == 1 then (if v.getLsbD 32 then p.mask ||| b else p.mask &&& ~~~b) else p.mask }
  s1.deliverPending

/-- HWIN keeps EN, WR and BASE (R493). -/
def State.writeHwin (s : State) (n : Nat) (v : Word) : State :=
  s.updHost fun h => { h with hwin := tput n (v &&& 0xC00FFFFF00000000) h.hwin }

/-- Half of FEATON. -/
def State.writeFeatHalf (s : State) (high : Bool) (v : Word) : State :=
  let f := s.host.feat
  s.writeFeaton (if high then (v ++ f.setWidth 64 : BitVec 128) else ((f >>> 64).setWidth 64 ++ v : BitVec 128))

/-- Bits of FRZREL (R484). -/
def State.writeFrzrel (s : State) (word : Nat) (v : Word) : State :=
  ((List.range 64).filter fun b => v.getLsbD b).foldl (fun s b => s.release (64 * word + b)) s

/-- A register that only the lease holder writes. -/
def State.holderWrite (s : State) (hp : Bool) (o : Nat) (v : Word) : State :=
  if o == 0x110 || o == 0x118 then s.writeFeatHalf (o == 0x118) v
  else if 0x1000 ≤ o && o < 0x1200 then (if s.locked hp then s else s.writeLqcfg ((o - 0x1000) / 8) v)
  else if 0x2000 ≤ o && o < 0x2200 then s.writePcfg ((o - 0x2000) / 64) (o % 64 / 8) v
  else if 0x3000 ≤ o && o < 0x30C0 then s.writeFrzrel ((o - 0x3000) / 8) v
  else if 0x4000 ≤ o && o < 0x4400 then s.writeCs ((o - 0x4000) / 64) (o % 64 / 8) v
  else if 0x5000 ≤ o && o < 0x5800 then s.zeroCounter ((o - 0x5000) / 128) (o % 128 / 8)
  else if 0x6000 ≤ o && o < 0x6400 then (if s.locked hp then s else s.writeExpwin ((o - 0x6000) / 64) (o % 64 / 8) v)
  else if 0x7000 ≤ o && o < 0x7080 then (if s.locked hp then s else s.writeHwin ((o - 0x7000) / 8) v)
  else if o == 0x8100 then s.writePoolrel v
  else if 0x9000 ≤ o && o < 0xD000 then (if s.locked hp then s else s.writeNpctl ((o - 0x9000) / 8) v)
  else if 0xD000 ≤ o && o < 0xD040 then s.writeKeyreq ((o - 0xD000) / 8) v
  else s

/-- A write of a register at an offset from a port; a write that is not allowed changes nothing. DESIGN CHOICE: nor does one at an
offset that is no multiple of 8, of which the manual does not speak (log 50). -/
def State.writeRegister (s : State) (hp : Bool) (o : Nat) (value : Word) : State :=
  if o % 8 != 0 then s
  else if o == 0 then s.writeLease hp value
  else if o == 8 then s.setStandby hp (value.getLsbD (bit hp))
  else if o == 0x10 + 8 * bit hp then (if value.getLsbD 1 then s.clearGone hp else s)
  else if o == 0x20 then (if value == 1 then s.restartHost hp else s)
  else if 0xE000 ≤ o && o < 0xE100 then s.writeMsix hp ((o - 0xE000) / 8) value
  else if s.isHolder hp then s.holderWrite hp o value
  else s

/-- R484: a write of a register of the page. -/
def execRegisterWrite (r : PageReq) (off : BitVec 16) (value : Word) (s : State) : Out :=
  s.pageWrite r (s.writeRegister r.hp off.toNat value)

/-! ### Reads of the page (R9, R484) -/

/-- LEASE (R486). -/
def Lease.word (l : Lease) : Word := wordOf (at' (bit l.valid) 63 + at' (bit l.holder) 62 + l.expiry % 2 ^ 62)

/-- HSTAT (R491). -/
def HostPort.hstat (p : HostPort) : Word := wordOf (bit p.linkup + at' (bit p.gone) 1)

/-- LQCFG with COUNT (R160). -/
def LaunchQ.word (q : LaunchQ) : Word := wordOf (at' (bit q.en) 31 + at' q.part 24 + q.items.length)

/-- A word of PCFG (R484, R546). -/
def Part.read (p : Part) (word : Nat) : Word :=
  match word with
  | 0 => p.bitmap
  | 1 => p.ready
  | 2 => wordOf (bit p.dbgen)
  | 3 => wordOf p.pending
  | _ => 0

/-- A word of a freeze record (R484). -/
def FrzRec.read (r : FrzRec) (high : Bool) : Word := if high then r.time else wordOf (r.code.toNat + at' r.coord.toNat 32)

/-- A word of a command slot: only RESULT is not write-only (R485). -/
def CsCmd.read (c : CsCmd) (word : Nat) : Word := if word == 6 then c.result else 0

/-- A word of EXPWIN (R513). -/
def ExpWin.read (x : ExpWin) (word : Nat) : Word :=
  let imp (i : Nat) : Nat := (nth 0 x.imps i).toNat
  match word with
  | 0 => x.base
  | 1 => x.size
  | 2 => wordOf (x.ctl.toNat + at' x.owner 32)
  | 3 => wordOf (imp 0 + at' (imp 1) 32)
  | 4 => wordOf (imp 2 + at' (imp 3) 32)
  | _ => 0

/-- A word of POOLCFG (R495). -/
def Pool.read (p : Pool) (word : Nat) : Word :=
  let port (i : Nat) : Nat := at' (nth 0 p.order i % 256) (8 * i)
  let ports (a : Nat) : Nat := (List.range 16).foldl (fun n i => n + port i) 0 / 2 ^ (8 * a)
  match word with
  | 0 => wordOf (p.ways + at' p.gran 8 + at' (ports 0 % 2 ^ 32) 32)
  | 1 => wordOf (ports 4 % 2 ^ 64)
  | 2 => wordOf (ports 12 % 2 ^ 32 + at' p.extents.length 32)
  | 3 => 0
  | _ => match tfind p.extents (word - 4) with
    | some e => wordOf (e.1 % 2 ^ 32 + at' (e.2 % 2 ^ 32) 32)
    | none => 0

/-- An NPCTL entry (R484). -/
def NounPort.ctl (p : NounPort) : Word := wordOf (at' (bit p.en) 63 + p.ctx)

/-- A word of the MSI-X table of a port; the mask bit of an entry is the one in force, set at reset (R492). -/
def HostPort.msixWord (p : HostPort) (word : Nat) : Word :=
  let w := tget 0 p.table word
  if word % 2 == 1 then setField w 32 1 (bit (p.mask.getLsbD (word / 2))) else w

/-- What a host reads at an aligned offset of the management page: write-only and unlisted registers read zero (R9, R484). DESIGN
CHOICE: FRZREL and HRESTART, for which R484 and R490 give no access code, read zero, KEYREQ reads what was written, and an offset that
is no multiple of 8 reads zero, as it discards writes (log 50). -/
def State.pageRead (s : State) (hp : Bool) (o : Nat) : Word :=
  let h := s.host
  if o % 8 != 0 then 0
  else if o == 0 then ({ h.lease with valid := s.leaseHeld } : Lease).word
  else if o == 8 then h.standby.setWidth 64
  else if o == 0x10 then h.hp0.hstat
  else if o == 0x18 then h.hp1.hstat
  else if o == 0x100 then s.featoff.setWidth 64
  else if o == 0x108 then (s.featoff >>> 64).setWidth 64
  else if o == 0x110 then h.feat.setWidth 64
  else if o == 0x118 then (h.feat >>> 64).setWidth 64
  else if 0x1000 ≤ o && o < 0x1200 then (s.lq ((o - 0x1000) / 8)).word
  else if 0x2000 ≤ o && o < 0x2200 then (s.part ((o - 0x2000) / 64)).read (o % 64 / 8)
  else if 0x3100 ≤ o && o < 0x3200 then
    match tfind h.frzrec ((o - 0x3100) / 16) with
    | some r => r.read (o % 16 == 8)
    | none => 0
  else if o == 0x3200 then wordOf (h.frzprod % 2 ^ 32)
  else if 0x4000 ≤ o && o < 0x4400 then (s.cs ((o - 0x4000) / 64)).read (o % 64 / 8)
  else if 0x5000 ≤ o && o < 0x5800 then wordOf (tget 0 (s.fport ((o - 0x5000) / 128)).counters (o % 128 / 8))
  else if 0x6000 ≤ o && o < 0x6400 then (tget {} h.exp ((o - 0x6000) / 64)).read (o % 64 / 8)
  else if 0x7000 ≤ o && o < 0x7080 then tget 0 h.hwin ((o - 0x7000) / 8)
  else if 0x8000 ≤ o && o < 0x8100 then s.pool.read ((o - 0x8000) / 8)
  else if 0x9000 ≤ o && o < 0xD000 then (s.nport ((o - 0x9000) / 8)).ctl
  else if 0xD000 ≤ o && o < 0xD040 then tget 0 h.keyreq ((o - 0xD000) / 8)
  else if 0xE000 ≤ o && o < 0xE100 then (s.hostPort hp).msixWord ((o - 0xE000) / 8)
  else if o == 0xE800 then h.pending.setWidth 64
  else 0

/-- The answer to a host's read of the management page: in RUN only with the T bit (R482). -/
def State.pageAnswer (s : State) (r : PageReq) (o : Nat) : HostMsg :=
  if s.takes r then .data r.hp (bytesOf (s.pageRead r.hp o).toNat 8) false else .dropped r.hp

/-- What a host reads at an offset of a noun port's page (R394, R489). -/
def nounPageRead (_np _o : Nat) : Word := 0

/-- The answer to a host's read of a noun port's page: Completer Abort in ERROR, and in RUN data only with the T bit (R482). -/
def State.nounPageAnswer (s : State) (r : PageReq) (np o : Nat) : HostMsg :=
  if (s.hostPort r.hp).tdisp == .error then .abort r.hp
  else if s.takes r then .data r.hp (bytesOf (nounPageRead np o).toNat 8) false else .dropped r.hp

/-! ### The host window (R482, R493) -/

def State.say (s : State) (m : HostMsg) : State := s.updHost fun h => { h with out := h.out ++ [m] }

/-- Where a request to BAR4 goes: the key of its first byte, or the answer that refuses it. -/
def State.windowKey (s : State) (hp tbit : Bool) (off : BitVec 36) (n : Nat) (writes : Bool) : Except HostMsg Nat :=
  let w := tget 0 s.host.hwin (off.toNat / 2 ^ 32)
  let a := field w 32 20 * 2 ^ 32 + off.toNat % 2 ^ 32
  if (s.hostPort hp).tdisp == .error then .error (.abort hp)
  else if (s.hostPort hp).tdisp == .run && !tbit then .error (.dropped hp)
  else if !w.getLsbD 63 || (writes && !w.getLsbD 62) then .error (.dropped hp)
  else if off.toNat % 2 ^ 32 + n > 2 ^ 32 then .error (.dropped hp)
  else if (inVault a && a + n ≤ vaultTop) || (inPool a && a + n ≤ poolTop) then .ok a
  else .error (.dropped hp)

/-- The bytes of a request as parts with paths. -/
def windowPiece (a n : Nat) : Piece := ⟨a, n, if inVault a then 1 else 2, 2⟩

/-- R493: a host read: strong, an acquire at system scope. Poison gives poisoned data; a pool that does not answer is Unsupported
Request (log 35). -/
def execHostWindowRead (hp : Bool) (tbit : Bool) (off : BitVec 36) (bytes : Nat) (s : State) : Out :=
  match s.windowKey hp tbit off bytes false with
  | .error m => .next (s.say m)
  | .ok a => match s.pathCheck s.nextId 0 true false (windowPiece a bytes) with
    | (none, s1) => .next (s1.say (.data hp (readBytes s1.mem a bytes) false))
    | (some e, s1) =>
      if e.2 == 0x0A || e.2 == 0x03 then .next (s1.say (.data hp (readBytes s1.mem a bytes) true)) else .next (s1.say (.dropped hp))

/-- The tag of a host's release (R452, R455). -/
def hostTag : Tag := { outside := 2, scope := .sys, phrase := 0, inst := 0, course := noCourse, core := 0 }

/-- R493: a host write: strong, a release at system scope. -/
def execHostWindowWrite (hp : Bool) (tbit : Bool) (off : BitVec 36) (data : List Byte) (s : State) : Out :=
  let n := data.length
  match s.windowKey hp tbit off n true with
  | .error m => .next (s.say m)
  | .ok a => match s.pathCheck s.nextId 0 false true (windowPiece a n) with
    | (some _, s1) => .next (s1.say (.dropped hp))
    | (none, s1) =>
      let ps := [windowPiece a n]
      .next (((s1.updMem (writeBytes a data)).heal (pieceKeys ps)).putTags ps (some hostTag))

/-- The operation of an AtomicOp. -/
def hostAmo : HostAtomic → AmoOp
  | .fetchAdd => .add
  | .swap => .swap
  | .cas => .cas

/-- R493: a host AtomicOp at its natural alignment, by the atomic engine or the pool agent. -/
def execHostWindowAtomicop (hp : Bool) (tbit : Bool) (off : BitVec 36) (op : HostAtomic) (w64 : Bool) (operand compare : Word)
    (s : State) : Out :=
  let n := if w64 then 8 else 4
  match s.windowKey hp tbit off n true with
  | .error m => .next (s.say m)
  | .ok a => if off.toNat % n != 0 then .next (s.say (.dropped hp)) else match s.pathCheck s.nextId 0 true true (windowPiece a n) with
    | (some e, s1) =>
      if e.2 == 0x0A || e.2 == 0x03 then .next (s1.say (.data hp (readBytes s1.mem a n) true)) else .next (s1.say (.dropped hp))
    | (none, s1) =>
      let ps := [windowPiece a n]
      let old := readNat s1.mem a n
      let s2 := match amoNew (hostAmo op) (8 * n) old operand.toNat compare.toNat with
        | some v => (s1.updMem (writeNat a n v)).putTags ps (some hostTag)
        | none => s1
      .next (s2.say (.data hp (bytesOf old n) false))

end Sys2Proof.Machine
end

