-- ==== Sys2Proof/Machine/Syscalls.lean ====
section
/-! DEFINITION. System calls: vsysc (R326), the ring (R178-R180), and the calls of the service cores (R327, R328). -/
namespace Sys2Proof.Machine

/-! ### The ring (R178) -/

/-- SCENT of a context (R190). -/
def State.scent (s : State) (ctx : Nat) : Nat := 2 ^ field (s.ctx ctx).misc 8 4

def State.scbase (s : State) (ctx : Nat) : Nat := (s.ctx ctx).scbase.toNat

def State.ringProd (s : State) (ctx : Nat) : Nat := readNat s.mem (s.scbase ctx) 8
def State.ringCons (s : State) (ctx : Nat) : Nat := readNat s.mem (s.scbase ctx + 8) 8

/-- The address of entry `j`. -/
def State.ringEntry (s : State) (ctx j : Nat) : Nat := s.scbase ctx + 128 + 1152 * (j % s.scent ctx)

def entryState (e : Nat) : Nat := e + 20

/-- The record of lane `l`. -/
def laneRecord (e l : Nat) : Nat := e + 128 + 32 * l

/-! ### vsysc (R179, R326) -/

/-- vsysc does not issue while the ring is full. -/
def State.ringFull (s : State) (ctx : Nat) : Bool := s.ringProd ctx - s.ringCons ctx == s.scent ctx

/-- The arguments of a lane; absent ones are zero. -/
def State.syscArg (s : State) (f : LaneFields) (n : Nat) (o : Operand) (l : Nat) : Nat :=
  if n < field f.imm 16 2 then s.src f o 64 l else 0

/-- The header and the records of the active lanes are written (R178). -/
def State.writeEntry (s : State) (f : LaneFields) (e seq : Nat) : State :=
  let ls := lanesOf s.lmask
  let w := ls.map fun l => (laneRecord e l, s.syscArg f 0 f.va l, s.syscArg f 1 f.vb l, s.syscArg f 2 f.vc l)
  let m1 := w.foldl (fun m x => writeNat x.1 8 x.2.1 (writeNat (x.1 + 8) 8 x.2.2.1 (writeNat (x.1 + 16) 8 x.2.2.2 m))) s.mem
  let m2 := writeNat e 8 seq (writeNat (e + 8) 8 s.myPhr.noun.toNat (writeNat (e + 16) 4 s.lmask.toNat m1))
  { s with mem := writeNat (e + 21) 2 (field f.imm 0 16) (writeNat (e + 23) 1 s.me.num (writeNat (entryState e) 1 0 m2)) }

/-- Whether an entry's release still waits for an earlier access of its fragment (R326). -/
def State.postWaits (s : State) (y : Sysc) : Bool :=
  (s.accs ++ s.held).any fun b => b.frag == y.frag && b.id < y.id && fenceHolds ⟨.rel, .dev⟩ b

/-- An entry of the ring as the module keeps it is changed. -/
def State.updSysc (s : State) (id : Nat) (g : Sysc → Sysc) : State := { s with syscs := s.syscs.map fun y => if y.id == id then g y else y }

/-- STATE becomes 1 when the release is performed (R179). -/
def State.post (s : State) (y : Sysc) : State :=
  if s.postWaits y then s else (s.updMem (writeNat (entryState y.entry) 1 1)).updSysc y.id fun y => { y with posted := true }

def laneReg (f : LaneFields) : Nat := match f.vd with | .v n => n.toNat | _ => 0

/-- R326: vsysc reserves an entry and posts it; under an empty mask it completes at once (R110). -/
def execVsysc (f : LaneFields) (s : State) : Out :=
  let ctx := s.myCtx
  if s.lmask == 0 then .next (s.laneIssued f)
  else if s.ringFull ctx then .next s
  else
    let c := s.clause
    let seq := s.ringProd ctx
    let e := s.ringEntry ctx seq
    let y0 : Sysc := { id := s.nextId, frag := s.cur, entry := e, seq := seq, ctx := ctx, vd := laneReg f, mask := s.lmask, core := s.myCore }
    let y : Sysc := { y0 with posted := !s.postWaits y0 }
    let o : LaneOp := { id := s.nextId, frag := s.cur, flag := c.flagOf f.fb, clause := c.num }
    let s1 := (s.writeEntry f e seq).updMem (writeNat (s.scbase ctx) 8 (seq + 1))
    let s2 : State := { s1 with syscs := s1.syscs ++ [y], laneOps := s1.laneOps ++ [o] }
    .next ((if y.posted then s2.updMem (writeNat (entryState e) 1 1) else s2).laneIssued f)

/-! ### The calls (R327) -/

/-- The size that an ALLOC takes: rounded up to a power of two of at least 4 KiB. -/
def blockSize (n : Nat) : Nat := 2 ^ (((List.range 31).find? fun k => 12 ≤ k && n ≤ 2 ^ k).getD 30)

/-- A zone's physical range: the issuer's cluster vault, any vault, or the pool. -/
def zoneRange (core zone : Nat) : Nat × Nat :=
  match zone with
  | 0 => (clusterOf core * 0x10000000, clusterOf core * 0x10000000 + 0x10000000)
  | 1 => (0, vaultTop)
  | _ => (poolBase, poolTop)

/-- The heap range of a context (R132, R133). -/
def Ctx.heap (x : Ctx) : Nat × Nat :=
  let base := field x.hbase 21 35 * 0x200000
  (base, min (base + field x.hlim 21 36 * 0x200000) (2 ^ 56))

def Ctx.heapPa (x : Ctx) (va : Nat) : Nat := (va + field x.hoff 21 31 * 0x200000) % 2 ^ 52

/-- Whether a block of `n` bytes may be given at an address: aligned, in the heap and the zone, and free. -/
def Ctx.blockOk (x : Ctx) (core zone n va : Nat) : Bool :=
  let z := zoneRange core zone
  let h := x.heap
  va != 0 && va % n == 0 && h.1 ≤ va && va + n ≤ h.2 && z.1 ≤ x.heapPa va && x.heapPa va + n ≤ z.2 &&
  x.allocs.all fun b => va + n ≤ b.1 || b.1 + b.2 ≤ va

/-- The addresses at which the lowest free block can start. -/
def Ctx.blockStarts (x : Ctx) (core zone n : Nat) : List Nat :=
  let z := zoneRange core zone
  let off := field x.hoff 21 31 * 0x200000
  let zs := (List.range 17).map fun k => k * 2 ^ 52 + z.1 + 2 ^ 52 - off
  ((x.heap.1 :: zs) ++ zs.map (· - 2 ^ 52) ++ x.allocs.map (fun (b : Nat × Nat) => b.1 + b.2)).map fun a => alignUp (max a 1) n

/-- The block that ALLOC gives: a free choice among the addresses that the manual allows, the lowest when the choice is none of them
(log 12); zero when there is none. -/
def Ctx.pickBlock (x : Ctx) (core zone n draw : Nat) : Nat :=
  let want := (Config.freeWord draw).toNat
  if x.blockOk core zone n want then want
  else ((x.blockStarts core zone n).filter (x.blockOk core zone n)).foldl (fun b a => if b == 0 || a < b then a else b) 0

/-- One lane's call: its result. -/
def State.syscall (s : State) (ctx core call a0 a1 : Nat) : Nat × State :=
  match call with
  | 0 => (0, s)
  | 1 =>
    if a0 == 0 || a0 > 2 ^ 30 || a1 > 2 then (0, s)
    else
      let n := blockSize a0
      let va := (s.ctx ctx).pickBlock core a1 n s.draws
      if va == 0 then (0, s.drawn) else (va, s.drawn.updCtx ctx fun x => { x with allocs := x.allocs ++ [(va, n)] })
  | 2 =>
    if (s.ctx ctx).allocs.any fun b => b.1 == a0 then (0, s.updCtx ctx fun x => { x with allocs := x.allocs.filter fun b => b.1 != a0 })
    else (1, s)
  | _ => (0xFFFFFFFFFFFFFFFF, s)

/-- The lanes of an entry are served in increasing number (R180). -/
def State.serveLanes (s : State) (y : Sysc) (call : Nat) : List Nat → State
  | [] => s
  | l :: ls =>
    let r := laneRecord y.entry l
    let x := s.syscall y.ctx y.core call (readNat s.mem r 8) (readNat s.mem (r + 8) 8)
    (x.2.updMem (writeNat (r + 24) 8 x.1)).serveLanes y call ls

/-- The entry of lowest SEQ among some. -/
def lowestSeq (ys : List Sysc) : Option Sysc :=
  ys.foldl (fun b y => match b with
    | none => some y
    | some x => if y.seq < x.seq then some y else some x) none

/-- What may happen next to an entry of a context's ring: its release is performed, a service core takes it, or its service ends. -/
inductive SyscStep where
  | post (y : Sysc)
  | take (y : Sysc)
  | finish (y : Sysc)
  deriving DecidableEq, Repr

/-- The entries that a context's ring is to post. -/
def State.toPost (s : State) (ctx : Nat) : List SyscStep :=
  (s.syscs.filter fun y => y.ctx == ctx && !y.posted && !s.postWaits y).map .post

/-- The entry that a service core takes next: that of lowest SEQ, once it is posted and fewer than eight are in service. -/
def State.toTake (s : State) (ctx : Nat) : List SyscStep :=
  match lowestSeq (s.syscs.filter fun y => y.ctx == ctx && !y.serving && !y.done) with
  | some y => if y.posted && (s.syscs.filter fun x => x.serving && !x.done).length < 8 then [.take y] else []
  | none => []

/-- The entries whose service may end: of one phrase, the first that it issued; of different phrases, any. -/
def State.toFinish (s : State) (ctx : Nat) : List SyscStep :=
  let inService := s.syscs.filter fun y => y.ctx == ctx && y.serving && !y.done
  (inService.filter fun y => !(inService.any fun x => phraseOf x.frag == phraseOf y.frag && x.seq < y.seq)).map .finish

def State.syscSteps (s : State) (ctx : Nat) : List SyscStep := s.toPost ctx ++ s.toTake ctx ++ s.toFinish ctx

/-- Whether the service of a context's ring can go on now. -/
def State.syscReady (s : State) (ctx : Nat) : Bool := !(s.syscSteps ctx).isEmpty

/-- An entry is posted, taken with STATE 2, or served: its lanes' calls are made, and STATE is 3. -/
def State.syscGoes (s : State) (x : SyscStep) : State :=
  match x with
  | .post y => s.post y
  | .take y => (s.updMem (writeNat (entryState y.entry) 1 2)).updSysc y.id fun y => { y with serving := true }
  | .finish y =>
    ((s.serveLanes y (readNat s.mem (y.entry + 21) 2) (lanesOf (BitVec.ofNat 32 (readNat s.mem (y.entry + 16) 4)))).updMem
      (writeNat (entryState y.entry) 1 3)).updSysc y.id fun y => { y with done := true }

/-- R179, R180: the service of a context's ring goes on by one step, an open choice where several may be next (log 2). -/
def execSyscallServe (ctx : Nat) (s : State) : Out :=
  match s.syscSteps ctx with
  | [] => .next s
  | [x] => .next (s.syscGoes x)
  | x :: xs => .next (s.drawn.syscGoes (nth x (x :: xs) (Config.pick s.draws (xs.length + 1) % (xs.length + 1))))

/-! ### The results (R180, R328) -/

/-- CONS goes on past every leading free entry. -/
def State.ringAdvance (s : State) (ctx : Nat) : Nat → Nat → Nat
  | 0, c => c
  | n + 1, c => if c < s.ringProd ctx && !(s.syscs.any fun y => y.ctx == ctx && y.seq == c) then s.ringAdvance ctx n (c + 1) else c

/-- Whether the results of an entry can be copied: its phrase is resident, or has ended. -/
def State.resultReady (s : State) (y : Sysc) : Bool := y.done && (y.orphan || (s.phr (phraseOf y.frag)).present)

/-- R180: the results go to the destination lanes, the entry is free, and the flag clears. -/
def execSyscallResultCopy (id : Nat) (s : State) : Out :=
  match s.syscs.find? fun y => y.id == id with
  | none => .next s
  | some y =>
    if !s.resultReady y then .next s
    else
      let p := phraseOf y.frag
      let res (l : Nat) : Nat := readNat s.mem (laneRecord y.entry l + 24) 8
      let ws := (lanesOf y.mask).flatMap fun l => laneWrites .u64 y.vd l (res l)
      let s1 := if y.orphan then s else (s.updPhr p fun q => putLanes q ws)
      let s2 : State := { s1 with syscs := s1.syscs.filter fun x => x.id != id, laneOps := s1.laneOps.filter fun o => o.id != id
                                  mem := writeNat (entryState y.entry) 1 0 s1.mem }
      let s3 := s2.updMem (writeNat (s2.scbase y.ctx + 8) 8 (s2.ringAdvance y.ctx (s2.scent y.ctx) (s2.ringCons y.ctx)))
      .next (if y.orphan then s3 else (s3.acquire y.frag .dev).settle y.frag)

end Sys2Proof.Machine
end

