-- ==== Sys2Proof/Machine/Issue.lean ====
section
/-! DEFINITION. What can issue: interlocks (R94), instructions that are held, and the choice of a slot (R50, R55, R187-R189). -/
namespace Sys2Proof.Machine

/-! ### Scalar instructions -/

/-- The registers that hold the addresses of a copy's records (R361). -/
def copyRegs (ops : CopyOps) : List SReg :=
  match ops with
  | .mem sa sb _ => [sa, sb]
  | .fromGutter _ sb => [sb]
  | .toGutter sa _ => [sa]

/-- The scalar registers that a scalar instruction names, or copies to a new aside (R94, R261). -/
def scalarRegs (i : Instr) : List SReg :=
  match i with
  | .sadd sd sa sb | .ssub sd sa sb | .smul sd sa sb | .smulh sd sa sb | .smulhu sd sa sb | .sdiv sd sa sb
  | .sdivu sd sa sb | .srem sd sa sb | .sremu sd sa sb | .sand sd sa sb | .sor sd sa sb | .sxor sd sa sb
  | .sandn sd sa sb | .sshl sd sa sb | .sshr sd sa sb | .ssra sd sa sb | .smin sd sa sb | .sminu sd sa sb
  | .smax sd sa sb | .smaxu sd sa sb | .sseq sd sa sb | .ssne sd sa sb | .sslt sd sa sb | .ssltu sd sa sb
  | .ssle sd sa sb | .ssleu sd sa sb | .scas sd sa sb _ _ | .samoAdd sd sa sb _ _ | .samoAnd sd sa sb _ _
  | .samoOr sd sa sb _ _ | .samoXor sd sa sb _ _ | .samoMin sd sa sb _ _ | .samoMax sd sa sb _ _
  | .samoMinu sd sa sb _ _ | .samoMaxu sd sa sb _ _ | .samoSwap sd sa sb _ _ | .fset sd sa sb _ | .nsignal sd sa sb
  | .ndeposit sd sa sb _ _ | .kapply sd sa sb _ | .kemit sd sa sb _ | .tlbfill sd sa sb _ | .tlbinv sd sa sb _ _
  | .vtinv sd sa sb _ _ => [sd, sa, sb]
  | .sclz sd sa | .sctz sd sa | .spopc sd sa | .sbrev sd sa | .sbfx sd sa _ _ | .sbfi sd sa _ _ | .saddi sd sa _
  | .sandi sd sa _ | .sori sd sa _ | .sxori sd sa _ | .sshli sd sa _ | .sshri sd sa _ | .ssrai sd sa _ | .sslti sd sa _
  | .ssltiu sd sa _ | .sjalr sd sa | .sld sd sa _ _ | .sldu sd sa _ _ | .sst sd sa _ _ | .fget sd sa
  | .ftest sd sa | .slq1 sd sa _ | .cpcancel sd sa | .mxgive sd sa | .senrol sd sa | .nwake sd sa | .ntest sd sa
  | .kyield sd sa | .kcancel sd sa | .ntinv sd sa _ _ | .skill sd sa => [sd, sa]
  | .ssel sd sa sb sc => [sd, sa, sb, sc]
  | .slimm0 sd _ | .slimm1 sd _ | .slimm2 sd _ | .slimm3 sd _ | .sget sd _ | .gstat sd _ | .cpseal sd | .sleave sd
  | .sgrow sd _ | .sshrink sd _ | .kdone sd => [sd]
  | .sbCond _ sa _ | .sjal sa _ | .sjr sa | .sset _ sa | .slq0 sa _ | .swaitp _ sa | .gdef _ sa | .gadvP _ sa
  | .gadvC _ sa | .mxask sa _ | .nexit sa => [sa]
  | .njoin sd sf sa | .ktake sd sf sa => [sd, sf, sa]
  | .kseq sd sa sb sp | .kpar sd sa sb sp | .kpipe sd sa sb sp | .kloop sd sa sb sp => [sd, sa, sb, sp]
  | .kfarm sd sa sp => [sd, sa, sp]
  | .cpcopy ops | .cpcrypt ops | .cpresume ops => copyRegs ops
  | .ssplit _ _ _ => (List.range 64).map fun n => BitVec.ofNat 6 n
  | .kresume sd sf sa sb => [sd, sf, sa, sb]
  | .slq2 sd sa _ => sa :: (List.range 2).map fun j => sd + BitVec.ofNat 6 j
  | .slq3 sd sa _ => sa :: (List.range 3).map fun j => sd + BitVec.ofNat 6 j
  | .slq4 sd sa _ => sa :: (List.range 4).map fun j => sd + BitVec.ofNat 6 j
  | _ => []

/-- Whether a register that an instruction names awaits a result (R94). -/
def State.interlocked (s : State) (i : Instr) : Bool := (scalarRegs i).any fun r => s.busyReg s.cur r

/-- A scalar access finds no room (R143, R218). -/
def State.accFull (s : State) (kind : AccKind) (bytes : Nat) (addr : Word) : Bool := !s.accessRoom s.cur kind bytes [addr.toNat]

/-- A scalar atomic finds no room. -/
def State.amoFull (s : State) (op : AmoOp) (w64 : Bool) (sa : SReg) : Bool := s.accFull (.amo op true) (if w64 then 8 else 4) (s.r sa)

/-- slq finds its queue full, at an address that it does not refuse (R166, R264). -/
def State.slqHeld (s : State) (sa : SReg) (off : BitVec 12) : Bool :=
  (s.clauseAddr sa off).extractLsb' 0 4 == 0 && s.slqFull

/-- A barrier is held before its arrival (R403). -/
def State.barrierHeld (s : State) (kind : Nat) : Bool :=
  s.myPhr.asides == 0 && (s.courseOf (phraseOf s.cur)).isSome && !s.letPast kind && s.barrierStalls

/-- kyield is held once every fragment on the phrase's other side has been stopped. -/
def State.yieldHeld (s : State) : Bool := s.mayYield && s.yieldWaits && s.stopMate (phraseOf s.cur) == s

/-- Whether the next scalar instruction of the issuing fragment is held: its queue, engine, entries or condition does not let it
issue (R187). -/
def scalarStalls (i : Instr) (s : State) : Bool :=
  match i with
  | .sld _ sa sz off | .sldu _ sa sz off => s.accFull .load (sizeOf sz) (s.scalarAddr sa sz off)
  | .sst _ sa sz off => s.accFull .store (sizeOf sz) (s.scalarAddr sa sz off)
  | .scas _ sa _ _ w64 => s.amoFull .cas w64 sa
  | .samoAdd _ sa _ _ w64 => s.amoFull .add w64 sa
  | .samoAnd _ sa _ _ w64 => s.amoFull .and w64 sa
  | .samoOr _ sa _ _ w64 => s.amoFull .or w64 sa
  | .samoXor _ sa _ _ w64 => s.amoFull .xor w64 sa
  | .samoMin _ sa _ _ w64 => s.amoFull .min w64 sa
  | .samoMax _ sa _ _ w64 => s.amoFull .max w64 sa
  | .samoMinu _ sa _ _ w64 => s.amoFull .minu w64 sa
  | .samoMaxu _ sa _ _ w64 => s.amoFull .maxu w64 sa
  | .samoSwap _ sa _ _ w64 => s.amoFull .swap w64 sa
  | .fset _ sa _ force => s.accFull (.fset force) 8 (s.r sa)
  | .fget _ sa => s.accFull .fget 16 (s.r sa)
  | .ftest _ sa => s.accFull .ftest 8 (s.r sa)
  | .slq0 sa off | .slq1 _ sa off | .slq2 _ sa off | .slq3 _ sa off | .slq4 _ sa off => s.slqHeld sa off
  | .swaitf mask => !s.swaitfDone mask
  | .swaitp path sa => !s.swaitpDone path (s.r sa).toNat
  | .slsync => !s.slsyncDone
  | .smerge mark => s.smergeWaits mark
  | .seret | .seretSkip => s.seretWaits
  | .sgrow _ _ | .sshrink _ _ => s.resizeWaits
  | .sbar => s.barrierHeld 0
  | .sclbar => s.barrierHeld 1 && ((s.courseOf (phraseOf s.cur)).any fun c => c.place == 1)
  | .slbar => s.myPhr.mate.isSome && !s.letPast 2 && s.barrierStalls
  | .gdef g _ => s.gdefWaits g.toNat
  | .gadvP g sa => s.gadvStalls g.toNat false (s.r sa)
  | .gadvC g sa => s.gadvStalls g.toNat true (s.r sa)
  | .cpseal _ => s.cpsealWaits
  | .cpwait n => s.cpwaitWaits n
  | .mxgive _ _ => s.mxgiveWaits
  | .kseq _ _ _ _ | .kpar _ _ _ _ | .kpipe _ _ _ _ | .kfarm _ _ _ | .kloop _ _ _ _ | .kapply _ _ _ _ => s.combWaits
  | .kemit _ _ sb farm => s.combWaits || s.emitHeld farm (s.r sb)
  | .ktake _ _ _ => s.takeHeld
  | .kdone _ => s.doneHeld
  | .kyield _ _ => s.yieldHeld
  | .nexit _ => s.nexitWaits
  | _ => false

/-- Whether a fragment's core runs: it is not frozen, and its cluster belongs to the partition of its context and is not gated: a
cluster that PCFG no longer gives the partition runs nothing of its contexts (R44; log 81). -/
def State.coreRuns (s : State) (k : Nat) : Bool :=
  let c := s.coreOf k
  !(s.core c).frozen && !(s.cluster (clusterOf c)).gated && (s.part (s.partOf (s.ctxOf k))).bitmap.getLsbD (clusterOf c)

/-- Whether a fragment stands in a slot of a core that runs, and has not stopped. -/
def State.inSlot (s : State) (k : Nat) : Bool :=
  let f := s.frag k
  f.live && f.slot.isSome && !f.stopped && !isWalkerKey k && s.coreRuns k && (s.phr (phraseOf k)).present

/-- Whether a fragment's scalar stream looks for its next instruction: it waits for nothing (R52), its phrase has the token that its
restore takes and its entries served (R337, R478), and no fault is to be taken first (R371, R466, R478). -/
def State.scalarRuns (s : State) (k : Nat) : Bool :=
  let f := s.frag k
  s.inSlot k && f.wait == .none && f.hwait.isNone && !f.pwait.waiting && !(s.phr (phraseOf k)).stalled && !f.faultFirst false &&
  (s.copyFaultOf k).isNone

/-- The next scalar instruction of a fragment, and the state after its fetch; none where the fetch waits (R143, R234, R259). -/
def State.scalarNext (s : State) (k : Nat) : Option (Instr × State) :=
  let f := s.frag k
  match f.fetch with
  | .waits _ => none
  | .failed c sub a => some (.instructionFetchFault c sub a, s)
  | .idle => match s.fetchCode k f.pc 4 with
    | (.code bs, s1) =>
      let w : BitVec 32 := BitVec.ofNat 32 (natOf bs)
      some ((match decodeScalar w with | .ok i => i | .error _ => .illopScalarWord w), s1)
    | (.bad c sub a, s1) => some (.instructionFetchFault c sub a, s1)
    | (.wait _, _) | (.full, _) => none

/-- The state in which a fragment's instruction is performed. -/
def State.at (s : State) (k : Nat) : State := { s with cur := k }

/-- The scalar instruction that a fragment can issue now. -/
def State.scalarReady (s : State) (k : Nat) : Option (Instr × State) :=
  if !s.scalarRuns k then none
  else match s.scalarNext k with
    | none => none
    | some (i, s1) => if (s1.at k).interlocked i || scalarStalls i (s1.at k) then none else some (i, s1)

/-- The page that a fragment's scalar fetch misses, when it can post the miss (R143). -/
def State.fetchMiss (s : State) (k : Nat) : Option State :=
  let f := s.frag k
  if s.scalarRuns k && f.fetch == .idle then
    match s.fetchCode k f.pc 4 with
    | (.wait v, s1) => some (s1.updFrag k fun f => { f with fetch := .waits v })
    | _ => none
  else none

/-! ### Lane instructions -/

/-- Whether the window lets an instruction issue: q.in holds an entry, and q.out has room (R52, R103). -/
def State.windowOk (s : State) (f : LaneFields) : Bool :=
  let p := phraseOf s.cur
  (!popsRing f || (s.ringIn p).head?.any fun e => e.ready s.cycle) && (!pushesRing f || (s.ringOut p).length < 16)

/-- Whether the next lane instruction of the issuing fragment is held (R188). -/
def laneStalls (i : Instr) (s : State) : Bool :=
  let room (a : Access) : Bool := a.lanes.isEmpty || s.laneRoom a
  match i with
  | .vld f => !room (s.loadAccess f false)
  | .vst f => !room (s.storeAccess f false)
  | .vlds f => !room (s.loadAccess f true)
  | .vsts f => !room (s.storeAccess f true)
  | .vatom f => !room (s.atomAccess f)
  | .vcas f => !room (s.casAccess f)
  | .vpref f => !s.prefRoom f
  | .vrma f => !s.roomFor s.cur (s.rmaAccess f).lanes.length
  | .vmcast f =>
    s.lmask != 0 && listOk (s.src f f.va 64 0) (field f.imm 0 7) && !(s.mcastMembers (field f.imm 0 7)).isEmpty &&
      (s.listPending f || !s.roomFor s.cur (s.mcastAccess f).lanes.length)
  | .vsysc _ => s.lmask != 0 && s.ringFull s.myCtx
  | .vgwr f => s.vgWaits f true
  | .vgrd f => s.vgWaits f false
  | _ => false

/-- Whether a fragment's lane stream may issue: it runs on a core that runs. The walker's does on a frozen core too (R431). -/
def State.laneRuns (s : State) (k : Nat) : Bool :=
  s.onLane k && (isWalkerKey k || (s.coreRuns k && (s.phr (phraseOf k)).present))

/-- The lane instruction that a fragment can issue now: of its started head clause, its distance elapsed (R50, R188). -/
def State.laneReadyIns (s : State) (k : Nat) : Option Instr :=
  let f := s.frag k
  if !s.laneRuns k then none
  else match f.queue with
    | [] => none
    | c :: _ =>
      if c.header.isNone || f.faultFirst c.again then none
      else match c.instr with
        | none => none
        | some i => match i.lane? with
          | none => none
          | some g =>
            if s.cycle < f.lastIss + g.dist.toNat || !(s.at k).windowOk g || laneStalls i (s.at k) then none else some i

/-- Whether the start of a fragment's head clause would do anything: its fetch fails or misses, or its wait mask is clear. -/
def State.startReady (s : State) (k : Nat) : Bool :=
  s.mayStart k &&
  (let f := s.frag k
   let c := f.queue.headD {}
   match f.lfetch with
   | .failed _ _ _ => true
   | _ => match s.fetchCode k c.addr 12 with
     | (.full, _) => false
     | (.bad _ _ _, _) | (.wait _, _) => true
     | (.code hb, s1) => (c.next != 0 || s1.flagsClear k (headerWaitm (BitVec.ofNat 96 (natOf hb)))) &&
       match decodeHeader (BitVec.ofNat 96 (natOf hb)) with
       | none => true
       | some h => (match s1.fetchCode k (c.addr + 12) (12 * h.len.toNat) with | (.full, _) => false | _ => true))

/-! ### The choice of a slot (R187-R189) -/

/-- How far a slot stands after a rotation pointer, from 0 to 14. -/
def afterPtr (ptr slot : Nat) : Nat := (slot + 14 - ptr % 15) % 15

/-- The cores with live fragments. -/
def State.coresInUse (s : State) : List Nat :=
  ((s.frags.filter fun e => e.2.live).map fun e => s.coreOf e.1).eraseDups

/-- The fragments of a core that hold a slot, in the order after a pointer. -/
def State.rotation (s : State) (core ptr : Nat) : List Nat :=
  (List.range 15).filterMap fun d =>
    (s.frags.find? fun e => e.2.live && !isWalkerKey e.1 && (e.2.slot.any fun n => afterPtr ptr n == d) && s.coreOf e.1 == core).map (·.1)

/-- The lane streams of a core in the order after a pointer: those of its slots, and at a place after slot 14 those of fragments
that have given up their slot while clauses of theirs still stand in the queue. DESIGN CHOICE: several of these come in the order of the
state's table, and behind slot 14 (R29, R188; log 22).
A slot is so passed over in at most 15 issues (R55). -/
def State.laneRotation (s : State) (core ptr : Nat) : List Nat :=
  let here (e : Nat × Frag) : Bool := e.2.live && !isWalkerKey e.1 && s.coreOf e.1 == core
  let lent (e : Nat × Frag) : Bool := here e && e.2.slot.isNone && !e.2.queue.isEmpty
  (List.range 16).flatMap fun d =>
    let n := (ptr + 1 + d) % 16
    if n == 15 then (s.frags.filter lent).map (·.1)
    else ((s.frags.find? fun e => here e && e.2.slot == some n).map (·.1)).toList

/-- The walker's instruction can issue: it has been given a record, and the scalar issue of the cycle is free (R187; log 7). -/
def State.walkerReady (s : State) (core : Nat) : Bool :=
  (s.core core).wWake && (s.core core).scalarUsed ≤ s.cycle && !s.walkHeld core (field ((s.frag (walkerKey core)).reg 62) 0 20)

/-- The scalar issue of a core in this cycle: the walker's comes first (R187), and else that of the first fragment after the pointer
that can issue. -/
def State.scalarChoice (s : State) (core : Nat) : Option Nat :=
  let c := s.core core
  if c.scalarUsed > s.cycle || s.walkerReady core then none else (s.rotation core c.scalarPtr).find? fun k => (s.scalarReady k).isSome

/-- Whether a lane stream can issue its next instruction, its clause started or to be started first. -/
def State.laneCan (s : State) (k : Nat) : Bool := (s.laneReadyIns k).isSome || s.startReady k

/-- The lane issue of a core in this cycle: the walker's comes first, and else that of the first stream after the pointer that can
issue (R188). -/
def State.laneChoice (s : State) (core : Nat) : Option Nat :=
  let c := s.core core
  if c.laneUsed > s.cycle then none
  else if s.laneCan (walkerKey core) then some (walkerKey core)
  else (s.laneRotation core c.lanePtr).find? s.laneCan

/-- The issue uses the core's opportunity of the cycle and moves its pointer (R189). -/
def State.countScalar (s : State) (k : Nat) : State :=
  s.updCore (s.coreOf k) fun c => { c with scalarUsed := s.cycle + 1, scalarPtr := ((s.frag k).slot).getD 14 }

/-- So does a lane issue; one of the walker moves no pointer. -/
def State.countLane (s : State) (k : Nat) : State :=
  s.updCore (s.coreOf k) fun c =>
    { c with laneUsed := s.cycle + 1, lanePtr := if isWalkerKey k then c.lanePtr else ((s.frag k).slot).getD 15 }

end Sys2Proof.Machine
end

