-- ==== Sys2Proof/Machine/Power.lean ====
section
/-! DEFINITION. Start-up, cooling, fatal errors and the dump (R543-R550), poison of the SRAMs (R158), and gated clusters (R183). -/
namespace Sys2Proof.Machine

/-! ### Reset and power (R543, R545) -/

/-- Header bytes 63:0 of a firmware image. -/
def imageHeader (i : FwImage) : List Byte :=
  bytesOf i.magic.toNat 4 ++ bytesOf i.version.toNat 4 ++ bytesOf i.body.length 8 ++ takeFill 0 32 i.digest ++ bytesOf 0 16

/-- Whether the boot ROM accepts an image. -/
def imageVerified (i : FwImage) : Bool := sha3 i.body == i.digest && Config.mldsaVerify (imageHeader i) i.sig

/-- What stands after the module has lost its state: the pool's and the hosts' memories, the module's number, the flash, what
has been sent, what outside parties will do, the sensors, and the counters of free values and names. -/
def State.lost (s : State) (svc : Service) (image : FwImage) (boot : BitVec 16) : State :=
  { State.reset with
    svc := svc, moduleNo := s.moduleNo, image := image, nextId := s.nextId, draws := s.draws, inputs := s.inputs, hot := s.hot
    mem := s.mem.filter fun c => (poolBase ≤ c.1 && c.1 < poolTop) || hostBase ≤ c.1
    host := { out := s.host.out }
    fabric := { boot := boot, ports := (List.range 16).map fun n => (n, { plane := n, out := (s.fport n).out }) } }

/-- R543: module reset. An image that the boot ROM does not accept leaves the module in reset. -/
def execModuleReset (image : FwImage) (s : State) : Out :=
  .next (s.lost (if imageVerified image then .reduced else .inReset) image (s.fabric.boot + 1))

/-- R24: power loss; every phrase is lost, and the module stays in reset until power returns and it is reset. -/
def execPowerLoss (s : State) : Out := .next (s.lost .inReset s.image s.fabric.boot)

/-- Whether full service can begin: every CXL port has trained or its 2000 ms are over, and the fabric manager has made its first
attempt on each optical port (R543). -/
def State.fullDue (s : State) : Bool :=
  (s.pool.trained == 0xFFFF || 2000000000 ≤ s.dtime) && (List.range 16).all fun n => (s.fport n).tried

/-- R543: full service begins; firmware writes POOLCFG (R495). DESIGN CHOICE: PORTS lists the ports that have trained, in ascending
order, which the manual leaves to firmware (log 8). -/
def execFullServiceStart (s : State) : Out :=
  if s.svc != .reduced || !s.fullDue then .next s
  else
    let ports := (List.range 16).filter fun n => s.pool.trained.getLsbD n
    let most := ((List.range 5).filter fun w => 2 ^ w ≤ ports.length).length
    let s1 : State := { s with svc := .full }
    .next ({ s1 with draws := s.draws + 2 }.updPool fun q =>
      { q with ways := Config.freeNat s.draws % max 1 most, gran := 8 + Config.freeNat (s.draws + 1) % 7, order := ports })

/-! ### Cooling (R548) -/

/-- R548: a sensor of a die reaches 105 °C. -/
def execThermalThrottle (die : BitVec 2) (s : State) : Out := .next { s with hot := s.hot ||| BitVec.ofNat 4 (2 ^ die.toNat) }

/-- R548: every sensor of a die is below 105 °C. -/
def execTemperatureBelow105C (die : BitVec 2) (s : State) : Out :=
  .next { s with hot := s.hot &&& ~~~BitVec.ofNat 4 (2 ^ die.toNat) }

/-- R548: a breach of the coolant's limits is a vector 5 event. -/
def execCoolantBreach (s : State) : Out := .next (s.raise 5)

/-! ### The dump (R550) -/

def State.slotFrag (s : State) (core slot : Nat) : Option Nat :=
  (s.frags.find? fun e => e.2.live && e.2.slot == some slot && !isWalkerKey e.1 && s.coreOf e.1 == core).map (·.1)

def Frag.bankNow (f : Frag) : Bank := if f.tl == 0 then {} else if f.tl == 1 then f.bank1 else f.bank2

/-- Whether the scalar instruction at which a fragment stands is a wait whose condition does not hold (R52, R266). -/
def State.heldAtWait (s0 : State) (k : Nat) : Bool :=
  let s : State := { s0 with cur := k }
  match s.resolveFetch (s.asker k) s.me.pc.toNat 4 with
  | .ok p => match decodeScalar (BitVec.ofNat 32 (readNat s.mem p.key 4)) with
    | .ok (.swaitf mask) => !s.swaitfDone mask
    | .ok (.swaitp path sa) => !s.swaitpDone path (s.r sa).toNat
    | .ok .slsync => !s.slsyncDone
    | .ok (.gadvP g sa) => s.gadvStalls g.toNat false (s.r sa)
    | .ok (.gadvC g sa) => s.gadvStalls g.toNat true (s.r sa)
    | .ok (.sbar) => s.barrierHeld 0
    | .ok (.smerge mark) => s.smergeWaits mark
    | .ok (.cpwait n) => s.cpwaitWaits n
    | _ => false
  | _ => false

/-- Whether the clause at the head of a lane queue waits: at its header, for the walk of its fetch, for the queue window or a gutter
(R52). -/
def State.laneHeldAtWait (s : State) (k : Nat) : Bool :=
  let f := s.frag k
  match f.queue with
  | [] => false
  | c :: _ =>
    f.lfetch.waiting ||
    if c.header.isNone then !s.startReady k
    else match c.instr.bind fun i => i.lane?.map fun g => (i, g) with
      | some (i, g) => !(s.at k).windowOk g || laneStalls i (s.at k)
      | none => false

/-- Whether an access of a fragment waits for a walk, a host page or the pool (R52). -/
def State.accessWaits (s : State) (k : Nat) : Bool :=
  s.accs.any fun a => a.frag == k && a.lanes.any fun l =>
    l.st == .walk || (l.st == .todo && l.parts.any fun p => p.path == 2 || p.path == 4)

/-- Whether a fragment waits (R52, R550; log 90): it stands in a wait, and neither of its streams can issue. -/
def State.waiting (s : State) (k : Nat) : Bool :=
  let f := s.frag k
  (f.wait != .none || f.hwait.isSome || f.fetch.waiting || f.pwait.waiting || (s.phr (phraseOf k)).stalled || s.heldAtWait k ||
    s.laneHeldAtWait k || s.accessWaits k) &&
  (s.scalarReady k).isNone && (s.laneReadyIns k).isNone && !s.startReady k

def State.flagBits (s : State) (k : Nat) : Nat := (List.range 12).foldl (fun n i => if s.flagSet k i then n + 2 ^ i else n) 0

/-- A slot record. -/
def State.slotRecord (s : State) (k : Nat) : List Byte :=
  let f := s.frag k
  let q := s.phr (phraseOf k)
  bytesOf (if isWalkerKey k then 0 else q.noun.toNat) 8 ++ bytesOf f.pc.toNat 8 ++ bytesOf f.exec.toNat 4 ++ bytesOf q.live.toNat 4 ++
  bytesOf q.status.toNat 4 ++ bytesOf f.bankNow.ecause.toNat 4 ++ bytesOf f.bankNow.edata.toNat 8 ++ bytesOf (s.flagBits k) 2 ++
  bytesOf f.tl.toNat 1 ++ bytesOf f.num 1 ++ bytesOf (entries f.queue).length 1 ++ bytesOf (if s.waiting k then 2 else 1) 1 ++ bytesOf 0 2 ++
  bytesOf ((f.queue.head?.map fun c => c.addr.toNat).getD 0) 8

/-- The record of a core, of 1024 bytes. -/
def State.coreRecord (s : State) (core : Nat) : List Byte :=
  let c := s.core core
  let reqs := s.accs.foldl (fun n a => if s.coreOf a.frag == core then n + a.requests else n) 0
  let owner : Nat := match c.owner with
    | some x => if (s.ctx x).resident then at' 1 31 + x else 0
    | none => 0
  let slots := (List.range 16).flatMap fun i =>
    if i == 15 then s.slotRecord (walkerKey core)
    else match s.slotFrag core i with
      | some k => s.slotRecord k
      | none => bytesOf 0 56
  bytesOf (s.coordWord core 0 0).toNat 4 ++ bytesOf owner 4 ++
  bytesOf ((c.engine.token.map fun p => (s.phr p).noun.toNat).getD 0) 8 ++ bytesOf reqs 2 ++ bytesOf c.misses.length 1 ++
  bytesOf (bit c.frozen + at' (bit (!c.engine.ops.isEmpty)) 1) 1 ++ bytesOf (s.regsUsed core) 2 ++ bytesOf c.asideQ.length 2 ++
  bytesOf 0 40 ++ slots ++ bytesOf 0 64

/-- The dump: its header and the records of the 1536 cores. -/
def State.dump (s : State) (f : Fatal) : List Byte :=
  let rest := bytesOf 0 64 ++ (List.range 1536).flatMap s.coreRecord
  bytesOf 0x504D5544 4 ++ bytesOf f.cause.toNat 1 ++ bytesOf (bit (s.svc == .full)) 1 ++ bytesOf s.moduleNo 2 ++ bytesOf f.time 8 ++
  bytesOf f.detail.toNat 8 ++ bytesOf s.image.version.toNat 4 ++ bytesOf (64 + rest.length) 4 ++ sha3 rest ++ rest

/-- Whether the pool answers at an address. -/
def State.poolAnswers (s : State) (a : Nat) : Bool := (s.poolRefuses s.nextId (a - poolBase)).isNone

/-- A fatal error (R549): the cores stop, the dump is written, which heals the lines that it fills (R158), vector 0 is raised, and the
module is halted. -/
def State.fatalError (s : State) (cause : BitVec 8) (detail : Word) : State :=
  if s.svc == .halted then s
  else
    let f : Fatal := ⟨cause, detail, s.dtime⟩
    let d := s.dump f
    let whole (l : Nat) : Bool := 0xF000000 ≤ l && l + 128 ≤ 0xF000000 + d.length
    let s1 := ({ s with poison := s.poison.filter fun l => !whole l } : State).updMem (writeBytes 0xF000000 d)
    let s2 := if s.accepted 7 && s.poolAnswers poolBase then s1.updMem (writeBytes poolBase d) else s1
    ({ s2 with fatal := some f, svc := .halted } : State).raise 0

/-- R549: a sensor reaches 115 °C. -/
def execThermal (sensor : Word) (s : State) : Out := .next (s.fatalError 1 sensor)

/-- R549: an uncorrectable error in firmware SRAM, an NDU or the relay SRAM is fatal; one in a vault or in scratch poisons its
128-byte line (R158). -/
def execUncorr (addr : Word) (s : State) : Out :=
  let a := addr.toNat
  let line := a / 128 * 128
  if a < vaultTop || (scratchBase ≤ a && a < hostBase) then .next { s with poison := line :: s.poison.filter fun x => x != line }
  else .next (s.fatalError 2 addr)

/-- R549: a failed self-check of the firmware. -/
def execFwfault (s : State) : Out := .next (s.fatalError 3 0)

/-! ### Gated clusters (R183) -/

/-- R183: a cluster is gated without save: its phrases run no more, and the records that they have taken return to READY. -/
def execClusterGated (cluster : Nat) (s : State) : Out :=
  let ps := s.phrases.filter fun e => e.2.present && clusterOf e.2.core == cluster
  .next (ps.foldl (fun (s : State) e => s.returnRecords e.2.inst e.2.noun) (s.updCluster cluster fun c => { c with gated := true }))

end Sys2Proof.Machine
end

