-- ==== Sys2Proof/Machine/Spdm.lean ====
section
/-! DEFINITION. TDISP and SPDM 1.3 over DOE (R482, R483, R544). The manual names the requests and the algorithms; message codes
and the layout of responses are those of the SPDM standard, as far as the manual's content needs them (log 36). -/
namespace Sys2Proof.Machine

/-! ### TDISP (R482) -/

/-- An SPDM message of version 1.3 with its code and two parameters. -/
def spdmMsg (code p1 p2 : Nat) (body : List Byte) : List Byte :=
  [0x13, BitVec.ofNat 8 code, BitVec.ofNat 8 p1, BitVec.ofNat 8 p2] ++ body

def State.spdmSay (s : State) (hp : Bool) (m : List Byte) : State := s.say (.spdm hp m)

def errInvalid : Nat := 0x01
def errUnexpected : Nat := 0x04
def errDecrypt : Nat := 0x06
def errUnsupported : Nat := 0x07

/-- An ERROR response with its code. -/
def State.spdmError (s : State) (hp : Bool) (code : Nat) : State := s.spdmSay hp (spdmMsg 0x7F code 0 [])

def State.setTdisp (s : State) (hp : Bool) (t : Tdisp) : State := s.updHostPort hp fun p => { p with tdisp := t }

/-- A TDISP transition from one state; TDISP that is not accepted, or another state, gets an error response (R544). -/
def State.tdispMove (s : State) (hp : Bool) (src dst : Tdisp) : State :=
  if !s.accepted 6 then s.spdmError hp errUnsupported
  else if (s.hostPort hp).tdisp == src then s.setTdisp hp dst
  else s.spdmError hp errUnexpected

/-- The host stops the interface: CONFIG_UNLOCKED from every state. -/
def State.tdispEnd (s : State) (hp : Bool) : State :=
  if !s.accepted 6 then s.spdmError hp errUnsupported else s.setTdisp hp .unlocked

/-- R482: LOCK_INTERFACE. -/
def execLockInterface (hp : Bool) (s : State) : Out := .next (s.tdispMove hp .unlocked .locked)

/-- R482: START_INTERFACE_REQUEST. -/
def execStartInterfaceRequest (hp : Bool) (s : State) : Out := .next (s.tdispMove hp .locked .run)

/-- R482: the interface is stopped. -/
def execStopInterface (hp : Bool) (s : State) : Out := .next (s.tdispEnd hp)

/-! ### Key schedule (R483) -/

def xorByte (k : Byte) (bs : List Byte) : List Byte := bs.map fun b => b ^^^ k

/-- HMAC under SHA3-256, whose block is 136 bytes; keys are not longer. -/
def hmac (key msg : List Byte) : List Byte :=
  let k := takeFill 0 136 key
  sha3 (xorByte 0x5C k ++ sha3 (xorByte 0x36 k ++ msg))

/-- The characters of a name as bytes. -/
def asciiBytes (name : String) : List Byte := name.toList.map fun c => BitVec.ofNat 8 c.toNat

/-- A label of the schedule: "spdm1.3 " and a name. -/
def spdmLabel (name : List Byte) : List Byte := [0x73, 0x70, 0x64, 0x6D, 0x31, 0x2E, 0x33, 0x20] ++ name

/-- The first `n` bytes, at most 32, of HKDF-Expand: the length, the label and the context. -/
def hkdfExpand (n : Nat) (secret : List Byte) (name : String) (ctx : List Byte) : List Byte :=
  (hmac secret (bytesOf n 2 ++ spdmLabel (asciiBytes name) ++ ctx ++ [0x01])).take n

/-- The handshake secret of an exchange, and the master secret. -/
def handshakeSecret (dhe : List Byte) : List Byte := hmac (List.replicate 32 0) dhe
def masterSecret (dhe : List Byte) : List Byte := hmac (hkdfExpand 32 (handshakeSecret dhe) "derived" []) (List.replicate 32 0)

/-- A direction's handshake secret, under the digest of the transcript at the key exchange. -/
def handshakeDir (dhe th1 : List Byte) (req : Bool) : List Byte :=
  hkdfExpand 32 (handshakeSecret dhe) (if req then "req hs data" else "rsp hs data") th1

/-- A direction's finished key. -/
def finishedKey (dhe th1 : List Byte) (req : Bool) : List Byte := hkdfExpand 32 (handshakeDir dhe th1 req) "finished" []

/-- The secret of a direction in force: the handshake's, and after the finish the session's own. -/
def Spdm.dirSecret (x : Spdm) (req : Bool) : List Byte :=
  if x.secured then hkdfExpand 32 (masterSecret x.secret) (if req then "req app data" else "rsp app data") x.th2
  else handshakeDir x.secret x.th1 req

/-- The key and the IV of a direction. -/
def Spdm.dirKey (x : Spdm) (req : Bool) : List Byte := hkdfExpand 32 (x.dirSecret req) "key" []
def Spdm.dirIv (x : Spdm) (req : Bool) : List Byte := hkdfExpand 12 (x.dirSecret req) "iv" []

/-- The nonce of a secured message: the IV with the sequence number. -/
def secNonce (iv : List Byte) (seq : Nat) : Nat := bigNat (xorList (natBytes iv) (natBytes (bytesOf seq 12)))

/-- A secured message under AES-256-GCM: session, length, ciphertext and tag, the first two authenticated. -/
def sealRecord (key iv : List Byte) (seq : Nat) (m : List Byte) : List Byte :=
  let head := bytesOf 0 4 ++ bytesOf (m.length + 18) 2
  let ct := byteList (gcmText (natBytes key) (secNonce iv seq) 0 (natBytes (bytesOf m.length 2 ++ m)))
  head ++ ct ++ byteList (gcmTag (natBytes key) (secNonce iv seq) (natBytes head) (natBytes ct))

/-- The message in a secured message whose tag is good. -/
def openRecord (key iv : List Byte) (seq : Nat) (rec0 : List Byte) : Option (List Byte) :=
  let ct := natBytes ((rec0.drop 6).take (rec0.length - 22))
  if byteList (gcmTag (natBytes key) (secNonce iv seq) (natBytes (rec0.take 6)) ct) == rec0.drop (rec0.length - 16) then
    some ((byteList (gcmText (natBytes key) (secNonce iv seq) 0 ct)).drop 2)
  else none

/-- The request in a secured message of a session. -/
def Spdm.opens (x : Spdm) (rec0 : List Byte) : Option (List Byte) :=
  if x.session then openRecord (x.dirKey true) (x.dirIv true) x.reqSeq rec0 else none

/-! ### SPDM requests (R483) -/

def State.spdm (s : State) (hp : Bool) : Spdm := (s.hostPort hp).spdm

def State.updSpdm (s : State) (hp : Bool) (g : Spdm → Spdm) : State := s.updHostPort hp fun p => { p with spdm := g p.spdm }

/-- A response, kept in the transcript. -/
def State.spdmAnswer (s : State) (hp : Bool) (m : List Byte) : State :=
  (s.updSpdm hp fun x => { x with transcript := x.transcript ++ m }).spdmSay hp m

/-- A request needs the algorithms to have been negotiated. -/
def State.needNegotiated (s : State) (hp : Bool) (k : State) : Out :=
  .next (if (s.spdm hp).negotiated then k else s.spdmError hp errUnexpected)

/-- R483: GET_VERSION starts a connection anew: version 1.3. -/
def execGetVersion (hp : Bool) (s : State) : Out :=
  .next ((s.updSpdm hp fun _ => { version := true }).spdmAnswer hp (spdmMsg 0x04 0 0 [0x00, 0x01, 0x00, 0x13]))

/-- R483: GET_CAPABILITIES: certificates, challenge, measurements with signature, encryption, MAC and key exchange; no mutual
authentication and no PSK. -/
def execGetCapabilities (hp : Bool) (s : State) : Out :=
  .next (if (s.spdm hp).version then s.spdmAnswer hp (spdmMsg 0x61 0 0 (bytesOf 0 4 ++ bytesOf 0x2F6 4)) else s.spdmError hp errUnexpected)

/-- The bit numbers of ML-DSA-44, SHA3-256, secp384r1 and AES-256-GCM among the algorithms of their kinds. -/
def algAsym : Nat := 0
def algHash : Nat := 3
def algDhe : Nat := 4
def algAead : Nat := 1

/-- R483: NEGOTIATE_ALGORITHMS; a requester that offers none of a required algorithm gets UnsupportedRequest. -/
def execNegotiateAlgorithms (hp : Bool) (asym hash dhe aead : List Nat) (s : State) : Out :=
  if !(s.spdm hp).version then .next (s.spdmError hp errUnexpected)
  else if asym.contains algAsym && hash.contains algHash && dhe.contains algDhe && aead.contains algAead then
    .next ((s.updSpdm hp fun x => { x with negotiated := true }).spdmAnswer hp
      (spdmMsg 0x63 0 0 (bytesOf (2 ^ algAsym) 4 ++ bytesOf (2 ^ algHash) 4 ++ bytesOf (2 ^ algDhe) 4 ++ bytesOf (2 ^ algAead) 4)))
  else .next (s.spdmError hp errUnsupported)

/-- R483: GET_DIGESTS: the digest of the certificate chain. -/
def execGetDigests (hp : Bool) (s : State) : Out :=
  s.needNegotiated hp (s.spdmAnswer hp (spdmMsg 0x01 0 1 (sha3 Config.certChain)))

/-- R483: GET_CERTIFICATE: a part of the chain that ends in a Ramlis root. -/
def execGetCertificate (hp : Bool) (off len : BitVec 16) (s : State) : Out :=
  let part := (Config.certChain.drop off.toNat).take len.toNat
  let rest := Config.certChain.length - off.toNat - part.length
  s.needNegotiated hp (s.spdmAnswer hp (spdmMsg 0x02 0 0 (bytesOf part.length 2 ++ bytesOf rest 2 ++ part)))

/-- Random bytes that the module draws. -/
def drawBytes (draw n : Nat) : List Byte := (List.range n).map fun i => Config.randomByte draw i

/-- R483: CHALLENGE: the chain's digest, a nonce, and a signature over the exchange. -/
def execChallenge (hp : Bool) (nonce : List Byte) (s : State) : Out :=
  let body := sha3 Config.certChain ++ drawBytes s.draws 32 ++ bytesOf 0 2
  let sig := Config.mldsaSign ((s.spdm hp).transcript ++ nonce ++ body)
  s.needNegotiated hp (s.drawn.spdmAnswer hp (spdmMsg 0x03 0 1 (body ++ sig)))

/-- What measurement index 2 digests: the partition map, the launch-queue bindings and the export windows, register by register. -/
def State.configBytes (s : State) : List Byte :=
  ((List.range 8).flatMap fun n => bytesOf (s.part n).bitmap.toNat 8) ++
  ((List.range 64).flatMap fun n => bytesOf (at' (bit (s.lq n).en) 31 + at' (s.lq n).part 24) 8) ++
  ((List.range 16).flatMap fun n =>
    let w := tget {} s.host.exp n
    bytesOf w.base.toNat 8 ++ bytesOf w.size.toNat 8 ++ bytesOf w.ctl.toNat 4 ++ bytesOf w.owner 4 ++
      (takeFill 0 4 w.imps).flatMap fun i => bytesOf i.toNat 4)

/-- The measurement of an index: the firmware's digest, or that of the configuration at the moment of the request (R483, R545). -/
def State.measurement (s : State) (index : Nat) : Option (List Byte) :=
  match index with
  | 1 => some (takeFill 0 32 s.image.digest)
  | 2 => some (sha3 s.configBytes)
  | _ => none

/-- R483: GET_MEASUREMENTS: index 0 gives their number, 0xFF all of them. -/
def execGetMeasurements (hp : Bool) (index : BitVec 8) (s : State) : Out :=
  let block (n : Nat) : List Byte := BitVec.ofNat 8 n :: ((s.measurement n).getD [])
  if index == 0 then s.needNegotiated hp (s.spdmAnswer hp (spdmMsg 0x60 2 0 []))
  else if index == 0xFF then s.needNegotiated hp (s.spdmAnswer hp (spdmMsg 0x60 0 0 (block 1 ++ block 2)))
  else if (s.measurement index.toNat).isSome then s.needNegotiated hp (s.spdmAnswer hp (spdmMsg 0x60 0 0 (block index.toNat)))
  else s.needNegotiated hp (s.spdmError hp errInvalid)

/-- R483: KEY_EXCHANGE under secp384r1: the module's public value, a signature over the transcript, and a code under its finished key. -/
def execKeyExchange (hp : Bool) (pub : List Byte) (s : State) : Out :=
  let mine := drawBytes s.draws 32 ++ Config.dhePublic s.draws
  let dhe := Config.dheSecret s.draws pub
  let base := (s.spdm hp).transcript ++ pub
  let m := spdmMsg 0x64 0 0 (mine ++ Config.mldsaSign (base ++ mine))
  let th1 := sha3 (base ++ m)
  let s1 := s.drawn.updSpdm hp fun x =>
    { x with session := true, secured := false, secret := dhe, transcript := base, th1 := th1, reqSeq := 0, rspSeq := 0 }
  s.needNegotiated hp (s1.spdmAnswer hp (m ++ hmac (finishedKey dhe th1 false) th1))

/-- A response in the form of its request: in a session, a secured message. -/
def State.spdmReply (s : State) (r : DoeMsg) (m : List Byte) : State :=
  let x := s.spdm r.hp
  match r.sealed with
  | none => s.spdmSay r.hp m
  | some _ => (s.updSpdm r.hp fun x => { x with rspSeq := x.rspSeq + 1 }).spdmSay r.hp (sealRecord (x.dirKey false) (x.dirIv false) x.rspSeq m)

/-- A request in a secured message is opened, and must be one with the code that its row names. -/
def State.viaDoe (s : State) (r : DoeMsg) (code : Nat) (must : Bool) (k : State → State) : Out :=
  match r.sealed with
  | none => .next (if must then s.spdmError r.hp errUnexpected else k s)
  | some rec0 => match (s.spdm r.hp).opens rec0 with
    | none => .next (s.spdmError r.hp errDecrypt)
    | some m =>
      .next (if nth 0 m 1 == BitVec.ofNat 8 code then k (s.updSpdm r.hp fun x => { x with reqSeq := x.reqSeq + 1 })
        else s.spdmError r.hp errInvalid)

/-- The session is secured: its own keys are in force, and its messages are counted anew. -/
def State.spdmFinish (s : State) (r : DoeMsg) : State :=
  let m := spdmMsg 0x65 0 0 []
  (s.spdmReply r m).updSpdm r.hp fun x =>
    { x with secured := true, transcript := x.transcript ++ m, th2 := sha3 (x.transcript ++ m), reqSeq := 0, rspSeq := 0 }

/-- R483: FINISH: the session is secured when the requester's code is right. It comes under the handshake's keys. -/
def execFinish (hp : DoeMsg) (mac : List Byte) (s : State) : Out :=
  let x := s.spdm hp.hp
  if !x.session then .next (s.spdmError hp.hp errUnexpected)
  else s.viaDoe hp 0xE5 true fun t =>
    if mac == hmac (finishedKey x.secret x.th1 true) (sha3 x.transcript) && hp.sealed.any (fun rec0 => x.opens rec0 == some (spdmMsg 0xE5 0 0 mac))
    then t.spdmFinish hp else t.spdmError hp.hp errDecrypt

/-- R483: END_SESSION. -/
def execEndSession (hp : DoeMsg) (s : State) : Out :=
  if !(s.spdm hp.hp).session then .next (s.spdmError hp.hp errUnexpected)
  else s.viaDoe hp 0xEC true fun t =>
    (t.spdmReply hp (spdmMsg 0x6C 0 0 [])).updSpdm hp.hp fun x => { x with session := false, secured := false, secret := [] }

/-- A change of an IDE stream's key breaks the configuration of an interface that is locked or runs (R482; log 36). -/
def State.setIde (s : State) (hp : Bool) (g : List (Nat × Nat) → List (Nat × Nat)) : State :=
  let s1 := s.updHostPort hp fun p => { p with ide := g p.ide }
  if (s.hostPort hp).tdisp == .locked || (s.hostPort hp).tdisp == .run then s1.setTdisp hp .error else s1

/-- A key of an IDE stream is programmed or stopped, over a secured session only (R482). -/
def State.ideKey (s : State) (r : DoeMsg) (g : List (Nat × Nat) → List (Nat × Nat)) : Out :=
  if !(s.spdm r.hp).secured then .next (s.spdmError r.hp errUnexpected)
  else s.viaDoe r 0xFE true fun t => (t.setIde r.hp g).spdmReply r (spdmMsg 0x7E 0 0 [])

/-- R483: VENDOR_DEFINED_REQUEST: IDE_KM over a secured session (R482), and TDISP. -/
def execVendorDefinedRequest (hp : DoeMsg) (req : VendorReq) (s : State) : Out :=
  match req with
  | .ideKeyProg stream key => s.ideKey hp fun l => (stream.toNat, key.toNat) :: l.filter fun e => e.1 != stream.toNat
  | .ideKeyStop stream => s.ideKey hp fun l => l.filter fun e => e.1 != stream.toNat
  | .tdispLock => s.viaDoe hp 0xFE false fun t => t.tdispMove hp.hp .unlocked .locked
  | .tdispStart => s.viaDoe hp 0xFE false fun t => t.tdispMove hp.hp .locked .run
  | .tdispStop => s.viaDoe hp 0xFE false fun t => t.tdispEnd hp.hp

end Sys2Proof.Machine
end

