-- ==== Sys2Proof/Machine/Special.lean ====
section
/-! DEFINITION. The special registers (R111-R121, R274, R275): their values, their access rules and their write rules. -/
namespace Sys2Proof.Machine

/-- WHERE of a fragment (R115). -/
def State.whereWord (s : State) (k : Nat) : Word :=
  let c := s.coreOf k
  let f := s.frag k
  wordOf (at' (s.moduleNo % 1024) 32 + at' (dieOf c) 28 + at' (c / 24 % 16) 24 + at' (c % 24) 16 + at' (f.slot.getD 0) 8 + f.num)

/-- The member count of a phrase's course (R37). -/
def State.csize (s : State) (p : Nat) : Nat :=
  match s.courseOf p with
  | some c => c.size
  | none => 0

/-- BDONE: the oldest unfinished batch, or BATCH + 1 (R120). -/
def Phrase.bdone (q : Phrase) : BitVec 16 :=
  match q.sealed with
  | b :: _ => b.num
  | [] => q.batch + 1

/-- The value of special register `n` as fragment `k` reads it; a number that the table does not list reads as zero (R111,
R112). DTIME is read without the skew of R223, which the manual bounds and does not state (log 73). -/
def State.special (s : State) (k n : Nat) : Word :=
  let f := s.frag k
  let q := s.phr (phraseOf k)
  let x := s.ctx q.ctx
  match n with
  | 0x00 => f.exec.setWidth 64
  | 0x01 => q.live.setWidth 64
  | 0x02 => q.noun
  | 0x03 => (q.course.getD 0xFFFFFFFF).setWidth 64
  | 0x04 => wordOf (s.csize (phraseOf k))
  | 0x05 => if q.course.isSome then wordOf q.rank else 0x7FF
  | 0x06 => q.instN
  | 0x07 => x.ctxw
  | 0x08 => s.whereWord k
  | 0x09 => wordOf s.dtime
  | 0x0A => q.status.setWidth 64
  | 0x0B => q.trapen.setWidth 64
  | 0x0C => f.tl.setWidth 64
  | 0x10 => f.bank1.epc
  | 0x11 => f.bank2.epc
  | 0x12 => f.bank1.elpc
  | 0x13 => f.bank2.elpc
  | 0x14 => f.bank1.ecause.setWidth 64
  | 0x15 => f.bank2.ecause.setWidth 64
  | 0x16 => f.bank1.emask.setWidth 64
  | 0x17 => f.bank2.emask.setWidth 64
  | 0x18 => f.bank1.edata
  | 0x19 => f.bank2.edata
  | 0x1A => f.bank1.exsave.setWidth 64
  | 0x1B => f.bank2.exsave.setWidth 64
  | 0x1C => q.tvec
  | 0x1D => q.tsave
  | 0x20 => q.dpend.setWidth 64
  | 0x21 => q.sigp.setWidth 64
  | 0x22 => wordOf (bit q.wakep)
  | 0x23 => wordOf (q.grants % 2 ^ 16)
  | 0x24 => wordOf (bit (s.holdsToken (phraseOf k)))
  | 0x28 => x.hbase
  | 0x29 => x.hlim
  | 0x2A => x.hoff
  | 0x2B => x.vtab
  | 0x2C => x.ntab
  | 0x2D => x.ptab
  | 0x2E => wordOf q.regs
  | 0x30 => wordOf (f.pathCount 0)
  | 0x31 => wordOf (f.pathCount 1)
  | 0x32 => wordOf (f.pathCount 2)
  | 0x33 => wordOf (f.pathCount 3)
  | 0x34 => wordOf (f.pathCount 4)
  | 0x35 => q.batch.setWidth 64
  | 0x36 => q.bdone.setWidth 64
  | _ => if 0x38 ≤ n && n < 0x40 then (nth 0 q.fsl (n - 0x38)).setWidth 64 else 0

/-- Registers that only privileged code reads (R111). -/
def specialPrivRead (n : Nat) : Bool := n == 0x2C || n == 0x2D

/-- Registers that only privileged code writes (R111). -/
def specialPrivWrite (n : Nat) : Bool := 0x28 ≤ n && n ≤ 0x2D

/-- Registers that can be written (R111). -/
def specialWritable (n : Nat) : Bool :=
  n == 0x00 || n == 0x0A || n == 0x0B || (0x10 ≤ n && n ≤ 0x1D) || (0x20 ≤ n && n ≤ 0x22) || specialPrivWrite n

/-- A write of a register that can be written; reserved bits are discarded (R11, R21, R113, R119, R122). -/
def State.setSpecial (s : State) (k n : Nat) (v : Word) : State :=
  let p := phraseOf k
  let x := s.ctxOf k
  let lo : BitVec 32 := v.setWidth 32
  match n with
  | 0x00 => s.setExec k lo
  | 0x0A => s.updPhr p fun q => { q with status := q.status &&& ~~~lo }
  | 0x0B => s.updPhr p fun q => { q with trapen := lo &&& 0xC7 }
  | 0x10 => s.updFrag k fun f => { f with bank1 := { f.bank1 with epc := v } }
  | 0x11 => s.updFrag k fun f => { f with bank2 := { f.bank2 with epc := v } }
  | 0x12 => s.updFrag k fun f => { f with bank1 := { f.bank1 with elpc := v } }
  | 0x13 => s.updFrag k fun f => { f with bank2 := { f.bank2 with elpc := v } }
  | 0x14 => s.updFrag k fun f => { f with bank1 := { f.bank1 with ecause := lo &&& 0x1FFFF } }
  | 0x15 => s.updFrag k fun f => { f with bank2 := { f.bank2 with ecause := lo &&& 0x1FFFF } }
  | 0x16 => s.updFrag k fun f => { f with bank1 := { f.bank1 with emask := lo } }
  | 0x17 => s.updFrag k fun f => { f with bank2 := { f.bank2 with emask := lo } }
  | 0x18 => s.updFrag k fun f => { f with bank1 := { f.bank1 with edata := v } }
  | 0x19 => s.updFrag k fun f => { f with bank2 := { f.bank2 with edata := v } }
  | 0x1A => s.updFrag k fun f => { f with bank1 := { f.bank1 with exsave := lo } }
  | 0x1B => s.updFrag k fun f => { f with bank2 := { f.bank2 with exsave := lo } }
  | 0x1C => s.updPhr p fun q => { q with tvec := v }
  | 0x1D => s.updPhr p fun q => { q with tsave := v &&& tsaveBits }
  | 0x20 => s.updPhr p fun q => { q with dpend := q.dpend &&& ~~~v.setWidth 4 }
  | 0x21 => s.updPhr p fun q => { q with sigp := q.sigp &&& ~~~v.setWidth 16 }
  | 0x22 => s.updPhr p fun q => { q with wakep := q.wakep && !v.getLsbD 0 }
  | 0x28 => s.updCtx x fun c => { c with hbase := v &&& hbaseBits }
  | 0x29 => s.updCtx x fun c => { c with hlim := v &&& hlimBits }
  | 0x2A => s.updCtx x fun c => { c with hoff := v &&& hoffBits }
  | 0x2B => s.updCtx x fun c => { c with vtab := v }
  | 0x2C => s.updCtx x fun c => { c with ntab := v }
  | 0x2D => s.updCtx x fun c => { c with ptab := v }
  | _ => s

/-- R274: sget. -/
def execSget (sd : SReg) (reg : BitVec 6) (s : State) : Out :=
  if specialPrivRead reg.toNat && !s.priv s.cur then s.fault .priv 0 (reg.setWidth 64)
  else putNext sd (s.special s.cur reg.toNat) s

/-- R274: sset. -/
def execSset (reg : BitVec 6) (sa : SReg) (s : State) : Out :=
  if specialPrivWrite reg.toNat && !s.priv s.cur then s.fault .priv 0 (reg.setWidth 64)
  else if !specialWritable reg.toNat then s.fault .illop 0 (reg.setWidth 64)
  else .next (s.setSpecial s.cur reg.toNat (s.r sa)).adv

end Sys2Proof.Machine
end

