-- ==== Sys2Proof/Machine/Dispatch.lean ====
section
/-! DEFINITION. One arm per instruction and event of the table of operations. -/
namespace Sys2Proof.Machine

def exec (i : Instr) (s : State) : Host.Outcome State Fault Refusal :=
  match i with
  | .sadd sd sa sb => Sys2Proof.Machine.execSadd sd sa sb s
  | .ssub sd sa sb => Sys2Proof.Machine.execSsub sd sa sb s
  | .smul sd sa sb => Sys2Proof.Machine.execSmul sd sa sb s
  | .smulh sd sa sb => Sys2Proof.Machine.execSmulh sd sa sb s
  | .smulhu sd sa sb => Sys2Proof.Machine.execSmulhu sd sa sb s
  | .sdiv sd sa sb => Sys2Proof.Machine.execSdiv sd sa sb s
  | .sdivu sd sa sb => Sys2Proof.Machine.execSdivu sd sa sb s
  | .srem sd sa sb => Sys2Proof.Machine.execSrem sd sa sb s
  | .sremu sd sa sb => Sys2Proof.Machine.execSremu sd sa sb s
  | .sand sd sa sb => Sys2Proof.Machine.execSand sd sa sb s
  | .sor sd sa sb => Sys2Proof.Machine.execSor sd sa sb s
  | .sxor sd sa sb => Sys2Proof.Machine.execSxor sd sa sb s
  | .sandn sd sa sb => Sys2Proof.Machine.execSandn sd sa sb s
  | .sshl sd sa sb => Sys2Proof.Machine.execSshl sd sa sb s
  | .sshr sd sa sb => Sys2Proof.Machine.execSshr sd sa sb s
  | .ssra sd sa sb => Sys2Proof.Machine.execSsra sd sa sb s
  | .smin sd sa sb => Sys2Proof.Machine.execSmin sd sa sb s
  | .sminu sd sa sb => Sys2Proof.Machine.execSminu sd sa sb s
  | .smax sd sa sb => Sys2Proof.Machine.execSmax sd sa sb s
  | .smaxu sd sa sb => Sys2Proof.Machine.execSmaxu sd sa sb s
  | .sclz sd sa => Sys2Proof.Machine.execSclz sd sa s
  | .sctz sd sa => Sys2Proof.Machine.execSctz sd sa s
  | .spopc sd sa => Sys2Proof.Machine.execSpopc sd sa s
  | .sbrev sd sa => Sys2Proof.Machine.execSbrev sd sa s
  | .sbfx sd sa pos len => Sys2Proof.Machine.execSbfx sd sa pos len s
  | .sbfi sd sa pos len => Sys2Proof.Machine.execSbfi sd sa pos len s
  | .sseq sd sa sb => Sys2Proof.Machine.execSseq sd sa sb s
  | .ssne sd sa sb => Sys2Proof.Machine.execSsne sd sa sb s
  | .sslt sd sa sb => Sys2Proof.Machine.execSslt sd sa sb s
  | .ssltu sd sa sb => Sys2Proof.Machine.execSsltu sd sa sb s
  | .ssle sd sa sb => Sys2Proof.Machine.execSsle sd sa sb s
  | .ssleu sd sa sb => Sys2Proof.Machine.execSsleu sd sa sb s
  | .ssel sd sa sb sc => Sys2Proof.Machine.execSsel sd sa sb sc s
  | .saddi sd sa imm => Sys2Proof.Machine.execSaddi sd sa imm s
  | .sandi sd sa imm => Sys2Proof.Machine.execSandi sd sa imm s
  | .sori sd sa imm => Sys2Proof.Machine.execSori sd sa imm s
  | .sxori sd sa imm => Sys2Proof.Machine.execSxori sd sa imm s
  | .sshli sd sa sh => Sys2Proof.Machine.execSshli sd sa sh s
  | .sshri sd sa sh => Sys2Proof.Machine.execSshri sd sa sh s
  | .ssrai sd sa sh => Sys2Proof.Machine.execSsrai sd sa sh s
  | .sslti sd sa imm => Sys2Proof.Machine.execSslti sd sa imm s
  | .ssltiu sd sa imm => Sys2Proof.Machine.execSsltiu sd sa imm s
  | .slimm0 sd imm => Sys2Proof.Machine.execSlimm0 sd imm s
  | .slimm1 sd imm => Sys2Proof.Machine.execSlimm1 sd imm s
  | .slimm2 sd imm => Sys2Proof.Machine.execSlimm2 sd imm s
  | .slimm3 sd imm => Sys2Proof.Machine.execSlimm3 sd imm s
  | .sbCond c sa off => Sys2Proof.Machine.execSbCond c sa off s
  | .sj off => Sys2Proof.Machine.execSj off s
  | .sjal sa off => Sys2Proof.Machine.execSjal sa off s
  | .sjr sa => Sys2Proof.Machine.execSjr sa s
  | .sjalr sd sa => Sys2Proof.Machine.execSjalr sd sa s
  | .ssplit sd sa mark => Sys2Proof.Machine.execSsplit sd sa mark s
  | .smerge mark => Sys2Proof.Machine.execSmerge mark s
  | .asideSlotGrant core => Sys2Proof.Machine.execAsideSlotGrant core s
  | .sld sd sa sz off => Sys2Proof.Machine.execSld sd sa sz off s
  | .sldu sd sa sz off => Sys2Proof.Machine.execSldu sd sa sz off s
  | .sst sd sa sz off => Sys2Proof.Machine.execSst sd sa sz off s
  | .scas sd sa sb ord w64 => Sys2Proof.Machine.execScas sd sa sb ord w64 s
  | .samoAdd sd sa sb ord w64 => Sys2Proof.Machine.execSamoAdd sd sa sb ord w64 s
  | .samoAnd sd sa sb ord w64 => Sys2Proof.Machine.execSamoAnd sd sa sb ord w64 s
  | .samoOr sd sa sb ord w64 => Sys2Proof.Machine.execSamoOr sd sa sb ord w64 s
  | .samoXor sd sa sb ord w64 => Sys2Proof.Machine.execSamoXor sd sa sb ord w64 s
  | .samoMin sd sa sb ord w64 => Sys2Proof.Machine.execSamoMin sd sa sb ord w64 s
  | .samoMax sd sa sb ord w64 => Sys2Proof.Machine.execSamoMax sd sa sb ord w64 s
  | .samoMinu sd sa sb ord w64 => Sys2Proof.Machine.execSamoMinu sd sa sb ord w64 s
  | .samoMaxu sd sa sb ord w64 => Sys2Proof.Machine.execSamoMaxu sd sa sb ord w64 s
  | .samoSwap sd sa sb ord w64 => Sys2Proof.Machine.execSamoSwap sd sa sb ord w64 s
  | .sfence ord => Sys2Proof.Machine.execSfence ord s
  | .sget sd reg => Sys2Proof.Machine.execSget sd reg s
  | .sset reg sa => Sys2Proof.Machine.execSset reg sa s
  | .fset sd sa sb force => Sys2Proof.Machine.execFset sd sa sb force s
  | .fget sd sa => Sys2Proof.Machine.execFget sd sa s
  | .ftest sd sa => Sys2Proof.Machine.execFtest sd sa s
  | .slq0 sa off => Sys2Proof.Machine.execSlq0 sa off s
  | .slq1 sd sa off => Sys2Proof.Machine.execSlq1 sd sa off s
  | .slq2 sd sa off => Sys2Proof.Machine.execSlq2 sd sa off s
  | .slq3 sd sa off => Sys2Proof.Machine.execSlq3 sd sa off s
  | .slq4 sd sa off => Sys2Proof.Machine.execSlq4 sd sa off s
  | .swaitf mask => Sys2Proof.Machine.execSwaitf mask s
  | .swaitp path sa => Sys2Proof.Machine.execSwaitp path sa s
  | .slsync => Sys2Proof.Machine.execSlsync s
  | .gdef g sa => Sys2Proof.Machine.execGdef g sa s
  | .gadvP g sa => Sys2Proof.Machine.execGadvP g sa s
  | .gadvC g sa => Sys2Proof.Machine.execGadvC g sa s
  | .gstat sd g => Sys2Proof.Machine.execGstat sd g s
  | .cpcopy ops => Sys2Proof.Machine.execCpcopy ops s
  | .cpcrypt ops => Sys2Proof.Machine.execCpcrypt ops s
  | .cpseal sd => Sys2Proof.Machine.execCpseal sd s
  | .cpwait n => Sys2Proof.Machine.execCpwait n s
  | .cpresume ops => Sys2Proof.Machine.execCpresume ops s
  | .cpcancel sd sa => Sys2Proof.Machine.execCpcancel sd sa s
  | .mxtake => Sys2Proof.Machine.execMxtake s
  | .mxgive sd sa => Sys2Proof.Machine.execMxgive sd sa s
  | .mxask sa imm => Sys2Proof.Machine.execMxask sa imm s
  | .senrol sd sa => Sys2Proof.Machine.execSenrol sd sa s
  | .sleave sd => Sys2Proof.Machine.execSleave sd s
  | .sbar => Sys2Proof.Machine.execSbar s
  | .sclbar => Sys2Proof.Machine.execSclbar s
  | .slbar => Sys2Proof.Machine.execSlbar s
  | .sgrow sd n => Sys2Proof.Machine.execSgrow sd n s
  | .sshrink sd n => Sys2Proof.Machine.execSshrink sd n s
  | .nwake sd sa => Sys2Proof.Machine.execNwake sd sa s
  | .nsignal sd sa sb => Sys2Proof.Machine.execNsignal sd sa sb s
  | .ndeposit sd sa sb n force => Sys2Proof.Machine.execNdeposit sd sa sb n force s
  | .njoin sd sf sa => Sys2Proof.Machine.execNjoin sd sf sa s
  | .nsleep => Sys2Proof.Machine.execNsleep s
  | .nexit sa => Sys2Proof.Machine.execNexit sa s
  | .phraseRetire phrase => Sys2Proof.Machine.execPhraseRetire phrase s
  | .ntest sd sa => Sys2Proof.Machine.execNtest sd sa s
  | .kseq sd sa sb sp => Sys2Proof.Machine.execKseq sd sa sb sp s
  | .kpar sd sa sb sp => Sys2Proof.Machine.execKpar sd sa sb sp s
  | .kpipe sd sa sb sp => Sys2Proof.Machine.execKpipe sd sa sb sp s
  | .kfarm sd sa sp => Sys2Proof.Machine.execKfarm sd sa sp s
  | .kloop sd sa sb sp => Sys2Proof.Machine.execKloop sd sa sb sp s
  | .kapply sd sa sb now => Sys2Proof.Machine.execKapply sd sa sb now s
  | .kyield sd sa => Sys2Proof.Machine.execKyield sd sa s
  | .kresume sd sf sa sb => Sys2Proof.Machine.execKresume sd sf sa sb s
  | .kemit sd sa sb farm => Sys2Proof.Machine.execKemit sd sa sb farm s
  | .ktake sd sf sa => Sys2Proof.Machine.execKtake sd sf sa s
  | .kdone sd => Sys2Proof.Machine.execKdone sd s
  | .kcancel sd sa => Sys2Proof.Machine.execKcancel sd sa s
  | .strap code => Sys2Proof.Machine.execStrap code s
  | .sbrk code => Sys2Proof.Machine.execSbrk code s
  | .seret => Sys2Proof.Machine.execSeret s
  | .seretSkip => Sys2Proof.Machine.execSeretSkip s
  | .tlbfill sd sa sb tag => Sys2Proof.Machine.execTlbfill sd sa sb tag s
  | .tlbinv sd sa sb dom range => Sys2Proof.Machine.execTlbinv sd sa sb dom range s
  | .ntinv sd sa dom range => Sys2Proof.Machine.execNtinv sd sa dom range s
  | .vtinv sd sa sb dom range => Sys2Proof.Machine.execVtinv sd sa sb dom range s
  | .skill sd sa => Sys2Proof.Machine.execSkill sd sa s
  | .replyArrival id => Sys2Proof.Machine.execReplyArrival id s
  | .scalarAccessComplete id => Sys2Proof.Machine.execScalarAccessComplete id s
  | .clauseStart frag => Sys2Proof.Machine.execClauseStart frag s
  | .vadd f => Sys2Proof.Machine.execVadd f s
  | .vsub f => Sys2Proof.Machine.execVsub f s
  | .vmul f => Sys2Proof.Machine.execVmul f s
  | .vmulh f => Sys2Proof.Machine.execVmulh f s
  | .vmad f => Sys2Proof.Machine.execVmad f s
  | .vdiv f => Sys2Proof.Machine.execVdiv f s
  | .vrem f => Sys2Proof.Machine.execVrem f s
  | .vmin f => Sys2Proof.Machine.execVmin f s
  | .vmax f => Sys2Proof.Machine.execVmax f s
  | .vabs f => Sys2Proof.Machine.execVabs f s
  | .vand f => Sys2Proof.Machine.execVand f s
  | .vor f => Sys2Proof.Machine.execVor f s
  | .vxor f => Sys2Proof.Machine.execVxor f s
  | .vnot f => Sys2Proof.Machine.execVnot f s
  | .vshl f => Sys2Proof.Machine.execVshl f s
  | .vshr f => Sys2Proof.Machine.execVshr f s
  | .vsra f => Sys2Proof.Machine.execVsra f s
  | .vrot f => Sys2Proof.Machine.execVrot f s
  | .vclz f => Sys2Proof.Machine.execVclz f s
  | .vpopc f => Sys2Proof.Machine.execVpopc f s
  | .vbrev f => Sys2Proof.Machine.execVbrev f s
  | .vbfx f => Sys2Proof.Machine.execVbfx f s
  | .vbfi f => Sys2Proof.Machine.execVbfi f s
  | .vaddc f => Sys2Proof.Machine.execVaddc f s
  | .vsubb f => Sys2Proof.Machine.execVsubb f s
  | .vcmp f => Sys2Proof.Machine.execVcmp f s
  | .vsel f => Sys2Proof.Machine.execVsel f s
  | .vfadd f => Sys2Proof.Machine.execVfadd f s
  | .vfsub f => Sys2Proof.Machine.execVfsub f s
  | .vfmul f => Sys2Proof.Machine.execVfmul f s
  | .vfma f => Sys2Proof.Machine.execVfma f s
  | .vfmin f => Sys2Proof.Machine.execVfmin f s
  | .vfmax f => Sys2Proof.Machine.execVfmax f s
  | .vfdiv f => Sys2Proof.Machine.execVfdiv f s
  | .vfsqrt f => Sys2Proof.Machine.execVfsqrt f s
  | .vfrcp f => Sys2Proof.Machine.execVfrcp f s
  | .vfrsq f => Sys2Proof.Machine.execVfrsq f s
  | .vfexp2 f => Sys2Proof.Machine.execVfexp2 f s
  | .vflog2 f => Sys2Proof.Machine.execVflog2 f s
  | .vfcmp f => Sys2Proof.Machine.execVfcmp f s
  | .vfclass f => Sys2Proof.Machine.execVfclass f s
  | .vfrnd f => Sys2Proof.Machine.execVfrnd f s
  | .vcvt f => Sys2Proof.Machine.execVcvt f s
  | .vcvtmx f => Sys2Proof.Machine.execVcvtmx f s
  | .vpack f => Sys2Proof.Machine.execVpack f s
  | .vunpack f => Sys2Proof.Machine.execVunpack f s
  | .vshuf f => Sys2Proof.Machine.execVshuf f s
  | .vshufx f => Sys2Proof.Machine.execVshufx f s
  | .vbcast f => Sys2Proof.Machine.execVbcast f s
  | .vballot f => Sys2Proof.Machine.execVballot f s
  | .vany f => Sys2Proof.Machine.execVany f s
  | .vall f => Sys2Proof.Machine.execVall f s
  | .vscan f => Sys2Proof.Machine.execVscan f s
  | .vred f => Sys2Proof.Machine.execVred f s
  | .vtos f => Sys2Proof.Machine.execVtos f s
  | .vfroms f => Sys2Proof.Machine.execVfroms f s
  | .vmov f => Sys2Proof.Machine.execVmov f s
  | .vmovi f => Sys2Proof.Machine.execVmovi f s
  | .vld f => Sys2Proof.Machine.execVld f s
  | .vst f => Sys2Proof.Machine.execVst f s
  | .vlds f => Sys2Proof.Machine.execVlds f s
  | .vsts f => Sys2Proof.Machine.execVsts f s
  | .vatom f => Sys2Proof.Machine.execVatom f s
  | .vcas f => Sys2Proof.Machine.execVcas f s
  | .vfence f => Sys2Proof.Machine.execVfence f s
  | .vpref f => Sys2Proof.Machine.execVpref f s
  | .vrma f => Sys2Proof.Machine.execVrma f s
  | .vmcast f => Sys2Proof.Machine.execVmcast f s
  | .vsysc f => Sys2Proof.Machine.execVsysc f s
  | .vexit f => Sys2Proof.Machine.execVexit f s
  | .mxlds f => Sys2Proof.Machine.execMxlds f s
  | .mxswap f => Sys2Proof.Machine.execMxswap f s
  | .mxmma f => Sys2Proof.Machine.execMxmma f s
  | .mxcmma f => Sys2Proof.Machine.execMxcmma f s
  | .mxzero f => Sys2Proof.Machine.execMxzero f s
  | .mxrd f => Sys2Proof.Machine.execMxrd f s
  | .mxwr f => Sys2Proof.Machine.execMxwr f s
  | .mxout f => Sys2Proof.Machine.execMxout f s
  | .vgwr f => Sys2Proof.Machine.execVgwr f s
  | .vgrd f => Sys2Proof.Machine.execVgrd f s
  | .laneResultWrite id => Sys2Proof.Machine.execLaneResultWrite id s
  | .laneAccessComplete id => Sys2Proof.Machine.execLaneAccessComplete id s
  | .walkerRecordDeliver core => Sys2Proof.Machine.execWalkerRecordDeliver core s
  | .copyFire id => Sys2Proof.Machine.execCopyFire id s
  | .copyGranule id => Sys2Proof.Machine.execCopyGranule id s
  | .copyFaultTake frag => Sys2Proof.Machine.execCopyFaultTake frag s
  | .matrixFire core => Sys2Proof.Machine.execMatrixFire core s
  | .matrixComplete core => Sys2Proof.Machine.execMatrixComplete core s
  | .governorTick => Sys2Proof.Machine.execGovernorTick s
  | .syscallServe ctx => Sys2Proof.Machine.execSyscallServe ctx s
  | .syscallResultCopy id => Sys2Proof.Machine.execSyscallResultCopy id s
  | .nounDelivery id => Sys2Proof.Machine.execNounDelivery id s
  | .dispatch part => Sys2Proof.Machine.execDispatch part s
  | .instanceLate inst => Sys2Proof.Machine.execInstanceLate inst s
  | .readyQueueServe part => Sys2Proof.Machine.execReadyQueueServe part s
  | .readyQueueScan part => Sys2Proof.Machine.execReadyQueueScan part s
  | .csCommandComplete slot => Sys2Proof.Machine.execCsCommandComplete slot s
  | .leaseExpiry => Sys2Proof.Machine.execLeaseExpiry s
  | .leaseNearExpiry => Sys2Proof.Machine.execLeaseNearExpiry s
  | .priTimeout hp ctx page => Sys2Proof.Machine.execPriTimeout hp ctx page s
  | .fabricQueueAdmit dest => Sys2Proof.Machine.execFabricQueueAdmit dest s
  | .illopScalarWord w => Sys2Proof.Machine.execIllopScalarWord w s
  | .instructionFetchFault cause sub addr => Sys2Proof.Machine.execInstructionFetchFault cause sub addr s
  | .scalarDestinationWrite id => Sys2Proof.Machine.execScalarDestinationWrite id s
  | .migrationArrival noun image => Sys2Proof.Machine.execMigrationArrival noun image s
  | .atsCompletion hp ctx page grant => Sys2Proof.Machine.execAtsCompletion hp ctx page grant s
  | .atsInvalidation hp ctx page pages => Sys2Proof.Machine.execAtsInvalidation hp ctx page pages s
  | .priResponse hp ctx page success => Sys2Proof.Machine.execPriResponse hp ctx page success s
  | .poolTimeout id => Sys2Proof.Machine.execPoolTimeout id s
  | .cxlLinkDown port => Sys2Proof.Machine.execCxlLinkDown port s
  | .cxlPortTrained port => Sys2Proof.Machine.execCxlPortTrained port s
  | .dynamicCapacityAdd start len => Sys2Proof.Machine.execDynamicCapacityAdd start len s
  | .dynamicCapacityReleaseRequest extent => Sys2Proof.Machine.execDynamicCapacityReleaseRequest extent s
  | .cxlEventRecord record => Sys2Proof.Machine.execCxlEventRecord record s
  | .poolrel hp value => Sys2Proof.Machine.execPoolrel hp value s
  | .deathNotice noun xstat xcause exit => Sys2Proof.Machine.execDeathNotice noun xstat xcause exit s
  | .makeResident record ctx => Sys2Proof.Machine.execMakeResident record ctx s
  | .save slot => Sys2Proof.Machine.execSave slot s
  | .saveWholectx slot => Sys2Proof.Machine.execSaveWholectx slot s
  | .swapout slot => Sys2Proof.Machine.execSwapout slot s
  | .swapoutWholectx slot => Sys2Proof.Machine.execSwapoutWholectx slot s
  | .swapin slot => Sys2Proof.Machine.execSwapin slot s
  | .swapinWholectx slot => Sys2Proof.Machine.execSwapinWholectx slot s
  | .migrate slot => Sys2Proof.Machine.execMigrate slot s
  | .restore slot => Sys2Proof.Machine.execRestore slot s
  | .bind hp np slot cmd => Sys2Proof.Machine.execBind hp np slot cmd s
  | .unbind hp np slot cmd => Sys2Proof.Machine.execUnbind hp np slot cmd s
  | .wake hp np slot cmd => Sys2Proof.Machine.execWake hp np slot cmd s
  | .signal hp np slot cmd => Sys2Proof.Machine.execSignal hp np slot cmd s
  | .deposit hp np slot cmd => Sys2Proof.Machine.execDeposit hp np slot cmd s
  | .join hp np slot cmd => Sys2Proof.Machine.execJoin hp np slot cmd s
  | .test hp np slot cmd => Sys2Proof.Machine.execTest hp np slot cmd s
  | .apply hp np slot cmd => Sys2Proof.Machine.execApply hp np slot cmd s
  | .leaseWrite hp value => Sys2Proof.Machine.execLeaseWrite hp value s
  | .leaseRelease hp => Sys2Proof.Machine.execLeaseRelease hp s
  | .standby hp on => Sys2Proof.Machine.execStandby hp on s
  | .hrestart hp => Sys2Proof.Machine.execHrestart hp s
  | .hostLinkDown hp => Sys2Proof.Machine.execHostLinkDown hp s
  | .hostReset hp => Sys2Proof.Machine.execHostReset hp s
  | .goneClear hp => Sys2Proof.Machine.execGoneClear hp s
  | .lqcfgWrite hp q value => Sys2Proof.Machine.execLqcfgWrite hp q value s
  | .pcfgWrite hp part word value => Sys2Proof.Machine.execPcfgWrite hp part word value s
  | .frzrel hp core => Sys2Proof.Machine.execFrzrel hp core s
  | .featonWrite hp value => Sys2Proof.Machine.execFeatonWrite hp value s
  | .npctlWrite hp np value => Sys2Proof.Machine.execNpctlWrite hp np value s
  | .expwinWrite hp win word value => Sys2Proof.Machine.execExpwinWrite hp win word value s
  | .counterClear hp port ctr => Sys2Proof.Machine.execCounterClear hp port ctr s
  | .keySlotRequest hp req => Sys2Proof.Machine.execKeySlotRequest hp req s
  | .registerWrite hp off value => Sys2Proof.Machine.execRegisterWrite hp off value s
  | .hostWindowRead hp tbit off bytes => Sys2Proof.Machine.execHostWindowRead hp tbit off bytes s
  | .hostWindowWrite hp tbit off data => Sys2Proof.Machine.execHostWindowWrite hp tbit off data s
  | .hostWindowAtomicop hp tbit off op w64 operand compare => Sys2Proof.Machine.execHostWindowAtomicop hp tbit off op w64 operand compare s
  | .lockInterface hp => Sys2Proof.Machine.execLockInterface hp s
  | .startInterfaceRequest hp => Sys2Proof.Machine.execStartInterfaceRequest hp s
  | .stopInterface hp => Sys2Proof.Machine.execStopInterface hp s
  | .getVersion hp => Sys2Proof.Machine.execGetVersion hp s
  | .getCapabilities hp => Sys2Proof.Machine.execGetCapabilities hp s
  | .negotiateAlgorithms hp asym hash dhe aead => Sys2Proof.Machine.execNegotiateAlgorithms hp asym hash dhe aead s
  | .getDigests hp => Sys2Proof.Machine.execGetDigests hp s
  | .getCertificate hp off len => Sys2Proof.Machine.execGetCertificate hp off len s
  | .challenge hp nonce => Sys2Proof.Machine.execChallenge hp nonce s
  | .getMeasurements hp index => Sys2Proof.Machine.execGetMeasurements hp index s
  | .keyExchange hp pub => Sys2Proof.Machine.execKeyExchange hp pub s
  | .finish hp mac => Sys2Proof.Machine.execFinish hp mac s
  | .endSession hp => Sys2Proof.Machine.execEndSession hp s
  | .vendorDefinedRequest hp req => Sys2Proof.Machine.execVendorDefinedRequest hp req s
  | .slotStart port index => Sys2Proof.Machine.execSlotStart port index s
  | .calendarSwitch port epoch entries => Sys2Proof.Machine.execCalendarSwitch port epoch entries s
  | .preamble port flit => Sys2Proof.Machine.execPreamble port flit s
  | .dataPeriodEnd port => Sys2Proof.Machine.execDataPeriodEnd port s
  | .messageFirst port flit => Sys2Proof.Machine.execMessageFirst port flit s
  | .messageContinuation port flit => Sys2Proof.Machine.execMessageContinuation port flit s
  | .ack port lseq => Sys2Proof.Machine.execAck port lseq s
  | .nak port lseq busy => Sys2Proof.Machine.execNak port lseq busy s
  | .keyclear port src gen => Sys2Proof.Machine.execKeyclear port src gen s
  | .idle port => Sys2Proof.Machine.execIdle port s
  | .laneFail port lane => Sys2Proof.Machine.execLaneFail port lane s
  | .keyChange port change => Sys2Proof.Machine.execKeyChange port change s
  | .portBringUp port lanes => Sys2Proof.Machine.execPortBringUp port lanes s
  | .read src msg => Sys2Proof.Machine.execRead src msg s
  | .write src msg => Sys2Proof.Machine.execWrite src msg s
  | .atomic src msg => Sys2Proof.Machine.execAtomic src msg s
  | .multicastWrite src msg => Sys2Proof.Machine.execMulticastWrite src msg s
  | .nounOperation src msg => Sys2Proof.Machine.execNounOperation src msg s
  | .writeAcknowledgement src msg => Sys2Proof.Machine.execWriteAcknowledgement src msg s
  | .readResponse src msg => Sys2Proof.Machine.execReadResponse src msg s
  | .failureResponse src msg => Sys2Proof.Machine.execFailureResponse src msg s
  | .moduleReset image => Sys2Proof.Machine.execModuleReset image s
  | .powerLoss => Sys2Proof.Machine.execPowerLoss s
  | .fullServiceStart => Sys2Proof.Machine.execFullServiceStart s
  | .thermalThrottle die => Sys2Proof.Machine.execThermalThrottle die s
  | .coolantBreach => Sys2Proof.Machine.execCoolantBreach s
  | .thermal sensor => Sys2Proof.Machine.execThermal sensor s
  | .uncorr addr => Sys2Proof.Machine.execUncorr addr s
  | .fwfault => Sys2Proof.Machine.execFwfault s
  | .hostLinkUp hp => Sys2Proof.Machine.execHostLinkUp hp s
  | .temperatureBelow105C die => Sys2Proof.Machine.execTemperatureBelow105C die s
  | .migrationAbandon noun => Sys2Proof.Machine.execMigrationAbandon noun s
  | .clusterGated cluster => Sys2Proof.Machine.execClusterGated cluster s

end Sys2Proof.Machine
end

