-- ==== Sys2Proof/Machine/Schedule.lean ====
section
/-! DEFINITION. What the module does next: the acts of outside parties, what is due, what may act, and the passing of time
(R50, R55, R187-R189; log 1-3). -/
namespace Sys2Proof.Machine

/-- One act of the module. -/
inductive Act where
  | row (i : Instr)        -- an event of the table
  | pump (port : Nat)      -- the next command of a noun port (R398)
  | held                   -- a held member of an ordered stream (R511)
  | release                -- extents whose accesses have completed (R497)
  | walker (core : Nat)    -- the walker serves a record and issues its tlbfill (R144-R146)
  | send (port : Nat)      -- an optical port sends a message (R186)
  | fetch (k : Nat)        -- a fragment's fetch posts its miss (R143)
  | fault (k : Nat)        -- a fragment takes its oldest lane fault (R465)
  | pass (k : Nat)         -- a barrier's release reaches a waiting fragment (R401)
  | restart (p : Nat)      -- a restored phrase serves the next entries of its image (R478)
  | pool (entry : Nat)     -- a pool read of a saved phrase is answered (R477)
  | killed (ctx : Nat)     -- a kill goes on to its end (R469)
  | scalar (k : Nat)       -- a fragment issues its next scalar instruction
  | lane (k : Nat)         -- a fragment issues its next lane instruction
  | tick                   -- a cycle passes
  deriving DecidableEq, Repr

/-- The rows of the table that are acts of outside parties. -/
def outsideRow (i : Instr) : Bool :=
  match i with
  | .atsCompletion _ _ _ _ | .atsInvalidation _ _ _ _ | .priResponse _ _ _ _ | .poolTimeout _ | .cxlLinkDown _
  | .cxlPortTrained _ | .dynamicCapacityAdd _ _ | .dynamicCapacityReleaseRequest _ | .cxlEventRecord _ | .poolrel _ _
  | .deathNotice _ _ _ _ | .migrationArrival _ _ | .makeResident _ _ | .save _ | .saveWholectx _ | .swapout _
  | .swapoutWholectx _ | .swapin _ | .swapinWholectx _ | .migrate _ | .restore _ | .bind _ _ _ _ | .unbind _ _ _ _
  | .wake _ _ _ _ | .signal _ _ _ _ | .deposit _ _ _ _ | .join _ _ _ _ | .test _ _ _ _ | .apply _ _ _ _
  | .leaseWrite _ _ | .leaseRelease _ | .standby _ _ | .hrestart _ | .hostLinkDown _ | .hostReset _ | .goneClear _
  | .lqcfgWrite _ _ _ | .pcfgWrite _ _ _ _ | .frzrel _ _ | .featonWrite _ _ | .npctlWrite _ _ _ | .expwinWrite _ _ _ _
  | .counterClear _ _ _ | .keySlotRequest _ _ | .registerWrite _ _ _ | .hostWindowRead _ _ _ _
  | .hostWindowWrite _ _ _ _ | .hostWindowAtomicop _ _ _ _ _ _ _ | .lockInterface _ | .startInterfaceRequest _
  | .stopInterface _ | .getVersion _ | .getCapabilities _ | .negotiateAlgorithms _ _ _ _ _ | .getDigests _
  | .getCertificate _ _ _ | .challenge _ _ | .getMeasurements _ _ | .keyExchange _ _ | .finish _ _ | .endSession _
  | .vendorDefinedRequest _ _ | .slotStart _ _ | .calendarSwitch _ _ _ | .preamble _ _ | .dataPeriodEnd _
  | .messageFirst _ _ | .messageContinuation _ _ | .ack _ _ | .nak _ _ _ | .keyclear _ _ _ | .idle _ | .laneFail _ _
  | .keyChange _ _ | .portBringUp _ _ | .read _ _ | .write _ _ | .atomic _ _ | .multicastWrite _ _ | .nounOperation _ _
  | .writeAcknowledgement _ _ | .readResponse _ _ | .failureResponse _ _ | .moduleReset _ | .powerLoss
  | .fullServiceStart | .thermalThrottle _ | .coolantBreach | .thermal _ | .uncorr _ | .fwfault | .hostLinkUp _
  | .temperatureBelow105C _ | .migrationAbandon _ | .clusterGated _ => true
  | _ => false

/-- Acts of outside parties that a halted module, or one in reset, still answers (R545, R549, R550), and the sensors, whose readings the
governors follow afterwards (R548). -/
def alwaysRow (i : Instr) (halted : Bool) : Bool :=
  match i with
  | .moduleReset _ | .powerLoss | .thermalThrottle _ | .temperatureBelow105C _ => true
  | .hostWindowRead _ _ _ _ => halted
  | _ => false

def State.running (s : State) : Bool := s.svc == .reduced || s.svc == .full

/-- Whether an act of an outside party has an effect in the present service level. -/
def State.heeds (s : State) (i : Instr) : Bool := if s.running then outsideRow i else alwaysRow i (s.svc == .halted)

/-! ### What is due -/

/-- The fixed-latency result that is written next: due, and the earliest due of all (R243). -/
def State.dueResult (s : State) : Option Nat :=
  ((s.results.filter fun r => r.due != 0 && r.due ≤ s.cycle).foldl (fun (b : Option LaneRes) r => match b with
    | some x => if r.due < x.due then some r else some x
    | none => some r) none).map fun r => r.id

/-- The port, context and page of a page request that is overdue (R150). -/
def State.overdueReq (s : State) : Option (Bool × Nat × Nat) :=
  [false, true].findSome? fun hp => ((s.hostPort hp).reqs.find? fun q => s.priOverdue q).map fun q => (hp, q.ctx, q.page)

/-- What must be done before anything else in this cycle. -/
def State.due (s : State) : Option Act :=
  match s.dueResult with
  | some id => some (.row (.laneResultWrite id))
  | none =>
    if s.tickDue then some (.row .governorTick)
    else if s.leaseOver then some (.row .leaseExpiry)
    else if s.leaseNear then some (.row .leaseNearExpiry)
    else match s.applied.find? fun e => s.isLate e.2 with
      | some e => some (.row (.instanceLate e.1))
      | none => match s.overdueReq with
        | some (hp, ctx, page) => some (.row (.priTimeout hp ctx page))
        | none => match s.npReady with
          | n :: _ => some (.pump n)
          | [] =>
            if s.heldReady.isSome then some .held
            else if s.pool.draining.any fun d => !s.extentBusy d.1 d.2 then some .release
            else match s.frags.find? fun e => s.settles e.1 with
              | some e => some (.fault e.1)
              | none => (s.contexts.find? fun e => s.killDue e.1).map fun e => .killed e.1

/-! ### What may act -/

/-- Accesses that can go on: a lane can be performed, its messages sent, or it can end (R216, R307). -/
def State.accActs (s : State) : List Act :=
  s.accs.filterMap fun a =>
    let ends := !a.pending && !(a.scalar && (s.core (s.coreOf a.frag)).frozen)
    let goes := if a.kind.isFabric then !a.began && s.mayPerform a else s.accReady a
    if ends || goes then some (.row (if a.scalar then .scalarAccessComplete a.id else .laneAccessComplete a.id)) else none

/-- Results of class V, which come at any time (R242). -/
def State.resultActs (s : State) : List Act :=
  (s.results.filter fun r => r.due == 0).map fun r => .row (if r.scalar.isSome then .scalarDestinationWrite r.id else .laneResultWrite r.id)

/-- What fragments can do beside issuing. -/
def State.fragActs (s : State) : List Act :=
  s.frags.flatMap fun e =>
    (if s.startReady e.1 then [Act.row (.clauseStart e.1)] else []) ++
    (if (s.copyFaultOf e.1).isSome then [Act.row (.copyFaultTake e.1)] else []) ++
    (match e.2.wait with | .passed _ => [Act.pass e.1] | _ => []) ++
    (if (s.fetchMiss e.1).isSome then [Act.fetch e.1] else [])

/-- Noun operations, replies and invalidations that can go on. -/
def State.nounActs (s : State) : List Act :=
  ((s.nouns.filter fun o => s.nounReady o).map fun o => Act.row (.nounDelivery o.id)) ++
  ((s.replies.filter fun y => s.replyReady y).map fun y => Act.row (.replyArrival y.id)) ++
  ((s.invals.filter fun v => !s.invalWaits v).map fun v => Act.row (.replyArrival v.id)) ++
  s.phrases.flatMap fun e => if s.retireReady e.1 then [Act.row (.phraseRetire e.1)] else []

/-- The records that walkers are given, the matrix engines and the aside queues of the cores. -/
def State.coreActs (s : State) : List Act :=
  s.cores.flatMap fun e =>
    (if (s.nextRecord e.1).isSome then [Act.row (.walkerRecordDeliver e.1)] else []) ++
    (if (s.mxFirable e.1).isSome then [Act.row (.matrixFire e.1)] else []) ++
    (if e.2.engine.ops.any fun o => o.fired then [Act.row (.matrixComplete e.1)] else []) ++
    (if !e.2.asideQ.isEmpty && (!(s.freeSlots e.1).isEmpty || (s.lender e.1).isSome) then [Act.row (.asideSlotGrant e.1)] else [])

/-- The copy engines. -/
def State.copyActs (s : State) : List Act :=
  s.copies.flatMap fun c =>
    (if (s.copyFirable (clusterOf c.core)).any fun d => d.id == c.id then [Act.row (.copyFire c.id)] else []) ++
    (if c.ready then [Act.row (.copyGranule c.id)] else [])

/-- Dispatchers, ready queues, service cores, context-switch commands and migrations. -/
def State.unitActs (s : State) : List Act :=
  (s.parts.flatMap fun e =>
    (if (s.dispatchStep e.1).isSome then [Act.row (.dispatch e.1)] else []) ++
    (if s.readyCount e.1 != 0 then [Act.row (.readyQueueServe e.1)] else []) ++
    (if s.scanDue e.1 then [Act.row (.readyQueueScan e.1)] else [])) ++
  (s.contexts.flatMap fun e => if s.syscReady e.1 then [Act.row (.syscallServe e.1)] else []) ++
  (s.syscs.flatMap fun y => if s.resultReady y then [Act.row (.syscallResultCopy y.id)] else []) ++
  (s.host.cs.flatMap fun e => if s.csReady e.1 then [Act.row (.csCommandComplete (BitVec.ofNat 4 e.1))] else []) ++
  s.migs.filterMap fun g => if moduleOfLoc g.dest == s.moduleNo then some (Act.row (.migrationArrival g.noun g.arrives)) else none

/-- Restores with entries still to serve, and pool reads of saved phrases. -/
def State.restoreActs (s : State) : List Act :=
  (s.phrases.flatMap fun e => if s.restartReady e.1 then [Act.restart e.1] else []) ++ s.poolReads.map fun r => Act.pool r.entry

/-- The fabric's outbound side. -/
def State.fabricActs (s : State) : List Act :=
  (s.fabric.ports.flatMap fun e => if (s.nextToSend e.1).isSome then [Act.send e.1] else []) ++
  (((s.fabric.held.map fun m => m.dest).eraseDups).flatMap fun d =>
    if s.admitReady d then [Act.row (.fabricQueueAdmit (BitVec.ofNat 10 d))] else [])

/-- Everything that may act now beside the cores' issues. -/
def State.unitsReady (s : State) : List Act :=
  s.accActs ++ s.resultActs ++ s.fragActs ++ s.nounActs ++ s.coreActs ++ s.copyActs ++ s.unitActs ++ s.restoreActs ++ s.fabricActs

/-- The lane issue of a fragment, or the start of the clause whose first instruction it would issue (R188). -/
def State.laneAct (s : State) (k : Nat) : Act := if s.startReady k then .row (.clauseStart k) else .lane k

/-- The issues of this cycle: at most one scalar and one lane issue for each core (R55). -/
def State.issues (s : State) : List Act :=
  ((s.cores.filter fun e => s.walkerReady e.1).map fun e => Act.walker e.1) ++
  s.coresInUse.flatMap fun c => ((s.scalarChoice c).map Act.scalar).toList ++ ((s.laneChoice c).map s.laneAct).toList

/-- A cycle passes only when no core can issue in it any more. -/
def State.mayAct (s : State) : List Act :=
  let is := s.issues
  is ++ s.unitsReady ++ (if is.isEmpty then [Act.tick] else [])

/-! ### The choice (log 2) -/

/-- One of several acts: the only one, or an open choice. -/
def State.choose (s : State) (as : List Act) : Act × State :=
  match as with
  | [] => (.tick, s)
  | [a] => (a, s)
  | _ => (nth .tick as (Config.pick s.draws as.length % as.length), s.drawn)

/-- The next act, and the state in which it is made: what outside parties do comes first, then what is due. -/
def State.nextAct (s : State) : Act × State :=
  match s.inputs with
  | i :: is => (if s.heeds i then .row i else .tick, { s with inputs := is })
  | [] =>
    if !s.running then (.tick, s)
    else match s.due with
      | some a => (a, s)
      | none => s.choose s.mayAct

/-! ### Performing an act -/

/-- A cycle passes: 10/11 ns at 1.1 GHz, 20/11 ns at 550 MHz (R222, R543). -/
def State.tick (s : State) : State :=
  { s with cycle := s.cycle + 1, elevenths := s.elevenths + (if s.svc == .full then 10 else 20) }

/-- A fragment issues its next scalar instruction, if it can. -/
def State.issueScalar (s : State) (k : Nat) : Out :=
  match s.scalarReady k with
  | some (i, s1) => exec i ((s1.countScalar k).at k)
  | none => .next s

/-- A fragment issues its next lane instruction, if it can: the draw of the choice may have changed an uncovered address, and
with it the room that an access finds (R50, log 9). -/
def State.issueLaneNext (s : State) (k : Nat) : Out :=
  match s.laneReadyIns k with
  | some i => exec i ((s.countLane k).at k)
  | none => .next s

/-- The walker serves a record: its walk, and the tlbfill that its program ends with, on s4 and s5, into s7, with the record's
tag (log 7). -/
def State.serveRecord (s : State) (core : Nat) : Out :=
  let s1 := (s.walkerRead core).updCore core fun c => { c with scalarUsed := s.cycle + 1 }
  exec (.tlbfill 7 4 5 (((s1.frag (walkerKey core)).reg 63).setWidth 6)) s1

/-- Performs an act. -/
def State.perform (s : State) (a : Act) : Out :=
  match a with
  | .row i => exec i s
  | .pump n => .next (s.npPump (decide (n ≥ 1024)) (n % 1024))
  | .held => .next s.arriveHeld
  | .release => .next s.releaseExtents
  | .walker c => if s.walkerReady c then s.serveRecord c else .next s
  | .send n => .next (s.portSend n)
  | .fetch k => .next ((s.fetchMiss k).getD s)
  | .fault k => .next (s.settle k)
  | .pass k => .next (s.passOn k)
  | .restart p => .next (s.restartOn p)
  | .pool e => .next (s.answerPoolRead e)
  | .killed c => .next (s.killEnd c)
  | .scalar k => s.issueScalar k
  | .lane k => s.issueLaneNext k
  | .tick => .next s.tick

/-! ### Placing an instruction to run next (log 6) -/

/-- A standard context, TLB entry, phrase and fragment: page 1 of the context is page 1 of vault 0. -/
def seedEntry : TlbEntry :=
  { ctx := 0, vpn := 1, size := 0, frame := 0x1000, ord := 0, host := false, loc := false, u := true, x := true, w := true, d := true }

def seedPhrase : Phrase :=
  { present := true, live := 0xFFFFFFFF, regs := 64, fsl := List.replicate 8 0 }

/-- A started clause of one instruction at the head of the lane queue, its scalar stream asleep. -/
def seedLane (w : BitVec 96) : Frag :=
  { live := true, slot := some 0, pc := 0x1000, exec := 0xFFFFFFFF, wait := .sleep
    queue := [{ addr := 0x1000, mask := 0xFFFFFFFF, next := 1, last := 1, header := some ⟨0, none, none, 1⟩, code := [w] }] }

def seedScalar : Frag := { live := true, slot := some 0, pc := 0x1000, exec := 0xFFFFFFFF }

/-- The state with an instruction where the next step fetches it: a scalar word at the scalar PC of the one fragment, or a lane
word in its started clause. -/
def State.seed (s : State) (nbits w : Nat) : State :=
  let frag := if nbits ≤ 32 then seedScalar else seedLane (BitVec.ofNat 96 w)
  { s with
    svc := if s.running then s.svc else .reduced
    inputs := []
    cycle := max s.cycle 8
    mem := if nbits ≤ 32 then writeBytes 0x1000 (bytesOf w 4) s.mem else writeBytes 0x1000 (bytesOf w 12) s.mem
    contexts := tput 0 { resident := true } s.contexts
    cores := tput 0 { (tget {} s.cores 0) with tlb := [seedEntry], scalarUsed := 0, laneUsed := 0, frozen := false } s.cores
    parts := tput 0 { (s.part 0) with bitmap := (s.part 0).bitmap ||| 1 } s.parts
    phrases := tput 0 seedPhrase s.phrases
    frags := tput 0 frag s.frags }

end Sys2Proof.Machine
end

