-- ==== Sys2Proof/Machine/Step.lean ====
section
/-! DEFINITION. One step of the module, and the placing of an instruction that the next step runs. -/
namespace Sys2Proof.Machine

/-- One step: the next act is performed. -/
def step (s : State) : Host.Outcome State Fault Refusal := (s.nextAct.2).perform s.nextAct.1

/-- The state with an instruction placed where the next step fetches it (log 6). -/
def State.withFetchWord (s : State) (nbits w : Nat) : State := s.seed nbits w

end Sys2Proof.Machine
end

