-- ==== Sys2Proof/Safety.lean ====
section
/-! DEFINITION. The terms in which claims speak: an instruction completes, and what differs between two states. The machine has
no unsafe stop: every answer is a next state. -/
namespace Sys2Proof.Machine

/-- The answer is a next state, and it has a property. -/
def Gives (o : Out) (P : State → Prop) : Prop := ∃ t, o = .next t ∧ P t

/-- Two states differ at most in fragment `k`. -/
structure OnlyFrag (s t : State) (k : Nat) : Prop where
  rest : t = { s with frags := t.frags }
  others : ∀ j, j ≠ k → t.frag j = s.frag j

/-- Two states differ at most in phrase `p`. -/
structure OnlyPhr (s t : State) (p : Nat) : Prop where
  rest : t = { s with phrases := t.phrases }
  others : ∀ j, j ≠ p → t.phr j = s.phr j

/-- A scalar instruction has written `v` to `sd` at issue and goes on (R94): nothing else has changed, neither another register,
nor memory, STATUS, a special register, or another fragment. -/
structure Writes (s t : State) (sd : SReg) (v : Word) : Prop where
  only : OnlyFrag s t s.cur
  reg : ∀ x : SReg, t.r x = if x = sd ∧ x ≠ 0 then v else s.r x
  frag : t.me = { s.me with sregs := t.me.sregs, pc := s.me.pc + 4 }

/-- The scalar stream goes on at `pc`, and nothing else has changed. -/
def Moves (s t : State) (pc : Word) : Prop := OnlyFrag s t s.cur ∧ t.me = { s.me with pc := pc }

/-- Fragment `k` has entered a trap (R464) under `e`, with the resume address `epc`: its six registers, its lane queue set aside,
EXEC, TL and the vector. Its scalar registers stand, and nothing outside it has changed. -/
structure Traps (s t : State) (k : Nat) (e : Exn) (epc : Word) : Prop where
  only : OnlyFrag s t k
  level : (t.frag k).tl.toNat = (s.frag k).tl.toNat + 1
  epc : ((t.frag k).bank (t.frag k).tl.toNat).epc = epc
  elpc : ((t.frag k).bank (t.frag k).tl.toNat).elpc = e.pa
  ecause : ((t.frag k).bank (t.frag k).tl.toNat).ecause =
    BitVec.ofNat 32 (causeCode e.cause + 256 * e.sub.toNat + 65536 * (if e.lane then 1 else 0))
  emask : ((t.frag k).bank (t.frag k).tl.toNat).emask = e.mask
  edata : ((t.frag k).bank (t.frag k).tl.toNat).edata = e.data
  exsave : ((t.frag k).bank (t.frag k).tl.toNat).exsave = (s.frag k).exec
  aside : ((t.frag k).img (t.frag k).tl.toNat).queue = (s.frag k).queue
  queue : (t.frag k).queue = []
  exec : (t.frag k).exec = e.mask &&& (s.phr (phraseOf k)).live
  pc : (t.frag k).pc = (s.phr (phraseOf k)).tvec
  regs : (t.frag k).sregs = (s.frag k).sregs

/-- The issuing instruction has taken a fault at its own address (R251). -/
def Faults (s t : State) (c : Cause) (sub : BitVec 8) (data : Word) : Prop :=
  Traps s t s.cur { cause := c, sub := sub, mask := s.me.exec, data := data, kind := .scalar } s.me.pc

/-- What the lanes of an access ask, without how far they have come. -/
def Access.asks (a : Access) : List (Nat × Word × Word × Word × Word) := a.lanes.map fun l => (l.lane, l.addr, l.data, l.cmp, l.peer)

/-- The access `a` has been issued under the next number: it is outstanding, with what it asks. No register, byte of memory,
phrase or other fragment has changed. -/
structure Issues (s t : State) (a : Access) : Prop where
  acc : ∃ b : Access, t.accs = s.accs ++ [b] ∧ b.asks = a.asks ∧
    b = { a with id := s.nextId, lanes := b.lanes, regime := (s.asker a.frag).regime, fence := (s.frag a.frag).relFen }
  others : ∀ j, j ≠ a.frag → t.frag j = s.frag j
  mem : t.mem = s.mem
  phrases : t.phrases = s.phrases
  results : t.results = s.results

/-- An access with these lanes can issue now: the core has room for its requests and its misses (R143, R218), and no lane fails a
check (R142). -/
def State.accessible (s : State) (kind : AccKind) (bytes : Nat) (addrs : List Word) : Prop :=
  s.accessRoom s.cur kind bytes (addrs.map (·.toNat)) = true ∧
  ∀ x ∈ addrs, ∀ c sub off, s.checkLane s.cur kind bytes x.toNat ≠ .bad c sub off

/-- The access of a scalar instruction to one address. -/
def scalarAsk (s : State) (kind : AccKind) (bytes : Nat) (signed : Bool) (order : Ordering) (dest : Dest)
    (addr data cmp : Word) : Access :=
  { id := s.nextId, frag := s.cur, scalar := true, pc := s.me.pc, kind := kind, bytes := bytes, ty := .u64, signed := signed,
    order := order, dest := dest, lanes := [{ lane := 0, addr := addr, data := data, cmp := cmp }] }

/-- A scalar access of a fragment that can be performed now, in memory of the module that holds no poison, on pieces that
do not meet and hold its width together. -/
structure Performable (s : State) (a : Access) (l : LaneAcc) : Prop where
  found : s.findAcc a.id = some a
  scalar : a.scalar = true
  lanes : a.lanes = [l]
  may : s.mayPerform a = true
  ready : s.laneReady a l = true
  home : ∀ p ∈ l.parts, p.path ≤ 1
  clean : s.poison = []
  calm : (s.frag a.frag).ready = []

/-- A lane access all of whose lanes can be performed now, in memory of the module that holds no poison, with no fault to take. -/
structure LanesReady (s : State) (a : Access) : Prop where
  found : s.findAcc a.id = some a
  lane : a.scalar = false
  local' : a.kind.isFabric = false
  may : s.mayPerform a = true
  ready : ∀ l ∈ a.lanes, s.laneReady a l = true
  number : ∀ l ∈ a.lanes, l.lane < 32
  distinct : (a.lanes.map (·.lane)).Nodup
  home : ∀ l ∈ a.lanes, ∀ p ∈ l.parts, p.path ≤ 1
  clean : s.poison = []
  calm : (s.frag a.frag).ready = []

/-- A trap can be taken: TL is below 2, and the fragment stands in no wait. -/
def State.mayTrap (s : State) (k : Nat) : Prop := (s.frag k).tl.toNat < 2 ∧ (s.frag k).wait = .none

/-! ### Lane instructions -/

/-- The queue after one instruction of the head clause has issued: its index goes on, and after its last it leaves (R167). -/
def issuedQueue (q : List Clause) : List Clause :=
  match q with
  | [] => []
  | c :: cs => if c.last ≤ c.next then cs else { c with next := c.next + 1 } :: cs

/-- A lane instruction has issued: its clause has gone on. No scalar register, byte of memory or other fragment has changed, and
without a queue-window operand neither has a phrase. -/
structure LaneGoes (s t : State) (f : LaneFields) : Prop where
  queue : t.me.queue = issuedQueue s.me.queue
  regs : ∀ x : SReg, t.r x = s.r x
  pc : t.me.pc = s.me.pc
  exec : t.me.exec = s.me.exec
  others : ∀ j, j ≠ s.cur → t.frag j = s.frag j
  window : popsRing f = false → pushesRing f = false → t.phrases = s.phrases

/-- A lane instruction has issued with a result that is due in cycle `due` (R278): `val` in the lanes of its mask, extended by
`ty`, with the further writes `more`; nothing is written yet. -/
structure LaneIssues (s t : State) (f : LaneFields) (due : Nat) (ty : LType) (val : Nat → Nat)
    (more : Nat → List (Nat × Half)) (status : BitVec 32) : Prop where
  goes : LaneGoes s t f
  mem : t.mem = s.mem
  accs : t.accs = s.accs
  result : ∃ r : LaneRes, t.results = s.results ++ [r] ∧ r.id = s.nextId ∧ r.frag = s.cur ∧ r.due = due ∧ r.scalar = none ∧
    r.fault = none ∧ r.flag = s.clause.flagOf f.fb ∧ r.status = status ∧
    ∀ n, f.vd = .v n → r.writes = (lanesOf s.lmask).flatMap fun l => laneWrites ty n.toNat l (val l) ++ more l

/-- A lane instruction with a scalar destination has issued with the value that its completion writes (R302). -/
structure ScalarIssues (s t : State) (f : LaneFields) (v : Word) (status : BitVec 32) : Prop where
  goes : LaneGoes s t f
  mem : t.mem = s.mem
  accs : t.accs = s.accs
  result : ∃ r : LaneRes, t.results = s.results ++ [r] ∧ r.id = s.nextId ∧ r.frag = s.cur ∧ r.due = 0 ∧ r.fault = none ∧
    r.writes = [] ∧ r.flag = s.clause.flagOf f.fb ∧ r.status = status ∧ ∀ d, f.vd = .s d → r.scalar = some (d, v)

/-- What a lane memory instruction asks (R303-R310): its type, its ordering, and one lane for each lane of its mask. -/
def laneAsk (s : State) (f : LaneFields) (kind : AccKind) (dest : Dest) (lane : Nat → LaneAcc) : Access :=
  { id := s.nextId, frag := s.cur, scalar := false, pc := s.clause.instrAddr s.clause.next, kind := kind,
    bytes := LType.bits f.ty / 8, ty := f.ty, signed := ltypeSigned f.ty, order := modOrdering f, dest := dest,
    flag := s.clause.flagOf f.fb, redo := s.clause.redo, lanes := (lanesOf s.lmask).map lane }

/-- A lane memory instruction has issued: its access is outstanding under the next number, with what it asks. -/
structure LaneAsks (s t : State) (f : LaneFields) (a : Access) : Prop where
  goes : LaneGoes s t f
  acc : ∃ b : Access, t.accs = s.accs ++ [b] ∧ b.asks = a.asks ∧
    b = { a with lanes := b.lanes, regime := (s.asker s.cur).regime, fence := s.me.relFen }
  mem : t.mem = s.mem
  results : t.results = s.results

/-- A lane instruction has issued and asks nothing. -/
def LanePasses (s t : State) (f : LaneFields) : Prop :=
  LaneGoes s t f ∧ t.accs = s.accs ∧ t.mem = s.mem ∧ t.results = s.results

/-- Nothing stands before a fault of the issuing lane instruction: the fragment runs at level 0, and nothing of it is
outstanding. -/
structure State.laneCalm (s : State) : Prop where
  level : s.me.tl = 0
  ready : s.me.ready = []
  live : s.me.live = true
  stopped : s.me.stopped = false
  wait : s.me.wait = .none
  frozen : (s.core s.myCore).frozen = false
  accs : ∀ a ∈ s.accs, a.frag ≠ s.cur
  results : ∀ a ∈ s.results, a.frag ≠ s.cur
  ops : ∀ o ∈ s.laneOps, o.frag ≠ s.cur

/-- The issuing lane instruction has failed a check of its issue (R345): it has issued nothing, and its fault is taken with the
clause mask, at the instruction. -/
def LaneFails (s t : State) (c : Cause) (sub : BitVec 8) (data : Word) : Prop :=
  Traps ((s.updMe fun g => g.laneAdv s.cycle).bump) t s.cur
    { cause := c, sub := sub, mask := s.clause.mask, data := data, lane := true, pa := s.clause.instrAddr s.clause.next,
      kind := .laneIssue } s.me.pc

/-- The integer of a type that the low bits of a number encode (R58). -/
def numOf (t : LType) (x : Nat) : Int :=
  let b := BitVec.ofNat (LType.bits t) x
  if ltypeSigned t then b.toInt else b.toNat

/-- An exact result as the type holds it: clamped to its range with SAT, else wrapped (R60, R281). -/
def fitted (t : LType) (sat : Bool) (x : Int) : Nat :=
  let w := LType.bits t
  let lo : Int := if ltypeSigned t then -2 ^ (w - 1) else 0
  let hi : Int := if ltypeSigned t then 2 ^ (w - 1) - 1 else 2 ^ w - 1
  ((if sat then max lo (min hi x) else x) % 2 ^ w).toNat

/-- A vector has been raised (R492): its message goes to the lease holder's port, or its pending bit is set. -/
def Raised (s t : State) (v : Nat) : Prop :=
  (s.canRaise v = true → t.host.out = s.host.out ++ [.msi s.host.lease.holder v] ∧ t.host.pending = s.host.pending) ∧
  (s.canRaise v = false → t.host.out = s.host.out ∧ t.host.pending = s.host.pending ||| BitVec.twoPow 16 v)

/-- What the receipt of a link flit on a port may change: the fabric; and, where the answer would wrap TXCTR, so that the port goes down
(R505), vector 6 is raised. -/
def OnLink (s t : State) (n : Nat) : Prop :=
  t = { s with fabric := t.fabric, host := t.host } ∧ ((s.fport n).txctr.toNat < 2 ^ 32 - 1 → t.host = s.host) ∧
  (t.host = s.host ∨ Raised s t 6)

/-- A latency of R242: the longer one for 64-bit types. -/
def cycles (t : LType) (a b : Nat) : Nat := if LType.bits t = 64 then b else a

end Sys2Proof.Machine
end

