-- ==== Sys2Proof/Certificates/Slice0/Obligations.lean ====
section
/-! DEFINITION. What the provers are asked to prove. -/
open Sys2Proof Sys2Proof.Machine

/-! ### Scalar arithmetic (R252-R257) -/

/-- R252: the register ALU instructions. Nothing but the destination and the pc changes, STATUS among the rest. -/
def Sys2Proof.Claims.AluResults : Prop :=
  ∀ (s : State) (sd sa sb : SReg),
    let a := s.r sa
    let b := s.r sb
    Gives (exec (.sadd sd sa sb) s) (Writes s · sd (a + b)) ∧
    Gives (exec (.ssub sd sa sb) s) (Writes s · sd (a - b)) ∧
    Gives (exec (.smul sd sa sb) s) (Writes s · sd (a * b)) ∧
    Gives (exec (.smulh sd sa sb) s) (Writes s · sd (BitVec.ofInt 64 (a.toInt * b.toInt / 2 ^ 64))) ∧
    Gives (exec (.smulhu sd sa sb) s) (Writes s · sd (BitVec.ofNat 64 (a.toNat * b.toNat / 2 ^ 64))) ∧
    Gives (exec (.sand sd sa sb) s) (Writes s · sd (a &&& b)) ∧
    Gives (exec (.sor sd sa sb) s) (Writes s · sd (a ||| b)) ∧
    Gives (exec (.sxor sd sa sb) s) (Writes s · sd (a ^^^ b)) ∧
    Gives (exec (.sandn sd sa sb) s) (Writes s · sd (a &&& ~~~b)) ∧
    Gives (exec (.sshl sd sa sb) s) (Writes s · sd (a <<< (b.toNat % 64))) ∧
    Gives (exec (.sshr sd sa sb) s) (Writes s · sd (a >>> (b.toNat % 64))) ∧
    Gives (exec (.ssra sd sa sb) s) (Writes s · sd (BitVec.ofInt 64 (a.toInt / 2 ^ (b.toNat % 64)))) ∧
    Gives (exec (.smin sd sa sb) s) (Writes s · sd (BitVec.ofInt 64 (min a.toInt b.toInt))) ∧
    Gives (exec (.sminu sd sa sb) s) (Writes s · sd (BitVec.ofNat 64 (min a.toNat b.toNat))) ∧
    Gives (exec (.smax sd sa sb) s) (Writes s · sd (BitVec.ofInt 64 (max a.toInt b.toInt))) ∧
    Gives (exec (.smaxu sd sa sb) s) (Writes s · sd (BitVec.ofNat 64 (max a.toNat b.toNat)))

/-- R253: counts, reversal and bit fields, told bit by bit; `len` holds the length less 1. -/
def Sys2Proof.Claims.BitFormResults : Prop :=
  ∀ (s : State) (sd sa : SReg) (pos len : BitVec 6), pos.toNat + len.toNat + 1 ≤ 64 →
    let a := s.r sa
    Gives (exec (.sclz sd sa) s) (fun t => ∃ n : Nat, n ≤ 64 ∧ Writes s t sd (BitVec.ofNat 64 n) ∧
      (∀ i, i < n → a.getLsbD (63 - i) = false) ∧ (n < 64 → a.getLsbD (63 - n) = true)) ∧
    Gives (exec (.sctz sd sa) s) (fun t => ∃ n : Nat, n ≤ 64 ∧ Writes s t sd (BitVec.ofNat 64 n) ∧
      (∀ i, i < n → a.getLsbD i = false) ∧ (n < 64 → a.getLsbD n = true)) ∧
    Gives (exec (.spopc sd sa) s) (Writes s · sd (BitVec.ofNat 64 ((List.range 64).countP fun i => a.getLsbD i))) ∧
    Gives (exec (.sbrev sd sa) s) (fun t => ∃ v, Writes s t sd v ∧ ∀ i, i < 64 → v.getLsbD i = a.getLsbD (63 - i)) ∧
    Gives (exec (.sbfx sd sa pos len) s) (fun t => ∃ v, Writes s t sd v ∧
      ∀ i, i < 64 → v.getLsbD i = (decide (i ≤ len.toNat) && a.getLsbD (pos.toNat + i))) ∧
    Gives (exec (.sbfi sd sa pos len) s) (fun t => ∃ v, Writes s t sd v ∧
      ∀ i, i < 64 → v.getLsbD i =
        if pos.toNat ≤ i ∧ i ≤ pos.toNat + len.toNat then a.getLsbD (i - pos.toNat) else (s.r sd).getLsbD i)

/-- R254: comparisons and the select. -/
def Sys2Proof.Claims.CompareResults : Prop :=
  ∀ (s : State) (sd sa sb sc : SReg),
    let a := s.r sa
    let b := s.r sb
    Gives (exec (.sseq sd sa sb) s) (Writes s · sd (if a = b then 1 else 0)) ∧
    Gives (exec (.ssne sd sa sb) s) (Writes s · sd (if a ≠ b then 1 else 0)) ∧
    Gives (exec (.sslt sd sa sb) s) (Writes s · sd (if a.toInt < b.toInt then 1 else 0)) ∧
    Gives (exec (.ssltu sd sa sb) s) (Writes s · sd (if a.toNat < b.toNat then 1 else 0)) ∧
    Gives (exec (.ssle sd sa sb) s) (Writes s · sd (if a.toInt ≤ b.toInt then 1 else 0)) ∧
    Gives (exec (.ssleu sd sa sb) s) (Writes s · sd (if a.toNat ≤ b.toNat then 1 else 0)) ∧
    Gives (exec (.ssel sd sa sb sc) s) (Writes s · sd (if s.r sc ≠ 0 then a else b))

/-- R256: the immediate instructions. -/
def Sys2Proof.Claims.ImmediateResults : Prop :=
  ∀ (s : State) (sd sa : SReg) (imm : BitVec 12) (sh : BitVec 6),
    let a := s.r sa
    let j := imm.signExtend 64
    Gives (exec (.saddi sd sa imm) s) (Writes s · sd (a + j)) ∧
    Gives (exec (.sandi sd sa imm) s) (Writes s · sd (a &&& j)) ∧
    Gives (exec (.sori sd sa imm) s) (Writes s · sd (a ||| j)) ∧
    Gives (exec (.sxori sd sa imm) s) (Writes s · sd (a ^^^ j)) ∧
    Gives (exec (.sshli sd sa sh) s) (Writes s · sd (a <<< sh.toNat)) ∧
    Gives (exec (.sshri sd sa sh) s) (Writes s · sd (a >>> sh.toNat)) ∧
    Gives (exec (.ssrai sd sa sh) s) (Writes s · sd (BitVec.ofInt 64 (a.toInt / 2 ^ sh.toNat))) ∧
    Gives (exec (.sslti sd sa imm) s) (Writes s · sd (if a.toInt < j.toInt then 1 else 0)) ∧
    Gives (exec (.ssltiu sd sa imm) s) (Writes s · sd (if a.toNat < j.toNat then 1 else 0))

/-- R230, R257: slimm.k replaces its field and keeps the rest, slimm.0 the whole register; the four in a row build any constant. -/
def Sys2Proof.Claims.ConstantBuilds : Prop :=
  ∀ (s : State) (sd : SReg) (a b c : BitVec 18) (d : BitVec 10),
    Gives (exec (.slimm0 sd a) s) (Writes s · sd (a.setWidth 64)) ∧
    Gives (exec (.slimm1 sd b) s) (fun t => ∃ v, Writes s t sd v ∧
      ∀ i, i < 64 → v.getLsbD i = if 18 ≤ i ∧ i < 36 then b.getLsbD (i - 18) else (s.r sd).getLsbD i) ∧
    Gives (exec (.slimm2 sd c) s) (fun t => ∃ v, Writes s t sd v ∧
      ∀ i, i < 64 → v.getLsbD i = if 36 ≤ i ∧ i < 54 then c.getLsbD (i - 36) else (s.r sd).getLsbD i) ∧
    Gives (exec (.slimm3 sd d) s) (fun t => ∃ v, Writes s t sd v ∧
      ∀ i, i < 64 → v.getLsbD i = if 54 ≤ i then d.getLsbD (i - 54) else (s.r sd).getLsbD i) ∧
    (sd ≠ 0 → Gives (exec (.slimm0 sd a) s) fun t0 => Gives (exec (.slimm1 sd b) t0) fun t1 =>
      Gives (exec (.slimm2 sd c) t1) fun t2 => Gives (exec (.slimm3 sd d) t2) fun t3 => t3.r sd = d ++ c ++ b ++ a)

/-- R61, R255: scalar division, with the bounds for a zero divisor while TRAPEN.DIVZ is clear.
R62, R251, R255: a zero divisor under TRAPEN.DIVZ takes DIVZ with the dividend. -/
def Sys2Proof.Claims.Division : Prop :=
  (∀ (s : State) (sd sa sb : SReg), (s.r sb = 0 → s.myPhr.trapen.getLsbD 6 = false) →
     let a := s.r sa
     let b := s.r sb
     Gives (exec (.sdiv sd sa sb) s) (Writes s · sd (if b = 0 then (if a.toInt < 0 then BitVec.intMin 64 else BitVec.intMax 64)
       else BitVec.ofInt 64 (a.toInt.tdiv b.toInt))) ∧
     Gives (exec (.sdivu sd sa sb) s) (Writes s · sd (if b = 0 then BitVec.allOnes 64 else BitVec.ofNat 64 (a.toNat / b.toNat))) ∧
     Gives (exec (.srem sd sa sb) s) (Writes s · sd (if b = 0 then a else BitVec.ofInt 64 (a.toInt.tmod b.toInt))) ∧
     Gives (exec (.sremu sd sa sb) s) (Writes s · sd (if b = 0 then a else BitVec.ofNat 64 (a.toNat % b.toNat)))) ∧
  (∀ (s : State) (sd sa sb : SReg), s.r sb = 0 → s.myPhr.trapen.getLsbD 6 = true → s.mayTrap s.cur →
     Gives (exec (.sdiv sd sa sb) s) (Faults s · .divz 0 (s.r sa)) ∧
     Gives (exec (.sdivu sd sa sb) s) (Faults s · .divz 0 (s.r sa)) ∧
     Gives (exec (.srem sd sa sb) s) (Faults s · .divz 0 (s.r sa)) ∧
     Gives (exec (.sremu sd sa sb) s) (Faults s · .divz 0 (s.r sa)))

/-! ### Branches (R258, R259) -/

/-- R233, R258: branches and jumps to an aligned target; the target of sjalr is read before its link is written.
R230, R259: a jump to a misaligned register target takes ALIGN and writes no link. -/
def Obligations.Jumps : Prop :=
  (∀ (s : State) (sd sa : SReg) (off : BitVec 14),
     let pc := s.me.pc
     let rel := pc + 4 * off.signExtend 64
     (∀ c : Cond,
       let x := (s.r sa).toInt
       let holds : Prop := match c with
         | .z => x = 0 | .nz => x ≠ 0 | .lz => x < 0 | .gez => 0 ≤ x | .lez => x ≤ 0 | .gz => 0 < x
       (holds → Gives (exec (.sbCond c sa off) s) (Moves s · rel)) ∧
       (¬holds → Gives (exec (.sbCond c sa off) s) (Moves s · (pc + 4)))) ∧
     Gives (exec (.sj off) s) (Moves s · rel) ∧
     Gives (exec (.sjal sa off) s) (fun t => OnlyFrag s t s.cur ∧ t.me = { s.me with sregs := t.me.sregs, pc := rel } ∧
       ∀ x : SReg, t.r x = if x = sa ∧ x ≠ 0 then pc + 4 else s.r x) ∧
     ((s.r sa).toNat % 4 = 0 → Gives (exec (.sjr sa) s) (Moves s · (s.r sa))) ∧
     ((s.r sa).toNat % 4 = 0 → Gives (exec (.sjalr sd sa) s) (fun t => OnlyFrag s t s.cur ∧
       t.me = { s.me with sregs := t.me.sregs, pc := s.r sa } ∧ ∀ x : SReg, t.r x = if x = sd ∧ x ≠ 0 then pc + 4 else s.r x))) ∧
  (∀ (s : State) (sd sa : SReg), (s.r sa).toNat % 4 ≠ 0 → s.mayTrap s.cur →
     Gives (exec (.sjr sa) s) (Faults s · .align 0 (s.r sa)) ∧
     Gives (exec (.sjalr sd sa) s) (Faults s · .align 0 (s.r sa)))


/-! ### Special registers (R111-R122, R274) -/

/-- R111, R112, R274: sget reads the register's value; registers 0x2C and 0x2D only in a privileged phrase. Some of the table's
registers are named with what they hold. That 0x09 reads the exact time is the model's choice (log 73). -/
def Sys2Proof.Claims.SpecialReads : Prop :=
  ∀ (s : State) (sd : SReg) (reg : BitVec 6), ((reg = 0x2C ∨ reg = 0x2D) → s.priv s.cur = true) →
    Gives (exec (.sget sd reg) s) (Writes s · sd (s.special s.cur reg.toNat)) ∧
    s.special s.cur 0x00 = s.me.exec.setWidth 64 ∧
    s.special s.cur 0x01 = s.myPhr.live.setWidth 64 ∧
    s.special s.cur 0x02 = s.myPhr.noun ∧
    s.special s.cur 0x09 = BitVec.ofNat 64 (s.elevenths / 11) ∧
    s.special s.cur 0x0A = s.myPhr.status.setWidth 64 ∧
    s.special s.cur 0x0C = s.me.tl.setWidth 64 ∧
    s.special s.cur 0x1C = s.myPhr.tvec ∧
    s.special s.cur 0x21 = s.myPhr.sigp.setWidth 64 ∧
    (∀ n, 0x0C < n → n < 0x10 → s.special s.cur n = 0) ∧
    (∀ n, n < 8 → s.special s.cur (0x38 + n) = (s.myPhr.fsl.getD n 0).setWidth 64)

/-- R274: sset writes the register under its write rule, is seen by the next read, and changes no scalar register and no memory.
The registers of an unprivileged phrase. -/
def Sys2Proof.Claims.SpecialWrites : Prop :=
  ∀ (s : State) (sa : SReg),
    let v := s.r sa
    let lo : BitVec 32 := v.setWidth 32
    let reads (reg : BitVec 6) (x : Word) : Prop := Gives (exec (.sset reg sa) s) fun t =>
      t.special t.cur reg.toNat = x ∧ t.me.pc = s.me.pc + 4 ∧ t.me.sregs = s.me.sregs ∧ t.mem = s.mem ∧ t.cur = s.cur
    reads 0x00 ((lo &&& s.myPhr.live).setWidth 64) ∧
    reads 0x0A ((s.myPhr.status &&& ~~~lo).setWidth 64) ∧
    reads 0x0B ((lo &&& 0xC7).setWidth 64) ∧
    reads 0x10 v ∧ reads 0x11 v ∧ reads 0x12 v ∧ reads 0x13 v ∧
    reads 0x14 ((lo &&& 0x1FFFF).setWidth 64) ∧ reads 0x15 ((lo &&& 0x1FFFF).setWidth 64) ∧
    reads 0x16 (lo.setWidth 64) ∧ reads 0x17 (lo.setWidth 64) ∧
    reads 0x18 v ∧ reads 0x19 v ∧
    reads 0x1A (lo.setWidth 64) ∧ reads 0x1B (lo.setWidth 64) ∧
    reads 0x1C v ∧ reads 0x1D (v &&& ~~~0x1FF) ∧
    reads 0x20 ((s.myPhr.dpend &&& ~~~v.setWidth 4).setWidth 64) ∧
    reads 0x21 ((s.myPhr.sigp &&& ~~~v.setWidth 16).setWidth 64) ∧
    reads 0x22 (if s.myPhr.wakep ∧ v.getLsbD 0 = false then 1 else 0)

/-- R112, R113, R274: the registers of a context are written by a privileged phrase only, and one copy serves every phrase.
R112, R274: what an unprivileged phrase may not read or write takes PRIV, and a register that is not written, the numbers
that the manual's table leaves out among them, takes ILLOP, each with the register's number. -/
def Sys2Proof.Claims.SpecialRegisterRules : Prop :=
  (∀ (s : State) (sa : SReg), s.priv s.cur = true →
     let v := s.r sa
     let reads (reg : BitVec 6) (x : Word) : Prop := Gives (exec (.sset reg sa) s) fun t =>
       (∀ k, t.ctxOf k = s.ctxOf s.cur → t.special k reg.toNat = x) ∧ t.me.pc = s.me.pc + 4 ∧ t.mem = s.mem ∧ t.phrases = s.phrases
     reads 0x28 (v &&& 0x00FFFFFFFFE00000) ∧ reads 0x29 (v &&& 0x01FFFFFFFFE00000) ∧ reads 0x2A (v &&& 0x000FFFFFFFE00007) ∧
     reads 0x2B v ∧ reads 0x2C v ∧ reads 0x2D v) ∧
  (∀ (s : State) (sd sa : SReg) (reg : BitVec 6), s.mayTrap s.cur →
     (s.priv s.cur = false → (reg = 0x2C ∨ reg = 0x2D) →
       Gives (exec (.sget sd reg) s) (Faults s · .priv 0 (reg.setWidth 64))) ∧
     (s.priv s.cur = false → 0x28 ≤ reg.toNat → reg.toNat ≤ 0x2D →
       Gives (exec (.sset reg sa) s) (Faults s · .priv 0 (reg.setWidth 64))) ∧
     ((1 ≤ reg.toNat ∧ reg.toNat ≤ 9 ∨ 0x0C ≤ reg.toNat ∧ reg.toNat ≤ 0x0F ∨ reg = 0x1E ∨ reg = 0x1F ∨ 0x23 ≤ reg.toNat ∧ reg.toNat < 0x28 ∨ 0x2E ≤ reg.toNat) →
       Gives (exec (.sset reg sa) s) (Faults s · .illop 0 (reg.setWidth 64))))

/-! ### The lane queue (R264-R266) -/

/-- R264: slq with n constants appends a clause with EXEC, the address and the constants, those that are not given zero. -/
def Sys2Proof.Claims.ClauseEnqueue : Prop :=
  ∀ (s : State) (sd sa : SReg) (off : BitVec 12),
    let addr := s.r sa + 16 * off.signExtend 64
    let c (n j : Nat) : Word := if j < n then s.r (sd + BitVec.ofNat 6 j) else 0
    let enqueues (n : Nat) (t : State) : Prop :=
      t.me.queue = s.me.queue ++
        [{ num := s.nextId, addr := addr, mask := s.me.exec, c0 := c n 0, c1 := c n 1, c2 := c n 2, c3 := c n 3 }] ∧
      t.me.pc = s.me.pc + 4 ∧ (∀ x : SReg, t.r x = s.r x) ∧ t.me.exec = s.me.exec ∧ t.mem = s.mem ∧ t.phrases = s.phrases
    (addr.toNat % 16 = 0 → s.me.queue.length < 32 →
      Gives (exec (.slq0 sa off) s) (enqueues 0) ∧
      Gives (exec (.slq1 sd sa off) s) (enqueues 1) ∧
      Gives (exec (.slq2 sd sa off) s) (enqueues 2) ∧
      Gives (exec (.slq3 sd sa off) s) (enqueues 3) ∧
      Gives (exec (.slq4 sd sa off) s) (enqueues 4)) ∧
    (addr.toNat % 16 ≠ 0 → s.mayTrap s.cur →
      Gives (exec (.slq0 sa off) s) (Faults s · .align 0 addr) ∧
      Gives (exec (.slq4 sd sa off) s) (Faults s · .align 0 addr))

/-- R266: swaitf, swaitp and slsync go on when their conditions hold, and change nothing while they do not. -/
def Sys2Proof.Claims.LaneWaits : Prop :=
  ∀ (s : State) (mask : BitVec 12) (sa : SReg) (path : PathSel),
    let clear (n : Nat) : Prop := s.flagSet s.cur n = false
    let named (c : Clause) : Prop := match s.headerOf s.cur c with
      | some h => (∃ f, h.seta = some f ∧ mask.getLsbD f.val = true) ∨ ∃ f, h.setb = some f ∧ mask.getLsbD f.val = true
      | none => True
    let flags : Prop := mask = 0 ∨ ((∀ n, n < 12 → mask.getLsbD n = true → clear n) ∧ ∀ c ∈ s.me.queue, ¬named c)
    let under (p : Nat) : Prop := 4096 ≤ (s.r sa).toNat ∨ s.me.pathCount p ≤ (s.r sa).toNat
    let paths : Prop := s.me.queue = [] ∧ match path with
      | .ifv => under 0 | .ifl => under 1 | .ifp => under 2 | .iff => under 3 | .ifh => under 4
      | .all => ∀ p, p < 5 → under p
    let synced : Prop := s.me.queue = [] ∧ (∀ n, n < 12 → clear n) ∧ ∀ p, p < 5 → s.me.pathCount p = 0
    (flags → Gives (exec (.swaitf mask) s) (Moves s · (s.me.pc + 4))) ∧
    (¬flags → exec (.swaitf mask) s = .next s) ∧
    (paths → Gives (exec (.swaitp path sa) s) (Moves s · (s.me.pc + 4))) ∧
    (¬paths → exec (.swaitp path sa) s = .next s) ∧
    (synced → Gives (exec .slsync s) (Moves s · (s.me.pc + 4))) ∧
    (¬synced → exec .slsync s = .next s)

/-! ### Fragments (R26-R30, R260-R262) -/

/-- R26, R28, R260: ssplit gives each side its lanes: the smaller side, or the inside of two equal ones, goes to a new aside with
the parent's registers; with an
empty side none is created, and with 31 asides the split is refused. The lanes of both sides together are EXEC. -/
def Sys2Proof.Claims.SplitDivides : Prop :=
  ∀ (s : State) (sd sa : SReg) (mark : BitVec 4), s.me.tl = 0 →
    let m : Mask := (s.r sa).setWidth 32
    let inside := s.me.exec &&& m
    let outside := s.me.exec &&& ~~~m
    let p := phraseOf s.cur
    let size (m : Mask) : Nat := (List.range 32).countP fun i => m.getLsbD i
    ((inside = 0 ∨ outside = 0) → Gives (exec (.ssplit sd sa mark) s)
      (Writes s · sd (BitVec.ofNat 64 (s.me.exec.toNat + if s.me.exec ≠ 0 ∧ outside = 0 then 2 ^ 60 else 0)))) ∧
    (inside ≠ 0 → outside ≠ 0 → s.myPhr.asides ≥ 31 → Gives (exec (.ssplit sd sa mark) s) fun t =>
      (sd ≠ 0 → t.r sd = BitVec.ofNat 64 (2 ^ 62 + s.me.exec.toNat)) ∧ t.me.exec = s.me.exec ∧ t.me.pc = s.me.pc + 4 ∧
      t.myPhr.status = s.myPhr.status ||| 0x8000 ∧ t.mem = s.mem) ∧
    (inside ≠ 0 → outside ≠ 0 → s.myPhr.asides < 31 →
      ∀ n, n = s.newFragNum p → fragKey p n ≠ s.cur → Gives (exec (.ssplit sd sa mark) s) fun t =>
        let k := fragKey p n
        (t.frag k).live = true ∧ (t.frag k).mark = mark ∧ (t.frag k).pc = s.me.pc + 4 ∧ t.me.pc = s.me.pc + 4 ∧
        (∀ x : SReg, x ≠ sd → (t.frag k).reg x = s.r x ∧ t.r x = s.r x) ∧
        (t.frag k).exec = (if size inside ≤ size outside then inside else outside) ∧
        t.me.exec = (if size inside ≤ size outside then outside else inside) ∧
        t.myPhr.asides = s.myPhr.asides + 1 ∧ t.mem = s.mem)

/-- R30, R262: smerge in a fragment without outstanding asides of the mark takes back their lanes and goes on; with outstanding
ones it waits; the aside of the mark, once its stream has drained, ends and holds nothing more. -/
def Sys2Proof.Claims.MergeJoins : Prop :=
  ∀ (s : State) (mark : BitVec 4), s.me.tl = 0 →
    let m := mark.toNat
    (¬(s.me.num ≠ 0 ∧ s.me.mark = mark) → tget 0 s.me.outCnt m = 0 → s.me.wait = .none →
      Gives (exec (.smerge mark) s) fun t =>
        t.me.exec = (s.me.exec ||| tget 0 s.me.outExec m) &&& s.myPhr.live ∧ t.me.pc = s.me.pc + 4 ∧
        (∀ x : SReg, t.r x = s.r x) ∧ OnlyFrag s t s.cur) ∧
    (¬(s.me.num ≠ 0 ∧ s.me.mark = mark) → tget 0 s.me.outCnt m ≠ 0 → Gives (exec (.smerge mark) s) fun t =>
      t.me = { s.me with wait := .merge m } ∧ OnlyFrag s t s.cur) ∧
    (s.me.num ≠ 0 → s.me.mark = mark → s.asideDone s.cur = true → fragKey (phraseOf s.cur) s.me.parent ≠ s.cur →
      Gives (exec (.smerge mark) s) fun t => tfind t.frags s.cur = none ∧ t.mem = s.mem)

/-! ### Scalar memory (R268-R273, R314-R318) -/

/-- R268, R271, R316, R318: scalar loads, stores, atomics, fset and ftest issue one access with the address, width, extension,
order, data and destination of the instruction, and the stream goes on with its registers as they were. -/
def Sys2Proof.Claims.ScalarAccessIssue : Prop :=
  ∀ (s : State) (sd sa sb : SReg) (z : MemSize) (off : BitVec 10) (ord : Sys2Proof.Ordering) (w64 force : Bool),
    let size : Nat := match z with | .b => 1 | .h => 2 | .w => 4 | .d => 8
    let w : Nat := if w64 then 8 else 4
    let addr := s.r sa + off.signExtend 64 * BitVec.ofNat 64 size
    let rlx : Sys2Proof.Ordering := ⟨.none, .phr⟩
    let issues (i : Instr) (kind : AccKind) (bytes : Nat) (signed : Bool) (o : Sys2Proof.Ordering) (dest : Dest) (x data cmp : Word) : Prop :=
      s.accessible kind bytes [x] → Gives (exec i s) fun t =>
        Issues s t (scalarAsk s kind bytes signed o dest x data cmp) ∧ t.me.pc = s.me.pc + 4 ∧
        ∀ y : SReg, t.r y = s.r y
    issues (.sld sd sa z off) .load size true rlx (.scalar sd) addr 0 0 ∧
    issues (.sldu sd sa z off) .load size false rlx (.scalar sd) addr 0 0 ∧
    issues (.sst sd sa z off) .store size false rlx .none addr (s.r sd) 0 ∧
    issues (.scas sd sa sb ord w64) (.amo .cas true) w false ord (.scalar sd) (s.r sa) (s.r sb) (s.r sd) ∧
    issues (.samoAdd sd sa sb ord w64) (.amo .add true) w false ord (.scalar sd) (s.r sa) (s.r sb) 0 ∧
    issues (.samoAnd sd sa sb ord w64) (.amo .and true) w false ord (.scalar sd) (s.r sa) (s.r sb) 0 ∧
    issues (.samoOr sd sa sb ord w64) (.amo .or true) w false ord (.scalar sd) (s.r sa) (s.r sb) 0 ∧
    issues (.samoXor sd sa sb ord w64) (.amo .xor true) w false ord (.scalar sd) (s.r sa) (s.r sb) 0 ∧
    issues (.samoMin sd sa sb ord w64) (.amo .min true) w false ord (.scalar sd) (s.r sa) (s.r sb) 0 ∧
    issues (.samoMax sd sa sb ord w64) (.amo .max true) w false ord (.scalar sd) (s.r sa) (s.r sb) 0 ∧
    issues (.samoMinu sd sa sb ord w64) (.amo .minu true) w false ord (.scalar sd) (s.r sa) (s.r sb) 0 ∧
    issues (.samoMaxu sd sa sb ord w64) (.amo .maxu true) w false ord (.scalar sd) (s.r sa) (s.r sb) 0 ∧
    issues (.samoSwap sd sa sb ord w64) (.amo .swap true) w false ord (.scalar sd) (s.r sa) (s.r sb) 0 ∧
    issues (.fset sd sa sb force) (.fset force) 8 false ⟨.rel, .dev⟩ (.scalar sd) (s.r sa) (s.r sb) 0 ∧
    issues (.ftest sd sa) .ftest 8 false rlx (.scalar sd) (s.r sa) 0 0

/-- R142, R270, R272: an address with a bit of 63:56 set, or an atomic that is not aligned to its width, faults at the
instruction with nothing performed. -/
def Sys2Proof.Claims.AddressFaults : Prop :=
  ∀ (s : State) (sd sa sb : SReg) (off : BitVec 10) (ord : Sys2Proof.Ordering), s.mayTrap s.cur →
    (let addr := s.r sa + off.signExtend 64
     2 ^ 56 ≤ addr.toNat → s.accessRoom s.cur .load 1 [addr.toNat] = true →
      Gives (exec (.sld sd sa .b off) s) (Faults s · .align 0 addr)) ∧
    ((s.r sa).toNat < 2 ^ 56 → (s.r sa).toNat % 4 ≠ 0 → (s.r sa).toNat % 4096 ≤ 4092 →
      s.accessRoom s.cur (.amo .add true) 4 [(s.r sa).toNat] = true →
      Gives (exec (.samoAdd sd sa sb ord false) s) (Faults s · .align 1 (s.r sa)))

/-- R268: a load that is performed writes its register with the bytes at its address, lowest first, extended; nothing else is
written. -/
def Sys2Proof.Claims.ScalarLoadCompletes : Prop :=
  ∀ (s : State) (a : Access) (l : LaneAcc) (sd : SReg), Performable s a l → a.kind = .load → a.dest = .scalar sd →
    let bs := l.parts.flatMap fun p => readBytes s.mem p.key p.len
    let n : Nat := natOf bs
    let v : Word := if a.signed ∧ 2 ^ (8 * a.bytes) ≤ 2 * n then BitVec.ofInt 64 ((n : Int) - 2 ^ (8 * a.bytes)) else BitVec.ofNat 64 n
    bs.length = a.bytes → Gives (exec (.scalarAccessComplete a.id) s) fun t =>
      (∀ k, ∀ x : SReg, (t.frag k).reg x = if k = a.frag ∧ x = sd ∧ x ≠ 0 then v else (s.frag k).reg x) ∧
      t.mem = s.mem ∧ t.findAcc a.id = none

/-- R268: a store that is performed writes the low bytes of its datum, lowest first, and no other byte; no register changes. -/
def Sys2Proof.Claims.ScalarStoreCompletes : Prop :=
  ∀ (s : State) (a : Access) (l : LaneAcc), Performable s a l → a.kind = .store → Memory.wf s.mem →
    l.parts.Pairwise (fun p q => ¬piecesMeet p q) → (l.parts.map (·.len)).sum = a.bytes →
    Gives (exec (.scalarAccessComplete a.id) s) fun t =>
      (l.parts.flatMap fun p => readBytes t.mem p.key p.len) = bytesOf l.data.toNat a.bytes ∧
      (∀ key, key ∉ pieceKeys l.parts → readByte t.mem key = readByte s.mem key) ∧ Memory.wf t.mem ∧
      (∀ k, ∀ x : SReg, (t.frag k).reg x = (s.frag k).reg x) ∧ t.findAcc a.id = none

/-- R271: an atomic that is performed writes the old value, zero-extended, to its register, and the new value to its word; a
compare and swap that fails writes nothing. -/
def Sys2Proof.Claims.ScalarAtomicCompletes : Prop :=
  ∀ (s : State) (a : Access) (l : LaneAcc) (p : Piece) (op : AmoOp) (sd : SReg), Performable s a l →
    a.kind = .amo op true → a.signed = false → a.dest = .scalar sd → l.parts = [p] → p.len = a.bytes → (a.bytes = 4 ∨ a.bytes = 8) →
    Memory.wf s.mem →
    let w := 8 * a.bytes
    let old := readNat s.mem p.key a.bytes
    let x := l.data.toNat % 2 ^ w
    let signed (n : Nat) : Int := (BitVec.ofNat w n).toInt
    let new : Nat := match op with
      | .add => (old + x) % 2 ^ w
      | .and => old &&& x
      | .or => old ||| x
      | .xor => old ^^^ x
      | .min => if signed x < signed old then x else old
      | .max => if signed old ≤ signed x then x else old
      | .minu => min old x
      | .maxu => max old x
      | .swap => x
      | .cas => if old = l.cmp.toNat % 2 ^ w then x else old
    Gives (exec (.scalarAccessComplete a.id) s) fun t =>
      readNat t.mem p.key a.bytes = new ∧
      (∀ key, ¬(p.key ≤ key ∧ key < p.key + a.bytes) → readByte t.mem key = readByte s.mem key) ∧
      (∀ k, ∀ y : SReg, (t.frag k).reg y = if k = a.frag ∧ y = sd ∧ y ≠ 0 then BitVec.ofNat 64 old else (s.frag k).reg y) ∧
      t.findAcc a.id = none

/-- R315-R318: the actions on a future cell without a waiter: its VALUE and STATE after, and what the register takes. -/
def Sys2Proof.Claims.FutureActions : Prop :=
  ∀ (s : State) (a : Access) (l : LaneAcc) (p : Piece) (sd : SReg), Performable s a l → a.dest = .scalar sd →
    a.signed = false → l.parts = [p] → p.len = 16 → Memory.wf s.mem → (∀ w ∈ s.waiters, w.cell ≠ p.key) →
    let value := readNat s.mem p.key 8
    let st := readNat s.mem (p.key + 8) 4
    let leaves (value' st' : Nat) (v : Word) : Prop := Gives (exec (.scalarAccessComplete a.id) s) fun t =>
      readNat t.mem p.key 8 = value' ∧ readNat t.mem (p.key + 8) 4 = st' ∧
      (∀ key, ¬(p.key ≤ key ∧ key < p.key + 12) → readByte t.mem key = readByte s.mem key) ∧
      (∀ k, ∀ y : SReg, (t.frag k).reg y = if k = a.frag ∧ y = sd ∧ y ≠ 0 then v else (s.frag k).reg y)
    (a.kind = .ftest → st ≤ 2 → leaves value st (BitVec.ofNat 64 st)) ∧
    (∀ force, a.kind = .fset force →
      (st = 0 → leaves l.data.toNat 1 0) ∧ (st = 2 → leaves l.data.toNat 1 2) ∧
      (st = 1 → leaves (if force then l.data.toNat else value) 1 1)) ∧
    (a.kind = .fget → st = 1 → leaves value 2 (BitVec.ofNat 64 value))

/-- R317: an fget issues one access and the fragment waits at it; where the cell is not FULL it joins the cell's waiters and changes
nothing.
R316: an fset on a cell with a waiter: the oldest waiter's register takes the value in the same action, and the cell is left
CONSUMED. -/
def Sys2Proof.Claims.FutureWaiters : Prop :=
  (∀ (s : State) (sd sa : SReg), s.accessRoom s.cur .fget 16 [(s.r sa).toNat] = true →
    (∀ c sub off, s.checkLane s.cur .fget 16 (s.r sa).toNat ≠ .bad c sub off) →
    Gives (exec (.fget sd sa) s) fun t =>
      Issues s t (scalarAsk s .fget 8 false ⟨.acq, .dev⟩ (.scalar sd) (s.r sa) 0 0) ∧
      t.me.wait = .future s.nextId ∧ t.me.pc = s.me.pc ∧ ∀ y : SReg, t.r y = s.r y) ∧
  (∀ (s : State) (a : Access) (l : LaneAcc) (p : Piece), Performable s a l → a.kind = .fget → l.parts = [p] →
    readNat s.mem (p.key + 8) 4 ≠ 1 → readNat s.mem (p.key + 8) 4 ≤ 2 →
    Gives (exec (.scalarAccessComplete a.id) s) fun t =>
      t.waiters = s.waiters ++ [⟨p.key, a.id⟩] ∧ t.mem = s.mem ∧ (∀ k, ∀ y : SReg, (t.frag k).reg y = (s.frag k).reg y) ∧
      (t.findAcc a.id).isSome) ∧
  (∀ (s : State) (a b : Access) (l : LaneAcc) (p : Piece) (w : Waiter) (sd sb : SReg), Performable s a l →
     a.kind = .fset false → a.dest = .scalar sd → a.signed = false → l.parts = [p] → p.len = 16 → Memory.wf s.mem →
     (s.waiters.find? fun x => x.cell == p.key) = some w → s.findAcc w.access = some b → b.dest = .scalar sb → b.frag ≠ a.frag →
     w.access ≠ a.id → (s.frag b.frag).wait = .future b.id → readNat s.mem (p.key + 8) 4 = 0 →
     Gives (exec (.scalarAccessComplete a.id) s) fun t =>
       readNat t.mem (p.key + 8) 4 = 2 ∧ readNat t.mem p.key 8 = l.data.toNat ∧
       (∀ y : SReg, (t.frag b.frag).reg y = if y = sb ∧ y ≠ 0 then l.data else (s.frag b.frag).reg y) ∧
       (t.frag b.frag).wait = .none ∧ (t.frag b.frag).pc = (s.frag b.frag).pc + 4 ∧ t.findAcc w.access = none ∧
       w ∉ t.waiters)

/-- R273, R448: sfence goes on at once with every register and all memory as they were; it is outstanding exactly while an earlier
access of the fragment stands before it, and no later access on ordered pages is performed before such an access. -/
def Sys2Proof.Claims.ScalarFence : Prop :=
  ∀ (s : State) (ord : Sys2Proof.Ordering), (∀ o ∈ s.laneOps, o.id < s.nextId) →
    Gives (exec (.sfence ord) s) fun t =>
      t.me.pc = s.me.pc + 4 ∧ (∀ y : SReg, t.r y = s.r y) ∧ t.mem = s.mem ∧ t.accs = s.accs ∧
      ((∃ o ∈ t.laneOps, o.id = s.nextId ∧ o.frag = s.cur ∧ o.kind = .fence ord) ↔
        ∃ b ∈ s.accs, b.frag = s.cur ∧ b.id < s.nextId ∧ fenceHolds ord b = true) ∧
      ∀ a b : Access, b ∈ t.accs → a.frag = s.cur → b.frag = s.cur → b.id < s.nextId → s.nextId < a.id →
        b.pending = true → b.unordered = false → a.unordered = false → t.mayPerform a = false

/-! ### Traps, returns, translation and kills (R234, R259, R429-R441, R464) -/

/-- R430, R431, R234, R259: strap, and sbrk without debug freeze, take SWTRAP and BRK with their code; a word that is no instruction
takes ILLOP with the word; a failing fetch takes its own cause, with the failing address.
R431: sbrk with debug freeze freezes its core, writes one freeze record with the code and the time, and goes on; no trap. -/
def Sys2Proof.Claims.TrapsAndFreezes : Prop :=
  (∀ (s : State) (code : BitVec 12) (w : BitVec 32) (c : Cause) (sub : BitVec 8) (addr : Word),
     s.mayTrap s.cur → isWalkerKey s.cur = false →
     Gives (exec (.strap code) s) (Faults s · .swtrap 0 (code.setWidth 64)) ∧
     (s.dbgOn s.myCtx = false → Gives (exec (.sbrk code) s) (Faults s · .brk 0 (code.setWidth 64))) ∧
     Gives (exec (.illopScalarWord w) s) (Faults s · .illop 0 (w.setWidth 64)) ∧
     Gives (exec (.instructionFetchFault c sub addr) s) (Faults s · c sub addr)) ∧
  (∀ (s : State) (code : BitVec 12), isWalkerKey s.cur = false → s.dbgOn s.myCtx = true →
     Gives (exec (.sbrk code) s) fun t =>
       (t.core s.myCore).frozen = true ∧ (∀ c, c ≠ s.myCore → t.core c = s.core c) ∧
       (∃ r, tfind t.host.frzrec (s.host.frzprod % 16) = some r ∧ r.code = code.setWidth 16 ∧ r.time = BitVec.ofNat 64 (s.elevenths / 11)) ∧
       t.host.frzprod = (s.host.frzprod + 1) % 2 ^ 32 ∧ t.me = { s.me with pc := s.me.pc + 4 } ∧ t.mem = s.mem)

/-- R433, R434: seret from level 1 or 2 with an empty queue restores EXEC, the level and the queue, and goes on at EPC, or after it
where a scalar instruction is skipped; a stopped clause performs its instruction again in the lanes of EMASK.
R433: seret at TL 0 takes ILLOP, and so does one at level 1 whose EPC is misaligned, with EPC as its datum; it waits while the
queue of its level is not empty. -/
def Sys2Proof.Claims.Returns : Prop :=
  (∀ (s : State), (s.me.tl = 1 ∨ s.me.tl = 2) → s.me.queue = [] → s.me.ready = [] →
     let n := s.me.tl.toNat
     let b : Bank := if n = 1 then s.me.bank1 else s.me.bank2
     let i : Image := if n = 1 then s.me.img1 else s.me.img2
     let back (t : State) (pc : Word) (queue : List Clause) : Prop :=
       t.me.exec = b.exsave &&& s.myPhr.live ∧ t.me.tl = BitVec.ofNat 2 (n - 1) ∧ t.me.pc = pc ∧ t.me.queue = queue ∧
       (∀ x : SReg, t.r x = s.r x) ∧ OnlyFrag s t s.cur
     b.epc.toNat % 4 = 0 → i.held = [] →
     (i.kind = .scalar → Gives (exec .seret s) (back · b.epc i.queue) ∧ Gives (exec .seretSkip s) (back · (b.epc + 4) i.queue)) ∧
     (i.kind = .held → Gives (exec .seret s) (back · b.epc i.queue) ∧ Gives (exec .seretSkip s) (back · b.epc i.queue)) ∧
     (∀ c, i.kind = .laneRun → i.redo = some c →
       Gives (exec .seret s) (fun t => ∃ c', back t b.epc (c' :: i.queue) ∧ c'.mask = c.mask &&& b.emask ∧ c'.addr = c.addr ∧
         c'.next = c.next ∧ c'.code = c.code) ∧
       Gives (exec .seretSkip s) (back · b.epc i.queue)) ∧
     (∀ c, i.kind = .laneIssue → i.redo = some c →
       Gives (exec .seret s) (back · b.epc (c :: i.queue)) ∧ Gives (exec .seretSkip s) (back · b.epc i.queue)) ∧
     (i.kind = .laneStart → Gives (exec .seret s) (back · b.epc i.queue) ∧ Gives (exec .seretSkip s) (back · b.epc i.queue.tail))) ∧
  (∀ (s : State), s.me.wait = .none →
     (s.me.tl = 0 → Gives (exec .seret s) (Faults s · .illop 0 ((encodeScalar .seret).setWidth 64)) ∧
       Gives (exec .seretSkip s) (Faults s · .illop 0 ((encodeScalar .seretSkip).setWidth 64))) ∧
     (s.me.tl = 1 → s.me.bank1.epc.toNat % 4 ≠ 0 → Gives (exec .seret s) (Faults s · .illop 0 s.me.bank1.epc)) ∧
     (s.me.tl = 1 → s.me.bank1.epc.toNat % 4 = 0 → s.me.queue ≠ [] → exec .seret s = .next s))

/-- R464, R434: a handler that returns at once gives the interrupted stream back: its queue, EXEC, level, registers and pc, after
the strap. -/
def Sys2Proof.Claims.TrapRoundTrip : Prop :=
  ∀ (s : State) (code : BitVec 12), s.mayTrap s.cur → isWalkerKey s.cur = false → s.me.ready = [] → s.me.pc.toNat % 4 = 0 →
    s.me.exec &&& s.myPhr.live = s.me.exec →
    Gives (exec (.strap code) s) fun t => t.me.tl.toNat = s.me.tl.toNat + 1 ∧ Gives (exec .seretSkip t) fun u =>
      u.me.queue = s.me.queue ∧ u.me.exec = s.me.exec ∧ u.me.tl = s.me.tl ∧ u.me.pc = s.me.pc + 4 ∧
      (∀ x : SReg, u.r x = s.r x) ∧ u.mem = s.mem ∧ u.phrases = s.phrases ∧ ∀ j, j ≠ s.cur → u.frag j = s.frag j

/-- R429, R436-R440: the privileged instructions take PRIV in an unprivileged phrase, with the word, or with the operand for a skill
whose low 20 bits name another context; tlbfill does so in every phrase but a walker. -/
def Sys2Proof.Claims.PrivilegeFaults : Prop :=
  ∀ (s : State) (sd sa sb : SReg) (tag : BitVec 6) (dom : Bool) (range : InvRange), s.mayTrap s.cur →
    let faults (i : Instr) : Prop := Gives (exec i s) (Faults s · .priv 0 ((encodeScalar i).setWidth 64))
    (isWalkerKey s.cur = false → faults (.tlbfill sd sa sb tag)) ∧
    (s.priv s.cur = false → faults (.tlbinv sd sa sb dom range) ∧ faults (.ntinv sd sa dom range) ∧ faults (.vtinv sd sa sb dom range) ∧
      (((s.r sa).extractLsb' 0 20).toNat ≠ s.myCtx → Gives (exec (.skill sd sa) s) (Faults s · .priv 0 (s.r sa))))

/-- R436: tlbfill in a walker. No record of the tag gives 1 and changes nothing; a control word with a reserved bit gives 2 and
changes nothing; a fill installs the leaf's entry in the core's TLB and the cluster's, and frees the record. -/
def Sys2Proof.Claims.WalkerFills : Prop :=
  ∀ (s : State) (sd sa sb : SReg) (tag : BitVec 6), isWalkerKey s.cur = true →
    let rec? := (s.core s.myCore).misses.find? fun m => m.tag == tag.toNat
    let leaf := s.r sa
    let size := (s.r sb).toNat
    (rec? = none → Gives (exec (.tlbfill sd sa sb tag) s) (Writes s · sd 1)) ∧
    (rec? ≠ none → 4 ≤ size → Gives (exec (.tlbfill sd sa sb tag) s) (Writes s · sd 2)) ∧
    (rec? ≠ none → size ≤ 2 → leaf.getLsbD 0 = false → Gives (exec (.tlbfill sd sa sb tag) s) (Writes s · sd 2)) ∧
    (∀ m, rec? = some m → size ≤ 2 → leafRefused leaf size = false → s.accs = [] →
      Gives (exec (.tlbfill sd sa sb tag) s) fun t =>
        let e : TlbEntry := ⟨m.ctx, m.va / 2 ^ (12 + 9 * size) * 2 ^ (9 * size), BitVec.ofNat 2 size,
          (leaf.extractLsb' 12 40).toNat * 4096, leaf.extractLsb' 7 2, leaf.getLsbD 10, leaf.getLsbD 9, leaf.getLsbD 3,
          leaf.getLsbD 2, leaf.getLsbD 1, leaf.getLsbD 5⟩
        e ∈ (t.core s.myCore).tlb ∧ e ∈ (t.cluster (clusterOf s.myCore)).tlb ∧ (∀ x ∈ (t.core s.myCore).misses, x.tag ≠ m.tag) ∧
        (∀ y : SReg, t.r y = if y = sd ∧ y ≠ 0 then 0 else s.r y) ∧ t.me.pc = s.me.pc + 4 ∧ t.mem = s.mem)

/-- R437, R438: an invalidation begins with a release fence, and the fragment goes on; its register is held until it ends. -/
def Sys2Proof.Claims.InvalidationsBegin : Prop :=
  ∀ (s : State) (sd sa sb : SReg) (dom : Bool) (range : InvRange), s.priv s.cur = true →
    let begins (what : InvalKind) (ctx item : Option Nat) (t : State) : Prop :=
      (∃ v : Inval, t.invals = s.invals ++ [v] ∧ v.frag = s.cur ∧ v.sd = sd ∧ v.what = what ∧ v.ctx = ctx ∧ v.item = item ∧ v.removed = false ∧
        v.scope = (if dom then .dom else .dev)) ∧
      (sd ≠ 0 → t.busyReg s.cur sd = true) ∧ t.me.pc = s.me.pc + 4 ∧ t.mem = s.mem ∧ t.cores = s.cores ∧ t.clusters = s.clusters ∧
      t.nounCache = s.nounCache ∧ t.verbCache = s.verbCache ∧
      ∀ y : SReg, t.r y = s.r y
    let ctx := ((s.r sb).extractLsb' 0 20).toNat
    (Gives (exec (.tlbinv sd sa sb dom range) s) (begins .tlb (if range = .all then none else some ctx)
      (if range = .one then some (s.r sa).toNat else none))) ∧
    (Gives (exec (.ntinv sd sa dom range) s) (begins .nouns (some ((s.r sa).extractLsb' 42 20).toNat)
      (if range = .one then some ((s.r sa).extractLsb' 0 34).toNat else none))) ∧
    (Gives (exec (.vtinv sd sa sb dom range) s) (begins .verbs (some ctx)
      (if range = .one then some ((s.r sa).extractLsb' 0 12).toNat else none)))

/-- R192, R196, R198, R203, R214, R437, R438: cached copies of tables. An invalidation that no longer waits removes exactly the copies
that it names, on every die. What an NDU changes reaches every copy: here the death of a noun. A noun operation of a core whose die
holds a copy of its noun is answered from the table or from the copy. A delivery and a kapply keep what they have read, but for an
EMPTY verb; what they see, from the table or from a copy, is the model's reading (log 11). -/
def Sys2Proof.Claims.CachedCopies : Prop :=
  ∀ s : State,
    (∀ v : Inval, (s.invals.find? fun x => x.id == v.id) = some v → (∀ y ∈ s.replies, y.id ≠ v.id) → v.removed = false →
      s.invalWaits v = false → Gives (exec (.replyArrival v.id) s) fun t =>
        let named (c : TabCopy) : Prop := (∀ x, v.ctx = some x → c.ctx = x) ∧ ∀ i, v.item = some i → c.index = i
        (∀ c, c ∈ t.nounCache ↔ c ∈ s.nounCache ∧ ¬ (v.what = .nouns ∧ named c)) ∧
        (∀ c, c ∈ t.verbCache ↔ c ∈ s.verbCache ∧ ¬ (v.what = .verbs ∧ named c)) ∧ t.mem = s.mem ∧ t.frags = s.frags) ∧
    (∀ (n exit : Word) (xs xc : BitVec 8) (a : Nat), s.leafOf n = some a → s.joins = [] → s.applied = [] →
      let w0 : Word := BitVec.ofNat 64 (readNat s.mem a 8)
      w0.extractLsb' 48 8 = n.extractLsb' 34 8 → w0.extractLsb' 61 3 ≠ 0 → w0.extractLsb' 61 3 ≠ 6 →
      Gives (exec (.deathNotice n xs xc exit) s) fun t => t.nounCache.length = s.nounCache.length ∧
        ∀ c ∈ t.nounCache, c.ctx = (n.extractLsb' 42 20).toNat → c.index = (n.extractLsb' 0 34).toNat →
          (nth 0 c.words 0).extractLsb' 61 3 = 6 ∧ (nth 0 c.words 0).extractLsb' 40 8 = xs ∧ (nth 0 c.words 0).extractLsb' 32 8 = xc ∧
          nth 0 c.words 1 = exit) ∧
    (∀ (o : NounOp) (k : Nat) (sd sf : SReg) (pc w0 w1 : Word) (a : Nat), (s.nouns.find? fun x => x.id == o.id) = some o →
      s.nounReady o = true → o.granted = false → o.src = .frag k sd sf pc → o.act = .test → (o.noun.extractLsb' 42 20).toNat = o.ctx →
      kindOk o.act (o.noun.extractLsb' 62 2).toNat = true → s.leafOf o.noun = some a →
      copyIn s.nounCache (s.coreOf k / 384) o.ctx (o.noun.extractLsb' 0 34).toNat = some [w0, w1] → (s.ctx o.ctx).killed = false →
      let answer (w : Word) : Word := (w.extractLsb' 56 5).setWidth 64 <<< 32 ||| (w.extractLsb' 61 3).setWidth 64 <<< 24 |||
        (w.extractLsb' 32 8).setWidth 64 <<< 16 ||| (w.extractLsb' 40 8).setWidth 64 <<< 8
      let plain (w : Word) : Prop := w.extractLsb' 48 8 = o.noun.extractLsb' 34 8 ∧ w.extractLsb' 61 3 ≠ 0 ∧ w.extractLsb' 61 3 ≠ 7
      let new : Word := BitVec.ofNat 64 (readNat s.mem a 8)
      plain new → plain w0 → Gives (exec (.nounDelivery o.id) s) fun t =>
        (∃ y : Reply, t.replies = s.replies ++ [y] ∧ y.id = o.id ∧ (y.writes = [(sd, answer new)] ∨ y.writes = [(sd, answer w0)])) ∧
        t.mem = s.mem) ∧
    (∀ (o : NounOp) (k : Nat) (sd sf : SReg) (pc : Word) (a : Nat), (s.nouns.find? fun x => x.id == o.id) = some o →
      s.nounReady o = true → o.granted = false → o.src = .frag k sd sf pc → o.act = .test → (o.noun.extractLsb' 42 20).toNat = o.ctx →
      kindOk o.act (o.noun.extractLsb' 62 2).toNat = true → s.leafOf o.noun = some a → s.nounCache = [] →
      (s.ctx o.ctx).resident = true → (s.ctx o.ctx).killed = false → (BitVec.ofNat 64 (readNat s.mem a 8) : Word).extractLsb' 61 3 ≠ 7 →
      Gives (exec (.nounDelivery o.id) s) fun t => t.nounCache = [⟨s.coreOf k / 384, o.ctx, (o.noun.extractLsb' 0 34).toNat,
        [BitVec.ofNat 64 (readNat s.mem a 8), BitVec.ofNat 64 (readNat s.mem (a + 8) 8)]⟩]) ∧
    (∀ (sd sa : SReg), s.combWaits = false → (s.r sa).toNat < 4096 → s.verbCache = [] →
      let at' := (s.ctx s.myCtx).vtab.toNat + 32 * (s.r sa).toNat
      let kind := readNat s.mem at' 8 / 2 ^ 62
      Gives (exec (.kapply sd sa 0 false) s) fun t => t.verbCache = if kind = 0 then [] else
        [⟨s.myCore / 384, s.myCtx, (s.r sa).toNat, (List.range 4).map fun j => BitVec.ofNat 64 (readNat s.mem (at' + 8 * j) 8)⟩])

/-- R440, R469: skill, in a privileged phrase or of the phrase's own context: of a number that names no context gives 1, of a killed context 2, and changes nothing else; of another context of
this module it kills it: the context is killed at once, and none of its instances goes on. Where no access of the context and no engine
operation is outstanding, the kill is over, the context is not resident and its instances are gone. For a context of another module of the domain
the status is 0 or 2: which of the two is the model's free choice (log 19). -/
def Sys2Proof.Claims.SkillStatuses : Prop :=
  ∀ (s : State) (sd sa : SReg), (s.priv s.cur = true ∨ ((s.r sa).extractLsb' 0 20).toNat = s.myCtx) →
    let n := (s.r sa).toNat
    (2 ^ 20 ≤ n → Gives (exec (.skill sd sa) s) (Writes s · sd 1)) ∧
    (n < 2 ^ 20 → tfind s.contexts n = none → Gives (exec (.skill sd sa) s) fun t => match s.homeOf n with
      | none => Writes s t sd 1
      | some _ => Writes s.drawn t sd 0 ∨ Writes s.drawn t sd 2) ∧
    (n < 2 ^ 20 → (∃ x, tfind s.contexts n = some x ∧ x.killed = true) → Gives (exec (.skill sd sa) s) (Writes s · sd 2)) ∧
    (n < 2 ^ 20 → (∃ x, tfind s.contexts n = some x ∧ x.killed = false) → n ≠ s.myCtx → Gives (exec (.skill sd sa) s) fun t =>
      (t.ctx n).killed = true ∧ (∀ i a, t.inst i = some a → a.ctx = n → a.cancelled = true) ∧
      ((∀ a ∈ s.accs, s.ctxOf a.frag ≠ n) → (∀ c ∈ s.cores, c.2.engine.ops = []) → (t.ctx n).resident = false ∧ ∀ e ∈ t.applied, e.2.ctx ≠ n))

/-! ### Gutters (R351-R355) -/

/-- R352, R354, R355: a valid gdef declares its gutter with both pointers zero; gadv advances one pointer of a declared gutter that
the lanes own, once there is room (.p) or enough entries (.c); gstat reads the declaration, the count and the pointers.
R352, R354: a descriptor that is not valid takes BADDESC; gadv takes NODECL, NOTOWNER or BADCOUNT, with the gutter and the
count. -/
def Sys2Proof.Claims.Gutters : Prop :=
  (∀ (s : State) (g : BitVec 3) (sd sa : SReg),
     let n := s.r sa
     let leaves (x : Gutter) (t : State) : Prop :=
       t.gutter s.myCore g.toNat = some x ∧ (∀ h, h ≠ g.toNat → t.gutter s.myCore h = s.gutter s.myCore h) ∧
       (∀ c, c ≠ s.myCore → t.core c = s.core c) ∧ t.me = { s.me with pc := s.me.pc + 4 } ∧ t.mem = s.mem
     (s.gdefWaits g.toNat = false → gutValid n = true → Gives (exec (.gdef g sa) s) (leaves { desc := n, prod := 0, cons := 0 })) ∧
     (∀ x : Gutter, s.gutter s.myCore g.toNat = some x → s.me.queue = [] → 1 ≤ n.toNat → n.toNat ≤ 2 ^ (x.desc.extractLsb' 32 4).toNat →
       let present := (x.prod - x.cons).toNat
       (x.desc.extractLsb' 54 2 = 0 → s.relWaits s.cur .phr = false → present + n.toNat ≤ 2 ^ (x.desc.extractLsb' 32 4).toNat →
         Gives (exec (.gadvP g sa) s) (leaves { x with prod := x.prod + n.setWidth 16 })) ∧
       (x.desc.extractLsb' 52 2 = 0 → n.toNat ≤ present →
         Gives (exec (.gadvC g sa) s) (leaves { x with cons := x.cons + n.setWidth 16 })) ∧
       (x.desc.extractLsb' 52 2 = 0 → present < n.toNat → exec (.gadvC g sa) s = .next s)) ∧
     Gives (exec (.gstat sd g) s) (Writes s · sd (match s.gutter s.myCore g.toNat with
       | none => 0
       | some x => BitVec.ofNat 64 (2 ^ 63 + (x.prod - x.cons).toNat * 2 ^ 32 + x.cons.toNat * 2 ^ 16 + x.prod.toNat)))) ∧
  (∀ (s : State) (g : BitVec 3) (sa : SReg), s.mayTrap s.cur →
     let n := s.r sa
     let datum : Word := BitVec.ofNat 64 (g.toNat + n.toNat % 2 ^ 32 * 2 ^ 32)
     (s.gdefWaits g.toNat = false → gutValid n = false → Gives (exec (.gdef g sa) s) (Faults s · .gutter 0x03 n)) ∧
     (s.me.queue = [] → s.relWaits s.cur .phr = false →
       (s.gutter s.myCore g.toNat = none → Gives (exec (.gadvP g sa) s) (Faults s · .gutter 0x01 datum) ∧
         Gives (exec (.gadvC g sa) s) (Faults s · .gutter 0x01 datum)) ∧
       ∀ x : Gutter, s.gutter s.myCore g.toNat = some x →
         (x.desc.extractLsb' 54 2 ≠ 0 → Gives (exec (.gadvP g sa) s) (Faults s · .gutter 0x02 datum)) ∧
         (x.desc.extractLsb' 52 2 ≠ 0 → Gives (exec (.gadvC g sa) s) (Faults s · .gutter 0x02 datum)) ∧
         (x.desc.extractLsb' 54 2 = 0 → (n = 0 ∨ 2 ^ (x.desc.extractLsb' 32 4).toNat < n.toNat) →
           Gives (exec (.gadvP g sa) s) (Faults s · .gutter 0x04 datum)) ∧
         (x.desc.extractLsb' 52 2 = 0 → (n = 0 ∨ 2 ^ (x.desc.extractLsb' 32 4).toNat < n.toNat) →
           Gives (exec (.gadvC g sa) s) (Faults s · .gutter 0x04 datum))))

/-! ### Copies (R367-R377) -/

/-- R367, R373: a producer's cpcopy or cpcrypt with records aligned in the scratch window joins the open batch and the engine's
queue, and the stream goes on; a record elsewhere, or an issuer that is not the producer, takes COPY. -/
def Sys2Proof.Claims.CopiesIssue : Prop :=
  ∀ (s : State) (sa sb : SReg) (g : BitVec 3),
    let src := (s.r sa).toNat
    let dst := (s.r sb).toNat
    let good (va : Nat) : Prop := va % 64 = 0 ∧ 0xFFFF0000000000 ≤ va ∧ va < 0xFFFF0000060000
    let queues (crypt : Bool) (ops : CopyOps) (t : State) : Prop :=
      (∃ c : CopyOp, t.copies = s.copies ++ [c] ∧ c.id = s.nextId ∧ c.frag = s.cur ∧ c.src = some src ∧ c.dst = some dst ∧ c.crypt = crypt ∧
        c.ops = ops ∧ c.st = .queued) ∧
      t.myPhr.opened = s.myPhr.opened ++ [s.nextId] ∧ t.me.pc = s.me.pc + 4 ∧ ∀ y : SReg, t.r y = s.r y
    (s.isProducer (phraseOf s.cur) = true → good src → good dst → s.myPhr.opened.length < 255 →
      Gives (exec (.cpcopy (.mem sa sb g)) s) (queues false (.mem sa sb g)) ∧
      Gives (exec (.cpcrypt (.mem sa sb g)) s) (queues true (.mem sa sb g))) ∧
    (s.isProducer (phraseOf s.cur) = true → ¬good src → s.mayTrap s.cur →
      Gives (exec (.cpcopy (.mem sa sb g)) s) (Faults s · .copy 0x03 (s.r sa)) ∧
      Gives (exec (.cpcrypt (.mem sa sb g)) s) (Faults s · .copy 0x03 (s.r sa))) ∧
    (s.isProducer (phraseOf s.cur) = false → s.mayTrap s.cur →
      Gives (exec (.cpcopy (.mem sa sb g)) s) (Faults s · .copy 0x01 0) ∧
      Gives (exec (.cpcrypt (.mem sa sb g)) s) (Faults s · .copy 0x01 0))

/-- R220, R372, R375-R377: cpseal numbers the open batch BATCH + 1; cpwait goes on once at most n batches are unfinished; cpcancel
answers 1 for a batch that is not unfinished, else abandons its copies and answers 0; cpresume queues its stopped copy again, ahead
of the others. -/
def Sys2Proof.Claims.CopyBatches : Prop :=
  ∀ (s : State) (sd sa : SReg) (n : BitVec 12) (ops : CopyOps), s.isProducer (phraseOf s.cur) = true →
    (s.myPhr.sealed.length < 256 → Gives (exec (.cpseal sd) s) fun t =>
      t.myPhr.batch = s.myPhr.batch + 1 ∧ t.myPhr.opened = [] ∧ (sd ≠ 0 → t.r sd = (s.myPhr.batch + 1).setWidth 64) ∧
      t.me.pc = s.me.pc + 4) ∧
    (256 ≤ s.myPhr.sealed.length → exec (.cpseal sd) s = .next s) ∧
    (s.myPhr.sealed.length ≤ n.toNat → Gives (exec (.cpwait n) s) (Moves s · (s.me.pc + 4))) ∧
    (n.toNat < s.myPhr.sealed.length → exec (.cpwait n) s = .next s) ∧
    ((∀ b ∈ s.myPhr.sealed, b.num = (s.r sa).setWidth 16 → s.batchDone b = true) →
      Gives (exec (.cpcancel sd sa) s) (Writes s · sd 1)) ∧
    (∀ b, (s.myPhr.sealed.find? fun b => b.num == (s.r sa).setWidth 16 && !s.batchDone b) = some b →
      Gives (exec (.cpcancel sd sa) s) fun t => (sd ≠ 0 → t.r sd = 0) ∧ t.me.pc = s.me.pc + 4 ∧
        ∀ id ∈ b.copies, ∀ c ∈ t.copies, c.id ≠ id) ∧
    (∀ c, s.resumable ops = some c → Gives (exec (.cpresume ops) s) fun t =>
      (∃ c' : CopyOp, t.copies = c' :: (s.copies.filter fun x => x.id != c.id) ∧ c'.id = c.id ∧ c'.st = .queued ∧ c'.resumed = true) ∧
      t.me = { s.me with pc := s.me.pc + 4 } ∧ t.mem = s.mem)

/-- R368: a copy that can fire, and whose records pass the checks, runs from the granule at which it starts; one whose records fail
stops there with COPY, or with ACCESS where one is poisoned (R158), held for its fragment, and has moved no granule.
R369, R371: a granule none of whose parts fails is done and the copy goes on to the next, or is done after its last; where a
part fails, the copy stops at that granule and its fault is held.
R371: a held copy fault is taken at a boundary of its fragment at TL 0, under its cause, with EPC at the next instruction and
EMASK and EXSAVE holding EXEC; it is then held once less. -/
def Sys2Proof.Claims.CopyEngine : Prop :=
  (∀ (s : State) (c : CopyOp), (s.copies.find? fun x => x.id == c.id) = some c → s.copyFirable (clusterOf c.core) = some c →
     (∃ q, tfind s.phrases c.phrase = some q) →
     let stops (cause : Cause) (sub : BitVec 8) (data : Nat) : Prop := Gives (exec (.copyFire c.id) s) fun t =>
       (∃ c', (t.copies.find? fun x => x.id == c.id) = some c' ∧ c'.st = .stopped) ∧
       (∃ f : CopyFault, (t.phr c.phrase).cfaults = (s.phr c.phrase).cfaults ++ [f] ∧ f.copy = c.id ∧ f.frag = c.frag ∧
         f.exn.cause = cause ∧ f.exn.sub = sub ∧ f.exn.data = BitVec.ofNat 64 data ∧ f.exn.pa = BitVec.ofNat 64 c.record) ∧
       t.frags = s.frags
     let clean : Prop := ∀ a ∈ c.records, s.poisoned (recordKey c a) 64 = false
     (∀ pl, clean → s.copyPlan c = .inl pl → Gives (exec (.copyFire c.id) s) fun t =>
       (∃ c', (t.copies.find? fun x => x.id == c.id) = some c' ∧ c'.st = .running ∧ c'.lsrc = pl.src ∧ c'.ldst = pl.dst ∧
         c'.prog = s.startAt c) ∧
       t.phrases = s.phrases ∧ t.frags = s.frags) ∧
     (∀ sub, clean → s.copyPlan c = .inr sub → stops .copy sub c.record) ∧
     (∀ a, (c.records.find? fun a => s.poisoned (recordKey c a) 64) = some a → stops .access 0x0A a)) ∧
  (∀ (s : State) (c : CopyOp), (s.copies.find? fun x => x.id == c.id) = some c → c.ready = true → c.crypt = false → c.wait = .idle →
     (∃ q, tfind s.phrases c.phrase = some q) →
     let p := s.runningPlan c
     let parts := copyParts c p c.prog
     let outs := parts.map fun x => s.checkPart c x
     let answered := s.respondParts c (parts.zip outs)
     let failures := answered.1 ++ s.ringFails c p c.prog
     128 * c.prog < p.len → outs.filterMap PartOut.misses = [] → outs.filterMap PartOut.asks = [] →
     (failures = [] → 128 * (c.prog + 1) < p.len → Gives (exec (.copyGranule c.id) s) fun t =>
       ∃ c', (t.copies.find? fun x => x.id == c.id) = some c' ∧ c'.st = .running ∧ c'.prog = c.prog + 1) ∧
     (∀ va cause sub, worstPart failures = some (va, cause, sub) → Gives (exec (.copyGranule c.id) s) fun t =>
       (∃ c', (t.copies.find? fun x => x.id == c.id) = some c' ∧ c'.st = .stopped ∧ c'.prog = c.prog) ∧
       ∃ f : CopyFault, (t.phr c.phrase).cfaults = (s.phr c.phrase).cfaults ++ [f] ∧ f.exn.cause = cause ∧ f.exn.sub = sub ∧
         f.exn.data = BitVec.ofNat 64 va)) ∧
  (∀ (s : State) (k : Nat) (x : CopyFault), s.copyFaultOf k = some x → s.mayTrap k →
     Gives (exec (.copyFaultTake k) s) fun t =>
       Traps (s.updPhr (phraseOf k) fun q => { q with cfaults := q.cfaults.erase x }) t k
         { x.exn with mask := (s.frag k).exec } (s.frag k).pc ∧
       (t.phr (phraseOf k)).cfaults = (s.phr (phraseOf k)).cfaults.erase x)

/-! ### Courses, barriers and lane registers (R399-R404) -/

/-- R400: senrol joins a course of the instance at its lowest free rank, or is refused with its reason; sleave frees the rank, in a course of any
placement: that reason 3 is one of senrol only is the model's reading (log 89). -/
def Sys2Proof.Claims.CourseMembership : Prop :=
  ∀ (s : State) (sd sa : SReg), s.myPhr.asides = 0 →
    let p := phraseOf s.cur
    let num : BitVec 32 := (s.r sa).setWidth 32
    let fails (reason : Nat) : Word := BitVec.ofNat 64 (2 ^ 63 + reason * 2 ^ 56)
    (s.myPhr.course.isSome = true → Gives (exec (.senrol sd sa) s) (Writes s · sd (fails 1))) ∧
    (s.myPhr.course = none → (s.courses.find? fun c => c.inst == s.myPhr.inst && c.num == num) = none → num ≠ 0xFFFFFFFF →
      Gives (exec (.senrol sd sa) s) fun t =>
        t.myPhr.course = some num ∧ t.myPhr.rank = 0 ∧ (sd ≠ 0 → t.r sd = 0) ∧ t.me.pc = s.me.pc + 4 ∧
        ∃ c ∈ t.courses, c.inst = s.myPhr.inst ∧ c.num = num ∧ c.members = [(0, p)]) ∧
    (∀ c : Course, s.myPhr.course = none → (s.courses.find? fun c => c.inst == s.myPhr.inst && c.num == num) = some c →
      c.members.length + c.absent.length < 1024 → c.place = 0 → num ≠ 0xFFFFFFFF → ∀ r, (∀ m ∈ c.members, m.1 ≠ r) → r ∉ c.absent →
      (∀ q, q < r → (∃ m ∈ c.members, m.1 = q) ∨ q ∈ c.absent) → Gives (exec (.senrol sd sa) s) fun t =>
        t.myPhr.course = some num ∧ t.myPhr.rank = r ∧ (sd ≠ 0 → t.r sd = BitVec.ofNat 64 r) ∧ t.me.pc = s.me.pc + 4) ∧
    (∀ c : Course, s.myPhr.course = none → (s.courses.find? fun c => c.inst == s.myPhr.inst && c.num == num) = some c →
      (1024 ≤ c.members.length + c.absent.length → Gives (exec (.senrol sd sa) s) (Writes s · sd (fails 2))) ∧
      (c.members.length + c.absent.length < 1024 → c.place ≠ 0 → Gives (exec (.senrol sd sa) s) (Writes s · sd (fails 3)))) ∧
    (s.myPhr.course = none → (s.courses.find? fun c => c.inst == s.myPhr.inst && c.num == num) = none → num = 0xFFFFFFFF →
      Gives (exec (.senrol sd sa) s) (Writes s · sd (fails 4))) ∧
    (s.myPhr.course = none → Gives (exec (.sleave sd) s) (Writes s · sd (fails 5))) ∧
    (∀ c : Course, s.courseOf p = some c → Gives (exec (.sleave sd) s) fun t => t.myPhr.course = none ∧
      (sd ≠ 0 → t.r sd = BitVec.ofNat 64 s.myPhr.rank) ∧ t.me.pc = s.me.pc + 4 ∧
      ∀ d ∈ t.courses, d.isAt c.inst c.num = true → ∀ m ∈ d.members, m.2 ≠ p) ∧
    (∀ c : Course, s.courseOf p = some c → c.sbar = [] → c.sclbar = [] → c.members ≠ [] → c.absent = [] → c.members.all (fun m => m.2 == p) = true →
      Gives (exec (.sleave sd) s) fun t => t.myPhr.course = none ∧ (sd ≠ 0 → t.r sd = BitVec.ofNat 64 s.myPhr.rank) ∧
        t.me.pc = s.me.pc + 4 ∧ ∀ d ∈ t.courses, d.isAt c.inst c.num = false)

/-- R401-R403: a member arrives at its barrier and waits there while another member, be it one not yet placed, has not arrived; when the last member arrives,
it goes on at once, and every fragment that waits there is released. Each of these goes on after its barrier when its release reaches it, in an
order that is the model's choice (log 80). Without a course sbar goes on.
R401, R403: a course of one member: its sbar is an episode of its own, and the member goes on past it. -/
def Sys2Proof.Claims.Barriers : Prop :=
  (∀ (s : State), s.myPhr.asides = 0 → s.me.queue = [] → s.relWaits s.cur .crs = false → s.myPhr.ended = [] →
     let p := phraseOf s.cur
     let waits (kind : Nat) (t : State) : Prop := t.me.wait = .barrier kind ∧ t.me.pc = s.me.pc ∧ t.mem = s.mem ∧ ∀ y : SReg, t.r y = s.r y
     (s.courseOf p = none → Gives (exec .sbar s) (Moves s · (s.me.pc + 4))) ∧
     (∀ c : Course, s.courseOf p = some c → (c.absent ≠ [] ∨ ∃ m ∈ c.members, m.2 ≠ p ∧ m.2 ∉ c.sbar ∧ (s.phr m.2).gone = false) → p ∉ c.sbar →
       c.members ≠ [] → Gives (exec .sbar s) fun t => waits 0 t ∧ ∃ c', t.courseOf p = some c' ∧ c'.sbar = p :: c.sbar) ∧
     (∀ c : Course, s.courseOf p = some c → c.place = 1 → (c.absent ≠ [] ∨ ∃ m ∈ c.members, m.2 ≠ p ∧ m.2 ∉ c.sclbar ∧ (s.phr m.2).gone = false) →
       p ∉ c.sclbar → c.members ≠ [] →
       Gives (exec .sclbar s) fun t => waits 1 t ∧ ∃ c', t.courseOf p = some c' ∧ c'.sclbar = p :: c.sclbar) ∧
     (∀ q, s.myPhr.mate = some q → q ≠ p → s.myPhr.lbar = false → (s.phr q).lbar = false → s.mateAlive p = true →
       Gives (exec .slbar s) fun t => waits 2 t ∧ t.myPhr.lbar = true)) ∧
  (∀ (s : State) (c : Course) (r : Nat), s.myPhr.asides = 0 → s.me.queue = [] → s.relWaits s.cur .crs = false → s.myPhr.ended = [] →
     s.courseOf (phraseOf s.cur) = some c → c.members = [(r, phraseOf s.cur)] → c.absent = [] → c.sbar = [] → s.fragsOf (phraseOf s.cur) = [s.cur] →
     s.me.live = true →
     Gives (exec .sbar s) fun t => t.me.wait = .none ∧ t.me.pc = s.me.pc + 4 ∧ (∀ y : SReg, t.r y = s.r y) ∧ t.mem = s.mem) ∧
  (∀ (s : State), s.me.queue = [] → s.relWaits s.cur .crs = false → s.myPhr.ended = [] → s.fragsOf (phraseOf s.cur) = [s.cur] →
     let p := phraseOf s.cur
     let on (t : State) : Prop := t.me.wait = .none ∧ t.me.pc = s.me.pc + 4 ∧ t.mem = s.mem ∧ ∀ y : SReg, t.r y = s.r y
     (∀ (c : Course) (kind : Nat) (i : Instr), (kind, i) ∈ [(0, Instr.sbar), (1, .sclbar)] → s.myPhr.asides = 0 → s.courseOf p = some c →
       (kind = 1 → c.place = 1) → c.absent = [] → c.members ≠ [] → p ∉ c.arrived kind → s.myPhr.gone = false →
       (∀ m ∈ c.members, m.2 = p ∨ m.2 ∈ c.arrived kind ∨ (s.phr m.2).gone = true) → Gives (exec i s) fun t => on t ∧
         ∀ q ∈ c.arrived kind, ∀ k ∈ s.fragsOf q, (s.frag k).wait = .barrier kind → (t.frag k).wait = .passed kind) ∧
     (∀ q, s.myPhr.mate = some q → q ≠ p → s.myPhr.lbar = false → (s.phr q).lbar = true ∨ s.mateAlive p = false →
       (tfind s.phrases p).isSome = true → Gives (exec .slbar s) fun t => on t ∧
         (s.mateAlive p = true → ∀ k ∈ s.fragsOf q, (s.frag k).wait = .barrier 2 → (t.frag k).wait = .passed 2))) ∧
  (∀ (s : State) (k kind : Nat) (f : Frag), (k, f) ∈ s.frags → (s.frag k).wait = .passed kind → f.wait = .passed kind → Act.pass k ∈ s.mayAct ∧
     Gives (s.perform (.pass k)) fun t => (t.frag k).wait = .none ∧ (t.frag k).pc = (s.frag k).pc + 4 ∧ t.mem = s.mem ∧
       ∀ j, j ≠ k → t.frag j = s.frag j)

/-- R101, R102, R404: sgrow and sshrink of n blocks: the new REGS within 256, the core's 2048 and the least allocation, or FAIL with
the reason and REGS as it was. That a size above 256 is reported before a lack of room is the model's reading (log 46). -/
def Obligations.LaneRegisterSizes : Prop :=
  ∀ (s : State) (sd : SReg) (n : BitVec 12), s.me.queue = [] → (∀ f, f < 12 → s.flagSet s.cur f = false) → s.myPhr.asides = 0 →
    let regs := s.myPhr.regs
    let used := s.regsUsed s.myPhr.core
    let least : Nat := if s.myPhr.isAux = false ∧ s.mateAlive (phraseOf s.cur) = true then 64 else 32
    let fails (reason : Nat) (t : State) : Prop :=
      (sd ≠ 0 → t.r sd = BitVec.ofNat 64 (2 ^ 63 + reason * 2 ^ 56 + regs)) ∧ t.myPhr.regs = regs ∧
      t.myPhr.status = s.myPhr.status ||| 0x2000 ∧ t.me.pc = s.me.pc + 4 ∧ t.mem = s.mem
    let becomes (m : Nat) (t : State) : Prop :=
      (sd ≠ 0 → t.r sd = BitVec.ofNat 64 m) ∧ t.myPhr.regs = m ∧ t.myPhr.status = s.myPhr.status ∧ t.me.pc = s.me.pc + 4 ∧ t.mem = s.mem
    (256 < regs + 16 * n.toNat → Gives (exec (.sgrow sd n) s) (fails 2)) ∧
    (regs + 16 * n.toNat ≤ 256 → 2048 < used + 16 * n.toNat → Gives (exec (.sgrow sd n) s) (fails 1)) ∧
    (regs + 16 * n.toNat ≤ 256 → used + 16 * n.toNat ≤ 2048 → Gives (exec (.sgrow sd n) s) (becomes (regs + 16 * n.toNat))) ∧
    (regs < least + 16 * n.toNat → Gives (exec (.sshrink sd n) s) (fails 3)) ∧
    (least + 16 * n.toNat ≤ regs → Gives (exec (.sshrink sd n) s) (becomes (regs - 16 * n.toNat)))

/-! ### Lane arithmetic (R242, R278-R302) -/

/-- R242, R278, R280-R283, R295: the integer lane instructions and moves issue with the result of the rule in every active lane,
due after the latency of their class; a carry goes to the register of VC. -/
def Sys2Proof.Claims.LaneIntegers : Prop :=
  ∀ (s : State) (f : LaneFields),
    let w := LType.bits f.ty
    let a (l : Nat) : Int := numOf f.ty (s.srcA f l)
    let b (l : Nat) : Int := numOf f.ty (s.srcB f l)
    let c (l : Nat) : Int := numOf f.ty (s.srcC f l)
    let x (l : Nat) : BitVec w := BitVec.ofNat w (s.srcA f l)
    let y (l : Nat) : BitVec w := BitVec.ofNat w (s.srcB f l)
    let n (l : Nat) : Nat := s.srcB f l
    let sat := f.md.getLsbD 5
    let i2 := cycles f.ty 2 4
    let i4 := cycles f.ty 4 8
    let out (i : Instr) (lat : Nat) (val : Nat → Nat) : Prop :=
      Gives (exec i s) (LaneIssues s · f (s.cycle + lat) f.ty val (fun _ => []) 0)
    let carry (l : Nat) (t : Bool) : List (Nat × Half) := match f.vc with
      | .v m => laneWrites f.ty m.toNat l (if t then 1 else 0)
      | _ => []
    let ci (l : Nat) : Int := s.srcC f l % 2
    out (.vadd f) i2 (fun l => fitted f.ty sat (a l + b l)) ∧
    out (.vsub f) i2 (fun l => fitted f.ty sat (a l - b l)) ∧
    out (.vmul f) i4 (fun l => fitted f.ty sat (a l * b l)) ∧
    out (.vmulh f) i4 (fun l => fitted f.ty sat (a l * b l / 2 ^ w)) ∧
    out (.vmad f) i4 (fun l => fitted f.ty sat (a l * b l + c l)) ∧
    out (.vmin f) i2 (fun l => fitted f.ty sat (min (a l) (b l))) ∧
    out (.vmax f) i2 (fun l => fitted f.ty sat (max (a l) (b l))) ∧
    out (.vabs f) i2 (fun l => fitted f.ty sat |a l|) ∧
    out (.vand f) i2 (fun l => (x l &&& y l).toNat) ∧
    out (.vor f) i2 (fun l => (x l ||| y l).toNat) ∧
    out (.vxor f) i2 (fun l => (x l ^^^ y l).toNat) ∧
    out (.vnot f) i2 (fun l => (~~~x l).toNat) ∧
    out (.vshl f) i2 (fun l => fitted f.ty sat (if w ≤ n l then 0 else a l * 2 ^ n l)) ∧
    out (.vshr f) i2 (fun l => (x l >>> n l).toNat) ∧
    out (.vsra f) i2 (fun l => ((x l).sshiftRight (n l)).toNat) ∧
    out (.vrot f) i2 (fun l => ((x l).rotateLeft (n l)).toNat) ∧
    out (.vclz f) i2 (fun l => if x l = 0 then w else w - 1 - Nat.log2 (x l).toNat) ∧
    out (.vpopc f) i2 (fun l => (List.range w).countP fun i => (x l).getLsbD i) ∧
    out (.vbrev f) i2 (fun l => (x l).reverse.toNat) ∧
    (f.imm.toNat ≤ 32 → out (.vbfx f) i2 (fun l =>
      let g := BitVec.ofNat f.imm.toNat (s.srcA f l >>> (s.srcB f l % 32))
      if ltypeSigned f.ty then (g.signExtend 32).toNat else g.toNat)) ∧
    Gives (exec (.vaddc f) s) (LaneIssues s · f (s.cycle + i2) f.ty
      (fun l => ((s.srcA f l + s.srcB f l + ci l : Int) % 2 ^ w).toNat)
      (fun l => carry l (2 ^ w ≤ (s.srcA f l + s.srcB f l + ci l : Int))) 0) ∧
    Gives (exec (.vsubb f) s) (LaneIssues s · f (s.cycle + i2) f.ty
      (fun l => ((s.srcA f l - s.srcB f l - ci l : Int) % 2 ^ w).toNat)
      (fun l => carry l ((s.srcA f l - s.srcB f l - ci l : Int) < 0)) 0) ∧
    out (.vsel f) i2 (fun l => if s.src f f.vc 32 l ≠ 0 then s.srcA f l else s.srcB f l) ∧
    out (.vmov f) i2 (fun l => s.srcA f l) ∧
    Gives (exec (.vmovi f) s) (LaneIssues s · f (s.cycle + 2) (if w = 64 then .u32 else f.ty) (fun _ => f.imm.toNat) (fun _ => []) 0) ∧
    (∀ v, f.vd = .v v → f.imm.toNat ≤ 32 → Gives (exec (.vbfi f) s) fun t => ∃ val : Nat → Nat,
      LaneIssues s t f (s.cycle + i2) f.ty val (fun _ => []) 0 ∧
      ∀ l i, i < 32 → (val l).testBit i =
        let pos := s.srcB f l % 32
        if pos ≤ i ∧ i < pos + f.imm.toNat then (s.srcA f l).testBit (i - pos) else (s.vreg v.toNat l).testBit i)

/-- R61, R62, R280: lane division. Without a trapping zero divisor every active lane has its quotient or remainder; with
TRAPEN.DIVZ the lanes whose divisor is zero fault together with DIVZ, the dividend of the lowest as the datum, and are not written. -/
def Sys2Proof.Claims.LaneDivisions : Prop :=
  ∀ (s : State) (f : LaneFields),
    let w := LType.bits f.ty
    let a (l : Nat) : Int := numOf f.ty (s.srcA f l)
    let b (l : Nat) : Int := numOf f.ty (s.srcB f l)
    let quot (l : Nat) : Int := if b l = 0 then (if ltypeSigned f.ty then (if a l < 0 then -2 ^ (w - 1) else 2 ^ (w - 1) - 1) else 2 ^ w - 1)
      else (a l).tdiv (b l)
    let rem (l : Nat) : Int := if b l = 0 then a l else (a l).tmod (b l)
    let held (x : Int) : Nat := (x % 2 ^ w).toNat
    let traps := s.clause.trapen.getLsbD 6
    let zeros := (lanesOf s.lmask).filter fun l => decide (b l = 0)
    let faults (i : Instr) (val : Nat → Int) : Prop := ∀ l ls, zeros = l :: ls → Gives (exec i s) fun t =>
      LaneGoes s t f ∧ ∃ (r : LaneRes) (x : LaneFault), t.results = s.results ++ [r] ∧ r.fault = some x ∧ x.exn.cause = .divz ∧
        x.exn.lane = true ∧ (∀ j, j < 32 → x.exn.mask.getLsbD j = decide (j ∈ zeros)) ∧ x.exn.data = BitVec.ofInt 64 (a l) ∧
        ∀ n, f.vd = .v n → r.writes = ((lanesOf s.lmask).filter fun l => decide (b l ≠ 0)).flatMap fun l =>
          laneWrites f.ty n.toNat l (held (val l))
    (traps = false ∨ zeros = [] →
      Gives (exec (.vdiv f) s) (LaneIssues s · f (s.cycle + cycles f.ty 24 40) f.ty (fun l => held (quot l)) (fun _ => []) 0) ∧
      Gives (exec (.vrem f) s) (LaneIssues s · f (s.cycle + cycles f.ty 24 40) f.ty (fun l => held (rem l)) (fun _ => []) 0)) ∧
    (traps = true → faults (.vdiv f) quot ∧ faults (.vrem f) rem)

/-- R298-R302: the cross-lane instructions. A lane that has exited reads as zero; a ballot, a test, a reduction and a taken lane
go to a scalar register with their completion. -/
def Sys2Proof.Claims.LaneCrossings : Prop :=
  ∀ (s : State) (f : LaneFields),
    let w := LType.bits f.ty
    let ls := lanesOf s.lmask
    let v (j : Nat) : Nat := if s.myPhr.live.getLsbD j then s.srcA f j else 0
    let k := f.imm.toNat
    let x5 := cycles f.ty 5 7
    let out (i : Instr) (val : Nat → Nat) : Prop :=
      Gives (exec i s) (LaneIssues s · f (s.cycle + x5) f.ty val (fun _ => []) 0)
    let nonzero (m : Word) : Prop := ∀ l, l < 64 → m.getLsbD l = (decide (l ∈ ls) && decide (s.srcA f l ≠ 0))
    out (.vshuf f) (fun l => v (s.srcB f l % 32)) ∧
    (f.md.toNat % 4 = 0 → out (.vshufx f) (fun l => v (l ^^^ k))) ∧
    (f.md.toNat % 4 = 1 → out (.vshufx f) (fun l => if l < k then v l else v (l - k))) ∧
    (f.md.toNat % 4 = 2 → out (.vshufx f) (fun l => if 31 < l + k then v l else v (l + k))) ∧
    (f.md.toNat % 4 = 3 → out (.vshufx f) (fun l => v ((l + k) % 32))) ∧
    out (.vbcast f) (fun _ => v k) ∧
    Gives (exec (.vballot f) s) (fun t => ∃ m, nonzero m ∧ ScalarIssues s t f m 0) ∧
    Gives (exec (.vany f) s) (ScalarIssues s · f (if ∃ l ∈ ls, s.srcA f l ≠ 0 then 1 else 0) 0) ∧
    Gives (exec (.vall f) s) (ScalarIssues s · f (if ∀ l ∈ ls, s.srcA f l ≠ 0 then 1 else 0) 0) ∧
    (f.ty = .u32 → f.md = 0 → Gives (exec (.vred f) s) (ScalarIssues s · f (BitVec.ofNat 64 ((ls.map fun l => s.srcA f l).sum % 2 ^ 32)) 0)) ∧
    (f.ty = .i64 → f.md = 2 → ls ≠ [] → Gives (exec (.vred f) s) fun t => ∃ m : Word, ScalarIssues s t f m 0 ∧
      (∃ l ∈ ls, m = BitVec.ofNat 64 (s.srcA f l)) ∧ ∀ l ∈ ls, (BitVec.ofNat 64 (s.srcA f l)).toInt ≤ m.toInt) ∧
    (f.ty = .u32 → f.md = 0 → out (.vscan f) (fun l => ((ls.filter fun j => j ≤ l).map fun j => s.srcA f j).sum % 2 ^ 32)) ∧
    (ls = [] → Gives (exec (.vtos f) s) (ScalarIssues s · f 0 0)) ∧
    (ls ≠ [] → f.ty = .u64 → f.md = 0 → Gives (exec (.vtos f) s) (ScalarIssues s · f (BitVec.ofNat 64 (v k)) 0)) ∧
    (ls ≠ [] → f.ty = .i32 → f.md = 1 → Gives (exec (.vtos f) s)
      (ScalarIssues s · f ((BitVec.ofNat 32 (v (ls.headD 0))).signExtend 64) 0)) ∧
    (f.md = 0 → out (.vfroms f) (fun l => if (s.src f f.va 64 0 % 2 ^ 32).testBit l then 1 else 0)) ∧
    (f.md = 3 → out (.vfroms f) (fun l => if (s.src f f.va 64 0).testBit (32 + l) then 2 ^ w - 1 else 0)) ∧
    (f.ty = .i32 → f.md = 2 → (∃ d, f.vd = .s d) → Gives (exec (.vcmp f) s) fun t => ∃ m : Word, ScalarIssues s t f m 0 ∧
      ∀ l, l < 64 → m.getLsbD l = (decide (l ∈ ls) && decide (numOf f.ty (s.srcA f l) < numOf f.ty (s.srcB f l)))) ∧
    (∀ d, f.vd = .v d → f.md = 2 → Gives (exec (.vcmp f) s) (LaneIssues s · f (s.cycle + cycles f.ty 2 4) .u32
      (fun l => if numOf f.ty (s.srcA f l) < numOf f.ty (s.srcB f l) then 1 else 0) (fun _ => []) 0))

/-- R242, R285-R294: while no exception traps, the floating, conversion and packing instructions issue with a result in every
active lane, due after the latency of their class, and with the exception bits of their lanes; the values are those of the model's
number formats. A NaN operand of a sum, product, fused product, quotient or root gives the canonical NaN of its format (R68).
That the exception bits reach STATUS when the result is written is the model's reading (log 24). -/
def Obligations.LaneFloats : Prop :=
  (∀ (s : State) (f : LaneFields), s.clause.trapen = 0 →
    let t := ltypeFmt f.ty
    let g := arithRound f
    let a := s.valA f
    let b := s.valB f
    let c := s.valC f
    let out (i : Instr) (lat : Nat) (ty : LType) (r : Nat → Nat × Exc) : Prop :=
      Gives (exec i s) (LaneIssues s · f (s.cycle + lat) ty (fun l => (r l).1) (fun _ => [])
        (((lanesOf s.lmask).foldl (fun e l => e ||| (r l).2) (0 : Exc)).setWidth 32))
    let f4 := cycles f.ty 4 6
    let f16 := cycles f.ty 16 28
    out (.vfadd f) f4 f.ty (fun l => t.addOp g (a l) (b l)) ∧
    out (.vfsub f) f4 f.ty (fun l => t.addOp g (a l) (b l).neg) ∧
    out (.vfmul f) f4 f.ty (fun l => t.mulOp g (a l) (b l)) ∧
    out (.vfma f) f4 f.ty (fun l => t.fma g (a l) (b l) (c l)) ∧
    out (.vfmin f) f4 f.ty (fun l => t.minmax false (s.srcA f l) (s.srcB f l)) ∧
    out (.vfmax f) f4 f.ty (fun l => t.minmax true (s.srcA f l) (s.srcB f l)) ∧
    out (.vfdiv f) f16 f.ty (fun l => t.divOp g (a l) (b l)) ∧
    out (.vfsqrt f) f16 f.ty (fun l => t.finish g [a l] (sqrtVal (a l))) ∧
    out (.vfrcp f) f16 f.ty (fun l => t.divOp g (.num false 1 0) (a l)) ∧
    out (.vfrsq f) f16 f.ty (fun l => t.finish g [a l] (rsqVal (a l))) ∧
    out (.vfexp2 f) f16 f.ty (fun l => t.finish g [a l] (exp2Val (a l))) ∧
    out (.vflog2 f) f16 f.ty (fun l => t.finish g [a l] (logVal (a l))) ∧
    out (.vfclass f) f4 .u32 (fun l => (t.classOf (s.srcA f l), 0)) ∧
    out (.vfrnd f) f4 f.ty (fun l => t.rnd (modRound f).mode (a l)) ∧
    (isScalarDst f = false → out (.vfcmp f) f4 .u32 (fun l =>
      let r := fcmp (f.md.toNat % 8) (a l) (b l); (if r.1 then 1 else 0, r.2))) ∧
    (f.ty = .f32 → f.imm = 2 → out (.vcvt f) 4 .f32 (fun l =>
      fmtF32.encode (modRound f) (Val.ofInt ((BitVec.ofNat 32 (s.src f f.va 32 l)).toInt)))) ∧
    (f.ty = .f64 → f.imm = 10 → out (.vcvt f) 6 .f64 (fun l =>
      let x := fmtF32.value (s.src f f.va 32 l); let r := fmtF64.encode (modRound f) x; (r.1, r.2 ||| sn x))) ∧
    Gives (exec (.vpack f) s) (fun u => ∃ val, LaneIssues s u f (s.cycle + 4) .u32 val (fun _ => []) 0 ∧
      ∀ v, f.vd = .v v → f.ty = .u8 → f.imm.toNat < 4 → ∀ l i, i < 32 → (val l).testBit i =
        let lo := 8 * f.imm.toNat
        if lo ≤ i ∧ i < lo + 8 then (s.src f f.va 32 l).testBit (i - lo) else (s.vreg v.toNat l).testBit i) ∧
    (f.ty = .u8 → f.imm.toNat < 4 → Gives (exec (.vunpack f) s) (LaneIssues s · f (s.cycle + 4) .u8
      (fun l => s.src f f.va 32 l / 2 ^ (8 * f.imm.toNat) % 256) (fun _ => []) 0)) ∧
    ((∀ r ∈ s.results, r.id < s.nextId) → Gives (exec (.vcvtmx f) s) (fun u => ∃ (lat : Nat) (val : Nat → Nat) (e : BitVec 32),
      LaneIssues s u f (s.cycle + lat) .u32 val (fun _ => []) e))) ∧
  (∀ (t : Fmt) (g : Round) (x y z : Val), t.top = .ieee → (x.isNan ∨ y.isNan) →
    (t.addOp g x y).1 = t.canon ∧ (t.mulOp g x y).1 = t.canon ∧ (t.fma g x y z).1 = t.canon ∧ (t.divOp g x y).1 = t.canon ∧
    (x.isNan → (t.finish g [x] (sqrtVal x)).1 = t.canon ∧ (t.finish g [x] (rsqVal x)).1 = t.canon ∧
      (t.finish g [x] (exp2Val x)).1 = t.canon ∧ (t.finish g [x] (logVal x)).1 = t.canon))

/-- R278, R302: a result is written: each of its registers takes its value, the others keep theirs, the STATUS bits are added, the
scalar destination takes the value, and the result is no longer outstanding. That the bits
are added at the write is the model's reading (log 24). -/
def Sys2Proof.Claims.LaneResultsWritten : Prop :=
  ∀ (s : State) (r : LaneRes), (s.results.find? fun x => x.id == r.id) = some r → r.fault = none → r.ring = none →
    (s.frag r.frag).ready = [] → (s.frag r.frag).live = true → (r.writes.map (·.1)).Nodup →
    let p := phraseOf r.frag
    let written (t : State) : Prop :=
      (∀ i x, (i, x) ∈ r.writes → tget 0 (t.phr p).lanes i = x) ∧
      (∀ i, i ∉ r.writes.map (·.1) → tget 0 (t.phr p).lanes i = tget 0 (s.phr p).lanes i) ∧
      (t.phr p).status = (s.phr p).status ||| r.status ∧
      (∀ x : SReg, (t.frag r.frag).reg x = match r.scalar with
        | some (d, v) => if x = d ∧ x ≠ 0 then v else (s.frag r.frag).reg x
        | none => (s.frag r.frag).reg x) ∧
      (t.results.find? fun x => x.id == r.id) = none ∧ t.mem = s.mem ∧
      (∀ q, q ≠ p → t.phr q = s.phr q) ∧ ∀ j, j ≠ r.frag → t.frag j = s.frag j
    Gives (exec (.laneResultWrite r.id) s) written ∧ Gives (exec (.scalarDestinationWrite r.id) s) written

/-! ### Lane memory (R303-R329, R356) -/

/-- R305, R309, R310: a lane load, store or atomic asks, for each lane of its mask, the address of its form, its data and its
ordering; under an empty mask it asks nothing. -/
def Sys2Proof.Claims.LaneAccessIssue : Prop :=
  ∀ (s : State) (f : LaneFields),
    let size := LType.bits f.ty / 8
    let ls := lanesOf s.lmask
    let idx (l : Nat) : Word := let b := BitVec.ofNat 32 (s.src f f.vb 32 l)
      (if f.imm.getLsbD 24 then b.setWidth 64 else b.signExtend 64) <<< (f.imm.extractLsb' 20 2).toNat
    let ea (strided : Bool) (l : Nat) : Word :=
      BitVec.ofNat 64 (s.src f f.va 64 l) + (f.imm.extractLsb' 0 20).signExtend 64 +
        (if strided then BitVec.ofNat 64 l * BitVec.ofNat 64 (s.src f f.vb 64 l) else if f.imm.getLsbD 23 then idx l
         else if isConst f.va then BitVec.ofNat 64 (l * size) else 0)
    let old (l : Nat) : Nat := match f.vd with
      | .v n => if LType.bits f.ty = 64 then s.vpair n.toNat l else s.vreg n.toNat l
      | _ => 0
    let c (l : Nat) : Word := BitVec.ofNat 64 (s.srcC f l)
    let dest : Dest := match f.vd with | .v n => .lane n.toNat f.ty | .s d => .scalar d | _ => .none
    let noResult := f.imm.getLsbD 29
    let aop : AmoOp := match (f.imm.extractLsb' 25 4).toNat with
      | 0 => .add | 1 => .and | 2 => .or | 3 => .xor
      | 4 => if ltypeSigned f.ty then .min else .minu
      | 5 => if ltypeSigned f.ty then .max else .maxu
      | _ => .swap
    let asks (i : Instr) (kind : AccKind) (dst : Dest) (lane : Nat → LaneAcc) : Prop :=
      (ls ≠ [] → s.accessRoom s.cur kind size (ls.map fun l => (lane l).addr.toNat) = true →
        Gives (exec i s) (LaneAsks s · f (laneAsk s f kind dst lane))) ∧
      (ls = [] → Gives (exec i s) (LanePasses s · f))
    asks (.vld f) .load dest (fun l => { lane := l, addr := ea false l }) ∧
    asks (.vlds f) .load dest (fun l => { lane := l, addr := ea true l }) ∧
    asks (.vst f) .store .none (fun l => { lane := l, addr := ea false l, data := c l }) ∧
    asks (.vsts f) .store .none (fun l => { lane := l, addr := ea true l, data := c l }) ∧
    asks (.vatom f) (.amo aop (!noResult)) (if noResult then .none else dest)
      (fun l => { lane := l, addr := ea false l, data := c l }) ∧
    asks (.vcas f) (.amo .cas true) dest
      (fun l => { lane := l, addr := ea false l, data := c l, cmp := BitVec.ofNat 64 (old l) })

/-- R321, R323, R324: a remote access asks, for each lane of its mask, the offset, data and peer word of the lane; a lane of an atomic
that is not aligned, of a peer word that names no window of a module, or of a module without a route has failed with its cause. A
multicast asks one message for each member of its list, once no earlier store of its fragment may still change the list (R444). -/
def Sys2Proof.Claims.RemoteAccessIssue : Prop :=
  ∀ (s : State) (f : LaneFields), let ls := lanesOf s.lmask
    let size := LType.bits f.ty / 8
    let c (l : Nat) : Word := BitVec.ofNat 64 (s.srcC f l)
    let off (l : Nat) : Word := BitVec.ofNat 64 (s.src f f.vb 64 l)
    (∀ rop : Rop, rop = ropOf (f.imm.extractLsb' 0 4).toNat → ls ≠ [] → s.roomFor s.cur ls.length = true →
      Gives (exec (.vrma f) s) fun t => LaneGoes s t f ∧ t.mem = s.mem ∧ t.results = s.results ∧
        ∃ a : Access, t.accs = s.accs ++ [a] ∧ a.id = s.nextId ∧ a.frag = s.cur ∧ a.kind = .rma rop ∧ a.bytes = size ∧
          a.ord = f.md.getLsbD 0 ∧ a.order = modOrdering f ∧ a.flag = s.clause.flagOf f.fb ∧
          a.lanes.map (·.lane) = ls ∧ ∀ x ∈ a.lanes, x.addr = off x.lane ∧ x.data = c x.lane ∧
            x.peer = BitVec.ofNat 64 (s.src f f.va 32 x.lane) ∧
            let m := x.peer.toNat % 1024
            let datum : Word := BitVec.ofNat 64 (x.peer.toNat % 65536 * 281474976710656 + x.addr.toNat % 281474976710656)
            x.st = if rop ≠ .rd ∧ rop ≠ .wr ∧ x.addr.toNat % size ≠ 0 then .failed .align 1 datum
              else if 65536 ≤ x.peer.toNat ∨ x.peer.toNat / 1024 % 4 ≠ 0 ∨ 640 ≤ m then .failed .fabric 0x01 datum
              else if m ≠ s.moduleNo ∧ s.routeTo m = false then .failed .fabric 0x03 datum
              else .todo) ∧
    (ls = [] → Gives (exec (.vrma f) s) (LanePasses s · f)) ∧
    (let list := s.src f f.va 64 0
     let count := (f.imm.extractLsb' 0 7).toNat
     (ls = [] → Gives (exec (.vmcast f) s) (ScalarIssues s · f 0 0)) ∧
     (ls ≠ [] → 0 < count → s.clause.members = none → list % 4 = 0 → 0xFFFF0000000000 ≤ list →
      list + 4 * count ≤ 0xFFFF0000060000 →
      (s.listPending f = true → exec (.vmcast f) s = .next s) ∧
      (s.listPending f = false → (∀ i, i < count → s.poisoned (scratchKey s.myCore (list - 0xFFFF0000000000) + 4 * i) 4 = false) →
       s.roomFor s.cur count = true → Gives (exec (.vmcast f) s) fun t => LaneGoes s t f ∧ t.mem = s.mem ∧ t.results = s.results ∧
        ∃ a : Access, t.accs = s.accs ++ [a] ∧ a.id = s.nextId ∧ a.frag = s.cur ∧ a.kind = .mcast ∧
          a.lanes.map (fun x => (x.lane, x.peer)) = (List.range count).map (fun i =>
            (i, BitVec.ofNat 64 (readNat s.mem (scratchKey s.myCore (list - 0xFFFF0000000000) + 4 * i) 4))) ∧
          a.body.map (fun b => (b.lane, b.off, b.data)) = ls.map fun l => (l, off l, c l))))

/-- R312, R313, R329: a fence is outstanding exactly while an earlier access that it orders, or an earlier system call, is; a prefetch posts a record of each page
that its lanes miss in checks 1 to 3, whatever the page's U says, and makes no access; vexit takes its mask from LIVE and from the EXEC of every fragment of its phrase. -/
def Sys2Proof.Claims.LaneControls : Prop :=
  ∀ (s : State) (f : LaneFields),
    let kept (t : State) : Prop := t.mem = s.mem ∧ t.accs = s.accs ∧ t.results = s.results ∧ t.me.queue = issuedQueue s.me.queue ∧
      (∀ y : SReg, t.r y = s.r y) ∧ t.me.pc = s.me.pc
    ((∀ o ∈ s.laneOps, o.id < s.nextId) → Gives (exec (.vfence f) s) fun t => kept t ∧
      ((∃ o ∈ t.laneOps, o.id = s.nextId ∧ o.frag = s.cur ∧ o.kind = .fence (modOrdering f) ∧ o.flag = s.clause.flagOf f.fb) ↔
        (∃ b ∈ s.accs, b.frag = s.cur ∧ b.id < s.nextId ∧ fenceHolds (modOrdering f) b = true) ∨
        (∃ y ∈ s.syscs, y.frag = s.cur ∧ y.id < s.nextId ∧ y.orphan = false))) ∧
    (s.prefRoom f = true → Gives (exec (.vpref f) s) fun t => kept t ∧ t.phrases = (s.laneIssued f).phrases ∧
      ∀ l ∈ lanesOf s.lmask, ∀ vas, s.checkWith { s.asker s.cur with priv := true } [] .load 1 (s.laneAddr f false 4096 l).toNat = .miss vas → ∀ va ∈ vas,
        ∃ m ∈ (t.core (s.asker s.cur).core).misses, m.ctx = (s.asker s.cur).ctx ∧ m.va / 4096 = va / 4096) ∧
    Gives (exec (.vexit f) s) (fun t => t.mem = s.mem ∧ t.accs = s.accs ∧ t.me.queue = issuedQueue s.me.queue ∧
      (popsRing f = false → pushesRing f = false → t.myPhr.live = s.myPhr.live &&& ~~~s.lmask ∧
        ∀ q, q ≠ phraseOf s.cur → t.phr q = s.phr q) ∧
      (∀ k ∈ s.fragsOf (phraseOf s.cur), (t.frag k).exec = (s.frag k).exec &&& ~~~s.lmask) ∧
      ∀ k, k ≠ s.cur → k ∉ s.fragsOf (phraseOf s.cur) → t.frag k = s.frag k)

/-- R178, R179, R326: vsysc under a mask that is not empty and a ring that is not full takes the entry at the producer count: the
count goes on by one, and the entry holds its number, the mask, the call and the arguments of each lane; STATE is 1 when no earlier
access is to be released, else 0 as yet. No other byte changes. -/
def Sys2Proof.Claims.SystemCallPosts : Prop :=
  ∀ (s : State) (f : LaneFields), Memory.wf s.mem → s.lmask ≠ 0 → s.ringFull s.myCtx = false →
    let base := (s.ctx s.myCtx).scbase.toNat
    let seq := readNat s.mem base 8
    let e := base + 128 + 1152 * (seq % 2 ^ ((s.ctx s.myCtx).misc.extractLsb' 8 4).toNat)
    let nargs := (f.imm.extractLsb' 16 2).toNat
    let arg (n : Nat) (o : Operand) (l : Nat) : Nat := if n < nargs then s.src f o 64 l % 2 ^ 64 else 0
    let mine (b : Access) : Prop := b.frag = s.cur ∧ b.id < s.nextId ∧ fenceHolds ⟨.rel, .dev⟩ b = true
    Gives (exec (.vsysc f) s) fun t =>
      LaneGoes s t f ∧ t.accs = s.accs ∧ t.results = s.results ∧
      (∃ y : Sysc, t.syscs = s.syscs ++ [y] ∧ y.id = s.nextId ∧ y.frag = s.cur ∧ y.entry = e ∧ y.seq = seq ∧ y.mask = s.lmask ∧
        (readNat t.mem (e + 20) 1 = 0 ∧ y.posted = false ∧ (∃ b ∈ s.accs ++ s.held, mine b) ∨
         readNat t.mem (e + 20) 1 = 1 ∧ y.posted = true ∧ ∀ b ∈ s.accs ++ s.held, ¬mine b)) ∧
      (∃ o : LaneOp, t.laneOps = s.laneOps ++ [o] ∧ o.id = s.nextId ∧ o.frag = s.cur ∧ o.kind = .unit ∧ o.flag = s.clause.flagOf f.fb) ∧
      readNat t.mem base 8 = (seq + 1) % 2 ^ 64 ∧ readNat t.mem e 8 = seq ∧ readNat t.mem (e + 16) 4 = s.lmask.toNat ∧
      readNat t.mem (e + 21) 2 = (f.imm.extractLsb' 0 16).toNat ∧
      (∀ l ∈ lanesOf s.lmask, readNat t.mem (e + 128 + 32 * l) 8 = arg 0 f.va l ∧
        readNat t.mem (e + 136 + 32 * l) 8 = arg 1 f.vb l ∧ readNat t.mem (e + 144 + 32 * l) 8 = arg 2 f.vc l) ∧
      (∀ k, (k < base ∨ base + 8 ≤ k) → (k < e ∨ e + 1152 ≤ k) → readByte t.mem k = readByte s.mem k) ∧ Memory.wf t.mem

/-- R188, R356: with enough room vgwr writes the datum of each lane of its mask into the entry that REL names from the producer
pointer, and no other byte; with enough entries vgrd takes the value of each lane from the entry that REL names from the consumer
pointer. Neither moves a pointer; an earlier access of the fragment to those bytes
goes first (R444), and so does all that an acquire, a release or a fence puts before it (R273, R312, R448); a poisoned entry is not
read (R158). Without room or entries neither issues. -/
def Sys2Proof.Claims.GutterTransfers : Prop :=
  ∀ (s : State) (f : LaneFields) (x : Gutter), Memory.wf s.mem → s.gutter s.myCore (f.imm.extractLsb' 0 3).toNat = some x →
    let size := LType.bits f.ty / 8
    let rel := (f.imm.extractLsb' 4 8).toNat
    let entry := 2 ^ (x.desc.extractLsb' 36 4).toNat
    let slots := 2 ^ (x.desc.extractLsb' 32 4).toNat
    let o (l : Nat) : Nat := (f.imm.extractLsb' 12 14).toNat + (if f.vb = .v 0 then l * size else s.src f f.vb 32 l)
    let key (ptr : BitVec 16) (l : Nat) : Nat :=
      scratchKey s.myCore ((x.desc.extractLsb' 0 19).toNat + entry * ((ptr.toNat + rel) % slots) + o l)
    let present := (x.prod - x.cons).toNat
    let ls := lanesOf s.lmask
    let good := ∀ l ∈ ls, o l % size = 0 ∧ o l + size ≤ entry
    (x.desc.extractLsb' 54 2 = 0 → rel < slots - present → good → (∀ l ∈ ls, s.touchPending s.cur true (key x.prod l) size = false) →
      s.atOnce s.cur false true (ls.map fun l => ⟨key x.prod l, size, 0, 2⟩) = true → (∀ l ∈ ls, ∀ m ∈ ls, l ≠ m → o l + size ≤ o m ∨ o m + size ≤ o l) →
      Gives (exec (.vgwr f) s) fun t => LaneGoes s t f ∧ t.accs = s.accs ∧ t.results = s.results ∧ t.cores = s.cores ∧
        (∀ l ∈ ls, readNat t.mem (key x.prod l) size = s.srcC f l % 2 ^ LType.bits f.ty) ∧
        (∀ k, (∀ l ∈ ls, k < key x.prod l ∨ key x.prod l + size ≤ k) → readByte t.mem k = readByte s.mem k) ∧ Memory.wf t.mem) ∧
    (x.desc.extractLsb' 52 2 = 0 → rel < present → good → (∀ l ∈ ls, s.touchPending s.cur false (key x.cons l) size = false ∧ s.poisoned (key x.cons l) size = false) →
      s.atOnce s.cur false false (ls.map fun l => ⟨key x.cons l, size, 0, 2⟩) = true →
      Gives (exec (.vgrd f) s) fun t => t.cores = s.cores ∧
      LaneIssues s t f 0 f.ty (fun l => readNat s.mem (key x.cons l) size) (fun _ => []) 0) ∧
    (x.desc.extractLsb' 54 2 = 0 → slots - present ≤ rel → exec (.vgwr f) s = .next s) ∧
    (x.desc.extractLsb' 52 2 = 0 → present ≤ rel → exec (.vgrd f) s = .next s)

/-- R307, R309, R310: the lanes of a lane access are performed. A load writes its destination in its lanes, extended to 32 bits, and
nothing else of the lane registers or memory; a store writes the bytes of its lanes and no other byte; an atomic of one lane writes
the new value and returns the old one. The access is then no longer outstanding. -/
def Obligations.LaneAccessesComplete : Prop :=
  ∀ (s : State) (a : Access), LanesReady s a →
    let p := phraseOf a.frag
    let out (P : State → Prop) : Prop := Gives (exec (.laneAccessComplete a.id) s) fun t => P t ∧ t.findAcc a.id = none ∧
      (∀ q, q ≠ p → t.phr q = s.phr q) ∧ (∀ k, k ≠ a.frag → t.frag k = s.frag k) ∧ ∀ x : SReg, (t.frag a.frag).reg x = (s.frag a.frag).reg x
    let loaded (l : LaneAcc) : Nat := natOf (l.parts.flatMap fun q => readBytes s.mem q.key q.len)
    (∀ v ty, a.kind = .load → a.dest = .lane v ty → (∀ l ∈ a.lanes, (l.parts.map (·.len)).sum = a.bytes) →
      (a.bytes ≠ 8 → out fun t => t.mem = s.mem ∧
        (∀ l ∈ a.lanes, tget 0 (t.phr p).lanes (32 * v + l.lane) =
          if a.signed ∧ 2 ^ (8 * a.bytes) ≤ 2 * loaded l then BitVec.ofInt 32 ((loaded l : Int) - 2 ^ (8 * a.bytes))
          else BitVec.ofNat 32 (loaded l)) ∧
        ∀ i, (∀ l ∈ a.lanes, i ≠ 32 * v + l.lane) → tget 0 (t.phr p).lanes i = tget 0 (s.phr p).lanes i) ∧
      (a.bytes = 8 → out fun t => t.mem = s.mem ∧
        (∀ l ∈ a.lanes, tget 0 (t.phr p).lanes (32 * v + l.lane) = BitVec.ofNat 32 (loaded l) ∧
          tget 0 (t.phr p).lanes (32 * (v + 1) + l.lane) = BitVec.ofNat 32 (loaded l / 2 ^ 32)) ∧
        ∀ i, (∀ l ∈ a.lanes, i ≠ 32 * v + l.lane ∧ i ≠ 32 * (v + 1) + l.lane) →
          tget 0 (t.phr p).lanes i = tget 0 (s.phr p).lanes i)) ∧
    (a.kind = .store → Memory.wf s.mem → (a.lanes.flatMap (·.parts)).Pairwise (fun x y => ¬piecesMeet x y) →
      (∀ l ∈ a.lanes, (l.parts.map (·.len)).sum = a.bytes) → out fun t =>
        (∀ l ∈ a.lanes, (l.parts.flatMap fun q => readBytes t.mem q.key q.len) = bytesOf l.data.toNat a.bytes) ∧
        (∀ k, k ∉ pieceKeys (a.lanes.flatMap (·.parts)) → readByte t.mem k = readByte s.mem k) ∧ Memory.wf t.mem ∧
        (t.phr p).lanes = (s.phr p).lanes) ∧
    (∀ op l q v ty, a.kind = .amo op true → a.lanes = [l] → l.parts = [q] → q.len = a.bytes → a.bytes = 4 → a.dest = .lane v ty →
      Memory.wf s.mem →
      let old := readNat s.mem q.key 4
      let x := l.data.toNat % 2 ^ 32
      let signed (n : Nat) : Int := (BitVec.ofNat 32 n).toInt
      let new : Nat := match op with
        | .add => (old + x) % 2 ^ 32
        | .and => old &&& x
        | .or => old ||| x
        | .xor => old ^^^ x
        | .min => if signed x < signed old then x else old
        | .max => if signed old ≤ signed x then x else old
        | .minu => min old x
        | .maxu => max old x
        | .swap => x
        | .cas => if old = l.cmp.toNat % 2 ^ 32 then x else old
      out fun t => readNat t.mem q.key 4 = new ∧
        (∀ k, ¬(q.key ≤ k ∧ k < q.key + 4) → readByte t.mem k = readByte s.mem k) ∧
        tget 0 (t.phr p).lanes (32 * v + l.lane) = BitVec.ofNat 32 old ∧
        ∀ i, i ≠ 32 * v + l.lane → tget 0 (t.phr p).lanes i = tget 0 (s.phr p).lanes i)

/-! ### The matrix engine (R224, R332-R350, R546, R547) -/

/-- R333, R344-R350: a matrix instruction whose checks pass enters the engine's queue with the fields of its word, and its flag
stays set; mxlds and mxswap change the issue view of the descriptors, mxmma and mxcmma take a grant or ask for one. Tiles and
planes stand. -/
def Sys2Proof.Claims.MatrixIssue : Prop :=
  ∀ (s : State) (f : LaneFields),
    let core := s.myCore
    let eng := (s.core core).engine
    let slot := s.slotDesc f
    let g := (f.imm.extractLsb' 4 3).toNat
    let tile := (f.imm.extractLsb' 0 3).toNat
    let col := (f.imm.extractLsb' 16 5).toNat
    let cnt := (f.imm.extractLsb' 22 5).toNat + 1
    let aty := (f.imm.extractLsb' 27 2).toNat
    let holds := s.holdsToken (phraseOf s.cur) = true
    let feeds (out : Bool) (len : Nat) : Prop := ∃ x, s.gutter core g = some x ∧
      (if out then x.desc.extractLsb' 54 2 else x.desc.extractLsb' 52 2) = 2 ∧
      (x.desc.extractLsb' 43 9).toNat * 2 ^ (x.desc.extractLsb' 36 4).toNat = len
    let enters (t : State) (act : MxAct) (grant : Bool) : Prop :=
      (∃ o : LaneOp, t.laneOps = s.laneOps ++ [o] ∧ o.id = s.nextId ∧ o.frag = s.cur ∧ o.kind = .unit ∧ o.flag = s.clause.flagOf f.fb) ∧
      (∃ o : MxOp, (t.core core).engine.ops = eng.ops ++ [o] ∧ o.id = s.nextId ∧ o.frag = s.cur ∧ o.phrase = phraseOf s.cur ∧
        o.mask = s.lmask ∧ o.act = act ∧ o.fired = false ∧ o.grant = grant) ∧
      (t.core core).engine.tiles = eng.tiles ∧ (t.core core).engine.plane0 = eng.plane0 ∧ (t.core core).engine.plane1 = eng.plane1 ∧
      (t.core core).engine.act = eng.act ∧ t.me.queue = issuedQueue s.me.queue ∧ t.mem = s.mem ∧ t.accs = s.accs ∧
      t.results = s.results ∧ ∀ y : SReg, t.r y = s.r y
    let plane (len : Nat) : Prop := ∃ p, eng.issueDesc = some p ∧ matrixClass (slotEtype slot) = some p.cls ∧
      (p.cls = .h → slotEtype slot = p.etype.toNat) ∧ lenA slot p.k = len
    let mma (i : Instr) (cplx : Bool) : Prop := ∀ len, holds → plane len → feeds false len →
      (0 < s.myPhr.grants → Gives (exec i s) fun t => enters t (.mma g tile slot cplx) true ∧
        ∀ q, (t.phr q).grants = if q = phraseOf s.cur then s.myPhr.grants - 1 else (s.phr q).grants) ∧
      (s.myPhr.grants = 0 → Gives (exec i s) fun t => enters t (.mma g tile slot cplx) false ∧
        ∃ a : Ask, a.phrase = phraseOf s.cur ∧ a.op = some s.nextId ∧ a.need = 1 ∧
          (t.cluster (clusterOf core)).asks.Perm (a :: (s.cluster (clusterOf core)).asks))
    (holds → feeds false (lenB slot (ldsDesc f slot)) → Gives (exec (.mxlds f) s) fun t =>
      enters t (.lds g slot (ldsDesc f slot)) true ∧
      (if eng.iact then (t.core core).engine.idesc0 else (t.core core).engine.idesc1) = some (ldsDesc f slot)) ∧
    (holds → Gives (exec (.mxswap f) s) fun t => enters t .swap true ∧ (t.core core).engine.iact = !eng.iact) ∧
    mma (.mxmma f) false ∧ mma (.mxcmma f) true ∧
    (holds → Gives (exec (.mxzero f) s) (enters · (.zero tile) true)) ∧
    (∀ v, f.vd = .v v → Gives (exec (.mxrd f) s) (enters · (.rd tile col cnt aty slot v.toNat) true)) ∧
    (∀ v, f.va = .v v → LType.bits f.ty = 32 → holds → Gives (exec (.mxwr f) s) (enters · (.wr tile col cnt false
      ((List.range cnt).map fun j => (List.range 32).map fun l => BitVec.ofNat 64 (s.vreg (v.toNat + j) l))) true)) ∧
    (feeds true (lenOut slot cnt) → Gives (exec (.mxout f) s) (enters · (.out g tile col cnt aty slot) true))

/-- R345: a matrix instruction that fails a check takes the fault of the first failing one with its datum, and nothing enters the
engine. -/
def Sys2Proof.Claims.MatrixChecks : Prop :=
  ∀ (s : State) (f : LaneFields), s.laneCalm →
    let core := s.myCore
    let slot := s.slotDesc f
    let n := (f.imm.extractLsb' 4 3).toNat
    let holds := s.holdsToken (phraseOf s.cur) = true
    let d : Word := BitVec.ofNat 64 n
    (∀ i ∈ [Instr.mxlds f, .mxswap f, .mxmma f, .mxcmma f, .mxzero f, .mxwr f], ¬holds →
      Gives (exec i s) (LaneFails s · .mxfault 0x01 0)) ∧
    (s.gutter core n = none →
      (holds → ∀ i ∈ [Instr.mxlds f, .mxmma f, .mxcmma f], Gives (exec i s) (LaneFails s · .gutter 0x01 d)) ∧
      Gives (exec (.mxout f) s) (LaneFails s · .gutter 0x01 d)) ∧
    (∀ x, s.gutter core n = some x →
      (holds → x.desc.extractLsb' 52 2 ≠ 2 → ∀ i ∈ [Instr.mxlds f, .mxmma f, .mxcmma f],
        Gives (exec i s) (LaneFails s · .gutter 0x02 d)) ∧
      (x.desc.extractLsb' 54 2 ≠ 2 → Gives (exec (.mxout f) s) (LaneFails s · .gutter 0x02 d)) ∧
      (holds → x.desc.extractLsb' 52 2 = 2 → (s.core core).engine.issueDesc = none → ∀ i ∈ [Instr.mxmma f, .mxcmma f],
        Gives (exec i s) (LaneFails s · .mxfault 0x02 0)) ∧
      (holds → x.desc.extractLsb' 52 2 = 2 → ∀ p, (s.core core).engine.issueDesc = some p → matrixClass (slotEtype slot) ≠ some p.cls →
        ∀ i ∈ [Instr.mxmma f, .mxcmma f], Gives (exec i s)
          (LaneFails s · .mxfault 0x03 (BitVec.ofNat 64 (slotEtype slot + 256 * p.etype.toNat)))) ∧
      (let have' := (x.desc.extractLsb' 43 9).toNat * 2 ^ (x.desc.extractLsb' 36 4).toNat
       let r := lenB slot (ldsDesc f slot)
       holds → x.desc.extractLsb' 52 2 = 2 → have' ≠ r →
        Gives (exec (.mxlds f) s) (LaneFails s · .mxfault 0x04 (BitVec.ofNat 64 (r + 2 ^ 32 * have')))))

/-- R173, R333, R346, R347: the oldest operation that has not fired does, once its phrase is there and holds its grant, its gutter holds its entries (or
room), and no earlier one under way is in its way; a load or product takes its entries, which hold no poison, and its gutter's consumer
pointer goes on. On a frozen core it stays queued (R432).
R520: an operation fires ahead of an earlier one that has all that it needs and only waits for one under way with which it conflicts; that a
load may do so is stated, and that every operation may is the model's reading (log 84). -/
def Sys2Proof.Claims.MatrixFires : Prop :=
  (∀ (s : State) (core : Nat) (before after : List MxOp) (o : MxOp), (s.core core).engine.ops = before ++ o :: after →
    (∀ e ∈ before, e.fired = true) → (∀ e ∈ before ++ after, e.id ≠ o.id) → o.fired = false → o.grant = true →
    (∀ e ∈ before ++ after, e.fired = true → o.act.waitsFor e.act = false ∧ s.inputPending core o e = false) →
    s.mxPresent o = true →
    ((s.core core).frozen = true → exec (.matrixFire core) s = .next s) ∧
    ((s.core core).frozen = false → s.inputPoisoned core o.act = none →
    let fires (t : State) (input : List Byte) (cons : Option Nat) : Prop :=
      (∃ b, (t.core core).engine.ops = before ++ { o with fired := true, input := input, base := b } :: after) ∧ t.mem = s.mem ∧
      (∀ h x, s.gutter core h = some x → t.gutter core h = some (if cons = some h then
        { x with cons := x.cons + (x.desc.extractLsb' 43 9).setWidth 16 } else x)) ∧ t.phrases = s.phrases ∧ t.frags = s.frags
    (∀ g x, o.act.gutter = some g → s.gutter core g = some x →
      let fire := (x.desc.extractLsb' 43 9).toNat
      let present := (x.prod - x.cons).toNat
      ((o.act.unit = 0 ∨ o.act.unit = 1) → fire ≤ present →
        Gives (exec (.matrixFire core) s) (fires · (s.gutterBytes core x x.cons) (some g))) ∧
      (o.act.unit = 2 → fire ≤ 2 ^ (x.desc.extractLsb' 32 4).toNat - present → Gives (exec (.matrixFire core) s) (fires · [] none))) ∧
    (o.act.gutter = none → Gives (exec (.matrixFire core) s) (fires · [] none)))) ∧
  (∀ (s : State) (core : Nat) (r w o : MxOp) (after : List MxOp), (s.core core).engine.ops = r :: w :: o :: after →
    (∀ e ∈ r :: w :: after, e.id ≠ o.id) → r.fired = true → w.fired = false → o.fired = false → (s.core core).frozen = false →
    s.mxCan core w = true → w.act.waitsFor r.act = true → s.mxCan core o = true → o.act.waitsFor r.act = false →
    o.act.waitsFor w.act = false → s.inputPending core o r = false → s.mxMeet core o.act w.act = false → s.inputPoisoned core o.act = none →
    Gives (exec (.matrixFire core) s) fun t => ∃ o', (t.core core).engine.ops = r :: w :: o' :: after ∧ o'.id = o.id ∧ o'.act = o.act ∧
      o'.fired = true ∧ t.mem = s.mem ∧ t.phrases = s.phrases ∧ t.frags = s.frags)

/-- R346-R350: a fired operation completes. A load fills the shadow plane, a swap exchanges the planes, zero and write change the
named columns of the rows of the mask, a product adds to the accumulators of the rows of the mask, a read writes lane registers,
and an output writes its entries and moves the producer pointer. Everything else of the engine and memory stands, and the operation
is no longer outstanding. -/
def Sys2Proof.Claims.MatrixCompletes : Prop :=
  ∀ (s : State) (core : Nat) (o : MxOp), (s.core core).engine.ops.filter (·.fired) = [o] → (s.frag o.frag).ready = [] →
    let e := (s.core core).engine
    let rows := lanesOf o.mask
    let ends (t : State) : Prop := (∀ y ∈ (t.core core).engine.ops, y.id ≠ o.id) ∧ (∀ y ∈ t.laneOps, y.id ≠ o.id) ∧ t.accs = s.accs
    let tiles (t : State) (val : Nat → Nat → Nat → Nat) : Prop :=
      ends t ∧ t.mem = s.mem ∧ (t.core core).engine.act = e.act ∧ (t.core core).engine.activePlane = e.activePlane ∧
      ∀ tile row c, row < 32 → c < 32 → tileGet (t.core core).engine.tiles tile row c = val tile row c
    let old := tileGet e.tiles
    let out (P : State → Prop) : Prop := Gives (exec (.matrixComplete core) s) P
    (∀ g slot d, o.act = .lds g slot d → out fun t => ends t ∧ (t.core core).engine.tiles = e.tiles ∧ t.mem = s.mem ∧
      (t.core core).engine.act = e.act ∧ (t.core core).engine.activePlane = e.activePlane ∧
      (if e.act then (t.core core).engine.plane0 else (t.core core).engine.plane1) = loadPlane slot d o.input ∧
      (if e.act then (t.core core).engine.desc0 else (t.core core).engine.desc1) = some d) ∧
    (o.act = .swap → out fun t => ends t ∧ (t.core core).engine.tiles = e.tiles ∧ t.mem = s.mem ∧
      (t.core core).engine.act = !e.act ∧ (t.core core).engine.plane0 = e.plane0 ∧ (t.core core).engine.plane1 = e.plane1) ∧
    (∀ n, o.act = .zero n → out (tiles · fun tile row c => if tile = n ∧ row ∈ rows then 0 else old tile row c)) ∧
    (∀ n col cnt data, o.act = .wr n col cnt false data → col + cnt ≤ 32 → out (tiles · fun tile row c =>
      if tile = n ∧ row ∈ rows ∧ col ≤ c ∧ c < col + cnt then (nth 0 (nth [] data (c - col)) row).toNat % 2 ^ 32
      else old tile row c)) ∧
    (∀ g n slot p ta tb, o.act = .mma g n slot false → e.activeDesc = some p → p.cls ≠ .d → p.n ≤ 32 →
      elemOf (slotEtype slot) = some ta → elemOf p.etype.toNat = some tb →
      let w := storeBits (slotEtype slot)
      let row (i : Nat) : Sum :=
        { cls := p.cls, k := p.k,
          a := fun k => ta.value (slotFlush slot) (elemAt o.input w (i * p.k + k)),
          b := fun k n => tb.value p.flush (tget 0 e.activePlane (32 * k + n)).toNat,
          sa := fun j => scaleAt o.input (slotScaled slot) (32 * p.k * w / 8) p.k i j,
          sb := fun n j => if p.scaled then (tget 0 e.activePlane (4096 + 4 * n + j)).toNat else 0x7F,
          g := { slotRound slot with mode := (slotRound slot).mode.arith } }
      out (tiles · fun tile i c =>
        if tile = n ∧ i ∈ rows ∧ c < p.n then ((row i).cell c (old n i c)).1 % 2 ^ 32 else old tile i c)) ∧
    (∀ n col cnt aty slot vd q, o.act = .rd n col cnt aty slot vd → LType.bits (slotType slot) = 32 →
      tfind s.phrases o.phrase = some q → out fun t => ends t ∧ t.mem = s.mem ∧ (t.core core).engine.tiles = e.tiles ∧
        ∀ r l, l < 32 → tget 0 (t.phr o.phrase).lanes (32 * r + l) =
          if vd ≤ r ∧ r < vd + cnt ∧ l ∈ rows then
            BitVec.ofNat 32 (tileConvert slot (tileValue e.tiles n l (col + (r - vd)) aty)).1
          else tget 0 q.lanes (32 * r + l)) ∧
    (∀ g n col cnt aty slot x, o.act = .out g n col cnt aty slot → s.gutter core g = some x → Memory.wf s.mem →
      (x.desc.extractLsb' 43 9).toNat = 1 → (x.desc.extractLsb' 36 4).toNat ≤ 14 →
      let size := 2 ^ (x.desc.extractLsb' 36 4).toNat
      let key := scratchKey core (x.entry o.base 0)
      (outBytes e n col cnt aty slot).1.length = size →
      out fun t => ends t ∧ (t.core core).engine.tiles = e.tiles ∧ readBytes t.mem key size = (outBytes e n col cnt aty slot).1 ∧
        (∀ k, k < key ∨ key + size ≤ k → readByte t.mem k = readByte s.mem k) ∧
        t.gutter core g = some { x with prod := x.prod + 1 })

/-- R107, R336: mxtake takes a free token and otherwise waits; mxgive frees or passes the token that its phrase holds, and answers 0, 1
or 2. A token that passes to another context finds tiles and planes clear. -/
def Sys2Proof.Claims.TokenMoves : Prop :=
  ∀ (s : State) (sd sa : SReg),
    let core := s.myCore
    let p := phraseOf s.cur
    let eng := (s.core core).engine
    let on := s.me.pc + 4
    let passes (t : State) (q : Nat) : Prop := (t.core core).engine.token = some q ∧
      (t.core core).engine.lastCtx = some (s.phr q).ctx ∧ (t.core core).engine.ops = eng.ops ∧
      (if eng.lastCtx = none ∨ eng.lastCtx = some (s.phr q).ctx then (t.core core).engine.tiles = eng.tiles ∧
          (t.core core).engine.plane0 = eng.plane0 ∧ (t.core core).engine.plane1 = eng.plane1
        else (t.core core).engine.tiles = [] ∧ (t.core core).engine.plane0 = [] ∧ (t.core core).engine.plane1 = []) ∧
      t.mem = s.mem ∧ ∀ j, t.phr j = if j = q then { s.phr q with needTok := false } else s.phr j
    let answers (t : State) (v : Word) : Prop := t.me.pc = on ∧ ∀ y : SReg, t.r y = if y = sd ∧ y ≠ 0 then v else s.r y
    (s.holdsToken p = true → Gives (exec .mxtake s) (Moves s · on)) ∧
    (s.holdsToken p = false → eng.token = none → (∀ k ∈ eng.takers, phraseOf k ≠ p) → s.myPhr.core = core →
      Gives (exec .mxtake s) fun t => passes t p ∧ t.me = { s.me with pc := on }) ∧
    (s.holdsToken p = false → eng.token ≠ none → Gives (exec .mxtake s) fun t =>
      t.me = { s.me with wait := .token } ∧ (t.core core).engine = { eng with takers := eng.takers ++ [s.cur] } ∧ t.mem = s.mem) ∧
    (s.me.queue = [] →
      (s.holdsToken p = false → Gives (exec (.mxgive sd sa) s) (Writes s · sd 2)) ∧
      (s.holdsToken p = true → s.me.wait = .none →
        (s.r sa = 0 → eng.takers = [] → Gives (exec (.mxgive sd sa) s) fun t => answers t 0 ∧
          (t.core core).engine = { eng with token := none }) ∧
        (s.r sa ≠ 0 → s.onCore (s.r sa) = none → Gives (exec (.mxgive sd sa) s) (Writes s · sd 1)) ∧
        (∀ q, s.r sa ≠ 0 → s.onCore (s.r sa) = some q → Gives (exec (.mxgive sd sa) s) fun t => answers t 0 ∧ passes t q)))

/-- R224, R338, R546, R547: mxask asks its cluster's governor for what the bound allows and goes on; a tick adds the partition's quota to the
bucket, at most four times the quota, and serves the oldest ask first. -/
def Sys2Proof.Claims.Grants : Prop :=
  (∀ (s : State) (sa : SReg) (imm : BitVec 12),
    let n : Int := (s.r sa).toInt + imm.toInt
    let room := 65535 - s.myPhr.grants - s.asked (phraseOf s.cur)
    let c := clusterOf s.myCore
    let m := min n.toNat room
    (m = 0 → Gives (exec (.mxask sa imm) s) (Moves s · (s.me.pc + 4))) ∧
    (m ≠ 0 → Gives (exec (.mxask sa imm) s) fun t => t.me = { s.me with pc := s.me.pc + 4 } ∧ t.mem = s.mem ∧ t.phrases = s.phrases ∧
      ∃ a : Ask, a.phrase = phraseOf s.cur ∧ a.op = none ∧ a.need = m ∧
        (t.cluster c).asks.Perm (a :: (s.cluster c).asks) ∧ (t.cluster c).bucket = (s.cluster c).bucket)) ∧
  (∀ (s : State) (n c : Nat) (p : Part), s.ticks < s.dtime / 1000 → s.parts = [(n, p)] →
    (List.range 64).filter (fun d => p.bitmap.getLsbD d) = [c] → s.hot.getLsbD (c / 16) = false →
    let q := if p.pending = 0 then 1171 else 25 * p.pending
    let have' := min ((s.cluster c).bucket + q) (4 * q)
    Gives (exec .governorTick s) fun t => t.ticks = s.ticks + 1 ∧ (t.part n).budget = p.pending ∧ t.mem = s.mem ∧
      (∀ d, d ≠ c → t.cluster d = s.cluster d) ∧
      ((s.cluster c).asks = [] → (t.cluster c).bucket = have' ∧ (t.cluster c).asks = []) ∧
      ∀ a : Ask, (s.cluster c).asks = [a] → a.op = none →
        (t.phr a.phrase).grants = (s.phr a.phrase).grants + min a.need have' ∧ (t.cluster c).bucket = have' - a.need ∧
        (t.cluster c).asks = if have' < a.need then [{ a with need := a.need - have' }] else [])

/-! ### Nouns (R193, R380-R393) -/

/-- R382, R387, R389, R391, R392, R423, R424: a noun operation goes to the NDU with its noun, its value and its registers; the stream
goes on, or waits for the reply of njoin and kresume. An operation that releases is not delivered while an access of system scope
before it is outstanding. -/
def Obligations.NounSends : Prop :=
  ∀ (s : State) (sd sf sa sb : SReg) (n : BitVec 2) (force : Bool),
    let sends (act : NounAct) (rf : SReg) (t : State) (o : NounOp) : Prop :=
      t.nouns = s.nouns ++ [o] ∧ o.src = .frag s.cur sd rf s.me.pc ∧ o.ctx = s.myCtx ∧ o.act = act ∧ o.noun = s.r sa ∧
      o.msg = none ∧ s.nextId ≤ o.id ∧ t.mem = s.mem ∧ t.accs = s.accs ∧ ∀ y : SReg, t.r y = s.r y
    let goesOn (i : Instr) (act : NounAct) (released : Bool) : Prop := Gives (exec i s) fun t => ∃ o, sends act 0 t o ∧
      t.me.pc = s.me.pc + 4 ∧ t.me.wait = s.me.wait ∧
      (released = true → (∃ b ∈ s.accs, b.frag = s.cur ∧ b.id < s.nextId ∧ fenceHolds ⟨.rel, .sys⟩ b = true) → t.nounReady o = false)
    let waits (i : Instr) (act : NounAct) : Prop := Gives (exec i s) fun t => ∃ o, sends act sf t o ∧
      t.me.pc = s.me.pc ∧ t.me.wait = .reply o.id
    goesOn (.nwake sd sa) .wake true ∧
    goesOn (.nsignal sd sa sb) (.signal ((s.r sb).setWidth 16)) true ∧
    goesOn (.ndeposit sd sa sb n force) (.deposit n (s.r sb) force) true ∧
    goesOn (.ntest sd sa) .test false ∧
    goesOn (.kcancel sd sa) .cancel false ∧
    waits (.njoin sd sf sa) .join ∧
    waits (.kresume sd sf sa sb) (.resume (s.r sb))

/-- R193, R381-R386, R389, R391, R392: the delivery of an operation that can be delivered. A noun of another context, without an
entry, or without the right makes a NOUN fault; a stale noun answers 3, one of a wrong kind 4. Otherwise the state of the entry
decides: wakes, signals and deposits reach the running phrase, its saved image or its mailbox and answer 0, 1 or 2; ntest answers
the word of the entry; njoin answers for a DEAD target and else waits. A mailbox is written once its host page is translated; a port
that has gone, or has refused the page, answers 2, which is the model's choice (log 54), as is the value 0 of an njoin that answers 3 or
4 (log 88). R440: the nouns of a killed context are DEAD, with KILLED and the value 0. -/
def Obligations.NounDeliveries : Prop :=
  ∀ (s : State) (o : NounOp) (k : Nat) (sd sf : SReg) (pc : Word), (s.nouns.find? fun x => x.id == o.id) = some o →
    s.nounReady o = true → o.granted = false → o.src = .frag k sd sf pc → s.joinsSelf o = false →
    -- the copies of the entry, if any, are not stale
    (∀ c ∈ s.nounCache, c.ctx = (o.noun.extractLsb' 42 20).toNat → c.index = (o.noun.extractLsb' 0 34).toNat →
      ∃ a, s.leafOf o.noun = some a ∧ c.words = [BitVec.ofNat 64 (readNat s.mem a 8), BitVec.ofNat 64 (readNat s.mem (a + 8) 8)]) →
    let rest (t : State) : Prop := t.nouns = s.nouns.filter fun x => x.id != o.id
    let replied (t : State) (ws : List (SReg × Word)) (st : BitVec 32) : Prop := rest t ∧ ∃ y : Reply, t.replies = s.replies ++ [y] ∧
      y.id = o.id ∧ y.frag = k ∧ y.pc = pc ∧ y.writes = ws ∧ y.status = st ∧ y.exn = none
    let still (t : State) : Prop := t.mem = s.mem ∧ t.phrases = s.phrases ∧ t.frags = s.frags ∧ t.joins = s.joins
    let faulted (t : State) (sub : BitVec 8) : Prop := rest t ∧ still t ∧ ∃ y : Reply, t.replies = s.replies ++ [y] ∧ y.frag = k ∧ y.pc = pc ∧
      y.writes = [] ∧ y.exn = some { cause := .noun, sub := sub, mask := 0, data := o.noun, kind := .scalar }
    let out (P : State → Prop) : Prop := Gives (exec (.nounDelivery o.id) s) P
    let code (c : Nat) : List (SReg × Word) := if o.act.pair then [(sd, 0), (sf, BitVec.ofNat 64 c)] else [(sd, BitVec.ofNat 64 c)]
    (kindOk o.act (o.noun.extractLsb' 62 2).toNat = false → out fun t => replied t (code 4) 0 ∧ still t) ∧
    (kindOk o.act (o.noun.extractLsb' 62 2).toNat = true →
      ((o.noun.extractLsb' 42 20).toNat ≠ o.ctx → out (faulted · 0x01)) ∧
      ((o.noun.extractLsb' 42 20).toNat = o.ctx →
        (s.leafOf o.noun = none → out (faulted · 0x02)) ∧
        ∀ a, s.leafOf o.noun = some a →
         ((s.ctx o.ctx).killed = true →
          let w0 : Word := BitVec.ofNat 64 (readNat s.mem a 8)
          let st := (w0.extractLsb' 61 3).toNat
          st ≠ 0 → st ≠ 6 → st ≠ 7 → w0.extractLsb' 48 8 = o.noun.extractLsb' 34 8 → (w0.extractLsb' 56 5).toNat &&& o.act.right = o.act.right →
          (o.act = .join → out fun t => still t ∧ replied t [(sd, 0), (sf, (6 : Word) <<< 24 ||| 2 <<< 8)] 0) ∧
          (o.act ∈ [.wake, .cancel] ∨ (∃ b, o.act = .signal b) ∨ (∃ n v f, o.act = .deposit n v f) →
            out fun t => replied t [(sd, 2)] statusNoundead ∧ still t)) ∧
         ((s.ctx o.ctx).killed = false →
          let w0 : Word := BitVec.ofNat 64 (readNat s.mem a 8)
          let w1 : Word := BitVec.ofNat 64 (readNat s.mem (a + 8) 8)
          let st := (w0.extractLsb' 61 3).toNat
          let p := s.phraseByNoun o.noun
          ((st = 0 ∨ w0.extractLsb' 48 8 ≠ o.noun.extractLsb' 34 8) → out fun t => replied t (code 3) statusNoundead ∧ still t) ∧
          (st ≠ 0 → w0.extractLsb' 48 8 = o.noun.extractLsb' 34 8 →
            ((w0.extractLsb' 56 5).toNat &&& o.act.right ≠ o.act.right → out (faulted · 0x03)) ∧
            ((w0.extractLsb' 56 5).toNat &&& o.act.right = o.act.right → st ≠ 7 →
              (o.act = .test → out fun t => still t ∧ replied t [(sd,
                (w0.extractLsb' 56 5).setWidth 64 <<< 32 ||| (w0.extractLsb' 61 3).setWidth 64 <<< 24 |||
                (w0.extractLsb' 32 8).setWidth 64 <<< 16 ||| (w0.extractLsb' 40 8).setWidth 64 <<< 8)] 0) ∧
              (o.act = .join → st = 6 → out fun t => still t ∧ replied t [(sd, w1), (sf,
                (6 : Word) <<< 24 ||| (w0.extractLsb' 32 8).setWidth 64 <<< 16 ||| (w0.extractLsb' 40 8).setWidth 64 <<< 8)] 0) ∧
              (o.act = .join → st ≠ 6 → out fun t => rest t ∧ t.joins = s.joins ++ [⟨o.id, o.src, o.noun⟩] ∧ t.mem = s.mem ∧
                t.replies = s.replies ∧ t.phrases = s.phrases ∧ t.frags = s.frags) ∧
              (st = 6 → o.act ∈ [.wake, .cancel] ∨ (∃ b, o.act = .signal b) ∨ (∃ n v f, o.act = .deposit n v f) →
                out fun t => replied t [(sd, 2)] statusNoundead ∧ still t) ∧
              (st = 1 → (w1.extractLsb' 15 10).toNat = s.moduleNo → ∀ q, p = some q →
                (∀ b, o.act = .signal b → out fun t => replied t [(sd, 0)] 0 ∧ (t.phr q).sigp = (s.phr q).sigp ||| b ∧ t.frags = s.frags ∧
                  t.mem = s.mem) ∧
                (∀ n v f, o.act = .deposit n v f → (s.phr q).dpend.getLsbD n.toNat = false ∨ f = true → out fun t =>
                  replied t [(sd, 0)] 0 ∧ (t.frag (fragKey q 0)).reg (60 + n.setWidth 6) = v ∧ (t.phr q).dpend.getLsbD n.toNat = true ∧
                  t.mem = s.mem) ∧
                (∀ n v, o.act = .deposit n v false → (s.phr q).dpend.getLsbD n.toNat = true → out fun t =>
                  replied t [(sd, 1)] statusNounbusy ∧ still t) ∧
                (o.act = .wake → (∀ j ∈ s.fragsOf q, (s.frag j).wait ≠ .sleep) → out fun t => replied t [(sd, 0)] 0 ∧
                  (t.phr q).wakep = true ∧ t.frags = s.frags ∧ t.mem = s.mem) ∧
                (o.act = .wake → (s.fragsOf q).Nodup → ∀ j ∈ s.fragsOf q, (s.frag j).wait = .sleep → out fun t => rest t ∧ t.mem = s.mem ∧
                  (t.frag j).pc = (s.frag j).pc + 4 ∧ (t.frag j).wait = .none ∧ ∀ x : SReg, (t.frag j).reg x = (s.frag j).reg x)) ∧
              (Memory.wf s.mem → st = 2 ∨ st = 3 →
                let d := w1.toNat
                let h : Word := BitVec.ofNat 64 (readNat s.mem d 8)
                let head (t : State) (x : Word) : Prop := readNat t.mem d 8 = x.toNat ∧
                  t.phrases = s.phrases ∧ t.frags = s.frags
                (∀ b, o.act = .signal b → out fun t => replied t [(sd, 0)] 0 ∧ head t (h ||| b.setWidth 64 <<< 16) ∧
                  ∀ x, x < d ∨ d + 8 ≤ x → readByte t.mem x = readByte s.mem x) ∧
                (o.act = .wake → h.getLsbD 5 = false → out fun t => replied t [(sd, 0)] 0 ∧ head t (h ||| 0x10) ∧
                  ∀ x, x < d ∨ d + 8 ≤ x → readByte t.mem x = readByte s.mem x) ∧
                (∀ n v f, o.act = .deposit n v f → h.getLsbD n.toNat = false ∨ f = true → out fun t => replied t [(sd, 0)] 0 ∧
                  head t (h ||| BitVec.twoPow 64 n.toNat) ∧ readNat t.mem (d + 16 + 8 * n.toNat) 8 = v.toNat ∧
                  ∀ x, (x < d ∨ d + 8 ≤ x) → (x < d + 16 + 8 * n.toNat ∨ d + 24 + 8 * n.toNat ≤ x) → readByte t.mem x = readByte s.mem x) ∧
                (∀ n v, o.act = .deposit n v false → h.getLsbD n.toNat = true → out fun t =>
                  replied t [(sd, 1)] statusNounbusy ∧ still t)) ∧
              (st = 5 → o.act = .wake ∨ (∃ b, o.act = .signal b) ∨ (∃ n v f, o.act = .deposit n v f) →
                let side := s.hportOf o.ctx
                let page := w1.toNat / 4096
                (o.mailFail = true ∨ (s.hostPort side).gone = true → out fun t => replied t [(sd, 2)] statusNoundead ∧ still t) ∧
                (o.mailFail = false → (s.hostPort side).gone = false → s.atcHit side o.ctx page true = false →
                  (s.hostPort side).reqs = [] → out fun t => t.nouns = s.nouns ∧ t.replies = s.replies ∧ still t ∧
                    ∃ r ∈ (t.hostPort side).reqs, r.ctx = o.ctx ∧ r.page = page ∧ r.write = true ∧ r.pri = false) ∧
                (o.mailFail = false → (s.hostPort side).gone = false → s.atcHit side o.ctx page true = true → Memory.wf s.mem →
                  let d := s.hostAddr side o.ctx w1.toNat
                  let h : Word := BitVec.ofNat 64 (readNat s.mem d 8)
                  let head (t : State) (x : Word) : Prop := readNat t.mem d 8 = x.toNat ∧ t.phrases = s.phrases ∧ t.frags = s.frags
                  (∀ b, o.act = .signal b → out fun t => replied t [(sd, 0)] 0 ∧ head t (h ||| b.setWidth 64 <<< 16) ∧
                    ∀ x, x < d ∨ d + 8 ≤ x → readByte t.mem x = readByte s.mem x) ∧
                  (o.act = .wake → out fun t => replied t [(sd, 0)] 0 ∧ head t (h ||| 0x10) ∧
                    readNat t.mem (d + 8) 8 = (readNat s.mem (d + 8) 8 + 1) % 2 ^ 64 ∧
                    ∀ x, x < d ∨ d + 16 ≤ x → readByte t.mem x = readByte s.mem x) ∧
                  (∀ n v f, o.act = .deposit n v f → h.getLsbD n.toNat = false ∨ f = true → out fun t => replied t [(sd, 0)] 0 ∧
                    head t (h ||| BitVec.twoPow 64 n.toNat) ∧ readNat t.mem (d + 16 + 8 * n.toNat) 8 = v.toNat ∧
                    ∀ x, (x < d ∨ d + 8 ≤ x) → (x < d + 16 + 8 * n.toNat ∨ d + 24 + 8 * n.toNat ≤ x) → readByte t.mem x = readByte s.mem x) ∧
                  (∀ n v, o.act = .deposit n v false → h.getLsbD n.toNat = true → out fun t =>
                    replied t [(sd, 1)] statusNounbusy ∧ still t))))))))

/-- R380, R382: a reply without a fault arrives: its registers are written in order, its STATUS bits are added, and a fragment that
waits for it goes on. No other fragment changes. -/
def Sys2Proof.Claims.RepliesArrive : Prop :=
  ∀ (s : State) (y : Reply), (s.replies.find? fun x => x.id == y.id) = some y → y.exn = none → (s.frag y.frag).live = true →
    let f := s.frag y.frag
    let w : Bool := f.wait == .reply y.id
    Gives (exec (.replyArrival y.id) s) fun t =>
      (∀ x : SReg, (t.frag y.frag).reg x = (y.writes.foldl (fun v e => if e.1 = x ∧ x ≠ 0 then e.2 else v) (f.reg x))) ∧
      (t.frag y.frag).pc = (if w then f.pc + 4 else f.pc) ∧ (t.frag y.frag).wait = (if w then .none else f.wait) ∧
      (y.acq = none → (t.phr (phraseOf y.frag)).status = (s.phr (phraseOf y.frag)).status ||| y.status) ∧
      (t.replies.find? fun x => x.id == y.id) = none ∧ t.mem = s.mem ∧ ∀ j, j ≠ y.frag → t.frag j = s.frag j

/-- R25, R123, R390, R393: nsleep consumes a recorded wake and goes on, or sleeps; nexit, once its lane queue is empty and its flags are
clear, stops every fragment of its phrase with the exit value kept; retirement then ends the phrase, whose noun becomes DEAD with
EXITED and the exit value; a death notice does the same for a join that waits here. -/
def Sys2Proof.Claims.SleepAndDeath : Prop :=
  (∀ s : State,
    (s.myPhr.wakep = true → Gives (exec .nsleep s) fun t => t.myPhr.wakep = false ∧ t.me.pc = s.me.pc + 4 ∧ t.mem = s.mem ∧
      ∀ y : SReg, t.r y = s.r y) ∧
    (s.myPhr.wakep = false → Gives (exec .nsleep s) fun t => OnlyFrag s t s.cur ∧ t.me = { s.me with wait := .sleep })) ∧
  (∀ (s : State) (sa : SReg), s.me.queue = [] → s.allClear s.cur = true → s.me.tl = 0 → (s.myPhr.mate = none ∨ s.myPhr.isAux = true) →
    Gives (exec (.nexit sa) s) fun t => t.myPhr = { s.myPhr with leaving := .exited, exit := s.r sa } ∧ t.mem = s.mem ∧
      (∀ k ∈ s.fragsOf (phraseOf s.cur), t.frag k = { s.frag k with stopped := true }) ∧
      (∀ k, k ∉ s.fragsOf (phraseOf s.cur) → t.frag k = s.frag k) ∧ ∀ q, q ≠ phraseOf s.cur → t.phr q = s.phr q) ∧
  (∀ (s : State) (p a : Nat), s.retireReady p = true → (s.phr p).leaving = .exited → (s.phr p).mate = none → (s.phr p).course = none →
    s.inst (s.phr p).inst = none → s.holdsToken p = false → s.leafOf (s.phr p).noun = some a → s.joins = [] → Memory.wf s.mem →
    let w0 : Word := BitVec.ofNat 64 (readNat s.mem a 8)
    Gives (exec (.phraseRetire p) s) fun t => tfind t.phrases p = none ∧ (∀ k, phraseOf k = p → tfind t.frags k = none) ∧
      (∀ q, q ≠ p → t.phr q = s.phr q) ∧ (∀ k, phraseOf k ≠ p → t.frag k = s.frag k) ∧
      (BitVec.ofNat 64 (readNat t.mem a 8)).extractLsb' 61 3 = 6 ∧ (BitVec.ofNat 64 (readNat t.mem a 8)).extractLsb' 40 8 = 1 ∧
      (BitVec.ofNat 64 (readNat t.mem a 8)).extractLsb' 32 8 = 0 ∧
      (BitVec.ofNat 64 (readNat t.mem a 8)).extractLsb' 48 8 = w0.extractLsb' 48 8 ∧
      (BitVec.ofNat 64 (readNat t.mem a 8)).extractLsb' 56 5 = w0.extractLsb' 56 5 ∧
      readNat t.mem (a + 8) 8 = (s.phr p).exit.toNat ∧ ∀ x, x < a ∨ a + 16 ≤ x → readByte t.mem x = readByte s.mem x) ∧
  (∀ (s : State) (n exit : Word) (xs xc : BitVec 8) (k id : Nat) (sd sf : SReg) (pc : Word), s.leafOf n = none → s.applied = [] →
    s.joins = [⟨id, .frag k sd sf pc, n⟩] → (s.frag k).live = true → (s.frag k).wait = .reply id → sd ≠ 0 → sf ≠ 0 → sf ≠ sd →
    Gives (exec (.deathNotice n xs xc exit) s) fun t => t.joins = [] ∧ t.mem = s.mem ∧ (t.frag k).pc = (s.frag k).pc + 4 ∧
      (t.frag k).wait = .none ∧ (t.frag k).reg sd = exit ∧
      (t.frag k).reg sf = (6 : Word) <<< 24 ||| xc.setWidth 64 <<< 16 ||| xs.setWidth 64 <<< 8 ∧
      ∀ x : SReg, x ≠ sd → x ≠ sf → (t.frag k).reg x = (s.frag k).reg x)

/-! ### Constructions (R161, R182, R200, R202, R406-R423) -/

/-- R406, R407, R408: a builder whose operands name entries that are not EMPTY and whose parameter word is in range writes the lowest EMPTY
entry of its context's verb table and answers its index; otherwise it writes nothing and answers the first reason that applies. -/
def Sys2Proof.Claims.Builders : Prop :=
  ∀ (s : State) (sd sa sb sp : SReg), s.combWaits = false → Memory.wf s.mem →
    -- the copies of the context's entries, if any, are not stale
    (∀ c ∈ s.verbCache, c.ctx = s.myCtx →
      c.words = (List.range 4).map fun j => BitVec.ofNat 64 (readNat s.mem ((s.ctx s.myCtx).vtab.toNat + 32 * c.index + 8 * j) 8)) →
    let vtab := (s.ctx s.myCtx).vtab.toNat
    let kind (m : Mem) (i : Nat) : Nat := readNat m (vtab + 32 * i) 8 / 2 ^ 62
    let pw := s.r sp
    let param := (pw.extractLsb' 0 32).toNat
    let handler := (pw.extractLsb' 32 12).toNat
    let hv := pw.getLsbD 44
    let named (x : Nat) : Prop := x < 4096 ∧ kind s.mem x ≠ 0
    let answers (v : Word) (t : State) : Prop := (∃ y : Reply, t.replies = s.replies ++ [y] ∧ y.frag = s.cur ∧ y.writes = [(sd, v)] ∧ y.status = 0 ∧
      y.exn = none) ∧ t.me = { s.me with pc := s.me.pc + 4 }
    let fails (reason : Nat) (t : State) : Prop := answers (BitVec.ofNat 64 (2 ^ 63 + reason * 2 ^ 56)) t ∧ t.mem = s.mem
    let plain : Prop := param = 0
    let pipe : Prop := (∃ n, n ≤ 8 ∧ param % 512 = 2 ^ n) ∧ param / 512 % 128 = 0 ∧ 7 ≤ param / 65536 ∧ param / 65536 ≤ 14
    let builds (i : Instr) (comb : Nat) (ops : List Nat) (b : Nat) (inRange : Prop) : Prop :=
      let operands := (∀ x ∈ ops, named x) ∧ (hv = true → named handler)
      let good := inRange ∧ pw.toNat / 2 ^ 46 = 0 ∧ (hv = false → handler = 0) ∧ (pw.getLsbD 45 = true → comb = 3)
      (¬operands → Gives (exec i s) (fails 2)) ∧
      (operands → ¬good → Gives (exec i s) (fails 3)) ∧
      (operands → good → (∀ j, j < 4096 → kind s.mem j ≠ 0) → Gives (exec i s) (fails 1)) ∧
      ∀ e, e < 4096 → kind s.mem e = 0 → (∀ j, j < e → kind s.mem j ≠ 0) → operands → good → Gives (exec i s) fun t =>
        answers (BitVec.ofNat 64 e) t ∧ Memory.wf t.mem ∧
        readNat t.mem (vtab + 32 * e) 8 = 3 * 2 ^ 62 + comb * 2 ^ 59 + (s.r sa).toNat * 2 ^ 44 + b * 2 ^ 32 + handler * 2 ^ 20 +
          (if hv then 2 ^ 19 else 0) + (if pw.getLsbD 45 then 2 ^ 18 else 0) ∧
        readNat t.mem (vtab + 32 * e + 8) 8 = param ∧ readNat t.mem (vtab + 32 * e + 16) 8 = 0 ∧
        readNat t.mem (vtab + 32 * e + 24) 8 = 0 ∧
        ∀ k, k < vtab + 32 * e ∨ vtab + 32 * e + 32 ≤ k → readByte t.mem k = readByte s.mem k
    let a := (s.r sa).toNat
    let b := (s.r sb).toNat
    builds (.kseq sd sa sb sp) 0 [a, b] b plain ∧
    builds (.kpar sd sa sb sp) 1 [a, b] b plain ∧
    builds (.kpipe sd sa sb sp) 2 [a, b] b pipe ∧
    builds (.kfarm sd sa sp) 3 [a] 0 (1 ≤ param ∧ param ≤ 4096) ∧
    builds (.kloop sd sa sb sp) 4 [a, b] b plain

/-- R161, R210, R409, R410: kapply without a packet. A verb number above the table or an EMPTY entry answers BADPKT, a queue that is not
enabled or of another partition NOQ, a full one QFULL; otherwise the instance stands last in its context's queue with the default
packet, and the answer is its noun, or NORES when no room for its record (a free choice among the unused places, log 8) or no noun is left. -/
def Sys2Proof.Claims.Applies : Prop :=
  ∀ (s : State) (sd sa : SReg), s.combWaits = false →
    -- the copies of the context's entries, if any, are not stale
    (∀ c ∈ s.verbCache, c.ctx = s.myCtx →
      c.words = (List.range 4).map fun j => BitVec.ofNat 64 (readNat s.mem ((s.ctx s.myCtx).vtab.toNat + 32 * c.index + 8 * j) 8)) →
    let ctx := s.myCtx
    let v := (s.r sa).toNat
    let q := s.lqOf ctx
    let empty := readNat s.mem ((s.ctx ctx).vtab.toNat + 32 * v) 8 / 2 ^ 62 = 0
    let answers (x : Word) (t : State) : Prop := (∃ y : Reply, t.replies = s.replies ++ [y] ∧ y.frag = s.cur ∧ y.writes = [(sd, x)] ∧ y.status = 0 ∧
      y.exn = none) ∧ t.me = { s.me with pc := s.me.pc + 4 }
    let refused (code : Nat) : Prop := ∀ now, Gives (exec (.kapply sd sa 0 now) s) fun t =>
      answers (BitVec.ofNat 64 (0xFFFFFFFFFFFFFF00 + code)) t ∧ t.mem = s.mem ∧ t.lqs = s.lqs ∧ t.applied = s.applied
    let open' := (s.ctx ctx).killed = false ∧ (s.lq q).en = true ∧ (s.lq q).part = s.partOf ctx
    (4096 ≤ v → refused 0x12) ∧
    (v < 4096 → empty → refused 0x12) ∧
    (v < 4096 → ¬empty → ¬open' → refused 0x10) ∧
    (v < 4096 → ¬empty → open' → 256 ≤ (s.lq q).items.length → refused 0x11) ∧
    (v < 4096 → ¬empty → open' → (s.lq q).items.length < 256 → Gives (exec (.kapply sd sa 0 false) s) fun t =>
      let noRes : Prop := answers 0xFFFFFFFFFFFFFF14 t ∧ t.mem = s.mem ∧ t.lqs = s.lqs ∧ t.applied = s.applied
      match s.recordRoom with
      | none => noRes
      | some record => match s.drawn.allocNoun ctx 2 1 0x1F (BitVec.ofNat 64 record) with
        | none => noRes
        | some (noun, _) => answers noun t ∧ ∃ (i : Nat) (a : Applied), (t.lq q).items = (s.lq q).items ++ [i] ∧ t.inst i = some a ∧
          a.noun = noun ∧ a.ctx = ctx ∧ a.packet.verb = v ∧ a.packet.fsl = s.myPhr.fsl ∧ a.packet.arg = 0 ∧ a.packet.deadline = 0 ∧
          a.record = record ∧ a.queued = true)

/-- R182, R417-R421: kemit, ktake and kdone without a nest answer NOCHAN. At a farm's deques kemit refuses a payload, writes the record at
the tail of worker E mod n as READY and advances E and the tail; ktake takes the READY record of lowest SEQ of its own deque, or where that has
none the READY record of highest SEQ of the first of the next workers that has one, or answers NONE or DONE;
kdone frees the record that the phrase holds. At a channel kemit and ktake move one entry, or answer FULL, NONE or DONE.
Each waits while the engine of its deque or channel does not take it in this cycle (R156, R182). The places of HEAD, TAIL and E
in the claimed pages are the model's choice (log 18). -/
def Sys2Proof.Claims.TaskWords : Prop :=
  ∀ (s : State) (sd sf sa sb : SReg) (farm : Bool), s.combWaits = false →
    let answers (ws : List (SReg × Word)) (t : State) : Prop :=
      (∃ y : Reply, t.replies = s.replies ++ [y] ∧ y.frag = s.cur ∧ y.writes = ws ∧ y.exn = none) ∧ t.me = { s.me with pc := s.me.pc + 4 }
    let emits (st : Word) (m : Mem) : Prop := Gives (exec (.kemit sd sa sb farm) s) fun t => answers [(sd, st)] t ∧ t.mem = m
    let takes (task st : Word) (m : Mem) : Prop := Gives (exec (.ktake sd sf sa) s) fun t => answers [(sd, task), (sf, st)] t ∧ t.mem = m
    let dones (st : Word) (P : State → Prop) : Prop := Gives (exec (.kdone sd) s) fun t => answers [(sd, st)] t ∧ P t
    (s.myNest = none → emits 4 s.mem ∧ takes 0 4 s.mem ∧ dones 4 fun t => t.mem = s.mem) ∧
    ∀ a, s.myNest = some a →
      let node := s.myPhr.node
      let out := if farm then (farmAbove a.nodes node).map Port.farm else outputOf a.nodes node
      (out = none → emits 4 s.mem) ∧
      (s.emitHeld farm (s.r sb) = true → exec (.kemit sd sa sb farm) s = .next s) ∧
      (s.takeHeld = true → exec (.ktake sd sf sa) s = .next s) ∧ (s.doneHeld = true → exec (.kdone sd) s = .next s) ∧
      (∀ f x, out = some (.farm f) → a.node f = some x →
        let e := readNat s.mem (a.claimAddr x 0) 8
        let w := e % x.kids.length
        let tail := readNat s.mem (a.dequeWord x w 8) 8
        let r := a.recordAt x w (tail % 256)
        (s.r sb ≠ 0 → emits 5 s.mem) ∧
        (s.r sb = 0 → x.kids ≠ [] → readNat s.mem (r + 24) 1 = 0 → s.emitHeld farm (s.r sb) = false → emits 0 (pokes [(r, 8, (s.r sa).toNat), (r + 8, 8, 0), (r + 16, 8, e),
          (r + 24, 8, 1), (a.dequeWord x w 8, 8, tail + 1), (a.claimAddr x 0, 8, e + 1)] s.mem)) ∧
        (s.r sb = 0 → (∀ v, v < x.kids.length →
          readNat s.mem (a.recordAt x v (readNat s.mem (a.dequeWord x v 8) 8 % 256) + 24) 1 ≠ 0) → emits 1 s.mem)) ∧
      (∀ p x, out = some (.pipe p) → a.node p = some x → x.gutter = none →
        let prod := readNat s.mem (a.claimAddr x 0) 8
        let cons := readNat s.mem (a.claimAddr x 8) 8
        (x.depth ≤ prod - cons → emits 1 s.mem) ∧
        (prod - cons < x.depth → s.r sb = 0 → s.emitHeld farm (s.r sb) = false →
          let m := a.chanWrite x prod 0 (bytesOf (s.r sa).toNat 8 ++ List.replicate (2 ^ x.logsz - 8) 0) s.mem
          emits 0 (writeNat (a.claimAddr x 0) 8 (readNat m (a.claimAddr x 0) 8 + 1) m))) ∧
      (inputOf a.nodes node = none → takes 0 4 s.mem ∧ dones 4 fun t => t.mem = s.mem) ∧
      (∀ f x, inputOf a.nodes node = some (.farm f) → a.node f = some x →
        let noun := s.myPhr.noun
        let mine := heldRecord a x s.mem noun
        (mine ≠ none → takes 0 3 s.mem) ∧
        (let w := workerOf a.nodes f node
         let n := x.kids.length
         let at' (v i : Nat) : Nat := a.recordAt x v i
         let st (r : Nat) : Nat := readNat s.mem (r + 24) 1
         let seq (r : Nat) : Nat := readNat s.mem (r + 16) 8
         let takesIt (r : Nat) : Prop := takes (BitVec.ofNat 64 (readNat s.mem r 8)) 0 (pokes [(r + 8, 8, noun.toNat), (r + 24, 1, 2)] s.mem)
         mine = none → s.takeHeld = false → ∀ i, i < 256 →
          (st (at' w i) = 1 → (∀ j, j < 256 → j ≠ i → st (at' w j) = 1 → seq (at' w i) < seq (at' w j)) → takesIt (at' w i)) ∧
          (∀ d, d < n - 1 → (∀ j, j < 256 → st (at' w j) ≠ 1) → (∀ e, e < d → ∀ j, j < 256 → st (at' ((w + 1 + e) % n) j) ≠ 1) →
            let v := (w + 1 + d) % n
            st (at' v i) = 1 → (∀ j, j < 256 → j ≠ i → st (at' v j) = 1 → seq (at' v j) < seq (at' v i)) → takesIt (at' v i))) ∧
        (mine = none → dequePick a x s.mem (workerOf a.nodes f node) = none → feederOf a.nodes f = none →
          takes 0 (if ∀ r ∈ a.records x, readNat s.mem (r + 24) 1 = 0 then 2 else 1) s.mem) ∧
        (mine = none → dones 1 fun t => t.mem = s.mem) ∧
        (∀ r, mine = some r → s.doneHeld = false → Memory.wf s.mem → dones 0 fun t =>
          ((∀ w, r + 24 < a.dequeWord x w 0 ∨ a.dequeWord x w 0 + 8 ≤ r + 24) → readNat t.mem (r + 24) 1 = 0) ∧ ∀ k, (k < r + 24 ∨ r + 25 ≤ k) →
          (∀ w, k < a.dequeWord x w 0 ∨ a.dequeWord x w 0 + 8 ≤ k) → readByte t.mem k = readByte s.mem k)) ∧
      (∀ p x, inputOf a.nodes node = some (.pipe p) → a.node p = some x → x.gutter = none →
        let prod := readNat s.mem (a.claimAddr x 0) 8
        let cons := readNat s.mem (a.claimAddr x 8) 8
        (dones 4 fun t => t.mem = s.mem) ∧
        (prod ≤ cons → takes 0 (if stageEnded a.nodes x then 2 else 1) s.mem) ∧
        (cons < prod → s.r sa = 0 → s.takeHeld = false → s.poison = [] → takes (BitVec.ofNat 64 (natOf (a.chanBytes x s.mem cons 0 8))) 0
          (writeNat (a.claimAddr x 8) 8 (cons + 1) s.mem)))

/-- R422: kyield where it is not allowed takes ILLOP with its word. Where it is allowed, and everything of its phrase has drained, the
phrase leaves its core and its instance is suspended with the value. -/
def Sys2Proof.Claims.Yields : Prop :=
  ∀ (s : State) (sd sa : SReg) (a : Applied), s.inst s.myPhr.inst = some a →
    let p := phraseOf s.cur
    (s.mayTrap s.cur → s.mayYield = false →
      Gives (exec (.kyield sd sa) s) (Faults s · .illop 0 ((encodeScalar (.kyield sd sa)).setWidth 64))) ∧
    (s.mayYield = true → s.yieldWaits = false → s.saveGroup p = [p] → a.served = none → a.waiting = [] →
      Gives (exec (.kyield sd sa) s) fun t => (t.phr p).present = false ∧
        ∃ b, t.inst s.myPhr.inst = some b ∧ b.suspended = some (s.r sa) ∧ b.noun = a.noun)

/-! ### Units of the module (R29, R144, R163-R165, R177, R180, R184, R191, R236, R244, R415, R479, R563) -/

/-- R236, R244: the head clause of a fragment that may start, whose header's flags are clear and whose words pass their checks, starts with
its words, its length and TRAPEN; while a flag of its wait mask is set it is held; a header that is none, with no such flag set, takes ILLOP at the clause
with the clause mask and bits 95:32 of the word. -/
def Sys2Proof.Claims.ClauseStarts : Prop :=
  ∀ (s : State) (k : Nat) (c : Clause) (cs : List Clause) (hb : List Byte), s.mayStart k = true → (s.frag k).queue = c :: cs →
    (s.frag k).lfetch = .idle → s.fetchCode k c.addr 12 = (.code hb, s) →
    let word := BitVec.ofNat 96 (natOf hb)
    let p := phraseOf k
    (∀ h bs, decodeHeader word = some h → s.flagsClear k h.waitm = true →
      s.fetchCode k (c.addr + 12) (12 * h.len.toNat) = (.code bs, s) → clauseBad (s.phr p) h 1 (clauseWords h.len.toNat bs) = none →
      Gives (exec (.clauseStart k) s) fun t => OnlyFrag s t k ∧ t.frag k = { s.frag k with
        queue := { c with header := some h, code := clauseWords h.len.toNat bs, next := 1, last := h.len.toNat,
                          trapen := (s.phr p).trapen } :: cs }) ∧
    (∀ h, decodeHeader word = some h → s.flagsClear k h.waitm = false → exec (.clauseStart k) s = .next s) ∧
    (decodeHeader word = none → s.flagsClear k (headerWaitm word) = false → exec (.clauseStart k) s = .next s) ∧
    (decodeHeader word = none → (s.frag k).tl = 0 → (s.frag k).ready = [] → (s.frag k).wait = .none → (∀ a ∈ s.accs, a.frag ≠ k) →
      (∀ r ∈ s.results, r.frag ≠ k) → (∀ o ∈ s.laneOps, o.frag ≠ k) →
      let e : Exn :=
        { cause := .illop, sub := 0, mask := c.mask, data := word.extractLsb' 32 64, lane := true, pa := c.addr, kind := .laneStart }
      Gives (exec (.clauseStart k) s) fun t => Traps s.bump t k e (s.frag k).pc)

/-- R29, R144: the oldest queued fragment takes the lowest free slot of its core, or that of a fragment at smerge, which then holds
none (which of several is the model's reading: log 22); the oldest record that has not been given goes to the walker's d0 to d3 when
DPEND is zero, with DPEND and the wake bit set. -/
def Sys2Proof.Claims.SlotsAndRecords : Prop :=
  (∀ (s : State) (core k n : Nat) (ks ns : List Nat), (s.core core).asideQ = k :: ks → s.freeSlots core = n :: ns →
    Gives (exec (.asideSlotGrant core) s) fun t => (t.core core).asideQ = ks ∧ t.frag k = { s.frag k with slot := some n } ∧
      (∀ j, j ≠ k → t.frag j = s.frag j) ∧ t.mem = s.mem ∧ t.phrases = s.phrases) ∧
  (∀ (s : State) (core k j n : Nat) (ks : List Nat), (s.core core).asideQ = k :: ks → s.freeSlots core = [] → s.lender core = some j →
    j ≠ k → (s.frag j).slot = some n →
    Gives (exec (.asideSlotGrant core) s) fun t => (t.core core).asideQ = ks ∧ (t.frag k).slot = some n ∧ (t.frag j).slot = none ∧
      (t.frag j).wait = (s.frag j).wait ∧ (∀ i, i ≠ k → i ≠ j → t.frag i = s.frag i) ∧ t.mem = s.mem ∧ t.phrases = s.phrases) ∧
  (∀ (s : State) (core : Nat) (m : MissRec) (before after : List MissRec), (s.core core).misses = before ++ m :: after →
    (∀ x ∈ before, x.given = true) → m.given = false → (∀ x ∈ before ++ after, x.num ≠ m.num) → (s.core core).wDpend = 0 →
    let w := walkerKey core
    Gives (exec (.walkerRecordDeliver core) s) fun t =>
      (t.core core).misses = before ++ { m with given := true } :: after ∧ (t.core core).wDpend = 0xF ∧ (t.core core).wWake = true ∧
      (m.kind < 16 → (t.frag w).reg 60 = BitVec.ofNat 64 (m.kind * 2 ^ 60 + m.va % 2 ^ 56)) ∧
      (t.frag w).reg 61 = BitVec.ofNat 64 (m.lanes.toNat * 2 ^ 32 + (if m.priv then 2 ^ 12 else 0) + m.slot * 2 ^ 8 + (s.frag m.frag).num) ∧
      (t.frag w).reg 62 = BitVec.ofNat 64 m.ctx ∧ (t.frag w).reg 63 = BitVec.ofNat 64 m.tag ∧
      (∀ j, j ≠ w → t.frag j = s.frag j) ∧ t.mem = s.mem)

/-- R179, R180, R327: the service of a ring goes on by one of the steps that may be next. An entry whose release is performed is posted with
STATE 1; of the posted entries, that of lowest SEQ is taken with STATE 2, while fewer than eight are in service; an entry in service
ends with STATE 3: a call in its one lane answers 0 for
NULL, 0 or 1 for FREE, 0 or a free block of the size for ALLOC and all ones for a call that is not listed, and no other byte changes.
The results of an ended entry then go to the lanes of the destination pair, the entry is free, and the operation has ended. -/
def Sys2Proof.Claims.SystemCalls : Prop :=
  (∀ (s : State) (ctx : Nat), s.syscSteps ctx = [] → exec (.syscallServe ctx) s = .next s) ∧
  (∀ (s : State) (ctx : Nat), Memory.wf s.mem → s.syscSteps ctx ≠ [] →
    let state (t : State) (y : Sysc) (n : Nat) : Prop := readNat t.mem (y.entry + 20) 1 = n
    let still (t : State) (y : Sysc) : Prop := t.contexts = s.contexts ∧ ∀ k, k ≠ y.entry + 20 → readByte t.mem k = readByte s.mem k
    ∃ x ∈ s.syscSteps ctx, Gives (exec (.syscallServe ctx) s) fun t => match x with
    | .post y => s.postWaits y = false ∧ state t y 1 ∧ still t y ∧ ∀ z ∈ t.syscs, z.id = y.id → z.posted = true
    | .take y => y.posted = true ∧ (∀ z ∈ s.syscs, z.ctx = ctx → z.serving = false → z.done = false → y.seq ≤ z.seq) ∧
        (s.syscs.filter fun z => z.serving && !z.done).length < 8 ∧ state t y 2 ∧ still t y ∧
        ∀ z ∈ t.syscs, z.id = y.id → z.serving = true
    | .finish y => y.serving = true ∧ state t y 3 ∧ (∀ z ∈ t.syscs, z.id = y.id → z.done = true) ∧ ∀ l, l < 32 →
    lanesOf (BitVec.ofNat 32 (readNat s.mem (y.entry + 16) 4)) = [l] →
    let e := y.entry
    let call := readNat s.mem (e + 21) 2
    let a0 := readNat s.mem (e + 128 + 32 * l) 8
    let a1 := readNat s.mem (e + 136 + 32 * l) 8
    let blocks := (s.ctx y.ctx).allocs
      let r := readNat t.mem (e + 152 + 32 * l) 8
      (∀ k, k ≠ e + 20 → (k < e + 152 + 32 * l ∨ e + 160 + 32 * l ≤ k) → readByte t.mem k = readByte s.mem k) ∧
      (call = 0 → r = 0 ∧ t.contexts = s.contexts) ∧ (3 ≤ call → r = 2 ^ 64 - 1 ∧ t.contexts = s.contexts) ∧
      (call = 2 → (∃ b ∈ blocks, b.1 = a0) → r = 0 ∧ (t.ctx y.ctx).allocs = blocks.filter fun b => b.1 != a0) ∧
      (call = 2 → (∀ b ∈ blocks, b.1 ≠ a0) → r = 1 ∧ t.contexts = s.contexts) ∧
      (call = 1 → (a0 = 0 ∨ 2 ^ 30 < a0 ∨ 2 < a1) → r = 0 ∧ t.contexts = s.contexts) ∧
      (call = 1 → a0 ≠ 0 → a0 ≤ 2 ^ 30 → a1 ≤ 2 → r ≠ 0 → ∃ n, a0 ≤ n ∧ 4096 ≤ n ∧ n < max (2 * a0) 4097 ∧ (∃ j, n = 2 ^ j) ∧ r % n = 0 ∧
        (t.ctx y.ctx).allocs = blocks ++ [(r, n)] ∧ (s.ctx y.ctx).heap.1 ≤ r ∧ r + n ≤ (s.ctx y.ctx).heap.2 ∧
        ∀ b ∈ blocks, r + n ≤ b.1 ∨ b.1 + b.2 ≤ r)) ∧
  (∀ (s : State) (y : Sysc), (s.syscs.find? fun x => x.id == y.id) = some y → y.done = true → y.orphan = false →
    (s.phr (phraseOf y.frag)).present = true → (s.frag y.frag).ready = [] → Memory.wf s.mem →
    let p := phraseOf y.frag
    Gives (exec (.syscallResultCopy y.id) s) fun t =>
      (∀ l ∈ lanesOf y.mask, let r := readNat s.mem (y.entry + 152 + 32 * l) 8
        tget 0 (t.phr p).lanes (32 * y.vd + l) = BitVec.ofNat 32 r ∧
        tget 0 (t.phr p).lanes (32 * (y.vd + 1) + l) = BitVec.ofNat 32 (r / 2 ^ 32)) ∧
      (∀ l v, l < 32 → (l ∉ lanesOf y.mask ∨ (v ≠ y.vd ∧ v ≠ y.vd + 1)) →
        tget 0 (t.phr p).lanes (32 * v + l) = tget 0 (s.phr p).lanes (32 * v + l)) ∧
      (∀ x ∈ t.syscs, x.id ≠ y.id) ∧ (∀ o ∈ t.laneOps, o.id ≠ y.id ∨ o.kind ≠ .unit) ∧
      (y.entry + 20 < s.scbase y.ctx + 8 ∨ s.scbase y.ctx + 16 ≤ y.entry + 20 → readNat t.mem (y.entry + 20) 1 = 0))

/-- R163, R164, R415: the dispatcher places the next phrase of a waiting part of one phrase a place on a core with room, in a free slot of
it: the phrase has its noun, its lanes and its launch values. On which of the cores, and in which slot, the manual leaves open (log 82). An instance whose deadline has come without a placed phrase becomes late, and
with DROPLATE it dies with status LATE. -/
def Sys2Proof.Claims.Dispatching : Prop :=
  (∀ (s : State) (part i n : Nat) (a : Applied) (x : Node) (noun : Word), (s.part part).restores = [] →
    s.waitingParts part (s.headOfPart part) = [(i, n)] → s.inst i = some a → a.node n = some x → leafPipe a.nodes n = none →
    a.packet.cores = false → a.packet.coursesz = 0 → x.aux = false → x.placed < x.pcount →
    let open' := s.coresOpen i a n x (s.coresFor a)
    open' ≠ [] → (∀ loc, (s.allocNoun a.ctx 0 1 0xF loc).map (·.1) = some noun) →
    let lanes : Nat := if n = 0 ∧ (x.kind = .func ∨ x.kind = .coroutine) ∧ x.placed + 1 = x.pcount then a.packet.lastlanes else 32
    let live : Mask := BitVec.ofNat 32 (2 ^ lanes - 1)
    Gives (exec (.dispatch part) s) fun t => ∃ c ∈ open', ∃ k ∈ s.freeSlots c, s.coreRoom a.ctx c 1 x.regs = true ∧
      ∃ p, (t.phr p).noun = noun ∧ (t.phr p).core = c ∧ (t.phr p).present = true ∧
      (t.phr p).live = live ∧ (t.phr p).inst = i ∧ (t.phr p).index = x.placed ∧ (t.phr p).regs = x.regs ∧
      (t.phr p).fsl = a.packet.fsl ∧ (t.phr p).status = (if a.late then statusLate else 0) ∧
      let f := t.frag (fragKey p 0)
      f.pc = x.entry ∧ f.exec = live ∧ f.slot = some k ∧ f.tl = 0 ∧
      ∀ y : SReg, f.reg y = if y = 3 then x.arg else if y = 4 then BitVec.ofNat 64 x.placed else 0) ∧
  (∀ (s : State) (i : Nat) (a : Applied), s.inst i = some a → a.packet.deadline ≠ 0 → a.late = false → a.queued = true →
    a.anyPlaced = false → a.packet.deadline.toNat ≤ s.dtime →
    (a.packet.droplate = false → Gives (exec (.instanceLate i) s) fun t => t.inst i = some { a with late := true } ∧ t.mem = s.mem) ∧
    (a.packet.droplate = true → s.joins = [] → Memory.wf s.mem → ∀ leaf, s.leafOf a.noun = some leaf →
      Gives (exec (.instanceLate i) s) fun t => t.inst i = none ∧ i ∉ (t.lq a.lq).items ∧
        (BitVec.ofNat 64 (readNat t.mem leaf 8)).extractLsb' 61 3 = 6 ∧ (BitVec.ofNat 64 (readNat t.mem leaf 8)).extractLsb' 40 8 = 3))

/-- R479: the dispatcher consumes one entry of a partition's ready queue, and a phrase whose image is ready and restores by itself
then waits for a place; with OVERFLOW set and the queue empty it clears OVERFLOW and finds every such phrase of its contexts. -/
def Sys2Proof.Claims.ReadyQueues : Prop :=
  ∀ (s : State) (part : Nat), Memory.wf s.mem →
    let a := (s.part part).ready.toNat
    let prod := readNat s.mem a 8
    let cons := readNat s.mem (a + 8) 8
    a ≠ 0 →
    (cons < prod → Gives (exec (.readyQueueServe part) s) fun t =>
      let n : Word := BitVec.ofNat 64 (readNat s.mem (a + 128 + 8 * (cons % 1024)) 8)
      readNat t.mem (a + 8) 8 = cons + 1 ∧ (∀ k, k < a + 8 ∨ a + 16 ≤ k → readByte t.mem k = readByte s.mem k) ∧
      (t.autoReady n = true → n ∈ (t.part part).restores) ∧
      (t.autoReady n = false → (t.part part).restores = (s.part part).restores)) ∧
    (prod ≤ cons → (readNat s.mem (a + 16) 1).testBit 0 = true → Gives (exec (.readyQueueScan part) s) fun t =>
      (readNat t.mem (a + 16) 1).testBit 0 = false ∧ (∀ k, k ≠ a + 16 → readByte t.mem k = readByte s.mem k) ∧
      ∀ e ∈ s.contexts, e.2.resident = true → s.partOf e.1 = part → ∀ n ∈ t.readyNouns e.1, n ∈ (t.part part).restores)

/-- R190, R191, R563: a request whose record is aligned in a vault and names the context that it expects makes that context resident with
the registers of its record, their reserved bits zero; a request for another number, for a number that another record holds, or for one that
another module of the domain holds (which the model leaves open: log 19), changes nothing. That a request whose record stands elsewhere
is refused is the model's choice (log 31), and no clause here rests on it. -/
def Sys2Proof.Claims.Residency : Prop :=
  ∀ (s : State) (record n : Nat),
    let w (i : Nat) : Word := BitVec.ofNat 64 (readNat s.mem (record + 8 * i) 8)
    (((w 0).extractLsb' 0 20).toNat ≠ n → exec (.makeResident record n) s = .next s) ∧
    (∀ x, tfind s.contexts n = some x → x.killed = false → x.record ≠ record → exec (.makeResident record n) s = .next s) ∧
    (s.homeOf n = none ∨ exec (.makeResident record n) s = .next s) ∧
    (s.accepted 0 = true → record % 128 = 0 → record < 0x400000000 → ((w 0).extractLsb' 0 20).toNat = n → tfind s.contexts n = none →
      (s.contexts.filter fun e => e.2.resident && e.1 != n).length < 1024 → (s.homeOf n).isSome = true ∨ Gives (exec (.makeResident record n) s) fun t =>
        let x := t.ctx n
        x.resident = true ∧ x.record = record ∧ x.killed = false ∧ x.ctxw = w 0 &&& 0x80000007000FFFFF ∧ x.tvec = w 1 ∧ x.tsave = w 2 &&& ~~~0x1FF ∧
        x.hbase = w 3 &&& 0x00FFFFFFFFE00000 ∧ x.hlim = w 4 &&& 0x01FFFFFFFFE00000 ∧ x.hoff = w 5 &&& 0x000FFFFFFFE00007 ∧ x.vtab = w 6 ∧ x.ntab = w 7 ∧ x.ptab = w 8 ∧ x.scbase = w 9 ∧ x.misc = w 10 &&& 0x10F3F ∧ x.flist = w 11 ∧
        (∀ m, m ≠ n → t.ctx m = s.ctx m) ∧ t.mem = s.mem)

/-- R177: a migration to which nothing was forwarded ends: at its arrival on this module the image lies at the new address
(on another, its bytes have left this one), at its abandonment at the
old one, and the noun is SAVED with that address. -/
def Sys2Proof.Claims.MigrationsEnd : Prop :=
  ∀ (s : State) (g : Migration) (image leaf : Nat), s.migs = [g] → g.fwd = [] → s.nouns = [] → s.host.cs = [] → Memory.wf s.mem →
    let saved (t : State) (at' : Nat) : Prop := t.migs = [] ∧ (BitVec.ofNat 64 (readNat t.mem leaf 8)).extractLsb' 61 3 = 2 ∧
      readNat t.mem (leaf + 8) 8 = at' % 2 ^ 64
    (s.leafOf g.noun = some leaf → Gives (exec (.migrationAbandon g.noun) s) fun t => saved t g.image ∧
      ∀ k, k < leaf ∨ leaf + 16 ≤ k → readByte t.mem k = readByte s.mem k) ∧
    (s.leafOf g.noun = some leaf → moduleOfLoc g.dest ≠ s.moduleNo → Gives (exec (.migrationArrival g.noun image) s) fun t => saved t image ∧
      ∀ k, k < leaf ∨ leaf + 16 ≤ k → readByte t.mem k = readByte s.mem k) ∧
    (let n := imageLenAt s.mem g.image
     moduleOfLoc g.dest = s.moduleNo →
     (s.updMem (moveBytes g.image image n)).leafOf g.noun = some leaf → (leaf + 16 ≤ image ∨ image + n ≤ leaf) →
      Gives (exec (.migrationArrival g.noun image) s) fun t => saved t image ∧ readBytes t.mem image n = readBytes s.mem g.image n)

/-! ### Context-switch commands (R470, R471, R478, R485) -/

/-- R485: a doorbell of a slot whose earlier command has completed starts the command of its row: it is busy, and while an unfinished
command of another slot names its phrase it has done nothing. A doorbell of a busy slot, or of a slot with another OP, does nothing.
A malformed command ends with status 2 (what makes one malformed is the model's reading: log 31). -/
def Sys2Proof.Claims.CommandsStart : Prop :=
  ∀ (s : State) (slot : BitVec 4) (i : Instr) (op : Nat) (whole : Bool),
    (i, op, whole) ∈ [(Instr.save slot, 1, false), (.saveWholectx slot, 1, true), (.swapout slot, 2, false), (.swapoutWholectx slot, 2, true),
      (.swapin slot, 3, false), (.swapinWholectx slot, 3, true), (.migrate slot, 4, false), (.restore slot, 5, false)] →
    let c := s.cs slot.toNat
    let u : State := (s.updCs slot.toNat fun c => { c with busy := true, num := s.nextId, begun := false, status := none, result := 0 }).bump
    ((c.op.toNat ≠ op ∨ c.flags.getLsbD 0 ≠ whole ∨ c.busy = true) → exec i s = .next s) ∧
    (c.op.toNat = op → c.flags.getLsbD 0 = whole → c.busy = false → u.csWaits slot.toNat = true → exec i s = .next u) ∧
    (c.op.toNat = op → c.flags.getLsbD 0 = whole → c.busy = false → u.csWaits slot.toNat = false → u.cs slot.toNat = { c with
        busy := true, num := s.nextId, begun := false, status := none, result := 0 } ∧
      (c.malformed = true → Gives (exec i s) fun t => t.mem = s.mem ∧ t.phrases = s.phrases ∧ t.frags = s.frags ∧
        (t.cs slot.toNat).status = some 2))

/-- R470, R471, R485: SAVE of a running phrase whose fragments have drained takes it off its core with status 0, and stops it while
they have not; SAVE of a phrase that does not run ends with status 1, at an area that is not a vault's with 4. With WHOLECTX it does so
for every running phrase of the context, and writes the directory: the counts of phrases and cores, the total length, and each
phrase's noun with the offset of its image, in increasing noun index. An area that is too small gives status 4. -/
def Sys2Proof.Claims.Saves : Prop :=
  ∀ (s : State) (slot : BitVec 4), let c := s.cs slot.toNat
    let n := slot.toNat
    c.op = 1 → c.busy = false → c.malformed = false →
    let u : State := (s.updCs n fun c => { c with busy := true, num := s.nextId, begun := false, status := none, result := 0 }).bump
    u.csWaits n = false →
    (c.flags.getLsbD 0 = false → ∀ l, s.csTarget c.target = .ok l →
      (l.state ≠ 1 → Gives (exec (.save slot) s) fun t => (t.cs n).status = some 1 ∧ t.phrases = s.phrases ∧ t.mem = s.mem) ∧
      (∀ p, l.state = 1 → s.phraseByNoun c.target = some p → s.saveGroup p = [p] → s.mainOf p = p → (s.phr p).leaving = .no →
        (s.phr p).present = true →
        (c.addr.toNat % 4096 ≠ 0 → Gives (exec (.save slot) s) fun t => (t.cs n).status = some 4 ∧ t.phrases = s.phrases ∧ t.mem = s.mem) ∧
        (vaultArea c.addr.toNat (u.groupSize p) = true → (u.stopGroup p).allDrained [p] = false → Gives (exec (.save slot) s) fun t =>
          (t.cs n).busy = true ∧ (t.cs n).status = none ∧ (∀ k ∈ s.fragsOf p, (t.frag k).stopped = true) ∧ t.phrases = s.phrases ∧
          t.mem = s.mem) ∧
        (vaultArea c.addr.toNat (u.groupSize p) = true → (u.stopGroup p).allDrained [p] = true → Gives (exec (.save slot) s) fun t =>
          (t.cs n).status = some 0 ∧ (t.phr p).present = false))) ∧
    (let ps := s.runningOf c.target.toNat
     let v := ps.foldl (fun s p => s.stopPhrase p) u
     c.flags.getLsbD 0 = true → (∃ x, tfind s.contexts c.target.toNat = some x ∧ x.killed = false) → Memory.wf s.mem →
      (∀ e ∈ s.phrases, e.2.ctx = c.target.toNat → e.2.present = true → e.2.gone = true ∨ e.2.leaving = .no) →
      let cores := (ps.map fun p => (s.phr p).core).eraseDups
      let dir := alignUp (64 + 16 * (ps.length + cores.length)) 4096
      let upTo (j : Nat) : Nat := (ps.take j).foldl (fun n p => n + alignUp (v.imageSize p) 4096) dir
      let total := upTo ps.length + 0x6C000 * cores.length
      let a := c.addr.toNat
      (v.allDrained ps = false → Gives (exec (.saveWholectx slot) s) fun t => (t.cs n).busy = true ∧ (t.cs n).status = none ∧
        (∀ p ∈ ps, ∀ k ∈ s.fragsOf p, (t.frag k).stopped = true) ∧ t.phrases = s.phrases ∧ t.mem = s.mem) ∧
      (v.allDrained ps = true → (vaultArea a total = false ∨ c.limit.toNat < total) → Gives (exec (.saveWholectx slot) s) fun t =>
        (t.cs n).status = some 4 ∧ t.phrases = s.phrases ∧ t.mem = s.mem ∧ ∀ p ∈ ps, ∀ k ∈ s.fragsOf p, (t.frag k).stopped = false) ∧
      (v.allDrained ps = true → vaultArea a total = true → total ≤ c.limit.toNat → Gives (exec (.saveWholectx slot) s) fun t =>
        (t.cs n).status = some 0 ∧ (∀ p ∈ ps, (t.phr p).present = false) ∧ readNat t.mem a 8 = ps.length ∧
        readNat t.mem (a + 8) 8 = cores.length ∧ readNat t.mem (a + 16) 8 = total ∧
        ∀ j p, ps[j]? = some p → readNat t.mem (a + 64 + 16 * j) 8 = (s.phr p).noun.toNat ∧ readNat t.mem (a + 72 + 16 * j) 8 = upTo j)) ∧
    (c.flags.getLsbD 0 = true → (∃ x, tfind s.contexts c.target.toNat = some x ∧ x.killed = false) → s.runningOf c.target.toNat = [] →
      (∀ e ∈ s.phrases, e.2.ctx = c.target.toNat → e.2.present = false ∨ e.2.gone = true) → Memory.wf s.mem →
      vaultArea c.addr.toNat 4096 = true → 4096 ≤ c.limit.toNat →
      Gives (exec (.saveWholectx slot) s) fun t => (t.cs n).status = some 0 ∧ readNat t.mem c.addr.toNat 8 = 0 ∧
        readNat t.mem (c.addr.toNat + 8) 8 = 0 ∧ readNat t.mem (c.addr.toNat + 16) 8 = 4096 ∧
        ∀ k, k < c.addr.toNat ∨ c.addr.toNat + 64 ≤ k → readByte t.mem k = readByte s.mem k)

/-- R384, R471-R474: what a SAVE of one phrase writes. The noun becomes SAVED with the address of its image. The delivery header holds the
noun, the pending bits and the deposit registers; the phrase header LIVE, STATUS, TRAPEN, COURSE, REGS and AUTORESTORE; the record of each
fragment, at the place of its number, its scalar registers, PC, EXEC, TL and flags; and LREGS the lane registers. With the last phrase of
its context on the core, the core's scratch follows at the next page (log 27). -/
def Sys2Proof.Claims.SavedImages : Prop :=
  ∀ (s : State) (slot : BitVec 4) (p leaf : Nat) (l : Leaf), let c := s.cs slot.toNat
    let n := slot.toNat
    let a := c.addr.toNat
    let q := s.phr p
    let u : State := (s.updCs n fun c => { c with busy := true, num := s.nextId, begun := false, status := none, result := 0 }).bump
    let v := u.stopGroup p
    let size := v.imageSize p
    let fl := (s.ctx q.ctx).flist.toNat
    c.op = 1 → c.flags.getLsbD 0 = false → c.busy = false → c.malformed = false → u.csWaits n = false → s.csTarget c.target = .ok l → l.state = 1 →
    s.phraseByNoun c.target = some p → q.noun = c.target → s.saveGroup p = [p] → s.mainOf p = p → q.leaving = .no → q.present = true →
    vaultArea a (u.groupSize p) = true → v.allDrained [p] = true → Memory.wf s.mem →
    -- the image lies clear of the fault list and of the noun's entry
    (fl = 0 ∨ ∀ k, fl ≤ k → k < fl + 128 + 32 * readNat s.mem (fl + 4) 4 → k < a ∨ a + size ≤ k) → (leaf + 16 ≤ a ∨ a + u.groupSize p ≤ leaf) →
    (v.writeImage p a (c.flags.getLsbD 1)).leafOf c.target = some leaf →
    Gives (exec (.save slot) s) fun t => (t.cs n).status = some 0 ∧ (t.phr p).present = false ∧
      (BitVec.ofNat 64 (readNat t.mem leaf 8)).extractLsb' 61 3 = 2 ∧ readNat t.mem (leaf + 8) 8 = a ∧
      let w (i k : Nat) : Nat := readNat t.mem (a + i) k
      w 8 8 = q.noun.toNat ∧ w 0 1 % 16 = q.dpend.toNat ∧ ((w 0 1).testBit 4 = q.wakep) ∧ w 2 2 = q.sigp.toNat ∧
      ((w 0 1).testBit 5 = true ↔ ∃ k ∈ s.fragsOf p, (s.frag k).wait = .sleep) ∧
      (∀ i, i < 4 → w (16 + 8 * i) 8 = ((s.frag (fragKey p 0)).reg (BitVec.ofNat 6 (60 + i))).toNat) ∧
      w 0x40 8 = q.instN.toNat ∧ w 0x48 4 = q.live.toNat ∧ w 0x50 4 = q.status.toNat ∧ w 0x54 4 = q.trapen.toNat ∧
      w 0x58 4 = (q.course.getD 0xFFFFFFFF).toNat ∧ w 0x5E 2 = q.regs % 65536 ∧ ((w 0x68 1).testBit 2 = c.flags.getLsbD 1) ∧
      (∀ k ∈ s.fragsOf p, (s.frag k).num < 32 → (∀ j ∈ s.fragsOf p, (j ≠ k → (s.frag j).num ≠ (s.frag k).num) ∧
          (entries (s.frag j).queue).length ≤ 32 ∧ (entries (s.frag j).img1.queue).length ≤ 32 ∧ (entries (s.frag j).img2.queue).length ≤ 32) →
        let r := 0x1000 + 0x2000 * (s.frag k).num
        (∀ i, i < 64 → w (r + 8 * i) 8 = ((s.frag k).reg (BitVec.ofNat 6 i)).toNat) ∧ w (r + 0x200) 8 = (s.frag k).pc.toNat ∧
        w (r + 0x208) 4 = (s.frag k).exec.toNat ∧ w (r + 0x20C) 1 = (s.frag k).tl.toNat ∧
        ∀ b : Fin 12, (w (r + 0x20E) 2).testBit b.val = s.flagSet k b.val) ∧
      (q.mate = none → (∀ j ∈ s.fragsOf p, (s.frag j).num < 32 ∧
          (entries (s.frag j).queue).length ≤ 32 ∧ (entries (s.frag j).img1.queue).length ≤ 32 ∧ (entries (s.frag j).img2.queue).length ≤ 32) →
        (q.lanes.map (·.1)).Nodup → (∀ e ∈ q.lanes, e.1 < 32 * q.regs) → ∀ i, i < 32 * q.regs →
        w (0x41000 + 4 * i) 4 = (tget 0 q.lanes i).toNat) ∧
      (((v.writeImage p a (c.flags.getLsbD 1)).takeOff p).lastOn q.ctx q.core = true →
        fl + 128 + 32 * readNat s.mem (fl + 4) 4 ≤ 0x400000000 → leaf + 16 ≤ 0x400000000 →
        readBytes t.mem (a + alignUp size 4096) 0x60000 = readBytes s.mem (scratchKey q.core 0) 0x60000)

/-- R195, R470, R485: SWAPOUT moves the image of a SAVED phrase to pool memory and makes its noun SWAPPED, SWAPIN moves it back; either
ends with status 1 for a phrase in another state and with 4 at an area that is not aligned. A phrase moves with its auxiliary, image after
image (R36). With WHOLECTX, a context without such images gets an empty directory. -/
def Sys2Proof.Claims.Swaps : Prop :=
  ∀ (s : State) (slot : BitVec 4) (out : Bool), let c := s.cs slot.toNat
    let n := slot.toNat
    let i : Instr := if out then .swapout slot else .swapin slot
    let iw : Instr := if out then .swapoutWholectx slot else .swapinWholectx slot
    let from' := if out then 2 else 3
    let goal := if out then 3 else 2
    let a := c.addr.toNat
    c.op = (if out then 2 else 3) → c.busy = false → c.malformed = false → Memory.wf s.mem →
    let u : State := (s.updCs n fun c => { c with busy := true, num := s.nextId, begun := false, status := none, result := 0 }).bump
    u.csWaits n = false →
    (c.flags.getLsbD 0 = false → ∀ l, s.csTarget c.target = .ok l →
      (l.state ≠ from' → Gives (exec i s) fun t => (t.cs n).status = some 1 ∧ t.mem = s.mem) ∧
      (l.state = from' → a % 4096 ≠ 0 → Gives (exec i s) fun t => (t.cs n).status = some 4 ∧ t.mem = s.mem) ∧
      (l.state = from' → let ns := s.nounGroup c.target from'
        u.swapArea out a (ns.foldl (fun n x => n + alignUp (imageLenAt s.mem (s.imageOf x)) 4096) 0) = true →
        Gives (exec i s) fun t => (t.cs n).status = some 0 ∧ t.mem = (s.moveImages ns goal a).1.mem) ∧
      (l.state = from' → s.nounGroup c.target from' = [c.target] → ∀ leaf, s.leafOf c.target = some leaf →
        let src := s.imageOf c.target
        let len := imageLenAt s.mem src
        u.swapArea out a (alignUp len 4096) = true → (s.updMem (moveBytes src a len)).leafOf c.target = some leaf →
        (leaf + 16 ≤ a ∨ a + len ≤ leaf) →
        Gives (exec i s) fun t => (t.cs n).status = some 0 ∧ readBytes t.mem a len = readBytes s.mem src len ∧
          (BitVec.ofNat 64 (readNat t.mem leaf 8)).extractLsb' 61 3 = BitVec.ofNat 3 goal ∧ readNat t.mem (leaf + 8) 8 = a ∧
          ∀ k, (k < a ∨ a + len ≤ k) → (k < leaf ∨ leaf + 16 ≤ k) → readByte t.mem k = readByte s.mem k)) ∧
    (c.flags.getLsbD 0 = true → (∃ x, tfind s.contexts c.target.toNat = some x ∧ x.killed = false) → s.nounsAt c.target.toNat from' = [] →
      ((s.ctx c.target.toNat).cores.filter fun e => inVault e.2.addr == out) = [] → u.swapArea out a 4096 = true → 4096 ≤ c.limit.toNat →
      Gives (exec iw s) fun t => (t.cs n).status = some 0 ∧ readNat t.mem a 8 = 0 ∧ readNat t.mem (a + 8) 8 = 0 ∧
        readNat t.mem (a + 16) 8 = 4096 ∧ ∀ k, k < a ∨ a + 64 ≤ k → readByte t.mem k = readByte s.mem k)

/-- R175, R478, R485: MIGRATE makes a SAVED phrase MIGRATING towards its place, with a shadow of its delivery header, and its auxiliary with
it; RESTORE places a saved phrase at its place, or ends with status 3 where there is no room, where the place is another module's, or
where it names core 24 or more of a cluster (for the last two the manual gives no status: log 31); both end with status 1 for a phrase that
is not SAVED. A command with a status completes: RESULT holds DONE, its TAG and the status, and vector 7 is raised. -/
def Sys2Proof.Claims.MovesAndRestores : Prop :=
  ∀ (s : State) (slot : BitVec 4), let c := s.cs slot.toNat
    let n := slot.toNat
    let u : State := (s.updCs n fun c => { c with busy := true, num := s.nextId, begun := false, status := none, result := 0 }).bump
    let loc := c.place.toNat
    (c.busy = false → c.malformed = false → u.csWaits n = false → c.flags.getLsbD 0 = false → ∀ l, s.csTarget c.target = .ok l →
      (c.op = 4 → l.state ≠ 2 → Gives (exec (.migrate slot) s) fun t => (t.cs n).status = some 1 ∧ t.mem = s.mem) ∧
      (c.op = 4 → l.state = 2 → loc / 2 ^ 15 % 1024 ≠ s.moduleNo → Gives (exec (.migrate slot) s) fun t =>
        (t.cs n).begun = true ∧ ∀ x ∈ s.nounGroup c.target 2, ∃ g ∈ t.migs, g.noun = x ∧ g.dest = loc ∧ g.fwd = []) ∧
      (c.op = 4 → l.state = 2 → s.nounGroup c.target 2 = [c.target] → (loc / 2 ^ 15 % 1024 ≠ s.moduleNo) → Memory.wf s.mem →
        ∀ leaf, s.leafOf c.target = some leaf →
        let image := s.imageOf c.target
        let h : Word := BitVec.ofNat 64 (readNat s.mem image 8)
        Gives (exec (.migrate slot) s) fun t => (t.cs n).begun = true ∧ (t.cs n).status = none ∧
          (∃ g : Migration, t.migs = s.migs ++ [g] ∧ g.noun = c.target ∧ g.image = image ∧ g.dest = loc ∧ g.fwd = [] ∧ g.shadow = h.extractLsb' 0 4 ∧
            g.wakep = h.getLsbD 4 ∧ g.sigp = h.extractLsb' 16 16) ∧
          (BitVec.ofNat 64 (readNat t.mem leaf 8)).extractLsb' 61 3 = 4 ∧
          ∀ k, (k < leaf ∨ leaf + 16 ≤ k) → readByte t.mem k = readByte s.mem k) ∧
      (c.op = 5 → l.state ≠ 2 → Gives (exec (.restore slot) s) fun t => (t.cs n).status = some 1 ∧ t.mem = s.mem) ∧
      (c.op = 5 → l.state = 2 → (loc / 2 ^ 15 % 1024 ≠ s.moduleNo ∨ 24 ≤ loc / 16 % 32) →
        Gives (exec (.restore slot) s) fun t => (t.cs n).status = some 3 ∧ t.mem = s.mem) ∧
      (c.op = 5 → l.state = 2 → loc / 2 ^ 15 % 1024 = s.moduleNo → loc / 16 % 32 < 24 →
        let main : Word := ((s.phraseByNoun c.target).map fun p => (s.phr (s.mainOf p)).noun).getD c.target
        let core := loc / 2 ^ 13 % 4 * 384 + loc / 2 ^ 9 % 16 * 24 + loc / 16 % 32
        if s.regionOk main core = false then Gives (exec (.restore slot) s) fun t => (t.cs n).status = some 3 ∧ t.mem = s.mem
        else match u.restoreAt main core (loc % 16) with
        | some v => Gives (exec (.restore slot) s) fun t => (t.cs n).status = some 0 ∧ t.phrases = v.phrases ∧ t.frags = v.frags ∧ t.mem = v.mem
        | none => Gives (exec (.restore slot) s) fun t => (t.cs n).status = some 3 ∧ t.mem = s.mem)) ∧
    (∀ st, c.busy = true → c.status = some st → Gives (exec (.csCommandComplete slot) s) fun t =>
      (t.cs n).result = BitVec.ofNat 64 (2 ^ 63 + c.tag.toNat * 2 ^ 32 + st.toNat) ∧ (t.cs n).busy = false ∧ t.mem = s.mem ∧
      (s.canRaise 7 = true → t.host.out = s.host.out ++ [.msi s.host.lease.holder 7]) ∧
      (s.canRaise 7 = false → t.host.pending.getLsbD 7 = true))

/-- R385, R473, R474, R478: a RESTORE of one phrase that this module saved, whose place has room and whose image holds no restart entry,
brings it back from its image: its noun is RUNNING at the place, the phrase is on the core with LIVE, STATUS, TRAPEN and REGS of the
image, and its root is in the slot with the PC, EXEC, TL and scalar registers of its record; s60 to s63 are those of the delivery header. -/
def Sys2Proof.Claims.RestoredPhrases : Prop :=
  ∀ (s : State) (slot : BitVec 4) (p leaf : Nat) (l : Leaf), let c := s.cs slot.toNat
    let n := slot.toNat
    let loc := c.place.toNat
    let core := loc / 2 ^ 13 % 4 * 384 + loc / 2 ^ 9 % 16 * 24 + loc / 16 % 32
    let u : State := (s.updCs n fun c => { c with busy := true, num := s.nextId, begun := false, status := none, result := 0 }).bump
    let a := s.imageOf c.target
    let w (i k : Nat) : Nat := readNat s.mem (a + i) k
    let k := fragKey p 0
    c.op = 5 → c.flags.getLsbD 0 = false → c.busy = false → c.malformed = false → u.csWaits n = false → s.csTarget c.target = .ok l → l.state = 2 →
    loc / 2 ^ 15 % 1024 = s.moduleNo → loc / 16 % 32 < 24 →
    s.phraseByNoun c.target = some p → (s.phr p).noun = c.target → s.mainOf p = p → s.restoreGroup p = [p] → s.regionOk c.target core = true →
    s.placeRoom (nounCtx c.target) core (loc % 16) 1 (w 0x5E 2 % 512) = true → w 0x6C 4 = 0 → (s.frag k).wait ≠ .token → Memory.wf s.mem →
    -- the image lies in a vault, clear of the noun's entry, which is not in scratch
    s.leafOf c.target = some leaf → a + 0x3000 ≤ 0x400000000 → (leaf + 16 ≤ a ∨ a + imageLenAt s.mem a ≤ leaf) →
    (∀ i, i < 16 → inScratch (leaf + i) = false) →
    Gives (exec (.restore slot) s) fun t => (t.cs n).status = some 0 ∧
      (BitVec.ofNat 64 (readNat t.mem leaf 8)).extractLsb' 61 3 = 1 ∧ readNat t.mem (leaf + 8) 8 = locOf s.moduleNo core (loc % 16) ∧
      (t.phr p).present = true ∧ (t.phr p).core = core ∧ (t.phr p).live = BitVec.ofNat 32 (w 0x48 4) ∧
      (t.phr p).status = BitVec.ofNat 32 (w 0x50 4) &&& 0xFF1F ∧ (t.phr p).trapen = BitVec.ofNat 32 (w 0x54 4) &&& 0xC7 ∧
      (t.phr p).regs = w 0x5E 2 % 512 ∧ (t.frag k).live = true ∧ (t.frag k).stopped = false ∧ (t.frag k).slot = some (loc % 16) ∧
      (t.frag k).pc = BitVec.ofNat 64 (w 0x1200 8) ∧ (t.frag k).exec = BitVec.ofNat 32 (w 0x1208 4) &&& BitVec.ofNat 32 (w 0x48 4) ∧
      (t.frag k).tl = BitVec.ofNat 2 (w 0x120C 1) ∧
      (∀ i, 0 < i → i < 60 → (t.frag k).reg (BitVec.ofNat 6 i) = BitVec.ofNat 64 (w (0x1000 + 8 * i) 8)) ∧
      ∀ i, i < 4 → (t.frag k).reg (BitVec.ofNat 6 (60 + i)) = BitVec.ofNat 64 (w (16 + 8 * i) 8)

/-! ### Hosts: noun ports, the lease, restarts, the management page and the window -/

/-- R394-R398, R482, R489: a doorbell is discarded on a port that is not bound to a context, on a slot that has not completed, and with a
value other than 1; it gets Completer Abort in TDISP state ERROR, and Unsupported Request without the T bit in RUN. Otherwise the command takes effect: WAKE, SIGNAL, DEPOSIT, JOIN
and TEST send a noun operation whose source is the port, BIND, UNBIND and APPLY complete, a reserved OP or bit completes with BADCMD
and a command of the wrong port state, or of a context that is not resident, with PORTSTATE (log 33; the nouns of a killed context still answer: log 88); a completion is RESULT and then DONE, TAG and STATUS at CADDR,
where the context's host port translates it, and is dropped where that host has gone; a packet that the host refuses gives PKTREAD. -/
def Obligations.NounPortCommands : Prop :=
  ∀ (s : State) (hp : Bool) (np : BitVec 10) (slot : BitVec 6) (c : NpCmd) (i : Instr) (op : BitVec 8),
    (i, op) ∈ [(Instr.bind hp np slot c, 0x01), (.unbind hp np slot c, 0x02), (.wake hp np slot c, 0x10), (.signal hp np slot c, 0x11),
      (.deposit hp np slot c, 0x12), (.join hp np slot c, 0x13), (.test hp np slot c, 0x14), (.apply hp np slot c, 0x20)] →
    let x := if hp then np.toNat + 1024 else np.toNat
    let p := s.nport x
    let side := s.hportOf p.ctx
    let key := s.hostAddr side p.ctx c.caddr.toNat
    let tells (m : HostMsg) : Out := .next { s with host := { s.host with out := s.host.out ++ [m] } }
    let bad := c.rsvd = true ∨ c.op ≠ op ∨ c.caddr.toNat % 16 ≠ 0 ∨ (op = 1 ∧ c.value.toNat % 128 ≠ 0)
    let completes (t : State) (m : Mem) (result : Word) (status : Nat) : Prop :=
      t.mem = writeNat (key + 8) 8 (2 ^ 63 + c.tag.toNat * 2 ^ 32 + status) (writeNat key 8 result.toNat m) ∧
      slot.toNat ∉ (t.nport x).busy ∧ t.nouns = s.nouns ∧ t.frags = s.frags
    ((s.hostPort hp).tdisp = .error → exec i s = tells (.abort hp)) ∧
    ((s.hostPort hp).tdisp = .run → c.tbit = false → exec i s = tells (.dropped hp)) ∧
    ((s.hostPort hp).tdisp ≠ .error → (s.hostPort hp).tdisp ≠ .run ∨ c.tbit = true →
      (p.en = false → exec i s = .next s) ∧
      (p.en = true → slot.toNat ∈ p.busy ∨ c.bell ≠ 1 → Gives (exec i s) fun t => t = { s with host := { s.host with ports := t.host.ports } } ∧
        t.nport x = { p with slots := tput slot.toNat c p.slots } ∧ ∀ n, n ≠ x → t.nport n = s.nport n) ∧
      (p.en = true → slot.toNat ∉ p.busy → c.bell = 1 → p.cmds = [] →
        (¬ bad → op ∈ [(0x10 : BitVec 8), 0x11, 0x12, 0x13, 0x14] → p.bound.isSome = true →
          (s.ctx p.ctx).resident = true ∨ (s.ctx p.ctx).killed = true →
          Gives (exec i s) fun t => t.mem = s.mem ∧ t.frags = s.frags ∧ (t.nport x).busy = p.busy ++ [slot.toNat] ∧
            ∃ (o : NounOp) (a : NounAct), t.nouns = s.nouns ++ [o] ∧ o.id = s.nextId ∧ o.src = .port hp np.toNat slot.toNat c.tag c.caddr ∧ o.ctx = p.ctx ∧
            o.noun = c.noun ∧ o.msg = none ∧ o.act = a ∧
            (op = 0x10 → a = .wake) ∧ (op = 0x11 → a = .signal (c.value.extractLsb' 0 16)) ∧ (op = 0x12 → a = .deposit c.reg c.value c.force) ∧
            (op = 0x13 → a = .join) ∧ (op = 0x14 → a = .test)) ∧
        (s.npBusy hp np.toNat = true → bad ∨ op ∈ [(0x01 : BitVec 8), 0x02, 0x20] → Gives (exec i s) fun t =>
          t.mem = s.mem ∧ t.nouns = s.nouns ∧ t.frags = s.frags ∧ (t.nport x).busy = p.busy ++ [slot.toNat] ∧
          (t.nport x).cmds.map (·.1) = [slot.toNat]) ∧
        (s.npBusy hp np.toNat = false → bad → (s.hostPort side).gone = true → Gives (exec i s) fun t =>
          t.mem = s.mem ∧ slot.toNat ∉ (t.nport x).busy ∧ t.nouns = s.nouns) ∧
        ((s.hostPort side).gone = false → s.atcHit side p.ctx (c.caddr.toNat / 4096) true = true →
        (s.npBusy hp np.toNat = false → bad → Gives (exec i s) (completes · s.mem 0 0x09)) ∧
        (¬ bad → s.npBusy hp np.toNat = false → (p.bound.isSome = true ↔ op = 1) ∨
            ((s.ctx p.ctx).resident = false ∧ ((s.ctx p.ctx).killed = false ∨ op ∈ [(0x01 : BitVec 8), 0x02, 0x20])) →
          Gives (exec i s) (completes · s.mem 0 0x08)) ∧
        (¬ bad → s.npBusy hp np.toNat = false → (s.ctx p.ctx).resident = true →
          (op = 0x01 → p.bound = none →
            (s.allocNoun p.ctx 1 stHost 0xF c.value = none → Gives (exec i s) (completes · s.mem 0 0x14)) ∧
            ∀ n v, s.allocNoun p.ctx 1 stHost 0xF c.value = some (n, v) → Gives (exec i s) fun t =>
              completes t v.mem n 0 ∧ (t.nport x).bound = some n) ∧
          (∀ n a, op = 0x02 → p.bound = some n → s.leafOf n = some a → (readLeaf s.mem a).state ≠ 6 → (readLeaf s.mem a).gen = nounGen n →
            s.joins = [] → Memory.wf s.mem → a + 16 ≤ key → Gives (exec i s) fun t => (t.nport x).bound = none ∧
              (BitVec.ofNat 64 (readNat t.mem a 8)).extractLsb' 61 3 = 6 ∧ (BitVec.ofNat 64 (readNat t.mem a 8)).extractLsb' 40 8 = 1 ∧
              readNat t.mem (a + 8) 8 = c.value.toNat ∧ readNat t.mem key 8 = 0 ∧
              readNat t.mem (key + 8) 8 = 2 ^ 63 + c.tag.toNat * 2 ^ 32 ∧ t.nouns = s.nouns) ∧
          (op = 0x20 → p.bound.isSome = true → p.pfail = true → Gives (exec i s) (completes · s.mem 0 0x13)) ∧
          (op = 0x20 → p.bound.isSome = true → p.pfail = false → s.atcHit side p.ctx (c.value.toNat / 4096) false = true →
            let bytes := readBytes s.mem (s.hostAddr side p.ctx c.value.toNat) 128
            let u := s.updNport x fun p => { p with slots := tput slot.toNat c p.slots, busy := p.busy ++ [slot.toNat], cmds := [] }
            (packetOf bytes = none → Gives (exec i s) (completes · s.mem 0 0x12)) ∧
            ∀ k, packetOf bytes = some k → match u.apply none p.ctx k false with
              | (.ok n, v) => Gives (exec i s) fun t => t.mem = writeNat (key + 8) 8 (2 ^ 63 + c.tag.toNat * 2 ^ 32) (writeNat key 8 n.toNat v.mem) ∧
                  t.applied = v.applied ∧ t.lqs = v.lqs
              | (.error e, v) => Gives (exec i s) fun t =>
                  t.mem = writeNat (key + 8) 8 (2 ^ 63 + c.tag.toNat * 2 ^ 32 + e) (writeNat key 8 0 v.mem))))))

/-- R486-R488, R492: a write of LEASE takes a free lease or renews the writer's own, with EXPIRY at most DTIME + 10^10; giving it up, or
DTIME reaching EXPIRY, ends it, and a registered standby whose link is up then holds it for 10^9 ns; every other write changes
nothing. Event records that waited for a holder go to the new one. Where it is not the last one, contexts of the old port go over to it and
TAKEOVER is raised. -/
def Obligations.Leases : Prop :=
  ∀ (s : State) (hp tb : Bool) (v : Word), let L := s.host.lease
    (s.hostPort hp).tdisp ≠ .run ∨ tb = true →
    let ends := min (v.extractLsb' 0 62).toNat (s.dtime + 10000000000)
    let same (t : State) : Prop := t = { s with host := { s.host with lease := t.host.lease } }
    (L.valid = true → s.dtime < L.expiry →
      (L.holder = hp → Gives (exec (.leaseWrite ⟨hp, tb⟩ v) s) fun t => same t ∧ t.host.lease = { L with expiry := ends, near := false }) ∧
      (L.holder ≠ hp → exec (.leaseWrite ⟨hp, tb⟩ v) s = .next s ∧ exec (.leaseRelease ⟨hp, tb⟩) s = .next s) ∧
      exec .leaseExpiry s = .next s ∧
      (L.expiry ≤ s.dtime + 10000000 → L.near = false → Gives (exec .leaseNearExpiry s) fun t =>
        t.host.lease = { L with near := true } ∧ Raised s t 2 ∧ t.mem = s.mem)) ∧
    (L.valid = false → exec (.leaseRelease ⟨hp, tb⟩) s = .next s ∧ exec .leaseExpiry s = .next s ∧ exec .leaseNearExpiry s = .next s ∧
      Gives (exec (.leaseWrite ⟨hp, tb⟩ v) s) (fun t => t.host.lease = ⟨true, hp, ends, some hp, false⟩) ∧
      (L.last ≠ some (!hp) → s.host.pending = 0 → s.host.events = [] → Gives (exec (.leaseWrite ⟨hp, tb⟩ v) s) same) ∧
      (L.last ≠ some (!hp) → s.host.pending = 0 → s.dtime < ends → Gives (exec (.leaseWrite ⟨hp, tb⟩ v) s) fun t => t.host.events = [] ∧
        t.host.out = s.host.out ++ s.host.events.map fun r => .event hp r)) ∧
    (∀ i ∈ [Instr.leaseRelease ⟨hp, tb⟩, .leaseExpiry], L.valid = true → L.holder = hp → L.last = some hp →
      (i = .leaseExpiry ∧ L.expiry ≤ s.dtime ∨ i = .leaseRelease ⟨hp, tb⟩ ∧ s.dtime < L.expiry) →
      (s.host.standby.getLsbD (if hp then 0 else 1) = false ∨ (s.hostPort (!hp)).linkup = false → Gives (exec i s) fun t =>
        same t ∧ t.host.lease = { L with valid := false }) ∧
      (s.host.standby.getLsbD (if hp then 0 else 1) = true → (s.hostPort (!hp)).linkup = true → s.host.pending = 0 → s.host.events = [] → s.accs = [] →
        (∀ e ∈ s.host.ports, e.2.en = false) → (s.contexts.map (·.1)).Nodup → Gives (exec i s) fun t =>
        t.host.lease = ⟨true, !hp, s.dtime + 1000000000, some (!hp), false⟩ ∧ t.host.standby.getLsbD (if hp then 0 else 1) = false ∧
        (∀ n x, tfind s.contexts n = some x → x.killed = false → (t.ctx n).misc.getLsbD 16 = !hp) ∧
        ((s.hostPort (!hp)).mask.getLsbD 1 = false → t.host.out = s.host.out ++ [.msi (!hp) 1]) ∧
        ((s.hostPort (!hp)).mask.getLsbD 1 = true → t.host.pending.getLsbD 1 = true))) ∧
    (∀ on, Gives (exec (.standby ⟨hp, tb⟩ on) s) fun t => t = { s with host := { s.host with standby := t.host.standby } } ∧
      ∀ j, j < 2 → t.host.standby.getLsbD j = if j = (if hp then 1 else 0) then on else s.host.standby.getLsbD j)

/-- R489-R491: a link-down, a reset or a write of HRESTART ends every noun port of the port, sets its GONE, empties its translation
cache, ends its IDE streams and leaves TDISP CONFIG_UNLOCKED; contexts, verbs, queues and memory go on, and the lease stands. A link
that comes up sets LINKUP, and the port's own write clears GONE; neither changes anything else. -/
def Obligations.HostRestarts : Prop :=
  ∀ (s : State) (hp tb : Bool), let takes := (s.hostPort hp).tdisp ≠ .run ∨ tb = true
    (∀ i ∈ [Instr.hrestart ⟨hp, tb⟩, .hostLinkDown hp, .hostReset hp], i ≠ .hrestart ⟨hp, tb⟩ ∨ takes → s.accs = [] → (∀ e ∈ s.host.ports, e.2.bound = none ∧ e.2.comps = []) →
      Gives (exec i s) fun t => (t.hostPort hp).gone = true ∧ (t.hostPort hp).atc = [] ∧ (t.hostPort hp).ide = [] ∧
        (t.hostPort hp).tdisp = .unlocked ∧ (i = .hostLinkDown hp → (t.hostPort hp).linkup = false) ∧ t.hostPort (!hp) = s.hostPort (!hp) ∧
        (∀ n, (1024 ≤ n ↔ hp = true) → (t.nport n).en = false) ∧ (∀ n, ¬(1024 ≤ n ↔ hp = true) → t.nport n = s.nport n) ∧
        t.host.lease = s.host.lease ∧ t.mem = s.mem ∧ t.contexts = s.contexts ∧ t.applied = s.applied ∧ t.lqs = s.lqs ∧
        t.phrases = s.phrases ∧ ∀ k (x : SReg), (t.frag k).reg x = (s.frag k).reg x) ∧
    Gives (exec (.hostLinkUp hp) s) (fun t => t = { s with host := { s.host with hp0 := t.host.hp0, hp1 := t.host.hp1 } } ∧
      t.hostPort hp = { s.hostPort hp with linkup := true } ∧ t.hostPort (!hp) = s.hostPort (!hp)) ∧
    (takes → Gives (exec (.goneClear ⟨hp, tb⟩) s) fun t => t = { s with host := { s.host with hp0 := t.host.hp0, hp1 := t.host.hp1 } } ∧
      t.hostPort hp = { s.hostPort hp with gone := false } ∧ t.hostPort (!hp) = s.hostPort (!hp))

/-- R44, R160, R226, R373, R431, R482, R484, R489, R497, R513, R544, R546: what a write of the lease holder's port does to each register, and
that another port's write, or one after the lease has ended, changes nothing. A cluster that another partition has is not taken (log 78);
without TDISP in FEATON the ports are CONFIG_UNLOCKED, and a feature holds for what issues after it is set (R544). -/
def Sys2Proof.Claims.RegisterWrites : Prop :=
  ∀ (s : State) (hp tb : Bool) (v : Word),
    let holds := s.host.lease.valid = true ∧ s.host.lease.holder = hp ∧ s.dtime < s.host.lease.expiry
    (s.hostPort hp).tdisp ≠ .run ∨ tb = true →
    let free := (s.hostPort hp).tdisp = .unlocked
    let host (t : State) : Prop := t = { s with host := t.host }
    (¬ holds → ∀ (q : BitVec 6) (part w3 : BitVec 3) (core : Nat) (np : BitVec 11) (win port ctr : BitVec 4) (f : BitVec 128) (r : KeyReq),
      ∀ i ∈ [Instr.lqcfgWrite ⟨hp, tb⟩ q v, .pcfgWrite ⟨hp, tb⟩ part w3 v, .frzrel ⟨hp, tb⟩ core, .npctlWrite ⟨hp, tb⟩ np v, .expwinWrite ⟨hp, tb⟩ win w3 v,
        .counterClear ⟨hp, tb⟩ port ctr, .keySlotRequest ⟨hp, tb⟩ r, .featonWrite ⟨hp, tb⟩ f, .poolrel ⟨hp, tb⟩ v], exec i s = .next s) ∧
    (holds →
      (∀ q : BitVec 6, let L := s.lq q.toNat
        let part := (v.extractLsb' 24 3).toNat
        (¬ free ∨ (L.items ≠ [] ∧ (L.part ≠ part ∨ (L.en = true ∧ v.getLsbD 31 = false))) → exec (.lqcfgWrite ⟨hp, tb⟩ q v) s = .next s) ∧
        (free → ¬(L.items ≠ [] ∧ (L.part ≠ part ∨ (L.en = true ∧ v.getLsbD 31 = false))) → Gives (exec (.lqcfgWrite ⟨hp, tb⟩ q v) s) fun t =>
          t = { s with lqs := t.lqs } ∧ t.lq q.toNat = { L with en := v.getLsbD 31, part := part } ∧
          ∀ n, n ≠ q.toNat → t.lq n = s.lq n)) ∧
      (∀ n w : BitVec 3, Gives (exec (.pcfgWrite ⟨hp, tb⟩ n w v) s) fun t => (∀ m, m ≠ n.toNat → t.part m = s.part m) ∧ t.mem = s.mem ∧
        (w = 0 → ∀ c, c < 64 → (t.part n.toNat).bitmap.getLsbD c = (v.getLsbD c &&
          !((List.range 8).any fun m => decide (m ≠ n.toNat) && (s.part m).bitmap.getLsbD c))) ∧
        (w = 1 → t.part n.toNat = { s.part n.toNat with ready := v }) ∧
        (w = 2 → t.part n.toNat = { s.part n.toNat with dbgen := v.getLsbD 0 }) ∧
        (w = 3 → t.part n.toNat = { s.part n.toNat with pending := (v.extractLsb' 0 16).toNat }) ∧ (4 ≤ w.toNat → t = s)) ∧
      (∀ core, ((s.core core).frozen = false → exec (.frzrel ⟨hp, tb⟩ core) s = .next s) ∧
        ((s.core core).frozen = true → (∀ e ∈ s.frags, e.2.ready = []) → s.accs = [] → Gives (exec (.frzrel ⟨hp, tb⟩ core) s) fun t =>
          t = { s with cores := t.cores } ∧ t.core core = { s.core core with frozen := false } ∧ ∀ n, n ≠ core → t.core n = s.core n)) ∧
      (∀ np : BitVec 11, (¬ free → exec (.npctlWrite ⟨hp, tb⟩ np v) s = .next s) ∧
        (free → (s.nport np.toNat).en = false ∨ (v.getLsbD 63 = true ∧ (s.nport np.toNat).ctx = (v.extractLsb' 0 20).toNat) →
          Gives (exec (.npctlWrite ⟨hp, tb⟩ np v) s) fun t => host t ∧
          t.nport np.toNat = { s.nport np.toNat with en := v.getLsbD 63, ctx := (v.extractLsb' 0 20).toNat } ∧
          ∀ n, n ≠ np.toNat → t.nport n = s.nport n) ∧
        (free → (s.nport np.toNat).en = true → (s.nport np.toNat).bound = none →
          v.getLsbD 63 = false ∨ (s.nport np.toNat).ctx ≠ (v.extractLsb' 0 20).toNat →
          Gives (exec (.npctlWrite ⟨hp, tb⟩ np v) s) fun t => (t.nport np.toNat).en = v.getLsbD 63 ∧
            (t.nport np.toNat).ctx = (v.extractLsb' 0 20).toNat ∧ (t.nport np.toNat).cmds = [] ∧
            (t.nport np.toNat).busy = [] ∧ Raised s t 3 ∧ t.mem = s.mem ∧ ∀ n, n ≠ np.toNat → t.nport n = s.nport n)) ∧
      (∀ (win : BitVec 4) (w : BitVec 3), let x : ExpWin := tget {} s.host.exp win.toNat
        let imp (k : Nat) : BitVec 32 := v.extractLsb' k 32 &&& 0x800FFFFF
        (¬ free → exec (.expwinWrite ⟨hp, tb⟩ win w v) s = .next s) ∧
        (free → Gives (exec (.expwinWrite ⟨hp, tb⟩ win w v) s) fun t => host t ∧
          (∀ n, n ≠ win.toNat → tget ({} : ExpWin) t.host.exp n = tget {} s.host.exp n) ∧
          let y : ExpWin := tget {} t.host.exp win.toNat
          (w = 0 → y = { x with base := (v.extractLsb' 12 40).setWidth 64 <<< 12 }) ∧
          (w = 1 → y = { x with size := (v.extractLsb' 12 52).setWidth 64 <<< 12 }) ∧
          (w = 2 → y = { x with ctl := (v.extractLsb' 0 4).setWidth 8, owner := (v.extractLsb' 32 20).toNat }) ∧
          (w = 3 → y.imps.take 2 = [imp 0, imp 32]) ∧ (w = 4 → (y.imps.drop 2).take 2 = [imp 0, imp 32]))) ∧
      (∀ port ctr : BitVec 4, Gives (exec (.counterClear ⟨hp, tb⟩ port ctr) s) fun t => t = { s with fabric := t.fabric } ∧
        (ctr.toNat < 8 → tget 0 (t.fport port.toNat).counters ctr.toNat = 0) ∧ (8 ≤ ctr.toNat → t = s) ∧
        ∀ n, n ≠ ctr.toNat → tget 0 (t.fport port.toNat).counters n = tget 0 (s.fport port.toNat).counters n) ∧
      (∀ (slot : BitVec 10) (key : BitVec 256) (ctx : BitVec 20) (fixed : BitVec 32),
        Gives (exec (.keySlotRequest ⟨hp, tb⟩ (.install slot key ctx fixed)) s) fun t => host t ∧
          tget (⟨0, 0, 0⟩ : KeySlot) t.host.keys slot.toNat = ⟨key, ctx.toNat, fixed⟩ ∧
          ∀ n, n ≠ slot.toNat → tget (⟨0, 0, 0⟩ : KeySlot) t.host.keys n = tget ⟨0, 0, 0⟩ s.host.keys n) ∧
      (∀ slot : BitVec 10, Gives (exec (.keySlotRequest ⟨hp, tb⟩ (.erase slot)) s) fun t => host t ∧ tfind t.host.keys slot.toNat = none) ∧
      (∀ f : BitVec 128, let new := f &&& s.featoff &&& ~~~2
        ((∃ e ∈ s.contexts, e.2.resident = true) → s.host.feat &&& ~~~new ≠ 0 → exec (.featonWrite ⟨hp, tb⟩ f) s = .next s) ∧
        (((∀ e ∈ s.contexts, e.2.resident = false) ∨ s.host.feat &&& ~~~new = 0) → Gives (exec (.featonWrite ⟨hp, tb⟩ f) s) fun t =>
          t = { s with host := { s.host with feat := new, featAt := t.host.featAt, hp0 := t.host.hp0, hp1 := t.host.hp1 } } ∧
          (∀ b, b < 8 → tget 0 t.host.featAt b = if new.getLsbD b && !s.host.feat.getLsbD b then s.nextId else tget 0 s.host.featAt b) ∧
          ∀ h, t.hostPort h = { s.hostPort h with tdisp := if new.getLsbD 6 then (s.hostPort h).tdisp else .unlocked })) ∧
      (let e := (v.extractLsb' 0 5).toNat
       (v.getLsbD 63 = false ∨ v.extractLsb' 5 58 ≠ 0 ∨ tfind s.pool.extents e = none → exec (.poolrel ⟨hp, tb⟩ v) s = .next s) ∧
       (v.getLsbD 63 = true → v.extractLsb' 5 58 = 0 → (tfind s.pool.extents e).isSome = true → (∀ d ∈ s.pool.draining, d.1 ≠ e) →
          exec (.poolrel ⟨hp, tb⟩ v) s = .next { s with pool := { s.pool with draining := s.pool.draining ++ [(e, s.nextId)] } })))

/-- R482: in RUN a port answers a write of the management page without the T bit with Unsupported Request, and nothing else changes. -/
def Sys2Proof.Claims.UntrustedWrites : Prop :=
  ∀ (s : State) (hp on : Bool) (v : Word) (q : BitVec 6) (part w3 : BitVec 3) (core : Nat) (np : BitVec 11) (win port ctr : BitVec 4)
    (off : BitVec 16) (f : BitVec 128) (r : KeyReq), (s.hostPort hp).tdisp = .run →
    ∀ i ∈ [Instr.leaseWrite ⟨hp, false⟩ v, .leaseRelease ⟨hp, false⟩, .standby ⟨hp, false⟩ on, .hrestart ⟨hp, false⟩, .goneClear ⟨hp, false⟩,
      .lqcfgWrite ⟨hp, false⟩ q v, .pcfgWrite ⟨hp, false⟩ part w3 v, .frzrel ⟨hp, false⟩ core, .npctlWrite ⟨hp, false⟩ np v,
      .expwinWrite ⟨hp, false⟩ win w3 v, .counterClear ⟨hp, false⟩ port ctr, .keySlotRequest ⟨hp, false⟩ r, .featonWrite ⟨hp, false⟩ f,
      .poolrel ⟨hp, false⟩ v, .registerWrite ⟨hp, false⟩ off v],
      exec i s = .next { s with host := { s.host with out := s.host.out ++ [.dropped hp] } }

/-- R484, R485: a write of a register at its offset in the management page is the row of that register; a write by a port that does not
hold the lease, or at an unaligned offset (log 50), changes nothing. -/
def Sys2Proof.Claims.PageOffsets : Prop :=
  ∀ (s : State) (hp tb : Bool) (v : Word), (s.hostPort hp).tdisp ≠ .run ∨ tb = true →
    let w (o : Nat) : Out := exec (.registerWrite ⟨hp, tb⟩ (BitVec.ofNat 16 o) v) s
    w 0 = (if v.getLsbD 63 then exec (.leaseWrite ⟨hp, tb⟩ v) s else exec (.leaseRelease ⟨hp, tb⟩) s) ∧
    w 8 = exec (.standby ⟨hp, tb⟩ (v.getLsbD (if hp then 1 else 0))) s ∧
    w (if hp then 0x18 else 0x10) = (if v.getLsbD 1 then exec (.goneClear ⟨hp, tb⟩) s else .next s) ∧
    w (if hp then 0x10 else 0x18) = .next s ∧
    w 0x20 = (if v = 1 then exec (.hrestart ⟨hp, tb⟩) s else .next s) ∧
    (∀ q : BitVec 6, w (0x1000 + 8 * q.toNat) = exec (.lqcfgWrite ⟨hp, tb⟩ q v) s) ∧
    (∀ n x : BitVec 3, w (0x2000 + 64 * n.toNat + 8 * x.toNat) = exec (.pcfgWrite ⟨hp, tb⟩ n x v) s) ∧
    (∀ k b, k < 24 → b < 64 → v = BitVec.twoPow 64 b → w (0x3000 + 8 * k) = exec (.frzrel ⟨hp, tb⟩ (64 * k + b)) s) ∧
    (∀ p c : BitVec 4, w (0x5000 + 128 * p.toNat + 8 * c.toNat) = exec (.counterClear ⟨hp, tb⟩ p c) s) ∧
    (∀ (n : BitVec 4) (x : BitVec 3), w (0x6000 + 64 * n.toNat + 8 * x.toNat) = exec (.expwinWrite ⟨hp, tb⟩ n x v) s) ∧
    w 0x8100 = exec (.poolrel ⟨hp, tb⟩ v) s ∧
    (∀ n : BitVec 11, w (0x9000 + 8 * n.toNat) = exec (.npctlWrite ⟨hp, tb⟩ n v) s) ∧
    (∀ slot : BitVec 4, v = 1 → s.host.lease.valid = true → s.host.lease.holder = hp → s.dtime < s.host.lease.expiry → let c := s.cs slot.toNat
      let is (op : BitVec 8) (whole : Bool) : Prop := c.op = op ∧ c.flags.getLsbD 0 = whole
      let ring := w (0x4038 + 64 * slot.toNat)
      (is 1 false → ring = exec (.save slot) s) ∧ (is 1 true → ring = exec (.saveWholectx slot) s) ∧
      (is 2 false → ring = exec (.swapout slot) s) ∧ (is 2 true → ring = exec (.swapoutWholectx slot) s) ∧
      (is 3 false → ring = exec (.swapin slot) s) ∧ (is 3 true → ring = exec (.swapinWholectx slot) s) ∧
      (is 4 false → ring = exec (.migrate slot) s) ∧ (is 5 false → ring = exec (.restore slot) s)) ∧
    (∀ o, o < 0x10000 → o % 8 ≠ 0 → w o = .next s) ∧
    (∀ o, 0x100 ≤ o → o < 0xE000 → ¬(s.host.lease.valid = true ∧ s.host.lease.holder = hp ∧ s.dtime < s.host.lease.expiry) → w o = .next s)

/-- R11, R226, R373, R484, R485, R492, R493, R544: what writes at other offsets of the management page do. HWIN keeps EN, WR and BASE, while
the interface is unlocked; a word of the MSI-X table is kept, with its mask, and a vector that it unmasks is delivered if it was pending; halves
of FEATON are its row; KEYREQ keeps its words, and when they make a request, firmware installs or erases the key slot (what makes one the
manual leaves open: log 50); the fields of a command slot whose command does not run are kept, their reserved bits zero, and those of one that runs
are not written (log 31). -/
def Sys2Proof.Claims.PageEffects : Prop :=
  ∀ (s : State) (hp tb : Bool) (v : Word), (s.hostPort hp).tdisp ≠ .run ∨ tb = true →
    let w (o : Nat) : Out := exec (.registerWrite ⟨hp, tb⟩ (BitVec.ofNat 16 o) v) s
    let holds := s.host.lease.valid = true ∧ s.host.lease.holder = hp ∧ s.dtime < s.host.lease.expiry
    let host (t : State) : Prop := t = { s with host := t.host }
    (∀ k, k < 32 → Gives (w (0xE000 + 8 * k)) fun t => host t ∧ t.hostPort (!hp) = s.hostPort (!hp) ∧
      (∀ j, tget 0 (t.hostPort hp).table j = if j = k then v else tget 0 (s.hostPort hp).table j) ∧
      (∀ b, b < 16 → (t.hostPort hp).mask.getLsbD b = if k = 2 * b + 1 then v.getLsbD 32 else (s.hostPort hp).mask.getLsbD b) ∧
      (holds → k % 2 = 1 → v.getLsbD 32 = false → s.host.pending.getLsbD (k / 2) = true →
        t.host.pending.getLsbD (k / 2) = false ∧ .msi hp (k / 2) ∈ t.host.out)) ∧
    (holds →
      (∀ n, n < 16 → ((s.hostPort hp).tdisp ≠ .unlocked → w (0x7000 + 8 * n) = .next s) ∧
        ((s.hostPort hp).tdisp = .unlocked → Gives (w (0x7000 + 8 * n)) fun t => host t ∧ t.host.out = s.host.out ∧
          ∀ j, tget 0 t.host.hwin j = if j = n then v &&& 0xC00FFFFF00000000 else tget 0 s.host.hwin j)) ∧
      w 0x110 = exec (.featonWrite ⟨hp, tb⟩ ((s.host.feat >>> 64).setWidth 64 ++ v)) s ∧
      w 0x118 = exec (.featonWrite ⟨hp, tb⟩ (v ++ s.host.feat.setWidth 64)) s ∧
      (∀ k, k < 8 → let words := (List.range 8).map fun i => if i = k then v else tget 0 s.host.keyreq i
        Gives (w (0xD000 + 8 * k)) fun t => host t ∧ (∀ j, tget 0 t.host.keyreq j = if j = k then v else tget 0 s.host.keyreq j) ∧
          match Config.keyRequest words with
          | none => t.host.keys = s.host.keys
          | some (slot, some (key, ctx, fixed)) => tget (⟨0, 0, 0⟩ : KeySlot) t.host.keys (slot % 1024) = ⟨key, ctx % 2 ^ 20, fixed⟩
          | some (slot, none) => tfind t.host.keys (slot % 1024) = none) ∧
      (∀ n, n < 16 → let c := s.cs n
        let at' (k : Nat) : Out := w (0x4000 + 64 * n + 8 * k)
        let keeps (k : Nat) (d : CsCmd) : Prop := Gives (at' k) fun t => host t ∧ t.cs n = d ∧ ∀ j, j ≠ n → t.cs j = s.cs j
        (c.busy = true → ∀ k, k < 8 → at' k = .next s) ∧
        (c.busy = false →
          keeps 0 { c with op := v.setWidth 8, flags := v.extractLsb' 8 8 &&& 3, tag := v.extractLsb' 16 16 } ∧
          keeps 1 { c with target := v } ∧ keeps 2 { c with addr := v } ∧ keeps 3 { c with place := v } ∧ keeps 4 { c with limit := v } ∧
          at' 5 = .next s ∧ at' 6 = .next s ∧ (v ≠ 1 → at' 7 = .next s))))

/-- R9, R160, R482, R484-R486, R489, R491, R495: a read of the management page, by either port: each register reads as what it holds, and a
write-only register, an offset that is not listed, and a noun port's page read zero; so do FRZREL, HRESTART and an offset that is not
aligned, and KEYREQ reads what was written, of which the manual does not speak (log 50); in RUN a read without the T bit
gets Unsupported Request, and in ERROR one of a noun port's page Completer Abort. -/
def Sys2Proof.Claims.PageReads : Prop :=
  ∀ (s : State) (hp : Bool), let r (o : Nat) : Word := s.pageRead hp o
    let b (x : Bool) (n : Nat) : Nat := if x then 2 ^ n else 0
    let L := s.host.lease
    r 0 = BitVec.ofNat 64 (b (L.valid && decide (s.dtime < L.expiry)) 63 + b L.holder 62 + L.expiry % 2 ^ 62) ∧
    r 8 = s.host.standby.setWidth 64 ∧
    r 0x10 = BitVec.ofNat 64 (b s.host.hp0.linkup 0 + b s.host.hp0.gone 1) ∧
    r 0x18 = BitVec.ofNat 64 (b s.host.hp1.linkup 0 + b s.host.hp1.gone 1) ∧
    r 0x110 ++ r 0x100 = (s.host.feat.setWidth 64) ++ (s.featoff.setWidth 64) ∧
    r 0x118 ++ r 0x108 = ((s.host.feat >>> 64).setWidth 64) ++ ((s.featoff >>> 64).setWidth 64) ∧
    (∀ n, n < 64 → r (0x1000 + 8 * n) = BitVec.ofNat 64 (b (s.lq n).en 31 + (s.lq n).part * 2 ^ 24 + (s.lq n).items.length)) ∧
    (∀ n, n < 8 → r (0x2000 + 64 * n) = (s.part n).bitmap ∧ r (0x2008 + 64 * n) = (s.part n).ready ∧
      r (0x2010 + 64 * n) = BitVec.ofNat 64 (b (s.part n).dbgen 0) ∧ r (0x2018 + 64 * n) = BitVec.ofNat 64 (s.part n).pending) ∧
    (∀ n, n < 16 → (∀ k, k < 8 → k ≠ 6 → r (0x4000 + 64 * n + 8 * k) = 0) ∧ r (0x4030 + 64 * n) = (s.cs n).result) ∧
    (∀ p k, p < 16 → k < 16 → r (0x5000 + 128 * p + 8 * k) = BitVec.ofNat 64 (tget 0 (s.fport p).counters k)) ∧
    (∀ n, n < 16 → r (0x7000 + 8 * n) = tget 0 s.host.hwin n) ∧
    (∀ n, n < 16 → let x : ExpWin := tget {} s.host.exp n
      let imp (k : Nat) : BitVec 32 := x.imps[k]?.getD 0
      r (0x6000 + 64 * n) = x.base ∧ r (0x6008 + 64 * n) = x.size ∧ r (0x6010 + 64 * n) = BitVec.ofNat 64 (x.ctl.toNat + x.owner * 2 ^ 32) ∧
      r (0x6018 + 64 * n) = imp 1 ++ imp 0 ∧ r (0x6020 + 64 * n) = imp 3 ++ imp 2) ∧
    (∀ n, n < 8 → r (0xD000 + 8 * n) = tget 0 s.host.keyreq n) ∧ r 0xE800 = s.host.pending.setWidth 64 ∧
    (∀ n, n < 16 → r (0xE000 + 16 * n) = tget 0 (s.hostPort hp).table (2 * n) ∧
      (r (0xE008 + 16 * n)).getLsbD 32 = (s.hostPort hp).mask.getLsbD n ∧
      ∀ b, b ≠ 32 → (r (0xE008 + 16 * n)).getLsbD b = (tget 0 (s.hostPort hp).table (2 * n + 1)).getLsbD b) ∧
    (∀ n, n < 2048 → r (0x9000 + 8 * n) = BitVec.ofNat 64 (b (s.nport n).en 63 + (s.nport n).ctx)) ∧
    (∀ n e, n < 28 → tfind s.pool.extents n = some e → r (0x8020 + 8 * n) = BitVec.ofNat 64 (e.1 % 2 ^ 32 + e.2 % 2 ^ 32 * 2 ^ 32)) ∧
    (∀ k, k < 24 → r (0x3000 + 8 * k) = 0) ∧ r 0x20 = 0 ∧ r 0x8100 = 0 ∧
    (∀ o, o % 8 ≠ 0 → r o = 0) ∧ (∀ o, 0xF000 ≤ o → r o = 0) ∧
    ∀ (tb : Bool) (np o : Nat), let gets (w : Word) : HostMsg := .data hp (bytesOf w.toNat 8) false
      ((s.hostPort hp).tdisp ≠ .run ∨ tb = true → s.pageAnswer ⟨hp, tb⟩ o = gets (r o) ∧
        ((s.hostPort hp).tdisp ≠ .error → s.nounPageAnswer ⟨hp, tb⟩ np o = gets 0)) ∧
      ((s.hostPort hp).tdisp = .run → tb = false → s.pageAnswer ⟨hp, tb⟩ o = .dropped hp ∧ s.nounPageAnswer ⟨hp, tb⟩ np o = .dropped hp) ∧
      ((s.hostPort hp).tdisp = .error → s.nounPageAnswer ⟨hp, tb⟩ np o = .abort hp)

/-- R482, R493: a request through an aperture reaches BASE × 2^32 and its offset. It is refused where the aperture does not map it, allow
it, or reach vaults or the pool, in RUN without the T bit, and aborted in ERROR. A read gives the bytes of a vault, a write stores
them, and an AtomicOp gives the old value and stores the new one. -/
def Obligations.HostWindow : Prop :=
  ∀ (s : State) (hp tbit : Bool) (off : BitVec 36) (n : Nat) (data : List Byte) (op : HostAtomic) (w64 : Bool) (x cmp : Word),
    let e : Word := tget 0 s.host.hwin (off.toNat / 2 ^ 32)
    let a := (e.extractLsb' 32 20).toNat * 2 ^ 32 + off.toNat % 2 ^ 32
    let tells (m : HostMsg) : Out := .next { s with host := { s.host with out := s.host.out ++ [m] } }
    let b := if w64 then 8 else 4
    let old := readNat s.mem a b
    let new := match op with
      | .fetchAdd => (old + x.toNat) % 2 ^ (8 * b)
      | .swap => x.toNat % 2 ^ (8 * b)
      | .cas => if old = cmp.toNat % 2 ^ (8 * b) then x.toNat % 2 ^ (8 * b) else old
    let all (m : HostMsg) : Prop := exec (.hostWindowRead hp tbit off n) s = tells m ∧ exec (.hostWindowWrite hp tbit off data) s = tells m ∧
      exec (.hostWindowAtomicop hp tbit off op w64 x cmp) s = tells m
    let tagged (t : State) : Prop := t = { s with mem := t.mem, tags := t.tags, host := t.host }
    ((s.hostPort hp).tdisp = .error → all (.abort hp)) ∧
    ((s.hostPort hp).tdisp = .run → tbit = false → all (.dropped hp)) ∧
    ((s.hostPort hp).tdisp ≠ .error → e.getLsbD 63 = false → all (.dropped hp)) ∧
    ((s.hostPort hp).tdisp ≠ .error → e.getLsbD 62 = false → exec (.hostWindowWrite hp tbit off data) s = tells (.dropped hp) ∧
      exec (.hostWindowAtomicop hp tbit off op w64 x cmp) s = tells (.dropped hp)) ∧
    ((s.hostPort hp).tdisp ≠ .error → 0x400000000 ≤ a → a < 0x4000000000000 → all (.dropped hp)) ∧
    ((s.hostPort hp).tdisp ≠ .error → (s.hostPort hp).tdisp ≠ .run ∨ tbit = true → e.getLsbD 63 = true → s.poison = [] →
      (a + n ≤ 0x400000000 → a < 0x400000000 → off.toNat % 2 ^ 32 + n ≤ 2 ^ 32 →
        exec (.hostWindowRead hp tbit off n) s = tells (.data hp (readBytes s.mem a n) false)) ∧
      (e.getLsbD 62 = true → a + data.length ≤ 0x400000000 → a < 0x400000000 → off.toNat % 2 ^ 32 + data.length ≤ 2 ^ 32 →
        Gives (exec (.hostWindowWrite hp tbit off data) s) fun t => tagged t ∧ t.host = s.host ∧ t.mem = writeBytes a data s.mem) ∧
      (e.getLsbD 62 = true → a + b ≤ 0x400000000 → off.toNat % b = 0 → Memory.wf s.mem →
        Gives (exec (.hostWindowAtomicop hp tbit off op w64 x cmp) s) fun t => tagged t ∧ readNat t.mem a b = new ∧
          t.host.out = s.host.out ++ [.data hp (readBytes s.mem a b) false] ∧
          ∀ k, (k < a ∨ a + b ≤ k) → readByte t.mem k = readByte s.mem k))

/-- R149, R150, R157, R477, R544: an ATS completion that grants what was asked, or a Success, ends its request; without the permission a
Page Request follows, none for a prefetch or where one is out already, and where PRI is not accepted, or the response is not Success, or 1 s has gone by, the
request ends and entries that wait for it say HOST with the sub-cause; an invalidation removes the translations of its pages only. -/
def Sys2Proof.Claims.HostAnswers : Prop :=
  ∀ (s : State) (hp : Bool) (ctx page : Nat) (q : HostReq), s.accs = [] → s.copies = [] → s.frags = [] →
    (∀ e ∈ s.host.ports, e.2.comps = [] ∧ e.2.cmds = []) → q.ctx = ctx → q.page = page →
    let P := s.hostPort hp
    let gone (t : State) : Prop := (t.hostPort hp).reqs = P.reqs.erase q
    let others (t : State) : Prop := t.hostPort (!hp) = s.hostPort (!hp)
    let marked (t : State) (st sub : Nat) : Prop := ∀ a, q.flidx = [a] → readNat t.mem (a + 9) 1 = st ∧ (st = 2 → readNat t.mem (a + 10) 1 = 0x0E) ∧
      readNat t.mem (a + 11) 1 = sub ∧
      ∀ k, k ≠ a + 9 → k ≠ a + 10 → k ≠ a + 11 → readByte t.mem k = readByte s.mem k
    Memory.wf s.mem →
    (∀ w host, P.reqs.find? (fun r => r.ctx == ctx && r.page == page && !r.pri) = some q →
      (w = true ∨ q.write = false → Gives (exec (.atsCompletion hp ctx page (.page w host)) s) fun t => gone t ∧ others t ∧ t.mem = s.mem ∧
        (∃ l, (t.hostPort hp).atc = ⟨ctx, page, host, w⟩ :: l) ∧ (t.hostPort hp).atc.length ≤ 4096) ∧
      (q.quiet = true → Gives (exec (.atsCompletion hp ctx page .none) s) fun t => gone t ∧ others t ∧ t.mem = s.mem ∧
        t.host.out = s.host.out ∧ (t.hostPort hp).atc = P.atc) ∧
      (q.quiet = false → s.accepted 5 = true → s.pageHeld hp ctx page = true → Gives (exec (.atsCompletion hp ctx page .none) s) fun t =>
        others t ∧ t.mem = s.mem ∧ t.host.out = s.host.out ∧ (t.hostPort hp).reqs.length + 1 = P.reqs.length) ∧
      (q.quiet = false → s.accepted 5 = true → s.pageHeld hp ctx page = false → Gives (exec (.atsCompletion hp ctx page .none) s) fun t => others t ∧ t.mem = s.mem ∧
        t.host.out = s.host.out ++ [.pageReq hp ctx page] ∧
        ∃ r ∈ (t.hostPort hp).reqs, r = { q with pri := true, since := s.dtime }) ∧
      (q.quiet = false → s.accepted 5 = false → Gives (exec (.atsCompletion hp ctx page .none) s) fun t => gone t ∧ others t ∧
        marked t 2 1)) ∧
    (P.reqs.find? (fun r => r.ctx == ctx && r.page == page && !r.pri) = none → ∀ g, exec (.atsCompletion hp ctx page g) s = .next s) ∧
    (P.reqs.find? (fun r => r.ctx == ctx && r.page == page && r.pri) = some q →
      (s.pageAwaited hp ctx page = false → Gives (exec (.priResponse hp ctx page true) s) fun t => gone t ∧ others t ∧ marked t 1 0) ∧
      Gives (exec (.priResponse hp ctx page false) s) (fun t => gone t ∧ others t ∧ marked t 2 1)) ∧
    (P.reqs.find? (fun r => r.ctx == ctx && r.page == page && r.pri) = none → ∀ b, exec (.priResponse hp ctx page b) s = .next s) ∧
    (P.reqs = [q] → q.pri = true → q.since + 1000000000 ≤ s.dtime → Gives (exec (.priTimeout hp ctx page) s) fun t => gone t ∧
      others t ∧ marked t 2 2) ∧
    (∀ n, Gives (exec (.atsInvalidation hp ctx page n) s) fun t => others t ∧ t.mem = s.mem ∧ (t.hostPort hp).reqs = P.reqs ∧
      ∀ e : AtcEntry, e ∈ (t.hostPort hp).atc ↔ e ∈ P.atc ∧ ¬(e.ctx = ctx ∧ page ≤ e.page ∧ e.page < page + n))

/-- R495-R498, R543: an add event makes a new extent with the lowest free number, unless 28 are in use; a release request releases
nothing, and a device's record is given to the lease holder, or kept for the next one while there is none; a link that goes down is marked down, one that has trained is up; vector
5 is raised for each but training. A pool access that is not answered ends with NOTREADY, and a copy whose granule is at the pool stops
with it. -/
def Sys2Proof.Claims.CxlEvents : Prop :=
  ∀ s : State,
    (∀ a len : BitVec 32,
      ((∀ n, n < 28 → (tfind s.pool.extents n).isSome = true) → Gives (exec (.dynamicCapacityAdd a len) s) fun t =>
        t.pool = s.pool ∧ Raised s t 5 ∧ t.mem = s.mem) ∧
      (∀ n, n < 28 → tfind s.pool.extents n = none → (∀ m, m < n → (tfind s.pool.extents m).isSome = true) →
        Gives (exec (.dynamicCapacityAdd a len) s) fun t => tget (0, 0) t.pool.extents n = (a.toNat, len.toNat) ∧
          (∀ m, m ≠ n → tget (0, 0) t.pool.extents m = tget (0, 0) s.pool.extents m) ∧ t.pool = { s.pool with extents := t.pool.extents } ∧
          Raised s t 5 ∧ t.mem = s.mem)) ∧
    (∀ e, Gives (exec (.dynamicCapacityReleaseRequest e) s) fun t => t = { s with host := t.host } ∧ Raised s t 5) ∧
    (∀ r, Gives (exec (.cxlEventRecord r) s) fun t => t = { s with host := t.host } ∧
      (s.canRaise 5 = true → t.host.out = s.host.out ++ [.event s.host.lease.holder r, .msi s.host.lease.holder 5]) ∧
      (s.canRaise 5 = false → s.host.lease.valid = true → s.dtime < s.host.lease.expiry →
        t.host.out = s.host.out ++ [.event s.host.lease.holder r] ∧ t.host.pending.getLsbD 5 = true) ∧
      (s.host.lease.valid = false ∨ s.host.lease.expiry ≤ s.dtime →
        t.host.out = s.host.out ∧ t.host.events = s.host.events ++ [r] ∧ t.host.pending.getLsbD 5 = true)) ∧
    (∀ p : BitVec 4, Gives (exec (.cxlLinkDown p) s) (fun t => t.mem = s.mem ∧ Raised s t 5 ∧
        ∀ n, t.pool.down.getLsbD n = (s.pool.down.getLsbD n || n == p.toNat)) ∧
      Gives (exec (.cxlPortTrained p) s) fun t => t = { s with pool := t.pool } ∧
        (∀ n, t.pool.trained.getLsbD n = (s.pool.trained.getLsbD n || n == p.toNat)) ∧
        ∀ n, t.pool.down.getLsbD n = (s.pool.down.getLsbD n && n != p.toNat)) ∧
    (∀ id, s.findAcc id = none → (∀ c ∈ s.copies, c.id ≠ id) → exec (.poolTimeout id) s = .next s) ∧
    (∀ (c : CopyOp) (va : Nat), s.findAcc c.id = none → s.copies = [c] → (tfind s.phrases c.phrase).isSome = true → s.copyPoolVa c = some va →
      Gives (exec (.poolTimeout c.id) s) fun t => ∃ x ∈ t.copies, x.id = c.id ∧ x.st = .stopped) ∧
    (∀ (a : Access) (l : LaneAcc) (p : Piece), s.findAcc a.id = some a → a.scalar = true → a.kind = .store → a.lanes = [l] → l.parts = [p] →
      p.path = 2 → l.st = .todo → s.accs = [a] → s.mayTrap a.frag → (s.frag a.frag).ready = [] → s.results = [] → s.laneOps = [] →
      (s.frag a.frag).live = true → (s.core (s.coreOf a.frag)).frozen = false → (s.frag a.frag).stopped = false →
      Gives (exec (.poolTimeout a.id) s) fun t => t.mem = s.mem ∧ t.findAcc a.id = none ∧
        ((t.frag a.frag).bank (t.frag a.frag).tl.toNat).ecause.extractLsb' 0 16 = BitVec.ofNat 16 (causeCode .pool + 256) ∧
        ((t.frag a.frag).bank (t.frag a.frag).tl.toNat).edata = l.addr)

/-! ### TDISP and SPDM (R482, R483, R544); message codes are those of log 36 -/

/-- R482, R544: LOCK_INTERFACE takes a port from CONFIG_UNLOCKED to CONFIG_LOCKED, START_INTERFACE_REQUEST from there to RUN, and the host stops
the interface from every state; in another state, or while TDISP is not accepted, the request gets an error response and the state stands.
The vendor requests of TDISP are the same, also in a secured message that opens. A key of an IDE stream is taken over a secured session
only, in a message that opens under its keys, and answered by one; a key that changes while the interface is locked or runs breaks its
configuration (log 36). -/
def Obligations.DeviceInterface : Prop :=
  ∀ (s : State) (hp : Bool), let d := (s.hostPort hp).tdisp
    let moves (i : Instr) (x : Tdisp) : Prop := Gives (exec i s) fun t => t = { s with host := t.host } ∧ t.host.out = s.host.out ∧
      t.hostPort hp = { s.hostPort hp with tdisp := x } ∧ t.hostPort (!hp) = s.hostPort (!hp)
    let fails (i : Instr) : Prop := ∃ m, exec i s = .next { s with host := { s.host with out := s.host.out ++ [.spdm hp m] } } ∧
      m.take 2 = [0x13, 0x7F]
    (∀ i ∈ [Instr.lockInterface hp, .vendorDefinedRequest ⟨hp, none⟩ .tdispLock],
      (s.accepted 6 = true → d = .unlocked → moves i .locked) ∧ (s.accepted 6 = false ∨ d ≠ .unlocked → fails i)) ∧
    (∀ i ∈ [Instr.startInterfaceRequest hp, .vendorDefinedRequest ⟨hp, none⟩ .tdispStart],
      (s.accepted 6 = true → d = .locked → moves i .run) ∧ (s.accepted 6 = false ∨ d ≠ .locked → fails i)) ∧
    (∀ i ∈ [Instr.stopInterface hp, .vendorDefinedRequest ⟨hp, none⟩ .tdispStop],
      (s.accepted 6 = true → moves i .unlocked) ∧ (s.accepted 6 = false → fails i)) ∧
    (∀ (stream : BitVec 8) (key : BitVec 256) (rec0 : List Byte), let P := s.hostPort hp
      let x := P.spdm
      let r : DoeMsg := ⟨hp, some rec0⟩
      let others : List (Nat × Nat) := P.ide.filter fun e => e.1 != stream.toNat
      let opened : Prop := ∃ m, x.opens rec0 = some m ∧ m[1]?.getD 0 = 0xFE
      (∀ v, ¬ opened → fails (.vendorDefinedRequest r v)) ∧
      (opened → s.accepted 6 = true → ∀ e ∈ [(VendorReq.tdispLock, Tdisp.unlocked, Tdisp.locked), (.tdispStart, .locked, .run), (.tdispStop, d, .unlocked)],
        d = e.2.1 → Gives (exec (.vendorDefinedRequest r e.1) s) fun t => t = { s with host := t.host } ∧ t.host.out = s.host.out ∧
          t.hostPort hp = { P with tdisp := e.2.2, spdm := { x with reqSeq := x.reqSeq + 1 } } ∧ t.hostPort (!hp) = s.hostPort (!hp)) ∧
      ∀ v ∈ [VendorReq.ideKeyProg stream key, .ideKeyStop stream],
        fails (.vendorDefinedRequest ⟨hp, none⟩ v) ∧ (x.secured = false → fails (.vendorDefinedRequest r v)) ∧
        (x.secured = true → opened → Gives (exec (.vendorDefinedRequest r v) s) fun t => t = { s with host := t.host } ∧ let q := t.hostPort hp
          q.ide = (if v = .ideKeyProg stream key then (stream.toNat, key.toNat) :: others else others) ∧
          q.tdisp = (if d = .locked ∨ d = .run then .error else d) ∧ q.spdm = { x with reqSeq := x.reqSeq + 1, rspSeq := x.rspSeq + 1 } ∧
          t.host.out = s.host.out ++ [.spdm hp (sealRecord (x.dirKey false) (x.dirIv false) x.rspSeq [0x13, 0x7E, 0, 0])] ∧
          t.hostPort (!hp) = s.hostPort (!hp)))

/-- R483: GET_VERSION opens a connection, and the algorithms are negotiated where the requester offers all that the module has; other
requests need both before them and get an error otherwise. -/
def Sys2Proof.Claims.SpdmOpens : Prop :=
  ∀ (s : State) (hp : Bool), let x := (s.hostPort hp).spdm
    let fails (i : Instr) (code : Byte) : Prop := exec i s =
      .next { s with host := { s.host with out := s.host.out ++ [.spdm hp [0x13, 0x7F, code, 0]] } }
    let says' (i : Instr) (code : Byte) (y : List Byte → Spdm) : Prop := ∃ m, m.take 2 = [0x13, code] ∧ Gives (exec i s) fun t =>
      t = { s with host := t.host } ∧ t.host.out = s.host.out ++ [.spdm hp m] ∧ t.hostPort hp = { s.hostPort hp with spdm := y m } ∧
      t.hostPort (!hp) = s.hostPort (!hp)
    says' (.getVersion hp) 0x04 (fun m => { version := true, transcript := m }) ∧
    (x.version = true → says' (.getCapabilities hp) 0x61 fun m => { x with transcript := x.transcript ++ m }) ∧
    (x.version = false → fails (.getCapabilities hp) 0x04) ∧
    (∀ asym hash dhe aead : List Nat, let i := Instr.negotiateAlgorithms hp asym hash dhe aead
      let all := algAsym ∈ asym ∧ algHash ∈ hash ∧ algDhe ∈ dhe ∧ algAead ∈ aead
      (x.version = false → fails i 0x04) ∧ (x.version = true → ¬ all → fails i 0x07) ∧
      (x.version = true → all → says' i 0x63 fun m => { x with negotiated := true, transcript := x.transcript ++ m })) ∧
    (x.negotiated = false → fails (.getDigests hp) 0x04 ∧ (∀ a b, fails (.getCertificate hp a b) 0x04) ∧ (∀ n, fails (.challenge hp n) 0x04) ∧
      (∀ n, fails (.getMeasurements hp n) 0x04) ∧ ∀ k, fails (.keyExchange hp k) 0x04) ∧
    (x.session = false → ∀ r : DoeMsg, r.hp = hp → (∀ m, fails (.finish r m) 0x04) ∧ fails (.endSession r) 0x04)

/-- R483, R545 (the order of fields, what a secured message authenticates and the form of its answers are log 36): after the algorithms are agreed: the digest and parts of the certificate chain; CHALLENGE signs what was exchanged under
ML-DSA-44; measurement 1 is the firmware's DIGEST and 2 the SHA3-256 digest of the configuration as it is; KEY_EXCHANGE gives the
secret of secp384r1, signs the exchange and adds a code under the module's finished key; FINISH, which comes as a message sealed under the
handshake's keys, secures the session only for the code under the requester's finished key, and what follows is sealed under the session's own
keys, its messages numbered from 0; END_SESSION, sealed as well, ends it. -/
def Sys2Proof.Claims.SpdmAnswers : Prop :=
  ∀ (s : State) (hp : Bool), let x := (s.hostPort hp).spdm
    let chain := Config.certChain
    let gives' (i : Instr) (body : List Byte → Prop) (y : Spdm → List Byte → Prop) : Prop := Gives (exec i s) fun t => ∃ m, body (m.drop 4) ∧
      t.host.out = s.host.out ++ [.spdm hp m] ∧ y (t.hostPort hp).spdm m ∧ t.hostPort (!hp) = s.hostPort (!hp) ∧ t.mem = s.mem
    let kept (q : Spdm) (m : List Byte) : Prop := q = { x with transcript := x.transcript ++ m }
    (x.negotiated = true →
      gives' (.getDigests hp) (· = sha3 chain) kept ∧
      (∀ off len : BitVec 16, let part := (chain.drop off.toNat).take len.toNat
        gives' (.getCertificate hp off len) (fun b => b.drop 4 = part ∧ natOf (b.take 2) = part.length) kept) ∧
      (∀ nonce, gives' (.challenge hp nonce) (fun b => ∃ mine, mine.length = 32 ∧ let said := sha3 chain ++ mine ++ [0, 0]
        b = said ++ Config.mldsaSign (x.transcript ++ nonce ++ said)) kept) ∧
      gives' (.getMeasurements hp 1) (· = 1 :: takeFill 0 32 s.image.digest) kept ∧
      gives' (.getMeasurements hp 2) (· = 2 :: sha3 s.configBytes) kept ∧
      gives' (.getMeasurements hp 0xFF) (· = (1 :: takeFill 0 32 s.image.digest) ++ 2 :: sha3 s.configBytes) kept ∧
      (∀ k, Gives (exec (.keyExchange hp k) s) fun t => ∃ mine,
        let base := x.transcript ++ k
        let dhe := Config.dheSecret s.draws k
        let m : List Byte := [0x13, 0x64, 0, 0] ++ (mine ++ Config.mldsaSign (base ++ mine))
        let th1 := sha3 (base ++ m)
        let a := m ++ hmac (finishedKey dhe th1 false) th1
        t.host.out = s.host.out ++ [.spdm hp a] ∧ t.hostPort (!hp) = s.hostPort (!hp) ∧ t.mem = s.mem ∧
        (t.hostPort hp).spdm = { x with
          session := true, secured := false, secret := dhe, transcript := base ++ a, th1 := th1, reqSeq := 0, rspSeq := 0 })) ∧
    (x.session = true →
      ∀ (mac rec0 : List Byte), let r : DoeMsg := ⟨hp, some rec0⟩
      let fails (i : Instr) (code : Byte) (q : Spdm) : Prop := Gives (exec i s) fun t => t = { s with host := t.host } ∧
        t.host.out = s.host.out ++ [.spdm hp [0x13, 0x7F, code, 0]] ∧ t.hostPort hp = { s.hostPort hp with spdm := q }
      let answers (i : Instr) (m : List Byte) (q : Spdm) : Prop := Gives (exec i s) fun t => t = { s with host := t.host } ∧
        t.host.out = s.host.out ++ [.spdm hp (sealRecord (x.dirKey false) (x.dirIv false) x.rspSeq m)] ∧
        t.hostPort hp = { s.hostPort hp with spdm := q } ∧ t.hostPort (!hp) = s.hostPort (!hp)
      let good := mac = hmac (finishedKey x.secret x.th1 true) (sha3 x.transcript)
      fails (.finish ⟨hp, none⟩ mac) 0x04 x ∧ fails (.endSession ⟨hp, none⟩) 0x04 x ∧
      (x.opens rec0 = none → fails (.finish r mac) 0x06 x ∧ fails (.endSession r) 0x06 x) ∧
      (∀ m, x.opens rec0 = some m → (m[1]?.getD 0 ≠ 0xE5 → fails (.finish r mac) 0x01 x) ∧ (m[1]?.getD 0 ≠ 0xEC → fails (.endSession r) 0x01 x) ∧
        (m[1]?.getD 0 = 0xE5 → ¬ good ∨ m ≠ [0x13, 0xE5, 0, 0] ++ mac → fails (.finish r mac) 0x06 { x with reqSeq := x.reqSeq + 1 }) ∧
        (m = [0x13, 0xE5, 0, 0] ++ mac → good → let said := x.transcript ++ [0x13, 0x65, 0, 0]
          answers (.finish r mac) [0x13, 0x65, 0, 0] { x with secured := true, transcript := said, th2 := sha3 said, reqSeq := 0, rspSeq := 0 }) ∧
        (m[1]?.getD 0 = 0xEC → answers (.endSession r) [0x13, 0x6C, 0, 0]
          { x with reqSeq := x.reqSeq + 1, rspSeq := x.rspSeq + 1, session := false, secured := false, secret := [] })))

/-! ### The fabric: slots, links and messages -/

/-- R211, R226, R499, R502-R504, R212, R543: a slot begins with nothing sent or received in it; at index 0 the bank switches as SWITCH asks, and
the lanes that the fabric manager restores come up, and in full service the port as well. A port that is up and has a peer at the index sends a preamble with
PLANE, INDEX, PEER, LINK, BOOT and its advertisement under its CRC, and counts it in FLITTX; another sends nothing. A calendar is loaded into the
inactive bank (log 41), and that a bring-up is the manager's attempt on the port is the model's reading (log 37). -/
def Sys2Proof.Claims.SlotsBegin : Prop :=
  ∀ (s : State) (port : BitVec 4), let n := port.toNat
    let p := s.fport n
    let fab (t : State) : Prop := t = { s with fabric := t.fabric } ∧ ∀ m, m ≠ n → t.fport m = s.fport m
    let counts (q : FPort) (c : Nat) : Prop := tget 0 q.counters c = min (2 ^ 48 - 1) (tget 0 p.counters c + 1) ∧
      ∀ d, d ≠ c → tget 0 q.counters d = tget 0 p.counters d
    (∀ index : BitVec 6, Gives (exec (.slotStart port index) s) fun t => fab t ∧ let q := t.fport n
      q.index = index.toNat ∧ q.lseq = 0 ∧ q.rxlseq = 0 ∧ q.nacked = false ∧ q.peer = none ∧ q.room = 0 ∧ q.cal0 = p.cal0 ∧ q.cal1 = p.cal1 ∧
      q.given = s.fabric.advert ∧ q.taken = [] ∧ q.retry = p.retry ∧ q.txctr = p.txctr ∧
      (index ≠ 0 → q.bank = p.bank ∧ q.up = p.up ∧ q.lanes = p.lanes ∧ q.switch = p.switch) ∧
      (index = 0 → q.bank = (p.bank != p.switch) ∧ q.switch = false ∧ q.lanes = p.lanes ||| p.restore ∧ q.restore = 0 ∧
        (s.svc = .full → q.bring = false ∧ q.up = (p.up || (p.bring && p.lanes ||| p.restore != 0))) ∧
        (s.svc ≠ .full → q.bring = p.bring ∧ q.up = p.up)) ∧
      let entry : BitVec 32 := tget 0 (if q.bank then q.cal1 else q.cal0) index.toNat
      ((q.up = false ∨ s.accepted 3 = false ∨ entry.getLsbD 15 = false) → q.out = p.out ∧ q.counters = p.counters) ∧
      (q.up = true → s.accepted 3 = true → entry.getLsbD 15 = true → counts q cFlittx ∧ ∃ x : List Byte, q.out = p.out ++ [x] ∧ x.length = 256 ∧
        natOf (x.drop 252) = crc32 (x.take 252) ∧
        x.take 6 = [BitVec.ofNat 8 p.plane, BitVec.ofNat 8 index.toNat, BitVec.ofNat 8 s.moduleNo, BitVec.ofNat 8 (s.moduleNo / 256),
          BitVec.ofNat 8 (q.lanes.toNat + if p.cleared then 128 else 0), 0] ∧
        (x.drop 6).take 2 = [s.fabric.boot.extractLsb' 0 8, s.fabric.boot.extractLsb' 8 8] ∧
        natOf ((x.drop 8).take 2) = s.fabric.advert.1 % 2 ^ 16 ∧ natOf ((x.drop 10).take 2) = s.fabric.advert.2.1 % 2 ^ 16)) ∧
    (∀ (epoch : BitVec 16) (entries : List (BitVec 32)), Gives (exec (.calendarSwitch port epoch entries) s) fun t => fab t ∧
      let q := t.fport n
      q.switch = true ∧ q.epoch = epoch ∧ q.bank = p.bank ∧ q.out = p.out ∧ (p.bank = true → q.cal1 = p.cal1) ∧ (p.bank = false → q.cal0 = p.cal0) ∧
      ∀ i, i < 40 → tget 0 (if p.bank then q.cal0 else q.cal1) i = entries.getD i 0 &&& 0x83FF) ∧
    (∀ lanes : BitVec 4, Gives (exec (.portBringUp port lanes) s) fun t => fab t ∧
      t.fport n = { p with tried := true, bring := true, restore := p.restore ||| lanes })

/-- R213, R226, R502, R503, R508: a port that is down takes no preamble. One whose CRC fails counts CRCERR; one that names another plane, index or
peer counts MISMATCH, takes the port down and raises vector 6; another counts in FLITRX and makes its sender the peer of the slot, with its LANEMASK and
advertisement; a preamble without CLR shows that its sender has begun its newest generation, and one with CLR erases the older receive key of a sender
that is known to have begun the newer (log 63). -/
def Sys2Proof.Claims.Preambles : Prop :=
  ∀ (s : State) (port : BitVec 4) (x : List Byte), let n := port.toNat
    let p := s.fport n
    let word (i k : Nat) : Nat := natOf ((x.drop i).take k)
    let peer := word 2 2 % 1024
    let entry : BitVec 32 := tget 0 (if p.bank then p.cal1 else p.cal0) p.index
    let right := word 0 1 % 16 = p.plane ∧ word 1 1 = p.index ∧ entry.getLsbD 15 = true ∧ (entry.extractLsb' 0 10).toNat = peer
    let counts (q : FPort) (c : Nat) : Prop := tget 0 q.counters c = min (2 ^ 32 - 1) (tget 0 p.counters c + 1) ∧
      ∀ d, d ≠ c → tget 0 q.counters d = tget 0 p.counters d
    ((p.up = false ∨ s.accepted 3 = false) → exec (.preamble port x) s = .next s) ∧
    (p.up = true → s.accepted 3 = true →
      (crcGood x = false → Gives (exec (.preamble port x) s) fun t => t = { s with fabric := t.fabric } ∧ counts (t.fport n) cCrcerr ∧
        t.fport n = { p with counters := (t.fport n).counters }) ∧
      (crcGood x = true → ¬ right → Gives (exec (.preamble port x) s) fun t => t.mem = s.mem ∧ counts (t.fport n) cMismatch ∧
        t.fport n = { p with counters := (t.fport n).counters, up := false } ∧ Raised s t 6) ∧
      (crcGood x = true → right → (tfind s.fabric.boots peer = none ∨ tfind s.fabric.boots peer = some (BitVec.ofNat 16 (word 6 2))) →
        Gives (exec (.preamble port x) s) fun t => t = { s with fabric := t.fabric } ∧ let q := t.fport n
          q.peer = some peer ∧ q.peerMask = BitVec.ofNat 4 (word 4 1) ∧ q.adv.1 = word 8 2 ∧ q.adv.2.1 = word 10 2 ∧ q.up = true ∧
          (∀ d, d ∈ q.adv.2.2 ↔ ∃ i, i < 10 ∧ (word (12 + 2 * i) 2).testBit 15 = true ∧ word (12 + 2 * i) 2 % 1024 = d) ∧
          tget 0 q.counters cFlitrx = min (2 ^ 48 - 1) (tget 0 p.counters cFlitrx + 1) ∧
          (∀ d, d ≠ cFlitrx → tget 0 q.counters d = tget 0 p.counters d) ∧ q.out = p.out ∧ tget 0 t.fabric.boots peer = BitVec.ofNat 16 (word 6 2) ∧
          (q.rx.filter fun k => k.src != peer) = (p.rx.filter fun k => k.src != peer) ∧
          (∀ k ks, (p.rx.filter fun k => k.src == peer) = k :: ks → (q.rx.filter fun k => k.src == peer) =
            if (word 4 1).testBit 7 = false then { k with sure := true } :: ks else if k.sure = true then [k] else k :: ks)))

/-- R505, R506: what an ACK, a NAK, a KEYCLEAR and an idle flit share at the receiver. A port that is down or has no peer takes none; one
whose CRC or tag fails is counted and answered as a message flit is; one of another TYPE changes nothing; a good idle flit counts in FLITRX and
carries nothing. -/
def Sys2Proof.Claims.LinkFlits : Prop :=
  ∀ (s : State) (port : BitVec 4) (x : List Byte) (busy : Bool) (gen : BitVec 32), let n := port.toNat
    let p := s.fport n
    let h : Word := BitVec.ofNat 64 (natOf (x.take 8))
    let src := (h.extractLsb' 16 10).toNat
    let lseq := (h.extractLsb' 48 16).toNat
    let clear := (p.rx.find? fun k => k.src == src && k.gen.toNat == natOf ((x.drop 8).take 4)).bind fun k => openFlit k.key x
    let fails (i : Instr) (c : Nat) : Prop := Gives (exec i s) fun t => OnLink s t n ∧ t.fabric.outq = s.fabric.outq ∧
      t.fabric.waiting = s.fabric.waiting ∧ tget 0 (t.fport n).counters c = min (2 ^ 32 - 1) (tget 0 p.counters c + 1) ∧
      (t.fport n).rxlseq = p.rxlseq ∧ (t.fport n).nacked = true ∧ (p.nacked = true → lseq ≠ p.rxlseq.toNat → (t.fport n).out = p.out) ∧
      (p.nacked = false ∨ lseq = p.rxlseq.toNat → p.room ≠ 0 → p.txctr.toNat < 2 ^ 32 - 1 → ∃ y : List Byte, (t.fport n).out = p.out ++ [y] ∧ y.take 1 = [4])
    (∀ i ∈ [Instr.ack port x, .nak port x busy, .keyclear port x gen, .idle ⟨port, x⟩],
      ((p.up = false ∨ s.accepted 3 = false ∨ p.peer = none) → exec i s = .next s) ∧
      (p.up = true → s.accepted 3 = true → p.peer ≠ none → (crcGood x = false → fails i cCrcerr) ∧ (crcGood x = true → clear = none → fails i cTagerr) ∧
        (crcGood x = true → clear.isSome = true → ∀ y ∈ [(Instr.ack port x, (3 : Nat)), (.nak port x busy, 4), (.keyclear port x gen, 5), (.idle ⟨port, x⟩, 6)],
          i = y.1 → natOf (x.take 1) ≠ y.2 → exec i s = .next s))) ∧
    (p.up = true → s.accepted 3 = true → p.peer ≠ none → crcGood x = true → clear.isSome = true → natOf (x.take 1) = 6 →
      Gives (exec (.idle ⟨port, x⟩) s) fun t => t = { s with fabric := t.fabric } ∧ (∀ m, m ≠ n → t.fport m = s.fport m) ∧
        t.fport n = { p with counters := (t.fport n).counters
                             rx := p.rx.map fun k => if k.src == src && k.gen.toNat == natOf ((x.drop 8).take 4) then { k with sure := true } else k } ∧
        tget 0 (t.fport n).counters cFlitrx = min (2 ^ 48 - 1) (tget 0 p.counters cFlitrx + 1) ∧
        ∀ d, d ≠ cFlitrx → tget 0 (t.fport n).counters d = tget 0 p.counters d)

/-- R226, R506-R508: an ACK frees its flit. A NAK sends the unacknowledged flits from its LSEQ on again, as they are stored, and counts REPLAY
unless it is BUSY; at the fourth failure of a flit, or with flits left when the data period ends, the buffer goes, REINIT counts, and
the messages are sent again: they enter their queues before what stands there, or are held where they find no room (R184). That the row of a NAK
says whether it is BUSY is the model's form (log 63). A lane that fails leaves LANEMASK, counts LANEDOWN and raises vector 6, and without lanes the port is
down. -/
def Sys2Proof.Claims.LinkRecovery : Prop :=
  ∀ (s : State) (port : BitVec 4), let n := port.toNat
    let p := s.fport n
    let idle0 := p.up = true ∧ s.accepted 3 = true ∧ p.peer ≠ none
    let src (x : List Byte) : Nat := ((BitVec.ofNat 64 (natOf (x.take 8)) : Word).extractLsb' 16 10).toNat
    let lseqOf (x : List Byte) : BitVec 16 := (BitVec.ofNat 64 (natOf (x.take 8)) : Word).extractLsb' 48 16
    let genOf (x : List Byte) : Nat := natOf ((x.drop 8).take 4)
    let on (x : List Byte) (typ : Nat) : Prop := idle0 ∧ crcGood x = true ∧ natOf (x.take 1) = typ ∧
      ((p.rx.find? fun k => k.src == src x && k.gen.toNat == genOf x).bind fun k => openFlit k.key x).isSome = true
    let sure (x : List Byte) : List RxKey := p.rx.map fun k => if k.src == src x && k.gen.toNat == genOf x then { k with sure := true } else k
    let counts (t : State) (c : Nat) : Prop := tget 0 (t.fport n).counters c = min (2 ^ 32 - 1) (tget 0 p.counters c + 1)
    let still (t : State) : Prop := t = { s with fabric := t.fabric }
    let heard (t : State) : Prop := tget 0 (t.fport n).counters cFlitrx = min (2 ^ 48 - 1) (tget 0 p.counters cFlitrx + 1) ∧
      ∀ d, d ≠ cFlitrx → tget 0 (t.fport n).counters d = tget 0 p.counters d
    let again (t : State) : Prop := let ids := p.retry.map fun f => f.msg
      still t ∧ counts t cReinit ∧ (t.fport n).retry = [] ∧ (t.fport n).peer = none ∧ (t.fport n).room = 0 ∧
      (t.fabric.outq ++ t.fabric.held).Perm ((s.fabric.kept.filter fun m => decide (m.id ∈ ids)) ++ s.fabric.outq ++ s.fabric.held) ∧
      (∀ m ∈ s.fabric.kept, m.id ∈ ids → m.relay = true → m ∈ t.fabric.outq) ∧ (∃ l, t.fabric.outq = l ++ s.fabric.outq) ∧
      ((∀ m ∈ s.fabric.kept, m.id ∈ ids → m.relay = true) → t.fabric.held = s.fabric.held) ∧
      t.fabric.kept = s.fabric.kept.filter fun m => decide (m.id ∉ ids)
    (∀ x, on x 3 → Gives (exec (.ack port x) s) fun t => OnLink s t n ∧ (t.fport n).retry = p.retry.filter (fun f => f.lseq != lseqOf x) ∧
        (t.fport n).rx = sure x ∧ t.fabric.outq = s.fabric.outq) ∧
    (∀ (x : List Byte) (busy : Bool), let lseq := lseqOf x
      (on x 4 → (∀ f ∈ p.retry, f.lseq ≠ lseq) → Gives (exec (.nak port x busy) s) fun t => still t ∧ heard t ∧
        t.fport n = { p with counters := (t.fport n).counters, rx := sure x }) ∧
      (on x 4 → (∃ f ∈ p.retry, f.lseq = lseq) →
        let sent := ((p.retry.filter fun f => decide (lseq.toNat ≤ f.lseq.toNat)).take p.room).map fun f => f.bytes
        let fourth := ∃ f ∈ p.retry, 4 ≤ (if f.lseq = lseq then f.fails + 1 else f.fails)
        (busy = true → Gives (exec (.nak port x true) s) fun t => still t ∧ (t.fport n).out = p.out ++ sent ∧
          (t.fport n).retry = p.retry ∧ heard t) ∧
        (busy = false → ¬ fourth → Gives (exec (.nak port x false) s) fun t => still t ∧ (t.fport n).out = p.out ++ sent ∧
          counts t cReplay ∧ (t.fport n).retry.map (fun f => f.bytes) = p.retry.map fun f => f.bytes) ∧
        (busy = false → fourth → Gives (exec (.nak port x false) s) again))) ∧
    (p.retry = [] → Gives (exec (.dataPeriodEnd port) s) fun t => still t ∧ t.fport n = { p with peer := none, room := 0 }) ∧
    (p.retry ≠ [] → Gives (exec (.dataPeriodEnd port) s) again) ∧
    (∀ lane : BitVec 2, (p.lanes.getLsbD lane.toNat = false → exec (.laneFail port lane) s = .next s) ∧
      (p.lanes.getLsbD lane.toNat = true → Gives (exec (.laneFail port lane) s) fun t => t.mem = s.mem ∧ counts t cLanedown ∧ Raised s t 6 ∧
        (t.fport n).lanes = p.lanes &&& ~~~BitVec.twoPow 4 lane.toNat ∧
        (p.lanes &&& ~~~BitVec.twoPow 4 lane.toNat = 0 → (t.fport n).up = false) ∧
        (p.lanes &&& ~~~BitVec.twoPow 4 lane.toNat ≠ 0 → (t.fport n).up = p.up ∧
          ((∀ f ∈ p.retry, f.lane ≠ lane.toNat) → (t.fport n).out = p.out ∧ (t.fport n).retry = p.retry)))) ∧
    (∀ dest : BitVec 10, (s.fabric.held.find? (fun m => m.dest == dest.toNat) = none → exec (.fabricQueueAdmit dest) s = .next s) ∧
      ∀ m, s.fabric.held.find? (fun m => m.dest == dest.toNat) = some m →
        (s.fabric.admits m = false → exec (.fabricQueueAdmit dest) s = .next s) ∧
        (s.fabric.admits m = true → Gives (exec (.fabricQueueAdmit dest) s) fun t => still t ∧ t.fabric.outq = s.fabric.outq ++ [m] ∧
          t.fabric.held = s.fabric.held.filter (fun x => x.id != m.id) ∧ t.fabric.ports = s.fabric.ports))

/-- R508: a receiver holds the new key of a sender beside its current one, and erases a generation on KEYCLEAR; a sender takes the next
generation with TXCTR 0, and not before KEYCLEAR has been sent for the last change. -/
def Sys2Proof.Claims.LinkKeys : Prop :=
  ∀ (s : State) (port : BitVec 4), let n := port.toNat
    let p := s.fport n
    let gen0 : Nat := tget 0 p.counters cKeygen
    let still (t : State) : Prop := t = { s with fabric := t.fabric }
    (∀ (src : BitVec 10) (gen : BitVec 32) (key : BitVec 256),
      Gives (exec (.keyChange port (.receiver src gen key)) s) fun t => still t ∧ t.fport n = { p with rx := (t.fport n).rx } ∧
        ((t.fport n).rx.filter fun k => k.src == src.toNat) =
          ⟨src.toNat, gen, key, false⟩ :: (p.rx.filter fun k => k.src == src.toNat && k.gen != gen).take 1 ∧
        ((t.fport n).rx.filter fun k => k.src != src.toNat) = p.rx.filter fun k => k.src != src.toNat) ∧
    (∀ (gen : BitVec 32) (key : BitVec 256),
      ((p.cleared = false ∨ gen.toNat ≠ (gen0 + 1) % 2 ^ 32) → exec (.keyChange port (.sender gen key)) s = .next s) ∧
      (p.cleared = true → gen.toNat = (gen0 + 1) % 2 ^ 32 → Gives (exec (.keyChange port (.sender gen key)) s) fun t => still t ∧
        (t.fport n).txkey = key ∧ tget 0 (t.fport n).counters cKeygen = gen.toNat ∧ (t.fport n).retry = p.retry ∧
        ((∃ f ∈ p.retry, natOf ((f.bytes.drop 8).take 4) ≠ gen.toNat) → (t.fport n).txctr = 0 ∧ (t.fport n).cleared = false ∧
          (t.fport n).out = p.out) ∧
        ((∀ f ∈ p.retry, natOf ((f.bytes.drop 8).take 4) = gen.toNat) → (t.fport n).cleared = true))) ∧
    (∀ (x : List Byte) (gen : BitVec 32), let src := ((BitVec.ofNat 64 (natOf (x.take 8)) : Word).extractLsb' 16 10).toNat
      let sure (k : RxKey) : RxKey := if k.src == src && k.gen.toNat == natOf ((x.drop 8).take 4) then { k with sure := true } else k
      (p.up = true → s.accepted 3 = true → p.peer ≠ none → crcGood x = true → natOf (x.take 1) = 5 →
        ((p.rx.find? fun k => k.src == src && k.gen.toNat == natOf ((x.drop 8).take 4)).bind fun k => openFlit k.key x).isSome = true →
        Gives (exec (.keyclear port x gen) s) fun t => still t ∧
        t.fport n = { p with counters := (t.fport n).counters, rx := (p.rx.map sure).filter fun k => !(k.src == src && k.gen == gen) } ∧
        tget 0 (t.fport n).counters cFlitrx = min (2 ^ 48 - 1) (tget 0 p.counters cFlitrx + 1) ∧
        ∀ d, d ≠ cFlitrx → tget 0 (t.fport n).counters d = tget 0 p.counters d))

/-- R185, R504-R506, R512: a message flit is taken from a peer only, and of its TYPE only. One whose CRC or tag fails counts CRCERR or TAGERR; one beyond the expected LSEQ
is not taken; the expected one is counted, and the payload joins its message: a whole message for this module is the message row of its
operation, one for another module goes to the relay store, within what the slot's preamble advertised for its destination, and a part waits for its
continuation. How much of an advertisement is used up is the model's count (logs 40, 65). -/
def Sys2Proof.Claims.FlitsArrive : Prop :=
  ∀ (s : State) (port : BitVec 4) (x : List Byte) (first : Bool), let n := port.toNat
    let p := s.fport n
    let i : Instr := if first then .messageFirst port x else .messageContinuation port x
    let h : Word := BitVec.ofNat 64 (natOf (x.take 8))
    let src := (h.extractLsb' 16 10).toNat
    let dst := (h.extractLsb' 26 10).toNat
    let vc := (h.extractLsb' 8 1).toNat
    let lseq := (h.extractLsb' 48 16).toNat
    let still (t : State) : Prop := OnLink s t n ∧ t.fabric.outq = s.fabric.outq ∧ t.fabric.waiting = s.fabric.waiting
    let counts (t : State) (c top : Nat) : Prop := tget 0 (t.fport n).counters c = min top (tget 0 p.counters c + 1)
    let clear := (p.rx.find? fun k => k.src == src && k.gen.toNat == natOf ((x.drop 8).take 4)).bind fun k => openFlit k.key x
    -- the first failing flit is answered, and so is the one that was sent again and fails once more
    let naks (t : State) : Prop := p.nacked = false ∨ lseq = p.rxlseq.toNat → p.room ≠ 0 → p.txctr.toNat < 2 ^ 32 - 1 →
      ∃ y : List Byte, (t.fport n).out = p.out ++ [y] ∧ y.take 1 = [4]
    ((p.up = false ∨ s.accepted 3 = false ∨ p.peer = none) → exec i s = .next s) ∧
    (p.up = true → s.accepted 3 = true → p.peer ≠ none →
      (crcGood x = false → Gives (exec i s) fun t => still t ∧ counts t cCrcerr (2 ^ 32 - 1) ∧ (t.fport n).rxlseq = p.rxlseq ∧
        (t.fport n).nacked = true ∧ (p.nacked = true → lseq ≠ p.rxlseq.toNat → (t.fport n).out = p.out) ∧ naks t) ∧
      (crcGood x = true → clear = none → Gives (exec i s) fun t => still t ∧ counts t cTagerr (2 ^ 32 - 1) ∧
        (t.fport n).rxlseq = p.rxlseq ∧ (t.fport n).nacked = true ∧
        (p.nacked = true → lseq ≠ p.rxlseq.toNat → (t.fport n).out = p.out) ∧ naks t) ∧
      (crcGood x = true → clear.isSome = true → natOf (x.take 1) ≠ (if first then 1 else 2) → exec i s = .next s) ∧
      (crcGood x = true → natOf (x.take 1) = (if first then 1 else 2) → ∀ text, clear = some text →
        (p.rxlseq.toNat ≠ lseq → Gives (exec i s) fun t => still t ∧ (t.fport n).rxlseq = p.rxlseq ∧ (t.fport n).partMsg = p.partMsg) ∧
        (p.rxlseq.toNat = lseq → vc = 0 → dst ≠ s.moduleNo → relayAllows p.given p.taken dst 1 = false → Gives (exec i s) fun t => still t ∧
          (t.fport n).rxlseq = p.rxlseq ∧ (t.fport n).partMsg = p.partMsg) ∧
        (p.rxlseq.toNat = lseq → vc = 1 ∨ dst = s.moduleNo ∨ relayAllows p.given p.taken dst 1 = true → first = true →
          ∀ len, msgLength text = some len →
            (text.length < len → Gives (exec i s) fun t => still t ∧ (t.fport n).rxlseq = p.rxlseq + 1 ∧
              counts t cFlitrx (2 ^ 48 - 1) ∧ ((t.fport n).partMsg.find? fun e => e.1 == 2 * src + vc) = some (2 * src + vc, dst, text)) ∧
            (len ≤ text.length → ∀ m, msgFrom dst text = some m →
              (dst ≠ s.moduleNo → Gives (exec i s) fun t => OnLink s t n ∧ (t.fport n).rxlseq = p.rxlseq + 1 ∧
                ∃ o : OutMsg, t.fabric.outq = s.fabric.outq ++ [o] ∧ o.dest = dst ∧ o.msg = m ∧ o.relay = true) ∧
              (dst = s.moduleNo → vc = 0 → m.op ∈ [FabOp.read, .write, .atomic, .mcast, .noun] → ∃ u : State, still u ∧
                (u.fport n).rxlseq = p.rxlseq + 1 ∧ let y := BitVec.ofNat 10 src
                (m.op = .read → exec i s = exec (.read y m) u) ∧ (m.op = .write → exec i s = exec (.write y m) u) ∧
                (m.op = .atomic → exec i s = exec (.atomic y m) u) ∧ (m.op = .mcast → exec i s = exec (.multicastWrite y m) u) ∧
                (m.op = .noun → exec i s = exec (.nounOperation y m) u))))))

/-- R185, R504-R506, R512: a continuation flit that is the expected one, good under its CRC and its tag, and within the advertised room
adds its payload to the parts of its message that have come: with a part still missing the bytes wait on, and a whole message goes to
the relay store for another module, or is performed. A continuation of no message is counted and carries nothing. -/
def Sys2Proof.Claims.ContinuationsArrive : Prop :=
  ∀ (s : State) (port : BitVec 4) (x text : List Byte), let n := port.toNat
    let p := s.fport n
    let h : Word := BitVec.ofNat 64 (natOf (x.take 8))
    let src := (h.extractLsb' 16 10).toNat
    let dst := (h.extractLsb' 26 10).toNat
    let vc := (h.extractLsb' 8 1).toNat
    let run := exec (.messageContinuation port x) s
    let taken (t : State) : Prop := (t.fport n).rxlseq = p.rxlseq + 1
    p.up = true → s.accepted 3 = true → p.peer ≠ none → crcGood x = true → natOf (x.take 1) = 2 →
    ((p.rx.find? fun k => k.src == src && k.gen.toNat == natOf ((x.drop 8).take 4)).bind fun k => openFlit k.key x) = some text →
    p.rxlseq.toNat = (h.extractLsb' 48 16).toNat → (vc = 1 ∨ dst = s.moduleNo ∨ relayAllows p.given p.taken dst 1 = true) →
    ((p.partMsg.find? fun e => e.1 == 2 * src + vc) = none → Gives run fun t => OnLink s t n ∧ taken t ∧
      t.fabric.outq = s.fabric.outq ∧ (t.fport n).partMsg = p.partMsg ∧
      tget 0 (t.fport n).counters cFlitrx = min (2 ^ 48 - 1) (tget 0 p.counters cFlitrx + 1)) ∧
    ∀ e, (p.partMsg.find? fun e => e.1 == 2 * src + vc) = some e → let all := e.2.2 ++ text
      ∀ len, msgLength all = some len →
        (all.length < len → Gives run fun t => OnLink s t n ∧ taken t ∧ t.fabric.outq = s.fabric.outq ∧
          ((t.fport n).partMsg.find? fun e => e.1 == 2 * src + vc) = some (2 * src + vc, dst, all)) ∧
        (len ≤ all.length → ∀ m, msgFrom dst all = some m →
          (dst ≠ s.moduleNo → Gives run fun t => OnLink s t n ∧ taken t ∧
            ((t.fport n).partMsg.find? fun e => e.1 == 2 * src + vc) = none ∧
            ∃ o : OutMsg, t.fabric.outq = s.fabric.outq ++ [o] ∧ o.dest = dst ∧ o.msg = m ∧ o.relay = true) ∧
          (dst = s.moduleNo → vc = 0 → m.op ∈ [FabOp.read, .write, .atomic, .mcast, .noun] → ∃ u t : State, run = .next t ∧
            OnLink s u n ∧ taken u ∧ ((u.fport n).partMsg.find? fun e => e.1 == 2 * src + vc) = none ∧
            let y := BitVec.ofNat 10 src
            (m.op = .read → run = exec (.read y m) u) ∧ (m.op = .write → run = exec (.write y m) u) ∧
            (m.op = .atomic → run = exec (.atomic y m) u) ∧ (m.op = .mcast → run = exec (.multicastWrite y m) u) ∧
            (m.op = .noun → run = exec (.nounOperation y m) u)))

/-- R321, R323, R325, R510, R511, R513: a message that has not arrived before is performed once, as an access of this module at the export
window, and answered with its data, an acknowledgement, or a failure of the lanes that find no window; a multicast is performed in
every lane or in none. A member of an ordered stream before its turn is held, or refused as BUSY when 4096 are; one that has been
performed is not performed again. -/
def Obligations.MessagesArrive : Prop :=
  ∀ (s : State) (src : BitVec 10) (m : FabMsg), let k := src.toNat
    let w := if m.w64 then 8 else 4
    let x : ExpWin := tget {} s.host.exp m.win.toNat
    let shown := x.ctl.getLsbD 0 = true ∧ (x.owner = m.ctx ∨ BitVec.ofNat 32 (2 ^ 31 + m.ctx) ∈ x.imps)
    let fits (l : FabLane) : Prop := shown ∧ l.off.toNat + w ≤ x.size.toNat ∧ x.base.toNat + l.off.toNat + w ≤ 0x400000000
    let outside (l : FabLane) : Prop := ¬ shown ∨ x.size.toNat < l.off.toNat + w
    let answered (t : State) (op : FabOp) (sub : BitVec 8) (busy : Bool) (lanes : Mask) (body : List FabLane) : Prop :=
      ∃ o ∈ t.fabric.outq ++ t.fabric.held, o.dest = k ∧ o.src = s.moduleNo ∧ o.msg.op = op ∧ o.msg.sub = sub ∧ o.msg.busy = busy ∧
        o.msg.oseq = m.msgid ∧ o.msg.lanes = lanes ∧ o.msg.body = body
    let known := ∃ e ∈ s.fabric.arrived, e.1 = k ∧ e.2.1 % 2 ^ 32 = m.msgid % 2 ^ 32
    let waits := ∃ h ∈ s.fabric.waiting, h.src = k ∧ h.msg.msgid % 2 ^ 32 = m.msgid % 2 ^ 32
    let run : Out := match m.op with
      | .read => exec (.read src m) s
      | .write => exec (.write src m) s
      | .atomic => exec (.atomic src m) s
      | .mcast => exec (.multicastWrite src m) s
      | _ => exec (.nounOperation src m) s
    let inStream := m.op = .noun ∨ (m.ord = true ∧ (m.op = .write ∨ m.op = .mcast))
    (m.op ∈ [FabOp.read, .write, .atomic, .mcast, .noun] → known → Gives run fun t => t.mem = s.mem ∧ t.nouns = s.nouns ∧
      t.fabric.arrived = s.fabric.arrived) ∧
    (inStream → ¬ known → ¬ waits → s.expected m.srcph k < m.oseq →
      (s.fabric.waiting.length < 4096 → Gives run fun t => t = { s with fabric := t.fabric } ∧
        t.fabric.waiting = s.fabric.waiting ++ [⟨k, m, tget {} s.host.exp m.win.toNat⟩] ∧ t.fabric.outq = s.fabric.outq) ∧
      (4096 ≤ s.fabric.waiting.length → Gives run fun t => t.mem = s.mem ∧ t.nouns = s.nouns ∧ answered t .fail 0 true m.lanes [])) ∧
    (¬ known → ¬ waits → ∀ l, m.body = [l] → s.poison = [] → m.ord = false → let a := x.base.toNat + l.off.toNat
      let lane := maskOf [l.lane]
      (m.op ∈ [FabOp.read, .write, .atomic] → outside l → Gives run fun t => t.mem = s.mem ∧ answered t .fail 0x02 false lane []) ∧
      (m.op = .read → fits l → Gives run fun t => t.mem = s.mem ∧
        answered t .rresp 0 false lane [⟨l.lane, 0, BitVec.ofNat 64 (readNat s.mem a w), 0⟩]) ∧
      (m.op = .write → fits l → x.ctl.getLsbD 1 = true → Gives run fun t => t.mem = writeNat a w l.data.toNat s.mem ∧
        answered t .wack 0 false lane []) ∧
      (m.op ∈ [FabOp.write, .atomic] → m.rop ≠ .rd → fits l → x.ctl.getLsbD 1 = false → Gives run fun t => t.mem = s.mem ∧
        answered t .fail 0x02 false lane []) ∧
      (∀ op, m.op = .atomic → ropAmo m.rop m.sgn = some op → fits l → x.ctl.getLsbD 1 = true → Gives run fun t =>
        t.mem = (match amoNew op (8 * w) (readNat s.mem a w) l.data.toNat l.cmp.toNat with
          | some v => writeNat a w v s.mem
          | none => s.mem) ∧
        answered t .rresp 0 false lane [⟨l.lane, 0, BitVec.ofNat 64 (readNat s.mem a w), 0⟩]) ∧
      (∀ act, m.op = .noun → nounActOf l.cmp l.data = some act → m.oseq = s.expected m.srcph k → s.nouns = [] → Gives run fun t =>
        t.mem = s.mem ∧ t.nouns = [{ id := s.nextId, src := .peer k m.msgid, ctx := m.ctx, act := act, noun := l.off, granted := (l.off.extractLsb' 42 20).toNat != m.ctx, sender := m.srcph }] ∧
        t.expected m.srcph k = m.oseq + 1)) ∧
    (¬ known → ¬ waits → s.poison = [] → m.op = .mcast → m.ord = false → x.ctl.getLsbD 1 = true →
      ((∀ l ∈ m.body, fits l) → Gives run fun t => answered t .wack 0 false m.lanes [] ∧
        t.mem = m.body.foldl (fun mem l => writeNat (x.base.toNat + l.off.toNat) w l.data.toNat mem) s.mem) ∧
      ((∀ l ∈ m.body, fits l ∨ outside l) → (∃ l ∈ m.body, outside l) → Gives run fun t => t.mem = s.mem ∧
        answered t .fail 0x02 false m.lanes []))

/-- R323, R454, R510, R511: an acknowledgement or the data of a read end the lanes that they name, the data in the destination register; a
failure ends its lane in FABRIC with the sub-cause and the peer datum, and one marked BUSY sends the message again: it enters its queue, or
is held where it finds no room (R184); the answer of a noun
operation, its rights cut to those that the grant left (R193), is the reply of the instruction that sent it. -/
def Obligations.AnswersArrive : Prop :=
  ∀ (s : State) (src : BitVec 10) (m : FabMsg),
    let mine (o : OutMsg) : Bool := o.src == s.moduleNo && !o.relay && o.id % 2 ^ 32 == m.oseq % 2 ^ 32
    (m.busy = true → Gives (exec (.failureResponse src m) s) fun t => t = { s with fabric := t.fabric } ∧
      (t.fabric.outq ++ t.fabric.held).Perm (s.fabric.kept.filter mine ++ s.fabric.outq ++ s.fabric.held) ∧
      (∃ l, t.fabric.outq = l ++ s.fabric.outq) ∧ t.fabric.kept = s.fabric.kept.filter fun o => !mine o) ∧
    (∀ (o : NounOp) (l : FabLane) (k : Nat) (sd sf : SReg) (pc : Word) (id : Nat), s.nouns = [o] → s.accs = [] → o.msg = some id →
      id % 2 ^ 32 = m.oseq % 2 ^ 32 → o.src = .frag k sd sf pc → m.body = [l] →
      Gives (exec (.readResponse src m) s) (fun t => t.nouns = [] ∧ t.mem = s.mem ∧ (∃ y : Reply, t.replies = s.replies ++ [y] ∧ y.id = o.id ∧ y.frag = k ∧
        y.pc = pc ∧ y.exn = none ∧ (o.act.pair = true → y.writes = [(sd, l.data), (sf, l.cmp)]) ∧
        (o.act.pair = false → ∃ w, y.writes = [(sd, w)] ∧ ∀ i, i < 64 → w.getLsbD i =
          (l.cmp.getLsbD i && (o.act != .test || !(decide (32 ≤ i ∧ i < 37)) || o.within.testBit (i - 32))))) ∧
        t.fabric.kept = s.fabric.kept.filter fun x => !mine x) ∧
      (m.busy = false → Gives (exec (.failureResponse src m) s) fun t => t.nouns = [] ∧ t.mem = s.mem ∧ ∃ y : Reply, t.replies = s.replies ++ [y] ∧
        y.id = o.id ∧ y.writes = [] ∧ y.exn = some { cause := .noun, sub := m.sub, mask := 0, data := o.noun, kind := .scalar })) ∧
    (∀ (a : Access) (l : LaneAcc) (id : Nat), s.nouns = [] → s.accs = [a] → a.scalar = false → a.kind ≠ .mcast → a.lanes = [l] → l.st = .sent →
      l.msg = some id → id % 2 ^ 32 = m.oseq % 2 ^ 32 → m.lanes.getLsbD l.lane = true → (s.frag a.frag).ready = [] → let p := phraseOf a.frag
      (a.dest = .none → Gives (exec (.writeAcknowledgement src m) s) fun t => t.accs = [] ∧ t.mem = s.mem ∧ t.phrases = s.phrases ∧
        (∀ k (x : SReg), (t.frag k).reg x = (s.frag k).reg x) ∧ t.fabric.kept = s.fabric.kept.filter fun o => !mine o) ∧
      (∀ v tp d, a.dest = .lane v tp → m.body = [d] → d.lane = l.lane → Gives (exec (.readResponse src m) s) fun t => t.accs = [] ∧
        t.mem = s.mem ∧ t.phr p = (s.phr p).setVal v l.lane a.bytes a.signed d.data.toNat ∧ (∀ q, q ≠ p → t.phr q = s.phr q) ∧
        ∀ k (x : SReg), (t.frag k).reg x = (s.frag k).reg x) ∧
      (m.busy = false → l.lane < 32 → (s.frag a.frag).tl = 0 → (s.frag a.frag).wait = .none → (s.frag a.frag).live = true →
        (s.frag a.frag).stopped = false → (s.core (s.coreOf a.frag)).frozen = false → s.results = [] → s.laneOps = [] →
        Gives (exec (.failureResponse src m) s) fun t => let f := t.frag a.frag
          t.accs = [] ∧ t.mem = s.mem ∧ t.phrases = s.phrases ∧ f.tl = 1 ∧ f.bank1.emask = BitVec.twoPow 32 l.lane ∧ f.bank1.elpc = a.pc ∧
          f.bank1.ecause = BitVec.ofNat 32 (causeCode .fabric + 256 * m.sub.toNat + 65536) ∧
          f.bank1.edata = BitVec.ofNat 64 (l.peer.toNat % 65536 * 281474976710656 + l.addr.toNat % 281474976710656) ∧ f.queue = [] ∧
          f.pc = (s.phr p).tvec ∧ ∀ x : SReg, f.reg x = (s.frag a.frag).reg x))

/-! ### Reset, power, cooling and fatal errors -/

/-- R24, R158, R502, R543, R545: module reset with an image that the boot ROM accepts begins reduced service with a new boot epoch; with another,
and at power loss, the module stays in reset. Every phrase, context, access, lease and queue is gone, vaults and scratch are zero, and
the memory of the pool and of hosts stands (a reset may come while the module serves: log 66). Full service begins once every CXL port has
trained or 2000 ms have passed, and each optical port has been tried; it changes the service level and what firmware writes to POOLCFG only,
where WAYS and GRAN are open and PORTS, which the manual leaves to firmware, lists the trained ports in ascending order (log 8). -/
def Obligations.ResetAndService : Prop :=
  ∀ (s : State) (x : FwImage), let ok := sha3 x.body = x.digest ∧ Config.mldsaVerify (imageHeader x) x.sig = true
    let anew (t : State) (boot : BitVec 16) (image : FwImage) : Prop := t.phrases = [] ∧ t.frags = [] ∧ t.accs = [] ∧ t.contexts = [] ∧
      t.applied = [] ∧ t.lqs = [] ∧ t.copies = [] ∧ t.nouns = [] ∧ t.host.lease.valid = false ∧ t.host.feat = 0 ∧ t.poison = [] ∧
      t.fabric.boot = boot ∧ (∀ n, (t.fport n).up = false) ∧ t.dtime = 0 ∧ t.moduleNo = s.moduleNo ∧ t.image = image ∧ t.inputs = s.inputs ∧
      (Memory.wf s.mem → (∀ a, a < 0x400000000 → readByte t.mem a = 0) ∧
        (∀ core off, core < 1536 → off < 0x60000 → readByte t.mem (scratchKey core off) = 0) ∧
        ∀ a, (0x4000000000000 ≤ a ∧ a < 0x8000000000000) ∨ hostBase ≤ a → readByte t.mem a = readByte s.mem a)
    Gives (exec (.moduleReset x) s) (fun t => (ok → t.svc = .reduced) ∧ (¬ ok → t.svc = .inReset) ∧ anew t (s.fabric.boot + 1) x) ∧
    Gives (exec .powerLoss s) (fun t => t.svc = .inReset ∧ anew t s.fabric.boot s.image) ∧
    let due := (s.pool.trained = 0xFFFF ∨ 2000000000 ≤ s.dtime) ∧ ∀ n, n < 16 → (s.fport n).tried = true
    (s.svc ≠ .reduced ∨ ¬ due → exec .fullServiceStart s = .next s) ∧
    (s.svc = .reduced → due → Gives (exec .fullServiceStart s) fun t => t = { s with svc := .full, pool := t.pool, draws := t.draws } ∧
      t.pool.order = (List.range 16).filter (fun n => s.pool.trained.getLsbD n) ∧ 8 ≤ t.pool.gran ∧ t.pool.gran ≤ 14 ∧ t.pool.ways ≤ 4 ∧
      (t.pool.order ≠ [] → 2 ^ t.pool.ways ≤ t.pool.order.length) ∧ t.pool.extents = s.pool.extents ∧ t.pool.trained = s.pool.trained)

/-- R548: a die is throttled from the moment one of its sensors reaches 105 °C until all are below it, and the other dies are not; a breach of
the coolant's limits raises vector 5. -/
def Sys2Proof.Claims.Cooling : Prop :=
  ∀ (s : State) (die : BitVec 2),
    Gives (exec (.thermalThrottle die) s) (fun t => t = { s with hot := t.hot } ∧
      ∀ n, n < 4 → t.hot.getLsbD n = (s.hot.getLsbD n || n == die.toNat)) ∧
    Gives (exec (.temperatureBelow105C die) s) (fun t => t = { s with hot := t.hot } ∧
      ∀ n, n < 4 → t.hot.getLsbD n = (s.hot.getLsbD n && n != die.toNat)) ∧
    Gives (exec .coolantBreach s) fun t => t = { s with host := t.host } ∧ Raised s t 5

/-- R158, R183, R549, R550: an uncorrectable error in a vault or in scratch poisons its 128-byte line; one elsewhere, a sensor at 115 °C
and a failed self-check are fatal: the module is halted with the error on record, the dump with its MAGIC, CAUSE, SVC and MODULE stands
in the last 16 MiB of the first vault and nowhere else, and vector 0 is raised. Which addresses of UNCORR are those SRAMs is the model's
reading (log 20), and so is that a gated cluster's phrases stand, and run no more (log 63). -/
def Sys2Proof.Claims.FatalErrors : Prop :=
  ∀ s : State,
    (∀ (i : Instr) (cause : BitVec 8) (detail : Word),
      ((∃ x, i = .thermal x ∧ cause = 1 ∧ detail = x) ∨ (i = .fwfault ∧ cause = 3 ∧ detail = 0) ∨
        (∃ a, i = .uncorr a ∧ cause = 2 ∧ detail = a ∧ 0x400000000 ≤ a.toNat ∧ (a.toNat < scratchBase ∨ hostBase ≤ a.toNat))) →
      (s.svc = .halted → exec i s = .next s) ∧
      (s.svc ≠ .halted → s.accepted 7 = false → Memory.wf s.mem → Gives (exec i s) fun t => t.svc = .halted ∧
        t.fatal = some ⟨cause, detail, s.dtime⟩ ∧ Raised s t 0 ∧ t.phrases = s.phrases ∧ t.frags = s.frags ∧ t.accs = s.accs ∧
        readNat t.mem 0xF000000 4 = 0x504D5544 ∧ readNat t.mem 0xF000004 1 = cause.toNat ∧
        readNat t.mem 0xF000005 1 = (if s.svc = .full then 1 else 0) ∧ readNat t.mem 0xF000006 2 = s.moduleNo % 2 ^ 16 ∧
        readNat t.mem 0xF000010 8 = detail.toNat ∧
        ∀ k, k < 0xF000000 ∨ 0x10000000 ≤ k → readByte t.mem k = readByte s.mem k)) ∧
    (∀ a : Word, (a.toNat < 0x400000000 ∨ (scratchBase ≤ a.toNat ∧ a.toNat < hostBase)) → Gives (exec (.uncorr a) s) fun t =>
      t = { s with poison := t.poison } ∧ ∀ x, x ∈ t.poison ↔ x ∈ s.poison ∨ x = a.toNat / 128 * 128) ∧
    (∀ n, Gives (exec (.clusterGated n) s) fun t => t.cluster n = { s.cluster n with gated := true } ∧ (∀ m, m ≠ n → t.cluster m = s.cluster m) ∧
      t.phrases = s.phrases ∧ t.frags = s.frags ∧ (s.applied = [] → t.mem = s.mem))

/-! ### Encodings, the step, and reset -/

/-- R229-R234: decoding the word of a well-formed scalar instruction gives it back, with every operand at every value, and a word that
decodes is the word of its instruction: no bit of a word is dropped. -/
def Obligations.DecodeEncodeScalar : Prop :=
  (∀ i : Instr, i.wf = true → (encodeScalar i ≠ 0 ∨ i = .sadd 0 0 0) → (∀ w, i ≠ .illopScalarWord w) →
    decodeScalar (encodeScalar i) = .ok i) ∧
  ∀ w i, decodeScalar w = .ok i → encodeScalar i = w ∧ i.wf = true

/-- R235-R241, R244: the same of the words of lane instructions, and of clause headers. -/
def Obligations.DecodeEncodeLane : Prop :=
  (∀ (i : Instr) (f : LaneFields), i.lane? = some f → i.wf = true → decodeLane (encodeLane i) = .ok i) ∧
  (∀ w i, decodeLane w = .ok i → encodeLane i = w ∧ i.wf = true) ∧
  (∀ h : ClauseHeader, h.wf = true → decodeHeader (encodeHeader h) = some h) ∧
  ∀ w h, decodeHeader w = some h → encodeHeader h = w ∧ h.wf = true

/-- Memory keeps its canonical form (addresses rising, nothing listed that an unlisted address reads as) through every step, whatever
the instruction or event: equal memories are equal data. That all kinds of memory stand in one list is the model's form (log 68). -/
def Obligations.MemoryFormKept : Prop := ∀ s t : State, Memory.wf s.mem → step s = .next t → Memory.wf t.mem

/-- R50, R55, R229, R235: a step in which a fragment issues runs the instruction that the bytes at its program counter decode to, or ILLOP
of a word that does not; a lane step runs the next word of the started clause; and an act of an outside party runs its row. Which act comes
next is open where the manual gives no order (log 2). -/
def Obligations.StepRunsDecoded : Prop :=
  (∀ (s u v : State) (k : Nat) (bs : List Byte), s.nextAct = (.scalar k, u) → (u.frag k).fetch = .idle →
    u.fetchCode k (u.frag k).pc 4 = (.code bs, v) → (u.scalarReady k).isSome = true →
    let w : BitVec 32 := BitVec.ofNat 32 (natOf bs)
    (∀ i, decodeScalar w = .ok i → step s = exec i ((v.countScalar k).at k)) ∧
    (∀ e, decodeScalar w = .error e → step s = exec (.illopScalarWord w) ((v.countScalar k).at k))) ∧
  (∀ (s u : State) (k : Nat) (c : Clause) (cs : List Clause) (i : Instr), s.nextAct = (.lane k, u) → (u.frag k).queue = c :: cs →
    decodeLane (nth 0 c.code (c.next - 1)) = .ok i → (u.laneReadyIns k).isSome = true → step s = exec i ((u.countLane k).at k)) ∧
  (∀ (s : State) (i : Instr) (is : List Instr), s.inputs = i :: is →
    (s.heeds i = true → step s = exec i { s with inputs := is }) ∧ (s.heeds i = false → step s = .next ({ s with inputs := is } : State).tick)) ∧
  ∀ (s u : State) (i : Instr), s.nextAct = (.row i, u) → step s = exec i u

/-- R232, R233, R241, R309: words written out from the encodings of the manual, and its worked examples, decode to their instructions. -/
def Obligations.DecodeWords : Prop :=
  decodeTableWord 32 0x00000000 = some (.sadd 0 0 0) ∧ decodeTableWord 32 0x4C1C0000 = some (.slimm0 7 0) ∧
  decodeTableWord 32 0x4E1FFFF0 = some (.slimm2 7 0x3FFF0) ∧ decodeTableWord 32 0x4F1C0003 = some (.slimm3 7 3) ∧
  decodeTableWord 32 0xA2214004 = some (.slq2 8 20 4) ∧ decodeTableWord 32 0x80143C03 = some (.sld 5 3 .d 3) ∧
  decodeTableWord 32 0x91146000 = some (.fget 5 6) ∧ decodeTableWord 32 0x901461C1 = some (.fset 5 6 7 true) ∧
  decodeTableWord 32 0xB9180004 = some (.sgrow 6 4) ∧ decodeTableWord 32 0x841461D8 = some (.samoAdd 5 6 7 ⟨.acq, .dev⟩ false) ∧
  decodeTableWord 96 0xC00004440040025800A00010 = some (.vld ⟨0, 0, .v 8, .c 0, .v 2, .v 0, .i32, .seta, 0x18, 0xA00010⟩) ∧
  decodeTableWord 32 0xFF000000 = none ∧ decodeTableWord 32 0x00000001 = none

/-- R158, R160, R222, R226, R227, R482, R485, R489, R491-R493, R546, R486, R487, R513, R543, R544: the module right after reset: DTIME zero in reduced service,
vaults and scratch zero, no context, no lease, no standby, every optical port down, and the registers of the management page at their reset
values. The pending bits of vectors (log 16) and the bitmap of a partition (log 4) are zero by the model's choice. -/
def Obligations.ResetValues : Prop :=
  let s := State.reset
  s.svc = .reduced ∧ s.dtime = 0 ∧ s.mem = [] ∧ Memory.wf s.mem ∧ (∀ a, a < 0x400000000 → readByte s.mem a = 0) ∧
  s.contexts = [] ∧ s.phrases = [] ∧ s.applied = [] ∧ s.host.lease.valid = false ∧ s.host.standby = 0 ∧ s.host.feat = 0 ∧
  (∀ n, (s.lq n).en = false ∧ (s.lq n).part = 0 ∧ (s.lq n).items = []) ∧ (∀ n, (s.part n).bitmap = 0 ∧ (s.part n).dbgen = false) ∧
  (∀ n, (s.nport n).en = false) ∧ (∀ hp, (s.hostPort hp).gone = false ∧ (s.hostPort hp).linkup = false ∧ (s.hostPort hp).tdisp = .unlocked) ∧
  (∀ n, (s.fport n).up = false ∧ ∀ c, tget 0 (s.fport n).counters c = 0) ∧ (∀ n, (tget ({} : ExpWin) s.host.exp n).ctl = 0) ∧
  (∀ n, (tget 0 s.host.hwin n) = 0) ∧ (∀ n, (s.cs n).op = 0 ∧ (s.cs n).result = 0) ∧ s.host.pending = 0 ∧ s.poison = [] ∧
  ∀ n, (s.cluster n).bucket = 0

/-! ### The obligations that gather several claims -/

/-- Results of the scalar arithmetic instructions, and the trap of a zero divisor (R252, R253, R254, R256, R230, R257, R61, R255, R62, R251). -/
def Obligations.ScalarArithmetic : Prop :=
  Sys2Proof.Claims.AluResults ∧ Sys2Proof.Claims.BitFormResults ∧ Sys2Proof.Claims.CompareResults ∧ Sys2Proof.Claims.ImmediateResults ∧ Sys2Proof.Claims.ConstantBuilds ∧ Sys2Proof.Claims.Division

/-- Reads and writes of special registers, their write rules and their privilege (R111, R112, R274, R113). The choices of the model that it rests on: log 73. -/
def Obligations.SpecialRegisters : Prop :=
  Sys2Proof.Claims.SpecialReads ∧ Sys2Proof.Claims.SpecialWrites ∧ Sys2Proof.Claims.SpecialRegisterRules

/-- Clauses enter the lane queue, start, and are waited for (R264, R266, R236, R244). -/
def Obligations.ClauseQueue : Prop :=
  Sys2Proof.Claims.ClauseEnqueue ∧ Sys2Proof.Claims.LaneWaits ∧ Sys2Proof.Claims.ClauseStarts

/-- ssplit divides EXEC, smerge joins it again (R26, R28, R260, R30, R262). -/
def Obligations.SplitsAndMerges : Prop :=
  Sys2Proof.Claims.SplitDivides ∧ Sys2Proof.Claims.MergeJoins

/-- Scalar accesses and fences issue, or fault at the instruction (R268, R271, R316, R318, R142, R270, R272, R273, R448). -/
def Obligations.ScalarAccessIssue : Prop :=
  Sys2Proof.Claims.ScalarAccessIssue ∧ Sys2Proof.Claims.AddressFaults ∧ Sys2Proof.Claims.ScalarFence

/-- Scalar loads, stores and atomics are performed (R268, R271). -/
def Obligations.ScalarAccessComplete : Prop :=
  Sys2Proof.Claims.ScalarLoadCompletes ∧ Sys2Proof.Claims.ScalarStoreCompletes ∧ Sys2Proof.Claims.ScalarAtomicCompletes

/-- Actions on future cells (R315, R316, R317, R318). -/
def Obligations.Futures : Prop :=
  Sys2Proof.Claims.FutureActions ∧ Sys2Proof.Claims.FutureWaiters

/-- What traps, with which cause and datum (R430, R431, R234, R259, R429, R436, R437, R438, R439, R440). -/
def Obligations.Traps : Prop :=
  Sys2Proof.Claims.TrapsAndFreezes ∧ Sys2Proof.Claims.PrivilegeFaults

/-- seret gives the interrupted streams back (R433, R434, R464). -/
def Obligations.Returns : Prop :=
  Sys2Proof.Claims.Returns ∧ Sys2Proof.Claims.TrapRoundTrip

/-- tlbfill in a walker, invalidations, cached copies, and skill (R436, R437, R438, R192, R196, R198, R203, R214, R440, R469). The choices of the model that it rests on: logs 11, 19. -/
def Obligations.Translations : Prop :=
  Sys2Proof.Claims.WalkerFills ∧ Sys2Proof.Claims.InvalidationsBegin ∧ Sys2Proof.Claims.CachedCopies ∧ Sys2Proof.Claims.SkillStatuses

/-- Gutters: declaration, pointers and transfers (R352, R354, R355, R188, R356, R444, R273, R312, R448, R158). -/
def Obligations.Gutters : Prop :=
  Sys2Proof.Claims.Gutters ∧ Sys2Proof.Claims.GutterTransfers

/-- Copies, their batches and the copy engine (R367, R373, R220, R372, R375, R376, R377, R368, R158, R369, R371). -/
def Obligations.Copies : Prop :=
  Sys2Proof.Claims.CopiesIssue ∧ Sys2Proof.Claims.CopyBatches ∧ Sys2Proof.Claims.CopyEngine

/-- Courses and barriers (R400, R401, R402, R403). The choices of the model that it rests on: logs 80, 89. -/
def Obligations.Courses : Prop :=
  Sys2Proof.Claims.CourseMembership ∧ Sys2Proof.Claims.Barriers

/-- Results of the integer lane instructions (R242, R278, R280, R281, R282, R283, R295, R61, R62). -/
def Obligations.LaneIntegers : Prop :=
  Sys2Proof.Claims.LaneIntegers ∧ Sys2Proof.Claims.LaneDivisions

/-- Results of the cross-lane instructions, and how results are written (R298, R299, R300, R301, R302, R278). The choices of the model that it rests on: log 24. -/
def Obligations.LaneCrossings : Prop :=
  Sys2Proof.Claims.LaneCrossings ∧ Sys2Proof.Claims.LaneResultsWritten

/-- Lane accesses, local and remote, issue (R305, R309, R310, R321, R323, R324, R444). -/
def Obligations.LaneAccessIssue : Prop :=
  Sys2Proof.Claims.LaneAccessIssue ∧ Sys2Proof.Claims.RemoteAccessIssue

/-- Lane fences, prefetches, exits and system calls (R312, R313, R329, R178, R179, R326). -/
def Obligations.LaneControls : Prop :=
  Sys2Proof.Claims.LaneControls ∧ Sys2Proof.Claims.SystemCallPosts

/-- Matrix instructions enter the engine, or fail a check (R333, R344, R345, R346, R347, R348, R349, R350). -/
def Obligations.MatrixIssue : Prop :=
  Sys2Proof.Claims.MatrixIssue ∧ Sys2Proof.Claims.MatrixChecks

/-- Matrix operations fire and complete (R173, R333, R346, R347, R432, R520, R348, R349, R350). The choices of the model that it rests on: log 84. -/
def Obligations.MatrixEngine : Prop :=
  Sys2Proof.Claims.MatrixFires ∧ Sys2Proof.Claims.MatrixCompletes

/-- The matrix token and the power grants (R107, R336, R224, R338, R546, R547). -/
def Obligations.TokenAndGrants : Prop :=
  Sys2Proof.Claims.TokenMoves ∧ Sys2Proof.Claims.Grants

/-- Replies arrive; phrases sleep, exit and retire (R380, R382, R25, R123, R390, R393). -/
def Obligations.NounReplies : Prop :=
  Sys2Proof.Claims.RepliesArrive ∧ Sys2Proof.Claims.SleepAndDeath

/-- Builders and applies (R406, R407, R408, R161, R210, R409, R410). The choices of the model that it rests on: log 8. -/
def Obligations.VerbBuilding : Prop :=
  Sys2Proof.Claims.Builders ∧ Sys2Proof.Claims.Applies

/-- Farms, channels and yields (R182, R417, R418, R419, R420, R421, R156, R422). The choices of the model that it rests on: log 18. -/
def Obligations.TasksAndYields : Prop :=
  Sys2Proof.Claims.TaskWords ∧ Sys2Proof.Claims.Yields

/-- Slot grants, walker records and the service of system calls (R29, R144, R179, R180, R327). The choices of the model that it rests on: log 22. -/
def Obligations.SlotsAndSystemCalls : Prop :=
  Sys2Proof.Claims.SlotsAndRecords ∧ Sys2Proof.Claims.SystemCalls

/-- The dispatcher places phrases and serves ready queues (R163, R164, R415, R479). The choices of the model that it rests on: log 82. -/
def Obligations.Dispatching : Prop :=
  Sys2Proof.Claims.Dispatching ∧ Sys2Proof.Claims.ReadyQueues

/-- Contexts become resident; migrations end (R190, R191, R563, R177). The choices of the model that it rests on: logs 19, 31. -/
def Obligations.Residency : Prop :=
  Sys2Proof.Claims.Residency ∧ Sys2Proof.Claims.MigrationsEnd

/-- Context-switch commands start; SAVE and the image it writes (R485, R470, R471, R384, R472, R473, R474). The choices of the model that it rests on: logs 27, 31. -/
def Obligations.SaveCommands : Prop :=
  Sys2Proof.Claims.CommandsStart ∧ Sys2Proof.Claims.Saves ∧ Sys2Proof.Claims.SavedImages

/-- SWAPOUT, SWAPIN, MIGRATE and RESTORE, and what comes back from an image (R195, R470, R485, R36, R175, R478, R385, R473, R474). The choices of the model that it rests on: log 31. -/
def Obligations.SwapCommands : Prop :=
  Sys2Proof.Claims.Swaps ∧ Sys2Proof.Claims.MovesAndRestores ∧ Sys2Proof.Claims.RestoredPhrases

/-- Writes and reads of the management page (R44, R160, R226, R373, R431, R482, R484, R489, R497, R513, R544, R546, R485, R11, R492, R493, R9, R486, R491, R495). The choices of the model that it rests on: logs 31, 50, 78. -/
def Obligations.ManagementPage : Prop :=
  Sys2Proof.Claims.RegisterWrites ∧ Sys2Proof.Claims.UntrustedWrites ∧ Sys2Proof.Claims.PageOffsets ∧ Sys2Proof.Claims.PageEffects ∧ Sys2Proof.Claims.PageReads

/-- Answers of hosts, and events of the pool (R149, R150, R157, R477, R544, R495, R496, R497, R498, R543). -/
def Obligations.HostAnswersAndPool : Prop :=
  Sys2Proof.Claims.HostAnswers ∧ Sys2Proof.Claims.CxlEvents

/-- SPDM requests and their answers (R483, R545). The choices of the model that it rests on: log 36. -/
def Obligations.SpdmRequests : Prop :=
  Sys2Proof.Claims.SpdmOpens ∧ Sys2Proof.Claims.SpdmAnswers

/-- Slots of an optical port begin, and preambles are checked (R211, R226, R499, R502, R503, R504, R212, R543, R213, R508). The choices of the model that it rests on: logs 37, 41, 63. -/
def Obligations.SlotsBegin : Prop :=
  Sys2Proof.Claims.SlotsBegin ∧ Sys2Proof.Claims.Preambles

/-- Acknowledgement, replay and keys of a link (R226, R506, R507, R508, R184, R505). The choices of the model that it rests on: log 63. -/
def Obligations.LinkLayer : Prop :=
  Sys2Proof.Claims.LinkRecovery ∧ Sys2Proof.Claims.LinkKeys ∧ Sys2Proof.Claims.LinkFlits

/-- Message flits arrive (R185, R504, R505, R506, R512). The choices of the model that it rests on: logs 40, 65. -/
def Obligations.FlitsArrive : Prop :=
  Sys2Proof.Claims.FlitsArrive ∧ Sys2Proof.Claims.ContinuationsArrive

/-- Cooling, poison and fatal errors (R548, R158, R183, R549, R550). The choices of the model that it rests on: logs 20, 63. -/
def Obligations.CoolingAndFatalErrors : Prop :=
  Sys2Proof.Claims.Cooling ∧ Sys2Proof.Claims.FatalErrors
end

