-- ==== Sys2Proof/Laws/Memory.lean ====
section
/-! SUPPORT. Memory keeps its canonical form under every write, and a byte reads as it was last written (R124, R158). -/
namespace Sys2Proof.Machine

/-! ### One byte -/

theorem wf_nil : Memory.wf [] := by simp [Memory.wf]

/-- A cell that a byte's write leaves is the written one or an old one. -/
theorem mem_writeByte {a : Nat} {b : Byte} {m : Mem} {c : Host.Cell} (h : c ∈ writeByte a b m) : c = (a, b) ∨ c ∈ m := by
  induction m with
  | nil => simp only [writeByte] at h; split at h <;> simp_all
  | cons p m ih =>
    obtain ⟨k, x⟩ := p
    simp only [writeByte] at h
    split at h
    · split at h <;> simp_all
    · split at h
      · split at h <;> simp_all
        · tauto
      · simp only [List.mem_cons] at h ⊢
        rcases h with h | h
        · tauto
        · rcases ih h with h | h <;> tauto

/-- A write keeps the canonical form. -/
theorem writeByte_wf {m : Mem} (a : Nat) (b : Byte) (h : Memory.wf m) : Memory.wf (writeByte a b m) := by
  induction m with
  | nil => simp only [writeByte]; split <;> simp_all [Memory.wf]
  | cons p m ih =>
    obtain ⟨k, x⟩ := p
    obtain ⟨hs, hu⟩ := h
    rw [List.pairwise_cons] at hs
    have ih' := ih ⟨hs.2, fun c hc => hu c (List.mem_cons_of_mem _ hc)⟩
    have hm : ∀ c ∈ m, c.2 ≠ unlisted c.1 := fun c hc => hu c (List.mem_cons_of_mem _ hc)
    have hx : x ≠ unlisted k := hu (k, x) List.mem_cons_self
    simp only [writeByte]
    split
    · next hlt =>
      split
      · exact ⟨List.pairwise_cons.2 hs, hu⟩
      · next hb =>
        refine ⟨List.pairwise_cons.2 ⟨?_, List.pairwise_cons.2 hs⟩, ?_⟩
        · intro c hc
          rcases List.mem_cons.1 hc with rfl | hc
          · exact hlt
          · exact lt_trans hlt (hs.1 c hc)
        · intro c hc
          rcases List.mem_cons.1 hc with rfl | hc
          · exact hb
          · exact hu c hc
    · next hlt =>
      split
      · next he =>
        subst he
        split
        · exact ⟨hs.2, hm⟩
        · next hb =>
          refine ⟨List.pairwise_cons.2 ⟨hs.1, hs.2⟩, ?_⟩
          intro c hc
          rcases List.mem_cons.1 hc with rfl | hc
          · exact hb
          · exact hm c hc
      · next he =>
        refine ⟨List.pairwise_cons.2 ⟨?_, ih'.1⟩, ?_⟩
        · intro c hc
          rcases mem_writeByte hc with rfl | hc
          · simp only; omega
          · exact hs.1 c hc
        · intro c hc
          rcases List.mem_cons.1 hc with rfl | hc
          · exact hx
          · exact ih'.2 c hc

/-- An address below every listed one reads as unlisted. -/
theorem readByte_below {m : Mem} {a : Nat} (h : ∀ c ∈ m, a < c.1) : readByte m a = unlisted a := by
  cases m with
  | nil => rfl
  | cons p m =>
    obtain ⟨k, x⟩ := p
    have := h (k, x) List.mem_cons_self
    simp only [readByte]
    split
    · simp_all
    · simp_all

/-- A byte that has been written reads as written. -/
theorem readByte_writeByte_same {m : Mem} (a : Nat) (b : Byte) (h : Memory.wf m) : readByte (writeByte a b m) a = b := by
  induction m with
  | nil => simp only [writeByte]; split <;> simp_all [readByte]
  | cons p m ih =>
    obtain ⟨k, x⟩ := p
    obtain ⟨hs, hu⟩ := h
    rw [List.pairwise_cons] at hs
    have ih' := ih ⟨hs.2, fun c hc => hu c (List.mem_cons_of_mem _ hc)⟩
    simp only [writeByte]
    split
    · next hlt =>
      split
      · next hb => rw [hb]; simp only [readByte]; split <;> [omega; skip]; simp
      · simp [readByte]
    · next hlt =>
      split
      · next he =>
        subst he
        split
        · next hb => rw [hb]; exact readByte_below hs.1
        · simp [readByte]
      · next he =>
        have h1 : ¬k = a := fun e => he e.symm
        simp only [readByte, if_neg h1, if_neg hlt]
        exact ih'

/-- A write leaves every other byte alone. -/
theorem readByte_writeByte_other {m : Mem} {a c : Nat} (b : Byte) (hne : c ≠ a) (h : Memory.wf m) :
    readByte (writeByte a b m) c = readByte m c := by
  induction m with
  | nil =>
    simp only [writeByte]
    split
    · rfl
    · simp only [readByte]
      split <;> [exact absurd (by assumption) (Ne.symm hne); skip]
      split <;> rfl
  | cons p m ih =>
    obtain ⟨k, x⟩ := p
    obtain ⟨hs, hu⟩ := h
    rw [List.pairwise_cons] at hs
    have ih' := ih ⟨hs.2, fun c hc => hu c (List.mem_cons_of_mem _ hc)⟩
    simp only [writeByte]
    split
    · next hlt =>
      split
      · rfl
      · simp only [readByte, if_neg (Ne.symm hne)]
        split
        · next h1 => rw [if_neg (by omega), if_pos (by omega)]
        · rfl
    · next hlt =>
      split
      · next he =>
        subst he
        split
        · simp only [readByte, if_neg (Ne.symm hne)]
          split
          · next h1 => exact readByte_below fun d hd => lt_trans h1 (hs.1 d hd)
          · rfl
        · simp only [readByte, if_neg (Ne.symm hne)]
      · simp only [readByte, ih']

/-! ### Several bytes -/

theorem writeBytes_wf (bs : List Byte) {m : Mem} (a : Nat) (h : Memory.wf m) : Memory.wf (writeBytes a bs m) := by
  induction bs generalizing a m with
  | nil => exact h
  | cons b bs ih => exact ih _ (writeByte_wf a b h)

theorem writeNat_wf {m : Mem} (a n v : Nat) (h : Memory.wf m) : Memory.wf (writeNat a n v m) := writeBytes_wf _ _ h

theorem filter_wf {m : Mem} (p : Host.Cell → Bool) (h : Memory.wf m) : Memory.wf (m.filter p) :=
  ⟨h.1.filter _, fun c hc => h.2 c (List.mem_filter.1 hc).1⟩

theorem clearRange_wf {m : Mem} (a n : Nat) (h : Memory.wf m) : Memory.wf (clearRange a n m) := filter_wf _ h

/-- A fold of operations that keep the form keeps it. -/
theorem foldl_wf {α : Type} (f : Mem → α → Mem) (hf : ∀ m x, Memory.wf m → Memory.wf (f m x)) (xs : List α) {m : Mem}
    (h : Memory.wf m) : Memory.wf (xs.foldl f m) := by
  induction xs generalizing m with
  | nil => exact h
  | cons x xs ih => exact ih (hf m x h)

/-- A write of bytes leaves those outside it alone. -/
theorem readByte_writeBytes_other (bs : List Byte) {m : Mem} {a c : Nat} (hc : c < a ∨ a + bs.length ≤ c) (h : Memory.wf m) :
    readByte (writeBytes a bs m) c = readByte m c := by
  induction bs generalizing a m with
  | nil => rfl
  | cons b bs ih =>
    simp only [List.length_cons] at hc
    rw [writeBytes, ih (by omega) (writeByte_wf a b h), readByte_writeByte_other b (by omega) h]

/-- Bytes that have been written read as written. -/
theorem readBytes_writeBytes (bs : List Byte) {m : Mem} (a : Nat) (h : Memory.wf m) :
    readBytes (writeBytes a bs m) a bs.length = bs := by
  induction bs generalizing a m with
  | nil => rfl
  | cons b bs ih =>
    have hw := writeByte_wf a b h
    simp only [List.length_cons, readBytes, writeBytes]
    rw [ih (a + 1) hw, readByte_writeBytes_other bs (by omega) hw, readByte_writeByte_same a b h]

@[simp] theorem length_bytesOf (v n : Nat) : (bytesOf v n).length = n := by
  induction n generalizing v with
  | zero => rfl
  | succ n ih => simp [bytesOf, ih]

/-- The bytes of a number hold its residue. -/
theorem natOf_bytesOf (v n : Nat) : natOf (bytesOf v n) = v % 256 ^ n := by
  induction n generalizing v with
  | zero => simp [bytesOf, natOf, Nat.mod_one]
  | succ n ih =>
    have h : (BitVec.ofNat 8 v).toNat = v % 256 := BitVec.toNat_ofNat v 8
    rw [bytesOf, natOf, ih, h, Nat.pow_succ', Nat.mod_mul]

/-- `writeNat` writes `n` bytes: those outside them read as before. -/
theorem readByte_writeNat_other {m : Mem} {a n c : Nat} (v : Nat) (hc : c < a ∨ a + n ≤ c) (h : Memory.wf m) :
    readByte (writeNat a n v m) c = readByte m c :=
  readByte_writeBytes_other _ (by simpa using hc) h

/-- A number that has been written reads as its residue. -/
theorem readNat_writeNat {m : Mem} (a n v : Nat) (h : Memory.wf m) : readNat (writeNat a n v m) a n = v % 256 ^ n := by
  have := readBytes_writeBytes (bytesOf v n) a h
  rw [length_bytesOf] at this
  rw [readNat, writeNat, this, natOf_bytesOf]

end Sys2Proof.Machine
end

