-- ==== Sys2Proof/Laws/State.lean ====
section
/-! SUPPORT. What each named update of the state changes and what it leaves: one law for each field and update. -/
namespace Sys2Proof.Machine

/-! ### setFrag -/

section
variable (s : State) (k : Nat) (f : Frag)

@[simp] theorem setFrag_svc : (s.setFrag k f).svc = s.svc := rfl
@[simp] theorem setFrag_cycle : (s.setFrag k f).cycle = s.cycle := rfl
@[simp] theorem setFrag_elevenths : (s.setFrag k f).elevenths = s.elevenths := rfl
@[simp] theorem setFrag_ticks : (s.setFrag k f).ticks = s.ticks := rfl
@[simp] theorem setFrag_moduleNo : (s.setFrag k f).moduleNo = s.moduleNo := rfl
@[simp] theorem setFrag_image : (s.setFrag k f).image = s.image := rfl
@[simp] theorem setFrag_fatal : (s.setFrag k f).fatal = s.fatal := rfl
@[simp] theorem setFrag_mem : (s.setFrag k f).mem = s.mem := rfl
@[simp] theorem setFrag_poison : (s.setFrag k f).poison = s.poison := rfl
@[simp] theorem setFrag_tags : (s.setFrag k f).tags = s.tags := rfl
@[simp] theorem setFrag_waiters : (s.setFrag k f).waiters = s.waiters := rfl
@[simp] theorem setFrag_cores : (s.setFrag k f).cores = s.cores := rfl
@[simp] theorem setFrag_clusters : (s.setFrag k f).clusters = s.clusters := rfl
@[simp] theorem setFrag_frags : (s.setFrag k f).frags = tput k f s.frags := rfl
@[simp] theorem setFrag_phrases : (s.setFrag k f).phrases = s.phrases := rfl
@[simp] theorem setFrag_accs : (s.setFrag k f).accs = s.accs := rfl
@[simp] theorem setFrag_results : (s.setFrag k f).results = s.results := rfl
@[simp] theorem setFrag_laneOps : (s.setFrag k f).laneOps = s.laneOps := rfl
@[simp] theorem setFrag_held : (s.setFrag k f).held = s.held := rfl
@[simp] theorem setFrag_heldOps : (s.setFrag k f).heldOps = s.heldOps := rfl
@[simp] theorem setFrag_copies : (s.setFrag k f).copies = s.copies := rfl
@[simp] theorem setFrag_heldCopies : (s.setFrag k f).heldCopies = s.heldCopies := rfl
@[simp] theorem setFrag_poolReads : (s.setFrag k f).poolReads = s.poolReads := rfl
@[simp] theorem setFrag_nouns : (s.setFrag k f).nouns = s.nouns := rfl
@[simp] theorem setFrag_replies : (s.setFrag k f).replies = s.replies := rfl
@[simp] theorem setFrag_joins : (s.setFrag k f).joins = s.joins := rfl
@[simp] theorem setFrag_invals : (s.setFrag k f).invals = s.invals := rfl
@[simp] theorem setFrag_contexts : (s.setFrag k f).contexts = s.contexts := rfl
@[simp] theorem setFrag_applied : (s.setFrag k f).applied = s.applied := rfl
@[simp] theorem setFrag_courses : (s.setFrag k f).courses = s.courses := rfl
@[simp] theorem setFrag_lqs : (s.setFrag k f).lqs = s.lqs := rfl
@[simp] theorem setFrag_parts : (s.setFrag k f).parts = s.parts := rfl
@[simp] theorem setFrag_migs : (s.setFrag k f).migs = s.migs := rfl
@[simp] theorem setFrag_nounCache : (s.setFrag k f).nounCache = s.nounCache := rfl
@[simp] theorem setFrag_verbCache : (s.setFrag k f).verbCache = s.verbCache := rfl
@[simp] theorem setFrag_syscs : (s.setFrag k f).syscs = s.syscs := rfl
@[simp] theorem setFrag_host : (s.setFrag k f).host = s.host := rfl
@[simp] theorem setFrag_pool : (s.setFrag k f).pool = s.pool := rfl
@[simp] theorem setFrag_fabric : (s.setFrag k f).fabric = s.fabric := rfl
@[simp] theorem setFrag_hot : (s.setFrag k f).hot = s.hot := rfl
@[simp] theorem setFrag_nextId : (s.setFrag k f).nextId = s.nextId := rfl
@[simp] theorem setFrag_draws : (s.setFrag k f).draws = s.draws := rfl
@[simp] theorem setFrag_cur : (s.setFrag k f).cur = s.cur := rfl
@[simp] theorem setFrag_inputs : (s.setFrag k f).inputs = s.inputs := rfl

end

/-! ### updFrag -/

section
variable (s : State) (k : Nat) (g : Frag → Frag)

@[simp] theorem updFrag_svc : (s.updFrag k g).svc = s.svc := rfl
@[simp] theorem updFrag_cycle : (s.updFrag k g).cycle = s.cycle := rfl
@[simp] theorem updFrag_elevenths : (s.updFrag k g).elevenths = s.elevenths := rfl
@[simp] theorem updFrag_ticks : (s.updFrag k g).ticks = s.ticks := rfl
@[simp] theorem updFrag_moduleNo : (s.updFrag k g).moduleNo = s.moduleNo := rfl
@[simp] theorem updFrag_image : (s.updFrag k g).image = s.image := rfl
@[simp] theorem updFrag_fatal : (s.updFrag k g).fatal = s.fatal := rfl
@[simp] theorem updFrag_mem : (s.updFrag k g).mem = s.mem := rfl
@[simp] theorem updFrag_poison : (s.updFrag k g).poison = s.poison := rfl
@[simp] theorem updFrag_tags : (s.updFrag k g).tags = s.tags := rfl
@[simp] theorem updFrag_waiters : (s.updFrag k g).waiters = s.waiters := rfl
@[simp] theorem updFrag_cores : (s.updFrag k g).cores = s.cores := rfl
@[simp] theorem updFrag_clusters : (s.updFrag k g).clusters = s.clusters := rfl
@[simp] theorem updFrag_frags : (s.updFrag k g).frags = tput k (g (s.frag k)) s.frags := rfl
@[simp] theorem updFrag_phrases : (s.updFrag k g).phrases = s.phrases := rfl
@[simp] theorem updFrag_accs : (s.updFrag k g).accs = s.accs := rfl
@[simp] theorem updFrag_results : (s.updFrag k g).results = s.results := rfl
@[simp] theorem updFrag_laneOps : (s.updFrag k g).laneOps = s.laneOps := rfl
@[simp] theorem updFrag_held : (s.updFrag k g).held = s.held := rfl
@[simp] theorem updFrag_heldOps : (s.updFrag k g).heldOps = s.heldOps := rfl
@[simp] theorem updFrag_copies : (s.updFrag k g).copies = s.copies := rfl
@[simp] theorem updFrag_heldCopies : (s.updFrag k g).heldCopies = s.heldCopies := rfl
@[simp] theorem updFrag_poolReads : (s.updFrag k g).poolReads = s.poolReads := rfl
@[simp] theorem updFrag_nouns : (s.updFrag k g).nouns = s.nouns := rfl
@[simp] theorem updFrag_replies : (s.updFrag k g).replies = s.replies := rfl
@[simp] theorem updFrag_joins : (s.updFrag k g).joins = s.joins := rfl
@[simp] theorem updFrag_invals : (s.updFrag k g).invals = s.invals := rfl
@[simp] theorem updFrag_contexts : (s.updFrag k g).contexts = s.contexts := rfl
@[simp] theorem updFrag_applied : (s.updFrag k g).applied = s.applied := rfl
@[simp] theorem updFrag_courses : (s.updFrag k g).courses = s.courses := rfl
@[simp] theorem updFrag_lqs : (s.updFrag k g).lqs = s.lqs := rfl
@[simp] theorem updFrag_parts : (s.updFrag k g).parts = s.parts := rfl
@[simp] theorem updFrag_migs : (s.updFrag k g).migs = s.migs := rfl
@[simp] theorem updFrag_nounCache : (s.updFrag k g).nounCache = s.nounCache := rfl
@[simp] theorem updFrag_verbCache : (s.updFrag k g).verbCache = s.verbCache := rfl
@[simp] theorem updFrag_syscs : (s.updFrag k g).syscs = s.syscs := rfl
@[simp] theorem updFrag_host : (s.updFrag k g).host = s.host := rfl
@[simp] theorem updFrag_pool : (s.updFrag k g).pool = s.pool := rfl
@[simp] theorem updFrag_fabric : (s.updFrag k g).fabric = s.fabric := rfl
@[simp] theorem updFrag_hot : (s.updFrag k g).hot = s.hot := rfl
@[simp] theorem updFrag_nextId : (s.updFrag k g).nextId = s.nextId := rfl
@[simp] theorem updFrag_draws : (s.updFrag k g).draws = s.draws := rfl
@[simp] theorem updFrag_cur : (s.updFrag k g).cur = s.cur := rfl
@[simp] theorem updFrag_inputs : (s.updFrag k g).inputs = s.inputs := rfl

end

/-! ### setPhr -/

section
variable (s : State) (p : Nat) (v : Phrase)

@[simp] theorem setPhr_svc : (s.setPhr p v).svc = s.svc := rfl
@[simp] theorem setPhr_cycle : (s.setPhr p v).cycle = s.cycle := rfl
@[simp] theorem setPhr_elevenths : (s.setPhr p v).elevenths = s.elevenths := rfl
@[simp] theorem setPhr_ticks : (s.setPhr p v).ticks = s.ticks := rfl
@[simp] theorem setPhr_moduleNo : (s.setPhr p v).moduleNo = s.moduleNo := rfl
@[simp] theorem setPhr_image : (s.setPhr p v).image = s.image := rfl
@[simp] theorem setPhr_fatal : (s.setPhr p v).fatal = s.fatal := rfl
@[simp] theorem setPhr_mem : (s.setPhr p v).mem = s.mem := rfl
@[simp] theorem setPhr_poison : (s.setPhr p v).poison = s.poison := rfl
@[simp] theorem setPhr_tags : (s.setPhr p v).tags = s.tags := rfl
@[simp] theorem setPhr_waiters : (s.setPhr p v).waiters = s.waiters := rfl
@[simp] theorem setPhr_cores : (s.setPhr p v).cores = s.cores := rfl
@[simp] theorem setPhr_clusters : (s.setPhr p v).clusters = s.clusters := rfl
@[simp] theorem setPhr_frags : (s.setPhr p v).frags = s.frags := rfl
@[simp] theorem setPhr_phrases : (s.setPhr p v).phrases = tput p v s.phrases := rfl
@[simp] theorem setPhr_accs : (s.setPhr p v).accs = s.accs := rfl
@[simp] theorem setPhr_results : (s.setPhr p v).results = s.results := rfl
@[simp] theorem setPhr_laneOps : (s.setPhr p v).laneOps = s.laneOps := rfl
@[simp] theorem setPhr_held : (s.setPhr p v).held = s.held := rfl
@[simp] theorem setPhr_heldOps : (s.setPhr p v).heldOps = s.heldOps := rfl
@[simp] theorem setPhr_copies : (s.setPhr p v).copies = s.copies := rfl
@[simp] theorem setPhr_heldCopies : (s.setPhr p v).heldCopies = s.heldCopies := rfl
@[simp] theorem setPhr_poolReads : (s.setPhr p v).poolReads = s.poolReads := rfl
@[simp] theorem setPhr_nouns : (s.setPhr p v).nouns = s.nouns := rfl
@[simp] theorem setPhr_replies : (s.setPhr p v).replies = s.replies := rfl
@[simp] theorem setPhr_joins : (s.setPhr p v).joins = s.joins := rfl
@[simp] theorem setPhr_invals : (s.setPhr p v).invals = s.invals := rfl
@[simp] theorem setPhr_contexts : (s.setPhr p v).contexts = s.contexts := rfl
@[simp] theorem setPhr_applied : (s.setPhr p v).applied = s.applied := rfl
@[simp] theorem setPhr_courses : (s.setPhr p v).courses = s.courses := rfl
@[simp] theorem setPhr_lqs : (s.setPhr p v).lqs = s.lqs := rfl
@[simp] theorem setPhr_parts : (s.setPhr p v).parts = s.parts := rfl
@[simp] theorem setPhr_migs : (s.setPhr p v).migs = s.migs := rfl
@[simp] theorem setPhr_nounCache : (s.setPhr p v).nounCache = s.nounCache := rfl
@[simp] theorem setPhr_verbCache : (s.setPhr p v).verbCache = s.verbCache := rfl
@[simp] theorem setPhr_syscs : (s.setPhr p v).syscs = s.syscs := rfl
@[simp] theorem setPhr_host : (s.setPhr p v).host = s.host := rfl
@[simp] theorem setPhr_pool : (s.setPhr p v).pool = s.pool := rfl
@[simp] theorem setPhr_fabric : (s.setPhr p v).fabric = s.fabric := rfl
@[simp] theorem setPhr_hot : (s.setPhr p v).hot = s.hot := rfl
@[simp] theorem setPhr_nextId : (s.setPhr p v).nextId = s.nextId := rfl
@[simp] theorem setPhr_draws : (s.setPhr p v).draws = s.draws := rfl
@[simp] theorem setPhr_cur : (s.setPhr p v).cur = s.cur := rfl
@[simp] theorem setPhr_inputs : (s.setPhr p v).inputs = s.inputs := rfl

end

/-! ### updPhr -/

section
variable (s : State) (p : Nat) (g : Phrase → Phrase)

@[simp] theorem updPhr_svc : (s.updPhr p g).svc = s.svc := rfl
@[simp] theorem updPhr_cycle : (s.updPhr p g).cycle = s.cycle := rfl
@[simp] theorem updPhr_elevenths : (s.updPhr p g).elevenths = s.elevenths := rfl
@[simp] theorem updPhr_ticks : (s.updPhr p g).ticks = s.ticks := rfl
@[simp] theorem updPhr_moduleNo : (s.updPhr p g).moduleNo = s.moduleNo := rfl
@[simp] theorem updPhr_image : (s.updPhr p g).image = s.image := rfl
@[simp] theorem updPhr_fatal : (s.updPhr p g).fatal = s.fatal := rfl
@[simp] theorem updPhr_mem : (s.updPhr p g).mem = s.mem := rfl
@[simp] theorem updPhr_poison : (s.updPhr p g).poison = s.poison := rfl
@[simp] theorem updPhr_tags : (s.updPhr p g).tags = s.tags := rfl
@[simp] theorem updPhr_waiters : (s.updPhr p g).waiters = s.waiters := rfl
@[simp] theorem updPhr_cores : (s.updPhr p g).cores = s.cores := rfl
@[simp] theorem updPhr_clusters : (s.updPhr p g).clusters = s.clusters := rfl
@[simp] theorem updPhr_frags : (s.updPhr p g).frags = s.frags := rfl
@[simp] theorem updPhr_phrases : (s.updPhr p g).phrases = tput p (g (s.phr p)) s.phrases := rfl
@[simp] theorem updPhr_accs : (s.updPhr p g).accs = s.accs := rfl
@[simp] theorem updPhr_results : (s.updPhr p g).results = s.results := rfl
@[simp] theorem updPhr_laneOps : (s.updPhr p g).laneOps = s.laneOps := rfl
@[simp] theorem updPhr_held : (s.updPhr p g).held = s.held := rfl
@[simp] theorem updPhr_heldOps : (s.updPhr p g).heldOps = s.heldOps := rfl
@[simp] theorem updPhr_copies : (s.updPhr p g).copies = s.copies := rfl
@[simp] theorem updPhr_heldCopies : (s.updPhr p g).heldCopies = s.heldCopies := rfl
@[simp] theorem updPhr_poolReads : (s.updPhr p g).poolReads = s.poolReads := rfl
@[simp] theorem updPhr_nouns : (s.updPhr p g).nouns = s.nouns := rfl
@[simp] theorem updPhr_replies : (s.updPhr p g).replies = s.replies := rfl
@[simp] theorem updPhr_joins : (s.updPhr p g).joins = s.joins := rfl
@[simp] theorem updPhr_invals : (s.updPhr p g).invals = s.invals := rfl
@[simp] theorem updPhr_contexts : (s.updPhr p g).contexts = s.contexts := rfl
@[simp] theorem updPhr_applied : (s.updPhr p g).applied = s.applied := rfl
@[simp] theorem updPhr_courses : (s.updPhr p g).courses = s.courses := rfl
@[simp] theorem updPhr_lqs : (s.updPhr p g).lqs = s.lqs := rfl
@[simp] theorem updPhr_parts : (s.updPhr p g).parts = s.parts := rfl
@[simp] theorem updPhr_migs : (s.updPhr p g).migs = s.migs := rfl
@[simp] theorem updPhr_nounCache : (s.updPhr p g).nounCache = s.nounCache := rfl
@[simp] theorem updPhr_verbCache : (s.updPhr p g).verbCache = s.verbCache := rfl
@[simp] theorem updPhr_syscs : (s.updPhr p g).syscs = s.syscs := rfl
@[simp] theorem updPhr_host : (s.updPhr p g).host = s.host := rfl
@[simp] theorem updPhr_pool : (s.updPhr p g).pool = s.pool := rfl
@[simp] theorem updPhr_fabric : (s.updPhr p g).fabric = s.fabric := rfl
@[simp] theorem updPhr_hot : (s.updPhr p g).hot = s.hot := rfl
@[simp] theorem updPhr_nextId : (s.updPhr p g).nextId = s.nextId := rfl
@[simp] theorem updPhr_draws : (s.updPhr p g).draws = s.draws := rfl
@[simp] theorem updPhr_cur : (s.updPhr p g).cur = s.cur := rfl
@[simp] theorem updPhr_inputs : (s.updPhr p g).inputs = s.inputs := rfl

end

/-! ### setCore -/

section
variable (s : State) (c : Nat) (v : Core)

@[simp] theorem setCore_svc : (s.setCore c v).svc = s.svc := rfl
@[simp] theorem setCore_cycle : (s.setCore c v).cycle = s.cycle := rfl
@[simp] theorem setCore_elevenths : (s.setCore c v).elevenths = s.elevenths := rfl
@[simp] theorem setCore_ticks : (s.setCore c v).ticks = s.ticks := rfl
@[simp] theorem setCore_moduleNo : (s.setCore c v).moduleNo = s.moduleNo := rfl
@[simp] theorem setCore_image : (s.setCore c v).image = s.image := rfl
@[simp] theorem setCore_fatal : (s.setCore c v).fatal = s.fatal := rfl
@[simp] theorem setCore_mem : (s.setCore c v).mem = s.mem := rfl
@[simp] theorem setCore_poison : (s.setCore c v).poison = s.poison := rfl
@[simp] theorem setCore_tags : (s.setCore c v).tags = s.tags := rfl
@[simp] theorem setCore_waiters : (s.setCore c v).waiters = s.waiters := rfl
@[simp] theorem setCore_cores : (s.setCore c v).cores = tput c v s.cores := rfl
@[simp] theorem setCore_clusters : (s.setCore c v).clusters = s.clusters := rfl
@[simp] theorem setCore_frags : (s.setCore c v).frags = s.frags := rfl
@[simp] theorem setCore_phrases : (s.setCore c v).phrases = s.phrases := rfl
@[simp] theorem setCore_accs : (s.setCore c v).accs = s.accs := rfl
@[simp] theorem setCore_results : (s.setCore c v).results = s.results := rfl
@[simp] theorem setCore_laneOps : (s.setCore c v).laneOps = s.laneOps := rfl
@[simp] theorem setCore_held : (s.setCore c v).held = s.held := rfl
@[simp] theorem setCore_heldOps : (s.setCore c v).heldOps = s.heldOps := rfl
@[simp] theorem setCore_copies : (s.setCore c v).copies = s.copies := rfl
@[simp] theorem setCore_heldCopies : (s.setCore c v).heldCopies = s.heldCopies := rfl
@[simp] theorem setCore_poolReads : (s.setCore c v).poolReads = s.poolReads := rfl
@[simp] theorem setCore_nouns : (s.setCore c v).nouns = s.nouns := rfl
@[simp] theorem setCore_replies : (s.setCore c v).replies = s.replies := rfl
@[simp] theorem setCore_joins : (s.setCore c v).joins = s.joins := rfl
@[simp] theorem setCore_invals : (s.setCore c v).invals = s.invals := rfl
@[simp] theorem setCore_contexts : (s.setCore c v).contexts = s.contexts := rfl
@[simp] theorem setCore_applied : (s.setCore c v).applied = s.applied := rfl
@[simp] theorem setCore_courses : (s.setCore c v).courses = s.courses := rfl
@[simp] theorem setCore_lqs : (s.setCore c v).lqs = s.lqs := rfl
@[simp] theorem setCore_parts : (s.setCore c v).parts = s.parts := rfl
@[simp] theorem setCore_migs : (s.setCore c v).migs = s.migs := rfl
@[simp] theorem setCore_nounCache : (s.setCore c v).nounCache = s.nounCache := rfl
@[simp] theorem setCore_verbCache : (s.setCore c v).verbCache = s.verbCache := rfl
@[simp] theorem setCore_syscs : (s.setCore c v).syscs = s.syscs := rfl
@[simp] theorem setCore_host : (s.setCore c v).host = s.host := rfl
@[simp] theorem setCore_pool : (s.setCore c v).pool = s.pool := rfl
@[simp] theorem setCore_fabric : (s.setCore c v).fabric = s.fabric := rfl
@[simp] theorem setCore_hot : (s.setCore c v).hot = s.hot := rfl
@[simp] theorem setCore_nextId : (s.setCore c v).nextId = s.nextId := rfl
@[simp] theorem setCore_draws : (s.setCore c v).draws = s.draws := rfl
@[simp] theorem setCore_cur : (s.setCore c v).cur = s.cur := rfl
@[simp] theorem setCore_inputs : (s.setCore c v).inputs = s.inputs := rfl

end

/-! ### updCore -/

section
variable (s : State) (c : Nat) (g : Core → Core)

@[simp] theorem updCore_svc : (s.updCore c g).svc = s.svc := rfl
@[simp] theorem updCore_cycle : (s.updCore c g).cycle = s.cycle := rfl
@[simp] theorem updCore_elevenths : (s.updCore c g).elevenths = s.elevenths := rfl
@[simp] theorem updCore_ticks : (s.updCore c g).ticks = s.ticks := rfl
@[simp] theorem updCore_moduleNo : (s.updCore c g).moduleNo = s.moduleNo := rfl
@[simp] theorem updCore_image : (s.updCore c g).image = s.image := rfl
@[simp] theorem updCore_fatal : (s.updCore c g).fatal = s.fatal := rfl
@[simp] theorem updCore_mem : (s.updCore c g).mem = s.mem := rfl
@[simp] theorem updCore_poison : (s.updCore c g).poison = s.poison := rfl
@[simp] theorem updCore_tags : (s.updCore c g).tags = s.tags := rfl
@[simp] theorem updCore_waiters : (s.updCore c g).waiters = s.waiters := rfl
@[simp] theorem updCore_cores : (s.updCore c g).cores = tput c (g (s.core c)) s.cores := rfl
@[simp] theorem updCore_clusters : (s.updCore c g).clusters = s.clusters := rfl
@[simp] theorem updCore_frags : (s.updCore c g).frags = s.frags := rfl
@[simp] theorem updCore_phrases : (s.updCore c g).phrases = s.phrases := rfl
@[simp] theorem updCore_accs : (s.updCore c g).accs = s.accs := rfl
@[simp] theorem updCore_results : (s.updCore c g).results = s.results := rfl
@[simp] theorem updCore_laneOps : (s.updCore c g).laneOps = s.laneOps := rfl
@[simp] theorem updCore_held : (s.updCore c g).held = s.held := rfl
@[simp] theorem updCore_heldOps : (s.updCore c g).heldOps = s.heldOps := rfl
@[simp] theorem updCore_copies : (s.updCore c g).copies = s.copies := rfl
@[simp] theorem updCore_heldCopies : (s.updCore c g).heldCopies = s.heldCopies := rfl
@[simp] theorem updCore_poolReads : (s.updCore c g).poolReads = s.poolReads := rfl
@[simp] theorem updCore_nouns : (s.updCore c g).nouns = s.nouns := rfl
@[simp] theorem updCore_replies : (s.updCore c g).replies = s.replies := rfl
@[simp] theorem updCore_joins : (s.updCore c g).joins = s.joins := rfl
@[simp] theorem updCore_invals : (s.updCore c g).invals = s.invals := rfl
@[simp] theorem updCore_contexts : (s.updCore c g).contexts = s.contexts := rfl
@[simp] theorem updCore_applied : (s.updCore c g).applied = s.applied := rfl
@[simp] theorem updCore_courses : (s.updCore c g).courses = s.courses := rfl
@[simp] theorem updCore_lqs : (s.updCore c g).lqs = s.lqs := rfl
@[simp] theorem updCore_parts : (s.updCore c g).parts = s.parts := rfl
@[simp] theorem updCore_migs : (s.updCore c g).migs = s.migs := rfl
@[simp] theorem updCore_nounCache : (s.updCore c g).nounCache = s.nounCache := rfl
@[simp] theorem updCore_verbCache : (s.updCore c g).verbCache = s.verbCache := rfl
@[simp] theorem updCore_syscs : (s.updCore c g).syscs = s.syscs := rfl
@[simp] theorem updCore_host : (s.updCore c g).host = s.host := rfl
@[simp] theorem updCore_pool : (s.updCore c g).pool = s.pool := rfl
@[simp] theorem updCore_fabric : (s.updCore c g).fabric = s.fabric := rfl
@[simp] theorem updCore_hot : (s.updCore c g).hot = s.hot := rfl
@[simp] theorem updCore_nextId : (s.updCore c g).nextId = s.nextId := rfl
@[simp] theorem updCore_draws : (s.updCore c g).draws = s.draws := rfl
@[simp] theorem updCore_cur : (s.updCore c g).cur = s.cur := rfl
@[simp] theorem updCore_inputs : (s.updCore c g).inputs = s.inputs := rfl

end

/-! ### updCluster -/

section
variable (s : State) (c : Nat) (g : Cluster → Cluster)

@[simp] theorem updCluster_svc : (s.updCluster c g).svc = s.svc := rfl
@[simp] theorem updCluster_cycle : (s.updCluster c g).cycle = s.cycle := rfl
@[simp] theorem updCluster_elevenths : (s.updCluster c g).elevenths = s.elevenths := rfl
@[simp] theorem updCluster_ticks : (s.updCluster c g).ticks = s.ticks := rfl
@[simp] theorem updCluster_moduleNo : (s.updCluster c g).moduleNo = s.moduleNo := rfl
@[simp] theorem updCluster_image : (s.updCluster c g).image = s.image := rfl
@[simp] theorem updCluster_fatal : (s.updCluster c g).fatal = s.fatal := rfl
@[simp] theorem updCluster_mem : (s.updCluster c g).mem = s.mem := rfl
@[simp] theorem updCluster_poison : (s.updCluster c g).poison = s.poison := rfl
@[simp] theorem updCluster_tags : (s.updCluster c g).tags = s.tags := rfl
@[simp] theorem updCluster_waiters : (s.updCluster c g).waiters = s.waiters := rfl
@[simp] theorem updCluster_cores : (s.updCluster c g).cores = s.cores := rfl
@[simp] theorem updCluster_clusters : (s.updCluster c g).clusters = tput c (g (s.cluster c)) s.clusters := rfl
@[simp] theorem updCluster_frags : (s.updCluster c g).frags = s.frags := rfl
@[simp] theorem updCluster_phrases : (s.updCluster c g).phrases = s.phrases := rfl
@[simp] theorem updCluster_accs : (s.updCluster c g).accs = s.accs := rfl
@[simp] theorem updCluster_results : (s.updCluster c g).results = s.results := rfl
@[simp] theorem updCluster_laneOps : (s.updCluster c g).laneOps = s.laneOps := rfl
@[simp] theorem updCluster_held : (s.updCluster c g).held = s.held := rfl
@[simp] theorem updCluster_heldOps : (s.updCluster c g).heldOps = s.heldOps := rfl
@[simp] theorem updCluster_copies : (s.updCluster c g).copies = s.copies := rfl
@[simp] theorem updCluster_heldCopies : (s.updCluster c g).heldCopies = s.heldCopies := rfl
@[simp] theorem updCluster_poolReads : (s.updCluster c g).poolReads = s.poolReads := rfl
@[simp] theorem updCluster_nouns : (s.updCluster c g).nouns = s.nouns := rfl
@[simp] theorem updCluster_replies : (s.updCluster c g).replies = s.replies := rfl
@[simp] theorem updCluster_joins : (s.updCluster c g).joins = s.joins := rfl
@[simp] theorem updCluster_invals : (s.updCluster c g).invals = s.invals := rfl
@[simp] theorem updCluster_contexts : (s.updCluster c g).contexts = s.contexts := rfl
@[simp] theorem updCluster_applied : (s.updCluster c g).applied = s.applied := rfl
@[simp] theorem updCluster_courses : (s.updCluster c g).courses = s.courses := rfl
@[simp] theorem updCluster_lqs : (s.updCluster c g).lqs = s.lqs := rfl
@[simp] theorem updCluster_parts : (s.updCluster c g).parts = s.parts := rfl
@[simp] theorem updCluster_migs : (s.updCluster c g).migs = s.migs := rfl
@[simp] theorem updCluster_nounCache : (s.updCluster c g).nounCache = s.nounCache := rfl
@[simp] theorem updCluster_verbCache : (s.updCluster c g).verbCache = s.verbCache := rfl
@[simp] theorem updCluster_syscs : (s.updCluster c g).syscs = s.syscs := rfl
@[simp] theorem updCluster_host : (s.updCluster c g).host = s.host := rfl
@[simp] theorem updCluster_pool : (s.updCluster c g).pool = s.pool := rfl
@[simp] theorem updCluster_fabric : (s.updCluster c g).fabric = s.fabric := rfl
@[simp] theorem updCluster_hot : (s.updCluster c g).hot = s.hot := rfl
@[simp] theorem updCluster_nextId : (s.updCluster c g).nextId = s.nextId := rfl
@[simp] theorem updCluster_draws : (s.updCluster c g).draws = s.draws := rfl
@[simp] theorem updCluster_cur : (s.updCluster c g).cur = s.cur := rfl
@[simp] theorem updCluster_inputs : (s.updCluster c g).inputs = s.inputs := rfl

end

/-! ### updCtx -/

section
variable (s : State) (n : Nat) (g : Ctx → Ctx)

@[simp] theorem updCtx_svc : (s.updCtx n g).svc = s.svc := rfl
@[simp] theorem updCtx_cycle : (s.updCtx n g).cycle = s.cycle := rfl
@[simp] theorem updCtx_elevenths : (s.updCtx n g).elevenths = s.elevenths := rfl
@[simp] theorem updCtx_ticks : (s.updCtx n g).ticks = s.ticks := rfl
@[simp] theorem updCtx_moduleNo : (s.updCtx n g).moduleNo = s.moduleNo := rfl
@[simp] theorem updCtx_image : (s.updCtx n g).image = s.image := rfl
@[simp] theorem updCtx_fatal : (s.updCtx n g).fatal = s.fatal := rfl
@[simp] theorem updCtx_mem : (s.updCtx n g).mem = s.mem := rfl
@[simp] theorem updCtx_poison : (s.updCtx n g).poison = s.poison := rfl
@[simp] theorem updCtx_tags : (s.updCtx n g).tags = s.tags := rfl
@[simp] theorem updCtx_waiters : (s.updCtx n g).waiters = s.waiters := rfl
@[simp] theorem updCtx_cores : (s.updCtx n g).cores = s.cores := rfl
@[simp] theorem updCtx_clusters : (s.updCtx n g).clusters = s.clusters := rfl
@[simp] theorem updCtx_frags : (s.updCtx n g).frags = s.frags := rfl
@[simp] theorem updCtx_phrases : (s.updCtx n g).phrases = s.phrases := rfl
@[simp] theorem updCtx_accs : (s.updCtx n g).accs = s.accs := rfl
@[simp] theorem updCtx_results : (s.updCtx n g).results = s.results := rfl
@[simp] theorem updCtx_laneOps : (s.updCtx n g).laneOps = s.laneOps := rfl
@[simp] theorem updCtx_held : (s.updCtx n g).held = s.held := rfl
@[simp] theorem updCtx_heldOps : (s.updCtx n g).heldOps = s.heldOps := rfl
@[simp] theorem updCtx_copies : (s.updCtx n g).copies = s.copies := rfl
@[simp] theorem updCtx_heldCopies : (s.updCtx n g).heldCopies = s.heldCopies := rfl
@[simp] theorem updCtx_poolReads : (s.updCtx n g).poolReads = s.poolReads := rfl
@[simp] theorem updCtx_nouns : (s.updCtx n g).nouns = s.nouns := rfl
@[simp] theorem updCtx_replies : (s.updCtx n g).replies = s.replies := rfl
@[simp] theorem updCtx_joins : (s.updCtx n g).joins = s.joins := rfl
@[simp] theorem updCtx_invals : (s.updCtx n g).invals = s.invals := rfl
@[simp] theorem updCtx_contexts : (s.updCtx n g).contexts = tput n (g (s.ctx n)) s.contexts := rfl
@[simp] theorem updCtx_applied : (s.updCtx n g).applied = s.applied := rfl
@[simp] theorem updCtx_courses : (s.updCtx n g).courses = s.courses := rfl
@[simp] theorem updCtx_lqs : (s.updCtx n g).lqs = s.lqs := rfl
@[simp] theorem updCtx_parts : (s.updCtx n g).parts = s.parts := rfl
@[simp] theorem updCtx_migs : (s.updCtx n g).migs = s.migs := rfl
@[simp] theorem updCtx_nounCache : (s.updCtx n g).nounCache = s.nounCache := rfl
@[simp] theorem updCtx_verbCache : (s.updCtx n g).verbCache = s.verbCache := rfl
@[simp] theorem updCtx_syscs : (s.updCtx n g).syscs = s.syscs := rfl
@[simp] theorem updCtx_host : (s.updCtx n g).host = s.host := rfl
@[simp] theorem updCtx_pool : (s.updCtx n g).pool = s.pool := rfl
@[simp] theorem updCtx_fabric : (s.updCtx n g).fabric = s.fabric := rfl
@[simp] theorem updCtx_hot : (s.updCtx n g).hot = s.hot := rfl
@[simp] theorem updCtx_nextId : (s.updCtx n g).nextId = s.nextId := rfl
@[simp] theorem updCtx_draws : (s.updCtx n g).draws = s.draws := rfl
@[simp] theorem updCtx_cur : (s.updCtx n g).cur = s.cur := rfl
@[simp] theorem updCtx_inputs : (s.updCtx n g).inputs = s.inputs := rfl

end

/-! ### updInst -/

section
variable (s : State) (i : Nat) (g : Applied → Applied)

@[simp] theorem updInst_svc : (s.updInst i g).svc = s.svc := rfl
@[simp] theorem updInst_cycle : (s.updInst i g).cycle = s.cycle := rfl
@[simp] theorem updInst_elevenths : (s.updInst i g).elevenths = s.elevenths := rfl
@[simp] theorem updInst_ticks : (s.updInst i g).ticks = s.ticks := rfl
@[simp] theorem updInst_moduleNo : (s.updInst i g).moduleNo = s.moduleNo := rfl
@[simp] theorem updInst_image : (s.updInst i g).image = s.image := rfl
@[simp] theorem updInst_fatal : (s.updInst i g).fatal = s.fatal := rfl
@[simp] theorem updInst_mem : (s.updInst i g).mem = s.mem := rfl
@[simp] theorem updInst_poison : (s.updInst i g).poison = s.poison := rfl
@[simp] theorem updInst_tags : (s.updInst i g).tags = s.tags := rfl
@[simp] theorem updInst_waiters : (s.updInst i g).waiters = s.waiters := rfl
@[simp] theorem updInst_cores : (s.updInst i g).cores = s.cores := rfl
@[simp] theorem updInst_clusters : (s.updInst i g).clusters = s.clusters := rfl
@[simp] theorem updInst_frags : (s.updInst i g).frags = s.frags := rfl
@[simp] theorem updInst_phrases : (s.updInst i g).phrases = s.phrases := rfl
@[simp] theorem updInst_accs : (s.updInst i g).accs = s.accs := rfl
@[simp] theorem updInst_results : (s.updInst i g).results = s.results := rfl
@[simp] theorem updInst_laneOps : (s.updInst i g).laneOps = s.laneOps := rfl
@[simp] theorem updInst_held : (s.updInst i g).held = s.held := rfl
@[simp] theorem updInst_heldOps : (s.updInst i g).heldOps = s.heldOps := rfl
@[simp] theorem updInst_copies : (s.updInst i g).copies = s.copies := rfl
@[simp] theorem updInst_heldCopies : (s.updInst i g).heldCopies = s.heldCopies := rfl
@[simp] theorem updInst_poolReads : (s.updInst i g).poolReads = s.poolReads := rfl
@[simp] theorem updInst_nouns : (s.updInst i g).nouns = s.nouns := rfl
@[simp] theorem updInst_replies : (s.updInst i g).replies = s.replies := rfl
@[simp] theorem updInst_joins : (s.updInst i g).joins = s.joins := rfl
@[simp] theorem updInst_invals : (s.updInst i g).invals = s.invals := rfl
@[simp] theorem updInst_contexts : (s.updInst i g).contexts = s.contexts := rfl
@[simp] theorem updInst_applied : (s.updInst i g).applied = tmod i g s.applied := rfl
@[simp] theorem updInst_courses : (s.updInst i g).courses = s.courses := rfl
@[simp] theorem updInst_lqs : (s.updInst i g).lqs = s.lqs := rfl
@[simp] theorem updInst_parts : (s.updInst i g).parts = s.parts := rfl
@[simp] theorem updInst_migs : (s.updInst i g).migs = s.migs := rfl
@[simp] theorem updInst_nounCache : (s.updInst i g).nounCache = s.nounCache := rfl
@[simp] theorem updInst_verbCache : (s.updInst i g).verbCache = s.verbCache := rfl
@[simp] theorem updInst_syscs : (s.updInst i g).syscs = s.syscs := rfl
@[simp] theorem updInst_host : (s.updInst i g).host = s.host := rfl
@[simp] theorem updInst_pool : (s.updInst i g).pool = s.pool := rfl
@[simp] theorem updInst_fabric : (s.updInst i g).fabric = s.fabric := rfl
@[simp] theorem updInst_hot : (s.updInst i g).hot = s.hot := rfl
@[simp] theorem updInst_nextId : (s.updInst i g).nextId = s.nextId := rfl
@[simp] theorem updInst_draws : (s.updInst i g).draws = s.draws := rfl
@[simp] theorem updInst_cur : (s.updInst i g).cur = s.cur := rfl
@[simp] theorem updInst_inputs : (s.updInst i g).inputs = s.inputs := rfl

end

/-! ### updLq -/

section
variable (s : State) (n : Nat) (g : LaunchQ → LaunchQ)

@[simp] theorem updLq_svc : (s.updLq n g).svc = s.svc := rfl
@[simp] theorem updLq_cycle : (s.updLq n g).cycle = s.cycle := rfl
@[simp] theorem updLq_elevenths : (s.updLq n g).elevenths = s.elevenths := rfl
@[simp] theorem updLq_ticks : (s.updLq n g).ticks = s.ticks := rfl
@[simp] theorem updLq_moduleNo : (s.updLq n g).moduleNo = s.moduleNo := rfl
@[simp] theorem updLq_image : (s.updLq n g).image = s.image := rfl
@[simp] theorem updLq_fatal : (s.updLq n g).fatal = s.fatal := rfl
@[simp] theorem updLq_mem : (s.updLq n g).mem = s.mem := rfl
@[simp] theorem updLq_poison : (s.updLq n g).poison = s.poison := rfl
@[simp] theorem updLq_tags : (s.updLq n g).tags = s.tags := rfl
@[simp] theorem updLq_waiters : (s.updLq n g).waiters = s.waiters := rfl
@[simp] theorem updLq_cores : (s.updLq n g).cores = s.cores := rfl
@[simp] theorem updLq_clusters : (s.updLq n g).clusters = s.clusters := rfl
@[simp] theorem updLq_frags : (s.updLq n g).frags = s.frags := rfl
@[simp] theorem updLq_phrases : (s.updLq n g).phrases = s.phrases := rfl
@[simp] theorem updLq_accs : (s.updLq n g).accs = s.accs := rfl
@[simp] theorem updLq_results : (s.updLq n g).results = s.results := rfl
@[simp] theorem updLq_laneOps : (s.updLq n g).laneOps = s.laneOps := rfl
@[simp] theorem updLq_held : (s.updLq n g).held = s.held := rfl
@[simp] theorem updLq_heldOps : (s.updLq n g).heldOps = s.heldOps := rfl
@[simp] theorem updLq_copies : (s.updLq n g).copies = s.copies := rfl
@[simp] theorem updLq_heldCopies : (s.updLq n g).heldCopies = s.heldCopies := rfl
@[simp] theorem updLq_poolReads : (s.updLq n g).poolReads = s.poolReads := rfl
@[simp] theorem updLq_nouns : (s.updLq n g).nouns = s.nouns := rfl
@[simp] theorem updLq_replies : (s.updLq n g).replies = s.replies := rfl
@[simp] theorem updLq_joins : (s.updLq n g).joins = s.joins := rfl
@[simp] theorem updLq_invals : (s.updLq n g).invals = s.invals := rfl
@[simp] theorem updLq_contexts : (s.updLq n g).contexts = s.contexts := rfl
@[simp] theorem updLq_applied : (s.updLq n g).applied = s.applied := rfl
@[simp] theorem updLq_courses : (s.updLq n g).courses = s.courses := rfl
@[simp] theorem updLq_lqs : (s.updLq n g).lqs = tput n (g (s.lq n)) s.lqs := rfl
@[simp] theorem updLq_parts : (s.updLq n g).parts = s.parts := rfl
@[simp] theorem updLq_migs : (s.updLq n g).migs = s.migs := rfl
@[simp] theorem updLq_nounCache : (s.updLq n g).nounCache = s.nounCache := rfl
@[simp] theorem updLq_verbCache : (s.updLq n g).verbCache = s.verbCache := rfl
@[simp] theorem updLq_syscs : (s.updLq n g).syscs = s.syscs := rfl
@[simp] theorem updLq_host : (s.updLq n g).host = s.host := rfl
@[simp] theorem updLq_pool : (s.updLq n g).pool = s.pool := rfl
@[simp] theorem updLq_fabric : (s.updLq n g).fabric = s.fabric := rfl
@[simp] theorem updLq_hot : (s.updLq n g).hot = s.hot := rfl
@[simp] theorem updLq_nextId : (s.updLq n g).nextId = s.nextId := rfl
@[simp] theorem updLq_draws : (s.updLq n g).draws = s.draws := rfl
@[simp] theorem updLq_cur : (s.updLq n g).cur = s.cur := rfl
@[simp] theorem updLq_inputs : (s.updLq n g).inputs = s.inputs := rfl

end

/-! ### updPart -/

section
variable (s : State) (n : Nat) (g : Part → Part)

@[simp] theorem updPart_svc : (s.updPart n g).svc = s.svc := rfl
@[simp] theorem updPart_cycle : (s.updPart n g).cycle = s.cycle := rfl
@[simp] theorem updPart_elevenths : (s.updPart n g).elevenths = s.elevenths := rfl
@[simp] theorem updPart_ticks : (s.updPart n g).ticks = s.ticks := rfl
@[simp] theorem updPart_moduleNo : (s.updPart n g).moduleNo = s.moduleNo := rfl
@[simp] theorem updPart_image : (s.updPart n g).image = s.image := rfl
@[simp] theorem updPart_fatal : (s.updPart n g).fatal = s.fatal := rfl
@[simp] theorem updPart_mem : (s.updPart n g).mem = s.mem := rfl
@[simp] theorem updPart_poison : (s.updPart n g).poison = s.poison := rfl
@[simp] theorem updPart_tags : (s.updPart n g).tags = s.tags := rfl
@[simp] theorem updPart_waiters : (s.updPart n g).waiters = s.waiters := rfl
@[simp] theorem updPart_cores : (s.updPart n g).cores = s.cores := rfl
@[simp] theorem updPart_clusters : (s.updPart n g).clusters = s.clusters := rfl
@[simp] theorem updPart_frags : (s.updPart n g).frags = s.frags := rfl
@[simp] theorem updPart_phrases : (s.updPart n g).phrases = s.phrases := rfl
@[simp] theorem updPart_accs : (s.updPart n g).accs = s.accs := rfl
@[simp] theorem updPart_results : (s.updPart n g).results = s.results := rfl
@[simp] theorem updPart_laneOps : (s.updPart n g).laneOps = s.laneOps := rfl
@[simp] theorem updPart_held : (s.updPart n g).held = s.held := rfl
@[simp] theorem updPart_heldOps : (s.updPart n g).heldOps = s.heldOps := rfl
@[simp] theorem updPart_copies : (s.updPart n g).copies = s.copies := rfl
@[simp] theorem updPart_heldCopies : (s.updPart n g).heldCopies = s.heldCopies := rfl
@[simp] theorem updPart_poolReads : (s.updPart n g).poolReads = s.poolReads := rfl
@[simp] theorem updPart_nouns : (s.updPart n g).nouns = s.nouns := rfl
@[simp] theorem updPart_replies : (s.updPart n g).replies = s.replies := rfl
@[simp] theorem updPart_joins : (s.updPart n g).joins = s.joins := rfl
@[simp] theorem updPart_invals : (s.updPart n g).invals = s.invals := rfl
@[simp] theorem updPart_contexts : (s.updPart n g).contexts = s.contexts := rfl
@[simp] theorem updPart_applied : (s.updPart n g).applied = s.applied := rfl
@[simp] theorem updPart_courses : (s.updPart n g).courses = s.courses := rfl
@[simp] theorem updPart_lqs : (s.updPart n g).lqs = s.lqs := rfl
@[simp] theorem updPart_parts : (s.updPart n g).parts = tput n (g (s.part n)) s.parts := rfl
@[simp] theorem updPart_migs : (s.updPart n g).migs = s.migs := rfl
@[simp] theorem updPart_nounCache : (s.updPart n g).nounCache = s.nounCache := rfl
@[simp] theorem updPart_verbCache : (s.updPart n g).verbCache = s.verbCache := rfl
@[simp] theorem updPart_syscs : (s.updPart n g).syscs = s.syscs := rfl
@[simp] theorem updPart_host : (s.updPart n g).host = s.host := rfl
@[simp] theorem updPart_pool : (s.updPart n g).pool = s.pool := rfl
@[simp] theorem updPart_fabric : (s.updPart n g).fabric = s.fabric := rfl
@[simp] theorem updPart_hot : (s.updPart n g).hot = s.hot := rfl
@[simp] theorem updPart_nextId : (s.updPart n g).nextId = s.nextId := rfl
@[simp] theorem updPart_draws : (s.updPart n g).draws = s.draws := rfl
@[simp] theorem updPart_cur : (s.updPart n g).cur = s.cur := rfl
@[simp] theorem updPart_inputs : (s.updPart n g).inputs = s.inputs := rfl

end

/-! ### updHost -/

section
variable (s : State) (g : HostSide → HostSide)

@[simp] theorem updHost_svc : (s.updHost g).svc = s.svc := rfl
@[simp] theorem updHost_cycle : (s.updHost g).cycle = s.cycle := rfl
@[simp] theorem updHost_elevenths : (s.updHost g).elevenths = s.elevenths := rfl
@[simp] theorem updHost_ticks : (s.updHost g).ticks = s.ticks := rfl
@[simp] theorem updHost_moduleNo : (s.updHost g).moduleNo = s.moduleNo := rfl
@[simp] theorem updHost_image : (s.updHost g).image = s.image := rfl
@[simp] theorem updHost_fatal : (s.updHost g).fatal = s.fatal := rfl
@[simp] theorem updHost_mem : (s.updHost g).mem = s.mem := rfl
@[simp] theorem updHost_poison : (s.updHost g).poison = s.poison := rfl
@[simp] theorem updHost_tags : (s.updHost g).tags = s.tags := rfl
@[simp] theorem updHost_waiters : (s.updHost g).waiters = s.waiters := rfl
@[simp] theorem updHost_cores : (s.updHost g).cores = s.cores := rfl
@[simp] theorem updHost_clusters : (s.updHost g).clusters = s.clusters := rfl
@[simp] theorem updHost_frags : (s.updHost g).frags = s.frags := rfl
@[simp] theorem updHost_phrases : (s.updHost g).phrases = s.phrases := rfl
@[simp] theorem updHost_accs : (s.updHost g).accs = s.accs := rfl
@[simp] theorem updHost_results : (s.updHost g).results = s.results := rfl
@[simp] theorem updHost_laneOps : (s.updHost g).laneOps = s.laneOps := rfl
@[simp] theorem updHost_held : (s.updHost g).held = s.held := rfl
@[simp] theorem updHost_heldOps : (s.updHost g).heldOps = s.heldOps := rfl
@[simp] theorem updHost_copies : (s.updHost g).copies = s.copies := rfl
@[simp] theorem updHost_heldCopies : (s.updHost g).heldCopies = s.heldCopies := rfl
@[simp] theorem updHost_poolReads : (s.updHost g).poolReads = s.poolReads := rfl
@[simp] theorem updHost_nouns : (s.updHost g).nouns = s.nouns := rfl
@[simp] theorem updHost_replies : (s.updHost g).replies = s.replies := rfl
@[simp] theorem updHost_joins : (s.updHost g).joins = s.joins := rfl
@[simp] theorem updHost_invals : (s.updHost g).invals = s.invals := rfl
@[simp] theorem updHost_contexts : (s.updHost g).contexts = s.contexts := rfl
@[simp] theorem updHost_applied : (s.updHost g).applied = s.applied := rfl
@[simp] theorem updHost_courses : (s.updHost g).courses = s.courses := rfl
@[simp] theorem updHost_lqs : (s.updHost g).lqs = s.lqs := rfl
@[simp] theorem updHost_parts : (s.updHost g).parts = s.parts := rfl
@[simp] theorem updHost_migs : (s.updHost g).migs = s.migs := rfl
@[simp] theorem updHost_nounCache : (s.updHost g).nounCache = s.nounCache := rfl
@[simp] theorem updHost_verbCache : (s.updHost g).verbCache = s.verbCache := rfl
@[simp] theorem updHost_syscs : (s.updHost g).syscs = s.syscs := rfl
@[simp] theorem updHost_host : (s.updHost g).host = g s.host := rfl
@[simp] theorem updHost_pool : (s.updHost g).pool = s.pool := rfl
@[simp] theorem updHost_fabric : (s.updHost g).fabric = s.fabric := rfl
@[simp] theorem updHost_hot : (s.updHost g).hot = s.hot := rfl
@[simp] theorem updHost_nextId : (s.updHost g).nextId = s.nextId := rfl
@[simp] theorem updHost_draws : (s.updHost g).draws = s.draws := rfl
@[simp] theorem updHost_cur : (s.updHost g).cur = s.cur := rfl
@[simp] theorem updHost_inputs : (s.updHost g).inputs = s.inputs := rfl

end

/-! ### updHostPort -/

section
variable (s : State) (hp : Bool) (g : HostPort → HostPort)

@[simp] theorem updHostPort_svc : (s.updHostPort hp g).svc = s.svc := rfl
@[simp] theorem updHostPort_cycle : (s.updHostPort hp g).cycle = s.cycle := rfl
@[simp] theorem updHostPort_elevenths : (s.updHostPort hp g).elevenths = s.elevenths := rfl
@[simp] theorem updHostPort_ticks : (s.updHostPort hp g).ticks = s.ticks := rfl
@[simp] theorem updHostPort_moduleNo : (s.updHostPort hp g).moduleNo = s.moduleNo := rfl
@[simp] theorem updHostPort_image : (s.updHostPort hp g).image = s.image := rfl
@[simp] theorem updHostPort_fatal : (s.updHostPort hp g).fatal = s.fatal := rfl
@[simp] theorem updHostPort_mem : (s.updHostPort hp g).mem = s.mem := rfl
@[simp] theorem updHostPort_poison : (s.updHostPort hp g).poison = s.poison := rfl
@[simp] theorem updHostPort_tags : (s.updHostPort hp g).tags = s.tags := rfl
@[simp] theorem updHostPort_waiters : (s.updHostPort hp g).waiters = s.waiters := rfl
@[simp] theorem updHostPort_cores : (s.updHostPort hp g).cores = s.cores := rfl
@[simp] theorem updHostPort_clusters : (s.updHostPort hp g).clusters = s.clusters := rfl
@[simp] theorem updHostPort_frags : (s.updHostPort hp g).frags = s.frags := rfl
@[simp] theorem updHostPort_phrases : (s.updHostPort hp g).phrases = s.phrases := rfl
@[simp] theorem updHostPort_accs : (s.updHostPort hp g).accs = s.accs := rfl
@[simp] theorem updHostPort_results : (s.updHostPort hp g).results = s.results := rfl
@[simp] theorem updHostPort_laneOps : (s.updHostPort hp g).laneOps = s.laneOps := rfl
@[simp] theorem updHostPort_held : (s.updHostPort hp g).held = s.held := rfl
@[simp] theorem updHostPort_heldOps : (s.updHostPort hp g).heldOps = s.heldOps := rfl
@[simp] theorem updHostPort_copies : (s.updHostPort hp g).copies = s.copies := rfl
@[simp] theorem updHostPort_heldCopies : (s.updHostPort hp g).heldCopies = s.heldCopies := rfl
@[simp] theorem updHostPort_poolReads : (s.updHostPort hp g).poolReads = s.poolReads := rfl
@[simp] theorem updHostPort_nouns : (s.updHostPort hp g).nouns = s.nouns := rfl
@[simp] theorem updHostPort_replies : (s.updHostPort hp g).replies = s.replies := rfl
@[simp] theorem updHostPort_joins : (s.updHostPort hp g).joins = s.joins := rfl
@[simp] theorem updHostPort_invals : (s.updHostPort hp g).invals = s.invals := rfl
@[simp] theorem updHostPort_contexts : (s.updHostPort hp g).contexts = s.contexts := rfl
@[simp] theorem updHostPort_applied : (s.updHostPort hp g).applied = s.applied := rfl
@[simp] theorem updHostPort_courses : (s.updHostPort hp g).courses = s.courses := rfl
@[simp] theorem updHostPort_lqs : (s.updHostPort hp g).lqs = s.lqs := rfl
@[simp] theorem updHostPort_parts : (s.updHostPort hp g).parts = s.parts := rfl
@[simp] theorem updHostPort_migs : (s.updHostPort hp g).migs = s.migs := rfl
@[simp] theorem updHostPort_nounCache : (s.updHostPort hp g).nounCache = s.nounCache := rfl
@[simp] theorem updHostPort_verbCache : (s.updHostPort hp g).verbCache = s.verbCache := rfl
@[simp] theorem updHostPort_syscs : (s.updHostPort hp g).syscs = s.syscs := rfl
@[simp] theorem updHostPort_pool : (s.updHostPort hp g).pool = s.pool := rfl
@[simp] theorem updHostPort_fabric : (s.updHostPort hp g).fabric = s.fabric := rfl
@[simp] theorem updHostPort_hot : (s.updHostPort hp g).hot = s.hot := rfl
@[simp] theorem updHostPort_nextId : (s.updHostPort hp g).nextId = s.nextId := rfl
@[simp] theorem updHostPort_draws : (s.updHostPort hp g).draws = s.draws := rfl
@[simp] theorem updHostPort_cur : (s.updHostPort hp g).cur = s.cur := rfl
@[simp] theorem updHostPort_inputs : (s.updHostPort hp g).inputs = s.inputs := rfl

end

/-! ### updFabric -/

section
variable (s : State) (g : Fabric → Fabric)

@[simp] theorem updFabric_svc : (s.updFabric g).svc = s.svc := rfl
@[simp] theorem updFabric_cycle : (s.updFabric g).cycle = s.cycle := rfl
@[simp] theorem updFabric_elevenths : (s.updFabric g).elevenths = s.elevenths := rfl
@[simp] theorem updFabric_ticks : (s.updFabric g).ticks = s.ticks := rfl
@[simp] theorem updFabric_moduleNo : (s.updFabric g).moduleNo = s.moduleNo := rfl
@[simp] theorem updFabric_image : (s.updFabric g).image = s.image := rfl
@[simp] theorem updFabric_fatal : (s.updFabric g).fatal = s.fatal := rfl
@[simp] theorem updFabric_mem : (s.updFabric g).mem = s.mem := rfl
@[simp] theorem updFabric_poison : (s.updFabric g).poison = s.poison := rfl
@[simp] theorem updFabric_tags : (s.updFabric g).tags = s.tags := rfl
@[simp] theorem updFabric_waiters : (s.updFabric g).waiters = s.waiters := rfl
@[simp] theorem updFabric_cores : (s.updFabric g).cores = s.cores := rfl
@[simp] theorem updFabric_clusters : (s.updFabric g).clusters = s.clusters := rfl
@[simp] theorem updFabric_frags : (s.updFabric g).frags = s.frags := rfl
@[simp] theorem updFabric_phrases : (s.updFabric g).phrases = s.phrases := rfl
@[simp] theorem updFabric_accs : (s.updFabric g).accs = s.accs := rfl
@[simp] theorem updFabric_results : (s.updFabric g).results = s.results := rfl
@[simp] theorem updFabric_laneOps : (s.updFabric g).laneOps = s.laneOps := rfl
@[simp] theorem updFabric_held : (s.updFabric g).held = s.held := rfl
@[simp] theorem updFabric_heldOps : (s.updFabric g).heldOps = s.heldOps := rfl
@[simp] theorem updFabric_copies : (s.updFabric g).copies = s.copies := rfl
@[simp] theorem updFabric_heldCopies : (s.updFabric g).heldCopies = s.heldCopies := rfl
@[simp] theorem updFabric_poolReads : (s.updFabric g).poolReads = s.poolReads := rfl
@[simp] theorem updFabric_nouns : (s.updFabric g).nouns = s.nouns := rfl
@[simp] theorem updFabric_replies : (s.updFabric g).replies = s.replies := rfl
@[simp] theorem updFabric_joins : (s.updFabric g).joins = s.joins := rfl
@[simp] theorem updFabric_invals : (s.updFabric g).invals = s.invals := rfl
@[simp] theorem updFabric_contexts : (s.updFabric g).contexts = s.contexts := rfl
@[simp] theorem updFabric_applied : (s.updFabric g).applied = s.applied := rfl
@[simp] theorem updFabric_courses : (s.updFabric g).courses = s.courses := rfl
@[simp] theorem updFabric_lqs : (s.updFabric g).lqs = s.lqs := rfl
@[simp] theorem updFabric_parts : (s.updFabric g).parts = s.parts := rfl
@[simp] theorem updFabric_migs : (s.updFabric g).migs = s.migs := rfl
@[simp] theorem updFabric_nounCache : (s.updFabric g).nounCache = s.nounCache := rfl
@[simp] theorem updFabric_verbCache : (s.updFabric g).verbCache = s.verbCache := rfl
@[simp] theorem updFabric_syscs : (s.updFabric g).syscs = s.syscs := rfl
@[simp] theorem updFabric_host : (s.updFabric g).host = s.host := rfl
@[simp] theorem updFabric_pool : (s.updFabric g).pool = s.pool := rfl
@[simp] theorem updFabric_fabric : (s.updFabric g).fabric = g s.fabric := rfl
@[simp] theorem updFabric_hot : (s.updFabric g).hot = s.hot := rfl
@[simp] theorem updFabric_nextId : (s.updFabric g).nextId = s.nextId := rfl
@[simp] theorem updFabric_draws : (s.updFabric g).draws = s.draws := rfl
@[simp] theorem updFabric_cur : (s.updFabric g).cur = s.cur := rfl
@[simp] theorem updFabric_inputs : (s.updFabric g).inputs = s.inputs := rfl

end

/-! ### updFport -/

section
variable (s : State) (n : Nat) (g : FPort → FPort)

@[simp] theorem updFport_svc : (s.updFport n g).svc = s.svc := rfl
@[simp] theorem updFport_cycle : (s.updFport n g).cycle = s.cycle := rfl
@[simp] theorem updFport_elevenths : (s.updFport n g).elevenths = s.elevenths := rfl
@[simp] theorem updFport_ticks : (s.updFport n g).ticks = s.ticks := rfl
@[simp] theorem updFport_moduleNo : (s.updFport n g).moduleNo = s.moduleNo := rfl
@[simp] theorem updFport_image : (s.updFport n g).image = s.image := rfl
@[simp] theorem updFport_fatal : (s.updFport n g).fatal = s.fatal := rfl
@[simp] theorem updFport_mem : (s.updFport n g).mem = s.mem := rfl
@[simp] theorem updFport_poison : (s.updFport n g).poison = s.poison := rfl
@[simp] theorem updFport_tags : (s.updFport n g).tags = s.tags := rfl
@[simp] theorem updFport_waiters : (s.updFport n g).waiters = s.waiters := rfl
@[simp] theorem updFport_cores : (s.updFport n g).cores = s.cores := rfl
@[simp] theorem updFport_clusters : (s.updFport n g).clusters = s.clusters := rfl
@[simp] theorem updFport_frags : (s.updFport n g).frags = s.frags := rfl
@[simp] theorem updFport_phrases : (s.updFport n g).phrases = s.phrases := rfl
@[simp] theorem updFport_accs : (s.updFport n g).accs = s.accs := rfl
@[simp] theorem updFport_results : (s.updFport n g).results = s.results := rfl
@[simp] theorem updFport_laneOps : (s.updFport n g).laneOps = s.laneOps := rfl
@[simp] theorem updFport_held : (s.updFport n g).held = s.held := rfl
@[simp] theorem updFport_heldOps : (s.updFport n g).heldOps = s.heldOps := rfl
@[simp] theorem updFport_copies : (s.updFport n g).copies = s.copies := rfl
@[simp] theorem updFport_heldCopies : (s.updFport n g).heldCopies = s.heldCopies := rfl
@[simp] theorem updFport_poolReads : (s.updFport n g).poolReads = s.poolReads := rfl
@[simp] theorem updFport_nouns : (s.updFport n g).nouns = s.nouns := rfl
@[simp] theorem updFport_replies : (s.updFport n g).replies = s.replies := rfl
@[simp] theorem updFport_joins : (s.updFport n g).joins = s.joins := rfl
@[simp] theorem updFport_invals : (s.updFport n g).invals = s.invals := rfl
@[simp] theorem updFport_contexts : (s.updFport n g).contexts = s.contexts := rfl
@[simp] theorem updFport_applied : (s.updFport n g).applied = s.applied := rfl
@[simp] theorem updFport_courses : (s.updFport n g).courses = s.courses := rfl
@[simp] theorem updFport_lqs : (s.updFport n g).lqs = s.lqs := rfl
@[simp] theorem updFport_parts : (s.updFport n g).parts = s.parts := rfl
@[simp] theorem updFport_migs : (s.updFport n g).migs = s.migs := rfl
@[simp] theorem updFport_nounCache : (s.updFport n g).nounCache = s.nounCache := rfl
@[simp] theorem updFport_verbCache : (s.updFport n g).verbCache = s.verbCache := rfl
@[simp] theorem updFport_syscs : (s.updFport n g).syscs = s.syscs := rfl
@[simp] theorem updFport_host : (s.updFport n g).host = s.host := rfl
@[simp] theorem updFport_pool : (s.updFport n g).pool = s.pool := rfl
@[simp] theorem updFport_fabric : (s.updFport n g).fabric = { s.fabric with ports := tput n (g (s.fport n)) s.fabric.ports } := rfl
@[simp] theorem updFport_hot : (s.updFport n g).hot = s.hot := rfl
@[simp] theorem updFport_nextId : (s.updFport n g).nextId = s.nextId := rfl
@[simp] theorem updFport_draws : (s.updFport n g).draws = s.draws := rfl
@[simp] theorem updFport_cur : (s.updFport n g).cur = s.cur := rfl
@[simp] theorem updFport_inputs : (s.updFport n g).inputs = s.inputs := rfl

end

/-! ### updPool -/

section
variable (s : State) (g : Pool → Pool)

@[simp] theorem updPool_svc : (s.updPool g).svc = s.svc := rfl
@[simp] theorem updPool_cycle : (s.updPool g).cycle = s.cycle := rfl
@[simp] theorem updPool_elevenths : (s.updPool g).elevenths = s.elevenths := rfl
@[simp] theorem updPool_ticks : (s.updPool g).ticks = s.ticks := rfl
@[simp] theorem updPool_moduleNo : (s.updPool g).moduleNo = s.moduleNo := rfl
@[simp] theorem updPool_image : (s.updPool g).image = s.image := rfl
@[simp] theorem updPool_fatal : (s.updPool g).fatal = s.fatal := rfl
@[simp] theorem updPool_mem : (s.updPool g).mem = s.mem := rfl
@[simp] theorem updPool_poison : (s.updPool g).poison = s.poison := rfl
@[simp] theorem updPool_tags : (s.updPool g).tags = s.tags := rfl
@[simp] theorem updPool_waiters : (s.updPool g).waiters = s.waiters := rfl
@[simp] theorem updPool_cores : (s.updPool g).cores = s.cores := rfl
@[simp] theorem updPool_clusters : (s.updPool g).clusters = s.clusters := rfl
@[simp] theorem updPool_frags : (s.updPool g).frags = s.frags := rfl
@[simp] theorem updPool_phrases : (s.updPool g).phrases = s.phrases := rfl
@[simp] theorem updPool_accs : (s.updPool g).accs = s.accs := rfl
@[simp] theorem updPool_results : (s.updPool g).results = s.results := rfl
@[simp] theorem updPool_laneOps : (s.updPool g).laneOps = s.laneOps := rfl
@[simp] theorem updPool_held : (s.updPool g).held = s.held := rfl
@[simp] theorem updPool_heldOps : (s.updPool g).heldOps = s.heldOps := rfl
@[simp] theorem updPool_copies : (s.updPool g).copies = s.copies := rfl
@[simp] theorem updPool_heldCopies : (s.updPool g).heldCopies = s.heldCopies := rfl
@[simp] theorem updPool_poolReads : (s.updPool g).poolReads = s.poolReads := rfl
@[simp] theorem updPool_nouns : (s.updPool g).nouns = s.nouns := rfl
@[simp] theorem updPool_replies : (s.updPool g).replies = s.replies := rfl
@[simp] theorem updPool_joins : (s.updPool g).joins = s.joins := rfl
@[simp] theorem updPool_invals : (s.updPool g).invals = s.invals := rfl
@[simp] theorem updPool_contexts : (s.updPool g).contexts = s.contexts := rfl
@[simp] theorem updPool_applied : (s.updPool g).applied = s.applied := rfl
@[simp] theorem updPool_courses : (s.updPool g).courses = s.courses := rfl
@[simp] theorem updPool_lqs : (s.updPool g).lqs = s.lqs := rfl
@[simp] theorem updPool_parts : (s.updPool g).parts = s.parts := rfl
@[simp] theorem updPool_migs : (s.updPool g).migs = s.migs := rfl
@[simp] theorem updPool_nounCache : (s.updPool g).nounCache = s.nounCache := rfl
@[simp] theorem updPool_verbCache : (s.updPool g).verbCache = s.verbCache := rfl
@[simp] theorem updPool_syscs : (s.updPool g).syscs = s.syscs := rfl
@[simp] theorem updPool_host : (s.updPool g).host = s.host := rfl
@[simp] theorem updPool_pool : (s.updPool g).pool = g s.pool := rfl
@[simp] theorem updPool_fabric : (s.updPool g).fabric = s.fabric := rfl
@[simp] theorem updPool_hot : (s.updPool g).hot = s.hot := rfl
@[simp] theorem updPool_nextId : (s.updPool g).nextId = s.nextId := rfl
@[simp] theorem updPool_draws : (s.updPool g).draws = s.draws := rfl
@[simp] theorem updPool_cur : (s.updPool g).cur = s.cur := rfl
@[simp] theorem updPool_inputs : (s.updPool g).inputs = s.inputs := rfl

end

/-! ### updMem -/

section
variable (s : State) (g : Mem → Mem)

@[simp] theorem updMem_svc : (s.updMem g).svc = s.svc := rfl
@[simp] theorem updMem_cycle : (s.updMem g).cycle = s.cycle := rfl
@[simp] theorem updMem_elevenths : (s.updMem g).elevenths = s.elevenths := rfl
@[simp] theorem updMem_ticks : (s.updMem g).ticks = s.ticks := rfl
@[simp] theorem updMem_moduleNo : (s.updMem g).moduleNo = s.moduleNo := rfl
@[simp] theorem updMem_image : (s.updMem g).image = s.image := rfl
@[simp] theorem updMem_fatal : (s.updMem g).fatal = s.fatal := rfl
@[simp] theorem updMem_mem : (s.updMem g).mem = g s.mem := rfl
@[simp] theorem updMem_poison : (s.updMem g).poison = s.poison := rfl
@[simp] theorem updMem_tags : (s.updMem g).tags = s.tags := rfl
@[simp] theorem updMem_waiters : (s.updMem g).waiters = s.waiters := rfl
@[simp] theorem updMem_cores : (s.updMem g).cores = s.cores := rfl
@[simp] theorem updMem_clusters : (s.updMem g).clusters = s.clusters := rfl
@[simp] theorem updMem_frags : (s.updMem g).frags = s.frags := rfl
@[simp] theorem updMem_phrases : (s.updMem g).phrases = s.phrases := rfl
@[simp] theorem updMem_accs : (s.updMem g).accs = s.accs := rfl
@[simp] theorem updMem_results : (s.updMem g).results = s.results := rfl
@[simp] theorem updMem_laneOps : (s.updMem g).laneOps = s.laneOps := rfl
@[simp] theorem updMem_held : (s.updMem g).held = s.held := rfl
@[simp] theorem updMem_heldOps : (s.updMem g).heldOps = s.heldOps := rfl
@[simp] theorem updMem_copies : (s.updMem g).copies = s.copies := rfl
@[simp] theorem updMem_heldCopies : (s.updMem g).heldCopies = s.heldCopies := rfl
@[simp] theorem updMem_poolReads : (s.updMem g).poolReads = s.poolReads := rfl
@[simp] theorem updMem_nouns : (s.updMem g).nouns = s.nouns := rfl
@[simp] theorem updMem_replies : (s.updMem g).replies = s.replies := rfl
@[simp] theorem updMem_joins : (s.updMem g).joins = s.joins := rfl
@[simp] theorem updMem_invals : (s.updMem g).invals = s.invals := rfl
@[simp] theorem updMem_contexts : (s.updMem g).contexts = s.contexts := rfl
@[simp] theorem updMem_applied : (s.updMem g).applied = s.applied := rfl
@[simp] theorem updMem_courses : (s.updMem g).courses = s.courses := rfl
@[simp] theorem updMem_lqs : (s.updMem g).lqs = s.lqs := rfl
@[simp] theorem updMem_parts : (s.updMem g).parts = s.parts := rfl
@[simp] theorem updMem_migs : (s.updMem g).migs = s.migs := rfl
@[simp] theorem updMem_nounCache : (s.updMem g).nounCache = s.nounCache := rfl
@[simp] theorem updMem_verbCache : (s.updMem g).verbCache = s.verbCache := rfl
@[simp] theorem updMem_syscs : (s.updMem g).syscs = s.syscs := rfl
@[simp] theorem updMem_host : (s.updMem g).host = s.host := rfl
@[simp] theorem updMem_pool : (s.updMem g).pool = s.pool := rfl
@[simp] theorem updMem_fabric : (s.updMem g).fabric = s.fabric := rfl
@[simp] theorem updMem_hot : (s.updMem g).hot = s.hot := rfl
@[simp] theorem updMem_nextId : (s.updMem g).nextId = s.nextId := rfl
@[simp] theorem updMem_draws : (s.updMem g).draws = s.draws := rfl
@[simp] theorem updMem_cur : (s.updMem g).cur = s.cur := rfl
@[simp] theorem updMem_inputs : (s.updMem g).inputs = s.inputs := rfl

end

/-! ### bump -/

section
variable (s : State)

@[simp] theorem bump_svc : (s.bump).svc = s.svc := rfl
@[simp] theorem bump_cycle : (s.bump).cycle = s.cycle := rfl
@[simp] theorem bump_elevenths : (s.bump).elevenths = s.elevenths := rfl
@[simp] theorem bump_ticks : (s.bump).ticks = s.ticks := rfl
@[simp] theorem bump_moduleNo : (s.bump).moduleNo = s.moduleNo := rfl
@[simp] theorem bump_image : (s.bump).image = s.image := rfl
@[simp] theorem bump_fatal : (s.bump).fatal = s.fatal := rfl
@[simp] theorem bump_mem : (s.bump).mem = s.mem := rfl
@[simp] theorem bump_poison : (s.bump).poison = s.poison := rfl
@[simp] theorem bump_tags : (s.bump).tags = s.tags := rfl
@[simp] theorem bump_waiters : (s.bump).waiters = s.waiters := rfl
@[simp] theorem bump_cores : (s.bump).cores = s.cores := rfl
@[simp] theorem bump_clusters : (s.bump).clusters = s.clusters := rfl
@[simp] theorem bump_frags : (s.bump).frags = s.frags := rfl
@[simp] theorem bump_phrases : (s.bump).phrases = s.phrases := rfl
@[simp] theorem bump_accs : (s.bump).accs = s.accs := rfl
@[simp] theorem bump_results : (s.bump).results = s.results := rfl
@[simp] theorem bump_laneOps : (s.bump).laneOps = s.laneOps := rfl
@[simp] theorem bump_held : (s.bump).held = s.held := rfl
@[simp] theorem bump_heldOps : (s.bump).heldOps = s.heldOps := rfl
@[simp] theorem bump_copies : (s.bump).copies = s.copies := rfl
@[simp] theorem bump_heldCopies : (s.bump).heldCopies = s.heldCopies := rfl
@[simp] theorem bump_poolReads : (s.bump).poolReads = s.poolReads := rfl
@[simp] theorem bump_nouns : (s.bump).nouns = s.nouns := rfl
@[simp] theorem bump_replies : (s.bump).replies = s.replies := rfl
@[simp] theorem bump_joins : (s.bump).joins = s.joins := rfl
@[simp] theorem bump_invals : (s.bump).invals = s.invals := rfl
@[simp] theorem bump_contexts : (s.bump).contexts = s.contexts := rfl
@[simp] theorem bump_applied : (s.bump).applied = s.applied := rfl
@[simp] theorem bump_courses : (s.bump).courses = s.courses := rfl
@[simp] theorem bump_lqs : (s.bump).lqs = s.lqs := rfl
@[simp] theorem bump_parts : (s.bump).parts = s.parts := rfl
@[simp] theorem bump_migs : (s.bump).migs = s.migs := rfl
@[simp] theorem bump_nounCache : (s.bump).nounCache = s.nounCache := rfl
@[simp] theorem bump_verbCache : (s.bump).verbCache = s.verbCache := rfl
@[simp] theorem bump_syscs : (s.bump).syscs = s.syscs := rfl
@[simp] theorem bump_host : (s.bump).host = s.host := rfl
@[simp] theorem bump_pool : (s.bump).pool = s.pool := rfl
@[simp] theorem bump_fabric : (s.bump).fabric = s.fabric := rfl
@[simp] theorem bump_hot : (s.bump).hot = s.hot := rfl
@[simp] theorem bump_nextId : (s.bump).nextId = s.nextId + 1 := rfl
@[simp] theorem bump_draws : (s.bump).draws = s.draws := rfl
@[simp] theorem bump_cur : (s.bump).cur = s.cur := rfl
@[simp] theorem bump_inputs : (s.bump).inputs = s.inputs := rfl

end

/-! ### drawn -/

section
variable (s : State)

@[simp] theorem drawn_svc : (s.drawn).svc = s.svc := rfl
@[simp] theorem drawn_cycle : (s.drawn).cycle = s.cycle := rfl
@[simp] theorem drawn_elevenths : (s.drawn).elevenths = s.elevenths := rfl
@[simp] theorem drawn_ticks : (s.drawn).ticks = s.ticks := rfl
@[simp] theorem drawn_moduleNo : (s.drawn).moduleNo = s.moduleNo := rfl
@[simp] theorem drawn_image : (s.drawn).image = s.image := rfl
@[simp] theorem drawn_fatal : (s.drawn).fatal = s.fatal := rfl
@[simp] theorem drawn_mem : (s.drawn).mem = s.mem := rfl
@[simp] theorem drawn_poison : (s.drawn).poison = s.poison := rfl
@[simp] theorem drawn_tags : (s.drawn).tags = s.tags := rfl
@[simp] theorem drawn_waiters : (s.drawn).waiters = s.waiters := rfl
@[simp] theorem drawn_cores : (s.drawn).cores = s.cores := rfl
@[simp] theorem drawn_clusters : (s.drawn).clusters = s.clusters := rfl
@[simp] theorem drawn_frags : (s.drawn).frags = s.frags := rfl
@[simp] theorem drawn_phrases : (s.drawn).phrases = s.phrases := rfl
@[simp] theorem drawn_accs : (s.drawn).accs = s.accs := rfl
@[simp] theorem drawn_results : (s.drawn).results = s.results := rfl
@[simp] theorem drawn_laneOps : (s.drawn).laneOps = s.laneOps := rfl
@[simp] theorem drawn_held : (s.drawn).held = s.held := rfl
@[simp] theorem drawn_heldOps : (s.drawn).heldOps = s.heldOps := rfl
@[simp] theorem drawn_copies : (s.drawn).copies = s.copies := rfl
@[simp] theorem drawn_heldCopies : (s.drawn).heldCopies = s.heldCopies := rfl
@[simp] theorem drawn_poolReads : (s.drawn).poolReads = s.poolReads := rfl
@[simp] theorem drawn_nouns : (s.drawn).nouns = s.nouns := rfl
@[simp] theorem drawn_replies : (s.drawn).replies = s.replies := rfl
@[simp] theorem drawn_joins : (s.drawn).joins = s.joins := rfl
@[simp] theorem drawn_invals : (s.drawn).invals = s.invals := rfl
@[simp] theorem drawn_contexts : (s.drawn).contexts = s.contexts := rfl
@[simp] theorem drawn_applied : (s.drawn).applied = s.applied := rfl
@[simp] theorem drawn_courses : (s.drawn).courses = s.courses := rfl
@[simp] theorem drawn_lqs : (s.drawn).lqs = s.lqs := rfl
@[simp] theorem drawn_parts : (s.drawn).parts = s.parts := rfl
@[simp] theorem drawn_migs : (s.drawn).migs = s.migs := rfl
@[simp] theorem drawn_nounCache : (s.drawn).nounCache = s.nounCache := rfl
@[simp] theorem drawn_verbCache : (s.drawn).verbCache = s.verbCache := rfl
@[simp] theorem drawn_syscs : (s.drawn).syscs = s.syscs := rfl
@[simp] theorem drawn_host : (s.drawn).host = s.host := rfl
@[simp] theorem drawn_pool : (s.drawn).pool = s.pool := rfl
@[simp] theorem drawn_fabric : (s.drawn).fabric = s.fabric := rfl
@[simp] theorem drawn_hot : (s.drawn).hot = s.hot := rfl
@[simp] theorem drawn_nextId : (s.drawn).nextId = s.nextId := rfl
@[simp] theorem drawn_draws : (s.drawn).draws = s.draws + 1 := rfl
@[simp] theorem drawn_cur : (s.drawn).cur = s.cur := rfl
@[simp] theorem drawn_inputs : (s.drawn).inputs = s.inputs := rfl

end

/-! ### updMe -/

section
variable (s : State) (g : Frag → Frag)

@[simp] theorem updMe_svc : (s.updMe g).svc = s.svc := rfl
@[simp] theorem updMe_cycle : (s.updMe g).cycle = s.cycle := rfl
@[simp] theorem updMe_elevenths : (s.updMe g).elevenths = s.elevenths := rfl
@[simp] theorem updMe_ticks : (s.updMe g).ticks = s.ticks := rfl
@[simp] theorem updMe_moduleNo : (s.updMe g).moduleNo = s.moduleNo := rfl
@[simp] theorem updMe_image : (s.updMe g).image = s.image := rfl
@[simp] theorem updMe_fatal : (s.updMe g).fatal = s.fatal := rfl
@[simp] theorem updMe_mem : (s.updMe g).mem = s.mem := rfl
@[simp] theorem updMe_poison : (s.updMe g).poison = s.poison := rfl
@[simp] theorem updMe_tags : (s.updMe g).tags = s.tags := rfl
@[simp] theorem updMe_waiters : (s.updMe g).waiters = s.waiters := rfl
@[simp] theorem updMe_cores : (s.updMe g).cores = s.cores := rfl
@[simp] theorem updMe_clusters : (s.updMe g).clusters = s.clusters := rfl
@[simp] theorem updMe_frags : (s.updMe g).frags = tput s.cur (g (s.frag s.cur)) s.frags := rfl
@[simp] theorem updMe_phrases : (s.updMe g).phrases = s.phrases := rfl
@[simp] theorem updMe_accs : (s.updMe g).accs = s.accs := rfl
@[simp] theorem updMe_results : (s.updMe g).results = s.results := rfl
@[simp] theorem updMe_laneOps : (s.updMe g).laneOps = s.laneOps := rfl
@[simp] theorem updMe_held : (s.updMe g).held = s.held := rfl
@[simp] theorem updMe_heldOps : (s.updMe g).heldOps = s.heldOps := rfl
@[simp] theorem updMe_copies : (s.updMe g).copies = s.copies := rfl
@[simp] theorem updMe_heldCopies : (s.updMe g).heldCopies = s.heldCopies := rfl
@[simp] theorem updMe_poolReads : (s.updMe g).poolReads = s.poolReads := rfl
@[simp] theorem updMe_nouns : (s.updMe g).nouns = s.nouns := rfl
@[simp] theorem updMe_replies : (s.updMe g).replies = s.replies := rfl
@[simp] theorem updMe_joins : (s.updMe g).joins = s.joins := rfl
@[simp] theorem updMe_invals : (s.updMe g).invals = s.invals := rfl
@[simp] theorem updMe_contexts : (s.updMe g).contexts = s.contexts := rfl
@[simp] theorem updMe_applied : (s.updMe g).applied = s.applied := rfl
@[simp] theorem updMe_courses : (s.updMe g).courses = s.courses := rfl
@[simp] theorem updMe_lqs : (s.updMe g).lqs = s.lqs := rfl
@[simp] theorem updMe_parts : (s.updMe g).parts = s.parts := rfl
@[simp] theorem updMe_migs : (s.updMe g).migs = s.migs := rfl
@[simp] theorem updMe_nounCache : (s.updMe g).nounCache = s.nounCache := rfl
@[simp] theorem updMe_verbCache : (s.updMe g).verbCache = s.verbCache := rfl
@[simp] theorem updMe_syscs : (s.updMe g).syscs = s.syscs := rfl
@[simp] theorem updMe_host : (s.updMe g).host = s.host := rfl
@[simp] theorem updMe_pool : (s.updMe g).pool = s.pool := rfl
@[simp] theorem updMe_fabric : (s.updMe g).fabric = s.fabric := rfl
@[simp] theorem updMe_hot : (s.updMe g).hot = s.hot := rfl
@[simp] theorem updMe_nextId : (s.updMe g).nextId = s.nextId := rfl
@[simp] theorem updMe_draws : (s.updMe g).draws = s.draws := rfl
@[simp] theorem updMe_cur : (s.updMe g).cur = s.cur := rfl
@[simp] theorem updMe_inputs : (s.updMe g).inputs = s.inputs := rfl

end

/-! ### wr -/

section
variable (s : State) (a : SReg) (v : Word)

@[simp] theorem wr_svc : (s.wr a v).svc = s.svc := rfl
@[simp] theorem wr_cycle : (s.wr a v).cycle = s.cycle := rfl
@[simp] theorem wr_elevenths : (s.wr a v).elevenths = s.elevenths := rfl
@[simp] theorem wr_ticks : (s.wr a v).ticks = s.ticks := rfl
@[simp] theorem wr_moduleNo : (s.wr a v).moduleNo = s.moduleNo := rfl
@[simp] theorem wr_image : (s.wr a v).image = s.image := rfl
@[simp] theorem wr_fatal : (s.wr a v).fatal = s.fatal := rfl
@[simp] theorem wr_mem : (s.wr a v).mem = s.mem := rfl
@[simp] theorem wr_poison : (s.wr a v).poison = s.poison := rfl
@[simp] theorem wr_tags : (s.wr a v).tags = s.tags := rfl
@[simp] theorem wr_waiters : (s.wr a v).waiters = s.waiters := rfl
@[simp] theorem wr_cores : (s.wr a v).cores = s.cores := rfl
@[simp] theorem wr_clusters : (s.wr a v).clusters = s.clusters := rfl
@[simp] theorem wr_frags : (s.wr a v).frags = tput s.cur ((s.frag s.cur).setReg a v) s.frags := rfl
@[simp] theorem wr_phrases : (s.wr a v).phrases = s.phrases := rfl
@[simp] theorem wr_accs : (s.wr a v).accs = s.accs := rfl
@[simp] theorem wr_results : (s.wr a v).results = s.results := rfl
@[simp] theorem wr_laneOps : (s.wr a v).laneOps = s.laneOps := rfl
@[simp] theorem wr_held : (s.wr a v).held = s.held := rfl
@[simp] theorem wr_heldOps : (s.wr a v).heldOps = s.heldOps := rfl
@[simp] theorem wr_copies : (s.wr a v).copies = s.copies := rfl
@[simp] theorem wr_heldCopies : (s.wr a v).heldCopies = s.heldCopies := rfl
@[simp] theorem wr_poolReads : (s.wr a v).poolReads = s.poolReads := rfl
@[simp] theorem wr_nouns : (s.wr a v).nouns = s.nouns := rfl
@[simp] theorem wr_replies : (s.wr a v).replies = s.replies := rfl
@[simp] theorem wr_joins : (s.wr a v).joins = s.joins := rfl
@[simp] theorem wr_invals : (s.wr a v).invals = s.invals := rfl
@[simp] theorem wr_contexts : (s.wr a v).contexts = s.contexts := rfl
@[simp] theorem wr_applied : (s.wr a v).applied = s.applied := rfl
@[simp] theorem wr_courses : (s.wr a v).courses = s.courses := rfl
@[simp] theorem wr_lqs : (s.wr a v).lqs = s.lqs := rfl
@[simp] theorem wr_parts : (s.wr a v).parts = s.parts := rfl
@[simp] theorem wr_migs : (s.wr a v).migs = s.migs := rfl
@[simp] theorem wr_nounCache : (s.wr a v).nounCache = s.nounCache := rfl
@[simp] theorem wr_verbCache : (s.wr a v).verbCache = s.verbCache := rfl
@[simp] theorem wr_syscs : (s.wr a v).syscs = s.syscs := rfl
@[simp] theorem wr_host : (s.wr a v).host = s.host := rfl
@[simp] theorem wr_pool : (s.wr a v).pool = s.pool := rfl
@[simp] theorem wr_fabric : (s.wr a v).fabric = s.fabric := rfl
@[simp] theorem wr_hot : (s.wr a v).hot = s.hot := rfl
@[simp] theorem wr_nextId : (s.wr a v).nextId = s.nextId := rfl
@[simp] theorem wr_draws : (s.wr a v).draws = s.draws := rfl
@[simp] theorem wr_cur : (s.wr a v).cur = s.cur := rfl
@[simp] theorem wr_inputs : (s.wr a v).inputs = s.inputs := rfl

end

/-! ### adv -/

section
variable (s : State)

@[simp] theorem adv_svc : (s.adv).svc = s.svc := rfl
@[simp] theorem adv_cycle : (s.adv).cycle = s.cycle := rfl
@[simp] theorem adv_elevenths : (s.adv).elevenths = s.elevenths := rfl
@[simp] theorem adv_ticks : (s.adv).ticks = s.ticks := rfl
@[simp] theorem adv_moduleNo : (s.adv).moduleNo = s.moduleNo := rfl
@[simp] theorem adv_image : (s.adv).image = s.image := rfl
@[simp] theorem adv_fatal : (s.adv).fatal = s.fatal := rfl
@[simp] theorem adv_mem : (s.adv).mem = s.mem := rfl
@[simp] theorem adv_poison : (s.adv).poison = s.poison := rfl
@[simp] theorem adv_tags : (s.adv).tags = s.tags := rfl
@[simp] theorem adv_waiters : (s.adv).waiters = s.waiters := rfl
@[simp] theorem adv_cores : (s.adv).cores = s.cores := rfl
@[simp] theorem adv_clusters : (s.adv).clusters = s.clusters := rfl
@[simp] theorem adv_frags : (s.adv).frags = tput s.cur { s.frag s.cur with pc := (s.frag s.cur).pc + 4 } s.frags := rfl
@[simp] theorem adv_phrases : (s.adv).phrases = s.phrases := rfl
@[simp] theorem adv_accs : (s.adv).accs = s.accs := rfl
@[simp] theorem adv_results : (s.adv).results = s.results := rfl
@[simp] theorem adv_laneOps : (s.adv).laneOps = s.laneOps := rfl
@[simp] theorem adv_held : (s.adv).held = s.held := rfl
@[simp] theorem adv_heldOps : (s.adv).heldOps = s.heldOps := rfl
@[simp] theorem adv_copies : (s.adv).copies = s.copies := rfl
@[simp] theorem adv_heldCopies : (s.adv).heldCopies = s.heldCopies := rfl
@[simp] theorem adv_poolReads : (s.adv).poolReads = s.poolReads := rfl
@[simp] theorem adv_nouns : (s.adv).nouns = s.nouns := rfl
@[simp] theorem adv_replies : (s.adv).replies = s.replies := rfl
@[simp] theorem adv_joins : (s.adv).joins = s.joins := rfl
@[simp] theorem adv_invals : (s.adv).invals = s.invals := rfl
@[simp] theorem adv_contexts : (s.adv).contexts = s.contexts := rfl
@[simp] theorem adv_applied : (s.adv).applied = s.applied := rfl
@[simp] theorem adv_courses : (s.adv).courses = s.courses := rfl
@[simp] theorem adv_lqs : (s.adv).lqs = s.lqs := rfl
@[simp] theorem adv_parts : (s.adv).parts = s.parts := rfl
@[simp] theorem adv_migs : (s.adv).migs = s.migs := rfl
@[simp] theorem adv_nounCache : (s.adv).nounCache = s.nounCache := rfl
@[simp] theorem adv_verbCache : (s.adv).verbCache = s.verbCache := rfl
@[simp] theorem adv_syscs : (s.adv).syscs = s.syscs := rfl
@[simp] theorem adv_host : (s.adv).host = s.host := rfl
@[simp] theorem adv_pool : (s.adv).pool = s.pool := rfl
@[simp] theorem adv_fabric : (s.adv).fabric = s.fabric := rfl
@[simp] theorem adv_hot : (s.adv).hot = s.hot := rfl
@[simp] theorem adv_nextId : (s.adv).nextId = s.nextId := rfl
@[simp] theorem adv_draws : (s.adv).draws = s.draws := rfl
@[simp] theorem adv_cur : (s.adv).cur = s.cur := rfl
@[simp] theorem adv_inputs : (s.adv).inputs = s.inputs := rfl

end

/-! ### goto -/

section
variable (s : State) (pc : Word)

@[simp] theorem goto_svc : (s.goto pc).svc = s.svc := rfl
@[simp] theorem goto_cycle : (s.goto pc).cycle = s.cycle := rfl
@[simp] theorem goto_elevenths : (s.goto pc).elevenths = s.elevenths := rfl
@[simp] theorem goto_ticks : (s.goto pc).ticks = s.ticks := rfl
@[simp] theorem goto_moduleNo : (s.goto pc).moduleNo = s.moduleNo := rfl
@[simp] theorem goto_image : (s.goto pc).image = s.image := rfl
@[simp] theorem goto_fatal : (s.goto pc).fatal = s.fatal := rfl
@[simp] theorem goto_mem : (s.goto pc).mem = s.mem := rfl
@[simp] theorem goto_poison : (s.goto pc).poison = s.poison := rfl
@[simp] theorem goto_tags : (s.goto pc).tags = s.tags := rfl
@[simp] theorem goto_waiters : (s.goto pc).waiters = s.waiters := rfl
@[simp] theorem goto_cores : (s.goto pc).cores = s.cores := rfl
@[simp] theorem goto_clusters : (s.goto pc).clusters = s.clusters := rfl
@[simp] theorem goto_frags : (s.goto pc).frags = tput s.cur { s.frag s.cur with pc := pc } s.frags := rfl
@[simp] theorem goto_phrases : (s.goto pc).phrases = s.phrases := rfl
@[simp] theorem goto_accs : (s.goto pc).accs = s.accs := rfl
@[simp] theorem goto_results : (s.goto pc).results = s.results := rfl
@[simp] theorem goto_laneOps : (s.goto pc).laneOps = s.laneOps := rfl
@[simp] theorem goto_held : (s.goto pc).held = s.held := rfl
@[simp] theorem goto_heldOps : (s.goto pc).heldOps = s.heldOps := rfl
@[simp] theorem goto_copies : (s.goto pc).copies = s.copies := rfl
@[simp] theorem goto_heldCopies : (s.goto pc).heldCopies = s.heldCopies := rfl
@[simp] theorem goto_poolReads : (s.goto pc).poolReads = s.poolReads := rfl
@[simp] theorem goto_nouns : (s.goto pc).nouns = s.nouns := rfl
@[simp] theorem goto_replies : (s.goto pc).replies = s.replies := rfl
@[simp] theorem goto_joins : (s.goto pc).joins = s.joins := rfl
@[simp] theorem goto_invals : (s.goto pc).invals = s.invals := rfl
@[simp] theorem goto_contexts : (s.goto pc).contexts = s.contexts := rfl
@[simp] theorem goto_applied : (s.goto pc).applied = s.applied := rfl
@[simp] theorem goto_courses : (s.goto pc).courses = s.courses := rfl
@[simp] theorem goto_lqs : (s.goto pc).lqs = s.lqs := rfl
@[simp] theorem goto_parts : (s.goto pc).parts = s.parts := rfl
@[simp] theorem goto_migs : (s.goto pc).migs = s.migs := rfl
@[simp] theorem goto_nounCache : (s.goto pc).nounCache = s.nounCache := rfl
@[simp] theorem goto_verbCache : (s.goto pc).verbCache = s.verbCache := rfl
@[simp] theorem goto_syscs : (s.goto pc).syscs = s.syscs := rfl
@[simp] theorem goto_host : (s.goto pc).host = s.host := rfl
@[simp] theorem goto_pool : (s.goto pc).pool = s.pool := rfl
@[simp] theorem goto_fabric : (s.goto pc).fabric = s.fabric := rfl
@[simp] theorem goto_hot : (s.goto pc).hot = s.hot := rfl
@[simp] theorem goto_nextId : (s.goto pc).nextId = s.nextId := rfl
@[simp] theorem goto_draws : (s.goto pc).draws = s.draws := rfl
@[simp] theorem goto_cur : (s.goto pc).cur = s.cur := rfl
@[simp] theorem goto_inputs : (s.goto pc).inputs = s.inputs := rfl

end

/-! ### setStatus -/

section
variable (s : State) (p : Nat) (b : BitVec 32)

@[simp] theorem setStatus_svc : (s.setStatus p b).svc = s.svc := rfl
@[simp] theorem setStatus_cycle : (s.setStatus p b).cycle = s.cycle := rfl
@[simp] theorem setStatus_elevenths : (s.setStatus p b).elevenths = s.elevenths := rfl
@[simp] theorem setStatus_ticks : (s.setStatus p b).ticks = s.ticks := rfl
@[simp] theorem setStatus_moduleNo : (s.setStatus p b).moduleNo = s.moduleNo := rfl
@[simp] theorem setStatus_image : (s.setStatus p b).image = s.image := rfl
@[simp] theorem setStatus_fatal : (s.setStatus p b).fatal = s.fatal := rfl
@[simp] theorem setStatus_mem : (s.setStatus p b).mem = s.mem := rfl
@[simp] theorem setStatus_poison : (s.setStatus p b).poison = s.poison := rfl
@[simp] theorem setStatus_tags : (s.setStatus p b).tags = s.tags := rfl
@[simp] theorem setStatus_waiters : (s.setStatus p b).waiters = s.waiters := rfl
@[simp] theorem setStatus_cores : (s.setStatus p b).cores = s.cores := rfl
@[simp] theorem setStatus_clusters : (s.setStatus p b).clusters = s.clusters := rfl
@[simp] theorem setStatus_frags : (s.setStatus p b).frags = s.frags := rfl
@[simp] theorem setStatus_phrases : (s.setStatus p b).phrases = tput p { s.phr p with status := (s.phr p).status ||| b } s.phrases := rfl
@[simp] theorem setStatus_accs : (s.setStatus p b).accs = s.accs := rfl
@[simp] theorem setStatus_results : (s.setStatus p b).results = s.results := rfl
@[simp] theorem setStatus_laneOps : (s.setStatus p b).laneOps = s.laneOps := rfl
@[simp] theorem setStatus_held : (s.setStatus p b).held = s.held := rfl
@[simp] theorem setStatus_heldOps : (s.setStatus p b).heldOps = s.heldOps := rfl
@[simp] theorem setStatus_copies : (s.setStatus p b).copies = s.copies := rfl
@[simp] theorem setStatus_heldCopies : (s.setStatus p b).heldCopies = s.heldCopies := rfl
@[simp] theorem setStatus_poolReads : (s.setStatus p b).poolReads = s.poolReads := rfl
@[simp] theorem setStatus_nouns : (s.setStatus p b).nouns = s.nouns := rfl
@[simp] theorem setStatus_replies : (s.setStatus p b).replies = s.replies := rfl
@[simp] theorem setStatus_joins : (s.setStatus p b).joins = s.joins := rfl
@[simp] theorem setStatus_invals : (s.setStatus p b).invals = s.invals := rfl
@[simp] theorem setStatus_contexts : (s.setStatus p b).contexts = s.contexts := rfl
@[simp] theorem setStatus_applied : (s.setStatus p b).applied = s.applied := rfl
@[simp] theorem setStatus_courses : (s.setStatus p b).courses = s.courses := rfl
@[simp] theorem setStatus_lqs : (s.setStatus p b).lqs = s.lqs := rfl
@[simp] theorem setStatus_parts : (s.setStatus p b).parts = s.parts := rfl
@[simp] theorem setStatus_migs : (s.setStatus p b).migs = s.migs := rfl
@[simp] theorem setStatus_nounCache : (s.setStatus p b).nounCache = s.nounCache := rfl
@[simp] theorem setStatus_verbCache : (s.setStatus p b).verbCache = s.verbCache := rfl
@[simp] theorem setStatus_syscs : (s.setStatus p b).syscs = s.syscs := rfl
@[simp] theorem setStatus_host : (s.setStatus p b).host = s.host := rfl
@[simp] theorem setStatus_pool : (s.setStatus p b).pool = s.pool := rfl
@[simp] theorem setStatus_fabric : (s.setStatus p b).fabric = s.fabric := rfl
@[simp] theorem setStatus_hot : (s.setStatus p b).hot = s.hot := rfl
@[simp] theorem setStatus_nextId : (s.setStatus p b).nextId = s.nextId := rfl
@[simp] theorem setStatus_draws : (s.setStatus p b).draws = s.draws := rfl
@[simp] theorem setStatus_cur : (s.setStatus p b).cur = s.cur := rfl
@[simp] theorem setStatus_inputs : (s.setStatus p b).inputs = s.inputs := rfl

end

/-! ### setExec -/

section
variable (s : State) (k : Nat) (m : Mask)

@[simp] theorem setExec_svc : (s.setExec k m).svc = s.svc := rfl
@[simp] theorem setExec_cycle : (s.setExec k m).cycle = s.cycle := rfl
@[simp] theorem setExec_elevenths : (s.setExec k m).elevenths = s.elevenths := rfl
@[simp] theorem setExec_ticks : (s.setExec k m).ticks = s.ticks := rfl
@[simp] theorem setExec_moduleNo : (s.setExec k m).moduleNo = s.moduleNo := rfl
@[simp] theorem setExec_image : (s.setExec k m).image = s.image := rfl
@[simp] theorem setExec_fatal : (s.setExec k m).fatal = s.fatal := rfl
@[simp] theorem setExec_mem : (s.setExec k m).mem = s.mem := rfl
@[simp] theorem setExec_poison : (s.setExec k m).poison = s.poison := rfl
@[simp] theorem setExec_tags : (s.setExec k m).tags = s.tags := rfl
@[simp] theorem setExec_waiters : (s.setExec k m).waiters = s.waiters := rfl
@[simp] theorem setExec_cores : (s.setExec k m).cores = s.cores := rfl
@[simp] theorem setExec_clusters : (s.setExec k m).clusters = s.clusters := rfl
@[simp] theorem setExec_frags : (s.setExec k m).frags = tput k { s.frag k with exec := m &&& (s.phr (phraseOf k)).live } s.frags := rfl
@[simp] theorem setExec_phrases : (s.setExec k m).phrases = s.phrases := rfl
@[simp] theorem setExec_accs : (s.setExec k m).accs = s.accs := rfl
@[simp] theorem setExec_results : (s.setExec k m).results = s.results := rfl
@[simp] theorem setExec_laneOps : (s.setExec k m).laneOps = s.laneOps := rfl
@[simp] theorem setExec_held : (s.setExec k m).held = s.held := rfl
@[simp] theorem setExec_heldOps : (s.setExec k m).heldOps = s.heldOps := rfl
@[simp] theorem setExec_copies : (s.setExec k m).copies = s.copies := rfl
@[simp] theorem setExec_heldCopies : (s.setExec k m).heldCopies = s.heldCopies := rfl
@[simp] theorem setExec_poolReads : (s.setExec k m).poolReads = s.poolReads := rfl
@[simp] theorem setExec_nouns : (s.setExec k m).nouns = s.nouns := rfl
@[simp] theorem setExec_replies : (s.setExec k m).replies = s.replies := rfl
@[simp] theorem setExec_joins : (s.setExec k m).joins = s.joins := rfl
@[simp] theorem setExec_invals : (s.setExec k m).invals = s.invals := rfl
@[simp] theorem setExec_contexts : (s.setExec k m).contexts = s.contexts := rfl
@[simp] theorem setExec_applied : (s.setExec k m).applied = s.applied := rfl
@[simp] theorem setExec_courses : (s.setExec k m).courses = s.courses := rfl
@[simp] theorem setExec_lqs : (s.setExec k m).lqs = s.lqs := rfl
@[simp] theorem setExec_parts : (s.setExec k m).parts = s.parts := rfl
@[simp] theorem setExec_migs : (s.setExec k m).migs = s.migs := rfl
@[simp] theorem setExec_nounCache : (s.setExec k m).nounCache = s.nounCache := rfl
@[simp] theorem setExec_verbCache : (s.setExec k m).verbCache = s.verbCache := rfl
@[simp] theorem setExec_syscs : (s.setExec k m).syscs = s.syscs := rfl
@[simp] theorem setExec_host : (s.setExec k m).host = s.host := rfl
@[simp] theorem setExec_pool : (s.setExec k m).pool = s.pool := rfl
@[simp] theorem setExec_fabric : (s.setExec k m).fabric = s.fabric := rfl
@[simp] theorem setExec_hot : (s.setExec k m).hot = s.hot := rfl
@[simp] theorem setExec_nextId : (s.setExec k m).nextId = s.nextId := rfl
@[simp] theorem setExec_draws : (s.setExec k m).draws = s.draws := rfl
@[simp] theorem setExec_cur : (s.setExec k m).cur = s.cur := rfl
@[simp] theorem setExec_inputs : (s.setExec k m).inputs = s.inputs := rfl

end

/-! ### at -/

section
variable (s : State) (k : Nat)

@[simp] theorem at_svc : (s.at k).svc = s.svc := rfl
@[simp] theorem at_cycle : (s.at k).cycle = s.cycle := rfl
@[simp] theorem at_elevenths : (s.at k).elevenths = s.elevenths := rfl
@[simp] theorem at_ticks : (s.at k).ticks = s.ticks := rfl
@[simp] theorem at_moduleNo : (s.at k).moduleNo = s.moduleNo := rfl
@[simp] theorem at_image : (s.at k).image = s.image := rfl
@[simp] theorem at_fatal : (s.at k).fatal = s.fatal := rfl
@[simp] theorem at_mem : (s.at k).mem = s.mem := rfl
@[simp] theorem at_poison : (s.at k).poison = s.poison := rfl
@[simp] theorem at_tags : (s.at k).tags = s.tags := rfl
@[simp] theorem at_waiters : (s.at k).waiters = s.waiters := rfl
@[simp] theorem at_cores : (s.at k).cores = s.cores := rfl
@[simp] theorem at_clusters : (s.at k).clusters = s.clusters := rfl
@[simp] theorem at_frags : (s.at k).frags = s.frags := rfl
@[simp] theorem at_phrases : (s.at k).phrases = s.phrases := rfl
@[simp] theorem at_accs : (s.at k).accs = s.accs := rfl
@[simp] theorem at_results : (s.at k).results = s.results := rfl
@[simp] theorem at_laneOps : (s.at k).laneOps = s.laneOps := rfl
@[simp] theorem at_held : (s.at k).held = s.held := rfl
@[simp] theorem at_heldOps : (s.at k).heldOps = s.heldOps := rfl
@[simp] theorem at_copies : (s.at k).copies = s.copies := rfl
@[simp] theorem at_heldCopies : (s.at k).heldCopies = s.heldCopies := rfl
@[simp] theorem at_poolReads : (s.at k).poolReads = s.poolReads := rfl
@[simp] theorem at_nouns : (s.at k).nouns = s.nouns := rfl
@[simp] theorem at_replies : (s.at k).replies = s.replies := rfl
@[simp] theorem at_joins : (s.at k).joins = s.joins := rfl
@[simp] theorem at_invals : (s.at k).invals = s.invals := rfl
@[simp] theorem at_contexts : (s.at k).contexts = s.contexts := rfl
@[simp] theorem at_applied : (s.at k).applied = s.applied := rfl
@[simp] theorem at_courses : (s.at k).courses = s.courses := rfl
@[simp] theorem at_lqs : (s.at k).lqs = s.lqs := rfl
@[simp] theorem at_parts : (s.at k).parts = s.parts := rfl
@[simp] theorem at_migs : (s.at k).migs = s.migs := rfl
@[simp] theorem at_nounCache : (s.at k).nounCache = s.nounCache := rfl
@[simp] theorem at_verbCache : (s.at k).verbCache = s.verbCache := rfl
@[simp] theorem at_syscs : (s.at k).syscs = s.syscs := rfl
@[simp] theorem at_host : (s.at k).host = s.host := rfl
@[simp] theorem at_pool : (s.at k).pool = s.pool := rfl
@[simp] theorem at_fabric : (s.at k).fabric = s.fabric := rfl
@[simp] theorem at_hot : (s.at k).hot = s.hot := rfl
@[simp] theorem at_nextId : (s.at k).nextId = s.nextId := rfl
@[simp] theorem at_draws : (s.at k).draws = s.draws := rfl
@[simp] theorem at_cur : (s.at k).cur = k := rfl
@[simp] theorem at_inputs : (s.at k).inputs = s.inputs := rfl

end

/-! ### putGutter -/

section
variable (s : State) (c g : Nat) (v : Gutter)

@[simp] theorem putGutter_svc : (s.putGutter c g v).svc = s.svc := rfl
@[simp] theorem putGutter_cycle : (s.putGutter c g v).cycle = s.cycle := rfl
@[simp] theorem putGutter_elevenths : (s.putGutter c g v).elevenths = s.elevenths := rfl
@[simp] theorem putGutter_ticks : (s.putGutter c g v).ticks = s.ticks := rfl
@[simp] theorem putGutter_moduleNo : (s.putGutter c g v).moduleNo = s.moduleNo := rfl
@[simp] theorem putGutter_image : (s.putGutter c g v).image = s.image := rfl
@[simp] theorem putGutter_fatal : (s.putGutter c g v).fatal = s.fatal := rfl
@[simp] theorem putGutter_mem : (s.putGutter c g v).mem = s.mem := rfl
@[simp] theorem putGutter_poison : (s.putGutter c g v).poison = s.poison := rfl
@[simp] theorem putGutter_tags : (s.putGutter c g v).tags = s.tags := rfl
@[simp] theorem putGutter_waiters : (s.putGutter c g v).waiters = s.waiters := rfl
@[simp] theorem putGutter_clusters : (s.putGutter c g v).clusters = s.clusters := rfl
@[simp] theorem putGutter_frags : (s.putGutter c g v).frags = s.frags := rfl
@[simp] theorem putGutter_phrases : (s.putGutter c g v).phrases = s.phrases := rfl
@[simp] theorem putGutter_accs : (s.putGutter c g v).accs = s.accs := rfl
@[simp] theorem putGutter_results : (s.putGutter c g v).results = s.results := rfl
@[simp] theorem putGutter_laneOps : (s.putGutter c g v).laneOps = s.laneOps := rfl
@[simp] theorem putGutter_held : (s.putGutter c g v).held = s.held := rfl
@[simp] theorem putGutter_heldOps : (s.putGutter c g v).heldOps = s.heldOps := rfl
@[simp] theorem putGutter_copies : (s.putGutter c g v).copies = s.copies := rfl
@[simp] theorem putGutter_heldCopies : (s.putGutter c g v).heldCopies = s.heldCopies := rfl
@[simp] theorem putGutter_poolReads : (s.putGutter c g v).poolReads = s.poolReads := rfl
@[simp] theorem putGutter_nouns : (s.putGutter c g v).nouns = s.nouns := rfl
@[simp] theorem putGutter_replies : (s.putGutter c g v).replies = s.replies := rfl
@[simp] theorem putGutter_joins : (s.putGutter c g v).joins = s.joins := rfl
@[simp] theorem putGutter_invals : (s.putGutter c g v).invals = s.invals := rfl
@[simp] theorem putGutter_contexts : (s.putGutter c g v).contexts = s.contexts := rfl
@[simp] theorem putGutter_applied : (s.putGutter c g v).applied = s.applied := rfl
@[simp] theorem putGutter_courses : (s.putGutter c g v).courses = s.courses := rfl
@[simp] theorem putGutter_lqs : (s.putGutter c g v).lqs = s.lqs := rfl
@[simp] theorem putGutter_parts : (s.putGutter c g v).parts = s.parts := rfl
@[simp] theorem putGutter_migs : (s.putGutter c g v).migs = s.migs := rfl
@[simp] theorem putGutter_nounCache : (s.putGutter c g v).nounCache = s.nounCache := rfl
@[simp] theorem putGutter_verbCache : (s.putGutter c g v).verbCache = s.verbCache := rfl
@[simp] theorem putGutter_syscs : (s.putGutter c g v).syscs = s.syscs := rfl
@[simp] theorem putGutter_host : (s.putGutter c g v).host = s.host := rfl
@[simp] theorem putGutter_pool : (s.putGutter c g v).pool = s.pool := rfl
@[simp] theorem putGutter_fabric : (s.putGutter c g v).fabric = s.fabric := rfl
@[simp] theorem putGutter_hot : (s.putGutter c g v).hot = s.hot := rfl
@[simp] theorem putGutter_nextId : (s.putGutter c g v).nextId = s.nextId := rfl
@[simp] theorem putGutter_draws : (s.putGutter c g v).draws = s.draws := rfl
@[simp] theorem putGutter_cur : (s.putGutter c g v).cur = s.cur := rfl
@[simp] theorem putGutter_inputs : (s.putGutter c g v).inputs = s.inputs := rfl

end

/-! ### updGutter -/

section
variable (s : State) (c g : Nat) (h : Gutter → Gutter)

@[simp] theorem updGutter_svc : (s.updGutter c g h).svc = s.svc := rfl
@[simp] theorem updGutter_cycle : (s.updGutter c g h).cycle = s.cycle := rfl
@[simp] theorem updGutter_elevenths : (s.updGutter c g h).elevenths = s.elevenths := rfl
@[simp] theorem updGutter_ticks : (s.updGutter c g h).ticks = s.ticks := rfl
@[simp] theorem updGutter_moduleNo : (s.updGutter c g h).moduleNo = s.moduleNo := rfl
@[simp] theorem updGutter_image : (s.updGutter c g h).image = s.image := rfl
@[simp] theorem updGutter_fatal : (s.updGutter c g h).fatal = s.fatal := rfl
@[simp] theorem updGutter_mem : (s.updGutter c g h).mem = s.mem := rfl
@[simp] theorem updGutter_poison : (s.updGutter c g h).poison = s.poison := rfl
@[simp] theorem updGutter_tags : (s.updGutter c g h).tags = s.tags := rfl
@[simp] theorem updGutter_waiters : (s.updGutter c g h).waiters = s.waiters := rfl
@[simp] theorem updGutter_clusters : (s.updGutter c g h).clusters = s.clusters := rfl
@[simp] theorem updGutter_frags : (s.updGutter c g h).frags = s.frags := rfl
@[simp] theorem updGutter_phrases : (s.updGutter c g h).phrases = s.phrases := rfl
@[simp] theorem updGutter_accs : (s.updGutter c g h).accs = s.accs := rfl
@[simp] theorem updGutter_results : (s.updGutter c g h).results = s.results := rfl
@[simp] theorem updGutter_laneOps : (s.updGutter c g h).laneOps = s.laneOps := rfl
@[simp] theorem updGutter_held : (s.updGutter c g h).held = s.held := rfl
@[simp] theorem updGutter_heldOps : (s.updGutter c g h).heldOps = s.heldOps := rfl
@[simp] theorem updGutter_copies : (s.updGutter c g h).copies = s.copies := rfl
@[simp] theorem updGutter_heldCopies : (s.updGutter c g h).heldCopies = s.heldCopies := rfl
@[simp] theorem updGutter_poolReads : (s.updGutter c g h).poolReads = s.poolReads := rfl
@[simp] theorem updGutter_nouns : (s.updGutter c g h).nouns = s.nouns := rfl
@[simp] theorem updGutter_replies : (s.updGutter c g h).replies = s.replies := rfl
@[simp] theorem updGutter_joins : (s.updGutter c g h).joins = s.joins := rfl
@[simp] theorem updGutter_invals : (s.updGutter c g h).invals = s.invals := rfl
@[simp] theorem updGutter_contexts : (s.updGutter c g h).contexts = s.contexts := rfl
@[simp] theorem updGutter_applied : (s.updGutter c g h).applied = s.applied := rfl
@[simp] theorem updGutter_courses : (s.updGutter c g h).courses = s.courses := rfl
@[simp] theorem updGutter_lqs : (s.updGutter c g h).lqs = s.lqs := rfl
@[simp] theorem updGutter_parts : (s.updGutter c g h).parts = s.parts := rfl
@[simp] theorem updGutter_migs : (s.updGutter c g h).migs = s.migs := rfl
@[simp] theorem updGutter_nounCache : (s.updGutter c g h).nounCache = s.nounCache := rfl
@[simp] theorem updGutter_verbCache : (s.updGutter c g h).verbCache = s.verbCache := rfl
@[simp] theorem updGutter_syscs : (s.updGutter c g h).syscs = s.syscs := rfl
@[simp] theorem updGutter_host : (s.updGutter c g h).host = s.host := rfl
@[simp] theorem updGutter_pool : (s.updGutter c g h).pool = s.pool := rfl
@[simp] theorem updGutter_fabric : (s.updGutter c g h).fabric = s.fabric := rfl
@[simp] theorem updGutter_hot : (s.updGutter c g h).hot = s.hot := rfl
@[simp] theorem updGutter_nextId : (s.updGutter c g h).nextId = s.nextId := rfl
@[simp] theorem updGutter_draws : (s.updGutter c g h).draws = s.draws := rfl
@[simp] theorem updGutter_cur : (s.updGutter c g h).cur = s.cur := rfl
@[simp] theorem updGutter_inputs : (s.updGutter c g h).inputs = s.inputs := rfl

end

end Sys2Proof.Machine
end

