-- ==== Sys2Proof/Laws/Ops.lean ====
section
/-! SUPPORT. What each shared operation does, said once: register writes, jumps, trap entry, and the issue of lane results. -/
namespace Sys2Proof.Machine

/-! ### Fragments and phrases -/

@[simp] theorem frag_updFrag_same (s : State) (k : Nat) (g : Frag → Frag) : (s.updFrag k g).frag k = g (s.frag k) := by
  simp [State.frag]

theorem frag_updFrag_other (s : State) {k j : Nat} (g : Frag → Frag) (h : j ≠ k) : (s.updFrag k g).frag j = s.frag j := by
  simp [State.frag, tget_tput_other _ _ _ (Ne.symm h)]

@[simp] theorem phr_updPhr_same (s : State) (p : Nat) (g : Phrase → Phrase) : (s.updPhr p g).phr p = g (s.phr p) := by
  simp [State.phr]

theorem phr_updPhr_other (s : State) {p q : Nat} (g : Phrase → Phrase) (h : q ≠ p) : (s.updPhr p g).phr q = s.phr q := by
  simp [State.phr, tget_tput_other _ _ _ (Ne.symm h)]

@[simp] theorem core_updCore_same (s : State) (c : Nat) (g : Core → Core) : (s.updCore c g).core c = g (s.core c) := by
  simp [State.core]

theorem core_updCore_other (s : State) {c d : Nat} (g : Core → Core) (h : d ≠ c) : (s.updCore c g).core d = s.core d := by
  simp [State.core, tget_tput_other _ _ _ (Ne.symm h)]

@[simp] theorem ctx_updCtx_same (s : State) (n : Nat) (g : Ctx → Ctx) : (s.updCtx n g).ctx n = g (s.ctx n) := by
  simp [State.ctx]

@[simp] theorem phr_updFrag (s : State) (k p : Nat) (g : Frag → Frag) : (s.updFrag k g).phr p = s.phr p := rfl
@[simp] theorem frag_updPhr (s : State) (k p : Nat) (g : Phrase → Phrase) : (s.updPhr p g).frag k = s.frag k := rfl
@[simp] theorem me_updMe (s : State) (g : Frag → Frag) : (s.updMe g).me = g s.me := by simp [State.me, State.updMe, State.frag]

/-- An update of one fragment changes no other. -/
theorem onlyFrag_updFrag (s : State) (k : Nat) (g : Frag → Frag) : OnlyFrag s (s.updFrag k g) k :=
  ⟨rfl, fun _ h => frag_updFrag_other s g h⟩

theorem onlyFrag_updMe (s : State) (g : Frag → Frag) : OnlyFrag s (s.updMe g) s.cur := onlyFrag_updFrag s s.cur g
theorem onlyFrag_wr (s : State) (a : SReg) (v : Word) : OnlyFrag s (s.wr a v) s.cur :=
  onlyFrag_updFrag s s.cur fun f => f.setReg a v
theorem onlyFrag_adv (s : State) : OnlyFrag s s.adv s.cur := onlyFrag_updFrag s s.cur fun f => { f with pc := f.pc + 4 }
theorem onlyFrag_goto (s : State) (pc : Word) : OnlyFrag s (s.goto pc) s.cur := onlyFrag_updFrag s s.cur fun f => { f with pc := pc }

theorem OnlyFrag.refl (s : State) (k : Nat) : OnlyFrag s s k := ⟨rfl, fun _ _ => rfl⟩

theorem OnlyFrag.trans {s t u : State} {k : Nat} (h : OnlyFrag s t k) (h' : OnlyFrag t u k) : OnlyFrag s u k :=
  ⟨by rw [h'.rest, h.rest], fun j hj => (h'.others j hj).trans (h.others j hj)⟩

/-! ### Scalar registers -/

/-- A write of a register: s0 discards it, and the others keep their values (R93). -/
theorem reg_setReg (f : Frag) (sd x : SReg) (v : Word) : (f.setReg sd v).reg x = if x = sd ∧ x ≠ 0 then v else f.reg x := by
  unfold Frag.setReg Frag.reg
  by_cases hd : sd = 0
  · rw [if_pos hd]
    subst hd
    by_cases hx : x = 0
    · rw [if_pos hx, if_neg (fun h => h.2 hx)]
    · rw [if_neg hx, if_neg (fun h => h.2 h.1)]
  · rw [if_neg hd]
    by_cases hx : x = 0
    · rw [if_pos hx, if_neg (fun h => h.2 hx), if_pos hx]
    · rw [if_neg hx]
      by_cases he : x = sd
      · subst he
        rw [if_pos ⟨rfl, hx⟩]
        exact tget_tput_same _ _ _ _
      · have hn : sd.toNat ≠ x.toNat := fun h => he (BitVec.eq_of_toNat_eq h.symm)
        rw [if_neg (fun h => he h.1), if_neg hx]
        exact tget_tput_other _ _ _ hn

/-- A write at issue: `putNext` gives a next state that differs in one register and the pc (R94). -/
theorem putNext_writes (sd : SReg) (v : Word) (s : State) : Gives (putNext sd v s) (Writes s · sd v) := by
  refine ⟨_, rfl, ?_, ?_, ?_⟩
  · exact (onlyFrag_wr s sd v).trans (onlyFrag_adv (s.wr sd v))
  · intro x
    show ((s.wr sd v).adv.me).reg x = _
    have : (s.wr sd v).adv.me = { (s.me.setReg sd v) with pc := (s.me.setReg sd v).pc + 4 } := by
      simp [State.adv, State.wr, State.me, State.updMe]
    rw [this]
    have h := reg_setReg s.me sd x v
    simpa [Frag.reg, State.r] using h
  · have : (s.wr sd v).adv.me = { (s.me.setReg sd v) with pc := (s.me.setReg sd v).pc + 4 } := by
      simp [State.adv, State.wr, State.me, State.updMe]
    rw [this]
    unfold Frag.setReg
    split <;> rfl

/-- The scalar stream goes on at an address, and nothing else changes. -/
theorem goto_moves (s : State) (pc : Word) : Moves s (s.goto pc) pc :=
  ⟨onlyFrag_goto s pc, by simp [State.goto, State.me, State.updMe]⟩

theorem adv_moves (s : State) : Moves s s.adv (s.me.pc + 4) :=
  ⟨onlyFrag_adv s, by simp [State.adv, State.me, State.updMe]⟩

/-! ### Trap entry -/

/-- No wait is withdrawn where there is none. -/
theorem unwait_none (s : State) (k : Nat) (h : (s.frag k).wait = .none) : s.unwait k = s.updFrag k fun f => { f with wait := .none } := by
  simp [State.unwait, h]

/-- Trap entry below TL 2 (R464). -/
theorem trapEntry_traps (s : State) (k : Nat) (e : Exn) (epc : Word) (redo : Option Clause) (held : List LaneFault)
    (h : s.mayTrap k) : Traps s (s.trapEntry k e epc redo held) k e epc := by
  obtain ⟨htl, hw⟩ := h
  have key : s.trapEntry k e epc redo held = (s.updFrag k fun f => { f with wait := .none }).updFrag k fun f =>
      f.enter (f.tl.toNat + 1) e epc (s.phr (phraseOf k)).tvec (s.phr (phraseOf k)).live redo held s.nextId := by
    unfold State.trapEntry
    rw [if_neg (by omega), unwait_none s k hw]
    simp only [phr_updFrag, updFrag_nextId]
  have fk : (s.trapEntry k e epc redo held).frag k = ({ s.frag k with wait := .none } : Frag).enter ((s.frag k).tl.toNat + 1) e epc
      (s.phr (phraseOf k)).tvec (s.phr (phraseOf k)).live redo held s.nextId := by rw [key]; simp
  have hlane : bit e.lane = if e.lane then 1 else 0 := rfl
  have hec : ecauseOf e = BitVec.ofNat 32 (causeCode e.cause + 256 * e.sub.toNat + 65536 * (if e.lane then 1 else 0)) := by
    unfold ecauseOf at'
    congr 1
    rw [hlane]; ring
  have hcase : (s.frag k).tl.toNat = 0 ∨ (s.frag k).tl.toNat = 1 := by omega
  constructor
  · rw [key]; exact (onlyFrag_updFrag _ _ _).trans (onlyFrag_updFrag _ _ _)
  all_goals rw [fk]
  all_goals rcases hcase with h0 | h0 <;>
    simp [Frag.enter, Frag.bank, Frag.setBank, Frag.setImg, Frag.img, h0, hec]

/-- A fault of the issuing instruction (R251). -/
theorem fault_faults (s : State) (c : Cause) (sub : BitVec 8) (data : Word) (h : s.mayTrap s.cur) :
    Gives (s.fault c sub data) (Faults s · c sub data) :=
  ⟨_, rfl, trapEntry_traps s s.cur _ _ _ _ h⟩

end Sys2Proof.Machine
end

