-- ==== Sys2Proof/Laws/Access.lean ====
section
/-! SUPPORT. Accesses: what their issue adds to the state, and what it leaves (R142, R216). -/
namespace Sys2Proof.Machine

/-- Two states differ at most in cores, the host side and the number counter: what the checks of an access may touch. -/
def Posts (s t : State) : Prop := t = { s with cores := t.cores, host := t.host, nextId := t.nextId }

theorem Posts.refl (s : State) : Posts s s := rfl

theorem Posts.trans {s t u : State} (h : Posts s t) (h' : Posts t u) : Posts s u := by
  unfold Posts at *; rw [h', h]

theorem postMiss_posts (s : State) (k : Nat) (a : Asker) (kind va : Nat) (m : Mask) : Posts s (s.postMiss k a kind va m) := by
  unfold Posts State.postMiss
  simp only [State.updCore, State.setCore, State.bump]

theorem askHost_posts (s : State) (hp : Bool) (c p : Nat) (w q : Bool) : Posts s (s.askHost hp c p w q) := by
  unfold Posts State.askHost
  split
  · rfl
  · cases hp <;> rfl

theorem foldl_posts {α : Type} (f : State → α → State) (h : ∀ s x, Posts s (f s x)) (xs : List α) (s : State) :
    Posts s (xs.foldl f s) := by
  induction xs generalizing s with
  | nil => exact Posts.refl s
  | cons x xs ih => exact (h s x).trans (ih (f s x))

theorem askPieces_posts (s : State) (c : Nat) (w : Bool) (ps : List Piece) : Posts s (s.askPieces c w ps) := by
  refine foldl_posts _ ?_ ps s
  intro s p
  split
  · exact askHost_posts ..
  · exact Posts.refl s

theorem startLane_posts (s : State) (k : Nat) (w : Asker) (kind : AccKind) (sc : Bool) (n : Nat) (l : LaneAcc) :
    Posts s (s.startLane k w kind sc n l).2 := by
  unfold State.startLane
  split
  · exact Posts.refl s
  · exact foldl_posts _ (fun s x => postMiss_posts ..) _ s
  · exact askPieces_posts ..

theorem startLanes_posts (k : Nat) (w : Asker) (kind : AccKind) (sc : Bool) (n : Nat) (ls : List LaneAcc) (s : State) :
    Posts s (s.startLanes k w kind sc n ls).2 := by
  induction ls generalizing s with
  | nil => exact Posts.refl s
  | cons l ls ih => exact (startLane_posts s k w kind sc n l).trans (ih _)

/-- The checks of a lane change how far it has come, and nothing that it asks. -/
theorem startLane_asks (s : State) (k : Nat) (w : Asker) (kind : AccKind) (sc : Bool) (n : Nat) (l : LaneAcc) :
    let m := (s.startLane k w kind sc n l).1
    (m.lane, m.addr, m.data, m.cmp, m.peer) = (l.lane, l.addr, l.data, l.cmp, l.peer) := by
  unfold State.startLane
  split <;> rfl

theorem startLanes_asks (k : Nat) (w : Asker) (kind : AccKind) (sc : Bool) (n : Nat) (ls : List LaneAcc) (s : State) :
    (s.startLanes k w kind sc n ls).1.map (fun l => (l.lane, l.addr, l.data, l.cmp, l.peer)) =
      ls.map fun l => (l.lane, l.addr, l.data, l.cmp, l.peer) := by
  induction ls generalizing s with
  | nil => rfl
  | cons l ls ih =>
    unfold State.startLanes
    simp only [List.map_cons]
    rw [ih, ← startLane_asks s k w kind sc n l]

/-- The fragment after the issue of an access differs in what it has open. -/
theorem issueAccess_frag (s : State) (a : Access) :
    ∃ os, (s.issueAccess a).frag a.frag = { s.frag a.frag with opens := os } := by
  have hp := startLanes_posts a.frag (s.asker a.frag) a.kind a.scalar a.bytes a.lanes s
  unfold State.issueAccess
  simp only [frag_updFrag_same]
  have hf : ({ (s.startLanes a.frag (s.asker a.frag) a.kind a.scalar a.bytes a.lanes).2 with
      accs := (s.startLanes a.frag (s.asker a.frag) a.kind a.scalar a.bytes a.lanes).2.accs ++
        [{ a with lanes := (s.startLanes a.frag (s.asker a.frag) a.kind a.scalar a.bytes a.lanes).1, id := s.nextId, regime := (s.asker a.frag).regime, fence := (s.frag a.frag).relFen }] } : State).bump.frag a.frag
      = s.frag a.frag := by
    rw [hp]; rfl
  rw [hf]
  unfold Frag.openOn
  split
  · exact ⟨_, rfl⟩
  · exact ⟨_, rfl⟩

/-- The issue of an access (R216). -/
theorem issueAccess_issues (s : State) (a : Access) : Issues s (s.issueAccess a) a := by
  have hp := startLanes_posts a.frag (s.asker a.frag) a.kind a.scalar a.bytes a.lanes s
  have ha := startLanes_asks a.frag (s.asker a.frag) a.kind a.scalar a.bytes a.lanes s
  unfold State.issueAccess
  dsimp only
  generalize s.startLanes a.frag (s.asker a.frag) a.kind a.scalar a.bytes a.lanes = r at hp ha ⊢
  obtain ⟨ls, s1⟩ := r
  simp only at hp ha ⊢
  refine ⟨⟨{ a with lanes := ls, id := s.nextId, regime := (s.asker a.frag).regime, fence := (s.frag a.frag).relFen }, ?_, ha, rfl⟩, ?_, ?_, ?_, ?_⟩
  · rw [hp]; rfl
  · intro j hj
    rw [frag_updFrag_other _ _ hj, hp]; rfl
  · rw [hp]; rfl
  · rw [hp]; rfl
  · rw [hp]; rfl

theorem issueAccess_cur (s : State) (a : Access) : (s.issueAccess a).cur = s.cur := by
  have hp := startLanes_posts a.frag (s.asker a.frag) a.kind a.scalar a.bytes a.lanes s
  unfold State.issueAccess
  dsimp only
  generalize s.startLanes a.frag (s.asker a.frag) a.kind a.scalar a.bytes a.lanes = r at hp ⊢
  obtain ⟨ls, s1⟩ := r
  simp only at hp ⊢
  rw [hp]; rfl

/-- What an update of the access's own fragment keeps of its issue. -/
theorem Issues.updFrag {s t : State} {a : Access} (h : Issues s t a) (g : Frag → Frag) : Issues s (t.updFrag a.frag g) a :=
  ⟨h.acc, fun j hj => (frag_updFrag_other t g hj).trans (h.others j hj), h.mem, h.phrases, h.results⟩

/-! ### Performing one lane of a scalar access -/

/-- Pieces in the module's memory that hold no poison are answered (R142). -/
theorem pathChecks_home (s : State) (id c : Nat) (rd wr : Bool) (ps : List Piece) (hp : ∀ p ∈ ps, p.path ≤ 1) (hs : s.poison = [])
    (off : Nat) : s.pathChecks id c rd wr off ps = (none, s) := by
  induction ps generalizing off with
  | nil => rfl
  | cons p ps ih =>
    have h1 : s.pathCheck id c rd wr p = (none, s) := by
      unfold State.pathCheck
      have hq : s.poisoned p.key p.len = false := by simp [State.poisoned, hs]
      rw [if_pos (hp p (by simp)), hq]
      simp
    unfold State.pathChecks
    rw [h1]
    exact ih (fun q hq => hp q (by simp [hq])) _

/-- The access is found under its number after it has been put back. -/
theorem find_putAcc (s : State) (a b : Access) (h : s.findAcc a.id = some a) (hb : b.id = a.id) :
    (s.putAcc b).findAcc a.id = some b := by
  unfold State.findAcc State.putAcc at *
  generalize s.accs = xs at h
  show List.find? _ (List.map _ xs) = _
  induction xs with
  | nil => simp at h
  | cons x xs ih =>
    rw [List.find?_cons] at h
    rw [List.map_cons, List.find?_cons]
    by_cases hx : x.id = a.id
    · have h2 : (x.id == b.id) = true := by simp [hx, hb]
      have h3 : (b.id == a.id) = true := by simp [hb]
      rw [if_pos h2, h3]
    · have h1 : (x.id == a.id) = false := by simpa using hx
      have h2 : ¬(x.id == b.id) = true := by simpa [hb] using hx
      rw [h1] at h
      rw [if_neg h2, h1]
      exact ih h

/-- What a find by number meets after one number has been taken out, whatever stood under it. -/
theorem find_filter_put (xs : List Access) (a b : Access) (hb : b.id = a.id) (n : Nat) (hn : n ≠ a.id) :
    ((xs.map fun x => if x.id == b.id then b else x).filter fun x => x.id != a.id).find? (fun x => x.id == n) =
      xs.find? fun x => x.id == n := by
  induction xs with
  | nil => rfl
  | cons x xs ih =>
    rw [List.map_cons, List.filter_cons, List.find?_cons]
    by_cases hx : x.id = a.id
    · have h2 : (x.id == b.id) = true := by simp [hx, hb]
      have h3 : (b.id != a.id) = false := by simp [hb]
      have h4 : (x.id == n) = false := by simpa [hx] using Ne.symm hn
      rw [if_pos h2, h3, h4]
      exact ih
    · have h2 : ¬(x.id == b.id) = true := by simpa [hb] using hx
      have h3 : (x.id != a.id) = true := by simpa using hx
      rw [if_neg h2, if_pos h3, List.find?_cons, ih]

theorem findAcc_of_accs {s t : State} (h : t.accs = s.accs) (n : Nat) : t.findAcc n = s.findAcc n := by
  unfold State.findAcc; rw [h]

@[simp] theorem frag_tidy (s : State) (k : Nat) : s.tidy.frag k = s.frag k := rfl

theorem pathChecks_lane (s : State) (a : Access) (l : LaneAcc) (hp : ∀ p ∈ l.parts, p.path ≤ 1) (hs : s.poison = []) :
    s.pathChecks a.id (s.ctxOf a.frag) (!a.kind.isStore) a.kind.want.writes 0 l.parts = (none, s) :=
  pathChecks_home s _ _ _ _ _ hp hs 0

/-- The acceptance of a lane by its engine changes the engine alone (R156). -/
theorem laneAccept_spec (s : State) (a : Access) (l : LaneAcc) : s.laneAccept a l = { s with clusters := (s.laneAccept a l).clusters } := by
  unfold State.laneAccept
  split <;> rfl

/-- A run of an access with one lane that can be performed. -/
theorem runAccess_one {s : State} {a : Access} {l : LaneAcc} (h : Performable s a l) :
    s.runAccess a.id =
      let r := (s.laneAccept a l).performLane a l
      let a1 := { a with lanes := [r.1] }
      let s2 : State := if a.kind == .store then r.2.heal (pieceKeys ((([r.1] : List LaneAcc).filter fun l => l.st == .done).flatMap (·.parts))) else r.2
      ((s2.putAcc a1).updFrag a.frag fun f => f.close a.id (~~~a1.paths)).checkAccess a.id := by
  unfold State.runAccess
  rw [h.found]
  simp only [h.may, if_true]
  unfold State.performAcc
  rw [h.lanes]
  simp only [State.performList, h.ready, if_true]

/-- The end of an access that has nothing left to perform and has not failed, in a fragment with no fault to take. -/
theorem checkAccess_done {s : State} {a : Access} (h : s.findAcc a.id = some a) (hl : ∃ l, a.lanes = [l] ∧ l.st = .done)
    (hk : a.kind ≠ .mcast) (hr : (s.frag a.frag).ready = []) :
    let t := s.checkAccess a.id
    t.mem = s.mem ∧ t.phrases = s.phrases ∧ t.waiters = s.waiters ∧ t.accs = s.accs.filter (fun b => b.id != a.id) ∧
    (∀ j, j ≠ a.frag → t.frag j = s.frag j) ∧
    ∃ os, t.frag a.frag = if (s.frag a.frag).wait = .future a.id
      then { s.frag a.frag with opens := os, wait := .none, pc := (s.frag a.frag).pc + 4 } else { s.frag a.frag with opens := os } := by
  obtain ⟨l, hl, hd⟩ := hl
  have hp : a.pending = false := by simp [Access.pending, hl, hd, LaneSt.open]
  have hf : failedLanes a.lanes = [] := by simp [failedLanes, hl, hd]
  have hk' : (a.kind == AccKind.mcast) = false := by simpa using hk
  unfold State.checkAccess
  rw [h]
  simp only [hp, Bool.false_eq_true, if_false]
  unfold State.endAccess
  have hm : (if a.scalar = true then (0x1F : BitVec 5)
      else if (a.kind == .mcast) = true then (if (a.redo.trapen.getLsbD 7 && !(failedLanes a.lanes).isEmpty) = true then 0 else 0x1F)
      else ~~~a.paths) = if a.scalar = true then (0x1F : BitVec 5) else ~~~a.paths := by
    simp only [hk', Bool.false_eq_true, if_false]
  simp only [hm]
  generalize (if a.scalar = true then (0x1F : BitVec 5) else ~~~a.paths) = m
  simp only [hk', Bool.false_eq_true, if_false, hf, faultOf, List.foldl_nil, Option.map_none]
  have hs : ∀ x : State, (x.frag a.frag).ready = [] → x.settle a.frag = x := by
    intro x hx
    unfold State.settle
    simp only [hx]
  rw [hs]
  · refine ⟨rfl, rfl, rfl, rfl, ?_, ?_⟩
    · intro j hj
      rw [frag_updFrag_other _ _ hj]
      rw [frag_tidy, frag_updFrag_other _ _ hj]
      rfl
    · rw [frag_updFrag_same]
      have hx : (State.tidy (State.updFrag ({ s with accs := s.accs.filter fun b => b.id != a.id } : State) a.frag
          fun f => f.close a.id m)).frag a.frag = (s.frag a.frag).close a.id m := by
        rw [frag_tidy, frag_updFrag_same]; rfl
      rw [hx]
      refine ⟨((s.frag a.frag).close a.id m).opens, ?_⟩
      by_cases hw : (s.frag a.frag).wait = .future a.id
      · simp [hw, Frag.close, Frag.resume]
      · simp [hw, Frag.close]
  · rw [frag_updFrag_same]
    have hx : ((State.tidy (State.updFrag ({ s with accs := s.accs.filter fun b => b.id != a.id } : State) a.frag
          fun f => f.close a.id m)).frag a.frag).ready = [] := by
      rw [frag_tidy, frag_updFrag_same]; exact hr
    split
    · exact hx
    · exact hx

/-- The run of an access whose one lane is performed and not queued: what it does beyond the lane itself. -/
theorem runAccess_done {s : State} {a : Access} {l l' : LaneAcc} {u : State} (h : Performable s a l) (hk : a.kind ≠ .mcast)
    (hl : (s.laneAccept a l).performLane a l = (l', u)) (hd : l'.st = .done) (ha : u.findAcc a.id = some a)
    (hr : (u.frag a.frag).ready = []) :
    let t := s.runAccess a.id
    t.mem = u.mem ∧ t.phrases = u.phrases ∧ t.waiters = u.waiters ∧ t.findAcc a.id = none ∧
    (∀ n, n ≠ a.id → t.findAcc n = u.findAcc n) ∧
    (∀ k, ∀ x : SReg, (t.frag k).reg x = (u.frag k).reg x) ∧
    (∀ k, k ≠ a.frag → t.frag k = u.frag k) := by
  have hone := runAccess_one h
  rw [hl] at hone
  simp only at hone
  set a1 : Access := { a with lanes := [l'] } with ha1
  have hheal : ∀ ks, u.heal ks = { u with poison := (u.heal ks).poison } := by
    intro ks; unfold State.heal; split <;> rfl
  generalize hv : (if (a.kind == AccKind.store) = true then u.heal (pieceKeys ((([l'] : List LaneAcc).filter fun l => l.st == .done).flatMap (·.parts))) else u) = v at hone
  have hv' : v = { u with poison := v.poison } := by
    rw [← hv]; split
    · exact hheal _
    · rfl
  have hfind : ((v.putAcc a1).updFrag a.frag fun f => f.close a.id (~~~a1.paths)).findAcc a1.id = some a1 := by
    show (v.putAcc a1).findAcc a.id = some a1
    refine find_putAcc v a a1 ?_ rfl
    rw [hv']; exact ha
  have hd1 := checkAccess_done hfind ⟨l', rfl, hd⟩ hk (by
    show (((v.putAcc a1).updFrag a.frag fun f => f.close a.id (~~~a1.paths)).frag a.frag).ready = []
    rw [frag_updFrag_same, hv']
    exact hr)
  have e1 : a1.id = a.id := rfl
  have e2 : a1.frag = a.frag := rfl
  rw [e1, e2] at hd1
  rw [← hone] at hd1
  obtain ⟨h1, h2, h3, h4, h5, os, h6⟩ := hd1
  have hfv : ∀ j, v.frag j = u.frag j := by intro j; rw [hv']; rfl
  refine ⟨?_, ?_, ?_, ?_, ?_, ?_, ?_⟩
  · rw [h1]; show v.mem = _; rw [hv']
  · rw [h2]; show v.phrases = _; rw [hv']
  · rw [h3]; show v.waiters = _; rw [hv']
  · unfold State.findAcc
    rw [h4]
    simp [List.find?_eq_none]
  · intro n hn
    unfold State.findAcc
    rw [h4]
    show List.find? _ (List.filter _ (v.accs.map _)) = _
    have : v.accs = u.accs := by rw [hv']
    rw [this]
    exact find_filter_put u.accs a a1 rfl n hn
  · intro k x
    by_cases hk : k = a.frag
    · subst hk
      rw [h6]
      have hc : ∀ f : Frag, (f.close a.id (~~~a1.paths)).reg x = f.reg x := fun _ => rfl
      split
      · show (((v.putAcc a1).updFrag a.frag fun f => f.close a.id (~~~a1.paths)).frag a.frag).reg x = _
        rw [frag_updFrag_same, hc]; show (v.frag a.frag).reg x = _; rw [hfv]
      · show (((v.putAcc a1).updFrag a.frag fun f => f.close a.id (~~~a1.paths)).frag a.frag).reg x = _
        rw [frag_updFrag_same, hc]; show (v.frag a.frag).reg x = _; rw [hfv]
    · rw [h5 k hk, frag_updFrag_other _ _ hk]; show (v.frag k).reg x = _; rw [hfv]
  · intro k hk
    rw [h5 k hk, frag_updFrag_other _ _ hk]; show v.frag k = _; rw [hfv]

theorem find_self {s : State} {n : Nat} {a : Access} (h : s.findAcc n = some a) : a.id = n := by
  unfold State.findAcc at h
  simpa using List.find?_some h

theorem readTags_spec (s : State) (a : Access) (ps : List Piece) :
    let u := (s.readTags a ps).2
    u.mem = s.mem ∧ u.accs = s.accs ∧ u.waiters = s.waiters ∧ u.poison = s.poison ∧ u.cur = s.cur ∧
      ∀ k, ∃ rt, u.frag k = { s.frag k with readTag := rt } := by
  unfold State.readTags
  split
  · exact ⟨rfl, rfl, rfl, rfl, rfl, fun k => ⟨_, rfl⟩⟩
  · simp only
    split
    · split
      · exact ⟨rfl, rfl, rfl, rfl, rfl, fun k => ⟨_, rfl⟩⟩
      · exact ⟨rfl, rfl, rfl, rfl, rfl, fun k => ⟨_, rfl⟩⟩
    · split
      · split
        · exact ⟨rfl, rfl, rfl, rfl, rfl, fun k => ⟨_, rfl⟩⟩
        · exact ⟨rfl, rfl, rfl, rfl, rfl, fun k => ⟨_, rfl⟩⟩
      · refine ⟨rfl, rfl, rfl, rfl, rfl, fun k => ?_⟩
        by_cases hk : k = a.frag
        · subst hk; rw [frag_updFrag_same]; exact ⟨_, rfl⟩
        · rw [frag_updFrag_other _ _ hk]; exact ⟨_, rfl⟩

theorem ofInt_sext (n b : Nat) (hn : n < 2 ^ (8 * b)) :
    BitVec.ofInt 64 (sext n (8 * b)) = if 2 ^ (8 * b) ≤ 2 * n then BitVec.ofInt 64 ((n : Int) - 2 ^ (8 * b)) else BitVec.ofNat 64 n := by
  unfold sext
  rw [Nat.mod_eq_of_lt hn]
  simp only
  split
  · rw [if_neg (by omega)]; simp
  · rw [if_pos (by omega)]; push_cast; rfl

theorem natOf_lt (bs : List Byte) : natOf bs < 2 ^ (8 * bs.length) := by
  induction bs with
  | nil => simp [natOf]
  | cons b bs ih =>
    have hb : b.toNat < 256 := b.isLt
    simp only [natOf, List.length_cons]
    rw [show 8 * (bs.length + 1) = 8 * bs.length + 8 by ring, pow_add]
    omega

theorem bytesOf_split (v m n : Nat) : bytesOf v (m + n) = bytesOf v m ++ bytesOf (v / 256 ^ m) n := by
  induction m generalizing v with
  | zero => simp [bytesOf]
  | succ m ih =>
    rw [show m + 1 + n = (m + n) + 1 by ring]
    simp only [bytesOf, List.cons_append]
    rw [ih, Nat.div_div_eq_div_mul, pow_succ, mul_comm 256]

theorem writePieces_wf (ps : List Piece) (bs : List Byte) (m : Mem) (h : Memory.wf m) : Memory.wf (writePieces ps bs m) := by
  induction ps generalizing bs m with
  | nil => exact h
  | cons p ps ih => exact ih _ _ (writeBytes_wf _ _ h)

theorem writePieces_other (ps : List Piece) (bs : List Byte) (m : Mem) (h : Memory.wf m) (key : Nat) (hk : key ∉ pieceKeys ps) :
    readByte (writePieces ps bs m) key = readByte m key := by
  induction ps generalizing bs m with
  | nil => rfl
  | cons p ps ih =>
    have h1 : key ∉ pieceKeys ps := fun hx => hk (by unfold pieceKeys at *; simp at hx ⊢; tauto)
    have h2 : ¬(p.key ≤ key ∧ key < p.key + p.len) := by
      intro hx; apply hk; unfold pieceKeys; simp
      exact Or.inl ⟨key - p.key, by omega, by omega⟩
    unfold writePieces
    rw [ih _ _ (writeBytes_wf _ _ h) h1]
    refine readByte_writeBytes_other _ ?_ h
    have : (bs.take p.len).length ≤ p.len := by simp
    omega

theorem readBytes_congr (m m' : Mem) (a n : Nat) (h : ∀ i, i < n → readByte m (a + i) = readByte m' (a + i)) :
    readBytes m a n = readBytes m' a n := by
  induction n generalizing a with
  | zero => rfl
  | succ n ih =>
    simp only [readBytes]
    rw [show readByte m a = readByte m' a by simpa using h 0 (by omega), ih]
    intro i hi
    have := h (i + 1) (by omega)
    rwa [show a + (i + 1) = a + 1 + i by ring] at this

theorem writePieces_read (ps : List Piece) (bs : List Byte) (m : Mem) (h : Memory.wf m) (hd : ps.Pairwise (fun p q => ¬piecesMeet p q))
    (hl : (ps.map (·.len)).sum = bs.length) :
    (ps.flatMap fun p => readBytes (writePieces ps bs m) p.key p.len) = bs := by
  induction ps generalizing bs m with
  | nil => simp at hl; simp [List.eq_nil_of_length_eq_zero hl.symm]
  | cons p ps ih =>
    rw [List.pairwise_cons] at hd
    simp only [List.map_cons, List.sum_cons] at hl
    simp only [List.flatMap_cons, writePieces]
    rw [ih (bs.drop p.len) _ (writeBytes_wf _ _ h) hd.2 (by simp; omega)]
    have hlen : (bs.take p.len).length = p.len := by simp; omega
    have : readBytes (writePieces ps (bs.drop p.len) (writeBytes p.key (bs.take p.len) m)) p.key p.len = bs.take p.len := by
      have h1 := readBytes_writeBytes (bs.take p.len) p.key h
      rw [hlen] at h1
      rw [← h1]
      refine readBytes_congr _ _ _ _ ?_
      intro i hi
      rw [h1]
      refine writePieces_other _ _ _ (writeBytes_wf _ _ h) _ ?_
      intro hx
      unfold pieceKeys at hx
      simp at hx
      obtain ⟨q, hq, j, hj, he⟩ := hx
      have := hd.1 q hq
      unfold piecesMeet at this
      simp at this
      omega
    rw [this, List.take_append_drop]

theorem putTags_spec (s : State) (ps : List Piece) (t : Option Tag) : s.putTags ps t = { s with tags := (s.putTags ps t).tags } := by
  unfold State.putTags
  split
  · rfl
  · split <;> rfl

end Sys2Proof.Machine
end

