-- ==== Sys2Proof/Laws/Flits.lean ====
section
/-! SUPPORT. Laws of flits (R505): a flit that was made has a good CRC, and opens under its key to what it was made of. -/
namespace Sys2Proof.Machine

theorem foldl_keeps {α β : Type} (p : β → Prop) (f : β → α → β) (h : ∀ b a, p b → p (f b a)) (l : List α) (b : β) (hb : p b) : p (l.foldl f b) := by
  induction l generalizing b with
  | nil => exact hb
  | cons a l ih => exact ih _ (h b a hb)

theorem crcStep_lt (c b : Nat) (hc : c < 2 ^ 32) (hb : b < 2 ^ 32) : crcStep c b < 2 ^ 32 := by
  refine foldl_keeps (· < 2 ^ 32) _ (fun c _ h => ?_) _ _ (Nat.xor_lt_two_pow hc hb)
  split
  · exact Nat.xor_lt_two_pow (by omega) (by decide)
  · omega

theorem crc32_lt (bs : List Byte) : crc32 bs < 2 ^ 32 :=
  Nat.xor_lt_two_pow (foldl_keeps (· < 2 ^ 32) _ (fun c b h => crcStep_lt c b.toNat h (by omega)) _ _ (by decide)) (by decide)

@[simp] theorem bytesOf_length (x n : Nat) : (bytesOf x n).length = n := by
  induction n generalizing x with
  | zero => rfl
  | succ n ih => rw [bytesOf, List.length_cons, ih]

@[simp] theorem takeFill_length {α : Type} (d : α) (n : Nat) (l : List α) : (takeFill d n l).length = n := by
  induction n generalizing l with
  | zero => rfl
  | succ n ih => cases l <;> rw [takeFill, List.length_cons, ih]

theorem crcGood_withCrc {x : List Byte} (h : x.length = 252) : crcGood (withCrc x) = true := by
  have hc := crc32_lt x
  rw [crcGood, withCrc, List.take_left' h, List.drop_left' h, natOf_bytesOf, List.length_append, bytesOf_length, h, Nat.mod_eq_of_lt (by omega)]
  simp

/-- A flit whose last four bytes are not the CRC of the others. -/
theorem crcGood_false {x : List Byte} (n : Nat) (h : x.length = 252) (hn : n < 2 ^ 32) (hx : n ≠ crc32 x) : crcGood (x ++ bytesOf n 4) = false := by
  rw [crcGood, List.take_left' h, List.drop_left' h, natOf_bytesOf, Nat.mod_eq_of_lt (by omega), Bool.and_eq_false_iff]
  exact .inr (beq_eq_false_iff_ne.2 (Ne.symm hx))

theorem flitBytes_flitNats (l : List Byte) : flitBytes (flitNats l) = l := by
  rw [flitBytes, flitNats, List.map_map]
  exact (List.map_congr_left fun x _ => by simp).trans (List.map_id _)

theorem xorList_twice (p : List Byte) (s : List Nat) (h : p.length ≤ s.length) :
    flitBytes (xorList (flitNats (flitBytes (xorList (flitNats p) s))) s) = p := by
  induction p generalizing s with
  | nil => rfl
  | cons x p ih =>
    cases s with
    | nil => simp at h
    | cons y s =>
      have := ih s (by simpa using h)
      simp only [flitNats, flitBytes, xorList, List.map_cons, List.zipWith_cons_cons] at this ⊢
      rw [this]
      congr 1
      apply BitVec.eq_of_toNat_eq
      simp

@[simp] theorem flitNats_length (l : List Byte) : (flitNats l).length = l.length := List.length_map ..
@[simp] theorem flitBytes_length (l : List Nat) : (flitBytes l).length = l.length := List.length_map ..

theorem takeFill_self {α : Type} (d : α) (l : List α) : takeFill d l.length l = l := by
  induction l with
  | nil => rfl
  | cons x l ih => rw [List.length_cons, takeFill, ih]

/-- A flit opens, under its key, to its payload. -/
theorem openFlit_sealFlit {key : BitVec 256} {gen ctr : Nat} {header payload : List Byte} (hh : header.length = 16) (hp : payload.length = 220)
    (hg : natOf ((header.drop 8).take 4) = gen) (hc : natOf ((header.drop 12).take 4) = ctr)
    (hs : (gcmStream (keyBytes key) (gen * 2 ^ 32 + ctr) 0 220).length = 220)
    (ht : ∀ aad ct, (gcmTag (keyBytes key) (gen * 2 ^ 32 + ctr) aad ct).length = 16) :
    openFlit key (sealFlit key gen ctr header payload) = some payload ∧ crcGood (sealFlit key gen ctr header payload) = true := by
  have hct : (gcmText (keyBytes key) (gen * 2 ^ 32 + ctr) 0 (flitNats payload)).length = 220 := by
    rw [gcmText, xorList, List.length_zipWith, flitNats_length, hp, hs]; rfl
  have hf : takeFill 0 220 payload = payload := hp ▸ takeFill_self 0 payload
  unfold sealFlit
  simp only [hf]
  refine ⟨?_, crcGood_withCrc (by rw [List.length_append, List.length_append, hh, flitBytes_length, hct, flitBytes_length, ht])⟩
  have hb : (flitBytes (gcmText (keyBytes key) (gen * 2 ^ 32 + ctr) 0 (flitNats payload))).length = 220 := by rw [flitBytes_length, hct]
  have hx : flitBytes (gcmText (keyBytes key) (gen * 2 ^ 32 + ctr) 0 (flitNats (flitBytes (gcmText (keyBytes key) (gen * 2 ^ 32 + ctr) 0 (flitNats payload))))) = payload := by
    rw [gcmText, flitNats_length, hb, gcmText, flitNats_length, hp]; exact xorList_twice payload _ (by rw [hp, hs])
  generalize flitBytes (gcmText (keyBytes key) (gen * 2 ^ 32 + ctr) 0 (flitNats payload)) = ct at hb hx ⊢
  have e1 (r : List Byte) : (header ++ r).take 16 = header := List.take_left' hh
  have e2 (r : List Byte) : (header ++ r).drop 16 = r := List.drop_left' hh
  have e3 (r : List Byte) : (ct ++ r).take 220 = ct := List.take_left' hb
  have e4 (r : List Byte) : (header ++ (ct ++ r)).drop 236 = r := by
    rw [← List.append_assoc]; exact List.drop_left' (by rw [List.length_append, hh, hb])
  have e5 (r : List Byte) : (flitBytes (gcmTag (keyBytes key) (gen * 2 ^ 32 + ctr) (flitNats header) (flitNats ct)) ++ r).take 16 =
      flitBytes (gcmTag (keyBytes key) (gen * 2 ^ 32 + ctr) (flitNats header) (flitNats ct)) := List.take_left' (by rw [flitBytes_length, ht])
  rw [withCrc]
  simp only [List.append_assoc]
  rw [openFlit]
  simp only [e1, e2, e3, e4, e5, hg, hc, hx, beq_self_eq_true, if_true]

end Sys2Proof.Machine
end

