-- ==== Sys2Proof/Laws/Crypto.lean ====
section
/-! SUPPORT. Laws of the ciphers: the lengths of blocks, streams, tags and digests, and a secured message opens under its key (R483). -/
namespace Sys2Proof.Machine

theorem length_xorList (a b : List Nat) : (xorList a b).length = min a.length b.length := List.length_zipWith ..

theorem nth_mem {α : Type} {d : α} {l : List α} {n : Nat} (h : n < l.length) : nth d l n ∈ l := by
  rw [nth, List.getD_eq_getElem _ _ h]; exact List.getElem_mem h

theorem length_rotateLeft {α : Type} (l : List α) (n : Nat) : (l.rotateLeft n).length = l.length := by
  rw [List.rotateLeft]; split
  · rfl
  · simp only [List.length_append, List.length_drop, List.length_take]; omega

/-- The key schedule adds words of four bytes. -/
theorem aesExpand_words (n i r : Nat) (ws : List (List Nat)) (h : ∀ w ∈ ws, w.length = 4) (h8 : 8 ≤ ws.length) :
    (∀ w ∈ aesExpand n i r ws, w.length = 4) ∧ (aesExpand n i r ws).length = ws.length + n := by
  induction n generalizing i r ws with
  | zero => exact ⟨h, rfl⟩
  | succ n ih =>
    have e0 := h _ (nth_mem (d := []) (l := ws) (n := 0) (by omega))
    have e7 := h _ (nth_mem (d := []) (l := ws) (n := 7) (by omega))
    unfold aesExpand
    obtain ⟨h1, h2⟩ := ih (i + 1) (if i % 8 == 0 then gmul r 2 else r) (xorList (nth [] ws 7)
      (if i % 8 == 0 then xorList (((nth [] ws 0).rotateLeft 1).map sbox) [r, 0, 0, 0]
        else if i % 8 == 4 then (nth [] ws 0).map sbox else nth [] ws 0) :: ws)
      (fun w hw => by
        rcases List.mem_cons.1 hw with rfl | hw
        · rw [length_xorList, e7]
          split
          · rw [length_xorList, List.length_map, length_rotateLeft, e0]; rfl
          · split <;> simp [e0]
        · exact h w hw) (by simp; omega)
    exact ⟨h1, by rw [h2, List.length_cons]; omega⟩

theorem fours_words (n : Nat) (l : List Nat) (h : l.length = 4 * n) : (∀ w ∈ fours n l, w.length = 4) ∧ (fours n l).length = n := by
  induction n generalizing l with
  | zero => simp [fours]
  | succ n ih =>
    obtain ⟨h1, h2⟩ := ih (l.drop 4) (by simp; omega)
    refine ⟨fun w hw => ?_, by rw [fours, List.length_cons, h2]⟩
    rcases List.mem_cons.1 (by simpa [fours] using hw) with rfl | hw
    · simp; omega
    · exact h1 w hw

theorem flatten_fours (ws : List (List Nat)) (h : ∀ w ∈ ws, w.length = 4) : ws.flatten.length = 4 * ws.length := by
  induction ws with
  | nil => rfl
  | cons w ws ih =>
    rw [List.flatten_cons, List.length_append, h w (by simp), ih fun x hx => h x (by simp [hx]), List.length_cons]; omega

/-- A block under a key of 32 bytes has 16. -/
theorem aesBlock_length {key : List Nat} (h : key.length = 32) (b : List Nat) : (aesBlock (aesKeys key) b).length = 16 := by
  obtain ⟨f1, f2⟩ := fours_words 8 key h
  obtain ⟨h1, h2⟩ := aesExpand_words 52 8 1 (fours 8 key).reverse (fun w hw => f1 w (List.mem_reverse.1 hw)) (by rw [List.length_reverse, f2])
  have hr : (roundKey (aesKeys key) 14).length = 16 := by
    rw [roundKey, aesKeys, flatten_fours _ fun w hw => h1 w (List.mem_reverse.1 (List.mem_of_mem_drop (List.mem_of_mem_take hw))), List.length_take, List.length_drop,
      List.length_reverse, h2, List.length_reverse, f2]; rfl
  rw [aesBlock, length_xorList, hr, shiftRows, List.length_map, List.length_range]; rfl

theorem gcmStream_length {key : List Nat} (h : key.length = 32) (nonce n : Nat) : (gcmStream key nonce 0 n).length = n := by
  have hb : ∀ (f : Nat → List Nat), (∀ i, (f i).length = 16) → ∀ c, ((List.range c).flatMap f).length = 16 * c := fun f hf c => by
    induction c with
    | zero => rfl
    | succ c ih => rw [List.range_succ, List.flatMap_append, List.length_append, ih, List.flatMap_cons, List.flatMap_nil, List.append_nil, hf]; omega
  rw [gcmStream, List.length_take, List.length_drop, hb _ fun i => aesBlock_length h _]
  omega

theorem gcmTag_length {key : List Nat} (h : key.length = 32) (nonce : Nat) (aad ct : List Nat) : (gcmTag key nonce aad ct).length = 16 := by
  rw [gcmTag]
  simp only [length_xorList, aesBlock_length h, bigBytes, List.length_map, List.length_range]
  rfl

theorem gcmText_length {key : List Nat} (h : key.length = 32) (nonce : Nat) (bs : List Nat) : (gcmText key nonce 0 bs).length = bs.length := by
  rw [gcmText, length_xorList, gcmStream_length h, Nat.min_self]

theorem keccakRound_length (a : List Nat) (i : Nat) : (keccakRound a i).length = 25 := by
  rw [keccakRound]; simp only []; split <;> rename_i e <;> (have := congrArg List.length e; simp at this ⊢; try omega)

theorem keccakF_length (a : List Nat) : (keccakF a).length = 25 := by
  rw [keccakF, List.range_succ, List.foldl_append]; exact keccakRound_length _ _

theorem sha3_length (bs : List Byte) : (sha3 bs).length = 32 := by
  have h (n : Nat) : ∀ bs a, a.length = 25 → (sha3Absorb n bs a).length = 25 := by
    induction n with
    | zero => intro _ a ha; exact ha
    | succ n ih => intro bs a _; exact ih _ _ (keccakF_length _)
  have hf : ∀ l : List Nat, (l.flatMap fun x => bytesOf x 8).length = 8 * l.length := fun l => by
    induction l with
    | nil => rfl
    | cons x l ih => rw [List.flatMap_cons, List.length_append, ih, length_bytesOf, List.length_cons]; omega
  rw [sha3, hf, List.length_take, h _ _ _ (by simp)]; rfl

theorem hmac_length (key msg : List Byte) : (hmac key msg).length = 32 := sha3_length _

theorem hkdfExpand_length (n : Nat) (h : n ≤ 32) (secret : List Byte) (name : String) (ctx : List Byte) : (hkdfExpand n secret name ctx).length = n := by
  rw [hkdfExpand, List.length_take, hmac_length]; omega

/-- A secured message opens, under its key and at its place in the sequence, to what it was made of. -/
theorem openRecord_sealRecord {key : List Byte} (h : key.length = 32) (iv : List Byte) (seq : Nat) (m : List Byte) :
    openRecord key iv seq (sealRecord key iv seq m) = some m := by
  have hk : (natBytes key).length = 32 := by rw [natBytes, List.length_map, h]
  have e6 : (bytesOf 0 4 ++ bytesOf (m.length + 18) 2).length = 6 := by rw [List.length_append, length_bytesOf, length_bytesOf]
  have hn (l : List Nat) : (byteList l).length = l.length := by rw [byteList, List.length_map]
  have hm (l : List Byte) : (natBytes l).length = l.length := by rw [natBytes, List.length_map]
  generalize hp : bytesOf m.length 2 ++ m = p
  have hc : (byteList (gcmText (natBytes key) (secNonce iv seq) 0 (natBytes p))).length = p.length := by rw [hn, gcmText_length hk, hm]
  have back : byteList (gcmText (natBytes key) (secNonce iv seq) 0 (natBytes (byteList (gcmText (natBytes key) (secNonce iv seq) 0 (natBytes p))))) = p := by
    have := xorList_twice p (gcmStream (natBytes key) (secNonce iv seq) 0 p.length) (by rw [gcmStream_length hk])
    rw [gcmText, hm, hc, gcmText, hm]; exact this
  rw [sealRecord]
  simp only [hp]
  generalize byteList (gcmText (natBytes key) (secNonce iv seq) 0 (natBytes p)) = ct at hc back ⊢
  have ht : (byteList (gcmTag (natBytes key) (secNonce iv seq) (natBytes (bytesOf 0 4 ++ bytesOf (m.length + 18) 2)) (natBytes ct))).length = 16 := by
    rw [hn, gcmTag_length hk]
  generalize e : bytesOf 0 4 ++ bytesOf (m.length + 18) 2 = head at e6 ht ⊢
  have hd (t : List Byte) : (head ++ ct ++ t).drop (p.length + 6) = t := List.drop_left' (by rw [List.length_append, e6, hc]; omega)
  have hl (t : List Byte) (ht : t.length = 16) : (head ++ ct ++ t).length = p.length + 22 := by
    rw [List.length_append, List.length_append, e6, hc, ht]; omega
  rw [openRecord]
  simp only [hl _ ht, show p.length + 22 - 22 = p.length by omega, show p.length + 22 - 16 = p.length + 6 by omega, hd]
  simp only [List.append_assoc, List.take_left' e6, List.drop_left' e6, List.take_left' hc, beq_self_eq_true, if_true, back]
  rw [← hp, List.drop_left' (length_bytesOf _ _)]

/-- What the requester seals opens at the module (R483). -/
theorem opens_sealed (x : Spdm) (h : x.session = true) (m : List Byte) : x.opens (sealRecord (x.dirKey true) (x.dirIv true) x.reqSeq m) = some m := by
  rw [Spdm.opens, if_pos h]; exact openRecord_sealRecord (hkdfExpand_length 32 (Nat.le_refl _) _ _ _) _ _ _

/-- What is too short for a tag does not open. -/
theorem opens_nil (x : Spdm) : x.opens [] = none := by
  rw [Spdm.opens]
  split
  · rw [openRecord]
    have := gcmTag_length (key := natBytes (x.dirKey true)) (by rw [natBytes, List.length_map]; exact hkdfExpand_length 32 (Nat.le_refl _) _ _ _)
      (secNonce (x.dirIv true) x.reqSeq) [] []
    refine if_neg fun e => ?_
    have := congrArg List.length (eq_of_beq e)
    simp_all [byteList, natBytes]
  · rfl

end Sys2Proof.Machine
end

