-- ==== Sys2Proof/Laws/Images.lean ====
section
/-! SUPPORT. Laws of images (R472): what is written into memory stays within the places that the image lists. -/
namespace Sys2Proof.Machine

theorem pokes_wf (l : List (Nat × Nat × Nat)) {m : Mem} (h : Memory.wf m) : Memory.wf (pokes l m) :=
  foldl_wf _ (fun _ e h => writeNat_wf e.1 e.2.1 e.2.2 h) l h

theorem readByte_pokes_other (l : List (Nat × Nat × Nat)) {m : Mem} {c : Nat} (hc : ∀ e ∈ l, c < e.1 ∨ e.1 + e.2.1 ≤ c) (h : Memory.wf m) :
    readByte (pokes l m) c = readByte m c := by
  induction l generalizing m with
  | nil => rfl
  | cons e l ih =>
    exact (ih (fun x hx => hc x (List.mem_cons_of_mem _ hx)) (writeNat_wf _ _ _ h)).trans (readByte_writeNat_other _ (hc e List.mem_cons_self) h)

theorem dropRange_mem (s : State) (a n : Nat) : (s.dropRange a n).mem = s.mem := by rw [State.dropRange]; split <;> rfl

/-- An image is written as its list says. -/
@[simp] theorem writeImage_mem (s : State) (p a : Nat) (auto : Bool) : (s.writeImage p a auto).mem = pokes (s.imagePokes p a auto) s.mem := by
  unfold State.writeImage
  simp only [updHostPort_mem, State.updMem, dropRange_mem]

theorem dropRange_contexts (s : State) (a n : Nat) : (s.dropRange a n).contexts = s.contexts := by rw [State.dropRange]; split <;> rfl

@[simp] theorem writeImage_ctx (s : State) (p a : Nat) (auto : Bool) (n : Nat) : (s.writeImage p a auto).ctx n = s.ctx n := by
  unfold State.writeImage State.ctx
  simp only [updHostPort_contexts, State.updMem, dropRange_contexts]

end Sys2Proof.Machine
end

