-- ==== Sys2Proof/Laws/Lanes.lean ====
section
/-! SUPPORT. The issue of lane instructions: what goes on, and what their results will write (R167, R278, R302). -/
namespace Sys2Proof.Machine

theorem laneAdv_queue (g : Frag) (c : Nat) : (g.laneAdv c).queue = issuedQueue g.queue := by
  unfold Frag.laneAdv issuedQueue
  cases g.queue with
  | nil => rfl
  | cons c cs => simp only [ge_iff_le]

theorem window_frag (s : State) (f : LaneFields) (k : Nat) : (s.window f).frag k = s.frag k := by
  unfold State.window; simp only; split <;> split <;> rfl

theorem window_cur (s : State) (f : LaneFields) : (s.window f).cur = s.cur := by
  unfold State.window; simp only; split <;> split <;> rfl

theorem window_phrases (s : State) (f : LaneFields) (h1 : popsRing f = false) (h2 : pushesRing f = false) :
    (s.window f).phrases = s.phrases := by
  unfold State.window; simp only; rw [h1, h2]; rfl

theorem window_mem (s : State) (f : LaneFields) : (s.window f).mem = s.mem := by
  unfold State.window; simp only; split <;> split <;> rfl

theorem window_accs (s : State) (f : LaneFields) : (s.window f).accs = s.accs := by
  unfold State.window; simp only; split <;> split <;> rfl

theorem window_results (s : State) (f : LaneFields) : (s.window f).results = s.results := by
  unfold State.window; simp only; split <;> split <;> rfl

theorem laneIssued_frag (s : State) (f : LaneFields) (k : Nat) :
    (s.laneIssued f).frag k = ((s.window f).updMe fun g => g.laneAdv s.cycle).frag k := by
  unfold State.laneIssued; simp only; split <;> rfl

theorem laneIssued_cur (s : State) (f : LaneFields) : (s.laneIssued f).cur = s.cur := by
  unfold State.laneIssued; simp only; split <;> exact window_cur s f

@[simp] theorem laneIssued_mem (s : State) (f : LaneFields) : (s.laneIssued f).mem = s.mem := by
  unfold State.laneIssued; simp only; split <;> exact window_mem s f

@[simp] theorem laneIssued_accs (s : State) (f : LaneFields) : (s.laneIssued f).accs = s.accs := by
  unfold State.laneIssued; simp only; split <;> exact window_accs s f

@[simp] theorem laneIssued_results (s : State) (f : LaneFields) : (s.laneIssued f).results = s.results := by
  unfold State.laneIssued; simp only; split <;> exact window_results s f

/-- A lane instruction has issued, and its results are yet to be written. -/
theorem laneIssued_goes (s : State) (f : LaneFields) (R : List LaneRes) : LaneGoes s { s.laneIssued f with results := R } f := by
  have hme : ({ s.laneIssued f with results := R } : State).me = s.me.laneAdv s.cycle := by
    show (s.laneIssued f).frag (s.laneIssued f).cur = _
    rw [laneIssued_cur, laneIssued_frag]
    unfold State.updMe
    rw [window_cur, frag_updFrag_same, window_frag]; rfl
  constructor
  · rw [hme, laneAdv_queue]
  · intro x; unfold State.r; rw [hme]; rfl
  · rw [hme]; rfl
  · rw [hme]; rfl
  · intro j hj
    show (s.laneIssued f).frag j = _
    rw [laneIssued_frag]; unfold State.updMe; rw [window_cur, frag_updFrag_other _ _ hj, window_frag]
  · intro h1 h2
    show (s.laneIssued f).phrases = _
    unfold State.laneIssued; simp only
    split <;> exact window_phrases s f h1 h2

theorem faulters_none (trapen : BitVec 32) (ls : List Nat) (out : Nat → LaneOut)
    (h : ∀ l ∈ ls, (out l).bad = false ∧ excTraps trapen (out l).exc = false) : faulters trapen ls out = [] := by
  unfold faulters
  rw [List.filter_eq_nil_iff]
  intro l hl
  simp [h l hl]

/-- A result in whose lanes nothing faults (R278): `val` need agree with the computed values only as registers hold them. -/
theorem laneResult_issues (s : State) (f : LaneFields) (lat : Nat) (t : LType) (c : Cause) (datum : Nat → Word)
    (out : Nat → LaneOut) (more : Nat → List (Nat × Half)) (val : Nat → Nat) (more' : Nat → List (Nat × Half)) (st : BitVec 32)
    (hb : ∀ l ∈ lanesOf s.lmask, (out l).bad = false ∧ excTraps s.clause.trapen (out l).exc = false)
    (hv : ∀ n, ∀ l ∈ lanesOf s.lmask, laneWrites t n l (out l).val ++ more l = laneWrites t n l (val l) ++ more' l)
    (hs : (excOf (lanesOf s.lmask) out).setWidth 32 = st) :
    LaneIssues s (s.laneResult f lat t c datum out more) f (s.cycle + lat) t val more' st := by
  have hf := faulters_none s.clause.trapen (lanesOf s.lmask) out hb
  have hgood : (lanesOf s.lmask).filter (fun l => !(faulters s.clause.trapen (lanesOf s.lmask) out).contains l) = lanesOf s.lmask := by
    rw [hf]; simp
  refine ⟨laneIssued_goes s f _, laneIssued_mem s f, laneIssued_accs s f, ?_⟩
  refine ⟨_, congrArg (· ++ [_]) (laneIssued_results s f), rfl, rfl, rfl, rfl, ?_, rfl, ?_, ?_⟩
  · simp only [hf]; rfl
  · simp only [hgood]; exact hs
  · intro n hn
    simp only [hgood, hn]
    exact List.flatMap_congr fun l hl => hv n.toNat l hl

/-- A scalar result without a fault (R302). -/
theorem scalarResult_issues (s : State) (f : LaneFields) (v : Word) (e : Exc) (st : BitVec 32) (h : e.setWidth 32 = st) :
    ScalarIssues s (s.scalarResult f v e none) f v st := by
  refine ⟨laneIssued_goes s f _, laneIssued_mem s f, laneIssued_accs s f, ?_⟩
  refine ⟨_, congrArg (· ++ [_]) (laneIssued_results s f), rfl, rfl, rfl, rfl, rfl, rfl, ?_, ?_⟩
  · exact h
  · intro d hd; simp only [hd]

end Sys2Proof.Machine
end

