-- ==== Sys2Proof/Tests/Slice0.lean ====
section
/-! SUPPORT. Tests: ill-formed terms that the checks refuse, words written out from the encodings of the manual, worked examples of the
manual, and states that meet the hypotheses of the claims. -/
namespace Sys2Proof.Tests
-- one theorem after another: the evaluations of many at once take more memory than the check has
set_option Elab.async false
open Sys2Proof.Machine

/-! ### Ill-formed terms, one for each check of WellFormed -/

/-- The fields of a lane word with type i32 and everything else zero. -/
def lf : LaneFields := ⟨0, 0, .v 0, .v 0, .v 0, .v 0, .i32, .none, 0, 0⟩

theorem test_wf_scalar_bad : [Instr.sbfx 1 2 60 4, .sbfi 1 2 63 1, .scas 1 2 3 ⟨.none, .dev⟩ true, .samoAdd 1 2 3 ⟨.none, .sys⟩ true,
    .samoSwap 1 2 3 ⟨.none, .crs⟩ false, .sfence ⟨.none, .sys⟩, .slq2 63 1 0, .slq3 62 1 0, .slq4 61 1 0, .cpwait 257, .sgrow 1 0, .sgrow 1 15,
    .sshrink 1 0, .ntinv 1 2 true .all, .vtinv 1 2 3 false .all].all (fun i => i.wf == false) = true := by decide

theorem test_wf_scalar_good : [Instr.sbfx 1 2 60 3, .sbfi 1 2 63 0, .scas 1 2 3 ⟨.rel, .dev⟩ true, .sfence ⟨.acq, .phr⟩, .slq2 62 1 0,
    .slq3 61 1 0, .slq4 60 1 0, .cpwait 256, .sgrow 1 1, .sshrink 1 14, .ntinv 1 2 true .one].all (fun i => i.wf) = true := by decide

theorem test_wf_lane_type : [Instr.vadd { lf with ty := .f32 }, .vabs { lf with ty := .u32 }, .vmulh { lf with ty := .i16 }, .vbfx { lf with ty := .i64, imm := 3 }, .vaddc { lf with ty := .i32 }, .vfadd lf, .vcvtmx { lf with imm := 8 }, .mxmma lf, .vatom { lf with ty := .f32, va := .c 0 },
    .vfence { lf with md := 0x20 }].all (fun i => i.wf == false) = true := by decide

theorem test_wf_lane_vd : [Instr.vadd { lf with vd := .s 3 }, .vadd { lf with vd := .imm }, .vballot { lf with vd := .v 3 }, .vst { lf with vd := .v 3, va := .c 0 },
    .vld { lf with vd := .qOut, va := .c 0 }, .vred { lf with vd := .qOut }].all (fun i => i.wf == false) = true := by decide

theorem test_wf_lane_sources : [Instr.vnot { lf with vb := .v 3 }, .vclz { lf with vb := .qIn }, .vaddc { lf with ty := .u32, vc := .c 0, vd := .v 1 },
    .vbfx { lf with ty := .u32, imm := 4, va := .imm }, .vld { lf with va := .v 3 }, .vlds { lf with va := .c 0, vb := .v 2 }, .vfroms { lf with va := .v 1 },
    .vrma { lf with va := .qIn }, .mxwr { lf with ty := .i32, va := .c 0 }, .vadd { lf with va := .qOut }].all (fun i => i.wf == false) = true := by decide

theorem test_wf_lane_imm : [Instr.vadd { lf with imm := 1 }, .vadd { lf with ty := .i8, vb := .imm, imm := 0x100 }, .vshufx { lf with imm := 32 },
    .vbfx { lf with ty := .u32, imm := 0 }, .vbfx { lf with ty := .u32, imm := 33 }, .vcvt { lf with imm := 13 }, .vcvtmx { lf with ty := .slot, imm := 7 },
    .vpack { lf with ty := .i8, imm := 4 }, .vmovi { lf with ty := .i16, imm := 0x10000 }, .vld { lf with va := .c 0, imm := 0x2000000 },
    .vld { lf with va := .c 0, imm := 0x100000 }, .vatom { lf with va := .c 0, imm := 0xE000000 }, .vlds { lf with va := .c 0, vb := .c 1, imm := 0x100000 },
    .vrma { lf with va := .c 0, vb := .c 1, imm := 10 }, .vmcast { lf with vd := .s 1, va := .c 0, vb := .c 1, imm := 0 }, .vsysc { lf with ty := .i8, imm := 0x40000 },
    .vsysc { lf with ty := .i8, vd := .v 3 }, .mxlds { lf with ty := .slot, imm := 0x600 }, .mxmma { lf with ty := .slot, imm := 8 }, .mxzero { lf with ty := .i8, imm := 8 },
    .mxrd { lf with ty := .slot, imm := 0x07C10000 }, .mxwr { lf with ty := .f64, imm := 0x04000000 }, .mxout { lf with ty := .slot, imm := 0x18000000 },
    .vgwr { lf with imm := 8 }].all (fun i => i.wf == false) = true := by decide

theorem test_wf_lane_mod : [Instr.vand { lf with md := 1 }, .vadd { lf with md := 1 }, .vcmp { lf with md := 6 }, .vfcmp { lf with ty := .f32, md := 8 },
    .vfadd { lf with ty := .f32, md := 0x14 }, .vfrnd { lf with ty := .f32, md := 0x20 }, .vscan { lf with md := 6 }, .vred { lf with vd := .s 1, md := 8 },
    .vshufx { lf with md := 4 }, .vtos { lf with vd := .s 1, md := 2 }, .vfroms { lf with va := .imm, md := 2 }, .vld { lf with va := .c 0, md := 0x20 },
    .vst { lf with va := .c 0, md := 0x10 }, .vatom { lf with va := .c 0, md := 2 }, .vfence { lf with ty := .i8 }, .vrma { lf with va := .c 0, vb := .c 1, md := 1 },
    .vmcast { lf with vd := .s 1, va := .c 0, vb := .c 1, imm := 1, md := 0x10 }].all (fun i => i.wf == false) = true := by decide

theorem test_wf_lane_others : [Instr.vaddc { lf with ty := .u32, vc := .v 3, vd := .v 3 }, .vadd { lf with fsi := 1 }, .vexit { lf with ty := .i8, fb := .seta }].all
    (fun i => i.wf == false) = true ∧ [Instr.vadd { lf with vb := .imm, imm := 7 }, .vexit { lf with ty := .i8 }, .vld { lf with va := .c 0 },
    .vfence { lf with ty := .i8, md := 0x20 }, .mxmma { lf with ty := .slot }].all (fun i => i.wf) = true := by decide

/-- R237: two flags that a header sets differ, and it has instructions. -/
theorem test_wf_header : ({ waitm := 0, seta := some 3, setb := some 3, len := 1 } : ClauseHeader).wf = false ∧
    ({ waitm := 0, seta := none, setb := none, len := 0 } : ClauseHeader).wf = false := by decide

/-! ### Words written out from the encodings (R229-R241): every scalar and lane instruction -/

def sa (op : BitVec 8) (d a b fn : BitVec 6) : BitVec 32 := op ++ d ++ a ++ b ++ fn
def si (op : BitVec 8) (d a : BitVec 6) (imm : BitVec 12) : BitVec 32 := op ++ d ++ a ++ imm
def sj (op : BitVec 8) (cond : BitVec 4) (a : BitVec 6) (off : BitVec 14) : BitVec 32 := op ++ cond ++ a ++ off
def sl (op : BitVec 8) (d : BitVec 6) (imm : BitVec 18) : BitVec 32 := op ++ d ++ imm
def sm (op : BitVec 8) (d a : BitVec 6) (size : BitVec 2) (off : BitVec 10) : BitVec 32 := op ++ d ++ a ++ size ++ off

/-- Each word decodes to the instruction beside it. -/
def reads (ws : List (BitVec 32 × Instr)) : Bool := ws.all fun x => decodeTableWord 32 x.1.toNat == some x.2

/-- R232: 0x00-0x13, sd 5, sa 6, sb 7. -/
theorem test_words_alu : reads [(sa 0x00 5 6 7 0, .sadd 5 6 7), (sa 0x01 5 6 7 0, .ssub 5 6 7), (sa 0x02 5 6 7 0, .smul 5 6 7),
    (sa 0x03 5 6 7 0, .smulh 5 6 7), (sa 0x04 5 6 7 0, .smulhu 5 6 7), (sa 0x05 5 6 7 0, .sdiv 5 6 7), (sa 0x06 5 6 7 0, .sdivu 5 6 7),
    (sa 0x07 5 6 7 0, .srem 5 6 7), (sa 0x08 5 6 7 0, .sremu 5 6 7), (sa 0x09 5 6 7 0, .sand 5 6 7), (sa 0x0A 5 6 7 0, .sor 5 6 7),
    (sa 0x0B 5 6 7 0, .sxor 5 6 7), (sa 0x0C 5 6 7 0, .sandn 5 6 7), (sa 0x0D 5 6 7 0, .sshl 5 6 7), (sa 0x0E 5 6 7 0, .sshr 5 6 7),
    (sa 0x0F 5 6 7 0, .ssra 5 6 7), (sa 0x10 5 6 7 0, .smin 5 6 7), (sa 0x11 5 6 7 0, .sminu 5 6 7), (sa 0x12 5 6 7 0, .smax 5 6 7),
    (sa 0x13 5 6 7 0, .smaxu 5 6 7)] = true := by decide

/-- R232: 0x14-0x20; the position of a bit field stands in sb and its length less 1 in fn, and the condition of ssel in fn. -/
theorem test_words_bits : reads [(sa 0x14 5 6 0 0, .sclz 5 6), (sa 0x15 5 6 0 0, .sctz 5 6), (sa 0x16 5 6 0 0, .spopc 5 6), (sa 0x17 5 6 0 0, .sbrev 5 6),
    (sa 0x18 5 6 40 23, .sbfx 5 6 40 23), (sa 0x19 5 6 0 63, .sbfi 5 6 0 63), (sa 0x1A 5 6 7 0, .sseq 5 6 7), (sa 0x1B 5 6 7 0, .ssne 5 6 7),
    (sa 0x1C 5 6 7 0, .sslt 5 6 7), (sa 0x1D 5 6 7 0, .ssltu 5 6 7), (sa 0x1E 5 6 7 0, .ssle 5 6 7), (sa 0x1F 5 6 7 0, .ssleu 5 6 7),
    (sa 0x20 5 6 7 8, .ssel 5 6 7 8)] = true := by decide

/-- R230, R232: the immediates, and the constants of slimm.k. -/
theorem test_words_immediates : reads [(si 0x40 5 5 0xFFF, .saddi 5 5 0xFFF), (si 0x41 5 6 0x801, .sandi 5 6 0x801), (si 0x42 5 6 7, .sori 5 6 7),
    (si 0x43 5 6 7, .sxori 5 6 7), (si 0x44 5 6 63, .sshli 5 6 63), (si 0x45 5 6 1, .sshri 5 6 1), (si 0x46 5 6 2, .ssrai 5 6 2),
    (si 0x47 5 6 7, .sslti 5 6 7), (si 0x48 5 6 0xFFF, .ssltiu 5 6 0xFFF), (sl 0x4C 5 0x3FFFF, .slimm0 5 0x3FFFF), (sl 0x4D 5 1, .slimm1 5 1),
    (sl 0x4E 5 2, .slimm2 5 2), (sl 0x4F 5 0x3FF, .slimm3 5 0x3FF)] = true := by decide

/-- R232, R233: branches, with every condition, and jumps; the example of R234. -/
theorem test_words_branches : reads [(sj 0x60 0 6 0x1FFF, .sbCond .z 6 0x1FFF), (0x60117FFD, .sbCond .nz 5 0x3FFD), (sj 0x60 2 6 1, .sbCond .lz 6 1),
    (sj 0x60 3 6 1, .sbCond .gez 6 1), (sj 0x60 4 6 1, .sbCond .lez 6 1), (sj 0x60 5 6 0x2000, .sbCond .gz 6 0x2000), (sj 0x61 0 0 9, .sj 9),
    (sj 0x62 0 6 9, .sjal 6 9), (sa 0x63 0 6 0 0, .sjr 6), (sa 0x64 5 6 0 0, .sjalr 5 6), (sa 0x68 5 6 0 0b001010, .ssplit 5 6 10),
    (sa 0x69 0 0 0 0b001111, .smerge 15)] = true := by decide

/-- R230-R232: scalar memory, with the ordering field ORDER 5:4, SCOPE 3:1, W64 0. -/
theorem test_words_memory : reads [(sm 0x80 5 6 0 0x3FF, .sld 5 6 .b 0x3FF), (sm 0x81 5 6 1 1, .sldu 5 6 .h 1), (sm 0x82 5 6 2 2, .sst 5 6 .w 2), (sm 0x82 5 6 3 2, .sst 5 6 .d 2),
    (sa 0x83 5 6 7 0b110011, .scas 5 6 7 ⟨.acqrel, .crs⟩ true), (sa 0x84 5 6 7 0b011000, .samoAdd 5 6 7 ⟨.acq, .dev⟩ false),
    (sa 0x85 5 6 7 0b000001, .samoAnd 5 6 7 ⟨.none, .phr⟩ true), (sa 0x86 5 6 7 0b100100, .samoOr 5 6 7 ⟨.rel, .clu⟩ false),
    (sa 0x87 5 6 7 0b010110, .samoXor 5 6 7 ⟨.acq, .die⟩ false), (sa 0x88 5 6 7 0b011011, .samoMin 5 6 7 ⟨.acq, .dom⟩ true),
    (sa 0x89 5 6 7 0b011100, .samoMax 5 6 7 ⟨.acq, .sys⟩ false), (sa 0x8A 5 6 7 0, .samoMinu 5 6 7 ⟨.none, .phr⟩ false),
    (sa 0x8B 5 6 7 0, .samoMaxu 5 6 7 ⟨.none, .phr⟩ false), (sa 0x8C 5 6 7 0, .samoSwap 5 6 7 ⟨.none, .phr⟩ false),
    (sa 0x8D 0 0 0 0b111100, .sfence ⟨.acqrel, .sys⟩), (si 0x8E 5 0 0x2D, .sget 5 0x2D), (si 0x8F 0 6 0x1C, .sset 0x1C 6),
    (sa 0x90 5 6 7 0, .fset 5 6 7 false), (sa 0x91 5 6 0 0, .fget 5 6), (sa 0x92 5 6 0 0, .ftest 5 6)] = true := by decide

/-- R232: the lane queue, gutters, copies. -/
theorem test_words_engines : reads [(si 0xA0 0 6 4, .slq0 6 4), (si 0xA1 5 6 4, .slq1 5 6 4), (si 0xA2 5 6 0xFFF, .slq2 5 6 0xFFF), (si 0xA3 5 6 4, .slq3 5 6 4),
    (si 0xA4 60 6 4, .slq4 60 6 4), (si 0xA5 0 0 0x801, .swaitf 0x801), (si 0xA6 0 6 0, .swaitp .ifv 6), (si 0xA6 0 6 1, .swaitp .ifl 6),
    (si 0xA6 0 6 2, .swaitp .ifp 6), (si 0xA6 0 6 3, .swaitp .iff 6), (si 0xA6 0 6 4, .swaitp .ifh 6), (si 0xA6 0 6 7, .swaitp .all 6), (si 0xA7 0 0 0, .slsync),
    (sa 0xA8 0 6 0 7, .gdef 7 6), (sa 0xA9 0 6 0 0b000101, .gadvP 5 6), (sa 0xA9 0 6 0 0b001101, .gadvC 5 6), (sa 0xAA 5 0 0 6, .gstat 5 6),
    (sa 0xAB 0 6 7 0, .cpcopy (.mem 6 7 0)), (sa 0xAB 0 0 7 0b011010, .cpcopy (.fromGutter 3 7)), (sa 0xAC 0 6 0 0b011100, .cpcrypt (.toGutter 6 3)),
    (sa 0xAD 5 0 0 0, .cpseal 5), (si 0xAE 0 0 256, .cpwait 256), (sa 0xAF 0 6 7 0, .cpresume (.mem 6 7 0)), (sa 0xB0 5 6 0 0, .cpcancel 5 6),
    (sa 0xB1 0 0 0 0, .mxtake), (sa 0xB2 5 6 0 0, .mxgive 5 6), (si 0xB3 0 6 0xFFF, .mxask 6 0xFFF)] = true := by decide

/-- R232: courses, nouns, combinators. -/
theorem test_words_nouns : reads [(sa 0xB4 5 6 0 0, .senrol 5 6), (sa 0xB5 5 0 0 0, .sleave 5), (sa 0xB6 0 0 0 0, .sbar), (sa 0xB7 0 0 0 0, .sclbar),
    (sa 0xB8 0 0 0 0, .slbar), (si 0xB9 5 0 14, .sgrow 5 14), (si 0xBA 5 0 1, .sshrink 5 1), (sa 0xC0 5 6 0 0, .nwake 5 6), (sa 0xC1 5 6 7 0, .nsignal 5 6 7),
    (sa 0xC2 5 6 7 0b000111, .ndeposit 5 6 7 3 true), (sa 0xC3 5 6 0 8, .njoin 5 8 6), (sa 0xC4 0 0 0 0, .nsleep), (sa 0xC5 0 6 0 0, .nexit 6),
    (sa 0xC6 5 6 0 0, .ntest 5 6), (sa 0xC8 5 6 7 8, .kseq 5 6 7 8), (sa 0xC9 5 6 7 8, .kpar 5 6 7 8), (sa 0xCA 5 6 7 8, .kpipe 5 6 7 8),
    (sa 0xCB 5 6 0 8, .kfarm 5 6 8), (sa 0xCC 5 6 7 8, .kloop 5 6 7 8), (sa 0xCD 5 6 7 1, .kapply 5 6 7 true)] = true := by decide

/-- R405, R428, with the examples given there. -/
theorem test_words_system : reads [(0xC828B300, .kseq 10 11 12 0), (0xCB28B00D, .kfarm 10 11 13), (0xCD20A000, .kapply 8 10 0 false), (0xCD20A001, .kapply 8 10 0 true),
    (0xD0146000, .kemit 5 6 0 false), (sa 0xCE 5 6 0 0, .kyield 5 6), (sa 0xCF 5 6 7 8, .kresume 5 8 6 7), (sa 0xD0 5 6 7 1, .kemit 5 6 7 true),
    (sa 0xD1 5 6 0 8, .ktake 5 8 6), (sa 0xD2 5 0 0 0, .kdone 5), (sa 0xD3 5 6 0 0, .kcancel 5 6), (si 0xE0 0 0 0x801, .strap 0x801),
    (si 0xE1 0 0 7, .sbrk 7), (sa 0xE2 0 0 0 0, .seret), (sa 0xE2 0 0 0 1, .seretSkip), (sa 0xE3 7 4 5 3, .tlbfill 7 4 5 3),
    (sa 0xE4 5 6 7 0b000101, .tlbinv 5 6 7 true .ctx), (sa 0xE4 5 6 7 0b000010, .tlbinv 5 6 7 false .all), (sa 0xE5 5 6 0 0b000100, .ntinv 5 6 true .one),
    (sa 0xE6 5 6 7 0b000001, .vtinv 5 6 7 false .ctx), (sa 0xE7 5 6 0 0, .skill 5 6)] = true := by decide

/-- R234: what decodes to no instruction, and a reserved encoding of each kind. -/
theorem test_words_refused : [0xFFFFFFFF#32, 0x21000000, 0x00000001, 0x14000040, 0x18146ABF, 0x44140040, 0x4F140400, 0x60604000, 0x61004000, 0x83146FCF, 0x8314618E,
    0x8D00000C, 0x8D000011, 0x90146002, 0xA0140000, 0xA2FC6000, 0xA6006005, 0xAB006006, 0xAE000101, 0xB914000F, 0xB9140000, 0xC7000000, 0xE2000002,
    0xF0000000].all (fun w => decodeTableWord 32 w.toNat == none) = true := by decide

/-- The 96 bits of R235: OPC, DIST, FSI, VD, VA, VB, VC, TYPE, MOD, IMM. -/
def lane (opc : BitVec 10) (dist fsi : BitVec 3) (vd va vb vc : BitVec 9) (ty : BitVec 4) (md : BitVec 8) (imm : BitVec 32) : BitVec 96 :=
  opc ++ dist ++ fsi ++ vd ++ va ++ vb ++ vc ++ ty ++ md ++ imm

def readsLane (ws : List (BitVec 96 × Instr)) : Bool := ws.all fun x => decodeTableWord 96 x.1.toNat == some x.2

/-- R235-R241: integer instructions. -/
theorem test_words_lane_alu_1 : readsLane [
    (lane 0x001 1 0 0x003 0x004 0x111 0x000 1 0x60 0x0, .vadd ⟨1, 0, .v 3, .v 4, .c 1, .v 0, .i16, .seta, 0x20, 0x0⟩),
    (lane 0x002 2 0 0x003 0x004 0x111 0x000 1 0x60 0x0, .vsub ⟨2, 0, .v 3, .v 4, .c 1, .v 0, .i16, .seta, 0x20, 0x0⟩),
    (lane 0x003 3 0 0x003 0x004 0x111 0x000 1 0x60 0x0, .vmul ⟨3, 0, .v 3, .v 4, .c 1, .v 0, .i16, .seta, 0x20, 0x0⟩),
    (lane 0x004 4 0 0x003 0x004 0x121 0x000 6 0x80 0xFFFFFFFF, .vmulh ⟨4, 0, .v 3, .v 4, .imm, .v 0, .u32, .setb, 0x00, 0xFFFFFFFF⟩),
    (lane 0x005 5 0 0x101 0x004 0x111 0x100 4 0x20 0x0, .vmad ⟨5, 0, .qOut, .v 4, .c 1, .qIn, .u8, .none, 0x20, 0x0⟩),
    (lane 0x006 6 0 0x003 0x004 0x121 0x000 6 0x80 0xFFFFFFFF, .vdiv ⟨6, 0, .v 3, .v 4, .imm, .v 0, .u32, .setb, 0x00, 0xFFFFFFFF⟩),
    (lane 0x007 7 0 0x003 0x004 0x121 0x000 6 0x80 0xFFFFFFFF, .vrem ⟨7, 0, .v 3, .v 4, .imm, .v 0, .u32, .setb, 0x00, 0xFFFFFFFF⟩),
    (lane 0x008 0 0 0x0FF 0x120 0x007 0x000 3 0x40 0x0, .vmin ⟨0, 0, .v 255, .laneid, .v 7, .v 0, .i64, .seta, 0x00, 0x0⟩),
    (lane 0x009 1 0 0x0FF 0x120 0x007 0x000 3 0x40 0x0, .vmax ⟨1, 0, .v 255, .laneid, .v 7, .v 0, .i64, .seta, 0x00, 0x0⟩),
    (lane 0x00A 2 0 0x003 0x004 0x000 0x000 2 0x20 0x0, .vabs ⟨2, 0, .v 3, .v 4, .v 0, .v 0, .i32, .none, 0x20, 0x0⟩),
    (lane 0x00B 3 0 0x0FF 0x120 0x007 0x000 3 0x40 0x0, .vand ⟨3, 0, .v 255, .laneid, .v 7, .v 0, .i64, .seta, 0x00, 0x0⟩),
    (lane 0x00C 4 0 0x0FF 0x120 0x007 0x000 3 0x40 0x0, .vor ⟨4, 0, .v 255, .laneid, .v 7, .v 0, .i64, .seta, 0x00, 0x0⟩),
    (lane 0x00D 5 0 0x0FF 0x120 0x007 0x000 3 0x40 0x0, .vxor ⟨5, 0, .v 255, .laneid, .v 7, .v 0, .i64, .seta, 0x00, 0x0⟩),
    (lane 0x00E 6 0 0x003 0x004 0x000 0x000 7 0x00 0x0, .vnot ⟨6, 0, .v 3, .v 4, .v 0, .v 0, .u64, .none, 0x00, 0x0⟩)] = true := by decide

/-- R235-R241: integer instructions. -/
theorem test_words_lane_alu_2 : readsLane [
    (lane 0x00F 7 0 0x003 0x004 0x005 0x000 0 0x20 0x0, .vshl ⟨7, 0, .v 3, .v 4, .v 5, .v 0, .i8, .none, 0x20, 0x0⟩),
    (lane 0x010 0 0 0x0FF 0x120 0x007 0x000 3 0x40 0x0, .vshr ⟨0, 0, .v 255, .laneid, .v 7, .v 0, .i64, .seta, 0x00, 0x0⟩),
    (lane 0x011 1 0 0x0FF 0x120 0x007 0x000 3 0x40 0x0, .vsra ⟨1, 0, .v 255, .laneid, .v 7, .v 0, .i64, .seta, 0x00, 0x0⟩),
    (lane 0x012 2 0 0x003 0x004 0x121 0x000 6 0x80 0xFFFFFFFF, .vrot ⟨2, 0, .v 3, .v 4, .imm, .v 0, .u32, .setb, 0x00, 0xFFFFFFFF⟩),
    (lane 0x013 3 0 0x003 0x004 0x000 0x000 6 0x00 0x0, .vclz ⟨3, 0, .v 3, .v 4, .v 0, .v 0, .u32, .none, 0x00, 0x0⟩),
    (lane 0x014 4 0 0x003 0x004 0x000 0x000 6 0x00 0x0, .vpopc ⟨4, 0, .v 3, .v 4, .v 0, .v 0, .u32, .none, 0x00, 0x0⟩),
    (lane 0x015 5 0 0x003 0x004 0x000 0x000 6 0x00 0x0, .vbrev ⟨5, 0, .v 3, .v 4, .v 0, .v 0, .u32, .none, 0x00, 0x0⟩),
    (lane 0x016 6 0 0x003 0x004 0x112 0x000 6 0x00 0x20, .vbfx ⟨6, 0, .v 3, .v 4, .c 2, .v 0, .u32, .none, 0x00, 0x20⟩),
    (lane 0x017 7 0 0x003 0x004 0x112 0x000 6 0x00 0x20, .vbfi ⟨7, 0, .v 3, .v 4, .c 2, .v 0, .u32, .none, 0x00, 0x20⟩),
    (lane 0x018 0 0 0x002 0x004 0x006 0x008 6 0x00 0x0, .vaddc ⟨0, 0, .v 2, .v 4, .v 6, .v 8, .u32, .none, 0x00, 0x0⟩),
    (lane 0x019 1 0 0x002 0x004 0x006 0x008 6 0x00 0x0, .vsubb ⟨1, 0, .v 2, .v 4, .v 6, .v 8, .u32, .none, 0x00, 0x0⟩),
    (lane 0x01A 2 0 0x149 0x004 0x005 0x000 2 0x05 0x0, .vcmp ⟨2, 0, .s 9, .v 4, .v 5, .v 0, .i32, .none, 0x05, 0x0⟩),
    (lane 0x01B 3 0 0x003 0x004 0x005 0x006 11 0x00 0x0, .vsel ⟨3, 0, .v 3, .v 4, .v 5, .v 6, .f64, .none, 0x00, 0x0⟩)] = true := by decide

/-- R235-R241: floating-point instructions. -/
theorem test_words_lane_float_1 : readsLane [
    (lane 0x101 1 0 0x003 0x004 0x005 0x000 10 0x2C 0x0, .vfadd ⟨1, 0, .v 3, .v 4, .v 5, .v 0, .f32, .none, 0x2C, 0x0⟩),
    (lane 0x102 2 0 0x003 0x004 0x005 0x000 10 0x2C 0x0, .vfsub ⟨2, 0, .v 3, .v 4, .v 5, .v 0, .f32, .none, 0x2C, 0x0⟩),
    (lane 0x103 3 0 0x003 0x004 0x005 0x000 10 0x2C 0x0, .vfmul ⟨3, 0, .v 3, .v 4, .v 5, .v 0, .f32, .none, 0x2C, 0x0⟩),
    (lane 0x104 4 0 0x003 0x004 0x005 0x006 9 0x10 0x0, .vfma ⟨4, 0, .v 3, .v 4, .v 5, .v 6, .bf16, .none, 0x10, 0x0⟩),
    (lane 0x105 5 0 0x003 0x004 0x005 0x000 8 0x00 0x0, .vfmin ⟨5, 0, .v 3, .v 4, .v 5, .v 0, .f16, .none, 0x00, 0x0⟩),
    (lane 0x106 6 0 0x003 0x004 0x005 0x000 8 0x00 0x0, .vfmax ⟨6, 0, .v 3, .v 4, .v 5, .v 0, .f16, .none, 0x00, 0x0⟩),
    (lane 0x107 7 0 0x003 0x004 0x005 0x000 10 0x2C 0x0, .vfdiv ⟨7, 0, .v 3, .v 4, .v 5, .v 0, .f32, .none, 0x2C, 0x0⟩),
    (lane 0x108 0 0 0x003 0x121 0x000 0x000 11 0x00 0x3FF00000, .vfsqrt ⟨0, 0, .v 3, .imm, .v 0, .v 0, .f64, .none, 0x00, 0x3FF00000⟩),
    (lane 0x109 1 0 0x003 0x121 0x000 0x000 11 0x00 0x3FF00000, .vfrcp ⟨1, 0, .v 3, .imm, .v 0, .v 0, .f64, .none, 0x00, 0x3FF00000⟩),
    (lane 0x10A 2 0 0x003 0x121 0x000 0x000 11 0x00 0x3FF00000, .vfrsq ⟨2, 0, .v 3, .imm, .v 0, .v 0, .f64, .none, 0x00, 0x3FF00000⟩),
    (lane 0x10B 3 0 0x003 0x121 0x000 0x000 11 0x00 0x3FF00000, .vfexp2 ⟨3, 0, .v 3, .imm, .v 0, .v 0, .f64, .none, 0x00, 0x3FF00000⟩),
    (lane 0x10C 4 0 0x003 0x121 0x000 0x000 11 0x00 0x3FF00000, .vflog2 ⟨4, 0, .v 3, .imm, .v 0, .v 0, .f64, .none, 0x00, 0x3FF00000⟩),
    (lane 0x10D 5 0 0x17F 0x004 0x005 0x000 10 0x07 0x0, .vfcmp ⟨5, 0, .s 63, .v 4, .v 5, .v 0, .f32, .none, 0x07, 0x0⟩),
    (lane 0x10E 6 0 0x003 0x004 0x000 0x000 10 0x00 0x0, .vfclass ⟨6, 0, .v 3, .v 4, .v 0, .v 0, .f32, .none, 0x00, 0x0⟩)] = true := by decide

/-- R235-R241: floating-point instructions. -/
theorem test_words_lane_float_2 : readsLane [
    (lane 0x10F 7 0 0x003 0x004 0x000 0x000 10 0x08 0x0, .vfrnd ⟨7, 0, .v 3, .v 4, .v 0, .v 0, .f32, .none, 0x08, 0x0⟩)] = true := by decide

/-- R235-R241: conversions, cross-lane instructions, moves. -/
theorem test_words_lane_conv_cross_1 : readsLane [
    (lane 0x200 0 0 0x003 0x004 0x000 0x000 2 0x24 0xA, .vcvt ⟨0, 0, .v 3, .v 4, .v 0, .v 0, .i32, .none, 0x24, 0xA⟩),
    (lane 0x201 1 5 0x003 0x004 0x000 0x000 12 0x00 0x8, .vcvtmx ⟨1, 5, .v 3, .v 4, .v 0, .v 0, .slot, .none, 0x00, 0x8⟩),
    (lane 0x202 2 0 0x003 0x004 0x000 0x000 5 0x00 0x1, .vpack ⟨2, 0, .v 3, .v 4, .v 0, .v 0, .u16, .none, 0x00, 0x1⟩),
    (lane 0x203 3 0 0x003 0x004 0x000 0x000 5 0x00 0x1, .vunpack ⟨3, 0, .v 3, .v 4, .v 0, .v 0, .u16, .none, 0x00, 0x1⟩),
    (lane 0x280 0 0 0x003 0x004 0x121 0x000 2 0x00 0x11, .vshuf ⟨0, 0, .v 3, .v 4, .imm, .v 0, .i32, .none, 0x00, 0x11⟩),
    (lane 0x281 1 0 0x003 0x004 0x000 0x000 2 0x03 0x1F, .vshufx ⟨1, 0, .v 3, .v 4, .v 0, .v 0, .i32, .none, 0x03, 0x1F⟩),
    (lane 0x282 2 0 0x003 0x004 0x000 0x000 2 0x00 0x1F, .vbcast ⟨2, 0, .v 3, .v 4, .v 0, .v 0, .i32, .none, 0x00, 0x1F⟩),
    (lane 0x283 3 0 0x141 0x004 0x000 0x000 6 0x00 0x0, .vballot ⟨3, 0, .s 1, .v 4, .v 0, .v 0, .u32, .none, 0x00, 0x0⟩),
    (lane 0x284 4 0 0x141 0x004 0x000 0x000 6 0x00 0x0, .vany ⟨4, 0, .s 1, .v 4, .v 0, .v 0, .u32, .none, 0x00, 0x0⟩),
    (lane 0x285 5 0 0x141 0x004 0x000 0x000 6 0x00 0x0, .vall ⟨5, 0, .s 1, .v 4, .v 0, .v 0, .u32, .none, 0x00, 0x0⟩),
    (lane 0x286 6 0 0x003 0x004 0x000 0x000 7 0x0D 0x0, .vscan ⟨6, 0, .v 3, .v 4, .v 0, .v 0, .u64, .none, 0x0D, 0x0⟩),
    (lane 0x287 7 0 0x140 0x004 0x000 0x000 11 0x02 0x0, .vred ⟨7, 0, .s 0, .v 4, .v 0, .v 0, .f64, .none, 0x02, 0x0⟩),
    (lane 0x288 0 0 0x145 0x004 0x000 0x000 3 0x01 0x0, .vtos ⟨0, 0, .s 5, .v 4, .v 0, .v 0, .i64, .none, 0x01, 0x0⟩),
    (lane 0x289 1 0 0x003 0x113 0x000 0x000 2 0x02 0x0, .vfroms ⟨1, 0, .v 3, .c 3, .v 0, .v 0, .i32, .none, 0x02, 0x0⟩)] = true := by decide

/-- R235-R241: conversions, cross-lane instructions, moves. -/
theorem test_words_lane_conv_cross_2 : readsLane [
    (lane 0x290 0 0 0x003 0x100 0x000 0x000 8 0x00 0x0, .vmov ⟨0, 0, .v 3, .qIn, .v 0, .v 0, .f16, .none, 0x00, 0x0⟩),
    (lane 0x291 1 0 0x003 0x000 0x000 0x000 8 0x00 0xFFFF, .vmovi ⟨1, 0, .v 3, .v 0, .v 0, .v 0, .f16, .none, 0x00, 0xFFFF⟩)] = true := by decide

/-- R235-R241: lane memory, the fabric, vsysc and vexit. -/
theorem test_words_lane_memory_fabric : readsLane [
    (lane 0x300 0 0 0x003 0x110 0x002 0x000 2 0x18 0xA00010, .vld ⟨0, 0, .v 3, .c 0, .v 2, .v 0, .i32, .none, 0x18, 0xA00010⟩),
    (lane 0x301 1 0 0x000 0x004 0x000 0x005 4 0x28 0xFFFFF, .vst ⟨1, 0, .v 0, .v 4, .v 0, .v 5, .u8, .none, 0x28, 0xFFFFF⟩),
    (lane 0x302 2 0 0x003 0x110 0x111 0x000 2 0x00 0x10, .vlds ⟨2, 0, .v 3, .c 0, .c 1, .v 0, .i32, .none, 0x00, 0x10⟩),
    (lane 0x303 3 0 0x000 0x110 0x111 0x005 2 0x2A 0x10, .vsts ⟨3, 0, .v 0, .c 0, .c 1, .v 5, .i32, .none, 0x2A, 0x10⟩),
    (lane 0x304 4 0 0x003 0x004 0x000 0x005 6 0x38 0xA000000, .vatom ⟨4, 0, .v 3, .v 4, .v 0, .v 5, .u32, .none, 0x38, 0xA000000⟩),
    (lane 0x305 5 0 0x003 0x004 0x000 0x005 3 0x00 0x0, .vcas ⟨5, 0, .v 3, .v 4, .v 0, .v 5, .i64, .none, 0x00, 0x0⟩),
    (lane 0x306 6 0 0x000 0x000 0x000 0x000 0 0x3C 0x0, .vfence ⟨6, 0, .v 0, .v 0, .v 0, .v 0, .i8, .none, 0x3C, 0x0⟩),
    (lane 0x307 7 0 0x000 0x110 0x000 0x000 0 0x00 0x40, .vpref ⟨7, 0, .v 0, .c 0, .v 0, .v 0, .i8, .none, 0x00, 0x40⟩),
    (lane 0x308 0 0 0x003 0x110 0x004 0x006 2 0x1A 0x12, .vrma ⟨0, 0, .v 3, .c 0, .v 4, .v 6, .i32, .none, 0x1A, 0x12⟩),
    (lane 0x309 1 0 0x144 0x110 0x111 0x006 7 0x2B 0x240, .vmcast ⟨1, 0, .s 4, .c 0, .c 1, .v 6, .u64, .none, 0x2B, 0x240⟩),
    (lane 0x30A 2 0 0x002 0x004 0x006 0x008 0 0x00 0x3ABCD, .vsysc ⟨2, 0, .v 2, .v 4, .v 6, .v 8, .i8, .none, 0x00, 0x3ABCD⟩),
    (lane 0x30B 3 0 0x000 0x000 0x000 0x000 0 0x00 0x0, .vexit ⟨3, 0, .v 0, .v 0, .v 0, .v 0, .i8, .none, 0x00, 0x0⟩)] = true := by decide

/-- R235-R241: the matrix engine and gutters. -/
theorem test_words_lane_matrix_gutter : readsLane [
    (lane 0x380 0 3 0x000 0x000 0x000 0x000 12 0x00 0xA70, .mxlds ⟨0, 3, .v 0, .v 0, .v 0, .v 0, .slot, .none, 0x00, 0xA70⟩),
    (lane 0x381 1 0 0x000 0x000 0x000 0x000 0 0x00 0x0, .mxswap ⟨1, 0, .v 0, .v 0, .v 0, .v 0, .i8, .none, 0x00, 0x0⟩),
    (lane 0x382 2 7 0x000 0x000 0x000 0x000 12 0x00 0x73, .mxmma ⟨2, 7, .v 0, .v 0, .v 0, .v 0, .slot, .none, 0x00, 0x73⟩),
    (lane 0x383 3 7 0x000 0x000 0x000 0x000 12 0x00 0x73, .mxcmma ⟨3, 7, .v 0, .v 0, .v 0, .v 0, .slot, .none, 0x00, 0x73⟩),
    (lane 0x384 4 0 0x000 0x000 0x000 0x000 0 0x00 0x7, .mxzero ⟨4, 0, .v 0, .v 0, .v 0, .v 0, .i8, .none, 0x00, 0x7⟩),
    (lane 0x385 5 1 0x003 0x000 0x000 0x000 12 0x00 0x10C40005, .mxrd ⟨5, 1, .v 3, .v 0, .v 0, .v 0, .slot, .none, 0x00, 0x10C40005⟩),
    (lane 0x386 6 0 0x000 0x004 0x000 0x000 11 0x00 0xF0002, .mxwr ⟨6, 0, .v 0, .v 4, .v 0, .v 0, .f64, .none, 0x00, 0xF0002⟩),
    (lane 0x387 7 2 0x000 0x000 0x000 0x000 12 0x00 0xFC00072, .mxout ⟨7, 2, .v 0, .v 0, .v 0, .v 0, .slot, .none, 0x00, 0xFC00072⟩),
    (lane 0x3C0 0 0 0x000 0x000 0x004 0x005 2 0x00 0x7, .vgwr ⟨0, 0, .v 0, .v 0, .v 4, .v 5, .i32, .none, 0x00, 0x7⟩),
    (lane 0x3C1 1 0 0x003 0x000 0x004 0x000 2 0x00 0x12346, .vgrd ⟨1, 0, .v 3, .v 0, .v 4, .v 0, .i32, .none, 0x00, 0x12346⟩)] = true := by decide

/-- R235, R238, R239, R240: reserved opcodes, operand codes, types and flag bindings decode to no instruction. -/
theorem test_words_lane_refused : [lane 0x000 0 0 0 0 0 0 2 0 0, lane 0x01C 0 0 0 0 0 0 2 0 0, lane 0x3E0 0 0 0 0 0 0 2 0 0, lane 0x001 0 0 0x102 4 5 0 2 0 0,
    lane 0x001 0 0 3 0x114 5 0 2 0 0, lane 0x001 0 0 3 4 0x122 0 2 0 0, lane 0x001 0 0 3 4 5 6 2 0 0, lane 0x001 0 0 3 4 5 0 0xD 0 0, lane 0x001 0 0 3 4 5 0 0xA 0 0,
    lane 0x001 0 0 3 4 5 0 2 0xC0 0, lane 0x001 0 0 3 4 5 0 2 0x01 0, lane 0x001 0 0 3 4 5 0 2 0 1, lane 0x001 0 1 3 4 5 0 2 0 0, lane 0x001 0 0 0x143 4 5 0 2 0 0].all
    (fun w => decodeTableWord 96 w.toNat == none) = true := by decide

/-- R237: a header that waits for f0 and f11, sets f3 and f9, and has 15 instructions; and reserved flags, a zero LEN and nonzero bits. -/
theorem test_words_header : decodeHeader ((0 : BitVec 10) ++ (0 : BitVec 6) ++ 0x801#12 ++ 3#4 ++ 9#4 ++ 15#4 ++ (0 : BitVec 56)) =
      some ⟨0x801, some 3, some 9, 15⟩ ∧
    decodeHeader ((0 : BitVec 16) ++ 0#12 ++ 15#4 ++ 15#4 ++ 1#4 ++ (0 : BitVec 56)) = some ⟨0, none, none, 1⟩ ∧
    [(0 : BitVec 16) ++ 0#12 ++ 12#4 ++ 15#4 ++ 1#4 ++ (0 : BitVec 56), (0 : BitVec 16) ++ 0#12 ++ 15#4 ++ 15#4 ++ 0#4 ++ (0 : BitVec 56),
     (0 : BitVec 16) ++ 0#12 ++ 3#4 ++ 3#4 ++ 1#4 ++ (0 : BitVec 56), (1 : BitVec 16) ++ 0#12 ++ 3#4 ++ 4#4 ++ 1#4 ++ (0 : BitVec 56)].all
      (fun w => decodeHeader w == none) = true := by decide

/-! ### States that meet the hypotheses of the claims -/

/-- A module with one context, phrase and fragment, at 0x1000. -/
def b0 : State := State.reset.seed 32 0
/-- With register `x` holding `v`. -/
def rg (x : SReg) (v : Word) (s : State) : State := s.updMe fun f => f.setReg x v
def phr (g : Phrase → Phrase) (s : State) : State := s.updPhr 0 g
def frg (g : Frag → Frag) (s : State) : State := s.updFrag 0 g
/-- In a privileged context. -/
def bp : State := b0.updCtx 0 fun c => { c with ctxw := 0x8000000000000000 }
/-- The fragment is core 0's walker. -/
def bw : State := { b0 with cur := walkerKey 0, frags := tput (walkerKey 0) { live := true, phrase := walkerPhrase 0, slot := some 15 } b0.frags }

theorem witness_ConstantBuilds : (1 : SReg) ≠ 0 := by decide

theorem witness_BitFormResults : (63#6).toNat + (0#6).toNat + 1 ≤ 64 ∧ (0#6).toNat + (63#6).toNat + 1 ≤ 64 := by decide

theorem witness_Division : ((b0.r 2 = 0 → b0.myPhr.trapen.getLsbD 6 = false) ∧ b0.r 2 = 0) ∧ (rg 2 5 b0).r 2 ≠ 0 ∧
    let s := phr (fun p => { p with trapen := 0x40 }) b0
    s.r 2 = 0 ∧ s.myPhr.trapen.getLsbD 6 = true ∧ s.mayTrap s.cur := ⟨by decide, by decide, by decide, by decide, by decide, by decide⟩

theorem witness_Jumps : (rg 1 0x2000 b0).r 1 = 0x2000 ∧ (0x2000 : Word).toNat % 4 = 0 ∧ ((rg 1 0x2002 b0).r 1).toNat % 4 ≠ 0 ∧
    (rg 1 0x2002 b0).mayTrap 0 ∧ ¬((b0.r 1).toInt ≠ 0) ∧ (b0.r 1).toInt ≤ 0 ∧ ((rg 1 (-1) b0).r 1).toInt < 0 ∧ 0 < ((rg 1 1 b0).r 1).toInt :=
  ⟨by decide, by decide, by decide, ⟨by decide, by decide⟩, by decide, by decide, by decide, by decide⟩

theorem witness_SpecialReads : (((0x2C : BitVec 6) = 0x2C ∨ (0x2C : BitVec 6) = 0x2D) → bp.priv bp.cur = true) ∧ bp.priv bp.cur = true ∧
    (((0x0A : BitVec 6) = 0x2C ∨ (0x0A : BitVec 6) = 0x2D) → b0.priv b0.cur = true) := ⟨by decide, by decide, by decide⟩

theorem witness_SpecialRegisterRules : bp.priv bp.cur = true ∧ b0.mayTrap b0.cur ∧ b0.priv b0.cur = false ∧ (0x28 : BitVec 6).toNat = 0x28 ∧
    (0x2E : BitVec 6).toNat = 0x2E ∧ 0x0C ≤ (0x0F : BitVec 6).toNat ∧ (0x0F : BitVec 6).toNat ≤ 0x0F := ⟨by decide, ⟨by decide, by decide⟩, by decide, by decide, by decide, by decide⟩

theorem witness_ClauseEnqueue : (b0.r 1 + 16 * (0xFFF : BitVec 12).signExtend 64).toNat % 16 = 0 ∧ b0.me.queue.length < 32 ∧
    ((rg 1 8 b0).r 1 + 16 * (1 : BitVec 12).signExtend 64).toNat % 16 ≠ 0 ∧ (rg 1 8 b0).mayTrap 0 ∧
    (frg (fun f => { f with queue := List.replicate 31 {} }) b0).me.queue.length < 32 :=
  ⟨by decide, by decide, by decide, ⟨by decide, by decide⟩, by decide⟩

def laneAcc1 : Access :=
  { id := 1, frag := 0, scalar := false, pc := 0x1000, kind := .load, bytes := 4, ty := .i32, signed := true, order := ⟨.none, .phr⟩, dest := .lane 1 .i32, flag := some 3,
    lanes := [{ lane := 0, addr := 0x1000, parts := [⟨0x1000, 4, 0, 1⟩] }] }
/-- A lane load outstanding on the vault path, bound to f3. -/
def bl : State := frg (fun f => { f with opens := [⟨1, 1, 0⟩] }) { b0 with accs := [laneAcc1], nextId := 2 }

theorem witness_LaneWaits : (∀ n, n < 12 → b0.flagSet 0 n = false) ∧ b0.me.queue = [] ∧ (∀ p, p < 5 → b0.me.pathCount p = 0) ∧
    bl.flagSet 0 3 = true ∧ bl.me.pathCount 0 = 1 ∧ ¬(bl.me.pathCount 0 ≤ (bl.r 1).toNat) := by decide

theorem witness_SplitDivides : b0.me.tl = 0 ∧ b0.me.exec &&& ((b0.r 1).setWidth 32) = 0 ∧ b0.me.exec &&& ((rg 1 0xFFFF b0).r 1).setWidth 32 ≠ 0 ∧
    b0.me.exec &&& ~~~(((rg 1 0xFFFF b0).r 1).setWidth 32) ≠ 0 ∧ b0.myPhr.asides < 31 ∧ fragKey 0 (b0.newFragNum 0) ≠ b0.cur ∧
    (phr (fun p => { p with asides := 31 }) b0).myPhr.asides ≥ 31 := by decide

/-- Fragment 1 is an aside of fragment 0 with stop mark 2, and issues. -/
def ba : State :=
  let s := phr (fun p => { p with asides := 1 }) (b0.updFrag 1 fun _ => { seedScalar with num := 1, parent := 0, mark := 2, slot := some 1 })
  { s with cur := 1 }

theorem witness_MergeJoins : b0.me.tl = 0 ∧ ¬(b0.me.num ≠ 0 ∧ b0.me.mark = 2) ∧ tget 0 b0.me.outCnt 2 = 0 ∧ b0.me.wait = .none ∧
    tget 0 (frg (fun f => { f with outCnt := [(2, 1)] }) b0).me.outCnt 2 ≠ 0 ∧ ba.me.tl = 0 ∧ ba.me.num ≠ 0 ∧ ba.me.mark = 2 ∧ ba.asideDone ba.cur = true ∧
    fragKey (phraseOf ba.cur) ba.me.parent ≠ ba.cur := by decide

def isBad : Checked → Bool
  | .bad _ _ _ => true
  | _ => false
theorem notBad {x : Checked} (h : isBad x = false) : ∀ c sub off, x ≠ .bad c sub off := by rintro c sub off rfl; cases h
theorem accessible_one {s : State} {kind : AccKind} {n : Nat} {x : Word} (h1 : s.accessRoom s.cur kind n [x.toNat] = true)
    (h2 : isBad (s.checkLane s.cur kind n x.toNat) = false) : s.accessible kind n [x] :=
  ⟨h1, fun y hy => by rw [List.mem_singleton.1 hy]; exact notBad h2⟩

theorem witness_ScalarAccessIssue : b0.accessible .load 8 [0x1010] ∧ b0.accessible .store 1 [0x1FFF] ∧ b0.accessible (.amo .add true) 4 [0x1FFC] ∧
    b0.accessible (.fset false) 8 [0x1010] := ⟨accessible_one (by decide) (by decide), accessible_one (by decide) (by decide),
  accessible_one (by decide) (by decide), accessible_one (by decide) (by decide)⟩

theorem witness_AddressFaults : b0.mayTrap 0 ∧ 2 ^ 56 ≤ ((rg 1 0x100000000000000 b0).r 1 + (0 : BitVec 10).signExtend 64).toNat ∧
    (rg 1 0x100000000000000 b0).accessRoom 0 .load 1 [0x100000000000000] = true ∧ ((rg 1 0x1FFA b0).r 1).toNat < 2 ^ 56 ∧ ((rg 1 0x1FFA b0).r 1).toNat % 4 ≠ 0 ∧
    ((rg 1 0x1FFA b0).r 1).toNat % 4096 ≤ 4092 ∧ (rg 1 0x1FFA b0).accessRoom 0 (.amo .add true) 4 [0x1FFA] = true := ⟨⟨by decide, by decide⟩, by decide⟩

/-- A scalar access outstanding, all in vault memory. -/
def acc (kind : AccKind) (bytes len : Nat) (dest : Dest) (data : Word) : Access :=
  { id := 1, frag := 0, scalar := true, pc := 0x1000, kind := kind, bytes := bytes, ty := .u64, signed := false, order := ⟨.none, .phr⟩, dest := dest,
    lanes := [{ lane := 0, addr := 0x1010, data := data, parts := [⟨0x1010, len, 0, 0⟩] }] }
def ofAcc (a : Access) : State := { b0 with accs := [a], nextId := 2 }

theorem performable_of {s : State} {a : Access} {l : LaneAcc} (h : s.findAcc a.id = some a ∧ a.scalar = true ∧ a.lanes = [l] ∧ s.mayPerform a = true ∧
    s.laneReady a l = true ∧ (∀ p ∈ l.parts, p.path ≤ 1) ∧ s.poison = [] ∧ (s.frag a.frag).ready = []) : Performable s a l :=
  ⟨h.1, h.2.1, h.2.2.1, h.2.2.2.1, h.2.2.2.2.1, h.2.2.2.2.2.1, h.2.2.2.2.2.2.1, h.2.2.2.2.2.2.2⟩
def lane1 (a : Access) : LaneAcc := a.lanes.headD { lane := 0, addr := 0 }

theorem witness_ScalarLoadCompletes :
    let a := acc .load 8 8 (.scalar 5) 0
    Performable (ofAcc a) a (lane1 a) ∧ a.kind = .load ∧ a.dest = .scalar 5 ∧
      ((lane1 a).parts.flatMap fun p => readBytes (ofAcc a).mem p.key p.len).length = a.bytes := ⟨performable_of (by decide), by decide⟩

theorem witness_ScalarStoreCompletes :
    let a := acc .store 4 4 .none 0x123456789A
    Performable (ofAcc a) a (lane1 a) ∧ a.kind = .store ∧ Memory.wf (ofAcc a).mem ∧ (lane1 a).parts.Pairwise (fun p q => ¬piecesMeet p q) ∧
      ((lane1 a).parts.map (·.len)).sum = a.bytes := ⟨performable_of (by decide), by decide⟩

theorem witness_ScalarAtomicCompletes :
    let a := acc (.amo .add true) 8 8 (.scalar 5) 7
    Performable (ofAcc a) a (lane1 a) ∧ a.signed = false ∧ a.dest = .scalar 5 ∧ (lane1 a).parts = [⟨0x1010, 8, 0, 0⟩] ∧ a.bytes = 8 ∧ Memory.wf (ofAcc a).mem :=
  ⟨performable_of (by decide), by decide⟩

/-- With the STATE word of the cell at 0x1010. -/
def cell (st : Nat) (s : State) : State := s.updMem (writeNat 0x1018 4 st)

theorem witness_FutureActions :
    let a := acc .ftest 8 16 (.scalar 5) 0
    let b := acc (.fset false) 8 16 (.scalar 5) 7
    let c := acc .fget 8 16 (.scalar 5) 0
    (Performable (ofAcc a) a (lane1 a) ∧ readNat (ofAcc a).mem 0x1018 4 ≤ 2 ∧ Performable (ofAcc b) b (lane1 b) ∧ readNat (ofAcc b).mem 0x1018 4 = 0 ∧
      Performable (cell 2 (ofAcc b)) b (lane1 b) ∧ readNat (cell 2 (ofAcc b)).mem 0x1018 4 = 2 ∧ Performable (cell 1 (ofAcc b)) b (lane1 b) ∧
      readNat (cell 1 (ofAcc b)).mem 0x1018 4 = 1 ∧ Performable (cell 1 (ofAcc c)) c (lane1 c) ∧ readNat (cell 1 (ofAcc c)).mem 0x1018 4 = 1) ∧
    (lane1 a).parts = [⟨0x1010, 16, 0, 0⟩] ∧ Memory.wf (cell 2 (ofAcc b)).mem ∧ (∀ w ∈ (ofAcc b).waiters, w.cell ≠ 0x1010) :=
  ⟨⟨performable_of (by decide), by decide, performable_of (by decide), by decide, performable_of (by decide), by decide,
    performable_of (by decide), by decide, performable_of (by decide), by decide⟩, by decide⟩

/-- Fragment 1 waits in an fget at the cell at 0x1010, and fragment 0 sets it. -/
def bWait : State :=
  let a := { acc .fget 8 16 (.scalar 9) 0 with id := 2, frag := 1 }
  let s : State := b0.updFrag 1 fun _ => { seedScalar with num := 1, slot := some 1, wait := .future 2 }
  { s with accs := [a, acc (.fset false) 8 16 (.scalar 5) 7], waiters := [⟨0x1010, 2⟩], nextId := 3 }

theorem witness_FutureWaiters :
    (b0.accessRoom b0.cur .fget 16 [(b0.r 0).toNat + 0x1010] = true ∧ (∀ c sub off, b0.checkLane b0.cur .fget 16 0x1010 ≠ .bad c sub off)) ∧
    (let a := acc .fget 8 16 (.scalar 9) 0
     Performable (ofAcc a) a (lane1 a) ∧ readNat (ofAcc a).mem 0x1018 4 ≠ 1 ∧ readNat (ofAcc a).mem 0x1018 4 ≤ 2) ∧
    let a := acc (.fset false) 8 16 (.scalar 5) 7
    let b := { acc .fget 8 16 (.scalar 9) 0 with id := 2, frag := 1 }
    Performable bWait a (lane1 a) ∧ Memory.wf bWait.mem ∧ (bWait.waiters.find? fun x => x.cell == 0x1010) = some ⟨0x1010, 2⟩ ∧
      bWait.findAcc 2 = some b ∧ b.dest = .scalar 9 ∧ b.frag ≠ a.frag ∧ (2 : Nat) ≠ a.id ∧ (bWait.frag b.frag).wait = .future b.id ∧
      readNat bWait.mem 0x1018 4 = 0 := ⟨⟨by decide, notBad (by decide)⟩, ⟨performable_of (by decide), by decide⟩, performable_of (by decide), by decide⟩

theorem witness_ScalarFence : (∀ o ∈ bl.laneOps, o.id < bl.nextId) ∧
    (∃ b ∈ bl.accs, b.frag = bl.cur ∧ b.id < bl.nextId ∧ fenceHolds ⟨.rel, .dev⟩ b = true ∧ b.kind ≠ .fget ∧ b.pending = true ∧ b.unordered = false) := by decide

theorem witness_TrapsAndFreezes : b0.mayTrap b0.cur ∧ isWalkerKey b0.cur = false ∧ b0.dbgOn b0.myCtx = false ∧
    (b0.updPart 0 fun p => { p with dbgen := true }).dbgOn (b0.updPart 0 fun p => { p with dbgen := true }).myCtx = true := ⟨⟨by decide, by decide⟩, by decide⟩

/-- In a handler at level 1, with the resume address `pc` and the set-aside image `i`. -/
def bt (pc : Word) (i : Image) : State := frg (fun f => { f with tl := 1, bank1 := { epc := pc }, img1 := i }) b0

theorem witness_Returns : (bt 0x2000 {}).me.tl = 1 ∧ (bt 0x2000 {}).me.queue = [] ∧ (bt 0x2000 {}).me.ready = [] ∧ (bt 0x2000 {}).me.wait = .none ∧
    (bt 0x2000 {}).me.bank1.epc.toNat % 4 = 0 ∧ (bt 0x2000 {}).me.img1.held = [] ∧ (bt 0x2000 {}).me.img1.kind = .scalar ∧
    (bt 0x2000 { kind := .held }).me.img1.kind = .held ∧
    ((bt 0x2000 { kind := .laneRun, redo := some {} }).me.img1.kind = .laneRun ∧ (bt 0x2000 { kind := .laneRun, redo := some {} }).me.img1.redo = some {}) ∧
    ((bt 0x2000 { kind := .laneIssue, redo := some {} }).me.img1.kind = .laneIssue ∧ (bt 0x2000 { kind := .laneIssue, redo := some {} }).me.img1.redo = some {}) ∧
    (bt 0x2000 { kind := .laneStart }).me.img1.kind = .laneStart ∧
    b0.me.wait = .none ∧ b0.me.tl = 0 ∧ (bt 0x2002 {}).me.bank1.epc.toNat % 4 ≠ 0 ∧
    (frg (fun f => { f with queue := [{}] }) (bt 0x2000 {})).me.queue ≠ [] ∧
    (frg (fun f => { f with tl := 2, bank2 := { epc := 0x2000 } }) b0).me.tl = 2 := by decide

theorem witness_TrapRoundTrip : b0.mayTrap b0.cur ∧ isWalkerKey b0.cur = false ∧ b0.me.ready = [] ∧ b0.me.pc.toNat % 4 = 0 ∧ b0.me.exec &&& b0.myPhr.live = b0.me.exec ∧
    (frg (fun f => { f with tl := 1 }) b0).mayTrap 0 := ⟨⟨by decide, by decide⟩, by decide, by decide, by decide, by decide, by decide, by decide⟩

theorem witness_PrivilegeFaults : b0.mayTrap b0.cur ∧ isWalkerKey b0.cur = false ∧ b0.priv b0.cur = false ∧ (((rg 1 9 b0).r 1).extractLsb' 0 20).toNat ≠ b0.myCtx :=
  ⟨⟨by decide, by decide⟩, by decide⟩

/-- R436: the record of the worked example, the store with tag 3, in the walker of core 0. -/
def bFill (leaf size : Word) : State :=
  rg 5 size (rg 4 leaf (bw.updCore 0 fun c => { c with misses := [⟨1, 3, 1, 0x123456789ABC, 1, false, 0, 0, 0, 0, true⟩] }))

theorem witness_WalkerFills : isWalkerKey bw.cur = true ∧ ((bw.core bw.myCore).misses.find? fun m => m.tag == 3) = none ∧
    (let s := bFill 0x23A00017B 1
     (s.core s.myCore).misses.find? (fun m => m.tag == 3) = some ⟨1, 3, 1, 0x123456789ABC, 1, false, 0, 0, 0, 0, true⟩ ∧ (s.r 5).toNat ≤ 2 ∧
       leafRefused (s.r 4) (s.r 5).toNat = false ∧ s.accs = []) ∧
    4 ≤ ((bFill 0 4).r 5).toNat ∧ ((bFill 0 0).r 4).getLsbD 0 = false ∧ ((bFill 0 2).r 5).toNat ≤ 2 := by decide

/-- R436: with SIZE 1 the fill is done, with SIZE 2 it is refused. -/
theorem test_tlbfill_example : (match exec (.tlbfill 7 4 5 3) (bFill 0x23A00017B 1) with
      | .next t => t.r 7 == 0 && (t.core 0).misses.isEmpty && (t.core 0).tlb.any fun e => e.vpn * 0x1000 == 0x123456600000 && e.frame == 0x23A000000
      | _ => false) = true ∧
    (match exec (.tlbfill 7 4 5 3) (bFill 0x23A00017B 2) with | .next t => t.r 7 == 2 && (t.core 0).misses.length == 1 | _ => false) = true := by decide

theorem witness_InvalidationsBegin : bp.priv bp.cur = true := by decide

theorem witness_SkillStatuses : bp.priv bp.cur = true ∧ 2 ^ 20 ≤ ((rg 1 0x100000 bp).r 1).toNat ∧ ((rg 1 0xFFFFF bp).r 1).toNat < 2 ^ 20 ∧
    (((rg 1 0xABCDE00000 b0).r 1).extractLsb' 0 20).toNat = b0.myCtx ∧ tfind (rg 1 0xFFFFF bp).contexts 0xFFFFF = none ∧ ((tfind (bp.updCtx 7 fun c => { c with killed := true }).contexts 7).map fun x => x.killed) = some true ∧
    ((tfind (bp.updCtx 7 fun c => { c with resident := true }).contexts 7).map fun x => x.killed) = some false ∧ (7 : Nat) ≠ bp.myCtx ∧
    (∀ a ∈ bp.accs, bp.ctxOf a.frag ≠ 7) ∧ (∀ c ∈ bp.cores, c.2.engine.ops = []) ∧
    (let s : State := { rg 1 7 (bp.updCtx 7 fun c => { c with resident := true }) with applied := [(3, { noun := 0, ctx := 7, part := 0, lq := 0, packet := ⟨0, 1, 32, 0, false, false, false, 0, 0, [], 0, 0, 0⟩, record := 0, stamp := 0, pos := 0, queued := true })] }
     (s.inst 3).map (·.ctx) = some 7 ∧ (s.r 1).toNat = 7 ∧ (tfind s.contexts 7).map (·.killed) = some false) := by decide

/-- Gutter 2 declared with 8 entries of 128 bytes, three of them present, both pointers owned by the lanes. -/
def gut : Gutter := { desc := 0x0000087300000000, prod := 3 }
def bg : State := b0.putGutter 0 2 gut

theorem witness_Gutters : b0.gdefWaits 2 = false ∧ gutValid gut.desc = true ∧ bg.gutter bg.myCore 2 = some gut ∧ bg.me.queue = [] ∧
    (1 : Word).toNat ≤ 2 ^ (gut.desc.extractLsb' 32 4).toNat ∧ gut.desc.extractLsb' 54 2 = 0 ∧ gut.desc.extractLsb' 52 2 = 0 ∧ bg.relWaits bg.cur .phr = false ∧
    (gut.prod - gut.cons).toNat + (5 : Word).toNat ≤ 2 ^ (gut.desc.extractLsb' 32 4).toNat ∧ (3 : Word).toNat ≤ (gut.prod - gut.cons).toNat ∧
    (gut.prod - gut.cons).toNat < (4 : Word).toNat ∧ (b0.mayTrap b0.cur ∧ gutValid (b0.r 1) = false ∧ b0.gutter b0.myCore 2 = none) ∧
    2 ^ (gut.desc.extractLsb' 32 4).toNat < (9 : Word).toNat ∧ (0x0040087300000000 : Word).extractLsb' 54 2 ≠ 0 ∧ (0x0010087300000000 : Word).extractLsb' 52 2 ≠ 0 ∧
    gutValid 0x0040087300000000 = true ∧ gutValid 0x0010087300000000 = true := by
  refine ⟨by decide, by decide, by decide, by decide, by decide, by decide, by decide, by decide, by decide, by decide, by decide,
    ⟨⟨by decide, by decide⟩, by decide⟩, by decide⟩

theorem witness_CopiesIssue : b0.isProducer (phraseOf b0.cur) = true ∧ b0.mayTrap b0.cur ∧ (0xFFFF000005FFC0 % 64 = 0 ∧ (0xFFFF0000000000 : Nat) ≤ 0xFFFF000005FFC0 ∧
      (0xFFFF000005FFC0 : Nat) < 0xFFFF0000060000) ∧ b0.myPhr.opened.length < 255 ∧
    (phr (fun p => { p with course := some 0, rank := 1 }) b0).isProducer 0 = false := ⟨by decide, ⟨by decide, by decide⟩, by decide⟩

/-- A copy of 256 bytes from 0x1100 to 0x1200: its records at scratch 0 and 64 (R207). -/
def copy1 (st : CopySt) : CopyOp :=
  { id := 1, who := b0.asker 0, frag := 0, phrase := 0, core := 0, crypt := false, ops := .mem 1 2 0, src := some 0xFFFF0000000000, dst := some 0xFFFF0000000040, st := st }
def bc (st : CopySt) : State :=
  let rec' (o base : Nat) (m : Mem) : Mem := writeNat (scratchKey 0 o) 8 base (writeNat (scratchKey 0 (o + 24)) 2 256 (writeNat (scratchKey 0 (o + 39)) 1 1 (writeNat (scratchKey 0 (o + 40)) 4 4 m)))
  { rg 1 0xFFFF0000000000 (rg 2 0xFFFF0000000040 (b0.updMem fun m => rec' 0 0x1100 (rec' 64 0x1200 m))) with copies := [copy1 st], nextId := 2 }

theorem witness_CopyBatches : b0.isProducer (phraseOf b0.cur) = true ∧ b0.myPhr.sealed.length < 256 ∧ b0.myPhr.sealed.length ≤ (0 : BitVec 12).toNat ∧
    (phr (fun p => { p with sealed := [⟨0, [1], false⟩] }) b0).myPhr.sealed.length > (0 : BitVec 12).toNat ∧
    256 ≤ (phr (fun p => { p with sealed := List.replicate 256 ⟨0, [1], false⟩ }) b0).myPhr.sealed.length ∧
    (∀ b ∈ b0.myPhr.sealed, b.num = (b0.r 3).setWidth 16 → b0.batchDone b = true) ∧
    (let s := phr (fun p => { p with sealed := [⟨0, [1], false⟩] }) (bc .running)
     (s.myPhr.sealed.find? fun b => b.num == (s.r 3).setWidth 16 && !s.batchDone b) = some ⟨0, [1], false⟩) ∧
    (let s := (bc .stopped).updMem (writeNat (scratchKey 0 124) 1 3)
     s.resumable (.mem 1 2 0) = some (copy1 .stopped)) := by decide +kernel

/-- It runs, with its records read. -/
def copy1Run : CopyOp := match (bc .queued).copyPlan (copy1 .queued) with
  | .inl pl => { copy1 .running with lsrc := pl.src, ldst := pl.dst }
  | .inr _ => copy1 .running
def bcRun (dst : Nat) : State :=
  let c := { copy1Run with ldst := copy1Run.ldst.map fun l => { l with base := dst } }
  { bc .queued with copies := [c] }
def runCopy (s : State) : CopyOp := s.copies.headD (copy1 .queued)
def held1 : CopyFault := ⟨1, 0, { cause := .copy, mask := 0, data := 0, kind := .held }⟩

theorem witness_CopyEngine :
    (((bc .queued).copies.find? fun x => x.id == 1) = some (copy1 .queued) ∧ (bc .queued).copyFirable 0 = some (copy1 .queued) ∧
      ((bc .queued).copyPlan (copy1 .queued)).isLeft = true ∧ (((bc .queued).updMem (writeByte (scratchKey 0 39) 6)).copyPlan (copy1 .queued)).isRight = true ∧
      (tfind (bc .queued).phrases 0).isSome = true ∧ (∀ a ∈ (copy1 .queued).records, (bc .queued).poisoned (recordKey (copy1 .queued) a) 64 = false) ∧
      ((copy1 .queued).records.find? fun a => ({ bc .queued with poison := [scratchKey 0 0] } : State).poisoned (recordKey (copy1 .queued) a) 64) =
        some 0xFFFF0000000000) ∧
    (∀ dst ∈ [0x1200, 0x5000], let s := bcRun dst; let c := runCopy s
      (s.copies.find? fun x => x.id == c.id) = some c ∧ c.ready = true ∧ c.crypt = false ∧ c.wait = .idle ∧ (tfind s.phrases c.phrase).isSome = true) ∧
    (let s := bcRun 0x1200
     let c := runCopy s
     let p := s.runningPlan c
     let parts := copyParts c p c.prog
     let outs := parts.map fun x => s.checkPart c x
     128 * (c.prog + 1) < p.len ∧ outs.filterMap PartOut.misses = [] ∧ outs.filterMap PartOut.asks = [] ∧ (s.respondParts c (parts.zip outs)).1 ++ s.ringFails c p c.prog = []) ∧
    (let s := bcRun 0x3FFFFFFFFFFFFFF
     let c := runCopy s
     let p := s.runningPlan c
     let parts := copyParts c p c.prog
     let outs := parts.map fun x => s.checkPart c x
     128 * c.prog < p.len ∧ outs.filterMap PartOut.misses = [] ∧ outs.filterMap PartOut.asks = [] ∧
       (worstPart ((s.respondParts c (parts.zip outs)).1 ++ s.ringFails c p c.prog)).isSome = true) ∧
    (let s := phr (fun p => { p with cfaults := [held1] }) b0
     s.copyFaultOf 0 = some held1 ∧ (s.frag 0).tl.toNat < 2 ∧ (s.frag 0).wait = .none) := by decide +kernel

/-- Phrase 0 in the course 5 of instance 0 with the members given. -/
def bco (ms : List (Nat × Nat)) (place : Nat) : State :=
  let s := phr (fun p => { p with course := some 5 }) (b0.updPhr 1 fun _ => { seedPhrase with course := some 5, rank := 1 })
  { s with courses := [{ inst := 0, num := 5, place := place, members := ms, prank := 0 }] }

/-- A course of 1024 members. -/
def bigCourse : State := { phr (fun p => { p with course := none }) b0 with courses := [{ inst := 0, num := 5, place := 0, members := (List.range 1024).map fun i => (i, i + 5), prank := 0 }] }
theorem witness_CourseMembership_refused :
    (bigCourse.myPhr.course = none ∧ ((bigCourse.courses.find? fun c => c.inst == bigCourse.myPhr.inst && c.num == 5).map fun c => decide (1024 ≤ c.members.length + c.absent.length)) = some true) ∧
    (let s := phr (fun p => { p with course := none }) (bco [(0, 7)] 1)
     s.myPhr.course = none ∧ ((s.courses.find? fun c => c.inst == s.myPhr.inst && c.num == 5).map fun c => decide (c.members.length + c.absent.length < 1024 ∧ c.place ≠ 0)) = some true) ∧
    (b0.courses.find? fun c => c.inst == b0.myPhr.inst && c.num == 0xFFFFFFFF) = none ∧ (bco [(0, 0), (1, 1)] 1).courseOf 0 = some ⟨0, 5, 1, none, [(0, 0), (1, 1)], 0, [], [], []⟩ := by
  refine ⟨⟨by decide, by decide +kernel⟩, by decide⟩
theorem witness_CourseMembership : b0.myPhr.asides = 0 ∧ (bco [(0, 0)] 0).myPhr.course.isSome = true ∧ b0.myPhr.course = none ∧
    (b0.courses.find? fun c => c.inst == b0.myPhr.inst && c.num == 5) = none ∧
    (let s := phr (fun p => { p with course := none }) (bco [(0, 7), (2, 8)] 0)
     s.myPhr.course = none ∧ (s.courses.find? fun c => c.inst == s.myPhr.inst && c.num == 5) = some ⟨0, 5, 0, none, [(0, 7), (2, 8)], 0, [], [], []⟩ ∧
       (∀ m ∈ [(0, 7), (2, 8)], m.1 ≠ 1) ∧ ∀ q, q < 1 → ∃ m ∈ [(0, 7), (2, 8)], m.1 = q) ∧
    (let c : Course := ⟨0, 5, 0, none, [(0, 7), (2, 8)], 0, [], [], [1]⟩
     c.members.length + c.absent.length < 1024 ∧ (∀ m ∈ c.members, m.1 ≠ 3) ∧ 3 ∉ c.absent ∧ ∀ q, q < 3 → (∃ m ∈ c.members, m.1 = q) ∨ q ∈ c.absent) ∧
    (bco [(0, 0)] 0).courseOf 0 = some ⟨0, 5, 0, none, [(0, 0)], 0, [], [], []⟩ ∧ (bco [(0, 0)] 0).myPhr.asides = 0 := by decide

/-- Phrase 1 has come to both barriers of the course, and waits at barrier `kind`; phrase 0 is the last to come. -/
def atBar (kind : Nat) : State :=
  let s := (bco [(0, 0), (1, 1)] 1).updFrag 32 fun _ => { seedScalar with phrase := 1, slot := some 1, wait := .barrier kind }
  { s with courses := [{ inst := 0, num := 5, place := 1, members := [(0, 0), (1, 1)], prank := 0, sbar := [1], sclbar := [1] }] }
/-- The auxiliary waits at slbar, and its main comes. -/
def atLbar : State :=
  let s := phr (fun p => { p with mate := some 1 }) (b0.updPhr 1 fun _ => { seedPhrase with mate := some 0, isAux := true, lbar := true })
  s.updFrag 32 fun _ => { seedScalar with phrase := 1, slot := some 1, wait := .barrier 2 }
theorem witness_Barriers_released :
    (∀ kind ∈ [0, 1], let s := atBar kind
      let c : Course := { inst := 0, num := 5, place := 1, members := [(0, 0), (1, 1)], prank := 0, sbar := [1], sclbar := [1] }
      s.me.queue = [] ∧ s.relWaits s.cur .crs = false ∧ s.myPhr.ended = [] ∧ s.fragsOf 0 = [s.cur] ∧ s.myPhr.asides = 0 ∧ s.courseOf 0 = some c ∧ c.place = 1 ∧ c.absent = [] ∧
        c.members ≠ [] ∧ 0 ∉ c.arrived kind ∧ s.myPhr.gone = false ∧ (∀ m ∈ c.members, m.2 = 0 ∨ m.2 ∈ c.arrived kind ∨ (s.phr m.2).gone = true) ∧
        1 ∈ c.arrived kind ∧ s.fragsOf 1 = [32] ∧ (s.frag 32).wait = .barrier kind) ∧
    (let s := atLbar
     s.me.queue = [] ∧ s.relWaits s.cur .crs = false ∧ s.myPhr.ended = [] ∧ s.fragsOf 0 = [s.cur] ∧ s.myPhr.mate = some 1 ∧ s.myPhr.lbar = false ∧ (s.phr 1).lbar = true ∧
       (tfind s.phrases 0).isSome = true ∧ s.mateAlive 0 = true ∧ s.fragsOf 1 = [32] ∧ (s.frag 32).wait = .barrier 2) ∧
    (let s := atLbar.updFrag 32 fun f => { f with wait := .passed 2 }
     (s.frags.find? fun e => e.1 == 32).map (fun e => e.2.wait) = some (.passed 2) ∧ (s.frag 32).wait = .passed 2) := by decide

theorem witness_Barriers : (∀ s ∈ [b0, bco [(0, 0), (1, 1)] 1, bco [(0, 0)] 0], s.myPhr.asides = 0 ∧ s.me.queue = [] ∧ s.relWaits s.cur .crs = false ∧ s.myPhr.ended = []) ∧
    b0.courseOf 0 = none ∧
    (let s := bco [(0, 0), (1, 1)] 1
     s.courseOf 0 = some ⟨0, 5, 1, none, [(0, 0), (1, 1)], 0, [], [], []⟩ ∧ (s.phr 1).gone = false) ∧
    (let s : State := { bco [(0, 0)] 1 with courses := [{ inst := 0, num := 5, place := 1, members := [(0, 0)], prank := 0, absent := [1] }] }
     ((s.courseOf 0).map fun c => (c.absent, c.place)) = some ([1], 1) ∧ s.myPhr.asides = 0 ∧ s.me.queue = []) ∧
    (let s := phr (fun p => { p with mate := some 1 }) (b0.updPhr 1 fun _ => { seedPhrase with mate := some 0, isAux := true })
     s.myPhr.mate = some 1 ∧ s.myPhr.lbar = false ∧ (s.phr 1).lbar = false ∧ s.mateAlive 0 = true ∧ s.myPhr.asides = 0 ∧ s.me.queue = [] ∧ s.myPhr.ended = []) ∧
    (let s := bco [(0, 0)] 0
     s.courseOf 0 = some ⟨0, 5, 0, none, [(0, 0)], 0, [], [], []⟩ ∧ s.fragsOf (phraseOf s.cur) = [s.cur] ∧ s.me.live = true) := by decide

theorem witness_LaneRegisterSizes : (b0.me.queue = [] ∧ (∀ f, f < 12 → b0.flagSet b0.cur f = false) ∧ b0.myPhr.asides = 0) ∧ b0.myPhr.regs = 64 ∧ b0.regsUsed 0 = 64 ∧
    256 < 64 + 16 * (13 : BitVec 12).toNat ∧ 64 + 16 * (12 : BitVec 12).toNat ≤ 256 ∧ b0.mateAlive 0 = false ∧ 64 < 32 + 16 * (3 : BitVec 12).toNat ∧
    32 + 16 * (2 : BitVec 12).toNat ≤ 64 ∧
    (let s := (List.range 8).foldl (fun (s : State) n => s.updPhr (n + 1) fun _ => { seedPhrase with regs := 248 }) b0
     2048 < s.regsUsed s.myPhr.core + 16 * (1 : BitVec 12).toNat ∧ s.myPhr.regs + 16 * (1 : BitVec 12).toNat ≤ 256) := by decide

/-! ### Lane states -/

/-- A started clause with one lane instruction; its mask, and v0 to v3 in lanes 0 and 1. -/
def ln (mask : Mask) : State := frg (fun f => { f with queue := f.queue.map fun c => { c with mask := mask } }) (State.reset.seed 96 0)
def vr (r l : Nat) (x : Half) (s : State) : State := phr (fun p => { p with lanes := tput (32 * r + l) x p.lanes }) s
/-- v1 is -7, 100 and v2 is 2, 0 in lanes 0 and 1. -/
def lnd : State := vr 1 0 (-7) (vr 1 1 100 (vr 2 0 2 (ln 3)))
def f3 : LaneFields := ⟨0, 0, .v 3, .v 1, .v 2, .v 0, .i32, .none, 0, 0⟩
def trapping (t : BitVec 32) (s : State) : State := frg (fun f => { f with queue := f.queue.map fun c => { c with trapen := t } }) s

/-- R61: -7 / 2 is -3 with the remainder -1, and 100 / 0 clamps, its remainder the dividend (TRAPEN.DIVZ clear). -/
theorem test_vdiv_example : (match exec (.vdiv f3) lnd with
      | .next t => t.results.map (fun r => r.writes) == [[(96, (-3 : Half)), (97, 0x7FFFFFFF)]] | _ => false) = true ∧
    (match exec (.vrem f3) lnd with | .next t => t.results.map (fun r => r.writes) == [[(96, (-1 : Half)), (97, 100)]] | _ => false) = true := by decide

theorem witness_LaneIntegers : ({ f3 with imm := 32 } : LaneFields).imm.toNat ≤ 32 ∧ ({ f3 with imm := 0 } : LaneFields).imm.toNat ≤ 32 ∧ f3.vd = .v 3 := by decide

theorem witness_LaneDivisions : lnd.clause.trapen.getLsbD 6 = false ∧ (trapping 0x40 lnd).clause.trapen.getLsbD 6 = true ∧
    ((lanesOf (trapping 0x40 lnd).lmask).filter fun l => decide (numOf f3.ty ((trapping 0x40 lnd).srcB f3 l) = 0)) = [1] ∧
    ((lanesOf (trapping 0x40 (ln 0)).lmask).filter fun l => decide (numOf f3.ty ((trapping 0x40 (ln 0)).srcB f3 l) = 0)) = [] := by decide

theorem witness_LaneCrossings : lanesOf (ln 3).lmask ≠ [] ∧ lanesOf (ln 0).lmask = [] ∧ (0#6).toNat % 4 = 0 ∧ (1#6).toNat % 4 = 1 ∧ (2#6).toNat % 4 = 2 ∧ (3#6).toNat % 4 = 3 ∧
    (∃ d, ({ f3 with vd := .s 9 } : LaneFields).vd = .s d) ∧ f3.vd = .v 3 := by refine ⟨by decide, by decide, by decide, by decide, by decide, by decide, ⟨9, rfl⟩, rfl⟩

theorem witness_LaneFloats : (ln 3).clause.trapen = 0 ∧ isScalarDst f3 = false ∧ f3.vd = .v 3 ∧ (∀ r ∈ (ln 3).results, r.id < (ln 3).nextId) ∧
    fmtF32.top = .ieee ∧ fmtF16.top = .ieee ∧ (Val.nan true).isNan = true := by decide

def res1 : LaneRes := { id := 1, frag := 0, due := 10, writes := [(96, 5), (97, 6)], scalar := some (9, 7), status := 1 }
theorem witness_LaneResultsWritten : let s : State := { ln 3 with results := [res1], nextId := 2 }
    (s.results.find? fun x => x.id == res1.id) = some res1 ∧ res1.fault = none ∧ res1.ring = none ∧ (s.frag res1.frag).ready = [] ∧
      (s.frag res1.frag).live = true ∧ (res1.writes.map (·.1)).Nodup := by decide

theorem witness_LaneAccessIssue : lanesOf (ln 0x80000001).lmask = [0, 31] ∧ (ln 0x80000001).accessRoom 0 .load 8 [0x1000, 0x1010] = true ∧ lanesOf (ln 0).lmask = [] := by decide

def lacc0 : Access :=
  { id := 1, frag := 0, scalar := false, pc := 0x1000, kind := .store, bytes := 4, ty := .i32, signed := true, order := ⟨.none, .phr⟩, dest := .none, lanes := [] }
theorem witness_RemoteAccessIssue : lanesOf (ln 3).lmask ≠ [] ∧ (ln 3).roomFor 0 2 = true ∧ (ln 3).roomFor 0 64 = true ∧ lanesOf (ln 0).lmask = [] ∧ (ln 3).clause.members = none ∧ (ln 3).listPending f3 = false ∧
    (let s : State := { ln 3 with accs := [{ lacc0 with lanes := [{ lane := 0, addr := 0, st := .walk }] }] }
     s.listPending f3 = true) ∧
    (let s := frg (fun f => { f with queue := f.queue.map fun c => { c with c0 := 0xFFFF000005FF00 } }) (ln 3)
     let list := s.src { f3 with va := .c 0 } (.c 0) 64 0
     list % 4 = 0 ∧ 0xFFFF0000000000 ≤ list ∧ list + 4 * 64 ≤ 0xFFFF0000060000 ∧
       ∀ i, i < 64 → s.poisoned (scratchKey s.myCore (list - 0xFFFF0000000000) + 4 * i) 4 = false) := by decide

theorem witness_LaneControls : (∀ o ∈ (ln 3).laneOps, o.id < (ln 3).nextId) ∧ (ln 3).prefRoom { f3 with ty := .i8 } = true ∧
    popsRing f3 = false ∧ pushesRing f3 = false ∧ (ln 3).syscs = [] := by decide

/-- With a system-call ring of 16 entries at 0x100000. -/
def lsys : State := (ln 3).updCtx 0 fun c => { c with scbase := 0x100000, misc := 0x400 }
theorem witness_SystemCallPosts : Memory.wf lsys.mem ∧ lsys.lmask ≠ 0 ∧ lsys.ringFull lsys.myCtx = false := by decide

def gutF (desc : Word) (prod : BitVec 16) : State := (ln 3).putGutter 0 2 { desc := desc, prod := prod }
theorem witness_GutterTransfers : let f : LaneFields := { f3 with vb := .v 0, imm := 2 }
    Memory.wf (gutF gut.desc 3).mem ∧ (gutF gut.desc 3).gutter 0 2 = some gut ∧ (0 : Nat) < 2 ^ 3 - (gut.prod - gut.cons).toNat ∧
      (0 : Nat) < (gut.prod - gut.cons).toNat ∧ (2 ^ 3 - (gut.prod - gut.cons).toNat ≤ ({ f with imm := 0x52 } : LaneFields).imm.toNat / 16) ∧
      (gutF gut.desc 3).atOnce 0 false true ((lanesOf (ln 3).lmask).map fun l => ⟨scratchKey 0 (gut.entry gut.prod 0) + l * 4, 4, 0, 2⟩) = true ∧
      (gutF gut.desc 3).atOnce 0 false false ((lanesOf (ln 3).lmask).map fun l => ⟨scratchKey 0 (gut.entry gut.cons 0) + l * 4, 4, 0, 2⟩) = true ∧
      (∀ l ∈ lanesOf (ln 3).lmask, (l * 4) % 4 = 0 ∧ l * 4 + 4 ≤ 2 ^ 7) ∧
      (∀ l ∈ lanesOf (ln 3).lmask, ∀ m ∈ lanesOf (ln 3).lmask, l ≠ m → l * 4 + 4 ≤ m * 4 ∨ m * 4 + 4 ≤ l * 4) := by decide

/-- A lane access in lanes 0 and 1, in vault memory. -/
def lacc (kind : AccKind) (bytes : Nat) (dest : Dest) (ls : List Nat) : Access :=
  { id := 1, frag := 0, scalar := false, pc := 0x1000, kind := kind, bytes := bytes, ty := .i32, signed := true, order := ⟨.none, .phr⟩, dest := dest,
    lanes := ls.map fun l => { lane := l, addr := 0x1010 + wordOf (bytes * l), parts := [⟨0x1010 + bytes * l, bytes, 0, 0⟩] } }
theorem lanesReady_of {s : State} {a : Access} (h : s.findAcc a.id = some a ∧ a.scalar = false ∧ a.kind.isFabric = false ∧ s.mayPerform a = true ∧
    (∀ l ∈ a.lanes, s.laneReady a l = true) ∧ (∀ l ∈ a.lanes, l.lane < 32) ∧ (a.lanes.map (·.lane)).Nodup ∧ (∀ l ∈ a.lanes, ∀ p ∈ l.parts, p.path ≤ 1) ∧
    s.poison = [] ∧ (s.frag a.frag).ready = []) : LanesReady s a :=
  ⟨h.1, h.2.1, h.2.2.1, h.2.2.2.1, h.2.2.2.2.1, h.2.2.2.2.2.1, h.2.2.2.2.2.2.1, h.2.2.2.2.2.2.2.1, h.2.2.2.2.2.2.2.2.1, h.2.2.2.2.2.2.2.2.2⟩
def ofLacc (a : Access) : State := { ln 3 with accs := [a], nextId := 2 }

theorem witness_LaneAccessesComplete :
    (let a := lacc .load 4 (.lane 3 .i32) [0, 31]
     LanesReady (ofLacc a) a ∧ ∀ l ∈ a.lanes, (l.parts.map (·.len)).sum = a.bytes) ∧
    (let a := lacc .load 8 (.lane 4 .i64) [0, 31]
     LanesReady (ofLacc a) a ∧ ∀ l ∈ a.lanes, (l.parts.map (·.len)).sum = a.bytes) ∧
    (let a := lacc .store 4 .none [0, 31]
     LanesReady (ofLacc a) a ∧ Memory.wf (ofLacc a).mem ∧ (a.lanes.flatMap (·.parts)).Pairwise (fun x y => ¬piecesMeet x y) ∧
       ∀ l ∈ a.lanes, (l.parts.map (·.len)).sum = a.bytes) ∧
    let a := lacc (.amo .add true) 4 (.lane 3 .i32) [5]
    LanesReady (ofLacc a) a ∧ Memory.wf (ofLacc a).mem :=
  ⟨⟨lanesReady_of (by decide), by decide⟩, ⟨lanesReady_of (by decide), by decide⟩, ⟨lanesReady_of (by decide), by decide⟩, lanesReady_of (by decide), by decide⟩

/-! ### The matrix engine -/

/-- The phrase holds the token, slot 0 is f32, gutters 2 and 3 feed and take entries of 1024 bytes (R351). -/
def mx : State :=
  let s := phr (fun p => { p with fsl := 0xA :: p.fsl.tail }) ((ln 3).updCore 0 fun c => { c with engine := { token := some 0, idesc0 := some ⟨.s, 10, 8, 32, false, false⟩, lastCtx := some 0 } })
  (s.putGutter 0 2 { desc := 0x002008A200000000, prod := 1 }).putGutter 0 3 { desc := 0x008008A200001000 }
def fm : LaneFields := { lf with ty := .slot, imm := 0x20 }
def fo : LaneFields := { lf with ty := .slot, imm := 0x01C00030 }

theorem witness_MatrixIssue : mx.holdsToken (phraseOf mx.cur) = true ∧ gutValid 0x002008A200000000 = true ∧ gutValid 0x008008A200001000 = true ∧
    mx.gutter 0 2 = some { desc := 0x002008A200000000, prod := 1 } ∧ (0x002008A200000000 : Word).extractLsb' 52 2 = 2 ∧
    ((0x002008A200000000 : Word).extractLsb' 43 9).toNat * 2 ^ ((0x002008A200000000 : Word).extractLsb' 36 4).toNat = lenB (mx.slotDesc fm) (ldsDesc fm (mx.slotDesc fm)) ∧
    (mx.core 0).engine.issueDesc = some ⟨.s, 10, 8, 32, false, false⟩ ∧ matrixClass (slotEtype (mx.slotDesc fm)) = some .s ∧ lenA (mx.slotDesc fm) 8 = 1024 ∧
    mx.myPhr.grants = 0 ∧ 0 < (phr (fun p => { p with grants := 1 }) mx).myPhr.grants ∧ (0x008008A200001000 : Word).extractLsb' 54 2 = 2 ∧
    lenOut (mx.slotDesc fo) ((fo.imm.extractLsb' 22 5).toNat + 1) = 1024 := by decide

theorem calm_of {s : State} (h : s.me.tl = 0 ∧ s.me.ready = [] ∧ s.me.live = true ∧ s.me.stopped = false ∧ s.me.wait = .none ∧ (s.core s.myCore).frozen = false ∧
    (∀ a ∈ s.accs, a.frag ≠ s.cur) ∧ (∀ a ∈ s.results, a.frag ≠ s.cur) ∧ ∀ o ∈ s.laneOps, o.frag ≠ s.cur) : s.laneCalm :=
  ⟨h.1, h.2.1, h.2.2.1, h.2.2.2.1, h.2.2.2.2.1, h.2.2.2.2.2.1, h.2.2.2.2.2.2.1, h.2.2.2.2.2.2.2.1, h.2.2.2.2.2.2.2.2⟩
def awake (s : State) : State := frg (fun f => { f with wait := .none }) s

theorem witness_MatrixChecks : (awake mx).laneCalm ∧ (awake (ln 3)).laneCalm ∧ (awake mx).holdsToken 0 = true ∧ (awake (ln 3)).holdsToken 0 = false ∧
    (awake mx).gutter 0 1 = none ∧ (0x008008A200001000 : Word).extractLsb' 52 2 ≠ 2 ∧ (0x002008A200000000 : Word).extractLsb' 54 2 ≠ 2 ∧
    (awake (mx.updEngine 0 fun e => { e with idesc0 := none })).laneCalm ∧ ((mx.updEngine 0 fun e => { e with idesc0 := none }).core 0).engine.issueDesc = none ∧
    (awake (mx.updEngine 0 fun e => { e with idesc0 := some ⟨.h, 8, 32, 32, false, false⟩ })).laneCalm ∧ matrixClass (slotEtype (mx.slotDesc fm)) ≠ some .h ∧
    lenB 0xB (ldsDesc fm 0xB) = 1024 ∧ 2048 = lenB 0x8 (ldsDesc fm 0x8) :=
  ⟨calm_of (by decide), calm_of (by decide), by decide, by decide, by decide, by decide, by decide, calm_of (by decide), by decide, calm_of (by decide), by decide⟩

def op1 (act : MxAct) (fired : Bool) : MxOp := { id := 1, frag := 0, phrase := 0, mask := 3, act := act, fired := fired, grant := true }
def mxOps (os : List MxOp) : State := mx.updEngine 0 fun e => { e with ops := os, desc0 := some ⟨.s, 10, 8, 32, false, false⟩ }
def desc1 : PlaneDesc := ⟨.s, 10, 8, 32, false, false⟩

theorem witness_MatrixFires :
    (∀ act ∈ [MxAct.lds 2 0xA desc1, .mma 2 0 0xA false, .out 3 0 0 8 0 0xA, .zero 1], let o := op1 act false
      let e : MxOp := { op1 .swap true with id := 7 }
      ((mxOps [o]).core 0).engine.ops = [] ++ o :: [] ∧ o.fired = false ∧ o.grant = true ∧
      ((mxOps [{ e with act := .rd 5 0 1 0 0xA 3 }, o]).core 0).engine.ops = [{ e with act := .rd 5 0 1 0 0xA 3 }] ++ o :: [] ∧
      (mxOps [o]).inputPending 0 o { e with act := .rd 5 0 1 0 0xA 3 } = false ∧ (mxOps [o]).mxPresent o = true ∧ (mxOps [o]).inputPoisoned 0 act = none ∧
      ((mxOps [o]).core 0).frozen = false ∧ (((mxOps [o]).updCore 0 fun c => { c with frozen := true }).core 0).frozen = true) ∧
    (MxAct.lds 2 0xA desc1).waitsFor (.rd 5 0 1 0 0xA 3) = false ∧ (MxAct.mma 2 0 0xA false).waitsFor (.rd 5 0 1 0 0xA 3) = false ∧
    (MxAct.lds 2 0xA desc1).unit = 0 ∧ (MxAct.mma 2 0 0xA false).unit = 1 ∧ (MxAct.out 3 0 0 8 0 0xA).unit = 2 ∧ (MxAct.zero 1).gutter = none ∧
    (mxOps []).gutter 0 2 = some { desc := 0x002008A200000000, prod := 1 } ∧ ((0x002008A200000000 : Word).extractLsb' 43 9).toNat ≤ 1 ∧
    (mxOps []).gutter 0 3 = some { desc := 0x008008A200001000 } ∧ ((0x008008A200001000 : Word).extractLsb' 43 9).toNat ≤ 2 ^ 2 - 0 := by decide

/-- A product runs, a clear of its tile waits for it, and a load behind both may go first (R520). -/
def mxBehind : State :=
  (mxOps [op1 (.mma 2 0 0xA false) true, { op1 (.zero 0) false with id := 2 }, { op1 (.lds 4 0xA desc1) false with id := 3 }]).putGutter 0 4 { desc := 0x002008A200002000, prod := 1 }
theorem witness_MatrixFires_behind : let s := mxBehind
    let r := op1 (.mma 2 0 0xA false) true
    let w : MxOp := { op1 (.zero 0) false with id := 2 }
    let o : MxOp := { op1 (.lds 4 0xA desc1) false with id := 3 }
    (s.core 0).engine.ops = r :: w :: o :: [] ∧ (∀ e ∈ [r, w], e.id ≠ o.id) ∧ r.fired = true ∧ w.fired = false ∧ o.fired = false ∧ (s.core 0).frozen = false ∧ s.mxCan 0 w = true ∧
      w.act.waitsFor r.act = true ∧ s.mxCan 0 o = true ∧ o.act.waitsFor r.act = false ∧ o.act.waitsFor w.act = false ∧ s.inputPending 0 o r = false ∧
      s.mxMeet 0 o.act w.act = false ∧ s.inputPoisoned 0 o.act = none := by decide

theorem witness_MatrixCompletes :
    (∀ act ∈ [MxAct.lds 2 0xA desc1, .swap, .zero 7, .wr 7 31 1 false [], .mma 2 0 0xA false, .rd 5 0 1 0 0xA 3, .out 3 0 0 8 0 0xA], let o := op1 act true
      ((mxOps [o]).core 0).engine.ops.filter (·.fired) = [o] ∧ ((mxOps [o]).frag o.frag).ready = []) ∧
    ((mxOps []).core 0).engine.activeDesc = some desc1 ∧ desc1.cls ≠ .d ∧ desc1.n ≤ 32 ∧ (elemOf 10).isSome = true ∧ slotEtype 0xA = 10 ∧
    LType.bits (slotType 0xA) = 32 ∧ (tfind (mxOps []).phrases 0).isSome = true ∧ Memory.wf (mxOps []).mem ∧ (31 : Nat) + 1 ≤ 32 := by decide

theorem witness_MatrixOutLength : (outBytes {} 0 0 8 0 0xA).1.length = 2 ^ ((0x008008A200001000 : Word).extractLsb' 36 4).toNat := by decide +kernel

/-- Two phrases of one core; the token is free, or phrase 1 holds it. -/
def tok (t : Option Nat) : State :=
  ((b0.updPhr 0 fun p => { p with noun := 0x11 }).updPhr 1 fun _ => { seedPhrase with noun := 0x22 }).updEngine 0 fun e => { e with token := t }
theorem witness_TokenMoves : (tok (some 0)).holdsToken 0 = true ∧ (tok none).holdsToken 0 = false ∧ ((tok none).core 0).engine.token = none ∧
    (∀ k ∈ ((tok none).core 0).engine.takers, phraseOf k ≠ 0) ∧ (tok none).myPhr.core = (tok none).myCore ∧ (tok (some 1)).holdsToken 0 = false ∧
    ((tok (some 1)).core 0).engine.token ≠ none ∧ (tok (some 0)).me.queue = [] ∧ (tok (some 0)).me.wait = .none ∧ (tok (some 0)).r 1 = 0 ∧
    (rg 1 0x33 (tok (some 0))).onCore 0x33 = none ∧ (rg 1 0x22 (tok (some 0))).onCore 0x22 = some 1 := by decide

/-- Cluster 0 belongs to partition 0, and a tick is due. -/
def gov : State := { b0 with elevenths := 11 * 1000, parts := [(0, { bitmap := 1 })] }
theorem witness_Grants : min ((b0.r 1).toInt + (0 : BitVec 12).toInt).toNat (65535 - b0.myPhr.grants - b0.asked 0) = 0 ∧
    min ((b0.r 1).toInt + (7 : BitVec 12).toInt).toNat (65535 - b0.myPhr.grants - b0.asked 0) ≠ 0 ∧ gov.ticks < gov.dtime / 1000 ∧ gov.parts = [(0, { bitmap := 1 })] ∧
    (List.range 64).filter (fun d => (1 : Word).getLsbD d) = [0] ∧ gov.hot.getLsbD 0 = false ∧ (gov.cluster 0).asks = [] ∧
    ((gov.updCluster 0 fun c => { c with asks := [⟨0, 0, none, 5, 0, 0⟩] }).cluster 0).asks = [⟨0, 0, none, 5, 0, 0⟩] := by decide

/-! ### Nouns -/

theorem witness_NounSends : (∃ b ∈ bl.accs, b.frag = bl.cur ∧ b.id < bl.nextId ∧ fenceHolds ⟨.rel, .sys⟩ b = true) := by decide

/-- The noun table of context 0, its tables at 0x200000, 0x210000 and 0x218000 (R192), and the entry of index 5. -/
def n5 : Word := mkNoun 0 0 1 5
def leafW (st rights gen : Nat) : Nat := st * 2 ^ 61 + rights * 2 ^ 56 + gen * 2 ^ 48
def nt (w0 w1 : Nat) (s : State) : State := (s.updCtx 0 fun c => { c with ntab := 0x200000 }).updMem fun m =>
  writeNat 0x200000 8 0x210001 (writeNat 0x210000 8 0x218001 (writeNat 0x218050 8 w0 (writeNat 0x218058 8 w1 m)))
/-- Operation 100 of fragment 0 is on its way. -/
def nop (act : NounAct) (noun : Word) : NounOp := { id := 100, src := .frag 0 3 4 0x1000, ctx := 0, act := act, noun := noun }
def dl (act : NounAct) (noun : Word) (s : State) : State := { s with nouns := [nop act noun], nextId := 101 }
def deliv (act : NounAct) (noun : Word) (s : State) : Bool :=
  let t := dl act noun s
  (t.nouns.find? fun x => x.id == 100) == some (nop act noun) && t.nounCache.isEmpty && t.nounReady (nop act noun) && !(nop act noun).granted && !t.joinsSelf (nop act noun)
/-- Phrase 1 is named n5 and runs at slot 1 of core 0. -/
def run5 (g : Phrase → Phrase) (w : Wait) : State :=
  (nt (leafW 1 0xF 1) (locOf 0 0 1) (b0.updPhr 1 fun _ => g { seedPhrase with noun := n5 })).updFrag 32 fun _ => { seedScalar with phrase := 1, slot := some 1, wait := w }
/-- n5 is saved in the image at 0x260000, whose head is given (R195). -/
def saved5 (head : Nat) : State := (nt (leafW 2 0xF 1) 0x260000 b0).updMem (writeNat 0x260000 8 head)

theorem witness_NounDeliveries_refused :
    (deliv .wake (mkNoun 2 0 1 5) b0 = true ∧ kindOk .wake ((mkNoun 2 0 1 5).extractLsb' 62 2).toNat = false) ∧
    (deliv .wake (mkNoun 0 7 1 5) b0 = true ∧ kindOk .wake ((mkNoun 0 7 1 5).extractLsb' 62 2).toNat = true ∧ ((mkNoun 0 7 1 5).extractLsb' 42 20).toNat ≠ 0) ∧
    (deliv .wake n5 b0 = true ∧ kindOk .wake (n5.extractLsb' 62 2).toNat = true ∧ (n5.extractLsb' 42 20).toNat = 0 ∧ b0.leafOf n5 = none) ∧
    (deliv .wake n5 (nt 0 0 b0) = true ∧ (nt 0 0 b0).leafOf n5 = some 0x218050 ∧ readNat (nt 0 0 b0).mem 0x218050 8 = 0) ∧
    (deliv .wake n5 (nt (leafW 1 0xE 1) 0 b0) = true ∧ (nt (leafW 1 0xE 1) 0 b0).leafOf n5 = some 0x218050 ∧ readNat (nt (leafW 1 0xE 1) 0 b0).mem 0x218050 8 = leafW 1 0xE 1 ∧
      ((BitVec.ofNat 64 (leafW 1 0xE 1)).extractLsb' 61 3).toNat = 1 ∧ (BitVec.ofNat 64 (leafW 1 0xE 1)).extractLsb' 48 8 = n5.extractLsb' 34 8 ∧
      ((BitVec.ofNat 64 (leafW 1 0xE 1)).extractLsb' 56 5).toNat &&& NounAct.wake.right ≠ NounAct.wake.right) := by decide

theorem witness_NounDeliveries_states :
    (∀ act ∈ [NounAct.test, .join, .wake, .signal 3, .deposit 3 9 false], deliv act n5 (nt (leafW 6 0xF 1) 0 b0) = true ∧
      ((BitVec.ofNat 64 (leafW 6 0xF 1)).extractLsb' 56 5).toNat &&& act.right = act.right) ∧ (nt (leafW 6 0xF 1) 0 b0).leafOf n5 = some 0x218050 ∧
    ((BitVec.ofNat 64 (readNat (nt (leafW 6 0xF 1) 0 b0).mem 0x218050 8)).extractLsb' 61 3).toNat = 6 ∧
    (deliv .cancel (mkNoun 2 0 1 5) (nt (leafW 6 0x1F 1) 0 b0) = true ∧ kindOk .cancel ((mkNoun 2 0 1 5).extractLsb' 62 2).toNat = true ∧
      ((BitVec.ofNat 64 (leafW 6 0x1F 1)).extractLsb' 56 5).toNat &&& NounAct.cancel.right = NounAct.cancel.right) := by decide

theorem witness_NounDeliveries_running :
    (∀ act ∈ [NounAct.join, .wake, .signal 3, .deposit 3 9 false, .deposit 0 9 true], deliv act n5 (run5 id .none) = true) ∧ deliv .wake n5 (run5 id .sleep) = true ∧
    deliv (.deposit 3 9 false) n5 (run5 (fun p => { p with dpend := 8 }) .none) = true ∧ (run5 id .none).phraseByNoun n5 = some 1 ∧
    ((BitVec.ofNat 64 (locOf 0 0 1)).extractLsb' 15 10).toNat = (run5 id .none).moduleNo ∧ (run5 id .none).leafOf n5 = some 0x218050 ∧
    readNat (run5 id .none).mem 0x218050 8 = leafW 1 0xF 1 ∧ readNat (run5 id .none).mem 0x218058 8 = locOf 0 0 1 ∧ ((run5 id .none).phr 1).dpend.getLsbD 3 = false ∧
    ((run5 (fun p => { p with dpend := 8 }) .none).phr 1).dpend.getLsbD 3 = true ∧ (∀ j ∈ (run5 id .none).fragsOf 1, ((run5 id .none).frag j).wait ≠ .sleep) ∧
    ((run5 id .sleep).fragsOf 1) = [32] ∧ ((run5 id .sleep).frag 32).wait = .sleep := by decide

theorem witness_NounDeliveries_saved :
    (∀ act ∈ [NounAct.wake, .signal 3, .deposit 3 9 false, .deposit 0 9 true], deliv act n5 (saved5 0) = true) ∧ deliv (.deposit 3 9 false) n5 (saved5 8) = true ∧
    Memory.wf (saved5 8).mem ∧ (saved5 8).leafOf n5 = some 0x218050 ∧ readNat (saved5 8).mem 0x218050 8 = leafW 2 0xF 1 ∧ readNat (saved5 8).mem 0x218058 8 = 0x260000 ∧
    (BitVec.ofNat 64 (readNat (saved5 8).mem 0x260000 8)).getLsbD 3 = true ∧ (BitVec.ofNat 64 (readNat (saved5 0).mem 0x260000 8)).getLsbD 5 = false := by decide

/-- The context of n5 has been killed. -/
def killed5 (rights : Nat) : State := (nt (leafW 1 rights 1) 0 b0).updCtx 0 fun c => { c with killed := true, resident := false }
theorem witness_NounDeliveries_killed :
    (∀ act ∈ [NounAct.join, .wake, .signal 3, .deposit 3 9 false], deliv act n5 (killed5 0xF) = true ∧
      ((BitVec.ofNat 64 (leafW 1 0xF 1)).extractLsb' 56 5).toNat &&& act.right = act.right) ∧
    (deliv .cancel (mkNoun 2 0 1 5) (killed5 0x1F) = true ∧ kindOk .cancel ((mkNoun 2 0 1 5).extractLsb' 62 2).toNat = true ∧
      ((BitVec.ofNat 64 (leafW 1 0x1F 1)).extractLsb' 56 5).toNat &&& NounAct.cancel.right = NounAct.cancel.right) ∧
    ((killed5 0xF).ctx 0).killed = true ∧ (killed5 0xF).leafOf n5 = some 0x218050 ∧ readNat (killed5 0xF).mem 0x218050 8 = leafW 1 0xF 1 ∧
    ((BitVec.ofNat 64 (leafW 1 0xF 1)).extractLsb' 61 3).toNat = 1 ∧ (BitVec.ofNat 64 (leafW 1 0xF 1)).extractLsb' 48 8 = n5.extractLsb' 34 8 := by decide

/-! Cached copies (R198, R203, R437): the table's entry of n5 has no rights, a copy on die 0 has the right WAKE. -/

def cp5 (i : Nat) : TabCopy := ⟨0, 0, i, [BitVec.ofNat 64 (leafW 1 1 1), 0]⟩
def cached : State := { dl .test n5 (nt (leafW 1 0 1) 0 b0) with nounCache := [cp5 5, cp5 6], verbCache := [cp5 5] }
def inv5 (what : InvalKind) : Inval := { id := 7, frag := 0, sd := 3, what := what, scope := .dev, ctx := some 0, item := some 5 }
theorem witness_CachedCopies :
    (∀ what ∈ [InvalKind.tlb, .nouns, .verbs], let s := { cached with invals := [inv5 what] }
      (s.invals.find? fun x => x.id == 7) = some (inv5 what) ∧ s.replies = [] ∧ s.invalWaits (inv5 what) = false) ∧
    (cached.leafOf n5 = some 0x218050 ∧ cached.joins = [] ∧ cached.applied = [] ∧ readNat cached.mem 0x218050 8 = leafW 1 0 1 ∧
      (BitVec.ofNat 64 (leafW 1 0 1)).extractLsb' 48 8 = n5.extractLsb' 34 8 ∧ (BitVec.ofNat 64 (leafW 1 0 1)).extractLsb' 61 3 = 1) ∧
    ((cached.nouns.find? fun x => x.id == 100) = some (nop .test n5) ∧ cached.nounReady (nop .test n5) = true ∧ (nop .test n5).granted = false ∧ kindOk .test (n5.extractLsb' 62 2).toNat = true ∧
      copyIn cached.nounCache (cached.coreOf 0 / 384) 0 (n5.extractLsb' 0 34).toNat = some [BitVec.ofNat 64 (leafW 1 1 1), 0] ∧
      (BitVec.ofNat 64 (leafW 1 1 1)).extractLsb' 48 8 = n5.extractLsb' 34 8 ∧ (BitVec.ofNat 64 (leafW 1 1 1)).extractLsb' 61 3 = 1 ∧ (cached.ctx 0).killed = false) ∧
    ((b0.ctx 0).killed = false ∧ b0.nounCache = [] ∧ b0.verbCache = [] ∧ (b0.ctx 0).resident = true) := by decide

/-- R437: ntinv of n5 removes its copy, and no other. -/
theorem test_ntinv_removes : (match exec (.replyArrival 7) { cached with invals := [inv5 .nouns] } with
    | .next t => decide (t.nounCache = [cp5 6] ∧ t.verbCache = [cp5 5] ∧ t.invals.map (·.removed) = [true]) | _ => false) = true := by decide

/-- R198: what the NDU changes reaches the copies, whose rights stay. -/
theorem test_copy_changes : (cached.setLeaf n5 stDead 1 0 0 9).nounCache = [⟨0, 0, 5, [BitVec.ofNat 64 (leafW 6 1 1 + 2 ^ 40), 9]⟩, cp5 6] := by decide

def rep1 (waits : Bool) : Reply := { id := 5, frag := 0, pc := 0x1000, writes := [(3, 7), (4, 8)], waits := waits }
theorem witness_RepliesArrive :
    (let s : State := { b0 with replies := [rep1 false] }
     (s.replies.find? fun x => x.id == 5) = some (rep1 false) ∧ (rep1 false).exn = none ∧ (s.frag 0).live = true ∧ (s.frag 0).wait ≠ .reply 5) ∧
    (let s : State := { frg (fun f => { f with wait := .reply 5 }) b0 with replies := [rep1 true] }
     (s.replies.find? fun x => x.id == 5) = some (rep1 true) ∧ (s.frag 0).live = true ∧ (s.frag 0).wait = .reply 5) := by decide

/-- Phrase 0, named n5, has ended with exit value 9. -/
def ended5 : State := phr (fun p => { p with noun := n5, inst := 99, leaving := .exited, exit := 9 }) (nt (leafW 1 0xF 1) 0 b0)
theorem witness_SleepAndDeath : b0.myPhr.wakep = false ∧ (phr (fun p => { p with wakep := true }) b0).myPhr.wakep = true ∧
    (b0.me.queue = [] ∧ b0.allClear b0.cur = true ∧ b0.me.tl = 0 ∧ b0.myPhr.mate = none) ∧
    (ended5.retireReady 0 = true ∧ (ended5.phr 0).leaving = .exited ∧ (ended5.phr 0).mate = none ∧ (ended5.phr 0).course = none ∧ ended5.inst (ended5.phr 0).inst = none ∧
      ended5.holdsToken 0 = false ∧ ended5.leafOf (ended5.phr 0).noun = some 0x218050 ∧ ended5.joins = [] ∧ Memory.wf ended5.mem) ∧
    (let s : State := { frg (fun f => { f with wait := .reply 5 }) b0 with joins := [⟨5, .frag 0 3 4 0x1000, mkNoun 0 9 1 5⟩] }
     s.leafOf (mkNoun 0 9 1 5) = none ∧ s.applied = [] ∧ s.joins = [⟨5, .frag 0 3 4 0x1000, mkNoun 0 9 1 5⟩] ∧ (s.frag 0).live = true ∧ (s.frag 0).wait = .reply 5) := by decide

/-! ### Constructions -/

/-- A verb table at 0x240000 whose first entry is a FUNC (R199), and one whose entries are all taken. -/
def vt : State := (b0.updCtx 0 fun c => { c with vtab := 0x240000 }).updMem (writeByte 0x240007 0x40)
def full : Nat → Mem
  | 0 => []
  | n + 1 => writeByte (0x240007 + 32 * n) 0x40 (full n)
theorem full_wf (n : Nat) : Memory.wf (full n) := by
  induction n with
  | zero => exact wf_nil
  | succ n ih => exact writeByte_wf _ _ ih
theorem full_kind (n j : Nat) (h : j < n) : readNat (full n) (0x240000 + 32 * j) 8 / 2 ^ 62 ≠ 0 := by
  have key : readByte (full n) (0x240007 + 32 * j) = 0x40 := by
    induction n with
    | zero => omega
    | succ n ih =>
      by_cases e : j = n
      · subst e; exact readByte_writeByte_same _ _ (full_wf j)
      · exact (readByte_writeByte_other _ (by omega) (full_wf n)).trans (ih (by omega))
  have : 0x240000 + 32 * j + 1 + 1 + 1 + 1 + 1 + 1 + 1 = 0x240007 + 32 * j := by omega
  simp only [readNat, readBytes, natOf, this, key, show (0x40 : Byte).toNat = 64 from rfl]
  omega

def vtFull (n : Nat) : State := { vt with mem := full n }
theorem vtFull_taken (n : Nat) : (vtFull n).combWaits = false ∧ Memory.wf (vtFull n).mem ∧ ∀ j, j < n → readNat (vtFull n).mem (0x240000 + 32 * j) 8 / 2 ^ 62 ≠ 0 :=
  ⟨rfl, full_wf n, full_kind n⟩

theorem witness_Builders : (vt.combWaits = false ∧ vt.verbCache = [] ∧ Memory.wf vt.mem ∧ readNat vt.mem 0x240000 8 / 2 ^ 62 = 1 ∧ readNat vt.mem 0x240020 8 / 2 ^ 62 = 0 ∧
      readNat vt.mem (0x240000 + 32 * 4095) 8 / 2 ^ 62 = 0 ∧ ((vt.r 3).extractLsb' 0 32).toNat = 0 ∧ (vt.r 3).toNat / 2 ^ 46 = 0) ∧
    (vtFull 4096).combWaits = false ∧ Memory.wf (vtFull 4096).mem ∧ ∀ j, j < 4096 → readNat (vtFull 4096).mem (0x240000 + 32 * j) 8 / 2 ^ 62 ≠ 0 :=
  ⟨by decide +kernel, vtFull_taken 4096⟩

/-- A copy of the FUNC, as the table has it. -/
def vtCopy : TabCopy := ⟨0, 0, 0, [0x4000000000000000, 0, 0, 0]⟩
/-- A copy that is not stale shows what the table does. -/
theorem test_verb_copy : ({ vt with verbCache := [vtCopy] } : State).verbSeen (some 0) 0 0 = ⟨0x4000000000000000, 0, 0, 0⟩ := by
  have h : ({ vt with verbCache := [vtCopy] } : State).verb 0 0 = ⟨0x4000000000000000, 0, 0, 0⟩ := by decide
  unfold State.verbSeen seenWords
  rw [h]
  cases Config.seesCopy ({ vt with verbCache := [vtCopy] } : State).draws 0 <;> rfl
theorem witness_Applies : vt.combWaits = false ∧ (vtCopy.ctx = vt.myCtx ∧
      vtCopy.words = (List.range 4).map fun j => BitVec.ofNat 64 (readNat vt.mem ((vt.ctx vt.myCtx).vtab.toNat + 32 * vtCopy.index + 8 * j) 8)) ∧ 4096 ≤ ((rg 1 4096 vt).r 1).toNat ∧ ((rg 1 4095 vt).r 1).toNat < 4096 ∧ readNat vt.mem (0x240000 + 32 * 4095) 8 / 2 ^ 62 = 0 ∧
    readNat vt.mem 0x240000 8 / 2 ^ 62 ≠ 0 ∧ (vt.ctx vt.myCtx).killed = false ∧ (vt.lq (vt.lqOf 0)).en = false ∧
    (let s := vt.updLq 0 fun q => { q with en := true }
     (s.lq (s.lqOf 0)).en = true ∧ (s.lq (s.lqOf 0)).part = s.partOf 0 ∧ (s.lq (s.lqOf 0)).items.length < 256) ∧
    256 ≤ ((vt.updLq 0 fun q => { q with en := true, items := List.range 256 }).lq 0).items.length := by decide +kernel

def pk : Packet := ⟨0, 1, 32, 0, false, false, false, 0, 0, [], 0, 0, 0⟩
/-- An instance with the nest given; phrase 0 runs one of its nodes. -/
def ap (ns : List Node) : Applied :=
  { noun := 0x8000000400000006, ctx := 0, part := 0, lq := 0, packet := pk, record := 0x300000, stamp := 0, pos := 0, queued := false, nodes := ns,
    pages := [0x310000, 0x311000, 0x312000, 0x313000] }
def nst (ns : List Node) (node : Nat) : State := phr (fun p => { p with inst := 3, node := node, noun := n5 }) { b0 with applied := [(3, ap ns)] }
def leafN (p : Nat) : Node := { kind := .func, parent := some p, kids := [], handler := none, st := .running, placed := 1 }
/-- A farm of one worker, and a pipe of two stages with a depth of 2. -/
def farmN : List Node := [{ kind := .farm, parent := none, kids := [1], handler := none, pages := 4, st := .running }, leafN 0]
def pipeN : List Node := [{ kind := .pipe, parent := none, kids := [1, 2], handler := none, depth := 2, pages := 1, st := .running }, leafN 0, leafN 0]
def farmX : Node := (farmN[0]?).getD (leafN 0)
def pipeX : Node := (pipeN[0]?).getD (leafN 0)
/-- The first record of the deque in a state, held by n5. -/
def recSt (st : Nat) (s : State) : State := s.updMem fun m => pokes [((ap farmN).recordAt farmX 0 0 + 24, 1, st), ((ap farmN).recordAt farmX 0 0 + 8, 8, n5.toNat)] m
def chanAt (prod cons : Nat) (node : Nat) : State := (nst pipeN node).updMem fun m => writeNat 0x310000 8 prod (writeNat 0x310008 8 cons m)

theorem witness_TaskWords_farm : b0.combWaits = false ∧ b0.myNest = none ∧ (nst farmN 1).myNest = some (ap farmN) ∧ (nst farmN 1).combWaits = false ∧
    (farmAbove farmN 1).map Port.farm = some (.farm 0) ∧ outputOf farmN 1 = none ∧ inputOf farmN 1 = some (.farm 0) ∧ (ap farmN).node 0 = some farmX ∧ farmX.kids ≠ [] ∧
    readNat (nst farmN 1).mem ((ap farmN).recordAt farmX 0 0 + 24) 1 = 0 ∧
    (∀ v, v < farmX.kids.length → readNat (recSt 1 (nst farmN 1)).mem ((ap farmN).recordAt farmX v (readNat (recSt 1 (nst farmN 1)).mem ((ap farmN).dequeWord farmX v 8) 8 % 256) + 24) 1 ≠ 0) ∧
    (nst farmN 1).emitHeld true 0 = false ∧ ((nst farmN 1).updCluster 0 fun c => { c with taken := 4, busyTo := 1000 }).emitHeld true 0 = true ∧ feederOf farmN 0 = none := by decide
theorem witness_TaskWords_records : heldRecord (ap farmN) farmX (nst farmN 1).mem n5 = none ∧
    heldRecord (ap farmN) farmX (recSt 2 (nst farmN 1)).mem n5 = some ((ap farmN).recordAt farmX 0 0) ∧ Memory.wf (recSt 2 (nst farmN 1)).mem ∧
    dequePick (ap farmN) farmX (recSt 1 (nst farmN 1)).mem (workerOf farmN 0 1) = some ((ap farmN).recordAt farmX 0 0) ∧ heldRecord (ap farmN) farmX (recSt 1 (nst farmN 1)).mem n5 = none ∧
    dequePick (ap farmN) farmX (nst farmN 1).mem (workerOf farmN 0 1) = none ∧ (recSt 1 (nst farmN 1)).takeHeld = false ∧ (recSt 2 (nst farmN 1)).doneHeld = false ∧
    ((recSt 1 (nst farmN 1)).updCluster 0 fun c => { c with taken := 4, busyTo := 1000 }).takeHeld = true ∧
    ((recSt 2 (nst farmN 1)).updCluster 0 fun c => { c with taken := 4, busyTo := 1000 }).doneHeld = true := by decide +kernel
/-- A farm of two workers. -/
def farm2 : List Node := [{ kind := .farm, parent := none, kids := [1, 2], handler := none, pages := 4, st := .running }, leafN 0, leafN 0]
def farm2X : Node := (farm2[0]?).getD (leafN 0)
def ap2 : Applied := { ap farm2 with pages := [0x310000, 0x311000, 0x312000, 0x313000, 0x314000, 0x315000, 0x316000] }
def nst2 : State := { nst farm2 1 with applied := [(3, ap2)] }
def ready2At (v i seq : Nat) (s : State) : State := s.updMem fun m => pokes [(ap2.recordAt farm2X v i + 24, 1, 1), (ap2.recordAt farm2X v i + 16, 8, seq)] m
/-- Records 5 and 6 of one deque are READY, with SEQ 7 and 9. -/
theorem witness_TaskWords_takes :
    (∀ v ∈ [0, 1], let s := ready2At v 5 7 (ready2At v 6 9 (nst2))
      let st (w i : Nat) : Nat := readNat s.mem (ap2.recordAt farm2X w i + 24) 1
      let seq (i : Nat) : Nat := readNat s.mem (ap2.recordAt farm2X v i + 16) 8
      s.myNest = some ap2 ∧ heldRecord ap2 farm2X s.mem n5 = none ∧ s.takeHeld = false ∧ workerOf farm2 0 1 = 0 ∧ farm2X.kids.length = 2 ∧
        st v 5 = 1 ∧ st v 6 = 1 ∧ seq 5 < seq 6 ∧ ∀ j, j < 256 → j ≠ 5 → j ≠ 6 → st v j ≠ 1) ∧
    (∀ j, j < 256 → readNat (ready2At 1 5 7 (ready2At 1 6 9 (nst2))).mem (ap2.recordAt farm2X 0 j + 24) 1 ≠ 1) := by decide +kernel
theorem witness_TaskWords_pipe : (chanAt 2 0 1).myNest = some (ap pipeN) ∧ (chanAt 2 0 1).combWaits = false ∧ outputOf pipeN 1 = some (.pipe 0) ∧ (ap pipeN).node 0 = some pipeX ∧ pipeX.gutter = none ∧
    readNat (chanAt 2 0 1).mem ((ap pipeN).claimAddr pipeX 0) 8 = 2 ∧ pipeX.depth ≤ 2 - 0 ∧ readNat (chanAt 2 1 1).mem ((ap pipeN).claimAddr pipeX 8) 8 = 1 ∧ 2 - 1 < pipeX.depth ∧
    inputOf pipeN 2 = some (.pipe 0) ∧ inputOf pipeN 1 = none ∧ readNat (chanAt 2 2 2).mem 0x310000 8 ≤ readNat (chanAt 2 2 2).mem 0x310008 8 ∧
    readNat (chanAt 2 1 2).mem 0x310008 8 < readNat (chanAt 2 1 2).mem 0x310000 8 ∧ (chanAt 2 1 1).emitHeld false 0 = false ∧ (chanAt 2 1 2).takeHeld = false ∧ (chanAt 2 1 2).poison = [] ∧
    ((chanAt 2 1 1).updCluster 0 fun c => { c with taken := 4, busyTo := 1000 }).emitHeld false 0 = true ∧
    ((chanAt 2 1 2).updCluster 0 fun c => { c with taken := 4, busyTo := 1000 }).takeHeld = true := by decide

/-- Phrase 0 is the one phrase of an instance with a COROUTINE root. -/
def coN : List Node := [{ kind := .coroutine, parent := none, kids := [], handler := none, st := .running, placed := 1 }]
theorem witness_Yields : (nst farmN 1).inst (nst farmN 1).myPhr.inst = some (ap farmN) ∧ (nst farmN 1).mayTrap 0 ∧ (nst farmN 1).mayYield = false ∧
    (nst coN 0).inst (nst coN 0).myPhr.inst = some (ap coN) ∧ (nst coN 0).mayYield = true ∧ (nst coN 0).yieldWaits = false ∧ (nst coN 0).saveGroup 0 = [0] ∧
    (ap coN).served = none ∧ (ap coN).waiting = [] := ⟨by decide, ⟨by decide, by decide⟩, by decide⟩

/-! ### Units of the module -/

/-- A clause at 0x1000 whose header waits for f3 and has one instruction, vadd v3, v1, v2 (R236, R237). -/
def hdr (waitm : BitVec 12) (len : BitVec 4) : BitVec 96 := (0 : BitVec 16) ++ waitm ++ 15#4 ++ 15#4 ++ len ++ (0 : BitVec 56)
def cl (w : BitVec 96) (s : State) : State :=
  (frg (fun f => { f with queue := [{ addr := 0x1000, mask := 3 }] }) s).updMem fun m => writeNat 0x1000 12 w.toNat (writeNat 0x100C 12 (lane 0x001 0 0 3 1 2 0 2 0 0).toNat m)
theorem witness_ClauseStarts :
    (let s := cl (hdr 8 1) b0
     s.mayStart 0 = true ∧ (s.frag 0).queue = [{ addr := 0x1000, mask := 3 }] ∧ (s.frag 0).lfetch = .idle ∧ s.fetchCode 0 0x1000 12 = (.code (bytesOf (hdr 8 1).toNat 12), s) ∧
       decodeHeader (hdr 8 1) = some ⟨8, none, none, 1⟩ ∧ s.flagsClear 0 8 = true ∧ s.fetchCode 0 0x100C 12 = (.code (bytesOf (lane 0x001 0 0 3 1 2 0 2 0 0).toNat 12), s) ∧
       clauseBad (s.phr 0) ⟨8, none, none, 1⟩ 1 (clauseWords 1 (bytesOf (lane 0x001 0 0 3 1 2 0 2 0 0).toNat 12)) = none) ∧
    (let s := cl (hdr 8 1) bl
     s.mayStart 0 = true ∧ s.fetchCode 0 0x1000 12 = (.code (bytesOf (hdr 8 1).toNat 12), s) ∧ s.flagsClear 0 8 = false) ∧ headerWaitm (hdr 8 0) = 8 ∧ (cl (hdr 8 0) bl).flagsClear 0 8 = false ∧ (cl (hdr 8 0) b0).flagsClear 0 8 = true ∧
    (let s := cl (hdr 8 0) b0
     s.mayStart 0 = true ∧ s.fetchCode 0 0x1000 12 = (.code (bytesOf (hdr 8 0).toNat 12), s) ∧ decodeHeader (hdr 8 0) = none ∧ (s.frag 0).tl = 0 ∧ (s.frag 0).ready = [] ∧
       (s.frag 0).wait = .none ∧ (∀ a ∈ s.accs, a.frag ≠ 0) ∧ (∀ r ∈ s.results, r.frag ≠ 0) ∧ ∀ o ∈ s.laneOps, o.frag ≠ 0) := by decide +kernel

theorem witness_SlotsAndRecords :
    (let s := b0.updCore 0 fun c => { c with asideQ := [1] }
     (s.core 0).asideQ = [1] ∧ ∃ ns, s.freeSlots 0 = 1 :: ns) ∧
    (let s := (List.range 14).foldl (fun (s : State) n => s.updFrag (32 * (n + 1)) fun _ => { seedScalar with phrase := n + 1, slot := some (n + 1) })
       ((frg (fun f => { f with wait := .merge 0 }) b0).updCore 0 fun c => { c with asideQ := [1] })
     (s.core 0).asideQ = [1] ∧ s.freeSlots 0 = [] ∧ s.lender 0 = some 0 ∧ (s.frag 0).slot = some 0) ∧
    (let m : MissRec := ⟨1, 3, 1, 0x123456789ABC, 1, false, 0, 0, 0, 0, false⟩
     let s := b0.updCore 0 fun c => { c with misses := [{ m with num := 0, given := true }, m] }
     (s.core 0).misses = [{ m with num := 0, given := true }] ++ m :: [] ∧ m.given = false ∧ m.kind < 16 ∧ (s.core 0).wDpend = 0) :=
  ⟨⟨by decide, _, rfl⟩, by decide +kernel, by decide⟩

/-- One posted entry at 0x100080, with one active lane and its call and argument. -/
def sy : Sysc := { id := 5, frag := 0, entry := 0x100080, seq := 0, ctx := 0, vd := 4, mask := 1, core := 0 }
def sysS (call a0 : Nat) : State :=
  { (b0.updCtx 0 fun c => { c with scbase := 0x100000, misc := 0x400, hbase := 0x200000, hlim := 0x600000 }).updMem fun m => pokes [(0x100090, 4, 1), (0x100094, 1, 1),
      (0x100095, 2, call), (0x100100, 8, a0)] m with syscs := [{ sy with posted := true }] }
theorem witness_SystemCalls :
    (∀ call ∈ [0, 1, 2, 3], let s := sysS call 4096
      s.syscSteps 0 = [.take { sy with posted := true }] ∧ ({ s with syscs := [sy] } : State).syscSteps 0 = [.post sy] ∧
      ({ s with syscs := [{ sy with posted := true, serving := true }] } : State).syscSteps 0 = [.finish { sy with posted := true, serving := true }] ∧
      ({ s with syscs := [{ sy with posted := true, serving := true, done := true }] } : State).syscSteps 0 = [] ∧ Memory.wf s.mem ∧ lanesOf (BitVec.ofNat 32 (readNat s.mem (sy.entry + 16) 4)) = [0] ∧ readNat s.mem (sy.entry + 21) 2 = call) ∧
    (let s := (sysS 2 4096).updCtx 0 fun c => { c with allocs := [(4096, 4096)] }
     ∃ b ∈ (s.ctx 0).allocs, b.1 = readNat s.mem (sy.entry + 128) 8) ∧
    (let y := { sy with done := true }
     let s : State := { sysS 0 0 with syscs := [y] }
     (s.syscs.find? fun x => x.id == 5) = some y ∧ y.orphan = false ∧ (s.phr 0).present = true ∧ (s.frag 0).ready = [] ∧ Memory.wf s.mem ∧
       (y.entry + 20 < s.scbase 0 + 8 ∨ s.scbase 0 + 16 ≤ y.entry + 20)) := by decide

/-- A started part of a FUNC waits in partition 0, which has cluster 1. -/
def dsp : State := { nt 0 0 b0 with parts := [(0, { bitmap := 2, parts := [(3, 0)] })], applied := [(3, ap [{ (leafN 0) with parent := none, placed := 0 }])] }
def late (drop : Bool) : Applied := { ap [] with noun := mkNoun 2 0 1 5, queued := true, packet := { pk with deadline := 10, droplate := drop } }
def lateS (drop : Bool) : State := { nt (leafW 1 0x1F 1) 0 b0 with elevenths := 110, applied := [(3, late drop)] }
theorem witness_Dispatching_noun (loc : Word) : (dsp.allocNoun 0 0 1 0xF loc).map (·.1) = some (mkNoun 0 0 1 0) := by
  rw [State.allocNoun, show freeLeaf dsp.mem (dsp.ctx 0).ntab.toNat = some (0, 0x218000) by decide +kernel]
  show some (mkNoun 0 0 (((readLeaf dsp.mem 0x218000).gen + 1) % 256) 0) = _
  rw [show (readLeaf dsp.mem 0x218000).gen = 0 by decide]
theorem witness_Dispatching :
    (let x : Node := { (leafN 0) with parent := none, placed := 0 }
     (dsp.part 0).restores = [] ∧ dsp.waitingParts 0 (dsp.headOfPart 0) = [(3, 0)] ∧ dsp.inst 3 = some (ap [x]) ∧ (ap [x]).node 0 = some x ∧ leafPipe [x] 0 = none ∧
       x.aux = false ∧ x.placed < x.pcount ∧ dsp.coresOpen 3 (ap [x]) 0 x (dsp.coresFor (ap [x])) ≠ [] ∧ (ap [x]).packet.cores = false ∧ (ap [x]).packet.coursesz = 0) ∧
    (∀ drop ∈ [true, false], (lateS drop).inst 3 = some (late drop) ∧ (late drop).packet.deadline ≠ 0 ∧ (late drop).late = false ∧ (late drop).queued = true ∧ (late drop).anyPlaced = false ∧
      (late drop).packet.deadline.toNat ≤ (lateS drop).dtime ∧ (lateS drop).joins = [] ∧ Memory.wf (lateS drop).mem ∧ (lateS drop).leafOf (late drop).noun = some 0x218050) := by decide +kernel

/-- The ready queue of partition 0 at 0x280000. -/
def rdy (prod cons flags : Nat) : State := (b0.updPart 0 fun p => { p with ready := 0x280000 }).updMem fun m => pokes [(0x280000, 8, prod), (0x280008, 8, cons), (0x280010, 1, flags)] m
theorem witness_ReadyQueues : Memory.wf (rdy 1 0 0).mem ∧ ((rdy 1 0 0).part 0).ready.toNat = 0x280000 ∧ readNat (rdy 1 0 0).mem 0x280008 8 < readNat (rdy 1 0 0).mem 0x280000 8 ∧
    readNat (rdy 2 2 1).mem 0x280000 8 ≤ readNat (rdy 2 2 1).mem 0x280008 8 ∧ (readNat (rdy 2 2 1).mem 0x280010 1).testBit 0 = true := by decide

theorem witness_Residency : ((BitVec.ofNat 64 (readNat b0.mem 0x2000 8)).extractLsb' 0 20).toNat ≠ 7 ∧
    (tfind b0.contexts 0).isSome = true ∧ ((tfind b0.contexts 0).map fun x => (x.killed, x.record)) = some (false, 0) ∧
    (let s := (b0.updMem (writeNat 0x2000 8 7)).updHost fun h => { h with feat := 1 }
     s.accepted 0 = true ∧ 0x2000 % 128 = 0 ∧ ((BitVec.ofNat 64 (readNat s.mem 0x2000 8)).extractLsb' 0 20).toNat = 7 ∧ tfind s.contexts 7 = none ∧
       (s.contexts.filter fun e => e.2.resident && e.1 != 7).length < 1024) := by decide

def mig : Migration := { noun := n5, image := 0x260000, dest := 1, shadow := 0, sigp := 0, wakep := false, fwd := [], queue := 0x280000, arrives := 0x270000 }
def migS : State := { nt (leafW 4 0xF 1) 0x260000 b0 with migs := [mig] }
theorem migS_moved (n : Nat) : (migS.updMem (moveBytes mig.image 0x270000 n)).leafOf mig.noun = some 0x218050 := by
  have hw : Memory.wf migS.mem := by decide
  have h (a : Nat) (ha : a + 8 ≤ 0x270000) : readNat (moveBytes mig.image 0x270000 n migS.mem) a 8 = readNat migS.mem a 8 := by
    unfold readNat moveBytes
    rw [readBytes_congr _ migS.mem a 8 fun i hi => readByte_writeBytes_other _ (.inl (by omega)) hw]
  have e0 : pointerAt (moveBytes mig.image 0x270000 n migS.mem) 0x200000 = some 0x210000 := by rw [pointerAt, h _ (by omega)]; decide
  have e1 : pointerAt (moveBytes mig.image 0x270000 n migS.mem) 0x210000 = some 0x218000 := by rw [pointerAt, h _ (by omega)]; decide
  have hn : (migS.ctx (nounCtx mig.noun)).ntab.toNat + 8 * fieldNat (nounIndex mig.noun) 22 12 = 0x200000 := by decide
  have hj : 0x210000 + 8 * fieldNat (nounIndex mig.noun) 11 11 = 0x210000 ∧ 0x218000 + 16 * fieldNat (nounIndex mig.noun) 0 11 = 0x218050 := by decide
  have hr : ((migS.ctx (nounCtx mig.noun)).resident || (migS.ctx (nounCtx mig.noun)).killed) = true := by decide
  show (if (migS.ctx (nounCtx mig.noun)).resident || (migS.ctx (nounCtx mig.noun)).killed then
    leafAddr (moveBytes mig.image 0x270000 n migS.mem) (migS.ctx (nounCtx mig.noun)).ntab.toNat (nounIndex mig.noun) else none) = _
  rw [if_pos hr, leafAddr, hn, e0]
  simp only [hj.1, e1, hj.2]

theorem witness_MigrationsEnd : migS.migs = [mig] ∧ mig.fwd = [] ∧ migS.nouns = [] ∧ migS.host.cs = [] ∧ Memory.wf migS.mem ∧ migS.leafOf mig.noun = some 0x218050 ∧ moduleOfLoc mig.dest = migS.moduleNo ∧ moduleOfLoc 0x8000 ≠ migS.moduleNo ∧
    (migS.updMem (moveBytes mig.image 0x270000 (imageLenAt migS.mem mig.image))).leafOf mig.noun = some 0x218050 ∧ 0x218050 + 16 ≤ 0x270000 :=
  ⟨by decide, by decide, by decide, by decide, by decide, by decide, by decide, by decide, migS_moved _, by decide⟩

/-! ### Context-switch commands -/

/-- Command slot 2 holds a command about a noun. -/
def csS (op flags : BitVec 8) (target addr place : Word) (s : State) : State :=
  s.updHost fun h => { h with cs := [(2, { op := op, flags := flags, target := target, addr := addr, place := place, limit := 0x1000 })] }
def rung (s : State) : State := (s.updCs 2 fun c => { c with busy := true, num := s.nextId, begun := false, status := none, result := 0 }).bump
/-- The command is ready: it is not busy nor malformed, and no earlier one holds it back. -/
def ready2 (s : State) : Bool := !(s.cs 2).busy && !(s.cs 2).malformed && !(rung s).csWaits 2

theorem witness_CommandsStart :
    ([((1 : BitVec 8), (0 : BitVec 8), n5), (1, 1, 7), (2, 0, n5), (2, 1, 7), (3, 0, n5), (3, 1, 7), (4, 0, n5), (5, 0, n5)].all fun e =>
      ready2 (csS e.1 e.2.1 e.2.2 0 0 b0) && ((csS e.1 e.2.1 e.2.2 0 0 b0).cs 2).op == e.1) = true ∧
    (csS 1 0 n5 0 0 b0).cs 2 ≠ {} ∧ (csS 1 1 0x100000 0 0 b0).cs 2 ≠ {} ∧ ((csS 1 1 0x100000 0 0 b0).cs 2).malformed = true ∧
    (let s := (csS 1 0 n5 0 0 b0).updCs 1 fun _ => { op := 2, target := n5, busy := true }
     (s.cs 2).busy = false ∧ (rung s).csWaits 2 = true) := by decide +kernel

/-- Phrase 0 is named n5 and runs. -/
def runs5 : State := phr (fun p => { p with noun := n5 }) (nt (leafW 1 0xF 1) 0 b0)
def isOk (x : Except Nat Leaf) (st : Nat) : Bool := match x with | .ok l => l.state == st | .error _ => false
theorem witness_Saves :
    (let s := csS 1 0 n5 0x400000 0 (nt (leafW 2 0xF 1) 0 b0)
     ready2 s = true ∧ (s.cs 2).op = 1 ∧ isOk (s.csTarget n5) 2 = true) ∧
    ([(0x400000 : Word), 0x400100].all fun addr => let s := csS 1 0 n5 addr 0 runs5
     ready2 s && isOk (s.csTarget n5) 1 && s.phraseByNoun n5 == some 0 && s.saveGroup 0 == [0] && s.mainOf 0 == 0 && (s.phr 0).leaving == .no && (s.phr 0).present) = true := by decide +kernel
theorem witness_Saves_area :
    vaultArea 0x400000 ((rung (csS 1 0 n5 0x400000 0 runs5)).groupSize 0) = true := by decide +kernel
theorem witness_Saves_drained :
    ((rung (csS 1 0 n5 0x400000 0 runs5)).stopGroup 0).allDrained [0] = true := by decide +kernel
theorem witness_Saves_wholectx :
    (let s := csS 1 1 0 0x400000 0 runs5
     ready2 s = true ∧ (tfind s.contexts 0).map (·.killed) = some false ∧ Memory.wf s.mem ∧ s.runningOf 0 = [0] ∧
       (∀ e ∈ s.phrases, e.2.ctx = 0 → e.2.present = true → e.2.gone = true ∨ e.2.leaving = .no) ∧ ((rung s).stopPhrase 0).allDrained [0] = true ∧
       vaultArea 0x400000 (alignUp (64 + 16 * 2) 4096 + alignUp (((rung s).stopPhrase 0).imageSize 0) 4096 + 0x6C000) = true ∧
       ((s.cs 2).limit).toNat < alignUp (64 + 16 * 2) 4096 + alignUp (((rung s).stopPhrase 0).imageSize 0) 4096 + 0x6C000 ∧
       alignUp (64 + 16 * 2) 4096 + alignUp (((rung s).stopPhrase 0).imageSize 0) 4096 + 0x6C000 ≤ ((s.updCs 2 fun c => { c with limit := 0x200000 }).cs 2).limit.toNat) ∧
    (let s := csS 1 1 0 0x400000 0 { runs5 with results := [res1] }
     s.runningOf 0 = [0] ∧ ((rung s).stopPhrase 0).allDrained [0] = false) := by decide +kernel
theorem witness_Saves_waits :
    (let s := rung (csS 1 0 n5 0x400000 0 { runs5 with results := [res1] })
     vaultArea 0x400000 (s.groupSize 0) = true ∧ (s.stopGroup 0).allDrained [0] = false) := by decide +kernel
theorem witness_Saves_context :
    (let s := csS 1 1 7 0x400000 0 (b0.updCtx 7 fun c => { c with resident := true })
     ready2 s = true ∧ ((tfind s.contexts 7).map fun x => x.killed) = some false ∧ s.runningOf 7 = [] ∧
       (∀ e ∈ s.phrases, e.2.ctx = 7 → e.2.present = false ∨ e.2.gone = true) ∧ Memory.wf s.mem ∧ vaultArea 0x400000 4096 = true ∧ 4096 ≤ ((s.cs 2).limit).toNat) := by decide +kernel

/-! A noun table in which nothing is written reaches no leaf. -/

theorem pointerAt_nil (a : Nat) (h : a + 8 ≤ 0x400000000) : pointerAt [] a = none := by
  have hb (n : Nat) : ∀ a, a + n ≤ 0x400000000 → readNat [] a n = 0 := by
    induction n with
    | zero => intro _ _; rfl
    | succ n ih => intro a ha; have h1 := ih (a + 1) (by omega); unfold readNat at h1 ⊢; rw [readBytes, natOf, h1, readByte, unlisted, if_pos (by unfold poolBase; omega)]; rfl
  rw [pointerAt, hb 8 a h]; decide
theorem freeLeaf_nil (t : Nat) (h : t + 0x8000 ≤ 0x400000000) : freeLeaf [] t = none := by
  have hf {α : Type} (f : Nat → Option α) (n : Nat) : ∀ i, (∀ j, j < i + n → f j = none) → firstFrom f n i = none := by
    induction n with
    | zero => intro _ _; rfl
    | succ n ih => intro i hi; rw [firstFrom, hi i (by omega)]; exact ih (i + 1) fun j hj => hi j (by omega)
  exact hf _ _ _ fun j hj => by rw [pointerAt_nil _ (by omega)]
theorem reachedLeaves_nil (t : Nat) (h : t + 0x8000 ≤ 0x400000000) : reachedLeaves [] t = [] :=
  List.flatMap_eq_nil_iff.2 fun i hi => by rw [pointerAt_nil _ (by have := List.mem_range.1 hi; omega)]

/-- A pool of one extent of 4 GiB (R494, R496). -/
def pooled (s : State) : State := { (s.updHost fun h => { h with feat := 4 }) with svc := .full, pool := { extents := [(0, (0, 4))], ways := 1, order := [0], trained := 1 } }
theorem moved_leaf {s : State} {w0 w1 src dst n : Nat} (hs : s.mem = (nt w0 w1 b0).mem) (hw : Memory.wf (nt w0 w1 b0).mem) (hc : s.ctx 0 = (nt w0 w1 b0).ctx 0) (hd : 0x270000 ≤ dst)
    (h0 : readNat (nt w0 w1 b0).mem 0x200000 8 = 0x210001) (h1 : readNat (nt w0 w1 b0).mem 0x210000 8 = 0x218001) :
    (s.updMem (moveBytes src dst n)).leafOf n5 = some 0x218050 := by
  have h (a : Nat) (ha : a + 8 ≤ 0x270000) : readNat (moveBytes src dst n s.mem) a 8 = readNat (nt w0 w1 b0).mem a 8 := by
    unfold readNat moveBytes
    rw [hs, readBytes_congr _ (nt w0 w1 b0).mem a 8 fun i hi => readByte_writeBytes_other _ (.inl (by omega)) hw]
  have e0 : pointerAt (moveBytes src dst n s.mem) 0x200000 = some 0x210000 := by rw [pointerAt, h _ (by omega), h0]; decide
  have e1 : pointerAt (moveBytes src dst n s.mem) 0x210000 = some 0x218000 := by rw [pointerAt, h _ (by omega), h1]; decide
  show (if (s.ctx (nounCtx n5)).resident || (s.ctx (nounCtx n5)).killed then leafAddr (moveBytes src dst n s.mem) (s.ctx (nounCtx n5)).ntab.toNat (nounIndex n5) else none) = _
  rw [show s.ctx (nounCtx n5) = (nt w0 w1 b0).ctx 0 from hc, show (((nt w0 w1 b0).ctx 0).resident || ((nt w0 w1 b0).ctx 0).killed) = true from rfl, leafAddr,
    show ((nt w0 w1 b0).ctx 0).ntab = 0x200000 from rfl, show (0x200000 : Word).toNat + 8 * fieldNat (nounIndex n5) 22 12 = 0x200000 by decide, e0]
  simp only [show 0x210000 + 8 * fieldNat (nounIndex n5) 11 11 = 0x210000 by decide, e1, if_pos,
    show 0x218000 + 16 * fieldNat (nounIndex n5) 0 11 = 0x218050 by decide]

theorem witness_Swaps :
    (∀ out ∈ [true, false], let s := csS (if out then 2 else 3) 0 n5 0x400100 0 (nt (leafW (if out then 2 else 3) 0xF 1) 0x260000 b0)
      ready2 s = true ∧ Memory.wf s.mem ∧ isOk (s.csTarget n5) (if out then 2 else 3) = true ∧ ((s.cs 2).addr).toNat % 4096 ≠ 0) ∧
    (∀ out ∈ [true, false], let s := csS (if out then 2 else 3) 0 n5 0x400000 0 (nt (leafW 1 0xF 1) 0 b0)
      ready2 s = true ∧ isOk (s.csTarget n5) 1 = true) ∧
    (∀ out ∈ [true, false], let s := csS (if out then 2 else 3) 0 n5 (if out then 0x4000000000000 else 0x400000) 0 (pooled (nt (leafW (if out then 2 else 3) 0xF 1) 0x260000 b0))
      ready2 s = true ∧ s.nounGroup n5 (if out then 2 else 3) = [n5] ∧ s.leafOf n5 = some 0x218050 ∧ s.imageOf n5 = 0x260000 ∧
        (rung s).swapArea out (if out then 0x4000000000000 else 0x400000) (alignUp (imageLenAt s.mem 0x260000) 4096) = true) ∧
    ([true, false].all fun out => let s := csS (if out then 2 else 3) 1 7 (if out then 0x4000000000000 else 0x400000) 0 (pooled (b0.updCtx 7 fun c => { c with resident := true }))
      ready2 s && ((tfind s.contexts 7).map fun x => x.killed) == some false &&
        ((s.ctx 7).cores.filter fun e => inVault e.2.addr == out).isEmpty && (rung s).swapArea out (if out then 0x4000000000000 else 0x400000) 4096) = true := by decide +kernel
theorem nounsAt_nil {s : State} (c n : Nat) (hm : s.mem = []) (ht : (s.ctx c).ntab = 0) : s.nounsAt c n = [] := by
  rw [State.nounsAt, hm, ht, reachedLeaves_nil _ (by decide)]; rfl
theorem witness_Swaps_nouns (out : Bool) (addr : Word) :
    (csS (if out then 2 else 3) 1 7 addr 0 (pooled (b0.updCtx 7 fun c => { c with resident := true }))).nounsAt 7 (if out then 2 else 3) = [] :=
  nounsAt_nil 7 _ rfl rfl

theorem witness_Swaps_moved (st n : Nat) (h : st = 2 ∨ st = 3) (dst : Nat) (hd : 0x400000 ≤ dst) :
    ((nt (leafW st 0xF 1) 0x260000 b0).updMem (moveBytes 0x260000 dst n)).leafOf n5 = some 0x218050 := by
  rcases h with rfl | rfl <;> exact moved_leaf rfl (by decide) rfl (by omega) (by decide) (by decide)

theorem witness_MovesAndRestores :
    (∀ op ∈ [(4 : BitVec 8), 5], let s := csS op 0 n5 0 0x8000 (nt (leafW 1 0xF 1) 0 b0)
      ready2 s = true ∧ (s.cs 2).flags.getLsbD 0 = false ∧ isOk (s.csTarget n5) 1 = true) ∧
    (∀ op ∈ [(4 : BitVec 8), 5], let s := csS op 0 n5 0 0x8000 (nt (leafW 2 0xF 1) 0x260000 b0)
      ready2 s = true ∧ isOk (s.csTarget n5) 2 = true ∧ s.nounGroup n5 2 = [n5] ∧ (0x8000 : Nat) / 2 ^ 15 % 1024 ≠ s.moduleNo ∧ Memory.wf s.mem ∧ s.leafOf n5 = some 0x218050) ∧
    (let s := csS 5 0 n5 0 0x170 (nt (leafW 2 0xF 1) 0x260000 b0)
     ready2 s = true ∧ isOk (s.csTarget n5) 2 = true ∧ (0x170 : Nat) / 2 ^ 15 % 1024 = s.moduleNo ∧ (0x170 : Nat) / 16 % 32 < 24 ∧ 24 ≤ (0x180 : Nat) / 16 % 32 ∧ s.phraseByNoun n5 = none) ∧
    (let s := (csS 5 0 n5 0 0 b0).updCs 2 fun c => { c with busy := true, status := some 0 }
     (s.cs 2).busy = true ∧ (s.cs 2).status = some 0) := by decide

/-- The SAVE of phrase 0, the last of its context on the core. -/
def saveS : State := csS 1 0 n5 0x400000 0 runs5
/-- The image lies clear of the noun's entry: every place it writes is at 0x400000 or above. -/
theorem imaged_leaf {v u : State} {l : List (Nat × Nat × Nat)} (hw : Memory.wf v.mem) (hu : u.mem = pokes l v.mem) (hl : l.all (fun e => decide (0x400000 ≤ e.1)) = true)
    (hc : (u.ctx 0).resident = true) (ht : (u.ctx 0).ntab = 0x200000) (h0 : readNat v.mem 0x200000 8 = 0x210001) (h1 : readNat v.mem 0x210000 8 = 0x218001) :
    u.leafOf n5 = some 0x218050 := by
  have h (a : Nat) (ha : a + 8 ≤ 0x400000) : readNat u.mem a 8 = readNat v.mem a 8 := by
    rw [hu, readNat, readNat, readBytes_congr _ v.mem a 8 fun i hi =>
      readByte_pokes_other _ (fun e he => .inl (by have := of_decide_eq_true (List.all_eq_true.1 hl e he); omega)) hw]
  have e0 : pointerAt u.mem 0x200000 = some 0x210000 := by rw [pointerAt, h _ (by omega), h0]; decide
  have e1 : pointerAt u.mem 0x210000 = some 0x218000 := by rw [pointerAt, h _ (by omega), h1]; decide
  rw [State.leafOf, show nounCtx n5 = 0 by decide]
  simp only [hc, Bool.true_or, if_true, leafAddr, ht, show (0x200000 : Word).toNat + 8 * fieldNat (nounIndex n5) 22 12 = 0x200000 by decide, e0,
    show 0x210000 + 8 * fieldNat (nounIndex n5) 11 11 = 0x210000 by decide, e1, show 0x218000 + 16 * fieldNat (nounIndex n5) 0 11 = 0x218050 by decide]
theorem saveS_places : (((rung saveS).stopGroup 0).imagePokes 0 0x400000 false).all (fun e => decide (0x400000 ≤ e.1)) = true := by decide +kernel
theorem saveS_leaf : (((rung saveS).stopGroup 0).writeImage 0 0x400000 false).leafOf n5 = some 0x218050 :=
  imaged_leaf (v := (rung saveS).stopGroup 0) (by decide) (writeImage_mem _ _ _ _) saveS_places (by rw [writeImage_ctx]; decide) (by rw [writeImage_ctx]; decide) (by decide) (by decide)
theorem witness_SavedImages : let s := saveS
    let u := rung s
    let v := u.stopGroup 0
    ready2 s = true ∧ (s.cs 2).op = 1 ∧ (s.cs 2).flags.getLsbD 0 = false ∧ isOk (s.csTarget n5) 1 = true ∧ s.phraseByNoun n5 = some 0 ∧ (s.phr 0).noun = n5 ∧ s.saveGroup 0 = [0] ∧
      s.mainOf 0 = 0 ∧ (s.phr 0).leaving = .no ∧ (s.phr 0).present = true ∧ vaultArea 0x400000 (u.groupSize 0) = true ∧ v.allDrained [0] = true ∧ Memory.wf s.mem ∧
      (s.ctx 0).flist.toNat = 0 ∧ 0x218050 + 16 ≤ 0x400000 ∧ s.fragsOf 0 = [0] ∧ (s.frag 0).num = 0 ∧
      (entries (s.frag 0).queue).length ≤ 32 ∧ (entries (s.frag 0).img1.queue).length ≤ 32 ∧ (entries (s.frag 0).img2.queue).length ≤ 32 ∧ (s.phr 0).mate = none ∧
      ((s.phr 0).lanes.map (·.1)).Nodup ∧ (∀ e ∈ (s.phr 0).lanes, e.1 < 32 * (s.phr 0).regs) ∧ ((v.writeImage 0 0x400000 false).takeOff 0).lastOn 0 0 = true := by decide +kernel

/-- Phrase 0 has been saved at 0x260000, with 64 lane registers; its place is core 1, slot 7. -/
def restS : State :=
  csS 5 0 n5 0 0x17 ((phr (fun p => { p with noun := n5, present := false }) (nt (leafW 2 0xF 1) 0x260000 b0)).updMem fun m =>
    pokes [(0x260048, 4, 0xFFFFFFFF), (0x26005E, 2, 64), (0x261200, 8, 0x2000), (0x261208, 4, 3)] m)
theorem witness_RestoredPhrases : let s := restS
    ready2 s = true ∧ (s.cs 2).op = 5 ∧ (s.cs 2).flags.getLsbD 0 = false ∧ isOk (s.csTarget n5) 2 = true ∧ (0x17 : Nat) / 2 ^ 15 % 1024 = s.moduleNo ∧ (0x17 : Nat) / 16 % 32 < 24 ∧
      s.phraseByNoun n5 = some 0 ∧ (s.phr 0).noun = n5 ∧ s.mainOf 0 = 0 ∧ s.restoreGroup 0 = [0] ∧ s.regionOk n5 1 = true ∧ s.placeRoom 0 1 7 1 (readNat s.mem 0x26005E 2 % 512) = true ∧
      readNat s.mem 0x26006C 4 = 0 ∧ (s.frag (fragKey 0 0)).wait ≠ .token ∧ Memory.wf s.mem ∧ s.leafOf n5 = some 0x218050 ∧ s.imageOf n5 = 0x260000 ∧ 0x218050 + 16 ≤ 0x260000 ∧
      ∀ i, i < 16 → inScratch (0x218050 + i) = false := by decide +kernel

/-! ### Hosts -/

/-- HP0's noun port 3, enabled for context 0. -/
def port3 (g : NounPort → NounPort) (s : State) : State := s.updNport 3 fun _ => g { en := true, ctx := 0 }
def npc (op : BitVec 8) (value : Word) : NpCmd := { op := op, reg := 0, force := false, tag := 0x77, noun := n5, value := value, caddr := 0x1000, rsvd := false, tbit := false }
/-- HP0's cache translates the pages 0 and 1 of context 0. -/
def xl (s : State) : State := s.updHostPort false fun p => { p with atc := [⟨0, 0, 0, false⟩, ⟨0, 1, 9, true⟩] }
/-- n5 names a mailbox at 0x1080 of context 0, in page 1 (R386). -/
def mail5 : State := nt (leafW 5 0xF 1) 0x1080 b0
def mails : List NounAct := [.wake, .signal 3, .deposit 3 9 false, .deposit 0 9 true]
/-- What the mailbox's head holds, where the port sends to it. -/
def mailH (head : Nat) (s : State) : State := s.updMem (writeNat 0x100000000009080 8 head)
theorem mailH_head (head : Nat) (h : head < 2 ^ 64) : readNat (mailH head mail5).mem 0x100000000009080 8 = head := by
  rw [mailH, State.updMem]; exact (readNat_writeNat _ _ _ (by decide)).trans (Nat.mod_eq_of_lt (by omega))
theorem mailH_other (head a n : Nat) (h : a + n ≤ 0x100000000009080) : readNat (mailH head mail5).mem a n = readNat mail5.mem a n := by
  rw [mailH, State.updMem, readNat, readNat, readBytes_congr _ mail5.mem a n fun i hi => readByte_writeNat_other _ (.inl (by omega)) (by decide)]
theorem mailH_leaf (head : Nat) : (mailH head mail5).leafOf n5 = some 0x218050 := by
  have e0 : pointerAt (mailH head mail5).mem 0x200000 = some 0x210000 := by rw [pointerAt, mailH_other _ _ _ (by omega)]; decide
  have e1 : pointerAt (mailH head mail5).mem 0x210000 = some 0x218000 := by rw [pointerAt, mailH_other _ _ _ (by omega)]; decide
  show (if (mail5.ctx (nounCtx n5)).resident || (mail5.ctx (nounCtx n5)).killed then leafAddr (mailH head mail5).mem (mail5.ctx (nounCtx n5)).ntab.toNat (nounIndex n5) else none) = _
  rw [if_pos (by decide), leafAddr, show (mail5.ctx (nounCtx n5)).ntab.toNat + 8 * fieldNat (nounIndex n5) 22 12 = 0x200000 by decide, e0]
  simp only [show 0x210000 + 8 * fieldNat (nounIndex n5) 11 11 = 0x210000 by decide, e1, show 0x218000 + 16 * fieldNat (nounIndex n5) 0 11 = 0x218050 by decide]
/-- With nothing before it, and no host request or migration, an operation may be delivered, whatever memory holds. -/
theorem nounReady_alone {s : State} {o : NounOp} (h : o.msg = none) (hr : ∀ b, (s.hostPort b).reqs = []) (hn : s.nouns = [o]) (ha : s.accs = []) (hm : s.migs = []) :
    s.nounReady o = true := by
  have hq (x y : Nat) : s.pageAsked x y = false := by rw [State.pageAsked, hr]; rfl
  have hw : s.mailWaits o = false := by rw [State.mailWaits]; cases s.mailOf o <;> simp [hq]
  have hf (n : Word) : s.fwdFull n = false := by rw [State.fwdFull, hm]; rfl
  rw [State.nounReady, h, hw, hn, ha]
  simp only [hf, List.any_cons, List.any_nil, Nat.lt_irrefl, decide_false, Bool.false_and, Bool.and_false, Bool.or_false, Bool.not_false, Bool.and_true,
    Option.isNone_none, Bool.true_and]
  split <;> split <;> first | rfl | (split <;> rfl)
theorem mail_ready (m : Mem) (act : NounAct) : ({ dl act n5 (xl mail5) with mem := m } : State).nounReady (nop act n5) = true :=
  nounReady_alone rfl (fun b => by cases b <;> rfl) rfl rfl rfl
theorem witness_NounDeliveries_mailbox :
    (∀ act ∈ mails, deliv act n5 mail5 = true ∧ deliv act n5 (mail5.updHostPort false fun p => { p with gone := true }) = true ∧
      (let o : NounOp := { nop act n5 with mailFail := true }
       let s : State := { mail5 with nouns := [o], nextId := 101 }
       (s.nouns.find? fun x => x.id == o.id) = some o ∧ s.nounReady o = true ∧ s.nounCache = [] ∧ o.granted = false ∧ s.joinsSelf o = false)) ∧
    (nop .wake n5).mailFail = false ∧ mail5.hportOf 0 = false ∧ (mail5.hostPort false).gone = false ∧ ((xl mail5).hostPort false).gone = false ∧
    mail5.atcHit false 0 1 true = false ∧ (mail5.hostPort false).reqs = [] ∧ (xl mail5).atcHit false 0 1 true = true ∧
    mail5.leafOf n5 = some 0x218050 ∧ readNat mail5.mem 0x218050 8 = leafW 5 0xF 1 ∧ readNat mail5.mem 0x218058 8 = 0x1080 ∧ (mail5.ctx 0).killed = false ∧
    (xl mail5).hostAddr false 0 0x1080 = 0x100000000009080 ∧ (BitVec.ofNat 64 8 : Word).getLsbD 3 = true ∧ (BitVec.ofNat 64 0 : Word).getLsbD 3 = false := by decide
/-- The same with the page translated, and the head given: 8, with pending bit 3, or 0. -/
theorem witness_NounDeliveries_translated (head : Nat) (h : head = 0 ∨ head = 8) : Memory.wf (mailH head mail5).mem ∧ (mailH head mail5).leafOf n5 = some 0x218050 ∧
    readNat (mailH head mail5).mem 0x218050 8 = leafW 5 0xF 1 ∧ readNat (mailH head mail5).mem 0x218058 8 = 0x1080 ∧ readNat (mailH head mail5).mem 0x100000000009080 8 = head ∧
    ∀ act ∈ mails, (mailH head (dl act n5 (xl mail5))).nounReady (nop act n5) = true :=
  ⟨writeNat_wf _ _ _ (by decide), mailH_leaf _, (mailH_other _ _ _ (by decide)).trans (by decide), (mailH_other _ _ _ (by decide)).trans (by decide), mailH_head _ (by omega),
    fun act _ => mail_ready _ act⟩
def tdi (x : Tdisp) (s : State) : State := s.setTdisp false x

theorem witness_NounPortCommands :
    ((tdi .error b0).hostPort false).tdisp = .error ∧ ((tdi .run b0).hostPort false).tdisp = .run ∧ (npc 1 0).tbit = false ∧
    (b0.hostPort false).tdisp ≠ .error ∧ (b0.hostPort false).tdisp ≠ .run ∧ (b0.nport 3).en = false ∧
    (let s := port3 id b0
     (s.nport 3).en = true ∧ (17 : Nat) ∉ (s.nport 3).busy ∧ (s.nport 3).cmds = [] ∧ (s.nport 3).bound = none ∧ s.npBusy false 3 = false ∧ (s.ctx (s.nport 3).ctx).resident = true) ∧
    (let s := port3 (fun p => { p with bound := some n5 }) b0
     (s.nport 3).bound.isSome = true ∧ (s.ctx (s.nport 3).ctx).resident = true) ∧
    (let s := (port3 (fun p => { p with bound := some n5 }) b0).updCtx 0 fun c => { c with resident := false }
     (s.ctx (s.nport 3).ctx).resident = false ∧ (s.ctx (s.nport 3).ctx).killed = false ∧ s.npBusy false 3 = false ∧
       ((s.updCtx 0 fun c => { c with killed := true }).ctx 0).killed = true) ∧
    (let s : State := { port3 (fun p => { p with bound := some n5 }) b0 with nouns := [{ nop .wake n5 with src := .port false 3 1 0 0 }] }
     s.npBusy false 3 = true) ∧
    (npc 1 0).bell = 1 ∧ ({ npc 1 0 with bell := 2 } : NpCmd).bell ≠ 1 ∧ (17 : Nat) ∈ ((port3 (fun p => { p with busy := [17] }) b0).nport 3).busy ∧
    (let s := xl (port3 id b0)
     s.hportOf 0 = false ∧ (s.hostPort false).gone = false ∧ s.atcHit false 0 ((npc 1 0).caddr.toNat / 4096) true = true ∧
       s.atcHit false 0 ((npc 1 0).value.toNat / 4096) false = true ∧ s.hostAddr false 0 (npc 1 0).caddr.toNat = 0x100000000009000) ∧
    ((b0.updHostPort false fun p => { p with gone := true }).hostPort false).gone = true ∧
    (port3 (fun p => { p with pfail := true, bound := some n5 }) b0).nport 3 = { en := true, ctx := 0, pfail := true, bound := some n5 } ∧
    (∀ op ∈ [(0x01 : BitVec 8), 0x02, 0x10, 0x11, 0x12, 0x13, 0x14, 0x20], (npc op 0).rsvd = false ∧ (npc op 0).op = op ∧ (npc op 0).caddr.toNat % 16 = 0 ∧ (npc op 0).value.toNat % 128 = 0) := by decide

theorem witness_NounPortBinds_none : (port3 id b0).allocNoun 0 1 5 0xF 0 = none := by
  rw [State.allocNoun, show freeLeaf (port3 id b0).mem ((port3 id b0).ctx 0).ntab.toNat = none from freeLeaf_nil 0 (by decide)]
theorem witness_NounPortBinds :
    ((port3 id (nt 0 0 b0)).allocNoun 0 1 5 0xF 0).isSome = true ∧
    (let s := port3 (fun p => { p with bound := some n5 }) (nt (leafW 5 0xF 1) 0 b0)
     (s.nport 3).bound = some n5 ∧ s.leafOf n5 = some 0x218050 ∧ (readLeaf s.mem 0x218050).state ≠ 6 ∧ (readLeaf s.mem 0x218050).gen = nounGen n5 ∧ s.joins = [] ∧ Memory.wf s.mem ∧
       0x218050 + 16 ≤ (xl s).hostAddr false 0 ((npc 2 0).caddr).toNat) ∧ (2 : Nat) ^ 16 > 0 := by decide +kernel

/-- A packet in host memory: verb 0, one phrase of 32 lanes (R209), and one with LASTLANES 0, which is malformed. -/
def pkByte (lanes : Byte) (i : Nat) : Byte := if i = 4 then 1 else if i = 8 then lanes else 0
def pkMem (lanes : Byte) : Nat → Mem
  | 0 => []
  | n + 1 => writeByte (0x100000000000000 + n) (pkByte lanes n) (pkMem lanes n)
theorem pkMem_wf (lanes : Byte) (n : Nat) : Memory.wf (pkMem lanes n) := by
  induction n with
  | zero => exact wf_nil
  | succ n ih => exact writeByte_wf _ _ ih
theorem pkMem_byte (lanes : Byte) (n i : Nat) (h : i < n) : readByte (pkMem lanes n) (0x100000000000000 + i) = pkByte lanes i := by
  induction n with
  | zero => omega
  | succ n ih =>
    by_cases e : i = n
    · subst e; exact readByte_writeByte_same _ _ (pkMem_wf lanes i)
    · exact (readByte_writeByte_other _ (by omega) (pkMem_wf lanes n)).trans (ih (by omega))
theorem readBytes_range (m : Mem) (a n : Nat) : readBytes m a n = (List.range n).map fun i => readByte m (a + i) := by
  induction n generalizing a with
  | zero => rfl
  | succ n ih =>
    rw [readBytes, ih, List.range_succ_eq_map, List.map_cons, List.map_map]
    exact congrArg _ (List.map_congr_left fun i _ => by rw [Function.comp_apply, Nat.add_assoc, Nat.add_comm 1 i])
theorem pkMem_bytes (lanes : Byte) (n : Nat) : readBytes (pkMem lanes n) 0x100000000000000 n = (List.range n).map (pkByte lanes) := by
  rw [readBytes_range]; exact List.map_congr_left fun i hi => pkMem_byte lanes n i (List.mem_range.1 hi)
theorem witness_NounPortApplies : (xl b0).hostAddr false 0 0 = 0x100000000000000 ∧ packetOf (readBytes (pkMem 0 128) 0x100000000000000 128) = none ∧ (packetOf (readBytes (pkMem 32 128) 0x100000000000000 128)).isSome = true := by
  refine ⟨by decide, ?_⟩
  rw [pkMem_bytes, pkMem_bytes]; decide +kernel

def lease (L : Lease) (s : State) : State := s.updHost fun h => { h with lease := L }
def standing (s : State) : State := (s.updHostPort true fun p => { p with linkup := true }).updHost fun h => { h with standby := 2 }
theorem witness_Leases : ((b0.hostPort false).tdisp ≠ .run) ∧
    (let s := lease ⟨true, false, 1000, some false, false⟩ b0
     s.host.lease.valid = true ∧ s.dtime < s.host.lease.expiry ∧ s.host.lease.holder = false ∧ s.host.lease.holder ≠ true ∧ s.host.lease.expiry ≤ s.dtime + 10000000 ∧
       s.host.lease.near = false ∧ s.host.lease.last = some false ∧ s.host.standby.getLsbD 1 = false) ∧
    b0.host.lease.valid = false ∧ b0.host.lease.last ≠ some true ∧ b0.host.pending = 0 ∧ b0.host.events = [] ∧ b0.dtime < b0.dtime + 1 ∧
    (let s := { lease ⟨true, false, 1000, some false, false⟩ b0 with elevenths := 11 * 1000 }
     s.host.lease.valid = true ∧ s.host.lease.expiry ≤ s.dtime ∧ (s.hostPort false).tdisp ≠ .run) ∧
    (let s := standing (lease ⟨true, false, 1000, some false, false⟩ b0)
     s.host.standby.getLsbD 1 = true ∧ (s.hostPort true).linkup = true ∧ s.host.pending = 0 ∧ s.accs = [] ∧ (∀ e ∈ s.host.ports, e.2.en = false) ∧ (s.contexts.map (·.1)).Nodup ∧
       s.dtime < s.host.lease.expiry) := by decide

/-- R486, R488: a lease that is taken at DTIME 0 for 2 × 10^10 ns runs to 10^10. -/
theorem test_lease_example : (match exec (.leaseWrite ⟨false, false⟩ 0x80000004A817C800) b0 with | .next t => t.host.lease == ⟨true, false, 10000000000, some false, false⟩ | _ => false) = true := by decide +kernel

theorem witness_HostRestarts : (b0.hostPort false).tdisp ≠ .run ∧ b0.accs = [] ∧ (∀ e ∈ (port3 id b0).host.ports, e.2.bound = none ∧ e.2.comps = []) := by decide

/-- HP0 holds the lease. -/
def held0 (s : State) : State := lease ⟨true, false, 1000, some false, false⟩ s
theorem witness_RegisterWrites : ¬(b0.host.lease.valid = true ∧ b0.host.lease.holder = false) ∧ (held0 b0).host.lease.valid = true ∧ (held0 b0).host.lease.holder = false ∧ (held0 b0).dtime < (held0 b0).host.lease.expiry ∧
    ((held0 b0).hostPort false).tdisp = .unlocked ∧ ((tdi .run (held0 b0)).hostPort false).tdisp ≠ .unlocked ∧
    (let s := (held0 b0).updLq 5 fun q => { q with items := [1], part := 1 }
     (s.lq 5).items ≠ [] ∧ (s.lq 5).part ≠ ((0 : Word).extractLsb' 24 3).toNat) ∧ ((held0 b0).lq 5).items = [] ∧
    ((held0 b0).core 0).frozen = false ∧ (((held0 b0).updCore 0 fun c => { c with frozen := true }).core 0).frozen = true ∧ (∀ e ∈ (held0 b0).frags, e.2.ready = []) ∧ (held0 b0).accs = [] ∧
    ((held0 b0).nport 3).en = false ∧ ((port3 id (held0 b0)).nport 3).en = true ∧ ((port3 id (held0 b0)).nport 3).bound = none := by decide
theorem witness_RegisterWrites_features : (∃ e ∈ (held0 b0).contexts, e.2.resident = true) ∧
    ((held0 b0).updHost fun h => { h with feat := 1 }).host.feat &&& ~~~((0 : BitVec 128) &&& (held0 b0).featoff &&& ~~~2) ≠ 0 ∧
    (held0 b0).host.feat &&& ~~~((1 : BitVec 128) &&& (held0 b0).featoff &&& ~~~2) = 0 ∧ (∀ e ∈ State.reset.contexts, e.2.resident = false) ∧
    tfind (held0 b0).pool.extents 0 = none ∧ (tfind (held0 (pooled b0)).pool.extents 0).isSome = true ∧ (∀ d ∈ (held0 (pooled b0)).pool.draining, d.1 ≠ 0) ∧
    (0x8000000000000000 : Word).getLsbD 63 = true ∧ (0x8000000000000000 : Word).extractLsb' 5 58 = 0 := by decide

/-- In RUN a write without the T bit and a read without it are both refused; an expired lease holds nothing. -/
theorem witness_UntrustedWrites : ((tdi .run b0).hostPort false).tdisp = .run ∧
    (let s := { held0 b0 with elevenths := 11 * 1000 }
     s.host.lease.valid = true ∧ ¬ s.dtime < s.host.lease.expiry) := by decide

theorem witness_PageOffsets : ((held0 b0).hostPort false).tdisp ≠ .run ∧ (held0 b0).dtime < (held0 b0).host.lease.expiry ∧ (held0 b0).host.lease.valid = true ∧ (held0 b0).host.lease.holder = false ∧
    ([((1 : BitVec 8), (0 : BitVec 8)), (1, 1), (2, 0), (2, 1), (3, 0), (3, 1), (4, 0), (5, 0)].all fun e => ((csS e.1 e.2 n5 0 0 (held0 b0)).cs 2).op == e.1 &&
      (csS e.1 e.2 n5 0 0 (held0 b0)).host.lease.valid) = true ∧ ¬(b0.host.lease.valid = true ∧ b0.host.lease.holder = false) := by decide +kernel

theorem witness_PageReads : ((tdi .run b0).hostPort false).tdisp = .run ∧ (b0.hostPort false).tdisp ≠ .run ∧ (b0.hostPort false).tdisp ≠ .error ∧ ((tdi .error b0).hostPort false).tdisp = .error ∧ (63 : Nat) < 64 ∧ (15 : Nat) < 16 ∧ (27 : Nat) < 28 ∧ (pooled b0).pool.extents = [(0, (0, 4))] ∧ tfind (pooled b0).pool.extents 0 = some (0, 4) ∧ 0xF00C % 8 ≠ 0 := by decide

def aperture (w : Word) (s : State) : State := s.updHost fun h => { h with hwin := [(0, w)] }
theorem witness_PageEffects : ((held0 b0).hostPort false).tdisp ≠ .run ∧ (held0 b0).host.lease.valid = true ∧ (held0 b0).host.lease.holder = false ∧ (held0 b0).dtime < (held0 b0).host.lease.expiry ∧
    ((held0 b0).updHost fun h => { h with pending := 0x8000 }).host.pending.getLsbD (31 / 2) = true ∧ (0 : Word).getLsbD 32 = false ∧
    ((held0 b0).hostPort false).tdisp = .unlocked ∧ ((tdi .locked (held0 b0)).hostPort false).tdisp ≠ .unlocked ∧ ((held0 b0).cs 15).busy = false ∧
    (((held0 b0).updCs 15 fun c => { c with busy := true }).cs 15).busy = true ∧ (0 : Word) ≠ 1 := by decide

theorem witness_HostWindow : ((tdi .error b0).hostPort false).tdisp = .error ∧ ((tdi .run b0).hostPort false).tdisp = .run ∧ (b0.hostPort false).tdisp ≠ .error ∧ (b0.hostPort false).tdisp ≠ .run ∧
    (tget 0 b0.host.hwin 0).getLsbD 63 = false ∧
    (let e : Word := tget 0 (aperture 0xC000000000000000 b0).host.hwin 0
     e.getLsbD 63 = true ∧ e.getLsbD 62 = true ∧ (e.extractLsb' 32 20).toNat * 2 ^ 32 + 0x1000 + 8 ≤ 0x400000000 ∧ 0x1000 + 8 ≤ 2 ^ 32 ∧ 0x1000 % 8 = 0) ∧
    (let e : Word := tget 0 (aperture 0xC000000400000000 b0).host.hwin 0
     0x400000000 ≤ (e.extractLsb' 32 20).toNat * 2 ^ 32 ∧ (e.extractLsb' 32 20).toNat * 2 ^ 32 < 0x4000000000000) ∧ b0.poison = [] ∧ Memory.wf b0.mem := by decide

def hreq (pri quiet write : Bool) (fl : List Nat) : HostReq := { ctx := 0, page := 9, write := write, pri := pri, quiet := quiet, since := 0, flidx := fl }
def asked (q : HostReq) : State := { (b0.updHostPort false fun p => { p with reqs := [q] }) with frags := [], elevenths := 11 * 1000000000 }
theorem witness_HostAnswers : (∀ q ∈ [hreq false true true [], hreq false false false [0x2000], hreq true false true [0x2000]], (asked q).accs = [] ∧ (asked q).copies = [] ∧ (asked q).frags = [] ∧ (∀ e ∈ (asked q).host.ports, e.2.comps = [] ∧ e.2.cmds = []) ∧
      q.ctx = 0 ∧ q.page = 9 ∧ Memory.wf (asked q).mem ∧ ((asked q).hostPort false).reqs = [q]) ∧
    (((asked (hreq false true true [])).hostPort false).reqs.find? fun r => r.ctx == 0 && r.page == 9 && !r.pri) = some (hreq false true true []) ∧
    (((asked (hreq true false true [])).hostPort false).reqs.find? fun r => r.ctx == 0 && r.page == 9 && !r.pri) = none ∧
    (((asked (hreq true false true [])).hostPort false).reqs.find? fun r => r.ctx == 0 && r.page == 9 && r.pri) = some (hreq true false true []) ∧
    (((asked (hreq false false true [])).hostPort false).reqs.find? fun r => r.ctx == 0 && r.page == 9 && r.pri) = none ∧
    (asked (hreq true false true [])).pageAwaited false 0 9 = false ∧ (asked (hreq false false true [])).pageHeld false 0 9 = false ∧
    ((asked (hreq false false true [])).updHostPort false fun p => { p with reqs := hreq true false true [] :: p.reqs }).pageHeld false 0 9 = true ∧
    (asked (hreq false false true [])).accepted 5 = false ∧ ((asked (hreq false false true [])).updHost fun h => { h with feat := 0x20 }).accepted 5 = true ∧
    (hreq true false true []).since + 1000000000 ≤ (asked (hreq true false true [])).dtime := by decide

def pacc : Access := { acc .store 8 8 .none 7 with lanes := [{ lane := 0, addr := 0x1010, data := 7, parts := [⟨0x4000000000000, 8, 2, 0⟩] }] }
/-- A copy whose destination is a page of the pool. -/
def poolCopy : State := pooled ((bcRun 0x7000).updCore 0 fun c => { c with tlb := ⟨0, 7, 0, 0x4000000000000, 0, false, false, true, false, true, true⟩ :: c.tlb })
theorem witness_CxlEvents :
    (let s := { b0 with pool := { b0.pool with extents := (List.range 28).map fun n => (n, (n, 1)) } }
     ∀ n, n < 28 → (tfind s.pool.extents n).isSome = true) ∧
    (let s := { b0 with pool := { b0.pool with extents := (List.range 27).map fun n => (n, (n, 1)) } }
     tfind s.pool.extents 27 = none ∧ ∀ m, m < 27 → (tfind s.pool.extents m).isSome = true) ∧
    b0.canRaise 5 = false ∧ b0.findAcc 99 = none ∧ (∀ c ∈ b0.copies, c.id ≠ 99) ∧ b0.host.lease.valid = false ∧
    (held0 b0).canRaise 5 = false ∧ (held0 b0).host.lease.valid = true ∧ (held0 b0).dtime < (held0 b0).host.lease.expiry ∧
    ((held0 b0).updHostPort false fun p => { p with mask := 0 }).canRaise 5 = true ∧
    ({ held0 b0 with elevenths := 11 * 1000 } : State).host.lease.expiry ≤ ({ held0 b0 with elevenths := 11 * 1000 } : State).dtime ∧
    (let s := poolCopy
     s.findAcc (runCopy s).id = none ∧ s.copies = [runCopy s] ∧ (tfind s.phrases (runCopy s).phrase).isSome = true ∧ (s.copyPoolVa (runCopy s)).isSome = true) ∧
    (let s := ofAcc pacc
     s.findAcc 1 = some pacc ∧ pacc.kind = .store ∧ s.accs = [pacc] ∧ (s.frag 0).tl.toNat < 2 ∧ (s.frag 0).wait = .none ∧ (s.frag 0).ready = [] ∧ s.results = [] ∧ s.laneOps = [] ∧
       (s.frag 0).live = true ∧ (s.core (s.coreOf 0)).frozen = false ∧ (s.frag 0).stopped = false) := by decide

theorem witness_DeviceInterface : (∀ x ∈ [Tdisp.unlocked, .locked, .run, .error], ((tdi x (b0.updHost fun h => { h with feat := 0x40 })).hostPort false).tdisp = x ∧
      (tdi x (b0.updHost fun h => { h with feat := 0x40 })).accepted 6 = true) ∧ b0.accepted 6 = false ∧ (b0.hostPort false).spdm.secured = false ∧
    ((b0.updSpdm false fun x => { x with secured := true }).hostPort false).spdm.secured = true := by decide

/-- A session at its start, with a request under sequence number 0; secured or in its handshake. -/
def session (secured : Bool) : Spdm := { negotiated := true, session := true, secured := secured, secret := [1], th1 := [2], th2 := [3], transcript := [4] }
def spoken (x : Spdm) (m : List Byte) : List Byte := sealRecord (x.dirKey true) (x.dirIv true) x.reqSeq m
theorem spoken_opens (secured : Bool) (m : List Byte) : (session secured).opens (spoken (session secured) m) = some m := opens_sealed _ rfl _
theorem witness_DeviceInterface_sealed :
    (((b0.updSpdm false fun _ => session true).hostPort false).spdm = session true) ∧ (session true).secured = true ∧
    (∃ m, (session true).opens (spoken (session true) [0x13, 0xFE, 0, 0]) = some m ∧ m[1]?.getD 0 = 0xFE) ∧
    ¬(∃ m, (session true).opens [] = some m ∧ m[1]?.getD 0 = 0xFE) :=
  ⟨rfl, rfl, ⟨_, spoken_opens true _, rfl⟩, by rw [opens_nil]; simp⟩
/-- FINISH with the code of the key schedule, with another, and what is not a FINISH; END_SESSION. -/
theorem witness_SpdmAnswers_sealed : let x := session false
    let mac := hmac (finishedKey x.secret x.th1 true) (sha3 x.transcript)
    ((b0.updSpdm false fun _ => x).hostPort false).spdm = x ∧ x.session = true ∧ x.opens [] = none ∧
    x.opens (spoken x ([0x13, 0xE5, 0, 0] ++ mac)) = some ([0x13, 0xE5, 0, 0] ++ mac) ∧ ([] : List Byte) ≠ mac ∧ x.opens (spoken x [0x13, 0xE5, 0, 0]) = some [0x13, 0xE5, 0, 0] ∧
    x.opens (spoken x [0x13, 0xEC, 0, 0]) = some [0x13, 0xEC, 0, 0] :=
  ⟨rfl, rfl, opens_nil _, spoken_opens false _, (fun h => by have := congrArg List.length h; rw [hmac_length] at this; cases this), spoken_opens false _, spoken_opens false _⟩

theorem witness_SpdmOpens : (b0.hostPort false).spdm.version = false ∧ ((b0.updSpdm false fun x => { x with version := true }).hostPort false).spdm.version = true ∧
    (b0.hostPort false).spdm.negotiated = false ∧ (b0.hostPort false).spdm.session = false ∧ algAsym ∈ [algAsym] ∧ algHash ∉ ([] : List Nat) := by decide
theorem witness_SpdmAnswers : ((b0.updSpdm false fun x => { x with negotiated := true }).hostPort false).spdm.negotiated = true ∧
    ((b0.updSpdm false fun x => { x with session := true }).hostPort false).spdm.session = true := by decide

/-! ### The fabric -/

/-- With optical port 2 as given, and FABRIC accepted. -/
def fp (p : FPort) : State := ({ (b0.updHost fun h => { h with feat := 8 }) with moduleNo := 3 } : State).updFabric fun f => { f with ports := [(2, p)] }
/-- A port that is up, whose calendar names module 9 at index 1. -/
def up1 : FPort := { up := true, cal0 := [(1, 0x8009)], index := 1 }
/-- The same, after the peer's preamble. -/
def on1 (p : FPort) : FPort := { p with up := true, cal0 := [(1, 0x8009)], index := 1, peer := some 9, peerMask := 0xF }

theorem witness_SlotsBegin :
    (match exec (.slotStart 2 1) (fp up1) with
      | .next t => (t.fport 2).up && (fp up1).accepted 3 && (tget 0 (t.fport 2).cal0 1).getLsbD 15 && !(t.fport 2).bank && (t.fport 2).out.length == 1
      | _ => false) = true ∧
    (match exec (.slotStart 2 0) (fp up1) with | .next t => (t.fport 2).up && !(tget 0 (t.fport 2).cal0 0).getLsbD 15 && (t.fport 2).out.isEmpty | _ => false) = true ∧
    (1 : BitVec 6) ≠ 0 ∧ (fp up1).svc ≠ .full ∧ ({ fp up1 with svc := .full } : State).svc = .full ∧ (up1.bank = false) ∧ ({ up1 with bank := true } : FPort).bank = true := by decide +kernel

/-- A preamble of module 9 for plane 0, index 1, with a boot epoch and a LANEMASK byte. -/
def preamb (index boot mask : Nat) : List Byte :=
  withCrc (takeFill 0 252 ([0, BitVec.ofNat 8 index, 9, 0, BitVec.ofNat 8 mask, 0] ++ bytesOf boot 2 ++ bytesOf 4 2 ++ bytesOf 9 2 ++ bytesOf 0x8005 2))
def rightP (p : FPort) (x : List Byte) : Bool :=
  natOf (x.take 1) % 16 == p.plane && natOf ((x.drop 1).take 1) == p.index && (tget 0 p.cal0 p.index).getLsbD 15 &&
    ((tget 0 p.cal0 p.index).extractLsb' 0 10).toNat == natOf ((x.drop 2).take 2) % 1024
theorem preamb_crc (index boot mask : Nat) : crcGood (preamb index boot mask) = true := crcGood_withCrc (takeFill_length _ _ _)
/-- 256 bytes whose CRC is one more than it should be. -/
def badCrc : List Byte := takeFill 1 252 [] ++ bytesOf ((crc32 (takeFill 1 252 []) + 1) % 2 ^ 32) 4
theorem badCrc_bad : crcGood badCrc = false := by
  have := crc32_lt (takeFill 1 252 [])
  exact crcGood_false _ (takeFill_length _ _ _) (Nat.mod_lt _ (by decide)) (by omega)
theorem witness_Preambles :
    ((fp {}).fport 2).up = false ∧ ((fp up1).fport 2) = up1 ∧ (fp up1).accepted 3 = true ∧ up1.bank = false ∧
    rightP up1 (preamb 2 1 15) = false ∧ rightP up1 (preamb 1 1 15) = true ∧ tfind (fp up1).fabric.boots 9 = none ∧ (15 : Nat).testBit 7 = false ∧
    (∀ b, ({ up1 with rx := [⟨9, 1, 0, b⟩, ⟨9, 0, 0, true⟩] } : FPort).rx.filter (fun k => k.src == 9) = ⟨9, 1, 0, b⟩ :: [⟨9, 0, 0, true⟩]) ∧
    rightP up1 (preamb 1 1 0x8F) = true ∧ (0x8F : Nat).testBit 7 = true ∧
      tfind ((fp up1).updFabric fun f => { f with boots := [(9, 1)] }).fabric.boots 9 = some (BitVec.ofNat 16 (natOf ((preamb 1 1 0x8F).drop 6 |>.take 2))) := by decide +kernel

/-- A flit of module 9, under key 0 of generation 0. -/
def flit (typ vc dst lseq : Nat) (bs : List Byte) : List Byte := sealFlit 0 0 0 (flitHeader typ vc 9 dst lseq 0 0) bs
def rx1 : FPort := on1 { rx := [⟨9, 0, 0, false⟩], room := 5 }
theorem key0_length : (keyBytes 0).length = 32 := by rw [keyBytes, List.length_map, length_bytesOf]
/-- Such a flit is good, is from module 9, and opens to its payload. -/
theorem flit_opens {typ vc dst lseq : Nat} {bs : List Byte} (h : bs.length = 220)
    (hg : natOf (((flitHeader typ vc 9 dst lseq 0 0).drop 8).take 4) = 0) (hc : natOf (((flitHeader typ vc 9 dst lseq 0 0).drop 12).take 4) = 0) :
    openFlit 0 (flit typ vc dst lseq bs) = some bs ∧ crcGood (flit typ vc dst lseq bs) = true :=
  openFlit_sealFlit (length_bytesOf _ _) h hg hc (gcmStream_length key0_length _ _) (gcmTag_length key0_length _)
/-- The header of a flit, its generation, and that the port has its key. -/
def fieldsAre (x : List Byte) (typ vc dst lseq : Nat) : Bool := let h : Word := BitVec.ofNat 64 (natOf (x.take 8))
  natOf (x.take 1) == typ && (h.extractLsb' 16 10).toNat == 9 && (h.extractLsb' 26 10).toNat == dst && (h.extractLsb' 8 1).toNat == vc && (h.extractLsb' 48 16).toNat == lseq &&
    (rx1.rx.find? fun k => k.src == 9 && k.gen.toNat == natOf ((x.drop 8).take 4)) == some ⟨9, 0, 0, false⟩
/-- Flits of the link layer: an ACK and a NAK of LSEQ 4, a KEYCLEAR and an idle flit. -/
def link (typ : Nat) : List Byte := flit typ 0 3 4 (takeFill 0 220 [])
theorem link_opens (typ : Nat) (h : typ ∈ [3, 4, 5, 6]) : openFlit 0 (link typ) = some (takeFill 0 220 []) ∧ crcGood (link typ) = true := by
  simp only [List.mem_cons, List.not_mem_nil, or_false] at h
  rcases h with rfl | rfl | rfl | rfl <;> exact flit_opens (takeFill_length _ _ _) (by decide) (by decide)
theorem witness_LinkFlits_fields : ([3, 4, 5, 6].all fun typ => fieldsAre (link typ) typ 0 3 4) = true ∧ (fp rx1).fport 2 = rx1 ∧ rx1.up = true ∧ (fp rx1).accepted 3 = true ∧
    rx1.peer ≠ none ∧ rx1.nacked = false ∧ rx1.room ≠ 0 ∧ rx1.txctr.toNat < 2 ^ 32 - 1 ∧ ({ rx1 with nacked := true } : FPort).nacked = true ∧ 4 ≠ rx1.rxlseq.toNat ∧
    (rx1.rx.find? fun k => k.src == 257 && k.gen.toNat == 0x01010101) = none ∧ natOf ((withCrc (takeFill 1 252 [])).take 4) / 65536 % 1024 = 257 := by decide +kernel
/-- A flit whose CRC fails, one with a good CRC that no key opens, and one of each TYPE of the link layer, which is of no other TYPE. -/
theorem witness_LinkFlits : crcGood badCrc = false ∧ crcGood (withCrc (takeFill 1 252 [])) = true ∧ (∀ typ ∈ [3, 4, 5, 6], crcGood (link typ) = true ∧ (openFlit 0 (link typ)).isSome = true) :=
  ⟨badCrc_bad, crcGood_withCrc (takeFill_length _ _ _), fun typ h => ⟨(link_opens typ h).2, by rw [(link_opens typ h).1]; rfl⟩⟩

def rf (fails lane : Nat) : RetryFlit := { lseq := 4, bytes := List.replicate 256 0, fails := fails, lane := lane, msg := 0 }
def kept1 (relay : Bool) (id : Nat) (m : FabMsg) : OutMsg := { id := id, dest := 9, msg := m, src := 3, relay := relay }
/-- A message of module 9 with number 7. -/
def msg1 (op : FabOp) (rop : Rop) (body : List FabLane) : FabMsg :=
  { op := op, rop := rop, cls := .auto, ord := false, w64 := true, sgn := false, win := 1, sub := 2, busy := false, lanes := maskOf (body.map (·.lane)), msgid := 7, oseq := 0,
    srcph := n5, ctx := 0, dst := 3, body := body }
theorem witness_LinkRecovery :
    (((fp (on1 { retry := [rf 0 1] })).fport 2).up = true ∧ (fp (on1 {})).accepted 3 = true ∧ ((fp (on1 {})).fport 2).peer ≠ none) ∧ ((fp {}).fport 2).up = false ∧
    (∃ f ∈ ({ rx1 with retry := [rf 0 1] } : FPort).retry, f.lseq = 4) ∧ (∀ f ∈ rx1.retry, f.lseq ≠ 4) ∧ (∀ f ∈ (on1 { retry := [rf 0 1] }).retry, f.lseq ≠ 5) ∧
    (∃ f ∈ [rf 3 1], 4 ≤ (if f.lseq = 4 then f.fails + 1 else f.fails)) ∧ (¬ ∃ f ∈ [rf 0 1], 4 ≤ (if f.lseq = 4 then f.fails + 1 else f.fails)) ∧
    (on1 {}).retry = [] ∧ (on1 { retry := [rf 0 1] }).retry ≠ [] ∧ (on1 {}).lanes.getLsbD 1 = true ∧ (on1 { lanes := 2 }).lanes.getLsbD 0 = false ∧
    (on1 { lanes := 2 }).lanes &&& ~~~BitVec.twoPow 4 1 = 0 ∧ (on1 {}).lanes &&& ~~~BitVec.twoPow 4 1 ≠ 0 ∧ (∀ f ∈ [rf 0 0], f.lane ≠ 1) ∧
    (fp {}).fabric.held.find? (fun m => m.dest == 9) = none ∧
    (let s := (fp {}).updFabric fun f => { f with held := [kept1 false 7 (msg1 .read .rd [])] }
     s.fabric.held.find? (fun m => m.dest == 9) = some (kept1 false 7 (msg1 .read .rd [])) ∧ s.fabric.admits (kept1 false 7 (msg1 .read .rd [])) = true) := by decide +kernel
/-- A queue of 64 KiB takes nothing more (R184). -/
theorem witness_LinkRecovery_full :
    ((b0.updFabric fun f => { f with outq := List.replicate 2048 (kept1 false 7 (msg1 .wack .rd [])) }).fabric.admits (kept1 false 8 (msg1 .read .rd []))) = false := by decide +kernel

theorem witness_LinkKeys : (on1 {}).cleared = true ∧ (on1 { cleared := false }).cleared = false ∧ (1 : BitVec 32).toNat = (tget 0 (on1 {}).counters cKeygen + 1) % 2 ^ 32 ∧
    (5 : BitVec 32).toNat ≠ (tget 0 (on1 {}).counters cKeygen + 1) % 2 ^ 32 ∧ (∃ f ∈ [rf 0 1], natOf ((f.bytes.drop 8).take 4) ≠ (1 : BitVec 32).toNat) ∧
    (∀ f ∈ (on1 {}).retry, natOf ((f.bytes.drop 8).take 4) = (1 : BitVec 32).toNat) ∧ (fp (on1 {})).accepted 3 = true ∧ ((fp (on1 {})).fport 2).up = true ∧
    b0.accepted 3 = false := by decide

theorem witness_FlitsArrive_plain : ((fp rx1).fport 2) = rx1 ∧ rx1.up = true ∧ (fp rx1).accepted 3 = true ∧ rx1.peer ≠ none ∧ ((fp {}).fport 2).up = false ∧ (fp rx1).moduleNo = 3 ∧
    (rx1.rx.find? fun k => k.src == 257 && k.gen.toNat == 0x01010101) = none ∧
    relayAllows (2, 9, []) [] 4 1 = true ∧ relayAllows (2, 9, [4]) [] 4 1 = false := by decide +kernel
/-- A flit with a good CRC that no key opens. -/
theorem witness_FlitsArrive_tag : crcGood (withCrc (takeFill 1 252 [])) = true ∧ natOf ((withCrc (takeFill 1 252 [])).take 4) / 65536 % 1024 = 257 :=
  ⟨crcGood_withCrc (takeFill_length _ _ _), by decide +kernel⟩
/-- A whole message in one flit, the first flit of a longer one, and a message for module 4. -/
def whole : List Byte := takeFill 0 220 (msgToBytes (msg1 .read .rd [⟨0, 0x40, 0, 0⟩]))
def longer : List Byte := (msgToBytes (msg1 .read .rd ((List.range 32).map fun l => ⟨l, 0x40, 0, 0⟩))).take 220
theorem witness_FlitsArrive : (openFlit 0 (flit 1 0 3 0 whole) = some whole ∧ crcGood (flit 1 0 3 0 whole) = true) ∧
    (openFlit 0 (flit 1 0 3 0 longer) = some longer ∧ crcGood (flit 1 0 3 0 longer) = true) ∧
    (openFlit 0 (flit 1 0 4 0 whole) = some whole ∧ crcGood (flit 1 0 4 0 whole) = true) :=
  ⟨flit_opens (takeFill_length _ _ _) (by decide) (by decide), flit_opens (by decide +kernel) (by decide) (by decide),
    flit_opens (takeFill_length _ _ _) (by decide) (by decide)⟩
theorem witness_FlitsArrive_fields : fieldsAre (flit 1 0 3 0 whole) 1 0 3 0 = true ∧ fieldsAre (flit 1 0 3 0 longer) 1 0 3 0 = true ∧ fieldsAre (flit 1 0 4 0 whole) 1 0 4 0 = true ∧
    rx1.rxlseq.toNat = 0 ∧ (match msgLength whole with | some n => decide (n ≤ whole.length) | none => false) = true ∧
    (match msgLength longer with | some n => decide (longer.length < n) | none => false) = true ∧ (msgFrom 3 whole).isSome = true ∧ rx1.rxlseq.toNat ≠ 1 := by decide +kernel
theorem witness_FlitsArrive_ops (op : FabOp) (h : op ∈ [FabOp.read, .write, .atomic, .mcast, .noun]) : let bs := msgToBytes (msg1 op .wr [⟨0, 0x40, 5, 0⟩])
    ((msgFrom 3 (takeFill 0 220 bs)).map (·.op)) = some op := by
  simp only [List.mem_cons, List.not_mem_nil, or_false] at h
  rcases h with rfl | rfl | rfl | rfl | rfl <;> decide +kernel
/-- A slot whose preamble advertised two flits per destination and one shared unit takes a third flit from the shared space, and no more than that
has room for (R185). -/
theorem witness_FlitsArrive_full : relayAllows (2, 1, []) [(4, 2)] 4 1 = true ∧ relayAllows (2, 0, []) [(4, 2)] 4 1 = false := by decide +kernel

/-- The rest of `longer` in a continuation flit, and the port at which its first part has come. -/
def rest : List Byte := takeFill 0 220 ((msgToBytes (msg1 .read .rd ((List.range 32).map fun l => ⟨l, 0x40, 0, 0⟩))).drop 220)
def parts1 (dst : Nat) : FPort := { rx1 with rxlseq := 1, partMsg := [(18, dst, longer)] }
theorem witness_ContinuationsArrive : (openFlit 0 (flit 2 0 3 1 rest) = some rest ∧ crcGood (flit 2 0 3 1 rest) = true) ∧
    (openFlit 0 (flit 2 0 4 1 rest) = some rest ∧ crcGood (flit 2 0 4 1 rest) = true) :=
  ⟨flit_opens (takeFill_length _ _ _) (by decide) (by decide), flit_opens (takeFill_length _ _ _) (by decide) (by decide)⟩
theorem witness_ContinuationsArrive_fields :
    ([3, 4].all fun dst => fieldsAre (flit 2 0 dst 1 rest) 2 0 dst 1 && (parts1 dst).rxlseq.toNat == 1 && (parts1 dst).up && (fp (parts1 dst)).accepted 3 && (parts1 dst).peer.isSome &&
      ((parts1 dst).partMsg.find? fun e => e.1 == 2 * 9 + 0) == some (18, dst, longer) &&
      (rx1.partMsg.find? fun e => e.1 == 2 * 9 + 0).isNone &&
      (match msgLength (longer ++ rest) with | some n => decide ((longer ++ rest).length < n) || decide (n ≤ 660) | none => false) &&
      (match msgLength (longer ++ takeFill 0 440 rest) with | some n => decide (n ≤ 660) | none => false) && (msgFrom dst (longer ++ takeFill 0 440 rest)).isSome) = true := by decide +kernel

/-- Export window 1 shows 4 KiB of the vault from 0x300000 to context 0. -/
def exw (ctl : BitVec 8) : State := (fp up1).updHost fun h => { h with exp := [(1, { base := 0x300000, size := 0x1000, ctl := ctl, owner := 0 })] }
def fitsE (s : State) (l : FabLane) : Bool := let x : ExpWin := tget {} s.host.exp 1
  x.ctl.getLsbD 0 && x.owner == 0 && decide (l.off.toNat + 8 ≤ x.size.toNat) && decide (x.base.toNat + l.off.toNat + 8 ≤ 0x400000000)
theorem witness_MessagesArrive :
    (exw 3).fabric.arrived = [] ∧ (exw 3).fabric.waiting = [] ∧ (exw 3).poison = [] ∧ (exw 3).nouns = [] ∧
    fitsE (exw 3) ⟨0, 0xFF8, 5, 0⟩ = true ∧ (tget ({} : ExpWin) (exw 3).host.exp 1).ctl.getLsbD 1 = true ∧ (tget ({} : ExpWin) (exw 1).host.exp 1).ctl.getLsbD 1 = false ∧
    fitsE (exw 1) ⟨0, 0xFF8, 5, 0⟩ = true ∧ BitVec.ofNat 32 (2 ^ 31 + (msg1 .read .rd []).ctx) ∈ ({ base := 0x300000, size := 0x1000, ctl := 3, owner := 5, imps := [0x80000000] } : ExpWin).imps ∧ ((tget ({} : ExpWin) (exw 3).host.exp 1).size.toNat < (0xFF9 : Word).toNat + 8) ∧
    (tget ({} : ExpWin) (fp up1).host.exp 1).ctl.getLsbD 0 = false ∧ ropAmo .add false = some .add ∧ Rop.add ≠ .rd ∧ Rop.wr ≠ .rd ∧
    (nounActOf 0x11 5).isSome = true ∧ (msg1 .noun .rd [⟨0, n5, 5, 0x11⟩]).oseq = (exw 3).expected n5 9 ∧ (exw 3).expected n5 9 < ({ msg1 .noun .rd [] with oseq := 1 } : FabMsg).oseq ∧
    (msg1 .noun .rd []).ord = false ∧ (∀ l ∈ (msg1 .mcast .wr [⟨0, 0, 5, 0⟩, ⟨1, 8, 6, 0⟩]).body, fitsE (exw 3) l = true) ∧
    (∃ l ∈ (msg1 .mcast .wr [⟨0, 0, 5, 0⟩, ⟨1, 0x1000, 6, 0⟩]).body, (tget ({} : ExpWin) (exw 3).host.exp 1).size.toNat < l.off.toNat + 8) ∧
    (let s := (exw 3).updFabric fun f => { f with arrived := [(9, 7, [])] }
     ∃ e ∈ s.fabric.arrived, e.1 = 9 ∧ e.2.1 % 2 ^ 32 = (msg1 .read .rd []).msgid % 2 ^ 32) := by decide
theorem witness_MessagesArrive_busy : let s := (exw 3).updFabric fun f => { f with waiting := List.replicate 4096 ⟨8, msg1 .noun .rd [], {}⟩ }
    4096 ≤ s.fabric.waiting.length ∧ ¬ ∃ h ∈ s.fabric.waiting, h.src = 9 ∧ h.msg.msgid % 2 ^ 32 = 7 :=
  ⟨Nat.le_of_eq List.length_replicate.symm, fun ⟨_, h, e, _⟩ => absurd ((List.eq_of_mem_replicate h) ▸ e) (by decide)⟩

/-- A noun operation and a lane access of phrase 0 whose messages were sent under number 7. -/
def sentNoun : State := { exw 3 with nouns := [{ nop .wake n5 with msg := some 0 }] }
def sentAcc (dest : Dest) : Access :=
  { acc .load 8 8 dest 7 with kind := .rma .rd, scalar := false, lanes := [{ lane := 0, addr := 0x40, peer := 9, msg := some 0, st := .sent }] }
theorem witness_AnswersArrive :
    (sentNoun.accs = [] ∧ (0 : Nat) % 2 ^ 32 = (msg1 .rresp .rd []).oseq % 2 ^ 32 ∧ (sentNoun.nouns.map (·.msg)) = [some 0] ∧ (nop .wake n5).src = .frag 0 3 4 0x1000) ∧
    (msg1 .rresp .rd [⟨0, 0, 5, 0⟩]).busy = false ∧ ({ msg1 .fail .rd [] with busy := true } : FabMsg).busy = true ∧
    (∀ d ∈ [Dest.none, Dest.lane 5 .u64], (sentAcc d).scalar = false ∧ (sentAcc d).kind ≠ .mcast ∧ (ofAcc (sentAcc d)).accs = [sentAcc d] ∧ (ofAcc (sentAcc d)).nouns = [] ∧ (sentAcc d).dest = d ∧
      ((sentAcc d).lanes.map fun l => l.st) = [.sent]) ∧
    (msg1 .rresp .rd [⟨0, 0, 5, 0⟩]).lanes.getLsbD 0 = true ∧ (b0.frag 0).ready = [] ∧ (b0.frag 0).tl = 0 ∧ (b0.frag 0).wait = .none ∧ (b0.frag 0).live = true ∧
    (b0.frag 0).stopped = false ∧ (b0.core (b0.coreOf 0)).frozen = false ∧ b0.results = [] ∧ b0.laneOps = [] := by decide

/-! ### Power and reset -/

theorem witness_ResetAndService : Memory.wf b0.mem ∧ b0.svc = .reduced ∧ (pooled b0).svc ≠ .reduced ∧
    (let tried (s : State) : State := s.updFabric fun f => { f with ports := (List.range 16).map fun n => (n, { tried := true }) }
     let s := tried { b0 with elevenths := 11 * 2000000000, pool := { b0.pool with trained := 3 } }
     2000000000 ≤ s.dtime ∧ (∀ n, n < 16 → (s.fport n).tried = true) ∧ (tried { b0 with pool := { b0.pool with trained := 0xFFFF } }).pool.trained = 0xFFFF ∧
       (match exec .fullServiceStart s with | .next t => t.pool.order == [0, 1] && t.svc == .full | _ => false) = true) ∧ ¬(b0.pool.trained = 0xFFFF ∨ 2000000000 ≤ b0.dtime) ∧ (0 : Nat) < 1536 ∧ (0 : Nat) < 0x60000 := by
  decide +kernel
theorem witness_FatalErrors : b0.svc ≠ .halted ∧ b0.accepted 7 = false ∧ Memory.wf b0.mem ∧ ({ b0 with svc := .halted } : State).svc = .halted ∧
    (0x400000000 ≤ (0x4000000000000 : Word).toNat ∧ (0x4000000000000 : Word).toNat < scratchBase) ∧ hostBase ≤ (0x100000000000000 : Word).toNat ∧
    (0x3FFFFFFFF : Word).toNat < 0x400000000 ∧ (scratchBase ≤ (BitVec.ofNat 64 scratchBase).toNat ∧ (BitVec.ofNat 64 scratchBase).toNat < hostBase) ∧ b0.applied = [] := by decide

/-! ### Encodings and the step -/

theorem witness_DecodeEncodeScalar : (Instr.sadd 1 2 3).wf = true ∧ encodeScalar (.sadd 1 2 3) ≠ 0 ∧ (∀ w, Instr.sadd 1 2 3 ≠ .illopScalarWord w) ∧
    (match decodeScalar 0x4C1C0000 with | .ok i => i == .slimm0 7 0 | .error _ => false) = true :=
  ⟨by decide, by decide, fun _ h => Instr.noConfusion h, by decide⟩
theorem witness_DecodeEncodeLane : (Instr.vadd lf).lane? = some lf ∧ (Instr.vadd lf).wf = true ∧
    (match decodeLane (encodeLane (.vadd lf)) with | .ok i => i == .vadd lf | .error _ => false) = true := by decide
theorem witness_MemoryFormKept : Memory.wf b0.mem ∧ (match step b0 with | .next t => decide (Memory.wf t.mem) | _ => false) = true := by decide +kernel

/-- The one act that is possible is the scalar instruction at 0x1000. -/
def scalarActs (s : State) (w : BitVec 32) : Bool :=
  let a := s.nextAct
  a.1 == .scalar 0 && (a.2.frag 0).fetch == .idle && (a.2.scalarReady 0).isSome &&
    match a.2.fetchCode 0 (a.2.frag 0).pc 4 with | (.code bs, _) => BitVec.ofNat 32 (natOf bs) == w | _ => false
/-- A clause of one word has started: `vadd v0, v0, v0`. -/
def laneState : State := State.reset.seed 96 (encodeLane (.vadd lf)).toNat
theorem witness_StepRunsDecoded :
    scalarActs b0 0 = true ∧ (match decodeScalar 0 with | .ok i => i == .sadd 0 0 0 | .error _ => false) = true ∧
    scalarActs (State.reset.seed 32 0xFF000000) 0xFF000000 = true ∧ (match decodeScalar 0xFF000000 with | .ok _ => false | .error _ => true) = true ∧
    (laneState.nextAct.1 == .lane 0 && (laneState.nextAct.2.laneReadyIns 0).isSome &&
      match (laneState.nextAct.2.frag 0).queue with
      | c :: _ => (match decodeLane (nth 0 c.code (c.next - 1)) with | .ok i => i == .vadd lf | .error _ => false)
      | [] => false) = true ∧
    (gov.nextAct.1 == .row .governorTick) = true := by decide +kernel
theorem witness_StepRunsDecoded_inputs : ({ b0 with inputs := [.coolantBreach] } : State).heeds .coolantBreach = true ∧
    ({ b0 with inputs := [.sadd 0 0 0] } : State).heeds (.sadd 0 0 0) = false := by decide

end Sys2Proof.Tests
end

/-!
# Every step keeps the canonical form of memory (O52)

Memory changes only through the writers of Sys2Proof/Machine/Memory.lean, and `Laws/Memory.lean` says that each of them keeps
`Memory.wf`. What is left is to follow the memory of the state through the functions a step is made of, in the model's own order, with
one lemma for each function:

* a function that leaves memory alone has a frame lemma `f_mem : (s.f …).mem = s.mem`;
* a function that may write it has a lemma `f_canon`: from `Canon s.mem` to `Canon (s.f …).mem`, or to `CanonOut` and `CanonOpt`, which
  say the same of an outcome and of an attempt that may answer no state.

Both kinds are `simp` lemmas, so the lemma about a function is its case split and the lemmas about the functions it calls.
-/
namespace Sys2Proof.Machine

/-- The canonical form of memory, under a name that `simp` leaves folded: `canon_iff` ties it to the model's `Memory.wf`. -/
def Canon (m : Mem) : Prop := Memory.wf m

/-- Whatever state an outcome goes on to, its memory is canonical. -/
def CanonOut (o : Out) : Prop := ∀ t, o = .next t → Canon t.mem

/-- The state that an attempt answers, if it answers one, has canonical memory. -/
def CanonOpt (o : Option State) : Prop := ∀ t, o = some t → Canon t.mem

theorem canon_iff {m : Mem} : Canon m ↔ Memory.wf m := Iff.rfl

/-! ### The writers of memory -/

@[simp] theorem canon_writeByte {m : Mem} (a : Nat) (b : Byte) (h : Canon m) : Canon (writeByte a b m) := writeByte_wf a b h
@[simp] theorem canon_writeBytes {m : Mem} (a : Nat) (bs : List Byte) (h : Canon m) : Canon (writeBytes a bs m) := writeBytes_wf bs a h
@[simp] theorem canon_writeNat {m : Mem} (a n v : Nat) (h : Canon m) : Canon (writeNat a n v m) := writeNat_wf a n v h
@[simp] theorem canon_filter {m : Mem} (p : Host.Cell → Bool) (h : Canon m) : Canon (m.filter p) := filter_wf p h
@[simp] theorem canon_clearRange {m : Mem} (a n : Nat) (h : Canon m) : Canon (clearRange a n m) := clearRange_wf a n h
@[simp] theorem canon_writePieces {m : Mem} (ps : List Piece) (bs : List Byte) (h : Canon m) : Canon (writePieces ps bs m) :=
  writePieces_wf ps bs m h
@[simp] theorem canon_pokes {m : Mem} (l : List (Nat × Nat × Nat)) (h : Canon m) : Canon (pokes l m) := pokes_wf l h
@[simp] theorem canon_writeLeaf {m : Mem} (a : Nat) (l : Leaf) (h : Canon m) : Canon (writeLeaf a l m) := by simp [writeLeaf, h]

@[simp] theorem canon_foldl {α : Type} {f : Mem → α → Mem} {l : List α} {m : Mem} (hf : ∀ m x, Canon m → Canon (f m x)) (h : Canon m) :
    Canon (l.foldl f m) := foldl_wf f hf l h

@[simp] theorem canon_ite {c : Prop} [Decidable c] {m n : Mem} : Canon (if c then m else n) ↔ (c → Canon m) ∧ (¬c → Canon n) := by
  split <;> simp [*]

@[simp] theorem canon_failureRecord {m : Mem} (phrase : Word) (node cause sub : Nat) (edata : Word) (a : Nat) (h : Canon m) :
    Canon (failureRecord phrase node cause sub edata m a) := by
  unfold failureRecord
  exact canon_writeNat _ _ _ (canon_writeNat _ _ _ (canon_writeNat _ _ _ (canon_writeNat _ _ _ h)))

@[simp] theorem canon_migrationEntry {m : Mem} (g : Migration) (src : Word) (act : NounAct) (h : Canon m) :
    Canon (g.writeEntry src act m) := by
  unfold Migration.writeEntry
  exact canon_writeNat _ _ _ (canon_writeNat _ _ _ (canon_writeNat _ _ _ (canon_writeNat _ _ _ h)))

@[simp] theorem canon_writeVerb {m : Mem} (a : Nat) (v : Verb) (h : Canon m) : Canon (writeVerb a v m) := by
  unfold writeVerb
  exact canon_writeNat _ _ _ (canon_writeNat _ _ _ (canon_writeNat _ _ _ (canon_writeNat _ _ _ h)))

@[simp] theorem canon_writeEntries {m : Mem} (core : Nat) (x : Gutter) (p : BitVec 16) (bs : List Byte) (h : Canon m) :
    Canon (writeEntries core x p bs m) := canon_foldl (fun _ _ hm => canon_writeBytes _ _ hm) h

@[simp] theorem canon_dequePush {m : Mem} (a : Applied) (x : Node) (task : Word) (w : Nat) (h : Canon m) :
    Canon (dequePush a x m task w) := canon_pokes _ h

@[simp] theorem canon_dequeFree {m : Mem} (a : Applied) (x : Node) (r : Nat) (h : Canon m) : Canon (dequeFree a x m r) := by
  unfold dequeFree
  split
  · exact canon_writeNat _ _ _ h
  · exact canon_writeNat _ _ _ (canon_writeNat _ _ _ h)

@[simp] theorem canon_chanWrite {m : Mem} (a : Applied) (x : Node) (ptr lo : Nat) (bs : List Byte) (h : Canon m) :
    Canon (a.chanWrite x ptr lo bs m) := canon_foldl (fun _ _ hm => canon_writeByte _ _ hm) h

@[simp] theorem canon_moveBytes {m : Mem} (src dst n : Nat) (h : Canon m) : Canon (moveBytes src dst n m) := canon_writeBytes _ _ h

/-- A walk of the page tables writes at most the accessed and dirty bits of the entry it ends at. -/
@[simp] theorem canon_walk {m : Mem} (bad : Nat → Bool) (ptab va : Nat) (writes fetch priv : Bool) (h : Canon m) :
    Canon (walk bad m ptab va writes fetch priv).2 := by
  unfold walk
  split
  · exact h
  · split
    · exact h
    · split
      · exact h
      · split
        · exact h
        · split
          · exact h
          · exact canon_writeNat _ _ _ h

@[simp] theorem canon_walkerWalk {s : State} (core : Nat) (d0 d1 d2 d3 : Word) (h : Canon s.mem) :
    Canon (walkerWalk s core d0 d1 d2 d3).2.2 := by
  unfold walkerWalk
  extract_lets kind va writes ptab
  have hw := canon_walk s.unreadable ptab.toNat va writes (kind == 2) (d1.getLsbD 12) h
  split <;> next e => rwa [e] at hw

/-! ### Outcomes, attempts and pairs -/

@[simp] theorem canonOut_next {t : State} : CanonOut (.next t) ↔ Canon t.mem := by simp [CanonOut]
@[simp] theorem canonOut_fault (r : Fault) : CanonOut (.fault r) := by simp [CanonOut]
@[simp] theorem canonOut_refused (r : Refusal) : CanonOut (.refused r) := by simp [CanonOut]

@[simp] theorem canonOut_ite {c : Prop} [Decidable c] {o p : Out} :
    CanonOut (if c then o else p) ↔ (c → CanonOut o) ∧ (¬c → CanonOut p) := by
  split <;> simp [*]

@[simp] theorem canonOpt_none : CanonOpt none := by simp [CanonOpt]
@[simp] theorem canonOpt_some {t : State} : CanonOpt (some t) ↔ Canon t.mem := by simp [CanonOpt]

@[simp] theorem canonOpt_ite {c : Prop} [Decidable c] {o p : Option State} :
    CanonOpt (if c then o else p) ↔ (c → CanonOpt o) ∧ (¬c → CanonOpt p) := by
  split <;> simp [*]

@[simp] theorem getD_canon {o : Option State} {s : State} (ho : CanonOpt o) (h : Canon s.mem) : Canon (o.getD s).mem := by
  cases o with
  | none => exact h
  | some t => exact ho t rfl

theorem canonOpt_bind {o : Option State} {f : State → Option State} (ho : CanonOpt o) (hf : ∀ t, Canon t.mem → CanonOpt (f t)) :
    CanonOpt (o.bind f) := by
  cases o with
  | none => exact canonOpt_none
  | some t => exact hf t (ho t rfl)

theorem canonOpt_map {o : Option State} {f : State → State} (ho : CanonOpt o) (hf : ∀ t, Canon t.mem → Canon (f t).mem) :
    CanonOpt (o.map f) := by
  cases o with
  | none => exact canonOpt_none
  | some t => exact canonOpt_some.2 (hf t (ho t rfl))

theorem canonOpt_firstSome {α : Type} {f : α → Option State} (l : List α) (hf : ∀ x, CanonOpt (f x)) : CanonOpt (firstSome f l) := by
  induction l with
  | nil => exact canonOpt_none
  | cons x l ih =>
    rw [firstSome]
    split
    · next e => exact fun t ht => hf x t (by rw [← ht]; exact e)
    · exact ih

@[simp] theorem mem_ite {c : Prop} [Decidable c] {s t : State} : (if c then s else t).mem = if c then s.mem else t.mem :=
  apply_ite State.mem c s t

@[simp] theorem snd_ite {α : Type} {c : Prop} [Decidable c] {p q : α × State} : (if c then p else q).2 = if c then p.2 else q.2 :=
  apply_ite Prod.snd c p q

theorem canon_branch {c : Prop} [Decidable c] {s t : State} (hs : Canon s.mem) (ht : Canon t.mem) : Canon (if c then s else t).mem := by
  split
  · exact hs
  · exact ht

theorem canon_of_mem {m n : Mem} (e : m = n) (h : Canon n) : Canon m := by rwa [e]
theorem canon_updMem {s : State} {g : Mem → Mem} (h : Canon (g s.mem)) : Canon (s.updMem g).mem := h

/-- The state of an answer that a match has taken apart. -/
theorem mem_of_snd {α : Type} {p : α × State} {a : α} {t : State} {m : Mem} (e : p = (a, t)) (h : p.2.mem = m) : t.mem = m := by
  rw [← h, e]

theorem canon_of_snd {α : Type} {p : α × State} {a : α} {t : State} (e : p = (a, t)) (h : Canon p.2.mem) : Canon t.mem := by
  rwa [e] at h

/-! ### Folds over states -/

@[simp] theorem foldl_mem {α : Type} {f : State → α → State} {l : List α} {s : State} (hf : ∀ t x, (f t x).mem = t.mem) :
    (l.foldl f s).mem = s.mem := by
  induction l generalizing s with
  | nil => rfl
  | cons x l ih => exact ih.trans (hf s x)

@[simp] theorem foldl_canon {α : Type} {f : State → α → State} {l : List α} {s : State}
    (hf : ∀ t x, Canon t.mem → Canon (f t x).mem) (h : Canon s.mem) : Canon (l.foldl f s).mem := by
  induction l generalizing s with
  | nil => exact h
  | cons x l ih => exact ih (hf s x h)

/-! ### Registers -/

@[simp] theorem joinAside_mem (s : State) (k parentSlot : Nat) : (s.joinAside k parentSlot).mem = s.mem := rfl
@[simp] theorem putNext_canon (sd : SReg) (v : Word) (s : State) (h : Canon s.mem) : CanonOut (putNext sd v s) := by simp [putNext, h]

/-! ### Translation -/

@[simp] theorem installTlb_mem (s : State) (core : Nat) (e : TlbEntry) : (s.installTlb core e).mem = s.mem := rfl

@[simp] theorem postMiss_mem (s : State) (k : Nat) (a : Asker) (kind va : Nat) (lanes : Mask) :
    (s.postMiss k a kind va lanes).mem = s.mem :=
  rfl

@[simp] theorem askHost_mem (s : State) (hp : Bool) (ctx page : Nat) (writes quiet : Bool) :
    (s.askHost hp ctx page writes quiet).mem = s.mem := by
  simp [State.askHost]

/-! ### Pending accesses -/

@[simp] theorem tidy_mem (s : State) : s.tidy.mem = s.mem := rfl

/-! ### Performing a scalar access -/

/-- A check of the path of a piece draws, and changes what stands of the pool's failures; memory is as it was. -/
@[simp] theorem pathCheck_mem (s : State) (id ctx : Nat) (reads writes : Bool) (p : Piece) :
    (s.pathCheck id ctx reads writes p).2.mem = s.mem := by
  unfold State.pathCheck
  split
  · rfl
  · split
    · split
      · rfl
      · dsimp only
        split
        · rfl
        · split
          · rfl
          · split
            · exact updPool_mem _ _
            · rfl
    · split <;> rfl

@[simp] theorem pathChecks_mem (s : State) (id ctx : Nat) (reads writes : Bool) (off : Nat) (ps : List Piece) :
    (s.pathChecks id ctx reads writes off ps).2.mem = s.mem := by
  induction ps generalizing s off with
  | nil => rfl
  | cons p ps ih =>
    rw [State.pathChecks]
    split
    · next e s1 he => exact mem_of_snd he (by simp)
    · next s1 he => rw [ih]; exact mem_of_snd he (by simp)

@[simp] theorem heal_mem (s : State) (ks : List Nat) : (s.heal ks).mem = s.mem := by simp [State.heal]

@[simp] theorem putTags_mem (s : State) (ps : List Piece) (t : Option Tag) : (s.putTags ps t).mem = s.mem := by
  unfold State.putTags
  split <;> simp

@[simp] theorem dropTags_mem (s : State) (ks : List Nat) : (s.dropTags ks).mem = s.mem := by simp [State.dropTags]

@[simp] theorem readTags_mem (s : State) (a : Access) (ps : List Piece) : (s.readTags a ps).2.mem = s.mem := by
  unfold State.readTags
  split
  · rfl
  · split
    · simp
    · split
      · simp
      · rfl

@[simp] theorem amoTags_mem (s : State) (a : Access) (ps : List Piece) (stands : Bool) : (s.amoTags a ps stands).mem = s.mem := by
  unfold State.amoTags
  split
  · simp
  · split <;> rfl

@[simp] theorem putResult_mem (s : State) (a : Access) (l x : Nat) : (s.putResult a l x).mem = s.mem := by
  unfold State.putResult
  split <;> simp

@[simp] theorem serveCell_canon (s : State) (cell : Nat) (h : Canon s.mem) : Canon (s.serveCell cell).mem := by
  unfold State.serveCell
  split
  · exact h
  · split
    · exact h
    · split
      · simp [h]
      · split <;> simp [h]

@[simp] theorem performLane_canon (s : State) (a : Access) (l : LaneAcc) (h : Canon s.mem) : Canon (s.performLane a l).2.mem := by
  unfold State.performLane
  dsimp only
  split
  · next e s1 he => exact canon_of_snd he (by simpa)
  · next s1 he =>
    have h1 : Canon s1.mem := canon_of_snd he (by simpa)
    split
    · simpa
    · simpa using canon_writePieces _ _ h1
    · split <;> split <;> simp [h1]
    · simp [h1]
    · split
      · exact h1
      · rw [putResult_mem]
        exact serveCell_canon _ _ (by simp [h1])
    · simp [h1]
    · exact h1
    · exact h1

@[simp] theorem engineAccept_mem (s : State) (c src : Nat) : (s.engineAccept c src).mem = s.mem := rfl

@[simp] theorem laneAccept_mem (s : State) (a : Access) (l : LaneAcc) : (s.laneAccept a l).mem = s.mem := by
  unfold State.laneAccept
  split <;> simp

@[simp] theorem performList_canon (s : State) (a : Access) (ls : List LaneAcc) (h : Canon s.mem) : Canon (s.performList a ls).2.mem := by
  induction ls generalizing s with
  | nil => exact h
  | cons l ls ih =>
    rw [State.performList]
    split
    · exact ih _ (by simp [h])
    · split
      · exact h
      · exact ih _ h

@[simp] theorem putAcc_mem (s : State) (a : Access) : (s.putAcc a).mem = s.mem := rfl
@[simp] theorem performAcc_canon (s : State) (a : Access) (h : Canon s.mem) : Canon (s.performAcc a).mem := by simp [State.performAcc, h]

@[simp] theorem putFence_mem (s : State) (k : Nat) (o : Ordering) (flag : Option (Fin 12)) (clause : Nat) (calls : Bool) :
    (s.putFence k o flag clause calls).mem = s.mem := by
  simp [State.putFence]

/-! ### The noun table -/

@[simp] theorem allocNoun_canon (s : State) (ctx kind state rights : Nat) (word1 : Word) (h : Canon s.mem) :
    ∀ t, (s.allocNoun ctx kind state rights word1) = some t → Canon t.2.mem := by
  unfold State.allocNoun
  split <;> simp [h]

@[simp] theorem setLeaf_canon (s : State) (n : Word) (state xstat xcause mdest : Nat) (word1 : Word) (h : Canon s.mem) :
    Canon (s.setLeaf n state xstat xcause mdest word1).mem := by
  unfold State.setLeaf
  split <;> simp [h]

@[simp] theorem keepLeaf_mem (s : State) (die k : Nat) (n : Word) : (s.keepLeaf die k n).mem = s.mem := by
  unfold State.keepLeaf
  split <;> simp

@[simp] theorem keepNoun_mem (s : State) (die : Option Nat) (ctx : Nat) (n : Word) : (s.keepNoun die ctx n).mem = s.mem := by
  unfold State.keepNoun
  split
  · rfl
  · split
    · rfl
    · split
      · rfl
      · simp

@[simp] theorem updNport_mem (s : State) (i : Nat) (g : NounPort → NounPort) : (s.updNport i g).mem = s.mem := rfl

@[simp] theorem postComp_canon (s : State) (i : Nat) (c : NpComp) (h : Canon s.mem) : Canon (s.postComp i c).mem := by
  simp [State.postComp, h]

@[simp] theorem complete_canon (s : State) (hp : Bool) (np slot : Nat) (tag : BitVec 16) (caddr result : Word) (xcause xstat status : Nat)
    (h : Canon s.mem) :
    Canon (s.complete hp np slot tag caddr result xcause xstat status).mem := by
  simp [State.complete, h]

@[simp] theorem retryComps_canon (s : State) (ctx page : Nat) (h : Canon s.mem) : Canon (s.retryComps ctx page).mem := by
  simp +contextual [State.retryComps, h]

/-! ### Messages to the ports -/

@[simp] theorem sendMsg_mem (s : State) (dest : Nat) (msg : FabMsg) : (s.sendMsg dest msg).mem = s.mem := rfl
@[simp] theorem replyPeer_mem (s : State) (m msgid : Nat) (msg : FabMsg) : (s.replyPeer m msgid msg).mem = s.mem := rfl
@[simp] theorem bumpOseq_mem (s : State) (ph : Word) (m : Nat) : (s.bumpOseq ph m).mem = s.mem := rfl

/-! ### Windows -/

@[simp] theorem windowRead_mem (s : State) (own : Option Access) (ps : List Piece) : (s.windowRead own ps).mem = s.mem := by
  unfold State.windowRead
  split <;> simp

@[simp] theorem windowTag_mem (s : State) (own : Option Access) : (s.windowTag own).2.mem = s.mem := by
  unfold State.windowTag
  split <;> simp

@[simp] theorem windowAmo_canon (s : State) (own : Option Access) (ps : List Piece) (stands : Bool) (new w : Nat) (h : Canon s.mem) :
    Canon (s.windowAmo own ps stands new w).mem := by
  unfold State.windowAmo
  dsimp only
  split
  · simp [h]
  · split
    · next e => simp [mem_of_snd e (windowTag_mem ..), h]
    · next e => simp [mem_of_snd e (windowTag_mem ..), h]

@[simp] theorem windowLane_canon (s : State) (own : Option Access) (x : ExpWin) (ctx : Nat) (rop : Rop) (sgn : Bool)
    (w off data cmp : Nat) (h : Canon s.mem) :
    Canon (s.windowLane own x ctx rop sgn w off data cmp).2.mem := by
  unfold State.windowLane
  split
  · exact h
  · dsimp only
    split
    · exact h
    · split
      · next e => exact canon_of_snd e (by simpa)
      · next s1 e =>
        have h1 : Canon s1.mem := canon_of_snd e (by simpa)
        split
        · simpa
        · simp [h1]
        · split <;> simp [h1]

@[simp] theorem windowWrites_canon (s : State) (own : Option Access) (x : ExpWin) (ctx w : Nat) (body : List FabLane) (h : Canon s.mem) :
    Canon (s.windowWrites own x ctx w body).2.mem := by
  unfold State.windowWrites
  dsimp only
  split
  · exact h
  · exact foldl_canon (fun t l ht => windowLane_canon _ _ _ _ _ _ _ _ _ _ ht) h

@[simp] theorem localLane_canon (s : State) (a : Access) (l : LaneAcc) (h : Canon s.mem) : Canon (s.localLane a l).2.mem := by
  unfold State.localLane
  dsimp only
  split
  · have hw := windowWrites_canon s (some a) (s.expWin (peerWin l.peer.toNat)) (s.ctxOf a.frag) a.bytes a.body h
    split <;> next e => exact canon_of_snd e hw
  · split
    · next e => exact canon_of_snd e (by simp [h])
    · next e => rw [putResult_mem]; exact canon_of_snd e (by simp [h])

@[simp] theorem sendWin_mem (s : State) (a : Access) (m : Nat) (g : List LaneAcc) : (s.sendWin a m g).2.mem = s.mem := by
  simp [State.sendWin]

@[simp] theorem sendGroup_canon (s : State) (a : Access) (g : List LaneAcc) (h : Canon s.mem) : Canon (s.sendGroup a g).2.mem := by
  unfold State.sendGroup
  split
  · exact h
  · dsimp only
    split
    · exact foldl_keeps (fun q : List LaneAcc × State => Canon q.2.mem) _ (fun q x hq => localLane_canon _ _ _ hq) _ _ h
    · exact foldl_keeps (fun q : List LaneAcc × State => Canon q.2.mem) _ (fun q x hq => by simpa) _ _ h

@[simp] theorem sendAccess_canon (s : State) (a : Access) (h : Canon s.mem) : Canon (s.sendAccess a).mem := by
  unfold State.sendAccess
  extract_lets waiting r upd
  have hr : Canon r.2.mem :=
    foldl_keeps (fun q : List LaneAcc × State => Canon q.2.mem) _ (fun q g hq => by exact sendGroup_canon _ _ _ hq) _ ([], s) h
  exact hr

/-! ### The life of a phrase -/

@[simp] theorem endWait_mem (s : State) (k id : Nat) (ws : List (SReg × Word)) : (s.endWait k id ws).mem = s.mem := by simp [State.endWait]
@[simp] theorem acquire_mem (s : State) (k : Nat) (sc : Scope) : (s.acquire k sc).mem = s.mem := by simp [State.acquire]

@[simp] theorem endJoiner_canon (s : State) (j : Joiner) (value word : Word) (xcause xstat : Nat) (h : Canon s.mem) :
    Canon (s.endJoiner j value word xcause xstat).mem := by
  unfold State.endJoiner
  split <;> simp [h]

@[simp] theorem endJoins_canon (s : State) (n exit : Word) (xcause xstat : Nat) (h : Canon s.mem) :
    Canon (s.endJoins n exit xcause xstat).mem := by
  simp +contextual [State.endJoins, h]

@[simp] theorem nounDead_canon (s : State) (n : Word) (xstat xcause : Nat) (exit : Word) (h : Canon s.mem) :
    Canon (s.nounDead n xstat xcause exit).mem := by
  simp [State.nounDead, h]

@[simp] theorem letPhrase_mem (s : State) (kind p : Nat) : (s.letPhrase kind p).mem = s.mem := rfl

@[simp] theorem passOn_mem (s : State) (k : Nat) : (s.passOn k).mem = s.mem := by
  unfold State.passOn
  split <;> simp

@[simp] theorem letThrough_mem (s : State) (kind p : Nat) : (s.letThrough kind p).mem = s.mem := by simp [State.letThrough]
@[simp] theorem putCourse_mem (s : State) (c : Course) : (s.putCourse c).mem = s.mem := rfl

@[simp] theorem depart_mem (s : State) (p : Nat) : (s.depart p).mem = s.mem := by
  unfold State.depart
  split <;> simp

@[simp] theorem checkBarrier_mem (s : State) (inst : Nat) (num : BitVec 32) (kind : Nat) : (s.checkBarrier inst num kind).mem = s.mem := by
  unfold State.checkBarrier
  split <;> simp

@[simp] theorem leaveCourse_mem (s : State) (p : Nat) : (s.leaveCourse p).mem = s.mem := by
  unfold State.leaveCourse
  split <;> simp

@[simp] theorem checkLbar_mem (s : State) (p : Nat) : (s.checkLbar p).mem = s.mem := by simp [State.checkLbar]

@[simp] theorem giveToken_mem (s : State) (core p : Nat) : (s.giveToken core p).mem = s.mem := by
  unfold State.giveToken
  exact foldl_mem fun t k => rfl

@[simp] theorem freeToken_mem (s : State) (core : Nat) : (s.freeToken core).mem = s.mem := by
  unfold State.freeToken
  split <;> simp

@[simp] theorem dropGrants_mem (s : State) (p : Nat) : (s.dropGrants p).mem = s.mem := rfl
@[simp] theorem withdraw_mem (s : State) (p : Nat) : (s.withdraw p).mem = s.mem := rfl
@[simp] theorem dropItems_mem (s : State) (p : Nat) : (s.dropItems p).mem = s.mem := rfl
@[simp] theorem dropFrags_mem (s : State) (p : Nat) : (s.dropFrags p).mem = s.mem := rfl
@[simp] theorem modPhr_mem (s : State) (p : Nat) (g : Phrase → Phrase) : (s.modPhr p g).mem = s.mem := rfl

@[simp] theorem cancelCopy_canon (s : State) (id : Nat) (mark : Bool) (h : Canon s.mem) : Canon (s.cancelCopy id mark).mem := by
  unfold State.cancelCopy
  split
  · exact h
  · simp +contextual [h]

@[simp] theorem cancelCopies_canon (s : State) (p : Nat) (mark : Bool) (h : Canon s.mem) : Canon (s.cancelCopies p mark).mem := by
  unfold State.cancelCopies
  exact foldl_canon (fun t c ht => cancelCopy_canon _ _ _ ht) h

@[simp] theorem dropEngine_mem (s : State) (p : Nat) : (s.dropEngine p).mem = s.mem := rfl

@[simp] theorem returnRecords_canon (s : State) (inst : Nat) (taker : Word) (h : Canon s.mem) : Canon (s.returnRecords inst taker).mem := by
  unfold State.returnRecords
  split
  · exact h
  · exact foldl_canon (fun t n ht => foldl_canon (fun u r hu => canon_writeNat _ _ _ hu) ht) h

@[simp] theorem updNode_mem (s : State) (i n : Nat) (g : Node → Node) : (s.updNode i n g).mem = s.mem := rfl

@[simp] theorem clearClaim_canon (s : State) (i n : Nat) (h : Canon s.mem) : Canon (s.clearClaim i n).mem := by
  unfold State.clearClaim
  split
  · exact foldl_canon (fun t p ht => by simp [State.updMem, dropRange_mem, ht]) h
  · exact h

/-- By recursion on the fuel: what writes memory is the clearing of the pages that a farm or a pipe has claimed. -/
@[simp] theorem startNode_canon (s : State) (i fuel n : Nat) (arg : Word) (h : Canon s.mem) : Canon (s.startNode i fuel n arg).mem := by
  induction fuel generalizing s n arg with
  | zero => exact h
  | succ fuel ih =>
    rw [State.startNode]
    split
    · exact h
    · next x _ =>
      have h1 (u : State) (hu : Canon u.mem) : Canon (if x.kind == .farm || x.kind == .pipe then u.clearClaim i n else u).mem := by
        split
        · exact clearClaim_canon _ _ _ hu
        · exact hu
      dsimp only
      split
      · exact h1 _ h
      · exact h1 _ h
      · exact ih _ _ _ (h1 _ h)
      · exact ih _ _ _ (h1 _ h)
      all_goals exact foldl_canon (fun t c ht => ih _ _ _ ht) (h1 _ h)

@[simp] theorem returnClaims_mem (s : State) (i : Nat) : (s.returnClaims i).mem = s.mem := by
  unfold State.returnClaims
  split <;> simp

@[simp] theorem endResumers_canon (s : State) (i : Nat) (exit : Word) (h : Canon s.mem) : Canon (s.endResumers i exit).mem := by
  unfold State.endResumers
  split
  · exact h
  · exact foldl_canon (fun t j ht => endJoiner_canon _ _ _ _ _ _ ht) h

@[simp] theorem dropAbsent_mem (s : State) (i : Nat) (mine : BitVec 32 → Bool) : (s.dropAbsent i mine).mem = s.mem := by
  simp [State.dropAbsent]

@[simp] theorem instDead_canon (s : State) (i xstat xcause : Nat) (exit : Word) (h : Canon s.mem) :
    Canon (s.instDead i xstat xcause exit).mem := by
  unfold State.instDead
  split <;> simp [h]

/-- By recursion on the fuel: after a node its nest ends, a sibling of it starts, or its parent has completed too. -/
@[simp] theorem nodeDone_canon (s : State) (i fuel n : Nat) (v : Word) (h : Canon s.mem) : Canon (s.nodeDone i fuel n v).mem := by
  induction fuel generalizing s n v with
  | zero => exact h
  | succ fuel ih =>
    unfold State.nodeDone
    extract_lets s1
    have h1 : Canon s1.mem := h
    split
    · split
      · exact instDead_canon _ _ _ _ _ h1
      · split
        · exact h1
        · split
          · exact h1
          · exact startNode_canon _ _ _ _ _ h1
          · exact ih _ _ _ h1
    · exact h1

@[simp] theorem checkHandler_canon (s : State) (i n : Nat) (h : Canon s.mem) : Canon (s.checkHandler i n).mem := by
  unfold State.checkHandler
  split
  · exact h
  · split
    · exact h
    · split
      · exact h
      · split
        · exact startNode_canon _ _ _ _ _ h
        · exact h

@[simp] theorem stopNodes_mem (s : State) (i : Nat) (ns : List Nat) : (s.stopNodes i ns).mem = s.mem := by
  unfold State.stopNodes
  extract_lets s1 s2 part s3
  have h1 : s1.mem = s.mem := foldl_mem fun t p => rfl
  have h2 : s2.mem = s1.mem := foldl_mem fun t p => rfl
  have h3 : s3.mem = s.mem := h2.trans h1
  split <;> simp [h3]

/-- A failure writes one record of the nest's failure page. -/
@[simp] theorem nodeFails_canon (s : State) (i n : Nat) (phrase : Word) (cause sub : Nat) (edata : Word) (h : Canon s.mem) :
    Canon (s.nodeFails i n phrase cause sub edata).mem := by
  unfold State.nodeFails
  split
  · exact h
  · split
    · exact h
    · split
      · extract_lets page ns s1
        have h1 : Canon s1.mem := by simp [s1, h]
        refine checkHandler_canon _ _ _ ?_
        rw [updMem_mem]
        exact canon_failureRecord _ _ _ _ _ _ h1
      · simp [h]

@[simp] theorem afterDeath_canon (s : State) (i n : Nat) (isAux first exited : Bool) (exit : Word) (h : Canon s.mem) :
    Canon (s.afterDeath i n isAux first exited exit).mem := by
  unfold State.afterDeath
  extract_lets s1
  have h1 : Canon s1.mem := h
  split
  · exact h1
  · extract_lets alive s2
    have h2 : Canon s2.mem := foldl_canon (fun t n ht => checkHandler_canon _ _ _ ht) h1
    split
    · split
      · exact h1
      · split <;> exact instDead_canon _ _ _ _ _ h1
    · split
      · split
        · exact nodeDone_canon _ _ _ _ _ h2
        · exact h2
      · exact h2

/-- The departure of a phrase, stage by stage: its copies end, then its noun, and its nest's records go back. -/
@[simp] theorem dropPhrase_canon (s : State) (p : Nat) (how : Leaving) (exit : Word) (h : Canon s.mem) :
    Canon (s.dropPhrase p how exit).mem := by
  unfold State.dropPhrase
  extract_lets q s1 nexits s2 held s3 s4 s5 s6 stays s7 s8 s9
  have h1 : Canon s1.mem := by simp [s1, h]
  have h2 : Canon s2.mem := by
    simp only [s2]
    split
    · exact cancelCopies_canon _ _ _ h1
    · split
      · exact h1
      · exact cancelCopies_canon _ _ _ h1
  have h4 : Canon s4.mem := by simp [s4, s3, h2]
  have h6 : Canon s6.mem := returnRecords_canon _ _ _ (nounDead_canon _ _ _ _ _ (by simp [h4]))
  have h9 : Canon s9.mem := by
    simp only [s9]
    split
    · split <;> simp [s8, s7, h6]
    · simp [s8, s7, h6]
  split
  · split
    · simp [h9]
    · exact h9
  · exact h9

@[simp] theorem retire_canon (s : State) (p : Nat) (how : Leaving) (exit : Word) (h : Canon s.mem) : Canon (s.retire p how exit).mem := by
  unfold State.retire
  extract_lets q s1
  have h1 : Canon s1.mem := by
    simp only [s1]
    split
    · split <;> simp [h]
    · simp [h]
  exact afterDeath_canon _ _ _ _ _ _ _ (dropPhrase_canon _ _ _ _ h1)

@[simp] theorem dropMisses_mem (s : State) (ctx : Nat) : (s.dropMisses ctx).mem = s.mem := rfl

@[simp] theorem killPhrase_canon (s : State) (p : Nat) (h : Canon s.mem) : Canon (s.killPhrase p).mem := by
  unfold State.killPhrase
  extract_lets s1 core mine s2 s3 s4
  have h1 : Canon s1.mem := foldl_canon (fun t k ht => ht) h
  have h2 : Canon s2.mem := cancelCopies_canon _ _ _ h1
  have h4 : Canon s4.mem := h2
  simp [h4]

@[simp] theorem killStart_canon (s : State) (ctx : Nat) (kcause : Word) (h : Canon s.mem) : Canon (s.killStart ctx kcause).mem := by
  unfold State.killStart
  extract_lets x s1 s2 s3
  have h1 : Canon s1.mem := canon_writeNat _ _ _ h
  have h2 : Canon s2.mem := foldl_canon (fun t i ht => by split <;> exact ht) h1
  have h3 : Canon (s2.phrasesOf ctx |>.foldl (fun s p => s.killPhrase p) s2).mem := foldl_canon (fun t p ht => killPhrase_canon _ _ ht) h2
  exact foldl_canon (fun t c ht => cancelCopy_canon _ _ _ ht) (by simpa [s3])

/-- Steps 4 to 6 of a kill, each a fold over phrases, leaves, joiners or nests that keeps the form. -/
@[simp] theorem killEnd_canon (s : State) (ctx : Nat) (h : Canon s.mem) : Canon (s.killEnd ctx).mem := by
  unfold State.killEnd
  extract_lets x insts cores s4 d host hp0 hp1 s5 s6 s7 s8 s9 s10 s11
  have h4 : Canon s4.mem := foldl_canon (fun t p ht => dropPhrase_canon _ _ _ _ ht) h
  have h5 : Canon s5.mem := by simp [s5, d, h4]
  have h6 : Canon s6.mem := by simp only [s6]; split <;> simp [h5]
  have h7 : Canon s7.mem := foldl_canon (fun t a ht => by simp [ht]) h6
  have h8 : Canon s8.mem := foldl_canon (fun t i ht => endResumers_canon _ _ _ ht) h7
  have h9 : Canon s9.mem := foldl_canon (fun t j ht => endJoiner_canon _ _ _ _ _ _ ht) h8
  have h10 : Canon s10.mem := foldl_canon (fun t i ht => by simp [ht]) h9
  exact (foldl_canon (fun t c ht => ht) h10 : Canon s11.mem)

@[simp] theorem kill_canon (s : State) (ctx : Nat) (kcause : Word) (h : Canon s.mem) : Canon (s.kill ctx kcause).mem := by
  simp [State.kill, h]

/-! ### Noun operations and lane operations -/

@[simp] theorem unwait_mem (s : State) (k : Nat) : (s.unwait k).mem = s.mem := by
  unfold State.unwait
  simp only
  split <;> simp

@[simp] theorem trapEntry_canon (s : State) (k : Nat) (e : Exn) (epc : Word) (redo : Option Clause) (held : List LaneFault)
    (h : Canon s.mem) :
    Canon (s.trapEntry k e epc redo held).mem := by
  simp [State.trapEntry, h]

@[simp] theorem scalarTrap_canon (s : State) (k : Nat) (c : Cause) (sub : BitVec 8) (data pc : Word) (h : Canon s.mem) :
    Canon (s.scalarTrap k c sub data pc).mem := by
  simp [State.scalarTrap, h]

@[simp] theorem fault_canon (s : State) (c : Cause) (sub : BitVec 8) (data : Word) (h : Canon s.mem) : CanonOut (s.fault c sub data) := by
  simp [State.fault, h]

@[simp] theorem illop_canon (s : State) (i : Instr) (h : Canon s.mem) : CanonOut (s.illop i) := by simp [State.illop, h]
@[simp] theorem privFault_canon (s : State) (i : Instr) (h : Canon s.mem) : CanonOut (s.privFault i) := by simp [State.privFault, h]
@[simp] theorem addFault_mem (s : State) (k : Nat) (x : LaneFault) : (s.addFault k x).mem = s.mem := rfl

@[simp] theorem settle_canon (s : State) (k : Nat) (h : Canon s.mem) : Canon (s.settle k).mem := by
  unfold State.settle
  extract_lets f
  split
  · exact h
  · split
    · exact h
    · split
      · exact trapEntry_canon _ _ _ _ _ _ h
      · exact trapEntry_canon _ _ _ _ _ _ h

@[simp] theorem seret_canon (s : State) (i : Instr) (skip : Bool) (h : Canon s.mem) : CanonOut (s.seret i skip) := by
  unfold State.seret
  extract_lets n epc
  split
  · simp [h]
  · split
    · simp [h]
    · split
      · exact canonOut_next.2 h
      · exact canonOut_next.2 (settle_canon _ _ h)

@[simp] theorem askPieces_mem (s : State) (ctx : Nat) (writes : Bool) (ps : List Piece) : (s.askPieces ctx writes ps).mem = s.mem := by
  simp [State.askPieces]

@[simp] theorem startLane_mem (s : State) (k : Nat) (w : Asker) (kind : AccKind) (scalar : Bool) (bytes : Nat) (l : LaneAcc) :
    (s.startLane k w kind scalar bytes l).2.mem = s.mem := by
  unfold State.startLane
  split
  · rfl
  · exact foldl_mem fun t va => by simp
  · simp

@[simp] theorem startLanes_mem (s : State) (k : Nat) (w : Asker) (kind : AccKind) (scalar : Bool) (bytes : Nat) (ls : List LaneAcc) :
    (s.startLanes k w kind scalar bytes ls).2.mem = s.mem := by
  induction ls generalizing s with
  | nil => rfl
  | cons l ls ih => rw [State.startLanes]; exact (ih _).trans (startLane_mem ..)

@[simp] theorem issueAccess_mem (s : State) (a : Access) : (s.issueAccess a).mem = s.mem := by simp [State.issueAccess]

@[simp] theorem endMcast_canon (s : State) (a : Access) (h : Canon s.mem) : Canon (s.endMcast a).mem := by
  unfold State.endMcast
  extract_lets bits s1 s2
  have h1 : Canon s1.mem := by
    simp only [s1]
    split
    · split <;> exact h
    · exact h
  split
  · simp [h1]
  · split <;> exact settle_canon _ _ (by simp [s2, h1])

@[simp] theorem endAccess_canon (s : State) (a : Access) (h : Canon s.mem) : Canon (s.endAccess a).mem := by
  unfold State.endAccess
  extract_lets faults m s1
  have h1 : Canon s1.mem := by simp [s1, h]
  split
  · exact endMcast_canon _ _ h1
  · split
    · exact settle_canon _ _ h1
    · split
      · split
        · simpa
        · split
          · exact h1
          · split
            · simp [h1]
            · exact scalarTrap_canon _ _ _ _ _ _ h1
      · exact settle_canon _ _ (by simp [h1])

@[simp] theorem checkAccess_canon (s : State) (id : Nat) (h : Canon s.mem) : Canon (s.checkAccess id).mem := by
  unfold State.checkAccess
  split <;> simp [h]

@[simp] theorem runAccess_canon (s : State) (id : Nat) (h : Canon s.mem) : Canon (s.runAccess id).mem := by
  unfold State.runAccess
  split <;> simp [h]

@[simp] theorem replayAcc_canon (s : State) (a : Access) (vpn : Nat) (e : Option (Cause × BitVec 8)) (h : Canon s.mem) :
    Canon (s.replayAcc a vpn e).mem := by
  unfold State.replayAcc
  split
  · extract_lets w
    split
    next ls s1 e =>
    have h1 : Canon s1.mem := canon_of_snd e (foldl_keeps (fun q : List LaneAcc × State => Canon q.2.mem) _
      (fun q l hq => by split <;> simp [hq]) _ ([], s) h)
    exact checkAccess_canon _ _ h1
  · exact h

@[simp] theorem wakeFetches_mem (s : State) (core ctx vpn : Nat) (e : Option (Cause × BitVec 8)) :
    (s.wakeFetches core ctx vpn e).mem = s.mem :=
  rfl

@[simp] theorem prefFilled_mem (s : State) (core : Nat) (m : MissRec) : (s.prefFilled core m).mem = s.mem := by
  unfold State.prefFilled
  split <;> simp

@[simp] theorem recordEnds_canon (s : State) (core : Nat) (m : MissRec) (e : Option (Cause × BitVec 8)) (h : Canon s.mem) :
    Canon (s.recordEnds core m e).mem := by
  unfold State.recordEnds
  extract_lets s1 s2 s3
  have h2 : Canon s2.mem := foldl_canon (fun t a ht => by split <;> simp [ht]) h
  simp [s3, h2]

/-! ### Courses -/

@[simp] theorem enrol_mem (s : State) (p : Nat) (num : BitVec 32) : (s.enrol p num).2.mem = s.mem := by
  unfold State.enrol
  simp only
  split <;> simp

@[simp] theorem execSenrol_canon (sd sa : SReg) (s : State) (h : Canon s.mem) : CanonOut (execSenrol sd sa s) := by
  unfold execSenrol
  extract_lets p num r
  split
  · simp [h]
  · split
    · simp [putNext, h]
    · simp [putNext, r, h]

/-- What the arrival does is the caller's; only it could write memory. -/
@[simp] theorem atBarrier_canon (s : State) (kind : Nat) (sc : Scope) (arrived : Bool) (arrive : State → State) (h : Canon s.mem)
    (ha : ∀ t, Canon t.mem → Canon (arrive t).mem) :
    CanonOut (s.atBarrier kind sc arrived arrive) := by
  unfold State.atBarrier
  split
  · simp [h]
  · split
    · exact canonOut_next.2 h
    · extract_lets s1
      split
      · exact canonOut_next.2 h
      · exact canonOut_next.2 (ha s1 h)

@[simp] theorem arriveCourse_mem (s : State) (c : Course) (kind : Nat) : (s.arriveCourse c kind).mem = s.mem := by simp [State.arriveCourse]

@[simp] theorem execSbar_canon (s : State) (h : Canon s.mem) : CanonOut (execSbar s) := by
  unfold execSbar
  split
  · simp [h]
  · split <;> simp [h]

@[simp] theorem execSclbar_canon (s : State) (h : Canon s.mem) : CanonOut (execSclbar s) := by
  unfold execSclbar
  split
  · simp [h]
  · split <;> simp [h]

@[simp] theorem resize_canon (s : State) (i : Instr) (sd : SReg) (grow : Bool) (n : Nat) (h : Canon s.mem) :
    CanonOut (s.resize i sd grow n) := by
  unfold State.resize
  extract_lets p q
  split
  · exact canonOut_next.2 h
  · split
    · simp [h]
    · split <;> simp [putNext, h]

/-! ### Operands and results of lane instructions -/

@[simp] theorem laneResult_mem (s : State) (f : LaneFields) (lat : Nat) (t : LType) (c : Cause) (datum : Nat → Word) (out : Nat → LaneOut)
    (more : Nat → List (Nat × Half)) :
    (s.laneResult f lat t c datum out more).mem = s.mem := by
  simp [State.laneResult]

@[simp] theorem scalarResult_mem (s : State) (f : LaneFields) (v : Word) (status : Exc) (fault : Option LaneFault) :
    (s.scalarResult f v status fault).mem = s.mem := by
  simp [State.scalarResult]

@[simp] theorem fillRing_mem (s : State) (p id : Nat) (vals : List Half) : (s.fillRing p id vals).mem = s.mem := rfl

@[simp] theorem finishResult_canon (s : State) (r : LaneRes) (h : Canon s.mem) : Canon (s.finishResult r).mem := by
  unfold State.finishResult
  extract_lets p s1 s2 s3 s4
  have h2 : Canon s2.mem := by simp only [s2]; split <;> simp [s1, h]
  have h3 : Canon s3.mem := by simp only [s3]; split <;> simp [h2]
  have h4 : Canon s4.mem := by simp [s4, h3]
  split
  · split
    · exact settle_canon _ _ h4
    · exact h4
  · split
    · exact settle_canon _ _ h4
    · exact h4

@[simp] theorem completeResult_canon (s : State) (id : Nat) (h : Canon s.mem) : Canon (s.completeResult id).mem := by
  unfold State.completeResult
  split <;> simp [h]

/-! ### Scalar arithmetic -/

@[simp] theorem divide_canon (s : State) (sd : SReg) (a b : Word) (signed rem : Bool) (h : Canon s.mem) :
    CanonOut (divide s sd a b signed rem) := by
  simp [divide, h]

/-! ### Integer lanes -/

@[simp] theorem lanePure_canon (s : State) (f : LaneFields) (lat : Nat) (out : Nat → Nat) (h : Canon s.mem) :
    CanonOut (s.lanePure f lat out) := by
  simp [State.lanePure, h]

@[simp] theorem laneInt_canon (s : State) (f : LaneFields) (lat : Nat) (op : Int → Int → Int → Int) (h : Canon s.mem) :
    CanonOut (s.laneInt f lat op) := by
  simp [State.laneInt, h]

@[simp] theorem laneBits_canon (s : State) (f : LaneFields) (op : Nat → Nat → Nat → Nat) (h : Canon s.mem) :
    CanonOut (s.laneBits f op) := by
  simp [State.laneBits, h]

@[simp] theorem laneDiv_canon (s : State) (f : LaneFields) (rem : Bool) (h : Canon s.mem) : CanonOut (s.laneDiv f rem) := by
  simp [State.laneDiv, h]

@[simp] theorem laneCarry_canon (s : State) (f : LaneFields) (op : Int → Int → Int → Int) (h : Canon s.mem) :
    CanonOut (s.laneCarry f op) := by
  simp [State.laneCarry, h]

/-! ### Float lanes -/

@[simp] theorem laneFloat_canon (s : State) (f : LaneFields) (lat : Nat) (op : Fmt → Nat → Nat × Exc) (h : Canon s.mem) :
    CanonOut (s.laneFloat f lat op) := by
  simp [State.laneFloat, h]

@[simp] theorem laneFun_canon (s : State) (f : LaneFields) (op : Val → Val × Exc) (h : Canon s.mem) : CanonOut (s.laneFun f op) := by
  simp [State.laneFun, h]

/-! ### Clauses -/

@[simp] theorem fetchParts_mem (s : State) (k : Nat) (ps : List (Nat × Nat)) (bs : List Byte) : (s.fetchParts k ps bs).2.mem = s.mem := by
  induction ps generalizing s bs with
  | nil => rfl
  | cons p ps ih =>
    unfold State.fetchParts
    extract_lets a
    split
    · rfl
    · split <;> simp
    · split
      · next e => exact mem_of_snd e (pathCheck_mem ..)
      · next e => exact (ih _ _).trans (mem_of_snd e (pathCheck_mem ..))

@[simp] theorem fetchCode_mem (s : State) (k : Nat) (addr : Word) (len : Nat) : (s.fetchCode k addr len).2.mem = s.mem := by
  simp [State.fetchCode]

@[simp] theorem startFault_canon (s : State) (k : Nat) (c : Clause) (cause : Cause) (sub : BitVec 8) (data pa : Word) (h : Canon s.mem) :
    Canon (s.startFault k c cause sub data pa).mem := by
  unfold State.startFault
  exact settle_canon _ _ (by simp [h])

@[simp] theorem startClause_canon (s : State) (k : Nat) (h : Canon s.mem) : Canon (s.startClause k).mem := by
  unfold State.startClause
  split
  · exact h
  · extract_lets f c
    split
    · exact startFault_canon _ _ _ _ _ _ _ h
    · have hf {r : Fetched} {t u : State} {a : Word} {n : Nat} (e : u.fetchCode k a n = (r, t)) (hu : Canon u.mem) : Canon t.mem :=
        canon_of_snd e (canon_of_mem (fetchCode_mem ..) hu)
      split
      · next e => exact startFault_canon _ _ _ _ _ _ _ (hf e h)
      · next e => exact canon_of_mem (updFrag_mem ..) (hf e h)
      · next e => exact hf e h
      · next e1 =>
        have h1 := hf e1 h
        extract_lets hw
        split
        · exact h1
        · split
          · exact startFault_canon _ _ _ _ _ _ _ h1
          · split
            · next e => exact startFault_canon _ _ _ _ _ _ _ (hf e h1)
            · next e => exact canon_of_mem (updFrag_mem ..) (hf e h1)
            · next e => exact hf e h1
            · next e =>
              extract_lets q ws
              split
              · exact startFault_canon _ _ _ _ _ _ _ (hf e h1)
              · exact canon_of_mem (updFrag_mem ..) (hf e h1)

/-! ### Scalar accesses -/

@[simp] theorem scalarAccess_canon (s : State) (kind : AccKind) (bytes : Nat) (signed : Bool) (order : Ordering) (dest : Dest)
    (addr data cmp : Word) (h : Canon s.mem) :
    CanonOut (s.scalarAccess kind bytes signed order dest addr data cmp) := by
  unfold State.scalarAccess
  split
  · simp [h]
  · split <;> simp [h]

@[simp] theorem scalarAmo_canon (s : State) (op : AmoOp) (ord : Ordering) (w64 : Bool) (sd sa sb : SReg) (cmp : Word) (h : Canon s.mem) :
    CanonOut (s.scalarAmo op ord w64 sd sa sb cmp) := by
  simp [State.scalarAmo, h]

@[simp] theorem execFget_canon (sd sa : SReg) (s : State) (h : Canon s.mem) : CanonOut (execFget sd sa s) := by
  unfold execFget
  split
  · simp [h]
  · split <;> simp [h]

/-! ### Lane accesses -/

@[simp] theorem issueLane_canon (s : State) (f : LaneFields) (a : Access) (h : Canon s.mem) : CanonOut (s.issueLane f a) := by
  simp [State.issueLane, h]

@[simp] theorem execVpref_canon (f : LaneFields) (s : State) (h : Canon s.mem) : CanonOut (execVpref f s) := by
  unfold execVpref
  split
  · exact canonOut_next.2 h
  · extract_lets c ctx hp vas hosts s1 s2 made o
    have h1 : Canon s1.mem := foldl_canon (fun t va ht => by simp [ht]) h
    have h2 : Canon s2.mem := foldl_canon (fun t n ht => by simp [ht]) h1
    simp [h2]

@[simp] theorem issueRemote_canon (s : State) (f : LaneFields) (a : Access) (amo : Bool) (h : Canon s.mem) :
    CanonOut (s.issueRemote f a amo) := by
  simp [State.issueRemote, h]

@[simp] theorem execVmcast_canon (f : LaneFields) (s : State) (h : Canon s.mem) : CanonOut (execVmcast f s) := by
  unfold execVmcast
  split
  · simp [h]
  · split <;> simp [h]

@[simp] theorem execLaneAccessComplete_canon (id : Nat) (s : State) (h : Canon s.mem) : CanonOut (execLaneAccessComplete id s) := by
  unfold execLaneAccessComplete
  split <;> simp [h]

@[simp] theorem execVexit_canon (f : LaneFields) (s : State) (h : Canon s.mem) : CanonOut (execVexit f s) := by
  unfold execVexit
  extract_lets p m s1 s2
  have h2 : Canon s2.mem := foldl_canon (fun t k ht => ht) (show Canon s1.mem from h)
  simp [h2]

/-! ### Gutters -/

@[simp] theorem gadv_canon (s : State) (g : BitVec 3) (sa : SReg) (consumer : Bool) (h : Canon s.mem) :
    CanonOut (s.gadv g sa consumer) := by
  unfold State.gadv
  extract_lets n
  split
  · exact canonOut_next.2 h
  · split <;> simp [h]

@[simp] theorem issueFault_canon (s : State) (c : Cause) (sub : BitVec 8) (data : Word) (h : Canon s.mem) :
    CanonOut (s.issueFault c sub data) :=
  canonOut_next.2 (settle_canon _ _ h)

@[simp] theorem execVgwr_canon (f : LaneFields) (s : State) (h : Canon s.mem) : CanonOut (execVgwr f s) := by
  unfold execVgwr
  split
  · simp [h]
  · split
    · exact canonOut_next.2 h
    · split
      · exact canonOut_next.2 h
      · extract_lets bad good ps s0 s1
        have h0 : Canon s0.mem := canon_foldl (fun m l hm => canon_writeNat _ _ _ hm) h
        have h1 : Canon s1.mem := by simp [s1, h0]
        split
        · exact canonOut_next.2 (settle_canon _ _ (by simp [h1]))
        · exact canonOut_next.2 h1

@[simp] theorem execVgrd_canon (f : LaneFields) (s : State) (h : Canon s.mem) : CanonOut (execVgrd f s) := by
  unfold execVgrd
  split
  · simp [h]
  · split
    · simp [h]
    · split <;> simp [h]

/-! ### Invalidations -/

@[simp] theorem startInval_mem (s : State) (sd : SReg) (what : InvalKind) (dom : Bool) (ctx item : Option Nat) :
    (s.startInval sd what dom ctx item).mem = s.mem := by
  simp [State.startInval]

@[simp] theorem removeCopies_mem (s : State) (v : Inval) : (s.removeCopies v).mem = s.mem := rfl
@[simp] theorem advanceInval_mem (s : State) (v : Inval) : (s.advanceInval v).mem = s.mem := by simp [State.advanceInval]

/-! ### Noun instructions -/

@[simp] theorem sendNoun_mem (s : State) (act : NounAct) (noun : Word) (sd sf : SReg) : (s.sendNoun act noun sd sf).mem = s.mem := rfl

@[simp] theorem sendReleased_canon (s : State) (act : NounAct) (noun : Word) (sd : SReg) (h : Canon s.mem) :
    CanonOut (s.sendReleased act noun sd) := by
  simp [State.sendReleased, h]

@[simp] theorem sendWaiting_canon (s : State) (act : NounAct) (noun : Word) (sd sf : SReg) (h : Canon s.mem) :
    CanonOut (s.sendWaiting act noun sd sf) := by
  simp [State.sendWaiting, h]

@[simp] theorem answer_canon (s : State) (o : NounOp) (value word : Word) (h : Canon s.mem) : Canon (s.answer o value word).mem := by
  unfold State.answer
  split <;> simp [h]

@[simp] theorem answerFault_canon (s : State) (o : NounOp) (sub : BitVec 8) (h : Canon s.mem) : Canon (s.answerFault o sub).mem := by
  unfold State.answerFault
  split <;> simp [h]

@[simp] theorem answerCode_canon (s : State) (o : NounOp) (code : Nat) (h : Canon s.mem) : Canon (s.answerCode o code).mem := by
  simp [State.answerCode, h]

@[simp] theorem wakePhrase_mem (s : State) (p : Nat) : (s.wakePhrase p).mem = s.mem := by simp [State.wakePhrase]

@[simp] theorem coreAct_mem (s : State) (p : Nat) (act : NounAct) : (s.coreAct p act).2.mem = s.mem := by
  unfold State.coreAct
  split <;> simp

@[simp] theorem appendReady_canon (s : State) (part : Nat) (n : Word) (h : Canon s.mem) : Canon (s.appendReady part n).mem := by
  simp [State.appendReady, h]

@[simp] theorem imageAct_canon (s : State) (n : Word) (a : Nat) (act : NounAct) (h : Canon s.mem) : Canon (s.imageAct n a act).2.mem := by
  unfold State.imageAct
  extract_lets h0
  split
  · split
    · dsimp only
      exact appendReady_canon _ _ _ (canon_updMem (canon_writeNat _ _ _ h))
    · simp [h]
  · simp [h]
  · split <;> simp [h]
  · exact h

@[simp] theorem mailAct_canon (s : State) (a : Nat) (act : NounAct) (h : Canon s.mem) : Canon (s.mailAct a act).2.mem := by
  unfold State.mailAct
  split <;> simp [h]

@[simp] theorem forwardNoun_mem (s : State) (o : NounOp) (m : Nat) (n : Word) (rights : Nat) : (s.forwardNoun o m n rights).mem = s.mem :=
  rfl

@[simp] theorem cancelInst_canon (s : State) (i : Nat) (h : Canon s.mem) : Canon (s.cancelInst i).mem := by
  unfold State.cancelInst
  split <;> simp [h]

@[simp] theorem passValue_canon (s : State) (p : Nat) (v : Word) (h : Canon s.mem) : Canon (s.passValue p v).mem := by
  unfold State.passValue
  split <;> simp [h]

@[simp] theorem serveResumer_canon (s : State) (i : Nat) (h : Canon s.mem) : Canon (s.serveResumer i).mem := by
  unfold State.serveResumer
  split
  · exact h
  · split
    · split
      · exact h
      · exact passValue_canon _ _ _ h
    · exact h

@[simp] theorem deliverAt_canon (s : State) (o : NounOp) (l : Leaf) (rights : Nat) (n : Word) (h : Canon s.mem) :
    Canon (s.deliverAt o l rights n).mem := by
  unfold State.deliverAt
  extract_lets gone acted src s1
  have hg : Canon gone.mem := h
  have ha (r : Nat × State) (hr : Canon r.2.mem) : Canon (acted r).mem := answerCode_canon _ _ _ hr
  split
  · exact answer_canon _ _ _ _ hg
  · split
    · exact answer_canon _ _ _ _ hg
    · exact hg
  · split
    · exact answerCode_canon _ _ _ hg
    · split
      · exact cancelInst_canon _ _ (answerCode_canon _ _ _ hg)
      · exact answerCode_canon _ _ _ hg
  · split
    · exact answer_canon _ _ _ _ hg
    · split
      · split
        · exact serveResumer_canon _ _ hg
        · exact answerCode_canon _ _ _ hg
      · exact answerCode_canon _ _ _ hg
  · split
    · exact answerCode_canon _ _ _ hg
    · split
      · split
        · simp [h]
        · split
          · exact ha _ (by simp [hg])
          · exact answerCode_canon _ _ _ hg
      · split
        · exact ha _ (imageAct_canon _ _ _ _ hg)
        · split
          · split
            · exact answerCode_canon _ _ _ hg
            · split
              · simp [h]
              · exact ha _ (mailAct_canon _ _ _ hg)
          · split
            · exact answerCode_canon _ _ _ hg
            · exact answerCode_canon _ _ _ (canon_updMem (canon_migrationEntry _ _ _ hg))

@[simp] theorem deliver_canon (s0 : State) (o : NounOp) (h : Canon s0.mem) : Canon (s0.deliver o).mem := by
  unfold State.deliver
  split
  · simp [h]
  · split <;> simp [h]

@[simp] theorem execNounDelivery_canon (id : Nat) (s : State) (h : Canon s.mem) : CanonOut (execNounDelivery id s) := by
  unfold execNounDelivery
  split <;> simp [h]

@[simp] theorem arrive_canon (s : State) (y : Reply) (h : Canon s.mem) : Canon (s.arrive y).mem := by
  unfold State.arrive
  extract_lets s1 s2 s3
  have h1 : Canon s1.mem := h
  split
  · exact h1
  · split
    · exact scalarTrap_canon _ _ _ _ _ _ h1
    · split <;> simp [s3, s2, h1]

@[simp] theorem execReplyArrival_canon (id : Nat) (s : State) (h : Canon s.mem) : CanonOut (execReplyArrival id s) := by
  unfold execReplyArrival
  split
  · simp [h]
  · split <;> simp [h]

@[simp] theorem stopPhrase_mem (s : State) (p : Nat) : (s.stopPhrase p).mem = s.mem := foldl_mem fun _ _ => rfl

@[simp] theorem execNexit_canon (sa : SReg) (s : State) (h : Canon s.mem) : CanonOut (execNexit sa s) := by
  unfold execNexit
  split
  · exact canonOut_next.2 h
  · extract_lets p q f cause how s1 s2
    have h2 : Canon s2.mem := by
      simp only [s2]
      split
      · split <;> simp [s1, h]
      · simp [s1, h]
    split
    · exact canonOut_next.2 h2
    · exact canonOut_next.2 (nodeFails_canon _ _ _ _ _ _ _ h2)

@[simp] theorem execDeathNotice_canon (noun : Word) (xstat xcause : BitVec 8) (exit : Word) (s : State) (h : Canon s.mem) :
    CanonOut (execDeathNotice noun xstat xcause exit s) := by
  simp +contextual [execDeathNotice, h]

/-! ### The matrix engine -/

@[simp] theorem enterMx_mem (s : State) (f : LaneFields) (act : MxAct) (grant : Bool) : (s.enterMx f act grant).mem = s.mem := by
  simp [State.enterMx]

@[simp] theorem issueMx_canon (s : State) (f : LaneFields) (cs : List (Option MxBad)) (act : MxAct) (h : Canon s.mem) :
    CanonOut (s.issueMx f cs act) := by
  unfold State.issueMx
  split <;> simp [h]

@[simp] theorem execMxlds_canon (f : LaneFields) (s : State) (h : Canon s.mem) : CanonOut (execMxlds f s) := by
  unfold execMxlds
  simp only
  split <;> simp [h]

@[simp] theorem execMxswap_canon (f : LaneFields) (s : State) (h : Canon s.mem) : CanonOut (execMxswap f s) := by
  unfold execMxswap
  split <;> simp [h]

@[simp] theorem issueMma_canon (s : State) (f : LaneFields) (cplx : Bool) (h : Canon s.mem) : CanonOut (s.issueMma f cplx) := by
  unfold State.issueMma
  simp only
  split <;> simp [h]

@[simp] theorem mxPoison_canon (s : State) (core : Nat) (o : MxOp) (entry : Nat) (h : Canon s.mem) :
    Canon (s.mxPoison core o entry).mem := by
  unfold State.mxPoison
  extract_lets s1 s2
  split
  · exact settle_canon _ _ (by simp [s2, s1, h])
  · exact h

@[simp] theorem mxFire_canon (s : State) (core : Nat) (o : MxOp) (h : Canon s.mem) : Canon (s.mxFire core o).mem := by
  unfold State.mxFire
  split
  · simp [h]
  · split <;> split <;> exact h

@[simp] theorem execMatrixFire_canon (core : Nat) (s : State) (h : Canon s.mem) : CanonOut (execMatrixFire core s) := by
  unfold execMatrixFire
  split <;> simp [h]

@[simp] theorem phraseStatus_mem (s : State) (p : Nat) (e : Exc) : (s.phraseStatus p e).mem = s.mem := by simp [State.phraseStatus]
@[simp] theorem updEngine_mem (s : State) (core : Nat) (h : Engine → Engine) : (s.updEngine core h).mem = s.mem := rfl

@[simp] theorem mxEffect_canon (s : State) (core : Nat) (o : MxOp) (h : Canon s.mem) : Canon (s.mxEffect core o).mem := by
  unfold State.mxEffect
  extract_lets e
  split
  · simp [h]
  · simp [h]
  · simp [h]
  · simp [h]
  · simp [h]
  · dsimp only
    split <;> simp [h]
  · dsimp only
    split <;> simp [h]

@[simp] theorem mxComplete_canon (s : State) (core : Nat) (o : MxOp) (h : Canon s.mem) : Canon (s.mxComplete core o).mem := by
  unfold State.mxComplete
  simp only
  split <;> simp [h]

@[simp] theorem execMatrixComplete_canon (core : Nat) (s : State) (h : Canon s.mem) : CanonOut (execMatrixComplete core s) := by
  unfold execMatrixComplete
  extract_lets ops
  clear_value ops
  split
  · exact canonOut_next.2 h
  · exact canonOut_next.2 (mxComplete_canon _ _ _ h)

@[simp] theorem execMxgive_canon (sd sa : SReg) (s : State) (h : Canon s.mem) : CanonOut (execMxgive sd sa s) := by
  unfold execMxgive
  extract_lets n
  split
  · exact canonOut_next.2 h
  · split
    · simp [putNext, h]
    · split
      · simp [putNext, h]
      · split <;> simp [putNext, h]

/-! ### Copies -/

@[simp] theorem dropRecordTags_mem (s : State) (c : CopyOp) : (s.dropRecordTags c).mem = s.mem := foldl_mem fun _ _ => dropRange_mem _ _ _

@[simp] theorem putCstat_canon (s : State) (c : CopyOp) (state : Nat) (cause : Option Nat) (h : Canon s.mem) :
    Canon (s.putCstat c state cause).mem := by
  simp +contextual [State.putCstat, h]

@[simp] theorem putProgress_canon (s : State) (c : CopyOp) (n : Nat) (h : Canon s.mem) : Canon (s.putProgress c n).mem := by
  simp +contextual [State.putProgress, h]

@[simp] theorem putBatchNum_canon (s : State) (c : CopyOp) (n : Nat) (h : Canon s.mem) : Canon (s.putBatchNum c n).mem := by
  simp +contextual [State.putBatchNum, h]

@[simp] theorem putCopy_mem (s : State) (c : CopyOp) : (s.putCopy c).mem = s.mem := rfl
@[simp] theorem trimBatches_mem (s : State) (p : Nat) : (s.trimBatches p).mem = s.mem := by simp [State.trimBatches]
@[simp] theorem notProducer_canon (s : State) (h : Canon s.mem) : CanonOut s.notProducer := by simp [State.notProducer, h]

@[simp] theorem issueCopy_canon (s : State) (ops : CopyOps) (crypt : Bool) (h : Canon s.mem) : CanonOut (s.issueCopy ops crypt) := by
  unfold State.issueCopy
  extract_lets p src dst c s1
  have h1 : Canon s1.mem := h
  split
  · simp [h]
  · split
    · simp [h]
    · split
      · simp [h]
      · split
        · exact fault_canon _ _ _ _ h
        · simp [h1]

@[simp] theorem execCpresume_canon (ops : CopyOps) (s : State) (h : Canon s.mem) : CanonOut (execCpresume ops s) := by
  unfold execCpresume
  extract_lets p
  split
  · simp [h]
  · split
    · exact fault_canon _ _ _ _ h
    · exact canonOut_next.2 h

@[simp] theorem execCpseal_canon (sd : SReg) (s : State) (h : Canon s.mem) : CanonOut (execCpseal sd s) := by
  unfold execCpseal
  extract_lets p q n s1 s2
  have h2 : Canon s2.mem := foldl_canon (fun t c ht => putBatchNum_canon _ _ _ ht) h
  split
  · simp [h]
  · split
    · exact canonOut_next.2 h
    · simp [putNext, h2]

@[simp] theorem execCpcancel_canon (sd sa : SReg) (s : State) (h : Canon s.mem) : CanonOut (execCpcancel sd sa s) := by
  unfold execCpcancel
  extract_lets p n
  split
  · simp [h]
  · split
    · simp [putNext, h]
    · extract_lets s1 s2
      have h1 : Canon s1.mem := foldl_canon (fun t id ht => cancelCopy_canon _ _ _ ht) h
      simp [putNext, s2, h1]

@[simp] theorem stopCopy_canon (s : State) (c : CopyOp) (st : CopySt) (cause : Cause) (sub : BitVec 8) (data : Word) (h : Canon s.mem) :
    Canon (s.stopCopy c st cause sub data).mem := by
  unfold State.stopCopy
  extract_lets c1 e s1
  have h1 : Canon s1.mem := by
    refine (congrArg Canon (modPhr_mem _ _ _)).mpr ?_
    exact putCstat_canon _ _ _ _ (putProgress_canon _ _ _ h)
  split <;> simp [h1]

@[simp] theorem fireCopy_canon (s : State) (c : CopyOp) (h : Canon s.mem) : Canon (s.fireCopy c).mem := by
  unfold State.fireCopy
  extract_lets c0
  split
  · exact stopCopy_canon _ _ _ _ _ _ h
  · exact stopCopy_canon _ _ _ _ _ _ h
  · exact putProgress_canon _ _ _ (putCstat_canon _ _ _ _ h)

@[simp] theorem execCopyFire_canon (id : Nat) (s : State) (h : Canon s.mem) : CanonOut (execCopyFire id s) := by
  unfold execCopyFire
  split
  · simp [h]
  · split <;> simp [h]

@[simp] theorem respondPart_mem (s : State) (c : CopyOp) (x : CopyPart) (o : PartOut) : (s.respondPart c x o).2.mem = s.mem := by
  unfold State.respondPart
  split
  · rfl
  · split <;> next e => exact mem_of_snd e (pathCheck_mem ..)
  · rfl

@[simp] theorem respondParts_mem (s : State) (c : CopyOp) (xs : List (CopyPart × PartOut)) : (s.respondParts c xs).2.mem = s.mem := by
  unfold State.respondParts
  exact foldl_keeps (fun q : List (Nat × Cause × BitVec 8) × State => q.2.mem = s.mem) _
    (fun q x hq => (respondPart_mem q.2 c x.1 x.2).trans hq) _ ([], s) rfl

@[simp] theorem vaWrite_canon (s : State) (c : CopyOp) (va : Nat) (bs : List Byte) (h : Canon s.mem) : Canon (s.vaWrite c va bs).mem := by
  unfold State.vaWrite
  exact foldl_canon (fun t i ht => by split <;> simp [ht]) h

@[simp] theorem writeLoc_canon (s : State) (c : CopyOp) (x : Option Loc) (code : Nat) (h : Canon s.mem) :
    Canon (s.writeLoc c x code).mem := by
  unfold State.writeLoc
  split <;> simp [h]

@[simp] theorem scatter_canon (s : State) (c : CopyOp) (p : CopyPlan) (l : Layout) (g : Nat) (bs : List Byte) (h : Canon s.mem) :
    Canon (s.scatter c p l g bs).mem := by
  unfold State.scatter
  extract_lets es s1 sc off
  exact foldl_canon (fun t i ht => writeLoc_canon _ _ _ _ ht) (foldl_canon (fun t i ht => writeLoc_canon _ _ _ _ ht) h)

@[simp] theorem intoRing_canon (s : State) (c : CopyOp) (p : CopyPlan) (x : Gutter) (g : Nat) (bs : List Byte) (h : Canon s.mem) :
    Canon (s.intoRing c p x g bs).mem := by
  simp +contextual [State.intoRing, h]

@[simp] theorem movePointer_mem (s : State) (c : CopyOp) (p : CopyPlan) (g : Nat) (fin : Bool) : (s.movePointer c p g fin).mem = s.mem := by
  unfold State.movePointer
  split <;> simp

@[simp] theorem endGranule_canon (s : State) (c : CopyOp) (p : CopyPlan) (g : Nat) (e : Exc) (h : Canon s.mem) :
    Canon (s.endGranule c p g e).mem := by
  simp [State.endGranule, h]

/-- The three kinds of granule: copied, encrypted (its text, and the tag after the last), decrypted. -/
@[simp] theorem moveGranule_canon (s : State) (c : CopyOp) (p : CopyPlan) (g : Nat) (h : Canon s.mem) :
    Canon (s.moveGranule c p g).mem := by
  unfold State.moveGranule
  extract_lets fin gut put r
  have hput (t : State) (bs : List Byte) (ht : Canon t.mem) : Canon (put t bs).mem := by
    simp only [put]
    clear_value gut
    split
    · exact scatter_canon _ _ _ _ _ _ ht
    · split
      · exact intoRing_canon _ _ _ _ _ _ ht
      · exact ht
  split
  · exact endGranule_canon _ _ _ _ _ (hput _ _ h)
  · extract_lets k ct auth s1 s2
    have h1 : Canon s1.mem := vaWrite_canon _ _ _ _ h
    have h2 : Canon s2.mem := by
      simp only [s2]
      split
      · exact vaWrite_canon _ _ _ _ h1
      · exact h1
    exact endGranule_canon _ _ _ _ _ h2
  · extract_lets k ct auth s1 c1
    have h1 : Canon s1.mem := hput _ _ h
    split
    · exact stopCopy_canon _ _ _ _ _ _ h1
    · exact endGranule_canon _ _ _ _ _ h1

@[simp] theorem stepCopy_canon (s : State) (c : CopyOp) (h : Canon s.mem) : Canon (s.stepCopy c).mem := by
  unfold State.stepCopy
  extract_lets p g parts c' outs ctx
  split
  · exact canon_of_mem (trimBatches_mem _ _) (putCstat_canon _ _ _ _ h)
  · split
    · split <;> simp [h]
    · simp [h]
    · split
      next fails s1 e =>
      have h1 : Canon s1.mem := canon_of_snd e (by simp [h])
      split
      · exact stopCopy_canon _ _ _ _ _ _ h1
      · simp [h1]

@[simp] theorem execCopyGranule_canon (id : Nat) (s : State) (h : Canon s.mem) : CanonOut (execCopyGranule id s) := by
  unfold execCopyGranule
  split <;> simp [h]

@[simp] theorem execCopyFaultTake_canon (frag : Nat) (s : State) (h : Canon s.mem) : CanonOut (execCopyFaultTake frag s) := by
  unfold execCopyFaultTake
  split
  · exact canonOut_next.2 h
  · exact canonOut_next.2 (trapEntry_canon _ _ _ _ _ _ h)

/-! ### Split and merge -/

@[simp] theorem grantSlot_mem (s : State) (core : Nat) : (s.grantSlot core).mem = s.mem := by
  unfold State.grantSlot
  split
  · rfl
  · extract_lets place
    split
    · rfl
    · split <;> rfl

@[simp] theorem execSsplit_canon (sd sa : SReg) (mark : BitVec 4) (s : State) (h : Canon s.mem) : CanonOut (execSsplit sd sa mark s) := by
  unfold execSsplit
  extract_lets p f m inside outside insideGoes gone kept num k aside free queued s1 s2 s3
  split
  · simp [h]
  · split
    · simp [putNext, h]
    · split
      · simp [putNext, h]
      · have h2 : Canon s2.mem := by simp [s2, s1, h]
        have h3 : Canon s3.mem := h2
        simp [putNext, h3]

@[simp] theorem mergeDone_mem (s : State) (k m : Nat) : (s.mergeDone k m).mem = s.mem := by simp [State.mergeDone]

@[simp] theorem orphanOps_mem (s : State) (k : Nat) : (s.orphanOps k).mem = s.mem := by
  unfold State.orphanOps
  extract_lets root s1
  exact foldl_mem fun t y => rfl

@[simp] theorem passCopies_mem (s : State) (k : Nat) : (s.passCopies k).mem = s.mem := rfl

@[simp] theorem endAside_mem (s : State) (k : Nat) : (s.endAside k).mem = s.mem := by
  unfold State.endAside
  simp only
  split <;> simp

/-! ### Images -/

@[simp] theorem dropRecord_mem (s : State) (core : Nat) (m : MissRec) (heir : Option Nat) : (s.dropRecord core m heir).mem = s.mem := by
  unfold State.dropRecord
  split <;> simp

@[simp] theorem dropRecords_mem (s : State) (p : Nat) : (s.dropRecords p).mem = s.mem := by simp [State.dropRecords]
@[simp] theorem shelve_mem (s : State) (k : Nat) : (s.shelve k).mem = s.mem := by simp [State.shelve]
@[simp] theorem shelveOps_mem (s : State) (core ctx : Nat) (mine : Nat → Bool) : (s.shelveOps core ctx mine).mem = s.mem := rfl

@[simp] theorem takeOff_mem (s : State) (p : Nat) : (s.takeOff p).mem = s.mem := by
  unfold State.takeOff
  extract_lets q mine s0 s1 strip s2 held s3 s4
  have h0 : s0.mem = s.mem := (foldl_mem fun t a => by
    split
    · split <;> simp
    · simp).trans (dropRecords_mem _ _)
  have h1 : s1.mem = s.mem := (foldl_mem fun t k => shelve_mem _ _).trans h0
  have h3 : s3.mem = s.mem := by simp [s3, s2, h1]
  split
  · exact (freeToken_mem _ _).trans h3
  · exact h3

@[simp] theorem writeCore_canon (s0 : State) (ctx core a : Nat) (holder : Word) (h : Canon s0.mem) :
    Canon (s0.writeCore ctx core a holder).mem := by
  simp [State.writeCore, h]

@[simp] theorem loadCore_canon (s : State) (ctx from' core : Nat) (h : Canon s.mem) : Canon (s.loadCore ctx from' core).mem := by
  unfold State.loadCore
  split
  · exact h
  · extract_lets a s1
    have h1 : Canon s1.mem := by
      simp only [s1, updMem_mem, dropRange_mem]
      exact canon_writeBytes _ _ h
    simp [h1]

@[simp] theorem claimCore_canon (s : State) (ctx core : Nat) (h : Canon s.mem) : Canon (s.claimCore ctx core).mem := by
  unfold State.claimCore
  split
  · exact h
  · simp [dropRange_mem, h]

@[simp] theorem saveAt_canon (s : State) (ps : List Nat) (auto : Bool) (addr : Nat) (h : Canon s.mem) :
    Canon (s.saveAt ps auto addr).1.mem := by
  unfold State.saveAt
  exact foldl_keeps (fun q : State × Nat => Canon q.1.mem) _
    (fun q p hq => by exact setLeaf_canon _ _ _ _ _ _ _ (by simp [hq])) _ (s, addr) h

@[simp] theorem saveGroupAt_canon (s : State) (p a : Nat) (auto : Bool) (h : Canon s.mem) : Canon (s.saveGroupAt p a auto).mem := by
  simp [State.saveGroupAt, h]

@[simp] theorem stopGroup_mem (s : State) (p : Nat) : (s.stopGroup p).mem = s.mem := by simp [State.stopGroup]

@[simp] theorem servedLanes_mem (s : State) (k : Nat) (r : Restart) : (s.servedLanes k r).mem = s.mem := by
  unfold State.servedLanes
  split <;> simp

@[simp] theorem restartLane_mem (s : State) (a : Access) (e : Nat × Word × Word × Word) : (s.restartLane a e).2.mem = s.mem := by
  simp [State.restartLane]

@[simp] theorem restartLanes_mem (s : State) (a : Access) (es : List (Nat × Word × Word × Word)) : (s.restartLanes a es).2.mem = s.mem := by
  induction es generalizing s with
  | nil => rfl
  | cons e es ih => rw [State.restartLanes]; exact (ih _).trans (restartLane_mem ..)

@[simp] theorem serveFault_mem (s : State) (k : Nat) (r : Restart) : (s.serveFault k r).mem = s.mem := by
  unfold State.serveFault
  split <;> simp

@[simp] theorem serveFailure_mem (s : State) (k : Nat) (a : Access) (r : Restart) (fe : Nat) : (s.serveFailure k a r fe).mem = s.mem := by
  unfold State.serveFailure
  split <;> simp

@[simp] theorem serveHeldLanes_mem (s : State) (k : Nat) (a : Access) (r : Restart) : (s.serveHeldLanes k a r).mem = s.mem := by
  unfold State.serveHeldLanes
  simp only
  split <;> simp

@[simp] theorem serveRestart_mem (s : State) (p : Nat) (r : Restart) : (s.serveRestart p r).mem = s.mem := by
  unfold State.serveRestart
  extract_lets k s1
  have h1 : s1.mem = s.mem := by
    simp only [s1]
    split
    · simp
    · split
      · rfl
      · split <;> simp
      · simp
  split
  · exact h1
  · exact h1

/-- The check of the read is kept as an opaque function `c` with only its frame, so that nothing evaluates it at the pool's path. -/
@[simp] theorem answerPoolRead_canon (s : State) (entry : Nat) (h : Canon s.mem) : Canon (s.answerPoolRead entry).mem := by
  have hc (id ctx : Nat) (r w : Bool) (p : Piece) : Canon (s.pathCheck id ctx r w p).2.mem := canon_of_mem (pathCheck_mem ..) h
  unfold State.answerPoolRead
  obtain ⟨c, e⟩ : ∃ c, s.pathCheck = c := ⟨_, rfl⟩
  rw [e] at hc ⊢
  split
  · exact h
  · split
    next he =>
    have h1 := canon_of_snd he (hc ..)
    extract_lets s2
    have h2 : Canon s2.mem := h1
    split
    · exact canon_updMem (canon_writeNat _ _ _ h2)
    · exact canon_updMem (canon_writeNat _ _ _ (canon_writeNat _ _ _ (canon_writeNat _ _ _ h2)))

@[simp] theorem serveEntries_canon (s : State) (p : Nat) (es : List Restart) (h : Canon s.mem) : Canon (s.serveEntries p es).mem := by
  induction es generalizing s with
  | nil =>
    unfold State.serveEntries
    extract_lets s0 s1 s2
    have h2 : Canon s2.mem := foldl_canon (fun t k ht => ht) (show Canon s1.mem from h)
    exact foldl_canon (fun t k ht => settle_canon _ _ ht) (by simp [h2])
  | cons r rs ih =>
    unfold State.serveEntries
    split
    · exact ih _ (by simp [h])
    · exact h

@[simp] theorem restartOn_canon (s : State) (p : Nat) (h : Canon s.mem) : Canon (s.restartOn p).mem := by simp [State.restartOn, h]

@[simp] theorem placeFrag_mem (s : State) (core k : Nat) (slot : Option Nat) (taken : List Nat) :
    (s.placeFrag core k slot taken).mem = s.mem := by
  unfold State.placeFrag
  split
  · rfl
  · split
    · rfl
    · split <;> rfl

@[simp] theorem askFor_mem (s : State) (core : Nat) (o : MxOp) : (s.askFor core o).mem = s.mem := rfl

@[simp] theorem takeToken_mem (s : State) (p : Nat) : (s.takeToken p).mem = s.mem := by
  unfold State.takeToken
  simp only
  split <;> simp

@[simp] theorem rejoin_mem (s : State) (p : Nat) (old : Phrase) (w : Nat) : (s.rejoin p old w).mem = s.mem := by
  unfold State.rejoin
  extract_lets q s1
  have h1 : s1.mem = s.mem := by
    simp only [s1]
    split
    · rfl
    · split <;> rfl
  split
  · rfl
  · split
    · exact h1
    · exact h1

@[simp] theorem copiesAt_mem (s : State) (p core a n : Nat) : (s.copiesAt p core a n).2.mem = s.mem := by
  unfold State.copiesAt
  extract_lets held next
  exact foldl_keeps (fun q : List CopyOp × State => q.2.mem = s.mem) _ (fun q i hq => by dsimp only; split <;> exact hq) _ ([], s) rfl

@[simp] theorem requeueCopies_mem (s : State) (p a core regs : Nat) : (s.requeueCopies p a core regs).mem = s.mem := by
  simp [State.requeueCopies]

@[simp] theorem requeueOps_mem (s : State) (p ctx old core : Nat) (first : Bool) : (s.requeueOps p ctx old core first).mem = s.mem := by
  unfold State.requeueOps
  extract_lets mine s1 ops s2
  have h1 : s1.mem = s.mem := foldl_mem fun t c => by split <;> simp
  exact (foldl_mem fun t o => askFor_mem _ _ _).trans h1

@[simp] theorem loadEngine_mem (s : State) (ctx core : Nat) : (s.loadEngine ctx core).mem = s.mem := by
  unfold State.loadEngine
  split <;> simp

@[simp] theorem loadPhrase_canon (s : State) (p a core slot : Nat) (taken : List Nat) (h : Canon s.mem) :
    Canon (s.loadPhrase p a core slot taken).mem := by
  unfold State.loadPhrase
  extract_lets q old s1 first s2 q1 mask d s3 n rs tail s4 s5 s6 s7 s7b s7a s8 s9
  have h1 : Canon s1.mem := setLeaf_canon _ _ _ _ _ _ _ h
  have h2 : Canon s2.mem := by
    simp only [s2]
    split
    · simp [h1]
    · exact loadCore_canon _ _ _ _ (claimCore_canon _ _ _ h1)
  have h3 : Canon s3.mem := by simp [s3, h2]
  have h4 : Canon s4.mem := foldl_canon (fun t n ht => ht) h3
  have h6 : Canon s6.mem := foldl_canon (fun t k ht => by simp [ht]) (show Canon s5.mem from h4)
  have h7 : Canon s7.mem := by simp [s7, h6]
  have h8 : Canon s8.mem := by simp [s8, s7a, s7b, h7]
  exact serveEntries_canon _ _ _ (by simp [s9, h8])

@[simp] theorem savedPhrase_mem (s : State) (n : Word) : (s.savedPhrase n).2.mem = s.mem := by
  unfold State.savedPhrase
  split <;> simp

@[simp] theorem restoreAt_canon (s : State) (n : Word) (core slot : Nat) (h : Canon s.mem) : CanonOpt (s.restoreAt n core slot) := by
  simp +contextual [State.restoreAt, h]

/-! ### Interrupts -/

@[simp] theorem raise_mem (s : State) (v : Nat) : (s.raise v).mem = s.mem := by simp [State.raise]
@[simp] theorem deliverPending_mem (s : State) : s.deliverPending.mem = s.mem := by simp [State.deliverPending]

/-- A write of the control page that is performed does what the caller says. -/
@[simp] theorem pageWrite_canon (s : State) (r : PageReq) (done : State) (h : Canon s.mem) (hd : Canon done.mem) :
    CanonOut (s.pageWrite r done) := by
  unfold State.pageWrite
  split
  · exact canonOut_next.2 hd
  · exact canonOut_next.2 h

/-! ### The translation caches -/

@[simp] theorem retryPage_canon (s0 : State) (ctx page : Nat) (h : Canon s0.mem) : Canon (s0.retryPage ctx page).mem := by
  simp [State.retryPage, h]

@[simp] theorem failPage_mem (s0 : State) (ctx page : Nat) (sub : BitVec 8) : (s0.failPage ctx page sub).mem = s0.mem := rfl

@[simp] theorem failHostAcc_canon (s : State) (hp : Bool) (ctx page : Nat) (sub : BitVec 8) (a : Access) (h : Canon s.mem) :
    Canon (s.failHostAcc hp ctx page sub a).mem :=
  checkAccess_canon _ _ h

@[simp] theorem dropReq_mem (s : State) (hp : Bool) (q : HostReq) : (s.dropReq hp q).mem = s.mem := rfl

@[simp] theorem failReq_canon (s : State) (hp : Bool) (q : HostReq) (sub : BitVec 8) (h : Canon s.mem) :
    Canon (s.failReq hp q sub).mem := by
  unfold State.failReq
  extract_lets s1 s2
  have h1 : Canon s1.mem := by simp [s1, h]
  have h2 : Canon s2.mem := foldl_canon (fun t a ht => by split <;> simp [ht]) h1
  simp [h2]

@[simp] theorem granted_canon (s : State) (hp : Bool) (q : HostReq) (h : Canon s.mem) : Canon (s.granted hp q).mem := by
  unfold State.granted
  exact canon_of_mem (tidy_mem _) (retryPage_canon _ _ _ h)

@[simp] theorem pageRequest_mem (s : State) (hp : Bool) (q : HostReq) : (s.pageRequest hp q).mem = s.mem := by simp [State.pageRequest]

@[simp] theorem failEarly_canon (s : State) (hp : Bool) (q : HostReq) (h : Canon s.mem) : Canon (s.failEarly hp q).mem := by
  unfold State.failEarly
  exact foldl_canon (fun t a ht => by split <;> simp [ht]) h

@[simp] theorem notGranted_canon (s : State) (hp : Bool) (q : HostReq) (h : Canon s.mem) : Canon (s.notGranted hp q).mem := by
  simp [State.notGranted, h]

@[simp] theorem reAsk_mem (s : State) (hp : Bool) : (s.reAsk hp).mem = s.mem := by simp [State.reAsk]

@[simp] theorem execAtsCompletion_canon (hp : Bool) (ctx page : Nat) (grant : AtsGrant) (s : State) (h : Canon s.mem) :
    CanonOut (execAtsCompletion hp ctx page grant s) := by
  unfold execAtsCompletion
  split
  · exact canonOut_next.2 h
  · split
    · simp [h]
    · extract_lets s1
      have h1 : Canon s1.mem := h
      split <;> simp [h1]

@[simp] theorem execPriResponse_canon (hp : Bool) (ctx page : Nat) (success : Bool) (s : State) (h : Canon s.mem) :
    CanonOut (execPriResponse hp ctx page success s) := by
  unfold execPriResponse
  split <;> simp [h]

@[simp] theorem execPriTimeout_canon (hp : Bool) (ctx page : Nat) (s : State) (h : Canon s.mem) :
    CanonOut (execPriTimeout hp ctx page s) := by
  unfold execPriTimeout
  split <;> simp [h]

@[simp] theorem copyTimeout_canon (s : State) (id : Nat) (h : Canon s.mem) : Canon (s.copyTimeout id).mem := by
  unfold State.copyTimeout
  split
  · exact h
  · split
    · simp [h]
    · exact h

@[simp] theorem execPoolTimeout_canon (id : Nat) (s : State) (h : Canon s.mem) : CanonOut (execPoolTimeout id s) := by
  unfold execPoolTimeout
  split
  · simp [h]
  · exact canonOut_next.2 (checkAccess_canon _ _ h)

@[simp] theorem execDynamicCapacityAdd_canon (start len : BitVec 32) (s : State) (h : Canon s.mem) :
    CanonOut (execDynamicCapacityAdd start len s) := by
  unfold execDynamicCapacityAdd
  split <;> simp [h]

@[simp] theorem writePoolrel_mem (s : State) (value : Word) : (s.writePoolrel value).mem = s.mem := by simp [State.writePoolrel]
@[simp] theorem releaseExtents_mem (s : State) : s.releaseExtents.mem = s.mem := by simp [State.releaseExtents]

@[simp] theorem grantTo_mem (s : State) (a : Ask) (n : Nat) : (s.grantTo a n).mem = s.mem := by
  unfold State.grantTo
  split <;> simp

@[simp] theorem tickCluster_mem (s : State) (c budget k : Nat) : (s.tickCluster c budget k).mem = s.mem := by simp [State.tickCluster]
@[simp] theorem tickPart_mem (s : State) (n : Nat) : (s.tickPart n).mem = s.mem := by simp [State.tickPart]

/-! ### Nests -/

@[simp] theorem keepVerbs_mem (s : State) (die : Option Nat) (ctx : Nat) (is : List Nat) (t : State) :
    (s.keepVerbs die ctx is t).mem = t.mem :=
  rfl

@[simp] theorem sendReply_mem (s : State) (ws : List (SReg × Word)) (acq : Option Scope) : (s.sendReply ws acq).mem = s.mem := rfl

@[simp] theorem build_canon (s : State) (ctx comb : Nat) (ops : List Word) (pw : Word) (h : Canon s.mem) :
    Canon (s.build ctx comb ops pw).2.mem := by
  unfold State.build
  split
  · exact h
  · split
    · exact h
    · exact canon_updMem (canon_writeVerb _ _ h)

@[simp] theorem builder_canon (s : State) (comb : Nat) (sd : SReg) (ops : List Word) (pw : Word) (h : Canon s.mem) :
    CanonOut (s.builder comb sd ops pw) := by
  simp [State.builder, h]

@[simp] theorem recordNest_canon (s : State) (ctx rec : Nat) (ns : List Node) (h : Canon s.mem) : Canon (s.recordNest ctx rec ns).mem := by
  simp +contextual [State.recordNest, h]

@[simp] theorem accept_canon (s : State) (ctx q : Nat) (k : Packet) (noun : Word) (rec : Nat) (claimed : Bool) (ns : List Node)
    (pages : List Nat) (h : Canon s.mem) :
    Canon (s.accept ctx q k noun rec claimed ns pages).mem := by
  unfold State.accept
  extract_lets i a s1
  have h1 : Canon s1.mem := recordNest_canon _ _ _ _ (canon_updMem (canon_writeBytes _ _ h))
  exact h1

/-- A refusal writes nothing; an apply that is accepted has allocated its noun, and one that fails at once ends as any nest does. -/
@[simp] theorem apply_canon (s : State) (die : Option Nat) (ctx : Nat) (k : Packet) (now : Bool) (h : Canon s.mem) :
    Canon (s.apply die ctx k now).2.mem := by
  unfold State.apply
  extract_lets q part s1 c
  have h1 : Canon s1.mem := h
  split
  · exact h
  · split
    · exact h
    · split
      · exact h
      · split
        · exact h1
        · split
          · exact h1
          · split
            · exact h1
            · next e =>
              have h2 := allocNoun_canon _ _ _ _ _ _ h1 _ e
              clear_value c
              split
              · simp [h2]
              · refine instDead_canon _ _ _ _ _ ?_
                simp [h2]
              · simp [h2]

@[simp] theorem bulkMiss_mem (s : State) (k : Nat) (w : Want) (va : Nat) : (s.bulkMiss k w va).2.mem = s.mem := by
  unfold State.bulkMiss
  split <;> simp

@[simp] theorem bulkPart_mem (s : State) (k : Nat) (w : Want) (va len : Nat) : (s.bulkPart k w va len).2.mem = s.mem := by
  unfold State.bulkPart
  extract_lets a hp
  split
  · simp
  · rfl
  · split
    · split
      · rfl
      · simp
    · split
      · next e => exact mem_of_snd e (pathCheck_mem ..)
      · next e => split <;> exact mem_of_snd e (pathCheck_mem ..)

@[simp] theorem bulkParts_mem (s : State) (k : Nat) (w : Want) (parts : List (Nat × Nat)) (ps : List Piece) :
    (s.bulkParts k w parts ps).2.mem = s.mem := by
  induction parts generalizing s ps with
  | nil => rfl
  | cons p rest ih =>
    unfold State.bulkParts
    split
    · next e => exact (ih _ _).trans (mem_of_snd e (bulkPart_mem ..))
    · exact bulkPart_mem ..

@[simp] theorem bulk_mem (s : State) (k : Nat) (w : Want) (va len : Nat) : (s.bulk k w va len).2.mem = s.mem := by simp [State.bulk]

theorem bulk_canon {s t : State} {k va n : Nat} {w : Want} {b : Bulk} (e : s.bulk k w va n = (b, t)) (h : Canon s.mem) : Canon t.mem :=
  canon_of_snd e (canon_of_mem (bulk_mem ..) h)

@[simp] theorem answerApply_mem (s : State) (sd : SReg) (r : Except Nat Word) : (s.answerApply sd r).mem = s.mem := rfl

@[simp] theorem kapplyPacket_canon (s : State) (ctx : Nat) (sd : SReg) (k : Packet) (now : Bool) (h : Canon s.mem) :
    Canon (s.kapplyPacket ctx sd k now).mem := by
  simp [State.kapplyPacket, h]

@[simp] theorem execKapply_canon (sd sa sb : SReg) (now : Bool) (s : State) (h : Canon s.mem) : CanonOut (execKapply sd sa sb now s) := by
  unfold execKapply
  extract_lets verb ctx
  split
  · exact canonOut_next.2 h
  · split
    · simp [h]
    · split
      · exact canonOut_next.2 (kapplyPacket_canon _ _ _ _ _ h)
      · split
        · simp [h]
        · split
          · next e => exact canonOut_next.2 (bulk_canon e h)
          · next e => simp [bulk_canon e h]
          · next e =>
            split
            · simp [bulk_canon e h]
            · exact canonOut_next.2 (kapplyPacket_canon _ _ _ _ _ (bulk_canon e h))

/-! ### Channels -/

@[simp] theorem chanMove_canon (s : State) (a : Applied) (x : Node) (prod : Bool) (h : Canon s.mem) : Canon (s.chanMove a x prod).mem := by
  unfold State.chanMove
  split <;> simp [h]

@[simp] theorem dequeAccept_mem (s : State) (r : Nat) : (s.dequeAccept r).mem = s.mem := rfl
@[simp] theorem chanAccept_mem (s : State) (a : Applied) (x : Node) : (s.chanAccept a x).mem = s.mem := rfl

@[simp] theorem chanStore_canon (s : State) (a : Applied) (x : Node) (ptr lo : Nat) (bs : List Byte) (h : Canon s.mem) :
    Canon (s.chanStore a x ptr lo bs).mem := by
  unfold State.chanStore
  extract_lets ks
  exact canon_of_mem (heal_mem _ _) (canon_of_mem (dropTags_mem _ _) (canon_updMem (canon_chanWrite _ _ _ _ _ h)))

@[simp] theorem emitStatus_canon (s : State) (sd : SReg) (st : Word) (h : Canon s.mem) : CanonOut (s.emitStatus sd st) := by
  simp [State.emitStatus, h]

@[simp] theorem emitFarm_canon (s : State) (sd : SReg) (a : Applied) (x : Node) (task payload : Word) (h : Canon s.mem) :
    CanonOut (s.emitFarm sd a x task payload) := by
  unfold State.emitFarm
  split
  · simp [h]
  · split
    · simp [h]
    · extract_lets r ks
      exact emitStatus_canon _ _ _ (by simp [h])

@[simp] theorem emitPipe_canon (s : State) (sd : SReg) (a : Applied) (x : Node) (task payload : Word) (h : Canon s.mem) :
    CanonOut (s.emitPipe sd a x task payload) := by
  unfold State.emitPipe
  extract_lets n ptr push
  have hp (bs : List Byte) (t : State) (ht : Canon t.mem) : CanonOut (push bs t) :=
    emitStatus_canon _ _ _ (canon_of_mem (chanAccept_mem _ _ _) (chanMove_canon _ _ _ _ (chanStore_canon _ _ _ _ _ _ ht)))
  split
  · simp [h]
  · split
    · exact hp _ _ h
    · split
      · next e => exact canonOut_next.2 (bulk_canon e h)
      · next e => exact fault_canon _ _ _ _ (bulk_canon e h)
      · next e => exact hp _ _ (bulk_canon e h)

@[simp] theorem execKemit_canon (sd sa sb : SReg) (farm : Bool) (s : State) (h : Canon s.mem) : CanonOut (execKemit sd sa sb farm s) := by
  unfold execKemit
  split
  · simp [h]
  · split
    · simp [h]
    · split
      · simp [h]
      · split <;> simp [h]
      · split <;> simp [h]

@[simp] theorem takeStatus_canon (s : State) (sd sf : SReg) (task st : Word) (h : Canon s.mem) : CanonOut (s.takeStatus sd sf task st) := by
  simp [State.takeStatus, h]

@[simp] theorem takeFarm_canon (s : State) (sd sf : SReg) (a : Applied) (f : Nat) (x : Node) (h : Canon s.mem) :
    CanonOut (s.takeFarm sd sf a f x) := by
  unfold State.takeFarm
  split <;> simp [h]

@[simp] theorem takePipe_canon (s : State) (sd sf : SReg) (a : Applied) (x : Node) (dest : Word) (h : Canon s.mem) :
    CanonOut (s.takePipe sd sf a x dest) := by
  unfold State.takePipe
  extract_lets ptr n task taken
  have hp (t : State) (ht : Canon t.mem) : CanonOut (taken t) :=
    takeStatus_canon _ _ _ _ _ (canon_of_mem (chanAccept_mem _ _ _) (chanMove_canon _ _ _ _ ht))
  split
  · exact takeStatus_canon _ _ _ _ _ h
  · split
    · exact fault_canon _ _ _ _ h
    · split
      · exact hp _ h
      · split
        · next e => exact canonOut_next.2 (bulk_canon e h)
        · next e => exact fault_canon _ _ _ _ (bulk_canon e h)
        · next e => exact hp _ (by simp [bulk_canon e h])

@[simp] theorem execKtake_canon (sd sf sa : SReg) (s : State) (h : Canon s.mem) : CanonOut (execKtake sd sf sa s) := by
  unfold execKtake
  split
  · simp [h]
  · split
    · simp [h]
    · split
      · simp [h]
      · split <;> simp [h]
      · split <;> simp [h]

@[simp] theorem execKdone_canon (sd : SReg) (s : State) (h : Canon s.mem) : CanonOut (execKdone sd s) := by
  unfold execKdone
  split
  · exact canonOut_next.2 h
  · split
    · simp [h]
    · split
      · split
        · split
          · exact emitStatus_canon _ _ _ (by simp [h])
          · simp [h]
        · simp [h]
      · simp [h]

@[simp] theorem stopMate_mem (s : State) (p : Nat) : (s.stopMate p).mem = s.mem := by simp [State.stopMate]

@[simp] theorem suspend_canon (s : State) (i : Nat) (v : Word) (h : Canon s.mem) : Canon (s.suspend i v).mem := by
  unfold State.suspend
  split
  · exact h
  · extract_lets s1
    have h1 : Canon s1.mem := by
      simp only [s1]
      split
      · split
        · exact endJoiner_canon _ _ _ _ _ _ h
        · exact h
      · exact h
    exact serveResumer_canon _ _ h1

@[simp] theorem execKyield_canon (sd sa : SReg) (s : State) (h : Canon s.mem) : CanonOut (execKyield sd sa s) := by
  unfold execKyield
  split
  · simp [h]
  · extract_lets p i v rec' s1 s2
    split
    · simp [h]
    · have h2 : Canon s2.mem := saveAt_canon s1 _ _ _ h
      exact canonOut_next.2 (suspend_canon _ _ _ h2)

/-! ### Local queues -/

@[simp] theorem enqueue_canon (s : State) (n : Nat) (sd sa : SReg) (off : BitVec 12) (h : Canon s.mem) :
    CanonOut (s.enqueue n sd sa off) := by
  simp [State.enqueue, h]

/-! ### The fabric -/

@[simp] theorem sendFlit_mem (s : State) (n typ vc dst lseq : Nat) (payload : List Byte) (msg : Option Nat) :
    (s.sendFlit n typ vc dst lseq payload msg).mem = s.mem := by
  simp [State.sendFlit]

@[simp] theorem sendLink_mem (s : State) (n typ lseq : Nat) (payload : List Byte) : (s.sendLink n typ lseq payload).mem = s.mem := by
  unfold State.sendLink
  split <;> simp

@[simp] theorem sendFlits_mem (s : State) (n vc dst id count : Nat) (first : Bool) (bs : List Byte) :
    (s.sendFlits n vc dst id count first bs).mem = s.mem := by
  induction count generalizing s first bs with
  | zero => rfl
  | succ k ih => rw [State.sendFlits, ih, sendFlit_mem]

@[simp] theorem portSend_mem (s : State) (n : Nat) : (s.portSend n).mem = s.mem := by
  unfold State.portSend
  split <;> simp

@[simp] theorem keyClearNow_mem (s : State) (n : Nat) : (s.keyClearNow n).mem = s.mem := by
  unfold State.keyClearNow
  extract_lets p old
  split
  · rfl
  · simp

@[simp] theorem execKeyChange_canon (port : BitVec 4) (change : KeyChange) (s : State) (h : Canon s.mem) :
    CanonOut (execKeyChange port change s) := by
  unfold execKeyChange
  split <;> simp [h]

@[simp] theorem flitFails_mem (s : State) (n c lseq : Nat) : (s.flitFails n c lseq).mem = s.mem := by simp [State.flitFails]

/-- A flit of the named type goes on as the caller says. -/
@[simp] theorem onFlit_canon (s : State) (n typ : Nat) (flit : List Byte) (k : State) (h : Canon s.mem) (hk : Canon k.mem) :
    CanonOut (s.onFlit n typ flit k) := by
  unfold State.onFlit
  split
  · exact canonOut_next.2 h
  · simp [h]
  · split
    · exact canonOut_next.2 hk
    · exact canonOut_next.2 h

@[simp] theorem execKeyclear_canon (port : BitVec 4) (src : List Byte) (gen : BitVec 32) (s : State) (h : Canon s.mem) :
    CanonOut (execKeyclear port src gen s) :=
  onFlit_canon _ _ _ _ _ h h

@[simp] theorem replayFails_mem (s : State) (n : Nat) : (s.replayFails n).mem = s.mem := by simp [State.replayFails]
@[simp] theorem nakked_mem (s : State) (n lseq : Nat) (busy : Bool) : (s.nakked n lseq busy).mem = s.mem := by simp [State.nakked]
@[simp] theorem acked_mem (s : State) (n lseq : Nat) : (s.acked n lseq).mem = s.mem := by simp [State.acked]

@[simp] theorem nounLost_canon (s : State) (o : NounOp) (h : Canon s.mem) : Canon (s.nounLost o).mem := by
  unfold State.nounLost
  split <;> simp [h]

@[simp] theorem peerGone_canon (s : State) (q : Nat) (h : Canon s.mem) : Canon (s.peerGone q).mem := by
  unfold State.peerGone
  extract_lets f mine ids s1 hit s2 s3
  have h3 : Canon s3.mem := foldl_canon (fun t id ht => checkAccess_canon _ _ ht) (show Canon s2.mem from h)
  exact foldl_canon (fun t o ht => by simp [ht]) h3

@[simp] theorem execPreamble_canon (port : BitVec 4) (flit : List Byte) (s : State) (h : Canon s.mem) :
    CanonOut (execPreamble port flit s) := by
  unfold execPreamble
  extract_lets n p at4 q closed boot s1 s2
  have h1 : Canon s1.mem := by
    simp only [s1]
    split
    · split
      · exact h
      · exact peerGone_canon _ _ h
    · exact h
  split
  · exact canonOut_next.2 h
  · split
    · exact canonOut_next.2 h
    · split
      · simp [h]
      · exact canonOut_next.2 h1

@[simp] theorem arriveLanes_canon (s : State) (x : ExpWin) (m : FabMsg) (ls : List FabLane) (h : Canon s.mem) :
    Canon (s.arriveLanes x m ls).2.mem := by
  induction ls generalizing s with
  | nil => exact h
  | cons l ls ih => rw [State.arriveLanes]; exact ih _ (windowLane_canon _ _ _ _ _ _ _ _ _ _ h)

@[simp] theorem noteArrived_mem (s : State) (src : Nat) (m : FabMsg) : (s.noteArrived src m).mem = s.mem := rfl

@[simp] theorem performMsg_canon (s : State) (src : Nat) (x : ExpWin) (m : FabMsg) (h : Canon s.mem) :
    Canon (s.performMsg src x m).mem := by
  unfold State.performMsg
  extract_lets s1 reply
  have h1 : Canon s1.mem := by simp [s1, h]
  have hr (t : State) (as : List FabMsg) (ht : Canon t.mem) : Canon (reply t as).mem := foldl_canon (fun u a hu => by simp [hu]) ht
  have hl (t : State) (rs : List (Nat × WinOut)) (e : s1.arriveLanes x m m.body = (rs, t)) : Canon t.mem :=
    canon_of_snd e (arriveLanes_canon _ _ _ _ h1)
  split
  · split; next e => exact hr _ _ (hl _ _ e)
  · split; next e => exact hr _ _ (hl _ _ e)
  · split; next e => exact hr _ _ (hl _ _ e)
  · split <;> next e => exact hr _ _ (canon_of_snd e (windowWrites_canon _ _ _ _ _ _ h1))
  · split
    · exact h1
    · split
      · exact h1
      · exact h1
  · exact h1
  · exact h1
  · exact h1

@[simp] theorem bumpExpected_mem (s : State) (ph : Word) (src : Nat) : (s.bumpExpected ph src).mem = s.mem := rfl

@[simp] theorem msgArrives_canon (s : State) (src : Nat) (m : FabMsg) (h : Canon s.mem) : Canon (s.msgArrives src m).mem := by
  unfold State.msgArrives
  split
  · exact foldl_canon (fun t a ht => by simp [ht]) h
  · split
    · exact h
    · split
      · exact performMsg_canon _ _ _ _ h
      · split
        · exact canon_of_mem (bumpExpected_mem _ _ _) (performMsg_canon _ _ _ _ h)
        · split
          · exact h
          · split <;> simp [h]

@[simp] theorem arriveHeld_canon (s : State) (h : Canon s.mem) : Canon s.arriveHeld.mem := by
  unfold State.arriveHeld
  split
  · exact h
  · exact canon_of_mem (bumpExpected_mem _ _ _) (performMsg_canon _ _ _ _ h)

@[simp] theorem dropKept_mem (s : State) (msgid : Nat) : (s.dropKept msgid).mem = s.mem := by simp [State.dropKept]

@[simp] theorem endLanes_canon (s : State) (m : FabMsg) (f : LaneAcc → LaneAcc) (h : Canon s.mem) : Canon (s.endLanes m f).mem := by
  unfold State.endLanes
  exact canon_of_mem (dropKept_mem _ _) (foldl_canon (fun t a ht => checkAccess_canon _ _ ht) h)

@[simp] theorem execWriteAcknowledgement_canon (src : BitVec 10) (msg : FabMsg) (s : State) (h : Canon s.mem) :
    CanonOut (execWriteAcknowledgement src msg s) := by
  simp [execWriteAcknowledgement, h]

@[simp] theorem execReadResponse_canon (src : BitVec 10) (msg : FabMsg) (s : State) (h : Canon s.mem) :
    CanonOut (execReadResponse src msg s) := by
  unfold execReadResponse
  split
  · extract_lets l word
    exact canonOut_next.2 (canon_of_mem (dropKept_mem _ _) (answer_canon _ _ _ _ h))
  · extract_lets value s1
    have h1 : Canon s1.mem := foldl_canon (fun t a ht => foldl_canon (fun u l hu => by simp [hu]) ht) h
    exact canonOut_next.2 (endLanes_canon _ _ _ h1)

@[simp] theorem execFailureResponse_canon (src : BitVec 10) (msg : FabMsg) (s : State) (h : Canon s.mem) :
    CanonOut (execFailureResponse src msg s) := by
  unfold execFailureResponse
  split
  · simp [h]
  · split <;> simp [h]

/-- A response is performed as its row; a message whose row stops leaves the state. -/
@[simp] theorem received_canon (s : State) (vc src dst : Nat) (m : FabMsg) (h : Canon s.mem) : Canon (s.received vc src dst m).mem := by
  unfold State.received
  have hr {o : Out} (ho : CanonOut o) : Canon (match o with | .next t => t | _ => s).mem := by
    cases o with
    | next t => exact ho t rfl
    | fault r => exact h
    | refused r => exact h
  split
  · exact h
  · extract_lets from0 run
    split
    · exact hr (execWriteAcknowledgement_canon (BitVec.ofNat 10 src) m s h)
    · exact hr (execReadResponse_canon (BitVec.ofNat 10 src) m s h)
    · exact hr (execFailureResponse_canon (BitVec.ofNat 10 src) m s h)
    · exact msgArrives_canon _ _ _ h

@[simp] theorem assemble_canon (s : State) (n : Nat) (first : Bool) (vc src dst : Nat) (payload : List Byte) (h : Canon s.mem) :
    Canon (s.assemble n first vc src dst payload).mem := by
  unfold State.assemble
  extract_lets key p old others s1
  have h1 : Canon s1.mem := h
  clear_value old
  split
  · exact h
  · extract_lets all
    split
    · exact h
    · split
      · exact h
      · split
        · exact received_canon _ _ _ _ _ h1
        · exact h1

@[simp] theorem receiveFlit_canon (s : State) (n : Nat) (first : Bool) (flit : List Byte) (h : Canon s.mem) :
    Canon (s.receiveFlit n first flit).mem := by
  unfold State.receiveFlit
  split <;> simp [h]

@[simp] theorem execIdle_canon (port : PortFlit) (s : State) (h : Canon s.mem) : CanonOut (execIdle port s) := onFlit_canon _ _ _ _ _ h h

@[simp] theorem execFabricQueueAdmit_canon (dest : BitVec 10) (s : State) (h : Canon s.mem) : CanonOut (execFabricQueueAdmit dest s) := by
  unfold execFabricQueueAdmit
  split <;> simp [h]

/-! ### Crossings of lanes -/

@[simp] theorem quietExc_mem (s : State) (id : Nat) (e : Exc) : (s.quietExc id e).mem = s.mem := rfl

/-! ### Placement and launch -/

@[simp] theorem openCourses_mem (s : State) (i : Nat) (a : Applied) (x : Node) : (s.openCourses i a x).mem = s.mem := by
  unfold State.openCourses
  split
  · rfl
  · exact foldl_mem fun t j => by extract_lets num m ranks; split <;> rfl

@[simp] theorem launchEnrol_mem (s : State) (i : Nat) (a : Applied) (x : Node) (n p rank core : Nat) :
    (s.launchEnrol i a x n p rank core).mem = s.mem := by
  unfold State.launchEnrol
  split
  · rfl
  · extract_lets num s1
    have h1 : s1.mem = s.mem := by simp only [s1]; split <;> rfl
    exact h1

/-- A phrase, and with an auxiliary its mate: each has a noun allocated on a core that is claimed before. -/
@[simp] theorem spawn_canon (s : State) (i : Nat) (a : Applied) (node : Nat) (x : Node) (n core : Nat) (slots : Nat × Nat)
    (h : Canon s.mem) :
    CanonOpt (s.spawn i a node x n core slots) := by
  unfold State.spawn
  extract_lets loc
  split
  · exact canonOpt_none
  · next noun s1 e =>
    have h1 := allocNoun_canon _ _ _ _ _ _ h _ e
    extract_lets p q base base0 base1 main
    have h0 : Canon base.mem := claimCore_canon _ _ _ h1
    have hb : Canon base1.bump.mem := by simp [base1, base0, h0]
    have hm (mate : Option Nat) (t : State) (ht : Canon t.mem) : Canon (main mate t).mem := by simp [main, ht]
    split
    · exact canonOpt_some.2 (hm _ _ hb)
    · split
      · exact canonOpt_none
      · next e2 =>
        have h2 := allocNoun_canon _ _ _ _ _ _ hb _ e2
        extract_lets p2 x2 q2 s3
        have h3 : Canon s3.mem := hm _ _ h2
        simp [h3]

@[simp] theorem housePages_canon (s : State) (i at0 n core : Nat) (h : Canon s.mem) : Canon (s.housePages i at0 n core).mem := by
  unfold State.housePages
  split
  · exact h
  · extract_lets old pool here new s1
    split
    · exact h
    · have h1 : Canon s1.mem := foldl_canon (fun t e ht => by
        refine canon_updMem (canon_writeBytes _ _ ?_)
        simp [dropRange_mem, ht]) h
      simp [h1]

@[simp] theorem housed_canon (s : State) (i node core : Nat) (h : Canon s.mem) : Canon (s.housed i node core).mem := by
  unfold State.housed
  split
  · exact h
  · split
    · split
      · split <;> simp [h]
      · simp [h]
    · split
      · split
        · simp [h]
        · exact h
      · exact h

@[simp] theorem placeNext_canon (s : State) (i node : Nat) (cores : List Nat) (h : Canon s.mem) : CanonOpt (s.placeNext i node cores) := by
  unfold State.placeNext
  split
  · extract_lets open' c slots
    split
    · exact canonOpt_none
    · refine canonOpt_map (spawn_canon _ _ _ _ _ _ _ _ (by simp [h])) fun t ht => ?_
      split
      · exact housed_canon _ _ _ _ ht
      · exact ht
  · exact canonOpt_none

@[simp] theorem placeMany_canon (s : State) (i node : Nat) (cores : List Nat) (count : Nat) (h : Canon s.mem) :
    CanonOpt (s.placeMany i node cores count) := by
  induction count generalizing s with
  | zero => exact canonOpt_some.2 h
  | succ k ih => rw [State.placeMany]; exact canonOpt_bind (placeNext_canon _ _ _ _ h) fun t ht => ih t ht

@[simp] theorem placeCourses_canon (s : State) (i node : Nat) (cores : List Nat) (fuel count : Nat) (h : Canon s.mem) :
    CanonOpt (s.placeCourses i node cores fuel count) := by
  induction fuel generalizing s count with
  | zero => exact canonOpt_some.2 h
  | succ fuel ih =>
    unfold State.placeCourses
    split
    · exact canonOpt_some.2 h
    · split
      · exact canonOpt_bind (canonOpt_firstSome _ fun r => placeMany_canon _ _ _ _ _ h) fun t ht => ih t _ ht
      · exact canonOpt_none

@[simp] theorem declareChannel_mem (s : State) (i pipe core : Nat) : (s.declareChannel i pipe core).mem = s.mem := by
  unfold State.declareChannel
  split <;> simp

@[simp] theorem partPlaced_mem (s : State) (i node : Nat) : (s.partPlaced i node).mem = s.mem := by
  unfold State.partPlaced
  split <;> simp

/-- Both leaf stages of a pipe, on one core with their channel or else on one cluster. -/
@[simp] theorem placePair_canon (s : State) (i a b pipe ca cb : Nat) (cores : List Nat) (h : Canon s.mem) :
    CanonOpt (s.placePair i a b pipe ca cb cores) := by
  unfold State.placePair
  extract_lets both
  have hb (t : State) (cs : List Nat) (ht : Canon t.mem) : CanonOpt (both t cs) :=
    canonOpt_bind (placeMany_canon _ _ _ _ _ ht) fun u hu => placeMany_canon _ _ _ _ _ hu
  split
  · next s1 e =>
    have h1 : Canon s1.mem := canonOpt_firstSome _ (fun c =>
      canonOpt_map (hb s.drawn [c] h) fun t ht => canon_of_mem (declareChannel_mem ..) ht) _ e
    simp [h1]
  · split
    · next s1 e =>
      have h1 : Canon s1.mem := canonOpt_firstSome _ (fun c => hb s c h) _ e
      simp [h1]
    · exact canonOpt_none

@[simp] theorem placePart_canon (s : State) (i node : Nat) (h : Canon s.mem) : CanonOpt (s.placePart i node) := by
  unfold State.placePart
  split
  · extract_lets cores left alone
    have ha : CanonOpt alone := by
      simp only [alone]
      split
      · exact canonOpt_map (placeCourses_canon _ _ _ _ _ _ h) fun t ht => by simp [ht]
      · exact canonOpt_map (placeNext_canon _ _ _ _ h) fun t ht => by simp [ht]
    clear_value alone
    split
    · split
      · split
        · split
          · next e => exact canonOpt_some.2 (placePair_canon _ _ _ _ _ _ _ _ h _ e)
          · exact ha
        · exact ha
      · exact ha
    · exact ha
  · exact canonOpt_none

@[simp] theorem claimHead_canon (s : State) (i : Nat) (a : Applied) (h : Canon s.mem) : CanonOpt (s.claimHead i a) := by
  unfold State.claimHead
  simp only
  split <;> simp [h]

@[simp] theorem restoreReady_canon (s : State) (part : Nat) (n : Word) (h : Canon s.mem) : CanonOpt (s.restoreReady part n) := by
  unfold State.restoreReady
  split
  · refine canonOpt_firstSome _ fun c => ?_
    split
    · exact restoreAt_canon _ _ _ _ h
    · exact canonOpt_none
  · exact canonOpt_none

@[simp] theorem dispatchStep_canon (s : State) (part : Nat) (h : Canon s.mem) : CanonOpt (s.dispatchStep part) := by
  unfold State.dispatchStep
  extract_lets served head
  have hs : CanonOpt served := canonOpt_firstSome _ fun n => canonOpt_map (restoreReady_canon _ _ _ h) fun t ht => ht
  clear_value served
  split
  · exact hs
  · split
    · next e => exact fun t ht => canonOpt_firstSome _ (fun y => placePart_canon _ _ _ h) t (by rw [← ht]; exact e)
    · clear_value head
      split
      · exact canonOpt_none
      · split
        · exact canonOpt_none
        · split
          · exact claimHead_canon _ _ _ h
          · split
            · exact canonOpt_some.2 (startNode_canon _ _ _ _ _ h)
            · exact canonOpt_none

@[simp] theorem execInstanceLate_canon (inst : Nat) (s : State) (h : Canon s.mem) : CanonOut (execInstanceLate inst s) := by
  unfold execInstanceLate
  split <;> simp [h]

@[simp] theorem queueRestore_mem (s : State) (part : Nat) (n : Word) : (s.queueRestore part n).mem = s.mem := by simp [State.queueRestore]

/-! ### Noun ports and the interface state -/

@[simp] theorem npEnd_canon (s : State) (hp : Bool) (np slot : Nat) (c : NpCmd) (result : Word) (status : Nat) (h : Canon s.mem) :
    Canon (s.npEnd hp np slot c result status).mem := by
  simp [State.npEnd, h]

@[simp] theorem npBind_canon (s : State) (hp : Bool) (np slot : Nat) (c : NpCmd) (h : Canon s.mem) : Canon (s.npBind hp np slot c).mem := by
  unfold State.npBind
  split
  · simp [h]
  · next e => exact npEnd_canon _ _ _ _ _ _ _ (canon_of_mem (updNport_mem _ _ _) (allocNoun_canon _ _ _ _ _ _ h _ e))

@[simp] theorem endThread_canon (s : State) (n : Word) (xstat : Nat) (exit : Word) (h : Canon s.mem) :
    Canon (s.endThread n xstat exit).mem := by
  unfold State.endThread
  split <;> simp [h]

@[simp] theorem npApply_canon (s : State) (hp : Bool) (np slot : Nat) (c : NpCmd) (h : Canon s.mem) :
    Canon (s.npApply hp np slot c).mem := by
  unfold State.npApply
  extract_lets p side
  split
  · exact npEnd_canon _ _ _ _ _ _ _ (canon_of_mem (updNport_mem _ _ _) h)
  · split
    · simp [h]
    · split <;> next e => simp [canon_of_snd e (apply_canon _ _ _ _ _ h)]

@[simp] theorem npDo_canon (s : State) (hp : Bool) (np slot : Nat) (c : NpCmd) (h : Canon s.mem) : Canon (s.npDo hp np slot c).mem := by
  unfold State.npDo
  extract_lets p
  split
  · simp [h]
  · split
    · simp [h]
    · split
      · exact h
      · split
        · exact npBind_canon _ _ _ _ _ h
        · split
          · exact npEnd_canon _ _ _ _ _ _ _ (endThread_canon _ _ _ _ h)
          · exact npApply_canon _ _ _ _ _ h

@[simp] theorem npPump_canon (s : State) (hp : Bool) (np : Nat) (h : Canon s.mem) : Canon (s.npPump hp np).mem := by
  unfold State.npPump
  split
  · exact h
  · split
    · exact h
    · split
      · simp [h]
      · exact npDo_canon _ _ _ _ _ h

@[simp] theorem npDoorbell_canon (s : State) (op : BitVec 8) (hp : Bool) (np : BitVec 10) (slot : BitVec 6) (c : NpCmd) (h : Canon s.mem) :
    CanonOut (s.npDoorbell op hp np slot c) := by
  unfold State.npDoorbell
  extract_lets i p c1
  split
  · exact canonOut_next.2 h
  · split
    · exact canonOut_next.2 h
    · split
      · exact canonOut_next.2 h
      · split
        · exact canonOut_next.2 h
        · exact canonOut_next.2 (npPump_canon _ _ _ h)

@[simp] theorem revoke_canon (s : State) (i : Nat) (h : Canon s.mem) : Canon (s.revoke i).mem := by
  unfold State.revoke
  extract_lets p hp np s1 s2
  have h2 : Canon s2.mem := h
  split
  · exact h
  · split <;> simp [h2]

@[simp] theorem writeNpctl_canon (s : State) (i : Nat) (value : Word) (h : Canon s.mem) : Canon (s.writeNpctl i value).mem := by
  simp [State.writeNpctl, h]

@[simp] theorem endHostAccesses_canon (s : State) (hp : Bool) (h : Canon s.mem) : Canon (s.endHostAccesses hp).mem := by
  unfold State.endHostAccesses
  extract_lets hit
  exact foldl_canon (fun t a ht => by
    split
    · exact ht
    · exact checkAccess_canon _ _ ht) h

@[simp] theorem retryPort_mem (s : State) (hp : Bool) : (s.retryPort hp).mem = s.mem := rfl

@[simp] theorem restartHost_canon (s : State) (hp : Bool) (h : Canon s.mem) : Canon (s.restartHost hp).mem := by
  unfold State.restartHost
  extract_lets ports s1 s2
  have h2 : Canon s2.mem := (foldl_canon (fun t i ht => revoke_canon _ _ ht) h : Canon s1.mem)
  simp [h2]

@[simp] theorem clearGone_mem (s : State) (hp : Bool) : (s.clearGone hp).mem = s.mem := rfl

@[simp] theorem execGoneClear_canon (r : PageReq) (s : State) (h : Canon s.mem) : CanonOut (execGoneClear r s) :=
  pageWrite_canon _ _ _ h (by simp [h])

@[simp] theorem switchCtx_canon (s : State) (old new : Bool) (ctx : Nat) (h : Canon s.mem) : Canon (s.switchCtx old new ctx).mem := by
  unfold State.switchCtx
  extract_lets x misc ports s1 s2 move s3 s4
  have h1 : Canon s1.mem := canon_updMem (canon_writeNat _ _ _ h)
  have h3 : Canon s3.mem := h1
  have h4 : Canon s4.mem := foldl_canon (fun t i ht => revoke_canon _ _ ht) (by simp [h3])
  exact foldl_canon (fun t a ht => by simp [ht]) h4

@[simp] theorem takeover_canon (s : State) (old new : Bool) (h : Canon s.mem) : Canon (s.takeover old new).mem := by
  simp +contextual [State.takeover, h]

@[simp] theorem endLease_canon (s : State) (h : Canon s.mem) : Canon s.endLease.mem := by
  unfold State.endLease
  extract_lets s1
  have h1 : Canon s1.mem := h
  split
  · exact h1
  · extract_lets new
    split
    · exact takeover_canon _ _ _ h1
    · exact h1

@[simp] theorem writeLease_canon (s : State) (hp : Bool) (value : Word) (h : Canon s.mem) : Canon (s.writeLease hp value).mem := by
  unfold State.writeLease
  extract_lets s0 l ex s1
  have h0 : Canon s0.mem := by simp only [s0]; split <;> simp [h]
  have h1 : Canon s1.mem := h0
  split
  · split
    · exact h0
    · split
      · exact h0
      · exact endLease_canon _ h0
  · split
    · split
      · split
        · exact takeover_canon _ _ _ h1
        · simp [h1]
      · simp [h1]
    · exact h0

@[simp] theorem setStandby_mem (s : State) (hp on : Bool) : (s.setStandby hp on).mem = s.mem := rfl

@[simp] theorem execStandby_canon (r : PageReq) (on : Bool) (s : State) (h : Canon s.mem) : CanonOut (execStandby r on s) :=
  pageWrite_canon _ _ _ h (by simp [h])

/-! ### System instructions -/

@[simp] theorem putFreeze_mem (s : State) (r : FrzRec) : (s.putFreeze r).mem = s.mem := rfl

@[simp] theorem endRecord_canon (s : State) (core : Nat) (m : MissRec) (leaf ctl : Word) (h : Canon s.mem) :
    Canon (s.endRecord core m leaf ctl).2.mem := by
  unfold State.endRecord
  extract_lets size
  split
  · exact h
  · split
    · split
      · exact recordEnds_canon _ _ _ _ h
      · exact h
    · split
      · exact h
      · refine recordEnds_canon _ _ _ _ ?_
        simp [h]

@[simp] theorem execTlbfill_canon (sd sa sb : SReg) (tag : BitVec 6) (s : State) (h : Canon s.mem) :
    CanonOut (execTlbfill sd sa sb tag s) := by
  unfold execTlbfill
  split
  · simp [h]
  · split <;> simp [h]

@[simp] theorem execTlbinv_canon (sd sa sb : SReg) (dom : Bool) (range : InvRange) (s : State) (h : Canon s.mem) :
    CanonOut (execTlbinv sd sa sb dom range s) := by
  unfold execTlbinv
  split
  · simp [h]
  · split <;> simp [h]

@[simp] theorem execNtinv_canon (sd sa : SReg) (dom : Bool) (range : InvRange) (s : State) (h : Canon s.mem) :
    CanonOut (execNtinv sd sa dom range s) := by
  simp +contextual [execNtinv, h]

@[simp] theorem execVtinv_canon (sd sa sb : SReg) (dom : Bool) (range : InvRange) (s : State) (h : Canon s.mem) :
    CanonOut (execVtinv sd sa sb dom range s) := by
  simp +contextual [execVtinv, h]

@[simp] theorem execSkill_canon (sd sa : SReg) (s : State) (h : Canon s.mem) : CanonOut (execSkill sd sa s) := by
  unfold execSkill
  extract_lets n s1
  have h1 : Canon s1.mem := kill_canon _ _ _ h
  split
  · exact fault_canon _ _ _ _ h
  · split
    · split <;> simp [putNext, h]
    · split
      · simp [putNext, h]
      · split
        · exact canonOut_next.2 h1
        · split
          · exact canonOut_next.2 h1
          · exact canonOut_next.2 h1

@[simp] theorem execWalkerRecordDeliver_canon (core : Nat) (s : State) (h : Canon s.mem) : CanonOut (execWalkerRecordDeliver core s) := by
  unfold execWalkerRecordDeliver
  split <;> simp [h]

@[simp] theorem walkerRead_canon (s : State) (core : Nat) (h : Canon s.mem) : Canon (s.walkerRead core).mem := by
  unfold State.walkerRead
  extract_lets f w s1
  have h1 : Canon s1.mem := canon_walkerWalk _ _ _ _ _ h
  simp [h1]

/-! ### Saves, swaps and migrations -/

@[simp] theorem execMakeResident_canon (record ctx : Nat) (s : State) (h : Canon s.mem) : CanonOut (execMakeResident record ctx s) := by
  unfold execMakeResident
  split
  · simp [h]
  · split <;> simp [h]

@[simp] theorem updCs_mem (s : State) (slot : Nat) (g : CsCmd → CsCmd) : (s.updCs slot g).mem = s.mem := rfl
@[simp] theorem csEnd_mem (s : State) (slot st : Nat) : (s.csEnd slot st).mem = s.mem := rfl
@[simp] theorem unstop_mem (s : State) (ps : List Nat) : (s.unstop ps).mem = s.mem := foldl_mem fun _ _ => rfl

@[simp] theorem saveOne_canon (s : State) (slot : Nat) (c : CsCmd) (h : Canon s.mem) : Canon (s.saveOne slot c).mem := by
  unfold State.saveOne
  split
  · exact h
  · split
    · exact h
    · simp [h]

/-- A SAVE of a whole context: the phrases stop, then their images, the images of the cores and the directory are written. -/
@[simp] theorem saveWhole_canon (s : State) (slot : Nat) (c : CsCmd) (h : Canon s.mem) : Canon (s.saveWhole slot c).mem := by
  unfold State.saveWhole
  extract_lets ctx ps s1 leaving cores items a r s2
  have h1 : Canon s1.mem := foldl_canon (fun t p ht => by simp [ht]) h
  have hr : Canon r.1.mem := saveAt_canon _ _ _ _ h1
  have h2 : Canon s2.mem := foldl_keeps (fun q : State × Nat => Canon q.1.mem) _
    (fun q k hq => by exact writeCore_canon _ _ _ _ _ hq) _ r hr
  split
  · simp [h]
  · split
    · exact h1
    · split
      · simp [h1]
      · simp [h2]

@[simp] theorem moveImages_canon (s : State) (ns : List Word) (state a : Nat) (h : Canon s.mem) :
    Canon (s.moveImages ns state a).1.mem := by
  unfold State.moveImages
  exact foldl_keeps (fun q : State × Nat => Canon q.1.mem) _
    (fun q n hq => by exact setLeaf_canon _ _ _ _ _ _ _ (canon_updMem (canon_moveBytes _ _ _ hq))) _ (s, a) h

@[simp] theorem moveCores_canon (s : State) (ctx : Nat) (cores : List Nat) (a : Nat) (h : Canon s.mem) :
    Canon (s.moveCores ctx cores a).mem := by
  unfold State.moveCores
  exact foldl_keeps (fun q : State × Nat => Canon q.1.mem) _
    (fun q k hq => by
      split
      · exact hq
      · simp [hq]) _ (s, a) h

@[simp] theorem swapOne_canon (s : State) (slot : Nat) (c : CsCmd) (out : Bool) (h : Canon s.mem) : Canon (s.swapOne slot c out).mem := by
  unfold State.swapOne
  split <;> simp [h]

/-- A swap of a whole context moves the images, then the cores, and writes the directory. -/
@[simp] theorem swapWhole_canon (s : State) (slot : Nat) (c : CsCmd) (out : Bool) (h : Canon s.mem) :
    Canon (s.swapWhole slot c out).mem := by
  unfold State.swapWhole
  extract_lets ctx ns cores items a r
  have hr : Canon r.1.mem := by
    simp only [r]
    exact moveImages_canon _ _ _ _ h
  have hc := moveCores_canon r.1 ctx cores r.2 hr
  clear_value r items
  split
  · simp [h]
  · split
    · simp [h]
    · exact canon_of_mem (csEnd_mem ..) (canon_updMem (canon_pokes _ hc))

@[simp] theorem startMigration_canon (s : State) (place : Nat) (n : Word) (h : Canon s.mem) : Canon (s.startMigration place n).mem := by
  unfold State.startMigration
  extract_lets a h0 g
  exact setLeaf_canon _ _ _ _ _ _ _ h

@[simp] theorem migrateOne_canon (s : State) (slot : Nat) (c : CsCmd) (h : Canon s.mem) : Canon (s.migrateOne slot c).mem := by
  unfold State.migrateOne
  split
  · exact h
  · simp +contextual [h]

@[simp] theorem restoreOne_canon (s : State) (slot : Nat) (c : CsCmd) (h : Canon s.mem) : Canon (s.restoreOne slot c).mem := by
  unfold State.restoreOne
  split
  · simp [h]
  · extract_lets loc core n
    split
    · simp [h]
    · split
      · simp [h]
      · split
        · next e => simp [restoreAt_canon _ _ _ _ h _ e]
        · simp [h]

@[simp] theorem csWork_canon (s : State) (slot : Nat) (h : Canon s.mem) : Canon (s.csWork slot).mem := by
  unfold State.csWork
  extract_lets c
  split
  · exact h
  · split
    · simp [h]
    · split <;> simp [h]

@[simp] theorem doorbell_canon (s : State) (slot : Nat) (h : Canon s.mem) : Canon (s.doorbell slot).mem := by
  unfold State.doorbell
  split
  · exact h
  · exact csWork_canon _ _ h

@[simp] theorem ring_canon (s : State) (slot : BitVec 4) (op : Nat) (whole : Bool) (h : Canon s.mem) : CanonOut (s.ring slot op whole) := by
  simp [State.ring, h]

@[simp] theorem csFinish_mem (s : State) (slot : Nat) : (s.csFinish slot).mem = s.mem := by
  unfold State.csFinish
  split <;> simp

@[simp] theorem endMigrate_mem (s : State) (n : Word) (st : Nat) : (s.endMigrate n st).mem = s.mem := by
  unfold State.endMigrate
  split <;> simp

@[simp] theorem replay_canon (s : State) (g : Migration) (a : Nat) (h : Canon s.mem) : Canon (s.replay g a).mem := by
  unfold State.replay
  extract_lets s1 s2 held
  have h1 : Canon s1.mem := foldl_canon (fun t e ht => imageAct_canon _ _ _ _ ht) h
  have h2 : Canon s2.mem := setLeaf_canon _ _ _ _ _ _ _ h1
  exact foldl_canon (fun t o ht => by split <;> simp [ht]) h2

@[simp] theorem execMigrationArrival_canon (noun : Word) (image : Nat) (s : State) (h : Canon s.mem) :
    CanonOut (execMigrationArrival noun image s) := by
  unfold execMigrationArrival
  split
  · split
    · exact canonOut_next.2 (canon_of_mem (endMigrate_mem ..) (replay_canon _ _ _ (canon_updMem (canon_moveBytes _ _ _ h))))
    · exact canonOut_next.2 (canon_of_mem (endMigrate_mem ..) (setLeaf_canon _ _ _ _ _ _ _ h))
  · split
    · split <;> simp [h]
    · simp [h]

@[simp] theorem execMigrationAbandon_canon (noun : Word) (s : State) (h : Canon s.mem) : CanonOut (execMigrationAbandon noun s) := by
  unfold execMigrationAbandon
  split <;> simp [h]

/-! ### The control page -/

@[simp] theorem writeFeaton_mem (s : State) (value : BitVec 128) : (s.writeFeaton value).mem = s.mem := by simp [State.writeFeaton]
@[simp] theorem writeLqcfg_mem (s : State) (q : Nat) (value : Word) : (s.writeLqcfg q value).mem = s.mem := by simp [State.writeLqcfg]
@[simp] theorem fillPool_mem (s : State) (n : Nat) : (s.fillPool n).mem = s.mem := rfl

@[simp] theorem writePcfg_mem (s : State) (n word : Nat) (value : Word) : (s.writePcfg n word value).mem = s.mem := by
  unfold State.writePcfg
  split <;> simp

@[simp] theorem release_canon (s : State) (core : Nat) (h : Canon s.mem) : Canon (s.release core).mem := by
  unfold State.release
  split
  · exact h
  · extract_lets s1 ks s2
    have h1 : Canon s1.mem := h
    have h2 : Canon s2.mem := foldl_canon (fun t k ht => settle_canon _ _ ht) h1
    exact foldl_canon (fun t a ht => checkAccess_canon _ _ ht) h2

@[simp] theorem writeExpwin_mem (s : State) (win word : Nat) (v : Word) : (s.writeExpwin win word v).mem = s.mem := rfl
@[simp] theorem zeroCounter_mem (s : State) (port ctr : Nat) : (s.zeroCounter port ctr).mem = s.mem := by simp [State.zeroCounter]

@[simp] theorem setKeySlot_mem (s : State) (req : KeyReq) : (s.setKeySlot req).mem = s.mem := by
  unfold State.setKeySlot
  split <;> simp

@[simp] theorem writeKeyreq_mem (s : State) (word : Nat) (v : Word) : (s.writeKeyreq word v).mem = s.mem := by
  unfold State.writeKeyreq
  simp only
  split <;> simp

@[simp] theorem writeCs_canon (s : State) (slot word : Nat) (v : Word) (h : Canon s.mem) : Canon (s.writeCs slot word v).mem := by
  unfold State.writeCs
  split
  · exact h
  · split
    · exact h
    · exact h
    · exact h
    · exact h
    · exact h
    · simp [h]
    · exact h

@[simp] theorem writeMsix_mem (s : State) (hp : Bool) (word : Nat) (v : Word) : (s.writeMsix hp word v).mem = s.mem := by
  simp [State.writeMsix]

@[simp] theorem writeHwin_mem (s : State) (n : Nat) (v : Word) : (s.writeHwin n v).mem = s.mem := rfl

@[simp] theorem writeFeatHalf_mem (s : State) (high : Bool) (v : Word) : (s.writeFeatHalf high v).mem = s.mem := by
  simp [State.writeFeatHalf]

@[simp] theorem writeFrzrel_canon (s : State) (word : Nat) (v : Word) (h : Canon s.mem) : Canon (s.writeFrzrel word v).mem := by
  simp +contextual [State.writeFrzrel, h]

@[simp] theorem holderWrite_canon (s : State) (hp : Bool) (o : Nat) (v : Word) (h : Canon s.mem) : Canon (s.holderWrite hp o v).mem := by
  unfold State.holderWrite
  refine canon_branch (canon_of_mem (writeFeatHalf_mem ..) h) ?_
  refine canon_branch (canon_branch h (canon_of_mem (writeLqcfg_mem ..) h)) ?_
  refine canon_branch (canon_of_mem (writePcfg_mem ..) h) ?_
  refine canon_branch (writeFrzrel_canon _ _ _ h) ?_
  refine canon_branch (writeCs_canon _ _ _ _ h) ?_
  refine canon_branch (canon_of_mem (zeroCounter_mem ..) h) ?_
  refine canon_branch (canon_branch h (canon_of_mem (writeExpwin_mem ..) h)) ?_
  refine canon_branch (canon_branch h (canon_of_mem (writeHwin_mem ..) h)) ?_
  refine canon_branch (canon_of_mem (writePoolrel_mem ..) h) ?_
  refine canon_branch (canon_branch h (writeNpctl_canon _ _ _ h)) ?_
  exact canon_branch (canon_of_mem (writeKeyreq_mem ..) h) h

@[simp] theorem writeRegister_canon (s : State) (hp : Bool) (o : Nat) (value : Word) (h : Canon s.mem) :
    Canon (s.writeRegister hp o value).mem := by
  simp +contextual [State.writeRegister, h]

@[simp] theorem say_mem (s : State) (m : HostMsg) : (s.say m).mem = s.mem := rfl

@[simp] theorem execHostWindowRead_canon (hp tbit : Bool) (off : BitVec 36) (bytes : Nat) (s : State) (h : Canon s.mem) :
    CanonOut (execHostWindowRead hp tbit off bytes s) := by
  unfold execHostWindowRead
  split
  · simp [h]
  · split
    · next e => simp [canon_of_snd e (canon_of_mem (pathCheck_mem ..) h)]
    · next e => split <;> simp [canon_of_snd e (canon_of_mem (pathCheck_mem ..) h)]

@[simp] theorem execHostWindowWrite_canon (hp tbit : Bool) (off : BitVec 36) (data : List Byte) (s : State) (h : Canon s.mem) :
    CanonOut (execHostWindowWrite hp tbit off data s) := by
  unfold execHostWindowWrite
  extract_lets n
  split
  · simp [h]
  · split
    · next e => simp [canon_of_snd e (canon_of_mem (pathCheck_mem ..) h)]
    · next e => simp [canon_of_snd e (canon_of_mem (pathCheck_mem ..) h)]

@[simp] theorem execHostWindowAtomicop_canon (hp tbit : Bool) (off : BitVec 36) (op : HostAtomic) (w64 : Bool) (operand compare : Word)
    (s : State) (h : Canon s.mem) :
    CanonOut (execHostWindowAtomicop hp tbit off op w64 operand compare s) := by
  unfold execHostWindowAtomicop
  extract_lets n
  split
  · simp [h]
  · split
    · simp [h]
    · split
      · next e => split <;> simp [canon_of_snd e (canon_of_mem (pathCheck_mem ..) h)]
      · next s1 e =>
        have h1 : Canon s1.mem := canon_of_snd e (canon_of_mem (pathCheck_mem ..) h)
        extract_lets ps old s2
        have h2 : Canon s2.mem := by simp only [s2]; split <;> simp [h1]
        simp [h2]

/-! ### System calls -/

@[simp] theorem writeEntry_canon (s : State) (f : LaneFields) (e seq : Nat) (h : Canon s.mem) : Canon (s.writeEntry f e seq).mem := by
  unfold State.writeEntry
  extract_lets ls w m1 m2
  have h1 : Canon m1 := canon_foldl (fun m x hm => canon_writeNat _ _ _ (canon_writeNat _ _ _ (canon_writeNat _ _ _ hm))) h
  have h2 : Canon m2 := canon_writeNat _ _ _ (canon_writeNat _ _ _ (canon_writeNat _ _ _ h1))
  dsimp only
  exact canon_writeNat _ _ _ (canon_writeNat _ _ _ (canon_writeNat _ _ _ h2))

@[simp] theorem updSysc_mem (s : State) (id : Nat) (g : Sysc → Sysc) : (s.updSysc id g).mem = s.mem := rfl
@[simp] theorem post_canon (s : State) (y : Sysc) (h : Canon s.mem) : Canon (s.post y).mem := by simp [State.post, h]

@[simp] theorem execVsysc_canon (f : LaneFields) (s : State) (h : Canon s.mem) : CanonOut (execVsysc f s) := by
  unfold execVsysc
  extract_lets ctx c seq e y0 y o s1 s2
  clear_value y o
  have h1 : Canon s1.mem := canon_updMem (canon_writeNat (s.scbase ctx) 8 (seq + 1) (writeEntry_canon s f e seq h))
  have h2 : Canon s2.mem := by
    simp only [s2]
    exact h1
  clear_value s2
  split
  · simp [h]
  · split
    · simp [h]
    · refine canonOut_next.2 ?_
      rw [laneIssued_mem]
      exact canon_branch (canon_updMem (canon_writeNat _ _ _ h2)) h2

@[simp] theorem syscall_mem (s : State) (ctx core call a0 a1 : Nat) : (s.syscall ctx core call a0 a1).2.mem = s.mem := by
  unfold State.syscall
  split <;> simp

@[simp] theorem serveLanes_canon (s : State) (y : Sysc) (call : Nat) (ls : List Nat) (h : Canon s.mem) :
    Canon (s.serveLanes y call ls).mem := by
  induction ls generalizing s with
  | nil => exact h
  | cons l ls ih =>
    unfold State.serveLanes
    exact ih _ (canon_updMem (canon_writeNat _ _ _ (by simp [h])))

@[simp] theorem syscGoes_canon (s : State) (x : SyscStep) (h : Canon s.mem) : Canon (s.syscGoes x).mem := by
  unfold State.syscGoes
  split <;> simp [h]

@[simp] theorem execSyscallServe_canon (ctx : Nat) (s : State) (h : Canon s.mem) : CanonOut (execSyscallServe ctx s) := by
  unfold execSyscallServe
  split
  · exact canonOut_next.2 h
  · exact canonOut_next.2 (syscGoes_canon _ _ h)
  · exact canonOut_next.2 (syscGoes_canon _ _ h)

@[simp] theorem execSyscallResultCopy_canon (id : Nat) (s : State) (h : Canon s.mem) : CanonOut (execSyscallResultCopy id s) := by
  unfold execSyscallResultCopy
  split <;> simp [h]

/-! ### Issue -/

@[simp] theorem scalarNext_canon (s : State) (k : Nat) (h : Canon s.mem) : ∀ t, (s.scalarNext k) = some t → Canon t.2.mem := by
  unfold State.scalarNext
  extract_lets f
  split
  · simp
  · simpa using h
  · split
    · next e =>
      intro t ht
      have h1 := canon_of_snd e (canon_of_mem (fetchCode_mem ..) h)
      cases ht
      exact h1
    · next e =>
      intro t ht
      have h1 := canon_of_snd e (canon_of_mem (fetchCode_mem ..) h)
      cases ht
      exact h1
    · simp
    · simp

@[simp] theorem scalarReady_canon (s : State) (k : Nat) (h : Canon s.mem) : ∀ t, (s.scalarReady k) = some t → Canon t.2.mem := by
  unfold State.scalarReady
  split
  · simp
  · split
    · simp
    · next e =>
      split
      · simp
      · intro t ht
        cases ht
        exact scalarNext_canon _ _ h _ e

@[simp] theorem fetchMiss_canon (s : State) (k : Nat) (h : Canon s.mem) : CanonOpt (s.fetchMiss k) := by
  unfold State.fetchMiss
  extract_lets f
  split
  · split
    · next e => exact canonOpt_some.2 (canon_of_mem (updFrag_mem ..) (canon_of_snd e (canon_of_mem (fetchCode_mem ..) h)))
    · exact canonOpt_none
  · exact canonOpt_none

/-! ### Power, clocks and resets -/

@[simp] theorem lost_canon (s : State) (svc : Service) (image : FwImage) (boot : BitVec 16) (h : Canon s.mem) :
    Canon (s.lost svc image boot).mem := by
  simp [State.lost, h]

@[simp] theorem fatalError_canon (s : State) (cause : BitVec 8) (detail : Word) (h : Canon s.mem) :
    Canon (s.fatalError cause detail).mem := by
  simp [State.fatalError, h]

@[simp] theorem execClusterGated_canon (cluster : Nat) (s : State) (h : Canon s.mem) : CanonOut (execClusterGated cluster s) := by
  unfold execClusterGated
  exact canonOut_next.2 (foldl_canon (fun t e ht => returnRecords_canon _ _ _ ht) h)

/-! ### SPDM -/

@[simp] theorem spdmSay_mem (s : State) (hp : Bool) (m : List Byte) : (s.spdmSay hp m).mem = s.mem := rfl
@[simp] theorem spdmError_mem (s : State) (hp : Bool) (code : Nat) : (s.spdmError hp code).mem = s.mem := rfl
@[simp] theorem setTdisp_mem (s : State) (hp : Bool) (t : Tdisp) : (s.setTdisp hp t).mem = s.mem := rfl
@[simp] theorem tdispMove_mem (s : State) (hp : Bool) (src dst : Tdisp) : (s.tdispMove hp src dst).mem = s.mem := by simp [State.tdispMove]
@[simp] theorem tdispEnd_mem (s : State) (hp : Bool) : (s.tdispEnd hp).mem = s.mem := by simp [State.tdispEnd]

@[simp] theorem execLockInterface_canon (hp : Bool) (s : State) (h : Canon s.mem) : CanonOut (execLockInterface hp s) := by
  simp +contextual [execLockInterface, h]

@[simp] theorem execStartInterfaceRequest_canon (hp : Bool) (s : State) (h : Canon s.mem) : CanonOut (execStartInterfaceRequest hp s) := by
  simp +contextual [execStartInterfaceRequest, h]

@[simp] theorem execStopInterface_canon (hp : Bool) (s : State) (h : Canon s.mem) : CanonOut (execStopInterface hp s) := by
  simp +contextual [execStopInterface, h]

@[simp] theorem updSpdm_mem (s : State) (hp : Bool) (g : Spdm → Spdm) : (s.updSpdm hp g).mem = s.mem := rfl
@[simp] theorem spdmAnswer_mem (s : State) (hp : Bool) (m : List Byte) : (s.spdmAnswer hp m).mem = s.mem := rfl

/-- A request is answered as the caller says, once the connection is negotiated. -/
@[simp] theorem needNegotiated_canon (s : State) (hp : Bool) (k : State) (h : Canon s.mem) (hk : Canon k.mem) :
    CanonOut (s.needNegotiated hp k) := by
  unfold State.needNegotiated
  split
  · exact canonOut_next.2 hk
  · simp [h]

@[simp] theorem execGetDigests_canon (hp : Bool) (s : State) (h : Canon s.mem) : CanonOut (execGetDigests hp s) := by
  unfold execGetDigests
  exact needNegotiated_canon _ _ _ h (by simp [h])

@[simp] theorem execGetCertificate_canon (hp : Bool) (off len : BitVec 16) (s : State) (h : Canon s.mem) :
    CanonOut (execGetCertificate hp off len s) := by
  unfold execGetCertificate
  exact needNegotiated_canon _ _ _ h (by simp [h])

@[simp] theorem execChallenge_canon (hp : Bool) (nonce : List Byte) (s : State) (h : Canon s.mem) :
    CanonOut (execChallenge hp nonce s) := by
  unfold execChallenge
  exact needNegotiated_canon _ _ _ h (by simp [h])

@[simp] theorem execGetMeasurements_canon (hp : Bool) (index : BitVec 8) (s : State) (h : Canon s.mem) :
    CanonOut (execGetMeasurements hp index s) := by
  have ha (m : List Byte) : CanonOut (s.needNegotiated hp (s.spdmAnswer hp m)) := needNegotiated_canon _ _ _ h (by simp [h])
  unfold execGetMeasurements
  extract_lets block
  split
  · exact ha _
  · split
    · exact ha _
    · split
      · exact ha _
      · exact needNegotiated_canon _ _ _ h (by simp [h])

@[simp] theorem execKeyExchange_canon (hp : Bool) (pub : List Byte) (s : State) (h : Canon s.mem) :
    CanonOut (execKeyExchange hp pub s) := by
  unfold execKeyExchange
  exact needNegotiated_canon _ _ _ h (by simp [h])

@[simp] theorem spdmReply_mem (s : State) (r : DoeMsg) (m : List Byte) : (s.spdmReply r m).mem = s.mem := by
  unfold State.spdmReply
  split <;> simp

/-- A request that is in order acts as the caller says on the state that has counted it. -/
@[simp] theorem viaDoe_canon (s : State) (r : DoeMsg) (code : Nat) (must : Bool) (k : State → State) (h : Canon s.mem)
    (hk : ∀ t, Canon t.mem → Canon (k t).mem) :
    CanonOut (s.viaDoe r code must k) := by
  unfold State.viaDoe
  split
  · split
    · simp [h]
    · exact canonOut_next.2 (hk s h)
  · split
    · simp [h]
    · split
      · exact canonOut_next.2 (hk _ h)
      · simp [h]

@[simp] theorem spdmFinish_mem (s : State) (r : DoeMsg) : (s.spdmFinish r).mem = s.mem := by simp [State.spdmFinish]

@[simp] theorem setIde_mem (s : State) (hp : Bool) (g : List (Nat × Nat) → List (Nat × Nat)) : (s.setIde hp g).mem = s.mem := by
  simp [State.setIde]

@[simp] theorem ideKey_canon (s : State) (r : DoeMsg) (g : List (Nat × Nat) → List (Nat × Nat)) (h : Canon s.mem) :
    CanonOut (s.ideKey r g) := by
  simp [State.ideKey, h]

@[simp] theorem execVendorDefinedRequest_canon (hp : DoeMsg) (req : VendorReq) (s : State) (h : Canon s.mem) :
    CanonOut (execVendorDefinedRequest hp req s) := by
  unfold execVendorDefinedRequest
  split <;> simp [h]

/-! ### Special registers -/

@[simp] theorem setSpecial_mem (s : State) (k n : Nat) (v : Word) : (s.setSpecial k n v).mem = s.mem := by
  unfold State.setSpecial
  split <;> simp

/-! ### Every instruction and event -/

/-- Every instruction and event. An arm that is one use of the operations above is unfolded here; the others have a lemma of their own. -/
@[simp] theorem exec_canon (i : Instr) (s : State) (h : Canon s.mem) : CanonOut (exec i s) := by
  unfold exec
  split
  all_goals simp [h,
    execSleave, execSlbar, execSgrow, execSshrink, execSadd, execSsub, execSmul, execSmulh, execSmulhu, execSand, execSor, execSxor,
    execSandn, execSshl, execSshr, execSsra, execSmin, execSminu, execSmax, execSmaxu, execSdiv, execSdivu, execSrem, execSremu, execSclz,
    execSctz, execSpopc, execSbrev, execSbfx, execSbfi, execSseq, execSsne, execSslt, execSsltu, execSsle, execSsleu, execSsel, execSaddi,
    execSandi, execSori, execSxori, execSshli, execSshri, execSsrai, execSslti, execSsltiu, execSlimm0, execSlimm1, execSlimm2,
    execSlimm3, execVadd, execVsub, execVmul, execVmulh, execVmad, execVdiv, execVrem, execVmin, execVmax, execVabs, execVand, execVor,
    execVxor, execVnot, execVshl, execVshr, execVsra, execVrot, execVclz, execVpopc, execVbrev, execVbfx, execVbfi, execVaddc, execVsubb,
    execVcmp, execVsel, execVmov, execVmovi, execLaneResultWrite, execScalarDestinationWrite, execVfadd, execVfsub, execVfmul, execVfma,
    execVfmin, execVfmax, execVfdiv, execVfsqrt, execVfrcp, execVfrsq, execVfexp2, execVflog2, execVfcmp, execVfclass, execVfrnd,
    execVcvt, execVcvtmx, execVpack, execVunpack, execClauseStart, execSld, execSldu, execSst, execScas, execSamoAdd, execSamoAnd,
    execSamoOr, execSamoXor, execSamoMin, execSamoMax, execSamoMinu, execSamoMaxu, execSamoSwap, execFset, execFtest, execSfence,
    execScalarAccessComplete, execVld, execVst, execVlds, execVsts, execVatom, execVcas, execVfence, execVrma, execGdef, execGadvP,
    execGadvC, execGstat, execNwake, execNsignal, execNdeposit, execNjoin, execNtest, execNsleep, execPhraseRetire, execMxmma, execMxcmma,
    execMxzero, execMxrd, execMxwr, execMxout, execMxtake, execMxask, execCpcopy, execCpcrypt, execCpwait, execAsideSlotGrant, execSmerge,
    execAtsInvalidation, execCxlLinkDown, execCxlPortTrained, execDynamicCapacityReleaseRequest, execCxlEventRecord, execPoolrel,
    execGovernorTick, execSbCond, execSj, execSjal, execSjr, execSjalr, execIllopScalarWord, execInstructionFetchFault, execKseq,
    execKpar, execKpipe, execKfarm, execKloop, execKresume, execKcancel, execSlq0, execSlq1, execSlq2, execSlq3, execSlq4, execSwaitf,
    execSwaitp, execSlsync, execNak, execAck, execDataPeriodEnd, execLaneFail, execSlotStart, execCalendarSwitch, execPortBringUp,
    execRead, execWrite, execAtomic, execMulticastWrite, execNounOperation, execMessageFirst, execMessageContinuation, execVshuf,
    execVshufx, execVbcast, execVballot, execVany, execVall, execVscan, execVred, execVtos, execVfroms, execDispatch, execReadyQueueServe,
    execReadyQueueScan, execBind, execUnbind, execWake, execSignal, execDeposit, execJoin, execTest, execApply, execHrestart,
    execHostLinkDown, execHostReset, execHostLinkUp, execLeaseWrite, execLeaseRelease, execLeaseExpiry, execLeaseNearExpiry, execStrap,
    execSbrk, execSeret, execSeretSkip, execSave, execSaveWholectx, execSwapout, execSwapoutWholectx, execSwapin, execSwapinWholectx,
    execMigrate, execRestore, execCsCommandComplete, execFeatonWrite, execLqcfgWrite, execPcfgWrite, execFrzrel, execNpctlWrite,
    execExpwinWrite, execCounterClear, execKeySlotRequest, execRegisterWrite, execModuleReset, execPowerLoss, execFullServiceStart,
    execThermalThrottle, execTemperatureBelow105C, execCoolantBreach, execThermal, execUncorr, execFwfault, execGetVersion,
    execGetCapabilities, execNegotiateAlgorithms, execFinish, execEndSession, execSget, execSset]

/-! ### The choice of the next act -/

@[simp] theorem choose_mem (s : State) (as : List Act) : (s.choose as).2.mem = s.mem := by
  unfold State.choose
  split <;> simp

@[simp] theorem nextAct_mem (s : State) : s.nextAct.2.mem = s.mem := by
  unfold State.nextAct
  split
  · rfl
  · split
    · rfl
    · split
      · rfl
      · simp

@[simp] theorem tick_mem (s : State) : s.tick.mem = s.mem := rfl

@[simp] theorem issueScalar_canon (s : State) (k : Nat) (h : Canon s.mem) : CanonOut (s.issueScalar k) := by
  unfold State.issueScalar
  split
  · next e => exact exec_canon _ _ (scalarReady_canon _ _ h _ e)
  · exact canonOut_next.2 h

@[simp] theorem issueLaneNext_canon (s : State) (k : Nat) (h : Canon s.mem) : CanonOut (s.issueLaneNext k) := by
  unfold State.issueLaneNext
  split
  · exact exec_canon _ _ h
  · exact canonOut_next.2 h

@[simp] theorem serveRecord_canon (s : State) (core : Nat) (h : Canon s.mem) : CanonOut (s.serveRecord core) := by
  unfold State.serveRecord
  extract_lets s1
  have h1 : Canon s1.mem := by
    simp only [s1]
    rw [updCore_mem]
    exact walkerRead_canon _ _ h
  exact exec_canon _ _ h1

/-- Whatever act comes next, it keeps the canonical form of memory. -/
@[simp] theorem perform_canon (s : State) (a : Act) (h : Canon s.mem) : CanonOut (s.perform a) := by
  unfold State.perform
  split <;> simp [h]

/-! ### A step -/

@[simp] theorem step_canon (s : State) (h : Canon s.mem) : CanonOut (step s) := by simp [step, h]

end Sys2Proof.Machine

namespace Sys2Proof

/-- Settles O52: whatever act comes next, `Machine.perform_canon` says that it keeps the canonical form. -/
theorem memoryFormKept : Obligations.MemoryFormKept := by
  unfold Obligations.MemoryFormKept
  intro s t h hstep
  exact Machine.canon_iff.1 (Machine.step_canon s (Machine.canon_iff.2 h) t hstep)

end Sys2Proof

/-!
# A step runs the decoded instruction (O53)
-/
namespace Sys2Proof.Machine

/-! ### The act that a step performs -/

theorem step_of_nextAct {s u : State} {a : Act} (h : s.nextAct = (a, u)) : step s = u.perform a := by rw [step, h]

/-- The head of `inputs` is taken before anything else: heeded, its row is the act, and else a cycle passes. -/
theorem nextAct_of_inputs {s : State} {i : Instr} {is : List Instr} (h : s.inputs = i :: is) :
    s.nextAct = (if s.heeds i then .row i else .tick, { s with inputs := is }) := by rw [State.nextAct, h]

/-! ### Scalar issue -/

theorem scalarNext_of_decodes {s v : State} {k : Nat} {bs : List Byte} {i : Instr} (hidle : (s.frag k).fetch = .idle)
    (hcode : s.fetchCode k (s.frag k).pc 4 = (.code bs, v)) (hdec : decodeScalar (BitVec.ofNat 32 (natOf bs)) = .ok i) :
    s.scalarNext k = some (i, v) := by
  simp only [State.scalarNext, hidle, hcode, hdec]

theorem scalarNext_of_not_decodes {s v : State} {k : Nat} {bs : List Byte} {e : DecodeError} (hidle : (s.frag k).fetch = .idle)
    (hcode : s.fetchCode k (s.frag k).pc 4 = (.code bs, v)) (hdec : decodeScalar (BitVec.ofNat 32 (natOf bs)) = .error e) :
    s.scalarNext k = some (.illopScalarWord (BitVec.ofNat 32 (natOf bs)), v) := by
  simp only [State.scalarNext, hidle, hcode, hdec]

/-- A fragment that can issue issues the instruction that its fetch gives. -/
theorem scalarReady_of_next {s v : State} {k : Nat} {i : Instr} (hready : (s.scalarReady k).isSome = true)
    (hnext : s.scalarNext k = some (i, v)) : s.scalarReady k = some (i, v) := by
  unfold State.scalarReady at hready ⊢
  rw [hnext] at hready ⊢
  split at hready
  · exact absurd hready (by simp)
  · next hruns =>
    rw [if_neg hruns]
    dsimp only at hready ⊢
    split at hready
    · exact absurd hready (by simp)
    · next hfree => rw [if_neg hfree]

theorem step_scalar {s u v : State} {k : Nat} {i : Instr} (hact : s.nextAct = (.scalar k, u))
    (hready : (u.scalarReady k).isSome = true) (hnext : u.scalarNext k = some (i, v)) :
    step s = exec i ((v.countScalar k).at k) := by
  rw [step_of_nextAct hact, State.perform, State.issueScalar, scalarReady_of_next hready hnext]

/-! ### Lane issue -/

/-- A lane stream that can issue issues the next word of its started clause. -/
theorem laneReadyIns_of_decodes {s : State} {k : Nat} {c : Clause} {cs : List Clause} {i : Instr}
    (hqueue : (s.frag k).queue = c :: cs) (hdec : decodeLane (nth 0 c.code (c.next - 1)) = .ok i)
    (hready : (s.laneReadyIns k).isSome = true) : s.laneReadyIns k = some i := by
  have hinstr : c.instr = some i := by simp only [Clause.instr, hdec]
  unfold State.laneReadyIns at hready ⊢
  simp only [hqueue, hinstr] at hready ⊢
  split at hready
  · exact absurd hready (by simp)
  · next hruns =>
    rw [if_neg hruns]
    split at hready
    · exact absurd hready (by simp)
    · next hstarted =>
      rw [if_neg hstarted]
      split at hready
      · exact absurd hready (by simp)
      · split at hready
        · exact absurd hready (by simp)
        · next hfree => rw [if_neg hfree]

end Sys2Proof.Machine

namespace Sys2Proof

open Machine

/-- Settles O53: `step_of_nextAct` says which act a step performs; an issue runs what `scalarReady` and `laneReadyIns` answer, which is
the decoded word. -/
theorem stepRunsDecoded : Obligations.StepRunsDecoded := by
  unfold Obligations.StepRunsDecoded
  refine ⟨?_, ?_, ?_, ?_⟩
  · intro s u v k bs hact hidle hcode hready w
    exact ⟨fun i hdec => step_scalar hact hready (scalarNext_of_decodes hidle hcode hdec),
      fun e hdec => step_scalar hact hready (scalarNext_of_not_decodes hidle hcode hdec)⟩
  · intro s u k c cs i hact hqueue hdec hready
    rw [step_of_nextAct hact, State.perform, State.issueLaneNext, laneReadyIns_of_decodes hqueue hdec hready]
  · intro s i is hinputs
    refine ⟨fun hheeds => ?_, fun hheeds => ?_⟩ <;> rw [step_of_nextAct (nextAct_of_inputs hinputs), hheeds] <;> rfl
  · intro s u i hact
    rw [step_of_nextAct hact, State.perform]

end Sys2Proof

/-!
# Module reset, power loss and full service (O48)
-/
namespace Sys2Proof.Machine

/-! ### Reading memory of which only some cells stand -/

/-- A byte none of whose cells stand reads as an unlisted one. -/
theorem readByte_filter_dropped {p : Host.Cell → Bool} {a : Nat} (hp : ∀ b, p (a, b) = false) (m : Mem) :
    readByte (m.filter p) a = unlisted a := by
  induction m with
  | nil => rfl
  | cons c m ih =>
    obtain ⟨k, b⟩ := c
    rw [List.filter_cons]
    split
    · next hkept =>
      have hne : k ≠ a := by
        rintro rfl
        rw [hp] at hkept
        cases hkept
      simp [readByte, hne, ih]
    · exact ih

/-- A byte whose cells stand reads as before. -/
theorem readByte_filter_kept {p : Host.Cell → Bool} {a : Nat} (hp : ∀ b, p (a, b) = true) {m : Mem} (hwf : Memory.wf m) :
    readByte (m.filter p) a = readByte m a := by
  induction m with
  | nil => rfl
  | cons c m ih =>
    obtain ⟨k, b⟩ := c
    obtain ⟨hsorted, hlisted⟩ := hwf
    rw [List.pairwise_cons] at hsorted
    obtain ⟨habove, hrest⟩ := hsorted
    have ih := ih ⟨hrest, fun d hd => hlisted d (List.mem_cons_of_mem _ hd)⟩
    rw [List.filter_cons]
    split
    · simp [readByte, ih]
    · next hgone =>
      have hne : k ≠ a := by
        rintro rfl
        exact hgone (hp b)
      rw [ih, readByte, if_neg hne]
      split
      · next hlt => exact readByte_below fun d hd => hlt.trans (habove d hd)
      · rfl

/-! ### The state that has been lost (R24, R158, R543) -/

theorem mem_lost (s : State) (svc : Service) (image : FwImage) (boot : BitVec 16) : (s.lost svc image boot).mem =
    s.mem.filter fun c => (poolBase ≤ c.1 && c.1 < poolTop) || hostBase ≤ c.1 := rfl

/-- Every optical port is down. -/
theorem fport_lost_up (s : State) (svc : Service) (image : FwImage) (boot : BitVec 16) (n : Nat) :
    ((s.lost svc image boot).fport n).up = false := by
  have hdown : ∀ ns : List Nat, (tget ({} : FPort) (ns.map fun n => (n, { plane := n, out := (s.fport n).out })) n).up = false := by
    intro ns
    induction ns with
    | nil => rfl
    | cons k ns ih =>
      rw [List.map_cons, tget]
      split
      · rfl
      · exact ih
  exact hdown _

theorem unlisted_own {a : Nat} (ha : a < poolBase ∨ (poolTop ≤ a ∧ a < hostBase)) : unlisted a = 0 := by
  unfold unlisted
  obtain hlow | ⟨htop, hhost⟩ := ha
  · rw [if_pos hlow]
  · have hbase : poolBase < poolTop := by decide
    rw [if_neg (by omega), if_neg (by omega), if_pos hhost]

/-- Below the pool, and between the pool and the memory of hosts, nothing stands: it reads zero. -/
theorem readByte_lost_own (s : State) (svc : Service) (image : FwImage) (boot : BitVec 16) {a : Nat}
    (ha : a < poolBase ∨ (poolTop ≤ a ∧ a < hostBase)) : readByte (s.lost svc image boot).mem a = 0 := by
  rw [mem_lost, readByte_filter_dropped, unlisted_own ha]
  have horder : poolBase < hostBase := by decide
  intro b
  simp only [Bool.or_eq_false_iff, Bool.and_eq_false_iff, decide_eq_false_iff_not]
  omega

/-- The memory of the pool and of hosts stands. -/
theorem readByte_lost_outside (s : State) (svc : Service) (image : FwImage) (boot : BitVec 16) {a : Nat}
    (ha : (poolBase ≤ a ∧ a < poolTop) ∨ hostBase ≤ a) (hwf : Memory.wf s.mem) :
    readByte (s.lost svc image boot).mem a = readByte s.mem a := by
  rw [mem_lost, readByte_filter_kept _ hwf]
  intro b
  simpa using ha

/-- The scratch of the module's cores lies below the memory of hosts. -/
theorem scratchKey_range {core off : Nat} (hcore : core < 1536) (hoff : off < 0x60000) :
    poolTop ≤ scratchKey core off ∧ scratchKey core off < hostBase := by
  simp only [scratchKey, scratchBase, poolTop, hostBase]
  omega

/-! ### Full service (R543, R495) -/

theorem fullDue_iff (s : State) : s.fullDue = true ↔
    (s.pool.trained = 0xFFFF ∨ 2000000000 ≤ s.dtime) ∧ ∀ n, n < 16 → (s.fport n).tried = true := by
  simp [State.fullDue]

/-- The exponents from 0 to 4 whose powers of two are at most `n` are those below their count. -/
theorem pow_le_of_lt_length_filter {n w : Nat} (h : w < ((List.range 5).filter fun w => 2 ^ w ≤ n).length) : 2 ^ w ≤ n := by
  by_contra hw
  have hfew : (List.range 5).filter (fun v => decide (2 ^ v ≤ n)) ⊆ List.range w := by
    intro v hv
    obtain ⟨-, hle⟩ := List.mem_filter.1 hv
    have hle : 2 ^ v ≤ n := by simpa using hle
    exact List.mem_range.2 ((Nat.pow_lt_pow_iff_right (by decide)).1 (by omega : 2 ^ v < 2 ^ w))
  have hnodup : ((List.range 5).filter (fun v => decide (2 ^ v ≤ n))).Nodup := List.nodup_range.filter _
  have := (hnodup.subperm hfew).length_le
  rw [List.length_range] at this
  omega

/-- The ways that firmware chooses: at most 16, and no more than there are ports. -/
theorem ways_bound (x : Nat) (ports : List Nat) :
    let ways := x % max 1 ((List.range 5).filter fun w => 2 ^ w ≤ ports.length).length
    ways ≤ 4 ∧ (ports ≠ [] → 2 ^ ways ≤ ports.length) := by
  intro ways
  have hmost : ((List.range 5).filter fun w => decide (2 ^ w ≤ ports.length)).length ≤ 5 := List.length_filter_le _ _
  have hlt : ways < max 1 ((List.range 5).filter fun w => decide (2 ^ w ≤ ports.length)).length := Nat.mod_lt _ (by omega)
  refine ⟨by omega, fun hports => ?_⟩
  by_cases hzero : ways = 0
  · rw [hzero]
    exact List.length_pos_iff.2 hports
  · exact pow_le_of_lt_length_filter (by omega)

end Sys2Proof.Machine

namespace Sys2Proof

open Machine

/-- Settles O48: a reset and a power loss both lead to `State.lost`, of which each part is read off; full service is one update of
three fields, with the bounds on WAYS and GRAN from the remainders by which firmware's numbers are taken. -/
theorem resetAndService : Obligations.ResetAndService := by
  unfold Obligations.ResetAndService
  intro s x ok anew
  have hanew : ∀ svc image boot, anew (s.lost svc image boot) boot image := by
    intro svc image boot
    refine ⟨rfl, rfl, rfl, rfl, rfl, rfl, rfl, rfl, rfl, rfl, rfl, rfl, fport_lost_up s svc image boot, Nat.zero_div 11, rfl, rfl, rfl, ?_⟩
    intro hwf
    refine ⟨fun a ha => ?_, fun core off hcore hoff => ?_, fun a ha => ?_⟩
    · exact readByte_lost_own s svc image boot (.inl (ha.trans (by decide)))
    · exact readByte_lost_own s svc image boot (.inr (scratchKey_range hcore hoff))
    · exact readByte_lost_outside s svc image boot ha hwf
  have hverified : imageVerified x = true ↔ ok := by
    simp only [imageVerified, Bool.and_eq_true, beq_iff_eq, ok]
  refine ⟨⟨_, rfl, fun h => if_pos (hverified.2 h), fun h => if_neg (hverified.not.2 h), hanew _ _ _⟩,
    ⟨_, rfl, rfl, hanew _ _ _⟩, ?_⟩
  intro due
  have hdue : s.fullDue = true ↔ due := fullDue_iff s
  refine ⟨fun h => ?_, fun hsvc hd => ?_⟩
  · refine if_pos ?_
    simpa [hdue, ← Bool.not_eq_true] using h
  · have hgo : ¬((s.svc != .reduced || !s.fullDue) = true) := by simp [hsvc, hdue.2 hd]
    refine ⟨_, if_neg hgo, rfl, rfl, Nat.le_add_right _ _, ?_, ?_, ?_, rfl, rfl⟩
    · show 8 + _ % 7 ≤ 14
      omega
    · exact (ways_bound _ _).1
    · exact (ways_bound _ _).2

end Sys2Proof

/-!
# Splits and merges (O5)
-/
namespace Sys2Proof.Machine

/-! ### Counting lanes -/

theorem popCount_toNat (m : Mask) : popCount m.toNat 32 = (List.range 32).countP fun i => m.getLsbD i :=
  List.countP_eq_length_filter.symm

/-! ### ssplit: the result word, and the new aside (R26, R28, R260) -/

/-- The result word where a side is empty: EXEC, with MSIDE set when the other side is not empty too. -/
theorem splitWord_whole (mside : Bool) (m : Mask) :
    splitWord false false false mside 0 m = BitVec.ofNat 64 (m.toNat + if mside = true then 2 ^ 60 else 0) := by
  cases mside <;> simp [splitWord, wordOf, at', bit, Nat.add_comm]

/-- The result word of a refused split: REFUSED and EXEC. -/
theorem splitWord_refused (m : Mask) : splitWord false true false false 0 m = BitVec.ofNat 64 (2 ^ 62 + m.toNat) := by
  simp [splitWord, wordOf, at', bit]

@[simp] theorem joinAside_phrases (s : State) (k n : Nat) : (s.joinAside k n).phrases = s.phrases := rfl
@[simp] theorem joinAside_cur (s : State) (k n : Nat) : (s.joinAside k n).cur = s.cur := rfl
@[simp] theorem joinAside_frags (s : State) (k n : Nat) :
    (s.joinAside k n).frags = tput k { s.frag k with qcycle := s.cycle, qslot := n } s.frags := rfl

/-- The state `u` is `s` with a new fragment `k`, which is `aside` but for its place in the aside queue. -/
structure GainsAside (s u : State) (k : Nat) (aside : Frag) : Prop where
  new : ∃ qcycle qslot, u.frag k = { aside with qcycle := qcycle, qslot := qslot }
  others : ∀ j, j ≠ k → u.frag j = s.frag j
  phrases : u.phrases = s.phrases
  mem : u.mem = s.mem
  cur : u.cur = s.cur

/-- A new aside stands in a free slot, or in the aside queue of its core (R28, R169). -/
theorem gainsAside_place (s : State) (k n : Nat) (aside : Frag) (queued : Bool) :
    GainsAside s (if queued then (s.setFrag k aside).bump.joinAside k n else (s.setFrag k aside).bump) k aside := by
  have hnew : (s.setFrag k aside).bump.frag k = aside := tget_tput_same _ _ _ _
  have hother : ∀ j, j ≠ k → (s.setFrag k aside).bump.frag j = s.frag j := fun j hj => tget_tput_other _ _ _ (Ne.symm hj)
  cases queued with
  | false => exact ⟨⟨aside.qcycle, aside.qslot, hnew⟩, hother, rfl, rfl, rfl⟩
  | true =>
    refine ⟨⟨s.cycle, n, ?_⟩, fun j hj => ?_, rfl, rfl, rfl⟩
    · calc ((s.setFrag k aside).bump.joinAside k n).frag k
          = { (s.setFrag k aside).bump.frag k with qcycle := s.cycle, qslot := n } := tget_tput_same _ _ _ _
        _ = { aside with qcycle := s.cycle, qslot := n } := by rw [hnew]
    · exact (tget_tput_other _ _ _ (Ne.symm hj)).trans (hother j hj)

theorem setReg_eq (f : Frag) (r : SReg) (v : Word) : f.setReg r v = { f with sregs := (f.setReg r v).sregs } := by
  unfold Frag.setReg
  split <;> rfl

/-- What a fragment of `s` and its new aside are after a split of its lanes into `gone` and `kept`. -/
structure Splits (s t : State) (sd : SReg) (mark : BitVec 4) (k : Nat) (gone kept : Mask) : Prop where
  aside : (t.frag k).live = true ∧ (t.frag k).mark = mark ∧ (t.frag k).pc = s.me.pc + 4
  parent : t.me.pc = s.me.pc + 4
  regs : ∀ x : SReg, x ≠ sd → (t.frag k).reg x = s.r x ∧ t.r x = s.r x
  gone : (t.frag k).exec = gone
  kept : t.me.exec = kept
  asides : t.myPhr.asides = s.myPhr.asides + 1
  mem : t.mem = s.mem

/-- A split that is not refused and leaves no side empty: the side with fewer lanes goes, the inside of two equal ones. -/
theorem execSsplit_splits {s : State} {sd sa : SReg} {mark : BitVec 4} (htl : s.me.tl = 0)
    (hin : s.me.exec &&& (s.r sa).setWidth 32 ≠ 0) (hout : s.me.exec &&& ~~~((s.r sa).setWidth 32) ≠ 0)
    (hroom : s.myPhr.asides < 31) (hnew : fragKey (phraseOf s.cur) (s.newFragNum (phraseOf s.cur)) ≠ s.cur) :
    let inside : Mask := s.me.exec &&& (s.r sa).setWidth 32
    let outside : Mask := s.me.exec &&& ~~~((s.r sa).setWidth 32)
    let insideGoes := popCount inside.toNat 32 ≤ popCount outside.toNat 32
    Gives (execSsplit sd sa mark s) (Splits s · sd mark (fragKey (phraseOf s.cur) (s.newFragNum (phraseOf s.cur)))
      (if insideGoes then inside else outside) (if insideGoes then outside else inside)) := by
  intro inside outside insideGoes
  unfold execSsplit
  extract_lets p f m inside' outside' insideGoes' gone kept num k aside free queued s1 s2 s3
  obtain ⟨⟨qcycle, qslot, hk⟩, hothers, hphrases, hmem, hcur⟩ : GainsAside s s2 k _ := gainsAside_place s k _ _ queued
  have hme : s2.me = s.me := by rw [State.me, hcur, hothers _ (Ne.symm hnew), State.me]
  have htl0 : ¬((f.tl != 0) = true) := by simp [f, htl]
  have hsides : ¬((inside' == 0 || outside' == 0) = true) := by
    simp only [Bool.or_eq_true, beq_iff_eq, not_or]
    exact ⟨hin, hout⟩
  rw [if_neg htl0, if_neg hsides, if_neg (by omega)]
  obtain ⟨t, ht, honly, hreg, hfrag⟩ := putNext_writes sd (splitWord true false false (!insideGoes') num kept) s3
  have hcur3 : s3.cur = s.cur := hcur
  have hcurt : t.cur = s.cur := by rw [honly.rest, ← hcur3]
  have hme3 : s3.me = { s.me with exec := kept, outCnt := tput mark.toNat (tget 0 s.me.outCnt mark.toNat + 1) s.me.outCnt } := by
    rw [← hme]
    exact me_updMe _ _
  have hkcur : k ≠ s2.cur := by rwa [hcur]
  have hk3 : t.frag k = s2.frag k := (honly.others k hkcur).trans (frag_updFrag_other _ _ hkcur)
  rw [setReg_eq] at hk
  refine ⟨t, ht, ⟨?_, ?_, ?_⟩, ?_, fun x hx => ⟨?_, ?_⟩, ?_, ?_, ?_, ?_⟩
  · rw [hk3, hk]
  · rw [hk3, hk]
  · rw [hk3, hk]
  · rw [hfrag, hme3]
  · rw [hk3, hk]
    refine (reg_setReg _ sd x _).trans ?_
    rw [if_neg fun h => hx h.1]
    rfl
  · rw [hreg, if_neg fun h => hx h.1, State.r, hme3]
    rfl
  · rw [hk3, hk]
  · rw [hfrag, hme3]
  · have hphr : (s3.phr p).asides = (s2.phr p).asides + 1 := congrArg Phrase.asides (phr_updPhr_same s2 p fun q => { q with asides := q.asides + 1 })
    have hold : s2.phr p = s.myPhr := by rw [State.phr, hphrases, State.myPhr, State.phr]
    calc t.myPhr.asides = (s3.phr p).asides := by rw [State.myPhr, hcurt, honly.rest]; rfl
      _ = s.myPhr.asides + 1 := by rw [hphr, hold]
  · calc t.mem = s3.mem := by rw [honly.rest]
      _ = s2.mem := rfl
      _ = s.mem := hmem

/-- A split that leaves a side empty creates nothing. -/
theorem execSsplit_whole {s : State} {sd sa : SReg} {mark : BitVec 4} (htl : s.me.tl = 0)
    (hside : s.me.exec &&& (s.r sa).setWidth 32 = 0 ∨ s.me.exec &&& ~~~((s.r sa).setWidth 32) = 0) :
    Gives (execSsplit sd sa mark s) (Writes s · sd (BitVec.ofNat 64 (s.me.exec.toNat +
      if s.me.exec ≠ 0 ∧ s.me.exec &&& ~~~((s.r sa).setWidth 32) = 0 then 2 ^ 60 else 0))) := by
  unfold execSsplit
  extract_lets p f m inside outside
  have htl0 : ¬((f.tl != 0) = true) := by simp [f, htl]
  have hsides : (inside == 0 || outside == 0) = true := by
    simp only [Bool.or_eq_true, beq_iff_eq]
    exact hside
  have hmside : ((f.exec != 0 && outside == 0) = true) = (s.me.exec ≠ 0 ∧ s.me.exec &&& ~~~((s.r sa).setWidth 32) = 0) := by
    simp [f, outside, m]
  rw [if_neg htl0, if_pos hsides, splitWord_whole]
  simp only [hmside]
  exact putNext_writes sd _ s

/-- The parent goes on with its EXEC, the refusal stands in the result word, and SPLITFAIL is set. -/
structure RefusesSplit (s t : State) (sd : SReg) : Prop where
  word : sd ≠ 0 → t.r sd = BitVec.ofNat 64 (2 ^ 62 + s.me.exec.toNat)
  exec : t.me.exec = s.me.exec
  pc : t.me.pc = s.me.pc + 4
  status : t.myPhr.status = s.myPhr.status ||| 0x8000
  mem : t.mem = s.mem

/-- A split of a phrase that has 31 asides is refused. -/
theorem execSsplit_refuses {s : State} {sd sa : SReg} {mark : BitVec 4} (htl : s.me.tl = 0)
    (hin : s.me.exec &&& (s.r sa).setWidth 32 ≠ 0) (hout : s.me.exec &&& ~~~((s.r sa).setWidth 32) ≠ 0)
    (hfull : s.myPhr.asides ≥ 31) : Gives (execSsplit sd sa mark s) (RefusesSplit s · sd) := by
  unfold execSsplit
  extract_lets p f m inside outside
  have htl0 : ¬((f.tl != 0) = true) := by simp [f, htl]
  have hsides : ¬((inside == 0 || outside == 0) = true) := by
    simp only [Bool.or_eq_true, beq_iff_eq, not_or]
    exact ⟨hin, hout⟩
  rw [if_neg htl0, if_neg hsides, if_pos hfull, splitWord_refused]
  obtain ⟨t, ht, honly, hreg, hfrag⟩ := putNext_writes sd (BitVec.ofNat 64 (2 ^ 62 + f.exec.toNat)) (s.setStatus p statusSplitfail)
  have hphr : (s.setStatus p statusSplitfail).phr p = { s.phr p with status := (s.phr p).status ||| statusSplitfail } :=
    phr_updPhr_same _ _ _
  refine ⟨t, ht, fun hsd => ?_, ?_, ?_, ?_, ?_⟩
  · rw [hreg, if_pos ⟨rfl, hsd⟩]
  · rw [hfrag]; rfl
  · rw [hfrag]; rfl
  · calc t.myPhr.status = ((s.setStatus p statusSplitfail).phr p).status := by rw [honly.rest]; rfl
      _ = s.myPhr.status ||| 0x8000 := by rw [hphr]; rfl
  · rw [honly.rest]; rfl

/-! ### smerge: a parent takes its lanes back (R30, R262) -/

/-- The merge of a fragment that stands in no wait: EXEC takes the lanes of the mark's asides back, and the stream goes on. -/
theorem mergeDone_goesOn {s : State} (m : Nat) (hwait : s.me.wait = .none) :
    (s.mergeDone s.cur m).me = { s.me with
      exec := (s.me.exec ||| tget 0 s.me.outExec m) &&& s.myPhr.live, outExec := tdel m s.me.outExec, pc := s.me.pc + 4 } ∧
    OnlyFrag s (s.mergeDone s.cur m) s.cur := by
  have hmerge : ¬(((s.frag s.cur).wait == .merge m) = true) := by
    rw [← State.me, hwait]
    simp
  unfold State.mergeDone
  extract_lets f s1
  rw [if_neg hmerge]
  have h1 : OnlyFrag s s1 s.cur := (onlyFrag_updFrag s s.cur _).trans (onlyFrag_updFrag _ s.cur _)
  have hs1 : s1.frag s.cur = { s.me with
      exec := (s.me.exec ||| tget 0 s.me.outExec m) &&& s.myPhr.live, outExec := tdel m s.me.outExec } := by
    simp only [s1, State.setExec, frag_updFrag_same]
    rfl
  refine ⟨(frag_updFrag_same s1 s.cur _).trans ?_, h1.trans (onlyFrag_updFrag s1 s.cur _)⟩
  rw [hs1]

/-! ### smerge: an aside ends (R30, R262) -/

theorem tfind_tdel {α : Type} (n : Nat) (t : Tbl α) : tfind (tdel n t) n = none := by
  induction t with
  | nil => rfl
  | cons e t ih =>
    obtain ⟨k, v⟩ := e
    by_cases hk : k = n
    · simpa [tdel, hk] using ih
    · simpa [tdel, hk, tfind] using ih

theorem tfind_tput_other {α : Type} {n m : Nat} (v : α) (t : Tbl α) (h : n ≠ m) : tfind (tput n v t) m = tfind t m := by
  induction t with
  | nil => simp [tput, tfind, h]
  | cons e t ih =>
    obtain ⟨k, w⟩ := e
    rw [tput]
    split
    · simp [tfind, h]
    · split
      · next heq => subst heq; simp [tfind, h]
      · simp [tfind, ih]

/-- A table whose items have changed, and not their numbers, lists no new number. -/
theorem tfind_map_eq_none {α : Type} {f : Nat × α → Nat × α} (hf : ∀ e, (f e).1 = e.1) {n : Nat} {t : Tbl α} (h : tfind t n = none) :
    tfind (t.map f) n = none := by
  induction t with
  | nil => rfl
  | cons e t ih =>
    have hkey := hf e
    obtain ⟨k, v⟩ := e
    rw [tfind] at h
    split at h
    · cases h
    · next hne =>
      rw [List.map_cons, tfind, if_neg (by rw [hkey]; exact hne)]
      exact ih h

theorem tfind_updFrag_other {s : State} {j k : Nat} (g : Frag → Frag) (h : j ≠ k) : tfind (s.updFrag j g).frags k = tfind s.frags k :=
  tfind_tput_other _ _ h

theorem tfind_mergeDone_other (s : State) {j k : Nat} (m : Nat) (h : j ≠ k) : tfind (s.mergeDone j m).frags k = tfind s.frags k := by
  unfold State.mergeDone
  extract_lets f s1 s2 g
  have h1 : tfind s1.frags k = tfind s.frags k := (tfind_updFrag_other _ h).trans (tfind_updFrag_other _ h)
  have h2 : tfind s2.frags k = tfind s.frags k := (tfind_updFrag_other _ h).trans h1
  split
  · split
    · exact (tfind_tput_other _ _ h).trans h2
    · exact h2
  · exact (tfind_updFrag_other _ h).trans h1

/-- An aside that has ended is no more, whoever waited for it. -/
theorem tfind_endAside (s : State) {k : Nat} (h : fragKey (phraseOf k) (s.frag k).parent ≠ k) : tfind (s.endAside k).frags k = none := by
  unfold State.endAside
  extract_lets f p pk m adopt s0 s1 s2
  have hadopt : ∀ e, (adopt e).1 = e.1 := by
    intro e
    simp only [adopt]
    split <;> rfl
  have h1 : tfind s1.frags k = none := tfind_map_eq_none hadopt (tfind_tdel k s0.frags)
  have h2 : tfind s2.frags k = none := (tfind_tput_other _ s1.frags h).trans h1
  split
  · split
    · exact (tfind_mergeDone_other s2 _ h).trans h2
    · exact h2
  · exact h2

end Sys2Proof.Machine

namespace Sys2Proof

open Machine

theorem splitDivides : Claims.SplitDivides := by
  unfold Claims.SplitDivides
  intro s sd sa mark htl m inside outside p size
  refine ⟨execSsplit_whole htl, fun hin hout hfull => ?_, ?_⟩
  · obtain ⟨t, ht, hword, hexec, hpc, hstatus, hmem⟩ := execSsplit_refuses (sd := sd) (mark := mark) htl hin hout hfull
    exact ⟨t, ht, hword, hexec, hpc, hstatus, hmem⟩
  · rintro hin hout hroom n rfl hnew
    obtain ⟨t, ht, ⟨hlive, hmark, hpc⟩, hparent, hregs, hgone, hkept, hasides, hmem⟩ :=
      execSsplit_splits (sd := sd) (mark := mark) htl hin hout hroom hnew
    simp only [popCount_toNat] at hgone hkept
    exact ⟨t, ht, hlive, hmark, hpc, hparent, hregs, hgone, hkept, hasides, hmem⟩

theorem mergeJoins : Claims.MergeJoins := by
  unfold Claims.MergeJoins
  intro s mark htl m
  have htl0 : ¬((s.me.tl != 0) = true) := by simp [htl]
  have hexec : exec (.smerge mark) s = execSmerge mark s := rfl
  rw [hexec]
  unfold execSmerge
  rw [if_neg htl0]
  refine ⟨fun hown hnone hwait => ?_, fun hown hsome => ?_, fun hnum hmark hdone hparent => ?_⟩
  · rw [if_neg (by simpa using hown), if_pos (by simpa using hnone)]
    obtain ⟨hme, honly⟩ := mergeDone_goesOn m hwait
    have hcur : (s.mergeDone s.cur m).cur = s.cur := by rw [honly.rest]
    refine ⟨_, rfl, ?_, ?_, fun x => ?_, honly⟩
    · rw [hme]
    · rw [hme]
    · rw [State.r, hme]; rfl
  · rw [if_neg (by simpa using hown), if_neg (by simpa using hsome)]
    exact ⟨_, rfl, me_updMe _ _, onlyFrag_updMe _ _⟩
  · rw [if_pos (by simp [hnum, hmark]), if_pos hdone]
    exact ⟨_, rfl, tfind_endAside s hparent, endAside_mem s s.cur⟩

/-- Settles O5: `execSsplit` has one lemma for each of its three outcomes, and `smerge` one for a parent that goes on and one for an
aside that ends. -/
theorem splitsAndMerges : Obligations.SplitsAndMerges := by
  unfold Obligations.SplitsAndMerges
  exact ⟨splitDivides, mergeJoins⟩

end Sys2Proof

/-!
# Slot grants, walker records and system calls (O30)
-/
namespace Sys2Proof.Machine

/-! ### Slot grants (R29) -/

@[simp] theorem core_updFrag (s : State) (k c : Nat) (g : Frag → Frag) : (s.updFrag k g).core c = s.core c := rfl
@[simp] theorem frag_updCore (s : State) (c k : Nat) (g : Core → Core) : (s.updCore c g).frag k = s.frag k := rfl

/-- The oldest queued fragment takes the lowest free slot. -/
theorem grantSlot_free {s : State} {core k n : Nat} {ks ns : List Nat} (hqueue : (s.core core).asideQ = k :: ks)
    (hfree : s.freeSlots core = n :: ns) :
    s.grantSlot core = (s.updCore core fun c => { c with asideQ := ks }).updFrag k fun f => { f with slot := some n } := by
  unfold State.grantSlot
  simp only [hqueue, hfree]

/-- Where no slot is free, it takes that of the fragment that lends its own. -/
theorem grantSlot_lent {s : State} {core k j n : Nat} {ks : List Nat} (hqueue : (s.core core).asideQ = k :: ks)
    (hfree : s.freeSlots core = []) (hlender : s.lender core = some j) (hslot : (s.frag j).slot = some n) :
    s.grantSlot core = ((s.updFrag j fun f => { f with slot := none, qslot := n }).updCore core fun c => { c with asideQ := ks }).updFrag k
      fun f => { f with slot := some n } := by
  unfold State.grantSlot
  simp only [hqueue, hfree, hlender, hslot, Option.getD_some]

/-! ### Walker records (R144) -/

theorem nextRecord_of_split {s : State} {core : Nat} {m : MissRec} {before after : List MissRec}
    (hmisses : (s.core core).misses = before ++ m :: after) (hbefore : ∀ x ∈ before, x.given = true) (hm : m.given = false)
    (hdpend : (s.core core).wDpend = 0) : s.nextRecord core = some m := by
  have hnone : before.find? (fun m => !m.given) = none := by
    rw [List.find?_eq_none]
    intro x hx
    simp [hbefore x hx]
  unfold State.nextRecord
  rw [if_pos (by simp [hdpend]), hmisses, List.find?_append, hnone]
  simp [hm]

/-- Of records with numbers of their own, one is marked as given. -/
theorem map_given_of_split {m : MissRec} {before after : List MissRec} (hnum : ∀ x ∈ before ++ after, x.num ≠ m.num) :
    (before ++ m :: after).map (fun x => if x.num == m.num then { x with given := true } else x) =
      before ++ { m with given := true } :: after := by
  have hkeep : ∀ l : List MissRec, (∀ x ∈ l, x.num ≠ m.num) → 
      l.map (fun x => if x.num == m.num then { x with given := true } else x) = l := by
    intro l hl
    refine (List.map_congr_left fun x hx => ?_).trans (List.map_id l)
    rw [if_neg (by simpa using hl x hx)]
    rfl
  rw [List.map_append, List.map_cons, hkeep before fun x hx => hnum x (List.mem_append_left _ hx),
    hkeep after fun x hx => hnum x (List.mem_append_right _ hx)]
  simp

/-- The registers d0 to d3, of which no write meets another. -/
theorem reg_setRegs_record (f : Frag) (d0 d1 d2 d3 : Word) :
    let g := f.setRegs [(60, d0), (61, d1), (62, d2), (63, d3)]
    g.reg 60 = d0 ∧ g.reg 61 = d1 ∧ g.reg 62 = d2 ∧ g.reg 63 = d3 := by
  simp [Frag.setRegs, reg_setReg]

theorem execWalkerRecordDeliver_of_next {s : State} {core : Nat} {m : MissRec} (h : s.nextRecord core = some m) :
    execWalkerRecordDeliver core s = .next ((s.updCore core fun c => { c with
      wDpend := 0xF, wWake := true, misses := c.misses.map fun x => if x.num == m.num then { x with given := true } else x }).updFrag
      (walkerKey core) fun f => { f with live := true, slot := some 15 }.setRegs
        [(60, m.d0), (61, MissRec.d1 s m), (62, wordOf m.ctx), (63, wordOf m.tag)]) := by
  unfold execWalkerRecordDeliver
  rw [h]

end Sys2Proof.Machine

namespace Sys2Proof

open Machine

theorem slotsAndRecords : Claims.SlotsAndRecords := by
  unfold Claims.SlotsAndRecords
  refine ⟨?_, ?_, ?_⟩
  · intro s core k n ks ns hqueue hfree
    refine ⟨_, congrArg Host.Outcome.next (grantSlot_free hqueue hfree), by simp, by simp, fun j hj => ?_, rfl, rfl⟩
    rw [frag_updFrag_other _ _ hj, frag_updCore]
  · intro s core k j n ks hqueue hfree hlender hjk hslot
    refine ⟨_, congrArg Host.Outcome.next (grantSlot_lent hqueue hfree hlender hslot), by simp, by simp, ?_, ?_, fun i hik hij => ?_, rfl, rfl⟩
    · simp [frag_updFrag_other _ _ hjk]
    · simp [frag_updFrag_other _ _ hjk]
    · rw [frag_updFrag_other _ _ hik, frag_updCore, frag_updFrag_other _ _ hij]
  · intro s core m before after hmisses hbefore hm hnum hdpend w
    have hnext := nextRecord_of_split hmisses hbefore hm hdpend
    obtain ⟨h60, h61, h62, h63⟩ := reg_setRegs_record { s.frag w with live := true, slot := some 15 } m.d0 (MissRec.d1 s m)
      (wordOf m.ctx) (wordOf m.tag)
    refine ⟨_, execWalkerRecordDeliver_of_next hnext, ?_, by simp, by simp, fun _ => ?_, ?_, ?_, ?_, fun j hj => ?_, rfl⟩
    · simp only [core_updFrag, core_updCore_same, hmisses, map_given_of_split hnum]
    · exact (congrArg (Frag.reg · 60) (frag_updFrag_same _ _ _)).trans h60
    · refine (congrArg (Frag.reg · 61) (frag_updFrag_same _ _ _)).trans (h61.trans ?_)
      cases hpriv : m.priv <;> simp [MissRec.d1, hpriv, wordOf, at', bit]
    · exact (congrArg (Frag.reg · 62) (frag_updFrag_same _ _ _)).trans h62
    · exact (congrArg (Frag.reg · 63) (frag_updFrag_same _ _ _)).trans h63
    · rw [frag_updFrag_other _ _ hj, frag_updCore]

end Sys2Proof

namespace Sys2Proof.Machine

/-! ### The next step of a ring (R179, R180) -/

/-- Of the entry of lowest SEQ so far and another, the one of lower SEQ. -/
def lowerSeq (b : Option Sysc) (y : Sysc) : Option Sysc :=
  match b with
  | none => some y
  | some x => if y.seq < x.seq then some y else some x

theorem lowestSeq_eq (ys : List Sysc) : lowestSeq ys = ys.foldl lowerSeq none := rfl

theorem lowerSeq_le (b : Option Sysc) (y : Sysc) : ∃ x, lowerSeq b y = some x ∧ x.seq ≤ y.seq ∧ ∀ z, b = some z → x.seq ≤ z.seq := by
  cases b with
  | none => exact ⟨y, rfl, le_rfl, fun z hz => by cases hz⟩
  | some x =>
    by_cases hlt : y.seq < x.seq
    · exact ⟨y, if_pos hlt, le_rfl, fun z hz => by cases hz; exact hlt.le⟩
    · exact ⟨x, if_neg hlt, by omega, fun z hz => by cases hz; exact le_rfl⟩

theorem foldl_lowerSeq_le {ys : List Sysc} {b : Option Sysc} {r : Sysc} (h : ys.foldl lowerSeq b = some r) :
    (∀ x, b = some x → r.seq ≤ x.seq) ∧ ∀ y ∈ ys, r.seq ≤ y.seq := by
  induction ys generalizing b with
  | nil => exact ⟨fun x hx => by rw [List.foldl_nil, hx] at h; cases h; exact le_rfl, fun y hy => by cases hy⟩
  | cons y ys ih =>
    obtain ⟨x, hx, hxy, hxb⟩ := lowerSeq_le b y
    obtain ⟨hstart, hrest⟩ := ih h
    have hrx := hstart x hx
    exact ⟨fun z hz => hrx.trans (hxb z hz), fun z hz => by
      obtain rfl | hz := List.mem_cons.1 hz
      · exact hrx.trans hxy
      · exact hrest z hz⟩

theorem lowestSeq_le {ys : List Sysc} {r : Sysc} (h : lowestSeq ys = some r) : ∀ y ∈ ys, r.seq ≤ y.seq :=
  (foldl_lowerSeq_le h).2

theorem mem_toPost {s : State} {ctx : Nat} {x : SyscStep} (h : x ∈ s.toPost ctx) : ∃ y, x = .post y ∧ s.postWaits y = false := by
  obtain ⟨y, hy, rfl⟩ := List.mem_map.1 h
  have hy := (List.mem_filter.1 hy).2
  simp only [Bool.and_eq_true, Bool.not_eq_true'] at hy
  exact ⟨y, rfl, hy.2⟩

theorem mem_toTake {s : State} {ctx : Nat} {x : SyscStep} (h : x ∈ s.toTake ctx) : ∃ y, x = .take y ∧ y.posted = true ∧
    (∀ z ∈ s.syscs, z.ctx = ctx → z.serving = false → z.done = false → y.seq ≤ z.seq) ∧
    (s.syscs.filter fun z => z.serving && !z.done).length < 8 := by
  unfold State.toTake at h
  split at h
  · next y hlowest =>
    split at h
    · next hmay =>
      obtain rfl := List.mem_singleton.1 h
      simp only [Bool.and_eq_true, decide_eq_true_eq] at hmay
      obtain ⟨hposted, hroom⟩ := hmay
      refine ⟨y, rfl, hposted, fun z hz hctx hserving hdone => lowestSeq_le hlowest z (List.mem_filter.2 ⟨hz, ?_⟩), hroom⟩
      simp [hctx, hserving, hdone]
    · cases h
  · cases h

theorem mem_toFinish {s : State} {ctx : Nat} {x : SyscStep} (h : x ∈ s.toFinish ctx) : ∃ y, x = .finish y ∧ y.serving = true := by
  obtain ⟨y, hy, rfl⟩ := List.mem_map.1 h
  have hy := (List.mem_filter.1 (List.mem_filter.1 hy).1).2
  simp only [Bool.and_eq_true, Bool.not_eq_true'] at hy
  exact ⟨y, rfl, hy.1.2⟩

theorem execSyscallServe_nil {s : State} {ctx : Nat} (h : s.syscSteps ctx = []) : execSyscallServe ctx s = .next s := by
  unfold execSyscallServe
  rw [h]

/-- The service goes on by one of the steps that may be next: the only one, or one that a draw chooses. -/
theorem execSyscallServe_goes {s : State} {ctx : Nat} (h : s.syscSteps ctx ≠ []) :
    ∃ x ∈ s.syscSteps ctx, ∃ u, (u = s ∨ u = s.drawn) ∧ execSyscallServe ctx s = .next (u.syscGoes x) := by
  unfold execSyscallServe
  split
  · next hnil => exact absurd hnil h
  · next x hone => exact ⟨x, by simp [hone], s, .inl rfl, rfl⟩
  · next x xs _ hmany =>
    refine ⟨_, ?_, s.drawn, .inr rfl, rfl⟩
    rw [hmany]
    exact nth_mem (Nat.mod_lt _ (Nat.succ_pos _))

/-! ### One byte of memory -/

theorem readNat_one (m : Mem) (a : Nat) : readNat m a 1 = (readByte m a).toNat := by simp [readNat, readBytes, natOf]

theorem readNat_congr {m m' : Mem} {a n : Nat} (h : ∀ i, i < n → readByte m (a + i) = readByte m' (a + i)) : readNat m a n = readNat m' a n := by
  rw [readNat, readBytes_congr m m' a n h, readNat]

/-- STATE is one byte: the others read as before. -/
theorem state_written {m : Mem} (hwf : Memory.wf m) (e n : Nat) (hn : n < 256) :
    readNat (writeNat (entryState e) 1 n m) (e + 20) 1 = n ∧
    ∀ k, k ≠ e + 20 → readByte (writeNat (entryState e) 1 n m) k = readByte m k := by
  refine ⟨(readNat_writeNat (e + 20) 1 n hwf).trans (by omega), fun k hk => ?_⟩
  exact readByte_writeNat_other n (by unfold entryState; omega) hwf

theorem mem_updSysc {s : State} {id : Nat} {g : Sysc → Sysc} {z : Sysc} (hz : z ∈ (s.updSysc id g).syscs)
    (h : z.id = id) : ∃ y, z = g y := by
  obtain ⟨y, -, rfl⟩ := List.mem_map.1 hz
  by_cases hy : (y.id == id) = true
  · exact ⟨y, if_pos hy⟩
  · rw [if_neg hy] at h
    exact absurd (beq_iff_eq.2 h) hy

/-! ### The calls (R327) -/

/-- ALLOC rounds up to the least power of two of at least 4 KiB. -/
theorem blockSize_bounds {n : Nat} (hn : n ≤ 2 ^ 30) :
    n ≤ blockSize n ∧ 4096 ≤ blockSize n ∧ blockSize n < max (2 * n) 4097 ∧ ∃ j, blockSize n = 2 ^ j := by
  unfold blockSize
  cases hfind : (List.range 31).find? fun k => 12 ≤ k && n ≤ 2 ^ k with
  | none => exact absurd hn (by simpa using List.find?_eq_none.1 hfind 30 (by simp))
  | some k =>
    obtain ⟨hk, _, hsmaller⟩ := List.find?_range_eq_some.1 hfind
    simp only [Bool.and_eq_true, decide_eq_true_eq] at hk
    obtain ⟨h12, hle⟩ := hk
    rw [Option.getD_some]
    refine ⟨hle, (Nat.pow_le_pow_right (by decide) h12 : 2 ^ 12 ≤ 2 ^ k), ?_, k, rfl⟩
    obtain rfl | hlt := h12.eq_or_lt
    · omega
    · have hbelow := hsmaller (k - 1) (by omega)
      simp only [Bool.not_eq_true', Bool.and_eq_false_iff, decide_eq_false_iff_not] at hbelow
      have hdouble : 2 ^ k = 2 * 2 ^ (k - 1) := by rw [← Nat.pow_succ']; congr 1; omega
      omega

/-- The place that ALLOC picks is one that the block may have. -/
theorem blockOk_pickBlock {x : Ctx} {core zone n draw : Nat} (h : x.pickBlock core zone n draw ≠ 0) :
    x.blockOk core zone n (x.pickBlock core zone n draw) = true := by
  unfold Ctx.pickBlock at h ⊢
  dsimp only at h ⊢
  split at h
  · next hwant => rwa [if_pos hwant]
  · next hwant =>
    rw [if_neg hwant]
    refine (List.foldlRecOn (motive := fun b => b = 0 ∨ x.blockOk core zone n b = true) _ _ (.inl rfl) ?_).resolve_left h
    intro b hb a ha
    split
    · exact .inr (List.mem_filter.1 ha).2
    · exact hb

/-- What a place must be like for a block: aligned, in the heap, and free. -/
theorem blockOk_spec {x : Ctx} {core zone n va : Nat} (h : x.blockOk core zone n va = true) :
    va % n = 0 ∧ x.heap.1 ≤ va ∧ va + n ≤ x.heap.2 ∧ ∀ b ∈ x.allocs, va + n ≤ b.1 ∨ b.1 + b.2 ≤ va := by
  unfold Ctx.blockOk at h
  simp only [Bool.and_eq_true, Bool.or_eq_true, decide_eq_true_eq, beq_iff_eq, List.all_eq_true] at h
  obtain ⟨⟨⟨⟨⟨⟨-, haligned⟩, hlow⟩, htop⟩, -⟩, -⟩, hfree⟩ := h
  exact ⟨haligned, hlow, htop, hfree⟩

section
variable (s : State) (ctx core a0 a1 : Nat)

theorem syscall_null : s.syscall ctx core 0 a0 a1 = (0, s) := rfl

theorem syscall_unlisted {call : Nat} (h : 3 ≤ call) : s.syscall ctx core call a0 a1 = (2 ^ 64 - 1, s) := by
  obtain ⟨n, rfl⟩ := Nat.exists_eq_add_of_le' h
  rfl

theorem syscall_free {a0 : Nat} (h : ∃ b ∈ (s.ctx ctx).allocs, b.1 = a0) :
    s.syscall ctx core 2 a0 a1 = (0, s.updCtx ctx fun x => { x with allocs := x.allocs.filter fun b => b.1 != a0 }) :=
  if_pos (by simpa using h)

theorem syscall_free_unknown {a0 : Nat} (h : ∀ b ∈ (s.ctx ctx).allocs, b.1 ≠ a0) : s.syscall ctx core 2 a0 a1 = (1, s) :=
  if_neg (by
    rw [List.any_eq_true]
    rintro ⟨b, hb, heq⟩
    exact h b hb (beq_iff_eq.1 heq))

theorem syscall_alloc_refused {a0 a1 : Nat} (h : a0 = 0 ∨ 2 ^ 30 < a0 ∨ 2 < a1) : s.syscall ctx core 1 a0 a1 = (0, s) :=
  if_pos (by simpa [or_assoc] using h)

end

/-- ALLOC gives a block of the size that the context may have, or none. -/
theorem syscall_alloc (s : State) (ctx core : Nat) {a0 a1 : Nat} (h0 : a0 ≠ 0) (hsize : a0 ≤ 2 ^ 30) (hzone : a1 ≤ 2) :
    s.syscall ctx core 1 a0 a1 = (0, s.drawn) ∨ ∃ va, (s.ctx ctx).blockOk core a1 (blockSize a0) va = true ∧
      s.syscall ctx core 1 a0 a1 = (va, s.drawn.updCtx ctx fun x => { x with allocs := x.allocs ++ [(va, blockSize a0)] }) := by
  have hgood : ¬((a0 == 0 || a0 > 2 ^ 30 || a1 > 2) = true) := by
    simp only [Bool.or_eq_true, beq_iff_eq, decide_eq_true_eq]
    omega
  unfold State.syscall
  dsimp only
  rw [if_neg hgood]
  by_cases hpick : (s.ctx ctx).pickBlock core a1 (blockSize a0) s.draws = 0
  · exact .inl (if_pos (beq_iff_eq.2 hpick))
  · exact .inr ⟨_, blockOk_pickBlock hpick, if_neg (mt beq_iff_eq.1 hpick)⟩


/-! ### The steps of a ring (R179, R180, R327) -/

@[simp] theorem updSysc_contexts (s : State) (id : Nat) (g : Sysc → Sysc) : (s.updSysc id g).contexts = s.contexts := rfl

section
variable {u : State} {y : Sysc} (hwf : Memory.wf u.mem)
include hwf

theorem syscGoes_post (h : u.postWaits y = false) :
    readNat (u.syscGoes (.post y)).mem (y.entry + 20) 1 = 1 ∧ (u.syscGoes (.post y)).contexts = u.contexts ∧
    (∀ k, k ≠ y.entry + 20 → readByte (u.syscGoes (.post y)).mem k = readByte u.mem k) ∧
    ∀ z ∈ (u.syscGoes (.post y)).syscs, z.id = y.id → z.posted = true := by
  have hpost : u.syscGoes (.post y) = (u.updMem (writeNat (entryState y.entry) 1 1)).updSysc y.id fun y => { y with posted := true } := by
    rw [State.syscGoes, State.post, h]
    rfl
  obtain ⟨hstate, hother⟩ := state_written hwf y.entry 1 (by decide)
  rw [hpost]
  refine ⟨hstate, rfl, hother, fun z hz hid => ?_⟩
  obtain ⟨x, rfl⟩ := mem_updSysc hz hid
  rfl

theorem syscGoes_take :
    readNat (u.syscGoes (.take y)).mem (y.entry + 20) 1 = 2 ∧ (u.syscGoes (.take y)).contexts = u.contexts ∧
    (∀ k, k ≠ y.entry + 20 → readByte (u.syscGoes (.take y)).mem k = readByte u.mem k) ∧
    ∀ z ∈ (u.syscGoes (.take y)).syscs, z.id = y.id → z.serving = true := by
  obtain ⟨hstate, hother⟩ := state_written hwf y.entry 2 (by decide)
  refine ⟨hstate, rfl, hother, fun z hz hid => ?_⟩
  obtain ⟨x, rfl⟩ := mem_updSysc hz hid
  rfl

theorem syscGoes_finish :
    readNat (u.syscGoes (.finish y)).mem (y.entry + 20) 1 = 3 ∧
    ∀ z ∈ (u.syscGoes (.finish y)).syscs, z.id = y.id → z.done = true := by
  have hserved := canon_iff.1 (serveLanes_canon u y (readNat u.mem (y.entry + 21) 2)
    (lanesOf (BitVec.ofNat 32 (readNat u.mem (y.entry + 16) 4))) (canon_iff.2 hwf))
  refine ⟨(state_written hserved y.entry 3 (by decide)).1, fun z hz hid => ?_⟩
  obtain ⟨x, rfl⟩ := mem_updSysc hz hid
  rfl

omit hwf in
theorem serveLanes_one (call l : Nat) :
    let x := u.syscall y.ctx y.core call (readNat u.mem (laneRecord y.entry l) 8) (readNat u.mem (laneRecord y.entry l + 8) 8)
    (u.serveLanes y call [l]).mem = writeNat (laneRecord y.entry l + 24) 8 x.1 u.mem ∧
    (u.serveLanes y call [l]).contexts = x.2.contexts :=
  ⟨congrArg (writeNat _ 8 _) (syscall_mem _ _ _ _ _ _), rfl⟩

omit hwf in
theorem syscGoes_finish_eq : u.syscGoes (.finish y) = ((u.serveLanes y (readNat u.mem (y.entry + 21) 2)
    (lanesOf (BitVec.ofNat 32 (readNat u.mem (y.entry + 16) 4)))).updMem (writeNat (entryState y.entry) 1 3)).updSysc y.id
      fun y => { y with done := true } := rfl

/-- The call of an entry with one lane: its result stands in the lane's record, and no other byte but STATE changes. -/
theorem syscGoes_finish_lane {l : Nat} (hlane : lanesOf (BitVec.ofNat 32 (readNat u.mem (y.entry + 16) 4)) = [l]) :
    let x := u.syscall y.ctx y.core (readNat u.mem (y.entry + 21) 2) (readNat u.mem (y.entry + 128 + 32 * l) 8)
      (readNat u.mem (y.entry + 136 + 32 * l) 8)
    readNat (u.syscGoes (.finish y)).mem (y.entry + 152 + 32 * l) 8 = x.1 % 2 ^ 64 ∧
    (u.syscGoes (.finish y)).contexts = x.2.contexts ∧
    ∀ k, k ≠ y.entry + 20 → (k < y.entry + 152 + 32 * l ∨ y.entry + 160 + 32 * l ≤ k) →
      readByte (u.syscGoes (.finish y)).mem k = readByte u.mem k := by
  intro x
  obtain ⟨hmem, hcontexts⟩ := serveLanes_one (u := u) (y := y) (readNat u.mem (y.entry + 21) 2) l
  have h128 : laneRecord y.entry l = y.entry + 128 + 32 * l := rfl
  have h136 : y.entry + 128 + 32 * l + 8 = y.entry + 136 + 32 * l := by omega
  have h152 : y.entry + 128 + 32 * l + 24 = y.entry + 152 + 32 * l := by omega
  rw [h128, h136, h152] at hmem
  rw [h128, h136] at hcontexts
  obtain ⟨-, hother⟩ := state_written (writeNat_wf (y.entry + 152 + 32 * l) 8 x.1 hwf) y.entry 3 (by decide)
  rw [syscGoes_finish_eq, hlane, updSysc_mem, updMem_mem, updSysc_contexts, updMem_contexts, hmem, hcontexts]
  refine ⟨?_, rfl, fun k hk hrecord => ?_⟩
  · rw [readNat_congr fun i hi => hother _ (by omega), readNat_writeNat _ _ _ hwf, show 256 ^ 8 = 2 ^ 64 from rfl]
  · rw [hother k hk, readByte_writeNat_other _ (by omega) hwf]

end

/-! ### The results of an entry (R180) -/

/-- Of a table's writes, all those of one number put one value: it stands. -/
theorem tget_foldl_tput {α : Type} (d : α) {k : Nat} {v : α} {ws : List (Nat × α)} (hall : ∀ w ∈ ws, w.1 = k → w.2 = v) {t : Tbl α}
    (h : (∃ w ∈ ws, w.1 = k) ∨ tget d t k = v) : tget d (ws.foldl (fun t w => tput w.1 w.2 t) t) k = v := by
  induction ws generalizing t with
  | nil => exact h.resolve_left fun ⟨w, hw, _⟩ => by cases hw
  | cons w ws ih =>
    refine ih (fun x hx => hall x (List.mem_cons_of_mem _ hx)) ?_
    by_cases hk : w.1 = k
    · right
      rw [← hall w List.mem_cons_self hk, ← hk]
      exact tget_tput_same _ _ _ _
    · rw [tget_tput_other _ _ _ hk]
      refine h.imp_left ?_
      rintro ⟨x, hx, hxk⟩
      obtain rfl | hx := List.mem_cons.1 hx
      · exact absurd hxk hk
      · exact ⟨x, hx, hxk⟩

theorem lt_of_mem_lanesOf {m : Mask} {l : Nat} (h : l ∈ lanesOf m) : l < 32 := List.mem_range.1 (List.mem_filter.1 h).1

/-- The writes of 64-bit values to the lanes of a pair of registers. -/
theorem mem_pairWrites {m : Mask} {v : Nat} {res : Nat → Nat} {w : Nat × Half} :
    w ∈ ((lanesOf m).flatMap fun l => laneWrites .u64 v l (res l)) ↔
    ∃ l ∈ lanesOf m, w = (32 * v + l, BitVec.ofNat 32 (res l)) ∨ w = (32 * (v + 1) + l, BitVec.ofNat 32 (res l / 2 ^ 32)) := by
  simp [List.mem_flatMap, laneWrites, LType.bits]

/-- A pair of registers holds the values in the lanes of the mask, low words in the first. -/
theorem lanes_putLanes_pair (q : Phrase) {m : Mask} {v l : Nat} {res : Nat → Nat} (hl : l ∈ lanesOf m) :
    tget 0 (putLanes q ((lanesOf m).flatMap fun l => laneWrites .u64 v l (res l))).lanes (32 * v + l) = BitVec.ofNat 32 (res l) ∧
    tget 0 (putLanes q ((lanesOf m).flatMap fun l => laneWrites .u64 v l (res l))).lanes (32 * (v + 1) + l) =
      BitVec.ofNat 32 (res l / 2 ^ 32) := by
  have hlt := lt_of_mem_lanesOf hl
  constructor
  · refine tget_foldl_tput 0 (fun w hw hk => ?_) (.inl ⟨_, mem_pairWrites.2 ⟨l, hl, .inl rfl⟩, rfl⟩)
    obtain ⟨j, hj, rfl | rfl⟩ := mem_pairWrites.1 hw
    · obtain rfl : j = l := by simpa using hk
      rfl
    · have := lt_of_mem_lanesOf hj
      dsimp only at hk
      omega
  · refine tget_foldl_tput 0 (fun w hw hk => ?_) (.inl ⟨_, mem_pairWrites.2 ⟨l, hl, .inr rfl⟩, rfl⟩)
    obtain ⟨j, hj, rfl | rfl⟩ := mem_pairWrites.1 hw
    · have := lt_of_mem_lanesOf hj
      dsimp only at hk
      omega
    · obtain rfl : j = l := by simpa using hk
      rfl

/-- No other lane changes, and no other register. -/
theorem lanes_putLanes_pair_other (q : Phrase) {m : Mask} {v w l : Nat} {res : Nat → Nat} (hl : l < 32)
    (h : l ∉ lanesOf m ∨ (w ≠ v ∧ w ≠ v + 1)) :
    tget 0 (putLanes q ((lanesOf m).flatMap fun l => laneWrites .u64 v l (res l))).lanes (32 * w + l) = tget 0 q.lanes (32 * w + l) := by
  refine tget_foldl_tput 0 (fun x hx hk => ?_) (.inr rfl)
  exfalso
  obtain ⟨j, hj, hx⟩ := mem_pairWrites.1 hx
  have hjlt := lt_of_mem_lanesOf hj
  have hplace : j = l ∧ (w = v ∨ w = v + 1) := by
    obtain rfl | rfl := hx <;> dsimp only at hk <;> omega
  obtain ⟨rfl, hw⟩ := hplace
  obtain hmask | ⟨hv, hv1⟩ := h
  · exact hmask hj
  · exact hw.elim hv hv1

@[simp] theorem tidy_phrases (s : State) : s.tidy.phrases = s.phrases := rfl
@[simp] theorem tidy_syscs (s : State) : s.tidy.syscs = s.syscs := rfl

/-- An acquire fence changes no lane, no system call, no fault to take, and no operation but fences. -/
theorem acquire_keeps (s : State) (k p : Nat) (sc : Scope) :
    ((s.acquire k sc).phr p).lanes = (s.phr p).lanes ∧ (s.acquire k sc).syscs = s.syscs ∧
    ((s.acquire k sc).frag k).ready = (s.frag k).ready ∧ ∀ o ∈ (s.acquire k sc).laneOps, o.kind = .unit → o ∈ s.laneOps := by
  unfold State.acquire
  split
  · unfold State.putFence
    extract_lets f miss s1 s2 s3
    have h1 : (s1.phr p).lanes = (s.phr p).lanes ∧ s1.syscs = s.syscs ∧ s1.frag k = s.frag k ∧ s1.laneOps = s.laneOps := by
      simp only [s1]
      split
      · refine ⟨?_, rfl, rfl, rfl⟩
        by_cases hp : p = phraseOf k
        · subst hp
          rw [State.setStatus, phr_updPhr_same]
        · exact congrArg Phrase.lanes (phr_updPhr_other s _ hp)
      · exact ⟨rfl, rfl, rfl, rfl⟩
    obtain ⟨hlanes, hsyscs, hfrag, hops⟩ := h1
    have hphrases : s3.bump.tidy.phrases = s1.phrases := by simp only [tidy_phrases, bump_phrases, s3, s2, updFrag_phrases]
    have hcalls : s3.bump.tidy.syscs = s1.syscs := by simp only [tidy_syscs, bump_syscs, s3, s2, updFrag_syscs]
    refine ⟨?_, hcalls.trans hsyscs, ?_, fun o ho hkind => ?_⟩
    · rw [State.phr, hphrases]
      exact hlanes
    · have h2 : (s2.frag k).ready = (s1.frag k).ready := by simp [s2]
      rwa [hfrag] at h2
    · obtain hold | hnew := List.mem_append.1 (List.mem_filter.1 ho).1
      · rwa [← hops]
      · obtain rfl := List.mem_singleton.1 hnew
        cases hkind
  · exact ⟨rfl, rfl, rfl, fun o ho _ => ho⟩

/-- A fragment that has no fault to take takes none. -/
theorem settle_of_calm {s : State} {k : Nat} (h : (s.frag k).ready = []) : s.settle k = s := by
  unfold State.settle
  simp only [h]

/-- The state in which the results of an entry are in its lanes and the entry is free, before the acquire of its flag's clearing. -/
def State.resultsCopied (s : State) (y : Sysc) : State :=
  let res (l : Nat) : Nat := readNat s.mem (y.entry + 152 + 32 * l) 8
  let s1 := s.updPhr (phraseOf y.frag) fun q => putLanes q ((lanesOf y.mask).flatMap fun l => laneWrites .u64 y.vd l (res l))
  let s2 : State := { s1 with syscs := s1.syscs.filter fun x => x.id != y.id, laneOps := s1.laneOps.filter fun o => o.id != y.id
                              mem := writeNat (entryState y.entry) 1 0 s1.mem }
  s2.updMem (writeNat (s2.scbase y.ctx + 8) 8 (s2.ringAdvance y.ctx (s2.scent y.ctx) (s2.ringCons y.ctx)))

theorem execSyscallResultCopy_eq {s : State} {y : Sysc} (hfind : (s.syscs.find? fun x => x.id == y.id) = some y) (hdone : y.done = true)
    (horphan : y.orphan = false) (hpresent : (s.phr (phraseOf y.frag)).present = true) :
    execSyscallResultCopy y.id s = .next (((s.resultsCopied y).acquire y.frag .dev).settle y.frag) := by
  have hready : ¬((!s.resultReady y) = true) := by simp [State.resultReady, hdone, hpresent]
  have hrecord : ∀ l, laneRecord y.entry l + 24 = y.entry + 152 + 32 * l := fun l => by unfold laneRecord; omega
  unfold execSyscallResultCopy
  simp only [hfind, if_neg hready, horphan, hrecord]
  rfl

section
variable (s : State) (y : Sysc)

theorem phr_resultsCopied : (s.resultsCopied y).phr (phraseOf y.frag) = putLanes (s.phr (phraseOf y.frag))
    ((lanesOf y.mask).flatMap fun l => laneWrites .u64 y.vd l (readNat s.mem (y.entry + 152 + 32 * l) 8)) :=
  phr_updPhr_same s (phraseOf y.frag) fun q => putLanes q
    ((lanesOf y.mask).flatMap fun l => laneWrites .u64 y.vd l (readNat s.mem (y.entry + 152 + 32 * l) 8))

theorem syscs_resultsCopied : (s.resultsCopied y).syscs = s.syscs.filter fun x => x.id != y.id := rfl
theorem laneOps_resultsCopied : (s.resultsCopied y).laneOps = s.laneOps.filter fun o => o.id != y.id := rfl
theorem frag_resultsCopied (k : Nat) : (s.resultsCopied y).frag k = s.frag k := rfl

theorem mem_resultsCopied : ∃ cons, (s.resultsCopied y).mem =
    writeNat (s.scbase y.ctx + 8) 8 cons (writeNat (entryState y.entry) 1 0 s.mem) := ⟨_, rfl⟩

end

end Sys2Proof.Machine

namespace Sys2Proof

open Machine

theorem systemCalls : Claims.SystemCalls := by
  unfold Claims.SystemCalls
  refine ⟨fun s ctx h => execSyscallServe_nil (s := s) (ctx := ctx) h, ?_, ?_⟩
  · intro s ctx hwf hsteps state still
    obtain ⟨x, hx, u, hu, hserve⟩ := execSyscallServe_goes hsteps
    have hmem : u.mem = s.mem := by obtain rfl | rfl := hu <;> rfl
    have hcontexts : u.contexts = s.contexts := by obtain rfl | rfl := hu <;> rfl
    have hwaits : ∀ y, u.postWaits y = s.postWaits y := fun y => by obtain rfl | rfl := hu <;> rfl
    have hctx : ∀ c, u.ctx c = s.ctx c := fun c => by rw [State.ctx, hcontexts, State.ctx]
    have hwfu : Memory.wf u.mem := by rwa [hmem]
    refine ⟨x, hx, u.syscGoes x, hserve, ?_⟩
    simp only [State.syscSteps, List.mem_append] at hx
    obtain (hx | hx) | hx := hx
    · obtain ⟨y, rfl, hnone⟩ := mem_toPost hx
      obtain ⟨hstate, hstays, hother, hposted⟩ := syscGoes_post hwfu ((hwaits y).trans hnone)
      exact ⟨hnone, hstate, ⟨hstays.trans hcontexts, fun k hk => (hother k hk).trans (by rw [hmem])⟩, hposted⟩
    · obtain ⟨y, rfl, hposted, hlowest, hroom⟩ := mem_toTake hx
      obtain ⟨hstate, hstays, hother, hserving⟩ := syscGoes_take (y := y) hwfu
      exact ⟨hposted, hlowest, hroom, hstate, ⟨hstays.trans hcontexts, fun k hk => (hother k hk).trans (by rw [hmem])⟩, hserving⟩
    · obtain ⟨y, rfl, hserving⟩ := mem_toFinish hx
      obtain ⟨hstate, hdone⟩ := syscGoes_finish (y := y) hwfu
      refine ⟨hserving, hstate, hdone, fun l hl hlane => ?_⟩
      intro e call a0 a1 blocks r
      obtain ⟨hresult, hstays, hother⟩ := syscGoes_finish_lane hwfu (by rwa [hmem])
      rw [hmem] at hresult hstays
      have hcall : ∀ {v : Nat} {t : State}, u.syscall y.ctx y.core call a0 a1 = (v, t) →
          r = v % 2 ^ 64 ∧ (u.syscGoes (.finish y)).contexts = t.contexts :=
        fun h => ⟨hresult.trans (congrArg (·.1 % 2 ^ 64) h), hstays.trans (congrArg (·.2.contexts) h)⟩
      have hquiet : ∀ {v : Nat}, u.syscall y.ctx y.core call a0 a1 = (v, u) → v < 2 ^ 64 →
          r = v ∧ (u.syscGoes (.finish y)).contexts = s.contexts := fun h hv =>
        ⟨(hcall h).1.trans (Nat.mod_eq_of_lt hv), (hcall h).2.trans hcontexts⟩
      have hallocs : ∀ {v : Nat} {t : State} {g : Ctx → Ctx}, u.syscall y.ctx y.core call a0 a1 = (v, t.updCtx y.ctx g) →
          t.contexts = s.contexts → (u.syscGoes (.finish y)).ctx y.ctx = g (s.ctx y.ctx) := fun {v t g} h ht => by
        rw [State.ctx, (hcall h).2]
        refine (ctx_updCtx_same t y.ctx g).trans ?_
        rw [State.ctx, ht, State.ctx]
      refine ⟨fun k hk hrecord => (hother k hk hrecord).trans (by rw [hmem]), fun h => ?_, fun h => ?_, fun h hknown => ?_,
        fun h hunknown => ?_, fun h hbad => ?_, fun h h0 hsize hzone hr => ?_⟩
      · exact hquiet (by rw [h]; exact syscall_null u _ _ _ _) (by decide)
      · exact hquiet (syscall_unlisted u _ _ _ _ h) (by decide)
      · have hfree := syscall_free u y.ctx y.core a1 (a0 := a0) (by rwa [hctx])
        rw [← h] at hfree
        exact ⟨(hcall hfree).1, congrArg Ctx.allocs (hallocs hfree hcontexts)⟩
      · exact hquiet (by rw [h]; exact syscall_free_unknown u y.ctx y.core a1 (by rwa [hctx])) (by decide)
      · exact hquiet (by rw [h]; exact syscall_alloc_refused u y.ctx y.core hbad) (by decide)
      · obtain hnone | ⟨va, hok, hsome⟩ := syscall_alloc u y.ctx y.core h0 hsize hzone
        · rw [← h] at hnone
          exact absurd (hcall hnone).1 hr
        · rw [← h] at hsome
          obtain ⟨haligned, hlow, htop, hfree⟩ := blockOk_spec hok
          rw [hctx] at hlow htop hfree
          obtain ⟨hfits, hpage, hleast, hpower⟩ := blockSize_bounds hsize
          have hheap : (s.ctx y.ctx).heap.2 ≤ 2 ^ 56 := min_le_right _ _
          have hva : r = va := (hcall hsome).1.trans (Nat.mod_eq_of_lt (by omega))
          rw [hva]
          exact ⟨blockSize a0, hfits, hpage, hleast, hpower, haligned, congrArg Ctx.allocs (hallocs hsome hcontexts), hlow, htop, hfree⟩
  · intro s y hfind hdone horphan hpresent hcalm hwf p
    have hcopy := execSyscallResultCopy_eq hfind hdone horphan hpresent
    obtain ⟨hlanes, hsyscs, hready, hops⟩ := acquire_keeps (s.resultsCopied y) y.frag p .dev
    rw [settle_of_calm (hready.trans hcalm)] at hcopy
    refine ⟨_, hcopy, fun l hl => ?_, fun l v hl hother => ?_, fun x hx => ?_, fun o ho => ?_, fun hcons => ?_⟩
    · intro r
      rw [hlanes, phr_resultsCopied]
      exact lanes_putLanes_pair _ hl
    · rw [hlanes, phr_resultsCopied]
      exact lanes_putLanes_pair_other _ hl hother
    · rw [hsyscs] at hx
      simpa using (List.mem_filter.1 hx).2
    · by_cases hkind : o.kind = .unit
      · left
        simpa using (List.mem_filter.1 (hops o ho hkind)).2
      · exact .inr hkind
    · obtain ⟨cons, hmem⟩ := mem_resultsCopied s y
      obtain ⟨hstate, -⟩ := state_written hwf y.entry 0 (by decide)
      rw [acquire_mem, hmem, readNat_congr fun i hi => ?_, hstate]
      exact readByte_writeNat_other _ (by omega) (writeNat_wf _ _ _ hwf)

/-- Settles O30: a slot grant and a record's delivery are one update each; a ring's service is one of its steps, of which each has its
lemma, and so have the calls. -/
theorem slotsAndSystemCalls : Obligations.SlotsAndSystemCalls := by
  unfold Obligations.SlotsAndSystemCalls
  exact ⟨slotsAndRecords, systemCalls⟩

end Sys2Proof

/-!
# The management page (O38)
-/
namespace Sys2Proof.Machine

/-! ### Who writes (R482, R484, R486) -/

theorem takes_iff (s : State) (r : PageReq) : s.takes r = true ↔ (s.hostPort r.hp).tdisp ≠ .run ∨ r.tbit = true := by
  simp [State.takes]

/-- A port holds the lease while it is valid, of that port, and not over. -/
theorem isHolder_iff (s : State) (hp : Bool) : s.isHolder hp = true ↔
    s.host.lease.valid = true ∧ s.host.lease.holder = hp ∧ s.dtime < s.host.lease.expiry := by
  simp only [State.isHolder, State.leaseHeld, Bool.and_eq_true, decide_eq_true_eq, beq_iff_eq]
  tauto

theorem locked_iff (s : State) (hp : Bool) : s.locked hp = true ↔ (s.hostPort hp).tdisp ≠ .unlocked := by simp [State.locked]

theorem pageWrite_takes {s : State} {r : PageReq} (h : s.takes r = true) (done : State) : s.pageWrite r done = .next done :=
  congrArg Host.Outcome.next (if_pos h)

theorem pageWrite_drops {s : State} {r : PageReq} (h : s.takes r = false) (done : State) :
    s.pageWrite r done = .next { s with host := { s.host with out := s.host.out ++ [.dropped r.hp] } } :=
  congrArg Host.Outcome.next (if_neg (by simp [h]))

theorem field_eq_extractLsb' {w : Nat} (x : BitVec w) (lo len : Nat) : field x lo len = (x.extractLsb' lo len).toNat :=
  (BitVec.extractLsb'_toNat ..).symm

/-! ### The rows of the page's registers -/

section
variable {s : State} {hp tb : Bool} (h : s.takes ⟨hp, tb⟩ = true)
include h

theorem exec_leaseWrite (v : Word) : exec (.leaseWrite ⟨hp, tb⟩ v) s = .next (s.writeLease hp (v ||| wordOf (2 ^ 63))) := pageWrite_takes h _
theorem exec_leaseRelease : exec (.leaseRelease ⟨hp, tb⟩) s = .next (s.writeLease hp 0) := pageWrite_takes h _
theorem exec_standby (on : Bool) : exec (.standby ⟨hp, tb⟩ on) s = .next (s.setStandby hp on) := pageWrite_takes h _
theorem exec_goneClear : exec (.goneClear ⟨hp, tb⟩) s = .next (s.clearGone hp) := pageWrite_takes h _
theorem exec_hrestart : exec (.hrestart ⟨hp, tb⟩) s = .next (s.restartHost hp) := pageWrite_takes h _

theorem exec_lqcfgWrite (q : BitVec 6) (v : Word) : exec (.lqcfgWrite ⟨hp, tb⟩ q v) s =
    .next (if s.isHolder hp && !s.locked hp then s.writeLqcfg q.toNat v else s) := pageWrite_takes h _

theorem exec_pcfgWrite (n w : BitVec 3) (v : Word) : exec (.pcfgWrite ⟨hp, tb⟩ n w v) s =
    .next (if s.isHolder hp then s.writePcfg n.toNat w.toNat v else s) := pageWrite_takes h _

theorem exec_frzrel (core : Nat) : exec (.frzrel ⟨hp, tb⟩ core) s = .next (if s.isHolder hp then s.release core else s) :=
  pageWrite_takes h _

theorem exec_npctlWrite (np : BitVec 11) (v : Word) : exec (.npctlWrite ⟨hp, tb⟩ np v) s =
    .next (if s.isHolder hp && !s.locked hp then s.writeNpctl np.toNat v else s) := pageWrite_takes h _

theorem exec_expwinWrite (win : BitVec 4) (w : BitVec 3) (v : Word) : exec (.expwinWrite ⟨hp, tb⟩ win w v) s =
    .next (if s.isHolder hp && !s.locked hp then s.writeExpwin win.toNat w.toNat v else s) := pageWrite_takes h _

theorem exec_counterClear (port ctr : BitVec 4) : exec (.counterClear ⟨hp, tb⟩ port ctr) s =
    .next (if s.isHolder hp then s.zeroCounter port.toNat ctr.toNat else s) := pageWrite_takes h _

theorem exec_keySlotRequest (r : KeyReq) : exec (.keySlotRequest ⟨hp, tb⟩ r) s = .next (if s.isHolder hp then s.setKeySlot r else s) :=
  pageWrite_takes h _

theorem exec_featonWrite (f : BitVec 128) : exec (.featonWrite ⟨hp, tb⟩ f) s = .next (if s.isHolder hp then s.writeFeaton f else s) :=
  pageWrite_takes h _

theorem exec_poolrel (v : Word) : exec (.poolrel ⟨hp, tb⟩ v) s = .next (if s.isHolder hp then s.writePoolrel v else s) :=
  pageWrite_takes h _

theorem exec_registerWrite {o : Nat} (ho : o < 0x10000) (v : Word) :
    exec (.registerWrite ⟨hp, tb⟩ (BitVec.ofNat 16 o) v) s = .next (s.writeRegister hp o v) := by
  have hoff : (BitVec.ofNat 16 o).toNat = o := by rw [BitVec.toNat_ofNat]; exact Nat.mod_eq_of_lt ho
  refine (pageWrite_takes h _).trans ?_
  rw [hoff]

end

/-! ### Words of the page -/

/-- The bits of a number of which bit 32 is told apart from those below and above it. -/
theorem testBit_around {h c lo : Nat} (hc : c ≤ 1) (hlo : lo < 2 ^ 32) (b : Nat) : (2 ^ 32 * (2 * h + c) + lo).testBit b =
    if b < 32 then lo.testBit b else if b = 32 then decide (c = 1) else h.testBit (b - 33) := by
  rw [Nat.testBit_two_pow_mul_add _ hlo]
  split
  · rfl
  · split
    · next hb =>
      rw [hb, Nat.sub_self, Nat.testBit_zero]
      congr 1
      exact propext (by omega)
    · next hlow hb =>
      rw [show b - 32 = (b - 33) + 1 by omega, Nat.testBit_succ]
      congr 1
      omega

/-- A write of bit 32 of a word changes that bit only. -/
theorem getLsbD_setField_bit (x : Word) (m : Bool) (b : Nat) :
    (setField x 32 1 (bit m)).getLsbD b = if b = 32 then m else x.getLsbD b := by
  have hlow : x.toNat % 2 ^ 32 < 2 ^ 32 := Nat.mod_lt _ (by decide)
  have hbit : bit m ≤ 1 := by cases m <;> decide
  have hset : bit m = 1 ↔ m = true := by cases m <;> decide
  have hlt := x.isLt
  have hold : x.toNat = 2 ^ 32 * (2 * (x.toNat / 2 ^ 33) + x.toNat / 2 ^ 32 % 2) + x.toNat % 2 ^ 32 := by omega
  have hnew : (setField x 32 1 (bit m)).toNat = 2 ^ 32 * (2 * (x.toNat / 2 ^ 33) + bit m) + x.toNat % 2 ^ 32 := by
    rw [setField, BitVec.toNat_ofNat, field, Nat.shiftRight_eq_div_pow]
    omega
  have hx := testBit_around (h := x.toNat / 2 ^ 33) (c := x.toNat / 2 ^ 32 % 2) (by omega) hlow b
  rw [← hold] at hx
  rw [BitVec.getLsbD, BitVec.getLsbD, hnew, testBit_around hbit hlow, hx]
  by_cases hb : b = 32
  · simp [hb, hset]
  · simp [hb]

theorem at'_bit (x : Bool) (n : Nat) : at' (bit x) n = if x = true then 2 ^ n else 0 := by cases x <;> simp [at', bit]

/-- Two halves of a word, the low one first. -/
theorem wordOf_halves (lo hi : BitVec 32) : wordOf (lo.toNat + at' hi.toNat 32) = hi ++ lo := by
  apply BitVec.eq_of_toNat_eq
  rw [BitVec.toNat_append, wordOf, BitVec.toNat_ofNat, at', ← Nat.shiftLeft_add_eq_or_of_lt lo.isLt, Nat.shiftLeft_eq]
  have hlo := lo.isLt
  have hhi := hi.isLt
  omega

theorem nth_eq_getElem? {α : Type} (d : α) (l : List α) (n : Nat) : nth d l n = l[n]?.getD d := List.getD_eq_getElem?_getD ..

/-! ### Reads of the page (R9, R484) -/

section
variable (s : State) (hp : Bool) {o n k : Nat}

theorem pageRead_unaligned (h : o % 8 ≠ 0) : s.pageRead hp o = 0 := by
  unfold State.pageRead
  simp only [bne_iff_ne, if_pos h]

theorem pageRead_above (h : 0xF000 ≤ o) : s.pageRead hp o = 0 := by
  by_cases haligned : o % 8 = 0
  · unfold State.pageRead
    simp (disch := omega) only [Bool.and_eq_true, decide_eq_true_eq, beq_iff_eq, bne_iff_ne, ne_eq, if_neg]
  · exact pageRead_unaligned s hp haligned

theorem pageRead_lqcfg (ho : o = 0x1000 + 8 * n) (hn : n < 64) : s.pageRead hp o = (s.lq n).word := by
  unfold State.pageRead
  simp (disch := omega) only [Bool.and_eq_true, decide_eq_true_eq, beq_iff_eq, bne_iff_ne, ne_eq, if_pos, if_neg]
  rw [show (o - 0x1000) / 8 = n by omega]

theorem pageRead_pcfg (ho : o = 0x2000 + 64 * n + 8 * k) (hn : n < 8) (hk : k < 8) : s.pageRead hp o = (s.part n).read k := by
  unfold State.pageRead
  simp (disch := omega) only [Bool.and_eq_true, decide_eq_true_eq, beq_iff_eq, bne_iff_ne, ne_eq, if_pos, if_neg]
  rw [show (o - 0x2000) / 64 = n by omega, show o % 64 / 8 = k by omega]

theorem pageRead_frzrel (ho : o = 0x3000 + 8 * n) (hn : n < 24) : s.pageRead hp o = 0 := by
  unfold State.pageRead
  simp (disch := omega) only [Bool.and_eq_true, decide_eq_true_eq, beq_iff_eq, bne_iff_ne, ne_eq, if_neg]

theorem pageRead_cs (ho : o = 0x4000 + 64 * n + 8 * k) (hn : n < 16) (hk : k < 8) : s.pageRead hp o = (s.cs n).read k := by
  unfold State.pageRead
  simp (disch := omega) only [Bool.and_eq_true, decide_eq_true_eq, beq_iff_eq, bne_iff_ne, ne_eq, if_pos, if_neg]
  rw [show (o - 0x4000) / 64 = n by omega, show o % 64 / 8 = k by omega]

theorem pageRead_counter (ho : o = 0x5000 + 128 * n + 8 * k) (hn : n < 16) (hk : k < 16) :
    s.pageRead hp o = wordOf (tget 0 (s.fport n).counters k) := by
  unfold State.pageRead
  simp (disch := omega) only [Bool.and_eq_true, decide_eq_true_eq, beq_iff_eq, bne_iff_ne, ne_eq, if_pos, if_neg]
  rw [show (o - 0x5000) / 128 = n by omega, show o % 128 / 8 = k by omega]

theorem pageRead_expwin (ho : o = 0x6000 + 64 * n + 8 * k) (hn : n < 16) (hk : k < 8) :
    s.pageRead hp o = (tget {} s.host.exp n).read k := by
  unfold State.pageRead
  simp (disch := omega) only [Bool.and_eq_true, decide_eq_true_eq, beq_iff_eq, bne_iff_ne, ne_eq, if_pos, if_neg]
  rw [show (o - 0x6000) / 64 = n by omega, show o % 64 / 8 = k by omega]

theorem pageRead_hwin (ho : o = 0x7000 + 8 * n) (hn : n < 16) : s.pageRead hp o = tget 0 s.host.hwin n := by
  unfold State.pageRead
  simp (disch := omega) only [Bool.and_eq_true, decide_eq_true_eq, beq_iff_eq, bne_iff_ne, ne_eq, if_pos, if_neg]
  rw [show (o - 0x7000) / 8 = n by omega]

theorem pageRead_pool (ho : o = 0x8000 + 8 * n) (hn : n < 32) : s.pageRead hp o = s.pool.read n := by
  unfold State.pageRead
  simp (disch := omega) only [Bool.and_eq_true, decide_eq_true_eq, beq_iff_eq, bne_iff_ne, ne_eq, if_pos, if_neg]
  rw [show (o - 0x8000) / 8 = n by omega]

theorem pageRead_npctl (ho : o = 0x9000 + 8 * n) (hn : n < 2048) : s.pageRead hp o = (s.nport n).ctl := by
  unfold State.pageRead
  simp (disch := omega) only [Bool.and_eq_true, decide_eq_true_eq, beq_iff_eq, bne_iff_ne, ne_eq, if_pos, if_neg]
  rw [show (o - 0x9000) / 8 = n by omega]

theorem pageRead_keyreq (ho : o = 0xD000 + 8 * n) (hn : n < 8) : s.pageRead hp o = tget 0 s.host.keyreq n := by
  unfold State.pageRead
  simp (disch := omega) only [Bool.and_eq_true, decide_eq_true_eq, beq_iff_eq, bne_iff_ne, ne_eq, if_pos, if_neg]
  rw [show (o - 0xD000) / 8 = n by omega]

theorem pageRead_msix (ho : o = 0xE000 + 8 * n) (hn : n < 32) : s.pageRead hp o = (s.hostPort hp).msixWord n := by
  unfold State.pageRead
  simp (disch := omega) only [Bool.and_eq_true, decide_eq_true_eq, beq_iff_eq, bne_iff_ne, ne_eq, if_pos, if_neg]
  rw [show (o - 0xE000) / 8 = n by omega]

end

theorem lease_word (l : Lease) : l.word =
    BitVec.ofNat 64 ((if l.valid = true then 2 ^ 63 else 0) + (if l.holder = true then 2 ^ 62 else 0) + l.expiry % 2 ^ 62) := by
  simp only [Lease.word, at'_bit, wordOf]

theorem hstat_eq (p : HostPort) : p.hstat =
    BitVec.ofNat 64 ((if p.linkup = true then 2 ^ 0 else 0) + (if p.gone = true then 2 ^ 1 else 0)) := by
  rw [HostPort.hstat, at'_bit]
  rfl

theorem launchQ_word (q : LaunchQ) : q.word = BitVec.ofNat 64 ((if q.en = true then 2 ^ 31 else 0) + q.part * 2 ^ 24 + q.items.length) := by
  simp only [LaunchQ.word, ← at'_bit, at', wordOf]

theorem nounPort_ctl (p : NounPort) : p.ctl = BitVec.ofNat 64 ((if p.en = true then 2 ^ 63 else 0) + p.ctx) := by
  simp only [NounPort.ctl, at'_bit, wordOf]

theorem pool_read_extent {p : Pool} {n : Nat} {e : Nat × Nat} (h : tfind p.extents n = some e) :
    p.read (n + 4) = BitVec.ofNat 64 (e.1 % 2 ^ 32 + e.2 % 2 ^ 32 * 2 ^ 32) := by
  simp only [Pool.read, Nat.add_sub_cancel, h, at', wordOf]

theorem msixWord_even (p : HostPort) (n : Nat) : p.msixWord (2 * n) = tget 0 p.table (2 * n) := by
  simp [HostPort.msixWord]

theorem msixWord_odd (p : HostPort) (n : Nat) :
    p.msixWord (2 * n + 1) = setField (tget 0 p.table (2 * n + 1)) 32 1 (bit (p.mask.getLsbD n)) := by
  simp [HostPort.msixWord, Nat.add_mod, show (2 * n + 1) / 2 = n by omega]

theorem msixWord_odd_bit (p : HostPort) (n b : Nat) : (p.msixWord (2 * n + 1)).getLsbD b =
    if b = 32 then p.mask.getLsbD n else (tget 0 p.table (2 * n + 1)).getLsbD b := by
  rw [msixWord_odd, getLsbD_setField_bit]

/-- EXPWIN's words of imports hold two each. -/
theorem expWin_read_imports (x : ExpWin) :
    x.read 3 = (x.imps[1]?.getD 0 : BitVec 32) ++ (x.imps[0]?.getD 0 : BitVec 32) ∧
    x.read 4 = (x.imps[3]?.getD 0 : BitVec 32) ++ (x.imps[2]?.getD 0 : BitVec 32) := by
  simp only [ExpWin.read, wordOf_halves, nth_eq_getElem?, and_self]

/-! ### Writes by offset (R484) -/

section
variable (s : State) (hp : Bool) {o n k : Nat} (v : Word)

theorem writeRegister_unaligned (h : o % 8 ≠ 0) : s.writeRegister hp o v = s := by
  unfold State.writeRegister
  simp only [bne_iff_ne, if_pos h]

/-- Registers from 0x100 up, but for the MSI-X table, are the lease holder's. -/
theorem writeRegister_holder (haligned : o % 8 = 0) (hlow : 0x100 ≤ o) (htop : o < 0xE000) :
    s.writeRegister hp o v = if s.isHolder hp = true then s.holderWrite hp o v else s := by
  have hbit : bit hp ≤ 1 := by cases hp <;> decide
  unfold State.writeRegister
  simp (disch := omega) only [Bool.and_eq_true, decide_eq_true_eq, beq_iff_eq, bne_iff_ne, ne_eq, if_neg]

theorem writeRegister_msix (ho : o = 0xE000 + 8 * n) (hn : n < 32) : s.writeRegister hp o v = s.writeMsix hp n v := by
  have hbit : bit hp ≤ 1 := by cases hp <;> decide
  unfold State.writeRegister
  simp (disch := omega) only [Bool.and_eq_true, decide_eq_true_eq, beq_iff_eq, bne_iff_ne, ne_eq, if_pos, if_neg]
  rw [show (o - 0xE000) / 8 = n by omega]

theorem writeRegister_lease : s.writeRegister hp 0 v = s.writeLease hp v := rfl
theorem writeRegister_standby : s.writeRegister hp 8 v = s.setStandby hp (v.getLsbD (bit hp)) := rfl

theorem writeRegister_hstat : s.writeRegister hp (if hp then 0x18 else 0x10) v = if v.getLsbD 1 = true then s.clearGone hp else s := by
  cases hp <;> rfl

/-- A port does not clear the other's GONE. -/
theorem writeRegister_hstat_other : s.writeRegister hp (if hp then 0x10 else 0x18) v = s := by
  have hnone : ∀ p, s.holderWrite p 0x10 v = s ∧ s.holderWrite p 0x18 v = s := fun _ => ⟨rfl, rfl⟩
  cases hp
  · exact (if_congr Iff.rfl (hnone false).2 rfl).trans (ite_self s)
  · exact (if_congr Iff.rfl (hnone true).1 rfl).trans (ite_self s)

theorem writeRegister_hrestart : s.writeRegister hp 0x20 v = if v = 1 then s.restartHost hp else s := by
  have hrow : s.writeRegister hp 0x20 v = if (v == 1) = true then s.restartHost hp else s := by cases hp <;> rfl
  simpa only [beq_iff_eq] using hrow

theorem holderWrite_lqcfg (ho : o = 0x1000 + 8 * n) (hn : n < 64) :
    s.holderWrite hp o v = if s.locked hp = true then s else s.writeLqcfg n v := by
  unfold State.holderWrite
  simp (disch := omega) only [Bool.and_eq_true, Bool.or_eq_true, decide_eq_true_eq, beq_iff_eq, if_pos, if_neg]
  rw [show (o - 0x1000) / 8 = n by omega]

theorem holderWrite_pcfg (ho : o = 0x2000 + 64 * n + 8 * k) (hn : n < 8) (hk : k < 8) : s.holderWrite hp o v = s.writePcfg n k v := by
  unfold State.holderWrite
  simp (disch := omega) only [Bool.and_eq_true, Bool.or_eq_true, decide_eq_true_eq, beq_iff_eq, if_pos, if_neg]
  rw [show (o - 0x2000) / 64 = n by omega, show o % 64 / 8 = k by omega]

theorem holderWrite_frzrel (ho : o = 0x3000 + 8 * n) (hn : n < 24) : s.holderWrite hp o v = s.writeFrzrel n v := by
  unfold State.holderWrite
  simp (disch := omega) only [Bool.and_eq_true, Bool.or_eq_true, decide_eq_true_eq, beq_iff_eq, if_pos, if_neg]
  rw [show (o - 0x3000) / 8 = n by omega]

theorem holderWrite_cs (ho : o = 0x4000 + 64 * n + 8 * k) (hn : n < 16) (hk : k < 8) : s.holderWrite hp o v = s.writeCs n k v := by
  unfold State.holderWrite
  simp (disch := omega) only [Bool.and_eq_true, Bool.or_eq_true, decide_eq_true_eq, beq_iff_eq, if_pos, if_neg]
  rw [show (o - 0x4000) / 64 = n by omega, show o % 64 / 8 = k by omega]

theorem holderWrite_counter (ho : o = 0x5000 + 128 * n + 8 * k) (hn : n < 16) (hk : k < 16) :
    s.holderWrite hp o v = s.zeroCounter n k := by
  unfold State.holderWrite
  simp (disch := omega) only [Bool.and_eq_true, Bool.or_eq_true, decide_eq_true_eq, beq_iff_eq, if_pos, if_neg]
  rw [show (o - 0x5000) / 128 = n by omega, show o % 128 / 8 = k by omega]

theorem holderWrite_expwin (ho : o = 0x6000 + 64 * n + 8 * k) (hn : n < 16) (hk : k < 8) :
    s.holderWrite hp o v = if s.locked hp = true then s else s.writeExpwin n k v := by
  unfold State.holderWrite
  simp (disch := omega) only [Bool.and_eq_true, Bool.or_eq_true, decide_eq_true_eq, beq_iff_eq, if_pos, if_neg]
  rw [show (o - 0x6000) / 64 = n by omega, show o % 64 / 8 = k by omega]

theorem holderWrite_hwin (ho : o = 0x7000 + 8 * n) (hn : n < 16) :
    s.holderWrite hp o v = if s.locked hp = true then s else s.writeHwin n v := by
  unfold State.holderWrite
  simp (disch := omega) only [Bool.and_eq_true, Bool.or_eq_true, decide_eq_true_eq, beq_iff_eq, if_pos, if_neg]
  rw [show (o - 0x7000) / 8 = n by omega]

theorem holderWrite_npctl (ho : o = 0x9000 + 8 * n) (hn : n < 2048) :
    s.holderWrite hp o v = if s.locked hp = true then s else s.writeNpctl n v := by
  unfold State.holderWrite
  simp (disch := omega) only [Bool.and_eq_true, Bool.or_eq_true, decide_eq_true_eq, beq_iff_eq, if_pos, if_neg]
  rw [show (o - 0x9000) / 8 = n by omega]

theorem holderWrite_keyreq (ho : o = 0xD000 + 8 * n) (hn : n < 8) : s.holderWrite hp o v = s.writeKeyreq n v := by
  unfold State.holderWrite
  simp (disch := omega) only [Bool.and_eq_true, Bool.or_eq_true, decide_eq_true_eq, beq_iff_eq, if_pos, if_neg]
  rw [show (o - 0xD000) / 8 = n by omega]

theorem holderWrite_poolrel : s.holderWrite hp 0x8100 v = s.writePoolrel v := rfl

end

/-! ### The lease, freezes and doorbells by offset -/

/-- A write with VALID set is the row that takes the lease. -/
theorem or_valid {v : Word} (h : v.getLsbD 63 = true) : v ||| wordOf (2 ^ 63) = v := by
  apply BitVec.eq_of_getLsbD_eq
  intro i hi
  have hpow : (wordOf (2 ^ 63)).getLsbD i = decide (63 = i) := by
    rw [wordOf, BitVec.getLsbD_ofNat, Nat.testBit_two_pow]
    simp [hi]
  rw [BitVec.getLsbD_or, hpow]
  by_cases h63 : 63 = i
  · rw [← h63, h]; rfl
  · simp [h63]

/-- A write with VALID clear gives the lease up, whatever its other bits. -/
theorem writeLease_release (s : State) (hp : Bool) {v : Word} (h : v.getLsbD 63 = false) : s.writeLease hp v = s.writeLease hp 0 := by
  have h0 : (0 : Word).getLsbD 63 = false := by decide
  unfold State.writeLease
  simp only [h, h0, Bool.false_eq_true, if_false]

theorem filter_twoPow {b : Nat} (hb : b < 64) : ((List.range 64).filter fun i => (BitVec.twoPow 64 b).getLsbD i) = [b] := by
  have hone : ∀ i ∈ List.range 64, (BitVec.twoPow 64 b).getLsbD i = (i == b) := by
    intro i hi
    have hlt := List.mem_range.1 hi
    rw [BitVec.getLsbD_twoPow, Bool.eq_iff_iff]
    simp
    omega
  rw [List.filter_congr hone, List.filter_beq, List.count_eq_one_of_mem List.nodup_range (List.mem_range.2 hb)]
  rfl

theorem writeFrzrel_twoPow (s : State) (k : Nat) {b : Nat} (hb : b < 64) :
    s.writeFrzrel k (BitVec.twoPow 64 b) = s.release (64 * k + b) := by
  rw [State.writeFrzrel, filter_twoPow hb]
  rfl

/-- The doorbell of a slot is the row of the command that the slot holds. -/
theorem ring_of_is {s : State} {slot : BitVec 4} {op : Nat} {whole : Bool} (hop : (s.cs slot.toNat).op.toNat = op)
    (hwhole : (s.cs slot.toNat).whole = whole) : s.ring slot op whole = .next (s.doorbell slot.toNat) :=
  congrArg Host.Outcome.next (if_pos (by simp [hop, hwhole]))

/-- A busy slot hears no doorbell. -/
theorem writeCs_doorbell (s : State) (n : Nat) : s.writeCs n 7 1 = s.doorbell n := by
  unfold State.writeCs
  split
  · next hbusy => exact (if_pos hbusy).symm
  · rfl

/-- A register of the holder's that is locked with the interface. -/
theorem ite_holder_locked {α : Type} (h l : Bool) (a b : α) :
    (if h = true then (if l = true then a else b) else a) = if (h && !l) = true then b else a := by
  cases h <;> cases l <;> rfl

/-! ### Launch queues and partitions (R44, R160, R546) -/

@[simp] theorem lq_updLq_same (s : State) (q : Nat) (g : LaunchQ → LaunchQ) : (s.updLq q g).lq q = g (s.lq q) := tget_tput_same _ _ _ _
theorem lq_updLq_other (s : State) {q n : Nat} (g : LaunchQ → LaunchQ) (h : n ≠ q) : (s.updLq q g).lq n = s.lq n :=
  tget_tput_other _ _ _ (Ne.symm h)
@[simp] theorem part_updPart_same (s : State) (n : Nat) (g : Part → Part) : (s.updPart n g).part n = g (s.part n) := tget_tput_same _ _ _ _
theorem part_updPart_other (s : State) {n m : Nat} (g : Part → Part) (h : m ≠ n) : (s.updPart n g).part m = s.part m :=
  tget_tput_other _ _ _ (Ne.symm h)

/-- A queue that holds instances takes no other partition, and stays enabled. -/
def LaunchQ.refuses (q : LaunchQ) (en : Bool) (part : Nat) : Prop := q.items ≠ [] ∧ (q.part ≠ part ∨ (q.en = true ∧ en = false))

theorem writeLqcfg_refused {s : State} {q : Nat} {v : Word} (h : (s.lq q).refuses (v.getLsbD 31) (v.extractLsb' 24 3).toNat) :
    s.writeLqcfg q v = s := by
  obtain ⟨hitems, hchange⟩ := h
  unfold State.writeLqcfg
  simp only [field_eq_extractLsb']
  exact if_pos (by simpa [hitems] using hchange)

theorem writeLqcfg_accepted {s : State} {q : Nat} {v : Word} (h : ¬(s.lq q).refuses (v.getLsbD 31) (v.extractLsb' 24 3).toNat) :
    s.writeLqcfg q v = s.updLq q fun x => { x with en := v.getLsbD 31, part := (v.extractLsb' 24 3).toNat } := by
  unfold State.writeLqcfg
  simp only [field_eq_extractLsb']
  refine if_neg fun hc => h ?_
  simpa [LaunchQ.refuses] using hc

/-- The bits of a union of words. -/
theorem getLsbD_foldl_union (f : Nat → Word) (n c : Nat) (ms : List Nat) (w : Word) :
    (ms.foldl (fun w i => if i == n then w else w ||| f i) w).getLsbD c =
      (w.getLsbD c || ms.any fun m => decide (m ≠ n) && (f m).getLsbD c) := by
  induction ms generalizing w with
  | nil => simp
  | cons m ms ih =>
    rw [List.foldl_cons, ih, List.any_cons]
    by_cases hm : m = n
    · simp [hm]
    · simp [hm, Bool.or_assoc]

theorem getLsbD_takenClusters (s : State) (n c : Nat) : (s.takenClusters n).getLsbD c =
    (List.range 8).any fun m => decide (m ≠ n) && (s.part m).bitmap.getLsbD c := by
  rw [State.takenClusters, getLsbD_foldl_union (fun i => (s.part i).bitmap)]
  simp

section
variable (s : State) (n : Nat)

/-- Filling the claim pool of a partition changes neither its other words nor the other partitions. -/
theorem fillPool_bitmap : ((s.fillPool n).part n).bitmap = (s.part n).bitmap := by
  unfold State.fillPool
  exact (congrArg Part.bitmap (part_updPart_same _ n _)).trans rfl

theorem fillPool_part_other {m : Nat} (h : m ≠ n) : (s.fillPool n).part m = s.part m := by
  unfold State.fillPool
  exact (part_updPart_other _ _ h).trans rfl

/-- A bitmap is kept without the clusters of the other partitions. -/
theorem writePcfg_bitmap (v : Word) {c : Nat} (hc : c < 64) : ((s.writePcfg n 0 v).part n).bitmap.getLsbD c =
    (v.getLsbD c && !((List.range 8).any fun m => decide (m ≠ n) && (s.part m).bitmap.getLsbD c)) := by
  have hkept : ((s.writePcfg n 0 v).part n).bitmap = v &&& ~~~s.takenClusters n :=
    (fillPool_bitmap _ n).trans (congrArg Part.bitmap (part_updPart_same s n _))
  rw [hkept, BitVec.getLsbD_and, BitVec.getLsbD_not, getLsbD_takenClusters]
  simp [hc]

/-- A write of PCFG changes its own partition only. -/
theorem writePcfg_part_other (w : Nat) (v : Word) {m : Nat} (h : m ≠ n) : (s.writePcfg n w v).part m = s.part m := by
  unfold State.writePcfg
  split
  · rw [fillPool_part_other _ n h, part_updPart_other _ _ h]
  · exact part_updPart_other s _ h
  · exact part_updPart_other s _ h
  · exact part_updPart_other s _ h
  · rfl

end

/-- The words of PCFG above PBUDGET are reserved. -/
theorem writePcfg_reserved (s : State) (n : Nat) {w : Nat} (v : Word) (h : 4 ≤ w) : s.writePcfg n w v = s := by
  obtain ⟨k, rfl⟩ := Nat.exists_eq_add_of_le' h
  rfl

/-! ### Freezes (R431) -/

theorem ready_of_all {s : State} (h : ∀ e ∈ s.frags, e.2.ready = []) (k : Nat) : (s.frag k).ready = [] := by
  unfold State.frag
  revert h
  generalize s.frags = fs
  intro h
  induction fs with
  | nil => rfl
  | cons e fs ih =>
    rw [tget]
    split
    · exact h e List.mem_cons_self
    · exact ih fun e he => h e (List.mem_cons_of_mem _ he)

theorem foldl_settle_of_calm (ks : List Nat) {s : State} (h : ∀ k, (s.frag k).ready = []) : ks.foldl (fun s k => s.settle k) s = s := by
  induction ks with
  | nil => rfl
  | cons k ks ih => rw [List.foldl_cons, settle_of_calm (h k), ih]

theorem release_running {s : State} {core : Nat} (h : (s.core core).frozen = false) : s.release core = s :=
  if_pos (by simp [h])

/-- A core with no fault to take and no access outstanding goes on, and nothing else changes. -/
theorem release_calm {s : State} {core : Nat} (hfrozen : (s.core core).frozen = true) (hready : ∀ e ∈ s.frags, e.2.ready = [])
    (haccs : s.accs = []) : s.release core = s.updCore core fun c => { c with frozen := false } := by
  unfold State.release
  rw [if_neg (by simp [hfrozen])]
  extract_lets s1 ks s2
  have hs2 : s2 = s1 := foldl_settle_of_calm ks (s := s1) fun k => ready_of_all hready k
  have hnone : s1.accs = [] := haccs
  rw [hs2, hnone]
  rfl

/-! ### Export windows (R513) -/

/-- A word of which only a field's place is kept holds the field there. -/
theorem and_eq_field {m : Word} {lo len : Nat} (h : ∀ i < 64, m.getLsbD i = decide (lo ≤ i ∧ i < lo + len)) (v : Word) :
    v &&& m = (v.extractLsb' lo len).setWidth 64 <<< lo := by
  apply BitVec.eq_of_getLsbD_eq
  intro i hi
  rw [BitVec.getLsbD_and, h i hi, BitVec.getLsbD_shiftLeft, BitVec.getLsbD_setWidth, BitVec.getLsbD_extractLsb']
  by_cases hlo : lo ≤ i
  · simp [hi, hlo, show i - lo < 64 by omega, show i - lo < len ↔ i < lo + len by omega, Bool.and_comm]
  · simp [hlo, show i < lo by omega]

theorem setWidth_shift_eq_extractLsb' (v : Word) (k : Nat) : (v >>> k).setWidth 32 = v.extractLsb' k 32 := by
  apply BitVec.eq_of_getLsbD_eq
  intro i hi
  simp [hi]

section
variable (x : ExpWin) (v : Word)

theorem expWin_write_base : x.write 0 v = { x with base := (v.extractLsb' 12 40).setWidth 64 <<< 12 } :=
  congrArg (fun b => { x with base := b }) (and_eq_field (by decide) v)

theorem expWin_write_size : x.write 1 v = { x with size := (v.extractLsb' 12 52).setWidth 64 <<< 12 } :=
  congrArg (fun b => { x with size := b }) (and_eq_field (by decide) v)

theorem expWin_write_ctl :
    x.write 2 v = { x with ctl := (v.extractLsb' 0 4).setWidth 8, owner := (v.extractLsb' 32 20).toNat } := by
  have hctl : v.setWidth 8 &&& 0xF = (v.extractLsb' 0 4).setWidth 8 := by
    have hlow : ∀ i < 8, (0xF : BitVec 8).getLsbD i = decide (i < 4) := by decide
    apply BitVec.eq_of_getLsbD_eq
    intro i hi
    rw [BitVec.getLsbD_and, hlow i hi]
    simp [hi, Bool.and_comm]
  simp only [ExpWin.write, hctl, field_eq_extractLsb']

/-- The imports of a word: one of each half. -/
theorem imports_of_word : [importOf (v.setWidth 32), importOf ((v >>> 32).setWidth 32)] =
    [v.extractLsb' 0 32 &&& 0x800FFFFF, v.extractLsb' 32 32 &&& 0x800FFFFF] := by
  have hlow : v.setWidth 32 = v.extractLsb' 0 32 := by rw [← setWidth_shift_eq_extractLsb' v 0, BitVec.ushiftRight_zero]
  rw [importOf, importOf, setWidth_shift_eq_extractLsb', hlow]

theorem expWin_write_first_imports :
    (x.write 3 v).imps.take 2 = [v.extractLsb' 0 32 &&& 0x800FFFFF, v.extractLsb' 32 32 &&& 0x800FFFFF] :=
  imports_of_word v

theorem expWin_write_last_imports :
    ((x.write 4 v).imps.drop 2).take 2 = [v.extractLsb' 0 32 &&& 0x800FFFFF, v.extractLsb' 32 32 &&& 0x800FFFFF] := by
  rw [← imports_of_word]
  have htwo : ((takeFill 0 4 x.imps).take 2).length = 2 := by rw [List.length_take, takeFill_length]; rfl
  exact (congrArg (List.take 2) (List.drop_left' htwo)).trans rfl

end

/-! ### Host ports, vectors and noun ports (R484, R489, R492) -/

theorem hostPort_updHostPort (s : State) (hp h : Bool) (g : HostPort → HostPort) :
    (s.updHostPort hp g).hostPort h = if h = hp then g (s.hostPort h) else s.hostPort h := by cases hp <;> cases h <;> rfl

@[simp] theorem nport_updNport_same (s : State) (i : Nat) (g : NounPort → NounPort) : (s.updNport i g).nport i = g (s.nport i) :=
  tget_tput_same _ _ _ _

theorem nport_updNport_other (s : State) {i n : Nat} (g : NounPort → NounPort) (h : n ≠ i) : (s.updNport i g).nport n = s.nport n :=
  tget_tput_other _ _ _ (Ne.symm h)

theorem raised_raise (s : State) (v : Nat) : Raised s (s.raise v) v := by
  have hbit : BitVec.ofNat 16 (2 ^ v) = BitVec.twoPow 16 v := by
    apply BitVec.eq_of_toNat_eq
    rw [BitVec.toNat_ofNat, BitVec.toNat_twoPow]
  constructor
  · intro hcan
    rw [State.raise, if_pos hcan]
    exact ⟨rfl, rfl⟩
  · intro hcan
    rw [State.raise, if_neg (by simp [hcan]), ← hbit]
    exact ⟨rfl, rfl⟩

/-- A vector that is raised leaves the noun ports as they are. -/
theorem nport_raise (s : State) (v n : Nat) : (s.raise v).nport n = s.nport n := by
  unfold State.raise
  split
  · rfl
  · rfl

section
variable (s : State) (i : Nat)

/-- A port that is revoked: what it held goes. -/
def NounPort.revoked (p : NounPort) : NounPort :=
  { p with en := false, bound := none, busy := [], cmds := [], comps := [], slots := [], pfail := false }

/-- The operations and joins of a port's commands go. -/
def State.withoutSource (s : State) (i : Nat) : State :=
  { s with nouns := s.nouns.filter fun o => !srcIs (decide (i ≥ 1024)) (i % 1024) o.src
           joins := s.joins.filter fun j => !srcIs (decide (i ≥ 1024)) (i % 1024) j.src }

/-- The revocation of a port of which no thread is bound. -/
theorem revoke_unbound (hen : (s.nport i).en = true) (hbound : (s.nport i).bound = none) :
    s.revoke i = ((s.withoutSource i).updNport i NounPort.revoked).raise 3 := by
  unfold State.revoke
  simp only [hen, hbound, Bool.not_true, Bool.false_eq_true, if_false]
  rfl

/-- A write of NPCTL that keeps an enabled port enabled for its context revokes nothing. -/
theorem writeNpctl_keeps {v : Word} (h : (s.nport i).en = false ∨ (v.getLsbD 63 = true ∧ (s.nport i).ctx = (v.extractLsb' 0 20).toNat)) :
    s.writeNpctl i v = s.updNport i fun p => { p with en := v.getLsbD 63, ctx := (v.extractLsb' 0 20).toNat } := by
  unfold State.writeNpctl
  simp only [field_eq_extractLsb']
  rw [if_neg]
  rcases h with hen | ⟨hv, hctx⟩
  · simp [hen]
  · simp [hv, hctx]

/-- One that disables it, or gives it another context, revokes it. -/
theorem writeNpctl_revokes {v : Word} (hen : (s.nport i).en = true)
    (h : v.getLsbD 63 = false ∨ (s.nport i).ctx ≠ (v.extractLsb' 0 20).toNat) :
    s.writeNpctl i v = (s.revoke i).updNport i fun p => { p with en := v.getLsbD 63, ctx := (v.extractLsb' 0 20).toNat } := by
  unfold State.writeNpctl
  simp only [field_eq_extractLsb']
  rw [if_pos]
  simp only [Bool.and_eq_true, Bool.or_eq_true, bne_iff_ne, Bool.not_eq_true']
  exact ⟨hen, h.imp_right Ne.symm⟩

theorem nport_revoke_unbound (hen : (s.nport i).en = true) (hbound : (s.nport i).bound = none) (n : Nat) :
    (s.revoke i).nport n = if n = i then (s.nport i).revoked else s.nport n := by
  rw [revoke_unbound s i hen hbound, nport_raise]
  split
  · next h => rw [h]; exact (nport_updNport_same _ i _).trans rfl
  · next h => exact (nport_updNport_other _ _ h).trans rfl

theorem raised_revoke_unbound (hen : (s.nport i).en = true) (hbound : (s.nport i).bound = none) : Raised s (s.revoke i) 3 := by
  rw [revoke_unbound s i hen hbound]
  exact raised_raise ((s.withoutSource i).updNport i NounPort.revoked) 3

theorem revoke_unbound_mem (hen : (s.nport i).en = true) (hbound : (s.nport i).bound = none) : (s.revoke i).mem = s.mem := by
  rw [revoke_unbound s i hen hbound, raise_mem]
  rfl

end

/-! ### Counters, key slots and extents (R226, R373, R497) -/

@[simp] theorem fport_updFport_same (s : State) (n : Nat) (g : FPort → FPort) : (s.updFport n g).fport n = g (s.fport n) :=
  tget_tput_same _ _ _ _

theorem zeroCounter_written (s : State) (p : Nat) {c : Nat} (h : c < 8) :
    s.zeroCounter p c = s.updFport p fun p => { p with counters := tput c 0 p.counters } := if_pos h

theorem zeroCounter_readOnly (s : State) (p : Nat) {c : Nat} (h : 8 ≤ c) : s.zeroCounter p c = s := if_neg (by omega)

theorem writePoolrel_requested {s : State} {v : Word} (hvalid : v.getLsbD 63 = true) (hres : v.extractLsb' 5 58 = 0)
    (hheld : (tfind s.pool.extents (v.extractLsb' 0 5).toNat).isSome = true)
    (hnew : ∀ d ∈ s.pool.draining, d.1 ≠ (v.extractLsb' 0 5).toNat) : s.writePoolrel v =
    { s with pool := { s.pool with draining := s.pool.draining ++ [((v.extractLsb' 0 5).toNat, s.nextId)] } } := by
  unfold State.writePoolrel
  simp only [field_eq_extractLsb']
  refine if_pos ?_
  simp only [hvalid, hres, hheld, Bool.true_and, Bool.and_eq_true, Bool.not_eq_true', List.any_eq_false, beq_iff_eq]
  exact ⟨⟨rfl, trivial⟩, hnew⟩

theorem writePoolrel_ignored {s : State} {v : Word}
    (h : v.getLsbD 63 = false ∨ v.extractLsb' 5 58 ≠ 0 ∨ tfind s.pool.extents (v.extractLsb' 0 5).toNat = none) :
    s.writePoolrel v = s := by
  have hzero : (v.extractLsb' 5 58).toNat = 0 → v.extractLsb' 5 58 = 0 := fun h => BitVec.eq_of_toNat_eq h
  unfold State.writePoolrel
  simp only [field_eq_extractLsb']
  refine if_neg fun hc => ?_
  simp only [Bool.and_eq_true, beq_iff_eq] at hc
  obtain ⟨⟨⟨hvalid, hres⟩, hheld⟩, -⟩ := hc
  rcases h with h | h | h
  · exact absurd (h.symm.trans hvalid) Bool.false_ne_true
  · exact h (hzero hres)
  · rw [h] at hheld
    cases hheld

/-! ### Features (R544) -/

/-- What a write of FEATON sets: what is offered, without FULL. -/
def State.features (s : State) (f : BitVec 128) : BitVec 128 := f &&& s.featoff &&& ~~~2

/-- The features are set; those that are new hold from the next number on. -/
def State.withFeatures (s : State) (new : BitVec 128) : State :=
  s.updHost fun h => { h with
    feat := new
    featAt := ((List.range 8).filter fun b => new.getLsbD b && !s.host.feat.getLsbD b).foldl (fun t b => tput b s.nextId t) h.featAt }

def State.unlocked (s : State) : State :=
  (s.updHostPort false fun p => { p with tdisp := .unlocked }).updHostPort true fun p => { p with tdisp := .unlocked }

theorem writeFeaton_eq (s : State) (f : BitVec 128) : s.writeFeaton f =
    if (s.host.feat &&& ~~~s.features f != 0 && s.contexts.any fun e => e.2.resident) = true then s
    else if (s.features f).getLsbD 6 = true then s.withFeatures (s.features f) else (s.withFeatures (s.features f)).unlocked := rfl

theorem tget_featAt_withFeatures (s : State) (new : BitVec 128) {b : Nat} (hb : b < 8) : tget 0 (s.withFeatures new).host.featAt b =
    if new.getLsbD b && !s.host.feat.getLsbD b then s.nextId else tget 0 s.host.featAt b := by
  have hfold : (s.withFeatures new).host.featAt = (((List.range 8).filter fun b => new.getLsbD b && !s.host.feat.getLsbD b).map
      fun b => (b, s.nextId)).foldl (fun t w => tput w.1 w.2 t) s.host.featAt := by rw [List.foldl_map]; rfl
  rw [hfold]
  split
  · next hnew =>
    refine tget_foldl_tput 0 ?_ (Or.inl ⟨(b, s.nextId), ?_, rfl⟩)
    · intro w hw _
      obtain ⟨c, -, rfl⟩ := List.mem_map.1 hw
      rfl
    · exact List.mem_map.2 ⟨b, List.mem_filter.2 ⟨List.mem_range.2 hb, hnew⟩, rfl⟩
  · next hold =>
    refine tget_foldl_tput 0 ?_ (Or.inr rfl)
    intro w hw hwb
    obtain ⟨c, hc, rfl⟩ := List.mem_map.1 hw
    cases hwb
    exact absurd (List.mem_filter.1 hc).2 hold

theorem hostPort_unlocked (s : State) (h : Bool) : s.unlocked.hostPort h = { s.hostPort h with tdisp := .unlocked } := by
  cases h <;> rfl

/-! ### Pending vectors are delivered (R492) -/

/-- One vector's delivery. -/
def State.deliverVector (s : State) (v : Nat) : State :=
  if s.host.pending.getLsbD v && s.canRaise v then
    s.updHost fun h => { h with out := h.out ++ [.msi h.lease.holder v], pending := h.pending &&& ~~~BitVec.ofNat 16 (2 ^ v) }
  else s

/-- The event records that waited for a holder of the lease are given to it. -/
def State.deliverEvents (s : State) : State :=
  if s.leaseHeld then s.updHost fun h => { h with out := h.out ++ h.events.map fun r => .event h.lease.holder r, events := [] } else s

theorem deliverPending_eq (s : State) : s.deliverPending = (List.range 16).foldl State.deliverVector s.deliverEvents := rfl

/-- What delivery may change: it sends more, and fewer vectors are pending; the ports and the lease stand. -/
structure Delivers (s t : State) : Prop where
  host    : t = { s with host := t.host }
  ports   : ∀ hp, t.hostPort hp = s.hostPort hp
  lease   : t.host.lease = s.host.lease
  sent    : ∀ m ∈ s.host.out, m ∈ t.host.out
  pending : ∀ v, s.host.pending.getLsbD v = false → t.host.pending.getLsbD v = false

theorem Delivers.refl (s : State) : Delivers s s := ⟨rfl, fun _ => rfl, rfl, fun _ h => h, fun _ h => h⟩

theorem Delivers.trans {s t u : State} (h : Delivers s t) (h' : Delivers t u) : Delivers s u where
  host := by rw [h'.host, h.host]
  ports hp := (h'.ports hp).trans (h.ports hp)
  lease := h'.lease.trans h.lease
  sent m hm := h'.sent m (h.sent m hm)
  pending v hv := h'.pending v (h.pending v hv)

theorem Delivers.canRaise {s t : State} (h : Delivers s t) (v : Nat) : t.canRaise v = s.canRaise v := by
  have hclock : t.dtime = s.dtime := by rw [h.host]; rfl
  simp only [State.canRaise, State.leaseHeld, h.lease, h.ports, hclock]

theorem delivers_deliverEvents (s : State) : Delivers s s.deliverEvents := by
  unfold State.deliverEvents
  split
  · exact ⟨rfl, fun hp => by cases hp <;> rfl, rfl, fun m hm => List.mem_append_left _ hm, fun v hv => hv⟩
  · exact Delivers.refl s

theorem pending_deliverEvents (s : State) : s.deliverEvents.host.pending = s.host.pending := by
  unfold State.deliverEvents
  split
  · rfl
  · rfl

theorem deliverVector_sends {s : State} {v : Nat} (hpending : s.host.pending.getLsbD v = true) (hcan : s.canRaise v = true) :
    s.deliverVector v = s.updHost fun h =>
      { h with out := h.out ++ [.msi h.lease.holder v], pending := h.pending &&& ~~~BitVec.ofNat 16 (2 ^ v) } :=
  if_pos (by rw [hpending, hcan]; rfl)

theorem delivers_deliverVector (s : State) (v : Nat) : Delivers s (s.deliverVector v) := by
  unfold State.deliverVector
  split
  · refine ⟨rfl, fun hp => by cases hp <;> rfl, rfl, fun m hm => List.mem_append_left _ hm, fun w hw => ?_⟩
    exact (BitVec.getLsbD_and ..).trans (by rw [hw, Bool.false_and])
  · exact Delivers.refl s

theorem delivers_foldl (vs : List Nat) (s : State) : Delivers s (vs.foldl State.deliverVector s) := by
  induction vs generalizing s with
  | nil => exact Delivers.refl s
  | cons v vs ih => exact (delivers_deliverVector s v).trans (ih _)

theorem delivers_deliverPending (s : State) : Delivers s s.deliverPending :=
  (delivers_deliverEvents s).trans (delivers_foldl _ _)

theorem getLsbD_bitSet (x : BitVec 16) (w : Nat) {v : Nat} (hv : v < 16) :
    (x ||| BitVec.ofNat 16 (2 ^ w)).getLsbD v = (x.getLsbD v || decide (w = v)) := by
  rw [BitVec.getLsbD_or, BitVec.getLsbD_ofNat, Nat.testBit_two_pow, decide_eq_true hv, Bool.true_and]

theorem getLsbD_bitCleared (x : BitVec 16) (w : Nat) {v : Nat} (hv : v < 16) :
    (x &&& ~~~BitVec.ofNat 16 (2 ^ w)).getLsbD v = (x.getLsbD v && !decide (w = v)) := by
  rw [BitVec.getLsbD_and, BitVec.getLsbD_not, BitVec.getLsbD_ofNat, Nat.testBit_two_pow, decide_eq_true hv, Bool.true_and, Bool.true_and]

/-- A pending vector of 16 that the holder's port takes is sent to it, and is pending no more. -/
theorem foldl_delivered {vs : List Nat} {v : Nat} (hv : v ∈ vs) (hlt : v < 16) {s : State} (hpending : s.host.pending.getLsbD v = true)
    (hcan : s.canRaise v = true) : (vs.foldl State.deliverVector s).host.pending.getLsbD v = false ∧
      .msi s.host.lease.holder v ∈ (vs.foldl State.deliverVector s).host.out := by
  induction vs generalizing s with
  | nil => cases hv
  | cons w vs ih =>
    rw [List.foldl_cons]
    by_cases hw : w = v
    · have hrest := delivers_foldl vs (s.deliverVector w)
      rw [hw] at hrest ⊢
      refine ⟨hrest.pending v ?_, hrest.sent _ ?_⟩
      · rw [deliverVector_sends hpending hcan]
        exact (getLsbD_bitCleared _ v hlt).trans (by simp)
      · rw [deliverVector_sends hpending hcan]
        exact List.mem_append_right _ (List.mem_singleton.2 rfl)
    · have hstep := delivers_deliverVector s w
      rw [← hstep.lease]
      refine ih ((List.mem_cons.1 hv).resolve_left (Ne.symm hw)) ?_ ((hstep.canRaise v).trans hcan)
      unfold State.deliverVector
      split
      · exact (getLsbD_bitCleared _ w hlt).trans (by rw [hpending, decide_eq_false hw]; rfl)
      · exact hpending

theorem deliverPending_delivers {s : State} {v : Nat} (hlt : v < 16) (hpending : s.host.pending.getLsbD v = true)
    (hcan : s.canRaise v = true) :
    s.deliverPending.host.pending.getLsbD v = false ∧ .msi s.host.lease.holder v ∈ s.deliverPending.host.out := by
  have hevents := delivers_deliverEvents s
  rw [deliverPending_eq, ← hevents.lease]
  exact foldl_delivered (List.mem_range.2 hlt) hlt ((congrArg (BitVec.getLsbD · v) (pending_deliverEvents s)).trans hpending)
    ((hevents.canRaise v).trans hcan)

/-! ### The MSI-X table (R485, R492) -/

/-- A port whose MSI-X table has had a word written. -/
def HostPort.msixWritten (p : HostPort) (word : Nat) (v : Word) : HostPort :=
  { p with
    table := tput word v p.table
    mask := if word % 2 == 1 then
        (if v.getLsbD 32 then p.mask ||| BitVec.ofNat 16 (2 ^ (word / 2)) else p.mask &&& ~~~BitVec.ofNat 16 (2 ^ (word / 2)))
      else p.mask }

theorem writeMsix_eq (s : State) (hp : Bool) (k : Nat) (v : Word) :
    s.writeMsix hp k v = (s.updHostPort hp fun p => p.msixWritten k v).deliverPending := rfl

theorem msixWritten_mask (p : HostPort) (k : Nat) (v : Word) {b : Nat} (hb : b < 16) :
    (p.msixWritten k v).mask.getLsbD b = if k = 2 * b + 1 then v.getLsbD 32 else p.mask.getLsbD b := by
  unfold HostPort.msixWritten
  by_cases hodd : k % 2 = 1
  · have hplace : k / 2 = b ↔ k = 2 * b + 1 := by omega
    rw [if_pos (beq_iff_eq.2 hodd)]
    split
    · next hset =>
      rw [getLsbD_bitSet _ _ hb, hset]
      by_cases h : k = 2 * b + 1
      · simp [if_pos h, hplace.2 h]
      · simp [if_neg h, mt hplace.1 h]
    · next hclear =>
      rw [getLsbD_bitCleared _ _ hb, Bool.eq_false_iff.2 hclear]
      by_cases h : k = 2 * b + 1
      · simp [if_pos h, hplace.2 h]
      · simp [if_neg h, mt hplace.1 h]
  · rw [if_neg (by rw [beq_iff_eq]; exact hodd), if_neg (by omega)]

/-! ### Command slots and KEYREQ (R373, R485) -/

@[simp] theorem cs_updCs_same (s : State) (n : Nat) (g : CsCmd → CsCmd) : (s.updCs n g).cs n = g (s.cs n) := tget_tput_same _ _ _ _

theorem cs_updCs_other (s : State) {n j : Nat} (g : CsCmd → CsCmd) (h : j ≠ n) : (s.updCs n g).cs j = s.cs j :=
  tget_tput_other _ _ _ (Ne.symm h)

theorem writeCs_busy {s : State} {n : Nat} (k : Nat) (v : Word) (h : (s.cs n).busy = true) : s.writeCs n k v = s := if_pos h

theorem tget_tput {α : Type} (d : α) (k j : Nat) (v : α) (t : Tbl α) : tget d (tput k v t) j = if j = k then v else tget d t j := by
  split
  · next h => rw [h, tget_tput_same]
  · next h => rw [tget_tput_other _ _ _ (Ne.symm h)]

theorem setKeySlot_install (s : State) (slot : Nat) (key : BitVec 256) (ctx : Nat) (fixed : BitVec 32) :
    tget (⟨0, 0, 0⟩ : KeySlot) (s.setKeySlot (.install (BitVec.ofNat 10 slot) key (BitVec.ofNat 20 ctx) fixed)).host.keys (slot % 1024) =
      ⟨key, ctx % 2 ^ 20, fixed⟩ := by
  rw [← BitVec.toNat_ofNat ctx 20, show slot % 1024 = (BitVec.ofNat 10 slot).toNat from (BitVec.toNat_ofNat slot 10).symm]
  exact tget_tput_same _ _ _ _

theorem setKeySlot_erase (s : State) (slot : Nat) :
    tfind (s.setKeySlot (.erase (BitVec.ofNat 10 slot))).host.keys (slot % 1024) = none := by
  rw [show slot % 1024 = (BitVec.ofNat 10 slot).toNat from (BitVec.toNat_ofNat slot 10).symm]
  exact tfind_tdel _ _

theorem setKeySlot_host (s : State) (r : KeyReq) : s.setKeySlot r = { s with host := (s.setKeySlot r).host } ∧
    (s.setKeySlot r).host.keyreq = s.host.keyreq := by
  cases r with
  | install => exact ⟨rfl, rfl⟩
  | erase => exact ⟨rfl, rfl⟩

/-- The words of KEYREQ once one has been written. -/
def State.keyWords (s : State) (k : Nat) (v : Word) : List Word := (List.range 8).map fun i => if i = k then v else tget 0 s.host.keyreq i

def State.keepKeyWord (s : State) (k : Nat) (v : Word) : State := s.updHost fun h => { h with keyreq := tput k v h.keyreq }

section
variable {s : State} {k slot : Nat} {v : Word}

theorem keyWords_keepKeyWord (s : State) (k : Nat) (v : Word) :
    ((List.range 8).map fun i => tget 0 (s.keepKeyWord k v).host.keyreq i) = s.keyWords k v :=
  List.map_congr_left fun i _ => tget_tput 0 k i v s.host.keyreq

theorem writeKeyreq_idle (h : Config.keyRequest (s.keyWords k v) = none) : s.writeKeyreq k v = s.keepKeyWord k v := by
  rw [← keyWords_keepKeyWord] at h
  unfold State.writeKeyreq
  simp only [State.keepKeyWord] at h ⊢
  rw [h]

theorem writeKeyreq_installs {key : BitVec 256} {ctx : Nat} {fixed : BitVec 32}
    (h : Config.keyRequest (s.keyWords k v) = some (slot, some (key, ctx, fixed))) :
    s.writeKeyreq k v = (s.keepKeyWord k v).setKeySlot (.install (BitVec.ofNat 10 slot) key (BitVec.ofNat 20 ctx) fixed) := by
  rw [← keyWords_keepKeyWord] at h
  unfold State.writeKeyreq
  simp only [State.keepKeyWord] at h ⊢
  rw [h]

theorem writeKeyreq_erases (h : Config.keyRequest (s.keyWords k v) = some (slot, none)) :
    s.writeKeyreq k v = (s.keepKeyWord k v).setKeySlot (.erase (BitVec.ofNat 10 slot)) := by
  rw [← keyWords_keepKeyWord] at h
  unfold State.writeKeyreq
  simp only [State.keepKeyWord] at h ⊢
  rw [h]

end

end Sys2Proof.Machine

namespace Sys2Proof

open Machine

theorem untrustedWrites : Claims.UntrustedWrites := by
  unfold Claims.UntrustedWrites
  intro s hp on v q part w3 core np win port ctr off f r hrun
  have hdrops : s.takes ⟨hp, false⟩ = false := by
    rw [← Bool.not_eq_true, takes_iff]
    simp [hrun]
  simp only [List.forall_mem_cons, List.not_mem_nil, IsEmpty.forall_iff, implies_true, and_true]
  and_intros <;> exact pageWrite_drops hdrops _

theorem pageReads : Claims.PageReads := by
  unfold Claims.PageReads
  intro s hp r b L
  refine ⟨lease_word _, rfl, hstat_eq _, hstat_eq _, rfl, rfl, ?lqcfg, ?pcfg, ?cs, ?counter, ?hwin, ?expwin, ?keyreq, rfl, ?msix, ?npctl,
    ?pool, ?frzrel, rfl, rfl, fun o ho => pageRead_unaligned s hp ho, fun o ho => pageRead_above s hp ho, ?answers⟩
  case lqcfg => exact fun n hn => (pageRead_lqcfg s hp rfl hn).trans (launchQ_word _)
  case pcfg =>
    intro n hn
    have hword : ∀ k, k < 8 → r (0x2000 + 64 * n + 8 * k) = (s.part n).read k := fun k hk => pageRead_pcfg s hp rfl hn hk
    refine ⟨hword 0 (by decide), ?_, ?_, ?_⟩
    · exact pageRead_pcfg (k := 1) s hp (by omega) hn (by decide)
    · refine (pageRead_pcfg (k := 2) s hp (by omega) hn (by decide)).trans ?_
      rfl
    · exact pageRead_pcfg (k := 3) s hp (by omega) hn (by decide)
  case cs =>
    intro n hn
    refine ⟨fun k hk hne => (pageRead_cs s hp rfl hn hk).trans (if_neg (by simpa using hne)), ?_⟩
    exact pageRead_cs (k := 6) s hp (by omega) hn (by decide)
  case counter => exact fun p k hp' hk => pageRead_counter s hp rfl hp' hk
  case hwin => exact fun n hn => pageRead_hwin s hp rfl hn
  case keyreq => exact fun n hn => pageRead_keyreq s hp rfl hn
  case npctl => exact fun n hn => (pageRead_npctl s hp rfl hn).trans (nounPort_ctl _)
  case frzrel => exact fun k hk => pageRead_frzrel s hp rfl hk
  case expwin =>
    intro n hn x imp
    obtain ⟨h3, h4⟩ := expWin_read_imports x
    exact ⟨pageRead_expwin (k := 0) s hp (by omega) hn (by decide), pageRead_expwin (k := 1) s hp (by omega) hn (by decide),
      pageRead_expwin (k := 2) s hp (by omega) hn (by decide), (pageRead_expwin (k := 3) s hp (by omega) hn (by decide)).trans h3,
      (pageRead_expwin (k := 4) s hp (by omega) hn (by decide)).trans h4⟩
  case pool => exact fun n e hn he => (pageRead_pool (n := n + 4) s hp (by omega) (by omega)).trans (pool_read_extent he)
  case msix =>
    intro n hn
    have hodd := pageRead_msix (o := 0xE008 + 16 * n) (n := 2 * n + 1) s hp (by omega) (by omega)
    refine ⟨(pageRead_msix (n := 2 * n) s hp (by omega) (by omega)).trans (msixWord_even _ n), ?_, fun j hj => ?_⟩
    · exact (congrArg (BitVec.getLsbD · 32) hodd).trans ((msixWord_odd_bit _ n 32).trans (if_pos rfl))
    · exact (congrArg (BitVec.getLsbD · j) hodd).trans ((msixWord_odd_bit _ n j).trans (if_neg hj))
  case answers =>
    intro tb np o gets
    have htakes := takes_iff s ⟨hp, tb⟩
    refine ⟨fun h => ⟨if_pos (htakes.2 h), fun herror => ?_⟩, fun hrun htb => ⟨?_, ?_⟩, fun herror => ?_⟩
    · exact (if_neg (by simpa using herror)).trans (if_pos (htakes.2 h))
    · exact if_neg (mt htakes.1 (by simp [hrun, htb]))
    · exact (if_neg (by simp [hrun])).trans (if_neg (mt htakes.1 (by simp [hrun, htb])))
    · exact if_pos (by simp [herror])

theorem pageOffsets : Claims.PageOffsets := by
  unfold Claims.PageOffsets
  intro s hp tb v htakes w
  have ht : s.takes ⟨hp, tb⟩ = true := (takes_iff s _).2 htakes
  have hw : ∀ o, o < 0x10000 → w o = .next (s.writeRegister hp o v) := fun o ho => exec_registerWrite ht ho v
  refine ⟨?lease, ?standby, ?hstat, ?hstatOther, ?hrestart, ?lqcfg, ?pcfg, ?frzrel, ?counter, ?expwin, ?poolrel, ?npctl, ?ring, ?unaligned,
    ?notHolder⟩
  case lease =>
    rw [hw 0 (by decide), writeRegister_lease]
    split
    · next hvalid => rw [exec_leaseWrite ht, or_valid hvalid]
    · next hvalid => rw [exec_leaseRelease ht, writeLease_release s hp (by simpa using hvalid)]
  case standby =>
    rw [hw 8 (by decide), writeRegister_standby, exec_standby ht]
    rfl
  case hstat =>
    rw [hw _ (by cases hp <;> decide), writeRegister_hstat, exec_goneClear ht]
    split <;> rfl
  case hstatOther => rw [hw _ (by cases hp <;> decide), writeRegister_hstat_other]
  case hrestart =>
    rw [hw 0x20 (by decide), writeRegister_hrestart, exec_hrestart ht]
    split <;> rfl
  case lqcfg =>
    intro q
    have hq := q.isLt
    rw [hw _ (by omega), writeRegister_holder s hp v (by omega) (by omega) (by omega), holderWrite_lqcfg s hp v rfl hq, ite_holder_locked,
      exec_lqcfgWrite ht]
  case pcfg =>
    intro n x
    have hn := n.isLt
    have hx := x.isLt
    rw [hw _ (by omega), writeRegister_holder s hp v (by omega) (by omega) (by omega), holderWrite_pcfg s hp v rfl hn hx, exec_pcfgWrite ht]
  case frzrel =>
    rintro k b hk hb rfl
    rw [hw _ (by omega), writeRegister_holder s hp _ (by omega) (by omega) (by omega), holderWrite_frzrel s hp _ rfl hk,
      writeFrzrel_twoPow s k hb, exec_frzrel ht]
  case counter =>
    intro p c
    have hp' := p.isLt
    have hc := c.isLt
    rw [hw _ (by omega), writeRegister_holder s hp v (by omega) (by omega) (by omega), holderWrite_counter s hp v rfl hp' hc,
      exec_counterClear ht]
  case expwin =>
    intro n x
    have hn := n.isLt
    have hx := x.isLt
    rw [hw _ (by omega), writeRegister_holder s hp v (by omega) (by omega) (by omega), holderWrite_expwin s hp v rfl hn hx,
      ite_holder_locked, exec_expwinWrite ht]
  case poolrel =>
    rw [hw _ (by decide), writeRegister_holder s hp v (by decide) (by decide) (by decide), holderWrite_poolrel, exec_poolrel ht]
  case npctl =>
    intro n
    have hn := n.isLt
    rw [hw _ (by omega), writeRegister_holder s hp v (by omega) (by omega) (by omega), holderWrite_npctl s hp v rfl hn, ite_holder_locked,
      exec_npctlWrite ht]
  case ring =>
    rintro slot rfl hvalid hholder hexpiry c is ring
    have hslot := slot.isLt
    have hring : ring = .next (s.doorbell slot.toNat) := by
      have hholds : s.isHolder hp = true := (isHolder_iff s hp).2 ⟨hvalid, hholder, hexpiry⟩
      have hoff : 0x4038 + 64 * slot.toNat = 0x4000 + 64 * slot.toNat + 8 * 7 := by omega
      have hrow := hw (0x4038 + 64 * slot.toNat) (by omega)
      rwa [writeRegister_holder s hp 1 (by omega) (by omega) (by omega), if_pos hholds, holderWrite_cs s hp 1 hoff hslot (by decide),
        writeCs_doorbell] at hrow
    have hrow : ∀ (op : BitVec 8) (whole : Bool), is op whole → ring = s.ring slot op.toNat whole := fun op whole h =>
      hring.trans (ring_of_is (congrArg BitVec.toNat h.1) h.2).symm
    exact ⟨hrow 1 false, hrow 1 true, hrow 2 false, hrow 2 true, hrow 3 false, hrow 3 true, hrow 4 false, hrow 5 false⟩
  case unaligned =>
    intro o ho haligned
    rw [hw o ho, writeRegister_unaligned s hp v haligned]
  case notHolder =>
    intro o hlow htop hnot
    rw [hw o (by omega)]
    by_cases haligned : o % 8 = 0
    · rw [writeRegister_holder s hp v haligned hlow htop, if_neg (mt (isHolder_iff s hp).1 hnot)]
    · rw [writeRegister_unaligned s hp v haligned]

theorem registerWrites : Claims.RegisterWrites := by
  unfold Claims.RegisterWrites
  intro s hp tb v holds htakes free host
  have ht : s.takes ⟨hp, tb⟩ = true := (takes_iff s _).2 htakes
  have hlock : ¬ free → ¬(s.isHolder hp && !s.locked hp) = true := fun hnot => by simp [(locked_iff s hp).2 hnot]
  refine ⟨fun hnot => ?other, fun hholds => ?holder⟩
  case other =>
    have hno : s.isHolder hp = false := Bool.eq_false_iff.2 fun h => hnot ((isHolder_iff s hp).1 h)
    intro q part w3 core np win port ctr f r
    simp only [List.forall_mem_cons, List.not_mem_nil, false_implies, implies_true, and_true]
    refine ⟨?_, ?_, ?_, ?_, ?_, ?_, ?_, ?_, ?_⟩
    · rw [exec_lqcfgWrite ht, hno]; rfl
    · rw [exec_pcfgWrite ht, hno]; rfl
    · rw [exec_frzrel ht, hno]; rfl
    · rw [exec_npctlWrite ht, hno]; rfl
    · rw [exec_expwinWrite ht, hno]; rfl
    · rw [exec_counterClear ht, hno]; rfl
    · rw [exec_keySlotRequest ht, hno]; rfl
    · rw [exec_featonWrite ht, hno]; rfl
    · rw [exec_poolrel ht, hno]; rfl
  have hh : s.isHolder hp = true := (isHolder_iff s hp).2 hholds
  have hopen : free → (s.isHolder hp && !s.locked hp) = true := fun hfree => by
    rw [hh, Bool.eq_false_iff.2 fun h => (locked_iff s hp).1 h hfree]
    rfl
  refine ⟨?lqcfg, ?pcfg, ?frzrel, ?npctl, ?expwin, ?counter, ?install, ?erase, ?featon, ?poolrel⟩
  case lqcfg =>
    intro q L part
    constructor
    · rintro (hnot | hrefuses)
      · rw [exec_lqcfgWrite ht, if_neg (hlock hnot)]
      · rw [exec_lqcfgWrite ht, writeLqcfg_refused hrefuses, ite_self]
    · intro hfree haccepts
      rw [exec_lqcfgWrite ht, if_pos (hopen hfree), writeLqcfg_accepted haccepts]
      exact ⟨_, rfl, rfl, lq_updLq_same s _ _, fun n hn => lq_updLq_other s _ hn⟩
  case pcfg =>
    intro n w
    refine ⟨_, exec_pcfgWrite ht n w v, ?_⟩
    rw [if_pos hh]
    refine ⟨fun m hm => writePcfg_part_other s _ _ _ hm, writePcfg_mem _ _ _ _, ?_, ?_, ?_, ?_, fun hw => writePcfg_reserved s _ v hw⟩
    · rintro rfl c hc
      exact writePcfg_bitmap s n.toNat v hc
    · rintro rfl
      exact part_updPart_same s _ _
    · rintro rfl
      exact part_updPart_same s _ _
    · rintro rfl
      rw [← field_eq_extractLsb']
      exact part_updPart_same s _ _
  case frzrel =>
    intro core
    constructor
    · intro hrunning
      rw [exec_frzrel ht, if_pos hh, release_running hrunning]
    · intro hfrozen hready haccs
      refine ⟨_, exec_frzrel ht core, ?_⟩
      rw [if_pos hh, release_calm hfrozen hready haccs]
      exact ⟨rfl, core_updCore_same s _ _, fun n hn => core_updCore_other s _ hn⟩
  case npctl =>
    intro np
    refine ⟨fun hnot => ?_, fun hfree hkeeps => ?_, fun hfree hen hbound hrevokes => ?_⟩
    · rw [exec_npctlWrite ht, if_neg (hlock hnot)]
    · rw [exec_npctlWrite ht, if_pos (hopen hfree), writeNpctl_keeps s _ hkeeps]
      exact ⟨_, rfl, rfl, nport_updNport_same s _ _, fun n hn => nport_updNport_other s _ hn⟩
    · rw [exec_npctlWrite ht, if_pos (hopen hfree), writeNpctl_revokes s _ hen hrevokes]
      refine ⟨_, rfl, ?_⟩
      beta_reduce
      rw [nport_updNport_same, nport_revoke_unbound s _ hen hbound, if_pos rfl]
      refine ⟨rfl, rfl, rfl, rfl, raised_revoke_unbound s _ hen hbound, ?_, fun n hn => ?_⟩
      · rw [updNport_mem, revoke_unbound_mem s _ hen hbound]
      · rw [nport_updNport_other _ _ hn, nport_revoke_unbound s _ hen hbound, if_neg hn]
  case expwin =>
    intro win w x imp
    constructor
    · intro hnot
      rw [exec_expwinWrite ht, if_neg (hlock hnot)]
    · intro hfree
      rw [exec_expwinWrite ht, if_pos (hopen hfree)]
      refine ⟨_, rfl, rfl, fun n hn => tget_tput_other _ _ _ (Ne.symm hn), ?_⟩
      intro y
      have hy : y = x.write w.toNat v := tget_tput_same _ _ _ _
      refine ⟨?_, ?_, ?_, ?_, ?_⟩
      · rintro rfl
        exact hy.trans (expWin_write_base x v)
      · rintro rfl
        exact hy.trans (expWin_write_size x v)
      · rintro rfl
        exact hy.trans (expWin_write_ctl x v)
      · rintro rfl
        rw [hy]
        exact expWin_write_first_imports x v
      · rintro rfl
        rw [hy]
        exact expWin_write_last_imports x v
  case counter =>
    intro port ctr
    rw [exec_counterClear ht, if_pos hh]
    by_cases hctr : ctr.toNat < 8
    · rw [zeroCounter_written s _ hctr]
      refine ⟨_, rfl, ?_⟩
      beta_reduce
      rw [fport_updFport_same]
      exact ⟨rfl, fun _ => tget_tput_same _ _ _ _, fun h => absurd hctr (by omega), fun n hn => tget_tput_other _ _ _ (Ne.symm hn)⟩
    · rw [zeroCounter_readOnly s _ (by omega)]
      exact ⟨_, rfl, rfl, fun h => absurd h hctr, fun _ => rfl, fun _ _ => rfl⟩
  case install =>
    intro slot key ctx fixed
    refine ⟨_, exec_keySlotRequest ht _, ?_⟩
    rw [if_pos hh]
    exact ⟨rfl, tget_tput_same _ _ _ _, fun n hn => tget_tput_other _ _ _ (Ne.symm hn)⟩
  case erase =>
    intro slot
    refine ⟨_, exec_keySlotRequest ht _, ?_⟩
    rw [if_pos hh]
    exact ⟨rfl, tfind_tdel _ _⟩
  case featon =>
    intro f new
    have hres : (s.contexts.any fun e => e.2.resident) = true ↔ ∃ e ∈ s.contexts, e.2.resident = true := List.any_eq_true
    constructor
    · intro hresident hclears
      rw [exec_featonWrite ht, if_pos hh, writeFeaton_eq, if_pos (by rw [Bool.and_eq_true, bne_iff_ne]; exact ⟨hclears, hres.2 hresident⟩)]
    · intro haccepts
      refine ⟨_, exec_featonWrite ht f, ?_⟩
      have hgoes : ¬(s.host.feat &&& ~~~s.features f != 0 && s.contexts.any fun e => e.2.resident) = true := by
        rw [Bool.and_eq_true, bne_iff_ne, hres]
        rintro ⟨hclears, e, he, hresident⟩
        rcases haccepts with hnone | hkeeps
        · exact Bool.false_ne_true ((hnone e he).symm.trans hresident)
        · exact hclears hkeeps
      rw [if_pos hh, writeFeaton_eq, if_neg hgoes]
      split
      · next htdisp =>
        refine ⟨rfl, fun b hb => tget_featAt_withFeatures s new hb, fun h => ?_⟩
        rw [show new.getLsbD 6 = (s.features f).getLsbD 6 from rfl, if_pos htdisp]
        cases h <;> rfl
      · next htdisp =>
        refine ⟨rfl, fun b hb => tget_featAt_withFeatures s new hb, fun h => ?_⟩
        rw [show new.getLsbD 6 = (s.features f).getLsbD 6 from rfl, if_neg htdisp, hostPort_unlocked]
        cases h <;> rfl
  case poolrel =>
    intro e
    constructor
    · intro hignored
      rw [exec_poolrel ht, writePoolrel_ignored hignored, ite_self]
    · intro hvalid hzero hheld hnew
      rw [exec_poolrel ht, if_pos hh, writePoolrel_requested hvalid hzero hheld hnew]

theorem pageEffects : Claims.PageEffects := by
  unfold Claims.PageEffects
  intro s hp tb v htakes w holds host
  have ht : s.takes ⟨hp, tb⟩ = true := (takes_iff s _).2 htakes
  have hw : ∀ o, o < 0x10000 → w o = .next (s.writeRegister hp o v) := fun o ho => exec_registerWrite ht ho v
  refine ⟨fun k hk => ?msix, fun hholds => ?holder⟩
  case msix =>
    let s1 := s.updHostPort hp fun p => p.msixWritten k v
    have hdelivers : Delivers s1 s1.deliverPending := delivers_deliverPending s1
    have hport : s1.deliverPending.hostPort hp = (s.hostPort hp).msixWritten k v := by
      rw [hdelivers.ports, hostPort_updHostPort, if_pos rfl]
    rw [hw _ (by omega), writeRegister_msix s hp v rfl hk, writeMsix_eq]
    refine ⟨_, rfl, hdelivers.host.trans rfl, ?_, fun j => ?_, fun b hb => ?_, ?_⟩
    · rw [hdelivers.ports, hostPort_updHostPort, if_neg (by cases hp <;> decide)]
    · rw [hport]
      exact tget_tput 0 k j v _
    · rw [hport]
      exact msixWritten_mask _ k v hb
    · rintro ⟨hvalid, hholder, htime⟩ hodd hunmask hpending
      have hlt : k / 2 < 16 := by omega
      have hlease : s1.host.lease = s.host.lease := by cases hp <;> rfl
      have hmask : ((s1.hostPort hp).mask).getLsbD (k / 2) = false := by
        rw [hostPort_updHostPort, if_pos rfl, msixWritten_mask _ k v hlt, if_pos (by omega), hunmask]
      have hcan : s1.canRaise (k / 2) = true := by
        have hheld : s1.leaseHeld = true := by
          simp only [State.leaseHeld, hlease, hvalid, Bool.true_and, decide_eq_true_eq]
          exact htime
        rw [State.canRaise, hheld, hlease, hholder, hmask]
        rfl
      have hsent := deliverPending_delivers hlt (s := s1) (by cases hp <;> exact hpending) hcan
      rw [hlease, hholder] at hsent
      exact hsent
  have hh : s.isHolder hp = true := (isHolder_iff s hp).2 hholds
  have hheld : ∀ o, o % 8 = 0 → 0x100 ≤ o → o < 0xE000 → w o = .next (s.holderWrite hp o v) := by
    intro o haligned hlow htop
    rw [hw o (by omega), writeRegister_holder s hp v haligned hlow htop, if_pos hh]
  refine ⟨?hwin, ?featLow, ?featHigh, ?keyreq, ?slots⟩
  case hwin =>
    intro n hn
    have hrow := hheld (0x7000 + 8 * n) (by omega) (by omega) (by omega)
    rw [holderWrite_hwin s hp v rfl hn] at hrow
    constructor
    · intro hlocked
      rw [hrow, if_pos ((locked_iff s hp).2 hlocked)]
    · intro hopen
      rw [hrow, if_neg fun h => (locked_iff s hp).1 h hopen]
      exact ⟨_, rfl, rfl, rfl, fun j => tget_tput 0 n j _ _⟩
  case featLow =>
    rw [hheld 0x110 (by decide) (by decide) (by decide), exec_featonWrite ht, if_pos hh]
    rfl
  case featHigh =>
    rw [hheld 0x118 (by decide) (by decide) (by decide), exec_featonWrite ht, if_pos hh]
    rfl
  case keyreq =>
    intro k hk words
    rw [hheld _ (by omega) (by omega) (by omega), holderWrite_keyreq s hp v rfl hk]
    have hset (r : KeyReq) := setKeySlot_host (s.keepKeyWord k v) r
    have hkept : ∀ j, tget 0 (s.keepKeyWord k v).host.keyreq j = if j = k then v else tget 0 s.host.keyreq j :=
      fun j => tget_tput 0 k j v _
    refine ⟨_, rfl, ?_⟩
    rcases hreq : Config.keyRequest words with _ | ⟨slot, _ | ⟨key, ctx, fixed⟩⟩
    · rw [writeKeyreq_idle hreq]
      exact ⟨rfl, hkept, rfl⟩
    · rw [writeKeyreq_erases hreq]
      refine ⟨(hset _).1.trans rfl, ?_, setKeySlot_erase _ slot⟩
      rw [(hset _).2]
      exact hkept
    · rw [writeKeyreq_installs hreq]
      refine ⟨(hset _).1.trans rfl, ?_, setKeySlot_install _ slot key ctx fixed⟩
      rw [(hset _).2]
      exact hkept
  case slots =>
    intro n hn c at' keeps
    have hrow : ∀ k, k < 8 → at' k = .next (s.writeCs n k v) := by
      intro k hk
      rw [← holderWrite_cs s hp v rfl hn hk]
      exact hheld _ (by omega) (by omega) (by omega)
    constructor
    · intro hbusy k hk
      rw [hrow k hk, writeCs_busy k v hbusy]
    · intro hidle
      have hgives : ∀ k g, k < 8 → s.writeCs n k v = s.updCs n g → keeps k (g c) := by
        intro k g hk hg
        refine ⟨_, hrow k hk, ?_⟩
        rw [hg]
        exact ⟨rfl, cs_updCs_same s n g, fun j hj => cs_updCs_other s g hj⟩
      have hfree : ¬(s.cs n).busy = true := Bool.eq_false_iff.1 hidle
      refine ⟨?_, ?_, ?_, ?_, ?_, ?_, ?_, fun hv => ?_⟩
      · exact hgives 0 _ (by decide) (if_neg hfree)
      · exact hgives 1 _ (by decide) (if_neg hfree)
      · exact hgives 2 _ (by decide) (if_neg hfree)
      · exact hgives 3 _ (by decide) (if_neg hfree)
      · exact hgives 4 _ (by decide) (if_neg hfree)
      · exact (hrow 5 (by decide)).trans (congrArg Host.Outcome.next (if_neg hfree))
      · exact (hrow 6 (by decide)).trans (congrArg Host.Outcome.next (if_neg hfree))
      · refine (hrow 7 (by decide)).trans (congrArg Host.Outcome.next ((if_neg hfree).trans ?_))
        exact if_neg (by rw [beq_iff_eq]; exact hv)

/-- Settles O38: the rows of the page's registers, the drops of RUN without the T bit, the registers' offsets, and the reads of each
register follow from one rule per register; the holder's rows go by the lease and the interface's lock. -/
theorem managementPage : Obligations.ManagementPage := by
  unfold Obligations.ManagementPage
  exact ⟨registerWrites, untrustedWrites, pageOffsets, pageEffects, pageReads⟩

end Sys2Proof

/-!
# What scalar instructions leave

Rules for the answers of scalar instructions, on which the proofs about registers and the matrix token (O3, O15, O24) rest.
-/
namespace Sys2Proof.Machine

/-- What an instruction gives, where its outcome is known to be that of another computation. -/
theorem gives_of_eq {o o' : Out} {P : State → Prop} (h : o = o') (h' : Gives o' P) : Gives o P := h ▸ h'

/-! ### What an update of one fragment leaves -/

theorem OnlyFrag.cur {s t : State} {k : Nat} (h : OnlyFrag s t k) : t.cur = s.cur := by rw [h.rest]
theorem OnlyFrag.mem {s t : State} {k : Nat} (h : OnlyFrag s t k) : t.mem = s.mem := by rw [h.rest]
theorem OnlyFrag.phr {s t : State} {k : Nat} (h : OnlyFrag s t k) (p : Nat) : t.phr p = s.phr p := by rw [h.rest]; rfl
theorem OnlyFrag.core {s t : State} {k : Nat} (h : OnlyFrag s t k) (c : Nat) : t.core c = s.core c := by rw [h.rest]; rfl

/-- The stream of the issuing fragment has gone on by one word. -/
theorem me_adv (s : State) : s.adv.me = { s.me with pc := s.me.pc + 4 } := me_updMe s fun f => { f with pc := f.pc + 4 }

/-! ### A register write after an update that leaves the fragment -/

section
variable {s u t : State} {sd : SReg} {v : Word}

theorem Writes.cur (h : Writes s t sd v) : t.cur = s.cur := h.only.cur
theorem Writes.mem (h : Writes s t sd v) : t.mem = s.mem := h.only.mem
theorem Writes.pc (h : Writes s t sd v) : t.me.pc = s.me.pc + 4 := by rw [h.frag]

/-- An instruction that has made `u` of its state, and then answers `v`, where its fragment is the same in both. -/
theorem Writes.answers (h : Writes u t sd v) (hu : u.me = s.me) :
    t.me.pc = s.me.pc + 4 ∧ ∀ x : SReg, t.r x = if x = sd ∧ x ≠ 0 then v else s.r x := by
  refine ⟨by rw [h.pc, hu], fun x => ?_⟩
  rw [h.reg, State.r, State.r, hu]

/-- An instruction that has changed its phrase by `g` and then answers `v`. -/
theorem Writes.of_updPhr {g : Phrase → Phrase} (h : Writes (s.updPhr (phraseOf s.cur) g) t sd v) :
    (sd ≠ 0 → t.r sd = v) ∧ t.myPhr = g s.myPhr ∧ t.me.pc = s.me.pc + 4 ∧ t.mem = s.mem := by
  obtain ⟨hpc, hreg⟩ := h.answers (s := s) rfl
  refine ⟨fun hsd => (hreg sd).trans (if_pos ⟨rfl, hsd⟩), ?_, hpc, h.mem⟩
  rw [State.myPhr, h.cur, h.only.phr]
  exact phr_updPhr_same s (phraseOf s.cur) g

end

end Sys2Proof.Machine

/-!
# Special registers (O3)
-/
namespace Sys2Proof.Machine

/-! ### The write of a special register (R112, R274) -/

/-- A register that can be written, by a phrase that may write it, takes its value, and the stream goes on. -/
theorem execSset_writes {s : State} {reg : BitVec 6} (sa : SReg) (hpriv : specialPrivWrite reg.toNat = true → s.priv s.cur = true)
    (hwritable : specialWritable reg.toNat = true) :
    execSset reg sa s = .next (s.setSpecial s.cur reg.toNat (s.r sa)).adv := by
  have hmay : ¬((specialPrivWrite reg.toNat && !s.priv s.cur) = true) := by simpa using hpriv
  unfold execSset
  rw [if_neg hmay, if_neg (by simp [hwritable])]

section
variable {s : State} {reg : BitVec 6} {sa : SReg}

/-- A register of the phrase: `g` is its write and `val` its reading. -/
theorem sset_phrase (g : Phrase → Phrase) (val : Phrase → Word) (hopen : specialPrivWrite reg.toNat = false)
    (hwritable : specialWritable reg.toNat = true) (hset : s.setSpecial s.cur reg.toNat (s.r sa) = s.updPhr (phraseOf s.cur) g)
    (hget : ∀ t : State, t.special t.cur reg.toNat = val t.myPhr) :
    Gives (exec (.sset reg sa) s) fun t => t.special t.cur reg.toNat = val (g s.myPhr) ∧
      t.me.pc = s.me.pc + 4 ∧ t.me.sregs = s.me.sregs ∧ t.mem = s.mem ∧ t.cur = s.cur := by
  refine ⟨_, execSset_writes sa (by simp [hopen]) hwritable, ?_⟩
  rw [hset]
  have hme : (s.updPhr (phraseOf s.cur) g).adv.me = { s.me with pc := s.me.pc + 4 } := me_adv _
  refine ⟨(hget _).trans (congrArg val (phr_updPhr_same s (phraseOf s.cur) g)), ?_, ?_, rfl, rfl⟩
  · rw [hme]
  · rw [hme]

/-- A register of the fragment; its write leaves the scalar registers and the pc. -/
theorem sset_frag (g : Frag → Frag) (val : Frag → Word) (hopen : specialPrivWrite reg.toNat = false)
    (hwritable : specialWritable reg.toNat = true) (hset : s.setSpecial s.cur reg.toNat (s.r sa) = s.updFrag s.cur g)
    (hget : ∀ t : State, t.special t.cur reg.toNat = val t.me) (hval : ∀ (f : Frag) (pc : Word), val { f with pc := pc } = val f)
    (hregs : ∀ f, (g f).sregs = f.sregs) (hpc : ∀ f, (g f).pc = f.pc) :
    Gives (exec (.sset reg sa) s) fun t => t.special t.cur reg.toNat = val (g s.me) ∧
      t.me.pc = s.me.pc + 4 ∧ t.me.sregs = s.me.sregs ∧ t.mem = s.mem ∧ t.cur = s.cur := by
  refine ⟨_, execSset_writes sa (by simp [hopen]) hwritable, ?_⟩
  rw [hset]
  have hme : (s.updFrag s.cur g).adv.me = { g s.me with pc := s.me.pc + 4 } := by
    rw [← hpc]
    exact (me_adv _).trans (congrArg (fun f : Frag => { f with pc := f.pc + 4 }) (me_updMe s g))
  refine ⟨(hget _).trans ?_, congrArg Frag.pc hme, (congrArg Frag.sregs hme).trans (hregs _), rfl, rfl⟩
  rw [hme, hval]

/-- A register of the first bank (R464). -/
theorem sset_bank1 (g : Bank → Bank) (val : Bank → Word) (hopen : specialPrivWrite reg.toNat = false)
    (hwritable : specialWritable reg.toNat = true)
    (hset : s.setSpecial s.cur reg.toNat (s.r sa) = s.updFrag s.cur fun f => { f with bank1 := g f.bank1 })
    (hget : ∀ t : State, t.special t.cur reg.toNat = val t.me.bank1) :
    Gives (exec (.sset reg sa) s) fun t => t.special t.cur reg.toNat = val (g s.me.bank1) ∧
      t.me.pc = s.me.pc + 4 ∧ t.me.sregs = s.me.sregs ∧ t.mem = s.mem ∧ t.cur = s.cur :=
  sset_frag _ (fun f => val f.bank1) hopen hwritable hset hget (fun _ _ => rfl) (fun _ => rfl) fun _ => rfl

/-- A register of the second bank (R464). -/
theorem sset_bank2 (g : Bank → Bank) (val : Bank → Word) (hopen : specialPrivWrite reg.toNat = false)
    (hwritable : specialWritable reg.toNat = true)
    (hset : s.setSpecial s.cur reg.toNat (s.r sa) = s.updFrag s.cur fun f => { f with bank2 := g f.bank2 })
    (hget : ∀ t : State, t.special t.cur reg.toNat = val t.me.bank2) :
    Gives (exec (.sset reg sa) s) fun t => t.special t.cur reg.toNat = val (g s.me.bank2) ∧
      t.me.pc = s.me.pc + 4 ∧ t.me.sregs = s.me.sregs ∧ t.mem = s.mem ∧ t.cur = s.cur :=
  sset_frag _ (fun f => val f.bank2) hopen hwritable hset hget (fun _ _ => rfl) (fun _ => rfl) fun _ => rfl

/-- A register of the context (R113): every phrase of the context reads what a privileged one has written. -/
theorem sset_ctx (g : Ctx → Ctx) (val : Ctx → Word) (hpriv : s.priv s.cur = true) (hwritable : specialWritable reg.toNat = true)
    (hset : s.setSpecial s.cur reg.toNat (s.r sa) = s.updCtx (s.ctxOf s.cur) g)
    (hget : ∀ (t : State) (k : Nat), t.special k reg.toNat = val (t.ctx (t.ctxOf k))) :
    Gives (exec (.sset reg sa) s) fun t => (∀ k, t.ctxOf k = s.ctxOf s.cur → t.special k reg.toNat = val (g (s.ctx (s.ctxOf s.cur)))) ∧
      t.me.pc = s.me.pc + 4 ∧ t.mem = s.mem ∧ t.phrases = s.phrases := by
  refine ⟨_, execSset_writes sa (fun _ => hpriv) hwritable, ?_⟩
  rw [hset]
  refine ⟨fun k hk => ?_, ?_, rfl, rfl⟩
  · rw [hget, hk]
    exact congrArg val (ctx_updCtx_same s _ g)
  · rw [me_adv]; rfl

/-- WAKEP is cleared by a write of 1 (R112). -/
theorem wordOf_bit_wakep (p b : Bool) : wordOf (bit (p && !b)) = if p = true ∧ b = false then 1 else 0 := by
  cases p <;> cases b <;> rfl

/-! ### The faults of sget and sset (R112, R274) -/

/-- A register that only privileged code reads takes PRIV in another phrase. -/
theorem execSget_faults {sd : SReg} (htrap : s.mayTrap s.cur) (hpriv : s.priv s.cur = false) (hread : specialPrivRead reg.toNat = true) :
    Gives (execSget sd reg s) (Faults s · .priv 0 (reg.setWidth 64)) := by
  unfold execSget
  rw [if_pos (by simp [hpriv, hread])]
  exact fault_faults s _ _ _ htrap

/-- A register that only privileged code writes takes PRIV in another phrase. -/
theorem execSset_privFault (htrap : s.mayTrap s.cur) (hpriv : s.priv s.cur = false) (hwrite : specialPrivWrite reg.toNat = true) :
    Gives (execSset reg sa s) (Faults s · .priv 0 (reg.setWidth 64)) := by
  unfold execSset
  rw [if_pos (by simp [hpriv, hwrite])]
  exact fault_faults s _ _ _ htrap

/-- The registers that hold what the machine gives, and the numbers that R111 does not list. -/
theorem not_writable (h : 1 ≤ reg.toNat ∧ reg.toNat ≤ 9 ∨ 0x0C ≤ reg.toNat ∧ reg.toNat ≤ 0x0F ∨ reg = 0x1E ∨ reg = 0x1F ∨
    0x23 ≤ reg.toNat ∧ reg.toNat < 0x28 ∨ 0x2E ≤ reg.toNat) : specialWritable reg.toNat = false := by
  simp only [specialWritable, specialPrivWrite, Bool.or_eq_false_iff, Bool.and_eq_false_iff, decide_eq_false_iff_not, beq_eq_false_iff_ne]
  bv_omega

/-- A register that is not written takes ILLOP. -/
theorem execSset_illop (htrap : s.mayTrap s.cur) (hreadOnly : specialWritable reg.toNat = false) :
    Gives (execSset reg sa s) (Faults s · .illop 0 (reg.setWidth 64)) := by
  have hopen : specialPrivWrite reg.toNat = false := by
    simp only [specialWritable, Bool.or_eq_false_iff] at hreadOnly
    exact hreadOnly.2
  unfold execSset
  rw [if_neg (by simp [hopen]), if_pos (by simp [hreadOnly])]
  exact fault_faults s _ _ _ htrap

end

end Sys2Proof.Machine

namespace Sys2Proof

open Machine

theorem specialReads : Claims.SpecialReads := by
  unfold Claims.SpecialReads
  intro s sd reg hpriv
  have hmay : ¬((specialPrivRead reg.toNat && !s.priv s.cur) = true) := by
    simp only [specialPrivRead, Bool.and_eq_true, Bool.or_eq_true, beq_iff_eq, Bool.not_eq_true']
    rintro ⟨hreg, hnot⟩
    rw [hpriv (hreg.imp (fun h => BitVec.eq_of_toNat_eq h) fun h => BitVec.eq_of_toNat_eq h)] at hnot
    cases hnot
  have hexec : exec (.sget sd reg) s = putNext sd (s.special s.cur reg.toNat) s := if_neg hmay
  refine ⟨?_, rfl, rfl, rfl, rfl, rfl, rfl, rfl, rfl, fun n hlow hhigh => ?_, fun n hn => ?_⟩
  · rw [hexec]
    exact putNext_writes sd _ s
  · interval_cases n <;> rfl
  · interval_cases n <;> rfl

theorem specialWrites : Claims.SpecialWrites := by
  unfold Claims.SpecialWrites
  intro s sa v lo reads
  refine ⟨?_, ?_, ?_, ?_, ?_, ?_, ?_, ?_, ?_, ?_, ?_, ?_, ?_, ?_, ?_, ?_, ?_, ?_, ?_, ?_⟩
  · exact sset_frag (reg := 0x00) (fun f => { f with exec := lo &&& s.myPhr.live }) (fun f => f.exec.setWidth 64) rfl rfl rfl
      (fun _ => rfl) (fun _ _ => rfl) (fun _ => rfl) fun _ => rfl
  · exact sset_phrase (reg := 0x0A) (fun q => { q with status := q.status &&& ~~~lo }) (fun q => q.status.setWidth 64) rfl rfl rfl fun _ => rfl
  · exact sset_phrase (reg := 0x0B) (fun q => { q with trapen := lo &&& 0xC7 }) (fun q => q.trapen.setWidth 64) rfl rfl rfl fun _ => rfl
  · exact sset_bank1 (reg := 0x10) (fun b => { b with epc := v }) Bank.epc rfl rfl rfl fun _ => rfl
  · exact sset_bank2 (reg := 0x11) (fun b => { b with epc := v }) Bank.epc rfl rfl rfl fun _ => rfl
  · exact sset_bank1 (reg := 0x12) (fun b => { b with elpc := v }) Bank.elpc rfl rfl rfl fun _ => rfl
  · exact sset_bank2 (reg := 0x13) (fun b => { b with elpc := v }) Bank.elpc rfl rfl rfl fun _ => rfl
  · exact sset_bank1 (reg := 0x14) (fun b => { b with ecause := lo &&& 0x1FFFF }) (fun b => b.ecause.setWidth 64) rfl rfl rfl fun _ => rfl
  · exact sset_bank2 (reg := 0x15) (fun b => { b with ecause := lo &&& 0x1FFFF }) (fun b => b.ecause.setWidth 64) rfl rfl rfl fun _ => rfl
  · exact sset_bank1 (reg := 0x16) (fun b => { b with emask := lo }) (fun b => b.emask.setWidth 64) rfl rfl rfl fun _ => rfl
  · exact sset_bank2 (reg := 0x17) (fun b => { b with emask := lo }) (fun b => b.emask.setWidth 64) rfl rfl rfl fun _ => rfl
  · exact sset_bank1 (reg := 0x18) (fun b => { b with edata := v }) Bank.edata rfl rfl rfl fun _ => rfl
  · exact sset_bank2 (reg := 0x19) (fun b => { b with edata := v }) Bank.edata rfl rfl rfl fun _ => rfl
  · exact sset_bank1 (reg := 0x1A) (fun b => { b with exsave := lo }) (fun b => b.exsave.setWidth 64) rfl rfl rfl fun _ => rfl
  · exact sset_bank2 (reg := 0x1B) (fun b => { b with exsave := lo }) (fun b => b.exsave.setWidth 64) rfl rfl rfl fun _ => rfl
  · exact sset_phrase (reg := 0x1C) (fun q => { q with tvec := v }) Phrase.tvec rfl rfl rfl fun _ => rfl
  · exact sset_phrase (reg := 0x1D) (fun q => { q with tsave := v &&& tsaveBits }) Phrase.tsave rfl rfl rfl fun _ => rfl
  · exact sset_phrase (reg := 0x20) (fun q => { q with dpend := q.dpend &&& ~~~v.setWidth 4 }) (fun q => q.dpend.setWidth 64) rfl rfl rfl
      fun _ => rfl
  · exact sset_phrase (reg := 0x21) (fun q => { q with sigp := q.sigp &&& ~~~v.setWidth 16 }) (fun q => q.sigp.setWidth 64) rfl rfl rfl
      fun _ => rfl
  · rw [← wordOf_bit_wakep]
    exact sset_phrase (reg := 0x22) (fun q => { q with wakep := q.wakep && !v.getLsbD 0 }) (fun q => wordOf (bit q.wakep)) rfl rfl rfl
      fun _ => rfl

theorem specialRegisterRules : Claims.SpecialRegisterRules := by
  unfold Claims.SpecialRegisterRules
  refine ⟨fun s sa hpriv => ?_, fun s sd sa reg htrap => ⟨fun hpriv hreg => ?_, fun hpriv hlow hhigh => ?_, fun hreg => ?_⟩⟩
  · intro v reads
    refine ⟨?_, ?_, ?_, ?_, ?_, ?_⟩
    · exact sset_ctx (reg := 0x28) (fun c => { c with hbase := v &&& hbaseBits }) Ctx.hbase hpriv rfl rfl fun _ _ => rfl
    · exact sset_ctx (reg := 0x29) (fun c => { c with hlim := v &&& hlimBits }) Ctx.hlim hpriv rfl rfl fun _ _ => rfl
    · exact sset_ctx (reg := 0x2A) (fun c => { c with hoff := v &&& hoffBits }) Ctx.hoff hpriv rfl rfl fun _ _ => rfl
    · exact sset_ctx (reg := 0x2B) (fun c => { c with vtab := v }) Ctx.vtab hpriv rfl rfl fun _ _ => rfl
    · exact sset_ctx (reg := 0x2C) (fun c => { c with ntab := v }) Ctx.ntab hpriv rfl rfl fun _ _ => rfl
    · exact sset_ctx (reg := 0x2D) (fun c => { c with ptab := v }) Ctx.ptab hpriv rfl rfl fun _ _ => rfl
  · refine execSget_faults htrap hpriv ?_
    rcases hreg with rfl | rfl <;> rfl
  · exact execSset_privFault htrap hpriv (by simp [specialPrivWrite, hlow, hhigh])
  · exact execSset_illop htrap (not_writable hreg)

/-- Settles O3: each register is one field of the fragment, of its phrase or of its context, and a rule for each of the three says that
sset writes it and that the next read sees it; what may not be read or written faults. -/
theorem specialRegisters : Obligations.SpecialRegisters := by
  unfold Obligations.SpecialRegisters
  exact ⟨specialReads, specialWrites, specialRegisterRules⟩

end Sys2Proof

/-!
# The growth of lane registers (O15)
-/
namespace Sys2Proof.Machine

/-! ### sgrow and sshrink (R101, R102, R404) -/

theorem allClear_of_flags {s : State} {k : Nat} (h : ∀ f, f < 12 → s.flagSet k f = false) : s.allClear k = true := by
  simp only [State.allClear, State.flagsClear, List.all_eq_true, List.mem_range, Bool.not_eq_true', Bool.and_eq_false_iff]
  exact fun f hf => .inr (h f hf)

theorem minRegs_eq (s : State) (p : Nat) : s.minRegs p = if (s.phr p).isAux = false ∧ s.mateAlive p = true then 64 else 32 := by
  simp [State.minRegs]

section
variable {s : State} {i : Instr} {sd : SReg} {grow : Bool} {n : Nat} (hqueue : s.me.queue = [])
  (hflags : ∀ f, f < 12 → s.flagSet s.cur f = false) (hasides : s.myPhr.asides = 0)
include hqueue hflags hasides

/-- A resize that fails answers FAIL with the reason and REGS, and sets GROWFAIL. -/
theorem resize_fails {reason : Nat} (h : s.resizeReason (phraseOf s.cur) grow n = some reason) :
    Gives (s.resize i sd grow n) (Writes (s.setStatus (phraseOf s.cur) statusGrowfail) · sd (failWord reason s.myPhr.regs)) := by
  unfold State.resize
  rw [if_neg (by simp [State.resizeWaits, hqueue, allClear_of_flags hflags]), if_neg (by simp [hasides]), h]
  exact putNext_writes sd _ _

/-- A resize that does not fail gives the phrase its new REGS and answers it. -/
theorem resize_succeeds (h : s.resizeReason (phraseOf s.cur) grow n = none) :
    Gives (s.resize i sd grow n) fun t => ∃ m, m = (if grow then s.myPhr.regs + 16 * n else s.myPhr.regs - 16 * n) ∧
      Writes (s.updPhr (phraseOf s.cur) fun q => q.resize m) t sd (wordOf m) := by
  unfold State.resize
  rw [if_neg (by simp [State.resizeWaits, hqueue, allClear_of_flags hflags]), if_neg (by simp [hasides]), h]
  obtain ⟨t, ht, hw⟩ := putNext_writes sd _ _
  exact ⟨t, ht, _, rfl, hw⟩

end

end Sys2Proof.Machine

namespace Sys2Proof

open Machine

/-- Settles O15: `resizeReason` says which of the reasons holds, if one does; a resize then fails with it, or gives the phrase its new
size. -/
theorem laneRegisterSizes : Obligations.LaneRegisterSizes := by
  unfold Obligations.LaneRegisterSizes
  intro s sd n hqueue hflags hasides regs used least fails becomes
  have hfails : ∀ {i grow reason}, s.resizeReason (phraseOf s.cur) grow n.toNat = some reason →
      Gives (s.resize i sd grow n.toNat) (fails reason) := by
    intro i grow reason h
    obtain ⟨t, ht, hw⟩ := resize_fails (i := i) (sd := sd) hqueue hflags hasides h
    obtain ⟨hr, hphr, hpc, hmem⟩ := Writes.of_updPhr hw
    refine ⟨t, ht, fun hsd => (hr hsd).trans ?_, ?_, ?_, hpc, hmem⟩
    · simp [failWord, wordOf, at', regs]
    · rw [hphr]
    · rw [hphr]; rfl
  have hbecomes : ∀ {i grow}, s.resizeReason (phraseOf s.cur) grow n.toNat = none →
      Gives (s.resize i sd grow n.toNat) (becomes (if grow then regs + 16 * n.toNat else regs - 16 * n.toNat)) := by
    intro i grow h
    obtain ⟨t, ht, m, hm, hw⟩ := resize_succeeds (i := i) (sd := sd) hqueue hflags hasides h
    obtain ⟨hr, hphr, hpc, hmem⟩ := Writes.of_updPhr hw
    rw [← hm]
    refine ⟨t, ht, hr, ?_, ?_, hpc, hmem⟩
    · rw [hphr]; rfl
    · rw [hphr]; rfl
  have hgrow : s.resizeReason (phraseOf s.cur) true n.toNat =
      if 256 < regs + 16 * n.toNat then some 2 else if 2048 < used + 16 * n.toNat then some 1 else none := rfl
  have hshrink : s.resizeReason (phraseOf s.cur) false n.toNat = if regs < least + 16 * n.toNat then some 3 else none := by
    simp only [State.resizeReason, minRegs_eq]
    rfl
  refine ⟨fun hsize => ?_, fun hsize hroom => ?_, fun hsize hroom => ?_, fun hleast => ?_, fun hleast => ?_⟩
  · exact hfails (hgrow.trans (if_pos hsize))
  · exact hfails (hgrow.trans ((if_neg (by omega)).trans (if_pos hroom)))
  · exact hbecomes (hgrow.trans ((if_neg (by omega)).trans (if_neg (by omega))))
  · exact hfails (hshrink.trans (if_pos hleast))
  · exact hbecomes (hshrink.trans (if_neg (by omega)))

end Sys2Proof

/-!
# The matrix token and the power grants (O24)
-/
namespace Sys2Proof.Machine

/-! ### Fragments that are updated one after another -/

theorem foldl_updFrag_rest (g : Frag → Frag) (ks : List Nat) (s : State) :
    ks.foldl (fun s k => s.updFrag k g) s = { s with frags := (ks.foldl (fun s k => s.updFrag k g) s).frags } := by
  induction ks generalizing s with
  | nil => rfl
  | cons k ks ih =>
    rw [List.foldl_cons, ih]
    rfl

/-- A fragment that is not among them, or that the update leaves as it is, stands. -/
theorem frag_foldl_updFrag {g : Frag → Frag} {ks : List Nat} {s : State} {j : Nat} (h : j ∉ ks ∨ g (s.frag j) = s.frag j) :
    (ks.foldl (fun s k => s.updFrag k g) s).frag j = s.frag j := by
  induction ks generalizing s with
  | nil => rfl
  | cons k ks ih =>
    have hstep : (s.updFrag k g).frag j = s.frag j := by
      by_cases hjk : j = k
      · subst hjk
        rw [frag_updFrag_same]
        exact h.resolve_left (by simp)
      · exact frag_updFrag_other s g hjk
    have hrest : j ∉ ks ∨ g ((s.updFrag k g).frag j) = (s.updFrag k g).frag j := by
      rw [hstep]
      exact h.imp_left fun hj hmem => hj (List.mem_cons_of_mem k hmem)
    exact (ih hrest).trans hstep

/-! ### The token passes to a phrase (R107, R336) -/

/-- The token of a core has passed to phrase `q`: tiles and planes are clear where its context is another than the last holder's. -/
structure PassesToken (s t : State) (core q : Nat) : Prop where
  token : (t.core core).engine.token = some q
  lastCtx : (t.core core).engine.lastCtx = some (s.phr q).ctx
  ops : (t.core core).engine.ops = (s.core core).engine.ops
  contents : if (s.core core).engine.lastCtx = none ∨ (s.core core).engine.lastCtx = some (s.phr q).ctx then
      (t.core core).engine.tiles = (s.core core).engine.tiles ∧ (t.core core).engine.plane0 = (s.core core).engine.plane0 ∧
        (t.core core).engine.plane1 = (s.core core).engine.plane1
    else (t.core core).engine.tiles = [] ∧ (t.core core).engine.plane0 = [] ∧ (t.core core).engine.plane1 = []
  mem : t.mem = s.mem
  phr : ∀ j, t.phr j = if j = q then { s.phr q with needTok := false } else s.phr j

/-- What happens to one fragment then leaves the token where it is. -/
theorem PassesToken.onlyFrag {s u t : State} {core q k : Nat} (h : PassesToken s u core q) (ht : OnlyFrag u t k) :
    PassesToken s t core q := by
  obtain ⟨htoken, hctx, hops, hcontents, hmem, hphr⟩ := h
  constructor
  all_goals simp only [ht.core, ht.phr, ht.mem]
  all_goals assumption

/-- The engine of a core whose token passes to a phrase of context `x`. -/
def Engine.passed (e : Engine) (x p : Nat) : Engine :=
  { (if e.lastCtx == some x || e.lastCtx == none then e else { e with tiles := [], plane0 := [], plane1 := [] }) with
    token := some p, lastCtx := some x, takers := e.takers.filter fun k => phraseOf k != p }

/-- A fragment that waits for the token goes on. -/
def Frag.tokenGiven (f : Frag) : Frag := if f.wait == .token then f.resume else f

/-- The token passes in the engine and the phrase, and then each fragment of the phrase that waits for it goes on. -/
theorem giveToken_eq (s : State) (core p : Nat) : s.giveToken core p =
    ((s.core core).engine.takers.filter fun k => phraseOf k == p).foldl (fun s k => s.updFrag k Frag.tokenGiven)
      ((s.updCore core fun c => { c with engine := c.engine.passed (s.phr p).ctx p }).updPhr p fun q => { q with needTok := false }) :=
  rfl

theorem giveToken_cur (s : State) (core p : Nat) : (s.giveToken core p).cur = s.cur := by
  rw [giveToken_eq, foldl_updFrag_rest]
  rfl

theorem engine_giveToken (s : State) (core p : Nat) :
    ((s.giveToken core p).core core).engine = (s.core core).engine.passed (s.phr p).ctx p := by
  rw [giveToken_eq, foldl_updFrag_rest]
  exact congrArg Core.engine (core_updCore_same s core fun c => { c with engine := c.engine.passed (s.phr p).ctx p })

theorem phr_giveToken (s : State) (core p j : Nat) :
    (s.giveToken core p).phr j = if j = p then { s.phr p with needTok := false } else s.phr j := by
  rw [giveToken_eq, foldl_updFrag_rest]
  exact tget_tput _ _ _ _ _

/-- A fragment that does not wait for the token stands, and so does one that is not of the phrase. -/
theorem frag_giveToken {s : State} {core p k : Nat} (h : k ∉ (s.core core).engine.takers ∨ phraseOf k ≠ p ∨ (s.frag k).wait ≠ .token) :
    (s.giveToken core p).frag k = s.frag k := by
  rw [giveToken_eq]
  refine frag_foldl_updFrag ?_
  rcases h with hk | hk | hk
  · exact .inl fun hmem => hk (List.mem_filter.1 hmem).1
  · exact .inl fun hmem => hk (by simpa using (List.mem_filter.1 hmem).2)
  · exact .inr (if_neg (by simpa using hk))

theorem giveToken_passes (s : State) (core p : Nat) : PassesToken s (s.giveToken core p) core p := by
  refine ⟨?_, ?_, ?_, ?_, giveToken_mem s core p, phr_giveToken s core p⟩ <;> rw [engine_giveToken]
  · rfl
  · rfl
  · unfold Engine.passed
    split <;> rfl
  · have hsame : ((s.core core).engine.lastCtx == some (s.phr p).ctx || (s.core core).engine.lastCtx == none) = true ↔
        (s.core core).engine.lastCtx = none ∨ (s.core core).engine.lastCtx = some (s.phr p).ctx := by simp [or_comm]
    simp only [Engine.passed, hsame]
    split
    · exact ⟨rfl, rfl, rfl⟩
    · exact ⟨rfl, rfl, rfl⟩

/-- A token that no fragment waits for is free. -/
theorem freeToken_of_no_takers {s : State} {core : Nat} (h : (s.core core).engine.takers = []) :
    s.freeToken core = s.updEngine core fun e => { e with token := none } := by
  unfold State.freeToken
  rw [h]
  rfl

/-! ### mxtake and mxgive (R336) -/

theorem execMxtake_held {s : State} (h : s.holdsToken (phraseOf s.cur) = true) : execMxtake s = .next s.adv := if_pos h

theorem execMxtake_free {s : State} (hother : s.holdsToken (phraseOf s.cur) = false) (hfree : (s.core s.myCore).engine.token = none) :
    execMxtake s = .next (s.giveToken s.myCore (phraseOf s.cur)).adv := by
  unfold execMxtake
  rw [if_neg (by simp [hother]), if_pos (by simp [hfree])]

theorem execMxtake_waits {s : State} (hother : s.holdsToken (phraseOf s.cur) = false) (htaken : (s.core s.myCore).engine.token ≠ none) :
    execMxtake s = .next ((s.updMe fun f => { f with wait := .token }).updEngine s.myCore fun e =>
      { e with takers := e.takers ++ [s.cur] }) := by
  unfold execMxtake
  rw [if_neg (by simp [hother]), if_neg (by simpa using htaken)]

section
variable {s : State} (sd : SReg) {sa : SReg} (hqueue : s.me.queue = [])
include hqueue

theorem execMxgive_other (h : s.holdsToken (phraseOf s.cur) = false) : execMxgive sd sa s = putNext sd 2 s := by
  unfold execMxgive
  rw [if_neg (by simp [State.mxgiveWaits, hqueue]), if_pos (by simp [h])]

variable (hheld : s.holdsToken (phraseOf s.cur) = true)
include hheld

theorem execMxgive_frees (h : s.r sa = 0) : execMxgive sd sa s = putNext sd 0 (s.freeToken s.myCore) := by
  unfold execMxgive
  rw [if_neg (by simp [State.mxgiveWaits, hqueue]), if_neg (by simp [hheld]), if_pos (by simp [h])]

theorem execMxgive_unknown (h : s.r sa ≠ 0) (hnone : s.onCore (s.r sa) = none) : execMxgive sd sa s = putNext sd 1 s := by
  unfold execMxgive
  rw [if_neg (by simp [State.mxgiveWaits, hqueue]), if_neg (by simp [hheld]), if_neg (by simpa using h), hnone]

theorem execMxgive_passes {q : Nat} (h : s.r sa ≠ 0) (hq : s.onCore (s.r sa) = some q) :
    execMxgive sd sa s = putNext sd 0 (s.giveToken s.myCore q) := by
  unfold execMxgive
  rw [if_neg (by simp [State.mxgiveWaits, hqueue]), if_neg (by simp [hheld]), if_neg (by simpa using h), hq]

end

/-! ### Asks (R224, R338) -/

theorem sext_toNat {w : Nat} (x : BitVec w) : sext x.toNat w = x.toInt := by
  simp only [sext, Nat.mod_eq_of_lt x.isLt, BitVec.toInt]

/-- An ask takes its place among the others. -/
theorem putAsk_perm (a : Ask) (as : List Ask) : (putAsk a as).Perm (a :: as) := by
  induction as with
  | nil => exact .refl _
  | cons b bs ih =>
    rw [putAsk]
    split
    · exact .refl _
    · exact (ih.cons b).trans (.swap a b bs)

@[simp] theorem cluster_updCluster_same (s : State) (c : Nat) (g : Cluster → Cluster) : (s.updCluster c g).cluster c = g (s.cluster c) :=
  tget_tput_same _ _ _ _

theorem cluster_updCluster_other (s : State) {c d : Nat} (g : Cluster → Cluster) (h : d ≠ c) : (s.updCluster c g).cluster d = s.cluster d :=
  tget_tput_other _ _ _ (Ne.symm h)

/-- What mxask asks for, within the bound of R224. -/
def State.askBound (s : State) (sa : SReg) (imm : BitVec 12) : Nat :=
  min ((s.r sa).toInt + imm.toInt).toNat (65535 - s.myPhr.grants - s.asked (phraseOf s.cur))

/-- The ask of the issuing phrase for `n` grants. -/
def State.askOf (s : State) (n : Nat) : Ask :=
  { cycle := s.cycle, phrase := phraseOf s.cur, op := none, need := n, core := s.myCore, slot := s.me.slot.getD 0 }

theorem execMxask_nothing {s : State} {sa : SReg} {imm : BitVec 12} (h : s.askBound sa imm = 0) : execMxask sa imm s = .next s.adv := by
  unfold execMxask
  rw [sext_toNat, sext_toNat]
  exact if_pos (by simpa [State.askBound] using h)

theorem execMxask_asks {s : State} {sa : SReg} {imm : BitVec 12} (h : s.askBound sa imm ≠ 0) :
    execMxask sa imm s = .next (s.updCluster (clusterOf s.myCore) fun c =>
      { c with asks := putAsk (s.askOf (s.askBound sa imm)) c.asks }).adv := by
  unfold execMxask
  rw [sext_toNat, sext_toNat]
  exact if_neg (by simpa [State.askBound] using h)

/-! ### Ticks (R546, R547) -/

/-- The only ask of a governor gets what it needs, or all that there is and stands with the rest. -/
theorem serveAsks_one (b : Nat) (a : Ask) :
    serveAsks b [a] = (b - a.need, if b < a.need then [{ a with need := a.need - b }] else [], [(a, min a.need b)]) := by
  unfold serveAsks
  split
  · next h => rw [Nat.sub_eq_zero_of_le h.le, Nat.min_eq_right h.le]
  · next h => rw [Nat.min_eq_left (not_lt.1 h)]; rfl

/-- The ticks of a module with one partition. -/
theorem execGovernorTick_one {s : State} {n : Nat} {p : Part} (hdue : s.ticks < s.dtime / 1000) (hparts : s.parts = [(n, p)]) :
    execGovernorTick s = .next (({ s with ticks := s.ticks + 1 } : State).tickPart n) := by
  unfold execGovernorTick
  rw [if_neg (by simpa [State.tickDue] using hdue), hparts]
  rfl

/-- The tick of a partition of one cluster. -/
theorem tickPart_one {s : State} {n c : Nat} (hmap : ((List.range 64).filter fun d => (s.part n).bitmap.getLsbD d) = [c]) :
    s.tickPart n = (s.updPart n fun p => { p with budget := p.pending, gmap := p.bitmap }).tickCluster c (s.part n).pending 1 := by
  unfold State.tickPart
  extract_lets s1 cs
  have hcs : cs = [c] := hmap
  have hbudget : (s1.part n).budget = (s.part n).pending := congrArg Part.budget (part_updPart_same s n _)
  rw [hcs, List.foldl_cons, List.foldl_nil, hbudget]
  rfl

/-- The governor of a cluster has served its asks from a bucket of `b`. -/
def State.served (s : State) (c b : Nat) : State :=
  s.updCluster c fun x => { x with bucket := (serveAsks b (s.cluster c).asks).1, asks := (serveAsks b (s.cluster c).asks).2.1 }

theorem cluster_served_same (s : State) (c b : Nat) : (s.served c b).cluster c =
    { s.cluster c with bucket := (serveAsks b (s.cluster c).asks).1, asks := (serveAsks b (s.cluster c).asks).2.1 } := by
  rw [State.served, cluster_updCluster_same]

theorem cluster_served_other (s : State) {c d : Nat} (b : Nat) (h : d ≠ c) : (s.served c b).cluster d = s.cluster d :=
  cluster_updCluster_other s _ h

/-- What the bucket of a cluster holds after a tick that adds `q` to it, before asks are served (R546). -/
def State.filled (s : State) (c q : Nat) : Nat := min ((s.cluster c).bucket + q) (4 * q)

/-- The tick of a cluster on a die that is not hot. -/
theorem tickCluster_cool {s : State} {c : Nat} (budget k : Nat) (hcool : s.hot.getLsbD (c / 16) = false) :
    s.tickCluster c budget k = (serveAsks (s.filled c (grantsPerTick budget k)) (s.cluster c).asks).2.2.foldl (fun s x => s.grantTo x.1 x.2)
      (s.served c (s.filled c (grantsPerTick budget k))) := by
  unfold State.tickCluster
  rw [hcool]
  rfl

theorem grantTo_rest (s : State) (a : Ask) (n : Nat) :
    s.grantTo a n = { s with phrases := (s.grantTo a n).phrases, cores := (s.grantTo a n).cores } := by
  unfold State.grantTo
  split
  · rfl
  · split <;> rfl

theorem foldl_grantTo_rest (xs : List (Ask × Nat)) (s : State) : xs.foldl (fun s x => s.grantTo x.1 x.2) s =
    { s with phrases := (xs.foldl (fun s x => s.grantTo x.1 x.2) s).phrases, cores := (xs.foldl (fun s x => s.grantTo x.1 x.2) s).cores } := by
  induction xs generalizing s with
  | nil => rfl
  | cons x xs ih =>
    rw [List.foldl_cons, ih, grantTo_rest]

/-- What a tick of a cluster leaves: it serves the asks of the cluster, and changes no other. -/
theorem tickCluster_served {s : State} {c : Nat} (budget k : Nat) (hcool : s.hot.getLsbD (c / 16) = false) :
    let t := s.tickCluster c budget k
    t.ticks = s.ticks ∧ t.parts = s.parts ∧ t.mem = s.mem ∧
      (t.cluster c).bucket = (serveAsks (s.filled c (grantsPerTick budget k)) (s.cluster c).asks).1 ∧
      (t.cluster c).asks = (serveAsks (s.filled c (grantsPerTick budget k)) (s.cluster c).asks).2.1 ∧
      ∀ d, d ≠ c → t.cluster d = s.cluster d := by
  intro t
  have hrest : t = { s.served c (s.filled c (grantsPerTick budget k)) with phrases := t.phrases, cores := t.cores } := by
    rw [show t = _ from tickCluster_cool budget k hcool]
    exact foldl_grantTo_rest _ _
  have hcluster (d : Nat) : t.cluster d = (s.served c (s.filled c (grantsPerTick budget k))).cluster d := by
    rw [hrest]
    rfl
  refine ⟨?_, ?_, ?_, ?_, ?_, fun d hd => (hcluster d).trans (cluster_served_other s _ hd)⟩
  · rw [hrest]; rfl
  · rw [hrest]; rfl
  · rw [hrest]; rfl
  · rw [hcluster, cluster_served_same]
  · rw [hcluster, cluster_served_same]

/-- The only ask of a cluster, where it is a phrase's, gets its grants at the tick. -/
theorem phr_tickCluster_one {s : State} {c : Nat} (budget k : Nat) (hcool : s.hot.getLsbD (c / 16) = false) {a : Ask}
    (hasks : (s.cluster c).asks = [a]) (hop : a.op = none) :
    ((s.tickCluster c budget k).phr a.phrase).grants = (s.phr a.phrase).grants + min a.need (s.filled c (grantsPerTick budget k)) := by
  rw [tickCluster_cool budget k hcool, hasks, serveAsks_one, List.foldl_cons, List.foldl_nil]
  unfold State.grantTo
  rw [hop]
  exact congrArg Phrase.grants (phr_updPhr_same _ _ _)

end Sys2Proof.Machine

namespace Sys2Proof

open Machine

theorem tokenMoves : Claims.TokenMoves := by
  unfold Claims.TokenMoves
  intro s sd sa core p eng on passes answers
  have hpasses : ∀ {t q}, PassesToken s t core q → passes t q := by
    rintro t q ⟨htoken, hctx, hops, hcontents, hmem, hphr⟩
    exact ⟨htoken, hctx, hops, hcontents, hmem, hphr⟩
  refine ⟨fun hheld => ?_, fun hother hfree hnone _ => ?_, fun hother htaken => ?_, fun hqueue => ⟨fun hother => ?_, fun hheld hwait =>
    ⟨fun hzero htakers => ?_, fun hsome hnone => ?_, fun q hsome hq => ?_⟩⟩⟩
  · exact ⟨_, execMxtake_held hheld, adv_moves s⟩
  · have hme : (s.giveToken core p).me = s.me := by
      rw [State.me, giveToken_cur]
      exact frag_giveToken (.inl fun hmem => hnone _ hmem rfl)
    refine ⟨_, execMxtake_free hother hfree, hpasses ((giveToken_passes s core p).onlyFrag (onlyFrag_adv _)), ?_⟩
    rw [me_adv]
    exact congrArg (fun f : Frag => { f with pc := f.pc + 4 }) hme
  · exact ⟨_, execMxtake_waits hother htaken, me_updMe s fun f => { f with wait := .token },
      congrArg Core.engine (core_updCore_same _ core _), rfl⟩
  · exact gives_of_eq (execMxgive_other sd hqueue hother) (putNext_writes sd 2 s)
  · obtain ⟨t, ht, hw⟩ := putNext_writes sd 0 (s.freeToken core)
    refine ⟨t, (execMxgive_frees sd hqueue hheld hzero).trans ht, ?_⟩
    rw [freeToken_of_no_takers htakers] at hw
    refine ⟨hw.answers rfl, ?_⟩
    rw [hw.only.core]
    exact congrArg Core.engine (core_updCore_same s core _)
  · exact gives_of_eq (execMxgive_unknown sd hqueue hheld hsome hnone) (putNext_writes sd 1 s)
  · obtain ⟨t, ht, hw⟩ := putNext_writes sd 0 (s.giveToken core q)
    have hme : (s.giveToken core q).me = s.me := by
      rw [State.me, giveToken_cur]
      exact frag_giveToken (.inr (.inr (by rw [← State.me, hwait]; simp)))
    exact ⟨t, (execMxgive_passes sd hqueue hheld hsome hq).trans ht, hw.answers hme, hpasses ((giveToken_passes s core q).onlyFrag hw.only)⟩

theorem grants : Claims.Grants := by
  unfold Claims.Grants
  refine ⟨?_, ?_⟩
  · intro s sa imm n room c m
    refine ⟨fun hm => ⟨_, execMxask_nothing hm, adv_moves s⟩, fun hm => ?_⟩
    have hcluster := cluster_updCluster_same s c fun x => { x with asks := putAsk (s.askOf m) x.asks }
    exact ⟨_, execMxask_asks hm, me_adv _, rfl, rfl, s.askOf m, rfl, rfl, rfl,
      (List.Perm.of_eq (congrArg Cluster.asks hcluster)).trans (putAsk_perm _ _), (congrArg Cluster.bucket hcluster).trans rfl⟩
  · intro s n c p hdue hparts hmap hcool q have'
    let s1 : State := State.updPart { s with ticks := s.ticks + 1 } n fun p => { p with budget := p.pending, gmap := p.bitmap }
    have hpart : s.part n = p := by simp [State.part, hparts, tget]
    have ht : execGovernorTick s = .next (s1.tickCluster c p.pending 1) := by
      rw [execGovernorTick_one hdue hparts, tickPart_one (by rw [← hmap, ← hpart]; rfl), ← hpart]
      rfl
    have hfilled : s1.filled c (grantsPerTick p.pending 1) = have' := by
      simp [State.filled, grantsPerTick, have', q, s1, State.cluster, State.updPart]
    obtain ⟨hticks, hparts', hmem, hbucket, hasks, hothers⟩ := tickCluster_served (s := s1) p.pending 1 hcool
    have hold : (s1.cluster c).asks = (s.cluster c).asks := rfl
    rw [hfilled, hold] at hbucket hasks
    refine ⟨_, ht, hticks, ?_, hmem, hothers, fun hnone => ?_, fun a hone hop => ?_⟩
    · rw [State.part, hparts', ← hpart]
      exact congrArg Part.budget (part_updPart_same _ n _)
    · rw [hbucket, hasks, hnone]
      exact ⟨rfl, rfl⟩
    · rw [hbucket, hasks, hone, serveAsks_one]
      refine ⟨?_, rfl, rfl⟩
      rw [← hfilled]
      exact phr_tickCluster_one (s := s1) p.pending 1 hcool hone hop

/-- Settles O24: a token that passes changes the engine as `Engine.passed` says, and the fragments that wait for it; a tick serves the asks
of a cluster from its filled bucket, by `serveAsks`. -/
theorem tokenAndGrants : Obligations.TokenAndGrants := by
  unfold Obligations.TokenAndGrants
  exact ⟨tokenMoves, grants⟩

end Sys2Proof

/-!
# The module right after reset (O55)
-/
namespace Sys2Proof.Machine

/-- What holds of every item that a table lists, and of the item that stands for the others, holds of each number. -/
theorem tget_of_forall {α : Type} {P : α → Prop} {d : α} {t : Tbl α} (hd : P d) (ht : ∀ e ∈ t, P e.2) (n : Nat) : P (tget d t n) := by
  induction t with
  | nil => exact hd
  | cons e t ih =>
    obtain ⟨k, v⟩ := e
    rw [tget]
    split
    · exact ht (k, v) List.mem_cons_self
    · exact ih fun e he => ht e (List.mem_cons_of_mem _ he)

/-- The optical ports right after reset are down, and their counters are zero (R543, R226). -/
theorem fport_reset (n : Nat) : (State.reset.fport n).up = false ∧ ∀ c, tget 0 (State.reset.fport n).counters c = 0 := by
  refine tget_of_forall (P := fun p : FPort => p.up = false ∧ ∀ c, tget 0 p.counters c = 0) ⟨rfl, fun _ => rfl⟩ ?_ n
  intro e he
  obtain ⟨n, -, rfl⟩ := List.mem_map.1 he
  exact ⟨rfl, fun _ => rfl⟩

theorem hostPort_reset (hp : Bool) : State.reset.hostPort hp = {} := by cases hp <;> rfl

end Sys2Proof.Machine

namespace Sys2Proof

open Machine

/-- Settles O55: each table of the reset state is empty, so that every number reads as its default, but for that of the optical ports,
which `fport_reset` treats. -/
theorem resetValues : Obligations.ResetValues := by
  unfold Obligations.ResetValues
  intro s
  have hmem (a : Nat) (ha : a < 0x400000000) : readByte s.mem a = 0 := unlisted_own (.inl (ha.trans (by decide)))
  have hport (hp : Bool) : (s.hostPort hp).gone = false ∧ (s.hostPort hp).linkup = false ∧ (s.hostPort hp).tdisp = .unlocked := by
    rw [hostPort_reset]
    exact ⟨rfl, rfl, rfl⟩
  exact ⟨rfl, Nat.zero_div 11, rfl, wf_nil, hmem, rfl, rfl, rfl, rfl, rfl, rfl, fun _ => ⟨rfl, rfl, rfl⟩, fun _ => ⟨rfl, rfl⟩,
    fun _ => rfl, hport, fport_reset, fun _ => rfl, fun _ => rfl, fun _ => ⟨rfl, rfl⟩, rfl, rfl, fun _ => rfl⟩

end Sys2Proof

/-!
# Answers of hosts, and events of the pool (O40)
-/
namespace Sys2Proof.Machine

/-! ### A state in which nothing waits for a page of a host -/

/-- No access, copy or fragment stands that may wait for a page of a host, and no noun port has a completion or a command. -/
structure State.NoneWaits (s : State) : Prop where
  accs   : s.accs = []
  copies : s.copies = []
  frags  : s.frags = []
  ports  : ∀ e ∈ s.host.ports, e.2.comps = [] ∧ e.2.cmds = []

theorem ports_updHostPort (s : State) (hp : Bool) (g : HostPort → HostPort) : (s.updHostPort hp g).host.ports = s.host.ports := by
  cases hp <;> rfl

theorem out_updHostPort (s : State) (hp : Bool) (g : HostPort → HostPort) : (s.updHostPort hp g).host.out = s.host.out := by
  cases hp <;> rfl

theorem State.NoneWaits.updHostPort {s : State} (h : s.NoneWaits) (hp : Bool) (g : HostPort → HostPort) : (s.updHostPort hp g).NoneWaits :=
  ⟨h.accs, h.copies, h.frags, (ports_updHostPort s hp g).symm ▸ h.ports⟩

theorem State.NoneWaits.dropReq {s : State} (h : s.NoneWaits) (hp : Bool) (q : HostReq) : (s.dropReq hp q).NoneWaits := h.updHostPort hp _

theorem State.NoneWaits.tidy {s : State} (h : s.NoneWaits) : s.tidy.NoneWaits := ⟨h.accs, h.copies, h.frags, h.ports⟩

theorem State.NoneWaits.updMem {s : State} (h : s.NoneWaits) (g : Mem → Mem) : (s.updMem g).NoneWaits :=
  ⟨h.accs, h.copies, h.frags, h.ports⟩

theorem State.NoneWaits.withNouns {s : State} (h : s.NoneWaits) (ns : List NounOp) : ({ s with nouns := ns } : State).NoneWaits :=
  ⟨h.accs, h.copies, h.frags, h.ports⟩

theorem State.NoneWaits.sends {s : State} (h : s.NoneWaits) (m : HostMsg) :
    (s.updHost fun h => { h with out := h.out ++ [m] }).NoneWaits :=
  ⟨h.accs, h.copies, h.frags, h.ports⟩

section
variable {s : State} (h : s.NoneWaits)
include h

/-- Nothing asks for its page again. -/
theorem State.NoneWaits.reAsk (hp : Bool) : s.reAsk hp = s := by
  have hcomps : ((s.host.ports.filter fun e => s.hportOf e.2.ctx == hp).flatMap fun e =>
      e.2.comps.map fun c => (e.2.ctx, pageOf c.caddr, true)) = [] := by
    refine List.flatMap_eq_nil_iff.2 fun e he => ?_
    rw [(h.ports e (List.mem_filter.1 he).1).1, List.map_nil]
  unfold State.reAsk
  rw [hcomps, h.accs]
  rfl

theorem State.NoneWaits.retryComps (ctx page : Nat) : s.retryComps ctx page = s := by
  have hcomps : (s.host.ports.flatMap fun e =>
      if e.2.ctx == ctx then (e.2.comps.filter fun c => pageOf c.caddr == page).map fun c => (e.1, c) else []) = [] := by
    refine List.flatMap_eq_nil_iff.2 fun e he => ?_
    rw [(h.ports e he).1, List.filter_nil, List.map_nil, ite_self]
  unfold State.retryComps
  rw [hcomps]
  rfl

theorem State.NoneWaits.cleared : ({ s with copies := [], frags := [] } : State) = s := by rw [← h.copies, ← h.frags]

theorem State.NoneWaits.retryPage (ctx page : Nat) : s.retryPage ctx page = s := by
  unfold State.retryPage
  simp only [h.retryComps, h.copies, h.frags, List.map_nil]
  exact h.cleared

theorem State.NoneWaits.failComps (ctx page : Nat) : s.failComps ctx page = s := by
  have hports : (s.failComps ctx page).host.ports = s.host.ports := by
    refine (List.map_congr_left fun e he => ?_).trans (List.map_id _)
    obtain ⟨hcomps, hcmds⟩ := h.ports e he
    simp [hcomps, NounPort.packetPage, hcmds]
  have hrest : s.failComps ctx page = { s with host := { s.host with ports := (s.failComps ctx page).host.ports } } := rfl
  rw [hrest, hports]

/-- Of what waits for a page, noun operations alone may be left: they learn that it has failed. -/
theorem State.NoneWaits.failPage (ctx page : Nat) (sub : BitVec 8) : ∃ ns, s.failPage ctx page sub = { s with nouns := ns } := by
  unfold State.failPage
  simp only [h.failComps, h.copies, h.frags, List.map_nil]
  exact ⟨_, rfl⟩

theorem State.NoneWaits.failEarly (hp : Bool) (q : HostReq) : s.failEarly hp q = s := by
  unfold State.failEarly
  rw [h.accs]
  rfl

end

/-! ### A request ends (R149, R150, R477) -/

/-- The request `q` of a port has ended, and the other port's requests stand. -/
structure ReqEnds (s t : State) (hp : Bool) (q : HostReq) : Prop where
  gone   : (t.hostPort hp).reqs = (s.hostPort hp).reqs.erase q
  others : t.hostPort (!hp) = s.hostPort (!hp)

theorem hostPort_updHostPort_same (s : State) (hp : Bool) (g : HostPort → HostPort) : (s.updHostPort hp g).hostPort hp = g (s.hostPort hp) := by
  rw [hostPort_updHostPort, if_pos rfl]

theorem hostPort_updHostPort_other (s : State) (hp : Bool) (g : HostPort → HostPort) :
    (s.updHostPort hp g).hostPort (!hp) = s.hostPort (!hp) := by
  rw [hostPort_updHostPort, if_neg (by cases hp <;> decide)]

theorem reqEnds_dropReq (s : State) (hp : Bool) (q : HostReq) : ReqEnds s (s.dropReq hp q) hp q :=
  ⟨congrArg HostPort.reqs (hostPort_updHostPort_same s hp _), hostPort_updHostPort_other s hp _⟩

theorem out_dropReq (s : State) (hp : Bool) (q : HostReq) : (s.dropReq hp q).host.out = s.host.out := out_updHostPort s hp _

theorem atc_dropReq (s : State) (hp : Bool) (q : HostReq) : ((s.dropReq hp q).hostPort hp).atc = (s.hostPort hp).atc := by
  rw [State.dropReq, hostPort_updHostPort_same]

/-- What the only fault-list entry of a request, if it has one, says after its end (R477): STATE, the cause HOST where it has failed, and
the sub-cause. -/
def FlMarked (q : HostReq) (m m' : Mem) (st sub : Nat) : Prop :=
  ∀ a, q.flidx = [a] → readNat m' (a + 9) 1 = st ∧ (st = 2 → readNat m' (a + 10) 1 = 0x0E) ∧ readNat m' (a + 11) 1 = sub ∧
    ∀ k, k ≠ a + 9 → k ≠ a + 10 → k ≠ a + 11 → readByte m' k = readByte m k

/-- One byte that is written reads as written, and the others as before. -/
theorem readByte_writeNat_one {m : Mem} (hwf : Memory.wf m) (a v k : Nat) :
    readByte (writeNat a 1 v m) k = if k = a then BitVec.ofNat 8 v else readByte m k := by
  split
  · next hk => rw [hk]; exact readByte_writeByte_same a _ hwf
  · next hk => exact readByte_writeByte_other _ hk hwf

/-- The three bytes of a fault-list entry read as they were written. -/
theorem flMarked_pokes (q : HostReq) {m : Mem} (hwf : Memory.wf m) {st cause sub : Nat} (hst : st < 256) (hsub : sub < 256)
    (hcause : st = 2 → cause = 0x0E) : FlMarked q m (pokes (q.flidx.flatMap (flistPokes st cause sub)) m) st sub := by
  intro a ha
  have hread (k : Nat) : readByte (pokes (q.flidx.flatMap (flistPokes st cause sub)) m) k =
      if k = a + 11 then BitVec.ofNat 8 sub else if k = a + 10 then BitVec.ofNat 8 cause else
        if k = a + 9 then BitVec.ofNat 8 st else readByte m k := by
    have h9 := writeNat_wf (a + 9) 1 st hwf
    rw [ha, List.flatMap_singleton]
    exact (readByte_writeNat_one (writeNat_wf (a + 10) 1 cause h9) _ _ _).trans
      (if_congr Iff.rfl rfl ((readByte_writeNat_one h9 _ _ _).trans (if_congr Iff.rfl rfl (readByte_writeNat_one hwf _ _ _))))
  refine ⟨?_, fun h2 => ?_, ?_, fun k h9 h10 h11 => ?_⟩
  · rw [readNat_one, hread, if_neg (by omega), if_neg (by omega), if_pos rfl]
    exact Nat.mod_eq_of_lt hst
  · rw [readNat_one, hread, if_neg (by omega), if_pos rfl, hcause h2]
    rfl
  · rw [readNat_one, hread, if_pos rfl]
    exact Nat.mod_eq_of_lt hsub
  · rw [hread, if_neg h11, if_neg h10, if_neg h9]

/-- A request that fails ends, and its fault-list entry says so. -/
theorem reqEnds_failReq {s : State} (h : s.NoneWaits) (hwf : Memory.wf s.mem) (hp : Bool) (q : HostReq) (sub : BitVec 8) :
    ReqEnds s ((s.failReq hp q sub).reAsk hp) hp q ∧ FlMarked q s.mem ((s.failReq hp q sub).reAsk hp).mem 2 sub.toNat := by
  let s0 := s.updMem (pokes (q.flidx.flatMap (flistPokes 2 0x0E sub.toNat)))
  have h0 : s0.NoneWaits := h.updMem _
  obtain ⟨ns, hns⟩ := h0.failPage q.ctx q.page sub
  have hfail : s.failReq hp q sub = (State.dropReq { s0 with nouns := ns } hp q).tidy := by
    unfold State.failReq
    rw [show (s.updMem _).failPage q.ctx q.page sub = _ from hns]
    dsimp only
    rw [h0.accs]
    rfl
  rw [hfail, ((h0.withNouns ns).dropReq hp q).tidy.reAsk hp]
  refine ⟨?_, flMarked_pokes q hwf (by decide) sub.isLt fun _ => rfl⟩
  obtain ⟨hgone, hothers⟩ := reqEnds_dropReq ({ s0 with nouns := ns } : State) hp q
  exact ⟨hgone, hothers⟩

/-! ### ATS completions and page responses (R149, R150) -/

section
variable {s : State} {hp : Bool} {ctx page : Nat} {q : HostReq}

theorem execAtsCompletion_unasked (h : (s.hostPort hp).reqs.find? (fun q => q.isFor ctx page && !q.pri) = none) (g : AtsGrant) :
    execAtsCompletion hp ctx page g s = .next s := by
  unfold execAtsCompletion
  rw [h]

theorem execAtsCompletion_refuses (h : (s.hostPort hp).reqs.find? (fun q => q.isFor ctx page && !q.pri) = some q) :
    execAtsCompletion hp ctx page .none s = .next ((s.notGranted hp q).reAsk hp) := by
  unfold execAtsCompletion
  rw [h]

theorem execAtsCompletion_grants (h : (s.hostPort hp).reqs.find? (fun q => q.isFor ctx page && !q.pri) = some q) {w : Bool}
    (hw : w = true ∨ q.write = false) (host : Nat) : execAtsCompletion hp ctx page (.page w host) s =
      .next (((s.updHostPort hp fun p => { p with atc := atcAdd ⟨ctx, page, host, w⟩ p.atc }).granted hp q).reAsk hp) := by
  unfold execAtsCompletion
  rw [h]
  exact congrArg (fun u : State => Host.Outcome.next (u.reAsk hp)) (if_pos (by simpa using hw))

theorem execPriResponse_unasked (h : (s.hostPort hp).reqs.find? (fun q => q.isFor ctx page && q.pri) = none) (ok : Bool) :
    execPriResponse hp ctx page ok s = .next s := by
  unfold execPriResponse
  rw [h]

theorem execPriResponse_fails (h : (s.hostPort hp).reqs.find? (fun q => q.isFor ctx page && q.pri) = some q) :
    execPriResponse hp ctx page false s = .next ((s.failReq hp q 0x01).reAsk hp) := by
  unfold execPriResponse
  rw [h]
  rfl

theorem execPriResponse_succeeds (h : (s.hostPort hp).reqs.find? (fun q => q.isFor ctx page && q.pri) = some q)
    (hawaited : s.pageAwaited hp ctx page = false) : execPriResponse hp ctx page true s =
      .next (((s.updMem (pokes (q.flidx.flatMap (flistPokes 1 0 0)))).dropReq hp q).reAsk hp) := by
  unfold execPriResponse
  rw [h]
  simp [hawaited]

theorem execPriTimeout_ends (h : (s.hostPort hp).reqs = [q]) (hfor : q.isFor ctx page = true) (hdue : s.priOverdue q = true) :
    execPriTimeout hp ctx page s = .next ((s.failReq hp q 0x02).reAsk hp) := by
  unfold execPriTimeout
  rw [h]
  simp [hfor, hdue]

/-- Without the permission, and with nothing that waits, a Page Request follows, unless the request was a prefetch's or PRI is not
accepted. -/
theorem State.NoneWaits.notGranted (h : s.NoneWaits) (hp : Bool) (q : HostReq) : s.notGranted hp q =
    if q.quiet then (s.dropReq hp q).tidy else if !s.accepted 5 then s.failReq hp q 0x01 else s.pageRequest hp q := by
  unfold State.notGranted
  rw [h.failEarly]
  simp

/-- A Page Request that joins another one's ends as a request of its own. -/
theorem pageRequest_joins (hheld : s.pageHeld hp q.ctx q.page = true) (hmem : q ∈ (s.hostPort hp).reqs) :
    ((s.pageRequest hp q).hostPort hp).reqs.length + 1 = (s.hostPort hp).reqs.length ∧
      (s.pageRequest hp q).hostPort (!hp) = s.hostPort (!hp) ∧ (s.pageRequest hp q).mem = s.mem ∧
      (s.pageRequest hp q).host.out = s.host.out := by
  unfold State.pageRequest
  rw [if_pos hheld]
  refine ⟨?_, ?_, rfl, ?_⟩
  · rw [hostPort_updHostPort_same, (List.length_map _ : _ = _), (reqEnds_dropReq s hp q).gone, List.length_erase_of_mem hmem]
    exact Nat.sub_add_cancel (List.length_pos_of_mem hmem)
  · rw [hostPort_updHostPort_other, (reqEnds_dropReq s hp q).others]
  · rw [out_updHostPort]
    exact out_dropReq s hp q

/-- A Page Request that goes out: its request stands, as one of PRI. -/
theorem pageRequest_asks (hheld : s.pageHeld hp q.ctx q.page = false) (hmem : q ∈ (s.hostPort hp).reqs) :
    (s.pageRequest hp q).hostPort (!hp) = s.hostPort (!hp) ∧ (s.pageRequest hp q).mem = s.mem ∧
      (s.pageRequest hp q).host.out = s.host.out ++ [.pageReq hp q.ctx q.page] ∧
      { q with pri := true, since := s.dtime } ∈ ((s.pageRequest hp q).hostPort hp).reqs := by
  unfold State.pageRequest
  rw [if_neg (by simp [hheld])]
  refine ⟨hostPort_updHostPort_other s hp _, rfl, congrArg (· ++ _) (out_updHostPort s hp _), ?_⟩
  have hport := hostPort_updHostPort_same s hp fun p =>
    { p with reqs := p.reqs.map fun x => if x == q then { x with pri := true, since := s.dtime } else x }
  refine Eq.mpr (congrArg (_ ∈ HostPort.reqs ·) hport) (List.mem_map.2 ⟨q, hmem, ?_⟩)
  simp

theorem State.NoneWaits.pageRequest (h : s.NoneWaits) (hp : Bool) (q : HostReq) : (s.pageRequest hp q).NoneWaits := by
  unfold State.pageRequest
  split
  · exact (h.dropReq hp q).updHostPort hp _
  · exact (h.updHostPort hp _).sends _

end

end Sys2Proof.Machine

namespace Sys2Proof

open Machine

theorem hostAnswers : Claims.HostAnswers := by
  unfold Claims.HostAnswers
  intro s hp ctx page q haccs hcopies hfrags hports hctx hpage P gone others marked hwf
  subst hctx hpage
  have hs : s.NoneWaits := ⟨haccs, hcopies, hfrags, hports⟩
  have hfails (sub : BitVec 8) : gone ((s.failReq hp q sub).reAsk hp) ∧ others ((s.failReq hp q sub).reAsk hp) ∧
      marked ((s.failReq hp q sub).reAsk hp) 2 sub.toNat := by
    obtain ⟨⟨hgone, hothers⟩, hmarked⟩ := reqEnds_failReq hs hwf hp q sub
    exact ⟨hgone, hothers, hmarked⟩
  refine ⟨fun w host hfind => ?_, execAtsCompletion_unasked, fun hfind => ?_, execPriResponse_unasked, fun hreqs hpri hdue => ?_, fun n => ?_⟩
  · have hmem : q ∈ (s.hostPort hp).reqs := List.mem_of_find?_eq_some hfind
    have hrefuse := execAtsCompletion_refuses (s := s) hfind
    rw [hs.notGranted] at hrefuse
    refine ⟨fun hw => ?_, fun hquiet => ?_, fun hquiet hpri hheld => ?_, fun hquiet hpri hheld => ?_, fun hquiet hpri => ?_⟩
    · let s1 := s.updHostPort hp fun p => { p with atc := atcAdd ⟨q.ctx, q.page, host, w⟩ p.atc }
      have h1 : s1.NoneWaits := hs.updHostPort hp _
      have hport : s1.hostPort hp = { s.hostPort hp with atc := atcAdd ⟨q.ctx, q.page, host, w⟩ (s.hostPort hp).atc } :=
        hostPort_updHostPort_same s hp _
      have ht : (s1.granted hp q).reAsk hp = (s1.dropReq hp q).tidy := by
        rw [State.granted, (h1.dropReq hp q).retryPage, (h1.dropReq hp q).tidy.reAsk]
      have hatc : ((s1.dropReq hp q).hostPort hp).atc = atcAdd ⟨q.ctx, q.page, host, w⟩ (s.hostPort hp).atc := by
        rw [atc_dropReq, hport]
      obtain ⟨hgone, hothers⟩ := reqEnds_dropReq s1 hp q
      refine ⟨_, execAtsCompletion_grants hfind hw host, ?_⟩
      rw [show (State.granted _ hp q).reAsk hp = _ from ht]
      refine ⟨hgone.trans (by rw [hport]), hothers.trans (hostPort_updHostPort_other s hp _), rfl, ?_, ?_⟩
      · exact ⟨_, hatc⟩
      · exact (congrArg List.length hatc).trans_le (List.length_take_le _ _)
    · rw [if_pos hquiet, (hs.dropReq hp q).tidy.reAsk] at hrefuse
      obtain ⟨hgone, hothers⟩ := reqEnds_dropReq s hp q
      exact ⟨_, hrefuse, hgone, hothers, rfl, out_dropReq s hp q, atc_dropReq s hp q⟩
    · rw [if_neg (by simp [hquiet]), if_neg (by simp [hpri]), (hs.pageRequest hp q).reAsk] at hrefuse
      obtain ⟨hlength, hothers, hmem', hout⟩ := pageRequest_joins hheld hmem
      exact ⟨_, hrefuse, hothers, hmem', hout, hlength⟩
    · rw [if_neg (by simp [hquiet]), if_neg (by simp [hpri]), (hs.pageRequest hp q).reAsk] at hrefuse
      obtain ⟨hothers, hmem', hout, hreq⟩ := pageRequest_asks hheld hmem
      exact ⟨_, hrefuse, hothers, hmem', hout, _, hreq, rfl⟩
    · rw [if_neg (by simp [hquiet]), if_pos (by simp [hpri])] at hrefuse
      exact ⟨_, hrefuse, hfails 0x01⟩
  · refine ⟨fun hawaited => ?_, _, execPriResponse_fails hfind, hfails 0x01⟩
    let s1 := s.updMem (pokes (q.flidx.flatMap (flistPokes 1 0 0)))
    have h1 : s1.NoneWaits := hs.updMem _
    have ht : (s1.dropReq hp q).reAsk hp = s1.dropReq hp q := (h1.dropReq hp q).reAsk hp
    obtain ⟨hgone, hothers⟩ := reqEnds_dropReq s1 hp q
    refine ⟨_, (execPriResponse_succeeds hfind hawaited).trans (congrArg Host.Outcome.next ht), hgone, hothers, ?_⟩
    exact flMarked_pokes q hwf (by decide) (by decide) fun h => by cases h
  · refine ⟨_, execPriTimeout_ends hreqs (by simp [HostReq.isFor]) ?_, hfails 0x02⟩
    simp [State.priOverdue, hpri, hdue]
  · let s1 := s.updHostPort hp fun p => { p with atc := p.atc.filter fun e => !(e.ctx == q.ctx && q.page ≤ e.page && e.page < q.page + n) }
    have ht : s1.reAsk hp = s1 := (hs.updHostPort hp _).reAsk hp
    have hport : s1.hostPort hp = _ := hostPort_updHostPort_same s hp _
    refine ⟨_, congrArg Host.Outcome.next ht, hostPort_updHostPort_other s hp _, rfl, by rw [hport], fun e => ?_⟩
    rw [hport, List.mem_filter, Bool.not_eq_true', ← Bool.not_eq_true]
    simp only [Bool.and_eq_true, beq_iff_eq, decide_eq_true_eq, and_assoc, P]

end Sys2Proof

namespace Sys2Proof.Machine

/-! ### Vectors, extents and links (R492, R495-R498, R543) -/

/-- A vector that is raised changes the host side alone. -/
theorem raise_rest (s : State) (v : Nat) : s.raise v = { s with host := (s.raise v).host } := by
  unfold State.raise
  split
  · rfl
  · rfl

theorem events_raise (s : State) (v : Nat) : (s.raise v).host.events = s.host.events := by
  unfold State.raise
  split
  · rfl
  · rfl

theorem raise_pool (s : State) (v : Nat) : (s.raise v).pool = s.pool := by rw [raise_rest]

theorem freeExtent_none {q : Pool} (h : ∀ n, n < 28 → (tfind q.extents n).isSome = true) : q.freeExtent = none := by
  rw [Pool.freeExtent, List.find?_range_eq_none]
  intro n hn
  simpa using h n hn

theorem freeExtent_lowest {q : Pool} {n : Nat} (hn : n < 28) (hfree : tfind q.extents n = none)
    (hbelow : ∀ m, m < n → (tfind q.extents m).isSome = true) : q.freeExtent = some n := by
  rw [Pool.freeExtent, List.find?_range_eq_some]
  refine ⟨by simp [hfree], List.mem_range.2 hn, fun m hm => ?_⟩
  simpa using hbelow m hm

theorem execDynamicCapacityAdd_full {s : State} (h : s.pool.freeExtent = none) (a len : BitVec 32) :
    execDynamicCapacityAdd a len s = .next (s.raise 5) := by
  unfold execDynamicCapacityAdd
  rw [h]

theorem execDynamicCapacityAdd_adds {s : State} {n : Nat} (h : s.pool.freeExtent = some n) (a len : BitVec 32) :
    execDynamicCapacityAdd a len s =
      .next ((s.updPool fun q => { q with extents := tput n (a.toNat, len.toNat) q.extents }).raise 5) := by
  unfold execDynamicCapacityAdd
  rw [h]

/-- The bit of a port, at any place. -/
theorem getLsbD_portBit (p : BitVec 4) (n : Nat) : (portBit p).getLsbD n = (n == p.toNat) := by
  have hbit : portBit p = BitVec.twoPow 16 p.toNat := by
    apply BitVec.eq_of_toNat_eq
    rw [portBit, BitVec.toNat_ofNat, BitVec.toNat_twoPow]
  have hp : p.toNat < 16 := p.isLt
  rw [hbit, BitVec.getLsbD_twoPow, Bool.eq_iff_iff]
  simp only [Bool.and_eq_true, decide_eq_true_eq, beq_iff_eq]
  omega

theorem getLsbD_clear_portBit (x : BitVec 16) (p : BitVec 4) (n : Nat) :
    (x &&& ~~~portBit p).getLsbD n = (x.getLsbD n && n != p.toNat) := by
  rw [BitVec.getLsbD_and, BitVec.getLsbD_not, getLsbD_portBit]
  by_cases hn : n < 16
  · simp [hn, bne]
  · simp [BitVec.getLsbD_of_ge x n (by omega)]

/-! ### Event records (R498) -/

/-- A device's record goes to the holder of the lease, or waits for the next one. -/
def State.withEvent (s : State) (r : List Byte) : State :=
  s.updHost fun h => if s.leaseHeld then { h with out := h.out ++ [.event h.lease.holder r] } else { h with events := h.events ++ [r] }

theorem withEvent_held {s : State} (h : s.leaseHeld = true) (r : List Byte) :
    (s.withEvent r).host = { s.host with out := s.host.out ++ [.event s.host.lease.holder r] } := if_pos h

theorem withEvent_kept {s : State} (h : s.leaseHeld = false) (r : List Byte) :
    (s.withEvent r).host = { s.host with events := s.host.events ++ [r] } := if_neg (by simp [h])

theorem lease_withEvent (s : State) (r : List Byte) : (s.withEvent r).host.lease = s.host.lease := by
  cases h : s.leaseHeld
  · rw [withEvent_kept h]
  · rw [withEvent_held h]

theorem leaseHeld_of_canRaise {s : State} {v : Nat} (h : s.canRaise v = true) : s.leaseHeld = true := (Bool.and_eq_true_iff.1 h).1

theorem canRaise_withEvent (s : State) (r : List Byte) (v : Nat) : (s.withEvent r).canRaise v = s.canRaise v := by
  have hport (hp : Bool) : (s.withEvent r).hostPort hp = s.hostPort hp := by
    cases h : s.leaseHeld
    · rw [State.hostPort, withEvent_kept h]; rfl
    · rw [State.hostPort, withEvent_held h]; rfl
  rw [State.canRaise, State.leaseHeld, lease_withEvent, hport]
  rfl

/-- A vector that cannot be delivered is pending. -/
theorem Raised.isPending {s t : State} {v : Nat} (h : Raised s t v) (hv : v < 16) (hcan : s.canRaise v = false) :
    t.host.out = s.host.out ∧ t.host.pending.getLsbD v = true := by
  obtain ⟨hout, hpending⟩ := h.2 hcan
  refine ⟨hout, ?_⟩
  rw [hpending, BitVec.getLsbD_or, BitVec.getLsbD_twoPow]
  simp [hv]

/-! ### A copy whose granule is at the pool stops (R371, R496) -/

theorem dropRange_copies (s : State) (a n : Nat) : (s.dropRange a n).copies = s.copies := by rw [State.dropRange]; split <;> rfl
theorem dropRange_phrases (s : State) (a n : Nat) : (s.dropRange a n).phrases = s.phrases := by rw [State.dropRange]; split <;> rfl

/-- The words of a copy's record are written: copies and phrases stand. -/
theorem dropRecordTags_keeps (s : State) (c : CopyOp) :
    (s.dropRecordTags c).copies = s.copies ∧ (s.dropRecordTags c).phrases = s.phrases := by
  unfold State.dropRecordTags
  generalize c.records = as
  induction as generalizing s with
  | nil => exact ⟨rfl, rfl⟩
  | cons a as ih =>
    obtain ⟨hcopies, hphrases⟩ := ih (s.dropRange (recordKey c a + 56) 8)
    exact ⟨hcopies.trans (dropRange_copies ..), hphrases.trans (dropRange_phrases ..)⟩

theorem tfind_tmod_isSome {α : Type} {n m : Nat} {f : α → α} {t : Tbl α} (h : (tfind t m).isSome = true) :
    (tfind (tmod n f t) m).isSome = true := by
  induction t with
  | nil => exact h
  | cons e t ih =>
    obtain ⟨k, v⟩ := e
    rw [tfind] at h
    rw [tmod]
    by_cases hk : k = m
    · split <;> rw [tfind, if_pos hk] <;> rfl
    · rw [if_neg hk] at h
      split <;> rw [tfind, if_neg hk]
      · exact h
      · exact ih h

/-- A copy of a phrase that is there stands as one that has stopped. -/
theorem stopCopy_stopped {s : State} {c : CopyOp} (h : (tfind s.phrases c.phrase).isSome = true) (hmem : c ∈ s.copies) (st : CopySt)
    (cause : Cause) (sub : BitVec 8) (data : Word) : ∃ x ∈ (s.stopCopy c st cause sub data).copies, x.id = c.id ∧ x.st = st := by
  unfold State.stopCopy
  extract_lets c1 e s1
  have hcopies : s1.copies = (s.putCopy c1).copies := (dropRecordTags_keeps _ c).1.trans (dropRecordTags_keeps _ c).1
  have hphrases : (tfind s1.phrases c.phrase).isSome = true :=
    tfind_tmod_isSome (by rw [State.putCstat, updMem_phrases, (dropRecordTags_keeps _ c).2, State.putProgress, updMem_phrases,
      (dropRecordTags_keeps _ c).2]; exact h)
  rw [if_pos hphrases, hcopies]
  refine ⟨c1, List.mem_map.2 ⟨c, hmem, if_pos ?_⟩, rfl, rfl⟩
  exact beq_self_eq_true c.id

theorem execPoolTimeout_unknown {s : State} {id : Nat} (h : s.findAcc id = none) (hcopies : ∀ c ∈ s.copies, c.id ≠ id) :
    execPoolTimeout id s = .next s := by
  have hnone : s.copies.find? (fun c => c.id == id) = none := List.find?_eq_none.2 fun c hc => by simpa using hcopies c hc
  unfold execPoolTimeout State.copyTimeout
  rw [h, hnone]

theorem execPoolTimeout_copy {s : State} {c : CopyOp} {va : Nat} (h : s.findAcc c.id = none)
    (hfind : s.copies.find? (fun x => x.id == c.id) = some c) (hva : s.copyPoolVa c = some va) :
    execPoolTimeout c.id s = .next (s.stopCopy c .stopped .pool 0x01 (wordOf va)) := by
  unfold execPoolTimeout State.copyTimeout
  simp only [h, hfind, hva]

/-! ### A scalar access to the pool fails (R270, R496) -/

/-- The first part of an access lies at its address. -/
theorem splitParts_head (va len : Nat) : ∃ n xs, splitParts va len = (va, n) :: xs := by
  unfold splitParts
  extract_lets r
  split
  · exact ⟨_, _, rfl⟩
  · exact ⟨_, _, rfl⟩

/-- A lane of a scalar access that has failed at its address. -/
def LaneAcc.poolFailed (l : LaneAcc) : LaneAcc := { l with st := .failed .pool 0x01 l.addr }

/-- A scalar access of one part, which is at the pool, fails there. -/
theorem execPoolTimeout_scalar {s : State} {a : Access} {l : LaneAcc} {p : Piece} (h : s.findAcc a.id = some a) (hscalar : a.scalar = true)
    (hlanes : a.lanes = [l]) (hparts : l.parts = [p]) (hpath : p.path = 2) (hst : l.st = .todo) :
    let a1 := { a with lanes := [l.poolFailed] }
    execPoolTimeout a.id s = .next ((((s.putAcc a1).updFrag a.frag fun f => f.close a.id (~~~a1.paths))).checkAccess a.id) := by
  obtain ⟨n, xs, hsplit⟩ := splitParts_head l.addr.toNat a.bytes
  have hword : l.addr + wordOf 0 = l.addr := by simp [wordOf]
  unfold execPoolTimeout
  simp [h, hlanes, hparts, hpath, hst, hsplit, hscalar, LaneAcc.failAt, LaneAcc.poolFailed, hword]

/-- The cause of a trap and its sub-cause stand in the low half of ECAUSE (R463). -/
theorem Traps.ecause_low {s t : State} {k : Nat} {e : Exn} {epc : Word} (h : Traps s t k e epc) :
    ((t.frag k).bank (t.frag k).tl.toNat).ecause.extractLsb' 0 16 = BitVec.ofNat 16 (causeCode e.cause + 256 * e.sub.toNat) := by
  rw [h.ecause]
  apply BitVec.eq_of_toNat_eq
  rw [BitVec.extractLsb'_toNat, BitVec.toNat_ofNat, BitVec.toNat_ofNat, Nat.shiftRight_zero]
  omega

theorem close_tl (f : Frag) (id : Nat) (m : BitVec 5) : (f.close id m).tl = f.tl := rfl
theorem close_wait (f : Frag) (id : Nat) (m : BitVec 5) : (f.close id m).wait = f.wait := rfl

/-- A scalar access has left the state. -/
def State.withoutScalar (s : State) (a : Access) : State :=
  (({ s with accs := s.accs.filter fun b => b.id != a.id } : State).updFrag a.frag fun f => f.close a.id 0x1F).tidy

theorem frag_withoutScalar (s : State) (a : Access) : (s.withoutScalar a).frag a.frag = (s.frag a.frag).close a.id 0x1F := by
  rw [State.withoutScalar, frag_tidy, frag_updFrag_same]
  rfl

theorem findAcc_withoutScalar (s : State) (a : Access) : (s.withoutScalar a).findAcc a.id = none :=
  List.find?_eq_none.2 fun b hb => by simpa using (List.mem_filter.1 hb).2

/-- A scalar access whose one lane has failed ends with a trap, on a core that runs. -/
theorem checkAccess_traps {s : State} {a : Access} {l : LaneAcc} {c : Cause} {sub : BitVec 8} {d : Word} (h : s.findAcc a.id = some a)
    (hscalar : a.scalar = true) (hkind : a.kind ≠ .mcast) (hlanes : a.lanes = [l]) (hst : l.st = .failed c sub d)
    (hfrozen : (s.core (s.coreOf a.frag)).frozen = false) (hlive : (s.frag a.frag).live = true) (hstopped : (s.frag a.frag).stopped = false) :
    s.checkAccess a.id = (s.withoutScalar a).scalarTrap a.frag c sub d a.pc := by
  have hpending : a.pending = false := by simp [Access.pending, hlanes, hst, LaneSt.open]
  have hfault : faultOf (failedLanes a.lanes) = some (c, sub, d, maskOf [l.lane]) := by simp [failedLanes, hlanes, hst, faultOf]
  have hend : s.checkAccess a.id = s.endAccess a := by
    unfold State.checkAccess
    rw [h]
    exact if_neg (by simp [hpending])
  rw [hend]
  unfold State.endAccess
  extract_lets faults m s1
  have hm : m = 0x1F := if_pos hscalar
  have hs1 : s1 = s.withoutScalar a := congrArg (fun m => State.tidy (State.updFrag _ a.frag fun f => f.close a.id m)) hm
  rw [hfault, hs1, if_neg (by simpa using hkind)]
  dsimp only
  rw [if_pos hscalar, frag_withoutScalar, if_neg (by simp [hfrozen]), if_neg (by simp [Frag.close, hlive]),
    if_neg (by simp [Frag.close, hstopped])]

end Sys2Proof.Machine

namespace Sys2Proof

open Machine

theorem cxlEvents : Claims.CxlEvents := by
  unfold Claims.CxlEvents
  intro s
  refine ⟨fun a len => ⟨fun hfull => ?_, fun n hn hfree hbelow => ?_⟩, fun e => ?_, fun r => ?_, fun p => ⟨?_, ?_⟩,
    fun id => execPoolTimeout_unknown, fun c va hacc hcopies hphrase hva => ?_, ?_⟩
  · exact ⟨_, execDynamicCapacityAdd_full (freeExtent_none hfull) a len, raise_pool s 5, raised_raise s 5, raise_mem s 5⟩
  · let s1 := s.updPool fun q => { q with extents := tput n (a.toNat, len.toNat) q.extents }
    have hpool : (s1.raise 5).pool = { s.pool with extents := tput n (a.toNat, len.toNat) s.pool.extents } := raise_pool s1 5
    refine ⟨_, execDynamicCapacityAdd_adds (freeExtent_lowest hn hfree hbelow) a len, ?_, fun m hm => ?_, ?_, raised_raise s1 5, raise_mem s1 5⟩
    · rw [hpool, tget_tput_same]
    · rw [hpool, tget_tput_other _ _ _ (Ne.symm hm)]
    · rw [hpool]
  · exact ⟨_, rfl, raise_rest s 5, raised_raise s 5⟩
  · let s1 := s.withEvent r
    have hraised : Raised s1 (s1.raise 5) 5 := raised_raise s1 5
    have hcan : s1.canRaise 5 = s.canRaise 5 := canRaise_withEvent s r 5
    refine ⟨s1.raise 5, rfl, raise_rest s1 5, fun hdeliver => ?_, fun hmasked hvalid hlease => ?_, fun hlease => ?_⟩
    · rw [(hraised.1 (hcan.trans hdeliver)).1, show s1.host = _ from withEvent_held (leaseHeld_of_canRaise hdeliver) r, List.append_assoc]
      rfl
    · have hheld : s.leaseHeld = true := by simp [State.leaseHeld, hvalid, hlease]
      obtain ⟨hout, hpending⟩ := hraised.isPending (by decide) (hcan.trans hmasked)
      exact ⟨hout.trans (congrArg HostSide.out (withEvent_held hheld r)), hpending⟩
    · have hheld : s.leaseHeld = false := by
        rw [State.leaseHeld, Bool.and_eq_false_iff, decide_eq_false_iff_not, not_lt]
        exact hlease
      have hmasked : s.canRaise 5 = false := by rw [State.canRaise, hheld, Bool.false_and]
      obtain ⟨hout, hpending⟩ := hraised.isPending (by decide) (hcan.trans hmasked)
      have hhost : s1.host = { s.host with events := s.host.events ++ [r] } := withEvent_kept hheld r
      have hevents : (s1.raise 5).host.events = s1.host.events := events_raise s1 5
      exact ⟨hout.trans (by rw [hhost]), hevents.trans (by rw [hhost]), hpending⟩
  · let s1 := s.updPool fun q => { q with down := q.down ||| portBit p }
    refine ⟨_, rfl, raise_mem s1 5, raised_raise s1 5, fun n => ?_⟩
    have hpool : (s1.raise 5).pool.down = s.pool.down ||| portBit p := congrArg Pool.down (raise_pool s1 5)
    rw [hpool, BitVec.getLsbD_or, getLsbD_portBit]
  · refine ⟨_, rfl, rfl, fun n => ?_, getLsbD_clear_portBit s.pool.down p⟩
    rw [updPool_pool, BitVec.getLsbD_or, getLsbD_portBit]
  · have hfind : s.copies.find? (fun x => x.id == c.id) = some c := by rw [hcopies]; simp
    have hmem : c ∈ s.copies := by rw [hcopies]; exact List.mem_singleton_self c
    exact ⟨_, execPoolTimeout_copy hacc hfind hva, stopCopy_stopped hphrase hmem ..⟩
  · intro a l p hfind hscalar hkind hlanes hparts hpath hst haccs hmay _ _ _ hlive hfrozen hstopped
    let a1 : Access := { a with lanes := [l.poolFailed] }
    let s1 := (s.putAcc a1).updFrag a.frag fun f => f.close a.id (~~~a1.paths)
    have hfrag : s1.frag a.frag = (s.frag a.frag).close a.id (~~~a1.paths) := frag_updFrag_same _ _ _
    have hkind1 : a1.kind ≠ .mcast := by rw [show a1.kind = _ from hkind]; decide
    have hcheck := checkAccess_traps (s := s1) (a := a1) (l := l.poolFailed) (find_putAcc s a a1 hfind rfl) hscalar hkind1 rfl rfl hfrozen
      (by rw [show s1.frag a1.frag = _ from hfrag]; exact hlive) (by rw [show s1.frag a1.frag = _ from hfrag]; exact hstopped)
    let s2 := s1.withoutScalar a1
    have hfrag2 : s2.frag a.frag = (s1.frag a.frag).close a.id 0x1F := frag_withoutScalar s1 a1
    have hmay2 : s2.mayTrap a.frag := by
      rw [State.mayTrap, hfrag2, hfrag, close_tl, close_tl, close_wait, close_wait]
      exact hmay
    have htraps := trapEntry_traps s2 a.frag { cause := .pool, sub := 0x01, mask := (s2.frag a.frag).exec, data := l.addr, kind := .scalar }
      a.pc none (heldFaults (s2.frag a.frag).ready) hmay2
    refine ⟨_, (execPoolTimeout_scalar hfind hscalar hlanes hparts hpath hst).trans (congrArg Host.Outcome.next hcheck), htraps.only.mem, ?_, ?_,
      htraps.edata⟩
    · exact (findAcc_of_accs (congrArg State.accs htraps.only.rest) a.id).trans (findAcc_withoutScalar s1 a1)
    · exact htraps.ecause_low

/-- Settles O40: where nothing waits for a page of a host (`State.NoneWaits`), an answer does nothing but end its request, or make a Page
Request of it; the events of the pool are one update each, followed by vector 5; an access that times out is a failed lane, of which
`checkAccess_traps` makes a trap. -/
theorem hostAnswersAndPool : Obligations.HostAnswersAndPool := by
  unfold Obligations.HostAnswersAndPool
  exact ⟨hostAnswers, cxlEvents⟩

end Sys2Proof

/-!
# Message flits arrive (O45)

A flit that a port receives is answered with an ACK or a NAK to the peer, which changes little: `Answers` says what. What is received is
said of `State.flitTaken`, the state in which the expected flit has been counted and acknowledged, and of `State.assemble`, by which its
payload joins its message.
-/
namespace Sys2Proof.Machine

/-! ### The fields of a flit's header (R505) -/

theorem natOf_append (xs ys : List Byte) : natOf (xs ++ ys) = natOf xs + 256 ^ xs.length * natOf ys := by
  induction xs with
  | nil => simp [natOf]
  | cons x xs ih =>
    rw [List.cons_append, natOf, ih, natOf, List.length_cons, Nat.pow_succ]
    ring

/-- The low word of a header holds its first eight bytes. -/
theorem natOf_take16_mod (x : List Byte) : ∃ c, natOf (x.take 16) = natOf (x.take 8) + 2 ^ 64 * c := by
  have hsplit : x.take 16 = x.take 8 ++ (x.drop 8).take 8 := by rw [← List.take_add]
  rw [hsplit, natOf_append]
  by_cases hlen : 8 ≤ x.length
  · exact ⟨natOf ((x.drop 8).take 8), by rw [List.length_take, Nat.min_eq_left hlen]; norm_num⟩
  · exact ⟨0, by rw [List.drop_of_length_le (by omega)]; rfl⟩

theorem fieldNat_header (x : List Byte) {lo len : Nat} (h : lo + len ≤ 64) :
    fieldNat (natOf (x.take 16)) lo len = ((BitVec.ofNat 64 (natOf (x.take 8))).extractLsb' lo len).toNat := by
  obtain ⟨c, hc⟩ := natOf_take16_mod x
  have hlow : natOf (x.take 16) % 2 ^ 64 = natOf (x.take 8) % 2 ^ 64 := by rw [hc, Nat.add_mul_mod_self_left]
  rw [fieldNat, BitVec.extractLsb'_toNat, BitVec.toNat_ofNat, ← hlow, Nat.shiftRight_eq_div_pow, Nat.shiftRight_eq_div_pow]
  apply Nat.eq_of_testBit_eq
  intro i
  simp only [Nat.testBit_mod_two_pow, Nat.testBit_div_two_pow]
  by_cases hi : i < len
  · have : i + lo < 64 := by omega
    simp [hi, this]
  · simp [hi]

theorem flitVc_eq (x : List Byte) : flitVc x = ((BitVec.ofNat 64 (natOf (x.take 8))).extractLsb' 8 1).toNat := fieldNat_header x (by decide)
theorem flitSrc_eq (x : List Byte) : flitSrc x = ((BitVec.ofNat 64 (natOf (x.take 8))).extractLsb' 16 10).toNat := fieldNat_header x (by decide)
theorem flitDst_eq (x : List Byte) : flitDst x = ((BitVec.ofNat 64 (natOf (x.take 8))).extractLsb' 26 10).toNat := fieldNat_header x (by decide)
theorem flitLseq_eq (x : List Byte) : flitLseq x = ((BitVec.ofNat 64 (natOf (x.take 8))).extractLsb' 48 16).toNat := fieldNat_header x (by decide)

/-- The first byte of a sent flit is its TYPE. -/
theorem take_sealFlit (key : BitVec 256) (gen ctr : Nat) {typ : Nat} (vc src dst lseq : Nat) (payload : List Byte) :
    (sealFlit key gen ctr (flitHeader typ vc src dst lseq gen ctr) payload).take 1 = [BitVec.ofNat 8 typ] := by
  have hbyte : BitVec.ofNat 8 (typ + at' vc 8 + at' src 16 + at' dst 26 + at' lseq 48 + at' gen 64 + at' ctr 96) = BitVec.ofNat 8 typ := by
    apply BitVec.eq_of_toNat_eq
    simp only [BitVec.toNat_ofNat, at']
    omega
  simp only [sealFlit, withCrc, flitHeader, bytesOf, List.cons_append, List.take_succ_cons, List.take_zero, hbyte]

/-! ### Answers to the peer (R505, R506) -/

theorem fport_raise (s : State) (v n : Nat) : (s.raise v).fport n = s.fport n := by rw [raise_rest]; rfl

/-- What an answer on a link may change of the port: the flit that goes out, its counters, and whether the port stays up. -/
structure Answers (s t : State) (n : Nat) : Prop where
  link : OnLink s t n
  outq : t.fabric.outq = s.fabric.outq
  waiting : t.fabric.waiting = s.fabric.waiting
  rxlseq : (t.fport n).rxlseq = (s.fport n).rxlseq
  partMsg : (t.fport n).partMsg = (s.fport n).partMsg
  counters : ∀ c, c ≠ cFlittx → tget 0 (t.fport n).counters c = tget 0 (s.fport n).counters c

theorem Answers.refl (s : State) (n : Nat) : Answers s s n :=
  ⟨⟨rfl, fun _ => rfl, .inl rfl⟩, rfl, rfl, rfl, rfl, fun _ _ => rfl⟩

section
variable (s : State) (n typ vc dst lseq : Nat) (payload : List Byte)

theorem sendFlit_wraps (msg : Option Nat) (h : 2 ^ 32 - 1 ≤ (s.fport n).txctr.toNat) :
    s.sendFlit n typ vc dst lseq payload msg = (s.updFport n fun p => { p with up := false }).raise 6 := if_pos h

theorem sendFlit_full (msg : Option Nat) (hctr : (s.fport n).txctr.toNat < 2 ^ 32 - 1) (hroom : (s.fport n).room = 0) :
    s.sendFlit n typ vc dst lseq payload msg = s := (if_neg (Nat.not_le.2 hctr)).trans (if_pos (beq_iff_eq.2 hroom))

theorem sendFlit_sends (hctr : (s.fport n).txctr.toNat < 2 ^ 32 - 1) (hroom : (s.fport n).room ≠ 0) :
    ∃ y : List Byte, y.take 1 = [BitVec.ofNat 8 typ] ∧ s.sendFlit n typ vc dst lseq payload none =
      s.updFport n fun p => { p.count cFlittx with txctr := p.txctr + 1, room := p.room - 1, out := p.out ++ [y] } :=
  ⟨_, take_sealFlit .., (if_neg (Nat.not_le.2 hctr)).trans (if_neg fun h => hroom (beq_iff_eq.1 h))⟩

theorem sendFlit_answers : Answers s (s.sendFlit n typ vc dst lseq payload none) n := by
  by_cases hctr : (s.fport n).txctr.toNat < 2 ^ 32 - 1
  · by_cases hroom : (s.fport n).room = 0
    · rw [sendFlit_full s n typ vc dst lseq payload none hctr hroom]
      exact Answers.refl s n
    · obtain ⟨y, _, hsend⟩ := sendFlit_sends s n typ vc dst lseq payload hctr hroom
      rw [hsend]
      refine ⟨⟨rfl, fun _ => rfl, .inl rfl⟩, rfl, rfl, ?_, ?_, fun c hc => ?_⟩
      all_goals rw [fport_updFport_same]
      · rfl
      · rfl
      · exact tget_tput_other _ _ _ (Ne.symm hc)
  · let u := s.updFport n fun p => { p with up := false }
    have hrest : u.raise 6 = { u with host := (u.raise 6).host } := raise_rest u 6
    have hport : (u.raise 6).fport n = { s.fport n with up := false } := (fport_raise u 6 n).trans (fport_updFport_same s n _)
    rw [sendFlit_wraps s n typ vc dst lseq payload none (Nat.not_lt.1 hctr)]
    refine ⟨⟨?_, fun h => absurd h hctr, .inr (raised_raise u 6)⟩, ?_, ?_, ?_, ?_, fun c _ => ?_⟩
    · rw [hrest]; rfl
    · rw [hrest]; rfl
    · rw [hrest]; rfl
    all_goals rw [hport]

theorem nacked_sendFlit : ((s.sendFlit n typ vc dst lseq payload none).fport n).nacked = (s.fport n).nacked := by
  by_cases hctr : (s.fport n).txctr.toNat < 2 ^ 32 - 1
  · by_cases hroom : (s.fport n).room = 0
    · rw [sendFlit_full s n typ vc dst lseq payload none hctr hroom]
    · obtain ⟨y, _, hsend⟩ := sendFlit_sends s n typ vc dst lseq payload hctr hroom
      rw [hsend, fport_updFport_same]
      rfl
  · rw [sendFlit_wraps s n typ vc dst lseq payload none (Nat.not_lt.1 hctr), fport_raise, fport_updFport_same]

end

theorem sendLink_answers (s : State) (n typ lseq : Nat) (payload : List Byte) : Answers s (s.sendLink n typ lseq payload) n := by
  unfold State.sendLink
  split
  · exact sendFlit_answers s n typ 0 _ lseq payload
  · exact Answers.refl s n

theorem nacked_sendLink (s : State) (n typ lseq : Nat) (payload : List Byte) :
    ((s.sendLink n typ lseq payload).fport n).nacked = (s.fport n).nacked := by
  unfold State.sendLink
  split
  · exact nacked_sendFlit s n typ 0 _ lseq payload
  · rfl

/-- An answer goes out while the slot has room and TXCTR does not wrap. -/
theorem sendLink_sends {s : State} {n : Nat} (typ lseq : Nat) (payload : List Byte) (hpeer : (s.fport n).peer ≠ none)
    (hroom : (s.fport n).room ≠ 0) (hctr : (s.fport n).txctr.toNat < 2 ^ 32 - 1) :
    ∃ y : List Byte, ((s.sendLink n typ lseq payload).fport n).out = (s.fport n).out ++ [y] ∧ y.take 1 = [BitVec.ofNat 8 typ] := by
  obtain ⟨q, hq⟩ := Option.ne_none_iff_exists'.1 hpeer
  rw [State.sendLink, hq]
  obtain ⟨y, htype, hsend⟩ := sendFlit_sends s n typ 0 q lseq payload hctr hroom
  exact ⟨y, by simp only [hsend, fport_updFport_same], htype⟩

/-- An answer after an update of the port that leaves TXCTR. -/
theorem Answers.onLink {s t : State} {n : Nat} {g : FPort → FPort} (h : Answers (s.updFport n g) t n)
    (hctr : (g (s.fport n)).txctr = (s.fport n).txctr) : OnLink s t n := by
  obtain ⟨hrest, hhost, hraised⟩ := h.link
  refine ⟨hrest, fun hlt => hhost ?_, hraised⟩
  rw [fport_updFport_same, hctr]
  exact hlt

/-- An answer after an update of the port that leaves what an answer leaves. -/
theorem Answers.after {s t : State} {n : Nat} {g : FPort → FPort} (h : Answers (s.updFport n g) t n)
    (hg : ∀ p, (g p).txctr = p.txctr ∧ (g p).rxlseq = p.rxlseq ∧ (g p).partMsg = p.partMsg ∧ (g p).counters = p.counters) : Answers s t n := by
  obtain ⟨hctr, hlseq, hpart, hcount⟩ := hg (s.fport n)
  have hport := fport_updFport_same s n g
  refine ⟨h.onLink hctr, h.outq, h.waiting, h.rxlseq.trans ?_, h.partMsg.trans ?_, fun c hc => (h.counters c hc).trans ?_⟩
  · rw [hport, hlseq]
  · rw [hport, hpart]
  · rw [hport, hcount]

/-- A flit has changed nothing but the link, and no message has come of it. -/
def State.Unmoved (s t : State) (n : Nat) : Prop := OnLink s t n ∧ t.fabric.outq = s.fabric.outq ∧ t.fabric.waiting = s.fabric.waiting

theorem Answers.unmoved {s t : State} {n : Nat} {g : FPort → FPort} (h : Answers (s.updFport n g) t n)
    (hctr : (g (s.fport n)).txctr = (s.fport n).txctr) : s.Unmoved t n := ⟨h.onLink hctr, h.outq, h.waiting⟩

/-! ### A flit is checked (R505, R506, R508) -/

section
variable {s : State} {n : Nat} {x : List Byte}

/-- The payload of a flit under the key that its KGEN names, if its tag is good. -/
def State.opened (s : State) (n : Nat) (x : List Byte) : Option (List Byte) :=
  ((s.fport n).rx.find? fun k => k.src == flitSrc x && k.gen.toNat == flitGen x).bind fun k => openFlit k.key x

theorem flitIn_absent (h : (s.fport n).up = false ∨ s.accepted 3 = false ∨ (s.fport n).peer = none) : s.flitIn n x = .absent := by
  refine if_pos ?_
  rcases h with h | h | h <;> simp [State.portUp, h]

section
variable (hup : (s.fport n).up = true) (hacc : s.accepted 3 = true) (hpeer : (s.fport n).peer ≠ none)
include hup hacc hpeer

theorem flitIn_checks : s.flitIn n x = if crcGood x = false then .bad cCrcerr else match s.opened n x with
    | none => .bad cTagerr
    | some payload => .good payload := by
  have hhere : (!s.portUp n || (s.fport n).peer.isNone) = false := by
    simp [State.portUp, hup, hacc, Option.isSome_iff_ne_none.2 hpeer]
  unfold State.flitIn
  simp only [hhere, Bool.false_eq_true, if_false]
  cases crcGood x <;> rfl

theorem flitIn_crc (hcrc : crcGood x = false) : s.flitIn n x = .bad cCrcerr := by
  rw [flitIn_checks hup hacc hpeer, if_pos hcrc]

theorem flitIn_tag (hcrc : crcGood x = true) (hopen : s.opened n x = none) : s.flitIn n x = .bad cTagerr := by
  rw [flitIn_checks hup hacc hpeer, if_neg (by rw [hcrc]; decide), hopen]

theorem flitIn_good {text : List Byte} (hcrc : crcGood x = true) (hopen : s.opened n x = some text) : s.flitIn n x = .good text := by
  rw [flitIn_checks hup hacc hpeer, if_neg (by rw [hcrc]; decide), hopen]

end

/-! ### A flit that fails (R506) -/

/-- A failing flit is counted, and its sender's stream stays where it was. -/
theorem flitFails_counts (s : State) (n lseq : Nat) {c : Nat} (hc : 2 ≤ c) : let t := s.flitFails n c lseq
    s.Unmoved t n ∧ tget 0 (t.fport n).counters c = min (2 ^ 32 - 1) (tget 0 (s.fport n).counters c + 1) ∧
    (t.fport n).rxlseq = (s.fport n).rxlseq ∧ (t.fport n).nacked = true := by
  let u := s.updFport n fun p => { p.count c with nacked := true }
  have hport : u.fport n = { (s.fport n).count c with nacked := true } := fport_updFport_same s n _
  have hanswers : Answers u (s.flitFails n c lseq) n ∧ ((s.flitFails n c lseq).fport n).nacked = (u.fport n).nacked := by
    by_cases hagain : ((s.fport n).nacked && lseq != (s.fport n).rxlseq.toNat) = true
    · rw [State.flitFails, if_pos hagain]
      exact ⟨Answers.refl u n, rfl⟩
    · rw [State.flitFails, if_neg hagain]
      exact ⟨sendLink_answers u n 4 _ [], nacked_sendLink u n 4 _ []⟩
  obtain ⟨hanswers, hnacked⟩ := hanswers
  refine ⟨hanswers.unmoved rfl, ?_, ?_, ?_⟩
  · rw [hanswers.counters c (by unfold cFlittx; omega), hport]
    simp only [FPort.count, tget_tput_same, if_neg (Nat.not_lt.2 hc)]
  · rw [hanswers.rxlseq, hport]; rfl
  · rw [hnacked, hport]

/-- A failing flit gets no second NAK, unless it was sent again. -/
theorem flitFails_silent {lseq : Nat} (c : Nat) (hnacked : (s.fport n).nacked = true) (hlseq : lseq ≠ (s.fport n).rxlseq.toNat) :
    ((s.flitFails n c lseq).fport n).out = (s.fport n).out := by
  have hskip : ((s.fport n).nacked && lseq != (s.fport n).rxlseq.toNat) = true := by simp [hnacked, hlseq]
  rw [State.flitFails, if_pos hskip, fport_updFport_same]
  rfl

theorem flitFails_naks {lseq : Nat} (c : Nat) (hfirst : (s.fport n).nacked = false ∨ lseq = (s.fport n).rxlseq.toNat)
    (hpeer : (s.fport n).peer ≠ none) (hroom : (s.fport n).room ≠ 0) (hctr : (s.fport n).txctr.toNat < 2 ^ 32 - 1) :
    ∃ y : List Byte, ((s.flitFails n c lseq).fport n).out = (s.fport n).out ++ [y] ∧ y.take 1 = [4] := by
  have hsend : ¬((s.fport n).nacked && lseq != (s.fport n).rxlseq.toNat) = true := by rcases hfirst with h | h <;> simp [h]
  let u := s.updFport n fun p => { p.count c with nacked := true }
  have hport : u.fport n = { (s.fport n).count c with nacked := true } := fport_updFport_same s n _
  rw [State.flitFails, if_neg hsend]
  obtain ⟨y, hout, hy⟩ := sendLink_sends (s := u) (n := n) 4 (s.fport n).rxlseq.toNat [] (by rw [hport]; exact hpeer)
    (by rw [hport]; exact hroom) (by rw [hport]; exact hctr)
  exact ⟨y, by rw [hout, hport]; rfl, hy⟩

/-! ### A good flit (R185, R506) -/

/-- The flits that the relay store has room for in this slot. -/
def State.fits (s : State) (n : Nat) (x : List Byte) : Prop :=
  flitVc x = 1 ∨ flitDst x = s.moduleNo ∨ relayAllows (s.fport n).given (s.fport n).taken (flitDst x) 1 = true

/-- The expected flit has been counted, and is acknowledged. -/
def State.flitTaken (s : State) (n : Nat) (x : List Byte) : State :=
  (s.updFport n fun p => { p.hear x with
      rxlseq := p.rxlseq + 1, nacked := false
      taken := if flitVc x == 0 && flitDst x != s.moduleNo then relayUse p.given p.taken (flitDst x) 1 else p.taken }).sendLink n 0x03 (flitLseq x) []

theorem flitTaken_takes (s : State) (n : Nat) (x : List Byte) : let t := s.flitTaken n x
    s.Unmoved t n ∧ (t.fport n).rxlseq = (s.fport n).rxlseq + 1 ∧ (t.fport n).partMsg = (s.fport n).partMsg ∧
    tget 0 (t.fport n).counters cFlitrx = min (2 ^ 48 - 1) (tget 0 (s.fport n).counters cFlitrx + 1) := by
  have hanswers := sendLink_answers (s.updFport n fun p => { p.hear x with
      rxlseq := p.rxlseq + 1, nacked := false
      taken := if flitVc x == 0 && flitDst x != s.moduleNo then relayUse p.given p.taken (flitDst x) 1 else p.taken }) n 0x03 (flitLseq x) []
  refine ⟨hanswers.unmoved rfl, hanswers.rxlseq.trans ?_, hanswers.partMsg.trans ?_, (hanswers.counters cFlitrx (by decide)).trans ?_⟩
  all_goals rw [fport_updFport_same]
  · rfl
  · exact tget_tput_same _ _ _ _

theorem moduleNo_flitTaken (s : State) (n : Nat) (x : List Byte) : (s.flitTaken n x).moduleNo = s.moduleNo := by
  rw [(flitTaken_takes s n x).1.1.1]

theorem receiveFlit_absent (first : Bool) (h : s.flitIn n x = .absent) : s.receiveFlit n first x = s := by
  rw [State.receiveFlit, h]

theorem receiveFlit_bad {c : Nat} (first : Bool) (h : s.flitIn n x = .bad c) : s.receiveFlit n first x = s.flitFails n c (flitLseq x) := by
  rw [State.receiveFlit, h]

section
variable {text : List Byte} {first : Bool} (hin : s.flitIn n x = .good text)
include hin

theorem receiveFlit_otherType (htype : flitType x ≠ if first then 1 else 2) : s.receiveFlit n first x = s := by
  rw [State.receiveFlit, hin]
  exact if_pos (bne_iff_ne.2 htype)

variable (htype : flitType x = if first then 1 else 2)
include htype

/-- The expected flit is taken, and its payload joins its message. -/
theorem receiveFlit_takes (hlseq : (s.fport n).rxlseq.toNat = flitLseq x) (hfits : s.fits n x) :
    s.receiveFlit n first x = (s.flitTaken n x).assemble n first (flitVc x) (flitSrc x) (flitDst x) text := by
  have hroom : ¬(flitVc x == 0 && flitDst x != s.moduleNo && !relayAllows (s.fport n).given (s.fport n).taken (flitDst x) 1) = true := by
    rcases hfits with h | h | h <;> simp [h]
  rw [State.receiveFlit, hin]
  simp only [htype, bne_self_eq_false, Bool.false_eq_true, if_false]
  rw [if_neg (by omega), if_neg (by omega), if_neg hroom]
  rfl

/-- A flit that is not the expected one is answered, if at all. -/
theorem receiveFlit_unexpected (hlseq : (s.fport n).rxlseq.toNat ≠ flitLseq x) : Answers s (s.receiveFlit n first x) n := by
  rw [State.receiveFlit, hin]
  simp only [htype, bne_self_eq_false, Bool.false_eq_true, if_false]
  split
  · exact sendLink_answers s n 3 _ []
  · rw [if_pos (by omega)]
    split
    · exact Answers.refl s n
    · exact (sendLink_answers _ n 4 _ []).after fun _ => ⟨rfl, rfl, rfl, rfl⟩

/-- A flit beyond what was advertised for its destination is refused. -/
theorem receiveFlit_refuses (hlseq : (s.fport n).rxlseq.toNat = flitLseq x) (hvc : flitVc x = 0) (hdst : flitDst x ≠ s.moduleNo)
    (hroom : relayAllows (s.fport n).given (s.fport n).taken (flitDst x) 1 = false) : Answers s (s.receiveFlit n first x) n := by
  rw [State.receiveFlit, hin]
  simp only [htype, bne_self_eq_false, Bool.false_eq_true, if_false]
  rw [if_neg (by omega), if_neg (by omega), if_pos (by simp [hvc, hdst, hroom])]
  exact (sendLink_answers _ n 4 _ [1]).after fun _ => ⟨rfl, rfl, rfl, rfl⟩

end
end

/-! ### The payload joins its message (R506, R509, R512) -/

/-- The parts of other messages that a port has received. -/
def FPort.without (p : FPort) (key : Nat) : FPort := { p with partMsg := p.partMsg.filter fun e => e.1 != key }

theorem find_without (p : FPort) (key : Nat) : (p.without key).partMsg.find? (fun e => e.1 == key) = none := by
  simp [FPort.without, List.find?_eq_none]

section
variable {s : State} {n vc src dst : Nat} {first : Bool} {bs text : List Byte}

/-- What has come of a message before this flit: nothing before its first. -/
def State.begun (s : State) (n key : Nat) (first : Bool) : Option (List Byte) :=
  if first then some [] else ((s.fport n).partMsg.find? fun e => e.1 == key).map fun e => e.2.2

theorem assemble_stray (h : s.begun n (2 * src + vc) first = none) : s.assemble n first vc src dst text = s := by
  rw [State.begun] at h
  simp only [State.assemble, h]

theorem assemble_waits (h : s.begun n (2 * src + vc) first = some bs) {len : Nat} (hlen : msgLength (bs ++ text) = some len)
    (hshort : (bs ++ text).length < len) : s.assemble n first vc src dst text =
      s.updFport n fun p => { p with partMsg := (2 * src + vc, dst, bs ++ text) :: ((s.fport n).without (2 * src + vc)).partMsg } := by
  rw [State.begun] at h
  simp only [State.assemble, h, hlen, if_pos hshort, FPort.without]

theorem assemble_whole (h : s.begun n (2 * src + vc) first = some bs) {len : Nat} (hlen : msgLength (bs ++ text) = some len)
    (hwhole : len ≤ (bs ++ text).length) {m : FabMsg} (hm : msgFrom dst (bs ++ text) = some m) : s.assemble n first vc src dst text =
      (s.updFport n fun p => { p with partMsg := ((s.fport n).without (2 * src + vc)).partMsg }).received vc src dst m := by
  rw [State.begun] at h
  simp only [State.assemble, h, hlen, if_neg (Nat.not_lt.2 hwhole), hm, FPort.without]

end

/-! ### What comes of a taken flit (R506, R510, R512) -/

/-- A request for this module is performed as the row of its operation. -/
def Performs (run : Out) (src : BitVec 10) (m : FabMsg) (u : State) : Prop :=
  (m.op = .read → run = exec (.read src m) u) ∧ (m.op = .write → run = exec (.write src m) u) ∧
  (m.op = .atomic → run = exec (.atomic src m) u) ∧ (m.op = .mcast → run = exec (.multicastWrite src m) u) ∧
  (m.op = .noun → run = exec (.nounOperation src m) u)

theorem performs_msgArrives (src : BitVec 10) (m : FabMsg) (u : State) : Performs (.next (u.msgArrives src.toNat m)) src m u := by
  have row (o : FabOp) (h : m.op = o) : (Host.Outcome.next (u.msgArrives src.toNat m) : Out) =
      .next (if m.op == o then u.msgArrives src.toNat m else u) := by rw [if_pos (beq_iff_eq.2 h)]
  exact ⟨row _, row _, row _, row _, row _⟩

theorem received_relays {s : State} {dst : Nat} (vc src : Nat) (m : FabMsg) (h : dst ≠ s.moduleNo) : s.received vc src dst m =
    s.updFabric fun f => { f with outq := f.outq ++ [{ id := (src + 1) * 2 ^ 32 + m.msgid, dest := dst, msg := m, src := src, relay := true }] } :=
  if_pos (bne_iff_ne.2 h)

theorem received_performs {s : State} {m : FabMsg} (src : Nat) (h : m.op ∈ [FabOp.read, .write, .atomic, .mcast, .noun]) :
    s.received 0 src s.moduleNo m = s.msgArrives src m := by
  simp only [List.mem_cons, List.not_mem_nil, or_false] at h
  rcases h with h | h | h | h | h <;> simp [State.received, h]

theorem State.Unmoved.updFport {s t : State} {n : Nat} (h : s.Unmoved t n) (g : FPort → FPort) : s.Unmoved (t.updFport n g) n := by
  obtain ⟨⟨hrest, hhost, hraised⟩, hout, hwait⟩ := h
  exact ⟨⟨by rw [hrest]; rfl, hhost, hraised⟩, hout, hwait⟩

theorem OnLink.updFabric {s t : State} {n : Nat} (h : OnLink s t n) (g : Fabric → Fabric) : OnLink s (t.updFabric g) n := by
  obtain ⟨hrest, hhost, hraised⟩ := h
  exact ⟨by rw [hrest]; rfl, hhost, hraised⟩

section
variable {s : State} {n : Nat} {x bs text : List Byte} {first : Bool}

/-- The state in which the expected flit has been counted and its message is whole. -/
def State.wholeTaken (s : State) (n : Nat) (x : List Byte) : State :=
  (s.flitTaken n x).updFport n fun p => { p with partMsg := (((s.flitTaken n x).fport n).without (2 * flitSrc x + flitVc x)).partMsg }

theorem wholeTaken_takes (s : State) (n : Nat) (x : List Byte) : let u := s.wholeTaken n x
    s.Unmoved u n ∧ (u.fport n).rxlseq = (s.fport n).rxlseq + 1 ∧
    ((u.fport n).partMsg.find? fun e => e.1 == 2 * flitSrc x + flitVc x) = none := by
  obtain ⟨hmoved, hlseq, _, _⟩ := flitTaken_takes s n x
  refine ⟨hmoved.updFport _, ?_, ?_⟩
  all_goals rw [State.wholeTaken, fport_updFport_same]
  · exact hlseq
  · exact find_without _ _

theorem moduleNo_wholeTaken (s : State) (n : Nat) (x : List Byte) : (s.wholeTaken n x).moduleNo = s.moduleNo := moduleNo_flitTaken s n x

variable (hbegun : s.begun n (2 * flitSrc x + flitVc x) first = some bs)
include hbegun

theorem begun_flitTaken : (s.flitTaken n x).begun n (2 * flitSrc x + flitVc x) first = some bs := by
  rw [← hbegun, State.begun, State.begun, (flitTaken_takes s n x).2.2.1]

variable {len : Nat} (hlen : msgLength (bs ++ text) = some len)
include hlen

theorem flitTaken_waits (dst : Nat) (hshort : (bs ++ text).length < len) :
    let t := (s.flitTaken n x).assemble n first (flitVc x) (flitSrc x) dst text
    s.Unmoved t n ∧ (t.fport n).rxlseq = (s.fport n).rxlseq + 1 ∧
    tget 0 (t.fport n).counters cFlitrx = min (2 ^ 48 - 1) (tget 0 (s.fport n).counters cFlitrx + 1) ∧
    ((t.fport n).partMsg.find? fun e => e.1 == 2 * flitSrc x + flitVc x) = some (2 * flitSrc x + flitVc x, dst, bs ++ text) := by
  obtain ⟨hmoved, hlseq, _, hcount⟩ := flitTaken_takes s n x
  rw [assemble_waits (begun_flitTaken hbegun) hlen hshort]
  refine ⟨hmoved.updFport _, ?_, ?_, ?_⟩
  all_goals rw [fport_updFport_same]
  · exact hlseq
  · exact hcount
  · exact List.find?_cons_of_pos (beq_self_eq_true _)

variable (hwhole : len ≤ (bs ++ text).length) {dst : Nat} {m : FabMsg} (hm : msgFrom dst (bs ++ text) = some m)
include hwhole hm

theorem flitTaken_relays (hdst : dst ≠ s.moduleNo) : let t := (s.flitTaken n x).assemble n first (flitVc x) (flitSrc x) dst text
    OnLink s t n ∧ (t.fport n).rxlseq = (s.fport n).rxlseq + 1 ∧
    ((t.fport n).partMsg.find? fun e => e.1 == 2 * flitSrc x + flitVc x) = none ∧
    ∃ o : OutMsg, t.fabric.outq = s.fabric.outq ++ [o] ∧ o.dest = dst ∧ o.msg = m ∧ o.relay = true := by
  obtain ⟨⟨hlink, houtq, _⟩, hlseq, hpart⟩ := wholeTaken_takes s n x
  rw [assemble_whole (begun_flitTaken hbegun) hlen hwhole hm, ← State.wholeTaken, received_relays _ _ _ (by rwa [moduleNo_wholeTaken])]
  exact ⟨hlink.updFabric _, hlseq, hpart, _, congrArg (· ++ _) houtq, rfl, rfl, rfl⟩

theorem flitTaken_performs (hdst : dst = s.moduleNo) (hvc : flitVc x = 0) (hop : m.op ∈ [FabOp.read, .write, .atomic, .mcast, .noun]) :
    Performs (.next ((s.flitTaken n x).assemble n first (flitVc x) (flitSrc x) dst text)) (BitVec.ofNat 10 (flitSrc x)) m (s.wholeTaken n x) := by
  have hsrc : (BitVec.ofNat 10 (flitSrc x)).toNat = flitSrc x := by
    rw [BitVec.toNat_ofNat]
    exact Nat.mod_eq_of_lt (Nat.mod_lt _ (by decide))
  have hperforms := performs_msgArrives (BitVec.ofNat 10 (flitSrc x)) m (s.wholeTaken n x)
  rw [hsrc] at hperforms
  rw [assemble_whole (begun_flitTaken hbegun) hlen hwhole hm, ← State.wholeTaken, hvc, hdst, ← moduleNo_wholeTaken s n x, received_performs _ hop]
  exact hperforms

end

end Sys2Proof.Machine

namespace Sys2Proof

open Machine

theorem flitArrives : Claims.FlitsArrive := by
  unfold Claims.FlitsArrive
  intro s port x first n p i h src dst vc lseq still counts clear naks
  have hi : exec i s = .next (s.receiveFlit n first x) := by cases first <;> rfl
  have hsrc : src = flitSrc x := (flitSrc_eq x).symm
  have hdst : dst = flitDst x := (flitDst_eq x).symm
  have hvc : vc = flitVc x := (flitVc_eq x).symm
  have hlseq : lseq = flitLseq x := (flitLseq_eq x).symm
  have hclear : clear = s.opened n x := by simp only [clear, hsrc]; rfl
  have gives {P : State → Prop} (hP : P (s.receiveFlit n first x)) : Gives (exec i s) P := ⟨_, hi, hP⟩
  have failed {c : Nat} (hc : 2 ≤ c) (hin : s.flitIn n x = .bad c) (hpeer : p.peer ≠ none) : Gives (exec i s) fun t => still t ∧
      counts t c (2 ^ 32 - 1) ∧ (t.fport n).rxlseq = p.rxlseq ∧ (t.fport n).nacked = true ∧
      (p.nacked = true → lseq ≠ p.rxlseq.toNat → (t.fport n).out = p.out) ∧ naks t := by
    refine gives ?_
    rw [receiveFlit_bad first hin, hlseq]
    obtain ⟨hmoved, hcount, hrx, hnacked⟩ := flitFails_counts s n (flitLseq x) hc
    refine ⟨hmoved, hcount, hrx, hnacked, flitFails_silent c, fun hfirst => flitFails_naks c ?_ hpeer⟩
    rwa [hlseq] at hfirst
  refine ⟨fun hoff => ?_, fun hup hacc hpeer => ⟨fun hcrc => ?crc, fun hcrc hbad => ?tag, fun hcrc hsome hother => ?type,
    fun hcrc htype text htext => ?good⟩⟩
  · rw [hi, receiveFlit_absent first (flitIn_absent hoff)]
  case crc => exact failed (by decide) (flitIn_crc hup hacc hpeer hcrc) hpeer
  case tag => exact failed (by decide) (flitIn_tag hup hacc hpeer hcrc (hclear ▸ hbad)) hpeer
  case type =>
    obtain ⟨text, htext⟩ := Option.isSome_iff_exists.1 hsome
    rw [hi, receiveFlit_otherType (flitIn_good hup hacc hpeer hcrc (hclear ▸ htext)) hother]
  case good =>
    have hin := flitIn_good hup hacc hpeer hcrc (hclear ▸ htext)
    rw [hlseq, hvc, hdst, hsrc]
    refine ⟨fun hne => ?_, fun heq h0 hd hfull => ?_, fun heq hfits hfirst len hlen => ?_⟩
    · have hanswers := receiveFlit_unexpected hin htype hne
      exact gives ⟨⟨hanswers.link, hanswers.outq, hanswers.waiting⟩, hanswers.rxlseq, hanswers.partMsg⟩
    · have hanswers := receiveFlit_refuses hin htype heq h0 hd hfull
      exact gives ⟨⟨hanswers.link, hanswers.outq, hanswers.waiting⟩, hanswers.rxlseq, hanswers.partMsg⟩
    · have hrun := receiveFlit_takes hin htype heq hfits
      have hbegun : s.begun n (2 * flitSrc x + flitVc x) first = some [] := by rw [State.begun, hfirst]; rfl
      refine ⟨fun hshort => gives ?_, fun hwhole m hm => ⟨fun hd => gives ?_, fun hd h0 hop => ?_⟩⟩
      · rw [hrun]
        exact flitTaken_waits hbegun hlen _ hshort
      · rw [hrun]
        obtain ⟨hlink, hrx, _, hrelays⟩ := flitTaken_relays hbegun hlen hwhole hm hd
        exact ⟨hlink, hrx, hrelays⟩
      · obtain ⟨hmoved, hrx, _⟩ := wholeTaken_takes s n x
        rw [hi, hrun]
        exact ⟨s.wholeTaken n x, hmoved, hrx, flitTaken_performs hbegun hlen hwhole hm hd h0 hop⟩

theorem continuationsArrive : Claims.ContinuationsArrive := by
  unfold Claims.ContinuationsArrive
  intro s port x text n p h src dst vc run taken hup hacc hpeer hcrc htype hopen hlseq hfits
  have hsrc : src = flitSrc x := (flitSrc_eq x).symm
  have hdst : dst = flitDst x := (flitDst_eq x).symm
  have hvc : vc = flitVc x := (flitVc_eq x).symm
  rw [← flitLseq_eq] at hlseq
  rw [hvc, hdst] at hfits
  have hin := flitIn_good hup hacc hpeer hcrc (hsrc ▸ hopen)
  have hrun : run = .next ((s.flitTaken n x).assemble n false (flitVc x) (flitSrc x) (flitDst x) text) :=
    congrArg Host.Outcome.next (receiveFlit_takes hin htype hlseq hfits)
  rw [hsrc, hdst, hvc]
  obtain ⟨⟨hlink, houtq, hwaiting⟩, hrx, hpart, hcount⟩ := flitTaken_takes s n x
  constructor
  · intro hnone
    have hbegun : (s.flitTaken n x).begun n (2 * flitSrc x + flitVc x) false = none := by
      simp only [State.begun, hpart]
      exact congrArg (Option.map _) hnone
    rw [assemble_stray hbegun] at hrun
    exact ⟨_, hrun, hlink, hrx, houtq, hpart, hcount⟩
  · intro e he all len hlen
    have hbegun : s.begun n (2 * flitSrc x + flitVc x) false = some e.2.2 := congrArg (Option.map _) he
    refine ⟨fun hshort => ?_, fun hwhole m hm => ⟨fun hd => ?_, fun hd h0 hop => ?_⟩⟩
    · obtain ⟨hmoved, hrx, _, hpart⟩ := flitTaken_waits hbegun hlen (flitDst x) hshort
      exact ⟨_, hrun, hmoved.1, hrx, hmoved.2.1, hpart⟩
    · exact ⟨_, hrun, flitTaken_relays hbegun hlen hwhole hm hd⟩
    · obtain ⟨hmoved, hrx, hpart⟩ := wholeTaken_takes s n x
      refine ⟨s.wholeTaken n x, _, hrun, hmoved.1, hrx, hpart, ?_⟩
      rw [hrun]
      exact flitTaken_performs hbegun hlen hwhole hm hd h0 hop

/-- Settles O45: a flit that fails or is not the expected one is only answered (`Answers`); the expected one is taken, and its payload,
the first or a further one, joins what has come of its message, which then waits, is relayed, or is performed. -/
theorem flitsArrive : Obligations.FlitsArrive := by
  unfold Obligations.FlitsArrive
  exact ⟨flitArrives, continuationsArrive⟩

end Sys2Proof

/-!
# The dispatcher places phrases and serves ready queues (O31)

A placement is one chain of functions, `dispatchStep` to `spawn`: each has an equation for a part that is placed by itself, and the
functions after `spawn` leave phrases and fragments (`State.bodies`). A nest that is dropped for lateness dies by `instDead`, whose
frame is said once. A ready queue is one word of memory, and a list of nouns of the partition.
-/
namespace Sys2Proof.Machine

/-! ### Parts of the state that stand -/

/-- A fold of steps that keep a part of the state keeps it. -/
theorem keeps_foldl {α β : Type} (π : State → β) {f : State → α → State} (hf : ∀ s x, π (f s x) = π s) (xs : List α) (s : State) :
    π (xs.foldl f s) = π s :=
  foldl_keeps (fun t => π t = π s) f (fun t x ht => (hf t x).trans ht) xs s rfl

theorem keeps_ite {β : Type} (π : State → β) {c : Prop} [Decidable c] {t u : State} {b : β} (ht : c → π t = b) (hu : ¬c → π u = b) :
    π (if c then t else u) = b := by
  split
  · exact ht ‹_›
  · exact hu ‹_›

/-- The phrases and fragments of a state. -/
def State.bodies (s : State) : Tbl Phrase × Tbl Frag := (s.phrases, s.frags)

theorem phr_of_bodies {s t : State} (h : t.bodies = s.bodies) (p : Nat) : t.phr p = s.phr p := by
  rw [State.phr, State.phr, show t.phrases = s.phrases from congrArg Prod.fst h]

theorem frag_of_bodies {s t : State} (h : t.bodies = s.bodies) (k : Nat) : t.frag k = s.frag k := by
  rw [State.frag, State.frag, show t.frags = s.frags from congrArg Prod.snd h]

theorem bodies_dropRange (s : State) (a n : Nat) : (s.dropRange a n).bodies = s.bodies :=
  keeps_ite State.bodies (fun _ => rfl) fun _ => rfl

theorem bodies_housePages (s : State) (i at0 n core : Nat) : (s.housePages i at0 n core).bodies = s.bodies := by
  unfold State.housePages
  split
  · rfl
  · refine keeps_ite State.bodies (fun _ => rfl) fun _ => ?_
    have hmove (s : State) (e : Nat × Nat) (g : Mem → Mem) : ((s.dropRange e.2 0x1000).updMem g).bodies = s.bodies :=
      bodies_dropRange s e.2 0x1000
    exact keeps_foldl State.bodies (fun s (e : Nat × Nat) => hmove s e _) _ s

theorem bodies_housed (s : State) (i node core : Nat) : (s.housed i node core).bodies = s.bodies := by
  unfold State.housed
  split
  · rfl
  · next a _ =>
    have hchannel : (match (channelInto a.nodes node).bind a.node with
        | some y => s.housePages i y.page (y.pages - bit y.handler.isSome) core
        | none => s).bodies = s.bodies := by
      split
      · exact bodies_housePages ..
      · rfl
    dsimp only
    split
    · split
      · exact (bodies_housePages ..).trans hchannel
      · exact hchannel
    · exact hchannel

@[simp] theorem bodies_updPart (s : State) (n : Nat) (g : Part → Part) : (s.updPart n g).bodies = s.bodies := rfl
@[simp] theorem bodies_updInst (s : State) (i : Nat) (g : Applied → Applied) : (s.updInst i g).bodies = s.bodies := rfl
@[simp] theorem bodies_updLq (s : State) (n : Nat) (g : LaunchQ → LaunchQ) : (s.updLq n g).bodies = s.bodies := rfl

theorem bodies_partPlaced (s : State) (i node : Nat) : (s.partPlaced i node).bodies = s.bodies := by
  unfold State.partPlaced
  split
  · dsimp only
    refine keeps_ite State.bodies (fun _ => rfl) fun _ => ?_
    refine keeps_ite State.bodies (fun _ => ?_) fun _ => ?_
    · simp only [bodies_updInst, bodies_updLq, bodies_updPart]
    · simp only [bodies_updInst, bodies_updPart]
  · rfl

/-! ### The open choices of a place (R416) -/

theorem pickFrom_mem (d : Nat) {l : List Nat} (h : l ≠ []) : pickFrom d l ∈ l := by
  unfold pickFrom
  split
  · exact absurd rfl h
  · exact List.mem_singleton_self _
  · have hlen : Config.pick d l.length % l.length < l.length := Nat.mod_lt _ (List.length_pos_iff.2 h)
    rw [nth, List.getD_eq_getElem _ _ hlen]
    exact List.getElem_mem hlen

theorem mem_of_mem_ite {α : Type} {c : Prop} [Decidable c] {x : α} {l l' : List α} (h : x ∈ if c then l else l') : x ∈ l ∨ x ∈ l' := by
  split at h
  · exact .inl h
  · exact .inr h

/-- A core on which a phrase without auxiliary can be placed has room for it. -/
theorem coreRoom_of_mem_coresOpen {s : State} {i n c : Nat} {a : Applied} {x : Node} {cores : List Nat} (haux : x.aux = false)
    (h : c ∈ s.coresOpen i a n x cores) : s.coreRoom a.ctx c 1 x.regs = true := by
  have hroom {inRegion : Nat → Bool} (h : c ∈ cores.filter fun c => inRegion c && s.coreRoom a.ctx c 1 x.regs) :
      s.coreRoom a.ctx c 1 x.regs = true := (Bool.and_eq_true_iff.1 (List.mem_filter.1 h).2).2
  unfold State.coresOpen at h
  simp only [haux, Bool.false_eq_true, if_false, Nat.add_zero] at h
  rcases mem_of_mem_ite h with h | h
  · exact hroom h
  · exact hroom (List.mem_filter.1 h).1

theorem freeSlots_of_coreRoom {s : State} {ctx c regs : Nat} (h : s.coreRoom ctx c 1 regs = true) : s.freeSlots c ≠ [] := by
  intro hnil
  simp [State.coreRoom, hnil] at h

/-- The NDU's noun is a matter of the table alone (R196). -/
theorem allocNoun_noun (s : State) (ctx kind state rights : Nat) (w : Word) : (s.allocNoun ctx kind state rights w).map (·.1) =
    (freeLeaf s.mem (s.ctx ctx).ntab.toNat).map fun e => mkNoun kind ctx (((readLeaf s.mem e.2).gen + 1) % 256) e.1 := by
  unfold State.allocNoun
  split
  · next h => rw [h]; rfl
  · next h => rw [h]; rfl

/-! ### A phrase comes into being (R34, R93, R111) -/

/-- The phrase and the root fragment of a launch without courses and auxiliaries. -/
theorem spawn_alone {s s1 : State} {i n core : Nat} {a : Applied} {x : Node} {slots : Nat × Nat} {noun : Word} (k : Nat)
    (hcourses : a.packet.coursesz = 0) (haux : x.aux = false)
    (halloc : s.allocNoun a.ctx 0 stRunning 0xF (wordOf (locOf s.moduleNo core slots.1)) = some (noun, s1)) :
    ∃ t, s.spawn i a n x k core slots = some t ∧ t.phr s1.nextId = s1.newPhrase i a n x k core noun ∧
      t.frag (fragKey s1.nextId 0) = newRoot s1.nextId k x 0 (lowMask (a.lanesFor n x k)) x.entry slots.1 := by
  let base := (s1.claimCore a.ctx core).updNode i n fun y => { y with placed := y.placed + 1, cbase := some (y.cbase.getD a.courses) }
  refine ⟨(base.bump.setPhr s1.nextId (s1.newPhrase i a n x k core noun)).setFrag (fragKey s1.nextId 0)
    (newRoot s1.nextId k x 0 (lowMask (a.lanesFor n x k)) x.entry slots.1), ?_, tget_tput_same _ _ _ _, tget_tput_same _ _ _ _⟩
  unfold State.spawn
  simp only [halloc, haux, hcourses, State.openCourses, State.launchEnrol, beq_self_eq_true, Bool.or_true, if_true, ite_self, Bool.not_false]
  rfl

theorem reg_newRoot (p k : Nat) (x : Node) (live : Mask) (pc : Word) (slot : Nat) (y : SReg) :
    (newRoot p k x 0 live pc slot).reg y = if y = 3 then x.arg else if y = 4 then BitVec.ofNat 64 k else 0 := by
  have hzero : ({ phrase := p, live := true, slot := some slot, pc := pc, exec := live } : Frag).reg y = 0 := by
    simp [Frag.reg, tget]
  rw [newRoot, reg_setReg, reg_setReg, reg_setReg, hzero]
  by_cases h3 : y = 3
  · subst h3
    rfl
  · by_cases h4 : y = 4
    · subst h4
      rfl
    · by_cases h5 : y = 5
      · subst h5
        rfl
      · rw [if_neg fun h => h5 h.1, if_neg fun h => h4 h.1, if_neg fun h => h3 h.1, if_neg h3, if_neg h4]

theorem newRoot_eq (p k : Nat) (x : Node) (live : Mask) (pc : Word) (slot : Nat) : newRoot p k x 0 live pc slot =
    { phrase := p, live := true, slot := some slot, pc := pc, exec := live, sregs := (newRoot p k x 0 live pc slot).sregs } := by
  rw [newRoot, setReg_eq, setReg_eq, setReg_eq]

/-! ### The dispatcher's act (R164, R415) -/

section
variable {s : State} {i n : Nat} {a : Applied} {x : Node} (hinst : s.inst i = some a) (hnode : a.node n = some x)
include hinst hnode

theorem node_of_inst : s.node i n = some x := by rw [State.node, hinst]; exact hnode

theorem placeNext_eq {cores : List Nat} (hleft : x.placed < x.pcount) (hopen : s.coresOpen i a n x cores ≠ []) :
    s.placeNext i n cores = (s.drawn.drawn.drawn.spawn i a n x x.placed (pickFrom s.draws (s.coresOpen i a n x cores))
      (s.slotsFor (pickFrom s.draws (s.coresOpen i a n x cores)))).map fun s1 =>
        if x.placed == 0 then s1.housed i n (pickFrom s.draws (s.coresOpen i a n x cores)) else s1 := by
  unfold State.placeNext
  simp only [hinst, node_of_inst hinst hnode]
  rw [if_neg]
  simp [Nat.not_le.2 hleft, hopen]

theorem placePart_eq (hpipe : leafPipe a.nodes n = none) (hcores : a.packet.cores = false) :
    s.placePart i n = (s.placeNext i n (s.coresFor a)).map fun s1 => s1.partPlaced i n := by
  unfold State.placePart
  simp only [hinst, node_of_inst hinst hnode, hpipe, hcores, Bool.false_eq_true, if_false]

end

theorem dispatchStep_part {s t : State} {part i n : Nat} (hrestores : (s.part part).restores = [])
    (hparts : s.waitingParts part (s.headOfPart part) = [(i, n)]) (hplace : s.placePart i n = some t) : s.dispatchStep part = some t := by
  unfold State.dispatchStep
  simp only [hrestores, hparts, firstSome, hplace]

/-! ### A nest dies (R43, R163, R165, R392) -/

/-- The launch queues and the memory of a state. -/
def State.queues (s : State) : Tbl LaunchQ × Mem := (s.lqs, s.mem)

theorem queues_updFrag (s : State) (k : Nat) (g : Frag → Frag) : (s.updFrag k g).queues = s.queues := rfl
theorem queues_setStatus (s : State) (p : Nat) (b : BitVec 32) : (s.setStatus p b).queues = s.queues := rfl
theorem queues_fenced (s : State) (ops : List LaneOp) : ({ s with laneOps := ops } : State).bump.tidy.queues = s.queues := rfl

theorem queues_acquire (s : State) (k : Nat) (sc : Scope) : (s.acquire k sc).queues = s.queues := by
  refine keeps_ite State.queues (fun _ => ?_) fun _ => rfl
  unfold State.putFence
  dsimp only
  rw [queues_fenced, queues_updFrag]
  exact keeps_ite State.queues (fun _ => queues_setStatus s _ _) fun _ => rfl

theorem queues_passOn (s : State) (k : Nat) : (s.passOn k).queues = s.queues := by
  unfold State.passOn
  split
  · exact queues_acquire (s.updFrag k Frag.resume) k _
  · rfl

theorem queues_letThrough (s : State) (kind p : Nat) : (s.letThrough kind p).queues = s.queues := by
  refine keeps_ite State.queues (fun _ => rfl) fun _ => keeps_foldl State.queues (fun s k => ?_) _ s
  exact keeps_ite State.queues (fun _ => queues_passOn (s.updFrag k _) k) fun _ => rfl

theorem queues_depart (s : State) (p : Nat) : (s.depart p).queues = s.queues := by
  unfold State.depart
  split <;> rfl

theorem queues_checkBarrier (s : State) (inst : Nat) (num : BitVec 32) (kind : Nat) : (s.checkBarrier inst num kind).queues = s.queues := by
  unfold State.checkBarrier
  split
  · rfl
  · next c _ =>
    have hlet (u : State) : ((c.arrived kind).foldl (fun s p => s.letThrough kind p) u).queues = u.queues :=
      keeps_foldl State.queues (fun s p => queues_letThrough s kind p) _ u
    refine keeps_ite State.queues (fun _ => keeps_ite State.queues (fun _ => ?_) fun _ => hlet _) fun _ => rfl
    exact (keeps_foldl State.queues (fun s (m : Nat × Nat) => queues_depart s m.2) _ _).trans (hlet _)

theorem queues_dropAbsent (s : State) (i : Nat) (mine : BitVec 32 → Bool) : (s.dropAbsent i mine).queues = s.queues :=
  keeps_foldl State.queues (fun s (c : Course) => (queues_checkBarrier (s.checkBarrier c.inst c.num 0) c.inst c.num 1).trans
    (queues_checkBarrier s c.inst c.num 0)) _ _

/-- With no join outstanding, no resumer waits for an answer. -/
theorem endResumers_alone {s : State} {i : Nat} {a : Applied} (hinst : s.inst i = some a) (hjoins : s.joins = []) (exit : Word) :
    s.endResumers i exit = s.updInst i fun a => { a with waiting := [], served := none } := by
  simp only [State.endResumers, hinst, hjoins, List.filter_nil, List.foldl_nil]

theorem nounDead_alone {s : State} (hjoins : s.joins = []) (n : Word) (xstat xcause : Nat) (exit : Word) :
    s.nounDead n xstat xcause exit = s.setLeaf n stDead xstat xcause 0 exit := by
  have hjoins' : (s.setLeaf n stDead xstat xcause 0 exit).joins = [] := by
    rw [← hjoins, State.setLeaf]
    split <;> rfl
  simp only [State.nounDead, State.endJoins, hjoins', List.filter_nil, List.foldl_nil]

/-- With no join outstanding, the death of a nest removes it, takes it out of its queue, and writes its noun's leaf. -/
theorem instDead_alone {s : State} {i : Nat} {a : Applied} (hinst : s.inst i = some a) (hjoins : s.joins = []) (xstat xcause : Nat) (exit : Word) :
    let t := s.instDead i xstat xcause exit
    t.inst i = none ∧ (t.lq a.lq).items = (s.lq a.lq).items.filter (fun y => y != i) ∧
    t.mem = (s.setLeaf a.noun stDead xstat xcause 0 exit).mem := by
  let u := s.updInst i fun a => { a with waiting := [], served := none }
  let v := u.setLeaf a.noun stDead xstat xcause 0 exit
  have hv : v.queues = (s.lqs, (s.setLeaf a.noun stDead xstat xcause 0 exit).mem) := by
    have hleaf : u.leafOf a.noun = s.leafOf a.noun := rfl
    simp only [v, State.setLeaf, hleaf, State.queues]
    split <;> rfl
  have hclaims : (v.returnClaims i).queues = v.queues := by
    unfold State.returnClaims
    split <;> rfl
  let w := (v.returnClaims i).updLq a.lq fun q => { q with items := q.items.filter fun x => x != i }
  have hdead : s.instDead i xstat xcause exit = { (w.dropAbsent i fun _ => true) with applied := tdel i w.applied } := by
    have hjoins' : u.joins = [] := hjoins
    simp only [State.instDead, hinst, endResumers_alone hinst hjoins]
    rw [nounDead_alone hjoins']
  have hw : (w.dropAbsent i fun _ => true).queues = w.queues := queues_dropAbsent w i _
  have hlqs : (v.returnClaims i).lqs = s.lqs := congrArg Prod.fst (hclaims.trans hv)
  have hmem : (v.returnClaims i).mem = (s.setLeaf a.noun stDead xstat xcause 0 exit).mem := congrArg Prod.snd (hclaims.trans hv)
  simp only [hdead]
  refine ⟨tfind_tdel i _, ?_, (congrArg Prod.snd hw).trans hmem⟩
  have hitems : (w.dropAbsent i fun _ => true).lqs = w.lqs := congrArg Prod.fst hw
  rw [State.lq, hitems, ← State.lq, lq_updLq_same, State.lq, hlqs, ← State.lq]

/-! ### The leaf of a dead noun (R194, R392) -/

theorem word0_to (l : Leaf) (state xstat xcause mdest : Nat) (w : Word) : (l.to state xstat xcause mdest w).word0 =
    wordOf (at' state 61 + at' l.rights 56 + at' l.gen 48 + at' (xstat % 256) 40 + at' (xcause % 256) 32 + mdest % 2 ^ 25) := rfl

theorem extractLsb'_ofNat_field (x lo len : Nat) : (BitVec.ofNat 64 x).extractLsb' lo len = BitVec.ofNat len (x % 2 ^ 64 / 2 ^ lo) := by
  apply BitVec.eq_of_toNat_eq
  rw [BitVec.extractLsb'_toNat, BitVec.toNat_ofNat, BitVec.toNat_ofNat, Nat.shiftRight_eq_div_pow]

/-- The STATE and the XSTAT of a written word (R194). -/
theorem leafWord_fields {state xstat : Nat} (hstate : state < 8) (hxstat : xstat < 256) (l : Leaf) (xcause mdest : Nat) (w : Word) :
    (l.to state xstat xcause mdest w).word0.extractLsb' 61 3 = BitVec.ofNat 3 state ∧
    (l.to state xstat xcause mdest w).word0.extractLsb' 40 8 = BitVec.ofNat 8 xstat := by
  have hrights : l.rights < 32 := Nat.mod_lt _ (by decide)
  have hgen : l.gen < 256 := Nat.mod_lt _ (by decide)
  have hcause : xcause % 256 < 256 := Nat.mod_lt _ (by decide)
  have hdest : mdest % 2 ^ 25 < 2 ^ 25 := Nat.mod_lt _ (by decide)
  simp only [word0_to, wordOf, at', extractLsb'_ofNat_field]
  generalize l.rights = r at hrights ⊢
  generalize l.gen = g at hgen ⊢
  generalize xcause % 256 = c at hcause ⊢
  generalize mdest % 2 ^ 25 = d at hdest ⊢
  rw [Nat.mod_eq_of_lt hxstat]
  have hsum : state * 2 ^ 61 + r * 2 ^ 56 + g * 2 ^ 48 + xstat * 2 ^ 40 + c * 2 ^ 32 + d < 2 ^ 64 := by omega
  rw [Nat.mod_eq_of_lt hsum]
  constructor
  · congr 1
    omega
  · apply BitVec.eq_of_toNat_eq
    rw [BitVec.toNat_ofNat, BitVec.toNat_ofNat]
    omega

/-- A leaf that has been written reads its first word. -/
theorem readNat_writeLeaf {m : Mem} (hwf : Memory.wf m) (a : Nat) (l : Leaf) : BitVec.ofNat 64 (readNat (writeLeaf a l m) a 8) = l.word0 := by
  have hfirst : readNat (writeLeaf a l m) a 8 = readNat (writeNat a 8 l.word0.toNat m) a 8 :=
    readNat_congr fun k hk => readByte_writeNat_other _ (.inl (by omega)) (writeNat_wf _ _ _ hwf)
  rw [hfirst, readNat_writeNat _ _ _ hwf]
  apply BitVec.eq_of_toNat_eq
  rw [BitVec.toNat_ofNat, show 256 ^ 8 = 2 ^ 64 by norm_num, Nat.mod_mod, Nat.mod_eq_of_lt l.word0.isLt]

/-- The STATE and the XSTAT of a leaf that an update has written. -/
theorem readNat_setLeaf {s : State} {n : Word} {leaf : Nat} (hwf : Memory.wf s.mem) (hleaf : s.leafOf n = some leaf)
    {state xstat : Nat} (hstate : state < 8) (hxstat : xstat < 256) (xcause mdest : Nat) (w : Word) :
    let x : Word := BitVec.ofNat 64 (readNat (s.setLeaf n state xstat xcause mdest w).mem leaf 8)
    x.extractLsb' 61 3 = BitVec.ofNat 3 state ∧ x.extractLsb' 40 8 = BitVec.ofNat 8 xstat := by
  have hmem : (s.setLeaf n state xstat xcause mdest w).mem = writeLeaf leaf ((readLeaf s.mem leaf).to state xstat xcause mdest w) s.mem := by
    rw [State.setLeaf, hleaf]
  rw [hmem, readNat_writeLeaf hwf]
  exact leafWord_fields hstate hxstat _ xcause mdest w

/-! ### Late instances (R163) -/

section
variable {s : State} {i : Nat} {a : Applied} (hinst : s.inst i = some a) (hlate : s.isLate a = true)
include hinst hlate

theorem execInstanceLate_late (h : a.packet.droplate = false) : execInstanceLate i s = .next (s.updInst i fun a => { a with late := true }) := by
  simp only [execInstanceLate, hinst, hlate, h, Bool.not_true, Bool.false_eq_true, if_false]

theorem execInstanceLate_drops (h : a.packet.droplate = true) : execInstanceLate i s = .next (s.instDead i xLate 0 0) := by
  simp only [execInstanceLate, hinst, hlate, h, Bool.not_true, Bool.false_eq_true, if_false, if_true]

end

theorem isLate_of {s : State} {a : Applied} (hdeadline : a.packet.deadline ≠ 0) (hlate : a.late = false) (hqueued : a.queued = true)
    (hplaced : a.anyPlaced = false) (hdue : a.packet.deadline.toNat ≤ s.dtime) : s.isLate a = true := by
  simp only [State.isLate, hlate, hqueued, hplaced, bne_iff_ne.2 hdeadline, decide_eq_true hdue, Bool.not_false, Bool.and_self]

theorem tfind_tmod_same {α : Type} {n : Nat} {f : α → α} {v : α} {t : Tbl α} (h : tfind t n = some v) : tfind (tmod n f t) n = some (f v) := by
  induction t with
  | nil => exact absurd h (by simp [tfind])
  | cons e t ih =>
    obtain ⟨k, w⟩ := e
    by_cases hk : k = n
    · simp only [tfind, tmod, hk, if_true, Option.some.injEq] at h ⊢
      rw [h]
    · simp only [tfind, tmod, hk, if_false] at h ⊢
      exact ih h

/-! ### Ready queues (R479) -/

section
variable (s : State) (part : Nat) (n : Word)

/-- Whether a phrase restores by itself does not depend on what waits for a place. -/
theorem autoReady_queueRestore (m : Word) : (s.queueRestore part n).autoReady m = s.autoReady m := by
  unfold State.queueRestore
  split <;> rfl

theorem mem_queueRestore : (s.queueRestore part n).mem = s.mem := by
  unfold State.queueRestore
  split <;> rfl

theorem contexts_queueRestore : (s.queueRestore part n).contexts = s.contexts := by
  unfold State.queueRestore
  split <;> rfl

theorem queueRestore_waits (h : s.autoReady n = true) : n ∈ ((s.queueRestore part n).part part).restores := by
  rw [State.queueRestore, if_pos h, part_updPart_same]
  by_cases hmem : n ∈ (s.part part).restores
  · simp [hmem]
  · simp [hmem]

theorem queueRestore_keeps {m : Word} (h : m ∈ (s.part part).restores) : m ∈ ((s.queueRestore part n).part part).restores := by
  unfold State.queueRestore
  split
  · rw [part_updPart_same]
    simp only []
    split
    · exact h
    · exact List.mem_append_left _ h
  · exact h

theorem queueRestore_unready (h : s.autoReady n = false) : s.queueRestore part n = s := by
  rw [State.queueRestore, h]
  rfl

end

/-- Every noun of a list whose phrase restores by itself waits for a place in the end. -/
theorem foldl_queueRestore (part : Nat) (ns : List Word) (s : State) : let t := ns.foldl (fun s n => s.queueRestore part n) s
    t.mem = s.mem ∧ t.contexts = s.contexts ∧ (∀ m, t.autoReady m = s.autoReady m) ∧
    (∀ m, m ∈ (s.part part).restores → m ∈ (t.part part).restores) ∧ ∀ m ∈ ns, s.autoReady m = true → m ∈ (t.part part).restores := by
  induction ns generalizing s with
  | nil => exact ⟨rfl, rfl, fun _ => rfl, fun _ h => h, fun _ h => absurd h List.not_mem_nil⟩
  | cons n ns ih =>
    obtain ⟨hmem, hctx, hready, hkeep, hall⟩ := ih (s.queueRestore part n)
    refine ⟨hmem.trans (mem_queueRestore s part n), hctx.trans (contexts_queueRestore s part n),
      fun m => (hready m).trans (autoReady_queueRestore s part n m), fun m hm => hkeep m (queueRestore_keeps s part n hm), fun m hm hm' => ?_⟩
    rcases List.mem_cons.1 hm with rfl | hm
    · exact hkeep m (queueRestore_waits s part m hm')
    · exact hall m hm (by rwa [autoReady_queueRestore])

theorem readyNouns_of_same {s t : State} (hmem : t.mem = s.mem) (hctx : t.contexts = s.contexts)
    (hready : ∀ m, t.autoReady m = s.autoReady m) (ctx : Nat) : t.readyNouns ctx = s.readyNouns ctx := by
  have hpred : t.autoReady = s.autoReady := funext hready
  rw [State.readyNouns, State.readyNouns, State.ctx, State.ctx, hmem, hctx, hpred]

theorem readNat_lt (m : Mem) (a n : Nat) : readNat m a n < 256 ^ n := by
  induction n generalizing a with
  | zero => exact Nat.one_pos
  | succ n ih =>
    have h := ih (a + 1)
    have hb := (readByte m a).isLt
    rw [readNat, readBytes, natOf, ← readNat, Nat.pow_succ]
    omega

end Sys2Proof.Machine

namespace Sys2Proof

open Machine

theorem dispatcherPlaces : Claims.Dispatching := by
  unfold Claims.Dispatching
  constructor
  · intro s part i n a x noun hrestores hparts hinst hnode hpipe hcores hcourses haux hleft open' hopen halloc lanes live
    let c := pickFrom s.draws open'
    let slots := s.slotsFor c
    have hc : c ∈ open' := pickFrom_mem _ hopen
    have hroom := coreRoom_of_mem_coresOpen haux hc
    have hslot : slots.1 ∈ s.freeSlots c := pickFrom_mem _ (freeSlots_of_coreRoom hroom)
    have hdrawn : (s.drawn.drawn.drawn.allocNoun a.ctx 0 stRunning 0xF (wordOf (locOf s.moduleNo c slots.1))).map (·.1) = some noun := by
      rw [← halloc (wordOf (locOf s.moduleNo c slots.1)), allocNoun_noun, allocNoun_noun]
      rfl
    obtain ⟨⟨_, s2⟩, hs2, rfl⟩ := Option.map_eq_some_iff.1 hdrawn
    obtain ⟨t, hspawn, hphr, hfrag⟩ := spawn_alone (i := i) (n := n) x.placed hcourses haux hs2
    let u := if x.placed == 0 then t.housed i n c else t
    have hu : (u.partPlaced i n).bodies = t.bodies :=
      (bodies_partPlaced u i n).trans (keeps_ite State.bodies (fun _ => bodies_housed t i n c) fun _ => rfl)
    have hplace : s.placePart i n = some (u.partPlaced i n) := by
      rw [placePart_eq hinst hnode hpipe hcores, placeNext_eq hinst hnode hleft hopen, hspawn]
      rfl
    refine ⟨u.partPlaced i n, congrArg (fun o => Host.Outcome.next (Option.getD o s)) (dispatchStep_part hrestores hparts hplace), c, hc, slots.1,
      hslot, hroom, s2.nextId, ?_⟩
    rw [phr_of_bodies hu, hphr, frag_of_bodies hu, hfrag]
    have hroot := newRoot_eq s2.nextId x.placed x (lowMask (a.lanesFor n x x.placed)) x.entry slots.1
    have hlive : lowMask (a.lanesFor n x x.placed) = live := by
      simp only [live, lanes, Applied.lanesFor, lowMask, Bool.and_eq_true, Bool.or_eq_true, beq_iff_eq, and_assoc]
    refine ⟨rfl, rfl, rfl, hlive, rfl, rfl, rfl, rfl, rfl, ?_, ?_, ?_, ?_, reg_newRoot _ _ x _ _ _⟩
    · rw [hroot]
    · rw [hroot]
      exact hlive
    · rw [hroot]
    · rw [hroot]
  · intro s i a hinst hdeadline hlate hqueued hplaced hdue
    have hisLate := isLate_of hdeadline hlate hqueued hplaced hdue
    refine ⟨fun hkeep => ⟨_, execInstanceLate_late hinst hisLate hkeep, tfind_tmod_same hinst, rfl⟩, fun hdrop hjoins hwf leaf hleaf => ?_⟩
    obtain ⟨hgone, hitems, hmem⟩ := instDead_alone hinst hjoins xLate 0 0
    obtain ⟨hstate, hxstat⟩ := readNat_setLeaf hwf hleaf (state := stDead) (xstat := xLate) (by decide) (by decide) 0 0 0
    refine ⟨_, execInstanceLate_drops hinst hisLate hdrop, hgone, ?_, ?_, ?_⟩
    · rw [hitems]
      simp
    · rw [hmem]
      exact hstate
    · rw [hmem]
      exact hxstat

theorem readyQueues : Claims.ReadyQueues := by
  unfold Claims.ReadyQueues
  intro s part hwf a prod cons ha
  have hcount : s.readyCount part = prod - cons := if_neg (mt beq_iff_eq.1 ha)
  constructor
  · intro hlt
    let n : Word := BitVec.ofNat 64 (readNat s.mem (a + 128 + 8 * (cons % 1024)) 8)
    let u := s.updMem (writeNat (a + 8) 8 (cons + 1))
    have hserve : exec (.readyQueueServe part) s = .next (u.queueRestore part n) :=
      if_neg (by rw [hcount, beq_iff_eq]; omega)
    have hmem : (u.queueRestore part n).mem = writeNat (a + 8) 8 (cons + 1) s.mem := mem_queueRestore u part n
    have hprod : prod < 256 ^ 8 := readNat_lt s.mem a 8
    refine ⟨_, hserve, ?_, fun k hk => ?_, fun hready => ?_, fun hready => ?_⟩
    · rw [hmem, readNat_writeNat _ _ _ hwf, Nat.mod_eq_of_lt (by omega)]
    · rw [hmem, readByte_writeNat_other _ (by omega) hwf]
    · rw [autoReady_queueRestore] at hready
      exact queueRestore_waits u part n hready
    · rw [autoReady_queueRestore] at hready
      rw [queueRestore_unready u part n hready]
      rfl
  · intro hempty hover
    let u := s.updMem fun m => writeNat (a + 16) 1 (readNat m (a + 16) 1 - 1) m
    let cs := (u.contexts.filter fun e => e.2.resident && u.partOf e.1 == part).map (·.1)
    have hdue : s.scanDue part = true := by
      simp only [State.scanDue, hcount, Bool.and_eq_true, bne_iff_ne, beq_iff_eq]
      exact ⟨⟨ha, by omega⟩, hover⟩
    have hscan : exec (.readyQueueScan part) s = .next ((cs.flatMap u.readyNouns).foldl (fun s n => s.queueRestore part n) u) :=
      if_neg (by rw [hdue]; decide)
    obtain ⟨hmem, hctx, hready, _, hall⟩ := foldl_queueRestore part (cs.flatMap u.readyNouns) u
    refine ⟨_, hscan, ?_, fun k hk => ?_, fun e he hres hpart n hn => ?_⟩
    · have hodd : readNat s.mem (a + 16) 1 % 2 = 1 := by simpa [Nat.testBit_zero] using hover
      rw [hmem, updMem_mem, readNat_writeNat _ _ _ hwf, Nat.testBit_zero, decide_eq_false_iff_not]
      omega
    · rw [hmem]
      exact readByte_writeNat_other _ (by omega) hwf
    · rw [readyNouns_of_same hmem hctx hready] at hn
      have hin : e.1 ∈ cs := List.mem_map.2 ⟨e, List.mem_filter.2 ⟨he, Bool.and_eq_true_iff.2 ⟨hres, beq_iff_eq.2 hpart⟩⟩, rfl⟩
      exact hall n (List.mem_flatMap.2 ⟨e.1, hin, hn⟩) (List.mem_filter.1 hn).2

/-- Settles O31: a part that is placed by itself goes through `spawn` to a phrase with its launch values, on a core and in a slot of the
free ones; a late nest is marked, or dies; and a ready queue's entries and scan each queue the nouns that restore by themselves. -/
theorem dispatching : Obligations.Dispatching := by
  unfold Obligations.Dispatching
  exact ⟨dispatcherPlaces, readyQueues⟩

end Sys2Proof

/-!
# Task words and yields (O29)

A task word is answered by one reply, and only its pokes of memory come before it (`State.answering`): what is left of each clause is which
branch of `kemit`, `ktake` or `kdone` is taken, and the memory of that branch. A yield is one save of one phrase, in
which its nest stands but for what a withdrawn wait would take from it.
-/
namespace Sys2Proof.Machine

/-! ### The answer of a task word (R419) -/

/-- What the answer of a task word reads and what it adds to. -/
def State.answering (s : State) : List Reply × Tbl Frag × Nat := (s.replies, s.frags, s.cur)

/-- The issuing fragment goes on with one more reply outstanding, which writes `ws`. -/
def Answered (s t : State) (ws : List (SReg × Word)) : Prop :=
  (∃ y : Reply, t.replies = s.replies ++ [y] ∧ y.frag = s.cur ∧ y.writes = ws ∧ y.exn = none) ∧ t.me = { s.me with pc := s.me.pc + 4 }

theorem answering_dropTags (s : State) (ks : List Nat) : (s.dropTags ks).answering = s.answering :=
  keeps_ite State.answering (fun _ => rfl) fun _ => rfl

theorem answering_heal (s : State) (ks : List Nat) : (s.heal ks).answering = s.answering :=
  keeps_ite State.answering (fun _ => rfl) fun _ => rfl

theorem sendReply_answers {s u : State} (h : u.answering = s.answering) (ws : List (SReg × Word)) (acq : Option Scope) :
    Answered s (u.sendReply ws acq) ws := by
  obtain ⟨hreplies, hfrags, hcur⟩ : u.replies = s.replies ∧ u.frags = s.frags ∧ u.cur = s.cur := by simpa [State.answering] using h
  have hme : u.me = s.me := by rw [State.me, State.frag, hfrags, hcur, State.me, State.frag]
  refine ⟨⟨{ id := u.nextId, frag := u.cur, pc := u.me.pc, writes := ws, acq := acq }, ?_, hcur, rfl, rfl⟩, ?_⟩
  · rw [← hreplies]
    rfl
  · rw [← hme]
    exact me_adv _

/-- A task word has been answered with the registers `ws`, and memory is `m`. -/
def Tells (s : State) (o : Out) (ws : List (SReg × Word)) (m : Mem) : Prop := Gives o fun t => Answered s t ws ∧ t.mem = m

theorem emitStatus_tells {s u : State} {m : Mem} (h : u.answering = s.answering) (hm : u.mem = m) (sd : SReg) (st : Word) :
    Tells s (u.emitStatus sd st) [(sd, st)] m :=
  ⟨_, rfl, sendReply_answers h _ _, (sendReply_mem ..).trans hm⟩

theorem takeStatus_tells {s u : State} {m : Mem} (h : u.answering = s.answering) (hm : u.mem = m) (sd sf : SReg) (task st : Word) :
    Tells s (u.takeStatus sd sf task st) [(sd, task), (sf, st)] m :=
  ⟨_, rfl, sendReply_answers h _ _, (sendReply_mem ..).trans hm⟩

/-! ### The record of a deque that a task word picks (R182) -/

theorem firstFrom_eq_some {α : Type} {f : Nat → Option α} {r : α} {n d : Nat} (hd : d < n) :
    ∀ {i : Nat}, f (i + d) = some r → (∀ e, e < d → f (i + e) = none) → firstFrom f n i = some r := by
  induction n generalizing d with
  | zero => omega
  | succ n ih =>
    intro i hsome hnone
    cases d with
    | zero => rw [firstFrom, show f i = some r from hsome]
    | succ d =>
      have hshift (e : Nat) : i + 1 + e = i + (e + 1) := by omega
      rw [firstFrom, show f i = none from hnone 0 (by omega)]
      exact ih (d := d) (by omega) (by rwa [hshift]) fun e he => by rw [hshift]; exact hnone (e + 1) (by omega)

/-- Whether record `r` goes before record `x`: the newest first, or the oldest first. -/
def precedes (m : Mem) (newest : Bool) (r x : Nat) : Bool := if newest then decide (recSeq m x < recSeq m r) else decide (recSeq m r < recSeq m x)

theorem precedes_newest (m : Mem) (r x : Nat) : precedes m true r x = true ↔ recSeq m x < recSeq m r := by
  rw [precedes, if_pos rfl, decide_eq_true_iff]

theorem precedes_oldest (m : Mem) (r x : Nat) : precedes m false r x = true ↔ recSeq m r < recSeq m x := by
  rw [precedes, if_neg Bool.false_ne_true, decide_eq_true_iff]

theorem precedes_asymm {m : Mem} {newest : Bool} {r x : Nat} (h : precedes m newest r x = true) : precedes m newest x r = false := by
  rw [← Bool.not_eq_true]
  cases newest
  · rw [precedes_oldest] at h ⊢
    exact Nat.lt_asymm h
  · rw [precedes_newest] at h ⊢
    exact Nat.lt_asymm h

/-- One step of the pick: the record held, or the next one where that goes before it. -/
def pickStep (m : Mem) (newest : Bool) (b : Option Nat) (r : Nat) : Option Nat :=
  match b with
  | none => some r
  | some x => if precedes m newest r x then some r else some x

theorem pickSeq_eq_foldl (m : Mem) (newest : Bool) (rs : List Nat) : pickSeq m newest rs = rs.foldl (pickStep m newest) none := by
  unfold pickSeq
  congr 1
  funext b r
  cases b with
  | none => rfl
  | some x => cases newest <;> simp [pickStep, precedes]

section
variable {m : Mem} {newest : Bool} {r : Nat}

theorem pickStep_takes {b : Option Nat} (h : ∀ x, b = some x → x ≠ r → precedes m newest r x = true) : pickStep m newest b r = some r := by
  cases b with
  | none => rfl
  | some x =>
    by_cases hx : x = r
    · rw [hx, pickStep, ite_self]
    · exact if_pos (h x rfl hx)

theorem pickStep_stays {y : Nat} (h : precedes m newest r y = true) : pickStep m newest (some r) y = some r :=
  if_neg (by simp [precedes_asymm h])

theorem pickStep_or (b : Option Nat) (y : Nat) : pickStep m newest b y = some y ∨ pickStep m newest b y = b := by
  cases b with
  | none => exact .inl rfl
  | some x => exact ite_eq_or_eq ..

/-- The record that goes before all others is picked, wherever it stands. -/
theorem foldl_pickStep {rs : List Nat} : ∀ {b : Option Nat}, (r ∈ rs ∨ b = some r) → (∀ x ∈ rs, x ≠ r → precedes m newest r x = true) →
    (∀ x, b = some x → x ≠ r → precedes m newest r x = true) → rs.foldl (pickStep m newest) b = some r := by
  induction rs with
  | nil => exact fun hr _ _ => hr.resolve_left List.not_mem_nil
  | cons y rs ih =>
    intro b hr hrs hb
    have hrest : ∀ x ∈ rs, x ≠ r → precedes m newest r x = true := fun x hx => hrs x (List.mem_cons_of_mem _ hx)
    have htaken (h : pickStep m newest b y = some r) : (y :: rs).foldl (pickStep m newest) b = some r := by
      rw [List.foldl_cons, h]
      exact ih (.inr rfl) hrest fun x hx hne => absurd (Option.some.inj hx).symm hne
    by_cases hy : y = r
    · exact htaken (by rw [hy]; exact pickStep_takes hb)
    · have hyr := hrs y (List.mem_cons_self ..) hy
      rcases hr with hr | rfl
      · refine ih (.inl ((List.mem_cons.1 hr).resolve_left (Ne.symm hy))) hrest fun x hx hne => ?_
        rcases pickStep_or (m := m) (newest := newest) b y with h | h
        · rw [h] at hx
          exact Option.some.inj hx ▸ hyr
        · exact hb x (h ▸ hx) hne
      · exact htaken (pickStep_stays hyr)

theorem pickSeq_first {rs : List Nat} (hr : r ∈ rs) (hfirst : ∀ x ∈ rs, x ≠ r → precedes m newest r x = true) :
    pickSeq m newest rs = some r := by
  rw [pickSeq_eq_foldl]
  exact foldl_pickStep (.inl hr) hfirst fun x hx => nomatch hx

end

/-- The READY records of a worker's deque. -/
def readyRecords (a : Applied) (x : Node) (m : Mem) (v : Nat) : List Nat := (a.worker x v).filter fun r => recState m r == recReady

section
variable {a : Applied} {x : Node} {m : Mem}

theorem mem_readyRecords {v r : Nat} : r ∈ readyRecords a x m v ↔ ∃ j, j < 256 ∧ r = a.recordAt x v j ∧ recState m r = recReady := by
  simp only [readyRecords, Applied.worker, List.mem_filter, List.mem_map, List.mem_range, beq_iff_eq]
  exact ⟨fun ⟨⟨j, hj, h⟩, hr⟩ => ⟨j, hj, h.symm, hr⟩, fun ⟨j, hj, h, hr⟩ => ⟨⟨j, hj, h.symm⟩, hr⟩⟩

/-- The READY record of a deque that goes before its other READY records is picked. -/
theorem pickSeq_readyRecords {newest : Bool} {v i : Nat} (hi : i < 256) (hready : recState m (a.recordAt x v i) = recReady)
    (hfirst : ∀ j, j < 256 → j ≠ i → recState m (a.recordAt x v j) = recReady → precedes m newest (a.recordAt x v i) (a.recordAt x v j) = true) :
    pickSeq m newest (readyRecords a x m v) = some (a.recordAt x v i) := by
  refine pickSeq_first (mem_readyRecords.2 ⟨i, hi, rfl, hready⟩) fun r hr hne => ?_
  obtain ⟨j, hj, rfl, hr⟩ := mem_readyRecords.1 hr
  exact hfirst j hj (fun hji => hne (by rw [hji])) hr

theorem pickSeq_unready {newest : Bool} {v : Nat} (h : ∀ j, j < 256 → recState m (a.recordAt x v j) ≠ recReady) :
    pickSeq m newest (readyRecords a x m v) = none := by
  rw [show readyRecords a x m v = [] from List.eq_nil_iff_forall_not_mem.2 fun r hr => by
    obtain ⟨j, hj, rfl, hr⟩ := mem_readyRecords.1 hr
    exact h j hj hr]
  rfl

theorem dequePick_eq (w : Nat) : dequePick a x m w = (pickSeq m false (readyRecords a x m w)).or
    (firstFrom (fun j => pickSeq m true (readyRecords a x m ((w + 1 + j) % x.kids.length))) (x.kids.length - 1) 0) := by
  unfold dequePick
  simp only [readyRecords]
  cases pickSeq m false _ <;> rfl

/-- The own deque's oldest record is taken. -/
theorem dequePick_own {w r : Nat} (h : pickSeq m false (readyRecords a x m w) = some r) : dequePick a x m w = some r := by
  rw [dequePick_eq, h, Option.some_or]

/-- Where the own deque has none, the newest record of the first of the next workers that has one is taken. -/
theorem dequePick_next {w d r : Nat} (hown : pickSeq m false (readyRecords a x m w) = none) (hd : d < x.kids.length - 1)
    (hnone : ∀ e, e < d → pickSeq m true (readyRecords a x m ((w + 1 + e) % x.kids.length)) = none)
    (hsome : pickSeq m true (readyRecords a x m ((w + 1 + d) % x.kids.length)) = some r) : dequePick a x m w = some r := by
  rw [dequePick_eq, hown, Option.none_or]
  refine firstFrom_eq_some hd ?_ fun e he => ?_
  · rw [Nat.zero_add]
    exact hsome
  · rw [Nat.zero_add]
    exact hnone e he

/-- The worker at E takes the task where its record at TAIL is free. -/
theorem dequeWorker_first (hkids : x.kids ≠ []) (hfree : recState m (a.tailRecord x m (readNat m (a.claimAddr x 0) 8 % x.kids.length)) = recFree) :
    dequeWorker a x m = some (readNat m (a.claimAddr x 0) 8 % x.kids.length) := by
  obtain ⟨n, hn⟩ : ∃ n, x.kids.length = n + 1 := Nat.exists_eq_succ_of_ne_zero (fun h => hkids (List.length_eq_zero_iff.1 h))
  unfold dequeWorker
  dsimp only
  rw [hn] at hfree ⊢
  rw [List.range_succ_eq_map, List.map_cons, List.find?_cons_of_pos]
  · rw [Nat.add_zero]
  · rw [Nat.add_zero, hfree, beq_self_eq_true]

theorem dequeWorker_full (h : ∀ v, v < x.kids.length → recState m (a.tailRecord x m v) ≠ recFree) : dequeWorker a x m = none := by
  unfold dequeWorker
  refine List.find?_eq_none.2 fun w hw => ?_
  obtain ⟨j, hj, rfl⟩ := List.mem_map.1 hw
  have hpos : 0 < x.kids.length := Nat.zero_lt_of_lt (List.mem_range.1 hj)
  exact fun hfree => h _ (Nat.mod_lt _ hpos) (beq_iff_eq.1 hfree)

end

/-! ### kemit (R419, R420) -/

section
variable {s : State} {a : Applied} {sd sf sa sb : SReg} {farm : Bool} {x : Node}

theorem execKemit_held (h : s.emitHeld farm (s.r sb) = true) : execKemit sd sa sb farm s = .next s := if_pos (by rw [h, Bool.or_true])

theorem execKemit_closed (hcomb : s.combWaits = false) (h : s.myNest = none ∨ ∃ a, s.myNest = some a ∧ s.emitPort a farm = none) :
    execKemit sd sa sb farm s = s.emitStatus sd kNochan := by
  rcases h with h | ⟨a, h, hport⟩
  · have hheld : s.emitHeld farm (s.r sb) = false := by rw [State.emitHeld, h]
    rw [execKemit, hcomb, hheld, h]
    rfl
  · have hheld : s.emitHeld farm (s.r sb) = false := by simp only [State.emitHeld, h, hport]
    rw [execKemit, hcomb, hheld, h]
    simp only [hport]
    rfl

section
variable (hnest : s.myNest = some a)
include hnest

theorem execKemit_farm {f : Nat} (hcomb : s.combWaits = false) (hport : s.emitPort a farm = some (.farm f)) (hnode : a.node f = some x)
    (hheld : s.emitHeld farm (s.r sb) = false) : execKemit sd sa sb farm s = s.emitFarm sd a x (s.r sa) (s.r sb) := by
  rw [execKemit, hcomb, hheld, hnest]
  simp only [hport, hnode]
  rfl

theorem execKemit_pipe {p : Nat} (hcomb : s.combWaits = false) (hport : s.emitPort a farm = some (.pipe p)) (hnode : a.node p = some x)
    (hheld : s.emitHeld farm (s.r sb) = false) : execKemit sd sa sb farm s = s.emitPipe sd a x (s.r sa) (s.r sb) := by
  rw [execKemit, hcomb, hheld, hnest]
  simp only [hport, hnode]
  rfl

theorem emitHeld_farm {f : Nat} (hport : s.emitPort a farm = some (.farm f)) (hnode : a.node f = some x) (payload : Word) :
    s.emitHeld farm payload = (payload == 0 && (dequeWorker a x s.mem).any fun w => !s.dequeTurn (a.tailRecord x s.mem w)) := by
  simp only [State.emitHeld, hnest, hport, hnode, Option.any_some]

theorem emitHeld_pipe {p : Nat} (hport : s.emitPort a farm = some (.pipe p)) (hnode : a.node p = some x) (payload : Word) :
    s.emitHeld farm payload = (s.chanCount a x < x.depth && !s.chanTurn a x) := by
  simp only [State.emitHeld, hnest, hport, hnode, Option.any_some]

end

/-- What a task word does to a deque: it writes memory, the bytes lose their tags, and the engine has accepted it. -/
theorem answering_dequeAccept (s : State) (g : Mem → Mem) (ks : List Nat) (r : Nat) :
    (((s.updMem g).dropTags ks).dequeAccept r).answering = s.answering := answering_dropTags (s.updMem g) ks

theorem mem_dequeAccept (s : State) (g : Mem → Mem) (ks : List Nat) (r : Nat) :
    (((s.updMem g).dropTags ks).dequeAccept r).mem = g s.mem := by
  rw [State.dequeAccept, engineAccept_mem, dropTags_mem]
  rfl

theorem farmEmit_payload (task : Word) {payload : Word} (h : payload ≠ 0) : Tells s (s.emitFarm sd a x task payload) [(sd, kBadarg)] s.mem := by
  rw [State.emitFarm, if_pos (by simpa using h)]
  exact emitStatus_tells rfl rfl _ _

theorem farmEmit_full (task : Word) (h : dequeWorker a x s.mem = none) : Tells s (s.emitFarm sd a x task 0) [(sd, kFull)] s.mem := by
  rw [State.emitFarm, if_neg (by simp), h]
  exact emitStatus_tells rfl rfl _ _

theorem farmEmit_pushes (task : Word) {w : Nat} (h : dequeWorker a x s.mem = some w) :
    Tells s (s.emitFarm sd a x task 0) [(sd, kOk)] (dequePush a x s.mem task w) := by
  rw [State.emitFarm, if_neg (by simp), h]
  dsimp only
  exact emitStatus_tells (answering_dequeAccept ..) (mem_dequeAccept ..) _ _

section
variable (hgutter : x.gutter = none)
include hgutter

theorem chanPtrs_claimed : s.chanPtrs a x = (readNat s.mem (a.claimAddr x 0) 8, readNat s.mem (a.claimAddr x 8) 8) := by
  rw [State.chanPtrs, hgutter]

theorem chanCount_claimed : s.chanCount a x = readNat s.mem (a.claimAddr x 0) 8 - readNat s.mem (a.claimAddr x 8) 8 := by
  rw [State.chanCount, hgutter, chanPtrs_claimed hgutter]

/-- A pointer of a channel in the claim goes on: the pointer is a word of memory. -/
theorem chanMove_claimed (prod : Bool) : s.chanMove a x prod = s.updMem fun m =>
    writeNat (a.claimAddr x (if prod then 0 else 8)) 8 (readNat m (a.claimAddr x (if prod then 0 else 8)) 8 + 1) m := by
  rw [State.chanMove, hgutter]

theorem answering_chanMove (prod : Bool) : ((s.chanMove a x prod).chanAccept a x).answering = s.answering := by
  rw [chanMove_claimed hgutter]
  rfl

theorem mem_chanMove (prod : Bool) : ((s.chanMove a x prod).chanAccept a x).mem =
    writeNat (a.claimAddr x (if prod then 0 else 8)) 8 (readNat s.mem (a.claimAddr x (if prod then 0 else 8)) 8 + 1) s.mem := by
  rw [State.chanAccept, engineAccept_mem, chanMove_claimed hgutter]
  rfl

theorem emitPipe_pushes (task : Word) (hroom : s.chanCount a x < x.depth) :
    let m := a.chanWrite x (readNat s.mem (a.claimAddr x 0) 8) 0 (bytesOf task.toNat 8 ++ List.replicate (2 ^ x.logsz - 8) 0) s.mem
    Tells s (s.emitPipe sd a x task 0) [(sd, kOk)] (writeNat (a.claimAddr x 0) 8 (readNat m (a.claimAddr x 0) 8 + 1) m) := by
  intro m
  rw [State.emitPipe, if_neg (Nat.not_le.2 hroom), chanPtrs_claimed hgutter]
  dsimp only
  rw [if_pos (by rfl)]
  have hstored (bs : List Byte) : (s.chanStore a x (readNat s.mem (a.claimAddr x 0) 8) 0 bs).answering = s.answering :=
    (answering_heal _ _).trans (answering_dropTags (s.updMem _) _)
  have hmem (bs : List Byte) : (s.chanStore a x (readNat s.mem (a.claimAddr x 0) 8) 0 bs).mem =
      a.chanWrite x (readNat s.mem (a.claimAddr x 0) 8) 0 bs s.mem := (heal_mem _ _).trans (dropTags_mem _ _)
  refine emitStatus_tells ((answering_chanMove hgutter true).trans (hstored _)) ?_ _ _
  rw [mem_chanMove hgutter, hmem]
  rfl

end

theorem emitPipe_full (task payload : Word) (h : x.depth ≤ s.chanCount a x) : Tells s (s.emitPipe sd a x task payload) [(sd, kFull)] s.mem := by
  rw [State.emitPipe, if_pos h]
  exact emitStatus_tells rfl rfl _ _

/-! ### ktake (R419, R420) -/

theorem execKtake_held (h : s.takeHeld = true) : execKtake sd sf sa s = .next s := if_pos h

theorem execKtake_closed (h : s.myNest = none ∨ ∃ a, s.myNest = some a ∧ inputOf a.nodes s.myPhr.node = none) :
    execKtake sd sf sa s = s.takeStatus sd sf 0 kNochan := by
  rcases h with h | ⟨a, h, hinput⟩
  · have hheld : s.takeHeld = false := by rw [State.takeHeld, h]
    rw [execKtake, hheld, h]
    rfl
  · have hheld : s.takeHeld = false := by simp only [State.takeHeld, h, hinput]
    rw [execKtake, hheld, h]
    simp only [hinput]
    rfl

section
variable (hnest : s.myNest = some a)
include hnest

theorem execKtake_farm {f : Nat} (hinput : inputOf a.nodes s.myPhr.node = some (.farm f)) (hnode : a.node f = some x)
    (hheld : s.takeHeld = false) : execKtake sd sf sa s = s.takeFarm sd sf a f x := by
  rw [execKtake, hheld, hnest]
  simp only [hinput, hnode]
  rfl

theorem execKtake_pipe {p : Nat} (hinput : inputOf a.nodes s.myPhr.node = some (.pipe p)) (hnode : a.node p = some x)
    (hheld : s.takeHeld = false) : execKtake sd sf sa s = s.takePipe sd sf a x (s.r sa) := by
  rw [execKtake, hheld, hnest]
  simp only [hinput, hnode]
  rfl

theorem takeHeld_farm {f : Nat} (hinput : inputOf a.nodes s.myPhr.node = some (.farm f)) (hnode : a.node f = some x) :
    s.takeHeld = ((heldRecord a x s.mem s.myPhr.noun).isNone &&
      (dequePick a x s.mem (workerOf a.nodes f s.myPhr.node)).any fun r => !s.dequeTurn r) := by
  simp only [State.takeHeld, hnest, hinput, hnode, Option.any_some]

theorem takeHeld_pipe {p : Nat} (hinput : inputOf a.nodes s.myPhr.node = some (.pipe p)) (hnode : a.node p = some x) :
    s.takeHeld = (s.chanCount a x != 0 && !s.chanTurn a x) := by
  simp only [State.takeHeld, hnest, hinput, hnode, Option.any_some]

end

section
variable {f : Nat}

theorem farmTake_holds (h : heldRecord a x s.mem s.myPhr.noun ≠ none) :
    Tells s (s.takeFarm sd sf a f x) [(sd, 0), (sf, kHeld)] s.mem := by
  rw [State.takeFarm, if_pos (Option.isSome_iff_ne_none.2 h)]
  exact takeStatus_tells rfl rfl _ _ _ _

section
variable (hmine : heldRecord a x s.mem s.myPhr.noun = none)
include hmine

theorem farmTake_takes {r : Nat} (h : dequePick a x s.mem (workerOf a.nodes f s.myPhr.node) = some r) :
    Tells s (s.takeFarm sd sf a f x) [(sd, BitVec.ofNat 64 (readNat s.mem r 8)), (sf, kOk)]
      (pokes [(r + 8, 8, s.myPhr.noun.toNat), (r + 24, 1, recTaken)] s.mem) := by
  rw [State.takeFarm, hmine, if_neg (by simp), h]
  dsimp only
  exact takeStatus_tells (answering_dequeAccept ..) (mem_dequeAccept ..) _ _ _ _

/-- With nothing to take, the answer says whether more can come (R420). -/
theorem farmTake_none (h : dequePick a x s.mem (workerOf a.nodes f s.myPhr.node) = none) (hfeeder : feederOf a.nodes f = none) :
    Tells s (s.takeFarm sd sf a f x) [(sd, 0), (sf, if ∀ r ∈ a.records x, readNat s.mem (r + 24) 1 = 0 then 2 else 1)] s.mem := by
  have hempty : dequesEmpty a x s.mem = true ↔ ∀ r ∈ a.records x, readNat s.mem (r + 24) 1 = 0 := by
    simp only [dequesEmpty, List.all_eq_true, beq_iff_eq, recState, recFree]
  rw [State.takeFarm, hmine, if_neg (by simp), h, hfeeder]
  simp only [Bool.true_and, hempty]
  exact takeStatus_tells rfl rfl _ _ _ _

end
end

theorem takePipe_none (dest : Word) (h : s.chanCount a x = 0) :
    Tells s (s.takePipe sd sf a x dest) [(sd, 0), (sf, if stageEnded a.nodes x then 2 else 1)] s.mem := by
  rw [State.takePipe, h, if_pos (by rfl)]
  exact takeStatus_tells rfl rfl _ _ _ _

theorem takePipe_takes (hgutter : x.gutter = none) (hsome : s.chanCount a x ≠ 0) (hclean : s.poison = []) :
    let cons := readNat s.mem (a.claimAddr x 8) 8
    Tells s (s.takePipe sd sf a x 0) [(sd, BitVec.ofNat 64 (natOf (a.chanBytes x s.mem cons 0 8))), (sf, kOk)]
      (writeNat (a.claimAddr x 8) 8 (cons + 1) s.mem) := by
  intro cons
  have hpoison (ptr n : Nat) : s.chanPoisoned a x ptr n = none := by
    refine List.find?_eq_none.2 fun k _ => ?_
    simp [State.poisoned, hclean]
  rw [State.takePipe, if_neg (by simpa using hsome), chanPtrs_claimed hgutter]
  dsimp only
  rw [hpoison]
  dsimp only
  rw [if_pos (by rfl)]
  exact takeStatus_tells (answering_chanMove hgutter false) (mem_chanMove hgutter false) _ _ _ _

/-! ### kdone (R421) -/

theorem execKdone_held (h : s.doneHeld = true) : execKdone sd s = .next s := if_pos h

theorem execKdone_closed (h : s.myNest = none) : Tells s (execKdone sd s) [(sd, kNochan)] s.mem := by
  have hheld : s.doneHeld = false := by rw [State.doneHeld, h]
  rw [execKdone, hheld, h]
  exact emitStatus_tells rfl rfl _ _

section
variable (hnest : s.myNest = some a)
include hnest

/-- Records are a farm's: at a channel, or without an input, there is none to free. -/
theorem execKdone_noFarm (hinput : ∀ f, inputOf a.nodes s.myPhr.node ≠ some (.farm f)) :
    Tells s (execKdone sd s) [(sd, kNochan)] s.mem := by
  have hfarm : a.farmAt (inputOf a.nodes s.myPhr.node) = none := by
    unfold Applied.farmAt
    split
    · next h => exact absurd h (hinput _)
    · rfl
  have hheld : s.doneHeld = false := by simp only [State.doneHeld, hnest, hfarm]
  rw [execKdone, hheld, if_neg Bool.false_ne_true, hnest]
  dsimp only
  split
  · next h => exact absurd h (hinput _)
  · exact emitStatus_tells rfl rfl _ _

variable {f : Nat} (hinput : inputOf a.nodes s.myPhr.node = some (.farm f)) (hnode : a.node f = some x)
include hinput hnode

theorem doneHeld_farm : s.doneHeld = (heldRecord a x s.mem s.myPhr.noun).any fun r => !s.dequeTurn r := by
  simp only [State.doneHeld, hnest, hinput, Applied.farmAt, hnode]

theorem execKdone_none (hmine : heldRecord a x s.mem s.myPhr.noun = none) : Tells s (execKdone sd s) [(sd, kFull)] s.mem := by
  rw [execKdone, doneHeld_farm hnest hinput hnode, hmine, hnest]
  simp only [hinput, hnode, hmine]
  exact emitStatus_tells rfl rfl _ _

theorem execKdone_frees {r : Nat} (hmine : heldRecord a x s.mem s.myPhr.noun = some r) (hheld : s.doneHeld = false) :
    Tells s (execKdone sd s) [(sd, kOk)] (dequeFree a x s.mem r) := by
  rw [execKdone, hheld, hnest]
  simp only [hinput, hnode, hmine]
  exact emitStatus_tells rfl rfl _ _

end

/-- What is freed is one byte, and what else is written is a word HEAD. -/
theorem dequeFree_writes {m : Mem} (hwf : Memory.wf m) (r : Nat) :
    ((∀ w, r + 24 < a.dequeWord x w 0 ∨ a.dequeWord x w 0 + 8 ≤ r + 24) → readNat (dequeFree a x m r) (r + 24) 1 = 0) ∧
    ∀ k, (k < r + 24 ∨ r + 25 ≤ k) → (∀ w, k < a.dequeWord x w 0 ∨ a.dequeWord x w 0 + 8 ≤ k) →
      readByte (dequeFree a x m r) k = readByte m k := by
  have hbyte (k : Nat) (hk : ∀ w, k < a.dequeWord x w 0 ∨ a.dequeWord x w 0 + 8 ≤ k) :
      readByte (dequeFree a x m r) k = readByte (writeNat (r + 24) 1 recFree m) k := by
    unfold dequeFree
    dsimp only
    split
    · rfl
    · exact readByte_writeNat_other _ (hk _) (writeNat_wf _ _ _ hwf)
  constructor
  · intro hr
    rw [readNat_one, hbyte _ hr, ← readNat_one, readNat_writeNat _ _ _ hwf]
    rfl
  · intro k hk hw
    rw [hbyte k hw]
    exact readByte_writeNat_other _ (by omega) hwf

end

/-! ### The clauses of each task word -/

section
variable {s : State} {a : Applied} (sd sf sa sb : SReg) {farm : Bool} {x : Node} (hnest : s.myNest = some a)
include hnest

/-- kemit at the deques of a farm (R182, R419). -/
theorem kemit_farm (hcomb : s.combWaits = false) {f : Nat} (hport : s.emitPort a farm = some (.farm f)) (hnode : a.node f = some x) :
    let e := readNat s.mem (a.claimAddr x 0) 8
    let w := e % x.kids.length
    let tail := readNat s.mem (a.dequeWord x w 8) 8
    let r := a.recordAt x w (tail % 256)
    let emits (st : Word) (m : Mem) : Prop := Tells s (execKemit sd sa sb farm s) [(sd, st)] m
    (s.r sb ≠ 0 → emits 5 s.mem) ∧
    (s.r sb = 0 → x.kids ≠ [] → readNat s.mem (r + 24) 1 = 0 → s.emitHeld farm (s.r sb) = false → emits 0 (pokes [(r, 8, (s.r sa).toNat),
      (r + 8, 8, 0), (r + 16, 8, e), (r + 24, 8, 1), (a.dequeWord x w 8, 8, tail + 1), (a.claimAddr x 0, 8, e + 1)] s.mem)) ∧
    (s.r sb = 0 → (∀ v, v < x.kids.length →
      readNat s.mem (a.recordAt x v (readNat s.mem (a.dequeWord x v 8) 8 % 256) + 24) 1 ≠ 0) → emits 1 s.mem) := by
  have hheld := emitHeld_farm hnest hport hnode (s.r sb)
  refine ⟨fun hpayload => ?_, fun hpayload hkids hfree hheld => ?_, fun hpayload hfull => ?_⟩
  · rw [execKemit_farm hnest hcomb hport hnode (by rw [hheld, beq_eq_false_iff_ne.2 hpayload, Bool.false_and])]
    exact farmEmit_payload _ hpayload
  · rw [execKemit_farm hnest hcomb hport hnode hheld, hpayload]
    exact farmEmit_pushes _ (dequeWorker_first hkids hfree)
  · have hnone : dequeWorker a x s.mem = none := dequeWorker_full hfull
    rw [execKemit_farm hnest hcomb hport hnode (by rw [hheld, hnone, Option.any_none, Bool.and_false]), hpayload]
    exact farmEmit_full _ hnone

/-- kemit at a channel whose pages are claimed (R418, R419). -/
theorem kemit_pipe (hcomb : s.combWaits = false) {p : Nat} (hport : s.emitPort a farm = some (.pipe p)) (hnode : a.node p = some x)
    (hgutter : x.gutter = none) :
    let prod := readNat s.mem (a.claimAddr x 0) 8
    let cons := readNat s.mem (a.claimAddr x 8) 8
    let emits (st : Word) (m : Mem) : Prop := Tells s (execKemit sd sa sb farm s) [(sd, st)] m
    (x.depth ≤ prod - cons → emits 1 s.mem) ∧
    (prod - cons < x.depth → s.r sb = 0 → s.emitHeld farm (s.r sb) = false →
      let m := a.chanWrite x prod 0 (bytesOf (s.r sa).toNat 8 ++ List.replicate (2 ^ x.logsz - 8) 0) s.mem
      emits 0 (writeNat (a.claimAddr x 0) 8 (readNat m (a.claimAddr x 0) 8 + 1) m)) := by
  intro prod cons emits
  have hcount : s.chanCount a x = prod - cons := chanCount_claimed hgutter
  refine ⟨fun hfull => ?_, fun hroom hpayload hheld => ?_⟩
  · have hheld : s.emitHeld farm (s.r sb) = false := by
      rw [emitHeld_pipe hnest hport hnode, hcount, decide_eq_false (Nat.not_lt.2 hfull), Bool.false_and]
    show Tells _ (execKemit sd sa sb farm s) _ _
    rw [execKemit_pipe hnest hcomb hport hnode hheld]
    exact emitPipe_full _ _ (hcount ▸ hfull)
  · show Tells _ (execKemit sd sa sb farm s) _ _
    rw [execKemit_pipe hnest hcomb hport hnode hheld, hpayload]
    exact emitPipe_pushes hgutter _ (hcount ▸ hroom)

/-- ktake at the deques of a farm (R182, R420). -/
theorem ktake_farm {f : Nat} (hinput : inputOf a.nodes s.myPhr.node = some (.farm f)) (hnode : a.node f = some x) :
    let noun := s.myPhr.noun
    let w := workerOf a.nodes f s.myPhr.node
    let st (r : Nat) : Nat := readNat s.mem (r + 24) 1
    let seq (r : Nat) : Nat := readNat s.mem (r + 16) 8
    let takes (task st : Word) (m : Mem) : Prop := Tells s (execKtake sd sf sa s) [(sd, task), (sf, st)] m
    let takesIt (r : Nat) : Prop := takes (BitVec.ofNat 64 (readNat s.mem r 8)) 0 (pokes [(r + 8, 8, noun.toNat), (r + 24, 1, 2)] s.mem)
    (heldRecord a x s.mem noun ≠ none → takes 0 3 s.mem) ∧
    (heldRecord a x s.mem noun = none → s.takeHeld = false → ∀ i, i < 256 →
      (st (a.recordAt x w i) = 1 → (∀ j, j < 256 → j ≠ i → st (a.recordAt x w j) = 1 → seq (a.recordAt x w i) < seq (a.recordAt x w j)) →
        takesIt (a.recordAt x w i)) ∧
      (∀ d, d < x.kids.length - 1 → (∀ j, j < 256 → st (a.recordAt x w j) ≠ 1) →
        (∀ e, e < d → ∀ j, j < 256 → st (a.recordAt x ((w + 1 + e) % x.kids.length) j) ≠ 1) →
        let v := (w + 1 + d) % x.kids.length
        st (a.recordAt x v i) = 1 → (∀ j, j < 256 → j ≠ i → st (a.recordAt x v j) = 1 → seq (a.recordAt x v j) < seq (a.recordAt x v i)) →
        takesIt (a.recordAt x v i))) ∧
    (heldRecord a x s.mem noun = none → dequePick a x s.mem w = none → feederOf a.nodes f = none →
      takes 0 (if ∀ r ∈ a.records x, readNat s.mem (r + 24) 1 = 0 then 2 else 1) s.mem) := by
  have hheld := takeHeld_farm hnest hinput hnode
  refine ⟨fun hmine => ?_, fun hmine hheld i hi => ?_, fun hmine hpick hfeeder => ?_⟩
  · rw [execKtake_farm hnest hinput hnode (by rw [hheld, Option.isNone_eq_false_iff.2 (Option.isSome_iff_ne_none.2 hmine), Bool.false_and])]
    exact farmTake_holds hmine
  · rw [execKtake_farm hnest hinput hnode hheld]
    refine ⟨fun hready holdest => farmTake_takes hmine (dequePick_own ?_), fun d hd hown hbefore hready hnewest =>
      farmTake_takes hmine (dequePick_next (pickSeq_unready hown) hd (fun e he => pickSeq_unready (hbefore e he)) ?_)⟩
    · exact pickSeq_readyRecords hi hready fun j hj hji hr => (precedes_oldest ..).2 (holdest j hj hji hr)
    · exact pickSeq_readyRecords hi hready fun j hj hji hr => (precedes_newest ..).2 (hnewest j hj hji hr)
  · rw [execKtake_farm hnest hinput hnode (by rw [hheld, hpick, Option.any_none, Bool.and_false])]
    exact farmTake_none hmine hpick hfeeder

/-- ktake at a channel whose pages are claimed (R418, R420). -/
theorem ktake_pipe {p : Nat} (hinput : inputOf a.nodes s.myPhr.node = some (.pipe p)) (hnode : a.node p = some x) (hgutter : x.gutter = none) :
    let prod := readNat s.mem (a.claimAddr x 0) 8
    let cons := readNat s.mem (a.claimAddr x 8) 8
    let takes (task st : Word) (m : Mem) : Prop := Tells s (execKtake sd sf sa s) [(sd, task), (sf, st)] m
    (prod ≤ cons → takes 0 (if stageEnded a.nodes x then 2 else 1) s.mem) ∧
    (cons < prod → s.r sa = 0 → s.takeHeld = false → s.poison = [] →
      takes (BitVec.ofNat 64 (natOf (a.chanBytes x s.mem cons 0 8))) 0 (writeNat (a.claimAddr x 8) 8 (cons + 1) s.mem)) := by
  intro prod cons takes
  have hcount : s.chanCount a x = prod - cons := chanCount_claimed hgutter
  refine ⟨fun hempty => ?_, fun hsome hdest hheld hclean => ?_⟩
  · have hzero : s.chanCount a x = 0 := by rw [hcount]; exact Nat.sub_eq_zero_of_le hempty
    show Tells _ (execKtake sd sf sa s) _ _
    rw [execKtake_pipe hnest hinput hnode (by rw [takeHeld_pipe hnest hinput hnode, hzero]; rfl)]
    exact takePipe_none _ hzero
  · show Tells _ (execKtake sd sf sa s) _ _
    rw [execKtake_pipe hnest hinput hnode hheld, hdest]
    exact takePipe_takes hgutter (by rw [hcount]; exact Nat.sub_ne_zero_of_lt hsome) hclean

end

/-! ### The save of one phrase (R471) -/

theorem applied_updFrag (s : State) (k : Nat) (g : Frag → Frag) : (s.updFrag k g).applied = s.applied := rfl

theorem applied_updCore (s : State) (core : Nat) (g : Core → Core) : (s.updCore core g).applied = s.applied := rfl

theorem applied_updPhr (s : State) (p : Nat) (g : Phrase → Phrase) : (s.updPhr p g).applied = s.applied := rfl

theorem applied_updMem (s : State) (g : Mem → Mem) : (s.updMem g).applied = s.applied := rfl

theorem applied_updHostPort (s : State) (hp : Bool) (g : HostPort → HostPort) : (s.updHostPort hp g).applied = s.applied := rfl

theorem applied_dropGrants (s : State) (p : Nat) : (s.dropGrants p).applied = s.applied := rfl

theorem applied_shelveOps (s : State) (core ctx : Nat) (mine : Nat → Bool) : (s.shelveOps core ctx mine).applied = s.applied := rfl

theorem applied_dropRange (s : State) (a n : Nat) : (s.dropRange a n).applied = s.applied :=
  keeps_ite State.applied (fun _ => rfl) fun _ => rfl

theorem applied_writeImage (s : State) (p a : Nat) (auto : Bool) : (s.writeImage p a auto).applied = s.applied := by
  unfold State.writeImage
  dsimp only
  rw [applied_updHostPort, applied_updMem, applied_dropRange]

theorem applied_dropRecord (s : State) (core : Nat) (m : MissRec) (heir : Option Nat) : (s.dropRecord core m heir).applied = s.applied := by
  unfold State.dropRecord
  dsimp only
  split
  · exact applied_updCore ..
  · exact applied_updCore ..

theorem applied_dropRecords (s : State) (p : Nat) : (s.dropRecords p).applied = s.applied :=
  keeps_foldl State.applied (fun s m => applied_dropRecord s _ m _) _ s

theorem applied_giveToken (s : State) (core p : Nat) : (s.giveToken core p).applied = s.applied := by
  rw [giveToken_eq, foldl_updFrag_rest]
  rfl

theorem applied_freeToken (s : State) (core : Nat) : (s.freeToken core).applied = s.applied := by
  unfold State.freeToken
  split
  · rfl
  · exact applied_giveToken ..

theorem present_freeToken (s : State) (core p : Nat) : ((s.freeToken core).phr p).present = (s.phr p).present := by
  unfold State.freeToken
  split
  · rfl
  · next k _ _ =>
    rw [phr_giveToken]
    split
    · next h => rw [h]; rfl
    · rfl

theorem present_updPhr (s : State) (p : Nat) : ((s.updPhr p fun q => { q with present := false, needTok := false, restarts := [] }).phr p).present =
    false := by
  rw [phr_updPhr_same]

theorem tfind_map_same {α : Type} {f : Nat × α → Nat × α} (hf : ∀ e, (f e).1 = e.1) {n : Nat} {v : α} {t : Tbl α} (h : tfind t n = some v) :
    tfind (t.map f) n = some (f (n, v)).2 := by
  induction t with
  | nil => cases h
  | cons e t ih =>
    have hkey := hf e
    obtain ⟨k, w⟩ := e
    rw [tfind] at h
    rw [List.map_cons, tfind]
    split at h
    · next heq =>
      rw [if_pos (by rw [hkey]; exact heq), ← Option.some.inj h, ← show k = n from heq]
    · next hne =>
      rw [if_neg (by rw [hkey]; exact hne)]
      exact ih h

/-- A nest without the resumer `id`. -/
def Applied.unasked (a : Applied) (id : Nat) : Applied :=
  { a with waiting := a.waiting.filter fun w => w.1 != id, served := if a.served == some id then none else a.served }

theorem unasked_idle {a : Applied} (hserved : a.served = none) (hwaiting : a.waiting = []) (id : Nat) : a.unasked id = a := by
  unfold Applied.unasked
  rw [hserved, hwaiting, ite_self, List.filter_nil, ← hserved, ← hwaiting]

section
variable {s : State} {i : Nat} {a : Applied} (hserved : a.served = none) (hwaiting : a.waiting = []) (hinst : s.inst i = some a)
include hserved hwaiting hinst

/-- A wait that is withdrawn takes nothing from a nest that serves no resumer and that none waits for. -/
theorem inst_unwait (k : Nat) : (s.unwait k).inst i = some a := by
  unfold State.unwait
  dsimp only
  rw [State.inst, applied_updFrag]
  split
  · next id _ =>
    exact (tfind_map_same (f := fun e => (e.1, e.2.unasked id)) (fun _ => rfl) hinst).trans (congrArg some (unasked_idle hserved hwaiting id))
  · exact hinst
  · exact hinst
  · split
    · exact hinst
    · exact hinst
  · exact hinst
  · exact hinst

theorem inst_shelve (k : Nat) : (s.shelve k).inst i = some a := by
  unfold State.shelve
  dsimp only
  rw [State.inst, applied_updFrag]
  split
  · exact hinst
  · exact inst_unwait hserved hwaiting hinst k

theorem inst_takeOff (p : Nat) : (s.takeOff p).inst i = some a := by
  unfold State.takeOff
  extract_lets q mine s0 s1 strip s2 held s3 s4
  have hfault (t : State) (x : Access) : (match faultOf (failedLanes x.lanes) with
      | some e => if x.scalar then t else t.addFault x.frag (runFault x.id x.pc x.redo e.1 e.2.1 e.2.2.2 e.2.2.1)
      | none => t).applied = t.applied := by
    split
    · exact keeps_ite State.applied (fun _ => rfl) fun _ => applied_updFrag ..
    · rfl
  have h0 : s0.inst i = some a := by
    rw [State.inst, show s0.applied = s.applied from (keeps_foldl State.applied hfault _ _).trans (applied_dropRecords s p)]
    exact hinst
  have h1 : s1.inst i = some a := foldl_keeps (fun t : State => t.inst i = some a) _ (fun t k ht => inst_shelve hserved hwaiting ht k) _ _ h0
  have h3 : s3.applied = s1.applied := (applied_updCore ..).trans ((applied_shelveOps ..).trans (applied_dropGrants s2 p))
  have h4 : s4.inst i = some a := by rw [State.inst, applied_updPhr, h3]; exact h1
  split
  · rw [State.inst, applied_freeToken]
    exact h4
  · exact h4

end

theorem present_takeOff (s : State) (p : Nat) : ((s.takeOff p).phr p).present = false := by
  unfold State.takeOff
  extract_lets q mine s0 s1 strip s2 held s3 s4
  clear_value s3
  have h4 : (s4.phr p).present = false := present_updPhr s3 p
  split
  · rw [present_freeToken]
    exact h4
  · exact h4

theorem applied_setLeaf (s : State) (n : Word) (state xstat xcause mdest : Nat) (w : Word) :
    (s.setLeaf n state xstat xcause mdest w).applied = s.applied := by
  unfold State.setLeaf
  split <;> rfl

theorem phrases_setLeaf (s : State) (n : Word) (state xstat xcause mdest : Nat) (w : Word) :
    (s.setLeaf n state xstat xcause mdest w).phrases = s.phrases := by
  unfold State.setLeaf
  split <;> rfl

/-- A phrase that is saved alone leaves its core. -/
theorem present_saveAt (s : State) (p at0 : Nat) (auto : Bool) : ((s.saveAt [p] auto at0).1.phr p).present = false := by
  show (State.phr (State.setLeaf _ _ _ _ _ _ _) p).present = false
  rw [State.phr, phrases_setLeaf]
  exact present_takeOff _ p

section
variable {s : State} {i : Nat} {a : Applied} (hserved : a.served = none) (hwaiting : a.waiting = []) (hinst : s.inst i = some a)
include hserved hwaiting hinst

theorem inst_saveAt (p at0 : Nat) (auto : Bool) : (s.saveAt [p] auto at0).1.inst i = some a := by
  show State.inst (State.setLeaf _ _ _ _ _ _ _) i = some a
  rw [State.inst, applied_setLeaf]
  refine inst_takeOff hserved hwaiting ?_ p
  rw [State.inst, applied_writeImage]
  exact hinst

/-- A nest that serves no resumer, and that none waits for, is suspended with the value. -/
theorem suspend_idle (v : Word) : s.suspend i v = s.updInst i fun a => { a with suspended := some v, served := none } := by
  have hsuspended : (s.updInst i fun a => { a with suspended := some v, served := none }).inst i =
      some { a with suspended := some v, served := none } := tfind_tmod_same hinst
  unfold State.suspend
  rw [hinst]
  dsimp only
  rw [hserved]
  dsimp only
  unfold State.serveResumer
  rw [hsuspended]
  dsimp only
  rw [hwaiting]

end

theorem inst_yieldTo (s : State) (sd : SReg) (i : Nat) : (s.updMe fun f => { f with yieldTo := sd }).adv.inst i = s.inst i := rfl

theorem execKyield_refused {s : State} (sd sa : SReg) (h : s.mayYield = false) : execKyield sd sa s = s.illop (.kyield sd sa) :=
  if_pos (by rw [h]; rfl)

/-- A phrase that yields alone is saved, and its nest is suspended. -/
theorem execKyield_saves {s : State} (sd sa : SReg) (hmay : s.mayYield = true) (hdrained : s.yieldWaits = false)
    (hgroup : s.saveGroup (phraseOf s.cur) = [phraseOf s.cur]) : ∃ at0, execKyield sd sa s =
      .next (((s.updMe fun f => { f with yieldTo := sd }).adv.saveAt [phraseOf s.cur] false at0).1.suspend s.myPhr.inst (s.r sa)) := by
  refine ⟨((s.inst s.myPhr.inst).map fun a => a.record + recordImage).getD 0, ?_⟩
  unfold execKyield
  dsimp only
  rw [hmay, hdrained, hgroup]
  rfl

end Sys2Proof.Machine

namespace Sys2Proof
open Machine

/-- Each task word is answered as its port says. -/
theorem taskWords : Claims.TaskWords := by
  intro s sd sf sa sb farm hcomb answers emits takes dones
  constructor
  · intro hnest
    refine ⟨?_, ?_, execKdone_closed hnest⟩
    · show Tells _ (execKemit sd sa sb farm s) _ _
      rw [execKemit_closed hcomb (.inl hnest)]
      exact emitStatus_tells rfl rfl _ _
    · show Tells _ (execKtake sd sf sa s) _ _
      rw [execKtake_closed (.inl hnest)]
      exact takeStatus_tells rfl rfl _ _ _ _
  intro a hnest node out
  have hclosed (h : inputOf a.nodes node = none) : Tells s (execKtake sd sf sa s) [(sd, 0), (sf, 4)] s.mem := by
    rw [execKtake_closed (.inr ⟨a, hnest, h⟩)]
    exact takeStatus_tells rfl rfl _ _ _ _
  refine ⟨fun hport => ?_, execKemit_held, execKtake_held, execKdone_held, fun f x hport hnode => kemit_farm sd sa sb hnest hcomb hport hnode,
    fun p x hport hnode hgutter => kemit_pipe sd sa sb hnest hcomb hport hnode hgutter,
    fun h => ⟨hclosed h, execKdone_noFarm hnest fun f hf => nomatch h.symm.trans hf⟩, fun f x hinput hnode => ?_,
    fun p x hinput hnode hgutter => ?_⟩
  · show Tells _ (execKemit sd sa sb farm s) _ _
    rw [execKemit_closed hcomb (.inr ⟨a, hnest, hport⟩)]
    exact emitStatus_tells rfl rfl _ _
  · obtain ⟨hholds, htakes, hnone⟩ := ktake_farm sd sf sa hnest hinput hnode
    refine ⟨hholds, htakes, hnone, execKdone_none hnest hinput hnode, fun r hmine hheld hwf => ?_⟩
    obtain ⟨t, hexec, hanswers, hmem⟩ := execKdone_frees (sd := sd) hnest hinput hnode hmine hheld
    refine ⟨t, hexec, hanswers, ?_⟩
    dsimp only
    rw [hmem]
    exact dequeFree_writes hwf r
  · obtain ⟨hempty, htakes⟩ := ktake_pipe sd sf sa hnest hinput hnode hgutter
    exact ⟨execKdone_noFarm hnest (fun f hf => nomatch hinput.symm.trans hf), hempty, htakes⟩

/-- A yield is refused with ILLOP, or saves its phrase and suspends its nest. -/
theorem yields : Claims.Yields := by
  intro s sd sa a hinst
  refine ⟨fun htrap hmay => ?_, fun hmay hdrained hgroup hserved hwaiting => ?_⟩
  · show Gives (execKyield sd sa s) _
    rw [execKyield_refused sd sa hmay]
    exact fault_faults s .illop 0 _ htrap
  · obtain ⟨at0, hexec⟩ := execKyield_saves sd sa hmay hdrained hgroup
    have hnamed := (inst_yieldTo s sd s.myPhr.inst).trans hinst
    generalize (s.updMe fun f => { f with yieldTo := sd }).adv = u at hexec hnamed
    have hsaved := inst_saveAt hserved hwaiting hnamed (phraseOf s.cur) at0 false
    have hgone := present_saveAt u (phraseOf s.cur) at0 false
    generalize (u.saveAt [phraseOf s.cur] false at0).1 = v at hexec hsaved hgone
    rw [suspend_idle hserved hwaiting hsaved] at hexec
    exact ⟨_, hexec, hgone, _, tfind_tmod_same hsaved, rfl, rfl⟩

/-- Settles O29: a task word is one reply after the pokes of its port, a yield is one save. -/
theorem tasksAndYields : Obligations.TasksAndYields := by
  unfold Obligations.TasksAndYields
  exact ⟨taskWords, yields⟩

end Sys2Proof

/-!
# Matrix operations fire and complete (O23)

Firing takes the first operation of the queue that `mxHeldBy` does not hold (`mxFirst_skip`), and changes its entry and one pointer. A
completion is its effect on the engine, and then the end of the operation, whose frame is said once (`OpEnds`). What an operation leaves
in the tiles is a fold of single puts: each cell holds the value of the one put that names it (`tileGet_foldl`).
-/
namespace Sys2Proof.Machine

/-! ### Gutters and the queue of an engine -/

theorem tfind_tmod {α : Type} {n m : Nat} {f : α → α} {v : α} {t : Tbl α} (h : tfind t m = some v) :
    tfind (tmod n f t) m = some (if n = m then f v else v) := by
  by_cases hnm : n = m
  · subst hnm
    rw [if_pos rfl, tfind_tmod_same h]
  · rw [if_neg hnm]
    induction t with
    | nil => exact h
    | cons e t ih =>
      obtain ⟨k, w⟩ := e
      by_cases hk : k = n
      · have hkm : k ≠ m := fun hkm => hnm (hk.symm.trans hkm)
        simp only [tfind, tmod, hk, if_true, if_neg hnm] at h ⊢
        exact h
      · simp only [tfind, tmod, hk, if_false] at h ⊢
        split at h
        · next hkm => rw [if_pos hkm, h]
        · next hkm => rw [if_neg hkm, ih h]

theorem gutter_updGutter {s : State} {core g h : Nat} {x : Gutter} (f : Gutter → Gutter) (hx : s.gutter core h = some x) :
    (s.updGutter core g f).gutter core h = some (if g = h then f x else x) := by
  rw [State.gutter, State.updGutter, core_updCore_same]
  exact tfind_tmod hx

/-- The step of a gutter's pointer over FIRE entries. -/
theorem gutFire_step (d : Word) : BitVec.ofNat 16 (gutFire d) = (d.extractLsb' 43 9).setWidth 16 := by
  rw [gutFire, field_eq_extractLsb', BitVec.ofNat_toNat]

theorem gutFire_eq (d : Word) : gutFire d = (d.extractLsb' 43 9).toNat := field_eq_extractLsb' d 43 9

/-- The entry of one operation of a queue changes. -/
theorem map_id_eq {before after : List MxOp} {o : MxOp} (o1 : MxOp) (h : ∀ e ∈ before ++ after, e.id ≠ o.id) :
    ((before ++ o :: after).map fun y => if y.id == o.id then o1 else y) = before ++ o1 :: after := by
  have hother {l : List MxOp} (hl : ∀ e ∈ l, e ∈ before ++ after) : (l.map fun y => if y.id == o.id then o1 else y) = l :=
    (List.map_congr_left fun e he => if_neg (by rw [beq_iff_eq]; exact h e (hl e he))).trans l.map_id
  rw [List.map_append, List.map_cons, hother fun e he => List.mem_append_left _ he, hother fun e he => List.mem_append_right _ he,
    if_pos (by rw [beq_self_eq_true])]

/-! ### Which operation fires (R173, R333) -/

section
variable {s : State} {core : Nat} {before after : List MxOp} {o : MxOp}

theorem mxFirst_takes (hfired : o.fired = false) (hcan : s.mxCan core o = true) (hfree : ∀ e ∈ before, s.mxHeldBy core o e = false) :
    s.mxFirst core before (o :: after) = some o := by
  have hany : before.any (s.mxHeldBy core o) = false := by simpa [List.any_eq_false] using hfree
  rw [State.mxFirst, hfired, hcan, hany]
  rfl

theorem mxFirst_skip (h : o.fired = true ∨ ∃ e ∈ before, s.mxHeldBy core o e = true) :
    s.mxFirst core before (o :: after) = s.mxFirst core (before ++ [o]) after := by
  rw [State.mxFirst, if_neg]
  rcases h with h | h
  · simp [h]
  · simp [List.any_eq_true.2 h]

/-- Operations under way are passed over. -/
theorem mxFirst_fired {l : List MxOp} (h : ∀ e ∈ l, e.fired = true) :
    s.mxFirst core before (l ++ after) = s.mxFirst core (before ++ l) after := by
  induction l generalizing before with
  | nil => rw [List.nil_append, List.append_nil]
  | cons e l ih =>
    rw [List.cons_append, mxFirst_skip (.inl (h e List.mem_cons_self)), ih fun x hx => h x (List.mem_cons_of_mem _ hx),
      List.append_assoc, List.singleton_append]

/-- An operation under way holds another by a conflict, or by bytes still to be written. -/
theorem mxHeldBy_fired {e : MxOp} (hfired : e.fired = true) (hwaits : o.act.waitsFor e.act = false)
    (hpending : s.inputPending core o e = false) : s.mxHeldBy core o e = false := by
  rw [State.mxHeldBy, hwaits, hfired, if_pos rfl, hpending, Bool.or_false]

theorem execMatrixFire_frozen (h : (s.core core).frozen = true) : execMatrixFire core s = .next s := by
  rw [execMatrixFire, State.mxFirable, if_pos h]

theorem execMatrixFire_fires (hcold : (s.core core).frozen = false) (hfirst : s.mxFirst core [] (s.core core).engine.ops = some o) :
    execMatrixFire core s = .next (s.mxFire core o) := by
  rw [execMatrixFire, State.mxFirable, if_neg (by rw [hcold]; exact Bool.false_ne_true), hfirst]

end

/-! ### What firing changes (R346, R347) -/

/-- Operation `o` has fired with its input, and gutter `cons` has moved on: nothing else has changed but the engine's queue. -/
def Fires (s t : State) (core : Nat) (before after : List MxOp) (o : MxOp) (input : List Byte) (cons : Option Nat) : Prop :=
  (∃ b, (t.core core).engine.ops = before ++ { o with fired := true, input := input, base := b } :: after) ∧ t.mem = s.mem ∧
  (∀ h x, s.gutter core h = some x → t.gutter core h = some (if cons = some h then
    { x with cons := x.cons + (x.desc.extractLsb' 43 9).setWidth 16 } else x)) ∧ t.phrases = s.phrases ∧ t.frags = s.frags

/-- The entry of operation `o` has become `o1`. -/
def State.mxMark (s : State) (core : Nat) (o o1 : MxOp) : State :=
  s.updCore core fun c => { c with engine := { c.engine with ops := c.engine.ops.map fun y => if y.id == o.id then o1 else y } }

theorem gutter_mxMark (s : State) (core h : Nat) (o o1 : MxOp) : (s.mxMark core o o1).gutter core h = s.gutter core h := by
  rw [State.gutter, State.mxMark, core_updCore_same]
  rfl

section
variable {s : State} {core : Nat} {before after : List MxOp} {o : MxOp} (hops : (s.core core).engine.ops = before ++ o :: after)
  (hids : ∀ e ∈ before ++ after, e.id ≠ o.id) (hclean : s.inputPoisoned core o.act = none)
include hops hids

theorem ops_mxMark (o1 : MxOp) : ((s.mxMark core o o1).core core).engine.ops = before ++ o1 :: after := by
  rw [State.mxMark, core_updCore_same]
  dsimp only
  rw [hops, map_id_eq o1 hids]

include hclean

/-- An operation without entries to take only changes its own entry of the queue. -/
theorem mxFire_noInput (hinput : o.act.input = none) : Fires s (s.mxFire core o) core before after o [] none := by
  have hfire : ∃ b, s.mxFire core o = s.mxMark core o { o with fired := true, input := [], base := b } := by
    refine ⟨((o.act.gutter.bind fun g => s.gutter core g).getD { desc := 0 }).prod, ?_⟩
    rw [State.mxFire, hclean, hinput]
    rfl
  obtain ⟨b, hfire⟩ := hfire
  rw [hfire]
  refine ⟨⟨b, ops_mxMark hops hids _⟩, rfl, fun h x hx => ?_, rfl, rfl⟩
  rw [gutter_mxMark, hx, if_neg (by simp)]

/-- An operation with input takes its entries. -/
theorem mxFire_input {g : Nat} {x : Gutter} (hinput : o.act.input = some g) (hgutter : o.act.gutter = some g) (hx : s.gutter core g = some x) :
    Fires s (s.mxFire core o) core before after o (s.gutterBytes core x x.cons) (some g) := by
  have hfire : s.mxFire core o = (s.mxMark core o { o with fired := true, input := s.gutterBytes core x x.cons, base := x.prod }).updGutter
      core g fun y => { y with cons := y.cons + BitVec.ofNat 16 (gutFire y.desc) } := by
    rw [State.mxFire, hclean, hinput, hgutter, Option.bind_some, hx]
    rfl
  rw [hfire]
  refine ⟨⟨x.prod, ?_⟩, rfl, fun h y hy => ?_, rfl, rfl⟩
  · rw [State.updGutter, core_updCore_same]
    exact ops_mxMark hops hids _
  · rw [gutter_updGutter _ ((gutter_mxMark ..).trans hy), gutFire_step]
    simp only [Option.some.injEq]

end

/-- The operations that take entries, and mxout, which fills them. -/
theorem MxAct.gutter_cases {a : MxAct} {g : Nat} (h : a.gutter = some g) :
    ((a.unit = 0 ∨ a.unit = 1) ∧ a.input = some g ∧ ∀ s core x, State.gutter s core g = some x →
      s.mxGutterOk core a = decide (gutFire x.desc ≤ x.present)) ∨
    (a.unit = 2 ∧ a.input = none ∧ ∀ s core x, State.gutter s core g = some x → s.mxGutterOk core a = decide (gutFire x.desc ≤ x.room)) := by
  cases a with
  | lds _ _ _ =>
    obtain rfl := Option.some.inj h
    exact .inl ⟨.inl rfl, rfl, fun s core x hx => by simp only [State.mxGutterOk, MxAct.gutter, hx]⟩
  | mma _ _ _ _ =>
    obtain rfl := Option.some.inj h
    exact .inl ⟨.inr rfl, rfl, fun s core x hx => by simp only [State.mxGutterOk, MxAct.gutter, hx]⟩
  | out _ _ _ _ _ _ =>
    obtain rfl := Option.some.inj h
    exact .inr ⟨rfl, rfl, fun s core x hx => by simp only [State.mxGutterOk, MxAct.gutter, hx]⟩
  | swap | zero _ | rd _ _ _ _ _ _ | wr _ _ _ _ _ => cases h

theorem MxAct.input_of_gutter_none {a : MxAct} (h : a.gutter = none) : a.input = none := by
  cases a with
  | lds _ _ _ | mma _ _ _ _ | out _ _ _ _ _ _ => cases h
  | swap | zero _ | rd _ _ _ _ _ _ | wr _ _ _ _ _ => rfl

theorem MxAct.gutter_of_input {a : MxAct} {g : Nat} (h : a.input = some g) : a.gutter = some g := by
  cases a with
  | lds _ _ _ | mma _ _ _ _ => exact h
  | swap | zero _ | rd _ _ _ _ _ _ | wr _ _ _ _ _ | out _ _ _ _ _ _ => cases h

section
variable {s : State} {core : Nat} {before after : List MxOp} {o : MxOp} (hops : (s.core core).engine.ops = before ++ o :: after)
include hops

/-- The oldest operation that has not fired is the first to fire, where nothing under way is in its way. -/
theorem mxFirst_oldest (hfired : ∀ e ∈ before, e.fired = true) (hunfired : o.fired = false) (hcan : s.mxCan core o = true)
    (hfree : ∀ e ∈ before, o.act.waitsFor e.act = false ∧ s.inputPending core o e = false) :
    s.mxFirst core [] (s.core core).engine.ops = some o := by
  rw [hops, mxFirst_fired hfired, List.nil_append]
  refine mxFirst_takes hunfired hcan fun e he => ?_
  obtain ⟨hwaits, hpending⟩ := hfree e he
  exact mxHeldBy_fired (hfired e he) hwaits hpending

/-- An operation that can fire and meets no poison fires. -/
theorem mxFire_fires (hids : ∀ e ∈ before ++ after, e.id ≠ o.id) (hclean : s.inputPoisoned core o.act = none)
    (hcan : s.mxCan core o = true) : ∃ input cons, Fires s (s.mxFire core o) core before after o input cons := by
  cases hinput : o.act.input with
  | none => exact ⟨_, _, mxFire_noInput hops hids hclean hinput⟩
  | some g =>
    have hgutter := MxAct.gutter_of_input hinput
    have hok : s.mxGutterOk core o.act = true := (Bool.and_eq_true_iff.1 hcan).2
    cases hx : s.gutter core g with
    | none => simp [State.mxGutterOk, hgutter, hx] at hok
    | some x => exact ⟨_, _, mxFire_input hops hids hclean hinput hgutter hx⟩

end

/-- An operation goes ahead of one that only waits for another under way (R520). -/
theorem mxFirst_behind {s : State} {core : Nat} {r w o : MxOp} {after : List MxOp} (hr : r.fired = true) (hw : w.fired = false)
    (hwcan : s.mxCan core w = true) (hwait : w.act.waitsFor r.act = true) (hunfired : o.fired = false) (hcan : s.mxCan core o = true)
    (hfree : o.act.waitsFor r.act = false) (hpending : s.inputPending core o r = false)
    (hapart : o.act.waitsFor w.act = false) (hmeet : s.mxMeet core o.act w.act = false) :
    s.mxFirst core [] (r :: w :: o :: after) = some o := by
  have hheld : s.mxHeldBy core w r = true := by rw [State.mxHeldBy, hwait, Bool.true_or]
  have hpast : s.mxHeldBy core o w = false := by
    rw [State.mxHeldBy, hapart, hw, if_neg Bool.false_ne_true, hwcan, hmeet]
    rfl
  rw [mxFirst_skip (.inl hr), mxFirst_skip (.inr ⟨r, List.mem_append_right _ (List.mem_singleton_self r), hheld⟩)]
  refine mxFirst_takes hunfired hcan fun e he => ?_
  rw [List.nil_append, List.singleton_append, List.mem_cons, List.mem_singleton] at he
  rcases he with rfl | rfl
  · exact mxHeldBy_fired hr hfree hpending
  · exact hpast

/-! ### Tiles (R107, R332) -/

/-- A cell of a tile has a number of its own. -/
theorem tileKey_inj {t u i j a b : Nat} (hi : i < 32) (hj : j < 32) (ha : a < 32) (hb : b < 32) :
    tileKey t i j = tileKey u a b ↔ u = t ∧ a = i ∧ b = j := by
  unfold tileKey
  omega

theorem tileGet_tilePut {m : Tiles} {t i j u a b : Nat} (hi : i < 32) (hj : j < 32) (ha : a < 32) (hb : b < 32) (v : Nat) :
    tileGet (tilePut m t i j v) u a b = if u = t ∧ a = i ∧ b = j then v % 2 ^ 32 else tileGet m u a b := by
  rw [tileGet, tilePut]
  split
  · next h => rw [(tileKey_inj hi hj ha hb).2 h, tget_tput_same, BitVec.toNat_ofNat]
  · next h => rw [tget_tput_other _ _ _ (mt (tileKey_inj hi hj ha hb).1 h), tileGet]

/-- Cells (row, column) of tile `t` are replaced one after another, each by what `f` makes of its value. -/
def putCells (t : Nat) (f : Nat × Nat → Nat → Nat) (cells : List (Nat × Nat)) (m : Tiles) : Tiles :=
  cells.foldl (fun m x => tilePut m t x.1 x.2 (f x (tileGet m t x.1 x.2))) m

/-- Each cell that is named once has been replaced once, and the others stand. -/
theorem tileGet_putCells {t : Nat} {f : Nat × Nat → Nat → Nat} {cells : List (Nat × Nat)} (hnodup : cells.Nodup)
    (hrange : ∀ x ∈ cells, x.1 < 32 ∧ x.2 < 32) {m : Tiles} {u a b : Nat} (ha : a < 32) (hb : b < 32) :
    tileGet (putCells t f cells m) u a b = if u = t ∧ (a, b) ∈ cells then f (a, b) (tileGet m t a b) % 2 ^ 32 else tileGet m u a b := by
  induction cells generalizing m with
  | nil => simp [putCells]
  | cons x xs ih =>
    obtain ⟨hx, hxs⟩ := List.nodup_cons.1 hnodup
    obtain ⟨hrow, hcol⟩ := hrange x List.mem_cons_self
    have hcell (u : Nat) : tileGet (tilePut m t x.1 x.2 (f x (tileGet m t x.1 x.2))) u a b =
        if u = t ∧ (a, b) = x then f x (tileGet m t x.1 x.2) % 2 ^ 32 else tileGet m u a b := by
      simp only [tileGet_tilePut hrow hcol ha hb, Prod.ext_iff]
    rw [putCells, List.foldl_cons]
    refine (ih hxs fun y hy => hrange y (List.mem_cons_of_mem _ hy)).trans ?_
    rw [hcell, hcell]
    by_cases hax : (a, b) = x
    · subst hax
      simp [hx]
    · simp [hax]

theorem foldl_putCells {ι : Type} {t : Nat} {f : Nat × Nat → Nat → Nat} (cells : ι → List (Nat × Nat)) (xs : List ι) (m : Tiles) :
    xs.foldl (fun m x => putCells t f (cells x) m) m = putCells t f (xs.flatMap cells) m := by
  unfold putCells
  rw [List.foldl_flatMap]

theorem nodup_lanesOf (m : Mask) : (lanesOf m).Nodup := List.nodup_range.filter _

/-- The cells of rows `is` and columns `cs`, row by row. -/
theorem rowCells {is cs : List Nat} (his : is.Nodup) (hcs : cs.Nodup) : (is.flatMap fun i => cs.map fun c => (i, c)).Nodup := his.product hcs

theorem mem_rowCells {is cs : List Nat} {a b : Nat} : (a, b) ∈ (is.flatMap fun i => cs.map fun c => (i, c)) ↔ a ∈ is ∧ b ∈ cs :=
  List.mem_product

/-! ### The end of an operation (R333) -/

/-- Operation `id` is no longer outstanding on a core. -/
def State.mxDone (s : State) (core id : Nat) : State :=
  let s1 := s.updEngine core fun e => { e with ops := e.ops.filter fun y => y.id != id }
  { s1 with laneOps := s1.laneOps.filter fun y => y.id != id }

/-- What ends with an operation: its entry in the queue and its flag. No access is touched. -/
def OpEnds (s t : State) (core : Nat) (o : MxOp) : Prop :=
  (∀ y ∈ (t.core core).engine.ops, y.id ≠ o.id) ∧ (∀ y ∈ t.laneOps, y.id ≠ o.id) ∧ t.accs = s.accs

/-- Of the engine, operation `o` has changed the tiles alone, to the values `val`. -/
def TilesBecome (s t : State) (core : Nat) (o : MxOp) (val : Nat → Nat → Nat → Nat) : Prop :=
  OpEnds s t core o ∧ t.mem = s.mem ∧ (t.core core).engine.act = (s.core core).engine.act ∧
  (t.core core).engine.activePlane = (s.core core).engine.activePlane ∧
  ∀ tile row c, row < 32 → c < 32 → tileGet (t.core core).engine.tiles tile row c = val tile row c

theorem core_updEngine (s : State) (core : Nat) (h : Engine → Engine) :
    (s.updEngine core h).core core = { s.core core with engine := h (s.core core).engine } := by
  rw [State.updEngine, core_updCore_same]

section
variable (s : State) (core id : Nat)

theorem core_mxDone : (s.mxDone core id).core core =
    { s.core core with engine := { (s.core core).engine with ops := (s.core core).engine.ops.filter fun y => y.id != id } } :=
  core_updEngine s core fun e => { e with ops := e.ops.filter fun y => y.id != id }

theorem engine_mxDone : ((s.mxDone core id).core core).engine =
    { (s.core core).engine with ops := (s.core core).engine.ops.filter fun y => y.id != id } := by
  rw [core_mxDone]

theorem gutter_mxDone (g : Nat) : (s.mxDone core id).gutter core g = s.gutter core g := by
  rw [State.gutter, core_mxDone]
  rfl

end

/-- The fragments and accesses of a state: a matrix operation leaves both. -/
def State.asking (s : State) : Tbl Frag × List Access := (s.frags, s.accs)

theorem asking_updEngine (s : State) (core : Nat) (h : Engine → Engine) : (s.updEngine core h).asking = s.asking := rfl
theorem asking_setStatus (s : State) (p : Nat) (b : BitVec 32) : (s.setStatus p b).asking = s.asking := rfl
theorem asking_updPhr (s : State) (p : Nat) (g : Phrase → Phrase) : (s.updPhr p g).asking = s.asking := rfl
theorem asking_updMem (s : State) (g : Mem → Mem) : (s.updMem g).asking = s.asking := rfl
theorem asking_updGutter (s : State) (core g : Nat) (f : Gutter → Gutter) : (s.updGutter core g f).asking = s.asking := rfl

theorem asking_heal (s : State) (ks : List Nat) : (s.heal ks).asking = s.asking := keeps_ite State.asking (fun _ => rfl) fun _ => rfl

theorem asking_putTags (s : State) (ps : List Piece) (t : Option Tag) : (s.putTags ps t).asking = s.asking := by
  rw [putTags_spec]
  rfl

theorem asking_phraseStatus (s : State) (p : Nat) (e : Exc) : (s.phraseStatus p e).asking = s.asking :=
  keeps_ite State.asking (fun _ => asking_setStatus ..) fun _ => rfl

theorem asking_mxEffect (s : State) (core : Nat) (o : MxOp) : (s.mxEffect core o).asking = s.asking := by
  unfold State.mxEffect
  dsimp only
  split
  · exact asking_updEngine ..
  · exact asking_updEngine ..
  · rw [asking_phraseStatus, asking_updEngine]
  · exact asking_updEngine ..
  · exact asking_updEngine ..
  · exact keeps_ite State.asking (fun _ => by rw [asking_phraseStatus, asking_updPhr]) fun _ => rfl
  · split
    · rfl
    · rw [asking_phraseStatus, asking_updGutter, asking_putTags, asking_heal, asking_updMem]

section
variable {s : State} {core : Nat} {o : MxOp}

/-- The one operation under way completes: its effect, and then its end. -/
theorem execMatrixComplete_one (hone : (s.core core).engine.ops.filter (·.fired) = [o]) (hcalm : (s.frag o.frag).ready = []) :
    execMatrixComplete core s = .next ((s.drawn.mxEffect core o).mxDone core o.id) := by
  have hready : (((s.drawn.mxEffect core o).mxDone core o.id).frag o.frag).ready = [] := by
    have hfrags : (s.drawn.mxEffect core o).frags = s.frags := congrArg Prod.fst (asking_mxEffect s.drawn core o)
    rw [State.frag, show ((s.drawn.mxEffect core o).mxDone core o.id).frags = (s.drawn.mxEffect core o).frags from rfl, hfrags]
    exact hcalm
  have hpick : nth o [o] (Config.pick s.draws [o].length % [o].length) = o := by rw [List.length_singleton, Nat.mod_one]; rfl
  unfold execMatrixComplete
  dsimp only
  rw [hone]
  dsimp only
  rw [hpick]
  have hcomplete : s.drawn.mxComplete core o = if (((s.drawn.mxEffect core o).mxDone core o.id).frag o.frag).live then
      ((s.drawn.mxEffect core o).mxDone core o.id).settle o.frag else (s.drawn.mxEffect core o).mxDone core o.id := rfl
  rw [hcomplete, settle_of_calm hready, ite_self]

theorem opEnds_mxEffect : OpEnds s ((s.drawn.mxEffect core o).mxDone core o.id) core o := by
  have haccs : (s.drawn.mxEffect core o).accs = s.accs := congrArg Prod.snd (asking_mxEffect s.drawn core o)
  refine ⟨fun y hy => ?_, fun y hy => ?_, haccs⟩
  · rw [engine_mxDone] at hy
    simpa using (List.mem_filter.1 hy).2
  · simpa using (List.mem_filter.1 hy).2

/-- What an operation leaves of the engine it leaves at its end, but for the queue. -/
theorem tilesBecome_of {tiles : Tiles} {val : Nat → Nat → Nat → Nat}
    (hengine : ((s.drawn.mxEffect core o).core core).engine = { (s.core core).engine with tiles := tiles })
    (hmem : (s.drawn.mxEffect core o).mem = s.mem)
    (hval : ∀ tile row c, row < 32 → c < 32 → tileGet tiles tile row c = val tile row c) :
    TilesBecome s ((s.drawn.mxEffect core o).mxDone core o.id) core o val := by
  refine ⟨opEnds_mxEffect, hmem, ?_, ?_, ?_⟩
  · rw [engine_mxDone, hengine]
  · rw [engine_mxDone, hengine]
    rfl
  · rw [engine_mxDone, hengine]
    exact hval

end

/-! ### What each operation leaves (R346-R350) -/

theorem core_phraseStatus (s : State) (p : Nat) (e : Exc) (c : Nat) : (s.phraseStatus p e).core c = s.core c :=
  keeps_ite (fun t => t.core c) (fun _ => rfl) fun _ => rfl

theorem lanes_phraseStatus (s : State) (p : Nat) (e : Exc) (q : Nat) : ((s.phraseStatus p e).phr q).lanes = (s.phr q).lanes := by
  unfold State.phraseStatus
  split
  · unfold State.setStatus
    by_cases hq : q = p
    · rw [hq, phr_updPhr_same]
    · rw [phr_updPhr_other _ _ hq]
  · rfl

/-- The effect of mxzero on the tiles. -/
theorem foldl_zero (t : Nat) (rows : List Nat) (m : Tiles) :
    rows.foldl (fun m i => (List.range 32).foldl (fun m c => tilePut m t i c 0) m) m =
      putCells t (fun _ _ => 0) (rows.flatMap fun i => (List.range 32).map fun c => (i, c)) m := by
  rw [← foldl_putCells]
  simp only [putCells, List.foldl_map]

/-- The effect of mxwr on the tiles, column by column. -/
theorem foldl_wr (t col cnt : Nat) (data : List (List Word)) (rows : List Nat) (m : Tiles) :
    (List.range cnt).foldl (fun m j => rows.foldl (fun m i => accPut false m t i (col + j) (nth 0 (nth [] data j) i).toNat) m) m =
      putCells t (fun x _ => (nth 0 (nth [] data (x.2 - col)) x.1).toNat)
        ((List.range cnt).flatMap fun j => rows.map fun i => (i, col + j)) m := by
  rw [← foldl_putCells]
  simp only [putCells, List.foldl_map, accPut, Bool.false_eq_true, if_false, Nat.add_sub_cancel_left]

theorem nodup_columnCells {rows : List Nat} (hrows : rows.Nodup) (col cnt : Nat) :
    ((List.range cnt).flatMap fun j => rows.map fun i => (i, col + j)).Nodup := by
  have hcells : ((List.range cnt).flatMap fun j => rows.map fun i => (i, col + j)) =
      ((List.range cnt).flatMap fun j => rows.map fun i => (j, i)).map fun x => (x.2, col + x.1) := by
    simp only [List.map_flatMap, List.map_map, Function.comp_def]
  rw [hcells]
  refine (rowCells List.nodup_range hrows).map_on fun x _ y _ h => ?_
  simp only [Prod.mk.injEq, Nat.add_left_cancel_iff] at h
  exact Prod.ext h.2 h.1

theorem mem_columnCells {rows : List Nat} {col cnt a b : Nat} :
    (a, b) ∈ ((List.range cnt).flatMap fun j => rows.map fun i => (i, col + j)) ↔ a ∈ rows ∧ col ≤ b ∧ b < col + cnt := by
  simp only [List.mem_flatMap, List.mem_range, List.mem_map, Prod.mk.injEq]
  constructor
  · rintro ⟨j, hj, i, hi, rfl, rfl⟩
    exact ⟨hi, by omega, by omega⟩
  · rintro ⟨ha, hlo, hhi⟩
    exact ⟨b - col, by omega, a, ha, rfl, by omega⟩

/-- The row of a product (R347): A's row `i` of the input, and B in the active plane. -/
def productRow (e : Engine) (p : PlaneDesc) (slot : BitVec 32) (ta tb : Elem) (input : List Byte) (i : Nat) : Sum :=
  let w := storeBits (slotEtype slot)
  { cls := p.cls, k := p.k
    a := fun k => ta.value (slotFlush slot) (elemAt input w (i * p.k + k))
    b := fun k n => tb.value p.flush (tget 0 e.activePlane (planeKey k n)).toNat
    sa := fun j => scaleAt input (slotScaled slot) (32 * p.k * w / 8) p.k i j
    sb := fun n j => if p.scaled then (tget 0 e.activePlane (planeScale n j)).toNat else 0x7F
    g := mxRound slot }

/-- The effect of a real product of 32-bit accumulators on the tiles. -/
theorem mmaRows_tiles {e : Engine} {p : PlaneDesc} {slot : BitVec 32} {ta tb : Elem} (hp : e.activeDesc = some p) (hcls : p.cls ≠ .d)
    (hta : elemOf (slotEtype slot) = some ta) (htb : elemOf p.etype.toNat = some tb) (t : Nat) (mask : Mask) (input : List Byte) :
    (mmaRows e t slot false mask input).1 = putCells t (fun x acc => ((productRow e p slot ta tb input x.1).cell x.2 acc).1)
      ((lanesOf mask).flatMap fun i => (List.range p.n).map fun c => (i, c)) e.tiles := by
  have hwide : (p.cls == .d) = false := beq_eq_false_iff_ne.2 hcls
  unfold mmaRows
  rw [hp]
  simp only [hwide, hta, htb, Option.getD_some, accGet, accPut, Bool.false_eq_true, if_false]
  rw [← foldl_putCells]
  refine (List.foldl_hom Prod.fst (fun r i => ?_)).symm
  unfold putCells
  rw [List.foldl_map]
  exact List.foldl_hom Prod.fst fun r n => rfl

/-! ### mxrd and mxout (R349, R350) -/

theorem laneWrites_32 {ty : LType} (h : LType.bits ty = 32) (v l x : Nat) : laneWrites ty v l x = [(32 * v + l, BitVec.ofNat 32 x)] := by
  have himage : regImage ty x = BitVec.ofNat 32 x := by
    rw [regImage, h]
    exact BitVec.eq_of_toNat_eq (by simp)
  rw [laneWrites, h, himage]
  rfl

/-- The lane writes of mxrd in 32-bit form: column by column, one register each. -/
theorem rdWrites_32 {slot : BitVec 32} (h : LType.bits (slotType slot) = 32) (e : Engine) (t col cnt aty vd : Nat) (mask : Mask) :
    (rdWrites e t col cnt aty slot vd mask).1 = (List.range cnt).flatMap fun j => (lanesOf mask).flatMap fun i =>
      [(32 * (vd + j) + i, BitVec.ofNat 32 (tileConvert slot (tileValue e.tiles t i (col + j) aty)).1)] := by
  have hbits : (LType.bits (slotType slot) == 64) = false := by rw [h]; rfl
  unfold rdWrites
  simp only [hbits, laneWrites_32 h, Bool.false_eq_true, if_false, Nat.one_mul]
  rw [List.flatMap_eq_foldl]
  refine (List.foldl_hom Prod.fst (fun r j => ?_)).symm
  rw [List.flatMap_def, ← List.foldl_append_eq_append]
  exact List.foldl_hom Prod.fst fun r i => rfl

/-- Registers of the named columns hold the converted cells of the rows of the mask, and the others stand. -/
theorem lanes_putLanes_columns (q : Phrase) {rows : List Nat} (hrows : ∀ i ∈ rows, i < 32) (vd cnt : Nat) (val : Nat → Nat → Half)
    {r l : Nat} (hl : l < 32) :
    tget 0 (putLanes q ((List.range cnt).flatMap fun j => rows.flatMap fun i => [(32 * (vd + j) + i, val j i)])).lanes (32 * r + l) =
      if vd ≤ r ∧ r < vd + cnt ∧ l ∈ rows then val (r - vd) l else tget 0 q.lanes (32 * r + l) := by
  have hmem {w : Nat × Half} (hw : w ∈ (List.range cnt).flatMap fun j => rows.flatMap fun i => [(32 * (vd + j) + i, val j i)]) :
      ∃ j i, j < cnt ∧ i ∈ rows ∧ w = (32 * (vd + j) + i, val j i) := by
    simp only [List.mem_flatMap, List.mem_range, List.mem_singleton] at hw
    obtain ⟨j, hj, i, hi, hw⟩ := hw
    exact ⟨j, i, hj, hi, hw⟩
  refine tget_foldl_tput 0 (fun w hw hk => ?_) ?_
  · obtain ⟨j, i, hj, hi, rfl⟩ := hmem hw
    have hi32 := hrows i hi
    dsimp only at hk
    obtain ⟨hrj, rfl⟩ : r = vd + j ∧ i = l := by omega
    rw [if_pos ⟨by omega, by omega, hi⟩, hrj, Nat.add_sub_cancel_left]
  · by_cases h : vd ≤ r ∧ r < vd + cnt ∧ l ∈ rows
    · left
      obtain ⟨hlo, hhi, hl⟩ := h
      refine ⟨(32 * (vd + (r - vd)) + l, val (r - vd) l), ?_, ?_⟩
      · simp only [List.mem_flatMap, List.mem_range, List.mem_singleton]
        exact ⟨r - vd, by omega, l, hl, rfl⟩
      · dsimp only
        omega
    · right
      rw [if_neg h]

/-- One entry is written where FIRE is one. -/
theorem writeEntries_one {x : Gutter} (hfire : gutFire x.desc = 1) (core : Nat) (p : BitVec 16) {bs : List Byte}
    (hlen : bs.length = 2 ^ gutLogSz x.desc) (m : Mem) : writeEntries core x p bs m = writeBytes (scratchKey core (x.entry p 0)) bs m := by
  unfold writeEntries Gutter.fireEntries
  rw [hfire]
  simp [← hlen]

theorem tget_of_tfind {α : Type} (d : α) {n : Nat} {v : α} {t : Tbl α} (h : tfind t n = some v) : tget d t n = v := by
  induction t with
  | nil => cases h
  | cons e t ih =>
    obtain ⟨k, w⟩ := e
    rw [tfind] at h
    rw [tget]
    split at h
    · next hk => rw [if_pos hk, Option.some.inj h]
    · next hk => rw [if_neg hk, ih h]

/-! ### The effect of each operation on the state -/

section
variable {s : State} {core : Nat} {o : MxOp}

theorem effect_lds {g : Nat} {slot : BitVec 32} {d : PlaneDesc} (h : o.act = .lds g slot d) :
    s.drawn.mxEffect core o = s.drawn.updEngine core fun e => e.setShadow d (loadPlane slot d o.input) := by rw [State.mxEffect, h]

theorem effect_swap (h : o.act = .swap) : s.drawn.mxEffect core o = s.drawn.updEngine core fun e => { e with act := !e.act } := by
  rw [State.mxEffect, h]

theorem engine_effect_lds {g : Nat} {slot : BitVec 32} {d : PlaneDesc} (h : o.act = .lds g slot d) :
    ((s.drawn.mxEffect core o).core core).engine = (s.core core).engine.setShadow d (loadPlane slot d o.input) := by
  rw [effect_lds h, core_updEngine]
  rfl

theorem engine_effect_swap (h : o.act = .swap) :
    ((s.drawn.mxEffect core o).core core).engine = { (s.core core).engine with act := !(s.core core).engine.act } := by
  rw [effect_swap h, core_updEngine]
  rfl

/-- The shadow plane is the one that is not active. -/
theorem setShadow_shadow (e : Engine) (d : PlaneDesc) (p : Tbl Word) :
    (e.setShadow d p).tiles = e.tiles ∧ (e.setShadow d p).act = e.act ∧ (e.setShadow d p).activePlane = e.activePlane ∧
    (if e.act then (e.setShadow d p).plane0 else (e.setShadow d p).plane1) = p ∧
    (if e.act then (e.setShadow d p).desc0 else (e.setShadow d p).desc1) = some d := by
  unfold Engine.setShadow Engine.activePlane
  cases e.act
  · exact ⟨rfl, rfl, rfl, rfl, rfl⟩
  · exact ⟨rfl, rfl, rfl, rfl, rfl⟩

theorem tiles_zero {n : Nat} (h : o.act = .zero n) : TilesBecome s ((s.drawn.mxEffect core o).mxDone core o.id) core o fun tile row c =>
    if tile = n ∧ row ∈ lanesOf o.mask then 0 else tileGet (s.core core).engine.tiles tile row c := by
  have heffect : s.drawn.mxEffect core o = s.drawn.updEngine core fun e => { e with
      tiles := putCells n (fun _ _ => 0) ((lanesOf o.mask).flatMap fun i => (List.range 32).map fun c => (i, c)) e.tiles } := by
    rw [State.mxEffect, h]
    simp only [foldl_zero]
  refine tilesBecome_of (by rw [heffect, core_updEngine]; rfl) (by rw [heffect]; rfl) fun tile row c hrow hc => ?_
  rw [tileGet_putCells (rowCells (nodup_lanesOf _) List.nodup_range)
    (fun x hx => ⟨lt_of_mem_lanesOf (mem_rowCells.1 hx).1, List.mem_range.1 (mem_rowCells.1 hx).2⟩) hrow hc]
  simp only [mem_rowCells, List.mem_range, hc, and_true, Nat.zero_mod]
  rfl

theorem tiles_wr {n col cnt : Nat} {data : List (List Word)} (h : o.act = .wr n col cnt false data) (hfit : col + cnt ≤ 32) :
    TilesBecome s ((s.drawn.mxEffect core o).mxDone core o.id) core o fun tile row c =>
      if tile = n ∧ row ∈ lanesOf o.mask ∧ col ≤ c ∧ c < col + cnt then (nth 0 (nth [] data (c - col)) row).toNat % 2 ^ 32
      else tileGet (s.core core).engine.tiles tile row c := by
  have heffect : s.drawn.mxEffect core o = s.drawn.updEngine core fun e => { e with
      tiles := putCells n (fun x _ => (nth 0 (nth [] data (x.2 - col)) x.1).toNat)
        ((List.range cnt).flatMap fun j => (lanesOf o.mask).map fun i => (i, col + j)) e.tiles } := by
    rw [State.mxEffect, h]
    simp only [foldl_wr]
  refine tilesBecome_of (by rw [heffect, core_updEngine]; rfl) (by rw [heffect]; rfl) fun tile row c hrow hc => ?_
  refine (tileGet_putCells (nodup_columnCells (nodup_lanesOf _) _ _) (fun x hx => ?_) hrow hc).trans ?_
  · obtain ⟨hrow, _, hcol⟩ := mem_columnCells.1 hx
    exact ⟨lt_of_mem_lanesOf hrow, by omega⟩
  · simp only [mem_columnCells]
    rfl

theorem tiles_mma {g n : Nat} {slot : BitVec 32} {p : PlaneDesc} {ta tb : Elem} (h : o.act = .mma g n slot false)
    (hp : (s.core core).engine.activeDesc = some p) (hcls : p.cls ≠ .d) (hwide : p.n ≤ 32) (hta : elemOf (slotEtype slot) = some ta)
    (htb : elemOf p.etype.toNat = some tb) :
    TilesBecome s ((s.drawn.mxEffect core o).mxDone core o.id) core o fun tile i c =>
      if tile = n ∧ i ∈ lanesOf o.mask ∧ c < p.n then
        ((productRow (s.core core).engine p slot ta tb o.input i).cell c (tileGet (s.core core).engine.tiles n i c)).1 % 2 ^ 32
      else tileGet (s.core core).engine.tiles tile i c := by
  have heffect : ∃ x, s.drawn.mxEffect core o = (s.drawn.updEngine core fun e => { e with
      tiles := (mmaRows (s.core core).engine n slot false o.mask o.input).1 }).phraseStatus o.phrase x := by
    rw [State.mxEffect, h]
    exact ⟨_, rfl⟩
  obtain ⟨x, heffect⟩ := heffect
  refine tilesBecome_of (by rw [heffect, core_phraseStatus, core_updEngine]; rfl) (by rw [heffect, phraseStatus_mem]; rfl)
    fun tile row c hrow hc => ?_
  rw [mmaRows_tiles hp hcls hta htb]
  refine (tileGet_putCells (rowCells (nodup_lanesOf _) List.nodup_range) (fun x hx => ?_) hrow hc).trans ?_
  · obtain ⟨hrow, hcol⟩ := mem_rowCells.1 hx
    exact ⟨lt_of_mem_lanesOf hrow, (List.mem_range.1 hcol).trans_le hwide⟩
  · simp only [mem_rowCells, List.mem_range]

theorem effect_rd {n col cnt aty vd : Nat} {slot : BitVec 32} {q : Phrase} (h : o.act = .rd n col cnt aty slot vd)
    (hbits : LType.bits (slotType slot) = 32) (hq : tfind s.phrases o.phrase = some q) :
    let u := s.drawn.mxEffect core o
    u.mem = s.mem ∧ u.core core = s.core core ∧ (u.phr o.phrase).lanes = (putLanes q ((List.range cnt).flatMap fun j =>
      (lanesOf o.mask).flatMap fun i =>
        [(32 * (vd + j) + i, BitVec.ofNat 32 (tileConvert slot (tileValue (s.core core).engine.tiles n i (col + j) aty)).1)])).lanes := by
  intro u
  have hu : ∃ x, u = (s.drawn.updPhr o.phrase fun q => putLanes q (rdWrites (s.core core).engine n col cnt aty slot vd o.mask).1).phraseStatus
      o.phrase x := by
    refine ⟨(rdWrites (s.core core).engine n col cnt aty slot vd o.mask).2, ?_⟩
    show s.drawn.mxEffect core o = _
    rw [State.mxEffect, h]
    exact if_pos (by rw [drawn_phrases, hq]; rfl)
  obtain ⟨x, hu⟩ := hu
  have hphr : s.drawn.phr o.phrase = q := tget_of_tfind _ hq
  rw [hu]
  refine ⟨phraseStatus_mem .., core_phraseStatus .., ?_⟩
  rw [lanes_phraseStatus, phr_updPhr_same, hphr, rdWrites_32 hbits]

theorem effect_out {g n col cnt aty : Nat} {slot : BitVec 32} {x : Gutter} (h : o.act = .out g n col cnt aty slot)
    (hx : s.gutter core g = some x) (hfire : gutFire x.desc = 1)
    (hlen : (outBytes (s.core core).engine n col cnt aty slot).1.length = 2 ^ gutLogSz x.desc) :
    let u := s.drawn.mxEffect core o
    u.mem = writeBytes (scratchKey core (x.entry o.base 0)) (outBytes (s.core core).engine n col cnt aty slot).1 s.mem ∧
    (u.core core).engine = (s.core core).engine ∧ u.gutter core g = some { x with prod := x.prod + 1 } := by
  intro u
  let r := outBytes (s.core core).engine n col cnt aty slot
  let ps : List Piece := (x.fireEntries o.base).map fun a => ⟨scratchKey core a, 2 ^ gutLogSz x.desc, 0, 2⟩
  have hu : u = ((((s.drawn.updMem (writeEntries core x o.base r.1)).heal (pieceKeys ps)).putTags ps none).updGutter core g fun y =>
      { y with prod := y.prod + BitVec.ofNat 16 (gutFire y.desc) }).phraseStatus o.phrase r.2 := by
    have hx' : s.drawn.gutter core g = some x := hx
    show s.drawn.mxEffect core o = _
    rw [State.mxEffect, h]
    dsimp only
    rw [hx']
    rfl
  have hcore : (((s.drawn.updMem (writeEntries core x o.base r.1)).heal (pieceKeys ps)).putTags ps none).core core = s.core core := by
    rw [putTags_spec]
    exact keeps_ite (fun t => t.core core) (fun _ => rfl) fun _ => rfl
  rw [hu]
  refine ⟨?_, ?_, ?_⟩
  · rw [phraseStatus_mem, updGutter_mem, putTags_mem, heal_mem, ← writeEntries_one hfire core o.base hlen]
    rfl
  · rw [core_phraseStatus, State.updGutter, core_updCore_same, hcore]
  · rw [State.gutter, core_phraseStatus]
    refine (gutter_updGutter _ (x := x) ?_).trans ?_
    · rw [State.gutter, hcore]
      exact hx
    · rw [if_pos rfl, hfire]
      rfl

end

end Sys2Proof.Machine

namespace Sys2Proof
open Machine

/-- The oldest operation fires, and one behind it may go ahead. -/
theorem matrixFires : Claims.MatrixFires := by
  refine ⟨fun s core before after o hops hfired hids hunfired hgrant hfree hpresent => ⟨execMatrixFire_frozen, fun hcold hclean => ?_⟩,
    fun s core r w o after hops hids hr hw hunfired hcold hwcan hwait hcan hfree hapart hpending hmeet hclean => ?_⟩
  · have hexec (hok : s.mxGutterOk core o.act = true) : execMatrixFire core s = .next (s.mxFire core o) :=
      execMatrixFire_fires hcold (mxFirst_oldest hops hfired hunfired (by rw [State.mxCan, hgrant, hpresent, hok]; rfl)
        fun e he => hfree e (List.mem_append_left _ he) (hfired e he))
    refine ⟨fun g x hgutter hx => ?_, fun hgutter => ?_⟩
    · rcases MxAct.gutter_cases hgutter with ⟨hunit, hinput, hok⟩ | ⟨hunit, hinput, hok⟩
      · refine ⟨fun _ hfire => ⟨_, hexec ?_, mxFire_input hops hids hclean hinput hgutter hx⟩, fun h => by omega⟩
        rw [hok s core x hx, gutFire_eq]
        exact decide_eq_true hfire
      · refine ⟨fun h => by omega, fun _ hfire => ⟨_, hexec ?_, mxFire_noInput hops hids hclean hinput⟩⟩
        rw [hok s core x hx, gutFire_eq, Gutter.room, gutLogN, field_eq_extractLsb']
        exact decide_eq_true hfire
    · refine ⟨_, hexec ?_, mxFire_noInput hops hids hclean (MxAct.input_of_gutter_none hgutter)⟩
      rw [State.mxGutterOk, hgutter]
  · have hops' : (s.core core).engine.ops = [r, w] ++ o :: after := hops
    obtain ⟨input, cons, ⟨b, hqueue⟩, hmem, _, hphrases, hfrags⟩ := mxFire_fires hops' hids hclean hcan
    refine ⟨_, execMatrixFire_fires hcold ?_, _, hqueue, rfl, rfl, rfl, hmem, hphrases, hfrags⟩
    rw [hops]
    exact mxFirst_behind hr hw hwcan hwait hunfired hcan hfree hpending hapart hmeet

/-- A completion is the effect of its operation, and its end. -/
theorem matrixCompletes : Claims.MatrixCompletes := by
  intro s core o hone hcalm e rows ends tiles old out
  have hgives {P : State → Prop} (h : P ((s.drawn.mxEffect core o).mxDone core o.id)) : out P :=
    ⟨_, execMatrixComplete_one hone hcalm, h⟩
  have hends : ends ((s.drawn.mxEffect core o).mxDone core o.id) := opEnds_mxEffect
  refine ⟨fun g slot d hact => hgives ⟨hends, ?_⟩, fun hact => hgives ⟨hends, ?_⟩, fun n hact => hgives (tiles_zero hact),
    fun n col cnt data hact hfit => hgives (tiles_wr hact hfit),
    fun g n slot p ta tb hact hp hcls hwide hta htb => hgives (tiles_mma hact hp hcls hwide hta htb),
    fun n col cnt aty slot vd q hact hbits hq => hgives ⟨hends, ?_⟩,
    fun g n col cnt aty slot x hact hx hwf hfire hsize => ?_⟩
  · obtain ⟨htiles, hact', hplane, hshadow, hdesc⟩ := setShadow_shadow e d (loadPlane slot d o.input)
    rw [engine_mxDone, engine_effect_lds hact]
    refine ⟨htiles, ?_, hact', hplane, hshadow, hdesc⟩
    rw [effect_lds hact]
    rfl
  · rw [engine_mxDone, engine_effect_swap hact]
    refine ⟨rfl, ?_, rfl, rfl, rfl⟩
    rw [effect_swap hact]
    rfl
  · obtain ⟨hmem, hcore, hlanes⟩ := effect_rd (core := core) hact hbits hq
    refine ⟨hmem, ?_, fun r l hl => ?_⟩
    · rw [engine_mxDone, hcore]
    · rw [show (((s.drawn.mxEffect core o).mxDone core o.id).phr o.phrase).lanes = ((s.drawn.mxEffect core o).phr o.phrase).lanes from rfl,
        hlanes]
      exact lanes_putLanes_columns q (fun i hi => lt_of_mem_lanesOf hi) vd cnt _ hl
  · rw [← gutFire_eq] at hfire
    intro size key hlen
    have hsize' : size = 2 ^ gutLogSz x.desc := by rw [gutLogSz, field_eq_extractLsb']
    obtain ⟨hmem, hengine, hgutter⟩ := effect_out hact hx hfire (hlen.trans hsize')
    refine hgives ⟨hends, ?_, ?_, fun k hk => ?_, ?_⟩
    · rw [engine_mxDone, hengine]
    · show readBytes (s.drawn.mxEffect core o).mem key size = _
      rw [hmem, ← hlen]
      exact readBytes_writeBytes _ _ hwf
    · show readByte (s.drawn.mxEffect core o).mem k = _
      rw [hmem]
      exact readByte_writeBytes_other _ (hlen.symm ▸ hk) hwf
    · rw [gutter_mxDone]
      exact hgutter

/-- Settles O23: the queue's first free operation fires, and the one under way takes its effect and ends. -/
theorem matrixEngine : Obligations.MatrixEngine := by
  unfold Obligations.MatrixEngine
  exact ⟨matrixFires, matrixCompletes⟩

end Sys2Proof

/-!
# What a write of a noun's entry leaves

Rules for the table of nouns (R192-R196), on which the proofs about migrations, swaps and deliveries (O32, O34, O26) rest: the two words
of an entry that has been written, the bytes around it, and the parts of the state that `State.setLeaf` does not touch.
-/
namespace Sys2Proof.Machine

/-- A word of memory that has been written reads as it was written. -/
theorem readNat_writeNat_word {m : Mem} (hwf : Memory.wf m) (a : Nat) (w : Word) : readNat (writeNat a 8 w.toNat m) a 8 = w.toNat := by
  rw [readNat_writeNat _ _ _ hwf, Nat.mod_eq_of_lt (by have := w.isLt; omega)]

/-- A number outside a write reads as before. -/
theorem readNat_writeNat_other {m : Mem} (hwf : Memory.wf m) {a n b k : Nat} (v : Nat) (h : b + k ≤ a ∨ a + n ≤ b) :
    readNat (writeNat a n v m) b k = readNat m b k :=
  readNat_congr fun i hi => readByte_writeNat_other v (by omega) hwf

/-- A leaf that has been written reads its second word. -/
theorem readNat_writeLeaf_word1 {m : Mem} (hwf : Memory.wf m) (a : Nat) (l : Leaf) : readNat (writeLeaf a l m) (a + 8) 8 = l.word1.toNat :=
  readNat_writeNat_word (writeNat_wf _ _ _ hwf) (a + 8) l.word1

theorem readByte_writeLeaf_other {m : Mem} (hwf : Memory.wf m) {a k : Nat} (l : Leaf) (h : k < a ∨ a + 16 ≤ k) :
    readByte (writeLeaf a l m) k = readByte m k := by
  rw [writeLeaf, readByte_writeNat_other _ (by omega) (writeNat_wf _ _ _ hwf), readByte_writeNat_other _ (by omega) hwf]

section
variable {s : State} {n : Word} {leaf : Nat} (state xstat xcause mdest : Nat) (w : Word)

theorem mem_setLeaf (h : s.leafOf n = some leaf) : (s.setLeaf n state xstat xcause mdest w).mem =
    writeLeaf leaf ((readLeaf s.mem leaf).to state xstat xcause mdest w) s.mem := by
  rw [State.setLeaf, h]

/-- An entry is written in memory and in the copies of the table. -/
theorem setLeaf_rest (s : State) (n : Word) : s.setLeaf n state xstat xcause mdest w =
    { s with mem := (s.setLeaf n state xstat xcause mdest w).mem, nounCache := (s.setLeaf n state xstat xcause mdest w).nounCache } := by
  rw [State.setLeaf]
  split <;> rfl

theorem migs_setLeaf (s : State) (n : Word) : (s.setLeaf n state xstat xcause mdest w).migs = s.migs := by rw [setLeaf_rest]
theorem nouns_setLeaf (s : State) (n : Word) : (s.setLeaf n state xstat xcause mdest w).nouns = s.nouns := by rw [setLeaf_rest]
theorem host_setLeaf (s : State) (n : Word) : (s.setLeaf n state xstat xcause mdest w).host = s.host := by rw [setLeaf_rest]

/-- The second word of an entry that an update has written. -/
theorem readNat_setLeaf_word1 (hwf : Memory.wf s.mem) (h : s.leafOf n = some leaf) :
    readNat (s.setLeaf n state xstat xcause mdest w).mem (leaf + 8) 8 = w.toNat := by
  rw [mem_setLeaf _ _ _ _ _ h, readNat_writeLeaf_word1 hwf]
  rfl

/-- The STATE of an entry that an update has written. -/
theorem state_setLeaf (hwf : Memory.wf s.mem) (h : s.leafOf n = some leaf) (hstate : state < 8) :
    (BitVec.ofNat 64 (readNat (s.setLeaf n state 0 xcause mdest w).mem leaf 8)).extractLsb' 61 3 = BitVec.ofNat 3 state :=
  (readNat_setLeaf hwf h hstate (by decide) xcause mdest w).1

theorem readByte_setLeaf_other (hwf : Memory.wf s.mem) (h : s.leafOf n = some leaf) {k : Nat} (hk : k < leaf ∨ leaf + 16 ≤ k) :
    readByte (s.setLeaf n state xstat xcause mdest w).mem k = readByte s.mem k := by
  rw [mem_setLeaf _ _ _ _ _ h, readByte_writeLeaf_other hwf _ hk]

end

@[simp] theorem length_readBytes (m : Mem) (a n : Nat) : (readBytes m a n).length = n := by
  induction n generalizing a with
  | zero => rfl
  | succ n ih => rw [readBytes, List.length_cons, ih]

theorem moveBytes_wf {m : Mem} (hwf : Memory.wf m) (src dst n : Nat) : Memory.wf (moveBytes src dst n m) := writeBytes_wf _ _ hwf

/-- Bytes that have been moved stand at their new place. -/
theorem readBytes_moveBytes {m : Mem} (hwf : Memory.wf m) (src dst n : Nat) : readBytes (moveBytes src dst n m) dst n = readBytes m src n := by
  have h := readBytes_writeBytes (readBytes m src n) dst hwf
  rwa [length_readBytes] at h

theorem readByte_moveBytes_other {m : Mem} (hwf : Memory.wf m) {src dst n k : Nat} (h : k < dst ∨ dst + n ≤ k) :
    readByte (moveBytes src dst n m) k = readByte m k :=
  readByte_writeBytes_other _ (by rwa [length_readBytes]) hwf

end Sys2Proof.Machine

/-!
# Residency and the end of migrations (O32)

A request to make a context resident is refused by the first check that fails, or loads the registers of its record. A migration to which
nothing was forwarded ends by one write of its noun's entry.
-/
namespace Sys2Proof.Machine

/-! ### Residency (R190, R563) -/

theorem execMakeResident_refused {s : State} {record n : Nat} (h : s.residentRefused record n = true) :
    execMakeResident record n s = .next s := if_pos h

theorem execMakeResident_new {s : State} {record n : Nat} (h : s.residentRefused record n = false) (hnew : tfind s.contexts n = none) :
    execMakeResident record n s = .next { s with contexts := tput n (({} : Ctx).load s.mem record) s.contexts } := by
  rw [execMakeResident, h, hnew]
  rfl

/-- The context number of a record, as the request's check reads it. -/
theorem recordNumber (m : Mem) (record : Nat) :
    ((BitVec.ofNat 64 (readNat m record 8)).extractLsb' 0 20).toNat = readNat m record 8 % 2 ^ 20 := by
  rw [extractLsb'_ofNat_field, BitVec.toNat_ofNat, pow_zero, Nat.div_one, Nat.mod_mod_of_dvd _ (by decide)]

theorem residentRefused_number {s : State} {record n : Nat} (h : readNat s.mem record 8 % 2 ^ 20 ≠ n) : s.residentRefused record n = true := by
  have hcheck : (readNat s.mem record 8 % 2 ^ 20 != n) = true := bne_iff_ne.2 h
  simp only [State.residentRefused, hcheck, Bool.or_true, Bool.true_or]

theorem residentRefused_otherRecord {s : State} {record n : Nat} {x : Ctx} (hx : tfind s.contexts n = some x) (hlive : x.killed = false)
    (hrecord : x.record ≠ record) : s.residentRefused record n = true := by
  simp [State.residentRefused, hx, hlive, hrecord]

theorem residentRefused_elsewhere {s : State} {record n : Nat} (h : (s.homeOf n).isSome = true) : s.residentRefused record n = true := by
  simp [State.residentRefused, h]

/-- Every check of a request for a new number passes. -/
theorem residentRefused_new {s : State} {record n : Nat} (hon : s.accepted 0 = true) (haligned : record % 128 = 0) (hvault : record < 0x400000000)
    (hnumber : readNat s.mem record 8 % 2 ^ 20 = n) (hnew : tfind s.contexts n = none)
    (hroom : (s.contexts.filter fun e => e.2.resident && e.1 != n).length < 1024) (hhome : s.homeOf n = none) :
    s.residentRefused record n = false := by
  have hcheck : (readNat s.mem record 8 % 2 ^ 20 != n) = false := by rw [hnumber, bne_self_eq_false]
  rw [State.residentRefused, hcheck, hnew, hhome]
  simp [hon, haligned, inVault, vaultTop, hvault, hroom]

/-! ### The end of a migration (R177) -/

/-- No migration stands, and the noun is SAVED with its image at `a`. -/
def State.landed (s : State) (n : Word) (a : Nat) : State := ({ s with migs := [] } : State).setLeaf n stSaved 0 0 0 (wordOf a)

theorem landed_saved {u : State} {n : Word} {leaf : Nat} (hwf : Memory.wf u.mem) (hleaf : u.leafOf n = some leaf) (a : Nat) :
    (u.landed n a).migs = [] ∧ (BitVec.ofNat 64 (readNat (u.landed n a).mem leaf 8)).extractLsb' 61 3 = 2 ∧
    readNat (u.landed n a).mem (leaf + 8) 8 = a % 2 ^ 64 := by
  let v : State := { u with migs := [] }
  have hv : v.leafOf n = some leaf := hleaf
  have hvwf : Memory.wf v.mem := hwf
  refine ⟨migs_setLeaf .., state_setLeaf _ _ _ _ hvwf hv (by decide), ?_⟩
  rw [State.landed, readNat_setLeaf_word1 _ _ _ _ _ hvwf hv, wordOf, BitVec.toNat_ofNat]

theorem readByte_landed_other {u : State} {n : Word} {leaf : Nat} (hwf : Memory.wf u.mem) (hleaf : u.leafOf n = some leaf) (a : Nat) {k : Nat}
    (hk : k < leaf ∨ leaf + 16 ≤ k) : readByte (u.landed n a).mem k = readByte u.mem k :=
  readByte_setLeaf_other (s := { u with migs := [] }) _ _ _ _ _ hwf hleaf hk

theorem endMigrate_landed {s : State} (h : s.host.cs = []) (n : Word) (a st : Nat) : (s.landed n a).endMigrate n st = s.landed n a := by
  have hcs : (s.landed n a).host.cs = [] := (congrArg HostSide.cs (host_setLeaf ..)).trans h
  rw [State.endMigrate, hcs]
  rfl

/-- A migration with an empty forward queue, and no operation held, is replayed by the write of its noun's entry. -/
theorem replay_unforwarded {s : State} {g : Migration} (hmigs : s.migs = [g]) (hfwd : g.fwd = []) (hnouns : s.nouns = []) (a : Nat) :
    s.replay g a = s.landed g.noun a := by
  have hone : s.migs.filter (fun x => x.noun != g.noun) = [] := by simp [hmigs]
  have hnone : (s.landed g.noun a).nouns = [] := (nouns_setLeaf ..).trans hnouns
  rw [State.landed] at hnone
  simp only [State.replay, hfwd, List.foldl_nil, hone, hnone, List.filter_nil, State.landed]

section
variable {s : State} {g : Migration} (hmigs : s.migs = [g]) (hfwd : g.fwd = []) (hnouns : s.nouns = []) (hcs : s.host.cs = [])
include hmigs

theorem find_migration : s.migs.find? (fun x => x.noun == g.noun) = some g := by simp [hmigs]

include hcs

theorem execMigrationArrival_away (image : Nat) (haway : moduleOfLoc g.dest ≠ s.moduleNo) :
    execMigrationArrival g.noun image s = .next (s.landed g.noun image) := by
  have hone : s.migs.filter (fun x => x.noun != g.noun) = [] := by simp [hmigs]
  have hmodule : (moduleOfLoc g.dest == s.moduleNo) = false := beq_eq_false_iff_ne.2 haway
  have hend := endMigrate_landed hcs g.noun image 0
  rw [State.landed] at hend ⊢
  simp only [execMigrationArrival, find_migration hmigs, hmodule, hone, Bool.false_eq_true, if_false, hend]

include hfwd hnouns

theorem execMigrationAbandon_unforwarded : execMigrationAbandon g.noun s = .next (s.landed g.noun g.image) := by
  simp only [execMigrationAbandon, find_migration hmigs, replay_unforwarded hmigs hfwd hnouns, endMigrate_landed hcs]

theorem execMigrationArrival_here (image : Nat) (hhere : moduleOfLoc g.dest = s.moduleNo) :
    execMigrationArrival g.noun image s =
      .next ((s.updMem (moveBytes g.image image (imageLenAt s.mem g.image))).landed g.noun image) := by
  have hmodule : (moduleOfLoc g.dest == s.moduleNo) = true := beq_iff_eq.2 hhere
  simp only [execMigrationArrival, find_migration hmigs, hmodule, if_true]
  generalize moveBytes g.image image (imageLenAt s.mem g.image) = move
  rw [replay_unforwarded (s := s.updMem move) hmigs hfwd hnouns, endMigrate_landed (s := s.updMem move) hcs]

end

end Sys2Proof.Machine

namespace Sys2Proof

open Machine

theorem contextsBecomeResident : Claims.Residency := by
  intro s record n w
  have hnumber : ((w 0).extractLsb' 0 20).toNat = readNat s.mem record 8 % 2 ^ 20 := recordNumber s.mem record
  refine ⟨fun h => ?_, fun x hx hlive hrecord => ?_, ?_, fun hon haligned hvault hn hnew hroom => ?_⟩
  · exact execMakeResident_refused (residentRefused_number (hnumber ▸ h))
  · exact execMakeResident_refused (residentRefused_otherRecord hx hlive hrecord)
  · cases hhome : s.homeOf n with
    | none => exact .inl rfl
    | some m => exact .inr (execMakeResident_refused (residentRefused_elsewhere (by rw [hhome]; rfl)))
  · cases hhome : s.homeOf n with
    | some m => exact .inl rfl
    | none =>
      refine .inr ⟨_, execMakeResident_new (residentRefused_new hon haligned hvault (hnumber ▸ hn) hnew hroom hhome) hnew, ?_⟩
      beta_reduce
      intro x
      have hx : x = ({} : Ctx).load s.mem record := tget_tput_same _ _ _ _
      rw [hx]
      exact ⟨rfl, rfl, rfl, rfl, rfl, rfl, rfl, rfl, rfl, rfl, rfl, rfl, rfl, rfl, rfl,
        fun m hm => tget_tput_other _ _ _ (Ne.symm hm), rfl⟩

theorem migrationsEnd : Claims.MigrationsEnd := by
  intro s g image leaf hmigs hfwd hnouns hcs hwf saved
  have hlands {u : State} (hu : Memory.wf u.mem) (hleaf : u.leafOf g.noun = some leaf) (a : Nat) : saved (u.landed g.noun a) a :=
    landed_saved hu hleaf a
  have hkeeps {u : State} (hu : Memory.wf u.mem) (hleaf : u.leafOf g.noun = some leaf) (a k : Nat) (hk : k < leaf ∨ leaf + 16 ≤ k) :
      readByte (u.landed g.noun a).mem k = readByte u.mem k :=
    readByte_landed_other hu hleaf a hk
  refine ⟨fun hleaf => ?_, fun hleaf haway => ?_, ?_⟩
  · exact ⟨_, execMigrationAbandon_unforwarded hmigs hfwd hnouns hcs, hlands hwf hleaf _, hkeeps hwf hleaf _⟩
  · exact ⟨_, execMigrationArrival_away hmigs hcs image haway, hlands hwf hleaf _, hkeeps hwf hleaf _⟩
  · intro n hhere hleaf hapart
    let u := s.updMem (moveBytes g.image image n)
    have hmem : u.mem = moveBytes g.image image n s.mem := updMem_mem ..
    have hu : Memory.wf u.mem := hmem ▸ moveBytes_wf hwf ..
    refine ⟨_, execMigrationArrival_here hmigs hfwd hnouns hcs image hhere, hlands hu hleaf image, ?_⟩
    have hstands (i : Nat) (hi : i < n) : readByte (u.landed g.noun image).mem (image + i) = readByte (moveBytes g.image image n s.mem) (image + i) :=
      (hkeeps hu hleaf image (image + i) (by omega)).trans (by rw [hmem])
    exact (readBytes_congr _ _ _ _ hstands).trans (readBytes_moveBytes hwf g.image image n)

/-- Settles O32: a request for residency is refused or loads the record's registers, and a migration ends with one write of its noun's
entry. -/
theorem residency : Obligations.Residency := by
  unfold Obligations.Residency
  exact ⟨contextsBecomeResident, migrationsEnd⟩

end Sys2Proof

/-!
# Slots and preambles of an optical port (O43)

A slot begins with one update of its port, and with the preamble where the port is up and its calendar names a peer. A preamble that comes
is dropped, counted as a failure, counted as a mismatch, or taken: one equation for each.
-/
namespace Sys2Proof.Machine

/-! ### One port of the fabric -/

/-- Two states differ at most in optical port `n`. -/
def OnlyPort (s t : State) (n : Nat) : Prop := t = { s with fabric := t.fabric } ∧ ∀ m, m ≠ n → t.fport m = s.fport m

theorem onlyPort_updFport (s : State) (n : Nat) (g : FPort → FPort) : OnlyPort s (s.updFport n g) n :=
  ⟨rfl, fun _ hm => tget_tput_other _ _ _ (Ne.symm hm)⟩

theorem OnlyPort.trans {s t u : State} {n : Nat} (h : OnlyPort s t n) (h' : OnlyPort t u n) : OnlyPort s u n :=
  ⟨by rw [h'.1, h.1], fun m hm => (h'.2 m hm).trans (h.2 m hm)⟩

/-- A flit counter has 48 bits, and another counter 32 (R226, R227). -/
theorem count_flits (p : FPort) {c : Nat} (h : c < 2) : tget 0 (p.count c).counters c = min (2 ^ 48 - 1) (tget 0 p.counters c + 1) := by
  rw [FPort.count, if_pos h, tget_tput_same]

theorem count_events (p : FPort) {c : Nat} (h : 2 ≤ c) : tget 0 (p.count c).counters c = min (2 ^ 32 - 1) (tget 0 p.counters c + 1) := by
  rw [FPort.count, if_neg (Nat.not_lt.2 h), tget_tput_same]

theorem count_other (p : FPort) {c d : Nat} (h : d ≠ c) : tget 0 (p.count c).counters d = tget 0 p.counters d :=
  tget_tput_other _ _ _ (Ne.symm h)

/-- What the calendar names at an index (R211). -/
theorem peerAt_eq (p : FPort) (i : Nat) : p.peerAt i =
    let e : BitVec 32 := tget 0 (if p.bank then p.cal1 else p.cal0) i
    if e.getLsbD 15 then some (e.extractLsb' 0 10).toNat else none := by
  simp only [FPort.peerAt, FPort.cal, field_eq_extractLsb']

theorem portUp_eq_false {s : State} {n : Nat} (h : (s.fport n).up = false ∨ s.accepted 3 = false) : s.portUp n = false := by
  rcases h with h | h <;> simp [State.portUp, h]

/-! ### A slot begins (R499) -/

/-- The port at a cycle start. -/
def FPort.cycleStart (p : FPort) (full : Bool) : FPort :=
  { p with bank := p.bank != p.switch, switch := false, lanes := p.lanes ||| p.restore, restore := 0
           up := p.up || (full && p.bring && (p.lanes ||| p.restore) != 0), bring := !full && p.bring }

/-- The port in a slot in which nothing has been sent or received. -/
def FPort.inSlot (p : FPort) (index : Nat) (given : Nat × Nat × List Nat) : FPort :=
  { p with index := index, lseq := 0, rxlseq := 0, nacked := false, peer := none, peerMask := 0, used := [], taken := [], given := given, room := 0 }

def State.slotBegun (s : State) (n : Nat) (index : BitVec 6) : State :=
  s.updFport n fun p => (if index == 0 then p.cycleStart (s.svc == .full) else p).inSlot index.toNat s.fabric.advert

section
variable (s : State) (port : BitVec 4) (index : BitVec 6)

theorem fport_slotBegun (n : Nat) : (s.slotBegun n index).fport n =
    (if index = 0 then (s.fport n).cycleStart (s.svc == .full) else s.fport n).inSlot index.toNat s.fabric.advert := by
  rw [State.slotBegun, fport_updFport_same]
  congr 1
  exact if_congr beq_iff_eq rfl rfl

/-- What every slot starts with, and what stands. -/
theorem slotBegun_port (n : Nat) : let p := s.fport n
    let q := (s.slotBegun n index).fport n
    q.index = index.toNat ∧ q.lseq = 0 ∧ q.rxlseq = 0 ∧ q.nacked = false ∧ q.peer = none ∧ q.room = 0 ∧ q.cal0 = p.cal0 ∧ q.cal1 = p.cal1 ∧
    q.given = s.fabric.advert ∧ q.taken = [] ∧ q.retry = p.retry ∧ q.txctr = p.txctr := by
  simp only [fport_slotBegun]
  split <;> exact ⟨rfl, rfl, rfl, rfl, rfl, rfl, rfl, rfl, rfl, rfl, rfl, rfl⟩

/-- What the slot leaves of the port that its preamble is made of. -/
theorem slotBegun_sent (n : Nat) : let p := s.fport n
    let q := (s.slotBegun n index).fport n
    q.out = p.out ∧ q.counters = p.counters ∧ q.plane = p.plane ∧ q.cleared = p.cleared := by
  simp only [fport_slotBegun]
  split <;> exact ⟨rfl, rfl, rfl, rfl⟩

/-- A slot inside a cycle. -/
theorem slotBegun_within (n : Nat) (h : index ≠ 0) : let p := s.fport n
    let q := (s.slotBegun n index).fport n
    q.bank = p.bank ∧ q.up = p.up ∧ q.lanes = p.lanes ∧ q.switch = p.switch := by
  simp only [fport_slotBegun, if_neg h]
  exact ⟨rfl, rfl, rfl, rfl⟩

/-- A cycle start (R499, R543). -/
theorem slotBegun_cycle (n : Nat) (h : index = 0) : let p := s.fport n
    let q := (s.slotBegun n index).fport n
    q.bank = (p.bank != p.switch) ∧ q.switch = false ∧ q.lanes = p.lanes ||| p.restore ∧ q.restore = 0 ∧
    (s.svc = .full → q.bring = false ∧ q.up = (p.up || (p.bring && p.lanes ||| p.restore != 0))) ∧
    (s.svc ≠ .full → q.bring = p.bring ∧ q.up = p.up) := by
  simp only [fport_slotBegun, if_pos h]
  refine ⟨rfl, rfl, rfl, rfl, fun hfull => ?_, fun hpart => ?_⟩
  · have hsvc : (s.svc == .full) = true := beq_iff_eq.2 hfull
    rw [hsvc]
    exact ⟨rfl, rfl⟩
  · have hsvc : (s.svc == .full) = false := beq_eq_false_iff_ne.2 hpart
    rw [hsvc]
    exact ⟨rfl, Bool.or_false _⟩

theorem slotBegun_only (n : Nat) : OnlyPort s (s.slotBegun n index) n := onlyPort_updFport s n _

/-- The port in a slot in which its preamble has gone out. -/
def State.greeting (s : State) (n : Nat) : State :=
  s.updFport n fun p => { p.count cFlittx with out := p.out ++ [s.preambleBytes n] }

theorem execSlotStart_eq : execSlotStart port index s =
    if (s.slotBegun port.toNat index).portUp port.toNat && (((s.slotBegun port.toNat index).fport port.toNat).peerAt index.toNat).isSome then
      .next ((s.slotBegun port.toNat index).greeting port.toNat)
    else .next (s.slotBegun port.toNat index) := rfl

theorem execSlotStart_silent (h : (s.slotBegun port.toNat index).portUp port.toNat = false ∨
    ((s.slotBegun port.toNat index).fport port.toNat).peerAt index.toNat = none) :
    execSlotStart port index s = .next (s.slotBegun port.toNat index) := by
  rw [execSlotStart_eq]
  refine if_neg ?_
  rcases h with h | h <;> simp [h]

theorem execSlotStart_greets {peer : Nat} (hup : (s.slotBegun port.toNat index).portUp port.toNat = true)
    (hpeer : ((s.slotBegun port.toNat index).fport port.toNat).peerAt index.toNat = some peer) :
    execSlotStart port index s = .next ((s.slotBegun port.toNat index).greeting port.toNat) := by
  rw [execSlotStart_eq, hup, hpeer]
  rfl

end

/-! ### The preamble's bytes (R502) -/

/-- The bytes that stand at their places in every preamble. -/
def State.preambleHead (s : State) (n : Nat) : List Byte :=
  let p := s.fport n
  [BitVec.ofNat 8 p.plane, BitVec.ofNat 8 p.index, BitVec.ofNat 8 s.moduleNo, BitVec.ofNat 8 (s.moduleNo / 256),
    BitVec.ofNat 8 (p.lanes.toNat + at' (bit p.cleared) 7), 0] ++
  bytesOf s.fabric.boot.toNat 2 ++ bytesOf p.given.1 2 ++ bytesOf p.given.2.1 2

theorem preambleBytes_eq (s : State) (n : Nat) : ∃ rest : List Byte, (s.preambleHead n ++ rest).length = 252 ∧
    s.preambleBytes n = withCrc (s.preambleHead n ++ rest) :=
  ⟨takeFill 0 240 ((takeFill 0 10 (((s.fport n).given.2.2.take 10).map fun d => 0x8000 + d)).flatMap fun d => bytesOf d 2),
    by rw [List.length_append, takeFill_length]; rfl, rfl⟩

theorem bytesOf_toNat (x : BitVec 16) : bytesOf x.toNat 2 = [x.extractLsb' 0 8, x.extractLsb' 8 8] := by
  have hlow : BitVec.ofNat 8 x.toNat = x.extractLsb' 0 8 := by
    apply BitVec.eq_of_toNat_eq
    simp
  have hhigh : BitVec.ofNat 8 (x.toNat / 256) = x.extractLsb' 8 8 := by
    apply BitVec.eq_of_toNat_eq
    simp [Nat.shiftRight_eq_div_pow]
  rw [bytesOf, bytesOf, bytesOf, hlow, hhigh]

theorem withCrc_checks {x : List Byte} (h : x.length = 252) : (withCrc x).length = 256 ∧
    natOf ((withCrc x).drop 252) = crc32 ((withCrc x).take 252) := by
  have hcrc := crc32_lt x
  rw [withCrc, List.take_left' h, List.drop_left' h, natOf_bytesOf, List.length_append, length_bytesOf, h, Nat.mod_eq_of_lt (by omega)]
  exact ⟨rfl, rfl⟩

theorem preambleBytes_fields (s : State) (n : Nat) : let p := s.fport n
    let x := s.preambleBytes n
    x.length = 256 ∧ natOf (x.drop 252) = crc32 (x.take 252) ∧
    x.take 6 = [BitVec.ofNat 8 p.plane, BitVec.ofNat 8 p.index, BitVec.ofNat 8 s.moduleNo, BitVec.ofNat 8 (s.moduleNo / 256),
      BitVec.ofNat 8 (p.lanes.toNat + if p.cleared then 128 else 0), 0] ∧
    (x.drop 6).take 2 = [s.fabric.boot.extractLsb' 0 8, s.fabric.boot.extractLsb' 8 8] ∧
    natOf ((x.drop 8).take 2) = p.given.1 % 2 ^ 16 ∧ natOf ((x.drop 10).take 2) = p.given.2.1 % 2 ^ 16 := by
  obtain ⟨rest, hlen, hx⟩ := preambleBytes_eq s n
  intro p x
  have hchecks : x.length = 256 ∧ natOf (x.drop 252) = crc32 (x.take 252) := by
    rw [show x = _ from hx]
    exact withCrc_checks hlen
  have hword (v : Nat) : natOf (bytesOf v 2) = v % 2 ^ 16 := natOf_bytesOf v 2
  refine ⟨hchecks.1, hchecks.2, ?_, ?_, ?_, ?_⟩
  · rw [← show at' (bit p.cleared) 7 = if p.cleared then 128 else 0 from at'_bit _ 7]
    exact congrArg (List.take 6) hx
  · rw [← bytesOf_toNat]
    exact congrArg (fun y => (y.drop 6).take 2) hx
  · rw [← hword]
    exact congrArg (fun y => natOf ((y.drop 8).take 2)) hx
  · rw [← hword]
    exact congrArg (fun y => natOf ((y.drop 10).take 2)) hx

theorem greeting_port (s : State) (n : Nat) : (s.greeting n).fport n =
    { (s.fport n).count cFlittx with out := (s.fport n).out ++ [s.preambleBytes n] } := fport_updFport_same s n _

theorem greeting_only (s : State) (n : Nat) : OnlyPort s (s.greeting n) n := onlyPort_updFport s n _

/-! ### A preamble comes (R213, R502, R503) -/

/-- A number in the bytes of a preamble. -/
def preambleWord (x : List Byte) (i k : Nat) : Nat := natOf ((x.drop i).take k)

/-- The destinations that a preamble marks CLOSED. -/
def preambleClosed (x : List Byte) : List Nat :=
  ((List.range 10).map fun i => preambleWord x (12 + 2 * i) 2).filterMap fun e => if e.testBit 15 then some (fieldNat e 0 10) else none

theorem mem_preambleClosed {x : List Byte} {d : Nat} : d ∈ preambleClosed x ↔
    ∃ i, i < 10 ∧ (preambleWord x (12 + 2 * i) 2).testBit 15 = true ∧ preambleWord x (12 + 2 * i) 2 % 1024 = d := by
  simp [preambleClosed, fieldNat]

/-- The module that a preamble names as its sender. -/
def preamblePeer (x : List Byte) : Nat := fieldNat (preambleWord x 2 2) 0 10

/-- A preamble names another plane, another index, or another peer than this port's calendar. -/
def FPort.misses (p : FPort) (x : List Byte) : Bool :=
  fieldNat (preambleWord x 0 1) 0 4 != p.plane || preambleWord x 1 1 != p.index || p.peerAt p.index != some (preamblePeer x)

theorem misses_eq_false {p : FPort} {x : List Byte} : p.misses x = false ↔
    let entry : BitVec 32 := tget 0 (if p.bank then p.cal1 else p.cal0) p.index
    preambleWord x 0 1 % 16 = p.plane ∧ preambleWord x 1 1 = p.index ∧ entry.getLsbD 15 = true ∧
      (entry.extractLsb' 0 10).toNat = preamblePeer x := by
  have hplane : fieldNat (preambleWord x 0 1) 0 4 = preambleWord x 0 1 % 16 := rfl
  rw [FPort.misses, peerAt_eq, hplane]
  simp only [Bool.or_eq_false_iff, bne_eq_false_iff_eq, and_assoc, Option.ite_none_right_eq_some, Option.some.injEq]

/-- A port takes a preamble. -/
def FPort.greeted (p : FPort) (x : List Byte) : FPort :=
  let p1 := { p.count cFlitrx with peer := some (preamblePeer x), peerMask := BitVec.ofNat 4 (preambleWord x 4 1)
                                   adv := (preambleWord x 8 2, preambleWord x 10 2, preambleClosed x)
                                   rx := keysAfter (preamblePeer x) ((preambleWord x 4 1).testBit 7) p.rx }
  { p1 with room := p1.slotRoom }

/-- The boot epoch of a preamble. -/
def preambleBoot (x : List Byte) : BitVec 16 := BitVec.ofNat 16 (preambleWord x 6 2)

/-- What a new boot epoch of the sender ends. -/
def State.bootSeen (s : State) (x : List Byte) : State :=
  match tfind s.fabric.boots (preamblePeer x) with
  | some b => if b == preambleBoot x then s else s.peerGone (preamblePeer x)
  | none => s

theorem bootSeen_known {s : State} {x : List Byte}
    (h : tfind s.fabric.boots (preamblePeer x) = none ∨ tfind s.fabric.boots (preamblePeer x) = some (preambleBoot x)) : s.bootSeen x = s := by
  rcases h with h | h <;> simp [State.bootSeen, h]

/-- A module has been greeted on a port, in a known boot epoch. -/
def State.greeted (s : State) (n : Nat) (x : List Byte) : State :=
  (s.updFabric fun f => { f with boots := tput (preamblePeer x) (preambleBoot x) f.boots }).updFport n fun p => p.greeted x

theorem execPreamble_eq (port : BitVec 4) (x : List Byte) (s : State) : execPreamble port x s =
    if !s.portUp port.toNat then .next s
    else if !crcGood x then .next (s.updFport port.toNat fun p => p.count cCrcerr)
    else if (s.fport port.toNat).misses x then .next ((s.updFport port.toNat fun p => { p.count cMismatch with up := false }).raise 6)
    else .next ((s.bootSeen x).greeted port.toNat x) := rfl

section
variable {s : State} {port : BitVec 4} {x : List Byte}

theorem execPreamble_absent (h : s.portUp port.toNat = false) : execPreamble port x s = .next s := by
  rw [execPreamble_eq, h]
  rfl

variable (hup : s.portUp port.toNat = true)
include hup

theorem execPreamble_crc (hcrc : crcGood x = false) : execPreamble port x s = .next (s.updFport port.toNat fun p => p.count cCrcerr) := by
  rw [execPreamble_eq, hup, hcrc]
  rfl

variable (hcrc : crcGood x = true)
include hcrc

theorem execPreamble_mismatch (h : (s.fport port.toNat).misses x = true) :
    execPreamble port x s = .next ((s.updFport port.toNat fun p => { p.count cMismatch with up := false }).raise 6) := by
  rw [execPreamble_eq, hup, hcrc, h]
  rfl

theorem execPreamble_greets (h : (s.fport port.toNat).misses x = false)
    (hboot : tfind s.fabric.boots (preamblePeer x) = none ∨ tfind s.fabric.boots (preamblePeer x) = some (preambleBoot x)) :
    execPreamble port x s = .next (s.greeted port.toNat x) := by
  rw [execPreamble_eq, hup, hcrc, h, bootSeen_known hboot]
  rfl

end

/-! ### Receive keys after a preamble (R508) -/

section
variable {q : Nat} {ks rest : List RxKey}

theorem filter_other_append (hks : ∀ k ∈ ks, k.src = q) (hrest : ∀ k ∈ rest, k.src ≠ q) :
    (ks ++ rest).filter (fun k => k.src != q) = rest := by
  rw [List.filter_append, List.filter_eq_nil_iff.2 (fun k hk => by simp [hks k hk]),
    List.filter_eq_self.2 (fun k hk => by simp [hrest k hk]), List.nil_append]

theorem filter_own_append (hks : ∀ k ∈ ks, k.src = q) (hrest : ∀ k ∈ rest, k.src ≠ q) :
    (ks ++ rest).filter (fun k => k.src == q) = ks := by
  rw [List.filter_append, List.filter_eq_self.2 (fun k hk => by simp [hks k hk]),
    List.filter_eq_nil_iff.2 (fun k hk => by simp [hrest k hk]), List.append_nil]

end

/-- The keys of the sender that a preamble leaves. -/
def ownKeysAfter (clr : Bool) : List RxKey → List RxKey
  | [] => []
  | k :: ks => if clr = false then { k with sure := true } :: ks else if k.sure = true then [k] else k :: ks

theorem keysAfter_eq (q : Nat) (clr : Bool) (rx : List RxKey) : keysAfter q clr rx =
    ownKeysAfter clr (rx.filter fun k => k.src == q) ++ rx.filter fun k => k.src != q := by
  rw [keysAfter]
  split
  · next h => rw [h]; rfl
  · next k ks h =>
    rw [h, ownKeysAfter]
    cases clr with
    | false => rfl
    | true => cases k.sure <;> rfl

theorem src_of_mem_ownKeysAfter {q : Nat} {clr : Bool} {own : List RxKey} (h : ∀ k ∈ own, k.src = q) : ∀ k ∈ ownKeysAfter clr own, k.src = q := by
  cases own with
  | nil => exact fun k hk => absurd hk List.not_mem_nil
  | cons k ks =>
    obtain ⟨hk, hks⟩ := List.forall_mem_cons.1 h
    rw [ownKeysAfter]
    split
    · exact List.forall_mem_cons.2 ⟨hk, hks⟩
    · split
      · exact List.forall_mem_singleton.2 hk
      · exact h

section
variable (q : Nat) (clr : Bool) (rx : List RxKey)

theorem src_of_mem_own : ∀ k ∈ rx.filter (fun k => k.src == q), k.src = q := fun _ hk => beq_iff_eq.1 (List.mem_filter.1 hk).2
theorem src_of_mem_others : ∀ k ∈ rx.filter (fun k => k.src != q), k.src ≠ q := fun _ hk => bne_iff_ne.1 (List.mem_filter.1 hk).2

/-- The keys of other senders stand. -/
theorem keysAfter_others : (keysAfter q clr rx).filter (fun k => k.src != q) = rx.filter fun k => k.src != q := by
  rw [keysAfter_eq]
  exact filter_other_append (src_of_mem_ownKeysAfter (src_of_mem_own q rx)) (src_of_mem_others q rx)

theorem keysAfter_own : (keysAfter q clr rx).filter (fun k => k.src == q) = ownKeysAfter clr (rx.filter fun k => k.src == q) := by
  rw [keysAfter_eq]
  exact filter_own_append (src_of_mem_ownKeysAfter (src_of_mem_own q rx)) (src_of_mem_others q rx)

end

/-- A table of one item for each number of a list. -/
theorem tget_map_pairs {α : Type} (d : α) (f : Nat → α) {i : Nat} {is : List Nat} (h : i ∈ is) : tget d (is.map fun j => (j, f j)) i = f i := by
  induction is with
  | nil => exact absurd h List.not_mem_nil
  | cons j is ih =>
    rw [List.map_cons, tget]
    split
    · next hj => rw [hj]
    · next hj => exact ih ((List.mem_cons.1 h).resolve_left (Ne.symm hj))

end Sys2Proof.Machine

namespace Sys2Proof

open Machine

theorem slotsStart : Claims.SlotsBegin := by
  intro s port n p fab counts
  refine ⟨fun index => ?_, fun epoch entries => ?_, fun lanes => ?_⟩
  · let u := s.slotBegun n index
    obtain ⟨hout, hcounters, hplane, hcleared⟩ := slotBegun_sent s index n
    obtain ⟨hindex, hlseq, hrxlseq, hnacked, hpeer, hroom, hcal0, hcal1, hgiven, htaken, hretry, htxctr⟩ := slotBegun_port s index n
    by_cases hgoes : (u.fport n).up = true ∧ s.accepted 3 = true ∧
        (tget 0 (if (u.fport n).bank then (u.fport n).cal1 else (u.fport n).cal0) index.toNat).getLsbD 15 = true
    · obtain ⟨hup, hon, hentry⟩ := hgoes
      have hlive : u.portUp n = true := Bool.and_eq_true_iff.2 ⟨hup, hon⟩
      refine ⟨_, execSlotStart_greets s port index hlive ((peerAt_eq _ _).trans (if_pos hentry)),
        (slotBegun_only s index n).trans (greeting_only u n), ?_⟩
      rw [greeting_port]
      refine ⟨hindex, hlseq, hrxlseq, hnacked, hpeer, hroom, hcal0, hcal1, hgiven, htaken, hretry, htxctr, slotBegun_within s index n,
        slotBegun_cycle s index n, fun hsilent => ?_, fun _ _ _ => ⟨⟨?_, fun d hd => ?_⟩, u.preambleBytes n, ?_, ?_⟩⟩
      · rcases hsilent with h | h | h
        · exact absurd (hup.symm.trans h) (by decide)
        · exact absurd (hon.symm.trans h) (by decide)
        · exact absurd (hentry.symm.trans h) (by decide)
      · exact (count_flits _ (by decide)).trans (by rw [hcounters])
      · exact (count_other _ hd).trans (by rw [hcounters])
      · exact congrArg (· ++ _) hout
      · have hfields := preambleBytes_fields u n
        simp only [u, hindex, hplane, hcleared, hgiven] at hfields
        exact hfields
    · have hsilent : (u.fport n).up = false ∨ s.accepted 3 = false ∨
          (tget 0 (if (u.fport n).bank then (u.fport n).cal1 else (u.fport n).cal0) index.toNat).getLsbD 15 = false := by
        simpa only [not_and_or, Bool.not_eq_true] using hgoes
      have hskip : u.portUp n = false ∨ (u.fport n).peerAt index.toNat = none := by
        rcases hsilent with h | h | h
        · exact .inl (portUp_eq_false (.inl h))
        · exact .inl (portUp_eq_false (.inr h))
        · exact .inr ((peerAt_eq _ _).trans (if_neg (by rw [h]; decide)))
      exact ⟨_, execSlotStart_silent s port index hskip, slotBegun_only s index n, hindex, hlseq, hrxlseq, hnacked, hpeer, hroom, hcal0, hcal1,
        hgiven, htaken, hretry, htxctr, slotBegun_within s index n, slotBegun_cycle s index n, fun _ => ⟨hout, hcounters⟩,
        fun hup hon hentry => absurd ⟨hup, hon, hentry⟩ hgoes⟩
  · refine ⟨_, rfl, onlyPort_updFport s n _, ?_⟩
    rw [fport_updFport_same]
    refine ⟨rfl, rfl, rfl, rfl, fun h => if_pos h, fun h => if_neg (by rw [h]; decide), fun i hi => ?_⟩
    have hbank := tget_map_pairs (0 : BitVec 32) (fun i => nth 0 entries i &&& 0x83FF) (List.mem_range.2 hi)
    cases hb : (s.fport n).bank <;> exact hbank
  · exact ⟨_, rfl, onlyPort_updFport s n _, fport_updFport_same s n _⟩

theorem preambles : Claims.Preambles := by
  intro s port x n p word peer entry right counts
  refine ⟨fun h => execPreamble_absent (portUp_eq_false h), fun hup hon => ?_⟩
  have hlive : s.portUp n = true := Bool.and_eq_true_iff.2 ⟨hup, hon⟩
  have hmisses : p.misses x = false ↔ right := misses_eq_false
  refine ⟨fun hcrc => ?_, fun hcrc hwrong => ?_, fun hcrc hright hboot => ?_⟩
  · refine ⟨_, execPreamble_crc hlive hcrc, rfl, ?_⟩
    rw [fport_updFport_same]
    exact ⟨⟨count_events p (by decide), fun d hd => count_other p hd⟩, rfl⟩
  · have hmiss : p.misses x = true := by rwa [← hmisses, Bool.not_eq_false] at hwrong
    refine ⟨_, execPreamble_mismatch hlive hcrc hmiss, ?_⟩
    beta_reduce
    rw [fport_raise, fport_updFport_same]
    exact ⟨by rw [raise_rest]; rfl, ⟨count_events p (by decide), fun d hd => count_other p hd⟩, rfl,
      raised_raise (s.updFport n fun p => { p.count cMismatch with up := false }) 6⟩
  · refine ⟨_, execPreamble_greets hlive hcrc (hmisses.2 hright) hboot, rfl, ?_⟩
    have hport : (s.greeted n x).fport n = p.greeted x := fport_updFport_same _ n _
    rw [hport]
    refine ⟨rfl, rfl, rfl, rfl, hup, fun d => mem_preambleClosed, count_flits p (by decide), fun d hd => count_other p hd, rfl,
      tget_tput_same _ _ _ _, keysAfter_others _ _ _, fun k ks hks => ?_⟩
    exact (keysAfter_own _ _ _).trans (congrArg (ownKeysAfter _) hks)

/-- Settles O43: a slot begins with one update of its port and its preamble, and a preamble that comes has one of four ends. -/
theorem slotsBegin : Obligations.SlotsBegin := by
  unfold Obligations.SlotsBegin
  exact ⟨slotsStart, preambles⟩

end Sys2Proof

/-!
# Commands on saved images (O34)

The doorbell of a slot starts the work of its row; each command then ends with a status, moves images, starts a migration or restores a
phrase: one equation for each end.
-/
namespace Sys2Proof.Machine

/-! ### The doorbell (R485) -/

/-- A command under the number of its doorbell. -/
def CsCmd.rung (c : CsCmd) (num : Nat) : CsCmd := { c with busy := true, num := num, begun := false, status := none, result := 0 }

/-- The command of a slot has started. -/
def State.rungAt (s : State) (n : Nat) : State := (s.updCs n fun c => c.rung s.nextId).bump

section
variable {s : State} {n : Nat}

theorem cs_rungAt (s : State) (n : Nat) : (s.rungAt n).cs n = (s.cs n).rung s.nextId := cs_updCs_same s n fun c => c.rung s.nextId

theorem doorbell_idle (hbusy : (s.cs n).busy = false) : s.doorbell n = (s.rungAt n).csWork n := if_neg (by rw [hbusy]; decide)

/-- What a started command does, by its row. -/
theorem csWork_rungAt (hformed : (s.cs n).malformed = false) (hfirst : (s.rungAt n).csWaits n = false) :
    (s.rungAt n).csWork n = match (s.cs n).op.toNat, (s.cs n).whole with
      | 1, false => (s.rungAt n).saveOne n ((s.rungAt n).cs n)
      | 1, true => (s.rungAt n).saveWhole n ((s.rungAt n).cs n)
      | 2, false => (s.rungAt n).swapOne n ((s.rungAt n).cs n) true
      | 2, true => (s.rungAt n).swapWhole n ((s.rungAt n).cs n) true
      | 3, false => (s.rungAt n).swapOne n ((s.rungAt n).cs n) false
      | 3, true => (s.rungAt n).swapWhole n ((s.rungAt n).cs n) false
      | 4, _ => (s.rungAt n).migrateOne n ((s.rungAt n).cs n)
      | _, _ => (s.rungAt n).restoreOne n ((s.rungAt n).cs n) := by
  have hbusy : ((s.rungAt n).cs n).busy = true := by rw [cs_rungAt]; rfl
  have hstatus : ((s.rungAt n).cs n).status.isSome = false := by rw [cs_rungAt]; rfl
  have hformed' : ((s.rungAt n).cs n).malformed = false := by rw [cs_rungAt]; exact hformed
  have hop : ((s.rungAt n).cs n).op = (s.cs n).op := by rw [cs_rungAt]; rfl
  have hwhole : ((s.rungAt n).cs n).whole = (s.cs n).whole := by rw [cs_rungAt]; rfl
  rw [State.csWork]
  simp only [hbusy, hstatus, hfirst, hformed', hop, hwhole, Bool.not_true, Bool.or_self, Bool.false_eq_true, if_false] <;> rfl

end

/-! ### The rows of the table -/

section
variable {s : State} {slot : BitVec 4} (hbusy : (s.cs slot.toNat).busy = false) (hformed : (s.cs slot.toNat).malformed = false)
  (hfirst : (s.rungAt slot.toNat).csWaits slot.toNat = false)
include hbusy hformed hfirst

theorem exec_swap {out : Bool} (hop : (s.cs slot.toNat).op = if out then 2 else 3) (hone : (s.cs slot.toNat).flags.getLsbD 0 = false) :
    exec (if out then .swapout slot else .swapin slot) s =
      .next ((s.rungAt slot.toNat).swapOne slot.toNat ((s.rungAt slot.toNat).cs slot.toNat) out) := by
  have hwhole : (s.cs slot.toNat).whole = false := hone
  have hwork := csWork_rungAt hformed hfirst
  rw [hop, hwhole] at hwork
  cases out with
  | true =>
    refine (ring_of_is (op := 2) (by rw [hop]; rfl) hwhole).trans ?_
    rw [doorbell_idle hbusy, hwork]
    rfl
  | false =>
    refine (ring_of_is (op := 3) (by rw [hop]; rfl) hwhole).trans ?_
    rw [doorbell_idle hbusy, hwork]
    rfl

theorem exec_swapWholectx {out : Bool} (hop : (s.cs slot.toNat).op = if out then 2 else 3) (hall : (s.cs slot.toNat).flags.getLsbD 0 = true) :
    exec (if out then .swapoutWholectx slot else .swapinWholectx slot) s =
      .next ((s.rungAt slot.toNat).swapWhole slot.toNat ((s.rungAt slot.toNat).cs slot.toNat) out) := by
  have hwhole : (s.cs slot.toNat).whole = true := hall
  have hwork := csWork_rungAt hformed hfirst
  rw [hop, hwhole] at hwork
  cases out with
  | true =>
    refine (ring_of_is (op := 2) (by rw [hop]; rfl) hwhole).trans ?_
    rw [doorbell_idle hbusy, hwork]
    rfl
  | false =>
    refine (ring_of_is (op := 3) (by rw [hop]; rfl) hwhole).trans ?_
    rw [doorbell_idle hbusy, hwork]
    rfl

theorem exec_migrate (hop : (s.cs slot.toNat).op = 4) (hone : (s.cs slot.toNat).flags.getLsbD 0 = false) :
    exec (.migrate slot) s = .next ((s.rungAt slot.toNat).migrateOne slot.toNat ((s.rungAt slot.toNat).cs slot.toNat)) := by
  have hwhole : (s.cs slot.toNat).whole = false := hone
  have hwork := csWork_rungAt hformed hfirst
  rw [hop, hwhole] at hwork
  refine (ring_of_is (op := 4) (by rw [hop]; rfl) hwhole).trans ?_
  rw [doorbell_idle hbusy, hwork]
  rfl

theorem exec_restore (hop : (s.cs slot.toNat).op = 5) (hone : (s.cs slot.toNat).flags.getLsbD 0 = false) :
    exec (.restore slot) s = .next ((s.rungAt slot.toNat).restoreOne slot.toNat ((s.rungAt slot.toNat).cs slot.toNat)) := by
  have hwhole : (s.cs slot.toNat).whole = false := hone
  have hwork := csWork_rungAt hformed hfirst
  rw [hop, hwhole] at hwork
  refine (ring_of_is (op := 5) (by rw [hop]; rfl) hwhole).trans ?_
  rw [doorbell_idle hbusy, hwork]
  rfl

end

/-- A command that ends has its status, and changes nothing but its slot. -/
theorem status_csEnd (s : State) (n st : Nat) : ((s.csEnd n st).cs n).status = some (BitVec.ofNat 8 st) := by
  rw [State.csEnd, cs_updCs_same]

/-! ### Swaps (R470) -/

/-- The image of a noun moves to `a`. -/
def State.moveOne (s : State) (n : Word) (st a : Nat) : State :=
  (s.updMem (moveBytes (s.imageOf n) a (imageLenAt s.mem (s.imageOf n)))).setLeaf n st 0 0 0 (wordOf a)

theorem moveImages_cons (s : State) (n : Word) (ns : List Word) (st a : Nat) : s.moveImages (n :: ns) st a =
    (s.moveOne n st a).moveImages ns st (alignUp (a + imageLenAt s.mem (s.imageOf n)) 4096) := by
  rw [State.moveImages, List.foldl_cons, State.moveImages, State.moveOne]

/-- A state under other registers of the host, and another next number. -/
def State.hosted (s : State) (h : HostSide) (k : Nat) : State := { s with host := h, nextId := k }

theorem setLeaf_hosted (s : State) (h : HostSide) (k : Nat) (n : Word) (st a : Nat) (f : Mem → Mem) :
    ((s.hosted h k).updMem f).setLeaf n st 0 0 0 (wordOf a) = ((s.updMem f).setLeaf n st 0 0 0 (wordOf a)).hosted h k := by
  have hleaf : ((s.hosted h k).updMem f).leafOf n = (s.updMem f).leafOf n := rfl
  rw [State.setLeaf, State.setLeaf, hleaf]
  split <;> rfl

/-- Images move in the same way whatever the host's registers hold. -/
theorem moveImages_hosted (s : State) (h : HostSide) (k : Nat) (ns : List Word) (st a : Nat) :
    (s.hosted h k).moveImages ns st a = ((s.moveImages ns st a).1.hosted h k, (s.moveImages ns st a).2) := by
  induction ns generalizing s a with
  | nil => rfl
  | cons n ns ih =>
    have himage : (s.hosted h k).imageOf n = s.imageOf n := rfl
    have hmem : (s.hosted h k).mem = s.mem := rfl
    have hstep : (s.hosted h k).moveOne n st a = (s.moveOne n st a).hosted h k := by
      rw [State.moveOne, State.moveOne, himage, hmem, setLeaf_hosted]
    rw [moveImages_cons, moveImages_cons, hstep, ih, himage, hmem]

theorem mem_moveImages_rungAt (s : State) (j : Nat) (ns : List Word) (st a : Nat) :
    ((s.rungAt j).moveImages ns st a).1.mem = (s.moveImages ns st a).1.mem :=
  congrArg (fun x => x.1.mem) (moveImages_hosted s (s.rungAt j).host (s.rungAt j).nextId ns st a)

section
variable {s : State} {n : Nat} {c : CsCmd} {out : Bool} {l : Leaf} (htarget : s.csTarget c.target = .ok l)
include htarget

theorem swapOne_wrongState (hstate : l.state ≠ swapFrom out) : s.swapOne n c out = s.csEnd n 1 := by
  rw [State.swapOne, htarget]
  exact if_pos (bne_iff_ne.2 hstate)

variable (hstate : l.state = swapFrom out)
include hstate

theorem swapOne_badArea (harea : s.swapArea out c.addr.toNat
    ((s.nounGroup c.target (swapFrom out)).foldl (fun n x => n + alignUp (imageLenAt s.mem (s.imageOf x)) 4096) 0) = false) :
    s.swapOne n c out = s.csEnd n 4 := by
  rw [State.swapOne, htarget]
  refine (if_neg (by simp [hstate])).trans (if_pos ?_)
  rw [harea]
  rfl

theorem swapOne_moves (harea : s.swapArea out c.addr.toNat
    ((s.nounGroup c.target (swapFrom out)).foldl (fun n x => n + alignUp (imageLenAt s.mem (s.imageOf x)) 4096) 0) = true) :
    s.swapOne n c out = (s.moveImages (s.nounGroup c.target (swapFrom out)) (swapTo out) c.addr.toNat).1.csEnd n 0 := by
  rw [State.swapOne, htarget]
  refine (if_neg (by simp [hstate])).trans (if_neg ?_)
  rw [harea]
  decide

end

theorem swapArea_unaligned (s : State) (out : Bool) {a : Nat} (n : Nat) (h : a % 4096 ≠ 0) : s.swapArea out a n = false := by
  cases out <;> simp [State.swapArea, State.poolArea, vaultArea, h]

/-- An image that has moved, with its noun's entry. -/
theorem moveOne_moves {s : State} {x : Word} {leaf a : Nat} (hwf : Memory.wf s.mem)
    (hleaf : (s.updMem (moveBytes (s.imageOf x) a (imageLenAt s.mem (s.imageOf x)))).leafOf x = some leaf)
    (hapart : leaf + 16 ≤ a ∨ a + imageLenAt s.mem (s.imageOf x) ≤ leaf) {st : Nat} (hst : st < 8) :
    let m := (s.moveOne x st a).mem
    let len := imageLenAt s.mem (s.imageOf x)
    readBytes m a len = readBytes s.mem (s.imageOf x) len ∧ (BitVec.ofNat 64 (readNat m leaf 8)).extractLsb' 61 3 = BitVec.ofNat 3 st ∧
    readNat m (leaf + 8) 8 = a % 2 ^ 64 ∧
    ∀ k, (k < a ∨ a + len ≤ k) → (k < leaf ∨ leaf + 16 ≤ k) → readByte m k = readByte s.mem k := by
  intro m len
  let v := s.updMem (moveBytes (s.imageOf x) a len)
  have hv : v.mem = moveBytes (s.imageOf x) a len s.mem := updMem_mem ..
  have hvwf : Memory.wf v.mem := hv ▸ moveBytes_wf hwf ..
  have hother {k : Nat} (hk : k < leaf ∨ leaf + 16 ≤ k) : readByte m k = readByte (moveBytes (s.imageOf x) a len s.mem) k :=
    (readByte_setLeaf_other _ _ _ _ _ hvwf hleaf hk).trans (by rw [hv])
  refine ⟨?_, state_setLeaf _ _ _ _ hvwf hleaf hst, ?_, fun k hk hk' => ?_⟩
  · rw [← readBytes_moveBytes hwf (s.imageOf x) a len]
    exact readBytes_congr _ _ _ _ fun i hi => hother (by omega)
  · exact (readNat_setLeaf_word1 _ _ _ _ _ hvwf hleaf).trans (BitVec.toNat_ofNat _ _)
  · rw [hother hk', readByte_moveBytes_other hwf hk]

theorem swapWhole_empty {s : State} {n : Nat} {c : CsCmd} {out : Bool} {x : Ctx} (hctx : tfind s.contexts c.target.toNat = some x)
    (hlive : x.killed = false) (hnouns : s.nounsAt c.target.toNat (swapFrom out) = [])
    (hcores : ((s.ctx c.target.toNat).cores.filter fun e => inVault e.2.addr == out) = [])
    (harea : s.swapArea out c.addr.toNat 4096 = true) (hlimit : 4096 ≤ c.limit.toNat) :
    s.swapWhole n c out =
      (s.updMem (pokes [(c.addr.toNat, 8, 0), (c.addr.toNat + 8, 8, 0), (c.addr.toNat + 16, 8, 4096), (c.addr.toNat + 24, 40, 0)])).csEnd n 0 := by
  have hcontext : s.csContext c.target.toNat = none := by
    rw [State.csContext, hctx]
    exact if_neg (by rw [hlive]; decide)
  have hlen : areaLen [] = 4096 := rfl
  have hfits : decide (4096 > c.limit.toNat) = false := decide_eq_false (Nat.not_lt.2 hlimit)
  simp only [State.swapWhole, hcontext, hnouns, hcores, List.map_nil, List.append_nil, hlen, harea, hfits, Bool.not_true, Bool.or_self,
    Bool.false_eq_true, if_false]
  rfl

/-- A directory written over an area: its three counts, and what lies around it. -/
theorem directory_written {m : Mem} (hwf : Memory.wf m) (a : Nat) :
    let m' := pokes [(a, 8, 0), (a + 8, 8, 0), (a + 16, 8, 4096), (a + 24, 40, 0)] m
    readNat m' a 8 = 0 ∧ readNat m' (a + 8) 8 = 0 ∧ readNat m' (a + 16) 8 = 4096 ∧
    ∀ k, k < a ∨ a + 64 ≤ k → readByte m' k = readByte m k := by
  have h1 := writeNat_wf a 8 0 hwf
  have h2 := writeNat_wf (a + 8) 8 0 h1
  have h3 := writeNat_wf (a + 16) 8 4096 h2
  simp only [pokes, List.foldl_cons, List.foldl_nil]
  refine ⟨?_, ?_, ?_, fun k hk => ?_⟩
  · rw [readNat_writeNat_other h3 _ (by omega), readNat_writeNat_other h2 _ (by omega), readNat_writeNat_other h1 _ (by omega),
      readNat_writeNat _ _ _ hwf, Nat.zero_mod]
  · rw [readNat_writeNat_other h3 _ (by omega), readNat_writeNat_other h2 _ (by omega), readNat_writeNat _ _ _ h1, Nat.zero_mod]
  · rw [readNat_writeNat_other h3 _ (by omega), readNat_writeNat _ _ _ h2]
    rfl
  · rw [readByte_writeNat_other _ (by omega) h3, readByte_writeNat_other _ (by omega) h2, readByte_writeNat_other _ (by omega) h1,
      readByte_writeNat_other _ (by omega) hwf]

end Sys2Proof.Machine

namespace Sys2Proof

open Machine

theorem swaps : Claims.Swaps := by
  intro s slot out c n i iw from' goal a hop hbusy hformed hwf u hfirst
  have hcmd : u.cs n = c.rung s.nextId := cs_rungAt s n
  have hfrom : from' = swapFrom out := by cases out <;> rfl
  have hgoal : goal = swapTo out := by cases out <;> rfl
  refine ⟨fun hone l htarget => ?_, fun hall hctx hnouns hcores harea hlimit => ?_⟩
  · have hrun : exec i s = .next (u.swapOne n (u.cs n) out) := exec_swap hbusy hformed hfirst hop hone
    have htarget' : u.csTarget (u.cs n).target = .ok l := by rw [hcmd]; exact htarget
    have haddr : (u.cs n).addr.toNat = a := by rw [hcmd]; rfl
    have hnoun : (u.cs n).target = c.target := by rw [hcmd]; rfl
    have hmem (ns : List Word) : ((u.moveImages ns (swapTo out) a).1.csEnd n 0).mem = (s.moveImages ns (swapTo out) a).1.mem :=
      (csEnd_mem ..).trans (mem_moveImages_rungAt s n ns _ a)
    rw [hfrom, hgoal]
    refine ⟨fun hstate => ?_, fun hstate hbad => ?_, ?_, ?_⟩
    · exact ⟨_, hrun.trans (congrArg _ (swapOne_wrongState htarget' hstate)), status_csEnd _ _ _, rfl⟩
    · have hskip := swapOne_badArea (n := n) htarget' hstate (swapArea_unaligned u out _ (haddr.symm ▸ hbad))
      exact ⟨_, hrun.trans (congrArg _ hskip), status_csEnd _ _ _, rfl⟩
    · intro hstate ns harea
      have hmoves := swapOne_moves (n := n) htarget' hstate (by rw [haddr, hnoun]; exact harea)
      rw [haddr, hnoun] at hmoves
      exact ⟨_, hrun.trans (congrArg _ hmoves), status_csEnd _ _ _, hmem ns⟩
    · intro hstate hgroup leaf hleaf src len harea hleaf' hapart
      have hgroup' : u.nounGroup c.target (swapFrom out) = [c.target] := hgroup
      have hmoves := swapOne_moves (n := n) htarget' hstate (by
        rw [haddr, hnoun, hgroup', List.foldl_cons, List.foldl_nil, Nat.zero_add]
        exact harea)
      rw [haddr, hnoun, hgroup'] at hmoves
      refine ⟨_, hrun.trans (congrArg _ hmoves), status_csEnd _ _ _, ?_⟩
      have hone : (s.moveImages [c.target] (swapTo out) a).1 = s.moveOne c.target (swapTo out) a := by rw [moveImages_cons]; rfl
      obtain ⟨hbytes, hst, hplace, hframe⟩ := moveOne_moves (x := c.target) (a := a) hwf hleaf' hapart (st := swapTo out) (by cases out <;> decide)
      rw [Nat.mod_eq_of_lt c.addr.isLt] at hplace
      rw [hmem, hone]
      exact ⟨hbytes, hst, hplace, hframe⟩
  · obtain ⟨x, hx, hlive⟩ := hctx
    have hrun : exec iw s = .next (u.swapWhole n (u.cs n) out) := exec_swapWholectx hbusy hformed hfirst hop hall
    have hempty : u.swapWhole n (c.rung s.nextId) out = _ :=
      swapWhole_empty (s := u) (c := c.rung s.nextId) hx hlive (hfrom ▸ hnouns) hcores harea hlimit
    rw [hcmd, hempty] at hrun
    refine ⟨_, hrun, status_csEnd _ _ _, ?_⟩
    rw [csEnd_mem, updMem_mem]
    exact directory_written hwf a

end Sys2Proof

namespace Sys2Proof.Machine

/-! ### Locations (R195) -/

theorem moduleOfLoc_eq (loc : Nat) : moduleOfLoc loc = loc / 2 ^ 15 % 1024 := by
  rw [moduleOfLoc, fieldNat, Nat.shiftRight_eq_div_pow]
  rfl

/-- The core within its cluster. -/
theorem coreField_eq (loc : Nat) : fieldNat loc 4 5 = loc / 16 % 32 := by
  rw [fieldNat, Nat.shiftRight_eq_div_pow]
  rfl

theorem coreOfLoc_eq (loc : Nat) :
    coreOfLoc loc = loc / 2 ^ 13 % 4 * 384 + loc / 2 ^ 9 % 16 * 24 + loc / 16 % 32 := by
  simp only [coreOfLoc, fieldNat, Nat.shiftRight_eq_div_pow]
  rfl

/-! ### MIGRATE (R175) -/

/-- The migration that starts for a noun. -/
def State.migrationOf (s : State) (place : Nat) (n : Word) : Migration :=
  let h := readNat s.mem (s.imageOf n) 8
  { noun := n, image := s.imageOf n, dest := place, shadow := BitVec.ofNat 4 h, sigp := BitVec.ofNat 16 (h / 2 ^ 16), wakep := h.testBit 4, fwd := []
    queue := forwardAt s.mem (s.imageOf n), arrives := s.freeArea (clusterOf (coreOfLoc place)) }

section
variable (s : State) (place : Nat) (n : Word)

theorem startMigration_eq : s.startMigration place n =
    { (s.drawn.setLeaf n stMigrating 0 0 place (wordOf (s.imageOf n))) with migs := s.migs ++ [s.migrationOf place n] } := rfl

theorem migs_startMigration : (s.startMigration place n).migs = s.migs ++ [s.migrationOf place n] := rfl

theorem host_startMigration : (s.startMigration place n).host = s.host := host_setLeaf stMigrating 0 0 place (wordOf (s.imageOf n)) s.drawn n

/-- The shadow of a migration is taken from the delivery header of the image. -/
theorem migrationOf_shadow : let h : Word := BitVec.ofNat 64 (readNat s.mem (s.imageOf n) 8)
    let g := s.migrationOf place n
    g.shadow = h.extractLsb' 0 4 ∧ g.wakep = h.getLsbD 4 ∧ g.sigp = h.extractLsb' 16 16 := by
  have hlt : readNat s.mem (s.imageOf n) 8 < 2 ^ 64 := readNat_lt s.mem (s.imageOf n) 8
  refine ⟨?_, ?_, ?_⟩
  · rw [extractLsb'_ofNat_field, Nat.mod_eq_of_lt hlt, pow_zero, Nat.div_one]
    rfl
  · rw [BitVec.getLsbD_ofNat]
    rfl
  · rw [extractLsb'_ofNat_field, Nat.mod_eq_of_lt hlt]
    rfl

end

/-- The migrations of some nouns start, in order. -/
def State.startMigrations (s : State) (place : Nat) (ns : List Word) : State := ns.foldl (fun s n => s.startMigration place n) s

theorem mem_migs_startMigrations {s : State} {place : Nat} {ns : List Word} {g : Migration} (h : g ∈ s.migs) :
    g ∈ (s.startMigrations place ns).migs := by
  induction ns generalizing s with
  | nil => exact h
  | cons n ns ih => exact ih (by rw [migs_startMigration]; exact List.mem_append_left _ h)

/-- Each noun of a group has its migration. -/
theorem startMigrations_starts {s : State} {place : Nat} {ns : List Word} {x : Word} (hx : x ∈ ns) :
    ∃ g ∈ (s.startMigrations place ns).migs, g.noun = x ∧ g.dest = place ∧ g.fwd = [] := by
  induction ns generalizing s with
  | nil => exact absurd hx List.not_mem_nil
  | cons n ns ih =>
    rcases List.mem_cons.1 hx with rfl | hx
    · have hnew : s.migrationOf place x ∈ (s.startMigration place x).migs := by
        rw [migs_startMigration]
        exact List.mem_append_right _ (List.mem_singleton.2 rfl)
      exact ⟨s.migrationOf place x, mem_migs_startMigrations (s := s.startMigration place x) hnew, rfl, rfl, rfl⟩
    · exact ih hx

theorem cs_startMigration (s : State) (place : Nat) (n : Word) (j : Nat) : (s.startMigration place n).cs j = s.cs j := by
  rw [State.cs, State.cs, host_startMigration]

/-- A migration writes its noun's entry only. -/
theorem startMigration_entry {s : State} {place : Nat} {n : Word} {leaf : Nat} (hwf : Memory.wf s.mem) (hleaf : s.leafOf n = some leaf) :
    (BitVec.ofNat 64 (readNat (s.startMigration place n).mem leaf 8)).extractLsb' 61 3 = 4 ∧
    ∀ k, (k < leaf ∨ leaf + 16 ≤ k) → readByte (s.startMigration place n).mem k = readByte s.mem k := by
  rw [startMigration_eq]
  exact ⟨state_setLeaf _ _ _ _ (s := s.drawn) hwf hleaf (by decide), fun k hk => readByte_setLeaf_other _ _ _ _ _ (s := s.drawn) hwf hleaf hk⟩

section
variable {s : State} {n : Nat} {c : CsCmd} {l : Leaf} (htarget : s.csTarget c.target = .ok l) (hfresh : c.begun = false)
include htarget hfresh

theorem migrateOne_wrongState (hstate : l.state ≠ stSaved) : s.migrateOne n c = s.csEnd n 1 := by
  rw [State.migrateOne, htarget]
  exact (if_neg (by rw [hfresh]; decide)).trans (if_pos (bne_iff_ne.2 hstate))

theorem migrateOne_starts (hstate : l.state = stSaved) (haway : moduleOfLoc c.place.toNat ≠ s.moduleNo) :
    s.migrateOne n c = (s.startMigrations c.place.toNat (s.nounGroup c.target stSaved)).updCs n fun c => { c with begun := true } := by
  have hhere : (moduleOfLoc c.place.toNat == s.moduleNo) = false := beq_eq_false_iff_ne.2 haway
  rw [State.migrateOne, htarget]
  refine (if_neg (by rw [hfresh]; decide)).trans ((if_neg (by simp [hstate])).trans (if_neg ?_))
  rw [hhere]
  simp

end

/-! ### RESTORE (R478) -/

section
variable {s : State} {n : Nat} {c : CsCmd} {l : Leaf} (htarget : s.csTarget c.target = .ok l)
include htarget

theorem restoreOne_wrongState (hstate : l.state ≠ stSaved) : s.restoreOne n c = s.csEnd n 1 := by
  rw [State.restoreOne, htarget]
  exact if_pos (bne_iff_ne.2 hstate)

variable (hstate : l.state = stSaved)
include hstate

/-- No place is named where a phrase of this module can run. -/
theorem restoreOne_noPlace (hplace : moduleOfLoc c.place.toNat ≠ s.moduleNo ∨ 24 ≤ fieldNat c.place.toNat 4 5 ∨
    s.regionOk (((s.phraseByNoun c.target).map fun p => (s.phr (s.mainOf p)).noun).getD c.target) (coreOfLoc c.place.toNat) = false) :
    s.restoreOne n c = s.csEnd n 3 := by
  rw [State.restoreOne, htarget]
  refine (if_neg (by simp [hstate])).trans (if_pos ?_)
  rcases hplace with h | h | h <;> simp [h]

variable (hhere : moduleOfLoc c.place.toNat = s.moduleNo) (hcore : fieldNat c.place.toNat 4 5 < 24)
  (hregion : s.regionOk (((s.phraseByNoun c.target).map fun p => (s.phr (s.mainOf p)).noun).getD c.target) (coreOfLoc c.place.toNat) = true)
include hhere hcore hregion

theorem restoreOne_eq : s.restoreOne n c =
    match s.restoreAt (((s.phraseByNoun c.target).map fun p => (s.phr (s.mainOf p)).noun).getD c.target) (coreOfLoc c.place.toNat)
      (slotOfLoc c.place.toNat) with
    | some s1 => s1.csEnd n 0
    | none => s.csEnd n 3 := by
  rw [State.restoreOne, htarget]
  refine (if_neg (by simp [hstate])).trans (if_neg ?_)
  simp [hhere, hcore, hregion]

theorem restoreOne_placed {v : State} (h : s.restoreAt (((s.phraseByNoun c.target).map fun p => (s.phr (s.mainOf p)).noun).getD c.target)
    (coreOfLoc c.place.toNat) (slotOfLoc c.place.toNat) = some v) : s.restoreOne n c = v.csEnd n 0 := by
  rw [restoreOne_eq htarget hstate hhere hcore hregion, h]

theorem restoreOne_full (h : s.restoreAt (((s.phraseByNoun c.target).map fun p => (s.phr (s.mainOf p)).noun).getD c.target)
    (coreOfLoc c.place.toNat) (slotOfLoc c.place.toNat) = none) : s.restoreOne n c = s.csEnd n 3 := by
  rw [restoreOne_eq htarget hstate hhere hcore hregion, h]

end

section
variable {s : State} {slot : BitVec 4} {l : Leaf} (hbusy : (s.cs slot.toNat).busy = false) (hformed : (s.cs slot.toNat).malformed = false)
  (hfirst : (s.rungAt slot.toNat).csWaits slot.toNat = false) (hone : (s.cs slot.toNat).flags.getLsbD 0 = false)
include hbusy hformed hfirst hone

theorem exec_migrateOne (hop : (s.cs slot.toNat).op = 4) :
    exec (.migrate slot) s = .next ((s.rungAt slot.toNat).migrateOne slot.toNat ((s.cs slot.toNat).rung s.nextId)) := by
  rw [exec_migrate hbusy hformed hfirst hop hone, cs_rungAt]

theorem exec_restoreOne (hop : (s.cs slot.toNat).op = 5) :
    exec (.restore slot) s = .next ((s.rungAt slot.toNat).restoreOne slot.toNat ((s.cs slot.toNat).rung s.nextId)) := by
  rw [exec_restore hbusy hformed hfirst hop hone, cs_rungAt]

variable (htarget : s.csTarget (s.cs slot.toNat).target = .ok l) (hstate : l.state = stSaved)
include htarget hstate

/-- MIGRATE of a phrase without auxiliaries: its migration, and its entry. -/
theorem migrate_moves (hop : (s.cs slot.toNat).op = 4) (haway : moduleOfLoc (s.cs slot.toNat).place.toNat ≠ s.moduleNo)
    (hgroup : s.nounGroup (s.cs slot.toNat).target stSaved = [(s.cs slot.toNat).target]) :
    exec (.migrate slot) s = .next (((s.rungAt slot.toNat).startMigration (s.cs slot.toNat).place.toNat (s.cs slot.toNat).target).updCs
      slot.toNat fun c => { c with begun := true }) := by
  have hstarts : (s.rungAt slot.toNat).migrateOne slot.toNat ((s.cs slot.toNat).rung s.nextId) = _ :=
    migrateOne_starts (s := s.rungAt slot.toNat) (n := slot.toNat) (c := (s.cs slot.toNat).rung s.nextId) (l := l) htarget rfl hstate haway
  have hgroup' : (s.rungAt slot.toNat).nounGroup ((s.cs slot.toNat).rung s.nextId).target stSaved = [(s.cs slot.toNat).target] := hgroup
  rw [exec_migrateOne hbusy hformed hfirst hone hop, hstarts, hgroup']
  rfl

/-- RESTORE, by whether the place has room. -/
theorem restore_byRoom (hop : (s.cs slot.toNat).op = 5) {core : Nat} (hcoreEq : coreOfLoc (s.cs slot.toNat).place.toNat = core)
    (hhere : moduleOfLoc (s.cs slot.toNat).place.toNat = s.moduleNo) (hcore : fieldNat (s.cs slot.toNat).place.toNat 4 5 < 24) {main : Word}
    (hmain : ((s.phraseByNoun (s.cs slot.toNat).target).map fun p => (s.phr (s.mainOf p)).noun).getD (s.cs slot.toNat).target = main) :
    (s.regionOk main core = false → exec (.restore slot) s = .next ((s.rungAt slot.toNat).csEnd slot.toNat 3)) ∧
    (s.regionOk main core = true →
      (∀ v, (s.rungAt slot.toNat).restoreAt main core (slotOfLoc (s.cs slot.toNat).place.toNat) = some v →
        exec (.restore slot) s = .next (v.csEnd slot.toNat 0)) ∧
      ((s.rungAt slot.toNat).restoreAt main core (slotOfLoc (s.cs slot.toNat).place.toNat) = none →
        exec (.restore slot) s = .next ((s.rungAt slot.toNat).csEnd slot.toNat 3))) := by
  subst hcoreEq hmain
  rw [exec_restoreOne hbusy hformed hfirst hone hop]
  have htarget' : (s.rungAt slot.toNat).csTarget ((s.cs slot.toNat).rung s.nextId).target = .ok l := htarget
  refine ⟨fun hregion => ?_, fun hregion => ⟨fun v hv => ?_, fun hv => ?_⟩⟩
  · rw [restoreOne_noPlace (n := slot.toNat) htarget' hstate (.inr (.inr hregion))]
  · rw [restoreOne_placed (n := slot.toNat) htarget' hstate hhere hcore hregion hv]
  · rw [restoreOne_full (n := slot.toNat) htarget' hstate hhere hcore hregion hv]

end

/-! ### The end of a command (R485) -/

/-- The slot of a command that has completed. -/
def CsCmd.finished (c : CsCmd) (st : BitVec 8) : CsCmd := { c with busy := false, status := none, result := csResult c st }

theorem csCommandComplete_ends {s : State} {slot : BitVec 4} {st : BitVec 8} (hbusy : (s.cs slot.toNat).busy = true)
    (hstatus : (s.cs slot.toNat).status = some st) :
    exec (.csCommandComplete slot) s = .next ((s.updCs slot.toNat fun c => c.finished st).raise 7) := by
  have hwork : s.csWork slot.toNat = s := by
    rw [State.csWork]
    exact if_pos (by rw [hstatus]; simp)
  show execCsCommandComplete slot s = _
  rw [execCsCommandComplete, if_pos hbusy, hwork, State.csFinish, hstatus]
  rfl

theorem cs_raise (s : State) (v n : Nat) : (s.raise v).cs n = s.cs n := by
  rw [State.raise]
  split <;> rfl

theorem csResult_eq (c : CsCmd) (st : BitVec 8) : csResult c st = BitVec.ofNat 64 (2 ^ 63 + c.tag.toNat * 2 ^ 32 + st.toNat) := rfl

theorem canRaise_updCs (s : State) (n v : Nat) (g : CsCmd → CsCmd) : (s.updCs n g).canRaise v = s.canRaise v := rfl

end Sys2Proof.Machine

namespace Sys2Proof

open Machine

theorem movesAndRestores : Claims.MovesAndRestores := by
  intro s slot c n u loc
  refine ⟨fun hbusy hformed hfirst hone l htarget => ⟨fun hop hstate => ?_, fun hop hstate haway => ?_, ?_, fun hop hstate => ?_,
    fun hop hstate hplace => ?_, ?_⟩, fun st hbusy hstatus => ?_⟩
  · have hends := migrateOne_wrongState (s := u) (n := n) (c := c.rung s.nextId) htarget rfl hstate
    exact ⟨_, (exec_migrateOne hbusy hformed hfirst hone hop).trans (congrArg _ hends), status_csEnd _ _ _, rfl⟩
  · have hstarts := migrateOne_starts (s := u) (n := n) (c := c.rung s.nextId) htarget rfl hstate ((moduleOfLoc_eq loc).symm ▸ haway)
    refine ⟨_, (exec_migrateOne hbusy hformed hfirst hone hop).trans (congrArg _ hstarts), ?_, fun x hx => startMigrations_starts hx⟩
    rw [cs_updCs_same]
  · intro hop hstate hgroup haway hwf leaf hleaf image h
    obtain ⟨hstate', hother⟩ := startMigration_entry (s := u) (place := loc) hwf hleaf
    obtain ⟨hshadow, hwake, hsig⟩ := migrationOf_shadow u loc c.target
    refine ⟨_, migrate_moves hbusy hformed hfirst hone htarget hstate hop ((moduleOfLoc_eq loc).symm ▸ haway) hgroup, ?_, ?_,
      ⟨u.migrationOf loc c.target, migs_startMigration u loc c.target, rfl, rfl, rfl, rfl, hshadow, hwake, hsig⟩, hstate', hother⟩
    · rw [cs_updCs_same]
    · rw [cs_updCs_same, cs_startMigration, cs_rungAt]
      rfl
  · have hends := restoreOne_wrongState (s := u) (n := n) (c := c.rung s.nextId) htarget hstate
    exact ⟨_, (exec_restoreOne hbusy hformed hfirst hone hop).trans (congrArg _ hends), status_csEnd _ _ _, rfl⟩
  · have hnoPlace := restoreOne_noPlace (s := u) (n := n) (c := c.rung s.nextId) htarget hstate (by
      rcases hplace with h | h
      · exact .inl ((moduleOfLoc_eq loc).symm ▸ h)
      · exact .inr (.inl (h.trans (coreField_eq loc).ge)))
    exact ⟨_, (exec_restoreOne hbusy hformed hfirst hone hop).trans (congrArg _ hnoPlace), status_csEnd _ _ _, rfl⟩
  · intro hop hstate hhere hcore main core
    obtain ⟨hno, hroom⟩ := restore_byRoom hbusy hformed hfirst hone htarget hstate hop (coreOfLoc_eq loc) ((moduleOfLoc_eq loc).trans hhere)
      ((coreField_eq loc).trans_lt hcore) (main := main) rfl
    by_cases hregion : s.regionOk main core = false
    · rw [if_pos hregion]
      exact ⟨_, hno hregion, status_csEnd _ _ _, rfl⟩
    · rw [if_neg hregion]
      obtain ⟨hplaced, hfull⟩ := hroom (Bool.eq_true_of_not_eq_false hregion)
      split
      · next v hv => exact ⟨_, hplaced v hv, status_csEnd _ _ _, rfl, rfl, rfl⟩
      · next hv => exact ⟨_, hfull hv, status_csEnd _ _ _, rfl⟩
  · refine ⟨_, csCommandComplete_ends hbusy hstatus, ?_⟩
    obtain ⟨hsent, hkept⟩ := raised_raise (s.updCs n fun c => c.finished st) 7
    rw [canRaise_updCs] at hsent hkept
    have hslot : ((s.updCs n fun c => c.finished st).raise 7).cs n = c.finished st := (cs_raise ..).trans (cs_updCs_same s n _)
    rw [hslot]
    refine ⟨csResult_eq c st, rfl, by rw [raise_rest]; rfl, fun hcan => (hsent hcan).1, fun hcan => ?_⟩
    rw [(hkept hcan).2, BitVec.getLsbD_or, BitVec.getLsbD_twoPow]
    simp

end Sys2Proof

/-!
# What a RESTORE brings back (O34, R385, R473, R474, R478)

The steps of `State.loadPhrase` in their order: the entry and the scratch of the core, the phrase's header, its fragments' records, their
places, and what of the phrase is queued again. The steps after the places keep what the statement speaks of (`State.restored`).
-/
namespace Sys2Proof.Machine

/-! ### The memory that a restore writes first -/

theorem not_inScratch_iff (k : Nat) : inScratch k = false ↔ k < scratchBase ∨ hostBase ≤ k := by
  simp only [inScratch, Bool.and_eq_false_iff, decide_eq_false_iff_not]
  omega

/-- The scratch of a core of the module is scratch. -/
theorem outside_scratchKey {core k : Nat} (hcore : core < 1536) (hk : inScratch k = false) :
    k < scratchKey core 0 ∨ scratchKey core 0 + scratchSize ≤ k := by
  have h := (not_inScratch_iff k).1 hk
  simp only [scratchKey, scratchBase, scratchSize, hostBase] at h ⊢
  omega

theorem readByte_clearRange_other {m : Mem} (hwf : Memory.wf m) {a n k : Nat} (h : k < a ∨ a + n ≤ k) :
    readByte (clearRange a n m) k = readByte m k := readByte_filter_kept (fun _ => by simpa using h) hwf

theorem bodies_updCore (s : State) (c : Nat) (g : Core → Core) : (s.updCore c g).bodies = s.bodies := rfl
theorem bodies_updCtx (s : State) (n : Nat) (g : Ctx → Ctx) : (s.updCtx n g).bodies = s.bodies := rfl
theorem bodies_rewritten (s : State) (a n : Nat) (g : Mem → Mem) : ((s.dropRange a n).updMem g).bodies = s.bodies := bodies_dropRange s a n

section
variable {s : State} {core k : Nat} (hwf : Memory.wf s.mem) (hcore : core < 1536) (hk : inScratch k = false) (ctx from' : Nat)
include hwf hcore hk

theorem readByte_claimCore : readByte (s.claimCore ctx core).mem k = readByte s.mem k := by
  refine keeps_ite (fun t => readByte t.mem k) (fun _ => rfl) fun _ => ?_
  rw [updCore_mem, updMem_mem, dropRange_mem, readByte_clearRange_other hwf (outside_scratchKey hcore hk)]

theorem readByte_loadCore : readByte (s.loadCore ctx from' core).mem k = readByte s.mem k := by
  unfold State.loadCore
  split
  · rfl
  · next x _ =>
    have hout : k < scratchKey core 0 ∨ scratchKey core 0 + (readBytes s.mem x.addr scratchSize).length ≤ k := by
      rw [length_readBytes]
      exact outside_scratchKey hcore hk
    rw [updCtx_mem, updCore_mem, updMem_mem, dropRange_mem, readByte_writeBytes_other _ hout hwf]

end

theorem bodies_claimCore (s : State) (ctx core : Nat) : (s.claimCore ctx core).bodies = s.bodies :=
  keeps_ite State.bodies (fun _ => rfl) fun _ => by rw [bodies_updCore, bodies_rewritten]

theorem bodies_loadCore (s : State) (ctx from' core : Nat) : (s.loadCore ctx from' core).bodies = s.bodies := by
  unfold State.loadCore
  split
  · rfl
  · rw [bodies_updCtx, bodies_updCore, bodies_rewritten]

theorem bodies_loadEngine (s : State) (ctx core : Nat) : (s.loadEngine ctx core).bodies = s.bodies := by
  unfold State.loadEngine
  split
  · rfl
  · exact keeps_ite State.bodies (fun _ => rfl) fun _ => rfl

theorem bodies_setLeaf (s : State) (n : Word) (state xstat xcause mdest : Nat) (w : Word) :
    (s.setLeaf n state xstat xcause mdest w).bodies = s.bodies := by rw [setLeaf_rest]; rfl

/-- The core of a restored phrase is made ready. -/
def State.readied (s : State) (ctx old core : Nat) (kept : Bool) : State :=
  if kept then s.loadEngine ctx core else (s.claimCore ctx core).loadCore ctx old core

theorem bodies_readied (s : State) (ctx old core : Nat) (kept : Bool) : (s.readied ctx old core kept).bodies = s.bodies :=
  keeps_ite State.bodies (fun _ => bodies_loadEngine ..) fun _ => (bodies_loadCore ..).trans (bodies_claimCore ..)

theorem readByte_readied {s : State} {core k : Nat} (hwf : Memory.wf s.mem) (hcore : core < 1536) (hk : inScratch k = false) (ctx old : Nat)
    (kept : Bool) : readByte (s.readied ctx old core kept).mem k = readByte s.mem k :=
  keeps_ite (fun t => readByte t.mem k) (fun _ => by rw [loadEngine_mem]) fun _ =>
    (readByte_loadCore (claimCore_canon s ctx core hwf) hcore hk ctx old).trans (readByte_claimCore hwf hcore hk ctx)

theorem rejoin_bodies (s : State) (p : Nat) (old : Phrase) (w : Nat) : (s.rejoin p old w).bodies = s.bodies := by
  unfold State.rejoin
  extract_lets q s1
  have h1 : s1.bodies = s.bodies := by
    simp only [s1]
    split
    · rfl
    · split <;> rfl
  refine keeps_ite State.bodies (fun _ => rfl) fun _ => ?_
  split
  · exact h1
  · exact h1

/-! ### What later steps leave of a restored phrase -/

/-- What an image's header says of a phrase, and its core. -/
def Phrase.head (q : Phrase) : Bool × Nat × Mask × BitVec 32 × BitVec 32 × Nat := (q.present, q.core, q.live, q.status, q.trapen, q.regs)

/-- What a fragment's record says, with its slot. -/
def Frag.body (f : Frag) : Bool × Bool × Option Nat × Word × Mask × BitVec 2 × Tbl Word × Wait :=
  (f.live, f.stopped, f.slot, f.pc, f.exec, f.tl, f.sregs, f.wait)

/-- The memory, the header of a phrase, its root, and the lane faults that wait. -/
def State.restored (s : State) (p : Nat) :=
  (s.mem, (s.phr p).head, (s.frag (fragKey p 0)).body, fun k => (s.frag k).ready)

theorem restored_of_bodies {s t : State} (hmem : t.mem = s.mem) (h : t.bodies = s.bodies) (p : Nat) : t.restored p = s.restored p := by
  simp only [State.restored, hmem, phr_of_bodies h, frag_of_bodies h]

section
variable (s : State) (p k : Nat)

theorem restored_updPhr {g : Phrase → Phrase} (h : (g (s.phr p)).head = (s.phr p).head) : (s.updPhr p g).restored p = s.restored p := by
  simp only [State.restored, phr_updPhr_same, h, frag_updPhr, updPhr_mem]

theorem restored_updFrag {g : Frag → Frag} (hbody : (g (s.frag k)).body = (s.frag k).body) (hready : (g (s.frag k)).ready = (s.frag k).ready) :
    (s.updFrag k g).restored p = s.restored p := by
  have hroot : ((s.updFrag k g).frag (fragKey p 0)).body = (s.frag (fragKey p 0)).body := by
    by_cases hk : fragKey p 0 = k
    · rw [hk, frag_updFrag_same, hbody]
    · rw [frag_updFrag_other s g hk]
  have hfaults : (fun j => ((s.updFrag k g).frag j).ready) = fun j => (s.frag j).ready := funext fun j => by
    by_cases hj : j = k
    · rw [hj, frag_updFrag_same, hready]
    · rw [frag_updFrag_other s g hj]
  simp only [State.restored, hroot, hfaults, phr_updFrag, updFrag_mem]

theorem ready_giveToken (core : Nat) : ((s.giveToken core p).frag k).ready = (s.frag k).ready := by
  rw [giveToken_eq]
  refine keeps_foldl (fun t => (t.frag k).ready) (fun t j => ?_) _ _
  by_cases hk : k = j
  · rw [hk, frag_updFrag_same, Frag.tokenGiven]
    split <;> rfl
  · rw [frag_updFrag_other t _ hk]

theorem restored_giveToken (core : Nat) (h : (s.frag (fragKey p 0)).wait ≠ .token) : (s.giveToken core p).restored p = s.restored p := by
  simp only [State.restored, frag_giveToken (.inr (.inr h)), ready_giveToken, phr_giveToken, giveToken_mem, if_pos]
  rfl

theorem restored_takeToken (h : (s.frag (fragKey p 0)).wait ≠ .token) : (s.takeToken p).restored p = s.restored p := by
  unfold State.takeToken
  dsimp only
  split
  · exact restored_giveToken s p _ h
  · rw [← restored_updPhr s p (g := fun q => { q with needTok := true }) rfl]
    exact restored_of_bodies rfl (bodies_updCore ..) p

end

theorem bodies_shelveOps (s : State) (core ctx : Nat) (mine : Nat → Bool) : (s.shelveOps core ctx mine).bodies = s.bodies := rfl
theorem bodies_askFor (s : State) (core : Nat) (o : MxOp) : (s.askFor core o).bodies = s.bodies := rfl

theorem bodies_requeueOps (s : State) (p ctx old core : Nat) (first : Bool) : (s.requeueOps p ctx old core first).bodies = s.bodies := by
  unfold State.requeueOps
  extract_lets mine s1 ops s2
  have h1 : s1.bodies = s.bodies := keeps_foldl State.bodies (fun t c => keeps_ite State.bodies (fun _ => rfl) fun _ => bodies_shelveOps ..) _ s
  exact (keeps_foldl State.bodies (fun t o => bodies_askFor ..) _ s2).trans h1

theorem bodies_copiesAt (s : State) (p core a n : Nat) : (s.copiesAt p core a n).2.bodies = s.bodies := by
  unfold State.copiesAt
  extract_lets held next
  exact foldl_keeps (fun q : List CopyOp × State => q.2.bodies = s.bodies) _ (fun q i hq => by dsimp only; split <;> exact hq) _ ([], s) rfl

theorem restored_requeueCopies (s : State) (p a core regs : Nat) : (s.requeueCopies p a core regs).restored p = s.restored p := by
  unfold State.requeueCopies
  extract_lets m r cs batch done nums s1
  have hr : r.2.restored p = s.restored p := restored_of_bodies (copiesAt_mem ..) (bodies_copiesAt ..) p
  clear_value nums cs r
  have hs1 : s1.restored p = s.restored p := (restored_updPhr r.2 p rfl).trans hr
  rw [← hs1]
  exact restored_of_bodies rfl rfl p

/-- A table whose items change by number and item, where the item asked for does not. -/
theorem tget_map_kept {α : Type} (d : α) {g : Nat × α → Nat × α} {t : Tbl α} {n : Nat} (hkey : ∀ e, (g e).1 = e.1)
    (h : (g (n, tget d t n)).2 = tget d t n) : tget d (t.map g) n = tget d t n := by
  induction t with
  | nil => rfl
  | cons e t ih =>
    obtain ⟨k, v⟩ := e
    have hk : (g (k, v)).1 = k := hkey (k, v)
    rw [List.map_cons, show g (k, v) = (k, (g (k, v)).2) from Prod.ext hk rfl, tget, tget]
    by_cases hkn : k = n
    · subst hkn
      rw [if_pos rfl, if_pos rfl]
      rwa [tget, if_pos rfl] at h
    · rw [if_neg hkn, if_neg hkn]
      exact ih (by rwa [tget, if_neg hkn] at h)

/-- A phrase that is away follows the first of its context to a core. -/
def movedWith (ctx old core : Nat) (e : Nat × Phrase) : Nat × Phrase :=
  if e.2.ctx == ctx && e.2.core == old && !e.2.present then (e.1, { e.2 with core := core }) else e

theorem movedWith_key (ctx old core : Nat) (e : Nat × Phrase) : (movedWith ctx old core e).1 = e.1 := by
  unfold movedWith
  split <;> rfl

theorem movedWith_present (ctx old core : Nat) {e : Nat × Phrase} (h : e.2.present = true) : movedWith ctx old core e = e :=
  if_neg (by simp [h])

theorem restored_moved {s : State} {p : Nat} (ctx old core : Nat) (h : (s.phr p).present = true) :
    ({ s with phrases := s.phrases.map (movedWith ctx old core) } : State).restored p = s.restored p := by
  have hp : tget {} (s.phrases.map (movedWith ctx old core)) p = tget {} s.phrases p :=
    tget_map_kept {} (movedWith_key ctx old core) (by rw [movedWith_present ctx old core (e := (p, tget {} s.phrases p)) h])
  simp only [State.restored, State.phr, State.frag, hp]

/-! ### The end of a restore -/

theorem foldl_settle_calm (ks : List Nat) {s : State} (h : ∀ k ∈ ks, (s.frag k).ready = []) : ks.foldl (fun s k => s.settle k) s = s := by
  induction ks with
  | nil => rfl
  | cons k ks ih => rw [List.foldl_cons, settle_of_calm (h k List.mem_cons_self), ih fun j hj => h j (List.mem_cons_of_mem _ hj)]

theorem foldl_close_rest (os : List OpenIns) (f : Frag) :
    os.foldl (fun f o => f.close o.id 0x1F) f = { f with opens := (os.foldl (fun f o => f.close o.id 0x1F) f).opens } := by
  induction os generalizing f with
  | nil => rfl
  | cons o os ih => rw [List.foldl_cons, ih]; rfl

/-- Some open instructions of a fragment are complete. -/
theorem restored_close (s : State) (p k : Nat) (c : Frag → List OpenIns) :
    (s.updFrag k fun f => (c f).foldl (fun f o => f.close o.id 0x1F) f).restored p = s.restored p := by
  have h := foldl_close_rest (c (s.frag k)) (s.frag k)
  exact restored_updFrag s p k (by rw [h]; rfl) (by rw [h])

/-- A phrase of whose fragments none has a fault to take, and that has no restart entry, runs. -/
theorem restored_serveEntries {s : State} {p : Nat} (h : ∀ k, phraseOf k = p → (s.frag k).ready = []) :
    (s.serveEntries p []).restored p = s.restored p := by
  unfold State.serveEntries
  extract_lets s0 s1 s2
  have h0 : s0.restored p = s.restored p := restored_updPhr s p rfl
  have h1 : s1.restored p = s.restored p := (restored_of_bodies (s := s0) rfl rfl p).trans h0
  have h2 : s2.restored p = s.restored p := (keeps_foldl (fun t => t.restored p) (fun t k => restored_close t p k _) _ s1).trans h1
  have hready (k : Nat) : (s2.frag k).ready = (s.frag k).ready := congrFun (congrArg (fun x => x.2.2.2) h2) k
  have hcalm : ∀ k ∈ s2.fragsOf p, (s2.tidy.frag k).ready = [] := fun k hk => by
    obtain ⟨e, he, rfl⟩ := List.mem_map.1 hk
    have hof : phraseOf e.1 = p := by simpa using ((Bool.and_eq_true _ _).mp (List.mem_filter.1 he).2).1
    exact (hready e.1).trans (h e.1 hof)
  rw [foldl_settle_calm _ hcalm]
  exact (restored_of_bodies (t := s2.tidy) rfl rfl p).trans h2

end Sys2Proof.Machine

namespace Sys2Proof.Machine

/-! ### The record of a fragment (R474) -/

/-- The nonzero items of a table of words. -/
theorem tget_nonzero (f : Nat → Nat) (is : List Nat) (i : Nat) :
    tget 0 ((is.filterMap fun i => if f i == 0 then none else some (i, f i)).map fun e => (e.1, wordOf e.2)) i = if i ∈ is then wordOf (f i) else 0 := by
  induction is with
  | nil => rfl
  | cons j is ih =>
    rw [List.filterMap_cons]
    by_cases hj : f j = 0
    · rw [if_pos (beq_iff_eq.2 hj)]
      refine ih.trans ?_
      by_cases hij : i = j
      · simp [hij, hj, wordOf]
      · simp [hij]
    · rw [if_neg (by simpa using hj), List.map_cons, tget]
      by_cases hij : j = i
      · rw [if_pos hij, if_pos (by simp [hij]), hij]
      · rw [if_neg hij, ih]
        simp [Ne.symm hij]

theorem sregs_fragAt (m : Mem) (a tail p num id : Nat) (live : Mask) (old : Frag) : (fragAt m a tail p num id live old).sregs =
    (sparse 64 fun r => if r == 0 then 0 else readNat m (a + 8 * r) 8).map fun e => (e.1, wordOf e.2) := by
  unfold fragAt
  dsimp only

/-- A register of a record. -/
theorem reg_fragAt (m : Mem) (a tail p num id : Nat) (live : Mask) (old : Frag) {i : Nat} (hpos : 0 < i) (hlt : i < 64) :
    (fragAt m a tail p num id live old).reg (BitVec.ofNat 6 i) = BitVec.ofNat 64 (readNat m (a + 8 * i) 8) := by
  have hnum : (BitVec.ofNat 6 i).toNat = i := by rw [BitVec.toNat_ofNat]; omega
  have hne : BitVec.ofNat 6 i ≠ 0 := fun h => by
    have := congrArg BitVec.toNat h
    rw [hnum] at this
    exact hpos.ne' this
  rw [Frag.reg, if_neg hne, hnum, sregs_fragAt, sparse, tget_nonzero, if_pos (List.mem_range.2 hlt), if_neg (by simpa using hpos.ne'), wordOf]

/-- The root finds the words of the delivery header in s60 to s63 (R385). -/
def Frag.delivered (f : Frag) (m : Mem) (a : Nat) : Frag :=
  (List.range 4).foldl (fun f n => f.setReg (BitVec.ofNat 6 (60 + n)) (wordOf (readNat m (a + 16 + 8 * n) 8))) f

theorem delivered_rest (f : Frag) (m : Mem) (a : Nat) : f.delivered m a = { f with sregs := (f.delivered m a).sregs } := by
  refine foldl_keeps (fun g : Frag => g = { f with sregs := g.sregs }) _ (fun g n hg => ?_) _ f rfl
  rw [setReg_eq]
  exact congrArg (fun h : Frag => { h with sregs := (g.setReg (BitVec.ofNat 6 (60 + n)) (wordOf (readNat m (a + 16 + 8 * n) 8))).sregs }) hg

theorem reg_delivered (f : Frag) (m : Mem) (a : Nat) {i : Nat} (hi : i < 4) :
    (f.delivered m a).reg (BitVec.ofNat 6 (60 + i)) = BitVec.ofNat 64 (readNat m (a + (16 + 8 * i)) 8) := by
  interval_cases i <;> simp [Frag.delivered, List.range_succ, reg_setReg, wordOf]

theorem reg_delivered_other (f : Frag) (m : Mem) (a : Nat) {i : Nat} (hi : i < 60) :
    (f.delivered m a).reg (BitVec.ofNat 6 i) = f.reg (BitVec.ofNat 6 i) := by
  have hne (n : Nat) (hn : n ∈ List.range 4) : BitVec.ofNat 6 i ≠ BitVec.ofNat 6 (60 + n) := fun h => by
    have h := congrArg BitVec.toNat h
    have hn := List.mem_range.1 hn
    rw [BitVec.toNat_ofNat, BitVec.toNat_ofNat] at h
    omega
  unfold Frag.delivered
  generalize List.range 4 = ns at hne
  induction ns generalizing f with
  | nil => rfl
  | cons n ns ih => 
    rw [List.foldl_cons, ih _ fun j hj => hne j (List.mem_cons_of_mem _ hj), reg_setReg, if_neg fun h => hne n List.mem_cons_self h.1]

/-! ### The fragments are loaded (R384, R474) -/

/-- A fragment of an image is loaded. -/
def State.loadFrag (m : Mem) (a tail p : Nat) (live : Mask) (s : State) (n : Nat) : State :=
  let f := fragAt s.mem (fragRecAt a n) tail p n s.nextId live (s.frag (fragKey p n))
  ({ s with nextId := s.nextId + ifcntMax s.mem (fragRecAt a n) } : State).setFrag (fragKey p n) (if n == 0 then f.delivered m a else f)

section
variable (m : Mem) (a tail p : Nat) (live : Mask)

theorem frag_loadFrag_same (s : State) (n : Nat) : (State.loadFrag m a tail p live s n).frag (fragKey p n) =
    (if n == 0 then (fragAt s.mem (fragRecAt a n) tail p n s.nextId live (s.frag (fragKey p n))).delivered m a
      else fragAt s.mem (fragRecAt a n) tail p n s.nextId live (s.frag (fragKey p n))) :=
  tget_tput_same _ _ _ _

theorem frag_loadFrag_other (s : State) {n k : Nat} (h : fragKey p n ≠ k) : (State.loadFrag m a tail p live s n).frag k = s.frag k :=
  tget_tput_other _ _ _ h

theorem ready_loadFrag (s : State) (n : Nat) : ((State.loadFrag m a tail p live s n).frag (fragKey p n)).ready = [] := by
  rw [frag_loadFrag_same]
  split
  · rw [delivered_rest]
    rfl
  · rfl

theorem mem_phrases_loadFrags (ns : List Nat) (s : State) :
    (ns.foldl (State.loadFrag m a tail p live) s).mem = s.mem ∧ (ns.foldl (State.loadFrag m a tail p live) s).phrases = s.phrases :=
  ⟨keeps_foldl State.mem (f := State.loadFrag m a tail p live) (fun _ _ => rfl) ns s,
    keeps_foldl State.phrases (f := State.loadFrag m a tail p live) (fun _ _ => rfl) ns s⟩

theorem frag_loadFrags_other {ns : List Nat} {k : Nat} (h : ∀ n ∈ ns, fragKey p n ≠ k) (s : State) :
    (ns.foldl (State.loadFrag m a tail p live) s).frag k = s.frag k := by
  induction ns generalizing s with
  | nil => rfl
  | cons n ns ih =>
    rw [List.foldl_cons, ih fun j hj => h j (List.mem_cons_of_mem _ hj), frag_loadFrag_other _ _ _ _ _ _ (h n List.mem_cons_self)]

theorem ready_loadFrags {ns : List Nat} {n : Nat} (h : n ∈ ns) (s : State) :
    ((ns.foldl (State.loadFrag m a tail p live) s).frag (fragKey p n)).ready = [] := by
  induction ns generalizing s with
  | nil => exact absurd h List.not_mem_nil
  | cons j ns ih =>
    by_cases hn : n ∈ ns
    · exact ih hn _
    · obtain rfl := (List.mem_cons.1 h).resolve_right hn
      rw [List.foldl_cons, frag_loadFrags_other _ _ _ _ _ fun i hi hkey => hn (by rwa [← show i = n from Nat.add_left_cancel hkey]), ready_loadFrag]

/-- The fragments of an image: the root, and those of the mask (R384). -/
def imageFrags (mask : Mask) : List Nat := (List.range 32).filter fun n => mask.getLsbD n || n == 0

theorem mem_imageFrags (mask : Mask) (n : Nat) : n ∈ imageFrags mask ↔ n < 32 ∧ (mask.getLsbD n = true ∨ n = 0) := by
  simp [imageFrags]

/-- The root is the first. -/
theorem imageFrags_root (mask : Mask) : ∃ ns, imageFrags mask = 0 :: ns ∧ 0 ∉ ns := by
  refine ⟨((List.range 31).map Nat.succ).filter fun n => mask.getLsbD n || n == 0, ?_, fun h => ?_⟩
  · rw [imageFrags, List.range_succ_eq_map, List.filter_cons_of_pos (by simp)]
  · obtain ⟨x, -, hx⟩ := List.mem_map.1 (List.mem_filter.1 h).1
    exact absurd hx (Nat.succ_ne_zero x)

theorem root_loadFrags (mask : Mask) (s : State) : ((imageFrags mask).foldl (State.loadFrag m a tail p live) s).frag (fragKey p 0) =
    (fragAt s.mem (fragRecAt a 0) tail p 0 s.nextId live (s.frag (fragKey p 0))).delivered m a := by
  obtain ⟨ns, hns, hroot⟩ := imageFrags_root mask
  rw [hns, List.foldl_cons, frag_loadFrags_other _ _ _ _ _ (fun n hn hkey => hroot (by rwa [← show n = 0 from Nat.add_left_cancel hkey])),
    frag_loadFrag_same]
  rfl

end

/-- Only fragments of the image stand. -/
theorem tget_filter_key {α : Type} (d : α) (q : Nat → Bool) (t : Tbl α) (n : Nat) :
    tget d (t.filter fun e => q e.1) n = if q n then tget d t n else d := by
  induction t with
  | nil => rw [List.filter_nil, tget, ite_self]
  | cons e t ih =>
    obtain ⟨k, v⟩ := e
    by_cases hk : q k = true
    · rw [List.filter_cons_of_pos (p := fun e : Nat × α => q e.1) hk, tget, tget, ih]
      by_cases hkn : k = n
      · rw [if_pos hkn, if_pos hkn, if_pos (hkn ▸ hk)]
      · rw [if_neg hkn, if_neg hkn]
    · rw [List.filter_cons_of_neg (p := fun e : Nat × α => q e.1) hk, ih, tget]
      by_cases hkn : k = n
      · rw [if_neg (hkn ▸ hk), if_neg (hkn ▸ hk)]
      · rw [if_neg hkn]

/-! ### The fragments take their places (R29, R478) -/

/-- A placement changes its fragment only, and no fault of it. -/
theorem placeFrag_only (s : State) (core k : Nat) (slot : Option Nat) (taken : List Nat) :
    (s.placeFrag core k slot taken).phrases = s.phrases ∧
    ∃ f : Frag, f.ready = (s.frag k).ready ∧ ∀ j, (s.placeFrag core k slot taken).frag j = if j = k then f else s.frag j := by
  have hupd (g : Frag → Frag) (h : (g (s.frag k)).ready = (s.frag k).ready) :
      ∃ f : Frag, f.ready = (s.frag k).ready ∧ ∀ j, (s.updFrag k g).frag j = if j = k then f else s.frag j :=
    ⟨g (s.frag k), h, fun j => tget_tput _ _ _ _ _⟩
  unfold State.placeFrag
  split
  · exact ⟨rfl, hupd _ rfl⟩
  · split
    · exact ⟨rfl, s.frag k, rfl, fun j => by split <;> simp_all⟩
    · split
      · exact ⟨rfl, hupd _ rfl⟩
      · dsimp only
        exact ⟨joinAside_phrases .., hupd (fun f => { f with qcycle := s.cycle, qslot := _ }) rfl⟩

theorem frag_placeFrag_other (s : State) {core k j : Nat} (slot : Option Nat) (taken : List Nat) (h : j ≠ k) :
    (s.placeFrag core k slot taken).frag j = s.frag j := by
  obtain ⟨-, f, -, hf⟩ := placeFrag_only s core k slot taken
  rw [hf, if_neg h]

theorem ready_placeFrag (s : State) (core k : Nat) (slot : Option Nat) (taken : List Nat) (j : Nat) :
    ((s.placeFrag core k slot taken).frag j).ready = (s.frag j).ready := by
  obtain ⟨-, f, hready, hf⟩ := placeFrag_only s core k slot taken
  rw [hf]
  split
  · next h => rw [h, hready]
  · rfl

/-- The fragments of a phrase are placed, the root in its slot. -/
def State.placeAll (s : State) (core root slot : Nat) (taken : List Nat) (ks : List Nat) : State :=
  ks.foldl (fun s k => s.placeFrag core k (if k == root then some slot else none) taken) s

section
variable (core root slot : Nat) (taken ks : List Nat) (s : State)

theorem placeAll_rest : (s.placeAll core root slot taken ks).mem = s.mem ∧ (s.placeAll core root slot taken ks).phrases = s.phrases :=
  ⟨keeps_foldl State.mem (fun _ _ => placeFrag_mem ..) ks s, keeps_foldl State.phrases (fun t _ => (placeFrag_only t ..).1) ks s⟩

theorem ready_placeAll (j : Nat) : ((s.placeAll core root slot taken ks).frag j).ready = (s.frag j).ready :=
  keeps_foldl (fun t => (t.frag j).ready) (fun _ _ => ready_placeFrag ..) ks s

theorem root_placeAll : (s.placeAll core root slot taken ks).frag root =
    if root ∈ ks then { s.frag root with slot := some slot } else s.frag root := by
  induction ks generalizing s with
  | nil => rfl
  | cons k ks ih =>
    show ((s.placeFrag core k (if k == root then some slot else none) taken).placeAll core root slot taken ks).frag root = _
    rw [ih]
    by_cases hk : k = root
    · subst hk
      have hroot : (s.placeFrag core k (if k == k then some slot else none) taken).frag k = { s.frag k with slot := some slot } := by
        rw [beq_self_eq_true, if_pos rfl]
        exact frag_updFrag_same s k _
      rw [hroot, ite_self, if_pos List.mem_cons_self]
    · rw [frag_placeFrag_other s _ _ (Ne.symm hk)]
      simp [Ne.symm hk]

end

/-- A fragment that exists is among its phrase's. -/
theorem mem_fragsOf {s : State} {k : Nat} (h : (s.frag k).live = true) : k ∈ s.fragsOf (phraseOf k) := by
  unfold State.fragsOf
  unfold State.frag at h
  generalize s.frags = t at h
  induction t with
  | nil => exact absurd h Bool.false_ne_true
  | cons e t ih =>
    obtain ⟨j, f⟩ := e
    rw [tget] at h
    by_cases hj : j = k
    · rw [if_pos hj] at h
      exact List.mem_map.2 ⟨(j, f), List.mem_filter.2 ⟨List.mem_cons_self, by simp [hj, h]⟩, hj⟩
    · rw [if_neg hj] at h
      obtain ⟨x, hx, hkey⟩ := List.mem_map.1 (ih h)
      obtain ⟨hmem, hsat⟩ := List.mem_filter.1 hx
      exact List.mem_map.2 ⟨x, List.mem_filter.2 ⟨List.mem_cons_of_mem _ hmem, hsat⟩, hkey⟩

/-! ### The restore of a phrase -/

/-- The state in which the entry of a restored phrase and its core are ready. -/
def State.restoring (s : State) (p core slot : Nat) : State :=
  let q := s.phr p
  let s1 := s.setLeaf q.noun stRunning 0 0 0 (wordOf (locOf s.moduleNo core slot))
  s1.readied q.ctx q.core core ((s1.core core).owner == some q.ctx && (!s1.lastOn q.ctx core || q.core == core))

theorem bodies_restoring (s : State) (p core slot : Nat) : (s.restoring p core slot).bodies = s.bodies :=
  (bodies_readied ..).trans (bodies_setLeaf ..)

section
variable {s : State} {p core slot leaf : Nat} (hwf : Memory.wf s.mem) (hleaf : s.leafOf (s.phr p).noun = some leaf) (hcore : core < 1536)
include hwf hleaf hcore

theorem readByte_restoring {k : Nat} (hk : k < leaf ∨ leaf + 16 ≤ k) (hscratch : inScratch k = false) :
    readByte (s.restoring p core slot).mem k = readByte s.mem k :=
  (readByte_readied (setLeaf_canon _ _ _ _ _ _ _ hwf) hcore hscratch ..).trans (readByte_setLeaf_other _ _ _ _ _ hwf hleaf hk)

theorem entry_restoring (hscratch : ∀ i, i < 16 → inScratch (leaf + i) = false) :
    (BitVec.ofNat 64 (readNat (s.restoring p core slot).mem leaf 8)).extractLsb' 61 3 = 1 ∧
    readNat (s.restoring p core slot).mem (leaf + 8) 8 = (wordOf (locOf s.moduleNo core slot)).toNat := by
  have hword (off : Nat) (hoff : off + 8 ≤ 16) : readNat (s.restoring p core slot).mem (leaf + off) 8 =
      readNat (s.setLeaf (s.phr p).noun stRunning 0 0 0 (wordOf (locOf s.moduleNo core slot))).mem (leaf + off) 8 :=
    readNat_congr fun i hi => readByte_readied (setLeaf_canon _ _ _ _ _ _ _ hwf) hcore
      (by rw [Nat.add_assoc]; exact hscratch (off + i) (by omega)) ..
  refine ⟨?_, (hword 8 (by decide)).trans (readNat_setLeaf_word1 _ _ _ _ _ hwf hleaf)⟩
  rw [show readNat (s.restoring p core slot).mem leaf 8 = _ from hword 0 (by decide)]
  exact state_setLeaf _ _ _ _ hwf hleaf (by decide)

end

end Sys2Proof.Machine

namespace Sys2Proof.Machine

theorem body_fragAt (m : Mem) (a tail p num id : Nat) (live : Mask) (old : Frag) : (fragAt m a tail p num id live old).body =
    (true, false, none, wordOf (readNat m (a + 0x200) 8), BitVec.ofNat 32 (readNat m (a + 0x208) 4) &&& live,
      BitVec.ofNat 2 (readNat m (a + 0x20C) 1), (fragAt m a tail p num id live old).sregs,
      if 128 ≤ readNat m (a + 0x20D) 1 then old.wait else .none) := by
  rw [sregs_fragAt]
  unfold fragAt
  dsimp only [Frag.body]

/-- The root of a restored phrase in its slot: its record as it stands in `m`, and the delivery header of `m0`. -/
def rootAt (m0 m : Mem) (a tail p id : Nat) (live : Mask) (old : Frag) (slot : Nat) : Frag :=
  { (fragAt m (fragRecAt a 0) tail p 0 id live old).delivered m0 a with slot := some slot }

theorem body_rootAt (m0 m : Mem) (a tail p id : Nat) (live : Mask) (old : Frag) (slot : Nat) : (rootAt m0 m a tail p id live old slot).body =
    (true, false, some slot, wordOf (readNat m (fragRecAt a 0 + 0x200) 8), BitVec.ofNat 32 (readNat m (fragRecAt a 0 + 0x208) 4) &&& live,
      BitVec.ofNat 2 (readNat m (fragRecAt a 0 + 0x20C) 1), (rootAt m0 m a tail p id live old slot).sregs,
      if 128 ≤ readNat m (fragRecAt a 0 + 0x20D) 1 then old.wait else .none) := by
  have h := body_fragAt m (fragRecAt a 0) tail p 0 id live old
  simp only [Frag.body, Prod.mk.injEq] at h
  obtain ⟨hlive, hstopped, -, hpc, hexec, htl, -, hwait⟩ := h
  simp only [rootAt]
  rw [delivered_rest]
  simp only [Frag.body, hlive, hstopped, hpc, hexec, htl, hwait]

/-- A root that did not wait for the token when it was saved does not wait for it. -/
theorem wait_rootAt {m0 m : Mem} {a tail p id : Nat} {live : Mask} {old : Frag} {slot : Nat} (h : old.wait ≠ .token) :
    (rootAt m0 m a tail p id live old slot).wait ≠ .token := by
  have hbody := body_rootAt m0 m a tail p id live old slot
  simp only [Frag.body, Prod.mk.injEq] at hbody
  obtain ⟨-, -, -, -, -, -, -, hwait⟩ := hbody
  rw [hwait]
  split
  · exact h
  · decide

/-- The fragments of an image, and no others of its phrase. -/
def State.onlyImageFrags (s : State) (p : Nat) (mask : Mask) : State :=
  { s with frags := s.frags.filter fun e => phraseOf e.1 != p || e.1 % 32 == 0 || mask.getLsbD (e.1 % 32) }

theorem frag_onlyImageFrags (s : State) (p : Nat) (mask : Mask) (k : Nat) : (s.onlyImageFrags p mask).frag k =
    if (phraseOf k != p || k % 32 == 0 || mask.getLsbD (k % 32)) = true then s.frag k else {} :=
  tget_filter_key ({} : Frag) (fun k => phraseOf k != p || k % 32 == 0 || mask.getLsbD (k % 32)) s.frags k

/-- No fragment of a phrase that has been loaded has a fault to take. -/
theorem ready_loaded (m : Mem) (a tail p : Nat) (live mask : Mask) (s : State) {k : Nat} (hk : phraseOf k = p) :
    ((((imageFrags mask).foldl (State.loadFrag m a tail p live) s).onlyImageFrags p mask).frag k).ready = [] := by
  rw [frag_onlyImageFrags]
  split
  · next hkept =>
    have hkey : k = fragKey p (k % 32) := by
      rw [← hk, fragKey, phraseOf]
      omega
    have hin : k % 32 ∈ imageFrags mask := (mem_imageFrags mask _).2 ⟨Nat.mod_lt _ (by decide), by
      simp only [hk, bne_self_eq_false, Bool.false_or, Bool.or_eq_true, beq_iff_eq] at hkept
      exact hkept.symm⟩
    rw [hkey]
    exact ready_loadFrags m a tail p live hin s
  · rfl

theorem root_loaded (m : Mem) (a tail p : Nat) (live mask : Mask) (s : State) :
    (((imageFrags mask).foldl (State.loadFrag m a tail p live) s).onlyImageFrags p mask).frag (fragKey p 0) =
      (fragAt s.mem (fragRecAt a 0) tail p 0 s.nextId live (s.frag (fragKey p 0))).delivered m a := by
  rw [frag_onlyImageFrags, if_pos (by simp [fragKey]), root_loadFrags]

theorem phr_setPhr_same (s : State) (p : Nat) (q : Phrase) : (s.setPhr p q).phr p = q := tget_tput_same ..

theorem phraseOf_root (p : Nat) : phraseOf (fragKey p 0) = p := by
  rw [phraseOf, fragKey]
  omega

theorem head_phraseAt (s : State) (a : Nat) (q : Phrase) (core : Nat) : (s.phraseAt a q core).head =
    (true, core, BitVec.ofNat 32 (readNat s.mem (a + 0x48) 4), BitVec.ofNat 32 (readNat s.mem (a + 0x50) 4) &&& 0xFF1F,
      BitVec.ofNat 32 (readNat s.mem (a + 0x54) 4) &&& 0xC7, readNat s.mem (a + 0x5E) 2 % 512) := by
  unfold State.phraseAt
  dsimp only [Phrase.head]

theorem present_phraseAt (s : State) (a : Nat) (q : Phrase) (core : Nat) : (s.phraseAt a q core).present = true :=
  congrArg Prod.fst (head_phraseAt s a q core)

/-- The parts of what later steps leave. -/
theorem parts_of_restored {t : State} {p : Nat} {m : Mem} {q : Phrase} {f : Frag} {r : Nat → List LaneFault}
    (h : t.restored p = (m, q.head, f.body, r)) :
    t.mem = m ∧ (t.phr p).head = q.head ∧ (t.frag (fragKey p 0)).body = f.body ∧ ∀ k, (t.frag k).ready = r k := by
  simp only [State.restored, Prod.mk.injEq] at h
  obtain ⟨hmem, hhead, hbody, hready⟩ := h
  exact ⟨hmem, hhead, hbody, congrFun hready⟩

theorem present_of_head {q r : Phrase} (h : q.head = r.head) : q.present = r.present := congrArg Prod.fst h
theorem wait_of_body {f g : Frag} (h : f.body = g.body) : f.wait = g.wait := congrArg (fun x => x.2.2.2.2.2.2.2) h

/-- The phrase's header is loaded, and its course is rejoined. -/
def State.withHeader (s : State) (m : Mem) (p a core : Nat) (q : Phrase) : State :=
  (s.setPhr p (s.phraseAt a q core)).rejoin p q (readNat m (a + 0x68) 1)

/-- The fragments of an image are loaded and placed. -/
def State.withFrags (s : State) (m : Mem) (p a core slot tail : Nat) (live mask : Mask) (taken : List Nat) : State :=
  let s1 := ((imageFrags mask).foldl (State.loadFrag m a tail p live) s).onlyImageFrags p mask
  s1.placeAll core (fragKey p 0) slot taken (s1.fragsOf p)

/-- The count of a phrase's asides, and the bit of its image's header (R478). -/
def State.cleared (s : State) (p a : Nat) : State :=
  (s.updPhr p fun q => { q with asides := (s.fragsOf p).length - 1 }).updMem fun m => writeNat a 8 (readNat m a 8 &&& 0xFFFFFFFFFFFFFFBF) m

/-- What a phrase has under way is queued again. -/
def State.requeued (s : State) (p a core ctx old regs : Nat) (first : Bool) : State :=
  let s1 : State := { (s.requeueOps p ctx old core first).requeueCopies p a core regs with
    laneOps := s.laneOps ++ s.heldOps.filter fun o => phraseOf o.frag == p
    heldOps := s.heldOps.filter fun o => phraseOf o.frag != p }
  if first then { s1 with phrases := s1.phrases.map (movedWith ctx old core) } else s1

/-- The steps of a restore. -/
theorem loadPhrase_steps (s : State) (p a core slot : Nat) (taken : List Nat) : ∃ tail mask first rs,
    (readNat s.mem (a + 0x6C) 4 = 0 → rs = []) ∧
    let q := (s.restoring p core slot).phraseAt a (s.phr p) core
    let s1 := ((s.restoring p core slot).withHeader s.mem p a core (s.phr p)).withFrags s.mem p a core slot tail q.live mask taken
    let s2 := (s1.cleared p a).requeued p a core (s.phr p).ctx (s.phr p).core q.regs first
    s.loadPhrase p a core slot taken = (if (readNat s.mem (a + 0x68) 1).testBit 1 then s2.takeToken p else s2).serveEntries p rs := by
  unfold State.loadPhrase State.withFrags State.cleared State.requeued State.withHeader imageFrags State.loadFrag Frag.delivered movedWith
    State.placeAll State.onlyImageFrags State.restoring State.readied
  refine ⟨_, _, _, _, ?_, rfl⟩
  intro h
  simp only [h]
  rfl

section
variable {s : State} (p a core : Nat)

theorem withHeader_keeps (m : Mem) (q : Phrase) : (s.withHeader m p a core q).mem = s.mem ∧ (s.withHeader m p a core q).phr p = s.phraseAt a q core ∧
    ∀ k, (s.withHeader m p a core q).frag k = s.frag k := by
  have h : (s.withHeader m p a core q).bodies = (s.setPhr p (s.phraseAt a q core)).bodies := rejoin_bodies ..
  exact ⟨rejoin_mem .., (phr_of_bodies h p).trans (phr_setPhr_same ..), fun k => (frag_of_bodies h k).trans rfl⟩

theorem restored_withFrags (m : Mem) (slot tail : Nat) (live mask : Mask) (taken : List Nat) : ∃ id ready,
    (s.withFrags m p a core slot tail live mask taken).restored p =
      (s.mem, (s.phr p).head, (rootAt m s.mem a tail p id live (s.frag (fragKey p 0)) slot).body, ready) ∧
    ∀ k, phraseOf k = p → ready k = [] := by
  unfold State.withFrags
  extract_lets s1
  obtain ⟨hmem1, hphrases1⟩ := mem_phrases_loadFrags m a tail p live (imageFrags mask) s
  have hroot1 : s1.frag (fragKey p 0) = (fragAt s.mem (fragRecAt a 0) tail p 0 s.nextId live (s.frag (fragKey p 0))).delivered m a :=
    root_loaded ..
  have hready1 (k : Nat) (hk : phraseOf k = p) : (s1.frag k).ready = [] := ready_loaded m a tail p live mask s hk
  have hin : fragKey p 0 ∈ s1.fragsOf p := by
    have hlive : (s1.frag (fragKey p 0)).live = true := by
      rw [hroot1, delivered_rest]
      rfl
    have := mem_fragsOf hlive
    rwa [phraseOf_root] at this
  obtain ⟨hmem2, hphrases2⟩ := placeAll_rest core (fragKey p 0) slot taken (s1.fragsOf p) s1
  refine ⟨s.nextId, fun k => (s1.frag k).ready, ?_, hready1⟩
  simp only [State.restored, hmem2, State.phr, hphrases2, root_placeAll, if_pos hin, hroot1, ready_placeAll, rootAt]
  rw [show s1.mem = s.mem from hmem1, show s1.phrases = s.phrases from hphrases1]

theorem restored_cleared : (s.cleared p a).restored p =
    (writeNat a 8 (readNat s.mem a 8 &&& 0xFFFFFFFFFFFFFFBF) s.mem, (s.restored p).2) := by
  have h := restored_updPhr s p (g := fun q => { q with asides := (s.fragsOf p).length - 1 }) rfl
  exact Prod.ext (by rw [State.restored, State.cleared, updMem_mem, updPhr_mem]) (congrArg Prod.snd h :)

theorem restored_requeued (ctx old regs : Nat) (first : Bool) (h : (s.phr p).present = true) :
    (s.requeued p a core ctx old regs first).restored p = s.restored p := by
  unfold State.requeued
  extract_lets s0 s1
  have h0 : s0.restored p = s.restored p :=
    (restored_requeueCopies ..).trans (restored_of_bodies (requeueOps_mem ..) (bodies_requeueOps ..) p)
  clear_value s0
  have h1 : s1.restored p = s.restored p := (restored_of_bodies (s := s0) rfl rfl p).trans h0
  have hpresent : (s1.phr p).present = true := (congrArg (fun x => x.2.1.1) h1).trans h
  exact (keeps_ite (fun t => t.restored p) (fun _ => restored_moved ctx old core hpresent) fun _ => rfl).trans h1

end

/-- A phrase is restored from an image without restart entries. -/
theorem restored_loadPhrase {s : State} {p a core slot : Nat} {taken : List Nat} (hentries : readNat s.mem (a + 0x6C) 4 = 0)
    (hwait : (s.frag (fragKey p 0)).wait ≠ .token) :
    let m := (s.restoring p core slot).mem
    let q := (s.restoring p core slot).phraseAt a (s.phr p) core
    ∃ tail id ready, (s.loadPhrase p a core slot taken).restored p =
      (writeNat a 8 (readNat m a 8 &&& 0xFFFFFFFFFFFFFFBF) m, q.head, (rootAt s.mem m a tail p id q.live (s.frag (fragKey p 0)) slot).body, ready) := by
  intro m q
  obtain ⟨tail, mask, first, rs, hrs, hsteps⟩ := loadPhrase_steps s p a core slot taken
  extract_lets s1 s2 at hsteps
  have hold : (s.restoring p core slot).frag (fragKey p 0) = s.frag (fragKey p 0) := frag_of_bodies (bodies_restoring ..) _
  obtain ⟨hmem0, hphr0, hfrag0⟩ := withHeader_keeps (s := s.restoring p core slot) p a core s.mem (s.phr p)
  obtain ⟨id, ready, h1, hcalm⟩ := restored_withFrags (s := (s.restoring p core slot).withHeader s.mem p a core (s.phr p)) p a core s.mem slot tail
    q.live mask taken
  rw [hmem0, hphr0, hfrag0, hold] at h1
  have hcleared : (s1.cleared p a).restored p = (writeNat a 8 (readNat m a 8 &&& 0xFFFFFFFFFFFFFFBF) m, q.head,
      (rootAt s.mem m a tail p id q.live (s.frag (fragKey p 0)) slot).body, ready) := by
    have hmem1 : s1.mem = m := congrArg Prod.fst h1
    rw [restored_cleared, hmem1]
    exact congrArg (fun x => (_, x.2)) h1
  obtain ⟨-, hhead, -, -⟩ := parts_of_restored hcleared
  have h2 : s2.restored p = (s1.cleared p a).restored p :=
    restored_requeued p a core _ _ _ _ ((present_of_head hhead).trans (present_phraseAt ..))
  obtain ⟨-, -, hbody, hready⟩ := parts_of_restored (h2.trans hcleared)
  have hwait2 : (s2.frag (fragKey p 0)).wait ≠ .token := by
    rw [wait_of_body hbody]
    exact wait_rootAt hwait
  generalize hs3 : (if (readNat s.mem (a + 0x68) 1).testBit 1 = true then s2.takeToken p else s2) = s3 at hsteps
  have h3 : s3.restored p = s2.restored p := by
    rw [← hs3]
    exact keeps_ite (fun t => t.restored p) (fun _ => restored_takeToken s2 p hwait2) fun _ => rfl
  have hcalm3 (k : Nat) (hk : phraseOf k = p) : (s3.frag k).ready = [] := by
    obtain ⟨-, -, -, hready3⟩ := parts_of_restored (h3.trans (h2.trans hcleared))
    exact (hready3 k).trans (hcalm k hk)
  refine ⟨tail, id, ready, ?_⟩
  rw [hsteps, hrs hentries, restored_serveEntries hcalm3, h3, h2, hcleared]

end Sys2Proof.Machine

namespace Sys2Proof.Machine

/-! ### RESTORE of a phrase without auxiliaries -/

theorem restoreAt_one {s : State} {n : Word} {p core slot : Nat} (hp : s.phraseByNoun n = some p) (hgroup : s.restoreGroup p = [p])
    (hroom : s.placeRoom (nounCtx n) core slot 1 (readNat s.mem (s.imageOf (s.phr p).noun + 0x5E) 2 % 512) = true) :
    ∃ taken, s.restoreAt n core slot = some (s.loadPhrase p (s.imageOf (s.phr p).noun) core slot taken) := by
  refine ⟨[((s.freeSlots core).filter fun n => n != slot).headD 0], ?_⟩
  have hregs : s.groupRegs [p] = readNat s.mem (s.imageOf (s.phr p).noun + 0x5E) 2 % 512 := Nat.zero_add _
  have hsaved : s.savedPhrase n = (p, s) := by rw [State.savedPhrase, hp]
  rw [State.restoreAt, hsaved]
  dsimp only
  rw [hgroup, hregs, List.length_singleton, if_pos hroom, List.foldl_cons, List.foldl_nil, beq_self_eq_true, if_pos rfl]

theorem core_of_placeRoom {s : State} {ctx core slot slots regs : Nat} (h : s.placeRoom ctx core slot slots regs = true) : core < 1536 := by
  unfold State.placeRoom at h
  simp only [Bool.and_eq_true, decide_eq_true_eq] at h
  obtain ⟨⟨⟨⟨⟨⟨hcore, -⟩, -⟩, -⟩, -⟩, -⟩, -⟩ := h
  exact hcore

/-- An image holds the headers and the root's record. -/
theorem le_imageLenAt (m : Mem) (a : Nat) : 0x41000 ≤ imageLenAt m a := by
  unfold imageLenAt imageLen alignUp
  omega

theorem restoring_wf {s : State} (hwf : Memory.wf s.mem) (p core slot : Nat) : Memory.wf (s.restoring p core slot).mem := by
  have h1 := setLeaf_canon _ (s.phr p).noun stRunning 0 0 0 (wordOf (locOf s.moduleNo core slot)) hwf
  unfold State.restoring State.readied
  dsimp only
  split
  · rw [loadEngine_mem]
    exact h1
  · exact loadCore_canon _ _ _ _ (claimCore_canon _ _ _ h1)

theorem locOf_lt (moduleNo : Nat) {core : Nat} (slot : Nat) (hcore : core < 1536) : locOf moduleNo core slot < 2 ^ 64 := by
  unfold locOf at'
  omega

theorem live_phraseAt (s : State) (a : Nat) (q : Phrase) (core : Nat) : (s.phraseAt a q core).live = BitVec.ofNat 32 (readNat s.mem (a + 0x48) 4) :=
  congrArg (fun x => x.2.2.1) (head_phraseAt s a q core)

theorem imageRec_eq (a off : Nat) : fragRecAt a 0 + off = a + (0x1000 + off) := by
  rw [fragRecAt, Nat.mul_zero, Nat.add_zero, Nat.add_assoc]

theorem reg_of_body {f g : Frag} (h : f.body = g.body) (r : SReg) : f.reg r = g.reg r := by
  rw [Frag.reg, Frag.reg, show f.sregs = g.sregs from congrArg (fun x => x.2.2.2.2.2.2.1) h]

theorem reg_rootAt (m0 m : Mem) (a tail p id : Nat) (live : Mask) (old : Frag) (slot : Nat) (r : SReg) :
    (rootAt m0 m a tail p id live old slot).reg r = ((fragAt m (fragRecAt a 0) tail p 0 id live old).delivered m0 a).reg r := by
  rw [rootAt]
  generalize (fragAt m (fragRecAt a 0) tail p 0 id live old).delivered m0 a = f
  rfl

theorem loadPhrase_memory {s : State} {p core slot a : Nat} {taken : List Nat} (hentries : readNat s.mem (a + 0x6C) 4 = 0)
    (hwait : (s.frag (fragKey p 0)).wait ≠ .token) : (s.loadPhrase p a core slot taken).mem =
    writeNat a 8 (readNat (s.restoring p core slot).mem a 8 &&& 0xFFFFFFFFFFFFFFBF) (s.restoring p core slot).mem := by
  obtain ⟨tail, id, ready, h⟩ := restored_loadPhrase (core := core) (slot := slot) (taken := taken) hentries hwait
  obtain ⟨hmem, -, -, -⟩ := parts_of_restored h
  exact hmem

section
variable {s : State} {p core slot leaf a : Nat} {taken : List Nat} (hwf : Memory.wf s.mem) (hleaf : s.leafOf (s.phr p).noun = some leaf)
  (hcore : core < 1536) (hvault : a + 0x3000 ≤ 0x400000000) (hclear : leaf + 16 ≤ a ∨ a + imageLenAt s.mem a ≤ leaf)
  (hscratch : ∀ i, i < 16 → inScratch (leaf + i) = false) (hentries : readNat s.mem (a + 0x6C) 4 = 0)
  (hwait : (s.frag (fragKey p 0)).wait ≠ .token)
include hwf hleaf hcore hvault hclear

/-- The headers and the root's record stand while the entry and the core are made ready. -/
theorem readNat_restoring {off n : Nat} (hoff : off + n ≤ 0x3000) :
    readNat (s.restoring p core slot).mem (a + off) n = readNat s.mem (a + off) n := by
  have hlen := le_imageLenAt s.mem a
  refine readNat_congr fun i hi => readByte_restoring hwf hleaf hcore (by omega) ((not_inScratch_iff _).2 (.inl ?_))
  rw [scratchBase]
  omega

include hentries hwait

theorem loadPhrase_header : ((s.loadPhrase p a core slot taken).phr p).head =
    (true, core, BitVec.ofNat 32 (readNat s.mem (a + 0x48) 4), BitVec.ofNat 32 (readNat s.mem (a + 0x50) 4) &&& 0xFF1F,
      BitVec.ofNat 32 (readNat s.mem (a + 0x54) 4) &&& 0xC7, readNat s.mem (a + 0x5E) 2 % 512) := by
  obtain ⟨tail, id, ready, h⟩ := restored_loadPhrase (core := core) (slot := slot) (taken := taken) hentries hwait
  obtain ⟨-, hhead, -, -⟩ := parts_of_restored h
  have hread {off n : Nat} (hoff : off + n ≤ 0x3000) := readNat_restoring (slot := slot) hwf hleaf hcore hvault hclear hoff
  rw [hhead, head_phraseAt, hread (by decide), hread (by decide), hread (by decide), hread (by decide)]

theorem loadPhrase_root : ∃ tail id live, live = BitVec.ofNat 32 (readNat s.mem (a + 0x48) 4) ∧
    ((s.loadPhrase p a core slot taken).frag (fragKey p 0)).body =
      (rootAt s.mem (s.restoring p core slot).mem a tail p id live (s.frag (fragKey p 0)) slot).body := by
  obtain ⟨tail, id, ready, h⟩ := restored_loadPhrase (core := core) (slot := slot) (taken := taken) hentries hwait
  obtain ⟨-, -, hbody, -⟩ := parts_of_restored h
  refine ⟨tail, id, _, ?_, hbody⟩
  rw [live_phraseAt, readNat_restoring (slot := slot) hwf hleaf hcore hvault hclear (by decide)]

theorem loadPhrase_fragment : let f := (s.loadPhrase p a core slot taken).frag (fragKey p 0)
    f.live = true ∧ f.stopped = false ∧ f.slot = some slot ∧ f.pc = BitVec.ofNat 64 (readNat s.mem (a + 0x1200) 8) ∧
    f.exec = BitVec.ofNat 32 (readNat s.mem (a + 0x1208) 4) &&& BitVec.ofNat 32 (readNat s.mem (a + 0x48) 4) ∧
    f.tl = BitVec.ofNat 2 (readNat s.mem (a + 0x120C) 1) ∧
    (∀ i, 0 < i → i < 60 → f.reg (BitVec.ofNat 6 i) = BitVec.ofNat 64 (readNat s.mem (a + (0x1000 + 8 * i)) 8)) ∧
    ∀ i, i < 4 → f.reg (BitVec.ofNat 6 (60 + i)) = BitVec.ofNat 64 (readNat s.mem (a + (16 + 8 * i)) 8) := by
  intro f
  obtain ⟨tail, id, live, hlive, hbody⟩ := loadPhrase_root (slot := slot) (taken := taken) hwf hleaf hcore hvault hclear hentries hwait
  have hread {off n : Nat} (hoff : off + n ≤ 0x3000) := readNat_restoring (slot := slot) hwf hleaf hcore hvault hclear hoff
  have hreg := reg_of_body hbody
  rw [body_rootAt, imageRec_eq, imageRec_eq, imageRec_eq, hread (by decide), hread (by decide), hread (by decide), hlive] at hbody
  simp only [Frag.body, Prod.mk.injEq] at hbody
  obtain ⟨hl, hstopped, hslot, hpc, hexec, htl, -, -⟩ := hbody
  refine ⟨hl, hstopped, hslot, hpc, hexec, htl, fun i hpos hi => ?_, fun i hi => ?_⟩
  · rw [hreg, reg_rootAt, reg_delivered_other _ _ _ hi, reg_fragAt _ _ _ _ _ _ _ _ hpos (by omega), imageRec_eq, hread (by omega)]
  · rw [hreg, reg_rootAt, reg_delivered _ _ _ hi]

include hscratch
omit hvault

theorem loadPhrase_entry : (BitVec.ofNat 64 (readNat (s.loadPhrase p a core slot taken).mem leaf 8)).extractLsb' 61 3 = 1 ∧
    readNat (s.loadPhrase p a core slot taken).mem (leaf + 8) 8 = locOf s.moduleNo core slot := by
  have hlen := le_imageLenAt s.mem a
  have hm := restoring_wf hwf p core slot
  obtain ⟨hstate, hplace⟩ := entry_restoring (slot := slot) hwf hleaf hcore hscratch
  rw [loadPhrase_memory hentries hwait, readNat_writeNat_other hm _ (by omega),
    readNat_writeNat_other hm _ (by omega)]
  refine ⟨hstate, hplace.trans ?_⟩
  rw [wordOf, BitVec.toNat_ofNat, Nat.mod_eq_of_lt (locOf_lt s.moduleNo slot hcore)]

end

end Sys2Proof.Machine

namespace Sys2Proof

open Machine

theorem restoredPhrases : Claims.RestoredPhrases := by
  intro s slot p leaf l c n loc core u a w k hop hone hbusy hformed hfirst htarget hstate hhere hcluster hp hnoun hmain hgroup hregion hroom
    hentries hwait hwf hleaf hvault hclear hscratch
  have hcore : core < 1536 := core_of_placeRoom hroom
  have hmainNoun : ((s.phraseByNoun c.target).map fun p => (s.phr (s.mainOf p)).noun).getD c.target = c.target := by
    rw [hp]
    exact (congrArg (fun p => (s.phr p).noun) hmain).trans hnoun
  obtain ⟨-, hplaced⟩ := restore_byRoom hbusy hformed hfirst hone htarget hstate hop (coreOfLoc_eq loc) ((moduleOfLoc_eq loc).trans hhere)
    ((coreField_eq loc).trans_lt hcluster) hmainNoun
  have ha : a = u.imageOf (u.phr p).noun := congrArg s.imageOf hnoun.symm
  have hroom' : u.placeRoom (nounCtx c.target) core (loc % 16) 1 (readNat u.mem (u.imageOf (u.phr p).noun + 0x5E) 2 % 512) = true := by
    rw [← ha]
    exact hroom
  obtain ⟨taken, hload⟩ := restoreAt_one (s := u) (core := core) (slot := loc % 16) hp hgroup hroom'
  rw [← ha] at hload
  have hleaf' : u.leafOf (u.phr p).noun = some leaf := (congrArg s.leafOf hnoun).trans hleaf
  obtain ⟨hentry, hplace⟩ := loadPhrase_entry (s := u) (slot := loc % 16) (taken := taken) hwf hleaf' hcore hclear hscratch hentries hwait
  have hhead := loadPhrase_header (s := u) (slot := loc % 16) (taken := taken) hwf hleaf' hcore hvault hclear hentries hwait
  have hroot := loadPhrase_fragment (s := u) (slot := loc % 16) (taken := taken) hwf hleaf' hcore hvault hclear hentries hwait
  generalize u.loadPhrase p a core (loc % 16) taken = v at hload hentry hplace hhead hroot
  simp only [Phrase.head, Prod.mk.injEq] at hhead
  obtain ⟨hpresent, hat, hlive, hstatus, htrapen, hregs⟩ := hhead
  exact ⟨_, (hplaced hregion).1 v hload, status_csEnd _ _ _, hentry, hplace, hpresent, hat, hlive, hstatus, htrapen, hregs, hroot⟩

/-- Settles O34: each command's outcomes by the state of its target's noun and by the room at its place; a RESTORE by the steps of
`State.loadPhrase`, of which those after the placement keep the phrase's header, its root and the image's memory. -/
theorem swapCommands : Obligations.SwapCommands := ⟨swaps, movesAndRestores, restoredPhrases⟩

end Sys2Proof

/-!
# Noun operations are delivered (O26)

The resolution of an operation's noun reads the table, whose copies are not stale, and ends at a fault, at an answer or at the entry; the
entry's state then says where the operation acts. A resolution leaves a trace in the copies of the table alone (`State.cached`).
-/
namespace Sys2Proof.Machine

/-! ### What a delivery meets (R383, R387) -/

/-- An operation that can be delivered, of a fragment, which no GRANT of another module has named and which does not join its issuer. -/
structure Deliverable (s : State) (o : NounOp) (k : Nat) (sd sf : SReg) (pc : Word) : Prop where
  found : (s.nouns.find? fun x => x.id == o.id) = some o
  ready : s.nounReady o = true
  plain : o.granted = false
  source : o.src = .frag k sd sf pc
  other : s.joinsSelf o = false

/-- The copies of a noun's entry are those of the table. -/
def Fresh (s : State) (n : Word) : Prop :=
  ∀ c ∈ s.nounCache, c.ctx = nounCtx n → c.index = nounIndex n →
    ∃ a, s.leafOf n = some a ∧ c.words = [BitVec.ofNat 64 (readNat s.mem a 8), BitVec.ofNat 64 (readNat s.mem (a + 8) 8)]

/-- A state with other copies of the tables. -/
def State.cached (s : State) (copies : List TabCopy) (n : Nat) : State := { s with nounCache := copies, draws := n }

/-- An operation is no longer outstanding. -/
def State.without (s : State) (id : Nat) : State := { s with nouns := s.nouns.filter fun x => x.id != id }

section
variable {s : State} {o : NounOp} {k : Nat} {sd sf : SReg} {pc : Word}

theorem exec_delivery (h : Deliverable s o k sd sf pc) : exec (.nounDelivery o.id) s = .next (s.deliver o) := by
  show execNounDelivery o.id s = _
  rw [execNounDelivery, h.found]
  exact congrArg _ (if_pos h.ready)

theorem takesNoun_self (h : Deliverable s o k sd sf pc) : s.takesNoun o o.noun = kindOk o.act (nounKind o.noun) := by
  rw [State.takesNoun, show s.joinsNoun o o.noun = false from h.other, Bool.not_false, Bool.and_true]

theorem keepLeaf_cached (s : State) (die k : Nat) (n : Word) : ∃ c, s.keepLeaf die k n = s.cached c s.draws := by
  unfold State.keepLeaf
  split
  · exact ⟨s.nounCache, rfl⟩
  · split
    · exact ⟨_, rfl⟩
    · exact ⟨s.nounCache, rfl⟩

theorem keepNoun_cached (s : State) (die : Option Nat) (ctx : Nat) (n : Word) : ∃ c d, s.keepNoun die ctx n = s.cached c d := by
  unfold State.keepNoun
  split
  · exact ⟨s.nounCache, s.draws, rfl⟩
  · next die =>
    split
    · exact ⟨s.nounCache, s.draws, rfl⟩
    · split
      · exact ⟨s.nounCache, s.draws, rfl⟩
      · next l _ =>
        extract_lets s1 s2
        obtain ⟨c1, h1⟩ := keepLeaf_cached s die 0 n
        have h2 : ∃ c, s2 = s.cached c s.draws := by
          simp only [s2]
          split
          · obtain ⟨c2, h2⟩ := keepLeaf_cached s1 die 1 l.word1
            exact ⟨c2, by rw [h2, show s1 = _ from h1]; rfl⟩
          · exact ⟨c1, h1⟩
        obtain ⟨c2, h2⟩ := h2
        rw [h2]
        split
        · exact ⟨c2, _, rfl⟩
        · exact ⟨c2, _, rfl⟩

/-! ### The end of a resolution (R193) -/

theorem deliver_wrongKind (h : Deliverable s o k sd sf pc) (hkind : kindOk o.act (nounKind o.noun) = false) :
    s.deliver o = (s.without o.id).answerCode o 4 := by
  rw [State.deliver]
  exact if_pos (by rw [takesNoun_self h, hkind]; rfl)

section
variable (h : Deliverable s o k sd sf pc) (hkind : kindOk o.act (nounKind o.noun) = true)
include h hkind

theorem deliver_resolved : s.deliver o = let u := s.keepNoun (s.dieOfOp o) o.ctx o.noun
    match s.resolveOp o with
    | .fault sub => (u.without o.id).answerFault o sub
    | .stale => (u.without o.id).answerCode o 3
    | .notarget => (u.without o.id).answerCode o 4
    | .leaf l rights n => u.deliverAt o l rights n
    | .away m rights n => u.drawn.forwardNoun o m n rights := by
  rw [State.deliver]
  exact if_neg (by rw [takesNoun_self h, hkind]; decide)

theorem deliver_fault {sub : BitVec 8} (hres : s.resolveOp o = .fault sub) :
    ∃ c d, s.deliver o = ((s.cached c d).without o.id).answerFault o sub := by
  obtain ⟨c, d, hkeep⟩ := keepNoun_cached s (s.dieOfOp o) o.ctx o.noun
  exact ⟨c, d, by rw [deliver_resolved h hkind, hres, hkeep]⟩

theorem deliver_stale (hres : s.resolveOp o = .stale) : ∃ c d, s.deliver o = ((s.cached c d).without o.id).answerCode o 3 := by
  obtain ⟨c, d, hkeep⟩ := keepNoun_cached s (s.dieOfOp o) o.ctx o.noun
  exact ⟨c, d, by rw [deliver_resolved h hkind, hres, hkeep]⟩

theorem deliver_leaf {l : Leaf} {rights : Nat} {n : Word} (hres : s.resolveOp o = .leaf l rights n) :
    ∃ c d, s.deliver o = (s.cached c d).deliverAt o l rights n := by
  obtain ⟨c, d, hkeep⟩ := keepNoun_cached s (s.dieOfOp o) o.ctx o.noun
  exact ⟨c, d, by rw [deliver_resolved h hkind, hres, hkeep]⟩

end

/-! ### Resolution in the noun's own table (R193) -/

/-- An entry is read as it stands in the table. -/
theorem leafSeen_fresh {n : Word} (h : Fresh s n) (die : Option Nat) (k : Nat) :
    s.leafSeen die k n = (s.leafOf n).map fun a => s.leafNow n (readLeaf s.mem a) := by
  have hcopy (ws : List Word) (hws : die.bind (fun d => copyIn s.nounCache d (nounCtx n) (nounIndex n)) = some ws) :
      ∃ a, s.leafOf n = some a ∧ ws = [(readLeaf s.mem a).word0, (readLeaf s.mem a).word1] := by
    obtain ⟨d, -, hd⟩ := Option.bind_eq_some_iff.1 hws
    obtain ⟨c, hc, rfl⟩ := Option.map_eq_some_iff.1 hd
    have hfor := List.find?_some hc
    simp only [TabCopy.isFor, Bool.and_eq_true, beq_iff_eq] at hfor
    obtain ⟨-, hctx, hindex⟩ := hfor
    exact h c (List.mem_of_find?_eq_some hc) hctx hindex
  have hseen : seenWords s.draws k ((s.findLeaf n).map fun e => [e.2.word0, e.2.word1])
      (die.bind fun d => copyIn s.nounCache d (nounCtx n) (nounIndex n)) =
        (s.leafOf n).map fun a => [(readLeaf s.mem a).word0, (readLeaf s.mem a).word1] := by
    have htable : (s.findLeaf n).map (fun e => [e.2.word0, e.2.word1]) =
        (s.leafOf n).map fun a => [(readLeaf s.mem a).word0, (readLeaf s.mem a).word1] := by rw [State.findLeaf, Option.map_map]; rfl
    rw [htable]
    unfold seenWords
    split
    · rfl
    · next ws hws =>
      obtain ⟨a, ha, rfl⟩ := hcopy ws hws
      rw [ha]
      exact ite_self _
  rw [State.leafSeen, hseen, Option.map_map]
  rfl

section
variable (h : Deliverable s o k sd sf pc)
include h

theorem resolveOp_own : s.resolveOp o = s.resolveNoun (s.dieOfOp o) o.ctx o.noun (s.takesNoun o) o.act.right := by
  rw [State.resolveOp, h.plain]
  rfl

theorem resolveOp_otherContext (hctx : nounCtx o.noun ≠ o.ctx) : s.resolveOp o = .fault 0x01 := by
  rw [resolveOp_own h, State.resolveNoun]
  exact if_pos (bne_iff_ne.2 hctx)

variable (hctx : nounCtx o.noun = o.ctx) (hfresh : Fresh s o.noun)
include hctx hfresh

theorem resolveOp_noEntry (hleaf : s.leafOf o.noun = none) : s.resolveOp o = .fault 0x02 := by
  rw [resolveOp_own h, State.resolveNoun, leafSeen_fresh hfresh, hleaf]
  exact if_neg (by simp [hctx])

variable {a : Nat} {l : Leaf} (hleaf : s.leafOf o.noun = some a) (hl : s.leafNow o.noun (readLeaf s.mem a) = l)
include hleaf hl

theorem resolveOp_entry : s.resolveOp o =
    if l.state == stFree || l.gen != nounGen o.noun then .stale
    else if l.rights &&& o.act.right != o.act.right then .fault 0x03
    else if l.state != stGrant then .leaf l l.rights o.noun
    else if !s.takesNoun o l.word1 then .notarget
    else match s.homeOf (nounCtx l.word1) with
      | some m => .away m l.rights l.word1
      | none => match s.leafSeen (s.dieOfOp o) 1 l.word1 with
        | none => .fault 0x02
        | some f => foreignLeaf f l.word1 l.rights o.act.right := by
  rw [resolveOp_own h, State.resolveNoun, leafSeen_fresh hfresh, hleaf]
  exact (if_neg (by simp [hctx])).trans (by rw [Option.map_some, hl] <;> rfl)

theorem resolveOp_stale (hgone : l.state = stFree ∨ l.gen ≠ nounGen o.noun) : s.resolveOp o = .stale := by
  rw [resolveOp_entry h hctx hfresh hleaf hl]
  exact if_pos (by simpa using hgone)

variable (hstate : l.state ≠ stFree) (hgen : l.gen = nounGen o.noun)
include hstate hgen

theorem resolveOp_noRight (hright : l.rights &&& o.act.right ≠ o.act.right) : s.resolveOp o = .fault 0x03 := by
  rw [resolveOp_entry h hctx hfresh hleaf hl, if_neg (by simp [hstate, hgen])]
  exact if_pos (bne_iff_ne.2 hright)

theorem resolveOp_leaf (hright : l.rights &&& o.act.right = o.act.right) (hgrant : l.state ≠ stGrant) :
    s.resolveOp o = .leaf l l.rights o.noun := by
  rw [resolveOp_entry h hctx hfresh hleaf hl, if_neg (by simp [hstate, hgen]), if_neg (by simp [hright])]
  exact if_pos (bne_iff_ne.2 hgrant)

end

/-! ### Replies to a fragment (R380, R382) -/

/-- An operation has been answered to its fragment, and is no longer outstanding. -/
def NounOp.Answered (o : NounOp) (s t : State) (k : Nat) (pc : Word) (ws : List (SReg × Word)) (st : BitVec 32) : Prop :=
  (t.nouns = s.nouns.filter fun x => x.id != o.id) ∧ ∃ y : Reply, t.replies = s.replies ++ [y] ∧
    y.id = o.id ∧ y.frag = k ∧ y.pc = pc ∧ y.writes = ws ∧ y.status = st ∧ y.exn = none

/-- Memory, phrases, fragments and joins stand. -/
def Still (s t : State) : Prop := t.mem = s.mem ∧ t.phrases = s.phrases ∧ t.frags = s.frags ∧ t.joins = s.joins

/-- The reply of an answer. -/
def NounOp.reply (o : NounOp) (k : Nat) (sd sf : SReg) (pc value word : Word) : Reply :=
  { id := o.id, frag := k, pc := pc, writes := if o.act.pair then [(sd, value), (sf, word)] else [(sd, word)]
    status := answerStatus o.act word, waits := o.act.pair, acq := if answerAcquires o.act word then some .sys else none }

theorem answer_frag (hsrc : o.src = .frag k sd sf pc) (u : State) (value word : Word) :
    u.answer o value word = { u with replies := u.replies ++ [o.reply k sd sf pc value word] } := by
  rw [State.answer, hsrc]
  rfl

/-- The registers and STATUS bits of an answer. -/
theorem answered_of_answer (hsrc : o.src = .frag k sd sf pc) {u : State} (hnouns : u.nouns = s.nouns.filter fun x => x.id != o.id)
    (hreplies : u.replies = s.replies) (value word : Word) : o.Answered s (u.answer o value word) k pc
      (if o.act.pair then [(sd, value), (sf, word)] else [(sd, word)]) (answerStatus o.act word) := by
  rw [answer_frag hsrc]
  exact ⟨hnouns, o.reply k sd sf pc value word, by rw [hreplies], rfl, rfl, rfl, rfl, rfl, rfl⟩

theorem still_answer (hsrc : o.src = .frag k sd sf pc) {u : State} (h : Still s u) (value word : Word) : Still s (u.answer o value word) := by
  rw [answer_frag hsrc]
  exact h

theorem still_without (s : State) (c : List TabCopy) (d id : Nat) : Still s ((s.cached c d).without id) := ⟨rfl, rfl, rfl, rfl⟩

/-- The STATUS bits of a target that has gone. -/
theorem answerStatus_stale (act : NounAct) : answerStatus act (wordOf 3) = statusNoundead := by cases act <;> rfl
theorem answerStatus_notarget (act : NounAct) : answerStatus act (wordOf 4) = 0 := by cases act <;> rfl

end

end Sys2Proof.Machine

namespace Sys2Proof.Machine

/-! ### Delivery by the state of the entry (R383) -/

/-- An operation on a phrase or a host thread: nwake, nsignal or ndeposit. -/
def NounAct.toTarget : NounAct → Bool
  | .wake | .signal _ | .deposit _ _ _ => true
  | _ => false

/-- The answer to an operation that has acted: its code, in the state that it leaves. -/
def NounOp.acted (o : NounOp) (r : Nat × State) : State := r.2.answerCode o r.1

section
variable {s : State} {o : NounOp} {l : Leaf} {rights : Nat} {n : Word}

theorem deliverAt_test (hact : o.act = .test) :
    s.deliverAt o l rights n = (s.without o.id).answer o 0 (resultWord rights l.state l.xcause l.xstat 0) := by
  rw [State.deliverAt, hact]
  rfl

theorem deliverAt_joinDead (hact : o.act = .join) (hdead : l.state = stDead) :
    s.deliverAt o l rights n = (s.without o.id).answer o l.word1 (resultWord 0 stDead l.xcause l.xstat 0) := by
  rw [State.deliverAt, hact]
  exact if_pos (beq_iff_eq.2 hdead)

theorem deliverAt_joinWaits (hact : o.act = .join) (hlive : l.state ≠ stDead) :
    s.deliverAt o l rights n = { s.without o.id with joins := s.joins ++ [⟨o.id, o.src, n⟩] } := by
  rw [State.deliverAt, hact]
  exact if_neg (by simpa using hlive)

theorem deliverAt_cancelDead (hact : o.act = .cancel) (hdead : l.state = stDead) :
    s.deliverAt o l rights n = (s.without o.id).answerCode o 2 := by
  rw [State.deliverAt, hact]
  exact if_pos (beq_iff_eq.2 hdead)

/-- Where an operation on a phrase or a host thread goes; `away` and `moved` are its outcomes on another module and at a migration. -/
theorem deliverAt_toTarget (hact : o.act.toTarget = true) : ∃ away moved : State, s.deliverAt o l rights n =
    if l.state == stDead then (s.without o.id).answerCode o 2
    else if l.state == stRunning then
      if moduleOfLoc l.word1.toNat != s.moduleNo then away
      else match s.phraseByNoun n with
        | some p => o.acted ((s.without o.id).coreAct p o.act)
        | none => (s.without o.id).answerCode o 0
    else if l.state == stSaved || l.state == stSwapped then o.acted ((s.without o.id).imageAct n l.word1.toNat o.act)
    else if l.state == stHost then
      if o.mailFail || (s.hostPort (s.hportOf (nounCtx n))).gone then (s.without o.id).answerCode o 2
      else if s.mailUnready (nounCtx n) l.word1 then s.askHost (s.hportOf (nounCtx n)) (nounCtx n) (pageOf l.word1) true false
      else o.acted ((s.without o.id).mailAct (s.hostAddr (s.hportOf (nounCtx n)) (nounCtx n) l.word1.toNat) o.act)
    else moved := by
  rw [State.deliverAt]
  cases hop : o.act with
  | wake => exact ⟨_, _, rfl⟩
  | signal b => exact ⟨_, _, rfl⟩
  | deposit r v force => exact ⟨_, _, rfl⟩
  | join => rw [hop] at hact; cases hact
  | test => rw [hop] at hact; cases hact
  | cancel => rw [hop] at hact; cases hact
  | resume v => rw [hop] at hact; cases hact

section
variable (hact : o.act.toTarget = true)
include hact

theorem deliverAt_dead (hdead : l.state = stDead) : s.deliverAt o l rights n = (s.without o.id).answerCode o 2 := by
  obtain ⟨away, moved, h⟩ := deliverAt_toTarget (s := s) (l := l) (rights := rights) (n := n) hact
  rw [h, if_pos (beq_iff_eq.2 hdead)]

theorem deliverAt_running {p : Nat} (hstate : l.state = stRunning) (hhere : moduleOfLoc l.word1.toNat = s.moduleNo)
    (hp : s.phraseByNoun n = some p) : s.deliverAt o l rights n = o.acted ((s.without o.id).coreAct p o.act) := by
  obtain ⟨away, moved, h⟩ := deliverAt_toTarget (s := s) (l := l) (rights := rights) (n := n) hact
  rw [h, hp, if_neg (by rw [hstate]; decide), if_pos (beq_iff_eq.2 hstate), if_neg (by simp [hhere])]

theorem deliverAt_image (hstate : l.state = stSaved ∨ l.state = stSwapped) :
    s.deliverAt o l rights n = o.acted ((s.without o.id).imageAct n l.word1.toNat o.act) := by
  obtain ⟨away, moved, h⟩ := deliverAt_toTarget (s := s) (l := l) (rights := rights) (n := n) hact
  rcases hstate with hstate | hstate <;> rw [h, hstate] <;> rfl

section
variable (hstate : l.state = stHost)
include hstate

theorem deliverAt_host : s.deliverAt o l rights n =
    if o.mailFail || (s.hostPort (s.hportOf (nounCtx n))).gone then (s.without o.id).answerCode o 2
    else if s.mailUnready (nounCtx n) l.word1 then s.askHost (s.hportOf (nounCtx n)) (nounCtx n) (pageOf l.word1) true false
    else o.acted ((s.without o.id).mailAct (s.hostAddr (s.hportOf (nounCtx n)) (nounCtx n) l.word1.toNat) o.act) := by
  obtain ⟨away, moved, h⟩ := deliverAt_toTarget (s := s) (l := l) (rights := rights) (n := n) hact
  rw [h, hstate]
  rfl

theorem deliverAt_hostGone (hgone : o.mailFail = true ∨ (s.hostPort (s.hportOf (nounCtx n))).gone = true) :
    s.deliverAt o l rights n = (s.without o.id).answerCode o 2 := by
  rw [deliverAt_host hact hstate]
  exact if_pos (by simpa using hgone)

variable (hhost : o.mailFail = false) (hport : (s.hostPort (s.hportOf (nounCtx n))).gone = false)
include hhost hport

theorem deliverAt_hostAsked (hmiss : s.atcHit (s.hportOf (nounCtx n)) (nounCtx n) (pageOf l.word1) true = false) :
    s.deliverAt o l rights n = s.askHost (s.hportOf (nounCtx n)) (nounCtx n) (pageOf l.word1) true false := by
  rw [deliverAt_host hact hstate, if_neg (by simp [hhost, hport])]
  exact if_pos (by rw [State.mailUnready, hmiss]; rfl)

theorem deliverAt_mailbox (hhit : s.atcHit (s.hportOf (nounCtx n)) (nounCtx n) (pageOf l.word1) true = true) :
    s.deliverAt o l rights n =
      o.acted ((s.without o.id).mailAct (s.hostAddr (s.hportOf (nounCtx n)) (nounCtx n) l.word1.toNat) o.act) := by
  rw [deliverAt_host hact hstate, if_neg (by simp [hhost, hport])]
  exact if_neg (by rw [State.mailUnready, hhit]; decide)

end

end

end

/-! ### Words (R391, R440) -/

/-- The fields of an entry that has been given a new state. -/
theorem fields_to (l : Leaf) {state : Nat} (hstate : state < 8) (xstat xcause mdest : Nat) (w : Word) :
    let l' := l.to state xstat xcause mdest w
    l'.state = state ∧ l'.rights = l.rights ∧ l'.gen = l.gen ∧ l'.xstat = xstat % 256 ∧ l'.xcause = xcause % 256 := by
  have hrights : l.rights < 2 ^ 5 := Nat.mod_lt _ (by decide)
  have hgen : l.gen < 2 ^ 8 := Nat.mod_lt _ (by decide)
  have hword : (l.to state xstat xcause mdest w).word0.toNat = state * 2 ^ 61 + l.rights * 2 ^ 56 + l.gen * 2 ^ 48 + (xstat % 256) * 2 ^ 40 +
      (xcause % 256) * 2 ^ 32 + mdest % 2 ^ 25 := by
    rw [word0_to, wordOf, BitVec.toNat_ofNat, Nat.mod_eq_of_lt (by unfold at'; omega)]
    rfl
  intro l'
  generalize l.rights = r at hrights hword ⊢
  generalize l.gen = g at hgen hword ⊢
  simp only [Leaf.state, Leaf.rights, Leaf.gen, Leaf.xstat, Leaf.xcause, field, l', hword, Nat.shiftRight_eq_div_pow]
  omega

/-- Numbers side by side in a word. -/
theorem or_of_fields {b c d : Nat} (a : Nat) (hb : b < 2 ^ 8) (hc : c < 2 ^ 8) (hd : d < 2 ^ 8) :
    a <<< 32 ||| b <<< 24 ||| c <<< 16 ||| d <<< 8 = a * 2 ^ 32 + b * 2 ^ 24 + c * 2 ^ 16 + d * 2 ^ 8 := by
  have h1 : c <<< 16 ||| d <<< 8 = c <<< 16 + d <<< 8 := (Nat.shiftLeft_add_eq_or_of_lt (by rw [Nat.shiftLeft_eq]; omega) c).symm
  have h2 : b <<< 24 ||| (c <<< 16 + d <<< 8) = b <<< 24 + (c <<< 16 + d <<< 8) :=
    (Nat.shiftLeft_add_eq_or_of_lt (by rw [Nat.shiftLeft_eq, Nat.shiftLeft_eq]; omega) b).symm
  have h3 : a <<< 32 ||| (b <<< 24 + (c <<< 16 + d <<< 8)) = a <<< 32 + (b <<< 24 + (c <<< 16 + d <<< 8)) :=
    (Nat.shiftLeft_add_eq_or_of_lt (by rw [Nat.shiftLeft_eq, Nat.shiftLeft_eq, Nat.shiftLeft_eq]; omega) a).symm
  rw [Nat.or_assoc, Nat.or_assoc, h1, h2, h3]
  simp only [Nat.shiftLeft_eq]
  omega

/-- The result word, its fields side by side. -/
theorem resultWord_eq (r : BitVec 5) (st : BitVec 3) (xc xs : BitVec 8) : resultWord r.toNat st.toNat xc.toNat xs.toNat 0 =
    r.setWidth 64 <<< 32 ||| st.setWidth 64 <<< 24 ||| xc.setWidth 64 <<< 16 ||| xs.setWidth 64 <<< 8 := by
  have hr := r.isLt
  have hst := st.isLt
  have hxc := xc.isLt
  have hxs := xs.isLt
  apply BitVec.eq_of_toNat_eq
  simp only [BitVec.toNat_or, BitVec.toNat_shiftLeft, BitVec.toNat_setWidth, resultWord, wordOf, at', BitVec.toNat_ofNat]
  have hmod {x n sh : Nat} (hx : x < 2 ^ n) (hsh : n + sh ≤ 64) : (x % 2 ^ 64) <<< sh % 2 ^ 64 = x <<< sh := by
    have hwide : x * 2 ^ sh < 2 ^ 64 := calc
      x * 2 ^ sh < 2 ^ n * 2 ^ sh := Nat.mul_lt_mul_of_pos_right hx (Nat.two_pow_pos sh)
      _ = 2 ^ (n + sh) := (Nat.pow_add 2 n sh).symm
      _ ≤ 2 ^ 64 := Nat.pow_le_pow_right (by decide) hsh
    rw [Nat.mod_eq_of_lt (hx.trans_le (Nat.pow_le_pow_right (by decide) (by omega))), Nat.shiftLeft_eq, Nat.mod_eq_of_lt hwide]
  rw [hmod hr (by decide), hmod hst (by decide), hmod hxc (by decide), hmod hxs (by decide), or_of_fields r.toNat (by omega) hxc hxs]
  omega

end Sys2Proof.Machine

namespace Sys2Proof.Machine

/-! ### The header of an image or a mailbox (R384, R386) -/

/-- A word of a header with further bits set. -/
theorem toNat_header_or (m : Mem) (d : Nat) (x : Word) : readNat m d 8 ||| x.toNat = (BitVec.ofNat 64 (readNat m d 8) ||| x).toNat := by
  have hlt : readNat m d 8 < 2 ^ 64 := readNat_lt m d 8
  rw [BitVec.toNat_or, BitVec.toNat_ofNat, Nat.mod_eq_of_lt hlt]

theorem testBit_header (m : Mem) (d : Nat) {i : Nat} (hi : i < 64) :
    (readNat m d 8).testBit i = (BitVec.ofNat 64 (readNat m d 8)).getLsbD i := by
  rw [BitVec.getLsbD_ofNat, decide_eq_true hi, Bool.true_and]

theorem toNat_signal (b : BitVec 16) : (b.setWidth 64 <<< 16 : Word).toNat = b.toNat * 2 ^ 16 := by
  have hb := b.isLt
  rw [BitVec.toNat_shiftLeft, BitVec.toNat_setWidth, Nat.shiftLeft_eq]
  omega

theorem toNat_depositBit (r : BitVec 2) : (BitVec.twoPow 64 r.toNat).toNat = 2 ^ r.toNat :=
  BitVec.toNat_twoPow_of_lt (by have := r.isLt; omega)

/-- The writes of a signal, of a deposit, and of a wake (R384, R386). -/
def orHeader (m : Mem) (d : Nat) (x : Word) : Mem := writeNat d 8 (BitVec.ofNat 64 (readNat m d 8) ||| x).toNat m
def deposited (m : Mem) (d : Nat) (r : BitVec 2) (v : Word) : Mem :=
  writeNat d 8 (BitVec.ofNat 64 (readNat m d 8) ||| BitVec.twoPow 64 r.toNat).toNat (writeNat (d + 16 + 8 * r.toNat) 8 v.toNat m)
def mailWoken (m : Mem) (d : Nat) : Mem := writeNat (d + 8) 8 (readNat m (d + 8) 8 + 1) (orHeader m d 0x10)

section
variable {m : Mem} (hwf : Memory.wf m) (d : Nat)
include hwf

theorem orHeader_word (x : Word) : readNat (orHeader m d x) d 8 = (BitVec.ofNat 64 (readNat m d 8) ||| x).toNat := readNat_writeNat_word hwf d _

theorem orHeader_other (x : Word) {k : Nat} (hk : k < d ∨ d + 8 ≤ k) : readByte (orHeader m d x) k = readByte m k :=
  readByte_writeNat_other _ hk hwf

theorem orHeader_wf (x : Word) : Memory.wf (orHeader m d x) := writeNat_wf _ _ _ hwf

theorem deposited_words (r : BitVec 2) (v : Word) :
    readNat (deposited m d r v) d 8 = (BitVec.ofNat 64 (readNat m d 8) ||| BitVec.twoPow 64 r.toNat).toNat ∧
    readNat (deposited m d r v) (d + 16 + 8 * r.toNat) 8 = v.toNat := by
  have hwf1 : Memory.wf (writeNat (d + 16 + 8 * r.toNat) 8 v.toNat m) := writeNat_wf _ _ _ hwf
  refine ⟨readNat_writeNat_word hwf1 d _, ?_⟩
  rw [deposited, readNat_writeNat_other hwf1 _ (.inr (by omega)), readNat_writeNat_word hwf]

theorem deposited_other (r : BitVec 2) (v : Word) {k : Nat} (hk : k < d ∨ d + 8 ≤ k)
    (hr : k < d + 16 + 8 * r.toNat ∨ d + 24 + 8 * r.toNat ≤ k) : readByte (deposited m d r v) k = readByte m k := by
  rw [deposited, readByte_writeNat_other _ hk (writeNat_wf _ _ _ hwf), readByte_writeNat_other _ (by omega) hwf]

theorem mailWoken_words : readNat (mailWoken m d) d 8 = (BitVec.ofNat 64 (readNat m d 8) ||| 0x10).toNat ∧
    readNat (mailWoken m d) (d + 8) 8 = (readNat m (d + 8) 8 + 1) % 2 ^ 64 := by
  have hwf1 := orHeader_wf hwf d 0x10
  refine ⟨?_, ?_⟩
  · rw [mailWoken, readNat_writeNat_other hwf1 _ (.inl (by omega)), orHeader_word hwf]
  · rw [mailWoken, readNat_writeNat _ _ _ hwf1]
    rfl

theorem mailWoken_other {k : Nat} (hk : k < d ∨ d + 16 ≤ k) : readByte (mailWoken m d) k = readByte m k := by
  rw [mailWoken, readByte_writeNat_other _ (by omega) (orHeader_wf hwf d 0x10), orHeader_other hwf d _ (by omega)]

end

section
variable (s : State) (n : Word) (d : Nat)

theorem mailAct_signal (b : BitVec 16) : s.mailAct d (.signal b) = (0, { s with mem := orHeader s.mem d (b.setWidth 64 <<< 16) }) := by
  simp only [orHeader, ← toNat_header_or, toNat_signal]
  rfl

/-- A deposit into a register that is free, or by force. -/
theorem mailAct_deposit {r : BitVec 2} {force : Bool} (v : Word)
    (h : (BitVec.ofNat 64 (readNat s.mem d 8)).getLsbD r.toNat = false ∨ force = true) :
    s.mailAct d (.deposit r v force) = (0, { s with mem := deposited s.mem d r v }) := by
  rw [← testBit_header _ _ (by have := r.isLt; omega)] at h
  simp only [deposited, ← toNat_header_or, toNat_depositBit]
  exact if_neg (by rcases h with h | h <;> simp [h])

theorem mailAct_busy {r : BitVec 2} (v : Word) (h : (BitVec.ofNat 64 (readNat s.mem d 8)).getLsbD r.toNat = true) :
    s.mailAct d (.deposit r v false) = (1, s) := by
  rw [← testBit_header _ _ (by have := r.isLt; omega)] at h
  exact if_pos (by rw [h]; rfl)

/-- Only a wake finds an image other than a mailbox. -/
theorem imageAct_eq_mailAct {act : NounAct} (h : act ≠ .wake) : s.imageAct n d act = s.mailAct d act := by
  cases act with
  | wake => exact absurd rfl h
  | signal | deposit | join | test | cancel | resume => rfl

theorem mailAct_wake : s.mailAct d .wake = (0, { s with mem := mailWoken s.mem d }) := by
  simp only [mailWoken, orHeader, ← toNat_header_or]
  rfl

theorem imageAct_wake (h : (BitVec.ofNat 64 (readNat s.mem d 8)).getLsbD 5 = false) :
    s.imageAct n d .wake = (0, { s with mem := orHeader s.mem d 0x10 }) := by
  rw [← testBit_header _ _ (by decide)] at h
  simp only [orHeader, ← toNat_header_or]
  exact if_neg (by rw [h]; decide)

end

/-! ### The core of a running phrase (R123, R389) -/

theorem frag_acquire (s : State) (k j : Nat) (sc : Scope) : let f := (s.acquire k sc).frag j
    f.pc = (s.frag j).pc ∧ f.wait = (s.frag j).wait ∧ f.sregs = (s.frag j).sregs := by
  unfold State.acquire State.putFence
  split
  · extract_lets f0 miss s1 s2 s3 f
    have h1 : s1.frags = s.frags := keeps_ite State.frags (fun _ => rfl) fun _ => rfl
    have h2 : s3.bump.tidy.frag j = s2.frag j := rfl
    have hf1 : s1.frag j = s.frag j := by rw [State.frag, h1, State.frag]
    rw [show f = s2.frag j from h2]
    by_cases hj : j = k
    · subst hj
      rw [show s2.frag j = _ from frag_updFrag_same s1 j _, hf1]
      exact ⟨rfl, rfl, rfl⟩
    · rw [show s2.frag j = _ from frag_updFrag_other s1 _ hj, hf1]
      exact ⟨rfl, rfl, rfl⟩
  · exact ⟨rfl, rfl, rfl⟩

theorem nouns_acquire (s : State) (k : Nat) (sc : Scope) : (s.acquire k sc).nouns = s.nouns := by
  refine keeps_ite State.nouns (fun _ => ?_) fun _ => rfl
  unfold State.putFence
  exact keeps_ite State.nouns (fun _ => rfl) fun _ => rfl

end Sys2Proof.Machine

namespace Sys2Proof.Machine

/-! ### A wake of a phrase that sleeps (R123) -/

/-- A fragment is woken from its sleep (R123). -/
def State.wakeFrag (s : State) (k : Nat) : State := (s.updFrag k Frag.resume).acquire k .sys

/-- A fragment's address, wait and registers. -/
def Frag.stand (f : Frag) : Word × Wait × Tbl Word := (f.pc, f.wait, f.sregs)

theorem stand_wakeFrag (s : State) (k j : Nat) : ((s.wakeFrag k).frag j).stand =
    if j = k then ((s.frag j).pc + 4, .none, (s.frag j).sregs) else (s.frag j).stand := by
  obtain ⟨hpc, hwait, hsregs⟩ := frag_acquire (s.updFrag k Frag.resume) k j .sys
  rw [State.wakeFrag, Frag.stand, hpc, hwait, hsregs]
  split
  · next h => rw [h, frag_updFrag_same]; rfl
  · next h => rw [frag_updFrag_other s _ h]; rfl

/-- Each sleeper is woken once. -/
theorem stand_wakeFrags {ks : List Nat} (hnodup : ks.Nodup) (s : State) (j : Nat) : ((ks.foldl State.wakeFrag s).frag j).stand =
    if j ∈ ks then ((s.frag j).pc + 4, .none, (s.frag j).sregs) else (s.frag j).stand := by
  induction ks generalizing s with
  | nil => rfl
  | cons k ks ih =>
    obtain ⟨hk, hks⟩ := List.nodup_cons.1 hnodup
    rw [List.foldl_cons, ih hks]
    have hstep := stand_wakeFrag s k j
    by_cases hj : j = k
    · subst hj
      rw [if_neg hk, if_pos List.mem_cons_self, hstep, if_pos rfl]
    · rw [if_neg hj] at hstep
      simp only [Frag.stand, Prod.mk.injEq] at hstep ⊢
      obtain ⟨hpc, hwait, hsregs⟩ := hstep
      simp only [hpc, hwait, hsregs, List.mem_cons, hj, false_or]

/-- The fragments of a phrase that sleep. -/
def State.sleepers (s : State) (p : Nat) : List Nat := (s.fragsOf p).filter fun k => (s.frag k).wait == .sleep

theorem wakePhrase_awake {s : State} {p : Nat} (h : ∀ j ∈ s.fragsOf p, (s.frag j).wait ≠ .sleep) :
    s.wakePhrase p = s.updPhr p fun q => { q with wakep := true } := by
  have hnone : (s.fragsOf p).filter (fun k => (s.frag k).wait == .sleep) = [] :=
    List.filter_eq_nil_iff.2 fun j hj => by simpa using h j hj
  rw [State.wakePhrase, hnone]
  rfl

theorem wakePhrase_asleep {s : State} {p j : Nat} (hj : j ∈ s.sleepers p) :
    s.wakePhrase p = (s.sleepers p).foldl State.wakeFrag (s.updPhr p fun q => { q with wakep := false }) :=
  if_neg (by
    rw [List.isEmpty_iff]
    exact List.ne_nil_of_mem hj)

theorem nouns_wakePhrase (s : State) (p : Nat) : (s.wakePhrase p).nouns = s.nouns :=
  keeps_ite State.nouns (fun _ => rfl) fun _ => keeps_foldl State.nouns (fun t k => nouns_acquire (t.updFrag k Frag.resume) k .sys) _ _

/-! ### The codes of answers (R380, R391) -/

theorem field_resultWord (rights state xcause xstat : Nat) : field (resultWord rights state xcause xstat 0) 0 8 = 0 := by
  simp only [field, resultWord, wordOf, at', BitVec.toNat_ofNat, Nat.shiftRight_eq_div_pow]
  omega

theorem answerStatus_done (act : NounAct) : answerStatus act (wordOf 0) = 0 := by cases act <;> rfl

theorem answerStatus_dead {act : NounAct} (h : act.toTarget = true ∨ act = .cancel) : answerStatus act (wordOf 2) = statusNoundead := by
  cases act with
  | wake | signal | deposit | cancel => rfl
  | join | test | resume => rcases h with h | h <;> cases h

theorem answerStatus_busy (r : BitVec 2) (v : Word) (force : Bool) : answerStatus (.deposit r v force) (wordOf 1) = statusNounbusy := rfl

/-- A result word with code 0 sets no bit of STATUS. -/
theorem answerStatus_result {act : NounAct} (h : act = .test ∨ act = .join) (rights state xcause xstat : Nat) :
    answerStatus act (resultWord rights state xcause xstat 0) = 0 := by
  rcases h with rfl | rfl <;> exact if_neg (by rw [field_resultWord]; decide)

theorem pair_of_toTarget {act : NounAct} (h : act.toTarget = true ∨ act = .cancel) : act.pair = false := by
  cases act with
  | wake | signal | deposit | cancel | test => rfl
  | join | resume => rcases h with h | h <;> cases h

/-- Deposits are to s60 to s63. -/
theorem depositReg_ne_zero (r : BitVec 2) : (60 + r.setWidth 6 : SReg) ≠ 0 := by
  revert r
  decide

/-! ### What a delivery gives -/

/-- The writes of an answer with a code alone. -/
def NounOp.codeWrites (o : NounOp) (sd sf : SReg) (code : Nat) : List (SReg × Word) :=
  if o.act.pair then [(sd, 0), (sf, BitVec.ofNat 64 code)] else [(sd, BitVec.ofNat 64 code)]

/-- An operation reaches an entry of its issuer's own table. -/
def Reaches (s : State) (o : NounOp) (l : Leaf) : Prop :=
  ∃ c d, exec (.nounDelivery o.id) s = .next ((s.cached c d).deliverAt o l l.rights o.noun)

section
variable {s : State} {o : NounOp} {k : Nat} {sd sf : SReg} {pc : Word} {l : Leaf} (hsrc : o.src = .frag k sd sf pc)
include hsrc

/-- An operation is answered with a code alone, in a state that keeps memory, phrases, fragments and joins. -/
theorem answeredCode (c : List TabCopy) (d code : Nat) : let t := ((s.cached c d).without o.id).answerCode o code
    o.Answered s t k pc (o.codeWrites sd sf code) (answerStatus o.act (wordOf code)) ∧ Still s t :=
  ⟨answered_of_answer (u := (s.cached c d).without o.id) hsrc rfl rfl _ _, still_answer hsrc (still_without s c d o.id) _ _⟩

/-- An operation that has acted is answered in the state that it leaves. -/
theorem answeredActed (hpair : o.act.pair = false) {u : State} (hnouns : u.nouns = s.nouns.filter fun x => x.id != o.id)
    (hreplies : u.replies = s.replies) (code : Nat) :
    o.Answered s (o.acted (code, u)) k pc [(sd, wordOf code)] (answerStatus o.act (wordOf code)) := by
  have h := answered_of_answer (k := k) (sd := sd) (sf := sf) (pc := pc) hsrc hnouns hreplies 0 (wordOf code)
  rwa [hpair] at h

/-- The answer adds a reply alone. -/
theorem acted_eq (code : Nat) (u : State) : o.acted (code, u) = { u with replies := u.replies ++ [o.reply k sd sf pc 0 (wordOf code)] } :=
  answer_frag hsrc u 0 (wordOf code)

theorem mem_acted (code : Nat) (u : State) : (o.acted (code, u)).mem = u.mem := by rw [acted_eq hsrc]
theorem nouns_acted (code : Nat) (u : State) : (o.acted (code, u)).nouns = u.nouns := by rw [acted_eq hsrc]
theorem phrases_acted (code : Nat) (u : State) : (o.acted (code, u)).phrases = u.phrases := by rw [acted_eq hsrc]
theorem frags_acted (code : Nat) (u : State) : (o.acted (code, u)).frags = u.frags := by rw [acted_eq hsrc]

theorem phr_acted (code : Nat) (u : State) (p : Nat) : (o.acted (code, u)).phr p = u.phr p := by
  rw [State.phr, phrases_acted hsrc, State.phr]

theorem frag_acted (code : Nat) (u : State) (j : Nat) : (o.acted (code, u)).frag j = u.frag j := by
  rw [State.frag, frags_acted hsrc, State.frag]

variable (hreach : Reaches s o l)
include hreach

theorem gives_test (hact : o.act = .test) : Gives (exec (.nounDelivery o.id) s) fun t => Still s t ∧
    o.Answered s t k pc [(sd, resultWord l.rights l.state l.xcause l.xstat 0)] 0 := by
  obtain ⟨c, d, h⟩ := hreach
  rw [deliverAt_test hact] at h
  have hanswer := answered_of_answer (u := (s.cached c d).without o.id) (s := s) hsrc rfl rfl 0 (resultWord l.rights l.state l.xcause l.xstat 0)
  rw [answerStatus_result (.inl hact), hact] at hanswer
  exact ⟨_, h, still_answer hsrc (still_without s c d o.id) _ _, hanswer⟩

theorem gives_joinDead (hact : o.act = .join) (hdead : l.state = stDead) : Gives (exec (.nounDelivery o.id) s) fun t => Still s t ∧
    o.Answered s t k pc [(sd, l.word1), (sf, resultWord 0 stDead l.xcause l.xstat 0)] 0 := by
  obtain ⟨c, d, h⟩ := hreach
  rw [deliverAt_joinDead hact hdead] at h
  have hanswer := answered_of_answer (u := (s.cached c d).without o.id) (s := s) hsrc rfl rfl l.word1 (resultWord 0 stDead l.xcause l.xstat 0)
  rw [answerStatus_result (.inr hact), hact] at hanswer
  exact ⟨_, h, still_answer hsrc (still_without s c d o.id) _ _, hanswer⟩

theorem gives_dead (hact : o.act.toTarget = true ∨ o.act = .cancel) (hdead : l.state = stDead) :
    Gives (exec (.nounDelivery o.id) s) fun t => o.Answered s t k pc [(sd, 2)] statusNoundead ∧ Still s t := by
  obtain ⟨c, d, h⟩ := hreach
  have hanswer := answeredCode (s := s) hsrc c d 2
  rw [NounOp.codeWrites, pair_of_toTarget hact, answerStatus_dead hact] at hanswer
  refine ⟨_, h, ?_⟩
  rcases hact with hact | hact
  · rw [deliverAt_dead hact hdead]
    exact hanswer
  · rw [deliverAt_cancelDead hact hdead]
    exact hanswer

omit hsrc in
theorem gives_joinWaits (hact : o.act = .join) (hlive : l.state ≠ stDead) : Gives (exec (.nounDelivery o.id) s) fun t =>
    (t.nouns = s.nouns.filter fun x => x.id != o.id) ∧ t.joins = s.joins ++ [⟨o.id, o.src, o.noun⟩] ∧ t.mem = s.mem ∧
      t.replies = s.replies ∧ t.phrases = s.phrases ∧ t.frags = s.frags := by
  obtain ⟨c, d, h⟩ := hreach
  rw [deliverAt_joinWaits hact hlive] at h
  exact ⟨_, h, rfl, rfl, rfl, rfl, rfl, rfl⟩

/-! ### At a running phrase of this module (R389) -/

section
variable (hstate : l.state = stRunning) (hhere : moduleOfLoc l.word1.toNat = s.moduleNo) {q : Nat} (hq : s.phraseByNoun o.noun = some q)
include hstate hhere hq

omit hsrc in
theorem reaches_core (hact : o.act.toTarget = true) : ∃ c d, exec (.nounDelivery o.id) s =
    .next (o.acted (((s.cached c d).without o.id).coreAct q o.act)) := by
  obtain ⟨c, d, h⟩ := hreach
  exact ⟨c, d, h.trans (congrArg _ (deliverAt_running (s := s.cached c d) hact hstate hhere hq))⟩

theorem gives_signal {b : BitVec 16} (hact : o.act = .signal b) : Gives (exec (.nounDelivery o.id) s) fun t =>
    o.Answered s t k pc [(sd, 0)] 0 ∧ (t.phr q).sigp = (s.phr q).sigp ||| b ∧ t.frags = s.frags ∧ t.mem = s.mem := by
  obtain ⟨c, d, h⟩ := reaches_core hreach hstate hhere hq (by rw [hact]; rfl)
  rw [hact] at h
  have hanswer := answeredActed (s := s) hsrc (by rw [hact]; rfl)
    (u := ((s.cached c d).without o.id).updPhr q fun q => { q with sigp := q.sigp ||| b }) rfl rfl 0
  rw [answerStatus_done] at hanswer
  refine ⟨_, h, hanswer, ?_, frags_acted hsrc .., mem_acted hsrc ..⟩
  rw [State.coreAct, phr_acted hsrc, phr_updPhr_same]
  rfl

theorem gives_deposit {r : BitVec 2} {v : Word} {force : Bool} (hact : o.act = .deposit r v force)
    (hfree : (s.phr q).dpend.getLsbD r.toNat = false ∨ force = true) : Gives (exec (.nounDelivery o.id) s) fun t =>
    o.Answered s t k pc [(sd, 0)] 0 ∧ (t.frag (fragKey q 0)).reg (60 + r.setWidth 6) = v ∧ (t.phr q).dpend.getLsbD r.toNat = true ∧
      t.mem = s.mem := by
  obtain ⟨c, d, h⟩ := reaches_core hreach hstate hhere hq (by rw [hact]; rfl)
  rw [hact] at h
  let u : State := (((s.cached c d).without o.id).updPhr q fun q => { q with dpend := q.dpend ||| BitVec.ofNat 4 (2 ^ r.toNat) }).updFrag
    (fragKey q 0) fun f => f.setReg (60 + r.setWidth 6) v
  have hcore : ((s.cached c d).without o.id).coreAct q (.deposit r v force) = (0, u) := if_neg (by
    show ¬((s.phr q).dpend.getLsbD r.toNat && !force) = true
    rcases hfree with h | h <;> simp [h])
  have hanswer := answeredActed (s := s) hsrc (by rw [hact]; rfl) (u := u) rfl rfl 0
  rw [answerStatus_done] at hanswer
  rw [hcore] at h
  have hr := r.isLt
  refine ⟨_, h, hanswer, ?_, ?_, mem_acted hsrc ..⟩
  · rw [frag_acted hsrc, frag_updFrag_same, reg_setReg, if_pos]
    exact ⟨rfl, depositReg_ne_zero r⟩
  · rw [phr_acted hsrc, phr_updFrag, phr_updPhr_same, BitVec.getLsbD_or, BitVec.getLsbD_ofNat, Nat.testBit_two_pow_self,
      decide_eq_true (by omega : r.toNat < 4)]
    simp

theorem gives_busy {r : BitVec 2} {v : Word} (hact : o.act = .deposit r v false) (hfull : (s.phr q).dpend.getLsbD r.toNat = true) :
    Gives (exec (.nounDelivery o.id) s) fun t => o.Answered s t k pc [(sd, 1)] statusNounbusy ∧ Still s t := by
  obtain ⟨c, d, h⟩ := reaches_core hreach hstate hhere hq (by rw [hact]; rfl)
  rw [hact] at h
  have hcore : ((s.cached c d).without o.id).coreAct q (.deposit r v false) = (1, (s.cached c d).without o.id) := if_pos (by
    show ((s.phr q).dpend.getLsbD r.toNat && !false) = true
    rw [hfull]
    rfl)
  have hanswer := answeredCode (s := s) hsrc c d 1
  rw [NounOp.codeWrites, hact, answerStatus_busy] at hanswer
  rw [hcore] at h
  exact ⟨_, h, hanswer⟩

theorem gives_wakeRecorded (hact : o.act = .wake) (hawake : ∀ j ∈ s.fragsOf q, (s.frag j).wait ≠ .sleep) :
    Gives (exec (.nounDelivery o.id) s) fun t =>
      o.Answered s t k pc [(sd, 0)] 0 ∧ (t.phr q).wakep = true ∧ t.frags = s.frags ∧ t.mem = s.mem := by
  obtain ⟨c, d, h⟩ := reaches_core hreach hstate hhere hq (by rw [hact]; rfl)
  rw [hact, State.coreAct, wakePhrase_awake (s := (s.cached c d).without o.id) hawake] at h
  have hanswer := answeredActed (s := s) hsrc (by rw [hact]; rfl)
    (u := ((s.cached c d).without o.id).updPhr q fun q => { q with wakep := true }) rfl rfl 0
  rw [answerStatus_done] at hanswer
  refine ⟨_, h, hanswer, ?_, frags_acted hsrc .., mem_acted hsrc ..⟩
  rw [phr_acted hsrc, phr_updPhr_same]

theorem gives_wakeSleeper (hact : o.act = .wake) (hnodup : (s.fragsOf q).Nodup) {j : Nat} (hj : j ∈ s.fragsOf q)
    (hsleep : (s.frag j).wait = .sleep) : Gives (exec (.nounDelivery o.id) s) fun t =>
      (t.nouns = s.nouns.filter fun x => x.id != o.id) ∧ t.mem = s.mem ∧ (t.frag j).pc = (s.frag j).pc + 4 ∧ (t.frag j).wait = .none ∧
        ∀ x : SReg, (t.frag j).reg x = (s.frag j).reg x := by
  obtain ⟨c, d, h⟩ := reaches_core hreach hstate hhere hq (by rw [hact]; rfl)
  rw [hact, State.coreAct] at h
  let u : State := (s.cached c d).without o.id
  have hin : j ∈ u.sleepers q := List.mem_filter.2 ⟨hj, beq_iff_eq.2 hsleep⟩
  have hstand : ((u.wakePhrase q).frag j).stand = ((s.frag j).pc + 4, .none, (s.frag j).sregs) := by
    have hsleepers : (u.sleepers q).Nodup := hnodup.filter _
    rw [wakePhrase_asleep hin, stand_wakeFrags hsleepers, if_pos hin]
    rfl
  simp only [Frag.stand, Prod.mk.injEq] at hstand
  obtain ⟨hpc, hwait, hsregs⟩ := hstand
  refine ⟨_, h, (nouns_acted hsrc ..).trans (nouns_wakePhrase u q), (mem_acted hsrc ..).trans (wakePhrase_mem u q), ?_⟩
  rw [frag_acted hsrc]
  exact ⟨hpc, hwait, fun x => by rw [Frag.reg, Frag.reg, hsregs]⟩

end

end

end Sys2Proof.Machine

namespace Sys2Proof.Machine

/-- A port that has asked for nothing asks for a page. -/
theorem askHost_asks {s : State} {hp : Bool} (h : (s.hostPort hp).reqs = []) (ctx page : Nat) (writes : Bool) :
    ∃ r ∈ ((s.askHost hp ctx page writes false).hostPort hp).reqs, r.ctx = ctx ∧ r.page = page ∧ r.write = writes ∧ r.pri = false := by
  let r : HostReq := { ctx := ctx, page := page, write := writes, pri := false, quiet := false, since := s.dtime }
  refine ⟨r, ?_, rfl, rfl, rfl, rfl⟩
  rw [State.askHost, h]
  cases hp with
  | false => exact List.mem_append_right _ (List.mem_singleton.2 rfl)
  | true => exact List.mem_append_right _ (List.mem_singleton.2 rfl)

section
variable {s : State} {o : NounOp} {k : Nat} {sd sf : SReg} {pc : Word} {l : Leaf} (hsrc : o.src = .frag k sd sf pc)
include hsrc

/-! ### At an image or a mailbox (R383, R384, R386) -/

/-- A header has been written with a word, and phrases and fragments stand. -/
def HeadSet (s t : State) (d : Nat) (x : Word) : Prop := readNat t.mem d 8 = x.toNat ∧ t.phrases = s.phrases ∧ t.frags = s.frags

/-- An operation has written memory, and is answered with code 0. -/
theorem answered_written (hpair : o.act.pair = false) (c : List TabCopy) (d : Nat) (m : Mem) :
    let t := o.acted (0, { (s.cached c d).without o.id with mem := m })
    o.Answered s t k pc [(sd, 0)] 0 ∧ t.mem = m ∧ t.phrases = s.phrases ∧ t.frags = s.frags := by
  have hanswer := answeredActed (s := s) hsrc hpair (u := { (s.cached c d).without o.id with mem := m }) rfl rfl 0
  rw [answerStatus_done] at hanswer
  exact ⟨hanswer, mem_acted hsrc .., phrases_acted hsrc .., frags_acted hsrc ..⟩

section
variable (hwf : Memory.wf s.mem) {d : Nat}
include hwf

/-- A signal, or a wake of an image, at a header. -/
theorem gives_orHeader (hpair : o.act.pair = false) {x : Word}
    (hreach : ∃ c e, exec (.nounDelivery o.id) s = .next (o.acted (0, { (s.cached c e).without o.id with mem := orHeader s.mem d x }))) :
    Gives (exec (.nounDelivery o.id) s) fun t => o.Answered s t k pc [(sd, 0)] 0 ∧ HeadSet s t d (BitVec.ofNat 64 (readNat s.mem d 8) ||| x) ∧
      ∀ i, i < d ∨ d + 8 ≤ i → readByte t.mem i = readByte s.mem i := by
  obtain ⟨c, e, h⟩ := hreach
  obtain ⟨hanswer, hmem, hphrases, hfrags⟩ := answered_written (s := s) hsrc hpair c e (orHeader s.mem d x)
  refine ⟨_, h, hanswer, ⟨?_, hphrases, hfrags⟩, fun i hi => ?_⟩ <;> rw [hmem]
  · exact orHeader_word hwf d x
  · exact orHeader_other hwf d x hi

theorem gives_deposited {r : BitVec 2} {v : Word} (hpair : o.act.pair = false)
    (hreach : ∃ c e, exec (.nounDelivery o.id) s = .next (o.acted (0, { (s.cached c e).without o.id with mem := deposited s.mem d r v }))) :
    Gives (exec (.nounDelivery o.id) s) fun t => o.Answered s t k pc [(sd, 0)] 0 ∧
      HeadSet s t d (BitVec.ofNat 64 (readNat s.mem d 8) ||| BitVec.twoPow 64 r.toNat) ∧ readNat t.mem (d + 16 + 8 * r.toNat) 8 = v.toNat ∧
      ∀ i, (i < d ∨ d + 8 ≤ i) → (i < d + 16 + 8 * r.toNat ∨ d + 24 + 8 * r.toNat ≤ i) → readByte t.mem i = readByte s.mem i := by
  obtain ⟨c, e, h⟩ := hreach
  obtain ⟨hanswer, hmem, hphrases, hfrags⟩ := answered_written (s := s) hsrc hpair c e (deposited s.mem d r v)
  obtain ⟨hword, hvalue⟩ := deposited_words hwf d r v
  refine ⟨_, h, hanswer, ⟨?_, hphrases, hfrags⟩, ?_, fun i hi hr => ?_⟩ <;> rw [hmem]
  · exact hword
  · exact hvalue
  · exact deposited_other hwf d r v hi hr

theorem gives_mailWoken (hpair : o.act.pair = false)
    (hreach : ∃ c e, exec (.nounDelivery o.id) s = .next (o.acted (0, { (s.cached c e).without o.id with mem := mailWoken s.mem d }))) :
    Gives (exec (.nounDelivery o.id) s) fun t => o.Answered s t k pc [(sd, 0)] 0 ∧ HeadSet s t d (BitVec.ofNat 64 (readNat s.mem d 8) ||| 0x10) ∧
      readNat t.mem (d + 8) 8 = (readNat s.mem (d + 8) 8 + 1) % 2 ^ 64 ∧ ∀ i, i < d ∨ d + 16 ≤ i → readByte t.mem i = readByte s.mem i := by
  obtain ⟨c, e, h⟩ := hreach
  obtain ⟨hanswer, hmem, hphrases, hfrags⟩ := answered_written (s := s) hsrc hpair c e (mailWoken s.mem d)
  obtain ⟨hword, hcount⟩ := mailWoken_words hwf d
  refine ⟨_, h, hanswer, ⟨?_, hphrases, hfrags⟩, ?_, fun i hi => ?_⟩ <;> rw [hmem]
  · exact hword
  · exact hcount
  · exact mailWoken_other hwf d hi

end

/-- A deposit finds its register taken. -/
theorem gives_taken {r : BitVec 2} {v : Word} (hact : o.act = .deposit r v false)
    (hreach : ∃ c e, exec (.nounDelivery o.id) s = .next (o.acted (1, (s.cached c e).without o.id))) :
    Gives (exec (.nounDelivery o.id) s) fun t => o.Answered s t k pc [(sd, 1)] statusNounbusy ∧ Still s t := by
  obtain ⟨c, e, h⟩ := hreach
  have hanswer := answeredCode (s := s) hsrc c e 1
  rw [NounOp.codeWrites, hact, answerStatus_busy] at hanswer
  exact ⟨_, h, hanswer⟩

/-- What a signal or a deposit does at a header. -/
def HeaderOutcomes (s : State) (o : NounOp) (k : Nat) (sd : SReg) (pc : Word) (d : Nat) : Prop :=
  let h : Word := BitVec.ofNat 64 (readNat s.mem d 8)
  (∀ b, o.act = .signal b → Gives (exec (.nounDelivery o.id) s) fun t => o.Answered s t k pc [(sd, 0)] 0 ∧
    HeadSet s t d (h ||| b.setWidth 64 <<< 16) ∧ ∀ i, i < d ∨ d + 8 ≤ i → readByte t.mem i = readByte s.mem i) ∧
  (∀ r v f, o.act = .deposit r v f → h.getLsbD r.toNat = false ∨ f = true → Gives (exec (.nounDelivery o.id) s) fun t =>
    o.Answered s t k pc [(sd, 0)] 0 ∧ HeadSet s t d (h ||| BitVec.twoPow 64 r.toNat) ∧ readNat t.mem (d + 16 + 8 * r.toNat) 8 = v.toNat ∧
    ∀ i, (i < d ∨ d + 8 ≤ i) → (i < d + 16 + 8 * r.toNat ∨ d + 24 + 8 * r.toNat ≤ i) → readByte t.mem i = readByte s.mem i) ∧
  (∀ r v, o.act = .deposit r v false → h.getLsbD r.toNat = true → Gives (exec (.nounDelivery o.id) s) fun t =>
    o.Answered s t k pc [(sd, 1)] statusNounbusy ∧ Still s t)

/-- Images and mailboxes take signals and deposits alike. -/
theorem headerOutcomes (hwf : Memory.wf s.mem) {d : Nat} (hmail : o.act.toTarget = true → o.act ≠ .wake → ∃ c e,
    exec (.nounDelivery o.id) s = .next (o.acted (((s.cached c e).without o.id).mailAct d o.act))) : HeaderOutcomes s o k sd pc d := by
  refine ⟨fun b hact => ?_, fun r v f hact hfree => ?_, fun r v hact hfull => ?_⟩
  all_goals
    obtain ⟨c, e, h⟩ := hmail (by rw [hact]; rfl) (by rw [hact]; nofun)
    rw [hact] at h
  · rw [mailAct_signal] at h
    exact gives_orHeader hsrc hwf (by rw [hact]; rfl) ⟨c, e, h⟩
  · rw [mailAct_deposit ((s.cached c e).without o.id) d v hfree] at h
    exact gives_deposited hsrc hwf (by rw [hact]; rfl) ⟨c, e, h⟩
  · rw [mailAct_busy ((s.cached c e).without o.id) d v hfull] at h
    exact gives_taken hsrc hact ⟨c, e, h⟩

variable (hreach : Reaches s o l)
include hreach

section
variable (hwf : Memory.wf s.mem) (hstate : l.state = stSaved ∨ l.state = stSwapped)
include hwf hstate

theorem image_outcomes : HeaderOutcomes s o k sd pc l.word1.toNat := by
  refine headerOutcomes hsrc hwf fun hact hwake => ?_
  obtain ⟨c, e, h⟩ := hreach
  exact ⟨c, e, h.trans (by rw [deliverAt_image hact hstate, imageAct_eq_mailAct _ _ _ hwake])⟩

theorem image_wake (hact : o.act = .wake) (hquiet : (BitVec.ofNat 64 (readNat s.mem l.word1.toNat 8)).getLsbD 5 = false) :
    Gives (exec (.nounDelivery o.id) s) fun t => o.Answered s t k pc [(sd, 0)] 0 ∧
      HeadSet s t l.word1.toNat (BitVec.ofNat 64 (readNat s.mem l.word1.toNat 8) ||| 0x10) ∧
      ∀ i, i < l.word1.toNat ∨ l.word1.toNat + 8 ≤ i → readByte t.mem i = readByte s.mem i := by
  obtain ⟨c, e, h⟩ := hreach
  rw [deliverAt_image (by rw [hact]; rfl) hstate, hact, imageAct_wake ((s.cached c e).without o.id) o.noun l.word1.toNat hquiet] at h
  exact gives_orHeader hsrc hwf (by rw [hact]; rfl) ⟨c, e, h⟩

end

/-! ### At a host thread's mailbox (R149, R386; log 54) -/

section
variable (hact : o.act.toTarget = true) (hstate : l.state = stHost)
include hact hstate

theorem gives_hostGone (hgone : o.mailFail = true ∨ (s.hostPort (s.hportOf (nounCtx o.noun))).gone = true) :
    Gives (exec (.nounDelivery o.id) s) fun t => o.Answered s t k pc [(sd, 2)] statusNoundead ∧ Still s t := by
  obtain ⟨c, d, h⟩ := hreach
  have hanswer := answeredCode (s := s) hsrc c d 2
  rw [NounOp.codeWrites, pair_of_toTarget (.inl hact), answerStatus_dead (.inl hact)] at hanswer
  rw [deliverAt_hostGone (s := s.cached c d) hact hstate hgone] at h
  exact ⟨_, h, hanswer⟩

variable (hhost : o.mailFail = false) (hport : (s.hostPort (s.hportOf (nounCtx o.noun))).gone = false)
include hhost hport

omit hsrc in
theorem gives_hostAsked (hmiss : s.atcHit (s.hportOf (nounCtx o.noun)) (nounCtx o.noun) (pageOf l.word1) true = false)
    (hnone : (s.hostPort (s.hportOf (nounCtx o.noun))).reqs = []) :
    Gives (exec (.nounDelivery o.id) s) fun t => t.nouns = s.nouns ∧ t.replies = s.replies ∧ Still s t ∧
      ∃ r ∈ (t.hostPort (s.hportOf (nounCtx o.noun))).reqs, r.ctx = nounCtx o.noun ∧ r.page = pageOf l.word1 ∧ r.write = true ∧ r.pri = false := by
  obtain ⟨c, d, h⟩ := hreach
  have hasked : exec (.nounDelivery o.id) s =
      .next ((s.cached c d).askHost (s.hportOf (nounCtx o.noun)) (nounCtx o.noun) (pageOf l.word1) true false) :=
    h.trans (congrArg _ (deliverAt_hostAsked (s := s.cached c d) hact hstate hhost hport hmiss))
  have hposts : Posts (s.cached c d) _ := askHost_posts (s.cached c d) (s.hportOf (nounCtx o.noun)) (nounCtx o.noun) (pageOf l.word1) true false
  refine ⟨_, hasked, ?_, ?_, ?_, askHost_asks (s := s.cached c d) hnone _ _ _⟩ <;> rw [hposts]
  · rfl
  · rfl
  · exact ⟨rfl, rfl, rfl, rfl⟩

omit hsrc in
theorem mailbox_reached (hhit : s.atcHit (s.hportOf (nounCtx o.noun)) (nounCtx o.noun) (pageOf l.word1) true = true) : ∃ c e,
    exec (.nounDelivery o.id) s = .next (o.acted (((s.cached c e).without o.id).mailAct
      (s.hostAddr (s.hportOf (nounCtx o.noun)) (nounCtx o.noun) l.word1.toNat) o.act)) := by
  obtain ⟨c, d, h⟩ := hreach
  rw [deliverAt_mailbox (s := s.cached c d) hact hstate hhost hport hhit] at h
  exact ⟨c, d, h⟩

section
variable (hhit : s.atcHit (s.hportOf (nounCtx o.noun)) (nounCtx o.noun) (pageOf l.word1) true = true) (hwf : Memory.wf s.mem)
include hhit hwf

theorem mailbox_outcomes : HeaderOutcomes s o k sd pc (s.hostAddr (s.hportOf (nounCtx o.noun)) (nounCtx o.noun) l.word1.toNat) :=
  headerOutcomes hsrc hwf fun _ _ => mailbox_reached hreach hact hstate hhost hport hhit

theorem mailbox_wake (hwake : o.act = .wake) : let d := s.hostAddr (s.hportOf (nounCtx o.noun)) (nounCtx o.noun) l.word1.toNat
    Gives (exec (.nounDelivery o.id) s) fun t => o.Answered s t k pc [(sd, 0)] 0 ∧ HeadSet s t d (BitVec.ofNat 64 (readNat s.mem d 8) ||| 0x10) ∧
      readNat t.mem (d + 8) 8 = (readNat s.mem (d + 8) 8 + 1) % 2 ^ 64 ∧ ∀ i, i < d ∨ d + 16 ≤ i → readByte t.mem i = readByte s.mem i := by
  obtain ⟨c, e, h⟩ := mailbox_reached hreach hact hstate hhost hport hhit
  rw [hwake, mailAct_wake] at h
  exact gives_mailWoken hsrc hwf (by rw [hwake]; rfl) ⟨c, e, h⟩

end

end

end

end Sys2Proof.Machine

namespace Sys2Proof.Machine

/-! ### Outcomes before the entry (R193, R381) -/

/-- An operation has taken a NOUN fault. -/
def NounOp.Faulted (o : NounOp) (s t : State) (k : Nat) (pc : Word) (sub : BitVec 8) : Prop :=
  (t.nouns = s.nouns.filter fun x => x.id != o.id) ∧ Still s t ∧ ∃ y : Reply, t.replies = s.replies ++ [y] ∧ y.frag = k ∧ y.pc = pc ∧
    y.writes = [] ∧ y.exn = some { cause := .noun, sub := sub, mask := 0, data := o.noun, kind := .scalar }

theorem toTarget_of {act : NounAct} (h : act = .wake ∨ (∃ b, act = .signal b) ∨ (∃ n v f, act = .deposit n v f)) : act.toTarget = true := by
  rcases h with rfl | ⟨b, rfl⟩ | ⟨n, v, f, rfl⟩ <;> rfl

theorem toTarget_or_cancel_of {act : NounAct} (h : act ∈ [.wake, .cancel] ∨ (∃ b, act = .signal b) ∨ (∃ n v f, act = .deposit n v f)) :
    act.toTarget = true ∨ act = .cancel := by
  rcases h with h | h
  · rcases List.mem_cons.1 h with rfl | h
    · exact .inl rfl
    · exact .inr (List.mem_singleton.1 h)
  · exact .inl (toTarget_of (.inr h))

section
variable {s : State} {o : NounOp} {k : Nat} {sd sf : SReg} {pc : Word} (h : Deliverable s o k sd sf pc)
include h

theorem gives_wrongKind (hkind : kindOk o.act (nounKind o.noun) = false) : Gives (exec (.nounDelivery o.id) s) fun t =>
    o.Answered s t k pc (o.codeWrites sd sf 4) 0 ∧ Still s t := by
  have hanswer := answeredCode (s := s) h.source s.nounCache s.draws 4
  rw [answerStatus_notarget] at hanswer
  exact ⟨_, (exec_delivery h).trans (congrArg _ (deliver_wrongKind h hkind)), hanswer⟩

variable (hkind : kindOk o.act (nounKind o.noun) = true)
include hkind

theorem gives_fault {sub : BitVec 8} (hres : s.resolveOp o = .fault sub) :
    Gives (exec (.nounDelivery o.id) s) fun t => o.Faulted s t k pc sub := by
  obtain ⟨c, d, hdeliver⟩ := deliver_fault h hkind hres
  refine ⟨_, (exec_delivery h).trans (congrArg _ hdeliver), ?_⟩
  rw [State.answerFault, h.source]
  exact ⟨rfl, ⟨rfl, rfl, rfl, rfl⟩, _, rfl, rfl, rfl, rfl, rfl⟩

theorem gives_stale (hres : s.resolveOp o = .stale) : Gives (exec (.nounDelivery o.id) s) fun t =>
    o.Answered s t k pc (o.codeWrites sd sf 3) statusNoundead ∧ Still s t := by
  obtain ⟨c, d, hdeliver⟩ := deliver_stale h hkind hres
  have hanswer := answeredCode (s := s) h.source c d 3
  rw [answerStatus_stale] at hanswer
  exact ⟨_, (exec_delivery h).trans (congrArg _ hdeliver), hanswer⟩

theorem reaches_leaf {l : Leaf} (hres : s.resolveOp o = .leaf l l.rights o.noun) : Reaches s o l := by
  obtain ⟨c, d, hdeliver⟩ := deliver_leaf h hkind hres
  exact ⟨c, d, (exec_delivery h).trans (congrArg _ hdeliver)⟩

end

/-! ### The entry as operations see it (R440) -/

theorem leafNow_live {s : State} {n : Word} (h : (s.ctx (nounCtx n)).killed = false) (l : Leaf) : s.leafNow n l = l := if_neg (by simp [h])

theorem leafNow_killed {s : State} {n : Word} {l : Leaf} (h : (s.ctx (nounCtx n)).killed = true) (hfree : l.state ≠ stFree)
    (hgrant : l.state ≠ stGrant) (hdead : l.state ≠ stDead) : s.leafNow n l = l.to stDead xKilled 0 0 0 :=
  if_pos (by simp [h, hfree, hgrant, hdead])

/-- What a phrase noun's waiter reads of a killed context. -/
theorem resultWord_killed : resultWord 0 stDead 0 xKilled 0 = (6 : Word) <<< 24 ||| 2 <<< 8 := by decide

theorem resultWord_dead (xc xs : BitVec 8) : resultWord 0 stDead xc.toNat xs.toNat 0 =
    (6 : Word) <<< 24 ||| xc.setWidth 64 <<< 16 ||| xs.setWidth 64 <<< 8 := by
  have h := resultWord_eq 0 6 xc xs
  rwa [show (0 : BitVec 5).setWidth 64 <<< 32 ||| (6 : BitVec 3).setWidth 64 <<< 24 = (6 : Word) <<< 24 by decide] at h

/-- The fields of a word and of a noun, as bits. -/
theorem gen_eq_iff (l : Leaf) (n : Word) : l.gen = nounGen n ↔ l.word0.extractLsb' 48 8 = n.extractLsb' 34 8 := by
  rw [Leaf.gen, nounGen, field_eq_extractLsb', field_eq_extractLsb', BitVec.toNat_inj]

theorem resultWord_leaf (l : Leaf) : resultWord l.rights l.state l.xcause l.xstat 0 =
    (l.word0.extractLsb' 56 5).setWidth 64 <<< 32 ||| (l.word0.extractLsb' 61 3).setWidth 64 <<< 24 |||
      (l.word0.extractLsb' 32 8).setWidth 64 <<< 16 ||| (l.word0.extractLsb' 40 8).setWidth 64 <<< 8 := by
  rw [← resultWord_eq, Leaf.rights, Leaf.state, Leaf.xcause, Leaf.xstat, field_eq_extractLsb', field_eq_extractLsb', field_eq_extractLsb',
    field_eq_extractLsb']

theorem resultWord_deadLeaf (l : Leaf) : resultWord 0 stDead l.xcause l.xstat 0 =
    (6 : Word) <<< 24 ||| (l.word0.extractLsb' 32 8).setWidth 64 <<< 16 ||| (l.word0.extractLsb' 40 8).setWidth 64 <<< 8 := by
  rw [← resultWord_dead, Leaf.xcause, Leaf.xstat, field_eq_extractLsb', field_eq_extractLsb']

theorem moduleOfLoc_word (w : Word) : moduleOfLoc w.toNat = (w.extractLsb' 15 10).toNat := by
  rw [moduleOfLoc, fieldNat, BitVec.extractLsb'_toNat]

section
variable {s : State} {o : NounOp} {k : Nat} {sd sf : SReg} {pc : Word} (h : Deliverable s o k sd sf pc)
  (hkind : kindOk o.act (nounKind o.noun) = true) (hctx : nounCtx o.noun = o.ctx) (hfresh : Fresh s o.noun) {a : Nat}
  (hleaf : s.leafOf o.noun = some a)
include h hkind hctx hfresh hleaf

/-- The noun of a killed context is found DEAD. -/
theorem reaches_killed (hkilled : (s.ctx o.ctx).killed = true) {l : Leaf} (hl : readLeaf s.mem a = l) (hfree : l.state ≠ stFree)
    (hdead : l.state ≠ stDead) (hgrant : l.state ≠ stGrant) (hgen : l.gen = nounGen o.noun) (hright : l.rights &&& o.act.right = o.act.right) :
    Reaches s o (l.to stDead xKilled 0 0 0) := by
  subst hl
  obtain ⟨hstate, hrights, hgen', -, -⟩ := fields_to (readLeaf s.mem a) (by decide : stDead < 8) xKilled 0 0 0
  refine reaches_leaf h hkind (resolveOp_leaf h hctx hfresh hleaf (leafNow_killed (by rw [hctx]; exact hkilled) hfree hgrant hdead) ?_ ?_ ?_ ?_)
  · rw [hstate]
    decide
  · rw [hgen', hgen]
  · rw [hrights, hright]
  · rw [hstate]
    decide

omit hkind hctx hfresh hleaf in
/-- The word of a dead noun of a killed context has XSTAT KILLED and no cause. -/
theorem gives_killedJoin {l : Leaf} (hreach : Reaches s o (l.to stDead xKilled 0 0 0)) (hact : o.act = .join) :
    Gives (exec (.nounDelivery o.id) s) fun t => Still s t ∧ o.Answered s t k pc [(sd, 0), (sf, (6 : Word) <<< 24 ||| 2 <<< 8)] 0 := by
  obtain ⟨hstate, -, -, hxstat, hxcause⟩ := fields_to l (by decide : stDead < 8) xKilled 0 0 0
  have hjoin := gives_joinDead h.source hreach hact hstate
  rw [hxstat, hxcause] at hjoin
  rwa [← resultWord_killed]

end

end Sys2Proof.Machine

namespace Sys2Proof

open Machine

/-- Settles O26: the resolution ends at a fault, a code or the entry (`State.resolveOp`), whose state says where the operation acts. -/
theorem nounDeliveries : Obligations.NounDeliveries := by
  intro s o k sd sf pc hfound hready hplain hsrc hself hcopies rest replied still faulted out code
  have h : Deliverable s o k sd sf pc := ⟨hfound, hready, hplain, hsrc, hself⟩
  have hkindEq : nounKind o.noun = (o.noun.extractLsb' 62 2).toNat := field_eq_extractLsb' o.noun 62 2
  have hctxEq : nounCtx o.noun = (o.noun.extractLsb' 42 20).toNat := field_eq_extractLsb' o.noun 42 20
  have hfresh : Fresh s o.noun := fun c hc hctx hindex => hcopies c hc (hctx.trans hctxEq) (hindex.trans (field_eq_extractLsb' o.noun 0 34))
  rw [← hkindEq, ← hctxEq]
  refine ⟨fun hkind => gives_wrongKind h hkind, fun hkind => ⟨fun hctx => ?_, fun hctx => ⟨fun hleaf => ?_, fun a hleaf => ⟨?_, ?_⟩⟩⟩⟩
  · exact gives_fault h hkind (resolveOp_otherContext h hctx)
  · exact gives_fault h hkind (resolveOp_noEntry h hctx hfresh hleaf)
  · intro hkilled w0 st hfree hdead hgrant hgen hright
    have hst : (readLeaf s.mem a).state = st := field_eq_extractLsb' w0 61 3
    have hrights : (readLeaf s.mem a).rights = (w0.extractLsb' 56 5).toNat := field_eq_extractLsb' w0 56 5
    rw [← hst] at hfree hdead hgrant
    have hreach := reaches_killed h hkind hctx hfresh hleaf hkilled rfl hfree hdead hgrant ((gen_eq_iff _ _).2 hgen) (hrights ▸ hright)
    obtain ⟨hstate, -, -, -, -⟩ := fields_to (readLeaf s.mem a) (by decide : stDead < 8) xKilled 0 0 0
    exact ⟨fun hact => gives_killedJoin h hreach hact,
      fun hact => gives_dead hsrc hreach (toTarget_or_cancel_of hact) hstate⟩
  · intro hlive w0 w1 st p
    have hl : s.leafNow o.noun (readLeaf s.mem a) = readLeaf s.mem a := leafNow_live (by rw [hctx]; exact hlive) _
    have hst : (readLeaf s.mem a).state = st := field_eq_extractLsb' w0 61 3
    have hrights : (readLeaf s.mem a).rights = (w0.extractLsb' 56 5).toNat := field_eq_extractLsb' w0 56 5
    have hgenIff := gen_eq_iff (readLeaf s.mem a) o.noun
    refine ⟨fun hgone => ?_, fun hfree hgen => ⟨fun hright => ?_, fun hright hgrant => ?_⟩⟩
    · refine gives_stale h hkind (resolveOp_stale h hctx hfresh hleaf hl ?_)
      exact hgone.imp hst.trans (mt hgenIff.1)
    · exact gives_fault h hkind (resolveOp_noRight h hctx hfresh hleaf hl (hst.trans_ne hfree) (hgenIff.2 hgen) (hrights ▸ hright))
    have hreach : Reaches s o (readLeaf s.mem a) := reaches_leaf h hkind
      (resolveOp_leaf h hctx hfresh hleaf hl (hst.trans_ne hfree) (hgenIff.2 hgen) (hrights ▸ hright) (hst.trans_ne hgrant))
    refine ⟨fun hact => ?_, fun hact hdead => ?_, fun hact hlives => ?_, fun hdead hact => ?_, fun hrun hhere q hq => ?_,
      fun hwf himage => ?_, fun hhost hact => ?_⟩
    · have htest := gives_test hsrc hreach hact
      rwa [resultWord_leaf] at htest
    · have hjoin := gives_joinDead hsrc hreach hact (hst.trans hdead)
      rwa [resultWord_deadLeaf] at hjoin
    · exact gives_joinWaits hreach hact (hst.trans_ne hlives)
    · exact gives_dead hsrc hreach (toTarget_or_cancel_of hact) (hst.trans hdead)
    · have hhere' : moduleOfLoc (readLeaf s.mem a).word1.toNat = s.moduleNo := (moduleOfLoc_word w1).trans hhere
      exact ⟨fun b hact => gives_signal hsrc hreach (hst.trans hrun) hhere' hq hact,
        fun n v f hact hfree => gives_deposit hsrc hreach (hst.trans hrun) hhere' hq hact hfree,
        fun n v hact hfull => gives_busy hsrc hreach (hst.trans hrun) hhere' hq hact hfull,
        fun hact hawake => gives_wakeRecorded hsrc hreach (hst.trans hrun) hhere' hq hact hawake,
        fun hact hnodup j hj hsleep => gives_wakeSleeper hsrc hreach (hst.trans hrun) hhere' hq hact hnodup hj hsleep⟩
    · intro d word head
      have hsaved := himage.imp hst.trans hst.trans
      obtain ⟨hsignal, hdeposit, hbusy⟩ := image_outcomes hsrc hreach hwf hsaved
      have hwake := image_wake hsrc hreach hwf hsaved
      have hd : (readLeaf s.mem a).word1.toNat = d := rfl
      rw [hd] at hsignal hdeposit hbusy hwake
      exact ⟨hsignal, hwake, hdeposit, hbusy⟩
    · have hstate := hst.trans hhost
      have htarget := toTarget_of hact
      rw [← hctx]
      intro side page
      have hpage : pageOf (readLeaf s.mem a).word1 = page := rfl
      refine ⟨fun hgone => gives_hostGone hsrc hreach htarget hstate hgone, fun hmail hport hmiss hnone => ?_,
        fun hmail hport hhit hwf => ?_⟩
      · rw [← hpage] at hmiss ⊢
        exact gives_hostAsked hreach htarget hstate hmail hport hmiss hnone
      · intro d word head
        have hd : s.hostAddr (s.hportOf (nounCtx o.noun)) (nounCtx o.noun) (readLeaf s.mem a).word1.toNat = d := rfl
        obtain ⟨hsignal, hdeposit, hbusy⟩ := mailbox_outcomes hsrc hreach htarget hstate hmail hport hhit hwf
        have hwake := mailbox_wake hsrc hreach htarget hstate hmail hport hhit hwf
        rw [hd] at hsignal hdeposit hbusy hwake
        exact ⟨hsignal, hwake, hdeposit, hbusy⟩

end Sys2Proof

/-!
# Acknowledgement, replay and keys of a link (O44)

The four flits of the link layer share their checks (`State.onFlit`). An ACK and a change of keys end in `State.keyClearNow`, which may
answer the peer; a replay that fails ends in `State.replayFails`, of which `Restarts` says what comes of its messages.
-/
namespace Sys2Proof.Machine

/-! ### What the four flits share at the receiver (R505, R506) -/

section
variable {s : State} {n typ : Nat} {x : List Byte} (k : State)

theorem onFlit_absent (h : s.flitIn n x = .absent) : s.onFlit n typ x k = .next s := by rw [State.onFlit, h]

theorem onFlit_bad {c : Nat} (h : s.flitIn n x = .bad c) : s.onFlit n typ x k = .next (s.flitFails n c (flitLseq x)) := by
  rw [State.onFlit, h]

theorem onFlit_otherType {text : List Byte} (h : s.flitIn n x = .good text) (htype : flitType x ≠ typ) : s.onFlit n typ x k = .next s := by
  rw [State.onFlit, h]
  exact congrArg _ (if_neg (mt beq_iff_eq.1 htype))

theorem onFlit_good {text : List Byte} (h : s.flitIn n x = .good text) (htype : flitType x = typ) : s.onFlit n typ x k = .next k := by
  rw [State.onFlit, h]
  exact congrArg _ (if_pos (beq_iff_eq.2 htype))

end

/-- A flit of the link layer of a type has come in good order. -/
structure Comes (s : State) (n typ : Nat) (x : List Byte) : Prop where
  up : (s.fport n).up = true
  accepted : s.accepted 3 = true
  peer : (s.fport n).peer ≠ none
  crc : crcGood x = true
  type : flitType x = typ
  opens : (s.opened n x).isSome = true

theorem Comes.onFlit {s : State} {n typ : Nat} {x : List Byte} (h : Comes s n typ x) (k : State) : s.onFlit n typ x k = .next k := by
  obtain ⟨text, htext⟩ := Option.isSome_iff_exists.1 h.opens
  exact onFlit_good k (flitIn_good h.up h.accepted h.peer h.crc htext) h.type

/-- Each flit of the link layer is checked for its own TYPE. -/
theorem exec_linkFlit {port : BitVec 4} {x : List Byte} {busy : Bool} {gen : BitVec 32} (s : State) {i : Instr}
    (hi : i ∈ [Instr.ack port x, .nak port x busy, .keyclear port x gen, .idle ⟨port, x⟩]) :
    ∃ typ k, exec i s = s.onFlit port.toNat typ x k ∧
      ∀ y ∈ [(Instr.ack port x, (3 : Nat)), (.nak port x busy, 4), (.keyclear port x gen, 5), (.idle ⟨port, x⟩, 6)],
        i = y.1 → y.2 = typ := by
  simp only [List.mem_cons, List.not_mem_nil, or_false] at hi
  rcases hi with rfl | rfl | rfl | rfl
  · exact ⟨3, _, rfl, by simp⟩
  · exact ⟨4, _, rfl, by simp⟩
  · exact ⟨5, _, rfl, by simp⟩
  · exact ⟨6, _, rfl, by simp⟩

/-- A good flit counts in FLITRX. -/
def FPort.Heard (p q : FPort) : Prop := tget 0 q.counters cFlitrx = min (2 ^ 48 - 1) (tget 0 p.counters cFlitrx + 1) ∧
  ∀ d, d ≠ cFlitrx → tget 0 q.counters d = tget 0 p.counters d

theorem heard_hear (p : FPort) (x : List Byte) : p.Heard (p.hear x) := ⟨count_flits p (by decide), fun _ hd => count_other p hd⟩

/-- A good flit has been counted. -/
def State.heard (s : State) (n : Nat) (x : List Byte) : State := s.updFport n fun p => p.hear x

@[simp] theorem fport_heard (s : State) (n : Nat) (x : List Byte) : (s.heard n x).fport n = (s.fport n).hear x := fport_updFport_same s n _

/-! ### KEYCLEAR is sent (R508) -/

/-- What a flit that is not kept for replay leaves of its port: the replay buffer, the keys, and CLR. -/
def FPort.stores (p : FPort) : List RetryFlit × List RxKey × BitVec 256 × Bool := (p.retry, p.rx, p.txkey, p.cleared)

section
variable (s : State) (n typ lseq : Nat) (payload : List Byte)

theorem stores_sendFlit (vc dst : Nat) : ((s.sendFlit n typ vc dst lseq payload none).fport n).stores = (s.fport n).stores := by
  by_cases hctr : (s.fport n).txctr.toNat < 2 ^ 32 - 1
  · by_cases hroom : (s.fport n).room = 0
    · rw [sendFlit_full s n typ vc dst lseq payload none hctr hroom]
    · obtain ⟨y, _, hsend⟩ := sendFlit_sends s n typ vc dst lseq payload hctr hroom
      rw [hsend, fport_updFport_same]
      rfl
  · rw [sendFlit_wraps s n typ vc dst lseq payload none (Nat.not_lt.1 hctr), fport_raise, fport_updFport_same]
    rfl

theorem stores_sendLink : ((s.sendLink n typ lseq payload).fport n).stores = (s.fport n).stores := by
  unfold State.sendLink
  split
  · exact stores_sendFlit s n typ lseq payload 0 _
  · rfl

theorem sendLink_alone (h : (s.fport n).peer = none) : s.sendLink n typ lseq payload = s := by rw [State.sendLink, h]

end

/-- Whether KEYCLEAR waits: it has gone, or a flit of another generation is unacknowledged. -/
def FPort.clearWaits (p : FPort) : Bool := p.cleared || p.retry.any fun f => flitGen f.bytes != p.keygen

/-- The port that sends KEYCLEAR sets CLR. -/
def State.clearing (s : State) (n : Nat) : State := s.updFport n fun p => { p with cleared := true }

section
variable {s : State} {n : Nat}

theorem keyClearNow_waits (h : (s.fport n).clearWaits = true) : s.keyClearNow n = s := if_pos h

theorem keyClearNow_sends (h : (s.fport n).clearWaits = false) : ∃ old, s.keyClearNow n = (s.clearing n).sendLink n 5 0 old :=
  ⟨_, if_neg (by rw [← FPort.clearWaits, h]; decide)⟩

theorem keyClearNow_answers (s : State) (n : Nat) : Answers s (s.keyClearNow n) n := by
  cases h : (s.fport n).clearWaits with
  | true =>
    rw [keyClearNow_waits h]
    exact Answers.refl s n
  | false =>
    obtain ⟨old, hsend⟩ := keyClearNow_sends h
    rw [hsend]
    exact (sendLink_answers (s.clearing n) n 5 0 old).after fun _ => ⟨rfl, rfl, rfl, rfl⟩

theorem stores_keyClearNow (s : State) (n : Nat) : ((s.keyClearNow n).fport n).stores =
    ((s.fport n).retry, (s.fport n).rx, (s.fport n).txkey, (s.fport n).cleared || !(s.fport n).clearWaits) := by
  cases h : (s.fport n).clearWaits with
  | true =>
    rw [keyClearNow_waits h, Bool.not_true, Bool.or_false]
    rfl
  | false =>
    obtain ⟨old, hsend⟩ := keyClearNow_sends h
    rw [hsend, stores_sendLink, State.clearing, fport_updFport_same, Bool.not_false, Bool.or_true]
    rfl

/-- Without a peer, KEYCLEAR changes nothing but CLR. -/
theorem keyClearNow_alone (h : (s.fport n).peer = none) : let t := s.keyClearNow n
    t = { s with fabric := { s.fabric with ports := t.fabric.ports } } ∧ t.fport n = { s.fport n with cleared := (t.fport n).cleared } := by
  cases hwait : (s.fport n).clearWaits with
  | true =>
    rw [keyClearNow_waits hwait]
    exact ⟨rfl, rfl⟩
  | false =>
    obtain ⟨old, hsend⟩ := keyClearNow_sends hwait
    have hpeer : ((s.clearing n).fport n).peer = none := by rw [State.clearing, fport_updFport_same]; exact h
    rw [hsend, sendLink_alone _ n 5 0 old hpeer]
    refine ⟨rfl, ?_⟩
    rw [State.clearing, fport_updFport_same]

/-- An answer after an update of the fabric that leaves TXCTR. -/
theorem OnLink.before {u t : State} (h : OnLink u t n) {f : Fabric} (hu : u = { s with fabric := f })
    (hctr : (u.fport n).txctr = (s.fport n).txctr) : OnLink s t n := by
  subst hu
  obtain ⟨hrest, hhost, hraised⟩ := h
  exact ⟨hrest, fun hlt => hhost (by rwa [hctr]), hraised⟩

/-- An answer that does not wrap TXCTR changes the fabric alone. -/
theorem OnLink.still {t : State} (h : OnLink s t n) (hctr : (s.fport n).txctr.toNat < 2 ^ 32 - 1) : t = { s with fabric := t.fabric } := by
  obtain ⟨hrest, hhost, -⟩ := h
  have hsame := hhost hctr
  rw [hsame] at hrest
  exact hrest

end

/-! ### An ACK (R506) -/

/-- The port without the flit of a LSEQ in its replay buffer. -/
def FPort.freed (p : FPort) (lseq : Nat) : FPort := { p with retry := p.retry.filter fun f => f.lseq.toNat != lseq }

theorem acked_eq (s : State) (n lseq : Nat) : ∃ g : Fabric → List OutMsg, s.acked n lseq =
    ((s.updFport n fun p => p.freed lseq).updFabric fun f => { f with kept := g f }).keyClearNow n := ⟨_, rfl⟩

theorem acked_frees (s : State) (n lseq : Nat) : let t := s.acked n lseq
    OnLink s t n ∧ (t.fport n).retry = ((s.fport n).freed lseq).retry ∧ (t.fport n).rx = (s.fport n).rx ∧ t.fabric.outq = s.fabric.outq := by
  obtain ⟨g, heq⟩ := acked_eq s n lseq
  let u : State := (s.updFport n fun p => p.freed lseq).updFabric fun f => { f with kept := g f }
  have hport : u.fport n = (s.fport n).freed lseq := fport_updFport_same s n fun p => p.freed lseq
  have hanswers := keyClearNow_answers u n
  have hstores := stores_keyClearNow u n
  rw [hport] at hstores
  simp only [FPort.stores, Prod.mk.injEq] at hstores
  obtain ⟨hretry, hrx, -, -⟩ := hstores
  rw [heq]
  exact ⟨hanswers.link.before rfl (by rw [hport]; rfl), hretry, hrx, hanswers.outq⟩

/-! ### Messages are sent again (R184, R507) -/

/-- One message enters its queue again, or is held. -/
def Fabric.requeueOne (f : Fabric) (x : List OutMsg × List OutMsg) (m : OutMsg) : List OutMsg × List OutMsg :=
  if m.relay || (!(x.2.any fun h => h.dest == m.dest) && ({ f with outq := x.1 ++ f.outq } : Fabric).admits m) then (x.1 ++ [m], x.2)
  else (x.1, x.2 ++ [m])

theorem requeue_eq (f : Fabric) (ms : List OutMsg) : f.requeue ms =
    { f with outq := (ms.foldl f.requeueOne ([], [])).1 ++ f.outq, held := (ms.foldl f.requeueOne ([], [])).2 ++ f.held } := rfl

theorem requeueOne_cases (f : Fabric) (x : List OutMsg × List OutMsg) (m : OutMsg) :
    f.requeueOne x m = (x.1 ++ [m], x.2) ∨ m.relay = false ∧ f.requeueOne x m = (x.1, x.2 ++ [m]) := by
  unfold Fabric.requeueOne
  split
  · exact .inl rfl
  · next h =>
    simp only [Bool.or_eq_true, not_or, Bool.not_eq_true] at h
    exact .inr ⟨h.1, rfl⟩

theorem requeueOne_perm (f : Fabric) (x : List OutMsg × List OutMsg) (m : OutMsg) :
    ((f.requeueOne x m).1 ++ (f.requeueOne x m).2).Perm (x.1 ++ x.2 ++ [m]) := by
  rcases requeueOne_cases f x m with h | ⟨-, h⟩
  · rw [h, List.append_assoc, List.append_assoc]
    exact List.perm_append_comm.append_left x.1
  · rw [h, List.append_assoc]

/-- Each message is queued or held. -/
theorem foldl_requeueOne_perm (f : Fabric) (ms : List OutMsg) (x : List OutMsg × List OutMsg) :
    ((ms.foldl f.requeueOne x).1 ++ (ms.foldl f.requeueOne x).2).Perm (x.1 ++ x.2 ++ ms) := by
  induction ms generalizing x with
  | nil => rw [List.append_nil]; rfl
  | cons m ms ih =>
    have hstep := (requeueOne_perm f x m).append_right ms
    rw [List.append_assoc (x.1 ++ x.2), List.singleton_append] at hstep
    exact (ih (f.requeueOne x m)).trans hstep

/-- A relayed message is never held. -/
theorem foldl_requeueOne_held (f : Fabric) (ms : List OutMsg) : ∀ m ∈ (ms.foldl f.requeueOne ([], [])).2, m.relay = false := by
  refine foldl_keeps (fun x : List OutMsg × List OutMsg => ∀ m ∈ x.2, m.relay = false) f.requeueOne (fun x m hx => ?_) ms ([], []) (by simp)
  rcases requeueOne_cases f x m with h | ⟨hrelay, h⟩ <;> rw [h]
  · exact hx
  · exact List.forall_mem_append.2 ⟨hx, List.forall_mem_singleton.2 hrelay⟩

/-- Messages have entered the queues before what stood there, or are held before what was held. -/
def Requeued (f f' : Fabric) (ms : List OutMsg) : Prop :=
  ∃ q h, f'.outq = q ++ f.outq ∧ f'.held = h ++ f.held ∧ (q ++ h).Perm ms ∧ ∀ m ∈ h, m.relay = false

theorem requeue_requeued (f : Fabric) (ms : List OutMsg) : Requeued f (f.requeue ms) ms :=
  ⟨_, _, rfl, rfl, foldl_requeueOne_perm f ms ([], []), foldl_requeueOne_held f ms⟩

namespace Requeued

variable {f f' : Fabric} {ms : List OutMsg} (h : Requeued f f' ms)
include h

theorem perm : (f'.outq ++ f'.held).Perm (ms ++ f.outq ++ f.held) := by
  obtain ⟨q, d, houtq, hheld, hperm, -⟩ := h
  calc f'.outq ++ f'.held = q ++ (f.outq ++ (d ++ f.held)) := by rw [houtq, hheld, List.append_assoc]
    _ |>.Perm (q ++ (d ++ (f.outq ++ f.held))) := (List.perm_append_comm_assoc _ _ _).append_left q
    _ |>.Perm (ms ++ f.outq ++ f.held) := by
      rw [← List.append_assoc, List.append_assoc ms]
      exact hperm.append_right _

theorem front : ∃ l, f'.outq = l ++ f.outq := by
  obtain ⟨q, -, houtq, -⟩ := h
  exact ⟨q, houtq⟩

theorem relayed {m : OutMsg} (hm : m ∈ ms) (hrelay : m.relay = true) : m ∈ f'.outq := by
  obtain ⟨q, d, houtq, -, hperm, hheld⟩ := h
  rw [houtq]
  rcases List.mem_append.1 (hperm.mem_iff.2 hm) with hq | hd
  · exact List.mem_append_left _ hq
  · exact absurd ((hheld m hd).symm.trans hrelay) (by decide)

theorem held_of_relayed (hrelay : ∀ m ∈ ms, m.relay = true) : f'.held = f.held := by
  obtain ⟨q, d, -, hheld, hperm, hplain⟩ := h
  have hnone : d = [] := List.eq_nil_iff_forall_not_mem.2 fun m hm =>
    absurd ((hplain m hm).symm.trans (hrelay m (hperm.mem_iff.1 (List.mem_append_right q hm)))) (by decide)
  rw [hheld, hnone, List.nil_append]

end Requeued

/-- The replay of a port has failed: its buffer is gone, REINIT has counted, and the messages `ids` are sent again. -/
structure Restarts (s t : State) (n : Nat) (ids : List Nat) : Prop where
  still : t = { s with fabric := t.fabric }
  reinit : tget 0 (t.fport n).counters cReinit = min (2 ^ 32 - 1) (tget 0 (s.fport n).counters cReinit + 1)
  retry : (t.fport n).retry = []
  peer : (t.fport n).peer = none
  room : (t.fport n).room = 0
  queues : Requeued s.fabric t.fabric (s.fabric.kept.filter fun m => decide (m.id ∈ ids))
  kept : t.fabric.kept = s.fabric.kept.filter fun m => decide (m.id ∉ ids)

/-- The messages of the flits that a port keeps for replay. -/
def FPort.unacked (p : FPort) : List Nat := p.retry.map fun f => f.msg

theorem contains_eraseDups (ids : List Nat) (i : Nat) : ids.eraseDups.contains i = decide (i ∈ ids) := by
  rw [Bool.eq_iff_iff, List.contains_iff_mem, List.mem_eraseDups, decide_eq_true_iff]

/-- The port whose replay has failed. -/
def FPort.restarted (p : FPort) : FPort := { p.count cReinit with retry := [], peer := none, room := 0 }

/-- The messages `ids` leave those that are kept, to be sent again. -/
def Fabric.again (f : Fabric) (ids : List Nat) : Fabric :=
  ({ f with kept := f.kept.filter fun m => decide (m.id ∉ ids) } : Fabric).requeue (f.kept.filter fun m => decide (m.id ∈ ids))

theorem again_requeued (f : Fabric) (ids : List Nat) : Requeued f (f.again ids) (f.kept.filter fun m => decide (m.id ∈ ids)) :=
  requeue_requeued { f with kept := f.kept.filter fun m => decide (m.id ∉ ids) } _

theorem replayFails_eq (s : State) (n : Nat) : s.replayFails n =
    ((s.updFport n FPort.restarted).updFabric fun f => f.again (s.fport n).unacked).keyClearNow n := by
  simp only [State.replayFails, contains_eraseDups, ← decide_not]
  rfl

theorem replayFails_restarts (s : State) (n : Nat) : Restarts s (s.replayFails n) n (s.fport n).unacked := by
  let u : State := (s.updFport n FPort.restarted).updFabric fun f => f.again (s.fport n).unacked
  have hport : u.fport n = (s.fport n).restarted := fport_updFport_same s n _
  have hpeer : (u.fport n).peer = none := by rw [hport]; rfl
  obtain ⟨hrest, hleft⟩ := keyClearNow_alone hpeer
  rw [hport] at hleft
  rw [replayFails_eq]
  have hfabric := congrArg State.fabric hrest
  refine ⟨?_, ?_, ?_, ?_, ?_, ?_, ?_⟩
  · rw [hrest]; rfl
  · rw [hleft]; exact count_events (s.fport n) (by decide)
  · rw [hleft]; rfl
  · rw [hleft]; rfl
  · rw [hleft]; rfl
  · rw [hfabric]; exact again_requeued (s.updFport n FPort.restarted).fabric _
  · rw [hfabric]; rfl

/-- The port may have changed before, but for REINIT. -/
theorem Restarts.before {s t : State} {n : Nat} {ids : List Nat} {g : FPort → FPort} (h : Restarts (s.updFport n g) t n ids)
    (hcount : tget 0 (g (s.fport n)).counters cReinit = tget 0 (s.fport n).counters cReinit) : Restarts s t n ids := by
  obtain ⟨hstill, hreinit, hretry, hpeer, hroom, hqueues, hkept⟩ := h
  rw [fport_updFport_same, hcount] at hreinit
  exact ⟨hstill, hreinit, hretry, hpeer, hroom, hqueues, hkept⟩

/-! ### A NAK (R506) -/

/-- The flits that go out again from a LSEQ on, as they are stored. -/
def FPort.resent (p : FPort) (lseq : Nat) : List (List Byte) :=
  ((p.retry.filter fun f => decide (lseq ≤ f.lseq.toNat)).take p.room).map fun f => f.bytes

theorem resend_all (p : FPort) (lseq : Nat) : p.resend lseq (fun _ => true) =
    { p with out := p.out ++ p.resent lseq, room := p.room - (p.resent lseq).length } := by
  simp only [FPort.resend, FPort.resent, Bool.and_true, ge_iff_le]

/-- A flit with one failure more, if it has the LSEQ. -/
def RetryFlit.failedAt (lseq : Nat) (f : RetryFlit) : RetryFlit := if f.lseq.toNat == lseq then { f with fails := f.fails + 1 } else f

section
variable (lseq : Nat) (f : RetryFlit)

theorem failedAt_keeps : (f.failedAt lseq).lseq = f.lseq ∧ (f.failedAt lseq).bytes = f.bytes ∧ (f.failedAt lseq).msg = f.msg := by
  unfold RetryFlit.failedAt
  split <;> exact ⟨rfl, rfl, rfl⟩

theorem fails_failedAt : (f.failedAt lseq).fails = if f.lseq.toNat = lseq then f.fails + 1 else f.fails := by
  unfold RetryFlit.failedAt
  simp only [beq_iff_eq]
  split <;> rfl

end

/-- The port in which a flit has failed once more. -/
def FPort.failedAt (p : FPort) (lseq : Nat) : FPort := { p with retry := p.retry.map (RetryFlit.failedAt lseq) }

section
variable (p : FPort) (lseq : Nat)

theorem bytes_failedAt : (p.failedAt lseq).retry.map (fun f => f.bytes) = p.retry.map fun f => f.bytes := by
  rw [FPort.failedAt, List.map_map]
  exact List.map_congr_left fun f _ => (failedAt_keeps lseq f).2.1

theorem unacked_failedAt : (p.failedAt lseq).unacked = p.unacked := by
  rw [FPort.unacked, FPort.failedAt, List.map_map]
  exact List.map_congr_left fun f _ => (failedAt_keeps lseq f).2.2

/-- The flits go out as before: a failure changes neither their numbers nor their bytes. -/
theorem resent_failedAt (k : Nat) : (p.failedAt lseq).resent k = p.resent k := by
  have hbytes : (fun f : RetryFlit => f.bytes) ∘ RetryFlit.failedAt lseq = fun f => f.bytes := funext fun f => (failedAt_keeps lseq f).2.1
  have hlseq : (fun f : RetryFlit => decide (k ≤ f.lseq.toNat)) ∘ RetryFlit.failedAt lseq = fun f => decide (k ≤ f.lseq.toNat) :=
    funext fun f => by rw [Function.comp_apply, (failedAt_keeps lseq f).1]
  simp only [FPort.resent, FPort.failedAt, List.filter_map, ← List.map_take, List.map_map, hbytes, hlseq]

/-- A flit of the port fails for the fourth time. -/
def FPort.Fourth : Prop := ∃ f ∈ p.retry, 4 ≤ if f.lseq.toNat = lseq then f.fails + 1 else f.fails

theorem any_failedAt : ((p.failedAt lseq).retry.any fun f => decide (f.fails ≥ 4)) = true ↔ p.Fourth lseq := by
  simp only [FPort.failedAt, List.any_map, List.any_eq_true, Function.comp_apply, fails_failedAt, decide_eq_true_eq, ge_iff_le, FPort.Fourth]

end

section
variable {s : State} {n lseq : Nat}

theorem nakked_unknown (busy : Bool) (h : ∀ f ∈ (s.fport n).retry, f.lseq.toNat ≠ lseq) : s.nakked n lseq busy = s := by
  refine if_pos ?_
  simpa using h

variable (hknown : ∃ f ∈ (s.fport n).retry, f.lseq.toNat = lseq)
include hknown

theorem nakked_known (busy : Bool) : s.nakked n lseq busy =
    if busy then s.updFport n fun p => p.resend lseq fun _ => true
    else if ((s.updFport n fun p => p.failedAt lseq).fport n).retry.any fun f => decide (f.fails ≥ 4) then
      (s.updFport n fun p => p.failedAt lseq).replayFails n
    else (s.updFport n fun p => p.failedAt lseq).updFport n fun p => (p.count cReplay).resend lseq fun _ => true := by
  refine if_neg ?_
  simpa using hknown

theorem nakked_busy : s.nakked n lseq true = s.updFport n fun p => p.resend lseq fun _ => true := nakked_known hknown true

theorem nakked_replays (h : ¬(s.fport n).Fourth lseq) : s.nakked n lseq false =
    (s.updFport n fun p => p.failedAt lseq).updFport n fun p => (p.count cReplay).resend lseq fun _ => true := by
  rw [nakked_known hknown, fport_updFport_same]
  exact if_neg (mt (any_failedAt _ lseq).1 h)

theorem nakked_fails (h : (s.fport n).Fourth lseq) : s.nakked n lseq false = (s.updFport n fun p => p.failedAt lseq).replayFails n := by
  rw [nakked_known hknown, fport_updFport_same]
  exact if_pos ((any_failedAt _ lseq).2 h)

/-! What a NAK of a known flit does once it has been counted. -/

variable (x : List Byte)

theorem known_heard : ∃ f ∈ ((s.heard n x).fport n).retry, f.lseq.toNat = lseq := by
  rw [fport_heard]
  exact hknown

/-- One marked BUSY has the flits sent again, and counts nothing else. -/
theorem heard_nakked_busy : let t := (s.heard n x).nakked n lseq true
    t = { s with fabric := t.fabric } ∧ (t.fport n).out = (s.fport n).out ++ (s.fport n).resent lseq ∧
      (t.fport n).retry = (s.fport n).retry ∧ (s.fport n).Heard (t.fport n) := by
  rw [nakked_busy (known_heard hknown x)]
  refine ⟨rfl, ?_⟩
  rw [fport_updFport_same, fport_heard, resend_all]
  exact ⟨rfl, rfl, heard_hear _ x⟩

/-- Another has them sent again, and counts REPLAY. -/
theorem heard_nakked_replays (h : ¬(s.fport n).Fourth lseq) : let t := (s.heard n x).nakked n lseq false
    t = { s with fabric := t.fabric } ∧ (t.fport n).out = (s.fport n).out ++ (s.fport n).resent lseq ∧
      tget 0 (t.fport n).counters cReplay = min (2 ^ 32 - 1) (tget 0 (s.fport n).counters cReplay + 1) ∧
      (t.fport n).retry.map (fun f => f.bytes) = (s.fport n).retry.map fun f => f.bytes := by
  rw [nakked_replays (known_heard hknown x) (by rw [fport_heard]; exact h)]
  refine ⟨rfl, ?_⟩
  rw [fport_updFport_same, fport_updFport_same, fport_heard, resend_all]
  have hreplay : tget 0 ((s.fport n).hear x).counters cReplay = tget 0 (s.fport n).counters cReplay := count_other _ (by decide)
  refine ⟨congrArg ((s.fport n).out ++ ·) (resent_failedAt ((s.fport n).hear x) lseq lseq), ?_, bytes_failedAt ((s.fport n).hear x) lseq⟩
  rw [← hreplay]
  exact count_events (((s.fport n).hear x).failedAt lseq) (by decide)

/-- At the fourth failure the replay fails. -/
theorem heard_nakked_restarts (h : (s.fport n).Fourth lseq) : Restarts s ((s.heard n x).nakked n lseq false) n (s.fport n).unacked := by
  have hrestarts := replayFails_restarts ((s.heard n x).updFport n fun p => p.failedAt lseq) n
  rw [fport_updFport_same, unacked_failedAt, fport_heard] at hrestarts
  rw [nakked_fails (known_heard hknown x) (by rw [fport_heard]; exact h)]
  have hheard : Restarts (s.heard n x) _ n _ := hrestarts.before rfl
  exact hheard.before (count_other _ (by decide))

end

/-! ### The data period ends (R506) -/

/-- The port after its data period. -/
def FPort.closed (p : FPort) : FPort := { p with peer := none, room := 0 }

section
variable {s : State} {port : BitVec 4}

theorem execDataPeriodEnd_done (h : (s.fport port.toNat).retry = []) :
    execDataPeriodEnd port s = .next (s.updFport port.toNat FPort.closed) := by
  rw [execDataPeriodEnd, h]
  rfl

theorem execDataPeriodEnd_left (h : (s.fport port.toNat).retry ≠ []) :
    execDataPeriodEnd port s = .next ((s.replayFails port.toNat).updFport port.toNat FPort.closed) := by
  rw [execDataPeriodEnd, if_neg (mt List.isEmpty_iff.1 h)]
  rfl

end

theorem Restarts.closed {s t : State} {n : Nat} {ids : List Nat} (h : Restarts s t n ids) :
    Restarts s (t.updFport n FPort.closed) n ids := by
  obtain ⟨hstill, hreinit, hretry, -, -, hqueues, hkept⟩ := h
  have hport := fport_updFport_same t n FPort.closed
  refine ⟨?_, ?_, ?_, ?_, ?_, hqueues, hkept⟩
  · rw [hstill]; rfl
  · rw [hport]; exact hreinit
  · rw [hport]; exact hretry
  · rw [hport]; rfl
  · rw [hport]; rfl

/-! ### A lane fails (R507) -/

/-- The port without a lane. -/
def FPort.lostLane (p : FPort) (lane : Nat) : FPort := { p.count cLanedown with lanes := p.lanes &&& ~~~BitVec.ofNat 4 (2 ^ lane) }

/-- The port has lost a lane, and says so. -/
def State.laneLost (s : State) (n lane : Nat) : State := (s.updFport n fun p => p.lostLane lane).raise 6

/-- The flit times that are left of a slot on `now` of `was` active lanes. -/
def FPort.narrowed (p : FPort) (was now : Nat) : FPort := { p with room := if was == 0 then 0 else p.room * now / was }

/-- The flits of a lane go out on the first active one. -/
def FPort.moved (p : FPort) (lane : Nat) : FPort :=
  let r := (p.count cReplay).resend 0 fun f => f.lane == lane
  { r with retry := r.retry.map fun f => if f.lane == lane then { f with lane := nth 0 p.active 0 } else f }

theorem moved_keeps (p : FPort) (lane : Nat) : (p.moved lane).lanes = p.lanes ∧ (p.moved lane).up = p.up ∧
    tget 0 (p.moved lane).counters cLanedown = tget 0 p.counters cLanedown := ⟨rfl, rfl, count_other p (by decide)⟩

/-- The slot goes on, on the lanes that are left. -/
def State.laneLeft (s : State) (n lane : Nat) : State :=
  (s.laneLost n lane).updFport n fun q => q.narrowed (s.fport n).active.length ((s.laneLost n lane).fport n).active.length

theorem fport_laneLost (s : State) (n lane : Nat) : (s.laneLost n lane).fport n = (s.fport n).lostLane lane := by
  rw [State.laneLost, fport_raise, fport_updFport_same]

theorem lostLane_lanes (p : FPort) (lane : Nat) : (p.lostLane lane).lanes = p.lanes &&& ~~~BitVec.twoPow 4 lane := by
  have hbit : BitVec.ofNat 4 (2 ^ lane) = BitVec.twoPow 4 lane := by
    apply BitVec.eq_of_toNat_eq
    rw [BitVec.toNat_ofNat, BitVec.toNat_twoPow]
  rw [FPort.lostLane, hbit]

/-- A lane that is lost leaves LANEMASK, counts in LANEDOWN and raises vector 6, whatever comes of the slot. -/
theorem laneLost_counts {s t : State} {n lane : Nat} (hrest : t = { s.laneLost n lane with fabric := t.fabric })
    (hlanes : (t.fport n).lanes = ((s.laneLost n lane).fport n).lanes)
    (hcount : tget 0 (t.fport n).counters cLanedown = tget 0 ((s.laneLost n lane).fport n).counters cLanedown) :
    t.mem = s.mem ∧ tget 0 (t.fport n).counters cLanedown = min (2 ^ 32 - 1) (tget 0 (s.fport n).counters cLanedown + 1) ∧ Raised s t 6 ∧
      (t.fport n).lanes = ((s.fport n).lostLane lane).lanes := by
  have hraised : Raised s (s.laneLost n lane) 6 := raised_raise (s.updFport n fun p => p.lostLane lane) 6
  rw [fport_laneLost] at hlanes hcount
  refine ⟨?_, hcount.trans (count_events (s.fport n) (by decide)), ?_, hlanes⟩
  · rw [hrest, State.laneLost, raise_rest]; rfl
  · rw [hrest]; exact hraised

section
variable {s : State} {port : BitVec 4} {lane : BitVec 2}

theorem execLaneFail_already (h : (s.fport port.toNat).lanes.getLsbD lane.toNat = false) : execLaneFail port lane s = .next s :=
  if_pos (by rw [h]; rfl)

variable (h : (s.fport port.toNat).lanes.getLsbD lane.toNat = true)
include h

theorem execLaneFail_eq : execLaneFail port lane s =
    if ((s.fport port.toNat).lostLane lane.toNat).lanes == 0 then
      .next ((s.laneLost port.toNat lane.toNat).updFport port.toNat fun p => { p with up := false })
    else if !((s.fport port.toNat).retry.any fun f => f.lane == lane.toNat) || (s.fport port.toNat).peer.isNone then
      .next (s.laneLeft port.toNat lane.toNat)
    else .next ((s.laneLeft port.toNat lane.toNat).updFport port.toNat fun q => q.moved lane.toNat) :=
  if_neg (by rw [h]; decide)

theorem execLaneFail_last (hlast : ((s.fport port.toNat).lostLane lane.toNat).lanes = 0) : execLaneFail port lane s =
    .next ((s.laneLost port.toNat lane.toNat).updFport port.toNat fun p => { p with up := false }) :=
  (execLaneFail_eq h).trans (if_pos (beq_iff_eq.2 hlast))

/-- What comes of a lane that fails while others stand. -/
theorem execLaneFail_narrows (hleft : ((s.fport port.toNat).lostLane lane.toNat).lanes ≠ 0) : let u := s.laneLost port.toNat lane.toNat
    ∃ t, execLaneFail port lane s = .next t ∧ t = { u with fabric := t.fabric } ∧
      (t.fport port.toNat).lanes = (u.fport port.toNat).lanes ∧ (t.fport port.toNat).up = (u.fport port.toNat).up ∧
      tget 0 (t.fport port.toNat).counters cLanedown = tget 0 (u.fport port.toNat).counters cLanedown ∧
      ((∀ f ∈ (s.fport port.toNat).retry, f.lane ≠ lane.toNat) →
        (t.fport port.toNat).out = (u.fport port.toNat).out ∧ (t.fport port.toNat).retry = (u.fport port.toNat).retry) := by
  intro u
  have heq := (execLaneFail_eq h).trans (if_neg (mt beq_iff_eq.1 hleft))
  split at heq
  · refine ⟨_, heq, rfl, ?_⟩
    rw [State.laneLeft, fport_updFport_same]
    exact ⟨rfl, rfl, rfl, fun _ => ⟨rfl, rfl⟩⟩
  · next hmoved =>
    refine ⟨_, heq, rfl, ?_⟩
    rw [fport_updFport_same, State.laneLeft, fport_updFport_same]
    obtain ⟨hlanes, hup, hcount⟩ := moved_keeps
      ((u.fport port.toNat).narrowed (s.fport port.toNat).active.length (u.fport port.toNat).active.length) lane.toNat
    refine ⟨hlanes, hup, hcount, fun hnone => absurd ?_ hmoved⟩
    simp [List.any_eq_false.2 fun f hf => mt beq_iff_eq.1 (hnone f hf)]

theorem laneFail_gives : Gives (exec (.laneFail port lane) s) fun t => let p := s.fport port.toNat
    let q := t.fport port.toNat
    t.mem = s.mem ∧ tget 0 q.counters cLanedown = min (2 ^ 32 - 1) (tget 0 p.counters cLanedown + 1) ∧ Raised s t 6 ∧
      q.lanes = p.lanes &&& ~~~BitVec.twoPow 4 lane.toNat ∧ (p.lanes &&& ~~~BitVec.twoPow 4 lane.toNat = 0 → q.up = false) ∧
      (p.lanes &&& ~~~BitVec.twoPow 4 lane.toNat ≠ 0 → q.up = p.up ∧
        ((∀ f ∈ p.retry, f.lane ≠ lane.toNat) → q.out = p.out ∧ q.retry = p.retry)) := by
  simp only [← lostLane_lanes]
  by_cases hlast : ((s.fport port.toNat).lostLane lane.toNat).lanes = 0
  · have hport := fport_updFport_same (s.laneLost port.toNat lane.toNat) port.toNat fun p => { p with up := false }
    obtain ⟨hmem, hcount, hraised, hlanes⟩ := laneLost_counts rfl (by rw [hport]) (by rw [hport])
    exact ⟨_, execLaneFail_last h hlast, hmem, hcount, hraised, hlanes, fun _ => by rw [hport], fun hne => absurd hlast hne⟩
  · obtain ⟨t, hrun, hrest, hlanes, hstays, hcount, hunmoved⟩ := execLaneFail_narrows h hlast
    obtain ⟨hmem, hcount, hraised, hlanes⟩ := laneLost_counts hrest hlanes hcount
    rw [fport_laneLost] at hstays hunmoved
    exact ⟨t, hrun, hmem, hcount, hraised, hlanes, fun hzero => absurd hzero hlast, fun _ => ⟨hstays, hunmoved⟩⟩

end

/-! ### A held message is admitted (R184) -/

section
variable {s : State} {dest : BitVec 10}

theorem execFabricQueueAdmit_none (h : s.fabric.held.find? (fun m => m.dest == dest.toNat) = none) : execFabricQueueAdmit dest s = .next s := by
  rw [execFabricQueueAdmit, h]

theorem execFabricQueueAdmit_some {m : OutMsg} (h : s.fabric.held.find? (fun m => m.dest == dest.toNat) = some m) :
    execFabricQueueAdmit dest s = if s.fabric.admits m then
      .next (s.updFabric fun f => { f with held := f.held.filter fun x => x.id != m.id, outq := f.outq ++ [m] }) else .next s := by
  rw [execFabricQueueAdmit, h]

end

/-! ### Keys change (R508) -/

/-- The keys of a receiver to which the fabric manager has given one more. -/
def rxGiven (rx : List RxKey) (src : Nat) (gen : BitVec 32) (key : BitVec 256) : List RxKey :=
  ⟨src, gen, key, false⟩ :: (rx.filter fun k => k.src == src && k.gen != gen).take 1 ++ rx.filter fun k => k.src != src

section
variable (rx : List RxKey) (src : Nat) (gen : BitVec 32) (key : BitVec 256)

theorem src_of_mem_given :
    ∀ k ∈ (⟨src, gen, key, false⟩ : RxKey) :: (rx.filter fun k => k.src == src && k.gen != gen).take 1, k.src = src := by
  refine List.forall_mem_cons.2 ⟨rfl, fun k hk => ?_⟩
  have hboth := (List.mem_filter.1 (List.mem_of_mem_take hk)).2
  exact beq_iff_eq.1 (Bool.and_eq_true_iff.1 hboth).1

theorem rxGiven_own : (rxGiven rx src gen key).filter (fun k => k.src == src) =
    ⟨src, gen, key, false⟩ :: (rx.filter fun k => k.src == src && k.gen != gen).take 1 :=
  filter_own_append (src_of_mem_given rx src gen key) (src_of_mem_others src rx)

theorem rxGiven_others : (rxGiven rx src gen key).filter (fun k => k.src != src) = rx.filter fun k => k.src != src :=
  filter_other_append (src_of_mem_given rx src gen key) (src_of_mem_others src rx)

end

/-- A receiver that has heard a KEYCLEAR of a generation. -/
def FPort.erased (p : FPort) (x : List Byte) (gen : BitVec 32) : FPort :=
  { p.hear x with rx := (p.hear x).rx.filter fun k => !(k.src == flitSrc x && k.gen == gen) }

/-- A sender under its next key. -/
def FPort.rekeyed (p : FPort) (gen : BitVec 32) (key : BitVec 256) : FPort :=
  { p with txkey := key, txctr := 0, cleared := false, counters := tput cKeygen gen.toNat p.counters }

section
variable {s : State} {port : BitVec 4} {gen : BitVec 32} {key : BitVec 256}

theorem execKeyChange_sender : execKeyChange port (.sender gen key) s =
    if !(s.fport port.toNat).cleared || gen.toNat != (tget 0 (s.fport port.toNat).counters cKeygen + 1) % 2 ^ 32 then .next s
    else .next ((s.updFport port.toNat fun p => p.rekeyed gen key).keyClearNow port.toNat) := rfl

theorem execKeyChange_refused (h : (s.fport port.toNat).cleared = false ∨
    gen.toNat ≠ (tget 0 (s.fport port.toNat).counters cKeygen + 1) % 2 ^ 32) : execKeyChange port (.sender gen key) s = .next s := by
  rw [execKeyChange_sender]
  refine if_pos ?_
  rcases h with h | h
  · rw [h]; rfl
  · rw [bne_iff_ne.2 h, Bool.or_true]

theorem execKeyChange_taken (hclear : (s.fport port.toNat).cleared = true)
    (hgen : gen.toNat = (tget 0 (s.fport port.toNat).counters cKeygen + 1) % 2 ^ 32) : execKeyChange port (.sender gen key) s =
      .next ((s.updFport port.toNat fun p => p.rekeyed gen key).keyClearNow port.toNat) := by
  rw [execKeyChange_sender, hclear, ← hgen]
  exact if_neg (by simp)

end

theorem clearWaits_rekeyed (p : FPort) (gen : BitVec 32) (key : BitVec 256) : (p.rekeyed gen key).clearWaits = true ↔
    ∃ f ∈ p.retry, natOf ((f.bytes.drop 8).take 4) ≠ gen.toNat := by
  have hgen : (p.rekeyed gen key).keygen = gen.toNat := tget_tput_same _ _ _ _
  rw [FPort.clearWaits, hgen]
  simp only [FPort.rekeyed, Bool.false_or, List.any_eq_true, bne_iff_ne, flitGen]

/-- A sender has taken its next key. -/
theorem rekeyed_gives (s : State) (n : Nat) (gen : BitVec 32) (key : BitVec 256) :
    let t := (s.updFport n fun p => p.rekeyed gen key).keyClearNow n
    t = { s with fabric := t.fabric } ∧ (t.fport n).txkey = key ∧ tget 0 (t.fport n).counters cKeygen = gen.toNat ∧
      (t.fport n).retry = (s.fport n).retry ∧
      ((∃ f ∈ (s.fport n).retry, natOf ((f.bytes.drop 8).take 4) ≠ gen.toNat) →
        (t.fport n).txctr = 0 ∧ (t.fport n).cleared = false ∧ (t.fport n).out = (s.fport n).out) ∧
      ((∀ f ∈ (s.fport n).retry, natOf ((f.bytes.drop 8).take 4) = gen.toNat) → (t.fport n).cleared = true) := by
  let u := s.updFport n fun p => p.rekeyed gen key
  have hport : u.fport n = (s.fport n).rekeyed gen key := fport_updFport_same s n fun p => p.rekeyed gen key
  have hanswers := keyClearNow_answers u n
  have hstores := stores_keyClearNow u n
  have hwaits := clearWaits_rekeyed (s.fport n) gen key
  rw [← hport] at hwaits
  simp only [FPort.stores, Prod.mk.injEq] at hstores
  obtain ⟨hretry, -, hkey, hcleared⟩ := hstores
  refine ⟨?_, ?_, ?_, ?_, fun hold => ?_, fun hnew => ?_⟩
  · have hctr : (u.fport n).txctr = 0 := by rw [hport]; rfl
    have hstill := hanswers.link.still (by rw [hctr]; decide)
    rw [hstill]; rfl
  · rw [hkey, hport]; rfl
  · rw [hanswers.counters cKeygen (by decide), hport]
    exact tget_tput_same _ _ _ _
  · rw [hretry, hport]; rfl
  · rw [keyClearNow_waits (hwaits.2 hold), hport]
    exact ⟨rfl, rfl, rfl⟩
  · have hgo : (u.fport n).clearWaits = false := by
      rw [Bool.eq_false_iff, Ne, hwaits]
      exact fun ⟨f, hf, hne⟩ => hne (hnew f hf)
    rw [hcleared, hgo, Bool.not_false, Bool.or_true]

end Sys2Proof.Machine

namespace Sys2Proof

open Machine

theorem linkFlits : Claims.LinkFlits := by
  unfold Claims.LinkFlits
  intro s port x busy gen n p h src lseq clear fails
  have hsrc : src = flitSrc x := (flitSrc_eq x).symm
  have hlseq : lseq = flitLseq x := (flitLseq_eq x).symm
  have hclear : clear = s.opened n x := by simp only [clear, hsrc]; rfl
  refine ⟨fun i hi => ?_, fun hup hacc hpeer hcrc hopen htype => ?_⟩
  · obtain ⟨typ, k, hrun, htyp⟩ := exec_linkFlit s hi
    have failed {c : Nat} (hc : 2 ≤ c) (hin : s.flitIn n x = .bad c) (hpeer : p.peer ≠ none) : fails i c := by
      refine ⟨_, hrun.trans (onFlit_bad k hin), ?_⟩
      rw [hlseq]
      obtain ⟨⟨hlink, houtq, hwaiting⟩, hcount, hrx, hnacked⟩ := flitFails_counts s n (flitLseq x) hc
      exact ⟨hlink, houtq, hwaiting, hcount, hrx, hnacked, flitFails_silent c, fun hfirst => flitFails_naks c hfirst hpeer⟩
    refine ⟨fun hoff => hrun.trans (onFlit_absent k (flitIn_absent hoff)), fun hup hacc hpeer =>
      ⟨fun hcrc => failed (by decide) (flitIn_crc hup hacc hpeer hcrc) hpeer,
        fun hcrc hbad => failed (by decide) (flitIn_tag hup hacc hpeer hcrc (hclear ▸ hbad)) hpeer, fun hcrc hsome y hy hiy hother => ?_⟩⟩
    obtain ⟨text, htext⟩ := Option.isSome_iff_exists.1 hsome
    rw [htyp y hy hiy] at hother
    exact hrun.trans (onFlit_otherType k (flitIn_good hup hacc hpeer hcrc (hclear ▸ htext)) hother)
  · have hcomes : Comes s n 6 x := ⟨hup, hacc, hpeer, hcrc, htype, hclear ▸ hopen⟩
    obtain ⟨hrest, hothers⟩ := onlyPort_updFport s n fun p => p.hear x
    refine ⟨_, hcomes.onFlit _, hrest, hothers, ?_⟩
    rw [fport_updFport_same, hsrc]
    exact ⟨rfl, heard_hear p x⟩

theorem linkRecovery : Claims.LinkRecovery := by
  unfold Claims.LinkRecovery
  intro s port n p idle0 src lseqOf genOf on sure counts still heard again
  have hsrc (x : List Byte) : src x = flitSrc x := (flitSrc_eq x).symm
  have hlseq (x : List Byte) : (lseqOf x).toNat = flitLseq x := (flitLseq_eq x).symm
  have hsame (x : List Byte) (f : RetryFlit) : f.lseq = lseqOf x ↔ f.lseq.toNat = flitLseq x := by rw [← hlseq, BitVec.toNat_inj]
  have hsure (x : List Byte) : sure x = (p.hear x).rx := by simp only [sure, hsrc]; rfl
  have hcomes {x : List Byte} {typ : Nat} (h : on x typ) : Comes s n typ x := by
    obtain ⟨⟨hup, hacc, hpeer⟩, hcrc, htype, hopen⟩ := h
    rw [hsrc] at hopen
    exact ⟨hup, hacc, hpeer, hcrc, htype, hopen⟩
  have hnak {x : List Byte} (hon : on x 4) (b : Bool) : exec (.nak port x b) s = .next ((s.heard n x).nakked n (flitLseq x) b) :=
    (hcomes hon).onFlit _
  have hagain {t : State} (h : Restarts s t n p.unacked) : again t := by
    obtain ⟨hstill, hreinit, hretry, hpeer, hroom, hqueues, hkept⟩ := h
    refine ⟨hstill, hreinit, hretry, hpeer, hroom, hqueues.perm,
      fun m hm hid => hqueues.relayed (List.mem_filter.2 ⟨hm, decide_eq_true hid⟩), hqueues.front,
      fun hall => hqueues.held_of_relayed fun m hm => ?_, hkept⟩
    obtain ⟨hmem, hid⟩ := List.mem_filter.1 hm
    exact hall m hmem (of_decide_eq_true hid)
  refine ⟨fun x hon => ?ack, fun x busy => ⟨fun hon hunknown => ?unknown, fun hon hknown => ?known⟩, fun hnone => ?done, fun hleft => ?left,
    fun lane => ⟨fun hdown => execLaneFail_already hdown, fun hup => ?lane⟩,
    fun dest => ⟨fun hnone => execFabricQueueAdmit_none hnone, fun m hm => ⟨fun hfull => ?full, fun hroom => ?admits⟩⟩⟩
  case ack =>
    obtain ⟨hlink, hretry, hrx, houtq⟩ := acked_frees (s.heard n x) n (flitLseq x)
    rw [fport_heard] at hretry hrx
    refine ⟨_, (hcomes hon).onFlit _, hlink.before rfl (by rw [fport_heard]; rfl), hretry.trans ?_, hrx.trans (hsure x).symm, houtq⟩
    refine List.filter_congr fun f _ => ?_
    rw [Bool.eq_iff_iff, bne_iff_ne, bne_iff_ne, Ne, Ne, hsame]
  case unknown =>
    have hnone : ∀ f ∈ p.retry, f.lseq.toNat ≠ flitLseq x := fun f hf => mt (hsame x f).2 (hunknown f hf)
    refine ⟨_, (hnak hon busy).trans (congrArg _ (nakked_unknown busy (by rwa [fport_heard]))), rfl, ?_⟩
    simp only [heard, fport_heard, hsure]
    exact ⟨heard_hear p x, rfl⟩
  case known =>
    intro sent fourth
    have hsent : sent = p.resent (flitLseq x) := by simp only [sent, hlseq]; rfl
    have hfourth : fourth ↔ p.Fourth (flitLseq x) := by simp only [fourth, hsame]; rfl
    simp only [hsame] at hknown
    rw [hsent, hfourth]
    exact ⟨fun _ => ⟨_, hnak hon true, heard_nakked_busy hknown x⟩,
      fun _ hfew => ⟨_, hnak hon false, heard_nakked_replays hknown x hfew⟩,
      fun _ hfour => ⟨_, hnak hon false, hagain (heard_nakked_restarts hknown x hfour)⟩⟩
  case done => exact ⟨_, execDataPeriodEnd_done hnone, rfl, fport_updFport_same s n _⟩
  case left => exact ⟨_, execDataPeriodEnd_left hleft, hagain (replayFails_restarts s n).closed⟩
  case lane => exact laneFail_gives hup
  case full => exact (execFabricQueueAdmit_some hm).trans (if_neg (by rw [hfull]; decide))
  case admits => exact ⟨_, (execFabricQueueAdmit_some hm).trans (if_pos hroom), rfl, rfl, rfl, rfl⟩

theorem linkKeys : Claims.LinkKeys := by
  unfold Claims.LinkKeys
  intro s port n p gen0 still
  refine ⟨fun src gen key => ?_, fun gen key => ⟨execKeyChange_refused, fun hclear hgen => ?_⟩, fun x gen => ?_⟩
  · have hrun : exec (.keyChange port (.receiver src gen key)) s =
      .next (s.updFport n fun p => { p with rx := rxGiven p.rx src.toNat gen key }) := rfl
    refine ⟨_, hrun, rfl, ?_⟩
    rw [fport_updFport_same]
    exact ⟨rfl, rxGiven_own p.rx src.toNat gen key, rxGiven_others p.rx src.toNat gen key⟩
  · exact ⟨_, execKeyChange_taken hclear hgen, rekeyed_gives s n gen key⟩
  · intro src sure hup hacc hpeer hcrc htype hopen
    have hsrc : src = flitSrc x := (flitSrc_eq x).symm
    rw [hsrc] at hopen
    have hcomes : Comes s n 5 x := ⟨hup, hacc, hpeer, hcrc, htype, hopen⟩
    have hrun : exec (.keyclear port x gen) s = .next (s.updFport n fun p => p.erased x gen) := hcomes.onFlit _
    refine ⟨_, hrun, rfl, ?_⟩
    rw [fport_updFport_same]
    simp only [sure, hsrc]
    exact ⟨rfl, heard_hear p x⟩

/-- Settles O44: the flits of the link layer share their checks; an ACK is one update of the replay buffer; a NAK finds no flit, sends
again, or makes the replay fail (`Restarts`), as the end of a data period does; keys change by one update each. -/
theorem linkLayer : Obligations.LinkLayer := by
  unfold Obligations.LinkLayer
  exact ⟨linkRecovery, linkKeys, linkFlits⟩

end Sys2Proof

/-!
# Words and their instructions (O50, O51, O54)

A word is its fields in a row, so it is the word of an instruction exactly when each of its fields is the instruction's
(`encSA_eq_iff` and its like for the other formats). What a row of an opcode map asks of the fields is what the encoder writes there.
-/
namespace Sys2Proof

/-! ### Words as rows of fields -/

/-- The lowest field of a word, and what stands above it. -/
theorem append_eq_word {m n : Nat} {x : BitVec m} {y : BitVec n} {w : BitVec (m + n)} :
    x ++ y = w ↔ x = w.extractLsb' n m ∧ y = w.extractLsb' 0 n :=
  ⟨fun h => h ▸ ⟨BitVec.extractLsb'_append_eq_left.symm, BitVec.extractLsb'_append_eq_right.symm⟩,
    fun ⟨hx, hy⟩ => hx ▸ hy ▸ BitVec.extractLsb'_append_extractLsb'⟩

/-- The lowest field of a part of a word, before the fields `Q` that stand below. -/
theorem append_eq_part {k m n s : Nat} {x : BitVec m} {y : BitVec n} {w : BitVec k} {Q : Prop} :
    x ++ y = w.extractLsb' s (m + n) ∧ Q ↔ x = w.extractLsb' (s + n) m ∧ y = w.extractLsb' s n ∧ Q := by
  have hparts := BitVec.extractLsb'_append_extractLsb'_eq_extractLsb' (x := w) (start₁ := s) (len₁ := n) (len₂ := m) rfl
  rw [← hparts, append_eq_word, BitVec.extractLsb'_append_eq_left, BitVec.extractLsb'_append_eq_right, and_assoc]

/-- A narrow field that stands in a wider one has zeros above it. -/
theorem setWidth_eq_word {m n : Nat} {x : BitVec (m + n)} {y : BitVec n} :
    y.setWidth (m + n) = x ↔ 0 = x.extractLsb' n m ∧ y = x.extractLsb' 0 n := by
  have hzeros : y.setWidth (m + n) = 0#m ++ y := by
    ext i hi
    by_cases hlow : i < n
    · simp [BitVec.getElem_append, hlow]
    · simp [BitVec.getElem_append, hlow, y.getLsbD_of_ge i (by omega)]
  rw [hzeros, append_eq_word]
  rfl

/-! ### The scalar formats (R229) -/

section
variable {w : BitVec 32} {op : BitVec 8} {sd sa sb fn : BitVec 6}

theorem encSA_eq_iff : encSA op sd sa sb fn = w ↔ op = w.extractLsb' 24 8 ∧ sd = w.extractLsb' 18 6 ∧ sa = w.extractLsb' 12 6 ∧
    sb = w.extractLsb' 6 6 ∧ fn = w.extractLsb' 0 6 :=
  append_eq_word.trans (append_eq_part.trans (append_eq_part.trans append_eq_part))

theorem encSI_eq_iff {imm : BitVec 12} : encSI op sd sa imm = w ↔
    op = w.extractLsb' 24 8 ∧ sd = w.extractLsb' 18 6 ∧ sa = w.extractLsb' 12 6 ∧ imm = w.extractLsb' 0 12 :=
  append_eq_word.trans (append_eq_part.trans append_eq_part)

theorem encSJ_eq_iff {cnd : BitVec 4} {off : BitVec 14} : encSJ op cnd sa off = w ↔
    op = w.extractLsb' 24 8 ∧ cnd = w.extractLsb' 20 4 ∧ sa = w.extractLsb' 14 6 ∧ off = w.extractLsb' 0 14 :=
  append_eq_word.trans (append_eq_part.trans append_eq_part)

theorem encSL_eq_iff {imm : BitVec 18} : encSL op sd imm = w ↔
    op = w.extractLsb' 24 8 ∧ sd = w.extractLsb' 18 6 ∧ imm = w.extractLsb' 0 18 :=
  append_eq_word.trans append_eq_part

theorem encSM_eq_iff {sz : BitVec 2} {off : BitVec 10} : encSM op sd sa sz off = w ↔ op = w.extractLsb' 24 8 ∧
    sd = w.extractLsb' 18 6 ∧ sa = w.extractLsb' 12 6 ∧ sz = w.extractLsb' 10 2 ∧ off = w.extractLsb' 0 10 :=
  append_eq_word.trans (append_eq_part.trans (append_eq_part.trans append_eq_part))

end

/-! ### Field codes (R230-R233, R428) -/

theorem condOf_eq_some_iff {c : BitVec 4} {k : Cond} : condOf c = some k ↔ condCode k = c := by
  cases k <;> revert c <;> decide

theorem sizeOf_eq_iff {z : BitVec 2} {k : MemSize} : sizeOf z = k ↔ sizeCode k = z := by
  cases k <;> revert z <;> decide

theorem pathOf_eq_some_iff {p : BitVec 3} {k : PathSel} : pathOf p = some k ↔ pathCode k = p := by
  cases k <;> revert p <;> decide

theorem orderOf_eq_iff {o : BitVec 2} {k : Order} : orderOf o = k ↔ k.code = o := by
  cases k <;> revert o <;> decide

theorem scopeOf_eq_some_iff {c : BitVec 3} {k : Scope} : scopeOf c = some k ↔ k.code = c := by
  cases k <;> revert c <;> decide

theorem bit1_eq_iff {fn : BitVec 6} {b : Bool} : bit1 b = fn ↔ fn.extractLsb' 1 5 = 0 ∧ fn.getLsbD 0 = b := by
  cases b <;> revert fn <;> decide

/-- The FN field of ndeposit: the number of the register, and the force bit. -/
theorem deposit_eq_iff {fn : BitVec 6} {n : BitVec 2} {b : Bool} :
    n.setWidth 6 ||| (bit1 b <<< 2) = fn ↔ fn.extractLsb' 3 3 = 0 ∧ fn.extractLsb' 0 2 = n ∧ fn.getLsbD 2 = b := by
  cases b <;> revert fn n <;> decide

/-- The FN field of gadv: the gutter, and the bit that names its producer pointer (0) or its consumer pointer (1). -/
theorem advanceP_eq_iff {fn : BitVec 6} {g : BitVec 3} :
    g.setWidth 6 = fn ↔ fn.extractLsb' 4 2 = 0 ∧ fn.getLsbD 3 = false ∧ fn.extractLsb' 0 3 = g := by
  revert fn g
  decide

theorem advanceC_eq_iff {fn : BitVec 6} {g : BitVec 3} :
    g.setWidth 6 ||| 8 = fn ↔ fn.extractLsb' 4 2 = 0 ∧ fn.getLsbD 3 = true ∧ fn.extractLsb' 0 3 = g := by
  revert fn g
  decide

theorem orderField_eq_iff {fn : BitVec 6} {o : Ordering} {b : Bool} :
    orderField o b = fn ↔ orderingOf fn = some o ∧ fn.getLsbD 0 = b := by
  have hbit : (if b then 1#1 else 0#1) = fn.extractLsb' 0 1 ↔ fn.getLsbD 0 = b := by
    cases b <;> revert fn <;> decide
  obtain ⟨order, scope⟩ := o
  calc orderField ⟨order, scope⟩ b = fn
      ↔ order.code = fn.extractLsb' 4 2 ∧ scope.code = fn.extractLsb' 1 3 ∧ fn.getLsbD 0 = b := by
        rw [← hbit]
        exact append_eq_word.trans append_eq_part
    _ ↔ orderingOf fn = some ⟨order, scope⟩ ∧ fn.getLsbD 0 = b := by
        rw [← orderOf_eq_iff, ← scopeOf_eq_some_iff]
        simp [orderingOf, and_assoc, and_left_comm]

theorem rangeField_eq_iff {fn : BitVec 6} {d : Bool} {r : InvRange} :
    rangeField d r = fn ↔ fn.extractLsb' 3 3 = 0 ∧ fn.getLsbD 2 = d ∧ rangeOf fn = some r := by
  cases d <;> cases r <;> revert fn <;> decide

/-! ### The checks of a row (R234) -/

theorem need_eq_ok_iff {c : Bool} {k i : Instr} : need c k = .ok i ↔ c = true ∧ k = i := by
  unfold need
  cases c <;> simp

theorem withOrder_eq_ok_iff {fn : BitVec 6} {k : Ordering → Instr} {i : Instr} :
    withOrder fn k = .ok i ↔ ∃ o, orderingOf fn = some o ∧ k o = i := by
  unfold withOrder
  cases orderingOf fn <;> simp

theorem withRange_eq_ok_iff {fn : BitVec 6} {k : Bool → InvRange → Instr} {i : Instr} :
    withRange fn k = .ok i ↔ ∃ r, rangeField (fn.getLsbD 2) r = fn ∧ k (fn.getLsbD 2) r = i := by
  unfold withRange
  simp only [rangeField_eq_iff, beq_iff_eq, true_and, and_assoc]
  split
  · cases rangeOf fn <;> simp [*]
  · next hhigh => exact ⟨nofun, fun ⟨_, hzero, _⟩ => absurd hzero hhigh⟩


theorem encSA_inj {op op' : BitVec 8} {sd sd' sa sa' sb sb' fn fn' : BitVec 6} :
    encSA op sd sa sb fn = encSA op' sd' sa' sb' fn' ↔ op = op' ∧ sd = sd' ∧ sa = sa' ∧ sb = sb' ∧ fn = fn' := by
  obtain ⟨hop, hsd, hsa, hsb, hfn⟩ := encSA_eq_iff.1 (rfl : encSA op' sd' sa' sb' fn' = _)
  rw [encSA_eq_iff, ← hop, ← hsd, ← hsa, ← hsb, ← hfn]

/-- The FN field of a copy: its gutter, its form, and a zero. -/
theorem copyForm_eq_iff {fn : BitVec 6} {g form : BitVec 3} :
    g ++ form = fn ↔ g = fn.extractLsb' 3 3 ∧ form = fn.extractLsb' 0 3 := append_eq_word

/-- The operands that a copy's fields give are those with its word (R360). -/
theorem copyOps_eq_ok_iff (op : BitVec 8) {sd sa sb fn : BitVec 6} {o : CopyOps} :
    copyOps sd sa sb fn = .ok o ↔ encCopy op o = encSA op sd sa sb fn := by
  have hmem : fn.getLsbD 0 = false ∧ (fn.extractLsb' 1 2).toNat = 0 ↔ 0 = fn.extractLsb' 0 3 := by revert fn; decide
  have hfrom : fn.getLsbD 0 = false ∧ (fn.extractLsb' 1 2).toNat = 1 ↔ 2 = fn.extractLsb' 0 3 := by revert fn; decide
  have hto : fn.getLsbD 0 = false ∧ (fn.extractLsb' 1 2).toNat = 2 ↔ 4 = fn.extractLsb' 0 3 := by revert fn; decide
  unfold copyOps
  cases o with
  | mem a b g =>
    show _ ↔ encSA op 0 a b (g ++ 0#3) = _
    rw [encSA_inj, copyForm_eq_iff]
    grind
  | fromGutter g b =>
    show _ ↔ encSA op 0 0 b (g ++ 2#3) = _
    rw [encSA_inj, copyForm_eq_iff]
    grind
  | toGutter a g =>
    show _ ↔ encSA op 0 a 0 (g ++ 4#3) = _
    rw [encSA_inj, copyForm_eq_iff]
    grind

/-! ### The rows of the opcode map (R232) -/

/-- The row of the opcode map that a word's OP selects, read with the word's fields. -/
def scalarRow (w : BitVec 32) : Dec :=
  scalarMap (w.extractLsb' 24 8).toNat (w.extractLsb' 18 6) (w.extractLsb' 12 6) (w.extractLsb' 6 6)
    (w.extractLsb' 0 6) (w.extractLsb' 0 12) (w.extractLsb' 0 18) (w.extractLsb' 20 4) (w.extractLsb' 14 6)
    (w.extractLsb' 0 14) (w.extractLsb' 10 2) (w.extractLsb' 0 10)

theorem decodeScalar_eq_ok_iff {w : BitVec 32} {i : Instr} : decodeScalar w = .ok i ↔ scalarRow w = .ok i ∧ i.wf = true := by
  rw [show decodeScalar w = match scalarRow w with | .ok i => if i.wf then .ok i else .error .badField | .error e => .error e from rfl]
  split
  · next j hj => grind
  · next e he => simp [he]

section
variable {w : BitVec 32} {i k : Instr} {op : BitVec 8} {n : Nat}

theorem opcode_eq (h : (w.extractLsb' 24 8).toNat = n) (hn : op.toNat = n) : op = w.extractLsb' 24 8 :=
  BitVec.eq_of_toNat_eq (hn.trans h.symm)

theorem encodes_of_ok (h : ok k = .ok i) (hk : encodeScalar k = w) : encodeScalar i = w := by
  cases h
  exact hk

theorem encodes_of_need {c : Bool} (h : need c k = .ok i) (hk : c = true → encodeScalar k = w) : encodeScalar i = w := by
  obtain ⟨hc, rfl⟩ := need_eq_ok_iff.1 h
  exact hk hc

theorem encodes_of_order {k : Ordering → Instr} (hop : op = w.extractLsb' 24 8)
    (h : withOrder (w.extractLsb' 0 6) k = .ok i)
    (hk : ∀ o, encodeScalar (k o) = encSA op (w.extractLsb' 18 6) (w.extractLsb' 12 6) (w.extractLsb' 6 6)
      (orderField o ((w.extractLsb' 0 6).getLsbD 0))) : encodeScalar i = w := by
  obtain ⟨o, ho, rfl⟩ := withOrder_eq_ok_iff.1 h
  rw [hk]
  exact encSA_eq_iff.2 ⟨hop, rfl, rfl, rfl, orderField_eq_iff.2 ⟨ho, rfl⟩⟩

theorem encodes_of_range {k : Bool → InvRange → Instr} (hop : op = w.extractLsb' 24 8) (h : withRange (w.extractLsb' 0 6) k = .ok i)
    (hk : ∀ d r, encodeScalar (k d r) = encSA op (w.extractLsb' 18 6) (w.extractLsb' 12 6) (w.extractLsb' 6 6) (rangeField d r)) :
    encodeScalar i = w := by
  obtain ⟨r, hr, rfl⟩ := withRange_eq_ok_iff.1 h
  rw [hk]
  exact encSA_eq_iff.2 ⟨hop, rfl, rfl, rfl, hr⟩

theorem encodes_of_copy {k : CopyOps → Instr} (hop : op = w.extractLsb' 24 8)
    (h : (copyOps (w.extractLsb' 18 6) (w.extractLsb' 12 6) (w.extractLsb' 6 6) (w.extractLsb' 0 6)).map k = .ok i)
    (hk : ∀ o, encodeScalar (k o) = encCopy op o) : encodeScalar i = w := by
  cases ho : copyOps (w.extractLsb' 18 6) (w.extractLsb' 12 6) (w.extractLsb' 6 6) (w.extractLsb' 0 6) with
  | error e => rw [ho] at h; cases h
  | ok o =>
    rw [ho] at h
    cases h
    rw [hk, (copyOps_eq_ok_iff op).1 ho]
    exact encSA_eq_iff.2 ⟨hop, rfl, rfl, rfl, rfl⟩

end

/-- No bit of a word is dropped: a row asks for the word of its instruction. The rows stand in the order of R232. -/
theorem encodeScalar_of_scalarRow {w : BitVec 32} {i : Instr} (h : scalarRow w = .ok i) : encodeScalar i = w := by
  unfold scalarRow scalarMap at h
  split at h
  -- 0x00-0x20: arithmetic on registers
  iterate 24 next hop => exact encodes_of_need h fun hc => encSA_eq_iff.2 ⟨opcode_eq hop rfl, by grind⟩
  iterate 2 next hop => exact encodes_of_ok h (encSA_eq_iff.2 ⟨opcode_eq hop rfl, rfl, rfl, rfl, rfl⟩)
  iterate 6 next hop => exact encodes_of_need h fun hc => encSA_eq_iff.2 ⟨opcode_eq hop rfl, by grind⟩
  next hop => exact encodes_of_ok h (encSA_eq_iff.2 ⟨opcode_eq hop rfl, rfl, rfl, rfl, rfl⟩)
  -- 0x40-0x4F: immediates
  iterate 4 next hop => exact encodes_of_ok h (encSI_eq_iff.2 ⟨opcode_eq hop rfl, rfl, rfl, rfl⟩)
  iterate 3 next hop => exact encodes_of_need h fun hc => encSA_eq_iff.2 ⟨opcode_eq hop rfl, by grind⟩
  iterate 2 next hop => exact encodes_of_ok h (encSI_eq_iff.2 ⟨opcode_eq hop rfl, rfl, rfl, rfl⟩)
  iterate 3 next hop => exact encodes_of_ok h (encSL_eq_iff.2 ⟨opcode_eq hop rfl, rfl, rfl⟩)
  next hop =>
    exact encodes_of_need h fun hc => encSL_eq_iff.2
      ⟨opcode_eq hop rfl, rfl, setWidth_eq_word.2 ⟨(eq_of_beq hc).symm, rfl⟩⟩
  -- 0x60-0x69: jumps and splits
  next hop =>
    split at h
    · next c hcond => exact encodes_of_ok h (encSJ_eq_iff.2 ⟨opcode_eq hop rfl, condOf_eq_some_iff.1 hcond, rfl, rfl⟩)
    · cases h
  iterate 2 next hop => exact encodes_of_need h fun hc => encSJ_eq_iff.2 ⟨opcode_eq hop rfl, by grind⟩
  iterate 2 next hop =>
    exact encodes_of_need h fun hc => encSA_eq_iff.2 ⟨opcode_eq hop rfl, by grind⟩
  iterate 2 next hop =>
    exact encodes_of_need h fun hc => encSA_eq_iff.2 ⟨opcode_eq hop rfl, by grind [setWidth_eq_word (m := 2) (n := 4)]⟩
  -- 0x80-0x92: accesses, special registers, futures
  iterate 3 next hop => exact encodes_of_ok h (encSM_eq_iff.2 ⟨opcode_eq hop rfl, rfl, rfl, sizeOf_eq_iff.1 rfl, rfl⟩)
  iterate 10 next hop => exact encodes_of_order (opcode_eq hop rfl) h fun o => rfl
  next hop =>
    split at h
    · next hc =>
      obtain ⟨o, ho, rfl⟩ := withOrder_eq_ok_iff.1 h
      exact encSA_eq_iff.2 ⟨opcode_eq hop rfl, by grind [orderField_eq_iff]⟩
    · cases h
  iterate 2 next hop =>
    exact encodes_of_need h fun hc => encSI_eq_iff.2 ⟨opcode_eq hop rfl, by grind [setWidth_eq_word (m := 6) (n := 6)]⟩
  next hop =>
    exact encodes_of_need h fun hc => encSA_eq_iff.2
      ⟨opcode_eq hop rfl, rfl, rfl, rfl, bit1_eq_iff.2 ⟨eq_of_beq hc, rfl⟩⟩
  iterate 2 next hop =>
    exact encodes_of_need h fun hc => encSA_eq_iff.2 ⟨opcode_eq hop rfl, by grind⟩
  -- 0xA0-0xA7: clauses and waits
  next hop => exact encodes_of_need h fun hc => encSI_eq_iff.2 ⟨opcode_eq hop rfl, by grind⟩
  iterate 4 next hop => exact encodes_of_ok h (encSI_eq_iff.2 ⟨opcode_eq hop rfl, rfl, rfl, rfl⟩)
  next hop => exact encodes_of_need h fun hc => encSI_eq_iff.2 ⟨opcode_eq hop rfl, by grind⟩
  next hop =>
    split at h
    · next hc =>
      split at h
      · next p hp =>
        exact encodes_of_ok h (encSI_eq_iff.2
          ⟨opcode_eq hop rfl, by grind [setWidth_eq_word (m := 9) (n := 3), pathOf_eq_some_iff]⟩)
      · cases h
    · cases h
  next hop => exact encodes_of_need h fun hc => encSI_eq_iff.2 ⟨opcode_eq hop rfl, by grind⟩
  -- 0xA8-0xB3: gutters, copies, the matrix token
  next hop => exact encodes_of_need h fun hc => encSA_eq_iff.2 ⟨opcode_eq hop rfl, by grind [setWidth_eq_word (m := 3) (n := 3)]⟩
  next hop =>
    split at h
    · next hc =>
      split at h
      · next hbit => exact encodes_of_ok h (encSA_eq_iff.2 ⟨opcode_eq hop rfl, by grind [advanceC_eq_iff]⟩)
      · next hbit => exact encodes_of_ok h (encSA_eq_iff.2 ⟨opcode_eq hop rfl, by grind [advanceP_eq_iff]⟩)
    · cases h
  next hop => exact encodes_of_need h fun hc => encSA_eq_iff.2 ⟨opcode_eq hop rfl, by grind [setWidth_eq_word (m := 3) (n := 3)]⟩
  iterate 2 next hop => exact encodes_of_copy (opcode_eq hop rfl) h fun o => rfl
  next hop => exact encodes_of_need h fun hc => encSA_eq_iff.2 ⟨opcode_eq hop rfl, by grind⟩
  next hop => exact encodes_of_need h fun hc => encSI_eq_iff.2 ⟨opcode_eq hop rfl, by grind⟩
  next hop => exact encodes_of_copy (opcode_eq hop rfl) h fun o => rfl
  iterate 3 next hop => exact encodes_of_need h fun hc => encSA_eq_iff.2 ⟨opcode_eq hop rfl, by grind⟩
  next hop => exact encodes_of_need h fun hc => encSI_eq_iff.2 ⟨opcode_eq hop rfl, by grind⟩
  -- 0xB4-0xBA: courses, lane registers
  iterate 5 next hop => exact encodes_of_need h fun hc => encSA_eq_iff.2 ⟨opcode_eq hop rfl, by grind⟩
  iterate 2 next hop =>
    exact encodes_of_need h fun hc => encSI_eq_iff.2 ⟨opcode_eq hop rfl, by grind⟩
  -- 0xC0-0xD3: nouns and combinators
  iterate 2 next hop =>
    exact encodes_of_need h fun hc => encSA_eq_iff.2 ⟨opcode_eq hop rfl, by grind⟩
  next hop =>
    exact encodes_of_need h fun hc => encSA_eq_iff.2
      ⟨opcode_eq hop rfl, rfl, rfl, rfl, deposit_eq_iff.2 ⟨eq_of_beq hc, rfl, rfl⟩⟩
  iterate 4 next hop => exact encodes_of_need h fun hc => encSA_eq_iff.2 ⟨opcode_eq hop rfl, by grind⟩
  iterate 3 next hop => exact encodes_of_ok h (encSA_eq_iff.2 ⟨opcode_eq hop rfl, rfl, rfl, rfl, rfl⟩)
  next hop => exact encodes_of_need h fun hc => encSA_eq_iff.2 ⟨opcode_eq hop rfl, by grind⟩
  next hop => exact encodes_of_ok h (encSA_eq_iff.2 ⟨opcode_eq hop rfl, rfl, rfl, rfl, rfl⟩)
  next hop =>
    exact encodes_of_need h fun hc => encSA_eq_iff.2
      ⟨opcode_eq hop rfl, rfl, rfl, rfl, bit1_eq_iff.2 ⟨eq_of_beq hc, rfl⟩⟩
  next hop => exact encodes_of_need h fun hc => encSA_eq_iff.2 ⟨opcode_eq hop rfl, by grind⟩
  next hop => exact encodes_of_ok h (encSA_eq_iff.2 ⟨opcode_eq hop rfl, rfl, rfl, rfl, rfl⟩)
  next hop =>
    exact encodes_of_need h fun hc => encSA_eq_iff.2
      ⟨opcode_eq hop rfl, rfl, rfl, rfl, bit1_eq_iff.2 ⟨eq_of_beq hc, rfl⟩⟩
  iterate 3 next hop => exact encodes_of_need h fun hc => encSA_eq_iff.2 ⟨opcode_eq hop rfl, by grind⟩
  -- 0xE0-0xE7: traps and the supervisor
  iterate 2 next hop =>
    exact encodes_of_need h fun hc => encSI_eq_iff.2 ⟨opcode_eq hop rfl, by grind⟩
  next hop =>
    split at h
    · next hc =>
      simp only [Bool.and_eq_true, beq_iff_eq] at hc
      obtain ⟨⟨⟨hsd, hsa⟩, hsb⟩, hfn⟩ := hc
      have hword (b : Bool) (hbit : (w.extractLsb' 0 6).getLsbD 0 = b) : encSA 0xE2 0 0 0 (bit1 b) = w :=
        encSA_eq_iff.2 ⟨opcode_eq hop rfl, hsd.symm, hsa.symm, hsb.symm, bit1_eq_iff.2 ⟨hfn, hbit⟩⟩
      split at h
      · next hbit => exact encodes_of_ok h (hword true hbit)
      · next hbit => exact encodes_of_ok h (hword false (Bool.eq_false_of_not_eq_true hbit))
    · cases h
  next hop => exact encodes_of_ok h (encSA_eq_iff.2 ⟨opcode_eq hop rfl, rfl, rfl, rfl, rfl⟩)
  next hop => exact encodes_of_range (opcode_eq hop rfl) h fun d r => rfl
  next hop =>
    split at h
    · next hsb => exact encodes_of_range (opcode_eq hop rfl) h fun d r => by rw [eq_of_beq hsb]; rfl
    · cases h
  next hop => exact encodes_of_range (opcode_eq hop rfl) h fun d r => rfl
  next hop => exact encodes_of_need h fun hc => encSA_eq_iff.2 ⟨opcode_eq hop rfl, by grind⟩
  -- no row
  cases h

/-! ### The row of an encoded word

Each format fixes the fields that its rows read; the others are what the word happens to hold there. -/

section
variable (op : BitVec 8) (sd sa sb fn : BitVec 6)

theorem scalarRow_encSA : let w := encSA op sd sa sb fn
    scalarRow w = scalarMap op.toNat sd sa sb fn (w.extractLsb' 0 12) (w.extractLsb' 0 18) (w.extractLsb' 20 4) (w.extractLsb' 14 6)
      (w.extractLsb' 0 14) (w.extractLsb' 10 2) (w.extractLsb' 0 10) := by
  obtain ⟨hop, hsd, hsa, hsb, hfn⟩ := encSA_eq_iff.1 (rfl : encSA op sd sa sb fn = _)
  intro w
  rw [scalarRow, ← hop, ← hsd, ← hsa, ← hsb, ← hfn]

theorem scalarRow_encSI (imm : BitVec 12) : let w := encSI op sd sa imm
    scalarRow w = scalarMap op.toNat sd sa (w.extractLsb' 6 6) (w.extractLsb' 0 6) imm (w.extractLsb' 0 18) (w.extractLsb' 20 4)
      (w.extractLsb' 14 6) (w.extractLsb' 0 14) (w.extractLsb' 10 2) (w.extractLsb' 0 10) := by
  obtain ⟨hop, hsd, hsa, himm⟩ := encSI_eq_iff.1 (rfl : encSI op sd sa imm = _)
  intro w
  rw [scalarRow, ← hop, ← hsd, ← hsa, ← himm]

theorem scalarRow_encSJ (cnd : BitVec 4) (off : BitVec 14) : let w := encSJ op cnd sa off
    scalarRow w = scalarMap op.toNat (w.extractLsb' 18 6) (w.extractLsb' 12 6) (w.extractLsb' 6 6) (w.extractLsb' 0 6)
      (w.extractLsb' 0 12) (w.extractLsb' 0 18) cnd sa off (w.extractLsb' 10 2) (w.extractLsb' 0 10) := by
  obtain ⟨hop, hcnd, hsa, hoff⟩ := encSJ_eq_iff.1 (rfl : encSJ op cnd sa off = _)
  intro w
  rw [scalarRow, ← hop, ← hcnd, ← hsa, ← hoff]

theorem scalarRow_encSL (imm : BitVec 18) : let w := encSL op sd imm
    scalarRow w = scalarMap op.toNat sd (w.extractLsb' 12 6) (w.extractLsb' 6 6) (w.extractLsb' 0 6) (w.extractLsb' 0 12) imm
      (w.extractLsb' 20 4) (w.extractLsb' 14 6) (w.extractLsb' 0 14) (w.extractLsb' 10 2) (w.extractLsb' 0 10) := by
  obtain ⟨hop, hsd, himm⟩ := encSL_eq_iff.1 (rfl : encSL op sd imm = _)
  intro w
  rw [scalarRow, ← hop, ← hsd, ← himm]

theorem scalarRow_encSM (sz : BitVec 2) (off : BitVec 10) : let w := encSM op sd sa sz off
    scalarRow w = scalarMap op.toNat sd sa (w.extractLsb' 6 6) (w.extractLsb' 0 6) (w.extractLsb' 0 12) (w.extractLsb' 0 18)
      (w.extractLsb' 20 4) (w.extractLsb' 14 6) (w.extractLsb' 0 14) sz off := by
  obtain ⟨hop, hsd, hsa, hsz, hoff⟩ := encSM_eq_iff.1 (rfl : encSM op sd sa sz off = _)
  intro w
  rw [scalarRow, ← hop, ← hsd, ← hsa, ← hsz, ← hoff]

end

theorem setWidth_fields {k m n : Nat} (hk : k = m + n) (y : BitVec n) :
    (y.setWidth k).extractLsb' n m = 0 ∧ (y.setWidth k).extractLsb' 0 n = y := by
  subst hk
  obtain ⟨hhigh, hlow⟩ := setWidth_eq_word.1 (rfl : y.setWidth (m + n) = _)
  exact ⟨hhigh.symm, hlow.symm⟩

theorem withOrder_orderField (o : Ordering) (b : Bool) (k : Ordering → Bool → Instr) :
    withOrder (orderField o b) (fun o' => k o' ((orderField o b).getLsbD 0)) = .ok (k o b) := by
  obtain ⟨ho, hb⟩ := orderField_eq_iff.1 (rfl : orderField o b = _)
  exact withOrder_eq_ok_iff.2 ⟨o, ho, by rw [hb]⟩

theorem withRange_rangeField (d : Bool) (r : InvRange) (k : Bool → InvRange → Instr) :
    withRange (rangeField d r) k = .ok (k d r) := by
  obtain ⟨-, hd, -⟩ := rangeField_eq_iff.1 (rfl : rangeField d r = _)
  exact withRange_eq_ok_iff.2 ⟨r, by rw [hd], by rw [hd]⟩

/-- The word of a copy has the format SA, with fields that give its operands. -/
theorem encCopy_fields (op : BitVec 8) (o : CopyOps) :
    ∃ sd sa sb fn, encCopy op o = encSA op sd sa sb fn ∧ copyOps sd sa sb fn = .ok o := by
  cases o with
  | mem sa sb g => exact ⟨_, _, _, _, rfl, (copyOps_eq_ok_iff op).2 rfl⟩
  | fromGutter g sb => exact ⟨_, _, _, _, rfl, (copyOps_eq_ok_iff op).2 rfl⟩
  | toGutter sa g => exact ⟨_, _, _, _, rfl, (copyOps_eq_ok_iff op).2 rfl⟩

theorem scalarRow_encodeScalar {i : Instr} (hword : encodeScalar i ≠ 0 ∨ i = .sadd 0 0 0) (hillop : ∀ w, i ≠ .illopScalarWord w) :
    scalarRow (encodeScalar i) = .ok i := by
  cases i with
  | sadd sd sa sb | ssub sd sa sb | smul sd sa sb | smulh sd sa sb | smulhu sd sa sb | sdiv sd sa sb | sdivu sd sa sb | srem sd sa sb
  | sremu sd sa sb | sand sd sa sb | sor sd sa sb | sxor sd sa sb | sandn sd sa sb | sshl sd sa sb | sshr sd sa sb | ssra sd sa sb
  | smin sd sa sb | sminu sd sa sb | smax sd sa sb | smaxu sd sa sb | sseq sd sa sb | ssne sd sa sb | sslt sd sa sb | ssltu sd sa sb
  | ssle sd sa sb | ssleu sd sa sb | nsignal sd sa sb => exact (scalarRow_encSA _ sd sa sb 0).trans rfl
  | sclz sd sa | sctz sd sa | spopc sd sa | sbrev sd sa | sjalr sd sa | fget sd sa | ftest sd sa | cpcancel sd sa | mxgive sd sa
  | senrol sd sa | nwake sd sa | ntest sd sa | kyield sd sa | kcancel sd sa | skill sd sa => exact (scalarRow_encSA _ sd sa 0 0).trans rfl
  | sbfx sd sa sb fn | sbfi sd sa sb fn | ssel sd sa sb fn | kseq sd sa sb fn | kpar sd sa sb fn | kpipe sd sa sb fn | kloop sd sa sb fn
  | kresume sd fn sa sb | tlbfill sd sa sb fn => exact (scalarRow_encSA _ sd sa sb fn).trans rfl
  | sshli sd sa fn | sshri sd sa fn | ssrai sd sa fn | njoin sd fn sa | kfarm sd sa fn | ktake sd fn sa =>
    exact (scalarRow_encSA _ sd sa 0 fn).trans rfl
  | saddi sd sa imm | sandi sd sa imm | sori sd sa imm | sxori sd sa imm | sslti sd sa imm | ssltiu sd sa imm | slq1 sd sa imm
  | slq2 sd sa imm | slq3 sd sa imm | slq4 sd sa imm => exact (scalarRow_encSI _ sd sa imm).trans rfl
  | slimm0 sd imm | slimm1 sd imm | slimm2 sd imm => exact (scalarRow_encSL _ sd imm).trans rfl
  | slimm3 sd imm =>
    obtain ⟨hhigh, hlow⟩ := setWidth_fields (k := 18) (m := 8) rfl imm
    exact (scalarRow_encSL _ sd _).trans (need_eq_ok_iff.2 ⟨beq_iff_eq.2 hhigh, by rw [hlow]⟩)
  | sbCond c sa off => exact (scalarRow_encSJ _ sa _ off).trans (by cases c <;> rfl)
  | sj off => exact (scalarRow_encSJ _ 0 0 off).trans rfl
  | sjal sa off => exact (scalarRow_encSJ _ sa 0 off).trans rfl
  | sjr sa | nexit sa => exact (scalarRow_encSA _ 0 sa 0 0).trans rfl
  | ssplit sd sa mark =>
    obtain ⟨hhigh, hlow⟩ := setWidth_fields (k := 6) (m := 2) rfl mark
    exact (scalarRow_encSA _ sd sa 0 _).trans (need_eq_ok_iff.2 ⟨by rw [hhigh]; rfl, by rw [hlow]⟩)
  | smerge mark =>
    obtain ⟨hhigh, hlow⟩ := setWidth_fields (k := 6) (m := 2) rfl mark
    exact (scalarRow_encSA _ 0 0 0 _).trans (need_eq_ok_iff.2 ⟨by rw [hhigh]; rfl, by rw [hlow]⟩)
  | sld sd sa sz off | sldu sd sa sz off | sst sd sa sz off => exact (scalarRow_encSM _ sd sa _ off).trans (by cases sz <;> rfl)
  | scas sd sa sb o w | samoAdd sd sa sb o w | samoAnd sd sa sb o w | samoOr sd sa sb o w | samoXor sd sa sb o w | samoMin sd sa sb o w
  | samoMax sd sa sb o w | samoMinu sd sa sb o w | samoMaxu sd sa sb o w | samoSwap sd sa sb o w =>
    exact (scalarRow_encSA _ sd sa sb _).trans (withOrder_orderField o w _)
  | sfence o =>
    obtain ⟨ho, hb⟩ := orderField_eq_iff.1 (rfl : orderField o false = _)
    exact (scalarRow_encSA _ 0 0 0 _).trans ((if_pos (by rw [hb]; rfl)).trans (withOrder_eq_ok_iff.2 ⟨o, ho, rfl⟩))
  | sget sd r =>
    obtain ⟨hhigh, hlow⟩ := setWidth_fields (k := 12) (m := 6) rfl r
    exact (scalarRow_encSI _ sd 0 _).trans (need_eq_ok_iff.2 ⟨by rw [hhigh]; rfl, by rw [hlow]⟩)
  | sset r sa =>
    obtain ⟨hhigh, hlow⟩ := setWidth_fields (k := 12) (m := 6) rfl r
    exact (scalarRow_encSI _ 0 sa _).trans (need_eq_ok_iff.2 ⟨by rw [hhigh]; rfl, by rw [hlow]⟩)
  | fset sd sa sb b | kapply sd sa sb b | kemit sd sa sb b => exact (scalarRow_encSA _ sd sa sb _).trans (by cases b <;> rfl)
  | slq0 sa imm | mxask sa imm => exact (scalarRow_encSI _ 0 sa imm).trans rfl
  | swaitf imm | cpwait imm | strap imm | sbrk imm => exact (scalarRow_encSI _ 0 0 imm).trans rfl
  | sgrow sd imm | sshrink sd imm => exact (scalarRow_encSI _ sd 0 imm).trans rfl
  | swaitp p sa => exact (scalarRow_encSI _ 0 sa _).trans (by cases p <;> rfl)
  | slsync => exact (scalarRow_encSI _ 0 0 0).trans rfl
  | mxtake | sbar | sclbar | slbar | nsleep | seret => exact (scalarRow_encSA _ 0 0 0 0).trans rfl
  | seretSkip => exact (scalarRow_encSA _ 0 0 0 1).trans rfl
  | gdef g sa =>
    obtain ⟨hhigh, hlow⟩ := setWidth_fields (k := 6) (m := 3) rfl g
    exact (scalarRow_encSA _ 0 sa 0 _).trans (need_eq_ok_iff.2 ⟨by rw [hhigh]; rfl, by rw [hlow]⟩)
  | gstat sd g =>
    obtain ⟨hhigh, hlow⟩ := setWidth_fields (k := 6) (m := 3) rfl g
    exact (scalarRow_encSA _ sd 0 0 _).trans (need_eq_ok_iff.2 ⟨by rw [hhigh]; rfl, by rw [hlow]⟩)
  | gadvP g sa =>
    obtain ⟨hhigh, hbit, hlow⟩ := advanceP_eq_iff.1 (rfl : g.setWidth 6 = _)
    exact (scalarRow_encSA _ 0 sa 0 _).trans ((if_pos (by rw [hhigh]; rfl)).trans
      ((if_neg (by rw [hbit]; nofun)).trans (by rw [hlow]; rfl)))
  | gadvC g sa =>
    obtain ⟨hhigh, hbit, hlow⟩ := advanceC_eq_iff.1 (rfl : g.setWidth 6 ||| 8 = _)
    exact (scalarRow_encSA _ 0 sa 0 _).trans ((if_pos (by rw [hhigh]; rfl)).trans
      ((if_pos hbit).trans (by rw [hlow]; rfl)))
  | cpcopy o | cpcrypt o | cpresume o =>
    obtain ⟨sd, sa, sb, fn, hw, ho⟩ := encCopy_fields _ o
    exact (congrArg scalarRow hw).trans ((scalarRow_encSA _ sd sa sb fn).trans (congrArg (Except.map _) ho))
  | cpseal sd | sleave sd | kdone sd => exact (scalarRow_encSA _ sd 0 0 0).trans rfl
  | ndeposit sd sa sb n b =>
    obtain ⟨hhigh, hlow, hbit⟩ := deposit_eq_iff.1 (rfl : n.setWidth 6 ||| (bit1 b <<< 2) = _)
    exact (scalarRow_encSA _ sd sa sb _).trans (need_eq_ok_iff.2 ⟨beq_iff_eq.2 hhigh, by rw [hlow, hbit]⟩)
  | tlbinv sd sa sb d r | vtinv sd sa sb d r => exact (scalarRow_encSA _ sd sa sb _).trans (withRange_rangeField d r _)
  | ntinv sd sa d r => exact (scalarRow_encSA _ sd sa 0 _).trans (withRange_rangeField d r _)
  | illopScalarWord w => exact absurd rfl (hillop w)
  | _ => exact (hword.resolve_right nofun rfl).elim

/-- Settles O50: a word decodes as its row says, and a row asks for exactly what the encoder writes. -/
theorem decodeEncodeScalar : Obligations.DecodeEncodeScalar := by
  unfold Obligations.DecodeEncodeScalar
  refine ⟨fun i hwf hword hillop => decodeScalar_eq_ok_iff.2 ⟨scalarRow_encodeScalar hword hillop, hwf⟩, fun w i h => ?_⟩
  obtain ⟨hrow, hwf⟩ := decodeScalar_eq_ok_iff.1 h
  exact ⟨encodeScalar_of_scalarRow hrow, hwf⟩

/-! ### Lane words (R235-R241) -/

theorem operandOf_eq_some_iff {c : BitVec 9} {o : Operand} : operandOf c = some o ↔ o.code = c := by
  constructor
  · have hcode : ∀ c : BitVec 9, (operandOf c).all (fun o => o.code == c) = true := by decide
    intro h
    simpa [h] using hcode c
  · rintro rfl
    cases o with
    | v n => revert n; decide
    | c n => revert n; decide
    | s n => revert n; decide
    | qIn => rfl
    | qOut => rfl
    | laneid => rfl
    | imm => rfl

theorem ltypeOf_eq_some_iff {c : BitVec 4} {t : LType} : ltypeOf c.toNat = some t ↔ t.code = c := by
  cases t <;> revert c <;> decide

theorem flagBindOf_eq_some_iff {c : BitVec 2} {b : FlagBind} : flagBindOf c = some b ↔ b.code = c := by
  cases b <;> revert c <;> decide

/-- A lane word is that of its OPC and its fields. -/
theorem encodeLaneFields_eq_iff {w : BitVec 96} {opc : BitVec 10} {f : LaneFields} :
    encodeLaneFields opc f = w ↔ opc = w.extractLsb' 86 10 ∧ laneFieldsOf w = some f := by
  have hfields : encodeLaneFields opc f = w ↔ opc = w.extractLsb' 86 10 ∧ f.dist = w.extractLsb' 83 3 ∧ f.fsi = w.extractLsb' 80 3 ∧
      f.vd.code = w.extractLsb' 71 9 ∧ f.va.code = w.extractLsb' 62 9 ∧
      f.vb.code = w.extractLsb' 53 9 ∧ f.vc.code = w.extractLsb' 44 9 ∧
      f.ty.code = w.extractLsb' 40 4 ∧ f.fb.code = w.extractLsb' 38 2 ∧ f.md = w.extractLsb' 32 6 ∧ f.imm = w.extractLsb' 0 32 :=
    append_eq_word.trans <| append_eq_part.trans <| append_eq_part.trans <| append_eq_part.trans <| append_eq_part.trans <|
      append_eq_part.trans <| append_eq_part.trans <| append_eq_part.trans <| append_eq_part.trans append_eq_part
  obtain ⟨dist, fsi, vd, va, vb, vc, ty, fb, md, imm⟩ := f
  rw [hfields]
  simp only [laneFieldsOf, Option.bind_eq_bind, Option.bind_eq_some_iff, Option.pure_def, Option.some.injEq, LaneFields.mk.injEq,
    operandOf_eq_some_iff, ltypeOf_eq_some_iff, flagBindOf_eq_some_iff]
  aesop

/-- The opcode map gives the instruction of an OPC that stands in it (R241). -/
theorem laneMap_eq_some_iff {opc : BitVec 10} {f : LaneFields} {i : Instr} :
    laneMap opc.toNat f = some i ↔ laneOpc i = opc ∧ i.lane? = some f := by
  constructor
  · intro h
    unfold laneMap at h
    split at h
    case h_81 => cases h
    all_goals
      next hopc =>
        cases h
        exact ⟨BitVec.eq_of_toNat_eq hopc.symm, rfl⟩
  · rintro ⟨rfl, h⟩
    cases i <;> cases h <;> rfl

theorem encodeLane_of_lane {i : Instr} {f : LaneFields} (h : i.lane? = some f) : encodeLane i = encodeLaneFields (laneOpc i) f := by
  rw [encodeLane, h]

/-- A lane word decodes to the well-formed instruction whose word it is. -/
theorem decodeLane_eq_ok_iff {w : BitVec 96} {i : Instr} :
    decodeLane w = .ok i ↔ (∃ f, i.lane? = some f) ∧ encodeLane i = w ∧ i.wf = true := by
  have hdecode : decodeLane w = .ok i ↔
      ∃ f, laneFieldsOf w = some f ∧ laneMap (w.extractLsb' 86 10).toNat f = some i ∧ i.wf = true := by
    unfold decodeLane
    grind
  rw [hdecode]
  constructor
  · rintro ⟨f, hfields, hmap, hwf⟩
    obtain ⟨hopc, hlane⟩ := laneMap_eq_some_iff.1 hmap
    exact ⟨⟨f, hlane⟩, (encodeLane_of_lane hlane).trans (encodeLaneFields_eq_iff.2 ⟨hopc, hfields⟩), hwf⟩
  · rintro ⟨⟨f, hlane⟩, hword, hwf⟩
    obtain ⟨hopc, hfields⟩ := encodeLaneFields_eq_iff.1 ((encodeLane_of_lane hlane).symm.trans hword)
    exact ⟨f, hfields, laneMap_eq_some_iff.2 ⟨hopc, hlane⟩, hwf⟩

/-! ### Clause headers (R237) -/

theorem flagOf_eq_some_iff {c : BitVec 4} {x : Option (Fin 12)} : flagOf c = some x ↔ flagCode x = c := by
  revert c x
  decide

theorem encodeHeader_eq_iff {w : BitVec 96} {h : ClauseHeader} : encodeHeader h = w ↔ 0 = w.extractLsb' 80 16 ∧
    h.waitm = w.extractLsb' 68 12 ∧ flagCode h.seta = w.extractLsb' 64 4 ∧ flagCode h.setb = w.extractLsb' 60 4 ∧
    h.len = w.extractLsb' 56 4 ∧ 0 = w.extractLsb' 0 56 :=
  append_eq_word.trans <| append_eq_part.trans <| append_eq_part.trans <| append_eq_part.trans append_eq_part

/-- A header decodes to the well-formed header whose word it is. -/
theorem decodeHeader_eq_some_iff {w : BitVec 96} {h : ClauseHeader} : decodeHeader w = some h ↔ encodeHeader h = w ∧ h.wf = true := by
  obtain ⟨waitm, seta, setb, len⟩ := h
  rw [encodeHeader_eq_iff]
  simp only [decodeHeader, Option.bind_eq_bind, Option.bind_eq_some_iff, flagOf_eq_some_iff]
  grind

/-- Settles O51: a lane word or a header decodes exactly to the well-formed value whose word it is. -/
theorem decodeEncodeLane : Obligations.DecodeEncodeLane := by
  unfold Obligations.DecodeEncodeLane
  refine ⟨fun i f hlane hwf => decodeLane_eq_ok_iff.2 ⟨⟨f, hlane⟩, rfl, hwf⟩, fun w i h => (decodeLane_eq_ok_iff.1 h).2,
    fun h hwf => decodeHeader_eq_some_iff.2 ⟨rfl, hwf⟩, fun w h => decodeHeader_eq_some_iff.1⟩

/-- Settles O54: each word is computed through the decoder. -/
theorem decodeWords : Obligations.DecodeWords := by
  unfold Obligations.DecodeWords
  decide

end Sys2Proof

/-!
# Results of the lane instructions (O16, O18)

Every one of them issues by `State.laneResult`, and `laneResult_issues` says with which result. What is left is the value of a lane:
the numbers of the model (Sys2Proof/Machine/Bits.lean) against those of bit vectors.
-/
namespace Sys2Proof.Machine

/-! ### Integers of a type (R58, R60) -/

theorem sext_eq_toInt (x w : Nat) : sext x w = (BitVec.ofNat w x).toInt := by
  rw [← sext_toNat, BitVec.toNat_ofNat]
  simp only [sext, Nat.mod_mod]

theorem wrap_eq (x : Int) (w : Nat) : wrap x w = (x % 2 ^ w).toNat := by
  rw [wrap, Nat.cast_pow]
  rfl

theorem wrap_eq_toNat (x : Int) (w : Nat) : wrap x w = (BitVec.ofInt w x).toNat := (BitVec.toNat_ofInt x).symm

theorem typed_eq_numOf (t : LType) (x : Nat) : typed t x = numOf t x := by
  unfold typed numOf
  split
  · exact sext_eq_toInt x _
  · simp only [BitVec.toNat_ofNat]

theorem five_le_bits (t : LType) : 5 ≤ LType.bits t := by cases t <;> decide

/-- To clamp below and then above is to clamp above and then below (R60). -/
theorem fitInt_eq_fitted (t : LType) (sat : Bool) (x : Int) : fitInt t sat x = fitted t sat x := by
  have hlow : (0 : Int) < 2 ^ (LType.bits t - 1) := by positivity
  have hhigh : (0 : Int) < 2 ^ LType.bits t := by positivity
  unfold fitInt fitted
  simp only [wrap_eq, Nat.cast_pow, Nat.cast_ofNat]
  congr 2
  split
  · split <;> grind
  · rfl

/-! ### Bit patterns (R280) -/

/-- A count above the width shifts as the width does. -/
theorem shiftRight_min {w a : Nat} (n : Nat) (h : a < 2 ^ w) : (a >>> min n w) % 2 ^ w = (BitVec.ofNat w a >>> n).toNat := by
  have hsmall : a >>> min n w < 2 ^ w := (Nat.shiftRight_le _ _).trans_lt h
  rw [Nat.mod_eq_of_lt hsmall, BitVec.toNat_ushiftRight, BitVec.toNat_ofNat, Nat.mod_eq_of_lt h]
  rcases Nat.le_total n w with hn | hn
  · rw [Nat.min_eq_left hn]
  · rw [Nat.min_eq_right hn, Nat.shiftRight_eq_zero _ _ h, Nat.shiftRight_eq_zero _ _ (h.trans_le (Nat.pow_le_pow_right (by decide) hn))]

/-- Shifted by its width or more, an integer is its sign. -/
theorem toInt_div_eq_of_le {w n : Nat} (x : BitVec w) (h : w ≤ n) : x.toInt / (2 ^ n : Nat) = x.toInt / (2 ^ w : Nat) := by
  have hsign (k : Nat) (hk : w ≤ k) : x.toInt / (2 ^ k : Nat) = if x.toInt < 0 then -1 else 0 := by
    have hpow : (2 : Int) ^ w ≤ (2 ^ k : Nat) := by exact_mod_cast Nat.pow_le_pow_right (by decide : 0 < 2) hk
    have hlow := BitVec.le_two_mul_toInt (x := x)
    have hhigh := BitVec.two_mul_toInt_lt (x := x)
    split
    · next hneg => exact (Int.ediv_eq_iff_of_pos (by positivity)).2 (by omega)
    · next hneg => exact Int.ediv_eq_zero_of_lt (by omega) (by omega)
  rw [hsign n h, hsign w le_rfl]

theorem sext_div_min (w a n : Nat) : wrap (sext a w / (2 ^ min n w : Nat)) w = ((BitVec.ofNat w a).sshiftRight n).toNat := by
  have hdiv : ((BitVec.ofNat w a).sshiftRight n).toInt = sext a w / (2 ^ min n w : Nat) := by
    rw [BitVec.toInt_sshiftRight, Int.shiftRight_eq_div_pow, sext_eq_toInt]
    rcases Nat.le_total n w with hn | hn
    · rw [Nat.min_eq_left hn]
    · rw [Nat.min_eq_right hn]
      exact toInt_div_eq_of_le _ hn
  rw [← hdiv, wrap_eq_toNat, BitVec.ofInt_toInt]

theorem rotate_eq {w a : Nat} (n : Nat) (h : a < 2 ^ w) :
    (a <<< (n % w) + a >>> (w - n % w)) % 2 ^ w = ((BitVec.ofNat w a).rotateLeft n).toNat := by
  have hlow : a >>> (w - n % w) < 2 ^ (n % w) := by
    rw [Nat.shiftRight_eq_div_pow, Nat.div_lt_iff_lt_mul (by positivity), ← Nat.pow_add]
    rcases Nat.eq_zero_or_pos w with rfl | hw
    · simp_all
    · rwa [Nat.add_sub_cancel' (Nat.mod_lt n hw).le]
  rw [Nat.shiftLeft_add_eq_or_of_lt hlow, Nat.or_mod_two_pow, BitVec.toNat_rotateLeft, BitVec.toNat_ofNat, Nat.mod_eq_of_lt h,
    Nat.mod_eq_of_lt ((Nat.shiftRight_le _ _).trans_lt h)]

theorem clz_eq {w a : Nat} (h : a < 2 ^ w) : clz a w = if a = 0 then w else w - 1 - Nat.log2 a := by
  unfold clz
  split
  · next i hi =>
    obtain ⟨hbit, hrange, hbefore⟩ := List.find?_range_eq_some.1 hi
    have hi := List.mem_range.1 hrange
    have hzero : a ≠ 0 := by rintro rfl; simp at hbit
    have htop : Nat.log2 a < w := (Nat.log2_lt hzero).2 h
    have hle : w - 1 - i ≤ Nat.log2 a := by
      by_contra hgt
      rw [Nat.testBit_lt_two_pow ((Nat.log2_lt hzero).1 (by omega))] at hbit
      cases hbit
    have hge : i ≤ w - 1 - Nat.log2 a := by
      by_contra hlt
      have hunset := hbefore (w - 1 - Nat.log2 a) (by omega)
      rw [show w - 1 - (w - 1 - Nat.log2 a) = Nat.log2 a by omega, Nat.testBit_log2 hzero] at hunset
      cases hunset
    rw [if_neg hzero]
    omega
  · next hnone =>
    split
    · rfl
    · next hzero =>
      have htop : Nat.log2 a < w := (Nat.log2_lt hzero).2 h
      have hunset := List.find?_range_eq_none.1 hnone (w - 1 - Nat.log2 a) (by omega)
      rw [show w - 1 - (w - 1 - Nat.log2 a) = Nat.log2 a by omega, Nat.testBit_log2 hzero] at hunset
      cases hunset

theorem clz_mod_eq {w a : Nat} (h : a < 2 ^ w) :
    clz a w % 2 ^ w = if BitVec.ofNat w a = 0 then w else w - 1 - Nat.log2 (BitVec.ofNat w a).toNat := by
  have hzero : BitVec.ofNat w a = 0 ↔ a = 0 := by
    rw [← BitVec.toNat_inj, BitVec.toNat_ofNat, Nat.mod_eq_of_lt h]
    rfl
  have hw : w < 2 ^ w := Nat.lt_two_pow_self
  simp only [hzero, BitVec.toNat_ofNat, Nat.mod_eq_of_lt h, clz_eq h]
  split <;> exact Nat.mod_eq_of_lt (by omega)

theorem popCount_eq (a w : Nat) : popCount a w = (List.range w).countP fun i => (BitVec.ofNat w a).getLsbD i := by
  rw [popCount, ← List.countP_eq_length_filter]
  refine List.countP_congr fun i hi => ?_
  rw [BitVec.getLsbD_ofNat, decide_eq_true (List.mem_range.1 hi), Bool.true_and]

theorem foldl_add_range (g : Nat → Nat) (n : Nat) : (List.range n).foldl (fun r i => r + g i) 0 = ∑ i ∈ Finset.range n, g i := by
  induction n with
  | zero => rfl
  | succ n ih => rw [List.range_succ, List.foldl_append, ih, Finset.sum_range_succ]; rfl

/-- A number from its bits. -/
theorem testBit_sum_bits (c : Nat → Bool) (n j : Nat) :
    (∑ i ∈ Finset.range n, if c i then 2 ^ i else 0).testBit j = (decide (j < n) && c j) := by
  have hbits (n : Nat) : (∑ i ∈ Finset.range n, if c i then 2 ^ i else 0) < 2 ^ n ∧
      ∀ j, (∑ i ∈ Finset.range n, if c i then 2 ^ i else 0).testBit j = (decide (j < n) && c j) := by
    induction n with
    | zero => simp
    | succ n ih =>
      obtain ⟨hlt, hbit⟩ := ih
      have htop : (if c n then 2 ^ n else 0) = 2 ^ n * (c n).toNat := by cases c n <;> simp
      rw [Finset.sum_range_succ, htop, Nat.add_comm]
      refine ⟨?_, fun j => ?_⟩
      · cases c n <;> simp <;> omega
      · rw [Nat.testBit_two_pow_mul_add _ hlt, hbit]
        rcases Nat.lt_trichotomy j n with hj | rfl | hj
        · simp [hj, Nat.lt_succ_of_lt hj]
        · cases c j <;> simp
        · rw [if_neg (by omega), decide_eq_false (by omega), Bool.false_and]
          exact Nat.testBit_lt_two_pow ((Bool.toNat_le _).trans_lt (Nat.one_lt_two_pow (by omega)))
  exact (hbits n).2 j

theorem bitRev_eq (a w : Nat) : bitRev a w = (BitVec.ofNat w a).reverse.toNat := by
  have hsum : bitRev a w = ∑ i ∈ Finset.range w, if a.testBit (w - 1 - i) then 2 ^ i else 0 := by
    rw [← Finset.sum_range_reflect, ← foldl_add_range, bitRev]
    refine List.foldl_ext _ _ _ fun r i hi => ?_
    rw [Nat.sub_sub_self (Nat.le_sub_one_of_lt (List.mem_range.1 hi))]
    split <;> rfl
  refine Nat.eq_of_testBit_eq fun j => ?_
  rw [hsum, testBit_sum_bits, BitVec.testBit_toNat, BitVec.getLsbD_reverse, BitVec.getMsbD_eq_getLsbD, BitVec.getLsbD_ofNat]
  grind

theorem insertBits_testBit (d a pos len : Nat) {i : Nat} (h : i < 32) :
    (insertBits d a pos len).testBit i = if pos ≤ i ∧ i < pos + len then a.testBit (i - pos) else d.testBit i := by
  unfold insertBits
  rw [foldl_add_range, testBit_sum_bits]
  simp [h]

/-! ### Sources (R238, R245) -/

theorem vreg_lt (s : State) (v l : Nat) : s.vreg v l < 2 ^ 32 := by
  unfold State.vreg
  refine List.foldlRecOn (motive := fun x => x < 2 ^ 32) _ _ (BitVec.isLt _) fun x hx r _ => ?_
  split
  · split
    · split
      · exact BitVec.isLt _
      · exact hx
    · exact hx
  · exact hx

/-- A source fits its width. -/
theorem src_lt (s : State) (f : LaneFields) (o : Operand) {w l : Nat} (hw : 5 ≤ w) (hl : l < 32) : s.src f o w l < 2 ^ w := by
  have hmod (x : Nat) : x % 2 ^ w < 2 ^ w := Nat.mod_lt x (Nat.two_pow_pos w)
  cases o with
  | v n =>
    simp only [State.src]
    split
    · next hwide =>
      have hlow := vreg_lt s n.toNat l
      have hhigh := vreg_lt s (n.toNat + 1) l
      rw [eq_of_beq hwide, State.vpair]
      omega
    · exact hmod _
  | laneid => exact hl.trans_le (Nat.pow_le_pow_right (n := 2) (by decide) hw)
  | qIn => exact hmod _
  | c n => exact hmod _
  | imm => exact hmod _
  | qOut => exact Nat.two_pow_pos w
  | s n => exact Nat.two_pow_pos w

/-! ### Results whose lanes only compute (R278) -/

theorem excOf_eq_zero (ls : List Nat) {out : Nat → LaneOut} (h : ∀ l, (out l).exc = 0) : excOf ls out = 0 := by
  simp [excOf, h]

/-- An instruction that raises nothing issues with the values of its lanes. -/
theorem laneResult_values (s : State) (f : LaneFields) (lat : Nat) (t : LType) (c : Cause) (datum : Nat → Word) {out val : Nat → Nat}
    {more more' : Nat → List (Nat × Half)} (hval : ∀ l, l < 32 → out l = val l) (hmore : ∀ l, l < 32 → more l = more' l) :
    Gives (.next (s.laneResult f lat t c datum (fun l => { val := out l }) more)) (LaneIssues s · f (s.cycle + lat) t val more' 0) := by
  refine ⟨_, rfl, laneResult_issues s f lat t c datum _ more val more' 0 (fun l _ => ⟨rfl, ?_⟩) (fun n l hl => ?_) ?_⟩
  · simp [excTraps]
  · rw [hval l (lt_of_mem_lanesOf hl), hmore l (lt_of_mem_lanesOf hl)]
  · rw [excOf_eq_zero _ fun _ => rfl]
    rfl

theorem lanePure_gives (s : State) (f : LaneFields) (lat : Nat) {out val : Nat → Nat} (hval : ∀ l, l < 32 → out l = val l) :
    Gives (s.lanePure f lat out) (LaneIssues s · f (s.cycle + lat) f.ty val (fun _ => []) 0) :=
  laneResult_values s f lat f.ty .divz _ hval fun _ _ => rfl

theorem latOf_isWide (f : LaneFields) (a b : Nat) : latOf (isWide f) a b = cycles f.ty a b := by
  unfold latOf isWide cycles
  simp only [beq_iff_eq]

section
variable (s : State) (f : LaneFields)

/-- The typed instructions compute with the integers of their type (R280, R281). -/
theorem laneInt_gives (lat : Nat) (op : Int → Int → Int → Int) {exact : Nat → Int}
    (hop : ∀ l, op (numOf f.ty (s.srcA f l)) (numOf f.ty (s.srcB f l)) (numOf f.ty (s.srcC f l)) = exact l) :
    Gives (s.laneInt f lat op)
      (LaneIssues s · f (s.cycle + lat) f.ty (fun l => fitted f.ty (f.md.getLsbD 5) (exact l)) (fun _ => []) 0) :=
  lanePure_gives s f lat fun l _ => by rw [← hop, fitInt_eq_fitted, typed_eq_numOf, typed_eq_numOf, typed_eq_numOf]; rfl

/-- The others compute with the bits of their operands. -/
theorem laneBits_gives (op : Nat → Nat → Nat → Nat) {val : Nat → Nat}
    (hval : ∀ l, s.srcA f l < 2 ^ LType.bits f.ty → op (LType.bits f.ty) (s.srcA f l) (s.srcB f l) % 2 ^ LType.bits f.ty = val l) :
    Gives (s.laneBits f op) (LaneIssues s · f (s.cycle + cycles f.ty 2 4) f.ty val (fun _ => []) 0) := by
  rw [← latOf_isWide]
  exact lanePure_gives s f _ fun l hl => hval l (src_lt s f f.va (five_le_bits f.ty) hl)

end

/-! ### Fields and carries (R282, R283) -/

/-- A field extended by a signed type. -/
theorem wrap_sext_field (x len : Nat) : wrap (sext (x % 2 ^ len) len) 32 = ((BitVec.ofNat len x).signExtend 32).toNat := by
  rw [sext_eq_toInt, wrap_eq_toNat, BitVec.signExtend, ← BitVec.toNat_ofNat x len, BitVec.ofNat_toNat, BitVec.setWidth_eq]

/-- A sum of two operands and a carry, and its carry out (R282). -/
theorem laneCarry_gives (s : State) (f : LaneFields) (op : Int → Int → Int → Int) {exact : Nat → Int} {out : Nat → Bool}
    (hop : ∀ l, op (s.srcA f l) (s.srcB f l) (s.srcC f l % 2 : Nat) = exact l)
    (hout : ∀ l, s.srcA f l < 2 ^ LType.bits f.ty → s.srcB f l < 2 ^ LType.bits f.ty →
      (decide (exact l < 0 ∨ exact l ≥ (2 ^ LType.bits f.ty : Nat)) = out l)) :
    Gives (s.laneCarry f op) (LaneIssues s · f (s.cycle + cycles f.ty 2 4) f.ty (fun l => (exact l % 2 ^ LType.bits f.ty).toNat)
      (fun l => carryWrites f l (if out l then 1 else 0)) 0) := by
  rw [← latOf_isWide]
  refine laneResult_values s f _ _ _ _ (fun l _ => ?_) (fun l hl => ?_)
  · exact (congrArg (wrap · _) (hop l)).trans (wrap_eq _ _)
  · have hsmall (o : Operand) := src_lt s f o (five_le_bits f.ty) hl
    simp only [hop, ← hout l (hsmall f.va) (hsmall f.vb), Bool.decide_or]

/-! ### Division (R61, R62, R280) -/

theorem wrap_sext (a w : Nat) : wrap (sext a w) w = a % 2 ^ w := by
  rw [wrap_eq_toNat, sext_eq_toInt, BitVec.ofInt_toInt, BitVec.toNat_ofNat]

theorem numOf_of_signed {t : LType} (h : ltypeSigned t = true) (x : Nat) : numOf t x = sext x (LType.bits t) := by
  rw [← typed_eq_numOf, typed, if_pos h]

theorem numOf_of_unsigned {t : LType} (h : ltypeSigned t = false) (x : Nat) : numOf t x = (x % 2 ^ LType.bits t : Nat) := by
  rw [← typed_eq_numOf, typed, if_neg (by simp [h])]

theorem numOf_eq_zero_iff (t : LType) (x : Nat) : numOf t x = 0 ↔ x % 2 ^ LType.bits t = 0 := by
  cases h : ltypeSigned t with
  | true =>
    rw [numOf_of_signed h]
    refine ⟨fun hzero => ?_, fun hzero => by simp [sext, hzero]⟩
    rw [← wrap_sext, hzero]
    simp [wrap]
  | false => rw [numOf_of_unsigned h, Nat.cast_eq_zero]

/-- The quotient of R61: of a zero divisor it is the bound of the dividend's side. -/
def quotOf (t : LType) (a b : Int) : Int :=
  if b = 0 then (if ltypeSigned t then (if a < 0 then -2 ^ (LType.bits t - 1) else 2 ^ (LType.bits t - 1) - 1) else 2 ^ LType.bits t - 1)
  else a.tdiv b

/-- The remainder of R61: of a zero divisor it is the dividend. -/
def remOf (a b : Int) : Int := if b = 0 then a else a.tmod b

/-- A number that fits stands as it is. -/
theorem toNat_emod_of_lt {x w : Nat} (h : x < 2 ^ w) : ((x : Int) % 2 ^ w).toNat = x := by
  rw [← Nat.cast_ofNat, ← Nat.cast_pow, ← Int.natCast_mod, Int.toNat_natCast, Nat.mod_eq_of_lt h]

theorem divRem_signed {t : LType} (h : ltypeSigned t = true) (a b : Nat) : divRem true (LType.bits t) a b =
    ((quotOf t (numOf t a) (numOf t b) % 2 ^ LType.bits t).toNat, (remOf (numOf t a) (numOf t b) % 2 ^ LType.bits t).toNat) := by
  have hpow : 2 ^ LType.bits t = 2 * 2 ^ (LType.bits t - 1) := by
    rw [← pow_succ', Nat.sub_add_cancel (by have := five_le_bits t; omega)]
  have hpos : 0 < 2 ^ (LType.bits t - 1) := Nat.two_pow_pos _
  have hmin : (-2 ^ (LType.bits t - 1) % 2 ^ LType.bits t : Int).toNat = 2 ^ (LType.bits t - 1) := by
    have hwrap : (-2 ^ (LType.bits t - 1) : Int) = (2 ^ (LType.bits t - 1) : Nat) + 2 ^ LType.bits t * -1 := by
      have hcast : (2 : Int) ^ LType.bits t = 2 * 2 ^ (LType.bits t - 1) := by exact_mod_cast hpow
      rw [hcast]
      push_cast
      ring
    rw [hwrap, Int.add_mul_emod_self_left, toNat_emod_of_lt (by omega)]
  have hmax : ((2 ^ (LType.bits t - 1) - 1) % 2 ^ LType.bits t : Int).toNat = 2 ^ (LType.bits t - 1) - 1 := by
    rw [← toNat_emod_of_lt (w := LType.bits t) (x := 2 ^ (LType.bits t - 1) - 1) (by omega), Nat.cast_sub hpos]
    simp
  rw [numOf_of_signed h, numOf_of_signed h]
  unfold divRem quotOf remOf
  simp only [if_true, beq_iff_eq, h]
  split
  · refine Prod.ext ?_ ((wrap_sext a _).symm.trans (wrap_eq _ _))
    split
    · exact hmin.symm
    · exact hmax.symm
  · rw [wrap_eq, wrap_eq]

theorem divRem_unsigned {t : LType} (h : ltypeSigned t = false) (a b : Nat) : divRem false (LType.bits t) a b =
    ((quotOf t (numOf t a) (numOf t b) % 2 ^ LType.bits t).toNat, (remOf (numOf t a) (numOf t b) % 2 ^ LType.bits t).toNat) := by
  have hpos : 0 < 2 ^ LType.bits t := Nat.two_pow_pos _
  have hsmall : a % 2 ^ LType.bits t < 2 ^ LType.bits t := Nat.mod_lt _ hpos
  have hmax : ((2 ^ LType.bits t - 1) % 2 ^ LType.bits t : Int).toNat = 2 ^ LType.bits t - 1 := by
    rw [← toNat_emod_of_lt (w := LType.bits t) (x := 2 ^ LType.bits t - 1) (by omega), Nat.cast_sub hpos]
    simp
  rw [numOf_of_unsigned h, numOf_of_unsigned h]
  unfold divRem quotOf remOf
  simp only [Bool.false_eq_true, if_false, beq_iff_eq, Nat.cast_eq_zero, h]
  split
  · exact Prod.ext hmax.symm (toNat_emod_of_lt hsmall).symm
  · rw [← Int.ofNat_tdiv, ← Int.ofNat_tmod, toNat_emod_of_lt ((Nat.div_le_self _ _).trans_lt hsmall),
      toNat_emod_of_lt ((Nat.mod_le _ _).trans_lt hsmall)]

/-- The quotient and remainder of R61, as a register holds them. -/
theorem divRem_eq (t : LType) (a b : Nat) : divRem (ltypeSigned t) (LType.bits t) a b =
    ((quotOf t (numOf t a) (numOf t b) % 2 ^ LType.bits t).toNat, (remOf (numOf t a) (numOf t b) % 2 ^ LType.bits t).toNat) := by
  cases h : ltypeSigned t with
  | true => exact divRem_signed h a b
  | false => exact divRem_unsigned h a b

/-! ### Faults of lanes (R62, R75) -/

theorem getLsbD_bitMask (l : Nat) {j : Nat} (hj : j < 32) : (bitMask l).getLsbD j = decide (l = j) := by
  rw [bitMask, BitVec.getLsbD_ofNat, Nat.testBit_two_pow, decide_eq_true hj, Bool.true_and]

theorem getLsbD_maskOf (ls : List Nat) {j : Nat} (hj : j < 32) : (maskOf ls).getLsbD j = decide (j ∈ ls) := by
  have hfold (m : Mask) : (ls.foldl (fun m l => m ||| bitMask l) m).getLsbD j = (m.getLsbD j || decide (j ∈ ls)) := by
    induction ls generalizing m with
    | nil => simp
    | cons l ls ih => rw [List.foldl_cons, ih, BitVec.getLsbD_or, getLsbD_bitMask l hj]; simp [Bool.or_assoc, eq_comm]
  rw [maskOf, hfold, show BitVec.getLsbD (0 : Mask) j = false from BitVec.getLsbD_zero, Bool.false_or]

/-- Lanes that fault together (R62, R75): the result carries their fault, with the datum of the lowest, and writes the others. -/
theorem laneResult_faults (s : State) (f : LaneFields) (lat : Nat) (t : LType) (c : Cause) (datum : Nat → Word) (out : Nat → LaneOut)
    (hexc : ∀ l, (out l).exc = 0) {l : Nat} {ls : List Nat} (hbad : ((lanesOf s.lmask).filter fun l => (out l).bad) = l :: ls) :
    ∃ (r : LaneRes) (x : LaneFault), (s.laneResult f lat t c datum out fun _ => []).results = s.results ++ [r] ∧ r.fault = some x ∧
      x.exn.cause = c ∧ x.exn.lane = true ∧
      (∀ j, j < 32 → x.exn.mask.getLsbD j = decide (j ∈ l :: ls)) ∧ x.exn.data = datum l ∧
      ∀ n, f.vd = .v n → r.writes =
        ((lanesOf s.lmask).filter fun l => !(out l).bad).flatMap fun l => laneWrites t n.toNat l (out l).val := by
  have hfaulters : faulters s.clause.trapen (lanesOf s.lmask) out = l :: ls := by
    rw [← hbad, faulters]
    exact List.filter_congr fun l _ => by simp [hexc, excTraps]
  have hgood : ((lanesOf s.lmask).filter fun l => !(faulters s.clause.trapen (lanesOf s.lmask) out).contains l) =
      (lanesOf s.lmask).filter fun l => !(out l).bad := by
    refine List.filter_congr fun j hj => ?_
    rw [hfaulters, ← hbad]
    simp [hj]
  refine ⟨_, _, congrArg (· ++ [_]) (laneIssued_results s f), (congrArg (s.arithFault c · datum) hfaulters).trans rfl, rfl, rfl,
    fun j hj => getLsbD_maskOf _ hj, rfl, fun n hn => ?_⟩
  simp only [hgood, hn, List.append_nil]

end Sys2Proof.Machine

namespace Sys2Proof

open Machine

/-- R280-R283, R295: each instruction's operation, as integers of its type or as bits, is that of the rule. -/
theorem laneIntegerResults : Claims.LaneIntegers := by
  unfold Claims.LaneIntegers
  intro s f w a b c x y n sat i2 i4 out carry ci
  have hi2 : latI2 f = i2 := latOf_isWide f 2 4
  have hi4 : latI4 f = i4 := latOf_isWide f 4 8
  refine ⟨?vadd, ?vsub, ?vmul, ?vmulh, ?vmad, ?vmin, ?vmax, ?vabs, ?vand, ?vor, ?vxor, ?vnot, ?vshl, ?vshr, ?vsra, ?vrot, ?vclz, ?vpopc,
    ?vbrev, ?vbfx, ?vaddc, ?vsubb, ?vsel, ?vmov, ?vmovi, ?vbfi⟩
  case vadd => exact hi2 ▸ laneInt_gives s f _ (fun a b _ => a + b) fun _ => rfl
  case vsub => exact hi2 ▸ laneInt_gives s f _ (fun a b _ => a - b) fun _ => rfl
  case vmul => exact hi4 ▸ laneInt_gives s f _ (fun a b _ => a * b) fun _ => rfl
  case vmulh => exact hi4 ▸ laneInt_gives s f _ (fun a b _ => a * b / (2 ^ w : Nat)) fun _ => by rw [Nat.cast_pow]; rfl
  case vmad => exact hi4 ▸ laneInt_gives s f _ (fun a b c => a * b + c) fun _ => rfl
  case vmin => exact hi2 ▸ laneInt_gives s f _ (fun a b _ => min a b) fun _ => rfl
  case vmax => exact hi2 ▸ laneInt_gives s f _ (fun a b _ => max a b) fun _ => rfl
  case vabs => exact hi2 ▸ laneInt_gives s f _ (fun a _ _ => a.natAbs) fun _ => (Int.abs_eq_natAbs _).symm
  case vand =>
    exact laneBits_gives s f (fun _ a b => a &&& b) fun l _ =>
      by rw [Nat.and_mod_two_pow, BitVec.toNat_and, BitVec.toNat_ofNat, BitVec.toNat_ofNat]
  case vor =>
    exact laneBits_gives s f (fun _ a b => a ||| b) fun l _ =>
      by rw [Nat.or_mod_two_pow, BitVec.toNat_or, BitVec.toNat_ofNat, BitVec.toNat_ofNat]
  case vxor =>
    exact laneBits_gives s f (fun _ a b => a ^^^ b) fun l _ =>
      by rw [Nat.xor_mod_two_pow, BitVec.toNat_xor, BitVec.toNat_ofNat, BitVec.toNat_ofNat]
  case vnot =>
    exact laneBits_gives s f (fun w a _ => 2 ^ w - 1 - a) fun l ha => by
      rw [BitVec.toNat_not, BitVec.toNat_ofNat, Nat.mod_eq_of_lt ha, Nat.mod_eq_of_lt (by omega)]
  case vshl =>
    refine hi2 ▸ lanePure_gives s f _ fun l _ => ?_
    rw [fitInt_eq_fitted, typed_eq_numOf, Nat.cast_pow]
    rfl
  case vshr =>
    exact laneBits_gives s f (fun w a n => a >>> min n w) fun l ha => shiftRight_min _ ha
  case vsra =>
    exact laneBits_gives s f (fun w a n => wrap (sext a w / (2 ^ min n w : Nat)) w) fun l _ =>
      by rw [sext_div_min, Nat.mod_eq_of_lt (BitVec.isLt _)]
  case vrot =>
    exact laneBits_gives s f (fun w a n => a <<< (n % w) + a >>> (w - n % w)) fun l ha => rotate_eq _ ha
  case vclz => exact laneBits_gives s f (fun w a _ => clz a w) fun l ha => clz_mod_eq ha
  case vpopc =>
    exact laneBits_gives s f (fun w a _ => popCount a w) fun l _ => by
      rw [popCount_eq, Nat.mod_eq_of_lt]
      exact ((List.countP_le_length).trans_eq List.length_range).trans_lt Nat.lt_two_pow_self
  case vbrev =>
    exact laneBits_gives s f (fun w a _ => bitRev a w) fun l _ => by rw [bitRev_eq, Nat.mod_eq_of_lt (BitVec.isLt _)]
  case vbfx =>
    intro _
    refine hi2 ▸ lanePure_gives s f _ fun l _ => ?_
    dsimp only
    rw [wrap_sext_field, BitVec.toNat_ofNat]
  case vaddc =>
    refine laneCarry_gives s f (fun a b c => a + b + c) (fun l => rfl) fun l _ _ => decide_eq_decide.2 ?_
    have hci : 0 ≤ ci l := Int.emod_nonneg _ (by decide)
    rw [Nat.cast_pow, Nat.cast_ofNat]
    exact or_iff_right (by omega)
  case vsubb =>
    refine laneCarry_gives s f (fun a b c => a - b - c) (fun l => rfl) fun l ha _ => decide_eq_decide.2 ?_
    have hci : 0 ≤ ci l := Int.emod_nonneg _ (by decide)
    have hpow : (0 : Int) < (2 ^ LType.bits f.ty : Nat) := by positivity
    exact or_iff_left (by omega)
  case vsel => exact hi2 ▸ lanePure_gives s f _ fun l _ => by simp only [bne_iff_ne]
  case vmov => exact hi2 ▸ lanePure_gives s f _ fun l _ => rfl
  case vmovi =>
    have ht : (if isWide f then LType.u32 else f.ty) = if w = 64 then .u32 else f.ty := by simp [isWide, w]
    exact ht ▸ laneResult_values s f 2 _ _ _ (fun _ _ => rfl) fun _ _ => rfl
  case vbfi =>
    intro v hv _
    obtain ⟨t, ht, hissues⟩ := lanePure_gives s f (latI2 f) fun l _ => rfl
    refine ⟨t, ht, _, hi2 ▸ hissues, fun l i hi => ?_⟩
    rw [insertBits_testBit _ _ _ _ hi, State.oldDst, hv]

/-- R61, R62: a division that does not trap issues with its quotients or remainders, and one that does with those of the other lanes. -/
theorem laneDivisionResults : Claims.LaneDivisions := by
  unfold Claims.LaneDivisions
  intro s f w a b quot rem held traps zeros faults
  have hlat : latD f = cycles f.ty 24 40 := latOf_isWide f 24 40
  have hval (r : Bool) (l : Nat) : (divLane f r traps (s.srcA f l) (s.srcB f l)).val = held (if r then rem l else quot l) := by
    rw [divLane, divRem_eq]
    cases r <;> rfl
  have hbad (r : Bool) (l : Nat) : (divLane f r traps (s.srcA f l) (s.srcB f l)).bad = (traps && decide (b l = 0)) := by
    rw [divLane]
    simp only [b, numOf_eq_zero_iff]
    rfl
  have hdatum (l : Nat) : dividend f (s.srcA f l) = BitVec.ofInt 64 (a l) := by rw [dividend, typed_eq_numOf]
  constructor
  · intro hcalm
    have hissues (r : Bool) : Gives (s.laneDiv f r) (LaneIssues s · f (s.cycle + cycles f.ty 24 40) f.ty
        (fun l => held (if r then rem l else quot l)) (fun _ => []) 0) := by
      refine ⟨_, rfl, hlat ▸ laneResult_issues s f _ _ _ _ _ _ _ _ _ (fun l hl => ⟨?_, ?_⟩) (fun n l _ => by rw [hval]) ?_⟩
      · rw [hbad]
        obtain hoff | hnone := hcalm
        · rw [hoff, Bool.false_and]
        · rw [Bool.and_eq_false_iff]
          exact .inr (Bool.eq_false_of_not_eq_true (List.filter_eq_nil_iff.1 hnone l hl))
      · simp [excTraps, divLane]
      · rw [excOf_eq_zero _ fun _ => rfl]
        rfl
    exact ⟨hissues false, hissues true⟩
  · intro htraps
    have hfaults (i : Instr) (r : Bool) (hi : exec i s = s.laneDiv f r) : faults i fun l => if r then rem l else quot l := by
      intro l ls hzeros
      have hlanes : ((lanesOf s.lmask).filter fun l => (divLane f r traps (s.srcA f l) (s.srcB f l)).bad) = l :: ls := by
        rw [← hzeros]
        exact List.filter_congr fun l _ => by rw [hbad, htraps, Bool.true_and]
      obtain ⟨res, x, hres, hfault, hcause, hlane, hmask, hdata, hwrites⟩ := laneResult_faults s f (latD f) f.ty .divz
        (fun l => dividend f (s.srcA f l)) (fun l => divLane f r traps (s.srcA f l) (s.srcB f l)) (fun _ => rfl) hlanes
      refine ⟨_, hi, laneIssued_goes s f _, res, x, hres, hfault, hcause, hlane,
        hzeros ▸ hmask, hdata.trans (hdatum l), fun n hn => ?_⟩
      rw [hwrites n hn]
      simp only [hval, hbad]
      simp only [htraps, Bool.true_and, decide_not, ne_eq]
    exact ⟨hfaults _ false rfl, hfaults _ true rfl⟩

/-- Settles O16. -/
theorem laneIntegers : Obligations.LaneIntegers := by
  unfold Obligations.LaneIntegers
  exact ⟨laneIntegerResults, laneDivisionResults⟩

end Sys2Proof

namespace Sys2Proof.Machine

/-! ### Results of floating instructions (R285-R294) -/

section
variable {s : State} {f : LaneFields}

/-- With no trap enabled a floating result carries no fault: every lane writes, and the exception bits of all of them go to STATUS. -/
theorem laneResult_floats (hcalm : s.clause.trapen = 0) (lat : Nat) (t : LType) (c : Cause) (datum : Nat → Word)
    {out : Nat → LaneOut} {r : Nat → Nat × Exc} (hbad : ∀ l, (out l).bad = false) (hval : ∀ l, l < 32 → (out l).val = (r l).1)
    (hexc : ∀ l, l < 32 → (out l).exc = (r l).2) :
    Gives (.next (s.laneResult f lat t c datum out fun _ => [])) (LaneIssues s · f (s.cycle + lat) t (fun l => (r l).1) (fun _ => [])
      (((lanesOf s.lmask).foldl (fun e l => e ||| (r l).2) (0 : Exc)).setWidth 32)) := by
  refine ⟨_, rfl, laneResult_issues s f lat t c datum out _ _ _ _ (fun l _ => ⟨hbad l, ?_⟩) (fun n l hl => ?_) (congrArg _ ?_)⟩
  · simp [hcalm, excTraps]
  · rw [hval l (lt_of_mem_lanesOf hl)]
  · exact List.foldl_ext _ _ _ fun e l hl => by rw [hexc l (lt_of_mem_lanesOf hl)]

theorem laneFloat_gives (hcalm : s.clause.trapen = 0) (lat : Nat) (op : Fmt → Nat → Nat × Exc) {r : Nat → Nat × Exc}
    (hop : ∀ l, op (ltypeFmt f.ty) l = r l) :
    Gives (s.laneFloat f lat op) (LaneIssues s · f (s.cycle + lat) f.ty (fun l => (r l).1) (fun _ => [])
      (((lanesOf s.lmask).foldl (fun e l => e ||| (r l).2) (0 : Exc)).setWidth 32)) :=
  laneResult_floats hcalm lat f.ty .fptrap _ (fun _ => rfl) (fun l _ => congrArg Prod.fst (hop l)) fun l _ => congrArg Prod.snd (hop l)

end

/-- A reciprocal is the quotient of one, which is no NaN (R286). -/
theorem finish_recip (t : Fmt) (g : Round) (a : Val) :
    t.finish g [a] (divVal (.num false 1 0) a) = t.divOp g (.num false 1 0) a := by
  simp [Fmt.divOp, Fmt.finish, sn, excIf, Val.isSnan]

section
variable (s : State) (f : LaneFields)

/-- R288: a comparison into lanes. -/
theorem execVfcmp_lanes (hcalm : s.clause.trapen = 0) (hlanes : isScalarDst f = false) :
    let r (l : Nat) := fcmp (f.md.toNat % 8) (s.valA f l) (s.valB f l)
    Gives (execVfcmp f s) (LaneIssues s · f (s.cycle + cycles f.ty 4 6) .u32 (fun l => if (r l).1 then 1 else 0) (fun _ => [])
      (((lanesOf s.lmask).foldl (fun e l => e ||| (r l).2) (0 : Exc)).setWidth 32)) := by
  intro r
  rw [execVfcmp, if_neg (by rw [hlanes]; nofun), latF4, latOf_isWide]
  exact laneResult_floats hcalm _ .u32 .fptrap _ (r := fun l => (if (r l).1 then 1 else 0, (r l).2)) (fun _ => rfl) (fun _ _ => rfl)
    fun _ _ => rfl

end

/-! ### Conversions between types (R292) -/

theorem value_flt (t : Fmt) {c : Nat} (h : c < 2 ^ (1 + t.eb + t.fb)) : Elem.value (.flt t) false c = t.value c := by
  simp [Elem.value, Nat.mod_eq_of_lt h]

theorem value_int (w c : Nat) : Elem.value (.int true w) false c = .ofInt (BitVec.ofNat w c).toInt := by
  rw [Elem.value, sext_eq_toInt]

theorem convert_flt (src : Elem) (t : Fmt) (g : Round) (v : Val) :
    convert src (.flt t) g v = ((t.encode g v).1, (t.encode g v).2 ||| sn v) := by
  cases src <;> rfl

/-- A conversion between types, neither of them the slot's. -/
theorem execVcvt_types {s : State} {f : LaneFields} (hcalm : s.clause.trapen = 0) {src : Elem} {t : Fmt} (hfrom : f.imm ≠ 12)
    (hto : f.ty ≠ .slot) (hsrc : elemOf f.imm.toNat = some src) (hdst : ltypeElem f.ty = .flt t) {r : Nat → Nat × Exc}
    (hr : ∀ l, l < 32 → convert src (.flt t) (modRound f) (src.value false (s.src f f.va src.bits l)) = r l) :
    Gives (execVcvt f s) (LaneIssues s · f (s.cycle + latF4 (src.wide || (Elem.flt t).wide)) f.ty (fun l => (r l).1) (fun _ => [])
      (((lanesOf s.lmask).foldl (fun e l => e ||| (r l).2) (0 : Exc)).setWidth 32)) := by
  have hfrom' : (f.imm == 12) = false := beq_false_of_ne hfrom
  have hto' : (f.ty == .slot) = false := beq_false_of_ne hto
  unfold execVcvt
  simp only [hfrom', hto', hsrc, hdst, Option.getD_some, Bool.false_and, Bool.false_eq_true, if_false]
  exact laneResult_floats hcalm _ _ _ _ (fun _ => rfl) (fun l hl => congrArg Prod.fst (hr l hl)) fun l hl => congrArg Prod.snd (hr l hl)

theorem execVcvt_i32_f32 {s : State} {f : LaneFields} (hcalm : s.clause.trapen = 0) (hty : f.ty = .f32) (himm : f.imm = 2) :
    let r (l : Nat) := fmtF32.encode (modRound f) (Val.ofInt ((BitVec.ofNat 32 (s.src f f.va 32 l)).toInt))
    Gives (execVcvt f s) (LaneIssues s · f (s.cycle + 4) .f32 (fun l => (r l).1) (fun _ => [])
      (((lanesOf s.lmask).foldl (fun e l => e ||| (r l).2) (0 : Exc)).setWidth 32)) := by
  intro r
  refine hty ▸ execVcvt_types (t := fmtF32) hcalm (by rw [himm]; decide) (by rw [hty]; decide) (by rw [himm]; rfl) (by rw [hty]; rfl)
    fun l _ => ?_
  rw [convert_flt, value_int]
  exact Prod.ext rfl BitVec.or_zero

theorem execVcvt_f32_f64 {s : State} {f : LaneFields} (hcalm : s.clause.trapen = 0) (hty : f.ty = .f64) (himm : f.imm = 10) :
    let r (l : Nat) : Nat × Exc :=
      let x := fmtF32.value (s.src f f.va 32 l); let r := fmtF64.encode (modRound f) x; (r.1, r.2 ||| sn x)
    Gives (execVcvt f s) (LaneIssues s · f (s.cycle + 6) .f64 (fun l => (r l).1) (fun _ => [])
      (((lanesOf s.lmask).foldl (fun e l => e ||| (r l).2) (0 : Exc)).setWidth 32)) := by
  intro r
  refine hty ▸ execVcvt_types (t := fmtF64) hcalm (by rw [himm]; decide) (by rw [hty]; decide) (by rw [himm]; rfl) (by rw [hty]; rfl)
    fun l hl => ?_
  have hfits : s.src f f.va (Elem.flt fmtF32).bits l < 2 ^ (1 + fmtF32.eb + fmtF32.fb) := src_lt s f f.va (by decide) hl
  rw [convert_flt, value_flt fmtF32 hfits]
  rfl

/-! ### Packing (R294) -/

/-- The bits of a field are replaced by those of `x`, and the others stay. -/
theorem testBit_replace (old x lo len i : Nat) : (old - fieldNat old lo len * 2 ^ lo + x % 2 ^ len * 2 ^ lo).testBit i =
    if lo ≤ i ∧ i < lo + len then x.testBit (i - lo) else old.testBit i := by
  have hlow : old % 2 ^ lo < 2 ^ lo := Nat.mod_lt _ (Nat.two_pow_pos lo)
  have hfield : x % 2 ^ len < 2 ^ len := Nat.mod_lt _ (Nat.two_pow_pos len)
  have hnew : old - fieldNat old lo len * 2 ^ lo + x % 2 ^ len * 2 ^ lo =
      2 ^ lo * (2 ^ len * (old / 2 ^ lo / 2 ^ len) + x % 2 ^ len) + old % 2 ^ lo := by
    have hold : old = 2 ^ lo * (2 ^ len * (old / 2 ^ lo / 2 ^ len) + fieldNat old lo len) + old % 2 ^ lo := by
      rw [fieldNat, Nat.shiftRight_eq_div_pow, Nat.div_add_mod, Nat.div_add_mod]
    rw [Nat.mul_add] at hold ⊢
    rw [Nat.mul_comm (fieldNat old lo len), Nat.mul_comm (x % 2 ^ len)]
    omega
  rw [hnew, Nat.testBit_two_pow_mul_add _ hlow, Nat.testBit_two_pow_mul_add _ hfield, Nat.testBit_mod_two_pow, Nat.testBit_mod_two_pow,
    Nat.testBit_div_two_pow, Nat.testBit_div_two_pow]
  rcases Nat.lt_or_ge i lo with hlo | hlo
  · simp [hlo, Nat.not_le.2 hlo]
  rcases Nat.lt_or_ge i (lo + len) with hhi | hhi
  · simp [hlo, hhi, Nat.not_lt.2 hlo, show i - lo < len by omega]
  · simp [Nat.not_lt.2 hlo, Nat.not_lt.2 hhi, show ¬ i - lo < len by omega, show i - lo - len + len + lo = i by omega]

theorem execVpack_issues (s : State) (f : LaneFields) : Gives (execVpack f s) (fun u => ∃ val,
    LaneIssues s u f (s.cycle + 4) .u32 val (fun _ => []) 0 ∧
    ∀ v, f.vd = .v v → f.ty = .u8 → f.imm.toNat < 4 → ∀ l i, i < 32 → (val l).testBit i =
      let lo := 8 * f.imm.toNat
      if lo ≤ i ∧ i < lo + 8 then (s.src f f.va 32 l).testBit (i - lo) else (s.vreg v.toNat l).testBit i) := by
  obtain ⟨u, hu, hissues⟩ := laneResult_values s f 4 .u32 .fptrap (fun _ => 0) (fun _ _ => rfl) fun _ _ => rfl
  refine ⟨u, hu, _, hissues, fun v hv hty _ l i _ => ?_⟩
  rw [testBit_replace, State.oldDst, hv, hty]
  rfl

theorem execVunpack_u8 {s : State} {f : LaneFields} (hty : f.ty = .u8) :
    Gives (execVunpack f s) (LaneIssues s · f (s.cycle + 4) .u8
      (fun l => s.src f f.va 32 l / 2 ^ (8 * f.imm.toNat) % 256) (fun _ => []) 0) := by
  unfold execVunpack
  simp only [hty]
  refine laneResult_values s f 4 .u8 .fptrap (fun _ => 0) (fun l _ => ?_) fun _ _ => rfl
  show fieldNat _ (8 * f.imm.toNat) 8 % 2 ^ 8 = _
  rw [fieldNat, Nat.shiftRight_eq_div_pow, Nat.mod_mod]
  rfl

/-! ### Blocks (R293) -/

/-- A block adds its FINV to the STATUS bits of its result, which no earlier result shares its number with. -/
theorem addStatus_issues {s t : State} {f : LaneFields} {due : Nat} {ty : LType} {val : Nat → Nat} {more : Nat → List (Nat × Half)}
    {st : BitVec 32} (hfresh : ∀ r ∈ s.results, r.id < s.nextId) (x : BitVec 32) (h : LaneIssues s t f due ty val more st) :
    LaneIssues s { t with results := t.results.map fun r => if r.id != s.nextId then r else { r with status := r.status ||| x } }
      f due ty val more (st ||| x) := by
  obtain ⟨⟨hqueue, hregs, hpc, hexec, hothers, hwindow⟩, hmem, haccs,
    r, hres, hid, hfrag, hdue, hscalar, hfault, hflag, hstatus, hwrites⟩ := h
  have hold : s.results.map (fun r => if r.id != s.nextId then r else { r with status := r.status ||| x }) = s.results :=
    (List.map_congr_left fun r hr => if_pos (bne_iff_ne.2 (hfresh r hr).ne)).trans (List.map_id _)
  refine ⟨⟨hqueue, hregs, hpc, hexec, hothers, hwindow⟩, hmem, haccs,
    { r with status := r.status ||| x }, ?_, hid, hfrag, hdue, hscalar,
    hfault, hflag, congrArg (· ||| x) hstatus, hwrites⟩
  rw [hres, List.map_append, hold]
  simp [hid]

theorem execVcvtmx_issues {s : State} {f : LaneFields} (hcalm : s.clause.trapen = 0) (hfresh : ∀ r ∈ s.results, r.id < s.nextId) :
    Gives (execVcvtmx f s) (fun u => ∃ (lat : Nat) (val : Nat → Nat) (e : BitVec 32),
      LaneIssues s u f (s.cycle + lat) .u32 val (fun _ => []) e) := by
  have htraps (e : Exc) : (e &&& excInv != 0 && s.clause.trapen.getLsbD 0) = false := by simp [hcalm]
  unfold execVcvtmx
  simp only [htraps, Bool.false_eq_true, if_false, Bool.false_and]
  exact ⟨_, rfl, _, _, _, addStatus_issues hfresh _ (laneResult_issues s f _ _ _ _ _ _ _ _ _
    (fun _ _ => ⟨rfl, by simp [hcalm, excTraps]⟩) (fun _ _ _ => rfl) rfl)⟩

/-! ### NaN operands (R68) -/

section
variable {t : Fmt} (g : Round) (ht : t.top = .ieee)
include ht

theorem encode_nan (b : Bool) : (t.encode g (.nan b)).1 = t.canon := by
  simp [Fmt.encode, ht]

theorem finish_nan (args : List Val) {r : Val × Exc} (hr : r.1.isNan = true) : (t.finish g args r).1 = t.canon := by
  obtain ⟨v, e⟩ := r
  cases v with
  | nan b => exact encode_nan g ht b
  | inf n => cases hr
  | num n m x => cases hr

end

section
variable {x y : Val} (h : x.isNan ∨ y.isNan)
include h

theorem add_isNan (m : RMode) : (x.add m y).1.isNan = true := by
  cases x <;> cases y <;> simp_all [Val.add, Val.isNan]

theorem mul_isNan : (x.mul y).1.isNan = true := by
  cases x <;> cases y <;> simp_all [Val.mul, Val.isNan]

theorem divVal_isNan : (divVal x y).1.isNan = true := by
  cases x <;> cases y <;> simp_all [divVal, Val.isNan]

end

end Sys2Proof.Machine

namespace Sys2Proof

open Machine

/-- Settles O18. -/
theorem laneFloats : Obligations.LaneFloats := by
  unfold Obligations.LaneFloats
  constructor
  · intro s f hcalm t g a b c out f4 f16
    have h4 : latF4 (isWide f) = f4 := latOf_isWide f 4 6
    have h16 : latF16 (isWide f) = f16 := latOf_isWide f 16 28
    refine ⟨?vfadd, ?vfsub, ?vfmul, ?vfma, ?vfmin, ?vfmax, ?vfdiv, ?vfsqrt, ?vfrcp, ?vfrsq, ?vfexp2, ?vflog2, ?vfclass, ?vfrnd, ?vfcmp,
      ?vcvtInt, ?vcvtFloat, ?vpack, ?vunpack, ?vcvtmx⟩
    case vfadd => exact h4 ▸ laneFloat_gives hcalm _ (fun t l => t.addOp g (a l) (b l)) fun _ => rfl
    case vfsub => exact h4 ▸ laneFloat_gives hcalm _ (fun t l => t.addOp g (a l) (b l).neg) fun _ => rfl
    case vfmul => exact h4 ▸ laneFloat_gives hcalm _ (fun t l => t.mulOp g (a l) (b l)) fun _ => rfl
    case vfma => exact h4 ▸ laneFloat_gives hcalm _ (fun t l => t.fma g (a l) (b l) (c l)) fun _ => rfl
    case vfmin => exact h4 ▸ laneFloat_gives hcalm _ (fun t l => t.minmax false (s.srcA f l) (s.srcB f l)) fun _ => rfl
    case vfmax => exact h4 ▸ laneFloat_gives hcalm _ (fun t l => t.minmax true (s.srcA f l) (s.srcB f l)) fun _ => rfl
    case vfdiv => exact h16 ▸ laneFloat_gives hcalm _ (fun t l => t.divOp g (a l) (b l)) fun _ => rfl
    case vfsqrt => exact h16 ▸ laneFloat_gives hcalm _ (fun t l => t.finish g [a l] (sqrtVal (a l))) fun _ => rfl
    case vfrcp =>
      exact h16 ▸ laneFloat_gives hcalm _ (fun t l => t.finish g [a l] (divVal (.num false 1 0) (a l))) fun _ => finish_recip _ _ _
    case vfrsq => exact h16 ▸ laneFloat_gives hcalm _ (fun t l => t.finish g [a l] (rsqVal (a l))) fun _ => rfl
    case vfexp2 => exact h16 ▸ laneFloat_gives hcalm _ (fun t l => t.finish g [a l] (exp2Val (a l))) fun _ => rfl
    case vflog2 => exact h16 ▸ laneFloat_gives hcalm _ (fun t l => t.finish g [a l] (logVal (a l))) fun _ => rfl
    case vfclass =>
      exact h4 ▸ laneResult_floats hcalm _ .u32 .fptrap _ (r := fun l => (t.classOf (s.srcA f l), 0)) (fun _ => rfl) (fun _ _ => rfl)
        fun _ _ => rfl
    case vfrnd => exact h4 ▸ laneFloat_gives hcalm _ (fun t l => t.rnd (modRound f).mode (a l)) fun _ => rfl
    case vfcmp =>
      exact execVfcmp_lanes s f hcalm
    case vcvtInt => exact execVcvt_i32_f32 hcalm
    case vcvtFloat => exact execVcvt_f32_f64 hcalm
    case vpack => exact execVpack_issues s f
    case vunpack => exact fun hty _ => execVunpack_u8 hty
    case vcvtmx => exact execVcvtmx_issues hcalm
  · intro t g x y z ht h
    refine ⟨finish_nan g ht _ (add_isNan h _), finish_nan g ht _ (mul_isNan h), ?_, finish_nan g ht _ (divVal_isNan h), fun hx => ?_⟩
    · exact finish_nan g ht [] (r := (x.mul y).1.add g.mode z) (add_isNan (.inl (mul_isNan h)) _)
    · cases x with
      | nan b => exact ⟨finish_nan g ht _ rfl, finish_nan g ht _ rfl, finish_nan g ht _ rfl, finish_nan g ht _ rfl⟩
      | inf n => cases hx
      | num n m e => cases hx

end Sys2Proof
